-- ==== Sys2Proof/Word.lean ====
section
/-! DEFINITION. The plain word types of the MM-B8 (R4) and nothing else: bit fields, extensions and byte order
stand in Machine/Fields.lean. -/

namespace Sys2Proof

/-- One byte of memory (R4: memory is byte-addressed). -/
abbrev Byte := BitVec 8

/-- A lane or uniform register's value, and a memory word (R4). -/
abbrev Word := BitVec 32

/-- A register pair's value (R4: the low half stands in the even register). -/
abbrev Word64 := BitVec 64

end Sys2Proof
end

