-- ==== Sys2Proof/Syntax.lean ====
section
/-! DEFINITION. The syntax of the MM-B8: the framed fields of an encoded instruction (R46-R53), the arguments of the
machine's events, and Instr, one constructor per row of spec/opcode_table.json. -/

namespace Sys2Proof

/-- SCOPE of a MEM continuation (R52); code 7 is illegal and has no name here. -/
inductive Scope where
  | none | core | herd | die | dev | pod | sys
  deriving DecidableEq, Repr

/-- ORD of a MEM continuation (R52). -/
inductive Order where
  | plain | acquire | release | acqRel
  deriving DecidableEq, Repr

/-- HINT of a MEM continuation (R52, R118). -/
inductive Hint where
  | normal | evictFirst | evictLast | noAllocate
  deriving DecidableEq, Repr

/-- The EXT continuation (R50). -/
structure Ext where
  gn2 : Bool
  gp2 : BitVec 7
  dhi : BitVec 2
  ahi : BitVec 2
  bhi : BitVec 2
  cx : BitVec 8
  ea : Bool
  eb : Bool
  ec : Bool
  deriving DecidableEq, Repr

/-- The MEM continuation (R52). `off` is the signed 12-bit OFF, in units of the access size. -/
structure MemC where
  off : BitVec 12
  scope : Scope
  ord : Order
  hint : Hint
  rmt : Bool
  cs : BitVec 7
  deriving DecidableEq, Repr

/-- An instruction's fields as framed by R46-R53: the leading word and the continuations that follow it. `imm` and
`mod` are the 27 payload bits; the entries name their parts. -/
structure Form where
  gn : Bool
  gp : BitVec 3
  d : BitVec 6
  a : BitVec 6
  b : BitVec 6
  ext : Option Ext
  imm : Option (BitVec 27)
  mem : Option MemC
  mod : Option (BitVec 27)
  deriving DecidableEq, Repr

/-- Names a batch: the one of flock `flock` of the crew in slot `slot` of global core `core` that holds lane `lane`. -/
structure BatchRef where
  core : Nat
  slot : Nat
  flock : Nat
  lane : Nat
  deriving DecidableEq, Repr

/-- An output port of the combining network (R101, R143): stage 0 is F, 1-4 are M1-M4, 5 is L; `sw` is the switch,
`port` the output. -/
structure Port where
  stage : Nat
  sw : Nat
  port : Nat
  deriving DecidableEq, Repr

/-- What a COLL_STEP moves (R255, R256): the next own chunk, or the arrival of another rank's parameters and
contribution, which come over the pod links and are inputs of the model. -/
inductive CollInput where
  | own
  | contribution (rank : Nat) (word0 root count chunk : Nat) (elems : List (BitVec 64 × Bool))
  deriving DecidableEq, Repr

/-- Why a collective fails after acceptance (R259). -/
inductive CollFail where
  | disagree
  | buffer (cause : Nat) (addr : Nat)
  | trigger (cause : Nat)
  | remote (cause : Nat)
  deriving DecidableEq, Repr

/-- Where an uncorrectable SRAM error lies (R333). -/
inductive SramSite where
  | slice (part line : Nat) (sector : Nat)
  | l1 (core part line : Nat)
  | version (core slot sector : Nat)
  | scratch (core slot addr : Nat)
  | bstore (gquad row : Nat)
  | window (off : Nat)
  | laneReg (core slot flock lane reg : Nat)
  | lanePred (core slot flock lane n : Nat)
  | href (core slot flock lane n : Nat)
  | uniReg (core slot flock n : Nat)
  | uniPred (core slot flock n : Nat)
  | tile (gquad z : Nat)
  | bankA (gquad : Nat)
  | bankB (gquad : Nat)
  deriving DecidableEq, Repr

/-- What rebuilds an HBM sector with an uncorrectable error: its parity group, the clean compressed copy of its page, or neither
(R334, R335). -/
inductive RebuiltBy where
  | parity
  | copy
  | neither
  deriving DecidableEq, Repr

/-- What a read of a sector finds, for a request, a migration or the Hen: no error, one that the code corrects, one over more than two
symbols that it takes for such a one, or one that it cannot correct (R331, R334, R337). -/
inductive SectorFind where
  | clean
  | correctable
  | miscorrected
  | uncorrectable (by_ : RebuiltBy)
  deriving DecidableEq, Repr

/-- What a migration's read of its line meets: in which sector of the line, and what it finds there (R334, R336). -/
structure LineFind where
  half : Nat
  found : SectorFind
  deriving DecidableEq, Repr

/-- A read of the Hen: the occupancy of the controller's request queue in per cent, and what the read finds (R337). -/
structure HenRead where
  occupancy : Nat
  found : SectorFind
  deriving DecidableEq, Repr

/-- A link that can be lost (R339, R352). -/
inductive Link where
  | cxl (port : Nat)
  | host (port : Nat)
  | pod (port : Nat)
  deriving DecidableEq, Repr

/-- A host access: a read, or a write of bytes (R343, R103). -/
inductive HostAccess where
  | read (len : Nat)
  | write (bytes : List Byte)
  deriving DecidableEq, Repr

/-- The registers of the control space and of the management function that hold a value and have no event of their
own (R344, R349). -/
inductive MgmtReg where
  | flBase (fn : Nat)
  | flLen (fn : Nat)
  | lrec (fn slot word : Nat)
  | slway (ctx g : Nat)
  | bwsh (ctx s : Nat)
  | oxsh (ctx : Nat)
  | prio (ctx : Nat)
  | lq (ctx q : Nat)
  | winBase (ctx : Nat)
  | winSize (ctx : Nat)
  | cxlGrantBase (ctx i : Nat)
  | cxlGrantLimit (ctx i : Nat)
  | hostGrantBase (ctx i : Nat)
  | hostGrantLimit (ctx i : Nat)
  | assignFrame (ctx : Nat)
  | releaseFrame (ctx : Nat)
  | poolFrame (ctx : Nat)
  | saveArea (ctx : Nat)
  | interval (ctx : Nat)
  | quantum (ctx : Nat)
  | tokens (die : Nat)
  | actMax
  | migThreshold
  | scrubThreshold (stack : Nat)
  | scrubPeriod (stack : Nat)
  | timeout (link : Link)
  | enginePkr (key : Nat)
  | breakHalt (ctx : Nat)
  | pkg
  | npkg
  | publicKey (ctx : Nat)
  | reserved (offset : Nat)
  deriving DecidableEq, Repr

/-- What stands at an 8-byte word of the PF's management space (R344): a register's value, the existence of a context, a word of its
QOWN, the loss of a link's range, what the firmware mailbox reports, or a word of the latest attestation report. -/
inductive MgmtPlace where
  | reg (r : MgmtReg)
  | context (ctx : Nat)
  | qown (ctx word : Nat)
  | lost (link : Link)
  | fwMailbox
  | attMailbox (word : Nat)
  deriving DecidableEq, Repr

/-- The units a reset finds failed and fences (R26, R344). -/
structure FenceMap where
  cores : List Nat
  quads : List Nat
  slices : List Nat
  hbm : List Nat
  deriving DecidableEq, Repr

/-- What a load request supplies with a binary (R360, R364, R358): the fibre count, the load parameters, and the start
the loader chooses for each class's block, by class code. -/
structure LoadReq where
  fibres : Option Nat
  params : List (BitVec 64)
  blocks : List (Nat × Nat)
  deriving DecidableEq, Repr

/-- One constructor per row of spec/opcode_table.json: the encoded instructions, which carry their framed fields, then
the machine's events (the steps of R93, R99, R101, R166 and the events of the later parts), which no word encodes. -/
inductive Instr where
  /-- IADD (R68, lane 0x00). -/
  | iadd (x : Form)
  /-- ISUB (R68, lane 0x01). -/
  | isub (x : Form)
  /-- IMUL (R68, lane 0x02). -/
  | imul (x : Form)
  /-- IMULH (R68, lane 0x03). -/
  | imulh (x : Form)
  /-- IMAD (R68, lane 0x04). -/
  | imad (x : Form)
  /-- IADD64 (R68, lane 0x05). -/
  | iadd64 (x : Form)
  /-- IMIN (R68, lane 0x06). -/
  | imin (x : Form)
  /-- IMAX (R68, lane 0x07). -/
  | imax (x : Form)
  /-- IABS (R68, lane 0x08). -/
  | iabs (x : Form)
  /-- IDIV (R69, lane 0x09). -/
  | idiv (x : Form)
  /-- IREM (R69, lane 0x0A). -/
  | irem (x : Form)
  /-- AND (R68, lane 0x0B). -/
  | and (x : Form)
  /-- OR (R68, lane 0x0C). -/
  | or (x : Form)
  /-- XOR (R68, lane 0x0D). -/
  | xor (x : Form)
  /-- ANDN (R68, lane 0x0E). -/
  | andn (x : Form)
  /-- BLUT (R72, lane 0x0F). -/
  | blut (x : Form)
  /-- SHL (R70, lane 0x10). -/
  | shl (x : Form)
  /-- SHR (R70, lane 0x11). -/
  | shr (x : Form)
  /-- SAR (R70, lane 0x12). -/
  | sar (x : Form)
  /-- ROT (R70, lane 0x13). -/
  | rot (x : Form)
  /-- BFX (R71, lane 0x14). -/
  | bfx (x : Form)
  /-- BFI (R71, lane 0x15). -/
  | bfi (x : Form)
  /-- POPC (R68, lane 0x16). -/
  | popc (x : Form)
  /-- CLZ (R68, lane 0x17). -/
  | clz (x : Form)
  /-- BREV (R68, lane 0x18). -/
  | brev (x : Form)
  /-- LEA (R72, lane 0x19). -/
  | lea (x : Form)
  /-- BPICK (R72, lane 0x1A). -/
  | bpick (x : Form)
  /-- IDP4 (R73, lane 0x1B). -/
  | idp4 (x : Form)
  /-- MOV (R76, lane 0x20). -/
  | mov (x : Form)
  /-- MOVI (R76, lane 0x21). -/
  | movi (x : Form)
  /-- MOVHI (R76, lane 0x22). -/
  | movhi (x : Form)
  /-- SEL (R76, lane 0x23). -/
  | sel (x : Form)
  /-- LANEX (R77, lane 0x24). -/
  | lanex (x : Form)
  /-- PCOL (R78, lane 0x25). -/
  | pcol (x : Form)
  /-- SR (R76, lane 0x26). -/
  | sr (x : Form)
  /-- PTOV (R76, lane 0x27). -/
  | ptov (x : Form)
  /-- VTOP (R76, lane 0x28). -/
  | vtop (x : Form)
  /-- URD (R76, lane 0x29). -/
  | urd (x : Form)
  /-- BRA (R82, lane 0x30). -/
  | bra (x : Form)
  /-- BRX (R83, lane 0x31). -/
  | brx (x : Form)
  /-- CALL (R84, lane 0x32). -/
  | call (x : Form)
  /-- CALLI (R84, lane 0x33). -/
  | calli (x : Form)
  /-- RET (R83, lane 0x34). -/
  | ret (x : Form)
  /-- FSPAWN (R85, lane 0x35). -/
  | fspawn (x : Form)
  /-- FEND (R86, lane 0x36). -/
  | fend (x : Form)
  /-- RCV (R87, lane 0x37). -/
  | rcv (x : Form)
  /-- ICMP (R74, lane 0x38). -/
  | icmp (x : Form)
  /-- PLUT (R75, lane 0x39). -/
  | plut (x : Form)
  /-- FCMP (R200, lane 0x3A). -/
  | fcmp (x : Form)
  /-- HCMP (R200, lane 0x3B). -/
  | hcmp (x : Form)
  /-- BCMP (R200, lane 0x3C). -/
  | bcmp (x : Form)
  /-- FCLASS (R202, lane 0x3D). -/
  | fclass (x : Form)
  /-- FADD (R197, lane 0x40). -/
  | fadd (x : Form)
  /-- FSUB (R197, lane 0x41). -/
  | fsub (x : Form)
  /-- FMUL (R197, lane 0x42). -/
  | fmul (x : Form)
  /-- FFMA (R197, lane 0x43). -/
  | ffma (x : Form)
  /-- FMIN (R197, lane 0x44). -/
  | fmin (x : Form)
  /-- FMAX (R197, lane 0x45). -/
  | fmax (x : Form)
  /-- FDIV (R197, lane 0x46). -/
  | fdiv (x : Form)
  /-- FSQRT (R197, lane 0x47). -/
  | fsqrt (x : Form)
  /-- FRCP (R197, lane 0x48). -/
  | frcp (x : Form)
  /-- FRSQ (R198, lane 0x49). -/
  | frsq (x : Form)
  /-- FEX2 (R198, lane 0x4A). -/
  | fex2 (x : Form)
  /-- FLG2 (R198, lane 0x4B). -/
  | flg2 (x : Form)
  /-- FSIN (R198, lane 0x4C). -/
  | fsin (x : Form)
  /-- FCOS (R198, lane 0x4D). -/
  | fcos (x : Form)
  /-- FRND (R197, lane 0x4E). -/
  | frnd (x : Form)
  /-- FSCALE (R197, lane 0x4F). -/
  | fscale (x : Form)
  /-- FCPYS (R197, lane 0x50). -/
  | fcpys (x : Form)
  /-- HADD2 (R199, lane 0x60). -/
  | hadd2 (x : Form)
  /-- HMUL2 (R199, lane 0x61). -/
  | hmul2 (x : Form)
  /-- HFMA2 (R199, lane 0x62). -/
  | hfma2 (x : Form)
  /-- HMIN2 (R199, lane 0x63). -/
  | hmin2 (x : Form)
  /-- HMAX2 (R199, lane 0x64). -/
  | hmax2 (x : Form)
  /-- BADD2 (R199, lane 0x65). -/
  | badd2 (x : Form)
  /-- BMUL2 (R199, lane 0x66). -/
  | bmul2 (x : Form)
  /-- BFMA2 (R199, lane 0x67). -/
  | bfma2 (x : Form)
  /-- CVT (R204, lane 0x68). -/
  | cvt (x : Form)
  /-- CVTP (R205, lane 0x69). -/
  | cvtp (x : Form)
  /-- CVTQ (R206, lane 0x6A). -/
  | cvtq (x : Form)
  /-- CVTX (R207, lane 0x6B). -/
  | cvtx (x : Form)
  /-- LD (R109, lane 0x70). -/
  | ld (x : Form)
  /-- ST (R109, lane 0x71). -/
  | st (x : Form)
  /-- LDS (R115, lane 0x72). -/
  | lds (x : Form)
  /-- STS (R115, lane 0x73). -/
  | sts (x : Form)
  /-- ATOM (R139, lane 0x74). -/
  | atom (x : Form)
  /-- RED (R139, lane 0x75). -/
  | red (x : Form)
  /-- CAS (R139, lane 0x76). -/
  | cas (x : Form)
  /-- QENQ (R152, lane 0x77). -/
  | qenq (x : Form)
  /-- QDEQ (R152, lane 0x78). -/
  | qdeq (x : Form)
  /-- SLICEOF (R120, lane 0x79). -/
  | sliceof (x : Form)
  /-- HOMEOF (R145, lane 0x7A). -/
  | homeof (x : Form)
  /-- PREF (R119, lane 0x7B). -/
  | pref (x : Form)
  /-- HLD (R160, lane 0x7C). -/
  | hld (x : Form)
  /-- HST (R160, lane 0x7D). -/
  | hst (x : Form)
  /-- HREF_PIN (R161, lane 0x7E). -/
  | hrefPin (x : Form)
  /-- HREF_UNPIN (R161, lane 0x7E). -/
  | hrefUnpin (x : Form)
  /-- HREF_CMP (R161, lane 0x7E). -/
  | hrefCmp (x : Form)
  /-- HREF_ISNULL (R161, lane 0x7E). -/
  | hrefIsnull (x : Form)
  /-- HREF_MOV (R161, lane 0x7E). -/
  | hrefMov (x : Form)
  /-- HREF_FROM (R161, lane 0x7E). -/
  | hrefFrom (x : Form)
  /-- HREF_TO (R161, lane 0x7E). -/
  | hrefTo (x : Form)
  /-- HNEW (R162, lane 0x7F). -/
  | hnew (x : Form)
  /-- UADD (R79, uniform 0x00). -/
  | uadd (x : Form)
  /-- USUB (R79, uniform 0x01). -/
  | usub (x : Form)
  /-- UMUL (R79, uniform 0x02). -/
  | umul (x : Form)
  /-- UMAD (R79, uniform 0x03). -/
  | umad (x : Form)
  /-- UMIN (R79, uniform 0x04). -/
  | umin (x : Form)
  /-- UMAX (R79, uniform 0x05). -/
  | umax (x : Form)
  /-- UAND (R79, uniform 0x06). -/
  | uand (x : Form)
  /-- UOR (R79, uniform 0x07). -/
  | uor (x : Form)
  /-- UXOR (R79, uniform 0x08). -/
  | uxor (x : Form)
  /-- USHL (R79, uniform 0x09). -/
  | ushl (x : Form)
  /-- USHR (R79, uniform 0x0A). -/
  | ushr (x : Form)
  /-- USAR (R79, uniform 0x0B). -/
  | usar (x : Form)
  /-- UMOV (R79, uniform 0x0C). -/
  | umov (x : Form)
  /-- UMOVI (R79, uniform 0x0D). -/
  | umovi (x : Form)
  /-- UMOVHI (R79, uniform 0x0E). -/
  | umovhi (x : Form)
  /-- USEL (R79, uniform 0x0F). -/
  | usel (x : Form)
  /-- ULEA (R79, uniform 0x10). -/
  | ulea (x : Form)
  /-- UCMP (R79, uniform 0x11). -/
  | ucmp (x : Form)
  /-- UPLUT (R79, uniform 0x12). -/
  | uplut (x : Form)
  /-- USR (R79, uniform 0x13). -/
  | usr (x : Form)
  /-- UFROM (R80, uniform 0x14). -/
  | ufrom (x : Form)
  /-- ULD (R112, uniform 0x15). -/
  | uld (x : Form)
  /-- UST (R112, uniform 0x16). -/
  | ust (x : Form)
  /-- UFADD (R208, uniform 0x17). -/
  | ufadd (x : Form)
  /-- UFMUL (R208, uniform 0x18). -/
  | ufmul (x : Form)
  /-- UFFMA (R208, uniform 0x19). -/
  | uffma (x : Form)
  /-- UCVT (R208, uniform 0x1A). -/
  | ucvt (x : Form)
  /-- UBRA (R82, uniform 0x20). -/
  | ubra (x : Form)
  /-- ELECT (R273, uniform 0x21). -/
  | elect (x : Form)
  /-- SLEEP (R274, uniform 0x22). -/
  | sleep (x : Form)
  /-- WAKE (R274, uniform 0x23). -/
  | wake (x : Form)
  /-- BAR (R275, uniform 0x24). -/
  | bar (x : Form)
  /-- TBAR (R276, uniform 0x25). -/
  | tbar (x : Form)
  /-- RNGWAIT_F (R277, uniform 0x26). -/
  | rngwaitF (x : Form)
  /-- RNGWAIT_E (R277, uniform 0x26). -/
  | rngwaitE (x : Form)
  /-- RNGSIG_F (R277, uniform 0x27). -/
  | rngsigF (x : Form)
  /-- RNGSIG_E (R277, uniform 0x27). -/
  | rngsigE (x : Form)
  /-- YIELD (R278, uniform 0x28). -/
  | yield (x : Form)
  /-- LAUNCH (R279, uniform 0x29). -/
  | launch (x : Form)
  /-- DONE (R280, uniform 0x2A). -/
  | done (x : Form)
  /-- NOP (R88, uniform 0x2B). -/
  | nop (x : Form)
  /-- BINCFG (R281, uniform 0x2C). -/
  | bincfg (x : Form)
  /-- FENCE (R121, uniform 0x30). -/
  | fence (x : Form)
  /-- CMAINT_CLEAN (R122, uniform 0x31). -/
  | cmaintClean (x : Form)
  /-- CMAINT_INVALIDATE (R122, uniform 0x31). -/
  | cmaintInvalidate (x : Form)
  /-- CMAINT_CLEAN_INVALIDATE (R122, uniform 0x31). -/
  | cmaintCleanInvalidate (x : Form)
  /-- CMAINT_DEMOTE (R122, uniform 0x31). -/
  | cmaintDemote (x : Form)
  /-- CPY (R131, uniform 0x32). -/
  | cpy (x : Form)
  /-- CPYDRAIN (R133, uniform 0x33). -/
  | cpydrain (x : Form)
  /-- NBINIT (R127, uniform 0x34). -/
  | nbinit (x : Form)
  /-- NBARR (R127, uniform 0x35). -/
  | nbarr (x : Form)
  /-- NBWAIT (R127, uniform 0x36). -/
  | nbwait (x : Form)
  /-- QWAIT (R153, uniform 0x37). -/
  | qwait (x : Form)
  /-- COLL (R248, uniform 0x38). -/
  | coll (x : Form)
  /-- SETWAYS (R125, uniform 0x39). -/
  | setways (x : Form)
  /-- PSNAP_OPEN (R134, uniform 0x3A). -/
  | psnapOpen (x : Form)
  /-- PSNAP_CLOSE (R134, uniform 0x3A). -/
  | psnapClose (x : Form)
  /-- PSNAP_BEGIN (R134, uniform 0x3A). -/
  | psnapBegin (x : Form)
  /-- PSNAP_PUBLISH (R134, uniform 0x3A). -/
  | psnapPublish (x : Form)
  /-- PHINT_HOT (R135, uniform 0x3B). -/
  | phintHot (x : Form)
  /-- PHINT_COLD (R135, uniform 0x3B). -/
  | phintCold (x : Form)
  /-- HRELOC (R163, uniform 0x3C). -/
  | hreloc (x : Form)
  /-- BLD (R221, uniform 0x40). -/
  | bld (x : Form)
  /-- SLD (R222, uniform 0x41). -/
  | sld (x : Form)
  /-- MMA (R225, uniform 0x42). -/
  | mma (x : Form)
  /-- MMAI (R225, uniform 0x43). -/
  | mmai (x : Form)
  /-- ZZERO (R227, uniform 0x44). -/
  | zzero (x : Form)
  /-- ZLD (R227, uniform 0x45). -/
  | zld (x : Form)
  /-- ZST (R227, uniform 0x46). -/
  | zst (x : Form)
  /-- ZRD (R227, uniform 0x47). -/
  | zrd (x : Form)
  /-- ZWR (R227, uniform 0x48). -/
  | zwr (x : Form)
  /-- ZPIN (R237, uniform 0x50). -/
  | zpin (x : Form)
  /-- ZATT (R237, uniform 0x51). -/
  | zatt (x : Form)
  /-- ZDET (R237, uniform 0x52). -/
  | zdet (x : Form)
  /-- ZREL (R237, uniform 0x53). -/
  | zrel (x : Form)
  /-- GDR (R243, uniform 0x54). -/
  | gdr (x : Form)
  /-- GDR_CQ (R243, uniform 0x54). -/
  | gdrCq (x : Form)
  /-- GQR (R243, uniform 0x55). -/
  | gqr (x : Form)
  /-- GQR_CQ (R243, uniform 0x55). -/
  | gqrCq (x : Form)
  /-- ZSPILL (R237, uniform 0x56). -/
  | zspill (x : Form)
  /-- ZINFO_T (R238, uniform 0x57). -/
  | zinfoT (x : Form)
  /-- ZINFO_H (R238, uniform 0x57). -/
  | zinfoH (x : Form)
  /-- TRAP (R323, uniform 0x60). -/
  | trap (x : Form)
  /-- BPT (R323, uniform 0x61). -/
  | bpt (x : Form)
  /-- CKPT (R322, uniform 0x62). -/
  | ckpt (x : Form)
  /-- ERET (R324, uniform 0x63). -/
  | eret (x : Form)
  /-- RDSYS (R303, uniform 0x64). -/
  | rdsys (x : Form)
  /-- WRSYS (R303, uniform 0x65). -/
  | wrsys (x : Form)
  /-- WRPKR (R301, uniform 0x66). -/
  | wrpkr (x : Form)
  /-- HALT (R325, uniform 0x67). -/
  | halt (x : Form)
  /-- PASS (R93). E2: moves the head of a store buffer to the core's release queue. -/
  | pass (core fib : Nat)
  /-- DRAIN (R93). E4: applies an eligible release-queue entry at its home record. -/
  | drain (core idx : Nat)
  /-- FILL (R93). E5: sets a core's L1 copy of a line to the home value. -/
  | fill (core slot line : Nat)
  /-- EVICT (R93). E6: drops a core's copy of a non-pinned line. -/
  | evict (core line : Nat)
  /-- WRITE_BACK (R93). E12: copies a dirty committed line to memory. -/
  | writeBack (line : Nat)
  /-- LINE_WRITE (R99). E14: an engine writes one owned destination line and clears its owner. -/
  | lineWrite (eng : Nat)
  /-- ENGINE_COMPLETION (R99). E15: an engine's arrival or flag write once all its lines are written. -/
  | engineCompletion (eng : Nat)
  /-- ABSORB_OR_APPEND (R147). E17: a request at an output port is absorbed into a combinable entry or appended. -/
  | absorbOrAppend (idx : Nat)
  /-- TRANSMIT (R101). E18: an output queue's head moves to the next stage or is applied at the pod home. -/
  | transmit (port : Port)
  /-- REPLY (R147). E19: a reply passing a switch is split for its absorbed requests. -/
  | reply (idx : Nat)
  /-- CLAIM (R166). E20: the Goat claims an object at its header slice or skips it. -/
  | claim (eng : Nat)
  /-- HOLD (R166). E21: the Goat owns a line, commits versions, drains entries and drops copies. -/
  | hold (eng : Nat)
  /-- COPY_LINE (R166). E22: the Goat copies a held line and advances progress. -/
  | copyLine (eng : Nat)
  /-- REGISTER_PRODUCER_COMPLETION (R43). A load or other variable-latency producer's reply marks its destination full or poisoned. -/
  | registerProducerCompletion (core slot idx : Nat)
  /-- ATOMIC_REPLY (R140). The batch's last atomic reply arrives and the second checkpoint is taken. -/
  | atomicReply (b : BatchRef)
  /-- CHECKPOINT (R314). Stops issue, waits for producers and the unit, commits versions and records state. -/
  | checkpoint (core slot : Nat)
  /-- TRAP_DELIVERY (R318). Rolls the crew back, suspends it and writes and enqueues the trap record. -/
  | trapDelivery (core slot : Nat)
  /-- TRAP_RECORD_ENQUEUE_RETRY (R320). Retries enqueuing a trap record every 1,024 cycles while the trap queue is full. -/
  | trapRecordEnqueueRetry (core slot : Nat)
  /-- INTERVAL_TIMER_EXPIRY (R312). The interval timer expires and a checkpoint is taken. -/
  | intervalTimerExpiry (core slot : Nat)
  /-- DISPATCH (R265). The dispatcher places a crew or team from the chosen launch queue. -/
  | dispatch (part : Nat)
  /-- PRIORITY_AGING (R266). Raises a queue's effective priority after AGE cycles without dispatch. -/
  | priorityAging (part queue : Nat)
  /-- TEAM_RESERVATION (R269). Reserves a herd for a team dispatchable for 65,536 cycles. -/
  | teamReservation (part : Nat)
  /-- CREW_END (R280). Commits, drains and sets the completion bit once a crew's last flock and bin fibres are gone. -/
  | crewEnd (core slot : Nat)
  /-- BIN_TIMER_EXPIRY (R41). A spawn bin's timer runs out. -/
  | binTimerExpiry (core slot bin : Nat)
  /-- BIN_FIRE (R41). A bin forms a new flock from its pending fibres once placement waits clear. -/
  | binFire (core slot bin : Nat)
  /-- RCV_TIMEOUT (R87). An RCV wait's timer runs out and the present batches merge. -/
  | rcvTimeout (b : BatchRef)
  /-- SLEEP_TIMEOUT (R274). A sleep's timer runs out with status false. -/
  | sleepTimeout (b : BatchRef)
  /-- QWAIT_TIMEOUT (R153). A QWAIT's timer runs out with qd false. -/
  | qwaitTimeout (b : BatchRef)
  /-- QWAIT_REREAD (R153). An unlisted QWAIT sleeper re-reads HEAD and TAIL every 1,024 cycles. -/
  | qwaitReread (b : BatchRef)
  /-- YIELD_EXPIRY (R278). A yielded batch becomes ready again after t cycles. -/
  | yieldExpiry (b : BatchRef)
  /-- POWER_TOKEN_PASS (R24). A herd's token burst ends or goes unused and the token passes on. -/
  | powerTokenPass (die herd : Nat)
  /-- MATRIX_UNIT_EXECUTE (R218). The matrix unit performs the next queued matrix or fast-weight instruction. -/
  | matrixUnitExecute (gquad : Nat)
  /-- COLL_TRIGGER_READ (R252). The Ox re-reads a collective's trigger word every 256 cycles. -/
  | collTriggerRead (eng : Nat)
  /-- COLL_STEP (R255). The Ox moves or reduces one chunk of a running collective. -/
  | collStep (eng : Nat) (input : CollInput)
  /-- COLL_COMPLETION (R254). A collective's flag write and barrier arrival at an endpoint. -/
  | collCompletion (eng : Nat)
  /-- COLL_FAILURE (R259). The Ox fails a collective at every member and completes with an inverted flag. -/
  | collFailure (eng : Nat) (cause : CollFail)
  /-- QUANTUM_EXPIRY (R327). A partition's quantum ends and the collector starts pre-emption. -/
  | quantumExpiry (part : Nat)
  /-- PREEMPTION_REQUEST (R327). The management function pre-empts a set of crews. -/
  | preemptionRequest (crews : List (Nat × Nat))
  /-- LODGE_STATE (R328). After every engine acknowledges, spills states and lodges crews' saved state. -/
  | lodgeState (part : Nat)
  /-- PARTITION_RESUME (R328). Pre-empted crews are placed back, their states reloaded, before any launch. -/
  | partitionResume (part : Nat)
  /-- DEBUG_HALT (R329). Debug control halts a crew at an instruction boundary. -/
  | debugHalt (core slot : Nat)
  /-- SINGLE_STEP (R329). Advances one batch of a halted crew by one instruction. -/
  | singleStep (core slot : Nat)
  /-- HALT_RELEASE (R329). Debug control releases a halted crew. -/
  | haltRelease (core slot : Nat)
  /-- MIGRATION_LINE_COPY (R326). The migration Mule holds and copies one line of a hot non-resident page. -/
  | migrationLineCopy (part : Nat) (page : Nat) (read : LineFind)
  /-- MIGRATION_COUNT_WINDOW_END (R326). Per-page access counts restart at the end of each 2^20-cycle window. -/
  | migrationCountWindowEnd
  /-- CAPACITY_TIER_EXPANSION (R338). Expands a compressed page on first access and rewrites its leaf. -/
  | capacityTierExpansion (part page : Nat)
  /-- SECTOR_REBUILD (R334). Rebuilds an uncorrectable HBM sector from parity or a clean copy, or poisons it. -/
  | sectorRebuild (sector : Nat) (found : SectorFind)
  /-- SRAM_UNCORRECTABLE_ERROR (R333). An uncorrectable SRAM or register-file error refills, poisons or rolls back. -/
  | sramUncorrectableError (site : SramSite)
  /-- SCRUB_PASS_START (R337). The Hen begins a new pass at its period and resets its escalation step. -/
  | scrubPassStart (stack : Nat)
  /-- SCRUB_READ (R337). The Hen reads a sector and writes back a correction or rebuilds it. -/
  | scrubRead (stack : Nat) (read : HenRead)
  /-- SCRUB_ESCALATION_CHECK (R337). At each quarter period the Hen raises its step if behind. -/
  | scrubEscalationCheck (stack : Nat)
  /-- ROW_ACTIVATION_WINDOW_END (R283). Row activation counts and hot marks reset every 2^16 cycles. -/
  | rowActivationWindowEnd
  /-- WAY_MOVE (R308). At each period end a slice group moves at most one way between contexts; `pick` says which of
  several free ways is taken. -/
  | wayMove (group : Nat) (pick : Nat)
  /-- LINK_DOWN (R339). A CXL, host or pod link goes down and its ranges are lost. -/
  | linkDown (link : Link)
  /-- COMPLETION_TIMEOUT (R339). A request reaches its link's completion timeout and the range is lost. -/
  | completionTimeout (link : Link)
  /-- LOSTCLR (R339). Firmware clears a lost range after the link retrains. -/
  | lostclr (link : Link)
  /-- XLINV (R299). Writing SYS_XLINV drops cached translations of a range and waits for their accesses. -/
  | xlinv (part : Nat)
  /-- HOST_WINDOW_ACCESS (R103). A host read or write of the window applied at the window SRAM. -/
  | hostWindowAccess (part : Nat) (off : Nat) (data : HostAccess)
  /-- BAR4_ACCESS (R343). A host never-cached access to device memory through BAR4. -/
  | bar4Access (fn : Nat) (addr : Nat) (data : HostAccess)
  /-- LTAIL (R345). A host write of the launch ring tail, accepted or refused with OVR. -/
  | ltail (fn : Nat) (value : BitVec 64)
  /-- LAUNCH_SLOT_PROCESS (R345). The device checks and queues one host launch slot and publishes LSTAT. -/
  | launchSlotProcess (fn : Nat)
  /-- FL_GO (R348). A write starts a flush and sets BUSY. -/
  | flGo (fn : Nat)
  /-- FLUSH_COMPLETE (R348). Earlier host writes complete, read-ahead is discarded and BUSY clears. -/
  | flushComplete (fn : Nat)
  /-- FEAT_ACCEPT (R347). A write of the feature acceptance, limited to the offer and ignored while locked. -/
  | featAccept (fn : Nat) (value : BitVec 256)
  /-- FUNCTION_RESET (R344). A function reset clears FSTAT.LOCK. -/
  | functionReset (fn : Nat)
  /-- CONTEXT_CREATE (R289). The management function creates a partition context with reset state. -/
  | contextCreate (part : Nat)
  /-- CONTEXT_DESTROY (R289). The management function destroys a context and frees its resources. -/
  | contextDestroy (part : Nat)
  /-- QOWN (R292). A management write of quadrant ownership starting a handover. -/
  | qown (part word : Nat) (value : BitVec 64)
  /-- QUADRANT_HANDOVER (R292). Once the old owner is gone, evicts, zeroes and hands the quadrant over. -/
  | quadrantHandover (gquad : Nat)
  /-- MANAGEMENT_REGISTER_WRITE (R344). A write to a control-space or management register with no behaviour of its own. -/
  | managementRegisterWrite (reg : MgmtReg) (value : BitVec 64)
  /-- FIRMWARE_LOAD (R350). Verifies a firmware image in the mailbox and accepts or refuses it. -/
  | firmwareLoad (image : List (BitVec 8))
  /-- MANAGEMENT_RESET (R350). Starts the accepted firmware image, pre-empting every partition. -/
  | managementReset
  /-- ATTESTATION_REQUEST (R351). Produces a signed attestation report for a nonce. -/
  | attestationRequest (fn : Nat) (nonce : List (BitVec 8))
  /-- BINARY_LOAD (R366). The loader loads a graph binary into a context or refuses it whole. -/
  | binaryLoad (part : Nat) (file : List (BitVec 8)) (req : LoadReq)
  /-- BINARY_UNLOAD (R356). The management function unloads a binary with no living launch. -/
  | binaryUnload (part image : Nat)
  /-- RESET (R26). Reset runs self-test and fences failed units. -/
  | reset (failed : FenceMap)
  /-- THERMAL_LIMIT (R355). Above the thermal limit firmware lowers token counts. -/
  | thermalLimit (die count : Nat)
  /-- CRITICAL_LIMIT (R355). At the critical limit the module raises a PF alarm. -/
  | criticalLimit
  /-- POWER_DOWN (R355). The module powers down 100 ms after the critical alarm. -/
  | powerDown
  /-- LINK_RETRAINED (R339). A lost CXL, host or pod link finishes retraining and comes back up, after which firmware may clear the lost range. -/
  | linkRetrained (link : Link)
  /-- WRITE_ACCEPTED_BY_LINK (R97). A HOST or POOL write sent over its port is accepted by its link, releasing a waiting SYS release or PSNAP.PUBLISH. -/
  | writeAcceptedByLink (idx : Nat)
  deriving DecidableEq, Repr

end Sys2Proof
end

