-- ==== Sys2Proof/Machine/Fields.lean ====
section
/-! DEFINITION. Bit fields, extensions, byte order and list updates used by every other file, and the named fields of
a framed instruction (R46-R55). -/

namespace Sys2Proof.Machine

/-- `x[hi:lo]` of a natural (R4, R8). -/
def bits (x hi lo : Nat) : Nat := x / 2 ^ lo % 2 ^ (hi + 1 - lo)

/-- One bit of a natural. -/
def bitAt (x i : Nat) : Bool := x / 2 ^ i % 2 == 1

/-- Two's complement reading of the low `w` bits (sext of R8). -/
def sextInt (x w : Nat) : Int :=
  if x % 2 ^ w < 2 ^ (w - 1) then (x % 2 ^ w : Nat) else (x % 2 ^ w : Nat) - (2 ^ w : Nat)

/-- The residue of an exact integer modulo `2^w` (R176). -/
def wrapInt (x : Int) (w : Nat) : Nat := (x % (2 ^ w : Nat)).toNat

/-- Clamp to a range (R66, R176). -/
def clampInt (x lo hi : Int) : Int := if x < lo then lo else if hi < x then hi else x

/-- Little-endian bytes of a value (R4). -/
def leBytes : Nat → Nat → List Byte
  | 0, _ => []
  | n + 1, x => BitVec.ofNat 8 x :: leBytes n (x / 256)

/-- The value of little-endian bytes (R4). -/
def leVal : List Byte → Nat
  | [] => 0
  | b :: bs => b.toNat + 256 * leVal bs

/-- Ceiling division. -/
def ceilDiv (a b : Nat) : Nat := (a + b - 1) / b

/-- Is `x` a power of two? (by its 64 low bits' sizes) -/
def isPow2 (x : Nat) : Bool := x != 0 && x == 2 ^ Nat.log2 x

/-- The first list entry that satisfies `p`, changed by `f`. -/
def updFirst {α : Type} (p : α → Bool) (f : α → α) : List α → List α
  | [] => []
  | x :: xs => if p x then f x :: xs else x :: updFirst p f xs

/-- Every list entry that satisfies `p`, changed by `f`. -/
def updAll {α : Type} (p : α → Bool) (f : α → α) (l : List α) : List α :=
  l.map fun x => if p x then f x else x

/-- The list without its first entry that satisfies `p`. -/
def dropFirst {α : Type} (p : α → Bool) : List α → List α
  | [] => []
  | x :: xs => if p x then xs else x :: dropFirst p xs

/-- Position of the first entry that satisfies `p`. -/
def indexOf? {α : Type} (p : α → Bool) : List α → Nat → Option Nat
  | [], _ => none
  | x :: xs, i => if p x then some i else indexOf? p xs (i + 1)

/-- The list without entry `i`. -/
def removeAt {α : Type} : List α → Nat → List α
  | [], _ => []
  | _ :: xs, 0 => xs
  | x :: xs, i + 1 => x :: removeAt xs i

/-- The least entry of a list by a key, the first among equals. -/
def minBy {α : Type} (key : α → Nat) : List α → Option α
  | [] => none
  | x :: xs =>
    match minBy key xs with
    | none => some x
    | some y => if key y < key x then some y else some x

/-- `[0, 1, …, n-1]` without the order reversed. -/
def upTo (n : Nat) : List Nat := List.range n

/-- Insert into an ascending list without repeats. -/
def insertAsc (x : Nat) : List Nat → List Nat
  | [] => [x]
  | y :: ys => if x < y then x :: y :: ys else if x = y then y :: ys else y :: insertAsc x ys

/-- A lane mask: bit l for lane l (R320). -/
def laneMask (lanes : List Nat) : BitVec 32 :=
  lanes.foldl (fun m l => m ||| BitVec.ofNat 32 (2 ^ l)) 0

/-! ### Sparse contents
A list of (key, value) pairs with keys strictly rising and no value equal to the default an unlisted key reads as. -/

/-- Value at a key. -/
def spGet {α : Type} (dflt : α) : List (Nat × α) → Nat → α
  | [], _ => dflt
  | (k, v) :: r, a => if a = k then v else if a < k then dflt else spGet dflt r a

/-- The entries after those of a rising prefix whose keys are at most `a`. -/
def spAfter {α : Type} (a : Nat) : List (Nat × α) → List (Nat × α)
  | [] => []
  | (k, v) :: r => if k ≤ a then spAfter a r else (k, v) :: r

/-- Write a key, keeping the canonical form. -/
def spSet {α : Type} [DecidableEq α] (dflt : α) (a : Nat) (x : α) : List (Nat × α) → List (Nat × α)
  | [] => if x = dflt then [] else [(a, x)]
  | (k, v) :: r =>
    if a = k then (if x = dflt then spAfter a r else (a, x) :: r)
    else if a < k then (if x = dflt then (k, v) :: r else (a, x) :: (k, v) :: r)
    else (k, v) :: spSet dflt a x r

/-- The canonical form of sparse contents. -/
def spWf {α : Type} [DecidableEq α] (dflt : α) : List (Nat × α) → Bool
  | [] => true
  | [(_, v)] => v != dflt
  | (k, v) :: (k', v') :: r => v != dflt && decide (k < k') && spWf dflt ((k', v') :: r)

/-- Write consecutive values from key `a`. -/
def spSetList {α : Type} [DecidableEq α] (dflt : α) (a : Nat) : List α → List (Nat × α) → List (Nat × α)
  | [], m => m
  | x :: xs, m => spSetList dflt (a + 1) xs (spSet dflt a x m)

/-- Read `n` consecutive values from key `a`. -/
def spGetList {α : Type} (dflt : α) (m : List (Nat × α)) (a : Nat) : Nat → List α
  | 0 => []
  | n + 1 => spGet dflt m a :: spGetList dflt m (a + 1) n

end Sys2Proof.Machine

namespace Sys2Proof

open Machine

/-- Does the instruction carry EXT? -/
def Form.hasExt (x : Form) : Bool := x.ext.isSome

/-- The guard's predicate number: GP2 under EXT, else GP (R50, R54). -/
def Form.guardNum (x : Form) : Nat := match x.ext with
  | some e => e.gp2.toNat
  | none => x.gp.toNat

/-- The guard's negate bit (R54). -/
def Form.guardNeg (x : Form) : Bool := match x.ext with
  | some e => e.gn2
  | none => x.gn

/-- Operand number Dhi:D (R50). -/
def Form.dn (x : Form) : Nat := match x.ext with
  | some e => e.dhi.toNat * 64 + x.d.toNat
  | none => x.d.toNat

/-- Operand number Ahi:A (R50). -/
def Form.an (x : Form) : Nat := match x.ext with
  | some e => e.ahi.toNat * 64 + x.a.toNat
  | none => x.a.toNat

/-- Operand number Bhi:B (R50). -/
def Form.bn (x : Form) : Nat := match x.ext with
  | some e => e.bhi.toNat * 64 + x.b.toNat
  | none => x.b.toNat

/-- Source C's number, 0 without EXT (R50). -/
def Form.cn (x : Form) : Nat := match x.ext with
  | some e => e.cx.toNat
  | none => 0

/-- Empty modes: true is trap mode; block without EXT (R50). -/
def Form.ea (x : Form) : Bool := match x.ext with | some e => e.ea | none => false
def Form.eb (x : Form) : Bool := match x.ext with | some e => e.eb | none => false
def Form.ec (x : Form) : Bool := match x.ext with | some e => e.ec | none => false

/-- The immediate sign-extended (R51). -/
def Form.immS (x : Form) : Int := match x.imm with | some i => sextInt i.toNat 27 | none => 0

/-- The immediate zero-extended (R51). -/
def Form.immZ (x : Form) : Nat := match x.imm with | some i => i.toNat | none => 0

/-- Does an immediate stand? -/
def Form.hasImm (x : Form) : Bool := x.imm.isSome

/-- The MOD payload, 0 without MOD (R53). -/
def Form.m (x : Form) : Nat := match x.mod with | some v => v.toNat | none => 0

/-- A field of MOD. -/
def Form.mf (x : Form) (hi lo : Nat) : Nat := bits x.m hi lo
def Form.mb (x : Form) (i : Nat) : Bool := bitAt x.m i

/-- The common MOD layout (R53). -/
def Form.cf (x : Form) : Nat := x.mf 26 14
def Form.ty (x : Form) : Nat := x.mf 13 10
def Form.rm (x : Form) : Nat := x.mf 2 0
def Form.sat (x : Form) : Bool := x.mb 3

/-- The MEM continuation, with its defaults (R52). -/
def MemC.default : MemC := { off := 0, scope := .none, ord := .plain, hint := .normal, rmt := false, cs := 0 }
def Form.mc (x : Form) : MemC := x.mem.getD MemC.default
def Form.cs (x : Form) : Nat := x.mc.cs.toNat

/-- Access width code W and sign extension SX of CS (R107), and the size in bytes. -/
def Form.w (x : Form) : Nat := bits x.cs 1 0
def Form.sx (x : Form) : Bool := bitAt x.cs 2
def widthBytes : Nat → Nat
  | 0 => 4 | 1 => 8 | 2 => 1 | _ => 2
def Form.size (x : Form) : Nat := widthBytes x.w

/-- OFF as a signed number (R52). -/
def Form.off (x : Form) : Int := sextInt x.mc.off.toNat 12

/-- Number of words (R46, R59). -/
def Form.words (x : Form) : Nat :=
  1 + (if x.ext.isSome then 1 else 0) + (if x.imm.isSome then 1 else 0) + (if x.mem.isSome then 1 else 0)
    + (if x.mod.isSome then 1 else 0)

end Sys2Proof
end

