-- ==== Sys2Proof/Machine/Float.lean ====
section
/-! DEFINITION. Number formats to the bit: layouts, exact values, rounding, overflow, saturation, NaN values and their
origin (R176-R187), and the exact operations the floating instructions round. -/

namespace Sys2Proof.Machine

/-! ### Formats (R178, R179) -/

/-- A floating format: exponent and fraction widths, bias, and whether it is E4M3, which has no infinities. -/
structure Fmt where
  ebits : Nat
  fbits : Nat
  bias : Nat
  e4m3 : Bool
  deriving DecidableEq, Repr

def fp32 : Fmt := { ebits := 8, fbits := 23, bias := 127, e4m3 := false }
def fp16 : Fmt := { ebits := 5, fbits := 10, bias := 15, e4m3 := false }
def bf16 : Fmt := { ebits := 8, fbits := 7, bias := 127, e4m3 := false }
def e5m2 : Fmt := { ebits := 5, fbits := 2, bias := 15, e4m3 := false }
def e4m3 : Fmt := { ebits := 4, fbits := 3, bias := 7, e4m3 := true }

namespace Fmt

/-- Bits of the format below the sign. -/
def magBits (f : Fmt) : Nat := f.ebits + f.fbits
def width (f : Fmt) : Nat := f.magBits + 1
/-- Biased exponent of all ones. -/
def eTop (f : Fmt) : Nat := 2 ^ f.ebits - 1
/-- Exponent of the last place of subnormals, and of the largest binade. -/
def qMin (f : Fmt) : Int := 1 - (f.bias : Int) - f.fbits
def qMax (f : Fmt) : Int := (if f.e4m3 then f.eTop else f.eTop - 1 : Nat) - (f.bias : Int) - f.fbits
/-- Significand of the largest finite value M (R179). -/
def mMax (f : Fmt) : Nat := if f.e4m3 then 2 ^ (f.fbits + 1) - 2 else 2 ^ (f.fbits + 1) - 1
/-- The sign bit's weight. -/
def signW (f : Fmt) : Nat := 2 ^ f.magBits
/-- +∞, or 0x7F in E4M3; and M (R179, R181). -/
def infBits (f : Fmt) : Nat := if f.e4m3 then 2 ^ f.magBits - 1 else f.eTop * 2 ^ f.fbits
def maxBits (f : Fmt) : Nat := f.infBits - 1
def quietBit (f : Fmt) : Nat := 2 ^ (f.fbits - 1)
def signed (f : Fmt) (neg : Bool) (b : Nat) : Nat := (if neg then f.signW else 0) + b

end Fmt

/-- What the bits of a format stand for: a NaN, an infinity, or ±m·2^e. -/
inductive FVal where
  | nan (bits : Nat)
  | inf (neg : Bool)
  | fin (neg : Bool) (m : Nat) (e : Int)
  deriving DecidableEq, Repr

/-- Read the bits of a format (R178). -/
def decodeF (f : Fmt) (b : Nat) : FVal :=
  let x := b % 2 ^ f.width
  let neg := bitAt x f.magBits
  let be := x / 2 ^ f.fbits % 2 ^ f.ebits
  let fr := x % 2 ^ f.fbits
  if f.e4m3 then
    if x % 2 ^ f.magBits = 2 ^ f.magBits - 1 then .nan x
    else if be = 0 then .fin neg fr f.qMin else .fin neg (2 ^ f.fbits + fr) (f.qMin + (be - 1 : Nat))
  else if be = f.eTop then (if fr = 0 then .inf neg else .nan x)
  else if be = 0 then .fin neg fr f.qMin else .fin neg (2 ^ f.fbits + fr) (f.qMin + (be - 1 : Nat))

def FVal.isNan : FVal → Bool | .nan _ => true | _ => false
def FVal.isInf : FVal → Bool | .inf _ => true | _ => false
def FVal.isZero : FVal → Bool | .fin _ 0 _ => true | _ => false
def FVal.neg? : FVal → Bool
  | .nan _ => false | .inf n => n | .fin n _ _ => n

/-! ### Rounding (R180-R183) -/

/-- Does rounding move the magnitude up? `n` the truncated significand, `c` how the discarded part compares with half a
last place, `inexact` whether anything was discarded (R180). -/
def roundsUp (rm : Nat) (neg : Bool) (n : Nat) (c : Ordering) (inexact : Bool) : Bool :=
  match rm with
  | 0 => c == .gt || (c == .eq && n % 2 == 1)
  | 1 => false
  | 2 => neg && inexact
  | 3 => !neg && inexact
  | _ => c == .gt || c == .eq

/-- An exact magnitude m·2^e, a little above it when `sticky`, rounded with an unbounded exponent: significand and exponent
of the last place, which is never below the format's subnormal grid (R180). -/
def roundMag (f : Fmt) (rm : Nat) (neg : Bool) (m : Nat) (e : Int) (sticky : Bool) : Nat × Int :=
  let q := max (Nat.log2 m + e - f.fbits) f.qMin
  if q ≤ e then (m * 2 ^ (e - q).toNat, q)
  else
    let sh := (q - e).toNat
    if Nat.log2 m + 1 < sh then
      (if roundsUp rm neg 0 .lt (m != 0 || sticky) then 1 else 0, q)
    else
      let n := m / 2 ^ sh
      let rem := m % 2 ^ sh
      let half := 2 ^ (sh - 1)
      let c := if rem < half then Ordering.lt else if rem = half then (if sticky then .gt else .eq) else .gt
      (if roundsUp rm neg n c (rem != 0 || sticky) then n + 1 else n, q)

/-- The overflow result of R181, or ±M under .SAT (R182). -/
def overflowBits (f : Fmt) (rm : Nat) (sat neg : Bool) : Nat :=
  let toInf := match rm with | 0 => true | 1 => false | 2 => neg | 3 => !neg | _ => true
  f.signed neg (if toInf && !sat then f.infBits else f.maxBits)

/-- Encode n·2^q, where q is a last place of the format. -/
def encodeF (f : Fmt) (neg : Bool) (n : Nat) (q : Int) : Nat :=
  if n = 0 then f.signed neg 0
  else if n < 2 ^ f.fbits then f.signed neg n
  else
    let (n, q) := if n = 2 ^ (f.fbits + 1) then (2 ^ f.fbits, q + 1) else (n, q)
    f.signed neg (((q - f.qMin).toNat + 1) * 2 ^ f.fbits + (n - 2 ^ f.fbits))

/-- An exact result: ±m·2^e (a little more in magnitude when `sticky`), an infinity, or an invalid operation. -/
inductive Exact where
  | val (neg : Bool) (m : Nat) (e : Int) (sticky : Bool)
  | inf (neg : Bool)
  | invalid
  deriving DecidableEq, Repr

/-- round(x, fmt, rm) of R8 with the overflow rule of R181 and .SAT of R182. `none` for an invalid operation. -/
def roundF (f : Fmt) (rm : Nat) (sat : Bool) : Exact → Option Nat
  | .invalid => none
  | .inf neg => some (f.signed neg (if sat then f.maxBits else f.infBits))
  | .val neg m e sticky =>
    if m = 0 ∧ ¬ sticky then some (f.signed neg 0)
    else
      let r := roundMag f rm neg m e sticky
      if f.qMax < r.2 ∨ (r.2 = f.qMax ∧ f.mMax < r.1) then some (overflowBits f rm sat neg)
      else some (encodeF f neg r.1 r.2)

/-! ### NaN values (R184-R187) -/

/-- hash16 of a PC (R185). -/
def hash16 (pc : Nat) : Nat := bits pc 17 2 ^^^ bits pc 33 18

/-- The NaN an invalid operation generates: positive, quiet, with its origin (R184). `o` is false for an engine's NaN. -/
def genNan (f : Fmt) (o : Bool) (lane pc : Nat) : Nat :=
  if f.e4m3 then 0x7F
  else
    let base := f.eTop * 2 ^ f.fbits + f.quietBit
    if !o then base
    else if f.fbits = 23 then base + 2 ^ 21 + lane % 32 * 2 ^ 16 + hash16 pc
    else if f.fbits = 10 then base + 2 ^ 8 + lane % 32 * 2 ^ 3 + hash16 pc % 8
    else if f.fbits = 7 then base + 2 ^ 5 + lane % 32
    else base + 1

/-- Set the quiet bit (R186); E4M3's NaN stays as it is. -/
def quiet (f : Fmt) (b : Nat) : Nat :=
  if f.e4m3 then b else if bitAt b (f.fbits - 1) then b else b + f.quietBit

/-- O, lane and hash fields of a NaN, 0 where the format lacks the field (R184). -/
def nanO (f : Fmt) (b : Nat) : Nat := if f.e4m3 then 0 else b / 2 ^ (f.fbits - 2) % 2
def nanLane (f : Fmt) (b : Nat) : Nat :=
  if f.fbits = 23 then bits b 20 16 else if f.fbits = 10 then bits b 7 3 else if f.fbits = 7 then bits b 4 0 else 0
def nanHash (f : Fmt) (b : Nat) : Nat :=
  if f.fbits = 23 then bits b 15 0 else if f.fbits = 10 then bits b 2 0 else 0

/-- A NaN carried from one format to another (R187). -/
def convNan (src dst : Fmt) (b : Nat) : Nat :=
  let neg := bitAt b src.magBits
  if dst.e4m3 then dst.signed neg 0x7F
  else
    let o := nanO src b
    let payload :=
      if dst.fbits = 23 then o * 2 ^ 21 + nanLane src b * 2 ^ 16 + nanHash src b
      else if dst.fbits = 10 then o * 2 ^ 8 + nanLane src b * 2 ^ 3 + nanHash src b % 8
      else if dst.fbits = 7 then o * 2 ^ 5 + nanLane src b
      else o
    dst.signed neg (dst.eTop * 2 ^ dst.fbits + dst.quietBit + payload)

/-! ### Exact operations -/

/-- The signed significand of a finite value. -/
def sgn (neg : Bool) (m : Nat) : Int := if neg then -(m : Int) else m

/-- A sum of two dyadic numbers: m1·2^e1 + m2·2^e2 with the smaller exponent. -/
def addDy (a b : Int × Int) : Int × Int :=
  if a.2 ≤ b.2 then (a.1 + b.1 * 2 ^ (b.2 - a.2).toNat, a.2) else (a.1 * 2 ^ (a.2 - b.2).toNat + b.1, b.2)

/-- Sum of two finite values with the zero signs of R183. -/
def addFin (rm : Nat) (na : Bool) (ma : Nat) (ea : Int) (nb : Bool) (mb : Nat) (eb : Int) : Exact :=
  let s := if ma = 0 then (sgn nb mb, eb) else if mb = 0 then (sgn na ma, ea) else addDy (sgn na ma, ea) (sgn nb mb, eb)
  if s.1 = 0 then .val (if na == nb then na else rm == 2) 0 0 false
  else .val (decide (s.1 < 0)) s.1.natAbs s.2 false

/-- a + b on values that are no NaN (R197). -/
def fAdd (rm : Nat) : FVal → FVal → Exact
  | .inf a, .inf b => if a == b then .inf a else .invalid
  | .inf a, _ => .inf a
  | _, .inf b => .inf b
  | .fin na ma ea, .fin nb mb eb => addFin rm na ma ea nb mb eb
  | _, _ => .invalid

/-- a × b (R197). -/
def fMul : FVal → FVal → Exact
  | .inf a, .inf b => .inf (a != b)
  | .inf a, .fin b m _ => if m = 0 then .invalid else .inf (a != b)
  | .fin a m _, .inf b => if m = 0 then .invalid else .inf (a != b)
  | .fin a ma ea, .fin b mb eb => .val (a != b) (ma * mb) (ea + eb) false
  | _, _ => .invalid

/-- a × b + c with one rounding (R197). -/
def fFma (rm : Nat) (a b c : FVal) : Exact :=
  match fMul a b with
  | .invalid => .invalid
  | .inf n => (match c with | .inf k => if n == k then .inf n else .invalid | _ => .inf n)
  | .val n m e _ => (match c with
    | .inf k => .inf k
    | .fin k mc ec => addFin rm n m e k mc ec
    | .nan _ => .invalid)

/-- A quotient of positive magnitudes with at least `p` significant bits: significand, exponent and whether it is inexact. -/
def quot (ma : Nat) (ea : Int) (mb : Nat) (eb : Int) (p : Nat) : Nat × Int × Bool :=
  let k := p + Nat.log2 mb + 2
  (ma * 2 ^ k / mb, ea - eb - k, ma * 2 ^ k % mb != 0)

/-- a / b (R197): a nonzero finite a over ±0 is an infinity. -/
def fDiv : FVal → FVal → Exact
  | .inf _, .inf _ => .invalid
  | .inf a, .fin b _ _ => .inf (a != b)
  | .fin a _ _, .inf b => .val (a != b) 0 0 false
  | .fin a ma ea, .fin b mb eb =>
    if mb = 0 then (if ma = 0 then .invalid else .inf (a != b))
    else if ma = 0 then .val (a != b) 0 0 false
    else let q := quot ma ea mb eb 28; .val (a != b) q.1 q.2.1 q.2.2
  | _, _ => .invalid

/-- ⌊√n⌋ by the bits of the root, from bit `k` down. -/
def isqrtFrom (n : Nat) : Nat → Nat → Nat
  | 0, r => r
  | k + 1, r => if (r + 2 ^ k) * (r + 2 ^ k) ≤ n then isqrtFrom n k (r + 2 ^ k) else isqrtFrom n k r

def isqrt (n : Nat) : Nat := isqrtFrom n (Nat.log2 n / 2 + 1) 0

/-- The root of m·2^e with at least 28 significant bits. -/
def rootMag (m : Nat) (e : Int) : Nat × Int × Bool :=
  let (m, e) := if e % 2 = 0 then (m, e) else (2 * m, e - 1)
  let n := m * 2 ^ 60
  let r := isqrt n
  (r, e / 2 - 30, r * r != n)

/-- √a; √(−0) = −0; invalid below −0 (R197). -/
def fSqrt : FVal → Exact
  | .inf neg => if neg then .invalid else .inf false
  | .fin neg m e =>
    if m = 0 then .val neg 0 0 false
    else if neg then .invalid
    else let r := rootMag m e; .val false r.1 r.2.1 r.2.2
  | .nan _ => .invalid

/-- 1 / a; ±0 gives ±∞ and ±∞ gives ±0 (R197). -/
def fRcp : FVal → Exact
  | .inf neg => .val neg 0 0 false
  | .fin neg m e => if m = 0 then .inf neg else let q := quot 1 0 m e 28; .val neg q.1 q.2.1 q.2.2
  | .nan _ => .invalid

/-- a × 2^b (R197). -/
def fScale (b : Int) : FVal → Exact
  | .inf neg => .inf neg
  | .fin neg m e => if m = 0 then .val neg 0 0 false else .val neg m (e + b) false
  | .nan _ => .invalid

/-- ±m·2^e rounded to an integer in a mode. -/
def roundToInt (rm : Nat) (neg : Bool) (m : Nat) (e : Int) : Nat :=
  if 0 ≤ e then m * 2 ^ e.toNat
  else
    let sh := (-e).toNat
    if Nat.log2 m + 1 < sh then (if roundsUp rm neg 0 .lt (m != 0) then 1 else 0)
    else
      let n := m / 2 ^ sh
      let rem := m % 2 ^ sh
      let half := 2 ^ (sh - 1)
      let c := if rem < half then Ordering.lt else if rem = half then Ordering.eq else .gt
      if roundsUp rm neg n c (rem != 0) then n + 1 else n

/-- Is a below b, −0 below +0 (FMIN and FMAX of R197)? -/
def fLess : FVal → FVal → Bool
  | .inf a, .inf b => a && !b
  | .inf a, _ => a
  | _, .inf b => !b
  | .fin na ma ea, .fin nb mb eb =>
    if ma = 0 ∧ mb = 0 then na && !nb else decide ((addDy (sgn na ma, ea) (-(sgn nb mb), eb)).1 < 0)
  | _, _ => false

/-- Floating comparison of values that are no NaN; −0 equals +0 (R201). -/
def fCmp : FVal → FVal → Ordering
  | .inf a, .inf b => if a == b then .eq else if a then .lt else .gt
  | .inf a, _ => if a then .lt else .gt
  | _, .inf b => if b then .gt else .lt
  | .fin na ma ea, .fin nb mb eb =>
    let d := (addDy (sgn na ma, ea) (-(sgn nb mb), eb)).1
    if d < 0 then .lt else if d = 0 then .eq else .gt
  | _, _ => .eq

/-! ### Instructions' values (R196, R199) -/

/-- A source with its modifiers: ABS clears the sign bit, NEG then inverts it (R195). -/
def modify (f : Fmt) (b : Nat) (abs neg : Bool) : Nat :=
  let x := b % 2 ^ f.width
  let y := if abs then x % 2 ^ f.magBits else x
  if neg then (if bitAt y f.magBits then y - f.signW else y + f.signW) else y

/-- The first NaN among the operands, quieted (R186). -/
def firstNan (f : Fmt) : List Nat → Option Nat
  | [] => none
  | b :: r => if (decodeF f b).isNan then some (quiet f (b % 2 ^ f.width)) else firstNan f r

/-- R196: the first NaN, else the generated NaN of an invalid operation, else the rounded exact result. -/
def evalF (f : Fmt) (rm : Nat) (sat : Bool) (lane pc : Nat) (ops : List Nat) (exact : Exact) : Nat :=
  match firstNan f ops with
  | some n => n
  | none => match roundF f rm sat exact with
    | some b => b
    | none => genNan f true lane pc

def opAdd (f : Fmt) (rm : Nat) (sat : Bool) (lane pc a b : Nat) : Nat :=
  evalF f rm sat lane pc [a, b] (fAdd rm (decodeF f a) (decodeF f b))
def opSub (f : Fmt) (rm : Nat) (sat : Bool) (lane pc a b : Nat) : Nat :=
  evalF f rm sat lane pc [a, b] (fAdd rm (decodeF f a) (decodeF f (modify f b false true)))
def opMul (f : Fmt) (rm : Nat) (sat : Bool) (lane pc a b : Nat) : Nat :=
  evalF f rm sat lane pc [a, b] (fMul (decodeF f a) (decodeF f b))
def opFma (f : Fmt) (rm : Nat) (sat : Bool) (lane pc a b c : Nat) : Nat :=
  evalF f rm sat lane pc [a, b, c] (fFma rm (decodeF f a) (decodeF f b) (decodeF f c))
def opDiv (f : Fmt) (rm : Nat) (sat : Bool) (lane pc a b : Nat) : Nat :=
  evalF f rm sat lane pc [a, b] (fDiv (decodeF f a) (decodeF f b))
def opSqrt (f : Fmt) (rm : Nat) (sat : Bool) (lane pc a : Nat) : Nat :=
  evalF f rm sat lane pc [a] (fSqrt (decodeF f a))
def opRcp (f : Fmt) (rm : Nat) (sat : Bool) (lane pc a : Nat) : Nat :=
  evalF f rm sat lane pc [a] (fRcp (decodeF f a))
def opScale (f : Fmt) (rm : Nat) (sat : Bool) (lane pc a : Nat) (b : Int) : Nat :=
  evalF f rm sat lane pc [a] (fScale b (decodeF f a))

/-- FMIN and FMAX: never rounded; a NaN operand gives the first NaN (R197). -/
def opMin (f : Fmt) (a b : Nat) : Nat :=
  match firstNan f [a, b] with
  | some n => n
  | none => if fLess (decodeF f b) (decodeF f a) then b % 2 ^ f.width else a % 2 ^ f.width
def opMax (f : Fmt) (a b : Nat) : Nat :=
  match firstNan f [a, b] with
  | some n => n
  | none => if fLess (decodeF f a) (decodeF f b) then b % 2 ^ f.width else a % 2 ^ f.width

/-- FRND (R197): an integral value in mode RM; infinities and zeros pass; the sign is kept. -/
def opRnd (f : Fmt) (rm a : Nat) : Nat :=
  match decodeF f a with
  | .nan _ => quiet f (a % 2 ^ f.width)
  | .inf neg => f.signed neg f.infBits
  | .fin neg m e =>
    if 0 ≤ e then a % 2 ^ f.width
    else (roundF f 0 false (.val neg (roundToInt rm neg m e) 0 false)).getD 0

/-- FCPYS (R197): a's magnitude with b's sign. -/
def copySign (f : Fmt) (a b : Nat) : Nat := a % 2 ^ f.magBits + (b / 2 ^ f.magBits % 2) * f.signW

/-- FCLASS (R202): the class number 0-9 of a value. -/
def classOf (f : Fmt) (b : Nat) : Nat :=
  match decodeF f b with
  | .nan x => if bitAt x (f.fbits - 1) then 1 else 0
  | .inf neg => if neg then 2 else 9
  | .fin neg m e =>
    if m = 0 then (if neg then 5 else 6)
    else if m < 2 ^ f.fbits ∧ e = f.qMin then (if neg then 4 else 7)
    else if neg then 3 else 8

/-- Convert between floating formats (R204). -/
def convF (src dst : Fmt) (rm : Nat) (sat : Bool) (b : Nat) : Nat :=
  match decodeF src b with
  | .nan x => convNan src dst x
  | .inf neg => (roundF dst rm sat (.inf neg)).getD 0
  | .fin neg m e => (roundF dst rm sat (.val neg m e false)).getD 0

/-- The exact value of an integer. -/
def exactInt (x : Int) : Exact := .val (decide (x < 0)) x.natAbs 0 false

end Sys2Proof.Machine
end

