-- ==== Sys2Proof/Config.lean ====
section
/-! DEFINITION. What the spec leaves open: constants without a body, so that no proof can rest on a value of theirs. -/

namespace Sys2Proof.Config

/-- The free choice between two outcomes the spec allows (R61, R116, R299), by the state's counter and the place it is
made at (DESIGN CHOICE, log 3). -/
opaque freeBool : Nat → Nat → Bool

/-- A value of a register or lane that the spec leaves open (DESIGN CHOICE, log 3). -/
opaque freeWord : Nat → Nat → BitVec 32

/-- FRSQ, FEX2, FLG2, FSIN and FCOS: the implementation's choice among the values inside the bound (R198, DESIGN CHOICE, log 5). -/
opaque frsq : Word → Word
opaque fex2 : Word → Word
opaque flg2 : Word → Word
opaque fsin : Word → Word
opaque fcos : Word → Word

/-- The set of its slice that a line falls in (R17, R313: the slice has 512 sets; the spec does not give the index
function, DESIGN CHOICE, log 3). -/
opaque sliceSet : Nat → Nat

/-- Which of each 16 sets of a slice is sampled for the hit counts of its shadow tags (R308: 32 sets, which ones is not given, DESIGN
CHOICE, log 59). -/
opaque sampledSet : Nat → Nat

/-- The set of a bank group that a line falls in (R16: 128 sets in each of the 16 ways; the index function is not given, DESIGN
CHOICE, log 3). -/
opaque l1Set : Nat → Nat

/-- The exchanges of places that make a stack's order of data sectors, over its channels, banks, rows and columns, out of the order of
their PAs: any one-to-one order is such a list (R332: the mapping is not given, DESIGN CHOICE, log 62). -/
opaque sectorSwaps : Nat → List (Nat × Nat)

/-- The same for the numbers of a stack's channels, out of the order of the parity groups (R332, R340: the numbering is not given,
DESIGN CHOICE, log 18). -/
opaque channelSwaps : List (Nat × Nat)

/-- The bank and row that a place within a channel lies in (R283, R332: the mapping is not given, DESIGN CHOICE, log 3). -/
opaque rowOf : Nat → Nat

/-- The chunk the Ox takes where a parameter block asks for an automatic one (R249, DESIGN CHOICE, log 50). -/
opaque autoChunk : Nat

/-- Where a sum of a compressed collective is formed, by the packages of its ranks, its level and its place in the tree: an even number names
one of these packages, an odd one a switch of the network (R257, R258, DESIGN CHOICE, log 50). -/
opaque sumPlace : List Nat → Nat → Nat → Nat

/-- SHA3-512 of bytes, 64 bytes with the first the lowest (R350, R351, R365: named, not defined by the spec, DESIGN CHOICE, log 6). -/
opaque sha3 : List Byte → BitVec 512

/-- ML-DSA-87 verification of a signature of 4,627 bytes over a digest under a key, and the device's signature (R350, R351, R365: named,
not defined, DESIGN CHOICE, log 6). -/
opaque mlDsaVerify : Word64 → BitVec 512 → BitVec 37016 → Bool
opaque mlDsaSign : BitVec 512 → BitVec 37016

/-- The Maelmin root key whose digest is fused into the device (R350, DESIGN CHOICE, log 6). -/
opaque rootKey : Word64

/-- The feature offer of the device, of which only bits 0 to 6 can be set (R344, R347: per device). -/
opaque featOffer : BitVec 256

/-- What stands at each word of the PF's management space, by its offset from 0x1_0000 in 8-byte words: the spec names the registers but
not their addresses (R344, DESIGN CHOICE, log 63). -/
opaque mgmtAt : Nat → Option MgmtPlace

/-- The bytes of a version that another module has published, by their offsets in the range (R354, DESIGN CHOICE, log 16). -/
opaque otherPool : Nat → List (Nat × Byte)

/-- The context that a launch record in the PF's launch port is for: the record does not name one (R345, DESIGN CHOICE, log 19). -/
opaque pfContext : Nat

/-- The 32-bit security version in a firmware image's header, whose layout the spec does not give (R350, DESIGN CHOICE, log 6). -/
opaque firmwareVersion : List Byte → BitVec 32

/-- Does the remote package map a POD page, and with which leaf (R294)? The tables of another package are not part of
this package's state (DESIGN CHOICE, log 10). -/
opaque remoteLeaf : Nat → Nat → Nat → Nat

/-- Has another package fenced a stack (below 16) or a slice (16 and above) of its own (R144)? Its fence map is not part of this package's
state (DESIGN CHOICE, log 10). -/
opaque remoteFenced : Nat → Nat → Bool

/-- The VA at which the loader starts a class's block when the load request does not fix it (R358, DESIGN CHOICE, log 12). -/
opaque blockStart : Nat → Nat → Nat

end Sys2Proof.Config
end

