-- ==== Sys2Proof/Machine/Shapes.lean ====
section
/-! DEFINITION. The operand table of every encoded instruction: which continuations it accepts, what its fields name,
and the limits of its IMM, MEM and MOD (R49-R57 and the encoding tables of the entries). -/

namespace Sys2Proof

open Machine

/-- May an instruction carry a continuation of a type (R49)? -/
inductive Need where
  | no | opt | req
  deriving DecidableEq, Repr

/-- What an operand field names, with its range (R55). `upTo n` and `evenTo n` are the numbers 0 to n. -/
inductive Kind where
  | none | lane | lanePair | laneQuad | k | kPair | pred | q | h | nb | sreg | upTo (n : Nat) | evenTo (n : Nat)
  | quadTo (n : Nat)
  deriving DecidableEq, Repr

/-- Is `n` a number of the kind? (R55) -/
def Kind.allows : Kind → Nat → Bool
  | .none, n => n == 0
  | .lane, n => decide (n < 256)
  | .lanePair, n => decide (n < 256) && n % 2 == 0
  | .laneQuad, n => decide (n < 256) && n % 4 == 0
  | .k, n => decide (n < 64)
  | .kPair, n => decide (n < 64) && n % 2 == 0
  | .pred, n => decide (n < 96)
  | .q, n => decide (n < 16)
  | .h, n => decide (n < 16)
  | .nb, n => decide (n < 16)
  | .sreg, n => decide (n < 0x15) && n != 0x0F
  | .upTo m, n => decide (n ≤ m)
  | .evenTo m, n => decide (n ≤ m) && n % 2 == 0
  | .quadTo m, n => decide (n ≤ m) && n % 4 == 0

/-- Is the operand a lane register, so that an empty mode may be set for it (R56)? -/
def Kind.isLane : Kind → Bool
  | .lane | .lanePair | .laneQuad => true
  | _ => false

/-- The operand table of an instruction: kinds of D, A, B and Cx, the continuations accepted, whether a guard may be
named, and whether the fields of IMM, MEM and MOD hold values the entry allows. -/
structure Shape where
  d : Kind := .none
  a : Kind := .none
  b : Kind := .none
  c : Kind := .none
  ext : Need := .opt
  imm : Need := .no
  mem : Need := .no
  mod : Need := .no
  guarded : Bool := true
  ok : Bool := true
  deriving DecidableEq, Repr

/-- Source B, unless an immediate replaces it (R51). -/
def Form.bOr (x : Form) (kd : Kind) : Kind := if x.hasImm then .none else kd

/-- The bits of MOD from `hi` down to `lo` are 0. -/
def Form.mz (x : Form) (hi lo : Nat) : Bool := x.mf hi lo == 0

/-- MEM with SCOPE, ORD, RMT, OFF and HINT all 0 (R107, R122, R151). -/
def Form.memPlain (x : Form) : Bool :=
  x.mc.scope == .none && x.mc.ord == .plain && !x.mc.rmt && x.mc.hint == .normal

/-- ORD of a load: plain or acquire (R107). -/
def Form.ordLoad (x : Form) : Bool := x.mc.ord == .plain || x.mc.ord == .acquire
/-- ORD of a store: plain or release (R107). -/
def Form.ordStore (x : Form) : Bool := x.mc.ord == .plain || x.mc.ord == .release

/-- SX only with an 8- or 16-bit width (R107). -/
def Form.sxOk (x : Form) : Bool := !x.sx || decide (2 ≤ x.w)

/-! ### Families of shapes -/

/-- Lane integer class (R65-R68): `tyMax` the largest TY, `sat` whether .SAT is allowed, `cfMax` the exclusive bound
of CF; `b3` three-source with C a register; `immB` whether IMM may replace B. -/
def laneInt (x : Form) (kd : Kind) (c : Kind) (useB immB : Bool) (tyMax : Nat) (sat : Bool) (cfMax : Nat) : Shape :=
  { d := kd, a := kd, b := if useB then (if immB then x.bOr kd else kd) else .none, c := c,
    ext := if c == .none then .opt else .req, imm := if immB then .opt else .no, mod := .opt,
    ok := x.mz 9 4 && x.mz 2 0 && (sat || !x.sat) && decide (x.ty ≤ tyMax) && decide (x.cf < cfMax) }

/-- Moves (R76): no MOD. -/
def moveShape (d a b c : Kind) (imm : Need) (ok : Bool) : Shape :=
  { d := d, a := a, b := b, c := c, ext := if c == .none then .opt else .req, imm := imm, ok := ok }

/-- Which source modifiers MOD sets only where the entry allows them (R195). -/
def modsOk (x : Form) (ma mb mc : Bool) : Bool :=
  (ma || (!x.mb 7 && !x.mb 4)) && (mb || (!x.mb 8 && !x.mb 5)) && (mc || (!x.mb 9 && !x.mb 6))

/-- Rounding mode 0-4, and 0 where the entry does not round (R53). -/
def rmOk (x : Form) (rounds : Bool) : Bool := if rounds then decide (x.rm ≤ 4) else x.rm == 0

/-- FP32 class (R195, R197). -/
def floatShape (x : Form) (kd c : Kind) (useB immB rounds sat ma mb mc : Bool) : Shape :=
  { d := kd, a := kd, b := if useB then (if immB then x.bOr kd else kd) else .none, c := c,
    ext := if c == .none then .opt else .req, imm := if immB then .opt else .no, mod := .opt,
    ok := x.cf == 0 && x.ty == 0 && rmOk x rounds && (sat || !x.sat) && modsOk x ma mb mc }

/-- Packed class (R199): IMM[26:16] = 0. -/
def packedShape (x : Form) (c : Kind) (rounds : Bool) : Shape :=
  { floatShape x .lane c true true rounds rounds true true (c != .none) with
    ok := (floatShape x .lane c true true rounds rounds true true (c != .none)).ok && decide (x.immZ < 65536) }

/-- ICMP and UCMP (R74). -/
def icmpShape (x : Form) (p : Kind) (one two : Kind) (eMax : Nat) : Shape :=
  let kd := if 2 ≤ x.ty then two else one
  { d := p, a := kd, b := x.bOr kd, c := p, imm := .opt, mod := .opt,
    ok := decide (x.mf 26 20 < eMax) && !x.mb 19 && decide (x.mf 18 17 ≤ 2) && decide (x.mf 16 14 ≤ 5)
      && decide (x.ty ≤ 3) && x.mz 9 7 && x.mz 5 0 }

/-- FCMP, HCMP, BCMP (R200). -/
def fcmpShape (x : Form) (tyMax : Nat) (half : Bool) : Shape :=
  { d := .pred, a := .lane, b := x.bOr .lane, c := .pred, imm := .opt, mod := .opt,
    ok := decide (x.mf 26 20 < 96) && decide (x.mf 19 18 ≤ 2) && decide (x.mf 17 14 ≤ 13) && decide (x.ty ≤ tyMax)
      && !x.mb 9 && x.mz 3 0 && (!half || decide (x.immZ < 65536)) }

/-- Conversion type codes: is it a floating type, and its width in bits (R203). -/
def cvtIsFloat (t : Nat) : Bool := decide (t ≤ 4)
def cvtWidth : Nat → Nat
  | 0 => 32 | 1 => 16 | 2 => 16 | 3 => 8 | 4 => 8 | 5 => 32 | 6 => 32 | 7 => 64 | 8 => 64 | 9 => 16 | 10 => 16
  | _ => 8

/-- May RM be nonzero for a conversion from `st` to `dt` (R204)? -/
def cvtRounds (dt st : Nat) : Bool :=
  if dt == st then false
  else if cvtIsFloat st then (if cvtIsFloat dt then !(dt == 0 || (3 ≤ st && (dt == 1 || dt == 2))) else true)
  else cvtIsFloat dt

/-- May .SAT be set for a conversion from `st` to `dt` (R204)? -/
def cvtSats (dt st : Nat) : Bool :=
  if dt == st then false
  else if cvtIsFloat st then (cvtIsFloat dt && !(dt == 0 || (3 ≤ st && (dt == 1 || dt == 2)))) else true

/-- Largest element index of a source of width `w` (R203). -/
def eiMax (w : Nat) : Nat := if w == 16 then 1 else if w == 8 then 3 else 0

/-- CVT and UCVT (R203, R204). -/
def cvtShape (x : Form) (one two : Kind) : Shape :=
  let dt := x.mf 21 18
  let st := x.mf 17 14
  { d := if cvtWidth dt == 64 then two else one, a := if cvtWidth st == 64 then two else one, mod := .opt,
    ok := decide (dt ≤ 12) && decide (st ≤ 12) && x.mz 26 22 && decide (x.mf 11 10 ≤ eiMax (cvtWidth st))
      && x.mz 13 12 && (if cvtRounds dt st then decide (x.rm ≤ 4) else x.rm == 0) && (cvtSats dt st || !x.sat)
      && modsOk x (cvtIsFloat st) false false }

/-- CVTP (R205). -/
def cvtpShape (x : Form) : Shape :=
  let f := x.mf 17 14
  let narrow := decide (3 ≤ f)
  let unpk := x.mb 18
  { d := if unpk then (if narrow then .laneQuad else .lanePair) else .lane,
    a := if unpk then .lane else (if narrow then .lanePair else .lane),
    b := if unpk then .none else (if narrow then .lanePair else .lane), mod := .opt,
    ok := decide (1 ≤ f) && decide (f ≤ 4) && x.mz 26 19 && x.ty == 0 && rmOk x (!unpk) && (!unpk || !x.sat)
      && modsOk x (!unpk) (!unpk) false }

/-- CVTQ (R206). -/
def cvtqShape (x : Form) : Shape :=
  { d := .lanePair, a := .lane, mod := .opt,
    ok := (x.mf 17 14 == 3 || x.mf 17 14 == 4) && x.mz 26 18 && decide (x.mf 12 10 ≤ 5) && !x.mb 13 && x.mz 9 0 }

/-- CVTX (R207). -/
def cvtxShape (x : Form) : Shape :=
  { d := .lane, a := .lane, b := x.bOr .lane, imm := .opt, mod := .opt,
    ok := decide (1 ≤ x.mf 17 14) && decide (x.mf 17 14 ≤ 4) && x.mz 26 18
      && decide (x.mf 11 10 ≤ eiMax (cvtWidth (x.mf 17 14))) && x.mz 13 12 && rmOk x true && modsOk x false true false }

/-- LD, ST, ULD, UST (R107, R108). -/
def loadShape (x : Form) (pair data two : Kind) : Shape :=
  { d := if x.w == 1 then two else data, a := pair, mem := .opt,
    ok := bits x.cs 6 3 == 0 && x.sxOk && x.ordLoad }
def storeShape (x : Form) (pair data two : Kind) : Shape :=
  { a := pair, b := if x.w == 1 then two else data, mem := .opt,
    ok := bits x.cs 6 3 == 0 && !x.sx && x.ordStore }

/-- ATOM, RED, CAS (R137). -/
def atomOk (x : Form) : Bool :=
  decide (bits x.cs 6 3 ≤ 9) && !x.sx && decide (x.w ≤ 1) && (bits x.cs 6 3 != 9 || x.w == 0) && x.mc.hint == .normal
def Form.wide (x : Form) : Kind := if x.w == 1 then .lanePair else .lane

/-- QENQ and QDEQ (R151). -/
def queueOk (x : Form) : Bool := decide (x.cs ≤ 1) && x.memPlain && x.mc.off == 0

/-- HLD and HST CS field (R157). -/
def Form.idx (x : Form) : Bool := bitAt x.cs 6
def Form.ref (x : Form) : Bool := bitAt x.cs 5
def heapOk (x : Form) : Bool := bits x.cs 4 3 == 0 && x.sxOk && (!x.ref || (x.w == 1 && !x.sx))
def heapData (x : Form) : Kind := if x.ref then .h else x.wide

/-- HREF (R157): MOD carries the op, and may be omitted for op 0. -/
def hrefShape (x : Form) (op : Nat) (d a b : Kind) : Shape :=
  { d := d, a := a, b := b, mod := .opt, ok := x.mf 2 0 == op && x.mz 26 3 }

/-- RNGWAIT and RNGSIG (R272): K selects full or empty. -/
def ringShape (x : Form) (e : Nat) : Shape :=
  { a := .upTo 7, b := x.bOr .k, imm := .opt, mod := .opt, ok := decide (x.immZ < 16) && x.mf 0 0 == e && x.mz 26 1 }

/-- CMAINT (R122): `op` in CS[1:0], level in CS[3:2]. -/
def cmaintShape (x : Form) (op : Nat) : Shape :=
  let l := bits x.cs 3 2
  { a := .kPair, b := .k, ext := .no, mem := .req,
    ok := x.memPlain && x.mc.off == 0 && bits x.cs 6 4 == 0 && bits x.cs 1 0 == op
      && (if op == 1 then decide (l ≤ 2) else if op == 3 then l == 1 else l == 1 || l == 2) }

/-- CPY's MOD (R128). -/
def cpyOk (x : Form) : Bool :=
  x.mz 26 17 && x.mz 1 0 && decide (x.mf 3 2 ≤ 1) && decide (x.mf 5 4 ≤ 1) && decide (x.mf 9 8 ≤ 2)
    && (if x.mf 9 8 == 0 then x.mf 15 10 == 0 else x.mf 15 10 != 0)

/-- Rows of one B-store slot: 16,384 / (64 × size) (R216). -/
def rowsPerSlot (size : Nat) : Nat := 256 / size

/-- BLD's MOD (R221): slot + ceil(rows/rps) - 1 at most 15. -/
def bldOk (x : Form) : Bool :=
  x.mz 26 18 && x.mz 5 0 && (x.mb 8 || x.dn == 0)
    && decide (x.bn + ceilDiv (x.mf 17 9 + 1) (rowsPerSlot (if x.mb 6 then 2 else 1)) ≤ 16)

/-- MMA's MOD (R223): K a multiple of min(bKA, bKB). -/
def mmaOk (x : Form) : Bool :=
  x.mz 26 17 && x.mz 6 0 && 16 * (x.mf 16 12 + 1) % (16 * 2 ^ min (x.mf 11 10) (x.mf 9 8)) == 0

/-- The fast-weight MOD (R235): CQ, NT and QF only in the chunk forms; base 0 or 4 with .D128. -/
def fwOk (x : Form) (base : Nat) (cq qf : Bool) : Bool :=
  x.mz 26 9 && x.mz 1 0 && (x.mb 3 == cq) && (cq || x.mz 7 4) && (qf || !x.mb 8) && (!x.mb 2 || base % 4 == 0)

/-- The fields of an encoded instruction; the events have none. -/
def Instr.form? : Instr → Option Form
  | .iadd x => some x
  | .isub x => some x
  | .imul x => some x
  | .imulh x => some x
  | .imad x => some x
  | .iadd64 x => some x
  | .imin x => some x
  | .imax x => some x
  | .iabs x => some x
  | .idiv x => some x
  | .irem x => some x
  | .and x => some x
  | .or x => some x
  | .xor x => some x
  | .andn x => some x
  | .blut x => some x
  | .shl x => some x
  | .shr x => some x
  | .sar x => some x
  | .rot x => some x
  | .bfx x => some x
  | .bfi x => some x
  | .popc x => some x
  | .clz x => some x
  | .brev x => some x
  | .lea x => some x
  | .bpick x => some x
  | .idp4 x => some x
  | .mov x => some x
  | .movi x => some x
  | .movhi x => some x
  | .sel x => some x
  | .lanex x => some x
  | .pcol x => some x
  | .sr x => some x
  | .ptov x => some x
  | .vtop x => some x
  | .urd x => some x
  | .bra x => some x
  | .brx x => some x
  | .call x => some x
  | .calli x => some x
  | .ret x => some x
  | .fspawn x => some x
  | .fend x => some x
  | .rcv x => some x
  | .icmp x => some x
  | .plut x => some x
  | .fcmp x => some x
  | .hcmp x => some x
  | .bcmp x => some x
  | .fclass x => some x
  | .fadd x => some x
  | .fsub x => some x
  | .fmul x => some x
  | .ffma x => some x
  | .fmin x => some x
  | .fmax x => some x
  | .fdiv x => some x
  | .fsqrt x => some x
  | .frcp x => some x
  | .frsq x => some x
  | .fex2 x => some x
  | .flg2 x => some x
  | .fsin x => some x
  | .fcos x => some x
  | .frnd x => some x
  | .fscale x => some x
  | .fcpys x => some x
  | .hadd2 x => some x
  | .hmul2 x => some x
  | .hfma2 x => some x
  | .hmin2 x => some x
  | .hmax2 x => some x
  | .badd2 x => some x
  | .bmul2 x => some x
  | .bfma2 x => some x
  | .cvt x => some x
  | .cvtp x => some x
  | .cvtq x => some x
  | .cvtx x => some x
  | .ld x => some x
  | .st x => some x
  | .lds x => some x
  | .sts x => some x
  | .atom x => some x
  | .red x => some x
  | .cas x => some x
  | .qenq x => some x
  | .qdeq x => some x
  | .sliceof x => some x
  | .homeof x => some x
  | .pref x => some x
  | .hld x => some x
  | .hst x => some x
  | .hrefPin x => some x
  | .hrefUnpin x => some x
  | .hrefCmp x => some x
  | .hrefIsnull x => some x
  | .hrefMov x => some x
  | .hrefFrom x => some x
  | .hrefTo x => some x
  | .hnew x => some x
  | .uadd x => some x
  | .usub x => some x
  | .umul x => some x
  | .umad x => some x
  | .umin x => some x
  | .umax x => some x
  | .uand x => some x
  | .uor x => some x
  | .uxor x => some x
  | .ushl x => some x
  | .ushr x => some x
  | .usar x => some x
  | .umov x => some x
  | .umovi x => some x
  | .umovhi x => some x
  | .usel x => some x
  | .ulea x => some x
  | .ucmp x => some x
  | .uplut x => some x
  | .usr x => some x
  | .ufrom x => some x
  | .uld x => some x
  | .ust x => some x
  | .ufadd x => some x
  | .ufmul x => some x
  | .uffma x => some x
  | .ucvt x => some x
  | .ubra x => some x
  | .elect x => some x
  | .sleep x => some x
  | .wake x => some x
  | .bar x => some x
  | .tbar x => some x
  | .rngwaitF x => some x
  | .rngwaitE x => some x
  | .rngsigF x => some x
  | .rngsigE x => some x
  | .yield x => some x
  | .launch x => some x
  | .done x => some x
  | .nop x => some x
  | .bincfg x => some x
  | .fence x => some x
  | .cmaintClean x => some x
  | .cmaintInvalidate x => some x
  | .cmaintCleanInvalidate x => some x
  | .cmaintDemote x => some x
  | .cpy x => some x
  | .cpydrain x => some x
  | .nbinit x => some x
  | .nbarr x => some x
  | .nbwait x => some x
  | .qwait x => some x
  | .coll x => some x
  | .setways x => some x
  | .psnapOpen x => some x
  | .psnapClose x => some x
  | .psnapBegin x => some x
  | .psnapPublish x => some x
  | .phintHot x => some x
  | .phintCold x => some x
  | .hreloc x => some x
  | .bld x => some x
  | .sld x => some x
  | .mma x => some x
  | .mmai x => some x
  | .zzero x => some x
  | .zld x => some x
  | .zst x => some x
  | .zrd x => some x
  | .zwr x => some x
  | .zpin x => some x
  | .zatt x => some x
  | .zdet x => some x
  | .zrel x => some x
  | .gdr x => some x
  | .gdrCq x => some x
  | .gqr x => some x
  | .gqrCq x => some x
  | .zspill x => some x
  | .zinfoT x => some x
  | .zinfoH x => some x
  | .trap x => some x
  | .bpt x => some x
  | .ckpt x => some x
  | .eret x => some x
  | .rdsys x => some x
  | .wrsys x => some x
  | .wrpkr x => some x
  | .halt x => some x
  | .pass _ _ => none
  | .drain _ _ => none
  | .fill _ _ _ => none
  | .evict _ _ => none
  | .writeBack _ => none
  | .lineWrite _ => none
  | .engineCompletion _ => none
  | .absorbOrAppend _ => none
  | .transmit _ => none
  | .reply _ => none
  | .claim _ => none
  | .hold _ => none
  | .copyLine _ => none
  | .registerProducerCompletion _ _ _ => none
  | .atomicReply _ => none
  | .checkpoint _ _ => none
  | .trapDelivery _ _ => none
  | .trapRecordEnqueueRetry _ _ => none
  | .intervalTimerExpiry _ _ => none
  | .dispatch _ => none
  | .priorityAging _ _ => none
  | .teamReservation _ => none
  | .crewEnd _ _ => none
  | .binTimerExpiry _ _ _ => none
  | .binFire _ _ _ => none
  | .rcvTimeout _ => none
  | .sleepTimeout _ => none
  | .qwaitTimeout _ => none
  | .qwaitReread _ => none
  | .yieldExpiry _ => none
  | .powerTokenPass _ _ => none
  | .matrixUnitExecute _ => none
  | .collTriggerRead _ => none
  | .collStep _ _ => none
  | .collCompletion _ => none
  | .collFailure _ _ => none
  | .quantumExpiry _ => none
  | .preemptionRequest _ => none
  | .lodgeState _ => none
  | .partitionResume _ => none
  | .debugHalt _ _ => none
  | .singleStep _ _ => none
  | .haltRelease _ _ => none
  | .migrationLineCopy _ _ _ => none
  | .migrationCountWindowEnd => none
  | .capacityTierExpansion _ _ => none
  | .sectorRebuild _ _ => none
  | .sramUncorrectableError _ => none
  | .scrubPassStart _ => none
  | .scrubRead _ _ => none
  | .scrubEscalationCheck _ => none
  | .rowActivationWindowEnd => none
  | .wayMove _ _ => none
  | .linkDown _ => none
  | .completionTimeout _ => none
  | .lostclr _ => none
  | .xlinv _ => none
  | .hostWindowAccess _ _ _ => none
  | .bar4Access _ _ _ => none
  | .ltail _ _ => none
  | .launchSlotProcess _ => none
  | .flGo _ => none
  | .flushComplete _ => none
  | .featAccept _ _ => none
  | .functionReset _ => none
  | .contextCreate _ => none
  | .contextDestroy _ => none
  | .qown _ _ _ => none
  | .quadrantHandover _ => none
  | .managementRegisterWrite _ _ => none
  | .firmwareLoad _ => none
  | .managementReset => none
  | .attestationRequest _ _ => none
  | .binaryLoad _ _ _ => none
  | .binaryUnload _ _ => none
  | .reset _ => none
  | .thermalLimit _ _ => none
  | .criticalLimit => none
  | .powerDown => none
  | .linkRetrained _ => none
  | .writeAcceptedByLink _ => none

/-- The set S and the opcode of an encoded instruction (R62, R63). -/
def Instr.opcode : Instr → Bool × Nat
  | .iadd _ => (false, 0x00)
  | .isub _ => (false, 0x01)
  | .imul _ => (false, 0x02)
  | .imulh _ => (false, 0x03)
  | .imad _ => (false, 0x04)
  | .iadd64 _ => (false, 0x05)
  | .imin _ => (false, 0x06)
  | .imax _ => (false, 0x07)
  | .iabs _ => (false, 0x08)
  | .idiv _ => (false, 0x09)
  | .irem _ => (false, 0x0A)
  | .and _ => (false, 0x0B)
  | .or _ => (false, 0x0C)
  | .xor _ => (false, 0x0D)
  | .andn _ => (false, 0x0E)
  | .blut _ => (false, 0x0F)
  | .shl _ => (false, 0x10)
  | .shr _ => (false, 0x11)
  | .sar _ => (false, 0x12)
  | .rot _ => (false, 0x13)
  | .bfx _ => (false, 0x14)
  | .bfi _ => (false, 0x15)
  | .popc _ => (false, 0x16)
  | .clz _ => (false, 0x17)
  | .brev _ => (false, 0x18)
  | .lea _ => (false, 0x19)
  | .bpick _ => (false, 0x1A)
  | .idp4 _ => (false, 0x1B)
  | .mov _ => (false, 0x20)
  | .movi _ => (false, 0x21)
  | .movhi _ => (false, 0x22)
  | .sel _ => (false, 0x23)
  | .lanex _ => (false, 0x24)
  | .pcol _ => (false, 0x25)
  | .sr _ => (false, 0x26)
  | .ptov _ => (false, 0x27)
  | .vtop _ => (false, 0x28)
  | .urd _ => (false, 0x29)
  | .bra _ => (false, 0x30)
  | .brx _ => (false, 0x31)
  | .call _ => (false, 0x32)
  | .calli _ => (false, 0x33)
  | .ret _ => (false, 0x34)
  | .fspawn _ => (false, 0x35)
  | .fend _ => (false, 0x36)
  | .rcv _ => (false, 0x37)
  | .icmp _ => (false, 0x38)
  | .plut _ => (false, 0x39)
  | .fcmp _ => (false, 0x3A)
  | .hcmp _ => (false, 0x3B)
  | .bcmp _ => (false, 0x3C)
  | .fclass _ => (false, 0x3D)
  | .fadd _ => (false, 0x40)
  | .fsub _ => (false, 0x41)
  | .fmul _ => (false, 0x42)
  | .ffma _ => (false, 0x43)
  | .fmin _ => (false, 0x44)
  | .fmax _ => (false, 0x45)
  | .fdiv _ => (false, 0x46)
  | .fsqrt _ => (false, 0x47)
  | .frcp _ => (false, 0x48)
  | .frsq _ => (false, 0x49)
  | .fex2 _ => (false, 0x4A)
  | .flg2 _ => (false, 0x4B)
  | .fsin _ => (false, 0x4C)
  | .fcos _ => (false, 0x4D)
  | .frnd _ => (false, 0x4E)
  | .fscale _ => (false, 0x4F)
  | .fcpys _ => (false, 0x50)
  | .hadd2 _ => (false, 0x60)
  | .hmul2 _ => (false, 0x61)
  | .hfma2 _ => (false, 0x62)
  | .hmin2 _ => (false, 0x63)
  | .hmax2 _ => (false, 0x64)
  | .badd2 _ => (false, 0x65)
  | .bmul2 _ => (false, 0x66)
  | .bfma2 _ => (false, 0x67)
  | .cvt _ => (false, 0x68)
  | .cvtp _ => (false, 0x69)
  | .cvtq _ => (false, 0x6A)
  | .cvtx _ => (false, 0x6B)
  | .ld _ => (false, 0x70)
  | .st _ => (false, 0x71)
  | .lds _ => (false, 0x72)
  | .sts _ => (false, 0x73)
  | .atom _ => (false, 0x74)
  | .red _ => (false, 0x75)
  | .cas _ => (false, 0x76)
  | .qenq _ => (false, 0x77)
  | .qdeq _ => (false, 0x78)
  | .sliceof _ => (false, 0x79)
  | .homeof _ => (false, 0x7A)
  | .pref _ => (false, 0x7B)
  | .hld _ => (false, 0x7C)
  | .hst _ => (false, 0x7D)
  | .hrefPin _ => (false, 0x7E)
  | .hrefUnpin _ => (false, 0x7E)
  | .hrefCmp _ => (false, 0x7E)
  | .hrefIsnull _ => (false, 0x7E)
  | .hrefMov _ => (false, 0x7E)
  | .hrefFrom _ => (false, 0x7E)
  | .hrefTo _ => (false, 0x7E)
  | .hnew _ => (false, 0x7F)
  | .uadd _ => (true, 0x00)
  | .usub _ => (true, 0x01)
  | .umul _ => (true, 0x02)
  | .umad _ => (true, 0x03)
  | .umin _ => (true, 0x04)
  | .umax _ => (true, 0x05)
  | .uand _ => (true, 0x06)
  | .uor _ => (true, 0x07)
  | .uxor _ => (true, 0x08)
  | .ushl _ => (true, 0x09)
  | .ushr _ => (true, 0x0A)
  | .usar _ => (true, 0x0B)
  | .umov _ => (true, 0x0C)
  | .umovi _ => (true, 0x0D)
  | .umovhi _ => (true, 0x0E)
  | .usel _ => (true, 0x0F)
  | .ulea _ => (true, 0x10)
  | .ucmp _ => (true, 0x11)
  | .uplut _ => (true, 0x12)
  | .usr _ => (true, 0x13)
  | .ufrom _ => (true, 0x14)
  | .uld _ => (true, 0x15)
  | .ust _ => (true, 0x16)
  | .ufadd _ => (true, 0x17)
  | .ufmul _ => (true, 0x18)
  | .uffma _ => (true, 0x19)
  | .ucvt _ => (true, 0x1A)
  | .ubra _ => (true, 0x20)
  | .elect _ => (true, 0x21)
  | .sleep _ => (true, 0x22)
  | .wake _ => (true, 0x23)
  | .bar _ => (true, 0x24)
  | .tbar _ => (true, 0x25)
  | .rngwaitF _ => (true, 0x26)
  | .rngwaitE _ => (true, 0x26)
  | .rngsigF _ => (true, 0x27)
  | .rngsigE _ => (true, 0x27)
  | .yield _ => (true, 0x28)
  | .launch _ => (true, 0x29)
  | .done _ => (true, 0x2A)
  | .nop _ => (true, 0x2B)
  | .bincfg _ => (true, 0x2C)
  | .fence _ => (true, 0x30)
  | .cmaintClean _ => (true, 0x31)
  | .cmaintInvalidate _ => (true, 0x31)
  | .cmaintCleanInvalidate _ => (true, 0x31)
  | .cmaintDemote _ => (true, 0x31)
  | .cpy _ => (true, 0x32)
  | .cpydrain _ => (true, 0x33)
  | .nbinit _ => (true, 0x34)
  | .nbarr _ => (true, 0x35)
  | .nbwait _ => (true, 0x36)
  | .qwait _ => (true, 0x37)
  | .coll _ => (true, 0x38)
  | .setways _ => (true, 0x39)
  | .psnapOpen _ => (true, 0x3A)
  | .psnapClose _ => (true, 0x3A)
  | .psnapBegin _ => (true, 0x3A)
  | .psnapPublish _ => (true, 0x3A)
  | .phintHot _ => (true, 0x3B)
  | .phintCold _ => (true, 0x3B)
  | .hreloc _ => (true, 0x3C)
  | .bld _ => (true, 0x40)
  | .sld _ => (true, 0x41)
  | .mma _ => (true, 0x42)
  | .mmai _ => (true, 0x43)
  | .zzero _ => (true, 0x44)
  | .zld _ => (true, 0x45)
  | .zst _ => (true, 0x46)
  | .zrd _ => (true, 0x47)
  | .zwr _ => (true, 0x48)
  | .zpin _ => (true, 0x50)
  | .zatt _ => (true, 0x51)
  | .zdet _ => (true, 0x52)
  | .zrel _ => (true, 0x53)
  | .gdr _ => (true, 0x54)
  | .gdrCq _ => (true, 0x54)
  | .gqr _ => (true, 0x55)
  | .gqrCq _ => (true, 0x55)
  | .zspill _ => (true, 0x56)
  | .zinfoT _ => (true, 0x57)
  | .zinfoH _ => (true, 0x57)
  | .trap _ => (true, 0x60)
  | .bpt _ => (true, 0x61)
  | .ckpt _ => (true, 0x62)
  | .eret _ => (true, 0x63)
  | .rdsys _ => (true, 0x64)
  | .wrsys _ => (true, 0x65)
  | .wrpkr _ => (true, 0x66)
  | .halt _ => (true, 0x67)
  | .pass _ _ => (false, 0x7F7F)
  | .drain _ _ => (false, 0x7F7F)
  | .fill _ _ _ => (false, 0x7F7F)
  | .evict _ _ => (false, 0x7F7F)
  | .writeBack _ => (false, 0x7F7F)
  | .lineWrite _ => (false, 0x7F7F)
  | .engineCompletion _ => (false, 0x7F7F)
  | .absorbOrAppend _ => (false, 0x7F7F)
  | .transmit _ => (false, 0x7F7F)
  | .reply _ => (false, 0x7F7F)
  | .claim _ => (false, 0x7F7F)
  | .hold _ => (false, 0x7F7F)
  | .copyLine _ => (false, 0x7F7F)
  | .registerProducerCompletion _ _ _ => (false, 0x7F7F)
  | .atomicReply _ => (false, 0x7F7F)
  | .checkpoint _ _ => (false, 0x7F7F)
  | .trapDelivery _ _ => (false, 0x7F7F)
  | .trapRecordEnqueueRetry _ _ => (false, 0x7F7F)
  | .intervalTimerExpiry _ _ => (false, 0x7F7F)
  | .dispatch _ => (false, 0x7F7F)
  | .priorityAging _ _ => (false, 0x7F7F)
  | .teamReservation _ => (false, 0x7F7F)
  | .crewEnd _ _ => (false, 0x7F7F)
  | .binTimerExpiry _ _ _ => (false, 0x7F7F)
  | .binFire _ _ _ => (false, 0x7F7F)
  | .rcvTimeout _ => (false, 0x7F7F)
  | .sleepTimeout _ => (false, 0x7F7F)
  | .qwaitTimeout _ => (false, 0x7F7F)
  | .qwaitReread _ => (false, 0x7F7F)
  | .yieldExpiry _ => (false, 0x7F7F)
  | .powerTokenPass _ _ => (false, 0x7F7F)
  | .matrixUnitExecute _ => (false, 0x7F7F)
  | .collTriggerRead _ => (false, 0x7F7F)
  | .collStep _ _ => (false, 0x7F7F)
  | .collCompletion _ => (false, 0x7F7F)
  | .collFailure _ _ => (false, 0x7F7F)
  | .quantumExpiry _ => (false, 0x7F7F)
  | .preemptionRequest _ => (false, 0x7F7F)
  | .lodgeState _ => (false, 0x7F7F)
  | .partitionResume _ => (false, 0x7F7F)
  | .debugHalt _ _ => (false, 0x7F7F)
  | .singleStep _ _ => (false, 0x7F7F)
  | .haltRelease _ _ => (false, 0x7F7F)
  | .migrationLineCopy _ _ _ => (false, 0x7F7F)
  | .migrationCountWindowEnd => (false, 0x7F7F)
  | .capacityTierExpansion _ _ => (false, 0x7F7F)
  | .sectorRebuild _ _ => (false, 0x7F7F)
  | .sramUncorrectableError _ => (false, 0x7F7F)
  | .scrubPassStart _ => (false, 0x7F7F)
  | .scrubRead _ _ => (false, 0x7F7F)
  | .scrubEscalationCheck _ => (false, 0x7F7F)
  | .rowActivationWindowEnd => (false, 0x7F7F)
  | .wayMove _ _ => (false, 0x7F7F)
  | .linkDown _ => (false, 0x7F7F)
  | .completionTimeout _ => (false, 0x7F7F)
  | .lostclr _ => (false, 0x7F7F)
  | .xlinv _ => (false, 0x7F7F)
  | .hostWindowAccess _ _ _ => (false, 0x7F7F)
  | .bar4Access _ _ _ => (false, 0x7F7F)
  | .ltail _ _ => (false, 0x7F7F)
  | .launchSlotProcess _ => (false, 0x7F7F)
  | .flGo _ => (false, 0x7F7F)
  | .flushComplete _ => (false, 0x7F7F)
  | .featAccept _ _ => (false, 0x7F7F)
  | .functionReset _ => (false, 0x7F7F)
  | .contextCreate _ => (false, 0x7F7F)
  | .contextDestroy _ => (false, 0x7F7F)
  | .qown _ _ _ => (false, 0x7F7F)
  | .quadrantHandover _ => (false, 0x7F7F)
  | .managementRegisterWrite _ _ => (false, 0x7F7F)
  | .firmwareLoad _ => (false, 0x7F7F)
  | .managementReset => (false, 0x7F7F)
  | .attestationRequest _ _ => (false, 0x7F7F)
  | .binaryLoad _ _ _ => (false, 0x7F7F)
  | .binaryUnload _ _ => (false, 0x7F7F)
  | .reset _ => (false, 0x7F7F)
  | .thermalLimit _ _ => (false, 0x7F7F)
  | .criticalLimit => (false, 0x7F7F)
  | .powerDown => (false, 0x7F7F)
  | .linkRetrained _ => (false, 0x7F7F)
  | .writeAcceptedByLink _ => (false, 0x7F7F)

/-- The operand table of an instruction; an event has none. (DEDUCED, unsafe, log 26) -/
def Instr.shape : Instr → Shape
  | .iadd x => laneInt x .lane .none true true 1 true 1
  | .isub x => laneInt x .lane .none true true 1 true 1
  | .imul x => laneInt x .lane .none true true 1 true 1
  | .imulh x => laneInt x .lane .none true true 1 false 1
  | .imad x => laneInt x .lane .lane true true 1 true 1
  | .iadd64 x => laneInt x .lanePair .none true true 1 true 1
  | .imin x => laneInt x .lane .none true true 1 false 1
  | .imax x => laneInt x .lane .none true true 1 false 1
  | .iabs x => laneInt x .lane .none false false 0 true 1
  | .idiv x => laneInt x .lane .none true true 1 false 1
  | .irem x => laneInt x .lane .none true true 1 false 1
  | .and x => laneInt x .lane .none true true 0 false 1
  | .or x => laneInt x .lane .none true true 0 false 1
  | .xor x => laneInt x .lane .none true true 0 false 1
  | .andn x => laneInt x .lane .none true true 0 false 1
  | .blut x => laneInt x .lane .lane true false 0 false 256
  | .shl x => laneInt x .lane .none true true 0 false 1
  | .shr x => laneInt x .lane .none true true 0 false 1
  | .sar x => laneInt x .lane .none true true 0 false 1
  | .rot x => laneInt x .lane .none true true 0 false 1
  | .bfx x => laneInt x .lane .none true true 1 false 1
  | .bfi x => laneInt x .lane .lane true true 0 false 1
  | .popc x => laneInt x .lane .none false false 0 false 1
  | .clz x => laneInt x .lane .none false false 0 false 1
  | .brev x => laneInt x .lane .none false false 0 false 1
  | .lea x => laneInt x .lane .none true true 0 false 32
  | .bpick x => { laneInt x .lane (if x.hasImm then .none else .lane) true false 0 false 1 with imm := .opt, ok := (laneInt x .lane .none true false 0 false 1).ok && decide (x.immZ < 2 ^ 24) }
  | .idp4 x => laneInt x .lane .lane true false 3 true 1
  | .mov _ => moveShape .lane .lane .none .none .no true
  | .movi _ => moveShape .lane .none .none .none .req true
  | .movhi x => moveShape .lane .lane .none .none .req (decide (x.immZ < 65536))
  | .sel x => moveShape .lane .lane (x.bOr .lane) .pred .opt true
  | .lanex x => { d := .lane, a := .lane, b := if x.mb 21 then .none else x.bOr .lane, c := .pred, imm := if x.mb 21 then .no else .opt, mod := .opt, ok := x.mz 26 22 && x.mz 15 5 && (x.mb 21 || x.mz 20 16) && decide (x.mf 2 0 ≤ 5) }
  | .pcol x => { d := if x.mf 2 0 == 0 || x.mf 2 0 == 4 || x.mf 2 0 == 5 then .lane else .pred, a := .pred, mod := .opt, ok := decide (x.mf 2 0 ≤ 5) && x.mz 26 4 }
  | .sr _ => moveShape .lane .sreg .none .none .no true
  | .ptov _ => moveShape .lane (.upTo 2) .none .none .no true
  | .vtop _ => moveShape (.upTo 2) .lane .lane .none .no true
  | .urd _ => moveShape .lane .k .none .none .no true
  | .bra _ => { imm := .req }
  | .brx _ => { a := .lanePair }
  | .call _ => { d := .lanePair, imm := .req }
  | .calli _ => { d := .lanePair, a := .lanePair }
  | .ret _ => { a := .lanePair }
  | .fspawn _ => { a := .lane, b := .upTo 8, imm := .req }
  | .fend _ => {}
  | .rcv x => { ext := .no, mod := .req, guarded := false, ok := x.mz 26 16 }
  | .icmp x => icmpShape x .pred .lane .lanePair 96
  | .plut x => { d := .pred, a := .pred, b := .pred, c := .pred, ext := .req, mod := .req, ok := x.mz 26 22 && x.mz 13 0 }
  | .fcmp x => fcmpShape x 0 false
  | .hcmp x => fcmpShape x 1 true
  | .bcmp x => fcmpShape x 1 true
  | .fclass x => { d := .pred, a := .lane, imm := .req, mod := .opt, ok := decide (x.immZ < 1024) && decide (x.mf 26 20 < 96) && x.mz 19 14 && decide (x.ty ≤ 4) && x.mz 9 0 }
  | .fadd x => floatShape x .lane .none true true true true true true false
  | .fsub x => floatShape x .lane .none true true true true true true false
  | .fmul x => floatShape x .lane .none true true true true true true false
  | .ffma x => floatShape x .lane .lane true true true true true true true
  | .fmin x => floatShape x .lane .none true true false false true true false
  | .fmax x => floatShape x .lane .none true true false false true true false
  | .fdiv x => floatShape x .lane .none true true true true true true false
  | .fsqrt x => floatShape x .lane .none false false true true true false false
  | .frcp x => floatShape x .lane .none false false true true true false false
  | .frsq x => floatShape x .lane .none false false false false true false false
  | .fex2 x => floatShape x .lane .none false false false true true false false
  | .flg2 x => floatShape x .lane .none false false false false true false false
  | .fsin x => floatShape x .lane .none false false false false true false false
  | .fcos x => floatShape x .lane .none false false false false true false false
  | .frnd x => floatShape x .lane .none false false true false true false false
  | .fscale x => floatShape x .lane .none true true true true true false false
  | .fcpys x => floatShape x .lane .none true false false false false false false
  | .hadd2 x => packedShape x .none true
  | .hmul2 x => packedShape x .none true
  | .hfma2 x => packedShape x .lane true
  | .hmin2 x => packedShape x .none false
  | .hmax2 x => packedShape x .none false
  | .badd2 x => packedShape x .none true
  | .bmul2 x => packedShape x .none true
  | .bfma2 x => packedShape x .lane true
  | .cvt x => cvtShape x .lane .lanePair
  | .cvtp x => cvtpShape x
  | .cvtq x => cvtqShape x
  | .cvtx x => cvtxShape x
  | .ld x => loadShape x .lanePair .lane .lanePair
  | .st x => storeShape x .lanePair .lane .lanePair
  | .lds x => { loadShape x .lane .lane .lanePair with ok := (loadShape x .lane .lane .lanePair).ok && x.memPlain }
  | .sts x => { storeShape x .lane .lane .lanePair with ok := (storeShape x .lane .lane .lanePair).ok && x.memPlain }
  | .atom x => { d := x.wide, a := .lanePair, b := x.wide, mem := .opt, ok := atomOk x }
  | .red x => { a := .lanePair, b := x.wide, mem := .opt, ok := atomOk x && x.ordStore }
  | .cas x => { d := x.wide, a := .lanePair, b := x.wide, c := x.wide, ext := .req, mem := .opt, ok := atomOk x && bits x.cs 6 3 == 0 }
  | .qenq x => { d := .pred, a := .lanePair, b := x.wide, mem := .opt, ok := queueOk x }
  | .qdeq x => { d := x.wide, a := .lanePair, b := .pred, mem := .opt, ok := queueOk x }
  | .sliceof _ => { d := .lane, a := .lanePair }
  | .homeof _ => { d := .lane, a := .lanePair }
  | .pref x => { a := .lanePair, mem := .opt, ok := x.mc.scope == .none && x.mc.ord == .plain && !x.mc.rmt && decide (x.cs ≤ 1) }
  | .hld x => { d := heapData x, a := .h, c := if x.idx then .lane else .none, ext := if x.idx then .req else .opt, mem := .opt, ok := heapOk x && x.ordLoad }
  | .hst x => { a := .h, b := heapData x, c := if x.idx then .lane else .none, ext := if x.idx then .req else .opt, mem := .opt, ok := heapOk x && !x.sx && x.ordStore }
  | .hrefPin x => hrefShape x 0 .lanePair .h .none
  | .hrefUnpin x => hrefShape x 1 .none .h .none
  | .hrefCmp x => hrefShape x 2 .pred .h .h
  | .hrefIsnull x => hrefShape x 3 .pred .h .none
  | .hrefMov x => hrefShape x 4 .h .h .none
  | .hrefFrom x => hrefShape x 5 .h .lanePair .none
  | .hrefTo x => hrefShape x 6 .lanePair .h .none
  | .hnew x => { d := .h, a := if x.hasImm then .none else .lane, imm := .opt, mod := .opt, ok := x.mz 26 9 && (!x.hasImm || (decide (16 ≤ x.immZ) && decide (x.immZ ≤ 65536))) }
  | .uadd x => laneInt x .k .none true true 1 true 1
  | .usub x => laneInt x .k .none true true 1 true 1
  | .umul x => laneInt x .k .none true true 1 true 1
  | .umad x => laneInt x .k .k true true 1 true 1
  | .umin x => laneInt x .k .none true true 1 false 1
  | .umax x => laneInt x .k .none true true 1 false 1
  | .uand x => laneInt x .k .none true true 0 false 1
  | .uor x => laneInt x .k .none true true 0 false 1
  | .uxor x => laneInt x .k .none true true 0 false 1
  | .ushl x => laneInt x .k .none true true 0 false 1
  | .ushr x => laneInt x .k .none true true 0 false 1
  | .usar x => laneInt x .k .none true true 0 false 1
  | .umov _ => moveShape .k .k .none .none .no true
  | .umovi _ => moveShape .k .none .none .none .req true
  | .umovhi x => moveShape .k .k .none .none .req (decide (x.immZ < 65536))
  | .usel x => moveShape .k .k (x.bOr .k) .q .opt true
  | .ulea x => laneInt x .k .none true true 0 false 32
  | .ucmp x => icmpShape x .q .k .kPair 16
  | .uplut x => { d := .q, a := .q, b := .q, c := .q, ext := .req, mod := .req, ok := x.mz 26 22 && x.mz 13 0 }
  | .usr _ => moveShape .k .sreg .none .none .no true
  | .ufrom _ => moveShape .k .lane .none .none .no true
  | .uld x => loadShape x .kPair .k .kPair
  | .ust x => storeShape x .kPair .k .kPair
  | .ufadd x => floatShape x .k .none true true true true true true false
  | .ufmul x => floatShape x .k .none true true true true true true false
  | .uffma x => floatShape x .k .k true true true true true true true
  | .ucvt x => cvtShape x .k .kPair
  | .ubra _ => { imm := .req }
  | .elect _ => { d := .pred }
  | .sleep x => { d := .q, a := if x.mb 16 then .nb else .none, b := if x.mb 16 then .q else .none, mod := .opt, ok := x.mz 26 17 }
  | .wake _ => {}
  | .bar _ => {}
  | .tbar _ => {}
  | .rngwaitF x => ringShape x 0
  | .rngwaitE x => ringShape x 1
  | .rngsigF x => ringShape x 0
  | .rngsigE x => ringShape x 1
  | .yield x => { mod := .opt, ok := x.mz 26 16 }
  | .launch _ => { d := .k, a := .kPair }
  | .done _ => {}
  | .nop _ => { ext := .no, guarded := false }
  | .bincfg _ => { a := .k, imm := .req }
  | .fence x => { mem := .opt, ok := x.mc.off == 0 && x.mc.hint == .normal && x.cs == 0 }
  | .cmaintClean x => cmaintShape x 0
  | .cmaintInvalidate x => cmaintShape x 1
  | .cmaintCleanInvalidate x => cmaintShape x 2
  | .cmaintDemote x => cmaintShape x 3
  | .cpy x => { d := .nb, a := .evenTo 56, mod := .opt, ok := cpyOk x }
  | .cpydrain _ => { a := .upTo 2, ext := .no }
  | .nbinit x => { d := .nb, a := if x.hasImm then .none else .k, imm := .opt, ok := decide (x.immZ < 4096) }
  | .nbarr _ => { d := .q, a := .nb }
  | .nbwait _ => { a := .nb, b := .q }
  | .qwait x => { d := .q, a := .kPair, mod := .opt, ok := x.mz 26 16 }
  | .coll _ => { a := .kPair }
  | .setways _ => { d := .k, a := .k }
  | .psnapOpen x => { d := .k, a := .kPair, mod := .opt, ok := x.mf 1 0 == 0 && x.mz 26 2 }
  | .psnapClose x => { d := .k, a := .kPair, mod := .opt, ok := x.mf 1 0 == 1 && x.mz 26 2 }
  | .psnapBegin x => { d := .k, a := .kPair, mod := .opt, ok := x.mf 1 0 == 2 && x.mz 26 2 }
  | .psnapPublish x => { d := .k, a := .kPair, mod := .opt, ok := x.mf 1 0 == 3 && x.mz 26 2 }
  | .phintHot x => { a := .kPair, b := .k, mod := .opt, ok := x.mf 0 0 == 0 && x.mz 26 1 }
  | .phintCold x => { a := .kPair, b := .k, mod := .opt, ok := x.mf 0 0 == 1 && x.mz 26 1 }
  | .hreloc _ => { d := .nb, a := .evenTo 60 }
  | .bld x => { d := .nb, a := .evenTo 60, b := .upTo 15, mod := .req, ok := bldOk x }
  | .sld x => { a := .k, mod := .req, ok := x.mz 26 7 && decide (x.mf 1 0 ≤ 2) }
  | .mma x => { d := .upTo 7, a := .kPair, b := .upTo 15, c := .lane, ext := .req, mod := .req, ok := mmaOk x }
  | .mmai x => { d := .upTo 7, a := .kPair, b := .upTo 15, c := .lane, ext := .req, mod := .req, ok := mmaOk x }
  | .zzero _ => { d := .upTo 7 }
  | .zld _ => { d := .upTo 7, a := .kPair }
  | .zst _ => { a := .kPair, b := .upTo 7 }
  | .zrd x => { d := .lanePair, a := .upTo 7, b := .k, mod := .opt, ok := x.mz 26 1 }
  | .zwr x => { d := .upTo 7, a := .k, b := .lanePair, mod := .opt, ok := x.mz 26 1 }
  | .zpin x => { d := .k, a := .upTo 7, b := .kPair, mod := .opt, ok := fwOk x x.an false false }
  | .zatt x => { d := .upTo 7, a := .k, mod := .opt, ok := fwOk x x.dn false false }
  | .zdet _ => { d := .upTo 7 }
  | .zrel _ => { a := .k }
  | .gdr x => { d := .upTo 7, a := .lane, b := .lane, c := .kPair, ext := .req, mod := .opt, ok := fwOk x x.dn false false }
  | .gdrCq x => { d := .upTo 7, a := .kPair, mod := .req, ok := fwOk x x.dn true true }
  | .gqr x => { d := .lane, a := .upTo 7, b := .lane, mod := .opt, ok := fwOk x x.an false false }
  | .gqrCq x => { a := .upTo 7, b := .kPair, mod := .req, ok := fwOk x x.an true false }
  | .zspill _ => { a := .k }
  | .zinfoT x => { d := .quadTo 60, a := .upTo 7, mod := .opt, ok := x.m == 0 }
  | .zinfoH x => { d := .quadTo 60, a := .k, mod := .opt, ok := x.m == 1 }
  | .trap x => { imm := .opt, ok := decide (x.immZ < 65536) }
  | .bpt x => { imm := .opt, ok := decide (x.immZ < 65536) }
  | .ckpt _ => {}
  | .eret _ => { d := .k, a := .kPair, b := .k }
  | .rdsys x => { d := .kPair, a := if x.bn == 1 then .k else .none, b := .upTo 1, imm := .req, ok := decide (x.immZ < 2 ^ 24) }
  | .wrsys x => { d := .upTo 1, a := if x.dn == 1 then .k else .none, b := .kPair, imm := .req, ok := decide (x.immZ < 2 ^ 24) }
  | .wrpkr _ => { d := .upTo 31, a := .k }
  | .halt _ => {}
  | .pass _ _ => {}
  | .drain _ _ => {}
  | .fill _ _ _ => {}
  | .evict _ _ => {}
  | .writeBack _ => {}
  | .lineWrite _ => {}
  | .engineCompletion _ => {}
  | .absorbOrAppend _ => {}
  | .transmit _ => {}
  | .reply _ => {}
  | .claim _ => {}
  | .hold _ => {}
  | .copyLine _ => {}
  | .registerProducerCompletion _ _ _ => {}
  | .atomicReply _ => {}
  | .checkpoint _ _ => {}
  | .trapDelivery _ _ => {}
  | .trapRecordEnqueueRetry _ _ => {}
  | .intervalTimerExpiry _ _ => {}
  | .dispatch _ => {}
  | .priorityAging _ _ => {}
  | .teamReservation _ => {}
  | .crewEnd _ _ => {}
  | .binTimerExpiry _ _ _ => {}
  | .binFire _ _ _ => {}
  | .rcvTimeout _ => {}
  | .sleepTimeout _ => {}
  | .qwaitTimeout _ => {}
  | .qwaitReread _ => {}
  | .yieldExpiry _ => {}
  | .powerTokenPass _ _ => {}
  | .matrixUnitExecute _ => {}
  | .collTriggerRead _ => {}
  | .collStep _ _ => {}
  | .collCompletion _ => {}
  | .collFailure _ _ => {}
  | .quantumExpiry _ => {}
  | .preemptionRequest _ => {}
  | .lodgeState _ => {}
  | .partitionResume _ => {}
  | .debugHalt _ _ => {}
  | .singleStep _ _ => {}
  | .haltRelease _ _ => {}
  | .migrationLineCopy _ _ _ => {}
  | .migrationCountWindowEnd => {}
  | .capacityTierExpansion _ _ => {}
  | .sectorRebuild _ _ => {}
  | .sramUncorrectableError _ => {}
  | .scrubPassStart _ => {}
  | .scrubRead _ _ => {}
  | .scrubEscalationCheck _ => {}
  | .rowActivationWindowEnd => {}
  | .wayMove _ _ => {}
  | .linkDown _ => {}
  | .completionTimeout _ => {}
  | .lostclr _ => {}
  | .xlinv _ => {}
  | .hostWindowAccess _ _ _ => {}
  | .bar4Access _ _ _ => {}
  | .ltail _ _ => {}
  | .launchSlotProcess _ => {}
  | .flGo _ => {}
  | .flushComplete _ => {}
  | .featAccept _ _ => {}
  | .functionReset _ => {}
  | .contextCreate _ => {}
  | .contextDestroy _ => {}
  | .qown _ _ _ => {}
  | .quadrantHandover _ => {}
  | .managementRegisterWrite _ _ => {}
  | .firmwareLoad _ => {}
  | .managementReset => {}
  | .attestationRequest _ _ => {}
  | .binaryLoad _ _ _ => {}
  | .binaryUnload _ _ => {}
  | .reset _ => {}
  | .thermalLimit _ _ => {}
  | .criticalLimit => {}
  | .powerDown => {}
  | .linkRetrained _ => {}
  | .writeAcceptedByLink _ => {}

/-- The lane-set map: the instruction an opcode names. MOD or CS selects among the variants of one opcode. -/
def laneOf (op : Nat) (x : Form) : Option Instr :=
  match op with
  | 0x00 => some (.iadd x)
  | 0x01 => some (.isub x)
  | 0x02 => some (.imul x)
  | 0x03 => some (.imulh x)
  | 0x04 => some (.imad x)
  | 0x05 => some (.iadd64 x)
  | 0x06 => some (.imin x)
  | 0x07 => some (.imax x)
  | 0x08 => some (.iabs x)
  | 0x09 => some (.idiv x)
  | 0x0A => some (.irem x)
  | 0x0B => some (.and x)
  | 0x0C => some (.or x)
  | 0x0D => some (.xor x)
  | 0x0E => some (.andn x)
  | 0x0F => some (.blut x)
  | 0x10 => some (.shl x)
  | 0x11 => some (.shr x)
  | 0x12 => some (.sar x)
  | 0x13 => some (.rot x)
  | 0x14 => some (.bfx x)
  | 0x15 => some (.bfi x)
  | 0x16 => some (.popc x)
  | 0x17 => some (.clz x)
  | 0x18 => some (.brev x)
  | 0x19 => some (.lea x)
  | 0x1A => some (.bpick x)
  | 0x1B => some (.idp4 x)
  | 0x20 => some (.mov x)
  | 0x21 => some (.movi x)
  | 0x22 => some (.movhi x)
  | 0x23 => some (.sel x)
  | 0x24 => some (.lanex x)
  | 0x25 => some (.pcol x)
  | 0x26 => some (.sr x)
  | 0x27 => some (.ptov x)
  | 0x28 => some (.vtop x)
  | 0x29 => some (.urd x)
  | 0x30 => some (.bra x)
  | 0x31 => some (.brx x)
  | 0x32 => some (.call x)
  | 0x33 => some (.calli x)
  | 0x34 => some (.ret x)
  | 0x35 => some (.fspawn x)
  | 0x36 => some (.fend x)
  | 0x37 => some (.rcv x)
  | 0x38 => some (.icmp x)
  | 0x39 => some (.plut x)
  | 0x3A => some (.fcmp x)
  | 0x3B => some (.hcmp x)
  | 0x3C => some (.bcmp x)
  | 0x3D => some (.fclass x)
  | 0x40 => some (.fadd x)
  | 0x41 => some (.fsub x)
  | 0x42 => some (.fmul x)
  | 0x43 => some (.ffma x)
  | 0x44 => some (.fmin x)
  | 0x45 => some (.fmax x)
  | 0x46 => some (.fdiv x)
  | 0x47 => some (.fsqrt x)
  | 0x48 => some (.frcp x)
  | 0x49 => some (.frsq x)
  | 0x4A => some (.fex2 x)
  | 0x4B => some (.flg2 x)
  | 0x4C => some (.fsin x)
  | 0x4D => some (.fcos x)
  | 0x4E => some (.frnd x)
  | 0x4F => some (.fscale x)
  | 0x50 => some (.fcpys x)
  | 0x60 => some (.hadd2 x)
  | 0x61 => some (.hmul2 x)
  | 0x62 => some (.hfma2 x)
  | 0x63 => some (.hmin2 x)
  | 0x64 => some (.hmax2 x)
  | 0x65 => some (.badd2 x)
  | 0x66 => some (.bmul2 x)
  | 0x67 => some (.bfma2 x)
  | 0x68 => some (.cvt x)
  | 0x69 => some (.cvtp x)
  | 0x6A => some (.cvtq x)
  | 0x6B => some (.cvtx x)
  | 0x70 => some (.ld x)
  | 0x71 => some (.st x)
  | 0x72 => some (.lds x)
  | 0x73 => some (.sts x)
  | 0x74 => some (.atom x)
  | 0x75 => some (.red x)
  | 0x76 => some (.cas x)
  | 0x77 => some (.qenq x)
  | 0x78 => some (.qdeq x)
  | 0x79 => some (.sliceof x)
  | 0x7A => some (.homeof x)
  | 0x7B => some (.pref x)
  | 0x7C => some (.hld x)
  | 0x7D => some (.hst x)
  | 0x7E => match x.mf 2 0 with
    | 0 => some (.hrefPin x)
    | 1 => some (.hrefUnpin x)
    | 2 => some (.hrefCmp x)
    | 3 => some (.hrefIsnull x)
    | 4 => some (.hrefMov x)
    | 5 => some (.hrefFrom x)
    | 6 => some (.hrefTo x)
    | _ => none
  | 0x7F => some (.hnew x)
  | _ => none

/-- The uniform-set map: the instruction an opcode names. MOD or CS selects among the variants of one opcode. -/
def uniOf (op : Nat) (x : Form) : Option Instr :=
  match op with
  | 0x00 => some (.uadd x)
  | 0x01 => some (.usub x)
  | 0x02 => some (.umul x)
  | 0x03 => some (.umad x)
  | 0x04 => some (.umin x)
  | 0x05 => some (.umax x)
  | 0x06 => some (.uand x)
  | 0x07 => some (.uor x)
  | 0x08 => some (.uxor x)
  | 0x09 => some (.ushl x)
  | 0x0A => some (.ushr x)
  | 0x0B => some (.usar x)
  | 0x0C => some (.umov x)
  | 0x0D => some (.umovi x)
  | 0x0E => some (.umovhi x)
  | 0x0F => some (.usel x)
  | 0x10 => some (.ulea x)
  | 0x11 => some (.ucmp x)
  | 0x12 => some (.uplut x)
  | 0x13 => some (.usr x)
  | 0x14 => some (.ufrom x)
  | 0x15 => some (.uld x)
  | 0x16 => some (.ust x)
  | 0x17 => some (.ufadd x)
  | 0x18 => some (.ufmul x)
  | 0x19 => some (.uffma x)
  | 0x1A => some (.ucvt x)
  | 0x20 => some (.ubra x)
  | 0x21 => some (.elect x)
  | 0x22 => some (.sleep x)
  | 0x23 => some (.wake x)
  | 0x24 => some (.bar x)
  | 0x25 => some (.tbar x)
  | 0x26 => match x.mf 0 0 with
    | 0 => some (.rngwaitF x)
    | _ => some (.rngwaitE x)
  | 0x27 => match x.mf 0 0 with
    | 0 => some (.rngsigF x)
    | _ => some (.rngsigE x)
  | 0x28 => some (.yield x)
  | 0x29 => some (.launch x)
  | 0x2A => some (.done x)
  | 0x2B => some (.nop x)
  | 0x2C => some (.bincfg x)
  | 0x30 => some (.fence x)
  | 0x31 => match bits x.cs 1 0 with
    | 0 => some (.cmaintClean x)
    | 1 => some (.cmaintInvalidate x)
    | 2 => some (.cmaintCleanInvalidate x)
    | _ => some (.cmaintDemote x)
  | 0x32 => some (.cpy x)
  | 0x33 => some (.cpydrain x)
  | 0x34 => some (.nbinit x)
  | 0x35 => some (.nbarr x)
  | 0x36 => some (.nbwait x)
  | 0x37 => some (.qwait x)
  | 0x38 => some (.coll x)
  | 0x39 => some (.setways x)
  | 0x3A => match x.mf 1 0 with
    | 0 => some (.psnapOpen x)
    | 1 => some (.psnapClose x)
    | 2 => some (.psnapBegin x)
    | _ => some (.psnapPublish x)
  | 0x3B => match x.mf 0 0 with
    | 0 => some (.phintHot x)
    | _ => some (.phintCold x)
  | 0x3C => some (.hreloc x)
  | 0x40 => some (.bld x)
  | 0x41 => some (.sld x)
  | 0x42 => some (.mma x)
  | 0x43 => some (.mmai x)
  | 0x44 => some (.zzero x)
  | 0x45 => some (.zld x)
  | 0x46 => some (.zst x)
  | 0x47 => some (.zrd x)
  | 0x48 => some (.zwr x)
  | 0x50 => some (.zpin x)
  | 0x51 => some (.zatt x)
  | 0x52 => some (.zdet x)
  | 0x53 => some (.zrel x)
  | 0x54 => match x.mf 3 3 with
    | 0 => some (.gdr x)
    | _ => some (.gdrCq x)
  | 0x55 => match x.mf 3 3 with
    | 0 => some (.gqr x)
    | _ => some (.gqrCq x)
  | 0x56 => some (.zspill x)
  | 0x57 => match x.mf 0 0 with
    | 0 => some (.zinfoT x)
    | _ => some (.zinfoH x)
  | 0x60 => some (.trap x)
  | 0x61 => some (.bpt x)
  | 0x62 => some (.ckpt x)
  | 0x63 => some (.eret x)
  | 0x64 => some (.rdsys x)
  | 0x65 => some (.wrsys x)
  | 0x66 => some (.wrpkr x)
  | 0x67 => some (.halt x)
  | _ => none

/-! ### The checks of R57 -/

/-- Why the bits at a PC are no instruction (the rows of R57's table). -/
inductive Illegal where
  /-- OP unassigned in its set's map. -/
  | opcode
  /-- A framing rule of R47 is broken. -/
  | framing
  /-- A continuation type the instruction does not accept, or one it requires is missing. -/
  | continuation
  /-- Leading GN or GP nonzero while EXT is present, or a guard on an instruction that takes none. -/
  | guardField
  /-- Guard number 96-127 (lane) or 16-127 (uniform). -/
  | guardNumber
  /-- A reserved or unused field is nonzero, or a field holds a value the entry bars. -/
  | reserved
  /-- An illegal MEM combination (R52). -/
  | memFields
  /-- An operand out of range, or odd where a pair is required (R55). -/
  | operand
  /-- An empty mode on a source that is not a lane register (R56). -/
  | mode
  /-- A word with C = 1 at the PC. -/
  | continuationAtPc
  /-- The bytes end inside the instruction. -/
  | truncated
  deriving DecidableEq, Repr

/-- Does a continuation's presence agree with what the entry says of its type? -/
def Need.allows : Need → Bool → Bool
  | .no, present => !present
  | .opt, _ => true
  | .req, present => present

/-- R52: ORD only with a scope; RMT only with an acquire at DEV. -/
def MemC.legal (m : MemC) : Bool :=
  (m.ord == .plain || m.scope != .none)
    && (!m.rmt || ((m.ord == .acquire || m.ord == .acqRel) && m.scope == .dev))

/-- Continuations accepted (R49). -/
def Shape.contsOk (sh : Shape) (x : Form) : Bool :=
  sh.ext.allows x.ext.isSome && sh.imm.allows x.imm.isSome && sh.mem.allows x.mem.isSome && sh.mod.allows x.mod.isSome

/-- The guard fields (R50, R54, R81). -/
def Shape.guardOk (sh : Shape) (x : Form) : Bool :=
  (!x.hasExt || (!x.gn && x.gp == 0)) && (sh.guarded || (!x.gn && x.gp == 0))

/-- The guard's number (R50). -/
def guardNumOk (uni : Bool) (x : Form) : Bool := decide (x.guardNum < if uni then 16 else 96)

/-- Operand numbers (R55). -/
def Shape.operandsOk (sh : Shape) (x : Form) : Bool :=
  sh.d.allows x.dn && sh.a.allows x.an && sh.b.allows x.bn && sh.c.allows x.cn

/-- Empty modes only on lane sources (R56). -/
def Shape.modesOk (sh : Shape) (x : Form) : Bool :=
  (!x.ea || sh.a.isLane) && (!x.eb || sh.b.isLane) && (!x.ec || sh.c.isLane)

/-- The first condition of R57 that an instruction's fields meet, or none; an instruction has at most two continuation
words (R47). -/
def Shape.check (sh : Shape) (uni : Bool) (x : Form) : Option Illegal :=
  if !sh.contsOk x then some .continuation
  else if 3 < x.words then some .framing
  else if !sh.guardOk x then some .guardField
  else if !guardNumOk uni x then some .guardNumber
  else if !x.mc.legal then some .memFields
  else if !sh.operandsOk x then some .operand
  else if !sh.modesOk x then some .mode
  else if !sh.ok then some .reserved
  else none

/-- The condition of R57 that an encoded instruction meets, or none. -/
def Instr.illegal (i : Instr) : Option Illegal :=
  match i.form? with
  | some x => i.shape.check i.opcode.1 x
  | none => some .opcode

end Sys2Proof
end

