-- ==== Sys2Proof/WellFormed.lean ====
section
/-! DEFINITION. Well-formed instructions: the encoded instructions that meet none of the conditions of R57. -/

namespace Sys2Proof

/-- An encoded instruction whose fields R49-R57 and its entry allow. The events of the machine have no encoding and are
not well formed in this sense. -/
def Instr.wf (i : Instr) : Bool := i.illegal == none

end Sys2Proof
end

