-- ==== Sys2Proof/Machine/State.lean ====
section
/-! DEFINITION. The state of the package: everything the spec gives the machine, as plain data, and its value right after
reset. Sparse contents are lists of (key, value) with keys strictly rising and no value equal to the default (see
Fields); memory is such a list of Host.Cell whose unlisted bytes read 0 (DESIGN CHOICE, log 1). -/

namespace Sys2Proof.Machine

/-- Memory contents by address, in the canonical form `Memory.wf`; an unlisted byte reads 0 (DESIGN CHOICE, log 1). -/
abbrev Mem := List Host.Cell

/-! ### Traps -/

/-- The trap causes (R319). -/
inductive Cause where
  | illegalInstruction | illegalConvergence | formatDivergence | emptyRead | poisonRead | scratchBounds | alignment
  | roleViolation | budgetExceeded | trapInstruction | breakpoint | permRead | permWrite | permExec | permAtomic
  | permPriv | permKey | unmapped | rangeMiss | remoteUnavailable | heapTag | pinState | queueDesc | collParam
  deriving DecidableEq, Repr

/-- A trap as it arises: cause, lane mask, address, PC, code, flock, and whether an engine raised it (R320). -/
structure Trap where
  cause : Cause
  lanes : BitVec 32
  addr : Nat
  pc : Nat
  code : Nat
  flock : Nat
  eng : Bool
  deriving DecidableEq, Repr

/-- A suspended crew's trap record (R320): the trap, the restored checkpoint's number and the flags; `queued` when the
record has been delivered, `order` its place in the order of delivery, `retryAt` the clock of the next enqueue
attempt. -/
structure TrapRec where
  trap : Trap
  order : Nat
  ckptn : Nat
  held : Bool
  pre : Bool
  halt : Bool
  queued : Bool
  retryAt : Nat
  deriving DecidableEq, Repr

/-! ### Fibres, batches, flocks -/

/-- A lane register: value, full/empty bit and poison flag (R43). -/
structure LReg where
  val : Word
  full : Bool
  poison : Bool
  deriving DecidableEq, Repr

/-- A lane register at formation (R27). -/
def LReg.zero : LReg := { val := 0, full := true, poison := false }

/-- A scratch write that other fibres need not see yet (R116): its address and bytes, the number of the STS that made it, and whether the
lanes of that STS cover the line, whose poison they clear (R379). -/
structure ScrWrite where
  addr : Nat
  bytes : List Byte
  tag : Nat
  whole : Bool
  deriving DecidableEq, Repr

/-- A fibre (R27): lane slot, SR.FIBRE, window budget and base, lane registers, predicates, reference registers, the
latch of R22 and the scratch writes not yet completed (R116); the predicates and reference registers that an error has
poisoned (R333). -/
structure Fibre where
  lane : Nat
  num : Nat
  budget : Nat
  base : Nat
  regs : List (Nat × LReg)
  preds : BitVec 96
  href : List (Nat × Word64)
  latch : Option Word
  pend : List ScrWrite
  pBad : List Nat := []
  hBad : List Nat := []
  deriving DecidableEq, Repr

/-- The access class of an address (R106). -/
inductive Class where
  | dev | hostw | heap | pod | pool | host
  deriving DecidableEq, Repr

/-- A translated address: class, VA, IA, PA, HOME, DPIN and DIE of the leaf, the index of its range register, whether
the page may not be written, and the context (16 for none) (R93, R105, R296). For HOSTW `pa` is the offset in the window SRAM;
for POD `pa` is unused. -/
structure Loc where
  cls : Class
  va : Nat
  ia : Nat
  pa : Nat
  home : Nat
  dpin : Bool
  die : Nat
  range : Nat
  ro : Bool := false
  part : Nat := 16
  deriving DecidableEq, Repr

/-- What an irrevocable request does at its home (R138, R152, R153, R161, R162): a read-modify-write with AOP, a
compare-and-swap with the value to store, a queue operation, a pin operation or an allocation. -/
inductive AtomOp where
  | rmw (aop : Nat)
  | cas (c : Word64)
  | qenq
  | qdeq
  | pin
  | unpin
  | hnew (region size : Nat)
  deriving DecidableEq, Repr

/-- A reply to one lane of an irrevocable instruction: the value, the status (queue operations), and whether it is
poisoned or refused. -/
structure AtomReply where
  lane : Nat
  val : Word64
  status : Bool
  poison : Bool
  refused : Bool
  deriving DecidableEq, Repr

/-- Which irrevocable instruction a batch waits in, and where its replies go (R139, R152, R161, R162). -/
inductive AtomKind where
  | atom (d : Nat) (wide : Bool)
  | red
  | qenq (p : Nat)
  | qdeq (d p : Nat) (wide : Bool)
  | pin (d : Nat)
  | unpin
  | hnew (hd : Nat)
  deriving DecidableEq, Repr

/-- One lane's request of an irrevocable instruction: where it acts, what it does and its operand (R139, R152, R161). -/
structure AtomReq where
  lane : Nat
  loc : Loc
  op : AtomOp
  e : Word64
  deriving DecidableEq, Repr

/-- An irrevocable instruction between its two checkpoints: the requests still to send with the release they wait for,
their size in bytes, the lanes that send requests, the replies so far, the acquire to take (scope, RMT), the length in
words of the instruction, and the address a QUEUE_DESC or PIN_STATE reports per lane. -/
structure AtomWait where
  kind : AtomKind
  todo : List AtomReq
  release : Option Scope
  size : Nat
  lanes : List Nat
  replies : List AtomReply
  acquire : Option (Scope × Bool)
  len : Nat
  addrs : List (Nat × Nat)
  deriving DecidableEq, Repr

/-- What a batch waits in (R87, R127, R139, R153, R274-R278); `none` when it may issue. `tbar` has arrived at TBAR, `tbarOut`
is released from it; a QWAIT keeps the PC it issued from, where a rollback issues it again (R140). -/
inductive Wait where
  | none
  | rcv (addr : Nat) (t : Nat) (opened : Nat)
  | bar
  | tbar
  | tbarOut
  | sleep (qd : Nat) (nb : Option (Nat × Nat)) (t : Nat) (since : Nat)
  | qwait (qd : Nat) (desc : Loc) (listed : Bool) (t : Nat) (since : Nat) (reread : Nat) (from_ : Nat)
  | yield (until_ : Nat)
  | ring (ring slot : Nat) (full : Bool)
  | nb (n : Nat) (sampled : Bool)
  | atomic (w : AtomWait)
  deriving DecidableEq, Repr

/-- A batch (R32-R34): PC, lanes ascending, age, wait, and for an instruction that acts in several steps its phase, the tag of
the release entry it waits for and the instruction as it was fetched (R60). -/
structure Batch where
  pc : Nat
  lanes : List Nat
  age : Nat
  wait : Wait
  phase : Nat
  tag : Nat
  held : Option Instr := none
  deriving DecidableEq, Repr

/-- A flock's role (R42). -/
inductive Role where
  | vector | matrix | copy
  deriving DecidableEq, Repr

/-- A flock (R31): number, quadrant, role, uniform registers and predicates, WPEND (R274), batches and living fibres
in ascending lane order; `pipe` the lane of a batch whose UFROM holds the uniform pipe for the flock (R80); the uniform registers
and predicates that an error has poisoned (R333). -/
structure Flock where
  num : Nat
  quad : Nat
  role : Role
  k : List (Nat × Word)
  q : BitVec 16
  wpend : Bool
  batches : List Batch
  fibres : List Fibre
  pipe : Option Nat := none
  kBad : List Nat := []
  qBad : List Nat := []
  deriving DecidableEq, Repr

/-! ### Matrix units -/

/-- A tile's ownership state (R231). -/
inductive TileState where
  | free | crew | pinAtt | pinDet
  deriving DecidableEq, Repr

/-- A tile: its ownership entry (R231) and its elements by 64·i + j, 0 where unlisted; `bad` when R333 poisoned it, one flag for the
tile (DESIGN CHOICE, unsafe, log 46). -/
structure Tile where
  state : TileState
  dk : Bool
  base : Nat
  part : Nat
  crew : Nat
  handle : Nat
  gen : Nat
  tokens : Nat
  data : List (Nat × Word)
  bad : Bool
  deriving DecidableEq, Repr

/-- A FREE tile holding +0 (R213). -/
def Tile.free : Tile :=
  { state := .free, dk := false, base := 0, part := 0, crew := 0, handle := 0, gen := 0, tokens := 0, data := [],
    bad := false }

/-- An operation in a matrix unit's queue (R218), with the operands captured when it issued. -/
inductive MatOp where
  | sld (kind n addr : Nat)
  | mma (int : Bool) (z slot : Nat) (off pitch : Nat) (fmt : Nat) (kq bka bkb : Nat) (zero : Bool)
  | zzero (z : Nat)
  | zld (z off pitch : Nat)
  | zst (z off pitch : Nat)
  | zrd (d z r : Nat) (col : Bool)
  | zwr (z r : Nat) (col : Bool) (vals : List (Nat × Word × Word))
  | gdr (z : Nat) (d128 : Bool) (k v : List Word) (al be : Word)
  | chunk (gdr : Bool) (z : Nat) (d128 qf : Bool) (n tb ob : Nat)
  deriving DecidableEq, Repr

/-- A queued matrix operation with the batch that issued it. -/
structure MatJob where
  core : Nat
  slot : Nat
  flock : Nat
  lanes : List Nat
  pc : Nat
  op : MatOp
  deriving DecidableEq, Repr

/-- What a shadow of the scale banks holds: their elements and whether R333 poisoned them (R220). -/
structure Banks where
  sa : List (Nat × Word)
  sb : List (Nat × Word)
  saBad : Bool
  sbBad : Bool
  deriving DecidableEq, Repr

/-- A quadrant's matrix unit (R213-R220): holder, tiles, scale banks (1.0 where unlisted) and whether R333 poisoned them, B-store bytes
and poisoned 64-byte units of it, the queue, and the shadows of the open interval. -/
structure MUnit where
  gq : Nat
  holder : Option (Nat × Nat)
  tiles : List (Nat × Tile)
  sa : List (Nat × Word)
  sb : List (Nat × Word)
  saBad : Bool
  sbBad : Bool
  bstore : List (Nat × Byte)
  bBad : List Nat
  queue : List MatJob
  shTiles : List (Nat × Tile)
  shBanks : Option Banks
  deriving DecidableEq, Repr

/-- A unit as a new holder finds it, apart from pinned tiles (R213). -/
def MUnit.empty (gq : Nat) : MUnit :=
  { gq := gq, holder := none, tiles := [], sa := [], sb := [], saBad := false, sbBad := false, bstore := [], bBad := [], queue := [],
    shTiles := [], shBanks := none }

/-! ### Crews -/

/-- A named barrier (R126); `engine` when the latest phase change counted an engine arrival, `engNow` when the present count
holds one (R127). -/
structure NBar where
  expect : Nat
  count : Nat
  phase : Bool
  engine : Bool
  engNow : Bool
  deriving DecidableEq, Repr

/-- A named barrier at dispatch (R126). -/
def NBar.zero : NBar := { expect := 0, count := 0, phase := false, engine := false, engNow := false }

/-- A spawn bin of a crew (R40, R41): entry VA, threshold, timer, the clock at which its timer started, and the pending
fibres' argument registers in arrival order. `due` when its timer has run out; `held` when it waits for a bin of the core
(R377). -/
structure Bin where
  entry : Nat
  thr : Nat
  tmr : Nat
  since : Nat
  due : Bool
  pending : List (List Word)
  held : Bool
  deriving DecidableEq, Repr

/-- A bin setting of BINCFG (R281). -/
structure BinSetting where
  entry : Nat
  thr : Nat
  tmr : Nat
  deriving DecidableEq, Repr

/-- The part of a crew that a rollback restores (R313, R316): flocks with their batches and fibres, barriers, rings,
ARR, bins, settings, scratch contents by scratch address and poisoned scratch lines. -/
structure CrewCore where
  flocks : List Flock
  nbs : List (Nat × NBar)
  rings : List (Nat × BitVec 16)
  arr : Nat
  bins : List Bin
  settings : List BinSetting
  scratch : Mem
  scrBad : List Nat
  deriving DecidableEq, Repr

/-- Where a register producer writes (R43, R112, R160): a lane register (or pair), a uniform register (or pair) for the
fibre whose access it is, a reference register. -/
inductive ProdDest where
  | lane (lane reg : Nat) (wide : Bool)
  | uni (lane reg : Nat) (wide : Bool)
  | href (lane reg : Nat)
  deriving DecidableEq, Repr

/-- What an outstanding producer waits for: a unit of the core, memory at a PA, or the reply to a pod request. -/
inductive ProdSrc where
  | unit
  | mem (pa : Nat)
  | pod (id : Nat)
  deriving DecidableEq, Repr

/-- Is a pod reply still awaited? -/
def ProdSrc.isPod : ProdSrc → Bool
  | .pod _ => true
  | _ => false

/-- An outstanding register producer (R43): destination, value, poison, what it waits for, and the clock of its issue (R339). -/
structure Prod where
  flock : Nat
  dest : ProdDest
  val : Word64
  poison : Bool
  pc : Nat
  src : ProdSrc
  born : Nat := 0
  deriving DecidableEq, Repr

/-- The lane slot, window and number of an ended fibre, reserved until the next checkpoint (R376), and its latch (R22). -/
structure Reservation where
  quad : Nat
  lane : Nat
  base : Nat
  budget : Nat
  num : Nat
  latch : Option Word
  deriving DecidableEq, Repr

/-- A crew's level (R290). -/
inductive Level where
  | u | t | f
  deriving DecidableEq, Repr

/-- A crew's open pool snapshot: the range, its version and the committed bytes of memory it froze (R134, R354). -/
structure PoolSnap where
  range : Nat
  version : Nat
  mem : Mem
  deriving DecidableEq, Repr

/-- A crew's pool version under construction: the range, the version and its unpublished bytes (R134); `lost` when a write of it
found no free page (R354). -/
structure PoolWriter where
  range : Nat
  version : Nat
  bytes : List Host.Cell
  lost : Bool
  deriving DecidableEq, Repr

/-- One participant's descriptor of a copy: the flock that issued it with its PC, named barrier and MOD, and its eight
registers (R128, R129). -/
structure CopyDesc where
  flock : Nat
  pc : Nat
  nb : Nat
  mod : Nat
  regs : List Nat
  deriving DecidableEq, Repr

/-- What an engine operation does (R99): a copy (R128-R132), a B-store load (R221), a relocation list (R163), a
collective (R246-R260) or a page migration (R326). -/
inductive Job where
  /-- Participants still to issue, descriptors issued, started, destination lines left: (descriptor index, line). -/
  | copy (waiting : List Nat) (descs : List CopyDesc) (started : Bool) (todo : List (Nat × Nat))
  /-- Global quadrant, first slot, element size, rows, source address, pitch, from scratch, next row. -/
  | bld (gq slot size rows src pitch : Nat) (scratch : Bool) (next : Nat)
  /-- Die, list VA's IA, entries, next entry, whether its object is claimed, the held line. -/
  | goat (die list count next : Nat) (claimed : Bool) (held : Option Nat)
  /-- Parameter block words, behind them the collective's number in its group, group size and own rank, when the trigger is read next, start
  seen, step, contributions by rank with their poison, the own one as it stood at the start; failed. -/
  | coll (blk : List Nat) (size rank : Nat) (nextRead : Nat) (started : Bool) (step : Nat)
      (inputs : List (Nat × List (Nat × Bool))) (failed : Bool)
  /-- IA of the page, old and new PA, next line. -/
  | migrate (ia old new next : Nat)
  deriving DecidableEq, Repr

/-- An engine operation (R99): its number, the lines of W(e) it owns, the crew it works for with its level, the issuing flock and PC,
the named barrier it arrives at, and its job. -/
structure Engine where
  id : Nat
  owned : List Nat
  core : Nat
  slot : Nat
  part : Nat
  launch : Nat
  idx : Nat
  level : Level
  flock : Nat
  pc : Nat
  nb : Option Nat
  job : Job
  deriving DecidableEq, Repr

/-- A crew (R36): its place, context, level, launch, index, team, entry, trap area and queue; scratch allocation; the
live state and the state its latest checkpoint saved, with the engine operations then in flight (R313, R316); SR.CKPTN,
the interval timer, outstanding producers, the undo entries per quadrant and scratch-log lines of the open interval
(R381); the mark between the two checkpoints of R140 with a trap held there, and with the part of the state that the
marks of R318, R327 and R329 need; `ending` when its last fibre is gone and its interval closed (R280), `preDue` when
it is to be pre-empted (R327), `kept` the matrix units saved with it (R328). -/
structure Crew where
  core : Nat
  slot : Nat
  part : Nat
  level : Level
  launch : Nat
  idx : Nat
  ncrew : Nat
  teamSize : Nat
  entry : Nat
  trapArea : Nat
  trapQueue : Nat
  base : Nat
  limit : Nat
  live : CrewCore
  saved : CrewCore
  savedEng : List Engine
  ckptn : Nat
  timer : Nat
  prods : List Prod
  undo : List (Nat × Nat)
  scrLog : List Nat
  between : Bool
  heldTrap : Option Trap
  susp : Option TrapRec
  halted : Bool
  haltPend : Bool
  stepPend : Bool
  stepRec : List Nat
  ptwait : Nat
  done : Bool
  ending : Bool
  preDue : Bool
  ckptDue : Bool
  stopFor : Option (Nat × Nat)
  resv : List Reservation
  snaps : List PoolSnap
  writers : List PoolWriter
  kept : List MUnit
  deriving DecidableEq, Repr

/-! ### Memory side -/

/-- Where a line is homed: the context it is held for, its global slice, and whether its page is HOME=01 (R117, R307, R380). -/
structure Site where
  part : Nat
  slice : Nat
  pin : Bool
  deriving DecidableEq, Repr

/-- A line of H(x) held in its home slice: slice, way and context, committed bytes by PA, a valid and a dirty bit per sector,
HOME=01, evict-first and evict-last marks (R17, R18, R91, R117, R118). -/
structure HomeLine where
  line : Nat
  site : Site
  way : Nat
  data : Mem
  valid0 : Bool
  valid1 : Bool
  dirty0 : Bool
  dirty1 : Bool
  evictFirst : Bool
  evictLast : Bool
  deriving DecidableEq, Repr

/-- An uncommitted version of a line: the crew, its place in the slice, the bytes it has stored, by PA, the sectors that R333 poisoned,
and those that one store covered whole (R91, R307, R335). -/
structure Version where
  core : Nat
  slot : Nat
  site : Site
  way : Nat
  line : Nat
  bytes : List Host.Cell
  bad : List Nat
  clean : List Nat
  deriving DecidableEq, Repr

/-- A copy of C(c): core, bank group, way, partition, line, its snapshot of the committed value by PA, the sectors that were poisoned
when it was filled, HOME=10 (R16, R91, R117, R292, R335). That a copy keeps this poison is the model's. (DESIGN CHOICE, unsafe, log 33) -/
structure L1Copy where
  core : Nat
  group : Nat
  way : Nat
  part : Nat
  line : Nat
  data : Mem
  bad : List Nat
  pinned : Bool
  deriving DecidableEq, Repr

/-- What an entry of SB(f) or Q(c) carries (R91, R93): a store's bytes (`release` for the release store behind a rel
entry, `clears` when its request covers its whole sector, R335), an atomic request, or rel(S). -/
inductive EntryKind where
  | store (bytes : List Byte) (release clears : Bool)
  | atomic (op : AtomOp) (size : Nat) (e : Word64)
  | rel (scope : Scope)
  deriving DecidableEq, Repr

/-- An entry of SB(f) or Q(c): fibre, crew, partition, interval, address, contents, a tag and the hint of its instruction (R91,
R118); `own` marks a write of the crew's unpublished pool version (R134), `born` is the clock at which it was sent to a link (R339). -/
structure Entry where
  core : Nat
  slot : Nat
  flock : Nat
  lane : Nat
  fib : Nat
  part : Nat
  interval : Nat
  loc : Loc
  kind : EntryKind
  tag : Nat
  pc : Nat
  hint : Hint := .normal
  own : Bool := false
  born : Nat := 0
  deriving DecidableEq, Repr

/-- What a pod request asks (R136, R146). -/
inductive PodOp where
  | load
  | store
  | rmw (aop : Nat)
  | cas (c : Word64)
  deriving DecidableEq, Repr

/-- A pod request (R101): its number, partition, IA, width in bytes, whether a load sign-extends, operation and operand,
the batch lane it came from, the tag of its instruction, its PC, the output port it stands at, the input it entered the switch on,
the cycle of its arrival there, and that of its issue (R19, R143, R352). -/
structure PodReq where
  id : Nat
  part : Nat
  ia : Nat
  size : Nat
  sx : Bool
  op : PodOp
  e : Word64
  core : Nat
  slot : Nat
  flock : Nat
  lane : Nat
  fib : Nat
  tag : Nat
  pc : Nat
  at_ : Port
  inp : Nat := 0
  came : Nat := 0
  born : Nat := 0
  deriving DecidableEq, Repr

/-- A wait-buffer entry (R147): the port, the request absorbed into, the request absorbed and A_y. -/
structure WbEntry where
  port : Port
  y : Nat
  req : PodReq
  ay : Word64
  deriving DecidableEq, Repr

/-- A reply on its way back (R147): the request it answers, the value, poison, and the stage it passes next. -/
structure PodReply where
  req : PodReq
  val : Word64
  poison : Bool
  stage : Nat
  deriving DecidableEq, Repr

/-- A cached translation (R298, R299): context, 64 KiB granule of IA, leaf entry and its level. -/
structure TlbEntry where
  part : Nat
  granule : Nat
  leaf : Nat
  level : Nat
  deriving DecidableEq, Repr

/-- A value that a word of a context had before a store, and which a fetch may still give (R61): the context, the word's place, the
value, and the cores that have invalidated the word since. -/
structure FetchedWord where
  part : Nat
  pa : Nat
  word : Nat
  gone : List Nat
  deriving DecidableEq, Repr

/-- A MOVED entry in a core's forwarding cache (R158): core, partition, old and new base IA, and the object's lines. -/
structure FwdEntry where
  core : Nat
  part : Nat
  old : Nat
  new : Nat
  lines : Nat
  deriving DecidableEq, Repr

/-! ### Contexts -/

/-- A pin-table entry (R233). STATE: 0 ATT, 1 DET, 2 SPILLED, 3 SUSPENDED, then with its crew's launch and index. -/
structure PinEntry where
  valid : Bool
  gen : Nat
  state : Nat
  dk : Bool
  gq : Nat
  base : Nat
  core : Nat
  slot : Nat
  va : Nat
  ia : Nat
  level : Level
  launch : Nat
  idx : Nat
  deriving DecidableEq, Repr

/-- An empty pin-table entry. -/
def PinEntry.empty : PinEntry :=
  { valid := false, gen := 0, state := 0, dk := false, gq := 0, base := 0, core := 0, slot := 0, va := 0, ia := 0,
    level := .u, launch := 0, idx := 0 }

/-- A living launch (R267, R346): identifier, record fields, image and entry, node, the placement list, the launches of
the producer nodes of its edges by their keys, crews dispatched and ended, and completion bits; `key` is the launch's own name, which
no launch that is remembered shares, as identifiers may come again (R279). -/
structure Launch where
  id : Nat
  key : Nat
  entry : Nat
  ncrew : Nat
  queue : Nat
  level : Level
  team : Nat
  node : Option Nat
  image : Nat
  trapArea : Nat
  trapQueue : Nat
  place : List Nat
  kinit : List Word
  producers : List (Nat × Nat)
  dispatched : List Nat
  ended : List Nat
  bits : List Nat
  deriving DecidableEq, Repr

/-- A launch queue's dispatch state (R266): the clock since which its head has been dispatchable, and the levels it has been raised by. -/
structure LQState where
  since : Option Nat
  raised : Nat
  deriving DecidableEq, Repr

/-- A team that stands dispatchable at the head of a queue (R269): its launch's key and its number, since when, and the herd reserved
for it. -/
structure TeamWait where
  queue : Nat
  key : Nat
  team : Nat
  since : Nat
  herd : Option Nat
  deriving DecidableEq, Repr

/-- An entry of a loaded binary (R360). -/
structure EntryRec where
  va : Nat
  budget : Nat
  flocks : Nat
  fibres : Nat
  team : Nat
  bin : Bool
  thr : Nat
  tmr : Nat
  scratch : Nat
  roles : List Role
  deriving DecidableEq, Repr

/-- An edge of a loaded graph (R362): producer and consumer nodes, FUNC and its parameters. -/
structure EdgeRec where
  prod : Nat
  cons : Nat
  func : Nat
  a : Nat
  b : Nat
  s : Nat
  w : Nat
  deriving DecidableEq, Repr

/-- A region of a loaded binary: VA, size, class, IA, W and X (R358). -/
structure Region where
  va : Nat
  size : Nat
  cls : Nat
  ia : Nat
  w : Bool
  x : Bool
  deriving DecidableEq, Repr

/-- A loaded binary (R356-R364): regions, entries, call targets (VA, budget), nodes (entry, MAXCREW,
bitmap IA), edges and list words. -/
structure Image where
  id : Nat
  regions : List Region
  entries : List EntryRec
  funcs : List (Nat × Nat)
  nodes : List (Nat × Nat × Option Nat)
  edges : List EdgeRec
  lists : List Nat
  deriving DecidableEq, Repr

/-- A partition context (R289): system registers by number, held XOR their reset value; pin table; launches and queues, with each level's
rotation: the queue that had its latest dispatch and what that queue's turn there has left (R265);
loaded binaries; the management function's settings for it. -/
structure Context where
  part : Nat
  sys : List (Nat × Word64)
  pins : List (Nat × PinEntry)
  launches : List Launch
  lqs : List (Nat × LQState)
  rr : List (Nat × Nat × Nat)
  nextId : Nat
  teams : List TeamWait
  images : List Image
  nextImage : Nat
  interval : Nat
  quantum : Nat
  quantumAt : Nat
  preempting : Bool
  parked : List Crew
  frames : List Nat
  freeFrames : List Nat
  poolFrames : List Nat
  winBase : Nat
  winSize : Nat
  cxlGrants : List (Nat × Nat × Nat)
  hostGrants : List (Nat × Nat × Nat)
  saveArea : Nat
  key : Option Word64
  breakHalt : Bool
  handover : List Nat
  collSeq : List (Nat × Nat)
  collFailed : List (Nat × Nat × Cause)
  xlPend : List (Nat × Nat × Nat)
  heapOdd : List Nat
  deriving DecidableEq, Repr

/-- A context at its creation (R289): every system register at its reset value, the pin table empty, nothing queued, loaded,
granted or parked. -/
def Context.reset (part : Nat) : Context :=
  { part := part, sys := [], pins := [], launches := [], lqs := [], rr := [], nextId := 1, teams := [],
    images := [], nextImage := 0, interval := 0, quantum := 0, quantumAt := 0, preempting := false,
    parked := [], frames := [], freeFrames := [], poolFrames := [], winBase := 0, winSize := 0, cxlGrants := [], hostGrants := [],
    saveArea := 0, key := none, breakHalt := false, handover := [], collSeq := [], collFailed := [], xlPend := [], heapOdd := [] }

/-! ### Host side and error handling -/

/-- A function's control space (R344): PF is function 0 and VFn is function n + 1. `lold` keeps the values that words of unread records had
before they were written over (R345). -/
structure HostFn where
  accept : BitVec 256
  lock : Bool
  ovr : Bool
  ltail : Nat
  lhead : Nat
  flBase : Word64
  flLen : Word64
  busy : Bool
  lrec : List (Nat × Word64)
  lstat : List (Nat × Word64)
  lold : List (Nat × Word64)
  deriving DecidableEq, Repr

/-- A function's control space at reset (R344). -/
def HostFn.reset : HostFn :=
  { accept := 0, lock := false, ovr := false, ltail := 0, lhead := 0, flBase := 0, flLen := 0, busy := false,
    lrec := [], lstat := [], lold := [] }

/-- An error record (R340). -/
structure ErrRec where
  type : Nat
  ctx : Option Nat
  wher : Nat
  count : Nat
  pa : Nat
  ia : Nat
  deriving DecidableEq, Repr

/-- A scrubber's pass on one stack (R337): pass start, next sector, escalation step, quarters checked. -/
structure Hen where
  start : Nat
  next : Nat
  step : Nat
  quarter : Nat
  deriving DecidableEq, Repr

/-- Firmware policy values (R24, R283, R300, R326, R337, R339, R350). -/
structure Policy where
  actMax : Nat
  migThreshold : Nat
  scrubThreshold : List (Nat × Nat)
  scrubPeriod : List (Nat × Nat)
  timeouts : List (Link × Nat)
  enginePkr : List (Nat × Nat)
  fwVersion : Nat
  fwMin : Nat
  fwPending : Option (List Byte)
  fwImage : List Byte
  mailbox : Nat
  deriving DecidableEq, Repr

/-- A herd's burst of power-token use (R24): the herd (global) holding a token, when its burst began and its last such
issue. -/
structure TokenHold where
  herd : Nat
  start : Option Nat
  last : Nat
  deriving DecidableEq, Repr

/-- An issue selector (R34, R270): quadrant and set, the batch that issued last, how many in a row while another was ready, the
batches passed over with those that must issue before each may again, and the cycle of its latest issue. -/
structure Selector where
  gq : Nat
  uni : Bool
  last : BatchRef
  run : Nat
  owed : List (BatchRef × List BatchRef)
  at_ : Option Nat
  deriving DecidableEq, Repr

/-- A pool range shared by the pod (R134, R354): its base IA with its context, latest published version and writer. -/
structure PoolRange where
  range : Nat
  latest : Nat
  writer : Option (Nat × Nat)
  deriving DecidableEq, Repr

/-- One choice of the environment (DESIGN CHOICE, log 2): the cycles that pass, and the step taken: an event of the machine, or the
issue of a batch. -/
inductive Pick where
  | event (i : Instr)
  | issue (b : BatchRef)
  deriving DecidableEq, Repr

structure Choice where
  dt : Nat
  pick : Pick
  deriving DecidableEq, Repr

/-- The compressed image of an expanded page, a clean copy until the page is written: context, old and new PA, size (R338). -/
structure CleanImage where
  part : Nat
  old : Nat
  new : Nat
  size : Nat
  deriving DecidableEq, Repr

/-- A host write through BAR4 that the device has not completed: the function, and the bytes by PA (R348). -/
structure PostedWrite where
  fn : Nat
  bytes : List (Nat × Byte)
  deriving DecidableEq, Repr

/-- A byte that a host port has read ahead for a function, by the address that the function names it with (R348). -/
structure AheadByte where
  fn : Nat
  addr : Nat
  byte : Byte
  deriving DecidableEq, Repr

/-- The state of the package. `sched`, `fresh`, `cur` and `stall` are the model's own fields (DESIGN CHOICE, logs 2, 3 and 8). -/
structure State where
  clock : Nat
  sched : List Choice
  fresh : Nat
  cur : Option BatchRef
  stall : Bool
  dead : Bool
  alarm : Bool
  alarmAt : Nat
  pkg : Nat
  npkg : Nat
  fence : FenceMap
  mem : Mem
  home : List HomeLine
  vers : List Version
  l1 : List L1Copy
  icache : List FetchedWord
  tlb : List TlbEntry
  sb : List Entry
  rq : List Entry
  engines : List Engine
  poison : List Nat
  podMem : Mem
  hw : Mem
  hwBad : List Nat
  arrive : List PodReq
  reqs : List PodReq
  wbs : List WbEntry
  replies : List PodReply
  podOut : List PodReq
  linkWait : List Entry
  nextTag : Nat
  ctxs : List Context
  crews : List Crew
  units : List MUnit
  ways : List (Nat × Nat)
  slWays : List (Nat × Nat)
  wayAt : List (Nat × Nat)
  shTags : List (Nat × List Nat)
  shHits : List (Nat × Nat)
  fwd : List FwdEntry
  tokens : List (Nat × Nat)
  holds : List TokenHold
  sels : List Selector
  fns : List (Nat × HostFn)
  policy : Policy
  hens : List (Nat × Hen)
  rows : List (Nat × Nat)
  rowAt : List (Nat × Nat)
  rowWindow : Nat
  thermal : List (Nat × Nat)
  hitWindow : Nat
  hits : List (Nat × Nat)
  clean : List CleanImage
  errlog : List ErrRec
  down : List Link
  lost : List Link
  pools : List PoolRange
  lodged : List (Nat × Nat)
  posted : List PostedWrite
  ahead : List AheadByte
  reports : List (Nat × List Byte)
  notices : List (Nat × List Byte)
  haltNotes : List (Nat × Nat)
  deriving DecidableEq, Repr

/-! ### Stops -/

/-- Why the machine stops with a fault. -/
inductive Fault where
  /-- Raised by every step once the module has powered down at the critical limit (R355): safe, since the spec says the
  volatile state is lost and gives the module no further action. -/
  | poweredDown
  /-- Raised by the meaning of an encoded instruction when no batch stands at issue, so that there is no fibre to act on:
  safe, since the step function only runs an instruction for a batch. -/
  | noBatch
  deriving DecidableEq, Repr

/-- Why an instruction is refused. -/
inductive Refusal where
  /-- Raised by an arm of the dispatch whose instruction has no meaning yet: safe. -/
  | notModelled (mnemonic : String)
  deriving DecidableEq, Repr

/-- Outcomes of this machine. -/
abbrev Out (σ : Type) := Host.Outcome σ Fault Refusal

/-! ### The canonical form of memory -/

/-- Addresses strictly rising, and no entry equal to what an unlisted address reads as. -/
def Memory.wf (m : Mem) : Bool := spWf (0 : Byte) m

/-! ### Reset -/

/-- Firmware policy at reset: the defaults the spec gives (migration threshold 256, scrub period 24 h and threshold
25 %), and named values elsewhere (DESIGN CHOICE, log 4). -/
def Policy.reset : Policy :=
  { actMax := 8192, migThreshold := 256, scrubThreshold := [], scrubPeriod := [], timeouts := [], enginePkr := [],
    fwVersion := 0, fwMin := 0, fwPending := none, fwImage := [], mailbox := 0 }

/-- The package right after reset (R22, R26, R125, R289, R344): the cycle counter 0, nothing cached, buffered or in
flight, no context created, no crew; memory with nothing listed. Values the spec does not give are named (DESIGN CHOICE, log 4). -/
def State.reset : State :=
  { clock := 0, sched := [], fresh := 0, cur := none, stall := false, dead := false, alarm := false, alarmAt := 0, pkg := 0, npkg := 1,
    fence := { cores := [], quads := [], slices := [], hbm := [] }, mem := [], home := [], vers := [], l1 := [],
    icache := [], tlb := [], sb := [], rq := [], engines := [], poison := [], podMem := [], hw := [],
    hwBad := [], arrive := [], reqs := [], wbs := [], replies := [], podOut := [], linkWait := [], nextTag := 1,
    ctxs := [], crews := [], units := [], ways := [], slWays := [], wayAt := [], shTags := [], shHits := [], fwd := [], tokens := [], holds := [], sels := [], fns := [],
    policy := Policy.reset, hens := [], rows := [], rowAt := [], rowWindow := 0, thermal := [], hitWindow := 0, hits := [], clean := [], errlog := [], down := [], lost := [], pools := [],
    lodged := [], posted := [], ahead := [], reports := [], notices := [], haltNotes := [] }

end Sys2Proof.Machine
end

