-- ==== Sys2Proof/Machine/Mem.lean ====
section
/-! DEFINITION. The memory side of the machine as reads see it: M(x), H(x) with crew versions, L1 copies, poison, engine
ownership, and the entries of store buffers and release queues (R91). -/

namespace Sys2Proof.Machine

/-! ### Bytes of M(x) -/

/-- One byte of a memory (DESIGN CHOICE, log 1: an unlisted byte reads 0). -/
def Mem.get (m : Mem) (a : Nat) : Byte := spGet 0 m a

/-- Write one byte, keeping the canonical form. -/
def Mem.set (m : Mem) (a : Nat) (b : Byte) : Mem := spSet 0 a b m

/-- Read `n` bytes from `a`. -/
def Mem.read (m : Mem) (a n : Nat) : List Byte := spGetList 0 m a n

/-- Write bytes from `a` on. -/
def Mem.write (m : Mem) (a : Nat) (bs : List Byte) : Mem := spSetList 0 a bs m

/-- The listed cells of [lo, lo + n). -/
def Mem.slice (m : Mem) (lo n : Nat) : Mem :=
  (m.dropWhile fun c => decide (c.1 < lo)).takeWhile fun c => decide (c.1 < lo + n)

/-- Replace the bytes of [lo, lo + n) by the cells that `d` lists there. -/
def Mem.splice (m : Mem) (lo n : Nat) (d : Mem) : Mem :=
  (m.takeWhile fun c => decide (c.1 < lo)) ++ d.slice lo n ++ (m.dropWhile fun c => decide (c.1 < lo + n))

/-- Put a byte into an overlay: a list by rising address in which being listed is what counts, whatever the value. -/
def ovSet (a : Nat) (b : Byte) : List Host.Cell → List Host.Cell
  | [] => [(a, b)]
  | (k, v) :: r => if a = k then (a, b) :: r else if a < k then (a, b) :: (k, v) :: r else (k, v) :: ovSet a b r

/-- Put consecutive bytes into an overlay. -/
def ovWrite (a : Nat) : List Byte → List Host.Cell → List Host.Cell
  | [], o => o
  | b :: bs, o => ovWrite (a + 1) bs (ovSet a b o)

/-- The byte an overlay gives at an address, if it lists it. -/
def ovGet (a : Nat) (o : List Host.Cell) : Option Byte := (o.find? fun c => c.1 == a).map (·.2)

/-- Lay an overlay over a memory. -/
def Mem.overlay (m : Mem) (o : List Host.Cell) : Mem := o.foldl (fun m c => m.set c.1 c.2) m

/-! ### Home lines (R18, R91) -/

/-- The 128-byte line of an address, and its 64-byte sector. -/
def lineOf (a : Nat) : Nat := a / 128
def sectorOf (a : Nat) : Nat := a / 64

/-- Is it the slice's copy of a line for a partition? The tags carry the partition, so two partitions never name one line (R291). -/
def HomeLine.is (h : HomeLine) (part l : Nat) : Bool := h.site.part == part && h.line == l

/-- The home slice's copy of a partition's line. -/
def State.homeLine? (s : State) (part l : Nat) : Option HomeLine := s.home.find? fun h => h.is part l

/-- Does a home line hold a sector (R18)? -/
def HomeLine.has (h : HomeLine) (sec : Nat) : Bool := if sec % 2 = 0 then h.valid0 else h.valid1

/-- Is a sector of a home line dirty? -/
def HomeLine.isDirty (h : HomeLine) (sec : Nat) : Bool := if sec % 2 = 0 then h.dirty0 else h.dirty1

/-- The home line that holds a sector. -/
def State.homeSector? (s : State) (part sec : Nat) : Option HomeLine := (s.homeLine? part (sec / 2)).filter (·.has sec)

/-- The committed value of a byte for a partition: H(x) where the home slice holds the sector, else M(x). -/
def State.committed (s : State) (part pa : Nat) : Byte :=
  match s.homeSector? part (sectorOf pa) with
  | some h => h.data.get pa
  | none => s.mem.get pa

/-- The committed cells of a sector, and of a line. -/
def State.committedSector (s : State) (part sec : Nat) : Mem :=
  match s.homeSector? part sec with
  | some h => h.data.slice (64 * sec) 64
  | none => s.mem.slice (64 * sec) 64
def State.committedLine (s : State) (part l : Nat) : Mem :=
  s.committedSector part (2 * l) ++ s.committedSector part (2 * l + 1)

/-- Change the home slice's copy of a line. -/
def State.updHome (s : State) (part l : Nat) (f : HomeLine → HomeLine) : State :=
  { s with home := updFirst (fun h => h.is part l) f s.home }

/-- Mark a sector of a line dirty. -/
def HomeLine.dirty (h : HomeLine) (pa : Nat) : HomeLine :=
  if pa % 128 < 64 then { h with dirty0 := true } else { h with dirty1 := true }

/-- Read `n` committed bytes. -/
def State.committedBytes (s : State) (part pa : Nat) : Nat → List Byte
  | 0 => []
  | n + 1 => s.committed part pa :: s.committedBytes part (pa + 1) n

/-- A little-endian committed value of `n` bytes. -/
def State.committedVal (s : State) (part pa n : Nat) : Nat := leVal (s.committedBytes part pa n)

/-! ### Poison (R335) -/

def State.sectorBad (s : State) (sec : Nat) : Bool := s.poison.contains sec
def State.lineBad (s : State) (l : Nat) : Bool := s.sectorBad (2 * l) || s.sectorBad (2 * l + 1)
def State.poisonSector (s : State) (sec : Nat) : State := { s with poison := insertAsc sec s.poison }
def State.cleanSector (s : State) (sec : Nat) : State := { s with poison := s.poison.filter (· != sec) }

/-- Does a list of sectors meet [pa, pa + n)? -/
def meetsSector (secs : List Nat) (pa n : Nat) : Bool :=
  secs.any fun sec => decide (sectorOf pa ≤ sec) && decide (sec ≤ sectorOf (pa + n - 1))

/-- Is any sector of [pa, pa + n) poisoned? -/
def State.rangeBad (s : State) (pa n : Nat) : Bool := meetsSector s.poison pa n

/-! ### Versions (R91, R104) -/

/-- Does a version belong to a crew? -/
def Version.ofCrew (v : Version) (core slot : Nat) : Bool := v.core == core && v.slot == slot

/-- The version of a line that a crew holds. -/
def State.version? (s : State) (core slot l : Nat) : Option Version :=
  s.vers.find? fun v => v.ofCrew core slot && v.line == l

/-- E11, the versions' part: a crew's versions are removed, but not the poison that an error left in them (R93, R335). -/
def State.dropVersions (s : State) (core slot : Nat) : State :=
  ((s.vers.filter fun v => v.ofCrew core slot).flatMap (·.bad)).foldl State.poisonSector
    { s with vers := s.vers.filter fun v => !v.ofCrew core slot }

/-- The byte that a crew's version gives, if it has stored one. -/
def State.versionByte? (s : State) (core slot pa : Nat) : Option Byte :=
  (s.version? core slot (lineOf pa)).bind fun v => ovGet pa v.bytes

/-- H(x)'s committed byte overlaid with a crew's version (E5, E8). -/
def State.seenByte (s : State) (part core slot pa : Nat) : Byte :=
  (s.versionByte? core slot pa).getD (s.committed part pa)

/-- Poisoned sectors among some, as a crew sees them: a sector that its version has stored whole is clean, and one that an error hit in
its version is poisoned (R333, R335). -/
def State.badFor (s : State) (core slot l : Nat) (secs : List Nat) : List Nat :=
  match s.version? core slot l with
  | some v => v.bad ++ secs.filter fun sec => !v.clean.contains sec
  | none => secs

/-! ### Crews -/

def State.crew? (s : State) (core slot : Nat) : Option Crew := s.crews.find? fun k => k.core == core && k.slot == slot

def State.updCrew (s : State) (core slot : Nat) (f : Crew → Crew) : State :=
  { s with crews := updFirst (fun k => k.core == core && k.slot == slot) f s.crews }

/-! ### Engine ownership (R99) -/

/-- Does an engine operation own a partition's line? -/
def State.owned (s : State) (part l : Nat) : Bool := s.engines.any fun e => e.part == part && e.owned.contains l

/-- Is the line one that a collective still has to write? Every access of a fibre waits for it, at whatever scope (R253). -/
def State.oxOwned (s : State) (part l : Nat) : Bool := s.engines.any fun e => e.part == part && e.owned.contains l && (match e.job with
  | .coll _ _ _ _ _ _ _ _ => true
  | _ => false)

/-! ### L1 copies (R91, R117, R292) -/

/-- The copy of a line that a partition's lookups on a core hit. -/
def State.copy? (s : State) (core part l : Nat) : Option L1Copy :=
  s.l1.find? fun c => c.core == core && c.part == part && c.line == l

/-- Drop a core's copy of a line (E6); `pinned` drops HOME=10 copies too. -/
def State.dropL1 (s : State) (core part l : Nat) (pinned : Bool) : State :=
  { s with l1 := s.l1.filter fun c => !(c.core == core && c.part == part && c.line == l && (pinned || !c.pinned)) }

/-- Drop every core's copy of a partition's line. -/
def State.dropL1All (s : State) (part l : Nat) : State := { s with l1 := s.l1.filter fun c => !(c.part == part && c.line == l) }

/-- Change a core's copy of a line, if it holds one. -/
def State.updL1 (s : State) (core part l : Nat) (f : L1Copy → L1Copy) : State :=
  { s with l1 := s.l1.map fun c => if c.core == core && c.part == part && c.line == l then f c else c }

/-- Bytes written into a copy. -/
def L1Copy.store (c : L1Copy) (pa : Nat) (bs : List Byte) : L1Copy := { c with data := c.data.write pa bs }

/-- The dropping part of E8: every copy of a core but HOME=10 lines (R93). -/
def State.dropCore (s : State) (core : Nat) : State :=
  { s with l1 := s.l1.filter fun c => !(c.core == core) || c.pinned }

/-! ### Entries of SB and Q (R91) -/

/-- How many bytes an entry covers. -/
def Entry.size (e : Entry) : Nat :=
  match e.kind with
  | .store bs _ _ => bs.length
  | .atomic _ n _ => n
  | .rel _ => 0

/-- Does an entry cover a byte? -/
def Entry.covers (e : Entry) (pa : Nat) : Bool := decide (e.loc.pa ≤ pa) && decide (pa < e.loc.pa + e.size)

/-- Is it an entry of a never-cached mapping? One of the other kind gives no byte to an access, whatever page both map (R100, R124). -/
def Entry.direct (e : Entry) : Bool := e.loc.home == 3

def Entry.isRel (e : Entry) : Bool := match e.kind with | .rel _ => true | _ => false
def Entry.isAtomic (e : Entry) : Bool := match e.kind with | .atomic _ _ _ => true | _ => false
def Entry.line (e : Entry) : Nat := lineOf e.loc.pa

/-- Do two entries aim at one line (R291)? -/
def Entry.sameLine (e d : Entry) : Bool := e.part == d.part && e.line == d.line

/-- What a byte read finds in a list of entries, youngest first: a store's byte, an atomic to wait for, or nothing. -/
inductive Found where
  | byte (b : Byte)
  | blocked
  | nothing
  deriving DecidableEq, Repr

/-- What one source finds, else another. -/
def Found.orElse (x : Found) (y : Found) : Found :=
  match x with
  | .nothing => y
  | z => z

/-- The youngest entry of a list (oldest first) that satisfies `p` and covers the byte (R91). -/
def findByte (p : Entry → Bool) (pa : Nat) : List Entry → Found
  | [] => .nothing
  | e :: r =>
    match findByte p pa r with
    | .nothing =>
      if p e && e.covers pa then
        (match e.kind with
         | .store bs _ _ => .byte (bs.getD (pa - e.loc.pa) 0)
         | .atomic _ _ _ => .blocked
         | .rel _ => .nothing)
      else .nothing
    | x => x

/-- Is the entry in SB(f)? Fibres are named by core and SR.FIBRE. -/
def Entry.ofFibre (core fib : Nat) (e : Entry) : Bool := e.core == core && e.fib == fib

/-- Which agent reads: core, bank group, partition, crew slot and fibre. -/
structure Reader where
  core : Nat
  group : Nat
  part : Nat
  slot : Nat
  fib : Nat
  deriving DecidableEq, Repr

end Sys2Proof.Machine
end

