-- ==== Sys2Proof/Machine/Translate.lean ====
section
/-! DEFINITION. System registers, range registers, page tables, keys, the checks of R298 and the home slices (R105,
R144, R289-R306, R380). -/

namespace Sys2Proof.Machine

/-! ### Contexts and system registers (R289, R306) -/

def State.ctx? (s : State) (part : Nat) : Option Context := s.ctxs.find? fun c => c.part == part

def State.updCtx (s : State) (part : Nat) (f : Context → Context) : State :=
  { s with ctxs := updFirst (fun c => c.part == part) f s.ctxs }

/-- The reset value of a system register (R306): launch queues hold PRIO 0, WT 1 and AGE 2^16; every other, 0. -/
def sysReset (sn : Nat) : Word64 :=
  if 0x030000 ≤ sn ∧ sn < 0x030040 then 0x0000000100000100 else 0

/-- A context's system register. -/
def Context.reg (c : Context) (sn : Nat) : Word64 := spGet 0 c.sys sn ^^^ sysReset sn

/-- Set a context's system register. -/
def Context.setReg (c : Context) (sn : Nat) (v : Word64) : Context :=
  { c with sys := spSet 0 sn (v ^^^ sysReset sn) c.sys }

/-- Numbers of the system registers (R306). -/
def snPctx : Nat := 0x000000
def snQown : Nat := 0x000010
def snRange : Nat := 0x000100
def snPtroot : Nat := 0x000200
def snXlbase : Nat := 0x000202
def snXlinv : Nat := 0x000203
def snPkr : Nat := 0x000300
def snSlway : Nat := 0x000400
def snBwsh : Nat := 0x000480
def snOxsh : Nat := 0x000500
def snPrio : Nat := 0x000501
def snHeapr : Nat := 0x010000
def snGroup : Nat := 0x020000
def snLq : Nat := 0x030000

/-- Does a context own a global quadrant (R292, R306)? -/
def Context.owns (c : Context) (gq : Nat) : Bool := bitAt (c.reg (snQown + gq / 64)).toNat (gq % 64)

/-- The control space of a function: PF is 0, VFn is n + 1 (R343). -/
def State.fn (s : State) (fn : Nat) : HostFn := spGet HostFn.reset s.fns fn
def State.setFn (s : State) (fn : Nat) (h : HostFn) : State := { s with fns := spSet HostFn.reset fn h s.fns }

/-- Is a feature accepted at negotiation for a context (R347)? -/
def State.feature (s : State) (part bit : Nat) : Bool := bitAt (s.fn (part + 1)).accept.toNat bit

/-! ### Range registers (R293) -/

/-- A range register as its four words stand. -/
structure Range where
  base : Nat
  limit : Nat
  off : Nat
  nw : Bool
  nx : Bool
  valid : Bool
  cls : Nat
  deriving DecidableEq, Repr

def Context.range (c : Context) (n : Nat) : Range :=
  let attr := (c.reg (snRange + 4 * n + 3)).toNat
  { base := (c.reg (snRange + 4 * n)).toNat, limit := (c.reg (snRange + 4 * n + 1)).toNat,
    off := (c.reg (snRange + 4 * n + 2)).toNat, nw := bitAt attr 5, nx := bitAt attr 4, valid := bitAt attr 3,
    cls := bits attr 2 0 }

/-- The class of a CLASS code (R106). -/
def Class.ofCode : Nat → Class
  | 0 => .dev | 1 => .hostw | 2 => .heap | 3 => .pod | 4 => .pool | _ => .host

/-- May the context use ranges of a class (R347)? -/
def State.classOn (s : State) (part : Nat) : Class → Bool
  | .pod => s.feature part 4
  | .pool => s.feature part 5
  | _ => true

/-- The first range register, in ascending number, that holds a VA (R105). -/
def Context.findRange (c : Context) (va : Nat) : Nat → Nat → Option (Nat × Range)
  | _, 0 => none
  | n, k + 1 =>
    let r := c.range n
    if r.valid && decide (r.base ≤ va) && decide (va < r.limit) then some (n, r) else c.findRange va (n + 1) k

/-- IA := (VA + OFF)[51:0] (R293). -/
def Range.ia (r : Range) (va : Nat) : Nat := (va + r.off) % 2 ^ 52

/-! ### Page tables (R295-R297) -/

/-- A page-table entry, read as a committed value in home slices (R298). -/
def State.pte (s : State) (c : Context) (pa : Nat) : Nat := s.committedVal c.part pa 8

/-- Fields of a leaf entry (R296). -/
def leafKey (e : Nat) : Nat := bits e 56 52
def leafRS (e : Nat) : Bool := bitAt e 14
def leafCT (e : Nat) : Bool := bitAt e 13
def leafDie (e : Nat) : Nat := bits e 12 10
def leafDpin (e : Nat) : Bool := bitAt e 9
def leafHome (e : Nat) : Nat := bits e 8 7
def leafP (e : Nat) : Bool := bitAt e 6
def leafA (e : Nat) : Bool := bitAt e 5
def leafX (e : Nat) : Bool := bitAt e 4
def leafW (e : Nat) : Bool := bitAt e 3
def leafR (e : Nat) : Bool := bitAt e 2

/-- log2 of the page size of a leaf at a level (R295). -/
def pageBits : Nat → Nat
  | 1 => 30 | 2 => 21 | _ => 16

/-- The PA of an IA under a leaf at a level (R296). -/
def leafPa (e level ia : Nat) : Nat :=
  bits e 51 16 * 65536 / 2 ^ pageBits level * 2 ^ pageBits level + ia % 2 ^ pageBits level

/-- Is a leaf well formed at its level? (R296: bits marked 0, PA alignment, DIE only with DPIN) -/
def leafFormed (e level : Nat) : Bool :=
  bits e 63 57 == 0 && !bitAt e 15 && (leafDpin e || leafDie e == 0)
    && bits e 51 16 * 65536 % 2 ^ pageBits level == 0

/-- Is the PA range [pa, pa + n) usable by a context (R297)? -/
def State.paOk (s : State) (c : Context) (pa n : Nat) (dpin : Bool) (die : Nat) : Bool :=
  let space := bits pa 51 50
  if space == 0 then
    let stack := bits pa 40 37
    bits pa 49 41 == 0 && decide (pa % 2 ^ 37 + n ≤ 0x1680000000) && !s.fence.hbm.contains stack
      && (!dpin || stack / 2 == die)
      && (List.range (n / 65536)).all fun i => c.frames.contains (pa / 65536 + i)
  else if space == 1 then
    !dpin && c.cxlGrants.any fun g => decide (g.2.1 ≤ pa) && decide (pa + n ≤ g.2.2)
  else if space == 2 then
    !dpin && c.hostGrants.any fun g => decide (g.2.1 ≤ pa) && decide (pa + n ≤ g.2.2)
  else false

/-- Are the bytes [pa, pa + n), within one frame, in the context's reach (R297)? -/
def State.reaches (s : State) (c : Context) (pa n : Nat) : Bool :=
  s.paOk c pa n false 0 && (bits pa 51 50 != 0 || c.frames.contains (pa / 65536))

/-- A leaf that R296 and R297 allow. -/
def State.leafOk (s : State) (c : Context) (e level : Nat) : Bool :=
  leafFormed e level && s.paOk c (bits e 51 16 * 65536) (2 ^ pageBits level) (leafDpin e) (leafDie e)

/-- A table entry: bits [7:2] and [63:52] 0, the next table aligned to its size (R295). -/
def tableOk (e nextBits : Nat) : Bool := bits e 7 2 == 0 && bits e 63 52 == 0 && bits e 51 8 * 256 % 2 ^ nextBits == 0

/-- The entry of a table that a walk reads, none where the table's PA is outside R297: a walk reaches no frame outside its context, and
such a table fails it as a page would. (DEDUCED, safe, log 82) -/
def State.entry? (s : State) (c : Context) (pa : Nat) : Option Nat :=
  if s.reaches c pa 8 then some (s.pte c pa) else none

/-- One level of the walk of R295: the entry's next table, or the leaf, or nothing. -/
inductive WalkStep where
  | table (pa : Nat)
  | leaf (e level : Nat)
  | fails
  deriving DecidableEq, Repr

/-- The entry of a level: a leaf where the level allows one, or the next table, aligned to its size. -/
def State.walkStep (s : State) (c : Context) (pa level nextBits : Nat) : WalkStep :=
  match s.entry? c pa with
  | none => .fails
  | some e =>
    if !bitAt e 0 then .fails
    else if bitAt e 1 then (if level ≠ 0 && s.leafOk c e level then .leaf e level else .fails)
    else if level = 3 || !tableOk e nextBits then .fails
    else .table (bits e 51 8 * 256)

/-- Where the entry of an IA stands in a table of a level (R295). -/
def tableAt (table level ia : Nat) : Nat := table + 8 * (match level with
  | 0 => bits ia 51 39
  | 1 => bits ia 38 30
  | 2 => bits ia 29 21
  | _ => bits ia 20 16)

/-- The walk from a table on: where its last entry stands, and that leaf with its level; `n` levels are left. -/
def State.walkFrom (s : State) (c : Context) (ia : Nat) : Nat → Nat → Nat → Option (Nat × Nat × Nat)
  | 0, _, _ => none
  | n + 1, level, table =>
    match s.walkStep c (tableAt table level ia) level (if level = 2 then 8 else 12) with
    | .fails => none
    | .leaf e lv => some (tableAt table level ia, e, lv)
    | .table next => s.walkFrom c ia n (level + 1) next

/-- The table of level 0 (R295, R306). -/
def Context.root (c : Context) : Nat := bits (c.reg snPtroot).toNat 51 12 * 4096

/-- The walk of R295: the leaf entry and its level, or none where order 3 of R298 fails. -/
def State.walk (s : State) (c : Context) (ia : Nat) : Option (Nat × Nat) := (s.walkFrom c ia 4 0 c.root).map (·.2)

/-- The translation an access uses: the walk, or a cached one; where the two differ the device may use either, until
SYS_XLINV drops the cached one (R299, DESIGN CHOICE, log 9). A cached one whose frames the context has lost reaches none of them
(R297, R299). -/
def State.leaf? (s : State) (c : Context) (ia : Nat) : Option (Nat × Nat) :=
  let w := s.walk c ia
  match s.tlb.find? fun t => t.part == c.part && t.granule == ia / 65536 with
  | none => w
  | some t =>
    if w == some (t.leaf, t.level) || !s.leafOk c t.leaf t.level then w
    else if Config.freeBool s.fresh (ia / 65536) then some (t.leaf, t.level) else w

/-! ### The checks of R298 -/

/-- What an access does (R298). -/
inductive Access where
  | load | store | atomic | queue | fetch
  deriving DecidableEq, Repr

def Access.writes : Access → Bool
  | .store | .atomic | .queue => true
  | _ => false

/-- The permission register's refusal (R300), honoured at level F. -/
def keyRefuses (pkr : Nat) (a : Access) : Bool := bitAt pkr 0 || (bitAt pkr 1 && a.writes)

/-- The permission register of the engines' migration channels (R300). -/
def State.engineRefuses (s : State) (e : Nat) (a : Access) : Bool :=
  keyRefuses (spGet 0 s.policy.enginePkr (leafKey e)) a

/-- Does the permission register that governs a requester refuse an access: a crew's context's at level F, the engines' own for the
Goat and the Ox (R300)? -/
def State.refuses (s : State) (c : Context) (eng : Bool) (lv : Level) (a : Access) (e : Nat) : Bool :=
  if eng then s.engineRefuses e a else lv == .f && keyRefuses (c.reg (snPkr + leafKey e)).toNat a

/-- Orders 4 to 8 of R298 on a leaf: the first cause met, if any; `refused` is the key check's verdict. -/
def leafCause (refused : Bool) (lv : Level) (a : Access) (e : Nat) : Option Cause :=
  if leafP e && lv == .u then some .permPriv
  else if refused then some .permKey
  else match a with
    | .load => if leafR e then none else some .permRead
    | .store => if leafW e then none else some .permWrite
    | .atomic | .queue =>
      if !leafR e then some .permRead else if !leafW e then some .permWrite else if !leafA e then some .permAtomic
      else none
    | .fetch => if leafX e then none else some .permExec

/-- Does a link serve a PA (R339, R353)? A CXL port serves PA space 01 by PA[49:48]; space 10 is served by the host
ports. -/
def linkServes (l : Link) (pa : Nat) : Bool := match l with
  | .cxl p => bits pa 51 50 == 1 && bits pa 49 48 == p
  | .host _ => bits pa 51 50 == 2
  | .pod _ => false

/-- Does a lost link serve a PA? -/
def State.lostPa (s : State) (pa : Nat) : Bool := s.lost.any fun l => linkServes l pa

/-! ### Pod homes (R144) -/

/-- The home number H of an IA in a pod of `P` packages (R144). -/
def podHash (ia : Nat) : Nat := bits (bits ia 51 7) 31 0 ^^^ bits (bits ia 51 7) 44 32
def podHome (ia P : Nat) : Nat := podHash ia * 16 * P / 2 ^ 32

/-- The serving stack of a computed stack (R144). -/
def servingStack (fenced : List Nat) (st : Nat) : Nat :=
  if !fenced.contains st then st
  else if !fenced.contains (st ^^^ 1) then st ^^^ 1
  else ((List.range 16).find? fun x => !fenced.contains x).getD st

/-- The first unfenced slice from `i` on among `n` slices from `lo`, wrapping (R144, R380). -/
def unfenced (fenced : List Nat) (lo n i : Nat) : Option Nat :=
  ((List.range n).map fun k => lo + (i + k) % n).find? fun x => !fenced.contains x

/-- The pod link that a request's path uses: output dF of stage F drives it, for homes of this package too; in a pod of one the links are
idle (R143, R352). -/
def State.podLink (s : State) (ia : Nat) : Option Nat :=
  if s.npkg ≤ 1 then none else some (podHome ia s.npkg / 786432 % 16)

/-- Is the pod home of a line another package (R144)? -/
def State.podRemote (s : State) (ia : Nat) : Bool := decide (1 < s.npkg) && podHome ia s.npkg / 16 != s.pkg

/-- The fence map of a package: this one's, else that package's own, which this state does not hold (DESIGN CHOICE, log 10). -/
def State.stackFenced (s : State) (pkg stack : Nat) : Bool :=
  if pkg = s.pkg ∨ s.npkg ≤ 1 then s.fence.hbm.contains stack else Config.remoteFenced pkg stack
def State.sliceFenced (s : State) (pkg slice : Nat) : Bool :=
  if pkg = s.pkg ∨ s.npkg ≤ 1 then s.fence.slices.contains slice else Config.remoteFenced pkg (16 + slice)

/-- The serving package × 16 + stack of a POD line (R144). -/
def State.podServing (s : State) (ia : Nat) : Nat :=
  let h := podHome ia s.npkg
  h / 16 * 16 + servingStack ((List.range 16).filter (s.stackFenced (h / 16))) (h % 16)

/-- The global slice of the home package that serves a POD line: that of R144 on the serving stack's die, or the next unfenced one
of that die. -/
def State.podSlice (s : State) (ia : Nat) : Nat :=
  let st := s.podServing ia % 16
  let i := 192 * (st % 2) + podHash ia % 2 ^ 16 * 192 / 2 ^ 16
  let lo := 384 * (st / 2)
  (((List.range 384).map fun k => lo + (i + k) % 384).find? fun x => !s.sliceFenced (podHome ia s.npkg / 16) x).getD (lo + i)

/-- Is a POD line unavailable because the pod link on its path is lost (R352)? -/
def State.podLost (s : State) (ia : Nat) : Bool :=
  match s.podLink ia with
  | none => false
  | some l => s.lost.contains (.pod l)

/-- The leaf of a POD page at its pod home: this package's own tables where it is the home, else the remote package's
(R294, DESIGN CHOICE, log 10). -/
def State.podLeaf (s : State) (c : Context) (ia : Nat) : Option (Nat × Nat) :=
  if s.podRemote ia then
    let e := Config.remoteLeaf (podHome ia s.npkg / 16) c.part (ia / 65536)
    if bitAt e 0 && bitAt e 1 then some (e, 3) else none
  else s.leaf? c ia

/-! ### Translation -/

/-- A location from a leaf. -/
def locOf (part : Nat) (cls : Class) (va ia e level range : Nat) : Loc :=
  { cls := cls, va := va, ia := ia, pa := leafPa e level ia, home := leafHome e, dpin := leafDpin e, die := leafDie e,
    range := range, ro := !leafW e, part := part }

/-- Orders 3 to 8 of R298 and R339 on an IA that the page tables translate, for a crew or for an engine that works for one.
(DESIGN CHOICE, safe, log 27) -/
def State.pageCheckBy (s : State) (c : Context) (eng : Bool) (lv : Level) (a : Access) (cls : Class) (va ia range : Nat) :
    Except Cause Loc :=
  match (if cls == .pod then s.podLeaf c ia else s.leaf? c ia) with
  | none => .error .unmapped
  | some (e, level) =>
    match leafCause (s.refuses c eng lv a e) lv a e with
    | some k => .error k
    | none =>
      let l := locOf c.part cls va ia e level range
      if (if cls == .pod then s.podLost ia else s.lostPa l.pa) then .error .remoteUnavailable else .ok l

/-- The page check of a crew's access. -/
def State.pageCheck (s : State) (c : Context) (lv : Level) (a : Access) (cls : Class) (va ia range : Nat) : Except Cause Loc :=
  s.pageCheckBy c false lv a cls va ia range

/-- `translate` of R8 for a crew of a context at a level, or for an engine that works for one: the checks of R298 in order. -/
def State.translateBy (s : State) (eng : Bool) (part : Nat) (lv : Level) (a : Access) (va0 : Nat) : Except Cause Loc :=
  let va := va0 % 2 ^ 57
  match s.ctx? part with
  | none => .error .rangeMiss
  | some c =>
    match c.findRange va 0 16 with
    | none => .error .rangeMiss
    | some (n, r) =>
      let cls := Class.ofCode r.cls
      if !s.classOn part cls then .error .rangeMiss
      else if r.nw && a.writes then .error .permWrite
      else if r.nx && a == .fetch then .error .permExec
      else if a == .atomic && (cls == .host || cls == .pool) then .error .permAtomic
      else if a == .queue && cls != .dev then .error .queueDesc
      else
        let ia := r.ia va
        match cls with
        | .hostw =>
          if c.winSize ≤ ia then .error .unmapped
          else .ok { cls := .hostw, va := va, ia := ia, pa := c.winBase + ia, home := 0, dpin := false, die := 0,
                     range := n, part := part }
        | .host =>
          let pa := 2 * 2 ^ 50 + ia % 2 ^ 50
          if !s.paOk c pa 1 false 0 then .error .unmapped
          else if s.lostPa pa then .error .remoteUnavailable
          else .ok { cls := .host, va := va, ia := ia, pa := pa, home := 0, dpin := false, die := 0,
                     range := n, part := part }
        | _ => s.pageCheckBy c eng lv a cls va ia n

/-- `translate` of R8. -/
def State.translate (s : State) (part : Nat) (lv : Level) (a : Access) (va0 : Nat) : Except Cause Loc :=
  s.translateBy false part lv a va0

/-- The key of a page's access count: context and 64 KiB granule of IA. -/
def hitKey (part ia : Nat) : Nat := part * 2 ^ 36 + ia / 65536

/-- Count an access to a page that is not resident, or that stands compressed (R326, R338). -/
def State.countHit (s : State) (part : Nat) (l : Loc) : State :=
  let far := l.cls == .dev || l.cls == .heap
  let ct := match (s.ctx? part).bind fun c => s.walk c l.ia with
    | some (e, _) => leafCT e
    | none => false
  if far && (bits l.pa 51 50 != 0 || ct) then
    { s with hits := spSet 0 (hitKey part l.ia) (spGet 0 s.hits (hitKey part l.ia) + 1) s.hits }
  else s

/-- Remember the translation of an access in the memory-side cache (R298), unless one is cached already. -/
def State.tlbLeaf (s : State) (part : Nat) (l : Loc) : State :=
  match l.cls with
  | .hostw | .host | .pod => s
  | _ =>
    match s.ctx? part with
    | none => s
    | some c =>
      if s.tlb.any fun t => t.part == part && t.granule == l.ia / 65536 then s
      else match s.walk c l.ia with
        | some (e, level) =>
          { s with tlb := { part := part, granule := l.ia / 65536, leaf := e, level := level } :: s.tlb }
        | none => s

/-- An access that passed its checks: its page's count, and its translation cached. -/
def State.cacheLeaf (s : State) (part : Nat) (l : Loc) : State := (s.tlbLeaf part l).countHit part l

/-! ### Home slices (R380) -/

/-- The line hash h of a PA. -/
def lineHash (pa : Nat) : Nat := bits (bits pa 51 7) 31 0 ^^^ bits (bits pa 51 7) 44 32

/-- The global home slice of a line (R380, R26). -/
def State.homeSlice (s : State) (pa : Nat) (dpin : Bool) (die : Nat) : Nat :=
  let h := lineHash pa
  let any := (unfenced s.fence.slices 0 3072 (h * 3072 / 2 ^ 32)).getD (h * 3072 / 2 ^ 32)
  if dpin then (unfenced s.fence.slices (384 * die) 384 (h * 384 / 2 ^ 32)).getD any else any

end Sys2Proof.Machine
end

