-- ==== Sys2Proof/Machine/Home.lean ====
section
/-! DEFINITION. The steps of the memory side: home slices with their sets and ways, L1 ways, the sources a read takes its bytes
from, E2, and the error log (R16-R18, R61, R91-R94, R117, R118, R283, R307, R340). -/

namespace Sys2Proof.Machine

/-! ### Channels, banks and rows of a stack (R283, R332) -/

/-- A place after some exchanges of places among `n`. -/
def swapped (n : Nat) (swaps : List (Nat × Nat)) (x : Nat) : Nat :=
  swaps.foldl (fun x p => if x = p.1 % n then p.2 % n else if x = p.2 % n then p.1 % n else x) x

/-- Data sectors of a stack, and of one channel (R297, R332). -/
def stackSectors : Nat := 0x5A000000
def channelSectors : Nat := 0x3000000

/-- Where a stack keeps a data sector: 30 data channels, 15 of each parity group, and the place in the channel, its bank, row and column. -/
structure DramPlace where
  stack : Nat
  chan : Nat
  at_ : Nat
  deriving DecidableEq, Repr

/-- A sector's place (R332: the mapping is not given, DESIGN CHOICE, log 62). -/
def dramPlace (sec : Nat) : DramPlace :=
  let x := swapped stackSectors (Config.sectorSwaps (bits (64 * sec) 40 37)) (sec % 2 ^ 31 % stackSectors)
  { stack := bits (64 * sec) 40 37, chan := x / channelSectors, at_ := x % channelSectors }

/-- The sector that stands in a place. -/
def DramPlace.sector (p : DramPlace) : Nat :=
  p.stack * 2 ^ 31 + swapped stackSectors (Config.sectorSwaps p.stack).reverse (p.chan * channelSectors + p.at_)

/-- The other 14 data sectors of a sector's parity group: those of the other data channels of its group at the same bank, row and column
(R332). -/
def parityGroup (sec : Nat) : List Nat :=
  let p := dramPlace sec
  (((List.range 15).map fun k => p.chan / 15 * 15 + k).filter (· != p.chan)).map fun c => { p with chan := c }.sector

/-- The channel number of a sector: channel k of a group of 15 data channels and one of parity (R332, R340; the numbering is not given,
DESIGN CHOICE, log 18). -/
def dramChannel (sec : Nat) : Nat :=
  let p := dramPlace sec
  swapped 32 Config.channelSwaps (p.chan / 15 * 16 + p.chan % 15)

/-- The row of a sector: its stack, channel, bank and row (R283). -/
def dramRow (sec : Nat) : Nat :=
  ((dramPlace sec).stack * 30 + (dramPlace sec).chan) * 2 ^ 26 + Config.rowOf (dramPlace sec).at_ % 2 ^ 26

/-! ### The error log (R340) -/

/-- The lowest IA at which a table of a context, `lv` levels above the leaves, maps a PA's page, with the IA bits that lead to it. -/
def State.findIa (s : State) (c : Context) (pa : Nat) : Nat → Nat → Nat → Option Nat
  | 0, _, _ => none
  | lv + 1, table, ia =>
    let shift := if lv = 3 then 39 else if lv = 2 then 30 else if lv = 1 then 21 else 16
    (List.range (if lv = 3 then 8192 else if lv = 0 then 32 else 512)).findSome? fun k =>
      let at_ := ia + 2 ^ shift * k
      match s.walkStep c (table + 8 * k) (3 - lv) (if lv = 1 then 8 else 12) with
      | .fails => none
      | .leaf l n => if leafPa l n at_ ≤ pa ∧ pa < leafPa l n at_ + 2 ^ pageBits n then some (at_ + (pa - leafPa l n at_)) else none
      | .table next => s.findIa c pa lv next at_

/-- The IA of a line whose frame one context owns, 0 where it maps it nowhere (R340). -/
def State.iaOf (s : State) (c : Context) (pa : Nat) : Nat :=
  (s.findIa c pa 4 c.root 0).getD 0

/-- The place that WHERE names for a PA: stack, channel and die of an HBM frame, 0 elsewhere (R340). -/
def whereOf (pa : Nat) : Nat :=
  if bits pa 51 50 = 0 then bits pa 40 37 * 2 ^ 12 + dramChannel (sectorOf pa) * 2 ^ 7 + bits pa 40 38 * 2 ^ 4 else 0

/-- Record an error event in the error log. A record has the sector, the context that owns its frame, and the IA of the line where one
does; events of one type, sector and owner are merged (R340). -/
def State.logError (s : State) (type pa ia : Nat) : State :=
  let sec := sectorOf pa * 64
  let owner := s.ctxs.find? fun c => c.frames.contains (pa / 65536)
  let here := fun (r : ErrRec) => r.type == type && r.pa == sec && r.ctx == owner.map (·.part)
  if s.errlog.any here then { s with errlog := updFirst here (fun r => { r with count := r.count + 1 }) s.errlog }
  else
    { s with
      errlog := s.errlog ++ [
        { type := type, ctx := owner.map (·.part), count := 1, pa := sec, wher := whereOf pa
          ia := match owner with
            | some c => (if ia ≠ 0 then ia else s.iaOf c sec) / 128 * 128
            | none => 0 }] }

/-- An event that no PA names, at a place as WHERE names it (R340). -/
def State.logPlace (s : State) (type wher : Nat) : State :=
  let here := fun (r : ErrRec) => r.type == type && r.pa == 0 && r.ctx == none && r.wher == wher
  let new : ErrRec := { type := type, ctx := none, wher := wher, count := 1, pa := 0, ia := 0 }
  if s.errlog.any here then { s with errlog := updFirst here (fun r => { r with count := r.count + 1 }) s.errlog }
  else { s with errlog := s.errlog ++ [new] }

/-- An event of an access that no PA names: the context's, with its IA. -/
def State.logAccess (s : State) (type part ia : Nat) : State :=
  let at_ := ia / 64 * 64
  let here := fun (r : ErrRec) => r.type == type && r.pa == 0 && r.ctx == some part && r.ia == at_
  let new : ErrRec := { type := type, ctx := some part, wher := 0, count := 1, pa := 0, ia := at_ }
  if s.errlog.any here then { s with errlog := updFirst here (fun r => { r with count := r.count + 1 }) s.errlog }
  else { s with errlog := s.errlog ++ [new] }

/-- An event of a pod link, which has no PA. -/
def State.logLink (s : State) (type : Nat) : State := s.logPlace type 0

/-- An event in the storage of a die. -/
def State.logDie (s : State) (type die : Nat) : State := s.logPlace type (die * 2 ^ 4)

/-! ### Free choices -/

/-- An entry of a list that the device chooses freely (DESIGN CHOICE, log 3). -/
def pickFree {α : Type} (n salt : Nat) (l : List α) : Option α := l[(Config.freeWord n salt).toNat % l.length]?

/-! ### Rows of DRAM (R283) -/

/-- A row's count for one context. -/
def rowKey (row part : Nat) : Nat := row * 32 + part

/-- Count the activation of a sector's row (R283). -/
def State.activate (s : State) (part sec : Nat) : State :=
  let row := dramRow sec
  if bits (64 * sec) 51 50 = 0 then
    { s with
      rows := spSet 0 (rowKey row part) (spGet 0 s.rows (rowKey row part) + 1) s.rows
      rowAt := spSet 0 row s.clock s.rowAt }
  else s

/-- Activations of a row in the window, by any context. -/
def State.rowCount (s : State) (row : Nat) : Nat :=
  (List.range 17).foldl (fun n p => n + spGet 0 s.rows (rowKey row p)) 0

/-- The context with the most activations of a row; the lowest on a tie (DESIGN CHOICE, log 3). -/
def State.rowTop (s : State) (row : Nat) : Nat :=
  (List.range 17).foldl (fun b p => if spGet 0 s.rows (rowKey row b) < spGet 0 s.rows (rowKey row p) then p else b) 0

/-- Must a request of a context for a sector wait in its pre-bank queue: its row is hot, and its own requests made the most
activations of it? One of them activates the row every 256 cycles. -/
def State.rowWaits (s : State) (part sec : Nat) : Bool :=
  let row := dramRow sec
  bits (64 * sec) 51 50 == 0 && decide (s.policy.actMax < s.rowCount row) && s.rowTop row == part
    && decide (s.clock < spGet 0 s.rowAt row + 256)

/-! ### Writing back and releasing (R93, R100, R339) -/

/-- A sector of a home line is clean. -/
def HomeLine.clean (h : HomeLine) (sec : Nat) : HomeLine :=
  if sec % 2 = 0 then { h with dirty0 := false } else { h with dirty1 := false }

/-- E12 of one sector of a partition's line: copied to M(x) if dirty; over a lost range it is dropped and logged, and the slice's copy
poisoned (R339). -/
def State.writeBackSector (s : State) (part sec : Nat) : State :=
  match s.homeLine? part (sec / 2) with
  | none => s
  | some h =>
    if !h.isDirty sec then s
    else if s.lostPa (64 * sec) then
      ((s.logError 4 (64 * sec) 0).poisonSector sec).updHome part (sec / 2) fun h => h.clean sec
    else
      ({ s.activate part sec with mem := s.mem.splice (64 * sec) 64 h.data }).updHome part (sec / 2) fun h => h.clean sec

/-- E12: copy the dirty sectors of H(x) to M(x) (R93, R124). -/
def State.writeBack (s : State) (part l : Nat) : State := (s.writeBackSector part (2 * l)).writeBackSector part (2 * l + 1)

/-- Release the home copy of a partition's line, dirty sectors first (R100). -/
def State.releaseHome (s : State) (part l : Nat) : State :=
  let s1 := s.writeBack part l
  { s1 with home := s1.home.filter fun h => !h.is part l }

/-! ### Sets and ways of the slices (R17, R117, R118, R307) -/

/-- The site of a line (R380). -/
def State.site (s : State) (l : Loc) : Site := { part := l.part, slice := s.homeSlice l.pa l.dpin l.die, pin := l.home == 1 }
def State.plainSite (s : State) (part pa : Nat) : Site := { part := part, slice := s.homeSlice pa false 0, pin := false }

/-- Ways of a slice group that a context holds (R307). -/
def State.groupWays (s : State) (part g : Nat) : List Nat :=
  (List.range 16).filter fun w => spGet 0 s.slWays (16 * g + w) == part + 1
def State.waysHeld (s : State) (part g : Nat) : Nat := (s.groupWays part g).length

/-- Ways in which a context's lines stand; one with no way has its accesses served by one line of the set at a time, which the
slice numbers 16 (DESIGN CHOICE, log 78). -/
def State.waysOf (s : State) (g : Site) : List Nat :=
  let ws := s.groupWays g.part (g.slice / 48)
  if ws.isEmpty then [16] else ws

/-- The set of its slice that a line falls in. -/
def setOf (l : Nat) : Nat := Config.sliceSet l % 512

/-- The lines of a set of a slice. -/
def State.setLines (s : State) (slice l : Nat) : List HomeLine :=
  s.home.filter fun h => h.site.slice == slice && setOf h.line == setOf l

/-! ### Shadow tags (R308) -/

/-- Is a set of a slice sampled: one of each 16? -/
def sampled (set : Nat) : Bool := set % 16 == Config.sampledSet (set / 16) % 16

/-- Where the shadow tags of a context in a set of a slice are kept, and the hits that it has had in a slice group at a depth. -/
def shadowKey (slice set part : Nat) : Nat := (slice * 512 + set) * 32 + part
def shadowHits (group part depth : Nat) : Nat := (group * 32 + part) * 32 + depth

/-- An access of a context to a line at its home slice, as the shadow tags of a sampled set see it: a hit is counted at the line's depth,
from 1, and the line comes first of at most 16. -/
def State.touch (s : State) (g : Site) (l : Nat) : State :=
  let key := shadowKey g.slice (setOf l) g.part
  let tags := spGet [] s.shTags key
  let hits := match indexOf? (· == l) tags 0 with
    | some n =>
      let k := shadowHits (g.slice / 48) g.part (n + 1)
      spSet 0 k (spGet 0 s.shHits k + 1) s.shHits
    | none => s.shHits
  { s with
    shTags := if sampled (setOf l) then spSet [] key ((l :: tags.filter (· != l)).take 16) s.shTags else s.shTags
    shHits := if sampled (setOf l) then hits else s.shHits }

/-- May a further line of a HOME=01 page be pinned in its set (R117, R307)? -/
def State.pinRoom (s : State) (g : Site) (l : Nat) : Bool :=
  let ps := (s.setLines g.slice l).filter fun h => h.site.pin && h.line != l
  g.pin && decide (ps.length < 8)
    && decide ((ps.filter fun h => h.site.part == g.part).length < min 8 (s.waysHeld g.part (g.slice / 48) - 1))

/-- The order of replacement: evict-first, plain, evict-last, which governs (R118). -/
def HomeLine.rank (h : HomeLine) : Nat := if h.evictLast then 2 else if h.evictFirst then 0 else 1

/-- A way of the context's that no line of the set stands in. -/
def State.freeWay? (s : State) (g : Site) (l : Nat) : Option Nat :=
  (s.waysOf g).find? fun w => !(s.setLines g.slice l).any fun h => h.way == w && h.site.part == g.part

/-- The line that makes room for a further one, none where a way is free: one of the context's that HOME=01 does not pin, of the lowest rank;
among equals the policy is not given (R117, R118, DESIGN CHOICE, log 3). -/
def State.victim? (s : State) (g : Site) (l : Nat) : Option HomeLine :=
  let cands := (s.setLines g.slice l).filter fun h => h.site.part == g.part && (s.waysOf g).contains h.way && !h.site.pin
  let low := ((minBy HomeLine.rank cands).map HomeLine.rank).getD 0
  pickFree s.fresh l (cands.filter fun h => h.rank == low)

/-- The line that a fill of a line replaces. -/
def State.replaced (s : State) (g : Site) (l : Nat) : Option Nat :=
  if (s.homeLine? g.part l).isSome || (s.freeWay? g l).isSome then none else (s.victim? g l).map (·.line)

/-- The state once the replaced line has been written back and has left. -/
def State.makeRoom (s : State) (g : Site) (l : Nat) : State :=
  match s.replaced g l with
  | some v => s.releaseHome g.part v
  | none => s

/-- Give a line a place in its slice, with no sector valid. -/
def State.holdLine (s : State) (g : Site) (l : Nat) : State :=
  match s.homeLine? g.part l with
  | some _ => s
  | none =>
    let s1 := s.makeRoom g l
    { s1 with
      home := { line := l, site := { g with pin := s1.pinRoom g l }, way := (s1.freeWay? g l).getD 16, data := [], valid0 := false,
                valid1 := false, dirty0 := false, dirty1 := false, evictFirst := false, evictLast := false } :: s1.home }

/-- A sector's bytes installed. -/
def HomeLine.fill (h : HomeLine) (m : Mem) (sec : Nat) : HomeLine :=
  if sec % 2 = 0 then { h with data := h.data.splice (64 * sec) 64 m, valid0 := true }
  else { h with data := h.data.splice (64 * sec) 64 m, valid1 := true }

/-- Fill a sector of H(x) from M(x) if the slice does not hold it: the sector is the unit of fill (R18). A line of a HOME=01 page is
pinned where its set has room (R117). -/
def State.fillSector (s : State) (g : Site) (sec : Nat) : State :=
  match s.homeSector? g.part sec with
  | some h =>
    if h.site.pin || !s.pinRoom g h.line then s
    else s.updHome g.part (sec / 2) fun h => { h with site := { h.site with pin := true } }
  | none =>
    let s1 := s.holdLine g (sec / 2)
    (s1.activate g.part sec).updHome g.part (sec / 2) fun h => h.fill s1.mem sec

/-- Fill both sectors of a line. -/
def State.fillHome (s : State) (g : Site) (l : Nat) : State := (s.fillSector g (2 * l)).fillSector g (2 * l + 1)

/-- The compressed image of a page that is written is stale, and its frames are free (R338). -/
def State.staleImages (s : State) (pa : Nat) : State :=
  let hit := fun (i : CleanImage) => decide (i.new ≤ pa) && decide (pa < i.new + i.size)
  if !s.clean.any hit then s
  else
    { s with
      clean := s.clean.filter fun i => !hit i
      ctxs := s.ctxs.map fun c => { c with
        freeFrames := c.freeFrames ++ (s.clean.filter fun i => hit i && i.part == c.part).flatMap fun i =>
          ((List.range (i.size / 65536)).map fun k => i.old / 65536 + k).filter c.frames.contains } }

/-- A byte stored in a home line. -/
def HomeLine.store (h : HomeLine) (pa : Nat) (b : Byte) : HomeLine := { h.dirty pa with data := h.data.set pa b }

/-- Write one committed byte at H(x). -/
def State.commitByte (s : State) (g : Site) (pa : Nat) (b : Byte) : State :=
  ((s.fillSector g (sectorOf pa)).updHome g.part (lineOf pa) fun h => h.store pa b).staleImages pa

/-- Write committed bytes from `pa` on. -/
def State.commitBytes (s : State) (g : Site) (pa : Nat) : List Byte → State
  | [] => s
  | b :: bs => (s.commitByte g pa b).commitBytes g (pa + 1) bs

/-! ### Old values that a fetch may still give (R61) -/

/-- Where a word of the window or of a POD page is named among the PAs of words that have had other values. -/
def windowWord (off : Nat) : Nat := 2 ^ 60 + off
def podWord (ia : Nat) : Nat := 2 ^ 61 + ia

/-- A value a word had, kept for the fetches that have not invalidated it. -/
def State.keepWord (s : State) (part pa w : Nat) : State :=
  { s with
    icache := { part := part, pa := pa, word := w, gone := [] }
      :: s.icache.filter fun f => !(f.part == part && f.pa == pa && f.word == w) }

/-- The words of [pa, pa + n), as `old` gives them, before a store there. -/
def State.noteOld (s : State) (part base pa n : Nat) (old : Nat → Nat) : State :=
  ((List.range (n / 4 + 2)).map fun k => (pa / 4 + k) * 4).foldl
    (fun s a => if a < pa + n then s.keepWord part (base + a) (old a) else s) s

/-! ### Versions (R91, R104, R307) -/

/-- The way a new version takes: one of the context's that no version of the set holds, that of the committed line if it is one. Whether
a version displaces a committed line is not given (DESIGN CHOICE, log 78). -/
def State.versionWay (s : State) (g : Site) (l : Nat) : Nat :=
  let used := fun w => s.vers.any fun v => v.site.slice == g.slice && setOf v.line == setOf l && v.way == w
  let home := ((s.homeLine? g.part l).map (·.way)).toList.filter fun w => (s.waysOf g).contains w
  ((home ++ s.waysOf g).find? fun w => !used w).getD 16

/-- Store bytes into a crew's version of their line. -/
def State.versionBytes (s : State) (core slot : Nat) (g : Site) (pa : Nat) (bs : List Byte) : State :=
  match s.version? core slot (lineOf pa) with
  | some _ =>
    { s with
      vers := updFirst (fun v => v.ofCrew core slot && v.line == lineOf pa) (fun v => { v with bytes := ovWrite pa bs v.bytes }) s.vers }
  | none =>
    { s with
      vers := s.vers ++ [{ core := core, slot := slot, site := g, way := s.versionWay g (lineOf pa), line := lineOf pa,
                           bytes := ovWrite pa bs [], bad := [], clean := [] }] }

/-- One store has covered a sector of a crew's version whole: there the sector is clean, and it will be at the commit (R335). -/
def State.versionClean (s : State) (core slot sec : Nat) : State :=
  { s with
    vers := updFirst (fun v => v.ofCrew core slot && v.line == sec / 2)
      (fun v => { v with bad := v.bad.filter (· != sec), clean := insertAsc sec v.clean }) s.vers }

/-- Bytes of a line whose committed value a core's own store or commit has just set, written into the core's copy. This is the write that
R93 gives E2: until then another crew on the core may not see a store of an open interval (R104), and the core's own view finds the
bytes in Q(c) or in the version. (DEDUCED, unsafe, log 71) -/
def State.patchCopy (s : State) (core part pa : Nat) (bs : List Byte) : State :=
  s.updL1 core part (lineOf pa) fun c => c.store pa bs

/-- Make one version the committed value of its line. -/
def State.commitVersion (s : State) (v : Version) : State :=
  let s0 := s.noteOld v.site.part 0 (128 * v.line) 128 fun a => s.committedVal v.site.part a 4
  let s1 := v.bytes.foldl (fun s c => (s.commitByte v.site c.1 c.2).patchCopy v.core v.site.part c.1 [c.2]) s0
  let s2 := v.bad.foldl State.poisonSector (v.clean.foldl State.cleanSector s1)
  let s3 := s2.updL1 v.core v.site.part v.line fun c => { c with bad := v.bad ++ c.bad.filter fun sec => !v.clean.contains sec }
  { s3 with vers := s3.vers.filter fun w => !(w.ofCrew v.core v.slot && w.line == v.line) }

/-- E10: every version of a crew becomes committed (R93). -/
def State.commitCrew (s : State) (core slot : Nat) : State :=
  (s.vers.filter fun v => v.ofCrew core slot).foldl State.commitVersion s

/-! ### L1 ways (R16, R117, R125, R292) -/

/-- Cache ways of a bank group, from its way mask (R125). -/
def State.wayMask (s : State) (core group : Nat) : Nat := spGet 0xFF00 s.ways (core * 4 + group)
def State.cacheWays (s : State) (core group : Nat) : List Nat :=
  (List.range 16).filter fun w => !bitAt (s.wayMask core group) w
def State.scratchWays (s : State) (core group : Nat) : Nat := 16 - (s.cacheWays core group).length

/-- The set of a bank group that a line falls in. -/
def l1SetOf (l : Nat) : Nat := Config.l1Set l % 128

/-- The copies of a set of a bank group. -/
def State.l1Set (s : State) (core group l : Nat) : List L1Copy :=
  s.l1.filter fun c => c.core == core && c.group == group && l1SetOf c.line == l1SetOf l

/-- Is a fill of a line pinned: a HOME=10 line, while at most min(8, c − 1) ways of the set hold such lines (R117)? -/
def State.pins (s : State) (core group : Nat) (l : Loc) : Bool :=
  l.home == 2 && decide (((s.l1Set core group (lineOf l.pa)).filter fun c => c.pinned && c.line != lineOf l.pa).length
    < min 8 ((s.cacheWays core group).length - 1))

/-- The bank group and way that a fill takes: those of the copy it replaces, a free way, or that of a copy which is not pinned; which,
the spec leaves open (DESIGN CHOICE, log 3). -/
def State.l1Place (s : State) (r : Reader) (l : Nat) : Option (Nat × Nat) :=
  match s.copy? r.core r.part l with
  | some c => some (c.group, c.way)
  | none =>
    let set := s.l1Set r.core r.group l
    match (s.cacheWays r.core r.group).find? fun w => !set.any fun c => c.way == w with
    | some w => some (r.group, w)
    | none => (pickFree s.fresh l (set.filter fun c => !c.pinned)).map fun c => (r.group, c.way)

/-- A herd peer's copy of a line of a page that may not be written, where the device fills from it (R93). -/
def State.peerCopy (s : State) (r : Reader) (l : Loc) : Option L1Copy :=
  if l.ro && Config.freeBool s.fresh (2 ^ 59 + lineOf l.pa) then
    s.l1.find? fun c => c.core != r.core && c.core / 8 == r.core / 8 && c.part == r.part && c.line == lineOf l.pa
  else none

/-- What E5 sets a copy to, with its poisoned sectors: the committed value, which the view of a crew overlays with its version, or a herd
peer's copy; with the state once the home slice holds the line (R93). -/
def State.fillData (s : State) (r : Reader) (l : Loc) : State × Mem × List Nat :=
  let ln := lineOf l.pa
  match s.peerCopy r l with
  | some c => (s, c.data, c.bad)
  | none =>
    let s1 := (s.touch (s.site l) ln).fillHome (s.site l) ln
    (s1, s1.committedLine l.part ln, s1.poison.filter fun sec => sec / 2 == ln)

/-- A core's copy of a line set to given contents, in the place it takes. -/
def State.setCopy (s : State) (r : Reader) (l : Loc) (d : Mem) (bad : List Nat) : State :=
  let ln := lineOf l.pa
  match s.l1Place r ln with
  | none => s
  | some (g, w) =>
    { s with
      l1 := { core := r.core, group := g, way := w, part := r.part, line := ln, data := d, bad := bad, pinned := s.pins r.core g l }
        :: s.l1.filter fun c => !(c.core == r.core && ((c.part == r.part && c.line == ln)
          || (c.group == g && c.way == w && l1SetOf c.line == l1SetOf ln))) }

/-- E5 (R93). -/
def State.fillL1 (s : State) (r : Reader) (l : Loc) : State :=
  let f := s.fillData r l
  f.1.setCopy r l f.2.1 f.2.2

/-- A copy that stands refreshed in its place (E5). -/
def State.refill (s : State) (c : L1Copy) : State :=
  s.updL1 c.core c.part c.line fun x =>
    { x with data := s.committedLine c.part c.line, bad := s.poison.filter fun sec => sec / 2 == c.line }

/-- The copies of some lines on a core refreshed. -/
def State.refillLines (s : State) (core part : Nat) (ls : List Nat) : State :=
  (s.l1.filter fun c => c.core == core && c.part == part && ls.contains c.line).foldl State.refill s

/-! ### What a read finds (R91, R93, R104, R111, R134) -/

/-- Is an entry a store of its crew's open interval, which a rollback of the crew removes, or of its unpublished pool version? Such a
store no other crew may see (R104, R134). -/
def State.isOpen (s : State) (e : Entry) : Bool :=
  e.own || match s.crew? e.core e.slot with
    | some k => k.ckptn == e.interval && k.part == e.part
    | none => false

/-- Is an entry of Q(c) one of the reader's own crew's that its later reads see first: a store that is still its crew's alone, or an atomic,
which they wait for (R91, R104)? Its release stores and its stores of closed intervals stand beneath, as E4 places them (R93). -/
def State.seesFirst (s : State) (r : Reader) (e : Entry) : Bool :=
  e.core == r.core && e.part == r.part && e.slot == r.slot && !e.direct && match e.kind with
    | .store _ release _ => !release && s.isOpen e
    | .atomic _ _ _ => true
    | .rel _ => false

/-- Is an entry of Q(c) in the view of the reader's crew: every entry of the core and partition but another crew's open stores, which it
may not see yet (R91, R104)? (DEDUCED, unsafe, log 71) -/
def State.sees (s : State) (r : Reader) (e : Entry) : Bool :=
  e.core == r.core && e.part == r.part && !e.direct && (e.slot == r.slot || e.isAtomic || !s.isOpen e)

/-- Is it an entry of the reader's fibre, of a cached mapping or of a never-cached one as asked (R124)? -/
def Reader.wrote (r : Reader) (direct : Bool) (e : Entry) : Bool := e.ofFibre r.core r.fib && e.direct == direct

/-- The unpublished pool bytes of the reader's crew. -/
def ownPool (w : Option PoolWriter) (pa : Nat) : Found :=
  match w.bind fun w => ovGet pa w.bytes with
  | some b => .byte b
  | none => .nothing

/-- A byte that may be there. -/
def Found.ofOption : Option Byte → Found
  | some b => .byte b
  | none => .nothing

/-- E3 for one byte, without the fill: SB(f), what its crew alone has written and not committed (entries, pool version, version), then the
view of the core. `nothing` asks for E5. Of lanes of one LD that read one byte, a lane whose own store waits reads that store (R111), the
others the one value of R110. (DEDUCED, unsafe, log 87) -/
def State.viewByte (s : State) (r : Reader) (w : Option PoolWriter) (pa : Nat) : Found :=
  (findByte (r.wrote false) pa s.sb).orElse
    ((findByte (s.seesFirst r) pa s.rq).orElse
      ((ownPool w pa).orElse
        ((Found.ofOption (s.versionByte? r.core r.slot pa)).orElse
          ((findByte (s.sees r) pa s.rq).orElse
            (Found.ofOption ((s.copy? r.core r.part (lineOf pa)).map fun c => c.data.get pa))))))

/-- The sources of E8 and of R111 for one byte: SB(f), the entries f itself passed to Q(c), the crew's unpublished pool writes.
`nothing` names H(x) overlaid with the crew's version, or M(x) for a never-cached line (`direct`), whose writes that no link has accepted
yet are f's own too. -/
def State.homeViewByte (s : State) (r : Reader) (direct : Bool) (w : Option PoolWriter) (pa : Nat) : Found :=
  (findByte (r.wrote direct) pa s.sb).orElse
    ((findByte (r.wrote direct) pa s.rq).orElse
      ((ownPool w pa).orElse (if direct then findByte (r.wrote true) pa s.linkWait else .nothing)))

/-- Must a request of a context for a line that its slice does not hold wait for its row (R283)? -/
def State.lineWaits (s : State) (part l : Nat) : Bool :=
  [2 * l, 2 * l + 1].any fun sec => (s.homeSector? part sec).isNone && s.rowWaits part sec

/-- A read that E3 serves: the bytes, whether a sector they stand in is poisoned, and the state, C(c)'s copy of the line filled if a byte
needs E5 (R93, R335); none where E5 is disabled because an engine owns the line, where a collective has still to write the line (R253), or
where the byte waits for an atomic. -/
def State.readyE3 (s : State) (r : Reader) (w : Option PoolWriter) (l : Loc) (n : Nat) (noAlloc : Bool) :
    Option (State × List Byte × Bool) :=
  let ln := lineOf l.pa
  let vs := (List.range n).map fun i => s.viewByte r w (l.pa + i)
  let bad := fun (secs : List Nat) => meetsSector (s.badFor r.core r.slot ln secs) l.pa n
  if vs.any (· == .blocked) || s.oxOwned r.part ln then none
  else if vs.any (· == .nothing) then
    if s.owned r.part ln || s.lineWaits r.part ln then none
    else
      let f := s.fillData r l
      some (if noAlloc then f.1 else f.1.setCopy r l f.2.1 f.2.2,
        vs.zipIdx.map (fun p => match p.1 with
          | .byte b => b
          | _ => f.2.1.get (l.pa + p.2)), bad f.2.2)
  else
    some (s, vs.map fun v => match v with | .byte b => b | _ => 0, bad (match s.copy? r.core r.part ln with
      | some c => c.bad
      | none => s.poison))

/-- The bytes E8 or R111 reads, whether a sector is poisoned, and whether any byte came from H(x); none where the byte waits for an atomic
or for a collective's final value (R253). -/
def State.readyE8 (s : State) (r : Reader) (w : Option PoolWriter) (pa n : Nat) : Option (List Byte × Bool × Bool) :=
  let ln := lineOf pa
  let vs := (List.range n).map fun i => s.homeViewByte r false w (pa + i)
  if vs.any (· == .blocked) || s.oxOwned r.part ln then none
  else if vs.any (· == .nothing) && s.lineWaits r.part ln then none
  else some (vs.zipIdx.map fun p => match p.1 with
      | .byte b => b
      | _ => s.seenByte r.part r.core r.slot (pa + p.2),
    meetsSector (s.badFor r.core r.slot ln s.poison) pa n, vs.any (· == .nothing))

/-- The bytes of a HOME=11 line: the fibre's own waiting stores through such a mapping, else M(x), as R100, R111 and R124 give; none where
the byte waits for an atomic or for a collective's final value. -/
def State.readM (s : State) (r : Reader) (w : Option PoolWriter) (pa n : Nat) : Option (List Byte) :=
  let vs := (List.range n).map fun i => s.homeViewByte r true w (pa + i)
  if vs.any (· == .blocked) || s.oxOwned r.part (lineOf pa) || (vs.any (· == .nothing) && s.rowWaits r.part (sectorOf pa)) then none
  else some (vs.zipIdx.map fun p => match p.1 with
      | .byte b => b
      | _ => s.mem.get (pa + p.2))

/-! ### E2 (R93) -/

/-- Move an entry from SB(f) to the tail of Q(c). What E2 writes into the core's copy of the line stands in log 71. -/
def State.toQueue (s : State) (e : Entry) : State := { s with rq := s.rq ++ [e] }

/-- Do two entries of one instruction share a byte? They pass in ascending lane order (R110, R139). -/
def Entry.overlaps (e d : Entry) : Bool :=
  e.tag == d.tag && e.core == d.core && decide (e.loc.pa < d.loc.pa + d.size) && decide (d.loc.pa < e.loc.pa + e.size)

/-- Which fibres' entries a list passes, and the entries that pass and that stay (oldest first). -/
structure PassSet where
  fibs : List Nat
  moved : List Entry
  kept : List Entry
  deriving DecidableEq, Repr

/-- The entries that must pass for SB(f) to become empty: those of the fibre, and before them the entries of one
instruction that overlap them in a lower lane, with what stands ahead of these in their own buffers. -/
def passSet (core fib : Nat) : List Entry → PassSet
  | [] => { fibs := [fib], moved := [], kept := [] }
  | e :: r =>
    let p := passSet core fib r
    if e.core == core && (p.fibs.contains e.fib || p.moved.any fun d => e.overlaps d) then
      { fibs := e.fib :: p.fibs, moved := e :: p.moved, kept := p.kept }
    else { p with kept := e :: p.kept }

/-- E2 until SB(f) is empty. -/
def State.passAll (s : State) (core fib : Nat) : State :=
  let p := passSet core fib s.sb
  p.moved.foldl State.toQueue { s with sb := p.kept }

end Sys2Proof.Machine
end

