-- ==== Sys2Proof/Machine/Units.lean ====
section
/-! DEFINITION. Lookups and updates of crews, flocks, batches and fibres, and the checks of one step of an entry with the
choice of R9 among them. -/

namespace Sys2Proof.Machine

/-! ### Lookups and updates -/

def Crew.flock? (k : Crew) (n : Nat) : Option Flock := k.live.flocks.find? fun f => f.num == n

def Crew.updLive (k : Crew) (f : CrewCore → CrewCore) : Crew := { k with live := f k.live }

def CrewCore.updFlock (c : CrewCore) (n : Nat) (f : Flock → Flock) : CrewCore :=
  { c with flocks := updFirst (fun x => x.num == n) f c.flocks }

def State.updFlock (s : State) (core slot n : Nat) (f : Flock → Flock) : State :=
  s.updCrew core slot fun k => k.updLive fun c => c.updFlock n f

/-- The batch of a flock that holds a lane slot. -/
def Flock.batchAt? (f : Flock) (lane : Nat) : Option Batch := f.batches.find? fun b => b.lanes.contains lane

def Flock.updBatch (f : Flock) (lane : Nat) (g : Batch → Batch) : Flock :=
  { f with batches := updFirst (fun b => b.lanes.contains lane) g f.batches }

def Flock.fibre? (f : Flock) (lane : Nat) : Option Fibre := f.fibres.find? fun x => x.lane == lane

def Flock.updFibre (f : Flock) (lane : Nat) (g : Fibre → Fibre) : Flock :=
  { f with fibres := updFirst (fun x => x.lane == lane) g f.fibres }

/-! ### Registers -/

/-- A lane register (R27, R43). -/
def Fibre.reg (f : Fibre) (n : Nat) : LReg := spGet LReg.zero f.regs n
def Fibre.setReg (f : Fibre) (n : Nat) (r : LReg) : Fibre := { f with regs := spSet LReg.zero n r f.regs }

/-- mark_full, mark_empty and mark_poison of R8. -/
def Fibre.markFull (f : Fibre) (n : Nat) (x : Word) : Fibre := f.setReg n { val := x, full := true, poison := false }
def Fibre.markEmpty (f : Fibre) (n : Nat) : Fibre := f.setReg n { f.reg n with full := false }
def Fibre.markPoison (f : Fibre) (n : Nat) : Fibre := f.setReg n { f.reg n with full := true, poison := true }

/-- A pair's halves: low half in the even register (R4). -/
def lo32 (x : Word64) : Word := x.setWidth 32
def hi32 (x : Word64) : Word := (x >>> 32).setWidth 32
def join64 (lo hi : Word) : Word64 := lo.setWidth 64 ||| (hi.setWidth 64 <<< 32)

def Fibre.markFull64 (f : Fibre) (n : Nat) (x : Word64) : Fibre := (f.markFull n (lo32 x)).markFull (n + 1) (hi32 x)

/-- Write a register, or a pair when `wide`. -/
def Fibre.put (f : Fibre) (n : Nat) (wide : Bool) (x : Word64) : Fibre :=
  if wide then f.markFull64 n x else f.markFull n (lo32 x)
def Fibre.empty (f : Fibre) (n : Nat) (wide : Bool) : Fibre :=
  if wide then (f.markEmpty n).markEmpty (n + 1) else f.markEmpty n
def Fibre.bad (f : Fibre) (n : Nat) (wide : Bool) : Fibre :=
  if wide then (f.markPoison n).markPoison (n + 1) else f.markPoison n

/-- A predicate; p0 reads true and is never written (R27, R55). -/
def Fibre.pred (f : Fibre) (n : Nat) : Bool := n == 0 || f.preds.getLsbD n
def setBit {w : Nat} (v : BitVec w) (n : Nat) (b : Bool) : BitVec w :=
  if b then v ||| BitVec.ofNat w (2 ^ n) else v &&& ~~~ BitVec.ofNat w (2 ^ n)
def Fibre.setPred (f : Fibre) (n : Nat) (b : Bool) : Fibre :=
  if n = 0 then f else { f with preds := setBit f.preds n b, pBad := f.pBad.filter (· != n) }

/-- A reference register (R154). -/
def Fibre.h (f : Fibre) (n : Nat) : Word64 := spGet 0 f.href n
def Fibre.setH (f : Fibre) (n : Nat) (x : Word64) : Fibre := { f with href := spSet 0 n x f.href, hBad := f.hBad.filter (· != n) }

/-- A uniform register and a uniform predicate; q0 reads true and is never written (R31, R55). -/
def Flock.kreg (f : Flock) (n : Nat) : Word := spGet 0 f.k n
def Flock.setK (f : Flock) (n : Nat) (x : Word) : Flock := { f with k := spSet 0 n x f.k, kBad := f.kBad.filter (· != n) }
def Flock.kpair (f : Flock) (n : Nat) : Word64 := join64 (f.kreg n) (f.kreg (n + 1))
def Flock.setK64 (f : Flock) (n : Nat) (x : Word64) : Flock := (f.setK n (lo32 x)).setK (n + 1) (hi32 x)
def Flock.putK (f : Flock) (n : Nat) (wide : Bool) (x : Word64) : Flock :=
  if wide then f.setK64 n x else f.setK n (lo32 x)
def Flock.qpred (f : Flock) (n : Nat) : Bool := n == 0 || f.q.getLsbD n
def Flock.setQ (f : Flock) (n : Nat) (b : Bool) : Flock :=
  if n = 0 then f else { f with q := setBit f.q n b, qBad := f.qBad.filter (· != n) }

/-- mark_poison of a predicate, a reference register, a uniform register and a uniform predicate, which an error in the register file has
hit (R44, R333); the next write clears it. -/
def Fibre.spoilPred (f : Fibre) (n : Nat) : Fibre := if n = 0 then f else { f with pBad := insertAsc n f.pBad }
def Fibre.spoilH (f : Fibre) (n : Nat) : Fibre := { f with hBad := insertAsc n f.hBad }
def Flock.spoilK (f : Flock) (n : Nat) : Flock := { f with kBad := insertAsc n f.kBad }
def Flock.spoilQ (f : Flock) (n : Nat) : Flock := if n = 0 then f else { f with qBad := insertAsc n f.qBad }

/-! ### The batch at issue -/

/-- The batch that issues: its reference, crew, flock and batch. -/
structure Iss where
  ref : BatchRef
  crew : Crew
  flock : Flock
  batch : Batch
  deriving DecidableEq, Repr

def State.find (s : State) (r : BatchRef) : Option Iss :=
  match s.crew? r.core r.slot with
  | none => none
  | some k => match k.flock? r.flock with
    | none => none
    | some f => match f.batchAt? r.lane with
      | none => none
      | some b => some { ref := r, crew := k, flock := f, batch := b }

/-- The batch that stands at issue. -/
def State.iss? (s : State) : Option Iss := s.cur.bind s.find

/-- The active fibres of the batch, in ascending lane order (active of R8). -/
def Iss.active (i : Iss) : List Fibre := i.flock.fibres.filter fun f => i.batch.lanes.contains f.lane

/-- The lane mask of fibres. -/
def maskOf (fs : List Fibre) : BitVec 32 := laneMask (fs.map (·.lane))

/-- guard_true of R8 in the lane set, and the participants: active fibres whose guard is true. -/
def guardLane (x : Form) (f : Fibre) : Bool := f.pred x.guardNum != x.guardNeg
def Iss.takers (i : Iss) (x : Form) : List Fibre := i.active.filter (guardLane x)

/-- guard_true of R8 in the uniform set. -/
def guardUni (x : Form) (f : Flock) : Bool := f.qpred x.guardNum != x.guardNeg

/-- The fibre in the lowest lane slot of the batch (R80, R112). -/
def Iss.lead (i : Iss) : Option Fibre := i.active.head?

/-- Global quadrant of the batch (R23). -/
def Iss.gq (i : Iss) : Nat := i.ref.core * 4 + i.flock.quad

/-- Change the batch's flock. -/
def State.onFlock (s : State) (i : Iss) (f : Flock → Flock) : State := s.updFlock i.ref.core i.ref.slot i.ref.flock f

/-- Change the batch. -/
def State.onBatch (s : State) (i : Iss) (f : Batch → Batch) : State := s.onFlock i fun fl => fl.updBatch i.ref.lane f

/-- Change one fibre of the batch's flock. -/
def State.onFibre (s : State) (i : Iss) (lane : Nat) (f : Fibre → Fibre) : State :=
  s.onFlock i fun fl => fl.updFibre lane f

/-- Change the batch's crew. -/
def State.onCrew (s : State) (i : Iss) (f : Crew → Crew) : State := s.updCrew i.ref.core i.ref.slot f

/-- Change each of several fibres by a value of its own. -/
def State.onFibres {α : Type} (s : State) (i : Iss) (l : List (Nat × α)) (f : α → Fibre → Fibre) : State :=
  s.onFlock i fun fl => l.foldl (fun fl p => fl.updFibre p.1 (f p.2)) fl

/-- The next sequential PC (R59). -/
def pcPlus (pc n : Nat) : Nat := (pc + 4 * n) % 2 ^ 57

/-- Move the batch to the next instruction, its several steps done. -/
def State.advance (s : State) (i : Iss) (words : Nat) : State :=
  s.onBatch i fun b => { b with pc := pcPlus b.pc words, phase := 0, tag := 0, held := none }

/-- Reader for memory accesses of a fibre of the batch. -/
def Iss.reader (i : Iss) (f : Fibre) : Reader :=
  { core := i.ref.core, group := i.flock.quad, part := i.crew.part, slot := i.ref.slot, fib := f.num }

/-! ### Checks of one step (R8, R9) -/

/-- Numeric code of a cause (R319). -/
def Cause.code : Cause → Nat
  | .illegalInstruction => 0x01 | .illegalConvergence => 0x02 | .formatDivergence => 0x03 | .emptyRead => 0x04
  | .poisonRead => 0x05 | .scratchBounds => 0x06 | .alignment => 0x07 | .roleViolation => 0x08
  | .budgetExceeded => 0x09 | .trapInstruction => 0x0A | .breakpoint => 0x0B | .permRead => 0x10 | .permWrite => 0x11
  | .permExec => 0x12 | .permAtomic => 0x13 | .permPriv => 0x14 | .permKey => 0x15 | .unmapped => 0x16
  | .rangeMiss => 0x17 | .remoteUnavailable => 0x18 | .heapTag => 0x19 | .pinState => 0x1A | .queueDesc => 0x1B
  | .collParam => 0x1C

/-- A condition a fibre meets: it would wait, or it traps with an address. -/
inductive Cond where
  | wait
  | trap (c : Cause) (addr : Nat)
  deriving DecidableEq, Repr

/-- A check of one fibre: the conditions met, and the value if none that it needs is met. -/
structure Chk (α : Type) where
  conds : List Cond
  val : Option α
  deriving DecidableEq, Repr

def Chk.ok {α : Type} (a : α) : Chk α := { conds := [], val := some a }
def Chk.wait {α : Type} : Chk α := { conds := [.wait], val := none }
def Chk.trap {α : Type} (c : Cause) (addr : Nat) : Chk α := { conds := [.trap c addr], val := none }

/-- A check that needs the value of another. -/
def Chk.bind {α β : Type} (x : Chk α) (f : α → Chk β) : Chk β :=
  match x.val with
  | some a => { conds := x.conds ++ (f a).conds, val := (f a).val }
  | none => { conds := x.conds, val := none }

/-- Two checks that compete (R9). -/
def Chk.and {α β : Type} (x : Chk α) (y : Chk β) : Chk (α × β) :=
  { conds := x.conds ++ y.conds,
    val := match x.val, y.val with | some a, some b => some (a, b) | _, _ => none }

def Chk.map {α β : Type} (f : α → β) (x : Chk α) : Chk β := { conds := x.conds, val := x.val.map f }

/-- The value, unless a condition holds. -/
def Chk.guard (b : Bool) (c : Cause) (addr : Nat) : Chk Unit := if b then .ok () else .trap c addr

/-- A translation as a check (R298). -/
def Chk.ofExcept {α : Type} (addr : Nat) : Except Cause α → Chk α
  | .ok a => .ok a
  | .error c => .trap c addr

/-- read_src of R8 with the budget check of R28. -/
def readSrc (f : Fibre) (n : Nat) (trapMode : Bool) : Chk Word :=
  if f.budget ≤ n then .trap .budgetExceeded 0
  else if (f.reg n).poison then .trap .poisonRead 0
  else if (f.reg n).full then .ok (f.reg n).val
  else if trapMode then .trap .emptyRead 0
  else .wait

/-- read_src of a pair; the mode covers both registers (R56). -/
def readPair (f : Fibre) (n : Nat) (trapMode : Bool) : Chk Word64 :=
  ((readSrc f n trapMode).and (readSrc f (n + 1) trapMode)).map fun p => join64 p.1 p.2

/-- A register or a pair, zero-extended. -/
def readWide (f : Fibre) (n : Nat) (wide trapMode : Bool) : Chk Word64 :=
  if wide then readPair f n trapMode else (readSrc f n trapMode).map (·.setWidth 64)

/-- A destination: inside the window (R28), and its earlier producer complete (R44). -/
def destOk (f : Fibre) (n : Nat) : Chk Unit :=
  if f.budget ≤ n then .trap .budgetExceeded 0 else if (f.reg n).full then .ok () else .wait

def destWide (f : Fibre) (n : Nat) (wide : Bool) : Chk Unit :=
  if wide then ((destOk f n).and (destOk f (n + 1))).map fun _ => () else destOk f n

/-- Why an instruction does not complete in this step: it waits, it waits for checkpoints (its own crew's and other
crews'), or it traps. -/
inductive Stop where
  | wait
  | ckpt (others : List (Nat × Nat))
  | trap (t : Trap)
  deriving DecidableEq, Repr

abbrev Res (α : Type) := Except Stop α

/-- The traps among the conditions of the lanes, as (lane, cause, address). -/
def trapsOf {α : Type} (l : List (Nat × Chk α)) : List (Nat × Cause × Nat) :=
  l.flatMap fun p => p.2.conds.filterMap fun c => match c with
    | .trap k a => some (p.1, k, a)
    | .wait => none

/-- The lowest cause code among traps. -/
def lowestCause (ts : List (Nat × Cause × Nat)) : Option Cause := (minBy (fun t => t.2.1.code) ts).map (·.2.1)

/-- A trap at the batch's PC. -/
def Iss.trap (i : Iss) (c : Cause) (mask : BitVec 32) (addr : Nat) : Trap :=
  { cause := c, lanes := mask, addr := addr, pc := i.batch.pc, code := 0, flock := i.flock.num, eng := false }

/-- The verdict of a step over its lanes, in ascending lane order (R9): the lowest cause with the mask of the fibres that
meet it and the address of the lowest of them; else a wait; else every lane's value. -/
def gather {α : Type} (i : Iss) (l : List (Nat × Chk α)) : Res (List (Nat × α)) :=
  match lowestCause (trapsOf l) with
  | some c =>
    let hit := (trapsOf l).filter fun t => t.2.1 == c
    .error (.trap (i.trap c (laneMask (hit.map (·.1))) ((hit.head?.map (·.2.2)).getD 0)))
  | none =>
    if l.any fun p => p.2.val.isNone then .error .wait
    else .ok (l.filterMap fun p => p.2.val.map fun v => (p.1, v))

/-- A step's checks for every fibre of a list. -/
def checkAll {α : Type} (i : Iss) (fs : List Fibre) (f : Fibre → Chk α) : Res (List (Nat × α)) :=
  gather i (fs.map fun x => (x.lane, f x))

/-- One check with the mask of every active fibre (R34). -/
def checkOne {α : Type} (i : Iss) (c : Chk α) : Res α :=
  match lowestCause (trapsOf [(0, c)]) with
  | some k =>
    .error (.trap (i.trap k (maskOf i.active)
      ((((trapsOf [(0, c)]).find? fun t => t.2.1 == k).map (·.2.2)).getD 0)))
  | none => match c.val with
    | some v => .ok v
    | none => .error .wait

/-! ### Numbers of places (R23) -/

def dieOf (core : Nat) : Nat := core / 64
def herdOf (core : Nat) : Nat := core / 8

/-- Is a crew of the same team? (R37) -/
def Crew.teamNo (k : Crew) : Nat := if k.teamSize = 0 then k.idx else k.idx / k.teamSize

end Sys2Proof.Machine
end

