-- ==== Sys2Proof/Machine/Queue.lean ====
section
/-! DEFINITION. Slice-resident queues (R150-R153): the step a QENQ, a QDEQ or a QWAIT takes at the descriptor's home. -/

namespace Sys2Proof.Machine

/-- Bytes at a place an atomic acts on: H(x) as committed values, or M(x) for a HOME=11 page (R136, R124). -/
def State.placeBytes (s : State) (l : Loc) (n : Nat) : List Byte :=
  if l.home == 3 then s.mem.read l.pa n else s.committedBytes l.part l.pa n

def State.placeVal (s : State) (l : Loc) (n : Nat) : Nat := leVal (s.placeBytes l n)

/-- A location moved by some bytes inside its line or structure. -/
def Loc.plus (l : Loc) (n : Nat) : Loc := { l with va := l.va + n, ia := l.ia + n, pa := l.pa + n }

/-- A write of M(x) through a HOME=11 page, which opens its row (R100, R283). -/
def State.writeM (s : State) (l : Loc) (bs : List Byte) : State :=
  { (s.activate l.part (sectorOf l.pa)).staleImages l.pa with mem := s.mem.write l.pa bs }

/-- The words that a write at a place changes, kept for the fetches that may still give them (R61). -/
def State.noteAt (s : State) (l : Loc) (n : Nat) : State :=
  s.noteOld l.part 0 l.pa n fun a => s.placeVal { l with pa := a } 4

/-- A write at the place an atomic acts on: H(x) as committed values, or M(x) for a HOME=11 page, which keeps no version (R117, R124). (DEDUCED, unsafe, log 28) -/
def State.placeWrite (s : State) (l : Loc) (bs : List Byte) : State :=
  let s1 := s.noteAt l bs.length
  if l.home == 3 then s1.writeM l bs else s1.commitBytes (s.site l) l.pa bs

/-- A queue descriptor as it stands in memory (R150). -/
structure QDesc where
  head : Nat
  tail : Nat
  base : Int
  cap : Nat
  esz : Nat
  flags : Nat
  pad : Nat
  deriving DecidableEq, Repr

def State.qdesc (s : State) (l : Loc) : QDesc :=
  let b := s.placeBytes l 32
  let v := fun o n => leVal ((b.drop o).take n)
  { head := v 0 8, tail := v 8 8, base := sextInt (v 16 8) 64, cap := v 24 4, esz := v 28 1, flags := v 29 1,
    pad := v 30 2 }

/-- TAIL − HEAD, exact: negative where the software has set HEAD above TAIL (R150, R152). -/
def QDesc.used (d : QDesc) : Int := (d.tail : Int) - d.head

/-- The check of R152; QWAIT accepts either element size (R153). -/
def QDesc.ok (d : QDesc) (wide : Option Bool) : Bool :=
  isPow2 d.cap && decide (d.cap ≤ 2 ^ 24) && (match wide with
    | some w => d.esz == (if w then 3 else 2)
    | none => d.esz == 2 || d.esz == 3)
    && bits d.flags 7 1 == 0 && d.pad == 0 && decide (d.used ≤ d.cap)

/-- The IA of element `i` (R150). -/
def QDesc.elemIa (d : QDesc) (l : Loc) (i : Nat) : Nat :=
  wrapInt (l.ia + d.base + ((i % d.cap) * 2 ^ d.esz : Nat)) 52

/-- The location of an element, checked at the level of the crew (R150). -/
def State.elemLoc (s : State) (part : Nat) (lv : Level) (a : Access) (ia : Nat) : Except Cause Loc :=
  match s.ctx? part with
  | none => .error .unmapped
  | some c => s.pageCheck c lv a .dev ia ia 16

/-- End the QWAITs of the flocks that a descriptor's waiter entries list (R152, R153). -/
def Flock.wakeQ (f : Flock) (pa : Nat) : Flock :=
  let woken := f.batches.filterMap fun b => match b.wait with
    | .qwait qd d listed _ _ _ _ => if listed && d.pa == pa then some qd else none
    | _ => none
  let f1 := woken.foldl (fun f qd => f.setQ qd true) f
  { f1 with batches := f1.batches.map fun b => match b.wait with
      | .qwait _ d listed _ _ _ _ => if listed && d.pa == pa then { b with wait := .none } else b
      | _ => b }

/-- Wake the waiter that one entry names (R150). -/
def State.wakeEntry (s : State) (part pa w : Nat) : State :=
  if bitAt w 31 && bits w 30 27 == part then
    match s.crew? (bits w 26 18) (bits w 17 14) with
    | some k => if k.part == part && k.susp.isNone then
        s.updFlock (bits w 26 18) (bits w 17 14) (bits w 13 9) fun f => f.wakeQ pa else s
    | none => s
  else s

/-- Wake every waiter and clear WAIT0-WAIT7 and OVF (R152). -/
def State.wakeAll (s : State) (part : Nat) (l : Loc) : State :=
  let s1 := ((List.range 8).map fun i => s.placeVal (l.plus (32 + 4 * i)) 4).foldl
    (fun s w => s.wakeEntry part l.pa w) s
  let s2 := s1.placeWrite (l.plus 32) (List.replicate 32 0)
  s2.placeWrite (l.plus 29) [0]

/-- What one lane's queue operation does at the slice: the state, the value, the status, whether it was refused, whether its
destination is poisoned, and whether it waits for an engine. -/
structure QStep where
  state : State
  val : Nat
  status : Bool
  refused : Bool
  bad : Bool
  waits : Bool
  deriving DecidableEq, Repr

/-- A queue operation that changes nothing: its status is false and its value 0. -/
def State.qno (s : State) : QStep := { state := s, val := 0, status := false, refused := false, bad := false, waits := false }

/-- A queue operation on a poisoned descriptor changes nothing, as an atomic on a poisoned word (R141); the spec does not say so of a
queue operation. (DESIGN CHOICE, unsafe, log 23) -/
def State.qbad (s : State) (l : Loc) : QStep := { (s.logError 4 l.pa l.ia).qno with bad := true }

/-- QENQ's step (R152). An element whose line an engine owns is awaited. (DESIGN CHOICE, unsafe, log 23) -/
def State.qenq (s : State) (part : Nat) (lv : Level) (l : Loc) (wide : Bool) (x : Nat) : QStep :=
  let d := s.qdesc l
  if s.rangeBad l.pa 64 then s.qbad l
  else if !d.ok (some wide) then { s.qno with refused := true }
  else if d.used < d.cap then
    match s.elemLoc part lv .store (d.elemIa l d.tail) with
    | .error _ => { s.qno with refused := true }
    | .ok el =>
      if s.owned part (lineOf el.pa) then { s.qno with waits := true }
      else
        let s1 := s.placeWrite el (leBytes (2 ^ d.esz) x)
        let s2 := s1.placeWrite (l.plus 8) (leBytes 8 ((d.tail + 1) % 2 ^ 64))
        { s.qno with state := s2.wakeAll part l, status := true }
  else s.qno

/-- QDEQ's step (R152); an element of a poisoned sector poisons vd, as a load of it would (R335), and one whose line an engine owns is
awaited. (DESIGN CHOICE, unsafe, log 23) -/
def State.qdeq (s : State) (part : Nat) (lv : Level) (l : Loc) (wide : Bool) : QStep :=
  let d := s.qdesc l
  if s.rangeBad l.pa 64 then { s.qno with bad := true }
  else if !d.ok (some wide) then { s.qno with refused := true }
  else if d.used ≤ 0 then s.qno
  else
    match s.elemLoc part lv .load (d.elemIa l d.head) with
    | .error _ => { s.qno with refused := true }
    | .ok el =>
      if s.owned part (lineOf el.pa) then { s.qno with waits := true }
      else
        { s.qno with
          state := s.placeWrite l (leBytes 8 ((d.head + 1) % 2 ^ 64)), val := s.placeVal el (2 ^ d.esz), status := true
          bad := s.rangeBad el.pa (2 ^ d.esz) }

/-- A waiter entry (R150). -/
def waiterWord (part core slot flock : Nat) : Nat := 2 ^ 31 + part * 2 ^ 27 + core * 2 ^ 18 + slot * 2 ^ 14 + flock * 2 ^ 9

/-- QWAIT's entry into the lowest free waiter entry; false when every entry is in use, and OVF is then set (R153). -/
def State.qlist (s : State) (l : Loc) (w : Nat) : State × Bool :=
  match (List.range 8).find? fun i => !bitAt (s.placeVal (l.plus (32 + 4 * i)) 4) 31 with
  | some i => (s.placeWrite (l.plus (32 + 4 * i)) (leBytes 4 w), true)
  | none => (s.placeWrite (l.plus 29) [BitVec.ofNat 8 ((s.qdesc l).flags ||| 1)], false)

end Sys2Proof.Machine
end

