-- ==== Sys2Proof/Machine/HeapSlice.lean ====
section
/-! DEFINITION. References, heap regions, forwarding tables and the steps that pins and allocations take at a slice
(R154-R162, R165). -/

namespace Sys2Proof.Machine

/-! ### References and regions (R154, R155) -/

def refTag (r : Word64) : Nat := bits r.toNat 63 61
def refRegion (r : Word64) : Nat := bits r.toNat 60 52
def refBase (r : Word64) : Nat := bits r.toNat 51 7 * 128
/-- An object reference of a region to a base line. -/
def mkRef (region base : Nat) : Word64 := BitVec.ofNat 64 (2 ^ 61 + region * 2 ^ 52 + base / 128 % 2 ^ 45 * 128)

/-- Word `w` of a region descriptor, and its fields. -/
def Context.heapWord (c : Context) (j w : Nat) : Nat := (c.reg (snHeapr + 8 * j + w)).toNat
def Context.regionValid (c : Context) (j : Nat) : Bool := bitAt (c.heapWord j 0) 63
def Context.regionBase (c : Context) (j : Nat) : Nat := bits (c.heapWord j 0) 51 7 * 128
def Context.regionLimit (c : Context) (j : Nat) : Nat := c.heapWord j 1
def Context.regionFwd (c : Context) (j : Nat) : Nat := c.heapWord j 2
def Context.regionFwdn (c : Context) (j : Nat) : Nat := bits (c.heapWord j 3) 31 0
def Context.regionAlloc (c : Context) (j : Nat) : Nat := c.heapWord j 4

/-- Is a reference usable (R154)? -/
def Context.usable (c : Context) (r : Word64) : Bool :=
  refTag r == 1 && bits r.toNat 6 0 == 0 && c.regionValid (refRegion r)
    && decide (c.regionBase (refRegion r) ≤ refBase r) && decide (refBase r < c.regionLimit (refRegion r))

/-- The VA of an IA through the first HEAP range register whose IA image holds it (R161). (DEDUCED, unsafe, log 37) -/
def Context.heapVa (c : Context) (ia : Nat) : Nat → Nat → Option Nat
  | _, 0 => none
  | n, k + 1 =>
    let r := c.range n
    let d := (ia + 2 ^ 57 - r.off % 2 ^ 52) % 2 ^ 52
    let va := r.base + (d + 2 ^ 57 - r.base) % 2 ^ 52
    if r.valid && r.cls == 2 && decide (va < r.limit) then some va else c.heapVa ia (n + 1) k

/-! ### Accesses of the slice by IA -/

/-- Where an IA of a context lies, without a permission check. -/
def State.iaLoc (s : State) (c : Context) (ia : Nat) : Option Loc :=
  (s.leaf? c ia).map fun e => locOf c.part .dev ia ia e.1 e.2 0

/-- A committed value of `n` bytes at an IA; 0 where no page maps it. -/
def State.iaVal (s : State) (c : Context) (ia n : Nat) : Nat :=
  match s.iaLoc c ia with
  | some l => s.placeVal l n
  | none => 0

def State.iaWrite (s : State) (c : Context) (ia n v : Nat) : State :=
  match s.iaLoc c ia with
  | some l => s.placeWrite l (leBytes n v)
  | none => s

/-! ### Object headers (R156) -/

def State.objSize (s : State) (c : Context) (base : Nat) : Nat := s.iaVal c base 4
def State.objPins (s : State) (c : Context) (base : Nat) : Nat := s.iaVal c (base + 4) 2
def State.objMoving (s : State) (c : Context) (base : Nat) : Bool := bitAt (s.iaVal c (base + 6) 1) 0
def State.setMoving (s : State) (c : Context) (base : Nat) (b : Bool) : State :=
  let v := s.iaVal c (base + 6) 1
  s.iaWrite c (base + 6) 1 (v / 2 * 2 + if b then 1 else 0)

/-! ### Forwarding tables (R165) -/

/-- A forwarding entry: where it stands, its state, new base, progress and lines. -/
structure Fwd where
  at_ : Nat
  state : Nat
  new : Nat
  progress : Nat
  lines : Nat
  deriving DecidableEq, Repr

def State.fwdAt (s : State) (c : Context) (a : Nat) : Fwd × Nat :=
  let o := s.iaVal c a 8
  ({ at_ := a, state := bits o 1 0, new := bits (s.iaVal c (a + 8) 8) 51 7 * 128, progress := s.iaVal c (a + 16) 4,
     lines := s.iaVal c (a + 20) 4 }, bits o 51 7 * 128)

/-- The entry for an old base: the first slot of the probe sequence that holds it in state 1 or 2, before any slot in
state 0. -/
def State.probe (s : State) (c : Context) (fwd fwdn base : Nat) : Nat → Nat → Option Fwd
  | _, 0 => none
  | j, k + 1 =>
    let a := fwd + 32 * ((base / 128 + j) % fwdn)
    let e := s.fwdAt c a
    if e.2 = base ∧ (e.1.state = 1 ∨ e.1.state = 2) then some e.1
    else if e.1.state = 0 then none
    else s.probe c fwd fwdn base (j + 1) k

/-- The forwarding entry in use for a base IA (R165). (DEDUCED, safe, log 40) -/
def State.forward? (s : State) (c : Context) (region base : Nat) : Option Fwd :=
  s.probe c (c.regionFwd region) (c.regionFwdn region) base 0 (c.regionFwdn region)

/-- The first slot in state 0 or 3 of a probe sequence (R165). -/
def State.freeSlot (s : State) (c : Context) (fwd fwdn base : Nat) : Nat → Nat → Option Nat
  | _, 0 => none
  | j, k + 1 =>
    let a := fwd + 32 * ((base / 128 + j) % fwdn)
    if (s.fwdAt c a).1.state = 0 ∨ (s.fwdAt c a).1.state = 3 then some a else s.freeSlot c fwd fwdn base (j + 1) k

/-! ### Resolution (R158) -/

/-- Where a line of an object is: a base (with `healed` when a MOVED entry named it), or the Goat holds it. -/
inductive Resolved where
  | line (base : Nat) (healed : Bool)
  | held
  deriving DecidableEq, Repr

/-- Does the Goat hold the line at a PA (E21)? -/
def State.goatHolds (s : State) (pa : Nat) : Bool := s.engines.any fun e => match e.job with
  | .goat _ _ _ _ _ (some l) => l == lineOf pa
  | _ => false

/-- The entry a core's forwarding cache holds for a base: it holds only entries that stand MOVED in their table (R158, R165). -/
def State.cachedFwd (s : State) (c : Context) (core : Nat) (r : Word64) : Option FwdEntry :=
  (s.fwd.find? fun f => f.core == core && f.part == c.part && f.old == refBase r).filter fun f =>
    (s.forward? c (refRegion r) (refBase r)).any fun e => e.state == 2 && e.new == f.new && e.lines == f.lines

/-- Resolution of line `i` of the object a usable reference names, by a core (R158). -/
def State.resolve (s : State) (c : Context) (core : Nat) (r : Word64) (i : Nat) : Resolved :=
  let base := refBase r
  match s.leaf? c base with
  | none => .line base false
  | some (e, _) =>
    if !leafRS e then .line base false
    else match s.cachedFwd c core r with
      | some f => if f.lines ≤ i then .line base false else .line f.new true
      | none =>
        match s.forward? c (refRegion r) base with
        | none => .line base false
        | some f =>
          if f.lines ≤ i then .line base false
          else if f.state = 2 then .line f.new true
          else if i < f.progress then .line f.new false
          else if i = f.progress && (match s.iaLoc c (base + 128 * i) with
              | some l => s.goatHolds l.pa
              | none => false) then .held
          else .line base false

/-- Remember a MOVED entry in a core's forwarding cache of 64 entries (R158). -/
def State.cacheFwd (s : State) (c : Context) (core : Nat) (r : Word64) : State :=
  let base := refBase r
  if (s.cachedFwd c core r).isSome then s
  else match s.leaf? c base, s.forward? c (refRegion r) base with
    | some (e, _), some f =>
      if leafRS e && f.state == 2 then
        let mine := s.fwd.filter fun g => g.core == core && !(g.part == c.part && g.old == base)
        let rest := s.fwd.filter fun g => g.core != core
        { s with fwd := { core := core, part := c.part, old := base, new := f.new, lines := f.lines }
            :: mine.take 63 ++ rest }
      else s
    | _, _ => s

/-- The reference healed: the new base in LINE, TAG and REGION unchanged (R159). -/
def healedRef (r : Word64) (base : Nat) : Word64 :=
  BitVec.ofNat 64 (bits r.toNat 63 52 * 2 ^ 52 + base / 128 % 2 ^ 45 * 128)

/-! ### Pins and allocation at the slice (R161, R162) -/

/-- What a pin operation does at the header of the current base: the state, the value and whether it is refused; none while
the object moves. -/
def State.pinStep (s : State) (c : Context) (core : Nat) (r : Word64) : Option (State × Nat × Bool) :=
  match s.resolve c core r 0 with
  | .held => none
  | .line b _ =>
    if s.objMoving c b then none
    else if s.objPins c b = 65535 then some (s, 0, true)
    else some (s.iaWrite c (b + 4) 2 (s.objPins c b + 1), (c.heapVa b 0 16).getD 0, false)

def State.unpinStep (s : State) (c : Context) (core : Nat) (r : Word64) : Option (State × Nat × Bool) :=
  match s.resolve c core r 0 with
  | .held => none
  | .line b _ =>
    if s.objPins c b = 0 then some (s, 0, true) else some (s.iaWrite c (b + 4) 2 (s.objPins c b - 1), 0, false)

/-- Install zero lines at their home slices (R162). -/
def State.zeroLines (s : State) (c : Context) (ia : Nat) : Nat → State
  | 0 => s
  | n + 1 =>
    (match s.iaLoc c ia with
      | some l =>
        ((s.placeWrite l (List.replicate 128 0)).cleanSector (2 * lineOf l.pa)).cleanSector (2 * lineOf l.pa + 1)
      | none => s).zeroLines c (ia + 128) n

/-- HNEW's step at the allocator's home slice: the state and hd (R162). -/
def State.hnewStep (s : State) (c : Context) (region size : Nat) : State × Word64 :=
  let al := c.regionAlloc region
  let top := s.iaVal c al 8
  let n := ceilDiv size 128 * 128
  if size < 16 ∨ 65536 < size ∨ c.regionValid region = false ∨ s.iaVal c (al + 8) 8 < top + n
      ∨ top < c.regionBase region ∨ c.regionLimit region < top + n then (s, 0)
  else
    let s1 := s.iaWrite c al 8 (top + n)
    let s2 := s1.iaWrite c (al + 16) 8 ((s1.iaVal c (al + 16) 8 + 1) % 2 ^ 64)
    let s3 := s2.zeroLines c top (n / 128)
    (s3.iaWrite c top 4 (ceilDiv size 16 * 16), mkRef region top)

end Sys2Proof.Machine
end

