-- ==== Sys2Proof/Machine/EngSteps.lean ====
section
/-! DEFINITION. The work of engines that a rollback may have to finish: a copy's descriptors and line writes, the Goat's copy of a
line, with the pool and scratch bytes they reach (R99, R116, R128-R134, R166, R316, R354, R378). -/

namespace Sys2Proof.Machine

/-! ### Engine operations (R99, R313) -/

/-- Does an engine operation belong to the crew, as a transfer that its checkpoints record (R291, R313)? -/
def Engine.ofCrew (e : Engine) (k : Crew) : Bool :=
  e.core == k.core && e.slot == k.slot && e.part == k.part && e.launch == k.launch && e.idx == k.idx &&
    match e.job with
    | .copy _ _ _ _ | .bld _ _ _ _ _ _ _ _ | .goat _ _ _ _ _ _ => true
    | .coll _ _ _ _ _ _ _ _ | .migrate _ _ _ _ => false

def State.updEngine (s : State) (id : Nat) (f : Engine → Engine) : State :=
  { s with engines := updFirst (fun e => e.id == id) f s.engines }

def State.engine? (s : State) (id : Nat) : Option Engine := s.engines.find? fun e => e.id == id

/-- The crew an engine works for, while it lives. -/
def State.engCrew (s : State) (e : Engine) : Option Crew := s.crews.find? fun k => e.ofCrew k

/-- The scratch base an engine's offsets count from. -/
def State.engBase (s : State) (e : Engine) : Nat := match s.engCrew e with
  | some k => k.base
  | none => 0

/-! ### Pool ranges (R134, R354) -/

/-- The identity of a pool range: the PA of its first byte, the same on every module (R353, DESIGN CHOICE, log 16). -/
def State.poolKey (s : State) (part range : Nat) : Nat :=
  match s.ctx? part with
  | none => 0
  | some c =>
    let ia := (c.range range).ia (c.range range).base
    match s.walk c ia with
    | some (e, lv) => leafPa e lv ia
    | none => 2 ^ 52 + ia

def Crew.snap? (k : Crew) (key : Nat) : Option PoolSnap := k.snaps.find? fun p => p.range == key
def Crew.writing (k : Crew) (key : Nat) : Option PoolWriter := k.writers.find? fun w => w.range == key

/-- Does a write of the pool find no free page for its copy of the 64 KiB page (R354)? How full the pool is, is free (DESIGN CHOICE, log 16); a page
that the crew's version has copied needs none. -/
def State.poolFull (s : State) (w : Option PoolWriter) (pa : Nat) : Bool :=
  !(match w with
    | some w => w.bytes.any fun c => c.1 / 65536 == pa / 65536
    | none => false) && Config.freeBool s.fresh (2 ^ 62 + pa / 65536)

/-- A write of the pool is dropped: logged, and the version it was for is lost (R354). -/
def State.poolDrop (s : State) (core slot key : Nat) (l : Loc) : State :=
  (s.updCrew core slot fun k =>
    { k with writers := updFirst (fun w => w.range == key) (fun w => { w with lost := true }) k.writers }).logError 4 l.pa l.ia

/-! ### Scratch as others see it (R116) -/

/-- Put a list of scratch writes into scratch (R116). -/
def applyScratch (m : Mem) (ws : List ScrWrite) : Mem := ws.foldl (fun m w => m.write w.addr w.bytes) m

/-- Lay a write over bytes read from `a`, each with the mark that its line's poison does not concern it (R379). -/
def overBytes (a : Nat) (bs : List (Byte × Bool)) (w : ScrWrite) : List (Byte × Bool) :=
  bs.zipIdx.map fun p =>
    if w.addr ≤ a + p.2 ∧ a + p.2 < w.addr + w.bytes.length then (w.bytes.getD (a + p.2 - w.addr) 0, w.whole) else p.1

/-- Does a write touch [a, a + n)? -/
def ScrWrite.meets (w : ScrWrite) (a n : Nat) : Bool := decide (w.addr < a + n) && decide (a < w.addr + w.bytes.length)

/-- The scratch writes of other fibres that a read may or may not see yet. -/
def CrewCore.othersPend (c : CrewCore) (flock lane a n : Nat) : List ScrWrite :=
  c.flocks.flatMap fun f => f.fibres.flatMap fun x =>
    if f.num = flock ∧ x.lane = lane then [] else x.pend.filter fun w => w.meets a n

/-- What a fibre reads at [a, a + n): its own writes; of other fibres' writes that have not completed, each as a whole or
not at all, freely (R116, DESIGN CHOICE, log 12). -/
def CrewCore.scratchSeen (c : CrewCore) (fresh : Nat) (flock : Nat) (own : List ScrWrite) (lane a n : Nat) : List (Byte × Bool) :=
  let base := (c.scratch.read a n).map fun b => (b, false)
  let seen := (c.othersPend flock lane a n).zipIdx.foldl
    (fun bs p => if Config.freeBool fresh (a + p.2) then overBytes a bs p.1 else bs) base
  own.foldl (overBytes a) seen
def CrewCore.scratchRead (c : CrewCore) (fresh : Nat) (flock : Nat) (own : List ScrWrite) (lane a n : Nat) : List Byte :=
  (c.scratchSeen fresh flock own lane a n).map (·.1)

/-- Is one of those bytes poisoned: its line is, and no write that clears the line has given it (R379)? -/
def CrewCore.scratchBad (c : CrewCore) (fresh : Nat) (flock : Nat) (own : List ScrWrite) (lane a n : Nat) : Bool :=
  (c.scratchSeen fresh flock own lane a n).zipIdx.any fun p => !p.1.2 && c.scrBad.contains ((a + p.2) / 128)

/-! ### What a descriptor copies (R128-R130) -/

def CopyDesc.reg (d : CopyDesc) (n : Nat) : Nat := d.regs.getD n 0
def CopyDesc.rows (d : CopyDesc) : Nat := d.reg 5
def CopyDesc.xform (d : CopyDesc) : Nat := bits d.mod 9 8
def CopyDesc.elem (d : CopyDesc) : Nat := 2 ^ bits d.mod 7 6
def CopyDesc.factor (d : CopyDesc) : Nat := bits d.mod 15 10 + 1
def CopyDesc.shorten (d : CopyDesc) : Bool := bitAt d.mod 16
def CopyDesc.toScratch (d : CopyDesc) : Bool := bits d.mod 5 4 == 1
def CopyDesc.ofScratch (d : CopyDesc) : Bool := bits d.mod 3 2 == 1

/-- Source and destination starts: a VA, or a scratch offset. -/
def CopyDesc.src (d : CopyDesc) : Nat := if d.ofScratch then d.reg 0 else (d.reg 0 + 2 ^ 32 * d.reg 1) % 2 ^ 57
def CopyDesc.dst (d : CopyDesc) : Nat := if d.toScratch then d.reg 2 else (d.reg 2 + 2 ^ 32 * d.reg 3) % 2 ^ 57

/-- Elements of a row under a transform. -/
def CopyDesc.count (d : CopyDesc) : Nat := d.reg 4 / d.elem

/-- Groups of rows, and the width of one: a partial last group is narrower under .SH (R130). -/
def CopyDesc.groups (d : CopyDesc) : Nat := ceilDiv d.rows d.factor
def CopyDesc.width (d : CopyDesc) (g : Nat) : Nat :=
  if d.shorten then min d.factor (d.rows - g * d.factor) else d.factor

/-- A run of bytes that a copy writes: the destination, the source (none writes zeros) and the length. -/
structure Piece where
  dst : Nat
  src : Option Nat
  len : Nat
  deriving DecidableEq, Repr

/-- One group's pieces in (n, j) order (R130). -/
def CopyDesc.group (d : CopyDesc) (g : Nat) : List Piece :=
  (List.range d.count).flatMap fun n => (List.range (d.width g)).filterMap fun j =>
    let row := g * d.factor + j
    let packed := g * (if d.xform = 1 then d.reg 7 else d.reg 6) + (n * d.width g + j) * d.elem
    if d.xform = 1 then
      some { dst := d.dst + packed, len := d.elem
             src := if row < d.rows then some (d.src + row * d.reg 6 + n * d.elem) else none }
    else if row < d.rows then
      some { dst := d.dst + row * d.reg 7 + n * d.elem, src := some (d.src + packed), len := d.elem }
    else none

/-- Every piece of a descriptor, in order (R129, R130). -/
def CopyDesc.pieces (d : CopyDesc) : List Piece :=
  if d.xform = 0 then
    if d.reg 4 = 0 then [] else
      (List.range d.rows).map fun i => { dst := d.dst + i * d.reg 7, src := some (d.src + i * d.reg 6), len := d.reg 4 }
  else (List.range d.groups).flatMap d.group

/-- The padding slots that .UNPK reads and discards, by their source addresses (R130). -/
def CopyDesc.padding (d : CopyDesc) : List Nat :=
  if d.xform ≠ 2 || d.shorten then []
  else (List.range d.groups).flatMap fun g => (List.range d.count).flatMap fun n => (List.range d.factor).filterMap fun j =>
    if g * d.factor + j < d.rows then none else some (d.src + g * d.reg 6 + (n * d.factor + j) * d.elem)

/-- Extents of a side in scratch, as (offset, length): the rows or groups that are read or written. -/
def CopyDesc.extents (d : CopyDesc) (ofDst : Bool) : List (Nat × Nat) :=
  let start := if ofDst then d.dst else d.src
  let pitch := if ofDst then d.reg 7 else d.reg 6
  let grouped := d.xform ≠ 0 && ((d.xform == 1) == ofDst)
  if grouped then (List.range d.groups).map fun g => (start + g * pitch, d.count * d.width g * d.elem)
  else (List.range d.rows).map fun i => (start + i * pitch, if d.xform = 0 then d.reg 4 else d.count * d.elem)

/-- Source lines of memory that hold padding slots, ascending. -/
def CopyDesc.padLines (d : CopyDesc) : List Nat :=
  if d.ofScratch then []
  else d.padding.foldl (fun ls a => insertAsc ((a + d.elem - 1) / 128 % 2 ^ 50) (insertAsc (a / 128 % 2 ^ 50) ls)) []

/-- Destination lines, ascending: of VAs, or of scratch addresses for a crew based at `base`. -/
def CopyDesc.lines (d : CopyDesc) (base : Nat) : List Nat :=
  d.pieces.foldl (fun ls p =>
    let a := if d.toScratch then base + p.dst else p.dst
    ((List.range ((a + p.len - 1) / 128 - a / 128 + 1)).map fun k =>
      if d.toScratch then a / 128 + k else (a / 128 + k) % 2 ^ 50).foldl (fun l x => insertAsc x l) ls) []

/-- Where each byte of a destination line comes from: (offset in the line, source), the later part winning; VAs wrap at 2^57 however far a
row lies from the start (R105, R129, R130). -/
def CopyDesc.sources (d : CopyDesc) (base line : Nat) : List (Nat × Option Nat) :=
  (List.range 128).filterMap fun k =>
    let hit := d.pieces.reverse.findSome? fun p =>
      let x := 128 * line + k
      let off := if d.toScratch then x - (base + p.dst) else (x + 2 ^ 57 - p.dst % 2 ^ 57) % 2 ^ 57
      if off < p.len ∧ (d.toScratch → base + p.dst ≤ x) then some (p.src.map (· + off)) else none
    hit.map fun h => (k, h)

/-! ### The Mule's accesses (R378) -/

/-- A fault the Mule meets. -/
structure EngFault where
  cause : Cause
  addr : Nat
  deriving DecidableEq, Repr

/-- The class of the range that holds a VA. -/
def State.classOf (s : State) (part va : Nat) : Option Class :=
  (s.ctx? part).bind fun c => ((c.findRange (va % 2 ^ 57) 0 16).map fun p => Class.ofCode p.2.cls).filter fun k => s.classOn part k

/-- A line of a memory access of an engine: a class that the Mule may not use stops it, whatever its page (R378). -/
def State.engLoc (s : State) (e : Engine) (a : Access) (va : Nat) : Except EngFault Loc :=
  if (s.classOf e.part va).any fun k => k == .pod || k == .hostw then
    .error { cause := if a == .store then .permWrite else .permRead, addr := va % 2 ^ 57 }
  else match s.translate e.part e.level a (va % 2 ^ 57) with
    | .error c => .error { cause := c, addr := va % 2 ^ 57 }
    | .ok l => .ok l

/-- The sectors of a line that an access of it takes from its rows: all of a never-cached one, else those that the slice does not hold. -/
def State.rowSectors (s : State) (l : Loc) : List Nat :=
  [2 * lineOf l.pa, 2 * lineOf l.pa + 1].filter fun sec => l.home == 3 || (s.homeSector? l.part sec).isNone

/-- Must an engine's access of a line wait for a row of it (R283)? -/
def State.locWaits (s : State) (l : Loc) : Bool := (s.rowSectors l).any (s.rowWaits l.part)
def State.vaWaits (s : State) (ox : Bool) (e : Engine) (a : Access) (va : Nat) : Bool :=
  match s.translateBy ox e.part e.level a (va % 2 ^ 57) with
  | .ok l => s.locWaits l
  | .error _ => false

/-- Places of memory found by an engine, counted as accesses where they are mapped, with the rows that a read of them opens (R283, R308,
R326, R338). -/
def State.countPlace {ε : Type} (s : State) (part : Nat) : Except ε Loc → State
  | .ok l =>
    let s1 := (s.rowSectors l).foldl (fun s sec => s.activate l.part sec) s
    (if l.home == 3 then s1 else s1.touch (s.site l) (lineOf l.pa)).countHit part l
  | .error _ => s

/-- An engine's reads of the lines of some VAs counted; `ox` for the Ox (R300). -/
def State.countReads (s : State) (ox : Bool) (e : Engine) (vas : List Nat) : State :=
  (vas.foldl (fun ls a => insertAsc (a % 2 ^ 57 / 128) ls) []).foldl
    (fun s n => s.countPlace e.part (s.translateBy ox e.part e.level .load (128 * n))) s

/-- Bytes of memory as an engine reads them: committed values; a POOL line from the crew's snapshot, or with the bytes of
its writer version (R378). Their poison. -/
def State.engRead (s : State) (e : Engine) (l : Loc) (n : Nat) : List Byte × Bool :=
  let bad := s.rangeBad l.pa n
  let bs := s.placeBytes l n
  if l.cls != .pool then (bs, bad)
  else match s.engCrew e with
    | none => (bs, bad)
    | some k =>
      let key := s.poolKey e.part l.range
      match k.snap? key with
      | some p => (p.mem.read l.pa n, bad)
      | none => match k.writing key with
        | some w => (bs.zipIdx.map fun p => (ovGet (l.pa + p.2) w.bytes).getD p.1, bad)
        | none => (bs, bad)

/-- A byte of a crew's scratch as an engine reads it, in its aligned 4-byte unit, which is read as a whole (R116, R219). -/
def CrewCore.engByte (c : CrewCore) (fresh a : Nat) : Byte × Bool :=
  let p := (c.scratchSeen fresh 32 [] 32 (a / 4 * 4) 4).getD (a % 4) (0, false)
  (p.1, !p.2 && c.scrBad.contains (a / 128))

/-- One source byte of a copy, with its poison. What a copy from scratch reads once its crew has ended, the spec does not state (R125, R132):
any value (DESIGN CHOICE, safe, log 12). -/
def State.copyByte (s : State) (e : Engine) (d : CopyDesc) (base src : Nat) : Except EngFault (Byte × Bool) :=
  if d.ofScratch then
    match s.engCrew e with
    | none => .ok ((Config.freeWord s.fresh src).setWidth 8, false)
    | some k => .ok (k.live.engByte s.fresh (base + src))
  else match s.engLoc e .load src with
    | .error f => .error f
    | .ok l => .ok (((s.engRead e l 1).1).headD 0, (s.engRead e l 1).2)

/-- A byte of a destination: a source's, or zero fill. -/
def State.sourceByte (s : State) (e : Engine) (d : CopyDesc) (base : Nat) : Option Nat → Except EngFault (Byte × Bool)
  | none => .ok (0, false)
  | some a => s.copyByte e d base a

/-- The bytes of a destination line, ascending, with their poison. -/
def State.gatherLine (s : State) (e : Engine) (d : CopyDesc) (base : Nat) :
    List (Nat × Option Nat) → Except EngFault (List (Nat × Byte × Bool))
  | [] => .ok []
  | (k, src) :: r =>
    match s.sourceByte e d base src with
    | .error f => .error f
    | .ok b => match State.gatherLine s e d base r with
      | .error f => .error f
      | .ok bs => .ok ((k, b) :: bs)

/-- Poison of one sector after an engine's write of some of its bytes: a poisoned source poisons it, a whole clean sector clears
it (R335). -/
def State.markSector (s : State) (sec : Nat) (bs : List (Nat × Byte × Bool)) : State :=
  if bs.any fun b => b.2.2 then s.poisonSector sec else if bs.length = 64 then s.cleanSector sec else s

/-- E14 of a memory line: bytes by their offset in the line at `l`. A pool line goes into its crew's version, if the crew builds one,
and is dropped where the pool has no page for it (R134, R354). -/
def State.engWrite (s : State) (e : Engine) (l : Loc) (bs : List (Nat × Byte × Bool)) : State :=
  let key := if l.cls == .pool then s.poolKey e.part l.range else 0
  let writer := if l.cls == .pool then (s.engCrew e).bind fun k => k.writing key else none
  if l.cls == .pool && s.poolFull writer l.pa then s.poolDrop e.core e.slot key l
  else
    let s1 : State := match writer with
      | some w => s.updCrew e.core e.slot fun k =>
          { k with
            writers := updFirst (fun v => v.range == w.range)
              (fun v => { v with bytes := bs.foldl (fun o b => ovSet (l.pa + b.1) b.2.1 o) v.bytes }) k.writers }
      | none => bs.foldl (fun s b => s.placeWrite { l with pa := l.pa + b.1 } [b.2.1]) s
    let lo := bs.filter fun b => decide (b.1 < 64)
    let hi := bs.filter fun b => decide (64 ≤ b.1)
    let s2 := if lo.isEmpty then s1 else s1.markSector (sectorOf l.pa) lo
    let s3 := if hi.isEmpty then s2 else s2.markSector (sectorOf l.pa + 1) hi
    (if l.home == 3 then s3 else s3.touch (s.site l) (lineOf l.pa)).countHit e.part l

/-- A line write into a crew's scratch (R132, R379). -/
def CrewCore.engScratch (c : CrewCore) (line : Nat) (bs : List (Nat × Byte × Bool)) : CrewCore :=
  { c with
    scratch := bs.foldl (fun m b => m.set (128 * line + b.1) b.2.1) c.scratch
    scrBad := if bs.any fun b => b.2.2 then insertAsc line c.scrBad
              else if bs.length = 128 then c.scrBad.filter (· != line) else c.scrBad }

/-! ### Chunks (R132) -/

/-- Where the padding lines of a copy's sources stand among the lines it works through. -/
def padBase : Nat := 2 ^ 60

/-- The lines a transfer works through: destination lines by descriptor, and the source lines it reads for their padding. -/
def copyTodo (base : Nat) (ds : List CopyDesc) : List (Nat × Nat) :=
  ds.zipIdx.flatMap fun p => ((p.1.lines base).map fun l => (p.2, l)) ++ p.1.padLines.map fun l => (p.2, padBase + l)

/-- How many lines of the chunk of 64 KiB in hand are left, of `left` lines of `total`. Chunks are counted from a transfer's first line.
(DESIGN CHOICE, unsafe, log 81) -/
def chunkRest (total left : Nat) : Nat := min left (512 - (total - left) % 512)

/-- Is a transfer inside a chunk? -/
def midChunk (total left : Nat) : Bool := (total - left) % 512 != 0

/-- The source lines of a destination line counted. -/
def State.readsCounted (s : State) (e : Engine) (d : CopyDesc) (line : Nat) : State :=
  if d.ofScratch then s else s.countReads false e ((d.sources (s.engBase e) line).filterMap (·.2))

/-- Must a line of a transfer wait for a row that it reads or writes (R283)? -/
def State.copyWaits (s : State) (e : Engine) (d : CopyDesc) (line : Nat) : Bool :=
  if padBase ≤ line then s.vaWaits false e .load (128 * (line - padBase))
  else (!d.toScratch && s.vaWaits false e .store (128 * line))
    || (!d.ofScratch && ((d.sources (s.engBase e) line).filterMap (·.2)).any (s.vaWaits false e .load))

/-- One memory line of a transfer: a destination line written, or a padding line read. A fault on a destination line names the VA of
the line (DESIGN CHOICE, unsafe, log 81). -/
def State.copyLine (s : State) (e : Engine) (d : CopyDesc) (line : Nat) : Except EngFault (State × Option Nat) :=
  if padBase ≤ line then (s.engLoc e .load (128 * (line - padBase))).map fun l => (s.countPlace e.part (Except.ok (ε := EngFault) l), none)
  else match s.gatherLine e d (s.engBase e) (d.sources (s.engBase e) line) with
    | .error f => .error f
    | .ok bs => (s.engLoc e .store (128 * line)).map fun l =>
      ((s.readsCounted e d line).engWrite e l bs, some (lineOf l.pa))

/-- A transfer goes on to the end of its chunk, where it is abandoned: its memory writes stay, those to scratch are undone anyway. -/
def State.finishChunk (s : State) (e : Engine) (ds : List CopyDesc) (todo : List (Nat × Nat)) : State :=
  let total := (copyTodo (s.engBase e) ds).length
  if midChunk total todo.length then
    (todo.take (chunkRest total todo.length)).foldl (fun s t => match ds[t.1]? with
      | some d => if d.toScratch then s else match s.copyLine e d t.2 with
        | .ok p => p.1
        | .error _ => s
      | none => s) s
  else s

/-! ### The Goat's copy of a line (R166) -/

/-- A whole line's committed value and poison copied. -/
def State.copyLineTo (s : State) (a b : Loc) : State :=
  let s1 := s.placeWrite b (s.placeBytes a 128)
  let mark := fun (t : State) (n : Nat) =>
    if s.sectorBad (2 * lineOf a.pa + n) then t.poisonSector (2 * lineOf b.pa + n) else t.cleanSector (2 * lineOf b.pa + n)
  mark (mark s1 0) 1

/-- E22 of the line a Goat holds. No core's copy of the new line is left that shows what it held before (R167). -/
def State.goatCopy (s : State) (e : Engine) (die list count k ln : Nat) : Option State :=
  (s.ctx? e.part).bind fun c =>
    let src := BitVec.ofNat 64 (s.iaVal c (list + 32 * k) 8)
    let dst := BitVec.ofNat 64 (s.iaVal c (list + 32 * k + 8) 8)
    (s.forward? c (refRegion src) (refBase src)).bind fun f =>
      match s.iaLoc c (refBase src + 128 * f.progress), s.iaLoc c (refBase dst + 128 * f.progress) with
      | some a, some b =>
        let s0 := (s.countPlace e.part (Except.ok (ε := EngFault) a)).countHit e.part b
        let s1 := ((s0.copyLineTo a b).dropL1All c.part (lineOf b.pa)).iaWrite c (f.at_ + 16) 4 (f.progress + 1)
        some (s1.updEngine e.id fun x =>
          { x with
            owned := x.owned.filter (fun l => l != ln && l != lineOf b.pa)
            job := .goat die list count k true none })
      | _, _ => none

/-! ### An operation abandoned at its unit (R132, R169, R316) -/

/-- What an engine operation finishes before it is abandoned: a copy its chunk, the Goat the line it holds. -/
def State.finishUnit (s : State) (e : Engine) : State :=
  match e.job with
  | .copy [] ds true todo => s.finishChunk e ds todo
  | .goat die l n k _ (some ln) => (s.goatCopy e die l n k ln).getD s
  | _ => s

/-- The operations of a crew brought to where they may be abandoned. -/
def State.finishUnits (s : State) (k : Crew) : State := (s.engines.filter fun e => e.ofCrew k).foldl State.finishUnit s

end Sys2Proof.Machine
end

