-- ==== Sys2Proof/Machine/Ops.lean ====
section
/-! DEFINITION. The shared operations of the machine: checkpoints, rollback, taking a trap and returning from one, engine
hand-over, and the frames in which every instruction's meaning runs. -/

namespace Sys2Proof.Machine

/-! ### Checkpoints (R312-R315) -/

/-- Has every register producer of the crew completed, and every matrix instruction it issued (R314, R220)? -/
def State.ckptDrained (s : State) (k : Crew) : Bool :=
  k.prods.isEmpty && s.units.all fun u => u.queue.all fun j => !(j.core == k.core && j.slot == k.slot)

/-- Has a batch had a part of an instruction's effect that no checkpoint may repeat, so that one waits for the instruction's end: fibres
placed by FSPAWN, a record served by ERET (R60, R85, R324, R381)? -/
def Batch.unbroken (b : Batch) : Bool := b.held.any fun i => match i with
  | .fspawn _ => b.phase != 0
  | .eret _ => b.phase == 2
  | _ => false

def Crew.unbroken (k : Crew) : Bool := k.live.flocks.any fun f => f.batches.any Batch.unbroken

/-- May a checkpoint of the crew be taken? Between the two checkpoints of R140 destinations of the irrevocable instruction stand empty,
so it waits for the second (R314, R315); it falls inside no instruction (R60, R381). -/
def State.ckptReady (s : State) (k : Crew) : Bool := s.ckptDrained k && !k.between && !k.unbroken

/-- Is a batch inside an instruction that acts in several steps? One that is released from a TBAR has still to pass it. -/
def Batch.mid (b : Batch) : Bool :=
  b.phase != 0 || match b.wait with
    | .atomic w => !w.todo.isEmpty
    | .tbarOut => true
    | _ => false

/-- Does an instruction that has begun go on from where it stands after a checkpoint: a load, whose registers are written, while its acquire
still waits (R93, R109)? -/
def goesOn (i : Instr) : Bool :=
  match i with
  | .ld _ | .uld _ | .hld _ => true
  | _ => false

/-- A batch as a checkpoint saves it: between instructions, so one that waits inside a release stands at that instruction (R60, R381). -/
def Batch.atBoundary (b : Batch) : Batch :=
  if b.phase != 0 && b.wait == .none && !(b.held.any goesOn) then
    { b with phase := 0, tag := 0, held := none }
  else b

/-- Fibres' scratch writes with some taken away. -/
def CrewCore.keepPend (c : CrewCore) (keep : ScrWrite → Bool) : CrewCore :=
  { c with
    flocks := c.flocks.map fun f => { f with fibres := f.fibres.map fun x => { x with pend := x.pend.filter keep } } }

/-- Does some fibre still hold a write of an STS in a line? -/
def CrewCore.pendsIn (c : CrewCore) (tag line : Nat) : Bool :=
  c.flocks.any fun f => f.fibres.any fun x => x.pend.any fun w => w.tag == tag && w.addr / 128 == line

/-- Scratch writes completed. With one, those of the same STS to its address are, as the lanes of an STS leave the value of the highest
there (R115); a line that an STS covers is clean once the last of its writes has completed (R379). -/
def CrewCore.complete (c : CrewCore) (ws : List ScrWrite) : CrewCore :=
  let c1 := { (c.keepPend fun w => !ws.any fun v => v.tag == w.tag && v.addr == w.addr) with scratch := applyScratch c.scratch ws }
  { c1 with scrBad := c1.scrBad.filter fun ln => !ws.any fun w => w.whole && w.addr / 128 == ln && !c1.pendsIn w.tag ln }

/-- Complete one fibre's scratch writes (R116). -/
def CrewCore.completeFibre (c : CrewCore) (flock lane : Nat) : CrewCore :=
  match (c.flocks.find? fun f => f.num == flock).bind (·.fibre? lane) with
  | none => c
  | some f => c.complete f.pend

/-- Complete every scratch write of a crew. -/
def CrewCore.completeAll (c : CrewCore) : CrewCore :=
  c.complete (c.flocks.flatMap fun f => f.fibres.flatMap (·.pend))

/-- The crew with its batches between instructions. -/
def CrewCore.atBoundary (c : CrewCore) : CrewCore :=
  { c with flocks := c.flocks.map fun f => { f with batches := f.batches.map Batch.atBoundary, pipe := none } }

/-- Step 3 of R314: commit the crew's versions, discard its undo entries, scratch log and shadows, record its state and
the transfers in flight, and raise SR.CKPTN; the reservations of R376 lapse. -/
def Crew.recordCkpt (k : Crew) (engs : List Engine) : Crew :=
  { k with
    live := k.live.completeAll, saved := k.live.completeAll.atBoundary, savedEng := engs, ckptn := (k.ckptn + 1) % 2 ^ 32, timer := 0,
    undo := [], scrLog := [], resv := [], ckptDue := false, stopFor := none }

/-- Discard the shadows of the units a crew holds (R220, R314). -/
def State.dropShadows (s : State) (core slot : Nat) : State :=
  { s with
    units := s.units.map fun u => if u.holder == some (core, slot) then { u with shTiles := [], shBanks := none } else u }

/-- A checkpoint of a crew, whose producers and matrix instructions have completed (R314). -/
def State.checkpoint (s : State) (core slot : Nat) : State :=
  match s.crew? core slot with
  | none => s
  | some k =>
    ((s.commitCrew core slot).dropShadows core slot).updCrew core slot fun x =>
      x.recordCkpt (s.engines.filter fun e => e.ofCrew k)

/-- A checkpoint of the issuing crew before its instruction acts; the instruction waits until it can be taken.
(DESIGN CHOICE, safe, log 31) -/
def takeCkpt (s : State) (i : Iss) : Res State :=
  if s.ckptReady i.crew then .ok (s.checkpoint i.ref.core i.ref.slot) else .error (.ckpt [])

/-- The first checkpoint of R140: an irrevocable instruction waits for another one of its crew. -/
def firstCkpt (s : State) (i : Iss) : Res State :=
  if i.crew.between then .error .wait
  else match takeCkpt s i with
    | .error e => .error e
    | .ok s1 => .ok (s1.updCrew i.ref.core i.ref.slot fun k => { k with between := true })

/-- Checkpoints of other crews (R99, R168, R313); none while one of them cannot be taken. -/
def ckptOthers (s : State) (ks : List (Nat × Nat)) : Option State :=
  if ks.all fun p => match s.crew? p.1 p.2 with
      | some k => s.ckptReady k
      | none => true
  then some (ks.foldl (fun s p => s.checkpoint p.1 p.2) s) else none

/-- Reread the batch at issue after its crew's state has changed. -/
def State.again (s : State) (i : Iss) : Iss := (s.find i.ref).getD i

/-! ### Rollback (R316) -/

/-- A wait as a restored checkpoint finds it: RCV and sleep take a fresh timer (R87, R274, R317), and a QWAIT is issued again (R140). -/
def Wait.restored (now : Nat) : Wait → Wait
  | .rcv _ _ _ | .qwait _ _ _ _ _ _ _ => .none
  | .sleep qd b t _ => .sleep qd b t now
  | w => w

/-- A batch as a restored checkpoint finds it. -/
def Batch.restored (now : Nat) (b : Batch) : Batch :=
  { b with
    wait := b.wait.restored now
    pc := match b.wait with
      | .qwait _ _ _ _ _ _ from_ => from_
      | _ => b.pc }

/-- The latch of a fibre of a restored checkpoint as it is now (R22): that of the fibre if it has ended since, else of the living one. -/
def Crew.latchOf (k : Crew) (num : Nat) : Option (Option Word) :=
  match k.resv.find? fun r => r.num == num with
  | some r => some r.latch
  | none => (k.live.flocks.findSome? fun f => f.fibres.find? fun x => x.num == num).map (·.latch)

/-- The latch of R22 is not restored. -/
def restoreLatch (k : Crew) (f : Fibre) : Fibre := { f with latch := (k.latchOf f.num).getD f.latch }

/-- The flocks of a restored checkpoint. -/
def Flock.restored (now : Nat) (k : Crew) (f : Flock) : Flock :=
  { f with batches := f.batches.map (Batch.restored now), fibres := f.fibres.map (restoreLatch k) }

/-- Bins of the core in use by crews other than this one (R40, R377). -/
def State.binsUsed (s : State) (core : Nat) : Nat :=
  (s.crews.filter fun k => k.core == core).foldl (fun n k => n + (k.live.bins.filter fun b => !b.held).length) 0

/-- Restored bins take the free bins of the core in order, each with a fresh timer; the rest are held (R377). -/
def placeBins (now : Nat) : Nat → List Bin → List Bin
  | _, [] => []
  | 0, b :: r => { b with held := true } :: placeBins now 0 r
  | n + 1, b :: r => { b with held := false, due := false, since := now } :: placeBins now n r

/-- The held bin of a core that has been held longest: its crew's slot and its entry. -/
def State.oldestHeld (s : State) (core : Nat) : Option (Nat × Nat) :=
  (minBy (fun (p : Nat × Nat × Nat) => p.1) ((s.crews.filter fun k => k.core == core).flatMap fun k =>
    (k.live.bins.filter (·.held)).map fun b => (b.since, k.slot, b.entry))).map fun p => p.2

/-- Held bins take a core's free bins, the oldest first, each with a fresh timer; `n` bounds how many. -/
def State.takeBins (s : State) (core : Nat) : Nat → State
  | 0 => s
  | n + 1 =>
    match s.oldestHeld core with
    | none => s
    | some (slot, entry) =>
      State.takeBins (s.updCrew core slot fun k => k.updLive fun c =>
        { c with
          bins := updFirst (fun b => b.held && b.entry == entry)
            (fun b => { b with held := false, due := false, since := s.clock }) c.bins }) core n

def State.settleBins (s : State) (core : Nat) : State := s.takeBins core (16 - s.binsUsed core)

/-- The crew's checkpoint state restored. -/
def Crew.restored (k : Crew) (now free : Nat) : Crew :=
  { k with
    live := { k.saved with
      flocks := k.saved.flocks.map (Flock.restored now k), bins := placeBins now free k.saved.bins }
    prods := [], undo := [], scrLog := [], resv := [], between := false, heldTrap := none, ckptDue := false,
    stopFor := none }

/-- A transfer issued again from its start, with the descriptor captured at issue (R316). A Goat's list goes on from the PROGRESS of its
objects, so that it owns those of its destination lines that no E22 has given up (R166, R169). -/
def Engine.restart (es : List Engine) (e : Engine) : Engine :=
  match e.job with
  | .copy w ds _ _ => { e with job := .copy w ds false [] }
  | .bld gq sl sz rows src p sc _ => { e with job := .bld gq sl sz rows src p sc 0 }
  | .goat die l n _ _ _ => { e with job := .goat die l n 0 false none, owned := ((es.find? fun x => x.id == e.id).map (·.owned)).getD [] }
  | j => { e with job := j }

/-- Tiles and banks restored from their shadows, and the crew's instructions discarded (R220, R244). -/
def MUnit.rollback (u : MUnit) (core slot : Nat) : MUnit :=
  let u1 := { u with queue := u.queue.filter fun j => !(j.core == core && j.slot == slot) }
  if u.holder == some (core, slot) then
    { u1 with
      tiles := u.shTiles.foldl (fun ts p => spSet Tile.free p.1 p.2 ts) u.tiles
      sa := (u.shBanks.map (·.sa)).getD u.sa
      sb := (u.shBanks.map (·.sb)).getD u.sb
      saBad := (u.shBanks.map (·.saBad)).getD u.saBad
      sbBad := (u.shBanks.map (·.sbBad)).getD u.sbBad
      shTiles := [], shBanks := none }
  else u1

/-- The engine operations after a rollback: those in flight at the checkpoint start again, those issued since are
abandoned, and an outstanding BLD issued since finishes without an arrival (R220, R316). -/
def engAfter (k : Crew) (es : List Engine) : List Engine :=
  (es.filterMap fun e =>
    if e.ofCrew k then
      match e.job with
      | .bld _ _ _ _ _ _ _ _ => if k.savedEng.any fun x => x.id == e.id then none else some { e with nb := none }
      | _ => none
    else some e) ++ k.savedEng.map (Engine.restart es)

/-! ### Teams (R37, R276) -/

/-- Crews of a partition, resident or pre-empted. -/
def State.allCrews (s : State) : List Crew := s.crews ++ s.ctxs.flatMap (·.parked)

/-- Are two crews of one team (R37)? -/
def Crew.sameTeam (k j : Crew) : Bool :=
  k.part == j.part && k.launch == j.launch && (if k.teamSize = 0 then k.idx == j.idx else k.teamNo == j.teamNo)

/-- Has every living fibre of a crew arrived at TBAR? -/
def CrewCore.allTbar (c : CrewCore) : Bool :=
  c.flocks.all fun f => (f.batches.all fun b => b.wait == .tbar)

/-- Release every batch that waits at TBAR; its second checkpoint is still to be taken. -/
def CrewCore.freeTbar (c : CrewCore) : CrewCore :=
  { c with
    flocks := c.flocks.map fun f =>
      { f with batches := f.batches.map fun b => if b.wait == .tbar then { b with wait := .tbarOut } else b } }

/-- A crew released from TBAR, in its saved state too, so that a rollback after it does not wait again. -/
def Crew.freed (j : Crew) : Crew := { j with live := j.live.freeTbar, saved := j.saved.freeTbar }

/-- TBAR completes when every living fibre of every living crew of the team, pre-empted ones among them, has arrived (R276). -/
def State.settleTeam (s : State) (k : Crew) : State :=
  let team := s.allCrews.filter fun j => k.sameTeam j && !j.live.flocks.isEmpty
  if !team.isEmpty && team.all fun j => j.live.allTbar then
    let free := fun (j : Crew) => if k.sameTeam j then j.freed else j
    { s with
      crews := s.crews.map free
      ctxs := s.ctxs.map fun (c : Context) => { c with parked := c.parked.map free } }
  else s

/-! ### The rollback of a crew -/

/-- Is an entry of SB or Q of a crew's open interval? -/
def Crew.openEntry (k : Crew) (e : Entry) : Bool := e.core == k.core && e.slot == k.slot && e.interval == k.ckptn

/-- E11: the crew's versions and its open-interval entries are removed (R93, R316, R317). No copy has held them (R104). -/
def State.discard (s : State) (k : Crew) : State :=
  { s.dropVersions k.core k.slot with
    sb := s.sb.filter (fun e => !k.openEntry e), rq := s.rq.filter (fun e => !k.openEntry e) }

/-- A rollback of a crew to its latest checkpoint (R316): its transfers come to the end of their unit, E11, then registers, scratch, tiles,
producers and checkpoint state. Bins that it frees go to held bins of other crews (R377), and a team may have arrived without the fibres
it removes. (DEDUCED, safe, log 43) -/
def State.rollback (s : State) (core slot : Nat) : State :=
  match s.crew? core slot with
  | none => s
  | some k =>
    let used := s.binsUsed core - (k.live.bins.filter fun b => !b.held).length
    let s0 := (s.finishUnits k).discard k
    let s1 := { s0 with
      units := s0.units.map fun (u : MUnit) => u.rollback core slot
      engines := engAfter k s0.engines }
    ((s1.updCrew core slot fun x => x.restored s.clock (16 - used)).settleBins core).settleTeam k

/-! ### Taking a trap (R318-R320) -/

/-- The 64 bytes of a trap record (R320). -/
def Crew.recordBytes (k : Crew) (r : TrapRec) : List Byte :=
  leBytes 12 0 ++ leBytes 2 k.core ++ leBytes 1 k.slot ++ leBytes 1 r.trap.cause.code
    ++ leBytes 1 ((if r.trap.eng then 1 else 0) + (if r.held then 2 else 0) + (if r.pre then 4 else 0)
        + (if r.halt then 8 else 0))
    ++ leBytes 1 r.trap.flock ++ leBytes 2 r.trap.code ++ leBytes 4 k.launch ++ leBytes 4 k.idx ++ leBytes 4 r.ckptn
    ++ leBytes 4 (if r.trap.eng then 0 else r.trap.lanes.toNat) ++ leBytes 8 r.trap.pc ++ leBytes 8 r.trap.addr
    ++ leBytes 12 0

/-- A trap record passed to the partition driver (R320). -/
def State.toDriver (s : State) (k : Crew) (r : TrapRec) : State × TrapRec :=
  ({ s with notices := s.notices ++ [(k.part, k.recordBytes r)] }, { r with queued := true })

/-- Does a record that was delivered earlier still wait for the same trap queue (R320)? -/
def State.earlierWaits (s : State) (k : Crew) (r : TrapRec) : Bool :=
  s.allCrews.any fun x => x.part == k.part && x.trapQueue == k.trapQueue && (match x.susp with
    | some y => !y.queued && decide (y.order < r.order)
    | none => false)

/-- Enqueue a suspended crew's record on its trap queue in the manner of QENQ, or set the next attempt 1,024 cycles on
(R320). The addresses are translated as a run-time requester's (DESIGN CHOICE, log 14). -/
def State.tryEnqueue (s : State) (k : Crew) (r : TrapRec) : State × TrapRec :=
  if r.queued then (s, r)
  else if k.trapQueue = 0 then s.toDriver k r
  else match s.translate k.part .t .queue k.trapQueue with
    | .error _ => s.toDriver k r
    | .ok l =>
      let retry := (s, { r with retryAt := s.clock + 1024 })
      if s.earlierWaits k r then retry
      else
        let q := s.qenq k.part .t l true (k.trapArea + 64 * k.idx)
        if q.status then (q.state, { r with queued := true })
        else if q.refused then s.toDriver k r
        else retry

/-- Write a trap record at trap area + 64 × CREWIDX as committed values; none where it has no place or the write faults.
(DEDUCED, unsafe, log 58) -/
def State.writeRecord (s : State) (k : Crew) (r : TrapRec) : Option State :=
  if k.trapArea = 0 then none
  else match s.translate k.part .t .store (k.trapArea + 64 * k.idx) with
    | .error _ => none
    | .ok l => some (s.placeWrite l (k.recordBytes r))

/-- Write the trap record and enqueue it (R320). -/
def State.publish (s : State) (k : Crew) (r : TrapRec) : State × TrapRec :=
  match s.writeRecord k r with
  | none => s.toDriver k r
  | some s1 => s1.tryEnqueue k r

/-- Write and enqueue the record of a suspended crew. -/
def State.publishRecord (s : State) (core slot : Nat) : State :=
  match (s.crew? core slot).bind fun k => k.susp.map fun r => (k, r) with
  | none => s
  | some (k, r) =>
    (s.publish k r).1.updCrew core slot fun x => { x with susp := some (s.publish k r).2 }

/-- Does a halt, delivered or pending, defer the crew's pre-emption until it is released (R330)? -/
def Crew.deferred (k : Crew) : Bool := k.halted || k.haltPend

/-- TAKING A TRAP (R318): the crew rolls back to its latest checkpoint, becomes suspended, and its trap record is written
and enqueued (R320). `held` marks a trap that arose between two checkpoints of R140. -/
def State.takeTrap (s : State) (core slot : Nat) (t : Trap) (held : Bool) : State :=
  match s.crew? core slot with
  | none => s
  | some k =>
    let s1 := { s.rollback core slot with nextTag := s.nextTag + 1 }
    let r : TrapRec := { trap := t, order := s.nextTag, ckptn := k.ckptn, held := held,
                         pre := k.preDue && !k.deferred, halt := k.haltPend, queued := false, retryAt := s.clock }
    (s1.updCrew core slot fun x => { x with susp := some r }).publishRecord core slot

/-- The lowest lane of a mask. -/
def lowLane (m : BitVec 32) : Nat := ((List.range 32).find? fun n => m.getLsbD n).getD 0

/-- The age of the batch that a trap is of. -/
def Crew.trapAge (k : Crew) (t : Trap) : Nat := (((k.flock? t.flock).bind fun f => f.batchAt? (lowLane t.lanes)).map (·.age)).getD 0

/-- Does a trap of a crew come before another: by the lowest cause code, then the older batch, then the lower flock (R330)? -/
def Crew.trapFirst (k : Crew) (t u : Trap) : Bool :=
  decide (t.cause.code < u.cause.code) || (t.cause.code == u.cause.code && (decide (k.trapAge t < k.trapAge u)
    || (k.trapAge t == k.trapAge u && decide (t.flock < u.flock))))

/-- A trap as it arises: taken at once, or held until the second checkpoint when the crew is between the two checkpoints of R140; of several
held traps the first by R330 stays. An ending crew is never rolled back, so it takes none (R280). A trap that an accepted collective owes to a suspended crew is held until the crew is
resumed (DESIGN CHOICE, unsafe, log 79). A held trap is delivered by TRAP_DELIVERY. -/
def State.raise (s : State) (core slot : Nat) (t : Trap) : State :=
  match s.crew? core slot with
  | none => s
  | some k =>
    if k.ending then s
    else if k.between || k.heldTrap.isSome || k.susp.isSome then
      s.updCrew core slot fun x =>
        { x with heldTrap := match x.heldTrap with
            | some u => if x.trapFirst t u then some t else some u
            | none => some t }
    else s.takeTrap core slot t false

/-- The second checkpoint of R140: taken with the batch at the next instruction. A trap held since the first can now be
delivered, from this checkpoint. -/
def State.secondCkpt (s : State) (core slot : Nat) : State :=
  (s.updCrew core slot fun x => { x with between := false }).checkpoint core slot

/-- TRAP_DELIVERY: a trap held since the first checkpoint of R140 is taken from the second (R318, R320, R330). -/
def State.deliverHeld (s : State) (core slot : Nat) : Option State :=
  match s.crew? core slot with
  | none => none
  | some k => match k.heldTrap with
    | none => none
    | some t => if k.between || k.susp.isSome then none else some (s.takeTrap core slot t true)

/-! ### Returning from a trap (R324) -/

/-- ERET RESUME: the crew performs E8 at DEV and issues from its restored checkpoint; a pending halt stops it before its
first instruction (R324, R330). -/
def State.resumeCrew (s : State) (core slot : Nat) : State :=
  (s.dropCore core).updCrew core slot fun x =>
    { x with susp := none, halted := x.halted || x.haltPend, haltPend := false }

/-- The suspended crew that a record names (R324). -/
def State.suspended? (s : State) (part core slot launch idx ckptn : Nat) : Option Crew :=
  match s.crew? core slot with
  | some k =>
    if k.part == part && k.launch == launch && k.idx == idx && (match k.susp with
      | some r => r.ckptn == ckptn
      | none => false) then some k else none
  | none => none

/-! ### Single steps (R329) -/

/-- The record of a step (R329): flock, lane mask, PC before and after, and whether a checkpoint or a trap occurred. -/
def stepRecord (flock : Nat) (lanes : BitVec 32) (before after : Nat) (ckpt trap : Bool) : List Nat :=
  [flock, lanes.toNat, before, after, if ckpt then 1 else 0, if trap then 1 else 0]

/-- Is a batch still inside the instruction it issued? -/
def Batch.inside (b : Batch) : Bool := b.mid || match b.wait with
  | .atomic _ => true
  | _ => false

/-- A step begins: the halted crew has issued the instruction it may, and its record stands open: flock, lane mask, PC, checkpoint
number and lane. -/
def State.openStep (s : State) (i : Iss) : State :=
  s.onCrew i fun k =>
    if k.halted && k.stepPend then
      { k with
        stepPend := false
        stepRec := [i.flock.num, (maskOf i.active).toNat, i.batch.pc, i.crew.ckptn, i.ref.lane] }
    else k

/-- An open step whose instruction has come to its end is recorded. -/
def State.closeStep (s : State) (core slot : Nat) : State :=
  s.updCrew core slot fun k =>
    match k.stepRec with
    | [fl, lanes, pc, n, lane] =>
      match (k.flock? fl).bind fun f => f.batchAt? lane with
      | some b =>
        if b.inside && k.susp.isNone then k
        else { k with stepRec := stepRecord fl (BitVec.ofNat 32 lanes) pc b.pc (n != k.ckptn) k.susp.isSome }
      | none => { k with stepRec := stepRecord fl (BitVec.ofNat 32 lanes) pc pc (n != k.ckptn) k.susp.isSome }
    | _ => k

/-! ### Frames in which meanings run -/

/-- What an instruction that cannot complete leaves: nothing but the mark that nothing happened, the request for the
checkpoints it needs (the crew's other batches then stop issuing, R314), or its trap. -/
def State.stopped (s : State) (i : Iss) : Stop → State
  | .wait => { s with stall := true }
  | .ckpt ks =>
    let s1 := ks.foldl (fun s p => s.updCrew p.1 p.2 fun x => { x with ckptDue := true }) { s with stall := true }
    s1.onCrew i fun x => { x with stopFor := some (i.ref.flock, i.ref.lane) }
  | .trap t => s.raise i.ref.core i.ref.slot t

/-- Run a meaning for the batch at issue. -/
def runBatch (s : State) (body : Iss → Res State) : Out State :=
  if s.dead then .fault .poweredDown
  else match s.iss? with
    | none => .fault .noBatch
    | some i => match body i with
      | .ok t => .next t
      | .error e => .next (s.stopped i e)

/-- A lane-set instruction: with its guard false in every active fibre it does nothing (R54, R58); issued outside its role
it traps ROLE_VIOLATION (R42), with the fibres whose guard is true in the lane mask (DESIGN CHOICE, unsafe, log 75); else its body acts
for those fibres. -/
def laneSet (s : State) (x : Form) (anyRole : Bool) (body : Iss → List Fibre → Res State) : Out State :=
  runBatch s fun i =>
    let ps := i.takers x
    if ps.isEmpty then .ok (s.advance i x.words)
    else if !anyRole && i.flock.role != .vector then .error (.trap (i.trap .roleViolation (maskOf ps) 0))
    else body i ps

/-- Which roles may issue a uniform-set instruction (R42). -/
inductive Roles where
  | any | vector | matrix | vectorCopy
  deriving DecidableEq, Repr

def Roles.allow : Roles → Role → Bool
  | .any, _ => true
  | .vector, r => r == .vector
  | .matrix, r => r == .matrix
  | .vectorCopy, r => r != .matrix

/-- Does a UFROM of another batch hold the flock's uniform pipe (R80)? -/
def Iss.pipeHeld (i : Iss) : Bool := i.flock.pipe.any fun l => !i.batch.lanes.contains l

/-- A uniform-set instruction: it waits for the flock's uniform pipe (R80); with its q guard false at issue it does nothing (R54,
R58); outside its roles it traps (R42). -/
def uniSet (s : State) (x : Form) (roles : Roles) (body : Iss → Res State) : Out State :=
  runBatch s fun i =>
    if i.pipeHeld then .error .wait
    else if i.batch.phase = 0 ∧ guardUni x i.flock = false then .ok (s.advance i x.words)
    else if !roles.allow i.flock.role then .error (.trap (i.trap .roleViolation (maskOf i.active) 0))
    else body i

/-- The mask of the living fibres of the flock that are absent from the batch; zero when the batch is converged (R35). -/
def Iss.absent (i : Iss) : List Fibre := i.flock.fibres.filter fun f => !i.batch.lanes.contains f.lane

/-- The convergence check of R35. -/
def converged (i : Iss) : Res Unit :=
  if i.absent.isEmpty then .ok () else .error (.trap (i.trap .illegalConvergence (maskOf i.absent) 0))

/-- A level check (R58): PERM_PRIV with address 0. -/
def needLevel (i : Iss) (ok : Bool) : Res Unit :=
  if ok then .ok () else .error (.trap (i.trap .permPriv (maskOf i.active) 0))

def Level.rank : Level → Nat
  | .u => 0 | .t => 1 | .f => 2

/-- Does a producer of the flock still have to write a uniform register (R112), or a reference register (R160)? -/
def Iss.kBusy (i : Iss) (n : Nat) (wide : Bool) : Bool :=
  i.crew.prods.any fun p => p.flock == i.flock.num && match p.dest with
    | .uni _ r w => decide (r ≤ n + (if wide then 1 else 0)) && decide (n ≤ r + (if w then 1 else 0))
    | _ => false

def Iss.hBusy (i : Iss) (lane n : Nat) : Bool :=
  i.crew.prods.any fun p => p.flock == i.flock.num && p.dest == .href lane n

/-- Wait while a uniform register is to be written by an outstanding ULD (R112). -/
def kFree (i : Iss) (regs : List (Nat × Bool)) : Res Unit :=
  if regs.any fun p => i.kBusy p.1 p.2 then .error .wait else .ok ()

/-! ### Releases and acquires (R93-R98) -/

/-- Has the flock of the batch a matrix instruction or a B-store load from scratch that has not completed? NBARR, BAR, TBAR,
RNGSIG, WAKE, FSPAWN, FEND and DONE wait for these (R219). -/
def State.unitBusy (s : State) (i : Iss) : Bool :=
  (s.units.any fun u => u.queue.any fun j => j.core == i.ref.core && j.slot == i.ref.slot && j.flock == i.flock.num)
    || s.engines.any fun e => e.core == i.ref.core && e.slot == i.ref.slot && e.flock == i.flock.num &&
      match e.job with
      | .bld _ _ _ _ _ _ sc _ => sc
      | _ => false

/-- E2 until SB is empty for every active fibre of the batch. -/
def State.passBatch (s : State) (i : Iss) (fs : List Fibre) : State :=
  fs.foldl (fun s f => s.passAll i.ref.core f.num) s

/-- A rel(S) entry of a fibre. -/
def relEntry (i : Iss) (f : Fibre) (interval : Nat) (sc : Scope) (tag : Nat) : Entry :=
  { core := i.ref.core, slot := i.ref.slot, flock := i.flock.num, lane := f.lane, fib := f.num, part := i.crew.part,
    interval := interval, kind := .rel sc, tag := tag, pc := i.batch.pc,
    loc := { cls := .dev, va := 0, ia := 0, pa := 0, home := 0, dpin := false, die := 0, range := 0 } }

/-- E7 without a store for each fibre in turn: E2 until SB is empty, then rel(S) (R93). The batch's tag names its rel
entries. -/
def State.releaseAll (s : State) (i : Iss) (fs : List Fibre) (sc : Scope) : State :=
  let n := match s.crew? i.ref.core i.ref.slot with | some k => k.ckptn | none => 0
  let s1 := fs.foldl (fun s f =>
    let s2 := s.passAll i.ref.core f.num
    { s2 with rq := s2.rq ++ [relEntry i f n sc s.nextTag] }) s
  ({ s1 with nextTag := s1.nextTag + 1 }).onBatch i fun b => { b with tag := s.nextTag }

/-- Has every entry with a tag drained from Q? -/
def State.drained (s : State) (core tag : Nat) : Bool := !(s.rq.any fun e => e.core == core && e.tag == tag)

/-- Does a fibre still wait as a release at POD or SYS scope does (R97): earlier pod requests without a reply, and at SYS
HOST or POOL writes that their link has not accepted? -/
def State.podQuiet (s : State) (core fib : Nat) (sys : Bool) : Bool :=
  !(s.podOut.any fun r => r.core == core && r.fib == fib)
    && (!sys || !(s.linkWait.any fun e => e.core == core && e.fib == fib))

/-- E9 (R96): for every core that runs fibres of the partition, the entries of Q up to and including the youngest rel(CORE)
entry and the release store behind it that must drain first. -/
def upToRelCore (q : List Entry) : Nat :=
  ((List.range q.length).filter fun n => match q[n]? with
    | some e => (match e.kind with | .rel .core => true | _ => false)
    | none => false).foldl (fun _ n =>
      match q[n + 1]? with
      | some e => (match e.kind with | .store _ true _ => n + 2 | _ => n + 1)
      | none => n + 1) 0

/-- The dropping part of E8 for the batch's core. -/
def State.acquireCore (s : State) (i : Iss) : State := s.dropCore i.ref.core

/-! ### Engine hand-over: E13 (R99) -/

/-- Crews that hold a version of one of a partition's lines. -/
def State.versionHolders (s : State) (part : Nat) (ls : List Nat) : List (Nat × Nat) :=
  (s.vers.filter fun v => v.site.part == part && ls.contains v.line).foldl
    (fun acc v => if acc.contains (v.core, v.slot) then acc else acc ++ [(v.core, v.slot)]) []

/-- Crews other than the batch's that hold a version of one of some lines. -/
def State.otherHolders (s : State) (i : Iss) (ls : List Nat) : List (Nat × Nat) :=
  (s.versionHolders i.crew.part ls).filter (· != (i.ref.core, i.ref.slot))

/-- E13 of an engine issue (R99): the batch performs E7 at DEV; once its rel entry has drained, the crews that hold a version of a
destination line are checkpointed, then the batch's own, whose saved state has the batch at this instruction (R315), and in the
same step `add` hands the work over under a new number. -/
def engineIssue (s : State) (i : Iss) (words : Nat) (lines : State → List Nat) (add : State → Nat → State) : Res State :=
  if i.batch.phase = 0 then .ok ((s.releaseAll i i.active .dev).onBatch i fun b => { b with phase := 1 })
  else if !s.drained i.ref.core i.batch.tag then .error .wait
  else
    let ks := s.otherHolders i (lines s)
    match ckptOthers s ks with
    | none => .error (.ckpt ks)
    | some s1 => match takeCkpt (s1.onBatch i fun b => { b with phase := 0, tag := 0, held := none }) i with
      | .error e => .error e
      | .ok s2 => .ok ((add { s2 with nextTag := s2.nextTag + 1 } s2.nextTag).advance i words)

/-- An engine operation issued by the batch. -/
def Iss.engine (i : Iss) (id : Nat) (owned : List Nat) (nb : Option Nat) (job : Job) : Engine :=
  { id := id, owned := owned, core := i.ref.core, slot := i.ref.slot, part := i.crew.part, launch := i.crew.launch,
    idx := i.crew.idx, level := i.crew.level, flock := i.flock.num, pc := i.batch.pc, nb := nb, job := job }

/-- One arrival at a named barrier (R127). -/
def NBar.arrive (b : NBar) (engine : Bool) : NBar :=
  if b.expect = 0 then b
  else if b.expect ≤ b.count + 1 then
    { b with phase := !b.phase, count := 0, engine := b.engNow || engine, engNow := false }
  else { b with count := b.count + 1, engNow := b.engNow || engine }

def CrewCore.nbar (c : CrewCore) (n : Nat) : NBar := spGet NBar.zero c.nbs n
def CrewCore.setNbar (c : CrewCore) (n : Nat) (b : NBar) : CrewCore := { c with nbs := spSet NBar.zero n b c.nbs }

end Sys2Proof.Machine
end

