-- ==== Sys2Proof/Machine/Operands.lean ====
section
/-! DEFINITION. Operand forms: immediates, the sources of lane and uniform instructions with their replacements, and the
frames in which one-result instructions read, compute and write (R51, R56, R67, R79, R194). -/

namespace Sys2Proof.Machine

/-! ### Immediates -/

/-- The immediate sign-extended to a register or a pair (R67). -/
def immWord (x : Form) : Word := BitVec.ofInt 32 x.immS
def immWord64 (x : Form) : Word64 := BitVec.ofInt 64 x.immS

/-- The immediate zero-extended (R72, R76). -/
def immZWord (x : Form) : Word := BitVec.ofNat 32 x.immZ

/-- A floating immediate: the field is bits [31:5] of an FP32 value (R194). -/
def immFloat (x : Form) : Word := BitVec.ofNat 32 (x.immZ * 32)

/-- A 16-bit floating immediate, applied to both elements (R194). -/
def immHalf (x : Form) : Word := BitVec.ofNat 32 (x.immZ % 65536 * 65537)

/-- The target of a branch: word offset from the leading word of the instruction (R51, R81). -/
def immTarget (x : Form) (pc : Nat) : Nat := wrapInt (pc + 4 * x.immS) 57

/-- The target in a register pair: bits [56:0] (R81). -/
def regTarget (v : Word64) : Nat := v.toNat % 2 ^ 57

/-! ### Lane sources -/

def srcA (x : Form) (f : Fibre) : Chk Word := readSrc f x.an x.ea
def srcB (x : Form) (imm : Word) (f : Fibre) : Chk Word := if x.hasImm then .ok imm else readSrc f x.bn x.eb
def srcC (x : Form) (f : Fibre) : Chk Word := readSrc f x.cn x.ec
def srcA64 (x : Form) (f : Fibre) : Chk Word64 := readPair f x.an x.ea
def srcB64 (x : Form) (imm : Word64) (f : Fibre) : Chk Word64 := if x.hasImm then .ok imm else readPair f x.bn x.eb

/-- The state after each participant's result is written to D and the batch has moved on. -/
def State.laneResult (s : State) (i : Iss) (x : Form) (wide : Bool) (vs : List (Nat × Word64)) : State :=
  (s.onFibres i vs fun v f => f.put x.dn wide v).advance i x.words

/-- An instruction that reads per fibre and writes one lane register, or pair, per fibre (R67). -/
def laneWrite (s : State) (x : Form) (wide : Bool) (rd : Iss → Fibre → Chk Word64) : Out State :=
  laneSet s x false fun i ps =>
    match checkAll i ps fun f => (rd i f).and (destWide f x.dn wide) with
    | .error e => .error e
    | .ok vs => .ok (s.laneResult i x wide (vs.map fun p => (p.1, p.2.1)))

/-- One, two and three word sources with a word result; `imm` is what an immediate gives for B. -/
def lane1 (s : State) (x : Form) (op : Iss → Fibre → Word → Word) : Out State :=
  laneWrite s x false fun i f => (srcA x f).map fun a => (op i f a).setWidth 64

def lane2 (s : State) (x : Form) (imm : Word) (op : Iss → Fibre → Word → Word → Word) : Out State :=
  laneWrite s x false fun i f => ((srcA x f).and (srcB x imm f)).map fun p => (op i f p.1 p.2).setWidth 64

def lane3 (s : State) (x : Form) (imm : Word) (op : Iss → Fibre → Word → Word → Word → Word) : Out State :=
  laneWrite s x false fun i f =>
    ((srcA x f).and ((srcB x imm f).and (srcC x f))).map fun p => (op i f p.1 p.2.1 p.2.2).setWidth 64

/-- Two pair sources with a pair result. -/
def lanePair2 (s : State) (x : Form) (op : Word64 → Word64 → Word64) : Out State :=
  laneWrite s x true fun _ f => ((srcA64 x f).and (srcB64 x (immWord64 x) f)).map fun p => op p.1 p.2

/-- The state after each participant's two predicates are written, E first and D second (R74). -/
def State.predResult (s : State) (i : Iss) (x : Form) (e : Nat) (vs : List (Nat × Bool)) : State :=
  (s.onFibres i vs fun r f => (f.setPred e !r).setPred x.dn r).advance i x.words

/-- A compare: the result to D and its complement to E (R74, R200, R202). -/
def lanePred (s : State) (x : Form) (e : Nat) (rd : Fibre → Chk Bool) : Out State :=
  laneSet s x false fun i ps =>
    match checkAll i ps rd with
    | .error er => .error er
    | .ok vs => .ok (s.predResult i x e vs)

/-! ### Uniform sources -/

/-- What an instruction reads in the uniform registers: B is an immediate where one stands. -/
def uniB (x : Form) (imm : Word) (f : Flock) : Word := if x.hasImm then imm else f.kreg x.bn
def uniB64 (x : Form) (imm : Word64) (f : Flock) : Word64 := if x.hasImm then imm else f.kpair x.bn

/-- The state after a uniform result is written and the batch has moved on. -/
def State.uniResult (s : State) (i : Iss) (x : Form) (wide : Bool) (v : Word64) : State :=
  (s.onFlock i fun f => f.putK x.dn wide v).advance i x.words

/-- A uniform instruction with one register result; it waits for an outstanding ULD of a register it names (R112). -/
def uniWrite (s : State) (x : Form) (roles : Roles) (wide : Bool) (regs : List (Nat × Bool)) (op : Iss → Word64) :
    Out State :=
  uniSet s x roles fun i =>
    match kFree i ((x.dn, wide) :: regs) with
    | .error e => .error e
    | .ok _ => .ok (s.uniResult i x wide (op i))

/-- The uniform registers that A, and B unless an immediate stands, and C name. -/
def regsA (x : Form) : List (Nat × Bool) := [(x.an, false)]
def regsAB (x : Form) : List (Nat × Bool) := if x.hasImm then [(x.an, false)] else [(x.an, false), (x.bn, false)]
def regsABC (x : Form) : List (Nat × Bool) := regsAB x ++ [(x.cn, false)]

def uni1 (s : State) (x : Form) (op : Word → Word) : Out State :=
  uniWrite s x .any false (regsA x) fun i => (op (i.flock.kreg x.an)).setWidth 64

def uni2 (s : State) (x : Form) (op : Word → Word → Word) : Out State :=
  uniWrite s x .any false (regsAB x) fun i => (op (i.flock.kreg x.an) (uniB x (immWord x) i.flock)).setWidth 64

def uni3 (s : State) (x : Form) (op : Word → Word → Word → Word) : Out State :=
  uniWrite s x .any false (regsABC x) fun i =>
    (op (i.flock.kreg x.an) (uniB x (immWord x) i.flock) (i.flock.kreg x.cn)).setWidth 64

/-- The state after the two uniform predicates of a compare are written. -/
def State.uniPredResult (s : State) (i : Iss) (x : Form) (e : Nat) (r : Bool) : State :=
  (s.onFlock i fun f => (f.setQ e !r).setQ x.dn r).advance i x.words

end Sys2Proof.Machine
end

