-- ==== Sys2Proof/Machine/Flags.lean ====
section
/-! DEFINITION. Predicate computations: the comparison and combination of ICMP and UCMP (R74), of the floating compares
(R200, R201), of FCLASS (R202), and the predicate table lookup (R75). -/

namespace Sys2Proof.Machine

/-- COMB: .AND, .OR, .XOR (R74, R200). -/
def combine (comb : Nat) (t c : Bool) : Bool :=
  match comb with
  | 0 => t && c
  | 1 => t || c
  | _ => xor t c

/-- One of the six orders of an ICMP or a floating compare by outcome: .EQ .NE .LT .LE .GT .GE. -/
def orderHolds (cmp : Nat) (o : Ordering) : Bool :=
  match cmp with
  | 0 => o == .eq
  | 1 => o != .eq
  | 2 => o == .lt
  | 3 => o != .gt
  | 4 => o == .gt
  | _ => o != .lt

def orderInt (a b : Int) : Ordering := if a < b then .lt else if a = b then .eq else .gt

/-- The integer value of the low `w` bits, natural when `n` (R66, R74). -/
def readInt (n : Bool) (w v : Nat) : Int := if n then (v % 2 ^ w : Nat) else sextInt v w

/-- The .SAT range of a type of width `w` (R66). -/
def intLo (n : Bool) (w : Nat) : Int := if n then 0 else -(2 ^ (w - 1) : Nat)
def intHi (n : Bool) (w : Nat) : Int := if n then (2 ^ w : Nat) - 1 else (2 ^ (w - 1) : Nat) - 1

/-- compare of R74: TY 0 .I32, 1 .N32, 2 .I64, 3 .N64. -/
def icompare (cmp ty : Nat) (a b : Word64) : Bool :=
  let w := if 2 ≤ ty then 64 else 32
  orderHolds cmp (orderInt (readInt (ty % 2 == 1) w a.toNat) (readInt (ty % 2 == 1) w b.toNat))

/-- The combine predicate: p0, or p[Cx] under EXT, then NEGC (R74). -/
def combPred (x : Form) (p : Nat → Bool) : Bool := (if x.hasExt then p x.cn else true) != x.mb 6

/-- The floating comparison of R201; −0 equals +0. -/
def fcompare (f : Fmt) (cmp a b : Nat) : Bool :=
  let unordered := (decodeF f a).isNan || (decodeF f b).isNan
  match cmp with
  | 6 => !unordered
  | 7 => unordered
  | _ =>
    if cmp < 6 then !unordered && orderHolds cmp (fCmp (decodeF f a) (decodeF f b))
    else unordered || orderHolds (cmp - 8) (fCmp (decodeF f a) (decodeF f b))

/-- The element of a register a compare or a conversion reads: 16-bit element 0 or 1. -/
def half (hi : Bool) (v : Nat) : Nat := if hi then v / 65536 % 65536 else v % 65536

/-- A floating compare of two sources with the modifiers of R200. -/
def fcmpResult (fm : Fmt) (x : Form) (hi : Bool) (a b : Nat) (p : Nat → Bool) : Bool :=
  let pick := fun v => if fm.width = 32 then v else half hi v
  combine (x.mf 19 18)
    (fcompare fm (x.mf 17 14) (modify fm (pick a) (x.mb 7) (x.mb 4)) (modify fm (pick b) (x.mb 8) (x.mb 5)))
    (combPred x p)

/-- FCLASS: is the bit of the mask for the value's class set (R202)? -/
def fclassResult (x : Form) (a : Nat) : Bool :=
  let k := match x.ty with
    | 0 => classOf fp32 a
    | 1 => classOf fp16 (half false a)
    | 2 => classOf fp16 (half true a)
    | 3 => classOf bf16 (half false a)
    | _ => classOf bf16 (half true a)
  bitAt x.immZ k

/-- A truth-table lookup: lut[a + 2·b + 4·c] (R72, R75). -/
def lookup (lut : Nat) (a b c : Bool) : Bool :=
  bitAt lut ((if a then 1 else 0) + (if b then 2 else 0) + (if c then 4 else 0))

end Sys2Proof.Machine
end

