-- ==== Sys2Proof/Machine/Special.lean ====
section
/-! DEFINITION. The bounded functions FRSQ, FEX2, FLG2, FSIN and FCOS (R197, R198): their exact special values, an interval
that holds the exact result, and the implementation's own choice among the FP32 values within the bound (DESIGN CHOICE, log 5). -/

namespace Sys2Proof.Machine

/-- lo·2^ex ≤ exact result ≤ hi·2^ex: an enclosure narrower than the distance of the result from the edge of its bound,
or one that ends at that edge where the result only just lies to one side of it. -/
structure Near where
  lo : Int
  hi : Int
  ex : Int
  deriving DecidableEq, Repr

/-- x ≤ y, for dyadic x and y. -/
def leDy (x y : Int × Int) : Bool := decide ((addDy x (-y.1, y.2)).1 ≤ 0)

/-- Is a dyadic value within k·2^b of every point of the enclosure, the exact result among them (R198)? -/
def Near.reaches (n : Near) (k b : Int) (r : Int × Int) : Bool :=
  leDy (addDy (n.hi, n.ex) (-k, b)) r && leDy r (addDy (n.lo, n.ex) (k, b))

/-- May an FP32 value be returned? An infinity stands for an overflow, which begins at 2^128. -/
def withinBound (n : Near) (k b : Int) (r : Word) : Bool :=
  match decodeF fp32 r.toNat with
  | .fin neg m e => n.reaches k b (sgn neg m, e)
  | .inf neg => n.reaches k b (sgn neg 1, 128)
  | .nan _ => false

/-- The implementation's choice if it is within the bound, else the rounded exact value (DESIGN CHOICE, log 5). -/
def boundedValue (n : Near) (k b : Int) (choice : Word) : Nat :=
  if withinBound n k b choice then choice.toNat
  else (roundF fp32 0 false (.val (decide (n.lo < 0)) n.lo.natAbs n.ex true)).getD 0

/-- The exponent of one ulp at an exact result of magnitude m·2^ex: the spacing of FP32 values there (R198). -/
def ulpExp (m : Nat) (ex : Int) : Int := max (Nat.log2 m + ex - 23) (-149)

/-- The spacing at the exact result: an enclosure that ends at a power of two above the result takes the spacing below
that power. -/
def Near.ulp (n : Near) : Int := ulpExp (min n.lo.natAbs n.hi.natAbs) n.ex

/-! ### FRSQ -/

/-- 1/√(m·2^e): exact where the result is a power of two, else to over 90 bits, closer than it can lie to a sum of an FP32
value and an ulp. -/
def rsqNear (m : Nat) (e : Int) : Near :=
  let m' := if e % 2 = 0 then m else 2 * m
  let e' := if e % 2 = 0 then e else e - 1
  let r := isqrt (2 ^ 220 / m')
  { lo := r, hi := if r * r * m' = 2 ^ 220 then r else r + 2, ex := -(e' / 2) - 110 }

def frsqOf (a : Word) : Option Nat :=
  match decodeF fp32 a.toNat with
  | .nan _ => none
  | .inf neg => if neg then none else some 0
  | .fin neg m e =>
    if m = 0 then some (fp32.signed neg fp32.infBits)
    else if neg then none
    else
      let n := rsqNear m e
      some (boundedValue n 1 n.ulp (Config.frsq a))

/-! ### FEX2 -/

/-- 2^(2^−i)·2^80 for i = 1, 2, …, rounded down. -/
def rootTwos : Nat → Nat → List Nat
  | 0, _ => []
  | n + 1, c => let r := isqrt (c * 2 ^ 80); r :: rootTwos n r

/-- The product of the roots whose bit is set in a 64-bit fraction, most significant bit first. -/
def mulRoots (frac : Nat) : List Nat → Nat → Nat → Nat
  | [], _, acc => acc
  | r :: rs, i, acc => mulRoots frac rs (i - 1) (if bitAt frac i then acc * r / 2 ^ 80 else acc)

/-- 2^x for x from n + frac·2^−64 to n + (frac + 1)·2^−64, x no integer: strictly between 2^n and 2^(n+1). -/
def exp2Near (n : Int) (frac : Nat) : Near :=
  let p := mulRoots frac (rootTwos 64 (2 ^ 81)) 63 (2 ^ 80)
  { lo := max p (2 ^ 80), hi := min (p + 2 ^ 20) (2 ^ 81), ex := n - 80 }

def fex2Of (a : Word) (sat : Bool) : Option Nat :=
  let huge := if sat then fp32.maxBits else fp32.infBits
  match decodeF fp32 a.toNat with
  | .nan _ => none
  | .inf neg => if neg then some 0 else some huge
  | .fin neg m e =>
    if m = 0 then some 0x3F800000
    else
      let v := sgn neg m
      let whole := decide (0 ≤ e) || v % 2 ^ (-e).toNat == 0
      let n := if 0 ≤ e then v * 2 ^ (min e 40).toNat else v / 2 ^ (-e).toNat
      if 128 ≤ n then some huge
      else if whole then (if n < -149 then some 0 else roundF fp32 0 sat (.val false 1 n false))
      else if n < -200 then some (boundedValue { lo := 0, hi := 1, ex := -200 } 2 (-149) (Config.fex2 a))
      else
        let frac := (v * 2 ^ 64 / 2 ^ (-e).toNat - n * 2 ^ 64).toNat
        let w := exp2Near n frac
        let r := boundedValue w 2 w.ulp (Config.fex2 a)
        some (if r = fp32.infBits then huge else r)

/-! ### FLG2 -/

/-- Bits of log2 of y·2^−160 in [1, 2), by repeated squaring. -/
def logBits : Nat → Nat → Nat → Nat
  | 0, _, acc => acc
  | n + 1, y, acc =>
    let z := y * y / 2 ^ 160
    if 2 ^ 161 ≤ z then logBits n (z / 2) (2 * acc + 1) else logBits n z (2 * acc)

/-- log2(m·2^e). -/
def log2Near (m : Nat) (e : Int) : Near :=
  let l := Nat.log2 m
  let s := logBits 70 (m * 2 ^ 160 / 2 ^ l) 0
  let v := ((l : Int) + e) * 2 ^ 72 + s * 4
  { lo := v, hi := v + 8, ex := -72 }

def flg2Of (a : Word) : Option Nat :=
  match decodeF fp32 a.toNat with
  | .nan _ => none
  | .inf neg => if neg then none else some fp32.infBits
  | .fin neg m e =>
    if m = 0 then some (fp32.signed true fp32.infBits)
    else if neg then none
    else if m = 2 ^ Nat.log2 m then
      roundF fp32 0 false (exactInt ((Nat.log2 m : Int) + e))
    else
      let n := log2Near m e
      -- a in [0.5, 2]: absolute error 2^−22; elsewhere 2 ulp
      let inside := (Nat.log2 m : Int) + e == -1 || (Nat.log2 m : Int) + e == 0
      some (if inside then boundedValue n 1 (-22) (Config.flg2 a)
        else boundedValue n 2 n.ulp (Config.flg2 a))

/-! ### FSIN and FCOS -/

/-- π/2·2^360, rounded down. -/
def halfPi : Nat :=
  0x1921fb54442d18469898cc51701b839a252049c1114cf98e804177d4c76273644a29410f31c6809bbdf2a33679a

/-- Σ of a Taylor series in units of 2^−100: `t` the current term, `j` its order, alternating signs. -/
def taylor (x2 : Nat) : Nat → Nat → Nat → Int
  | 0, _, _ => 0
  | n + 1, t, j => (t : Int) - taylor x2 n (t * x2 / 2 ^ 100 / ((j + 1) * (j + 2))) (j + 2)

def sinFrac (x : Nat) : Int := taylor (x * x / 2 ^ 100) 24 x 1
def cosFrac (x : Nat) : Int := taylor (x * x / 2 ^ 100) 24 (2 ^ 100) 0

/-- sin (`q` 0) or cos (`q` 1) of m·2^e: the argument is reduced exactly, by quadrants. -/
def sinNear (q : Nat) (neg : Bool) (m : Nat) (e : Int) : Near :=
  let a := m * 2 ^ (e + 360).toNat
  let k := a / halfPi
  let x := (a % halfPi) / 2 ^ 260
  let quad := (k + q) % 4
  let v := if quad % 2 = 0 then sinFrac x else cosFrac x
  let w := if 2 ≤ quad then -v else v
  -- no result leaves [−1, 1], and 0 < sin a < a in the first quadrant
  let first := k == 0 && q == 0
  let lo := max (w - 2 ^ 20) (if first then 0 else -(2 ^ 100))
  let hi := min (w + 2 ^ 20) (if first then min (x + 1 : Int) (2 ^ 100) else 2 ^ 100)
  let hi := if first && x * 2 ^ 260 == a then min hi x else hi
  if neg && q == 0 then { lo := -hi, hi := -lo, ex := -100 } else { lo := lo, hi := hi, ex := -100 }

def fsinOf (a : Word) : Option Nat :=
  match decodeF fp32 a.toNat with
  | .fin neg m e =>
    if m = 0 then some a.toNat else some (boundedValue (sinNear 0 neg m e) 1 (-22) (Config.fsin a))
  | _ => none

def fcosOf (a : Word) : Option Nat :=
  match decodeF fp32 a.toNat with
  | .fin neg m e =>
    if m = 0 then some 0x3F800000 else some (boundedValue (sinNear 1 neg m e) 1 (-22) (Config.fcos a))
  | _ => none

/-- A bounded function as R196 evaluates it: a NaN quieted, the special or bounded value, or the generated NaN of an
invalid operation. -/
def evalBounded (lane pc a : Nat) (r : Option Nat) : Nat :=
  match firstNan fp32 [a] with
  | some n => n
  | none => r.getD (genNan fp32 true lane pc)

end Sys2Proof.Machine
end

