-- ==== Sys2Proof/Machine/FloatOps.lean ====
section
/-! DEFINITION. Floating-point arithmetic, packed arithmetic and conversions of the lane and the uniform set (R194-R209). -/

namespace Sys2Proof.Machine

/-! ### FP32 arithmetic (R195-R198) -/

/-- Sources with the modifiers that MOD sets for them (R195). -/
def modA (f : Fmt) (x : Form) (v : Nat) : Nat := modify f v (x.mb 7) (x.mb 4)
def modB (f : Fmt) (x : Form) (v : Nat) : Nat := modify f v (x.mb 8) (x.mb 5)
def modC (f : Fmt) (x : Form) (v : Nat) : Nat := modify f v (x.mb 9) (x.mb 6)

/-- One element of an instruction: rounding mode, .SAT, the lane and PC of a generated NaN, and the sources. -/
abbrev ElOp1 := Nat → Bool → Nat → Nat → Nat → Nat
abbrev ElOp2 := Nat → Bool → Nat → Nat → Nat → Nat → Nat
abbrev ElOp3 := Nat → Bool → Nat → Nat → Nat → Nat → Nat → Nat

def float1 (s : State) (x : Form) (op : ElOp1) : Out State :=
  lane1 s x fun i f a => BitVec.ofNat 32 (op x.rm x.sat f.lane i.batch.pc (modA fp32 x a.toNat))

def float2 (s : State) (x : Form) (op : ElOp2) : Out State :=
  lane2 s x (immFloat x) fun i f a b =>
    BitVec.ofNat 32 (op x.rm x.sat f.lane i.batch.pc (modA fp32 x a.toNat) (modB fp32 x b.toNat))

def float3 (s : State) (x : Form) (op : ElOp3) : Out State :=
  lane3 s x (immFloat x) fun i f a b c =>
    BitVec.ofNat 32 (op x.rm x.sat f.lane i.batch.pc (modA fp32 x a.toNat) (modB fp32 x b.toNat) (modC fp32 x c.toNat))

def execFadd (x : Form) (s : State) : Out State := float2 s x (opAdd fp32)
def execFsub (x : Form) (s : State) : Out State := float2 s x (opSub fp32)
def execFmul (x : Form) (s : State) : Out State := float2 s x (opMul fp32)
def execFfma (x : Form) (s : State) : Out State := float3 s x (opFma fp32)
def execFmin (x : Form) (s : State) : Out State := float2 s x fun _ _ _ _ => opMin fp32
def execFmax (x : Form) (s : State) : Out State := float2 s x fun _ _ _ _ => opMax fp32
def execFdiv (x : Form) (s : State) : Out State := float2 s x (opDiv fp32)
def execFsqrt (x : Form) (s : State) : Out State := float1 s x (opSqrt fp32)
def execFrcp (x : Form) (s : State) : Out State := float1 s x (opRcp fp32)
def execFrsq (x : Form) (s : State) : Out State :=
  float1 s x fun _ _ lane pc a => evalBounded lane pc a (frsqOf (BitVec.ofNat 32 a))
def execFex2 (x : Form) (s : State) : Out State :=
  float1 s x fun _ sat lane pc a => evalBounded lane pc a (fex2Of (BitVec.ofNat 32 a) sat)
def execFlg2 (x : Form) (s : State) : Out State :=
  float1 s x fun _ _ lane pc a => evalBounded lane pc a (flg2Of (BitVec.ofNat 32 a))
def execFsin (x : Form) (s : State) : Out State :=
  float1 s x fun _ _ lane pc a => evalBounded lane pc a (fsinOf (BitVec.ofNat 32 a))
def execFcos (x : Form) (s : State) : Out State :=
  float1 s x fun _ _ lane pc a => evalBounded lane pc a (fcosOf (BitVec.ofNat 32 a))
def execFrnd (x : Form) (s : State) : Out State := float1 s x fun rm _ _ _ a => opRnd fp32 rm a

/-- FSCALE: b is an I32, an immediate sign-extended (R197). -/
def execFscale (x : Form) (s : State) : Out State :=
  lane2 s x (immWord x) fun i f a b =>
    BitVec.ofNat 32 (opScale fp32 x.rm x.sat f.lane i.batch.pc (modA fp32 x a.toNat) b.toInt)

def execFcpys (x : Form) (s : State) : Out State :=
  lane2 s x 0 fun _ _ a b => BitVec.ofNat 32 (copySign fp32 a.toNat b.toNat)

/-! ### Packed 16-bit arithmetic (R199) -/

/-- Both elements of a packed result. -/
def pack2 (lo hi : Nat) : Word := BitVec.ofNat 32 (lo % 65536 + hi % 65536 * 65536)

def packed2 (s : State) (x : Form) (f : Fmt) (op : ElOp2) : Out State :=
  lane2 s x (immHalf x) fun i fb a b =>
    let el := fun hi => op x.rm x.sat fb.lane i.batch.pc (modA f x (half hi a.toNat)) (modB f x (half hi b.toNat))
    pack2 (el false) (el true)

def packed3 (s : State) (x : Form) (f : Fmt) (op : ElOp3) : Out State :=
  lane3 s x (immHalf x) fun i fb a b c =>
    let el := fun hi => op x.rm x.sat fb.lane i.batch.pc (modA f x (half hi a.toNat)) (modB f x (half hi b.toNat))
      (modC f x (half hi c.toNat))
    pack2 (el false) (el true)

def execHadd2 (x : Form) (s : State) : Out State := packed2 s x fp16 (opAdd fp16)
def execHmul2 (x : Form) (s : State) : Out State := packed2 s x fp16 (opMul fp16)
def execHfma2 (x : Form) (s : State) : Out State := packed3 s x fp16 (opFma fp16)
def execHmin2 (x : Form) (s : State) : Out State := packed2 s x fp16 fun _ _ _ _ => opMin fp16
def execHmax2 (x : Form) (s : State) : Out State := packed2 s x fp16 fun _ _ _ _ => opMax fp16
def execBadd2 (x : Form) (s : State) : Out State := packed2 s x bf16 (opAdd bf16)
def execBmul2 (x : Form) (s : State) : Out State := packed2 s x bf16 (opMul bf16)
def execBfma2 (x : Form) (s : State) : Out State := packed3 s x bf16 (opFma bf16)

/-! ### Conversions (R203-R207) -/

/-- The format of a floating type code. -/
def fmtOf : Nat → Fmt
  | 0 => fp32 | 1 => fp16 | 2 => bf16 | 3 => e4m3 | _ => e5m2

/-- Is an integer type code natural? -/
def cvtNat (t : Nat) : Bool := t == 6 || t == 8 || t == 10 || t == 12

/-- A floating value rounded to an integral value and clamped to an integer type (R204). -/
def floatToInt (f : Fmt) (rm : Nat) (n : Bool) (w a : Nat) : Int :=
  match decodeF f a with
  | .nan _ => 0
  | .inf neg => if neg then intLo n w else intHi n w
  | .fin neg m e => clampInt (sgn neg (roundToInt rm neg m e)) (intLo n w) (intHi n w)

/-- The bits of a destination type extended to a register or a pair: floating and N types with zeros, I types with the
sign (R203). -/
def cvtExtend (t v : Nat) : Word64 :=
  let w := cvtWidth t
  if cvtIsFloat t || cvtNat t || w = 64 then BitVec.ofNat 64 (v % 2 ^ w) else
    if w = 32 then BitVec.ofNat 64 (v % 2 ^ 32) else (BitVec.ofInt 32 (sextInt v w)).setWidth 64

/-- CVT of a source register or pair (R203, R204). -/
def cvtResult (x : Form) (a : Word64) : Word64 :=
  let dt := x.mf 21 18
  let st := x.mf 17 14
  let sw := cvtWidth st
  let raw := a.toNat / 2 ^ (sw * x.mf 11 10) % 2 ^ sw
  let dw := cvtWidth dt
  let v : Nat :=
    if cvtIsFloat st then
      let src := modA (fmtOf st) x raw
      if dt = st then (if (decodeF (fmtOf st) src).isNan then quiet (fmtOf st) src else src)
      else if cvtIsFloat dt then convF (fmtOf st) (fmtOf dt) x.rm x.sat src
      else wrapInt (floatToInt (fmtOf st) x.rm (cvtNat dt) dw src) dw
    else
      let n := readInt (cvtNat st) sw raw
      if cvtIsFloat dt then (roundF (fmtOf dt) x.rm x.sat (exactInt n)).getD 0
      else wrapInt (if x.sat then
        clampInt n (intLo (cvtNat dt) dw) (intHi (cvtNat dt) dw) else n) dw
  cvtExtend dt v

def execCvt (x : Form) (s : State) : Out State :=
  laneWrite s x (cvtWidth (x.mf 21 18) == 64) fun _ f =>
    (readWide f x.an (cvtWidth (x.mf 17 14) == 64) x.ea).map (cvtResult x)

/-- Pack: FP32 words to a 16- or 8-bit format, lowest element first (R205). -/
def cvtPack (x : Form) (a b : Word64) : Word :=
  let f := fmtOf (x.mf 17 14)
  let ca := fun v => convF fp32 f x.rm x.sat (modA fp32 x v)
  let cb := fun v => convF fp32 f x.rm x.sat (modB fp32 x v)
  if f.width = 16 then pack2 (ca (lo32 a).toNat) (cb (lo32 b).toNat)
  else BitVec.ofNat 32 (ca (lo32 a).toNat + ca (hi32 a).toNat * 2 ^ 8 + cb (lo32 b).toNat * 2 ^ 16
    + cb (hi32 b).toNat * 2 ^ 24)

/-- Unpack: the elements of a word as FP32 values (R205). -/
def cvtUnpack (x : Form) (a : Word) : List Word :=
  let f := fmtOf (x.mf 17 14)
  (List.range (32 / f.width)).map fun n =>
    BitVec.ofNat 32 (convF f fp32 0 false (a.toNat / 2 ^ (f.width * n) % 2 ^ f.width))

/-- Write consecutive registers. -/
def Fibre.putList (f : Fibre) (n : Nat) : List Word → Fibre
  | [] => f
  | w :: ws => (f.markFull n w).putList (n + 1) ws

/-- Destination checks of consecutive registers. -/
def destList (f : Fibre) (n : Nat) : Nat → Chk Unit
  | 0 => .ok ()
  | k + 1 => ((destOk f n).and (destList f (n + 1) k)).map fun _ => ()

def execCvtp (x : Form) (s : State) : Out State :=
  let narrow := decide (3 ≤ x.mf 17 14)
  if x.mb 18 then
    laneSet s x false fun i ps =>
      match checkAll i ps fun f => (srcA x f).and (destList f x.dn (if narrow then 4 else 2)) with
      | .error e => .error e
      | .ok vs => .ok ((s.onFibres i vs fun v f => f.putList x.dn (cvtUnpack x v.1)).advance i x.words)
  else
    laneWrite s x false fun _ f =>
      ((readWide f x.an narrow x.ea).and (readWide f x.bn narrow x.eb)).map fun p => (cvtPack x p.1 p.2).setWidth 64

/-- CVTX: element × scale with one rounding; the NaN order is the element, then the scale (R207). -/
def cvtxResult (x : Form) (lane pc : Nat) (a b : Word) : Word :=
  let f := fmtOf (x.mf 17 14)
  let el := a.toNat / 2 ^ (f.width * x.mf 11 10) % 2 ^ f.width
  let sc := modB fp32 x b.toNat
  BitVec.ofNat 32 (match decodeF f el with
    | .nan n => convNan f fp32 n
    | v => evalF fp32 x.rm x.sat lane pc [sc] (fMul v (decodeF fp32 sc)))

def execCvtx (x : Form) (s : State) : Out State :=
  lane2 s x (immFloat x) fun i f => cvtxResult x f.lane i.batch.pc

/-! ### Register producers (R43) -/

/-- Mark destinations empty and start a producer for each lane: value, poison, and the pod request it awaits. -/
def State.produce (s : State) (i : Iss) (x : Form) (wide : Bool) (vs : List (Nat × Word64 × Bool × ProdSrc)) : State :=
  (s.onFibres i vs fun _ f => f.empty x.dn wide).onCrew i fun k =>
    { k with
      prods := k.prods ++ vs.map fun v =>
        { flock := i.flock.num, dest := .lane v.1 x.dn wide, val := v.2.1, poison := v.2.2.1, pc := i.batch.pc,
          src := v.2.2.2, born := s.clock } }

/-- Producers whose values are known at issue. -/
def ready (vs : List (Nat × Word64)) : List (Nat × Word64 × Bool × ProdSrc) := vs.map fun v => (v.1, v.2, false, .unit)

/-! ### CVTQ (R206) -/

/-- The finite magnitude of an FP32 value as a dyadic number. -/
def finMag (a : Word) : Option (Nat × Int) :=
  match decodeF fp32 a.toNat with
  | .fin _ m e => some (m, e)
  | _ => none

/-- The largest of some magnitudes; 0 of none. -/
def maxMag : List (Nat × Int) → Nat × Int
  | [] => (0, 0)
  | a :: r => let b := maxMag r; if (addDy (a.1, a.2) (-(b.1 : Int), b.2)).1 < 0 then b else a

/-- The shared scale of a segment: 1.0 where no finite value is nonzero, else max/M rounded up. -/
def cvtqScale (f : Fmt) (vals : List Word) : Nat :=
  let m := maxMag (vals.filterMap finMag)
  if m.1 = 0 then 0x3F800000
  else
    let q := quot m.1 m.2 f.mMax f.qMax 28
    (roundF fp32 3 false (.val false q.1 q.2.1 q.2.2)).getD 0

/-- A value quantised by a scale: rounded to nearest, ties to even, then saturated. -/
def cvtqValue (f : Fmt) (a : Word) (sc : Nat) : Nat :=
  match decodeF fp32 a.toNat with
  | .nan n => convNan fp32 f n
  | v => (roundF f 0 true (fDiv v (decodeF fp32 sc))).getD 0

def execCvtq (x : Form) (s : State) : Out State :=
  laneSet s x false fun i ps =>
    match checkAll i ps fun f => (srcA x f).and (destWide f x.dn true) with
    | .error e => .error e
    | .ok vs =>
      let fm := fmtOf (x.mf 17 14)
      let w := 32 / 2 ^ x.mf 12 10
      .ok ((s.produce i x true (ready (vs.map fun v =>
        let sc := cvtqScale fm ((vs.filter fun g => g.1 / w == v.1 / w).map (·.2.1))
        (v.1, join64 (BitVec.ofNat 32 (cvtqValue fm v.2.1 sc)) (BitVec.ofNat 32 sc))))).advance i x.words)

/-! ### Uniform floating instructions (R208) -/

/-- The lane a uniform instruction's generated NaN carries. -/
def Iss.leadLane (i : Iss) : Nat := (i.lead.map (·.lane)).getD 0

def ufloat2 (s : State) (x : Form) (op : ElOp2) : Out State :=
  uniWrite s x .vector false (regsAB x) fun i =>
    BitVec.ofNat 64 (op x.rm x.sat i.leadLane i.batch.pc (modA fp32 x (i.flock.kreg x.an).toNat)
      (modB fp32 x (uniB x (immFloat x) i.flock).toNat))

def execUfadd (x : Form) (s : State) : Out State := ufloat2 s x (opAdd fp32)
def execUfmul (x : Form) (s : State) : Out State := ufloat2 s x (opMul fp32)

def execUffma (x : Form) (s : State) : Out State :=
  uniWrite s x .vector false (regsABC x) fun i =>
    BitVec.ofNat 64 (opFma fp32 x.rm x.sat i.leadLane i.batch.pc (modA fp32 x (i.flock.kreg x.an).toNat)
      (modB fp32 x (uniB x (immFloat x) i.flock).toNat) (modC fp32 x (i.flock.kreg x.cn).toNat))

def execUcvt (x : Form) (s : State) : Out State :=
  let wide := cvtWidth (x.mf 17 14) == 64
  uniWrite s x .vector (cvtWidth (x.mf 21 18) == 64) [(x.an, wide)] fun i =>
    cvtResult x (if wide then i.flock.kpair x.an else (i.flock.kreg x.an).setWidth 64)

end Sys2Proof.Machine
end

