-- ==== Sys2Proof/Machine/Pod.lean ====
section
/-! DEFINITION. Atomic operations on a word (R138), and the pod network: routes, combining, the pod homes and the replies
(R101, R143-R149). -/

namespace Sys2Proof.Machine

/-! ### Atomic operations (R138) -/

/-- The new value of a word of `n` bytes that held `y`, for an operand `e`; `lane` and `pc` name a generated NaN. -/
def rmwValue (aop n lane pc y e : Nat) : Nat :=
  let w := 8 * n
  match aop with
  | 0 => (y + e) % 2 ^ w
  | 1 => y &&& e
  | 2 => y ||| e
  | 3 => y ^^^ e
  | 4 => if sextInt y w < sextInt e w then e else y
  | 5 => if sextInt e w < sextInt y w then e else y
  | 6 => max y e
  | 7 => min y e
  | 8 => e
  | _ => opAdd fp32 0 false lane pc y e

/-- Compare and swap: `c` if the word equals `b`. -/
def casValue (y b c : Nat) : Nat := if y = b then c else y

/-! ### Routes (R143) -/

/-- The digits dF, d1, d2, d3, d4, dL of a home number. -/
def homeDigits (h : Nat) : List Nat :=
  [h / 786432 % 16, h / 49152 % 16, h / 3072 % 16, h / 192 % 16, h / 16 % 12, h % 16]

/-- The output port a request for an IA leaves a stage by; the switch of a middle stage is named by the digits before it
(PRESUMED, log 15). -/
def State.podPort (s : State) (ia stage : Nat) : Port :=
  let ds := homeDigits (podHome ia s.npkg)
  let serving := s.podServing ia % 16
  if s.npkg ≤ 1 then { stage := stage, sw := s.pkg, port := serving }
  else if stage = 0 then { stage := 0, sw := s.pkg, port := ds.getD 0 0 }
  else if stage = 5 then { stage := 5, sw := podHome ia s.npkg / 16, port := serving }
  else { stage := stage, sw := (ds.take stage).foldl (fun n d => n * 16 + d) 0, port := ds.getD stage 0 }

/-- The stages a request crosses after one, none where it reaches its pod home. -/
def State.nextStage (s : State) (stage : Nat) : Option Nat :=
  if stage = 5 then none else if s.npkg ≤ 1 then some 5 else some (stage + 1)

/-- The stage a reply passes after one, none where it reaches its fibre. -/
def State.prevStage (s : State) (stage : Nat) : Option Nat :=
  if stage = 0 then none else if s.npkg ≤ 1 then some 0 else some (stage - 1)

/-! ### Pod homes -/

/-- The PA that serves a POD line at this package, none where another package is its home. -/
def State.podPa (s : State) (part ia : Nat) : Option Nat :=
  if s.podRemote ia then none else ((s.ctx? part).bind fun c => s.leaf? c ia).map fun e => leafPa e.1 e.2 ia

/-- Where a remote package's pod memory lists an IA of a partition (DESIGN CHOICE, log 10). -/
def podKey (part ia : Nat) : Nat := part * 2 ^ 52 + ia

def State.podVal (s : State) (part ia n : Nat) : Nat :=
  match s.podPa part ia with
  | some pa => s.committedVal part pa n
  | none => leVal (s.podMem.read (podKey part ia) n)

/-- Where a POD line is homed in this package (R144). -/
def State.podSite (s : State) (part ia : Nat) : Site := { part := part, slice := s.podSlice ia, pin := false }

/-- A write at P(x); a fetch may still give a word's old value (R61). -/
def State.podWrite (s0 : State) (part ia n v : Nat) : State :=
  let s := s0.noteOld part (podWord 0) ia n fun a => s0.podVal part a 4
  match s.podPa part ia with
  | some pa => s.commitBytes (s.podSite part ia) pa (leBytes n v)
  | none => { s with podMem := s.podMem.write (podKey part ia) (leBytes n v) }

/-- A word's poison; whether a remote home's sector is poisoned is that package's, and free (DESIGN CHOICE, log 10). -/
def State.podPoison (s : State) (part ia n : Nat) : Bool :=
  match s.podPa part ia with
  | some pa => s.rangeBad pa n
  | none => Config.freeBool s.fresh (2 ^ 60 + podKey part ia)

/-- Does the batch that sent a request wait for its reply (an ATOM or CAS, not a RED, R141)? -/
def State.waitsReply (s : State) (core slot flock lane tag : Nat) : Bool :=
  match ((s.crew? core slot).bind fun k => k.flock? flock).bind fun f => f.batchAt? lane with
  | some b => (match b.wait with
    | .atomic w => b.tag == tag && w.kind != .red
    | _ => false)
  | none => false

/-- A RED, which nothing waits for. -/
def State.isRed (s : State) (r : PodReq) : Bool :=
  match r.op with
  | .rmw _ => !s.waitsReply r.core r.slot r.flock r.lane r.tag
  | _ => false

/-- The requests that a request stands for besides itself: those absorbed into it, and into them (R147). -/
def State.members (s : State) : Nat → Nat → List PodReq
  | 0, _ => []
  | n + 1, id => (s.wbs.filter fun w => w.y == id).flatMap fun w => w.req :: s.members n w.req.id

/-- The requests among a request and its members that nothing waits for a value of. -/
def State.dropped (s : State) (r : PodReq) (stores : Bool) : List PodReq :=
  (r :: s.members s.wbs.length r.id).filter fun q => s.isRed q || (stores && q.op == .store)

/-- A dropped request logged where its word stands (R141). -/
def State.logDropped (s : State) (q : PodReq) : State :=
  match s.podPa q.part q.ia with
  | some pa => s.logError 4 pa q.ia
  | none => s.logAccess 4 q.part q.ia

/-- The members of a request that meets poison: each RED is dropped and logged (R141). -/
def State.logReds (s : State) (r : PodReq) : State := (s.dropped r false).foldl State.logDropped s

/-- A request applied at P(x): the state, the reply and whether it is poisoned; one that changes a word of a poisoned sector does not
(R136, R138, R141). -/
def State.applyPod (s : State) (r : PodReq) : State × Nat × Bool :=
  let y := s.podVal r.part r.ia r.size
  let bad := s.podPoison r.part r.ia r.size
  match r.op with
  | .load => (s, y, bad)
  | .store => (s.podWrite r.part r.ia r.size r.e.toNat, 0, false)
  | .rmw aop => if bad then (s.logReds r, y, true) else
      (s.podWrite r.part r.ia r.size (rmwValue aop r.size r.lane r.pc y r.e.toNat), y, false)
  | .cas c => if bad then (s, y, true) else (s.podWrite r.part r.ia r.size (casValue y r.e.toNat c.toNat), y, false)

/-! ### Sending: E16 -/

/-- Two accesses share a byte. -/
def sharesByte (a n b m : Nat) : Bool := decide (a < b + m) && decide (b < a + n)

/-- Has a fibre an earlier pod access to the word without a reply (E16)? -/
def State.podWaits (s : State) (core fib ia size : Nat) : Bool :=
  s.podOut.any fun r => r.core == core && r.fib == fib && sharesByte r.ia r.size ia size

/-- The input of stage F on which a core's requests enter (R19). -/
def stageInput (core : Nat) : Nat := 2 * (core / 64) + core / 8 % 8 / 4

/-- A request enters stage F. -/
def State.podSend (s : State) (r : PodReq) : State :=
  let q := { r with at_ := s.podPort r.ia 0, inp := stageInput r.core, came := s.clock }
  { s with arrive := s.arrive ++ [q], podOut := s.podOut ++ [q] }

/-! ### Combining: E17 (R146, R147) -/

def PodReq.sameWord (a b : PodReq) : Bool := a.part == b.part && a.ia == b.ia && a.size == b.size
def PodReq.touches (a b : PodReq) : Bool := a.part == b.part && sharesByte a.ia a.size b.ia b.size

/-- A combinable pair of operations. -/
def PodOp.combines : PodOp → PodOp → Bool
  | .load, .load => true
  | .store, .store => true
  | .rmw a, .rmw b => a == b && a != 9
  | _, _ => false

/-- y's operand after absorbing e, and the reply to e when the reply to y is `r` (R147). -/
def absorbedOperand (y e : PodReq) : Word64 :=
  match y.op with
  | .rmw aop => BitVec.ofNat 64 (rmwValue aop y.size 0 0 y.e.toNat e.e.toNat)
  | .store => e.e
  | _ => y.e
def splitReply (op : PodOp) (size r ay : Nat) : Nat :=
  match op with
  | .rmw aop => rmwValue aop size 0 0 r ay
  | _ => r

/-- E17 at the port a request has reached: absorbed into the youngest entry that touches its word, or appended. -/
def State.absorb (s : State) (e : PodReq) : State :=
  match (s.reqs.filter fun y => y.at_ == e.at_ && y.touches e).getLast? with
  | some y =>
    if y.sameWord e && y.op.combines e.op && decide ((s.wbs.filter fun w => w.port == e.at_).length < 256) then
      { s with
        wbs := s.wbs ++ [{ port := e.at_, y := y.id, req := e, ay := y.e }]
        reqs := updFirst (fun z => z.id == y.id) (fun z => { z with e := absorbedOperand y e }) s.reqs }
    else { s with reqs := s.reqs ++ [e] }
  | none => { s with reqs := s.reqs ++ [e] }

/-- Does a request that stands at a place of the list go before another at its port: by cycle of arrival, then by input, then in order
(R143)? -/
def PodReq.before (a b : PodReq) (first : Bool) : Bool :=
  decide (a.came < b.came) || (a.came == b.came && (decide (a.inp < b.inp) || (a.inp == b.inp && first)))

/-- ABSORB_OR_APPEND: the `idx`-th request that stands at a port, in the cycle after its arrival, when every request of that cycle
has arrived; requests at one port are taken in the order of R143. -/
def State.absorbStep (s : State) (idx : Nat) : Option State :=
  match s.arrive[idx]? with
  | none => none
  | some e =>
    if e.came == s.clock || s.arrive.zipIdx.any fun a => a.1.at_ == e.at_ && a.2 != idx && a.1.before e (decide (a.2 < idx)) then none
    else some ({ s with arrive := removeAt s.arrive idx }.absorb e)

/-- E18: the head of a port's output queue moves on, or is applied at its pod home. The input of a later stage is the output of the one
before it (R143; PRESUMED between middle stages, log 15). -/
def State.transmitStep (s : State) (p : Port) : Option State :=
  match s.reqs.find? fun r => r.at_ == p with
  | none => none
  | some r =>
    let s1 := { s with reqs := dropFirst (fun z => z.id == r.id) s.reqs }
    match s.nextStage p.stage with
    | some n => some { s1 with arrive := s1.arrive ++ [{ r with at_ := s.podPort r.ia n, inp := r.at_.port, came := s.clock }] }
    | none =>
      let a := s1.applyPod r
      some { a.1 with replies := a.1.replies ++ [{ req := r, val := BitVec.ofNat 64 a.2.1, poison := a.2.2, stage := 5 }] }

/-- A little-endian value of `n` bytes as a load delivers it: sign- or zero-extended to a register or pair (R109). -/
def extendLoad (n : Nat) (sx : Bool) (v : Nat) : Word64 :=
  if sx then (BitVec.ofInt 32 (sextInt v (8 * n))).setWidth 64 else BitVec.ofNat 64 (v % 2 ^ (8 * n))

/-- A reply reaches its fibre: its producer, or the irrevocable instruction that waits for it. -/
def State.deliver (s : State) (r : PodReply) : State :=
  let s1 := { s with podOut := s.podOut.filter fun q => q.id != r.req.id }
  match r.req.op with
  | .store => s1
  | .load =>
    s1.updCrew r.req.core r.req.slot fun k =>
      { k with
        prods := updFirst (fun p => p.src == .pod r.req.id)
          (fun p => { p with val := extendLoad r.req.size r.req.sx r.val.toNat, poison := r.poison, src := .unit }) k.prods }
  | _ =>
    s1.updFlock r.req.core r.req.slot r.req.flock fun f => f.updBatch r.req.lane fun b => match b.wait with
      | .atomic w =>
        if b.tag != r.req.tag then b else { b with wait := .atomic { w with
            replies := w.replies ++ [{ lane := r.req.lane, val := r.val, status := false, poison := r.poison,
                                       refused := false }] } }
      | _ => b

/-- E19: a reply passes a switch, is split for the requests absorbed there, and moves on. -/
def State.replyStep (s : State) (idx : Nat) : Option State :=
  match s.replies[idx]? with
  | none => none
  | some r =>
    let port := s.podPort r.req.ia r.stage
    let mine := s.wbs.filter fun w => w.port == port && w.y == r.req.id
    let split := mine.map fun w =>
      { r with req := w.req, val := BitVec.ofNat 64 (splitReply w.req.op w.req.size r.val.toNat w.ay.toNat) }
    let s1 := { s with
      replies := removeAt s.replies idx
      wbs := s.wbs.filter fun w => !(w.port == port && w.y == r.req.id) }
    some (match s.prevStage r.stage with
      | some n => { s1 with replies := s1.replies ++ (r :: split).map fun x => { x with stage := n } }
      | none => (r :: split).foldl State.deliver s1)

end Sys2Proof.Machine
end

