-- ==== Sys2Proof/Machine/Access.lean ====
section
/-! DEFINITION. How a fibre's access reaches memory by class, scope, order and hint (R105-R112, R118, R136): the steps of
a load and of a store for one lane, and the frames of the instructions that make several of them. -/

namespace Sys2Proof.Machine

/-! ### Addresses -/

/-- The address of an access of `size` bytes: bits [56:0] of the pair plus OFF × size, modulo 2^57 (R105, R109). -/
def memVa (x : Form) (size : Nat) (v : Word64) : Nat := wrapInt ((v.toNat % 2 ^ 57 : Nat) + x.off * size) 57

/-- Alignment and translation of an address (R109, step 1). -/
def checkVa (s : State) (i : Iss) (a : Access) (size va : Nat) : Chk Loc :=
  if va % size ≠ 0 then .trap .alignment va else Chk.ofExcept va (s.translate i.crew.part i.crew.level a va)

/-- A range of another class than DEV, which competes with what the translation of its address meets (R9, R163, R279). -/
def devRange (s : State) (i : Iss) (va : Nat) : Chk Unit :=
  Chk.guard (match (s.ctx? i.crew.part).bind fun c => c.findRange (va % 2 ^ 57) 0 16 with
    | some p => Class.ofCode p.2.cls == .dev
    | none => true) .rangeMiss va

/-- A lane's address pair as a checked location. -/
def srcLoc (s : State) (i : Iss) (x : Form) (a : Access) (f : Fibre) : Chk Loc :=
  (srcA64 x f).bind fun v => checkVa s i a x.size (memVa x x.size v)

/-- The effective scope: an ordered access to POD below POD is performed at POD (R106). -/
def effScope (l : Loc) (sc : Scope) : Scope :=
  match l.cls, sc with
  | .pod, .none => .none
  | .pod, .sys => .sys
  | .pod, _ => .pod
  | _, sc => sc

/-- POD and SYS, whose releases wait as R97 gives; and the scopes that E3 serves (R111). -/
def podScope : Scope → Bool
  | .pod | .sys => true
  | _ => false

def coreScope : Scope → Bool
  | .none | .core => true
  | _ => false

/-- Does the access close the interval first (R106)? -/
def Loc.closes (l : Loc) (store : Bool) : Bool :=
  match l.cls with
  | .hostw | .host | .pool => true
  | .pod => store
  | _ => false

/-! ### Hints (R118) -/

/-- The home slice's marks after an access with a hint: `filled` when the line was not held before (R118). -/
def State.hintLine (s : State) (h : Hint) (part l : Nat) (filled : Bool) : State :=
  match h with
  | .evictFirst => if filled then s.updHome part l fun x => { x with evictFirst := true } else s
  | .evictLast => s.updHome part l fun x => { x with evictLast := true }
  | _ => s

/-! ### One lane's load -/

/-- A load of a line held in L1 and slices: the state, the bytes and their poison; none where the step is not enabled (E3, E8, R111). A
plain load at HERD scope or above refills the core's copy of the line in its step. An acquire there drops the core's copies separately,
after every lane has read. -/
def State.loadLine (s : State) (r : Reader) (w : Option PoolWriter) (l : Loc) (n : Nat) (m : MemC) : Option (State × List Byte × Bool) :=
  let ln := lineOf l.pa
  let filled := (s.homeLine? l.part ln).isNone
  if coreScope m.scope then
    (s.readyE3 r w l n (m.hint == .noAllocate)).map fun p => (p.1.hintLine m.hint l.part ln filled, p.2)
  else
    match s.readyE8 r w l.pa n with
    | none => none
    | some (bs, bad, false) => some (s, bs, bad)
    | some (bs, bad, true) =>
      let s1 := ((s.touch (s.site l) ln).fillSector (s.site l) (sectorOf l.pa)).hintLine m.hint l.part ln filled
      if m.ord == .plain && (s1.copy? r.core r.part ln).isSome then
        (if s.owned l.part ln then none else some (s1.fillL1 r l, bs, bad))
      else some (s1, bs, bad)

/-- What one lane's load gives: bytes and poison, or a pod request. -/
inductive Loaded where
  | bytes (bs : List Byte) (bad : Bool)
  | sent (id : Nat)
  deriving DecidableEq, Repr

/-- A pod request of a lane. -/
def podReq (s : State) (i : Iss) (f : Fibre) (l : Loc) (n : Nat) (sx : Bool) (op : PodOp) (e : Word64) : PodReq :=
  { id := s.nextTag, part := i.crew.part, ia := l.ia, size := n, sx := sx, op := op, e := e, core := i.ref.core,
    slot := i.ref.slot, flock := i.flock.num, lane := f.lane, fib := f.num, tag := i.batch.tag,
    pc := i.batch.pc, at_ := { stage := 0, sw := 0, port := 0 }, born := s.clock }

/-- One lane's load at its class (R106, R111). -/
def State.loadOne (s : State) (i : Iss) (f : Fibre) (l : Loc) (n : Nat) (sx : Bool) (m : MemC) :
    Option (State × Loaded) :=
  match l.cls with
  | .hostw => some (s, .bytes (s.hw.read l.pa n) (s.hwBad.contains (sectorOf l.pa)))
  | .pod =>
    if s.podWaits i.ref.core f.num l.ia n then none
    else some ({ s.podSend (podReq s i f l n sx .load 0) with nextTag := s.nextTag + 1 }, .sent s.nextTag)
  | _ =>
    let s0 := s.cacheLeaf i.crew.part l
    let key := if l.cls == .pool then s.poolKey i.crew.part l.range else 0
    let w := if l.cls == .pool then i.crew.writing key else none
    match (if l.cls == .pool then i.crew.snap? key else none) with
    | some p => some (s0, .bytes (p.mem.read l.pa n) (s.rangeBad l.pa n))
    | none =>
      if l.home == 3 then
        (s0.readM (i.reader f) w l.pa n).map fun bs => (s0.activate l.part (sectorOf l.pa), .bytes bs (s.rangeBad l.pa n))
      else
        (s0.loadLine (i.reader f) w l n m).map fun p => (p.1, .bytes p.2.1 p.2.2)

/-- The loads of several lanes in ascending order; none where one of them is not enabled. -/
def State.loadAll (s : State) (i : Iss) (n : Nat) (sx : Bool) (m : MemC) :
    List (Fibre × Loc) → Option (State × List (Nat × Word64 × Bool × ProdSrc))
  | [] => some (s, [])
  | (f, l) :: r =>
    match s.loadOne i f l n sx m with
    | none => none
    | some (s1, v) =>
      match State.loadAll s1 i n sx m r with
      | none => none
      | some (s2, vs) =>
        let p := match v with
          | .bytes bs bad => (f.lane, extendLoad n sx (leVal bs), bad, ProdSrc.mem l.pa)
          | .sent id => (f.lane, 0, false, ProdSrc.pod id)
        some (s2, p :: vs)

/-! ### Acquires (E8, E9) -/

/-- Do the conditions of E4 hold for the `idx`-th entry of Q(c) (R93)? -/
def State.drainable (s : State) (core idx : Nat) : Option Entry :=
  let q := s.rq.filter fun e => e.core == core
  match q[idx]? with
  | none => none
  | some e =>
    let ahead := q.take idx
    if e.isRel then (if idx = 0 then some e else none)
    else if ahead.any fun d => (match d.kind with
        | .rel .core => false
        | .rel _ => true
        | _ => d.sameLine e) then none
    else if s.owned e.part e.line then none
    else some e

/-- The position in the whole of `rq` of the `idx`-th entry of a core. -/
def dropEntry (core : Nat) : Nat → List Entry → List Entry
  | _, [] => []
  | n, e :: r => if e.core == core then (match n with
      | 0 => r
      | n + 1 => e :: dropEntry core n r) else e :: dropEntry core n r

/-- Capacity for versions in a slice set: min(4, HELD), HELD being the ways the context holds in the slice's group (R307, R313). -/
def State.versionCap (s : State) (g : Site) : Nat := min 4 (s.waysHeld g.part (g.slice / 48))

/-- The versions of a context in the slice set of a line. -/
def State.setHolders (s : State) (g : Site) (l : Nat) : List Version :=
  s.vers.filter fun v => v.site.part == g.part && v.site.slice == g.slice && setOf v.line == setOf l

/-- Must a checkpoint make room before a crew gets a version of a line it does not hold yet (R313)? -/
def State.versionFull (s : State) (core slot : Nat) (l : Loc) : Bool :=
  (s.version? core slot (lineOf l.pa)).isNone
    && decide (s.versionCap (s.site l) ≤ (s.setHolders (s.site l) (lineOf l.pa)).length)

/-- Does a store write its crew's version: a living crew whose interval is still open, class DEV or HEAP (E4)? -/
def State.writesVersion (s : State) (e : Entry) : Bool :=
  (e.loc.cls == .dev || e.loc.cls == .heap) && e.loc.home != 3 && (match s.crew? e.core e.slot with
    | some k => k.ckptn == e.interval && k.part == e.part
    | none => false)

/-- Has no other part of an entry's request still to be applied (R335)? -/
def State.lastPart (s : State) (e : Entry) : Bool :=
  !(s.rq ++ s.sb).any fun d => d.tag == e.tag && d.core == e.core && sectorOf d.loc.pa == sectorOf e.loc.pa

/-- Clear a sector's poison, in memory and in the core's copy of its line, once the whole request that covers it has been applied (R335). -/
def State.clearPoison (s : State) (e : Entry) (clears : Bool) : State :=
  if clears && s.lastPart e then
    (s.cleanSector (sectorOf e.loc.pa)).updL1 e.core e.part e.line fun c =>
      { c with bad := c.bad.filter (· != sectorOf e.loc.pa) }
  else s

/-- E4 of a store that writes the committed value: at its place, and in the core's own copy of the line unless its page is never cached
(R93, R104, R124). -/
def State.storeCommitted (s : State) (e : Entry) (bs : List Byte) (clears : Bool) : State :=
  let s1 := s.placeWrite e.loc bs
  (if e.direct then s1 else s1.patchCopy e.core e.part e.loc.pa bs).clearPoison e clears

/-- E4 of a store that writes its crew's version. A sector that one request covers is clean in it (R335). -/
def State.storeVersion (s : State) (e : Entry) (bs : List Byte) (clears : Bool) : State :=
  let s1 := s.versionBytes e.core e.slot (s.site e.loc) e.loc.pa bs
  if clears && s1.lastPart e then s1.versionClean e.core e.slot (sectorOf e.loc.pa) else s1

/-- E4 of a store to a pool line: into the version its crew was building when it issued, else as a committed value (R134, R354). -/
def State.storePool (s : State) (e : Entry) (bs : List Byte) (clears : Bool) : State :=
  let key := s.poolKey e.part e.loc.range
  if s.poolFull ((s.crew? e.core e.slot).bind fun k => k.writing key) e.loc.pa then s.poolDrop e.core e.slot key e.loc
  else if e.own then
    s.updCrew e.core e.slot fun k =>
      { k with
        writers := updFirst (fun w => w.range == key) (fun w => { w with bytes := ovWrite e.loc.pa bs w.bytes }) k.writers }
  else s.storeCommitted e bs clears

/-- The home slice's marks after an entry with a hint, which fills its sector (R118); HOME=11 pages ignore hints (R106). -/
def State.hintEntry (s : State) (e : Entry) : State :=
  if e.direct || (e.hint != .evictFirst && e.hint != .evictLast) then s
  else (s.fillSector (s.site e.loc) (sectorOf e.loc.pa)).hintLine e.hint e.part e.line (s.homeLine? e.part e.line).isNone

/-- Does a write stand at its link unapplied: a never-cached pool write, which reaches M(x) when the link accepts it (R97, R100)? -/
def Entry.atLink (e : Entry) : Bool := e.loc.cls == .pool && e.direct && !e.own

/-- E4 for a store entry that has been removed from Q(c) (R93, R104, R134). -/
def State.applyStore (s0 : State) (e : Entry) (bs : List Byte) (release clears : Bool) : State :=
  let s := s0.hintEntry e
  let s1 :=
    if !release && s.writesVersion e then s.storeVersion e bs clears
    else if e.atLink then s
    else if e.loc.cls == .pool then s.storePool e bs clears
    else s.storeCommitted e bs clears
  match e.loc.cls with
  | .host | .pool => { s1 with linkWait := s1.linkWait ++ [{ e with born := s1.clock }] }
  | _ => s1

/-- A reply of an irrevocable request to the batch that waits for it. -/
def State.atomReply (s : State) (e : Entry) (r : AtomReply) : State :=
  s.updFlock e.core e.slot e.flock fun f => f.updBatch e.lane fun b => match b.wait with
    | .atomic w => if b.tag != e.tag then b else { b with wait := .atomic { w with replies := w.replies ++ [r] } }
    | _ => b

/-- A crew's version of one line made its committed value before an irrevocable request acts there (R140). -/
def State.commitLine (s : State) (core slot : Nat) (l : Loc) : State :=
  match s.version? core slot (lineOf l.pa) with
  | some v => if l.home == 3 then s else s.commitVersion v
  | none => s

/-- The issuing core's copy of a line replaced by a fill after an irrevocable request acted there (R139). -/
def State.refreshCopy (s : State) (e : Entry) (l : Loc) : State :=
  match s.copy? e.core e.part (lineOf l.pa) with
  | some c => if l.home == 3 then s else s.fillL1 { core := e.core, group := c.group, part := e.part, slot := e.slot, fib := e.fib } l
  | none => s

/-- E4 of a read-modify-write or a compare-and-swap on a home line or on M(x): the old value is the reply; a poisoned sector
leaves the word unchanged and poisons the reply; a RED there is dropped and logged (R138, R141). (DEDUCED, unsafe, log 24) -/
def State.applyAtomic (s : State) (e : Entry) (n : Nat) (f : Nat → Nat) : State :=
  let s1 := s.commitLine e.core e.slot e.loc
  let y := s1.placeVal e.loc n
  let bad := s1.rangeBad e.loc.pa n
  let s2 := if bad then s1 else s1.placeWrite e.loc (leBytes n (f y))
  let s3 := s2.refreshCopy e e.loc
  let s4 := if bad && !s3.waitsReply e.core e.slot e.flock e.lane e.tag then s3.logError 4 e.loc.pa e.loc.ia else s3
  s4.atomReply e { lane := e.lane, val := BitVec.ofNat 64 y, status := false, poison := bad, refused := false }

/-- A queue operation's or a pin operation's reply. -/
def Entry.reply (e : Entry) (v : Word64) (status refused : Bool) : AtomReply :=
  { lane := e.lane, val := v, status := status, poison := false, refused := refused }

/-- Where the header of the object that a reference names stands, unless the Goat holds the line (R158, R161). -/
def State.headerLoc (s : State) (c : Context) (core : Nat) (r : Word64) : Option Loc :=
  match s.resolve c core r 0 with
  | .held => none
  | .line b _ => s.iaLoc c b

/-- Where an irrevocable slice operation acts: the header for a pin operation, else the place of its request. -/
def State.slicePlace (s : State) (c : Context) (e : Entry) (op : AtomOp) (v : Word64) : Loc :=
  match op with
  | .pin | .unpin => (s.headerLoc c e.core v).getD e.loc
  | _ => e.loc

/-- A reply that poisons its destination (R141), that of an HNEW too (DESIGN CHOICE, safe, log 72). -/
def Entry.badReply (e : Entry) : AtomReply := { e.reply 0 false false with poison := true }

/-- What a slice operation does once its crew's version of the line is committed; none where it waits (R152, R161, R162). -/
def State.sliceStep (s : State) (c : Context) (e : Entry) (op : AtomOp) (l : Loc) (n : Nat) (v : Word64) : Option State :=
  let lv := match s.crew? e.core e.slot with | some k => k.level | none => .u
  match op with
  | .qenq =>
    let q := s.qenq e.part lv e.loc (n == 8) v.toNat
    if q.waits then none else some (q.state.atomReply e (e.reply 0 q.status q.refused))
  | .qdeq =>
    let q := s.qdeq e.part lv e.loc (n == 8)
    if q.waits then none
    else some (q.state.atomReply e { e.reply (BitVec.ofNat 64 q.val) q.status q.refused with poison := q.bad })
  | .pin =>
    if s.rangeBad l.pa 16 then some (s.atomReply e e.badReply)
    else (s.pinStep c e.core v).map fun p => p.1.atomReply e (e.reply (BitVec.ofNat 64 p.2.1) false p.2.2)
  | .unpin =>
    if s.rangeBad l.pa 16 then some ((s.logError 4 l.pa l.ia).atomReply e (e.reply 0 false false))
    else (s.unpinStep c e.core v).map fun p => p.1.atomReply e (e.reply 0 false p.2.2)
  | .hnew region size =>
    if s.rangeBad l.pa 64 then some (s.atomReply e e.badReply)
    else some ((s.hnewStep c region size).1.atomReply e (e.reply (s.hnewStep c region size).2 false false))
  | _ => some s

/-- E4 for a queue, pin or allocation entry (R139, R140): the crew's version of the line is committed first, and the issuing core's
copy refilled after; none where it must wait. -/
def State.applySlice (s : State) (e : Entry) (op : AtomOp) (n : Nat) (v : Word64) : Option State :=
  match s.ctx? e.part with
  | none => some (s.atomReply e (e.reply 0 false true))
  | some c =>
    let l := s.slicePlace c e op v
    ((s.commitLine e.core e.slot l).sliceStep c e op l n v).map fun t => t.refreshCopy e l

/-- Does an entry aim at a lost range (R339)? -/
def State.entryLost (s : State) (e : Entry) : Bool :=
  !e.isRel && (match e.loc.cls with
    | .hostw | .pod => false
    | _ => true) && s.lostPa e.loc.pa

/-- The slice's copy of a sector of a lost range, where it holds one, is kept and poisoned (R339). -/
def State.spoilHeld (s : State) (e : Entry) : State :=
  if !e.direct && (s.homeSector? e.part (sectorOf e.loc.pa)).isSome then s.poisonSector (sectorOf e.loc.pa) else s

/-- What becomes of a request for a lost range: a store or RED is dropped and logged, an ATOM, CAS, pin or allocation is answered
poisoned, and the release of a pin is answered without effect (R141, R339). A queue operation changes nothing, as on a poisoned
descriptor. (DESIGN CHOICE, safe, log 61) -/
def State.loseEntry (s : State) (e : Entry) : State :=
  let dropped := (s.logError 4 e.loc.pa e.loc.ia).spoilHeld e
  match e.kind with
  | .rel _ => s
  | .store _ _ _ => dropped
  | .atomic op _ _ => match op with
    | .rmw _ => if s.waitsReply e.core e.slot e.flock e.lane e.tag then s.atomReply e e.badReply else dropped.atomReply e e.badReply
    | .cas _ | .pin | .hnew _ _ | .qdeq => s.atomReply e e.badReply
    | .unpin | .qenq => (s.logError 4 e.loc.pa e.loc.ia).atomReply e (e.reply 0 false false)

/-- Must the request of an entry wait for the row of its sector: a never-cached one, or one whose sector the slice does not hold, unless
it only stores into a version (R283)? -/
def State.entryWaits (s : State) (e : Entry) : Bool :=
  let versioned := match e.kind with
    | .store _ false _ => s.writesVersion e
    | _ => false
  !e.isRel && !(e.loc.cls == .hostw || e.loc.cls == .pod) && !versioned
    && (e.direct || (s.homeSector? e.part (sectorOf e.loc.pa)).isNone) && s.rowWaits e.part (sectorOf e.loc.pa)

/-- The arrival of an entry at its slice counted (R308). -/
def State.arrival (s : State) (e : Entry) : State := if e.isRel || e.direct then s else s.touch (s.site e.loc) e.line

/-- E4 for an entry that has been removed from Q(c); none where it must wait. -/
def State.applyEntry (s0 : State) (e : Entry) : Option State :=
  let s := s0.arrival e
  if s.entryLost e then some (s.loseEntry e)
  else if s.entryWaits e then none
  else match e.kind with
  | .rel _ => some s
  | .store bs release clears =>
    if !release && s.writesVersion e && s.versionFull e.core e.slot e.loc then none
    else some (s.applyStore e bs release clears)
  | .atomic (.rmw aop) n v => some (s.applyAtomic e n fun y => rmwValue aop n e.lane e.pc y v.toNat)
  | .atomic (.cas c) n v => some (s.applyAtomic e n fun y => casValue y v.toNat c.toNat)
  | .atomic op n v => s.applySlice e op n v

/-- Apply some entries of Q in order, whatever stands ahead of them; none where one of them must wait. -/
def State.drainAll (s : State) : List Entry → Option State
  | [] => some s
  | e :: r =>
    if s.owned e.part e.line && !e.isRel then none
    else match ({ s with rq := dropFirst (· == e) s.rq }).applyEntry e with
      | none => none
      | some s1 => State.drainAll s1 r

/-- The cores that run fibres of a partition or hold entries of it. -/
def State.coresOf (s : State) (part : Nat) : List Nat :=
  ((s.crews.filter fun k => k.part == part).map (·.core) ++ (s.rq.filter fun e => e.part == part).map (·.core)).foldl
    (fun l c => insertAsc c l) []

/-- E9 (R96): every core that runs fibres of the partition drains its queue up to its youngest rel(CORE) entry and the
release store behind it; entries of other partitions are not touched; none while one of those entries must wait. -/
def State.promote (s : State) (part : Nat) : Option State :=
  (s.coresOf part).foldl (fun o c => o.bind fun s =>
    let q := s.rq.filter fun e => e.core == c && e.part == part
    s.drainAll (q.take (upToRelCore q))) (some s)

/-- E9 and E8's dropping part, as an acquire's scope and RMT ask (R93, R95). -/
def State.acquire (s : State) (i : Iss) (sc : Scope) (rmt : Bool) : Option State :=
  if coreScope sc then some s
  else (if rmt then s.promote i.crew.part else some s).map fun s => s.dropCore i.ref.core

/-! ### One lane's store -/

/-- Does a write to a place go to a pool version that the batch's crew is building (R134)? -/
def State.ownWrite (s : State) (i : Iss) (l : Loc) : Bool :=
  l.cls == .pool && (i.crew.writing (s.poolKey i.crew.part l.range)).isSome

/-- An entry of SB(f) or Q(c) for a lane of the batch. -/
def laneEntry (s : State) (i : Iss) (f : Fibre) (l : Loc) (kind : EntryKind) (hint : Hint) (tag : Nat) : Entry :=
  { core := i.ref.core, slot := i.ref.slot, flock := i.flock.num, lane := f.lane, fib := f.num, part := i.crew.part,
    interval := match s.crew? i.ref.core i.ref.slot with | some k => k.ckptn | none => 0,
    loc := l, kind := kind, tag := tag, pc := i.batch.pc, hint := hint, own := s.ownWrite i l }

/-- A store to the window, applied in one step (R103); a fetch may still give a word's old value (R61). -/
def State.windowStore (s : State) (l : Loc) (bs : List Byte) : State :=
  { s.noteOld l.part (windowWord 0) l.pa bs.length (fun a => leVal (s.hw.read a 4)) with hw := s.hw.write l.pa bs }

/-- Do bytes that an older write of the fibre's through a never-cached mapping still has to write lie in [pa, pa + n)? That write comes
first (R90, R111). -/
def State.olderDirect (s : State) (core fib pa n : Nat) : Bool :=
  (s.sb ++ s.rq).any fun e => e.ofFibre core fib && e.direct && decide (e.loc.pa < pa + n) && decide (pa < e.loc.pa + e.size)

/-- The one step of a plain store through a never-cached mapping: into M(x), or for a pool line to its link, which it passes in order
(R97, R100). -/
def State.storeDirect (s : State) (e : Entry) (bs : List Byte) (clears : Bool) : Option State :=
  if s.oxOwned e.part e.line || s.rowWaits e.part (sectorOf e.loc.pa) || s.olderDirect e.core e.fib e.loc.pa e.size then none
  else if e.atLink then some { s with linkWait := s.linkWait ++ [{ e with born := s.clock }] }
  else some (s.storeCommitted e bs clears)

/-- A plain store of one lane at its class: E1, or the one step of a HOSTW, POD or HOME=11 access; none where it waits, for an earlier
pod access to the word, for a collective that owns the line (R253) or for its row (R283). -/
def State.storeOne (s : State) (i : Iss) (f : Fibre) (l : Loc) (bs : List Byte) (release clears : Bool) (hint : Hint) (tag : Nat) :
    Option State :=
  match l.cls with
  | .hostw => some (s.windowStore l bs)
  | .pod =>
    if s.podWaits i.ref.core f.num l.ia bs.length then none
    else
      some { s.podSend (podReq s i f l bs.length false .store (BitVec.ofNat 64 (leVal bs))) with
        nextTag := s.nextTag + 1 }
  | _ =>
    let s1 := s.cacheLeaf i.crew.part l
    let e := laneEntry s i f l (.store bs release clears) hint tag
    if release then some { s1 with rq := s1.rq ++ [e] }
    else if e.direct && !e.own then s1.storeDirect e bs clears
    else some { s1 with sb := s1.sb ++ [e] }

/-- The stores of several lanes in ascending order. -/
def State.storeAll (s : State) (i : Iss) (release : Bool) (clears : Nat → Bool) (hint : Hint) (tag : Nat) :
    List (Fibre × Loc × List Byte) → Option State
  | [] => some s
  | (f, l, bs) :: r =>
    match s.storeOne i f l bs release (clears (sectorOf l.pa)) hint tag with
    | none => none
    | some s1 => State.storeAll s1 i release clears hint tag r

/-- Do the lanes of one store cover every byte of a sector, so that their one request clears its poison (R335)? -/
def coversSector (l : List (Fibre × Loc × List Byte)) (sec : Nat) : Bool :=
  (List.range 64).all fun k => l.any fun p =>
    decide (p.2.1.pa ≤ 64 * sec + k) && decide (64 * sec + k < p.2.1.pa + p.2.2.length)

/-- Pair fibres with the values their lanes gave. -/
def withFibres {α : Type} (fs : List Fibre) (vs : List (Nat × α)) : List (Fibre × α) :=
  vs.filterMap fun v => (fs.find? fun f => f.lane == v.1).map fun f => (f, v.2)

end Sys2Proof.Machine
end

