-- ==== Sys2Proof/Machine/Scratch.lean ====
section
/-! DEFINITION. The scratch space: addresses, bounds and holes, reads and writes with the visibility of R116, poison of a
line, and the room an instruction needs in the undo and scratch logs (R114-R116, R379, R381). -/

namespace Sys2Proof.Machine

/-! ### Addresses (R114, R115) -/

/-- Is a byte of the core's scratch space backed by a scratch way? -/
def State.scratchByte (s : State) (core a : Nat) : Bool :=
  decide (a < 2 ^ 20) && decide (a % 2 ^ 18 < s.scratchWays core (a / 2 ^ 18) * 2 ^ 14)

/-- Do bytes [lo, lo + n) with n > 0 lie inside the crew's allocation and outside holes? Holes end each 256 KiB, so that a
range that stays inside one bank group needs its last byte only; one that crosses needs every scratch way before it. -/
def State.scratchOk (s : State) (k : Crew) (lo : Int) (n : Nat) : Bool :=
  decide ((k.base : Int) ≤ lo) && decide (lo + n ≤ (k.limit : Int)) &&
    (let a := lo.toNat
     let b := a + n - 1
     (List.range (b / 2 ^ 18 - a / 2 ^ 18 + 1)).all fun g =>
       let grp := a / 2 ^ 18 + g
       s.scratchByte k.core (if grp = b / 2 ^ 18 then b else grp * 2 ^ 18 + 2 ^ 18 - 1))

/-- The scratch address of an operand: base + zext(va) + OFF × size, an exact sum (R114). -/
def scratchEa (i : Iss) (x : Form) (v : Word) : Int := (i.crew.base : Int) + v.toNat + x.off * x.size

/-- Checks of a scratch access: alignment of the address, then bounds (R115). -/
def checkScratch (s : State) (i : Iss) (n : Nat) (ea : Int) : Chk Nat :=
  ((Chk.guard (ea % n == 0) .alignment (wrapInt (ea - i.crew.base) 64)).and
    (Chk.guard (s.scratchOk i.crew ea n) .scratchBounds (wrapInt ea 64))).map fun _ => ea.toNat

/-! ### Reads and writes (R116) -/

/-- Scratch lines of a crew that a range touches. -/
def scratchLines (a n : Nat) : List Nat := if n = 0 then [] else (List.range ((a + n - 1) / 128 - a / 128 + 1)).map (a / 128 + ·)

/-! ### Room in the logs (R313, R381) -/

/-- Undo entries in use on a quadrant of a core, and scratch-log lines in use on a core. -/
def State.undoUsed (s : State) (core quad : Nat) : Nat :=
  (s.crews.filter fun k => k.core == core).foldl (fun n k => n + spGet 0 k.undo quad) 0
def State.scrUsed (s : State) (core : Nat) : Nat :=
  (s.crews.filter fun k => k.core == core).foldl (fun n k => n + k.scrLog.length) 0

/-- Take checkpoints of crews in turn until a condition holds; the crew whose checkpoint cannot be taken yet where one stands
in the way. -/
def ckptUntil (ok : State → Bool) : List (Nat × Nat) → State → Except (Nat × Nat) State
  | [], s => .ok s
  | p :: r, s =>
    if ok s then .ok s
    else match s.crew? p.1 p.2 with
      | none => ckptUntil ok r s
      | some k => if s.ckptReady k then ckptUntil ok r (s.checkpoint p.1 p.2) else .error p

/-- Crews of a core that hold entries of a log, the asking crew first, then by ascending slot (R381). -/
def logHolders (s : State) (core slot : Nat) (holds : Crew → Bool) : List (Nat × Nat) :=
  let others := ((s.crews.filter fun k => k.core == core && k.slot != slot && holds k).map (·.slot)).foldl
    (fun l x => insertAsc x l) []
  (core, slot) :: others.map fun n => (core, n)

/-- Room for scratch-log lines, with the lines then listed in the crew's log (R381). -/
def State.reserveScratch (s : State) (core slot : Nat) (lines : List Nat) : Except (Nat × Nat) State :=
  let fits := fun (t : State) => match t.crew? core slot with
    | none => true
    | some k => decide (t.scrUsed core + (lines.filter fun l => !k.scrLog.contains l).length ≤ 512)
  match ckptUntil fits (logHolders s core slot fun k => !k.scrLog.isEmpty) s with
  | .error p => .error p
  | .ok t => .ok (t.updCrew core slot fun k => { k with scrLog := lines.foldl (fun l x => insertAsc x l) k.scrLog })

/-- A blocked reservation as a verdict: the crew whose checkpoint is awaited is marked. -/
def awaitCkpt {α : Type} (i : Iss) (r : Except (Nat × Nat) α) : Res α :=
  match r with
  | .ok a => .ok a
  | .error p => .error (.ckpt (if p = (i.ref.core, i.ref.slot) then [] else [p]))

def needScratch (s : State) (i : Iss) (lines : List Nat) : Res State :=
  awaitCkpt i (s.reserveScratch i.ref.core i.ref.slot lines)

/-! ### LDS and STS (R115, R379) -/

def srcScratch (s : State) (i : Iss) (x : Form) (f : Fibre) : Chk Nat :=
  (srcA x f).bind fun v => checkScratch s i x.size (scratchEa i x v)

def execLds (x : Form) (s : State) : Out State :=
  laneSet s x false fun i ps =>
    match checkAll i ps fun f => (srcScratch s i x f).and (destWide f x.dn (x.w == 1)) with
    | .error e => .error e
    | .ok vs =>
      let c := i.crew.live
      .ok ((s.produce i x (x.w == 1) ((withFibres ps vs).map fun p =>
        let bs := c.scratchRead s.fresh i.flock.num p.1.pend p.1.lane p.2.1 x.size
        (p.1.lane, extendLoad x.size x.sx (leVal bs), c.scratchBad s.fresh i.flock.num p.1.pend p.1.lane p.2.1 x.size,
          ProdSrc.unit))).advance i x.words)

/-- Do the lanes of one STS, each writing `n` bytes, cover a line wholly (R379)? -/
def coversLine (n : Nat) (vs : List (Nat × Nat × Word64)) (ln : Nat) : Bool :=
  (List.range 128).all fun k => vs.any fun v => decide (v.2.1 ≤ 128 * ln + k) && decide (128 * ln + k < v.2.1 + n)

/-- The bytes each lane of an STS leaves at its address: those of the highest lane that writes there (R115). -/
def stsBytes (x : Form) (tag : Nat) (vs : List (Nat × Nat × Word64)) : List (Nat × ScrWrite) :=
  vs.map fun v =>
    (v.1, { addr := v.2.1, tag := tag, whole := coversLine x.size vs (v.2.1 / 128)
            bytes := leBytes x.size (((vs.filter fun w => w.2.1 == v.2.1).getLast?.map (·.2.2)).getD v.2.2).toNat })

def execSts (x : Form) (s : State) : Out State :=
  laneSet s x false fun i ps =>
    match checkAll i ps fun f => (srcScratch s i x f).and (readWide f x.bn (x.w == 1) x.eb) with
    | .error e => .error e
    | .ok vs =>
      match needScratch s i (vs.flatMap fun v => scratchLines v.2.1 x.size) with
      | .error e => .error e
      | .ok s1 =>
        let s2 := s1.onFibres i (stsBytes x s1.nextTag vs) fun w f => { f with pend := f.pend ++ [w] }
        .ok ({ s2 with nextTag := s1.nextTag + 1 }.advance i x.words)

end Sys2Proof.Machine
end

