-- ==== Sys2Proof/Machine/Memory.lean ====
section
/-! DEFINITION. Loads, stores, prefetch, location, fences, cache maintenance, way masks and pool snapshots (R105-R125,
R134, R135, R145). -/

namespace Sys2Proof.Machine

/-! ### Loads (R109, R111, R112) -/

/-- Is the load an acquire that performs E8: at HERD scope or above, or on a POD line at any scope (R106, R111)? -/
def acquires (x : Form) (ls : List Loc) : Bool :=
  x.mc.ord == .acquire && (!coreScope x.mc.scope || ls.any fun l => l.cls == .pod)

/-- Step 2 of a load for some lanes: the state and each lane's result; none where it must wait. The checkpoint of R106 and
E9 have been taken. (DESIGN CHOICE, safe, log 30) -/
def State.loadRun (s : State) (i : Iss) (x : Form) (ls : List (Fibre × Loc)) :
    Option (State × List (Nat × Word64 × Bool × ProdSrc)) :=
  let acq := acquires x (ls.map (·.2))
  match (if acq && x.mc.rmt then s.promote i.crew.part else some s) with
  | none => none
  | some s1 => s1.loadAll i x.size x.sx x.mc ls

/-- The checkpoint an access takes first when one of its lines closes the interval (R106, R315). -/
def closeFirst (s : State) (i : Iss) (closes : Bool) : Res State := if closes then takeCkpt s i else .ok s

/-- The end of a load: an acquire performs E8, at once or, where pod replies are awaited, in the instruction's second part
(R97, R111). -/
def State.loadEnd (s : State) (i : Iss) (x : Form) (ls : List Loc) : State :=
  if !acquires x ls then s.advance i x.words
  else if ls.any fun l => l.cls == .pod then s.onBatch i fun b => { b with phase := 1 }
  else (s.dropCore i.ref.core).advance i x.words

/-- Does a producer of the batch's load still await a pod reply? -/
def Iss.awaitsReply (i : Iss) : Bool :=
  i.crew.prods.any fun p => p.flock == i.flock.num && p.pc == i.batch.pc && p.src.isPod

/-- The second part of an acquire load on POD lines. -/
def loadAcquired (s : State) (i : Iss) (x : Form) : Res State :=
  if i.awaitsReply then .error .wait else .ok ((s.dropCore i.ref.core).advance i x.words)

def execLd (x : Form) (s : State) : Out State :=
  laneSet s x false fun i ps =>
    if i.batch.phase ≠ 0 then loadAcquired s i x
    else match checkAll i ps fun f => (srcLoc s i x .load f).and (destWide f x.dn (x.w == 1)) with
      | .error e => .error e
      | .ok vs =>
        let ls := withFibres ps (vs.map fun v => (v.1, v.2.1))
        match closeFirst s i (ls.any fun p => p.2.closes false) with
        | .error e => .error e
        | .ok s1 =>
          match s1.loadRun (s1.again i) x ls with
          | none => .error .wait
          | some (s2, rs) => .ok ((s2.produce i x (x.w == 1) rs).loadEnd i x (ls.map (·.2)))

/-- Start a producer of a uniform register (R112). -/
def State.produceK (s : State) (i : Iss) (x : Form) (vs : List (Nat × Word64 × Bool × ProdSrc)) : State :=
  s.onCrew i fun k =>
    { k with
      prods := k.prods ++ vs.map fun v =>
        { flock := i.flock.num, dest := .uni v.1 x.dn (x.w == 1), val := v.2.1, poison := v.2.2.1, pc := i.batch.pc,
          src := v.2.2.2, born := s.clock } }

/-- ULD: one access, of the fibre in the lowest lane slot of the batch, which alone a trap names (R112). -/
def execUld (x : Form) (s : State) : Out State :=
  uniSet s x .any fun i =>
    if i.batch.phase ≠ 0 then loadAcquired s i x
    else match kFree i [(x.an, true), (x.dn, x.w == 1)] with
      | .error e => .error e
      | .ok _ =>
        match checkAll i i.lead.toList fun _ => checkVa s i .load x.size (memVa x x.size (i.flock.kpair x.an)) with
        | .error e => .error e
        | .ok vs =>
          let ls := withFibres i.lead.toList vs
          match closeFirst s i (ls.any fun p => p.2.closes false) with
          | .error e => .error e
          | .ok s1 =>
            match s1.loadRun (s1.again i) x ls with
            | none => .error .wait
            | some (s2, rs) => .ok ((s2.produceK i x rs).loadEnd i x (ls.map (·.2)))

/-! ### Stores (R109, R110, R112) -/

/-- Must a release store wait for its rel entry to drain before it is made: at POD and SYS scope, and on lines that pass no
queue (R97, R103)? -/
def releaseWaits (x : Form) (ls : List Loc) : Bool :=
  podScope x.mc.scope || ls.any fun l => l.cls == .pod || l.cls == .hostw

/-- The scope of a release: an ordered access to POD is performed at POD at least (R106). -/
def releaseScope (x : Form) (ls : List Loc) : Scope :=
  if x.mc.scope == .sys then .sys else if ls.any fun l => l.cls == .pod then .pod else x.mc.scope

/-- E7 with its release store, for each lane in turn (R93). -/
def State.releaseStore (s : State) (i : Iss) (sc : Scope) (clears : Nat → Bool) (hint : Hint) (tag : Nat) :
    List (Fibre × Loc × List Byte) → State
  | [] => s
  | (f, l, bs) :: r =>
    let s1 := (s.passAll i.ref.core f.num).cacheLeaf i.crew.part l
    let n := match s.crew? i.ref.core i.ref.slot with | some k => k.ckptn | none => 0
    let s2 := { s1 with
      rq := s1.rq ++ [relEntry i f n sc tag, laneEntry s1 i f l (.store bs true (clears (sectorOf l.pa))) hint tag] }
    State.releaseStore s2 i sc clears hint tag r

/-- Has a release drained, and is what R97 adds for some fibres met? -/
def State.released (s : State) (i : Iss) (fs : List Fibre) (sc : Scope) : Bool :=
  s.drained i.ref.core i.batch.tag
    && (!podScope sc || fs.all fun f => s.podQuiet i.ref.core f.num (sc == .sys))

/-- Step 2 of a store for some lanes (R109, R111). -/
def storeRun (s : State) (i : Iss) (x : Form) (ss : List (Fibre × Loc × List Byte)) : Res State :=
  let ls := ss.map (·.2.1)
  let clears := coversSector ss
  let fs := ss.map (·.1)
  let sc := releaseScope x ls
  if i.batch.phase ≠ 0 then
    if s.released i fs sc then
      match s.storeAll i true clears x.mc.hint s.nextTag ss with
      | none => .error .wait
      | some s1 => .ok ({ s1 with nextTag := s1.nextTag + 1 }.advance i x.words)
    else .error .wait
  else
    let release := x.mc.ord == .release
    match closeFirst s i (release || ls.any fun l => l.closes true) with
    | .error e => .error e
    | .ok s1 =>
      if !release then
        match s1.storeAll (s1.again i) false clears x.mc.hint s1.nextTag ss with
        | none => .error .wait
        | some s2 => .ok ({ s2 with nextTag := s2.nextTag + 1 }.advance i x.words)
      else if releaseWaits x ls then
        .ok ((s1.releaseAll i fs sc).onBatch i fun b => { b with phase := 1 })
      else
        let s2 := s1.releaseStore (s1.again i) sc clears x.mc.hint s1.nextTag ss
        .ok ({ s2 with nextTag := s2.nextTag + 1 }.advance i x.words)

def execSt (x : Form) (s : State) : Out State :=
  laneSet s x false fun i ps =>
    match checkAll i ps fun f => (srcLoc s i x .store f).and (readWide f x.bn (x.w == 1) x.eb) with
    | .error e => .error e
    | .ok vs => storeRun s i x ((withFibres ps vs).map fun p => (p.1, p.2.1, leBytes x.size p.2.2.toNat))

/-- UST (R112). -/
def execUst (x : Form) (s : State) : Out State :=
  uniSet s x .any fun i =>
    match kFree i [(x.an, true), (x.bn, x.w == 1)] with
    | .error e => .error e
    | .ok _ =>
      match checkAll i i.lead.toList fun _ => checkVa s i .store x.size (memVa x x.size (i.flock.kpair x.an)) with
      | .error e => .error e
      | .ok vs =>
        let v := if x.w = 1 then (i.flock.kpair x.bn).toNat else (i.flock.kreg x.bn).toNat
        storeRun s i x ((withFibres i.lead.toList vs).map fun p => (p.1, p.2, leBytes x.size v))

/-! ### Prefetch and location (R119, R120, R145, R380) -/

/-- The line that PREF's request for one address fills, none where it is dropped (R119). OFF counts words of 4 bytes, to which the address
is aligned (DEDUCED, log 17). -/
def State.prefetched (s : State) (i : Iss) (x : Form) (v : Word64) : Option Loc :=
  match s.translate i.crew.part i.crew.level .load (memVa x 4 v) with
  | .error _ => none
  | .ok l =>
    let ln := lineOf l.pa
    if memVa x 4 v % 4 ≠ 0 || l.cls == .pod || l.cls == .hostw || l.home == 3 || s.owned l.part ln || s.lineBad ln then none
    else some l

/-- PREF's fill for one address. -/
def State.prefetch (s : State) (i : Iss) (x : Form) (f : Fibre) (v : Word64) : State :=
  match s.prefetched i x v with
  | none => s
  | some l =>
    let ln := lineOf l.pa
    let s1 := ((s.cacheLeaf i.crew.part l).fillHome (s.site l) ln).hintLine x.mc.hint l.part ln (s.homeLine? l.part ln).isNone
    if bitAt x.cs 0 || x.mc.hint == .noAllocate then s1 else s1.fillL1 (i.reader f) l

/-- PREF. It never traps on what its address meets; a poisoned or empty register that gives the address traps as any source does (R44,
R119). (DEDUCED, unsafe, log 83) -/
def execPref (x : Form) (s : State) : Out State :=
  laneSet s x false fun i ps =>
    match checkAll i ps fun f => srcA64 x f with
    | .error e => .error e
    | .ok vs =>
      if vs.any fun v => (s.prefetched i x v.2).any fun l => s.lineWaits l.part (lineOf l.pa) then .error .wait
      else .ok (((withFibres ps vs).foldl (fun s p => s.prefetch i x p.1 p.2) s).advance i x.words)

/-- The page a VA names, without a permission check: class, IA, leaf entry and level. -/
def State.lookup (s : State) (part va0 : Nat) : Option (Class × Nat × Nat × Nat) :=
  (s.ctx? part).bind fun c => (c.findRange (va0 % 2 ^ 57) 0 16).bind fun p =>
    let cls := Class.ofCode p.2.cls
    let ia := p.2.ia (va0 % 2 ^ 57)
    if !s.classOn part cls then none
    else (if cls == .pod then s.podLeaf c ia else s.leaf? c ia).map fun e => (cls, ia, e.1, e.2)

/-- SLICEOF's value (R120). -/
def sliceOf (s : State) (part : Nat) (v : Word64) : Word :=
  match s.lookup part v.toNat with
  | some (cls, ia, e, lv) =>
    if (cls == .dev || cls == .heap) && leafHome e != 3 && bits (leafPa e lv ia) 51 50 == 0 then
      BitVec.ofNat 32 (s.homeSlice (leafPa e lv ia) (leafDpin e) (leafDie e))
    else 0xFFFFFFFF
  | none => 0xFFFFFFFF

/-- HOMEOF's value (R145). -/
def homeOf (s : State) (part : Nat) (v : Word64) : Word :=
  match s.lookup part v.toNat with
  | some (cls, ia, _, _) => if cls == .pod then BitVec.ofNat 32 (s.podServing ia) else 0xFFFFFFFF
  | none => 0xFFFFFFFF

/-- SLICEOF. Its address comes from a register, whose poison or emptiness traps as R44 gives, though R120 lists no such trap. (DEDUCED,
unsafe, log 83) -/
def execSliceof (x : Form) (s : State) : Out State :=
  laneWrite s x false fun i f => (srcA64 x f).map fun v => (sliceOf s i.crew.part v).setWidth 64

def execHomeof (x : Form) (s : State) : Out State :=
  laneWrite s x false fun i f => (srcA64 x f).map fun v => (homeOf s i.crew.part v).setWidth 64

/-! ### FENCE (R98, R121) -/

def execFence (x : Form) (s : State) : Out State :=
  uniSet s x .any fun i =>
    let sc := x.mc.scope
    let done := fun (t : State) => match t.acquire i sc x.mc.rmt with
      | none => .error .wait
      | some t => .ok (t.advance i x.words)
    if i.batch.phase ≠ 0 then
      if !s.released i i.active sc then .error .wait
      else if x.mc.ord == .acqRel then done s
      else .ok (s.advance i x.words)
    else match x.mc.ord with
      | .plain => .ok (s.advance i x.words)
      | .acquire => done s
      | .release | .acqRel =>
        match takeCkpt s i with
        | .error e => .error e
        | .ok s1 =>
          let s2 := s1.releaseAll i i.active sc
          if podScope sc || (x.mc.ord == .acqRel && !coreScope sc) then
            .ok (s2.onBatch i fun b => { b with phase := 1 })
          else .ok (s2.advance i x.words)

/-! ### CMAINT (R100, R122, R123) -/

/-- CMAINT's op and level. -/
def cmOp (x : Form) : Nat := bits x.cs 1 0
def cmLevel (x : Form) : Nat := bits x.cs 3 2

/-- A core will not fetch an older value of a line's words again (R61). -/
def State.dropFetched (s : State) (core part l : Nat) : State :=
  { s with
    icache := s.icache.map fun w =>
      if w.part == part && lineOf w.pa == l then { w with gone := insertAsc core w.gone } else w }

/-- The steps of R100 on one line of a core, once no entry of Q(c) covers it. Clean-invalidate releases the home copy, as R100 says of
both invalidations at slice and memory level, though its table names the cleaning alone; at memory it leaves no L1 copy of the line, as
R124 says. (DEDUCED, unsafe, log 22) -/
def State.maintain (s : State) (core part l op level : Nat) : State :=
  match op with
  | 0 => if level = 2 then s.writeBack part l else s
  | 1 => if level = 0 then (s.dropL1 core part l true).dropFetched core part l else s.releaseHome part l
  | 2 =>
    (if level = 2 then (s.releaseHome part l).dropL1All part l else (s.releaseHome part l).dropL1 core part l true).dropFetched core part l
  | _ => s.updHome part l fun h => { h with evictLast := false }

/-- A line that CMAINT passes over: only what a core has fetched of it goes, where the operation invalidates at L1 (R61, R123). -/
def State.passOver (s : State) (core : Nat) (l : Loc) (op level : Nat) : State :=
  let w := match l.cls with
    | .hostw => windowWord l.pa
    | .pod => podWord l.ia
    | _ => l.pa
  if op = 2 ∨ (op = 1 ∧ level = 0) then s.dropFetched core l.part (lineOf w) else s

/-- What the walk over the lines comes to; one that waits, with the lines it has left. -/
inductive Maintained where
  | done (s : State)
  | waits (s : State) (left : Nat)
  | trap (s : State) (c : Cause) (addr : Nat)

/-- Must CMAINT wait at a line: an engine owns it, or an entry of Q(c) for it has still to drain (R100)? -/
def State.maintWaits (s : State) (core part ln : Nat) (cleans : Bool) : Bool :=
  s.owned part ln || (cleans && s.rq.any fun e => e.core == core && !e.isRel && e.part == part && e.line == ln)

/-- CMAINT on `n` lines from VA line `vl`, ascending; `lo` is the first VA of the range (R123). -/
def State.maintainAll (s : State) (i : Iss) (op level lo : Nat) : Nat → Nat → Maintained
  | _, 0 => .done s
  | vl, n + 1 =>
    let va := max lo (128 * vl) % 2 ^ 57
    match s.translate i.crew.part i.crew.level .load va with
    | .error c => .trap s c va
    | .ok l =>
      if l.cls == .pod || l.cls == .hostw || l.home == 3 then
        State.maintainAll (s.passOver i.ref.core l op level) i op level lo (vl + 1) n
      else if s.maintWaits i.ref.core i.crew.part (lineOf l.pa) (!(op = 1 && level = 0)) then .waits s (n + 1)
      else State.maintainAll (s.maintain i.ref.core i.crew.part (lineOf l.pa) op level) i op level lo (vl + 1) n

/-- CMAINT's walk from the line it has come to: the batch's phase counts the lines done, plus one (R100). A trap leaves the earlier lines
done (R122, R123). -/
def State.maintainOn (s : State) (i : Iss) (x : Form) (lo len done : Nat) : Res State :=
  let total := (lo + len - 1) / 128 - lo / 128 + 1
  match s.maintainAll i (cmOp x) (cmLevel x) lo (lo / 128 + done) (total - done) with
  | .done t => .ok (t.advance i x.words)
  | .waits t left =>
    if total - left = done then .error .wait else .ok (t.onBatch i fun b => { b with phase := total - left + 1 })
  | .trap t c a => .ok (t.raise i.ref.core i.ref.slot (i.trap c (maskOf i.active) a))

/-- CMAINT: nothing for a length of 0; else the interval closes first but for an invalidate at L1; then each line in turn, waiting for
entries of Q(c) and for engines. -/
def cmaint (x : Form) (s : State) : Out State :=
  uniSet s x .vector fun i =>
    match kFree i [(x.an, true), (x.bn, false)] with
    | .error e => .error e
    | .ok _ =>
      let len := (i.flock.kreg x.bn).toNat
      let lo := (i.flock.kpair x.an).toNat % 2 ^ 57
      if len = 0 then .ok (s.advance i x.words)
      else if i.batch.phase = 0 ∧ ¬(cmOp x = 1 ∧ cmLevel x = 0) then
        match takeCkpt s i with
        | .error e => .error e
        | .ok s1 => .ok ((s1.passBatch i i.active).onBatch i fun b => { b with phase := 1 })
      else s.maintainOn i x lo len (i.batch.phase - 1)

def execCmaintClean (x : Form) (s : State) : Out State := cmaint x s
def execCmaintInvalidate (x : Form) (s : State) : Out State := cmaint x s
def execCmaintCleanInvalidate (x : Form) (s : State) : Out State := cmaint x s
def execCmaintDemote (x : Form) (s : State) : Out State := cmaint x s

/-! ### SETWAYS (R125) -/

/-- A mask of the form "ways 16 − n to 15", n at most 15; the scratch ways it names. -/
def maskWays (m : Nat) : Option Nat := (List.range 16).find? fun n => m == 2 ^ 16 - 2 ^ (16 - n)

/-- The highest limit, within a bank group, of any living crew's allocation on a core. -/
def State.groupLimit (s : State) (core g : Nat) : Nat :=
  (s.crews.filter fun k => k.core == core && decide (k.base < (g + 1) * 2 ^ 18) && decide (g * 2 ^ 18 < k.limit)).foldl
    (fun n k => max n (min k.limit ((g + 1) * 2 ^ 18) - g * 2 ^ 18)) 0

/-- Is a Mule write into the core's scratch outstanding for a crew that has ended? -/
def State.endedCopies (s : State) (core : Nat) : Bool :=
  s.engines.any fun e => e.core == core && (match e.job with
    | .copy _ ds _ _ => ds.any fun d => bits d.mod 5 4 == 1
    | _ => false) && !(s.crews.any fun k => e.ofCrew k)

/-- The way mask changed: the copies in ways that enter scratch are dropped, pinned ones among them. -/
def State.setWays (s : State) (core g mask : Nat) : State :=
  { s with
    ways := spSet 0xFF00 (core * 4 + g) mask s.ways
    l1 := s.l1.filter fun c => !(c.core == core && c.group == g && bitAt mask c.way) }

def execSetways (x : Form) (s : State) : Out State :=
  uniSet s x .vector fun i =>
    match kFree i [(x.an, false), (x.dn, false)] with
    | .error e => .error e
    | .ok _ =>
      let v := (i.flock.kreg x.an).toNat
      let g := bits v 17 16
      let mask := bits v 15 0
      let old := s.wayMask i.ref.core g
      match needLevel i (match s.ctx? i.crew.part with
        | some c => c.owns (i.ref.core * 4 + g)
        | none => false) with
      | .error e => .error e
      | .ok _ =>
        let refuse := .ok (s.uniResult i x false (BitVec.ofNat 64 (2 ^ 31 + old)))
        match maskWays mask with
        | none => refuse
        | some n =>
          if n * 2 ^ 14 < s.groupLimit i.ref.core g then refuse
          else match takeCkpt s i with
            | .error e => .error e
            | .ok s1 =>
              if old ||| mask != mask && s1.endedCopies i.ref.core then .error .wait
              else .ok ((s1.setWays i.ref.core g mask).uniResult i x false (BitVec.ofNat 64 old))

/-! ### Pool snapshots (R134, R354) -/

/-- The whole of a partition's committed memory, as a snapshot freezes it. -/
def State.frozen (s : State) (part : Nat) : Mem :=
  (s.home.filter fun h => h.site.part == part).foldl (fun m h => [2 * h.line, 2 * h.line + 1].foldl (fun m sec => if h.has sec then m.splice (64 * sec) 64 h.data else m) m)
    s.mem

/-- The pod's record of a pool range; version 1 is the latest of a range nobody has published (DESIGN CHOICE, log 16). -/
def State.pool (s : State) (key : Nat) : PoolRange :=
  (s.pools.find? fun p => p.range == key).getD { range := key, latest := 1, writer := none }

/-- Does a writer on another module hold the range? With other packages in the pod it may (R354, DESIGN CHOICE, log 16). -/
def State.heldElsewhere (s : State) (key : Nat) : Bool := s.npkg != 1 && Config.freeBool s.fresh (2 ^ 61 + key)

def State.setPool (s : State) (p : PoolRange) : State :=
  { s with pools := p :: s.pools.filter fun q => q.range != p.range }

/-- A published byte: M(x), and every home slice's copy of its sector, which all modules and partitions that share the range then read. -/
def State.publishByte (s : State) (pa : Nat) (b : Byte) : State :=
  { s with
    mem := s.mem.set pa b
    home := s.home.map fun h => if h.line == lineOf pa && h.has (sectorOf pa) then { h with data := h.data.set pa b } else h }

/-- The bytes of the version that another module publishes, by PA: those that fall on pages of the range in a pool device. -/
def State.otherCells (s : State) (c : Context) (n : Nat) : List Host.Cell :=
  (Config.otherPool s.fresh).filterMap fun p =>
    let r := c.range n
    if p.1 < r.limit - r.base then
      (s.leaf? c (r.ia (r.base + p.1))).bind fun e =>
        let pa := leafPa e.1 e.2 (r.ia (r.base + p.1))
        if bits pa 51 50 = 1 then some (pa, p.2) else none
    else none

/-- The pool as a PSNAP finds it: with other packages in the pod, one of them may have published a version of the range since, unless a
writer of this module holds it. (R354; that it shows at a PSNAP is DESIGN CHOICE, unsafe, log 16) -/
def State.otherVersion (s : State) (part n key : Nat) : State :=
  match s.ctx? part with
  | none => s
  | some c =>
    if s.npkg ≤ 1 || (s.pool key).writer.isSome || !Config.freeBool s.fresh (2 ^ 61 + 2 ^ 60 + key) then s
    else
      let cells := s.otherCells c n
      let s1 := cells.foldl (fun s c => (s.noteOld part 0 c.1 1 fun a => s.committedVal part a 4).publishByte c.1 c.2) s
      s1.setPool { s.pool key with latest := (s.pool key).latest + 1 }

/-- PSNAP: a POOL range; the interval closes; `act` gives kd and the state, or waits. A range of another class gives 0. -/
def psnap (x : Form) (s : State) (act : State → Iss → Nat → Option (State × Nat)) : Out State :=
  uniSet s x .vector fun i =>
    match kFree i [(x.an, true), (x.dn, false)] with
    | .error e => .error e
    | .ok _ =>
      let va := (i.flock.kpair x.an).toNat % 2 ^ 57
      match checkOne i (match (s.ctx? i.crew.part).bind fun c => c.findRange va 0 16 with
        | some p => .ok p
        | none => .trap .rangeMiss va) with
      | .error e => .error e
      | .ok p =>
        match takeCkpt s i with
        | .error e => .error e
        | .ok s1 =>
          if p.2.cls ≠ 4 then .ok (s1.uniResult i x false 0)
          else match act (s1.otherVersion i.crew.part p.1 (s1.poolKey i.crew.part p.1)) (s1.again i) (s1.poolKey i.crew.part p.1) with
            | none => .error .wait
            | some r => .ok (r.1.uniResult i x false (BitVec.ofNat 64 r.2))

def execPsnapOpen (x : Form) (s : State) : Out State :=
  psnap x s fun s i key =>
    match i.crew.snap? key with
    | some p => some (s, p.version)
    | none =>
      if 4 ≤ i.crew.snaps.length then some (s, 0)
      else
        some (s.onCrew i fun k =>
          { k with snaps := k.snaps ++ [{ range := key, version := (s.pool key).latest, mem := s.frozen i.crew.part }] },
          (s.pool key).latest)

def execPsnapClose (x : Form) (s : State) : Out State :=
  psnap x s fun s i key =>
    match i.crew.snap? key with
    | some p => some (s.onCrew i fun k => { k with snaps := k.snaps.filter fun q => q.range != key }, p.version)
    | none => some (s, 0)

def execPsnapBegin (x : Form) (s : State) : Out State :=
  psnap x s fun s i key =>
    let p := s.pool key
    if p.writer.isSome || s.heldElsewhere key then some (s, 0)
    else
      some ((s.setPool { p with writer := some (i.ref.core, i.ref.slot) }).onCrew i fun k =>
        { k with writers := k.writers ++ [{ range := key, version := p.latest + 1, bytes := [], lost := false }] }, p.latest + 1)

/-- Is a pool write of the crew still on its way to its link? -/
def State.poolWrites (s : State) (core slot : Nat) : Bool :=
  (s.sb ++ s.rq ++ s.linkWait).any fun e => e.core == core && e.slot == slot && e.loc.cls == .pool

/-- The bytes of a published version become the committed ones. -/
def State.publishPool (s : State) (part : Nat) (bs : List Host.Cell) : State :=
  bs.foldl (fun s c => (s.noteOld part 0 c.1 1 fun a => s.committedVal part a 4).publishByte c.1 c.2) s

/-- A version published: it becomes the latest, and the writer's core, which read it before, finds it in its copies. -/
def State.publishVersion (s : State) (i : Iss) (w : PoolWriter) : State :=
  let s1 := s.publishPool i.crew.part w.bytes
  (s1.setPool { s1.pool w.range with latest := w.version, writer := none }).refillLines i.ref.core i.crew.part
    (w.bytes.map fun c => lineOf c.1)

def execPsnapPublish (x : Form) (s : State) : Out State :=
  psnap x s fun s i key =>
    if s.poolWrites i.ref.core i.ref.slot then none
    else match i.crew.writing key with
      | none => some (s, 0)
      | some w =>
        let s1 := if w.lost then s.setPool { s.pool key with writer := none } else s.publishVersion i w
        some (s1.onCrew i fun k => { k with writers := k.writers.filter fun v => v.range != key },
          if w.lost then 0 else w.version)

/-- PHINT: it reads its address and length, so it waits for their producers (R112), and changes no architectural state (R135). -/
def phint (x : Form) (s : State) : Out State :=
  uniSet s x .vector fun i => (kFree i [(x.an, true), (x.bn, false)]).map fun _ => s.advance i x.words

def execPhintHot (x : Form) (s : State) : Out State := phint x s
def execPhintCold (x : Form) (s : State) : Out State := phint x s

end Sys2Proof.Machine
end

