-- ==== Sys2Proof/Machine/Atomic.lean ====
section
/-! DEFINITION. ATOM, RED, CAS, QENQ, QDEQ and QWAIT, and the step in which an irrevocable instruction finishes
(R136-R142, R150-R153). -/

namespace Sys2Proof.Machine

/-! ### Sending requests (R136, R139) -/

/-- One lane's request at its class: E1, one step at HW(x), or E16; none where E16 must wait. -/
def State.sendOne (s : State) (i : Iss) (size : Nat) (tag : Nat) (f : Fibre) (r : AtomReq) : Option State :=
  match r.loc.cls with
  | .hostw =>
    let y := leVal (s.hw.read r.loc.pa size)
    let bad := s.hwBad.contains (sectorOf r.loc.pa)
    let v := match r.op with
      | .rmw aop => rmwValue aop size f.lane i.batch.pc y r.e.toNat
      | .cas c => casValue y r.e.toNat c.toNat
      | _ => y
    let red : Bool := match i.batch.wait with
      | .atomic w => w.kind == .red
      | _ => false
    let s1 := if !bad then s.windowStore r.loc (leBytes size v)
      else if red then s.logAccess 4 r.loc.part r.loc.ia else s
    some (s1.onBatch i fun b => match b.wait with
      | .atomic w =>
        { b with wait := .atomic { w with
            replies := w.replies ++ [{ lane := f.lane, val := BitVec.ofNat 64 y, status := false, poison := bad,
                                       refused := false }] } }
      | _ => b)
  | .pod =>
    if s.podWaits i.ref.core f.num r.loc.ia size then none
    else
      let op := match r.op with
        | .cas c => PodOp.cas c
        | .rmw aop => PodOp.rmw aop
        | _ => PodOp.load
      some { s.podSend (podReq s i f r.loc size false op r.e) with nextTag := s.nextTag + 1 }
  | _ =>
    let s1 := s.cacheLeaf i.crew.part r.loc
    some { s1 with sb := s1.sb ++ [laneEntry s1 i f r.loc (.atomic r.op size r.e) .normal tag] }

/-- The requests of several lanes, in ascending lane order. -/
def State.sendAll (s : State) (i : Iss) (size tag : Nat) : List (Fibre × AtomReq) → Option State
  | [] => some s
  | (f, r) :: rest =>
    match s.sendOne i size tag f r with
    | none => none
    | some s1 => State.sendAll s1 i size tag rest

/-- The fibres and requests of a waiting instruction that it has still to send. -/
def Iss.todo (i : Iss) (w : AtomWait) : List (Fibre × AtomReq) :=
  withFibres i.active (w.todo.map fun r => (r.lane, r))

/-- Send what an irrevocable instruction has still to send, once its release has drained where its requests must wait for
it (R97). -/
def sendTodo (s : State) (i : Iss) (w : AtomWait) : Res State :=
  let ready := match w.release with
    | none => true
    | some sc => s.released i i.active sc
  if !ready then .error .wait
  else
    let s1 := { s.onBatch i fun b => { b with wait := .atomic { w with todo := [], release := none }, tag := s.nextTag }
      with nextTag := s.nextTag + 1 }
    match s1.sendAll (s1.again i) w.size s.nextTag (i.todo w) with
    | none => .error .wait
    | some s2 => .ok s2

/-- Begin an irrevocable instruction whose checks have passed: the first checkpoint, the release, and the requests. Its
destinations are empty until it finishes (R43, R139, R140). -/
def beginAtomic (s : State) (i : Iss) (ps : List Fibre) (w : AtomWait) (empty : Fibre → Fibre) : Res State :=
  match firstCkpt s i with
  | .error e => .error e
  | .ok s1 =>
    let s2 := s1.onFibres i (w.lanes.map fun l => (l, ())) fun _ f => empty f
    let wait := fun (t : State) => t.onBatch i fun b => { b with wait := .atomic w }
    match w.release with
    | none =>
      let s3 := wait s2
      sendTodo s3 (s3.again i) w
    | some sc =>
      let s3 := wait (s2.releaseAll i ps sc)
      if podScope sc || w.todo.any fun r => r.loc.cls == .pod || r.loc.cls == .hostw then .ok s3
      else sendTodo s3 (s3.again i) { w with release := none }

/-- An irrevocable instruction that has begun: what it still has to send, or nothing to do at issue. -/
def continueAtomic (s : State) (i : Iss) : Res State :=
  match i.batch.wait with
  | .atomic w => if w.todo.isEmpty then .error .wait else sendTodo s i w
  | _ => .error .wait

/-- Has the batch begun its irrevocable instruction? -/
def Iss.begun (i : Iss) : Bool := match i.batch.wait with | .atomic _ => true | _ => false

/-! ### ATOM, RED and CAS (R137-R141) -/

def atomRelease (x : Form) (ls : List Loc) : Option Scope :=
  if x.mc.ord == .release || x.mc.ord == .acqRel then some (releaseScope x ls) else none

/-- The acquire of an ATOM or CAS; on a POD line it is performed at POD at least (R106). -/
def atomAcquire (x : Form) (ls : List Loc) : Option (Scope × Bool) :=
  if x.mc.ord == .acquire || x.mc.ord == .acqRel then some (releaseScope x ls, x.mc.rmt) else none

/-- The common form of ATOM, RED and CAS: `chk` gives each lane's location, operation and operand. -/
def atomic (s : State) (x : Form) (kind : AtomKind) (returns : Bool) (chk : Iss → Fibre → Chk (Loc × AtomOp × Word64)) :
    Out State :=
  laneSet s x false fun i ps =>
    if i.begun then continueAtomic s i
    else match checkAll i ps fun f =>
        (chk i f).and (if returns then destWide f x.dn (x.w == 1) else .ok ()) with
      | .error e => .error e
      | .ok vs =>
        let ls := vs.map fun v => v.2.1.1
        beginAtomic s i ps
          { kind := kind, todo := vs.map fun v => { lane := v.1, loc := v.2.1.1, op := v.2.1.2.1, e := v.2.1.2.2 },
            release := atomRelease x ls, size := x.size, lanes := vs.map (·.1), replies := [],
            acquire := if returns then atomAcquire x ls else none, len := x.words, addrs := [] }
          (fun f => if returns then f.empty x.dn (x.w == 1) else f)

def execAtom (x : Form) (s : State) : Out State :=
  atomic s x (.atom x.dn (x.w == 1)) true fun i f =>
    ((srcLoc s i x .atomic f).and (readWide f x.bn (x.w == 1) x.eb)).map fun p =>
      (p.1, .rmw (bits x.cs 6 3), p.2)

def execRed (x : Form) (s : State) : Out State :=
  atomic s x .red false fun i f =>
    ((srcLoc s i x .atomic f).and (readWide f x.bn (x.w == 1) x.eb)).map fun p =>
      (p.1, .rmw (bits x.cs 6 3), p.2)

def execCas (x : Form) (s : State) : Out State :=
  atomic s x (.atom x.dn (x.w == 1)) true fun i f =>
    ((srcLoc s i x .atomic f).and
      ((readWide f x.bn (x.w == 1) x.eb).and (readWide f x.cn (x.w == 1) x.ec))).map fun p =>
        (p.1, .cas p.2.2, p.2.1)

/-! ### QENQ and QDEQ (R151, R152) -/

/-- A queue descriptor's address: 64-byte aligned, and checked for a queue operation. -/
def srcQueue (s : State) (i : Iss) (x : Form) (f : Fibre) : Chk Loc :=
  (srcA64 x f).bind fun v => checkVa s i .queue 64 (v.toNat % 2 ^ 57)

def execQenq (x : Form) (s : State) : Out State :=
  laneSet s x false fun i ps =>
    if i.begun then continueAtomic s i
    else match checkAll i ps fun f => (srcQueue s i x f).and (readWide f x.bn (x.w == 1) x.eb) with
      | .error e => .error e
      | .ok vs =>
        beginAtomic s i ps
          { kind := .qenq x.dn, todo := vs.map fun v => { lane := v.1, loc := v.2.1, op := .qenq, e := v.2.2 },
            release := some .dev, size := x.size, lanes := vs.map (·.1), replies := [], acquire := none,
            len := x.words, addrs := vs.map fun v => (v.1, v.2.1.va) } id

def execQdeq (x : Form) (s : State) : Out State :=
  laneSet s x false fun i ps =>
    if i.begun then continueAtomic s i
    else match checkAll i ps fun f => (srcQueue s i x f).and (destWide f x.dn (x.w == 1)) with
      | .error e => .error e
      | .ok vs =>
        beginAtomic s i ps
          { kind := .qdeq x.dn x.bn (x.w == 1),
            todo := vs.map fun v => { lane := v.1, loc := v.2.1, op := .qdeq, e := 0 },
            release := none, size := x.size, lanes := vs.map (·.1), replies := [], acquire := some (.dev, false),
            len := x.words, addrs := vs.map fun v => (v.1, v.2.1.va) }
          (fun f => f.empty x.dn (x.w == 1))

/-! ### Finishing: ATOMIC_REPLY -/

/-- What one lane's reply writes. -/
def AtomKind.write (k : AtomKind) (r : AtomReply) (f : Fibre) : Fibre :=
  match k with
  | .atom d wide => if r.poison then f.bad d wide else f.put d wide r.val
  | .qenq p => f.setPred p r.status
  | .qdeq d p wide => (if r.poison then f.bad d wide else f.put d wide r.val).setPred p r.status
  | .pin d => if r.poison || r.refused then f.bad d true else f.markFull64 d r.val
  | .hnew hd => if r.poison then f.spoilH hd else f.setH hd r.val
  | .red | .unpin => f

/-- The cause that a refused lane traps with, taken from the second checkpoint (R152, R161). -/
def AtomKind.refusal : AtomKind → Cause
  | .pin _ | .unpin => .pinState
  | _ => .queueDesc

/-- Has the last reply arrived, or for RED the last request left the core (R140)? -/
def State.atomDone (s : State) (i : Iss) (w : AtomWait) : Bool :=
  w.todo.isEmpty && (match w.kind with
    | .red => !(s.sb.any fun e => e.core == i.ref.core && e.tag == i.batch.tag)
    | _ => w.replies.length == w.lanes.length)

/-- The state after the replies are written, the acquire is performed and the second checkpoint is taken with the batch at
the next instruction; refused lanes trap from that checkpoint. -/
def State.finishAtomic (s : State) (i : Iss) (w : AtomWait) : Option State :=
  let s1 := s.onFibres i (w.replies.map fun r => (r.lane, r)) fun r f => w.kind.write r f
  match (match w.acquire with
    | some (sc, rmt) => s1.acquire i sc rmt
    | none => some s1) with
  | none => none
  | some s2 =>
    let s3 := s2.onBatch i fun b => { b with pc := pcPlus b.pc w.len, wait := .none, phase := 0, tag := 0, held := none }
    let bad := (w.replies.filter (·.refused)).map (·.lane)
    let s4 := if bad.isEmpty then s3 else
      s3.raise i.ref.core i.ref.slot (i.trap w.kind.refusal (laneMask bad)
        (match w.addrs.find? fun a => bad.contains a.1 with
          | some a => a.2
          | none => 0))
    some ((s4.secondCkpt i.ref.core i.ref.slot).closeStep i.ref.core i.ref.slot)

/-- ATOMIC_REPLY: the instruction of a waiting batch finishes; until the crew's producers have completed its batches stop
issuing (R314). -/
def State.atomicReplyStep (s : State) (r : BatchRef) : Option State :=
  match s.find r with
  | none => none
  | some i =>
    match i.batch.wait with
    | .atomic w =>
      if !s.atomDone i w then none
      else if s.ckptDrained i.crew then s.finishAtomic i w
      else if i.crew.stopFor = some (r.flock, r.lane) then none
      else some (s.updCrew r.core r.slot fun k => { k with stopFor := some (r.flock, r.lane) })
    | _ => none

/-! ### QWAIT (R153) -/

/-- The descriptor's check at the slice, and whether an element waits. A poisoned descriptor gives no HEAD and TAIL: the instruction changes
nothing at the slice and ends with qd false. (DESIGN CHOICE, unsafe, log 23) -/
def execQwait (x : Form) (s : State) : Out State :=
  uniSet s x .vector fun i =>
    match kFree i [(x.an, true)] with
    | .error e => .error e
    | .ok _ =>
      match checkOne i (checkVa s i .queue 64 ((i.flock.kpair x.an).toNat % 2 ^ 57)) with
      | .error e => .error e
      | .ok l =>
        match takeCkpt s i with
        | .error e => .error e
        | .ok s1 =>
          if s1.owned l.part (lineOf l.pa) then .error .wait
          else
            let d := s1.qdesc l
            let s2 := s1.cacheLeaf i.crew.part l
            if s1.rangeBad l.pa 64 then
              .ok (((s2.logError 4 l.pa l.ia).onFlock i fun f => f.setQ x.dn false).advance i x.words)
            else if !d.ok none then
              .ok (s2.raise i.ref.core i.ref.slot (i.trap .queueDesc (maskOf i.active) l.va))
            else if 0 < d.used then .ok ((s2.onFlock i fun f => f.setQ x.dn true).advance i x.words)
            else
              let p := s2.qlist l (waiterWord i.crew.part i.ref.core i.ref.slot i.flock.num)
              .ok (p.1.onBatch i fun b =>
                { b with
                  pc := pcPlus b.pc x.words, phase := 0, tag := 0, held := none
                  wait := .qwait x.dn l p.2 (x.mf 15 0) s.clock (s.clock + 1024) i.batch.pc })

end Sys2Proof.Machine
end

