-- ==== Sys2Proof/Decode.lean ====
section
/-! DEFINITION. Decoding of instruction words, total on any bytes and refusing by name, and the encoder (R46-R63). -/

namespace Sys2Proof

open Machine

/-! ### Codes of the MEM fields (R52) -/

def Scope.code : Scope → Nat
  | .none => 0 | .core => 1 | .herd => 2 | .die => 3 | .dev => 4 | .pod => 5 | .sys => 6

def Scope.ofCode : Nat → Option Scope
  | 0 => some .none | 1 => some .core | 2 => some .herd | 3 => some .die | 4 => some .dev | 5 => some .pod
  | 6 => some .sys | _ => Option.none

def Order.code : Order → Nat
  | .plain => 0 | .acquire => 1 | .release => 2 | .acqRel => 3

def Order.ofCode : Nat → Order
  | 0 => .plain | 1 => .acquire | 2 => .release | _ => .acqRel

def Hint.code : Hint → Nat
  | .normal => 0 | .evictFirst => 1 | .evictLast => 2 | .noAllocate => 3

def Hint.ofCode : Nat → Hint
  | 0 => .normal | 1 => .evictFirst | 2 => .evictLast | _ => .noAllocate

/-! ### Words -/

/-- The next 32-bit word of a little-endian byte stream (R4). -/
def takeWord : List Byte → Option (Nat × List Byte)
  | b0 :: b1 :: b2 :: b3 :: r => some (leVal [b0, b1, b2, b3], r)
  | _ => none

/-- The continuation words that the X bits announce, as (CT, payload), under the rules of R47: at most two, of the same
set, with C = 1 and CT rising strictly. `lo` is the least CT still allowed. -/
def takeConts (s : Bool) : Nat → Nat → Bool → List Byte → Except Illegal (List (Nat × Nat) × List Byte)
  | _, _, false, bs => .ok ([], bs)
  | 0, _, true, _ => .error .framing
  | n + 1, lo, true, bs =>
    match takeWord bs with
    | none => .error .truncated
    | some (w, r) =>
      if bitAt w 30 && (bitAt w 31 == s) && decide (lo ≤ bits w 28 27) then
        match takeConts s n (bits w 28 27 + 1) (bitAt w 29) r with
        | .ok (cs, r') => .ok ((bits w 28 27, bits w 26 0) :: cs, r')
        | .error e => .error e
      else .error .framing

/-- The payload of the continuation of type `ct`. -/
def payload (ct : Nat) : List (Nat × Nat) → Option Nat
  | [] => none
  | (c, p) :: r => if c = ct then some p else payload ct r

/-- EXT (R50); its bits [1:0] are reserved. -/
def extOf (p : Nat) : Except Illegal Ext :=
  if bits p 1 0 = 0 then
    .ok { gn2 := bitAt p 26, gp2 := BitVec.ofNat 7 (bits p 25 19), dhi := BitVec.ofNat 2 (bits p 18 17),
          ahi := BitVec.ofNat 2 (bits p 16 15), bhi := BitVec.ofNat 2 (bits p 14 13), cx := BitVec.ofNat 8 (bits p 12 5),
          ea := bitAt p 4, eb := bitAt p 3, ec := bitAt p 2 }
  else .error .reserved

/-- MEM (R52); SCOPE 7 is illegal. -/
def memOf (p : Nat) : Except Illegal MemC :=
  match Scope.ofCode (bits p 14 12) with
  | some sc => .ok { off := BitVec.ofNat 12 (bits p 26 15), scope := sc, ord := Order.ofCode (bits p 11 10),
                     hint := Hint.ofCode (bits p 9 8), rmt := bitAt p 7, cs := BitVec.ofNat 7 (bits p 6 0) }
  | none => .error .memFields

/-- A continuation's fields, where it is present. -/
def optOf {α : Type} (f : Nat → Except Illegal α) : Option Nat → Except Illegal (Option α)
  | none => .ok none
  | some p => match f p with | .ok a => .ok (some a) | .error e => .error e

/-- The fields of a framed instruction from its leading word and continuations (R48-R53). -/
def formOf (w : Nat) (cs : List (Nat × Nat)) : Except Illegal Form :=
  match optOf extOf (payload 0 cs), optOf memOf (payload 2 cs) with
  | .ok e, .ok m =>
    .ok { gn := bitAt w 21, gp := BitVec.ofNat 3 (bits w 20 18), d := BitVec.ofNat 6 (bits w 17 12),
          a := BitVec.ofNat 6 (bits w 11 6), b := BitVec.ofNat 6 (bits w 5 0), ext := e,
          imm := (payload 1 cs).map (BitVec.ofNat 27), mem := m, mod := (payload 3 cs).map (BitVec.ofNat 27) }
  | .error e, _ => .error e
  | .ok _, .error e => .error e

/-- The instruction of a set, an opcode and fields, checked against its operand table (R57, R62, R63). -/
def instrOf (s : Bool) (op : Nat) (x : Form) : Except Illegal Instr :=
  match (if s then uniOf op x else laneOf op x) with
  | none => .error .opcode
  | some i => match i.illegal with | none => .ok i | some e => .error e

/-- The instruction at the head of a byte stream and the bytes after it, or the condition of R57 it meets. -/
def decode (bs : List Byte) : Except Illegal (Instr × List Byte) :=
  match takeWord bs with
  | none => .error .truncated
  | some (w, r) =>
    if bitAt w 30 then .error .continuationAtPc
    else match takeConts (bitAt w 31) 2 0 (bitAt w 29) r with
      | .error e => .error e
      | .ok (cs, r') => match formOf w cs with
        | .error e => .error e
        | .ok x => match instrOf (bitAt w 31) (bits w 28 22) x with
          | .error e => .error e
          | .ok i => .ok (i, r')

/-- How many words the instruction at the head of a byte stream takes, from the X bits alone (R59): 1, 2 or 3. -/
def wordsAt (bs : List Byte) : Nat :=
  match takeWord bs with
  | none => 1
  | some (w, r) => if bitAt w 29 then (match takeWord r with
    | none => 2
    | some (w', _) => if bitAt w' 29 then 3 else 2) else 1

/-! ### Encoding -/

def bit (b : Bool) : Nat := if b then 1 else 0

/-- EXT's payload (R50). -/
def Ext.code (e : Ext) : Nat :=
  bit e.gn2 * 2 ^ 26 + e.gp2.toNat * 2 ^ 19 + e.dhi.toNat * 2 ^ 17 + e.ahi.toNat * 2 ^ 15 + e.bhi.toNat * 2 ^ 13
    + e.cx.toNat * 2 ^ 5 + bit e.ea * 2 ^ 4 + bit e.eb * 2 ^ 3 + bit e.ec * 2 ^ 2

/-- MEM's payload (R52). -/
def MemC.code (m : MemC) : Nat :=
  m.off.toNat * 2 ^ 15 + m.scope.code * 2 ^ 12 + m.ord.code * 2 ^ 10 + m.hint.code * 2 ^ 8 + bit m.rmt * 2 ^ 7
    + m.cs.toNat

/-- The leading word (R48). -/
def leadWord (s : Bool) (op : Nat) (x : Form) : Nat :=
  bit s * 2 ^ 31 + bit (x.ext.isSome || x.imm.isSome || x.mem.isSome || x.mod.isSome) * 2 ^ 29 + op * 2 ^ 22
    + bit x.gn * 2 ^ 21 + x.gp.toNat * 2 ^ 18 + x.d.toNat * 2 ^ 12 + x.a.toNat * 2 ^ 6 + x.b.toNat

/-- The continuations in order of type, as (CT, payload) (R47). -/
def Form.conts (x : Form) : List (Nat × Nat) :=
  (match x.ext with | some e => [(0, e.code)] | none => [])
    ++ (match x.imm with | some v => [(1, v.toNat)] | none => [])
    ++ (match x.mem with | some m => [(2, m.code)] | none => [])
    ++ (match x.mod with | some v => [(3, v.toNat)] | none => [])

/-- The continuation words, with their X bits (R49). -/
def contWords (s : Bool) : List (Nat × Nat) → List Nat
  | [] => []
  | (ct, p) :: r => (bit s * 2 ^ 31 + 2 ^ 30 + bit (!r.isEmpty) * 2 ^ 29 + ct * 2 ^ 27 + p) :: contWords s r

/-- The words of an instruction, leading word first; an event has none. -/
def encodeWords (i : Instr) : List Nat :=
  match i.form? with
  | some x => leadWord i.opcode.1 i.opcode.2 x :: contWords i.opcode.1 x.conts
  | none => []

/-- The bytes of an instruction as they stand in memory (R4). -/
def encode (i : Instr) : List Byte := (encodeWords i).flatMap (leBytes 4)

/-- The instruction that the decoder reads from bits numbered as spec/opcode_table.json numbers them: the words laid out
in ascending addresses, every bit above `nbits` zero. -/
def decodeTableWord (nbits w : Nat) : Option Instr :=
  match decode (leBytes 12 (w % 2 ^ nbits)) with
  | .ok (i, _) => some i
  | .error _ => none

end Sys2Proof
end

