-- ==== Sys2Proof/Machine/Heap.lean ====
section
/-! DEFINITION. The heap instructions: loads and stores through references with the barrier and healing, HREF, HNEW and
HRELOC, and the Goat's steps E20 to E23 (R154-R170). -/

namespace Sys2Proof.Machine

/-! ### The barrier (R154, R158, R159) -/

/-- A reference register; an outstanding HLD.REF to it is awaited (R160). -/
def srcRef (i : Iss) (n : Nat) (f : Fibre) : Chk Word64 := if i.hBusy f.lane n then .wait else .ok (f.h n)

/-- A destination reference register (R160). -/
def destRef (i : Iss) (n : Nat) (f : Fibre) : Chk Unit := if i.hBusy f.lane n then .wait else .ok ()

/-- The address a HEAP_TAG names: the reference, 0 for a null one (R154). -/
def tagAddr (r : Word64) : Nat := if refTag r = 0 then 0 else r.toNat

/-- A usable reference (R154). -/
def useRef (c : Context) (r : Word64) : Chk Unit := Chk.guard (c.usable r) .heapTag (tagAddr r)

/-- The index of `[ha + vc + o]`. -/
def heapIndex (x : Form) (f : Fibre) : Chk Nat :=
  if x.idx then (readSrc f x.cn x.ec).map (·.toNat) else .ok 0

/-- Page checks of an IA reached through a reference; a trap names its VA through the first HEAP range (R161, R319). -/
def heapPage (s : State) (i : Iss) (c : Context) (a : Access) (ia : Nat) : Chk Loc :=
  Chk.ofExcept ((c.heapVa ia 0 16).getD 0) (s.pageCheck c i.crew.level a .heap ((c.heapVa ia 0 16).getD 0) ia 0)

/-- A resolved access: where it lies, and the healed reference where a MOVED entry was found. -/
structure HeapLoc where
  loc : Loc
  healed : Option Word64
  deriving DecidableEq, Repr

/-- The byte offset of an access; its alignment and its sign compete with the reference's usability (R9, R158, R160). -/
def heapOffset (c : Context) (x : Form) (r : Word64) (f : Fibre) : Chk Nat :=
  (heapIndex x f).bind fun v =>
    let off : Int := x.off * x.size + v
    ((Chk.guard (off % x.size == 0) .alignment ((c.heapVa (wrapInt (refBase r + off) 52) 0 16).getD 0)).and
      (Chk.guard (decide (0 ≤ off)) .heapTag (tagAddr r))).map fun _ => off.toNat

/-- Step 1 of R160 for the address of one fibre. (DEDUCED, unsafe, log 39) -/
def heapEa (s : State) (i : Iss) (c : Context) (x : Form) (a : Access) (f : Fibre) : Chk HeapLoc :=
  (srcRef i x.an f).bind fun r =>
    ((useRef c r).and (heapOffset c x r f)).bind fun p =>
      match s.resolve c i.ref.core r (p.2 / 128) with
      | .held => Chk.wait
      | .line b h =>
        (heapPage s i c a ((b + p.2) % 2 ^ 52)).map fun l =>
          { loc := l, healed := if h then some (healedRef r b) else none : HeapLoc }

/-- The healing of the base registers, with the forwarding cache filled (R158, R159). -/
def State.healBase (s : State) (i : Iss) (c : Context) (x : Form) (vs : List (Nat × HeapLoc)) : State :=
  vs.foldl (fun s v => match v.2.healed with
    | none => s
    | some r =>
      let old := ((i.flock.fibre? v.1).map fun f => f.h x.an).getD 0
      (s.cacheFwd c i.ref.core old).onFibre i v.1 fun f => f.setH x.an r) s

/-- A reference loaded from a field, healed; its field then holds the healed value if it still holds the old one (R159). -/
def State.healField (s : State) (c : Context) (core : Nat) (l : Loc) (r : Word64) : State × Word64 :=
  if !c.usable r then (s, r)
  else match s.resolve c core r 0 with
    | .line b true =>
      let h := healedRef r b
      (if s.placeVal l 8 = r.toNat then s.placeWrite l (leBytes 8 h.toNat) else s, h)
    | _ => (s, r)

/-- The reference results of an HLD.REF, each healed in turn. -/
def State.healAll (s : State) (c : Context) (core : Nat) (locs : List (Nat × Loc)) :
    List (Nat × Word64 × Bool × ProdSrc) → State × List (Nat × Word64 × Bool × ProdSrc)
  | [] => (s, [])
  | v :: r =>
    let p := match locs.find? fun l => l.1 == v.1 with
      | some l => if v.2.2.1 then (s, v.2.1) else s.healField c core l.2 v.2.1
      | none => (s, v.2.1)
    let q := State.healAll p.1 c core locs r
    (q.1, (v.1, p.2, v.2.2) :: q.2)

/-- Start the producers of an HLD.REF (R160). -/
def State.produceH (s : State) (i : Iss) (x : Form) (vs : List (Nat × Word64 × Bool × ProdSrc)) : State :=
  s.onCrew i fun k =>
    { k with
      prods := k.prods ++ vs.map fun v =>
        { flock := i.flock.num, dest := .href v.1 x.dn, val := v.2.1, poison := v.2.2.1, pc := i.batch.pc,
          src := v.2.2.2, born := s.clock } }

/-- Run a heap instruction's body with its partition's context. -/
def withCtx (s : State) (i : Iss) (f : Context → Res State) : Res State :=
  match s.ctx? i.crew.part with
  | some c => f c
  | none => .error .wait

def execHld (x : Form) (s : State) : Out State :=
  laneSet s x false fun i ps => withCtx s i fun c =>
    match checkAll i ps fun f =>
        (heapEa s i c x .load f).and (if x.ref then destRef i x.dn f else destWide f x.dn (x.w == 1)) with
    | .error e => .error e
    | .ok vs =>
      let hs := vs.map fun v => (v.1, v.2.1)
      let s1 := s.healBase i c x hs
      let ls := withFibres ps (hs.map fun v => (v.1, v.2.loc))
      match s1.loadRun (s1.again i) x ls with
      | none => .error .wait
      | some (s2, rs) =>
        let s3 := if x.ref then
            let h := s2.healAll c i.ref.core (hs.map fun v => (v.1, v.2.loc)) rs
            h.1.produceH i x h.2
          else s2.produce i x (x.w == 1) rs
        .ok (s3.loadEnd i x (ls.map (·.2)))

/-- The value an HST stores. -/
def heapData64 (i : Iss) (x : Form) (f : Fibre) : Chk Word64 :=
  if x.ref then srcRef i x.bn f else readWide f x.bn (x.w == 1) x.eb

def execHst (x : Form) (s : State) : Out State :=
  laneSet s x false fun i ps => withCtx s i fun c =>
    match checkAll i ps fun f => (heapEa s i c x .store f).and (heapData64 i x f) with
    | .error e => .error e
    | .ok vs =>
      let s1 := s.healBase i c x (vs.map fun v => (v.1, v.2.1))
      storeRun s1 (s1.again i) x
        ((withFibres ps vs).map fun p => (p.1, p.2.1.loc, leBytes x.size p.2.2.toNat))

/-! ### HREF (R161) -/

/-- A pin operation's header: the base line of a usable reference, checked as an atomic's word. -/
def srcHeader (s : State) (i : Iss) (c : Context) (x : Form) (f : Fibre) : Chk (Loc × Word64) :=
  (srcRef i x.an f).bind fun r => (useRef c r).bind fun _ =>
    (heapPage s i c .atomic (refBase r)).map fun l => (l, r)

/-- PIN and UNPIN: irrevocable, with the header's base line as the word. -/
def pinOp (s : State) (x : Form) (kind : AtomKind) (op : AtomOp) (dest : Fibre → Chk Unit) (empty : Fibre → Fibre) :
    Out State :=
  laneSet s x false fun i ps =>
    if i.begun then continueAtomic s i
    else withCtx s i fun c =>
      match checkAll i ps fun f => (srcHeader s i c x f).and (dest f) with
      | .error e => .error e
      | .ok vs =>
        beginAtomic s i ps
          { kind := kind, todo := vs.map fun v => { lane := v.1, loc := v.2.1.1, op := op, e := v.2.1.2 },
            release := none, size := 8, lanes := vs.map (·.1), replies := [], acquire := none, len := x.words,
            addrs := [] } empty

def execHrefPin (x : Form) (s : State) : Out State :=
  pinOp s x (.pin x.dn) .pin (fun f => destWide f x.dn true) fun f => f.empty x.dn true

def execHrefUnpin (x : Form) (s : State) : Out State := pinOp s x .unpin .unpin (fun _ => .ok ()) id

/-- The current base of a usable reference; null and unusable references have none; waits while line 0 is held. -/
def baseOf (s : State) (c : Context) (core : Nat) (r : Word64) : Chk (Option Nat) :=
  if !c.usable r then .ok none
  else match s.resolve c core r 0 with
    | .held => .wait
    | .line b _ => .ok (some b)

/-- HREF.CMP's verdict. -/
def sameObject (a b : Word64) (ba bb : Option Nat) : Bool :=
  (refTag a == 0 && refTag b == 0) || (ba.isSome && ba == bb)

def execHrefCmp (x : Form) (s : State) : Out State :=
  laneSet s x false fun i ps => withCtx s i fun c =>
    match checkAll i ps fun f => ((srcRef i x.an f).and (srcRef i x.bn f)).bind fun p =>
        ((baseOf s c i.ref.core p.1).and (baseOf s c i.ref.core p.2)).map fun q => sameObject p.1 p.2 q.1 q.2 with
    | .error e => .error e
    | .ok vs => .ok ((s.onFibres i vs fun r f => f.setPred x.dn r).advance i x.words)

def execHrefIsnull (x : Form) (s : State) : Out State :=
  laneSet s x false fun i ps =>
    match checkAll i ps fun f => (srcRef i x.an f).map fun r => refTag r == 0 with
    | .error e => .error e
    | .ok vs => .ok ((s.onFibres i vs fun r f => f.setPred x.dn r).advance i x.words)

def execHrefMov (x : Form) (s : State) : Out State :=
  laneSet s x false fun i ps =>
    match checkAll i ps fun f => (srcRef i x.an f).and (destRef i x.dn f) with
    | .error e => .error e
    | .ok vs => .ok ((s.onFibres i vs fun p f => f.setH x.dn p.1).advance i x.words)

def execHrefFrom (x : Form) (s : State) : Out State :=
  laneSet s x false fun i ps =>
    match checkAll i ps fun f => (srcA64 x f).and (destRef i x.dn f) with
    | .error e => .error e
    | .ok vs => .ok ((s.onFibres i vs fun p f => f.setH x.dn p.1).advance i x.words)

def execHrefTo (x : Form) (s : State) : Out State :=
  laneWrite s x true fun i f => srcRef i x.an f

/-! ### HNEW (R162) -/

/-- One lane of HNEW: the size, and the allocator line of a request that is sent. -/
def srcNew (s : State) (i : Iss) (c : Context) (x : Form) (f : Fibre) : Chk (Nat × Option Loc) :=
  let region := x.mf 8 0
  (if x.hasImm then .ok x.immZ else (srcA x f).map (·.toNat)).bind fun size =>
    if size < 16 ∨ 65536 < size ∨ c.regionValid region = false then .ok (size, none)
    else (Chk.ofExcept (c.regionAlloc region)
      (s.pageCheck c i.crew.level .atomic .dev (c.regionAlloc region) (c.regionAlloc region) 0)).map fun l => (size, some l)

def execHnew (x : Form) (s : State) : Out State :=
  laneSet s x false fun i ps =>
    if i.begun then continueAtomic s i
    else withCtx s i fun c =>
      match checkAll i ps fun f => (srcNew s i c x f).and (destRef i x.dn f) with
      | .error e => .error e
      | .ok vs =>
        beginAtomic s i ps
          { kind := .hnew x.dn
            todo := vs.filterMap fun v => v.2.1.2.map fun l =>
              { lane := v.1, loc := l, op := .hnew (x.mf 8 0) v.2.1.1, e := 0 }
            release := none, size := 8, lanes := vs.map (·.1)
            replies := (vs.filter fun v => v.2.1.2.isNone).map fun v =>
              { lane := v.1, val := 0, status := false, poison := false, refused := false }
            acquire := none, len := x.words, addrs := [] } id

/-! ### Relocation lists (R163) -/

/-- What the Goat is to do with an entry: the source's region and base, the new base and the lines. -/
structure GoatPlan where
  region : Nat
  old : Nat
  new : Nat
  lines : Nat
  deriving DecidableEq, Repr

/-- Do all lines from a base on pass the Goat's checks for an access (R163, R300)? -/
def State.linesOk (s : State) (c : Context) (lv : Level) (a : Access) (base : Nat) : Nat → Bool
  | 0 => true
  | n + 1 => s.linesOk c lv a base n && (match s.pageCheckBy c true lv a .heap 0 (base + 128 * n) 0 with
      | .ok _ => true
      | .error _ => false)

/-- Is RS clear on every line of a destination? -/
def State.linesFree (s : State) (c : Context) (base : Nat) : Nat → Bool
  | 0 => true
  | n + 1 => s.linesFree c base n && (match s.leaf? c (base + 128 * n) with
      | some e => !leafRS e.1
      | none => false)

/-- An entry's plan; none where its status is 3 (R163). A SRC that is not usable traps at issue (R154); one that has become so since is among
these. -/
def State.goatPlan (s : State) (c : Context) (lv : Level) (entry : Nat) : Option GoatPlan :=
  let src := BitVec.ofNat 64 (s.iaVal c entry 8)
  let dst := BitVec.ofNat 64 (s.iaVal c (entry + 8) 8)
  if !c.usable src || !c.usable dst then none
  else
    let p : GoatPlan := { region := refRegion src, old := refBase src, new := refBase dst,
                          lines := ceilDiv (s.objSize c (refBase src)) 128 }
    if decide (p.old < p.new + 128 * p.lines) && decide (p.new < p.old + 128 * p.lines) then none
    else if decide (p.new < c.regionBase (refRegion dst)) || decide (c.regionLimit (refRegion dst) < p.new + 128 * p.lines)
      then none
    else if s.linesFree c p.new p.lines && s.linesOk c lv .load p.old p.lines && s.linesOk c lv .store p.new p.lines
      then some p
    else none

/-- The PA lines of a plan's destination. -/
def State.planLines (s : State) (c : Context) (p : GoatPlan) : List Nat :=
  (List.range p.lines).filterMap fun k => (s.iaLoc c (p.new + 128 * k)).map fun l => lineOf l.pa

/-- The status word of an entry. -/
def goatStatus (list k : Nat) : Nat := list + 32 * k + 16

/-- The destination lines of every entry of a list that is still to be moved. -/
def State.goatLines (s : State) (c : Context) (lv : Level) (list count : Nat) : List Nat :=
  (List.range count).flatMap fun k =>
    if s.iaVal c (goatStatus list k) 8 = 1 then []
    else match s.goatPlan c lv (list + 32 * k) with
      | some p => s.planLines c p
      | none => []

/-- One address of a list: it can be read and written, and lies in a DEV range. -/
def checkListAt (s : State) (i : Iss) (a : Nat) : Chk Loc :=
  (((Chk.ofExcept a (s.translate i.crew.part i.crew.level .load a)).and
    (Chk.ofExcept a (s.translate i.crew.part i.crew.level .store a))).and (devRange s i a)).map fun p => p.1.1

/-- The checks of HRELOC's list at issue, which compete (R9): alignment, count, and every page of the list, in one DEV range (R163).
(DESIGN CHOICE, unsafe, log 38) -/
def checkList (s : State) (i : Iss) (va n : Nat) : Chk Loc :=
  let last := va + 32 * n - 1
  let others := if n = 0 then []
    else ((List.range (last / 65536 - va / 65536)).map fun k => (va / 65536 + k + 1) * 65536) ++ [last]
  (((Chk.guard (va % 32 == 0) .alignment va).and (Chk.guard (decide (n ≤ 2 ^ 20)) .heapTag 0)).and
    (others.foldl (fun (c : Chk Loc) a =>
        (c.and (checkListAt s i a)).bind fun p => (Chk.guard (p.1.range == p.2.range) .rangeMiss a).map fun _ => p.1)
      (checkListAt s i va))).map (·.2)

/-- The first SRC of a list's entries still to be moved that is not usable. -/
def State.badSource (s : State) (c : Context) (list n : Nat) : Option Word64 :=
  (List.range n).findSome? fun k =>
    let r := BitVec.ofNat 64 (s.iaVal c (list + 32 * k) 8)
    if s.iaVal c (goatStatus list k) 8 = 1 || c.usable r then none else some r

/-- A list whose sources are usable references; the first that is not traps HEAP_TAG with it as the address (R154). R163 gives such an entry
status 3, which the model keeps for one that becomes unusable after issue. (DESIGN CHOICE, unsafe, log 38) -/
def checkSources (s : State) (c : Context) (n : Nat) (l : Loc) : Chk Loc :=
  match s.badSource c l.ia n with
  | some r => .trap .heapTag (tagAddr r)
  | none => .ok l

/-- Relocation lists that a crew has in flight. -/
def State.goatsOf (s : State) (k : Crew) : Nat :=
  (s.engines.filter fun e => e.ofCrew k && match e.job with
    | .goat _ _ _ _ _ _ => true
    | _ => false).length

def execHreloc (x : Form) (s : State) : Out State :=
  uniSet s x .vector fun i => withCtx s i fun c =>
    match needLevel i (i.crew.level != .u) with
    | .error e => .error e
    | .ok _ => match kFree i [(x.an, true), (x.an + 2, false)] with
      | .error e => .error e
      | .ok _ =>
        let n := (i.flock.kreg (x.an + 2)).toNat
        match checkOne i ((checkList s i ((i.flock.kpair x.an).toNat % 2 ^ 57) n).bind (checkSources s c n)) with
        | .error e => .error e
        | .ok l =>
          if 2 ≤ s.goatsOf i.crew then .error .wait
          else
            engineIssue s i x.words (fun t => t.goatLines c i.crew.level l.ia n) fun t id =>
              { t with
                engines := t.engines ++ [i.engine id (t.goatLines c i.crew.level l.ia n) (some x.dn)
                  (.goat (dieOf i.ref.core) l.ia n 0 false none)] }

/-! ### The Goat's steps (R164-R166) -/

/-- The Goat is done with an entry: its status, ownership of the destination lines given up, the next entry in hand. -/
def State.goatNext (s : State) (c : Context) (e : Engine) (die list count k status : Nat) (lines : List Nat) : State :=
  (s.iaWrite c (goatStatus list k) 8 status).updEngine e.id fun x =>
    { x with owned := x.owned.filter (fun l => !lines.contains l), job := .goat die list count (k + 1) false none }

/-- Is another Goat at work on the object with an old base? (R169) -/
def State.goatAt (s : State) (c : Context) (id old : Nat) : Bool :=
  s.engines.any fun e => e.id != id && e.part == c.part && match e.job with
    | .goat _ list _ k true _ => refBase (BitVec.ofNat 64 (s.iaVal c (list + 32 * k) 8)) == old
    | _ => false

/-- E20. -/
def State.claim (s : State) (e : Engine) (die list count k : Nat) : Option State :=
  (s.ctx? e.part).bind fun c =>
    let st := s.iaVal c (goatStatus list k) 8
    match s.goatPlan c e.level (list + 32 * k) with
    | none => some (s.goatNext c e die list count k (if st = 1 then 1 else 3) [])
    | some p =>
      let ls := s.planLines c p
      let claimed := fun (t : State) => t.updEngine e.id fun x => { x with job := .goat die list count k true none }
      if st = 1 then some (s.goatNext c e die list count k 1 ls)
      else if s.goatAt c e.id p.old then none
      else if s.objPins c p.old ≠ 0 then some (s.goatNext c e die list count k 2 ls)
      else match s.forward? c p.region p.old with
        | some f => if f.new = p.new then some (claimed s) else some (s.goatNext c e die list count k 4 ls)
        | none =>
          match s.freeSlot c (c.regionFwd p.region) (c.regionFwdn p.region) p.old 0 (c.regionFwdn p.region) with
          | none => some (s.goatNext c e die list count k 5 ls)
          | some a =>
            let s1 := s.setMoving c p.old true
            let s2 := s1.iaWrite c a 8 (p.old + 1)
            let s3 := s2.iaWrite c (a + 8) 8 p.new
            let s4 := s3.iaWrite c (a + 16) 4 0
            some (claimed (s4.iaWrite c (a + 20) 4 p.lines))

/-- Is it a pin, which waits for E23 (R161)? -/
def Entry.isPin (e : Entry) : Bool := match e.kind with
  | .atomic .pin _ _ => true
  | _ => false

/-- Entries of a store buffer or queue that E21 drains: those for the line but a pin. -/
def Entry.heldBy (e : Entry) (part line : Nat) : Bool := !e.isRel && e.part == part && e.line == line && !e.isPin

/-- E2 until no store buffer holds an entry for the line. -/
def State.passLine (s : State) (part line : Nat) : State :=
  (s.sb.filter fun e => e.heldBy part line).foldl (fun s e => s.passAll e.core e.fib) s

/-- Does an entry wait for a Goat: a pin, or an entry for a line that a Goat owns (R161, R166)? -/
def State.waitsGoat (s : State) (e : Entry) : Bool :=
  e.isPin || s.engines.any fun g => g.part == e.part && g.owned.contains e.line && (match g.job with
    | .goat _ _ _ _ _ _ => true
    | _ => false)

/-- May E21 make an entry perform its E4, with these entries ahead of it: no rel entry is ahead, which would have to drain first, or what one
waits for itself waits for a Goat, so that E21 would never come (R93, R166)? (DESIGN CHOICE, unsafe, log 89) -/
def State.mayForce (s : State) (ahead : List Entry) : Bool :=
  let upToRel := (ahead.reverse.dropWhile fun d => !d.isRel).reverse
  upToRel.isEmpty || upToRel.any s.waitsGoat

/-- E4 of a queue's entries for the line in order; none where one of them must wait. `ahead` holds what stands before those in hand. -/
def State.forceAll (s : State) (part line : Nat) : List Entry → List Entry → Option State
  | _, [] => some s
  | ahead, e :: r =>
    if !e.heldBy part line then State.forceAll s part line (ahead ++ [e]) r
    else if !s.mayForce ahead then none
    else match ({ s with rq := dropFirst (· == e) s.rq }).applyEntry e with
      | none => none
      | some s1 => State.forceAll s1 part line ahead r

/-- E4 of every core's entries for the line. -/
def State.drainLine (s : State) (part line : Nat) : Option State :=
  let cores := (s.rq.filter fun e => e.heldBy part line).foldl (fun l e => insertAsc e.core l) []
  cores.foldl (fun o c => o.bind fun s => s.forceAll part line [] (s.rq.filter fun e => e.core == c)) (some s)

/-- Is a crew between the two checkpoints of R140 of a pin, which may wait for the Goat's E23 (R161)? -/
def Crew.waitsPin (k : Crew) : Bool :=
  k.between && k.live.flocks.any fun f => f.batches.any fun b => match b.wait with
    | .atomic w => (match w.kind with
      | .pin _ => true
      | _ => false)
    | _ => false

/-- May the checkpoint that E21 forces of a crew be taken now (R168, R314, R315)? A crew that waits for a pin, which may wait for this very
Goat, does not wait for the second checkpoint of R140. (DEDUCED, safe, log 34) -/
def State.goatReady (s : State) (k : Crew) : Bool := if k.waitsPin then s.ckptDrained k else s.ckptReady k

/-- E10 of the crews that hold a version of a line: a checkpoint of each, which raises SR.CKPTN (R168, R315); none while one of them cannot
be taken. -/
def State.commitHolders (s : State) (part line : Nat) : Option State :=
  let ks := s.versionHolders part [line]
  if ks.all fun p => match s.crew? p.1 p.2 with
      | some k => s.goatReady k
      | none => true
  then some (ks.foldl (fun s p => s.checkpoint p.1 p.2) s) else none

/-- Mark crews whose checkpoint is awaited; none where they are marked already. -/
def State.markDue (s : State) (ks : List (Nat × Nat)) : Option State :=
  let todo := ks.filter fun p => match s.crew? p.1 p.2 with
    | some k => !k.ckptDue && (!k.between || k.waitsPin)
    | none => false
  if todo.isEmpty then none
  else some (todo.foldl (fun s p => s.updCrew p.1 p.2 fun x => { x with ckptDue := true }) s)

/-- A partition's line that the Goat or the migration Mule takes: every entry for it drained, every version committed, every copy dropped, its
owner set; the crews that stand in the way are asked for their checkpoints. -/
def State.takeLine (s : State) (id part line : Nat) : Option State :=
  match (s.passLine part line).drainLine part line with
  | none => none
  | some s1 => match s1.commitHolders part line with
    | none => s.markDue (s1.versionHolders part [line])
    | some s2 =>
      some ((s2.dropL1All part line).updEngine id fun x => { x with owned := insertAsc line x.owned })

/-- The Goat gives an entry up that it has claimed: a line of it faults, or its forwarding entry is gone (R163). The forwarding entry and
MOVING stay as they are. (DESIGN CHOICE, unsafe, log 90) -/
def State.goatGiveUp (s : State) (c : Context) (e : Engine) (die list count k : Nat) : State :=
  let old := refBase (BitVec.ofNat 64 (s.iaVal c (list + 32 * k) 8))
  let new := refBase (BitVec.ofNat 64 (s.iaVal c (list + 32 * k + 8) 8))
  let held := match e.job with
    | .goat _ _ _ _ _ (some ln) => [ln]
    | _ => []
  s.goatNext c e die list count k 3
    (held ++ s.planLines c { region := 0, old := old, new := new, lines := ceilDiv (s.objSize c old) 128 })

/-- E21. (DESIGN CHOICE, safe, log 69) -/
def State.hold (s : State) (e : Engine) (die list count k : Nat) : Option State :=
  (s.ctx? e.part).bind fun c =>
    match (s.goatPlan c e.level (list + 32 * k)).bind fun p => (s.forward? c p.region p.old).map fun f => (p, f) with
    | none => some (s.goatGiveUp c e die list count k)
    | some (p, f) =>
      if f.lines ≤ f.progress then none
      else match s.iaLoc c (p.old + 128 * f.progress) with
        | none => some (s.goatGiveUp c e die list count k)
        | some l =>
          if s.engines.any fun x => x.id != e.id && x.part == e.part && x.owned.contains (lineOf l.pa) then none
          else (s.takeLine e.id e.part (lineOf l.pa)).map fun t =>
            if (t.engine? e.id).any fun x => x.owned.contains (lineOf l.pa) then
              t.updEngine e.id fun x => { x with job := .goat die list count k true (some (lineOf l.pa)) }
            else t

/-- E22 of the line held, or E23 when every line is copied. -/
def State.copyOrFinish (s : State) (e : Engine) (die list count k : Nat) (held : Option Nat) : Option State :=
  (s.ctx? e.part).bind fun c =>
    let giveUp := s.goatGiveUp c e die list count k
    match held with
    | some ln =>
      if (s.goatPlan c e.level (list + 32 * k)).isNone then some giveUp
      else some ((s.goatCopy e die list count k ln).getD giveUp)
    | none =>
      let src := BitVec.ofNat 64 (s.iaVal c (list + 32 * k) 8)
      match s.forward? c (refRegion src) (refBase src) with
      | none => some giveUp
      | some f =>
        if f.progress < f.lines then none
        else some (((s.iaWrite c f.at_ 8 (refBase src + 2)).setMoving c f.new false).goatNext c e die list count k 1 [])

end Sys2Proof.Machine
end

