-- ==== Sys2Proof/Machine/IntOps.lean ====
section
/-! DEFINITION. Integer, logic, compare and predicate instructions of the lane and the uniform set, and the moves that only
read registers (R65-R76, R79, R80). -/

namespace Sys2Proof.Machine

/-! ### Results (R66-R73), shared by the lane and the uniform instructions -/

/-- R67: clamp under .SAT, else wrap. -/
def intOut (sat n : Bool) (w : Nat) (r : Int) : BitVec w :=
  BitVec.ofInt w (if sat then clampInt r (intLo n w) (intHi n w) else r)

/-- TY 1 reads naturals (R66). -/
def Form.nat? (x : Form) : Bool := x.ty == 1

/-- A 32-bit source as its type reads it. -/
def rd32 (x : Form) (a : Word) : Int := readInt (Form.nat? x) 32 a.toNat
def rd64 (x : Form) (a : Word64) : Int := readInt (Form.nat? x) 64 a.toNat

/-- An exact result of TY's type narrowed to a register. -/
def out32 (x : Form) (r : Int) : Word := intOut x.sat (Form.nat? x) 32 r
def out64 (x : Form) (r : Int) : Word64 := intOut x.sat (Form.nat? x) 64 r

def aluAdd (x : Form) (a b : Word) : Word := out32 x (rd32 x a + rd32 x b)
def aluSub (x : Form) (a b : Word) : Word := out32 x (rd32 x a - rd32 x b)
def aluMul (x : Form) (a b : Word) : Word := out32 x (rd32 x a * rd32 x b)
def aluMulh (x : Form) (a b : Word) : Word := out32 x (rd32 x a * rd32 x b / 2 ^ 32)
def aluMad (x : Form) (a b c : Word) : Word := out32 x (rd32 x a * rd32 x b + rd32 x c)
def aluAdd64 (x : Form) (a b : Word64) : Word64 := out64 x (rd64 x a + rd64 x b)
def aluMin (x : Form) (a b : Word) : Word := out32 x (min (rd32 x a) (rd32 x b))
def aluMax (x : Form) (a b : Word) : Word := out32 x (max (rd32 x a) (rd32 x b))
def aluAbs (x : Form) (a : Word) : Word := out32 x (rd32 x a).natAbs

/-- IDIV and IREM, with the cases that have no ordinary quotient (R69). -/
def aluDiv (x : Form) (a b : Word) : Word :=
  if b = 0 then
    (if Form.nat? x then 0xFFFFFFFF else if rd32 x a < 0 then 0xFFFFFFFF else 0x7FFFFFFF)
  else BitVec.ofInt 32 ((rd32 x a).tdiv (rd32 x b))
def aluRem (x : Form) (a b : Word) : Word :=
  if b = 0 then a else BitVec.ofInt 32 ((rd32 x a).tmod (rd32 x b))

/-- Shifts; the count is a natural 32-bit value (R70). -/
def aluShl (a b : Word) : Word := a <<< b.toNat
def aluShr (a b : Word) : Word := a >>> b.toNat
def aluSar (a b : Word) : Word := a.sshiftRight b.toNat
def aluRot (a b : Word) : Word := a.rotateLeft (b.toNat % 32)

/-- A word whose bit j is `g j`. -/
def ofBits (g : Nat → Bool) : Word :=
  (List.range 32).foldl (fun v j => if g j then v ||| BitVec.ofNat 32 (2 ^ j) else v) 0

/-- Position and length of a bit field (R71). -/
def fieldPos (b : Word) : Nat := b.toNat % 256
def fieldLen (b : Word) : Nat := min (b.toNat / 256 % 256) 32

/-- BFX (R71). -/
def aluBfx (x : Form) (a b : Word) : Word :=
  let bitOf := fun j => if fieldPos b + j ≤ 31 then a.getLsbD (fieldPos b + j) else !Form.nat? x && a.getLsbD 31
  if fieldLen b = 0 then 0
  else ofBits fun j => if j < fieldLen b then bitOf j else !Form.nat? x && bitOf (fieldLen b - 1)

/-- BFI (R71). -/
def aluBfi (a b c : Word) : Word :=
  ofBits fun n => if fieldPos b ≤ n ∧ n < fieldPos b + fieldLen b then a.getLsbD (n - fieldPos b) else c.getLsbD n

def aluPopc (a : Word) : Word := BitVec.ofNat 32 ((List.range 32).filter fun j => a.getLsbD j).length
def aluClz (a : Word) : Word := BitVec.ofNat 32 (if a = 0 then 32 else 31 - Nat.log2 a.toNat)
def aluBrev (a : Word) : Word := ofBits fun j => a.getLsbD (31 - j)

/-- BLUT: the table L in CF[7:0] (R72). -/
def aluBlut (x : Form) (a b c : Word) : Word :=
  ofBits fun j => lookup (x.cf % 256) (a.getLsbD j) (b.getLsbD j) (c.getLsbD j)

/-- LEA: the shift in CF[4:0] (R72). -/
def aluLea (x : Form) (a b : Word) : Word := a + b <<< (x.cf % 32)

/-- BPICK: one byte of the result from its 6-bit field (R72). -/
def pickByte (a b : Word) (s : Nat) : Nat :=
  let src := (b.toNat * 2 ^ 32 + a.toNat) / 2 ^ (8 * (s % 8)) % 256
  let v := if bitAt s 4 then 0 else if bitAt s 3 then (if 128 ≤ src then 255 else 0) else src
  if bitAt s 5 then 255 - v else v

def aluBpick (a b c : Word) : Word :=
  BitVec.ofNat 32 ((List.range 4).foldl (fun v i => v + pickByte a b (bits c.toNat (6 * i + 5) (6 * i)) * 2 ^ (8 * i)) 0)

/-- IDP4: TY gives the types of the bytes of a and b (R73). -/
def aluIdp4 (x : Form) (a b c : Word) : Word :=
  let na := x.ty == 1 || x.ty == 3
  let nb := x.ty == 1 || x.ty == 2
  let n := x.ty == 1
  let sum := (List.range 4).foldl (fun v i =>
    v + readInt na 8 (a.toNat / 2 ^ (8 * i)) * readInt nb 8 (b.toNat / 2 ^ (8 * i))) 0
  intOut x.sat n 32 (readInt n 32 c.toNat + sum)

/-- MOVHI (R76). -/
def aluMovhi (x : Form) (a : Word) : Word := BitVec.ofNat 32 (x.immZ * 65536 + a.toNat % 65536)

/-! ### Lane instructions, 0x00-0x1B (R68) -/

def execIadd (x : Form) (s : State) : Out State := lane2 s x (immWord x) fun _ _ => aluAdd x
def execIsub (x : Form) (s : State) : Out State := lane2 s x (immWord x) fun _ _ => aluSub x
def execImul (x : Form) (s : State) : Out State := lane2 s x (immWord x) fun _ _ => aluMul x
def execImulh (x : Form) (s : State) : Out State := lane2 s x (immWord x) fun _ _ => aluMulh x
def execImad (x : Form) (s : State) : Out State := lane3 s x (immWord x) fun _ _ => aluMad x
def execIadd64 (x : Form) (s : State) : Out State := lanePair2 s x (aluAdd64 x)
def execImin (x : Form) (s : State) : Out State := lane2 s x (immWord x) fun _ _ => aluMin x
def execImax (x : Form) (s : State) : Out State := lane2 s x (immWord x) fun _ _ => aluMax x
def execIabs (x : Form) (s : State) : Out State := lane1 s x fun _ _ => aluAbs x
def execIdiv (x : Form) (s : State) : Out State := lane2 s x (immWord x) fun _ _ => aluDiv x
def execIrem (x : Form) (s : State) : Out State := lane2 s x (immWord x) fun _ _ => aluRem x
def execAnd (x : Form) (s : State) : Out State := lane2 s x (immWord x) fun _ _ a b => a &&& b
def execOr (x : Form) (s : State) : Out State := lane2 s x (immWord x) fun _ _ a b => a ||| b
def execXor (x : Form) (s : State) : Out State := lane2 s x (immWord x) fun _ _ a b => a ^^^ b
def execAndn (x : Form) (s : State) : Out State := lane2 s x (immWord x) fun _ _ a b => a &&& ~~~b
def execBlut (x : Form) (s : State) : Out State := lane3 s x 0 fun _ _ => aluBlut x
def execShl (x : Form) (s : State) : Out State := lane2 s x (immWord x) fun _ _ => aluShl
def execShr (x : Form) (s : State) : Out State := lane2 s x (immWord x) fun _ _ => aluShr
def execSar (x : Form) (s : State) : Out State := lane2 s x (immWord x) fun _ _ => aluSar
def execRot (x : Form) (s : State) : Out State := lane2 s x (immWord x) fun _ _ => aluRot
def execBfx (x : Form) (s : State) : Out State := lane2 s x (immWord x) fun _ _ => aluBfx x
def execBfi (x : Form) (s : State) : Out State := lane3 s x (immWord x) fun _ _ => aluBfi
def execPopc (x : Form) (s : State) : Out State := lane1 s x fun _ _ => aluPopc
def execClz (x : Form) (s : State) : Out State := lane1 s x fun _ _ => aluClz
def execBrev (x : Form) (s : State) : Out State := lane1 s x fun _ _ => aluBrev
def execLea (x : Form) (s : State) : Out State := lane2 s x (immWord x) fun _ _ => aluLea x

/-- BPICK: an immediate replaces C, zero-extended (R72). -/
def execBpick (x : Form) (s : State) : Out State :=
  laneWrite s x false fun _ f =>
    ((srcA x f).and ((readSrc f x.bn x.eb).and (if x.hasImm then .ok (immZWord x) else srcC x f))).map
      fun p => (aluBpick p.1 p.2.1 p.2.2).setWidth 64

def execIdp4 (x : Form) (s : State) : Out State := lane3 s x 0 fun _ _ => aluIdp4 x

/-! ### Compares and predicate logic (R74, R75) -/

def execIcmp (x : Form) (s : State) : Out State :=
  let wide := decide (2 ≤ x.ty)
  lanePred s x (x.mf 26 20) fun f =>
    ((readWide f x.an wide x.ea).and
      (if x.hasImm then .ok (immWord64 x) else readWide f x.bn wide x.eb)).map fun p =>
        combine (x.mf 18 17) (icompare (x.mf 16 14) x.ty p.1 p.2) (combPred x f.pred)

def execPlut (x : Form) (s : State) : Out State :=
  laneSet s x false fun i ps =>
    .ok ((s.onFibres i (ps.map fun f =>
      (f.lane, lookup (x.cf % 256) (f.pred x.an) (f.pred x.bn) (f.pred x.cn)))
      fun r f => f.setPred x.dn r).advance i x.words)

/-- FCLASS (R202). -/
def execFclass (x : Form) (s : State) : Out State :=
  lanePred s x (x.mf 26 20) fun f => (srcA x f).map fun a => fclassResult x a.toNat

def execFcmp (x : Form) (s : State) : Out State :=
  lanePred s x (x.mf 26 20) fun f =>
    ((srcA x f).and (srcB x (immFloat x) f)).map fun p => fcmpResult fp32 x false p.1.toNat p.2.toNat f.pred

def execHcmp (x : Form) (s : State) : Out State :=
  lanePred s x (x.mf 26 20) fun f =>
    ((srcA x f).and (srcB x (immHalf x) f)).map fun p => fcmpResult fp16 x (x.ty == 1) p.1.toNat p.2.toNat f.pred

def execBcmp (x : Form) (s : State) : Out State :=
  lanePred s x (x.mf 26 20) fun f =>
    ((srcA x f).and (srcB x (immHalf x) f)).map fun p => fcmpResult bf16 x (x.ty == 1) p.1.toNat p.2.toNat f.pred

/-! ### Moves (R76) -/

def execMov (x : Form) (s : State) : Out State := lane1 s x fun _ _ a => a
def execMovi (x : Form) (s : State) : Out State := laneWrite s x false fun _ _ => .ok ((immWord x).setWidth 64)
def execMovhi (x : Form) (s : State) : Out State := lane1 s x fun _ _ => aluMovhi x

def execSel (x : Form) (s : State) : Out State :=
  laneWrite s x false fun _ f =>
    ((srcA x f).and (srcB x (immWord x) f)).map fun p => (if f.pred x.cn then p.1 else p.2).setWidth 64

/-- PTOV: predicates 32g to 32g + 31 as a word; p0 reads 1. -/
def execPtov (x : Form) (s : State) : Out State :=
  laneWrite s x false fun _ f => .ok ((ofBits fun j => f.pred (32 * x.an + j)).setWidth 64)

/-- VTOP: where b has a bit, the predicate takes a's; p0 is not written. -/
def vtop (g : Nat) (a b : Word) (f : Fibre) : Fibre :=
  (List.range 32).foldl (fun f j => if b.getLsbD j then f.setPred (32 * g + j) (a.getLsbD j) else f) f

def execVtop (x : Form) (s : State) : Out State :=
  laneSet s x false fun i ps =>
    match checkAll i ps fun f => (srcA x f).and (readSrc f x.bn x.eb) with
    | .error e => .error e
    | .ok vs => .ok ((s.onFibres i vs fun v f => vtop x.dn v.1 v.2 f).advance i x.words)

/-- URD: k of the fibre's flock, after an outstanding ULD of it (R76, R112). -/
def execUrd (x : Form) (s : State) : Out State :=
  laneSet s x false fun i ps =>
    match checkAll i ps fun f => destOk f x.dn, kFree i [(x.an, false)] with
    | .error e, _ => .error e
    | .ok _, .error e => .error e
    | .ok vs, .ok _ =>
      .ok (s.laneResult i x false (vs.map fun (p : Nat × Unit) => (p.1, (i.flock.kreg x.an).setWidth 64)))

/-! ### Uniform integer instructions, 0x00-0x14 (R79, R80) -/

def execUadd (x : Form) (s : State) : Out State := uni2 s x (aluAdd x)
def execUsub (x : Form) (s : State) : Out State := uni2 s x (aluSub x)
def execUmul (x : Form) (s : State) : Out State := uni2 s x (aluMul x)
def execUmad (x : Form) (s : State) : Out State := uni3 s x (aluMad x)
def execUmin (x : Form) (s : State) : Out State := uni2 s x (aluMin x)
def execUmax (x : Form) (s : State) : Out State := uni2 s x (aluMax x)
def execUand (x : Form) (s : State) : Out State := uni2 s x fun a b => a &&& b
def execUor (x : Form) (s : State) : Out State := uni2 s x fun a b => a ||| b
def execUxor (x : Form) (s : State) : Out State := uni2 s x fun a b => a ^^^ b
def execUshl (x : Form) (s : State) : Out State := uni2 s x aluShl
def execUshr (x : Form) (s : State) : Out State := uni2 s x aluShr
def execUsar (x : Form) (s : State) : Out State := uni2 s x aluSar
def execUmov (x : Form) (s : State) : Out State := uni1 s x fun a => a
def execUmovi (x : Form) (s : State) : Out State := uniWrite s x .any false [] fun _ => (immWord x).setWidth 64
def execUmovhi (x : Form) (s : State) : Out State := uni1 s x (aluMovhi x)

def execUsel (x : Form) (s : State) : Out State :=
  uniWrite s x .any false (regsAB x) fun i =>
    (if i.flock.qpred x.cn then i.flock.kreg x.an else uniB x (immWord x) i.flock).setWidth 64

def execUlea (x : Form) (s : State) : Out State := uni2 s x (aluLea x)

def execUcmp (x : Form) (s : State) : Out State :=
  let wide := decide (2 ≤ x.ty)
  uniSet s x .any fun i =>
    match kFree i ((x.an, wide) :: (if x.hasImm then [] else [(x.bn, wide)])) with
    | .error e => .error e
    | .ok _ =>
      let a := if wide then i.flock.kpair x.an else (i.flock.kreg x.an).setWidth 64
      let b := if x.hasImm then immWord64 x else if wide then i.flock.kpair x.bn else (i.flock.kreg x.bn).setWidth 64
      .ok (s.uniPredResult i x (x.mf 26 20)
        (combine (x.mf 18 17) (icompare (x.mf 16 14) x.ty a b) (combPred x i.flock.qpred)))

def execUplut (x : Form) (s : State) : Out State :=
  uniSet s x .any fun i =>
    let r := lookup (x.cf % 256) (i.flock.qpred x.an) (i.flock.qpred x.bn) (i.flock.qpred x.cn)
    .ok ((s.onFlock i fun f => f.setQ x.dn r).advance i x.words)

/-- A UFROM whose source is empty takes the flock's uniform pipe and holds it until the register is full (R80). -/
def holdPipe (s : State) (i : Iss) : Res State :=
  if i.flock.pipe.isSome then .error .wait
  else .ok ((s.onFlock i fun f => { f with pipe := some i.ref.lane }).onBatch i fun b => { b with phase := 1 })

/-- UFROM: the lane register of the fibre in the lowest lane slot of the batch, whatever its predicates hold (R80); a trap
carries every active fibre of the batch (R34). -/
def execUfrom (x : Form) (s : State) : Out State :=
  uniSet s x .any fun i =>
    match checkOne i (match i.lead with | some f => srcA x f | none => .ok 0) with
    | .error .wait => holdPipe s i
    | .error e => .error e
    | .ok v => match kFree i [(x.dn, false)] with
      | .error e => .error e
      | .ok _ => .ok ((s.uniResult i x false (v.setWidth 64)).onFlock i fun f => { f with pipe := none })

end Sys2Proof.Machine
end

