-- ==== Sys2Proof/Machine/Flow.lean ====
section
/-! DEFINITION. The flow instructions: branches, calls, spawning and ending fibres, RCV, UBRA and NOP (R81-R88), with the
splitting and merging of batches (R32, R33) and the waits that an ending fibre can close. -/

namespace Sys2Proof.Machine

/-! ### Batches split (R32) -/

/-- One batch per distinct PC among (lane, PC) pairs, each with the age of the batch they come from. -/
def splitGroups (b : Batch) : List (Nat × Nat) → List Batch → List Batch
  | [], acc => acc
  | (l, pc) :: r, acc =>
    if acc.any fun g => g.pc == pc then
      splitGroups b r (updFirst (fun g => g.pc == pc) (fun g => { g with lanes := g.lanes ++ [l] }) acc)
    else splitGroups b r (acc ++ [{ b with pc := pc, lanes := [l], wait := .none, phase := 0, tag := 0, held := none }])

/-- Replace the batch that holds a lane by the batches of a split. -/
def Flock.split (f : Flock) (lane : Nat) (pcs : List (Nat × Nat)) : Flock :=
  match f.batchAt? lane with
  | none => f
  | some b =>
    { f with batches := (f.batches.filter fun x => !x.lanes.contains lane) ++ splitGroups b pcs [] }

/-- Move each active fibre to its own PC: the target given for its lane, else the next sequential PC (R32, R83). A fibre whose guard is false
and a fibre whose target is the next sequential PC stay in one batch, since its fibres are at one PC. (DESIGN CHOICE, unsafe, log 85) -/
def State.branch (s : State) (i : Iss) (words : Nat) (targets : List (Nat × Nat)) : State :=
  let next := pcPlus i.batch.pc words
  s.onFlock i fun fl => fl.split i.ref.lane (i.active.map fun f =>
    (f.lane, ((targets.find? fun t => t.1 == f.lane).map (·.2)).getD next))

/-- The parts of a batch that takes a branch in some lanes: those that take it and those that do not, even where both come to one PC
(R32, R82). -/
def forkParts (b : Batch) (taken : List Nat) (target next : Nat) : List Batch :=
  ([(target, b.lanes.filter taken.contains), (next, b.lanes.filter fun l => !taken.contains l)].filter fun p => !p.2.isEmpty).map
    fun p => { b with pc := p.1, lanes := p.2, wait := .none, phase := 0, tag := 0, held := none }

/-- Replace the batch that holds a lane by its parts. -/
def Flock.fork (f : Flock) (lane : Nat) (taken : List Nat) (target next : Nat) : Flock :=
  match f.batchAt? lane with
  | none => f
  | some b => { f with batches := (f.batches.filter fun x => !x.lanes.contains lane) ++ forkParts b taken target next }

/-- A branch of some lanes to one target. -/
def State.fork (s : State) (i : Iss) (words : Nat) (taken : List Nat) (target : Nat) : State :=
  s.onFlock i fun fl => fl.fork i.ref.lane taken target (pcPlus i.batch.pc words)

/-! ### Branches and calls (R82-R84) -/

def execBra (x : Form) (s : State) : Out State :=
  laneSet s x false fun i ps => .ok (s.fork i x.words (ps.map (·.lane)) (immTarget x i.batch.pc))

def execUbra (x : Form) (s : State) : Out State :=
  uniSet s x .any fun i => .ok (s.onBatch i fun b => { b with pc := immTarget x i.batch.pc })

/-- A register target: a pair, 4-aligned (R59, R81). -/
def srcTarget (x : Form) (f : Fibre) : Chk Nat :=
  (srcA64 x f).bind fun v => (Chk.guard (regTarget v % 4 == 0) .alignment (regTarget v)).map fun _ => regTarget v

def execBrx (x : Form) (s : State) : Out State :=
  laneSet s x false fun i ps =>
    match checkAll i ps (srcTarget x) with
    | .error e => .error e
    | .ok ts => .ok (s.branch i x.words ts)

def execRet (x : Form) (s : State) : Out State :=
  laneSet s x false fun i ps =>
    match checkAll i ps (srcTarget x) with
    | .error e => .error e
    | .ok ts => .ok (s.branch i x.words ts)

/-- Write the return address, the next sequential PC, to the pair D of some fibres (R84). -/
def State.linkPair (s : State) (i : Iss) (x : Form) (lanes : List Nat) : State :=
  s.onFibres i (lanes.map fun l => (l, BitVec.ofNat 64 (pcPlus i.batch.pc x.words))) fun v f => f.markFull64 x.dn v

def execCall (x : Form) (s : State) : Out State :=
  laneSet s x false fun i ps =>
    match checkAll i ps fun f => destWide f x.dn true with
    | .error e => .error e
    | .ok _ =>
      .ok ((s.linkPair i x (ps.map (·.lane))).fork i x.words (ps.map (·.lane)) (immTarget x i.batch.pc))

/-- The budget that the call-target tables of a partition's binaries give an address (R84, R361). Of an address listed as a function and
as an entry, the function's budget holds: the spec does not say which. (DESIGN CHOICE, unsafe, log 73) -/
def State.callBudget (s : State) (part va : Nat) : Option Nat :=
  match s.ctx? part with
  | none => none
  | some c =>
    ((c.images.flatMap fun m => m.funcs ++ m.entries.map fun e => (e.va, e.budget)).find? fun p => p.1 == va).map (·.2)

/-- CALLI's target, listed with a budget that the fibre's reservation holds (R84). -/
def calliTarget (s : State) (i : Iss) (x : Form) (f : Fibre) : Chk Nat :=
  (srcTarget x f).bind fun t =>
    (Chk.guard (match s.callBudget i.crew.part t with
      | some b => decide (b ≤ f.budget)
      | none => false) .budgetExceeded t).map fun _ => t

def execCalli (x : Form) (s : State) : Out State :=
  laneSet s x false fun i ps =>
    match checkAll i ps fun f => (calliTarget s i x f).and (destWide f x.dn true) with
    | .error e => .error e
    | .ok ts =>
      .ok ((s.linkPair i x (ps.map (·.lane))).branch i x.words (ts.map fun t => (t.1, t.2.1)))

def execNop (x : Form) (s : State) : Out State := uniSet s x .any fun i => .ok (s.advance i x.words)

/-! ### Waits that close (R87, R275) -/

/-- Is a batch waiting in an RCV at an address? -/
def Batch.inRcv (b : Batch) (addr : Nat) : Bool := match b.wait with
  | .rcv a _ _ => a == addr
  | _ => false

/-- Close the wait of a flock at an address: its batches become one with the age of the oldest (R33, R87). -/
def Flock.closeRcv (f : Flock) (addr : Nat) : Flock :=
  let ins := f.batches.filter fun b => b.inRcv addr
  match minBy (·.age) ins with
  | none => f
  | some o =>
    { f with
      batches := (f.batches.filter fun b => !b.inRcv addr) ++
        [{ o with pc := pcPlus addr 2, lanes := (ins.flatMap (·.lanes)).foldl (fun l x => insertAsc x l) [],
                  wait := .none, phase := 0, tag := 0, held := none }] }

/-- Are all living fibres of the flock in batches of the wait? -/
def Flock.rcvFull (f : Flock) (addr : Nat) : Bool :=
  ((f.batches.filter fun b => b.inRcv addr).flatMap (·.lanes)).length == f.fibres.length

/-- Close every wait of a flock that all its living fibres have reached. -/
def Flock.settle (f : Flock) : Flock :=
  f.batches.foldl (fun g b => match b.wait with
    | .rcv a _ _ => if g.rcvFull a then g.closeRcv a else g
    | _ => g) f

/-- Living fibres of a crew. -/
def CrewCore.living (c : CrewCore) : Nat := c.flocks.foldl (fun n f => n + f.fibres.length) 0

/-- Release BAR when every living fibre has arrived (R275). -/
def CrewCore.settleBar (c : CrewCore) : CrewCore :=
  let waiting := c.flocks.any fun f => f.batches.any fun b => b.wait == .bar
  if waiting && decide (c.living ≤ c.arr) then
    { c with
      arr := 0
      flocks := c.flocks.map fun f =>
        { f with batches := f.batches.map fun b => if b.wait == .bar then { b with wait := .none } else b } }
  else c

/-- The waits that the crew's present state closes. -/
def CrewCore.settle (c : CrewCore) : CrewCore :=
  ({ c with flocks := c.flocks.map Flock.settle }).settleBar

def State.settle (s : State) (i : Iss) : State := s.onCrew i fun k => k.updLive CrewCore.settle

/-- RCV (R87): the batch opens or joins the wait at its address; the wait may close at once. -/
def execRcv (x : Form) (s : State) : Out State :=
  laneSet s x false fun i _ =>
    let pc := i.batch.pc
    let open_ := (i.flock.batches.find? fun b => b.inRcv pc).map (·.wait)
    let w := open_.getD (.rcv pc (x.mf 15 0) s.clock)
    .ok ((s.onBatch i fun b => { b with wait := w }).settle i)

/-! ### Spawning (R40, R41, R85) -/

/-- The entry of a partition's binaries at an address. -/
def State.entryAt (s : State) (part va : Nat) : Option EntryRec :=
  (s.ctx? part).bind fun c => (c.images.flatMap (·.entries)).find? fun e => e.va == va

/-- Place one pending fibre in the bin for its entry; none where FSPAWN waits (R40). -/
def Crew.spawn (k : Crew) (used now : Nat) (e : EntryRec) (args : List Word) : Option Crew :=
  match k.live.bins.find? fun b => b.entry == e.va with
  | some b =>
    if 32 ≤ b.pending.length then none
    else some (k.updLive fun c =>
      { c with bins := updFirst (fun y => y.entry == e.va) (fun y => { y with pending := y.pending ++ [args] }) c.bins })
  | none =>
    if 16 ≤ used then none
    else
      let st := k.live.settings.find? fun t => t.entry == e.va
      some (k.updLive fun c =>
        { c with
          bins := c.bins ++ [{ entry := e.va, thr := (st.map (·.thr)).getD e.thr, tmr := (st.map (·.tmr)).getD e.tmr,
                               since := now, due := false, pending := [args], held := false }] })

/-- Place pending fibres one after another; how many were placed, and the state. -/
def State.spawnAll (s : State) (core slot : Nat) (e : EntryRec) : List (List Word) → Nat → State × Nat
  | [], n => (s, n)
  | a :: r, n =>
    match (s.crew? core slot).bind fun k => k.spawn (s.binsUsed core) s.clock e a with
    | some k => State.spawnAll (s.updCrew core slot fun _ => k) core slot e r (n + 1)
    | none => (s, n)

/-- The spawner's argument registers (R85). -/
def srcArgs (x : Form) (f : Fibre) : Nat → Nat → Chk (List Word)
  | 0, _ => .ok []
  | n + 1, r => ((readSrc f r x.ea).and (srcArgs x f n (r + 1))).map fun p => p.1 :: p.2

/-- FSPAWN: the batch stays until every new fibre has been placed; its phase counts those placed so far (R85). -/
def execFspawn (x : Form) (s : State) : Out State :=
  laneSet s x false fun i ps =>
    let target := immTarget x i.batch.pc
    let entry := (s.entryAt i.crew.part target).filter (·.bin)
    match checkAll i ps fun f => (srcArgs x f x.bn x.an).and
        ((Chk.guard entry.isSome .permExec target).and (Chk.guard (decide (x.an + x.bn ≤ f.budget)) .budgetExceeded 0)) with
    | .error e => .error e
    | .ok vs =>
      match entry.filter fun _ => !s.unitBusy i with
      | none => .error .wait
      | some e =>
        let s0 := s.onCrew i fun k => k.updLive fun c =>
          ps.foldl (fun c f => c.completeFibre i.flock.num f.lane) c
        let r := s0.spawnAll i.ref.core i.ref.slot e ((vs.map fun v => v.2.1).drop i.batch.phase) i.batch.phase
        if r.2 = ps.length then .ok (r.1.advance i x.words)
        else if r.2 = i.batch.phase then .error .wait
        else .ok (r.1.onBatch i fun b => { b with phase := r.2 })

/-! ### Ending fibres (R86, R376) -/

/-- A flock without some of its fibres; none when no fibre is left (R31). -/
def Flock.without (f : Flock) (lanes : List Nat) : Option Flock :=
  let fs := f.fibres.filter fun x => !lanes.contains x.lane
  if fs.isEmpty then none
  else some { f with
    fibres := fs
    batches := (f.batches.map fun b => { b with lanes := b.lanes.filter fun l => !lanes.contains l }).filter
      fun b => !b.lanes.isEmpty }

/-- End some fibres of a crew's flock: their scratch writes complete, their producers are discarded, their places stay
reserved until the next checkpoint, and the waits this closes close (R86, R376). A ULD that such a fibre's access serves writes the
flock's register, and goes on while the flock lives: the spec does not say. (DESIGN CHOICE, unsafe, log 74) -/
def Crew.endFibres (k : Crew) (flock : Nat) (lanes : List Nat) : Crew :=
  match k.flock? flock with
  | none => k
  | some f =>
    let gone := f.fibres.filter fun x => lanes.contains x.lane
    let c := gone.foldl (fun c x => c.completeFibre flock x.lane) k.live
    { k with
      live := ({ c with flocks := c.flocks.filterMap fun (g : Flock) =>
        if g.num = flock then g.without lanes else some g }).settle
      prods := k.prods.filter fun p => !(p.flock == flock && match p.dest with
        | .lane l _ _ | .href l _ => lanes.contains l
        | .uni _ _ _ => (f.without lanes).isNone)
      resv := k.resv ++ gone.map fun x =>
        { quad := f.quad, lane := x.lane, base := x.base, budget := x.budget, num := x.num, latch := x.latch } }

/-- A participant of a gathering copy that has ended is dropped (R131). -/
def State.dropParticipants (s : State) (core slot : Nat) : State :=
  match s.crew? core slot with
  | none => s
  | some k =>
    { s with
      engines := s.engines.map fun e =>
        if e.ofCrew k then (match e.job with
          | .copy w ds st td => { e with job := .copy (w.filter fun n => (k.flock? n).isSome) ds st td }
          | _ => e) else e }

/-- FEND (R86); it waits for the flock's earlier matrix instructions (R219). -/
def execFend (x : Form) (s : State) : Out State :=
  laneSet s x true fun i ps =>
    if s.unitBusy i then .error .wait
    else
      .ok ((((s.advance i x.words).onCrew i fun k => k.endFibres i.flock.num (ps.map (·.lane))).dropParticipants i.ref.core
        i.ref.slot).settleTeam i.crew)

end Sys2Proof.Machine
end

