-- ==== Sys2Proof/Machine/Place.lean ====
section
/-! DEFINITION. Placing fibres: lane slots, windows, numbers, scratch allocations and matrix units, and the formation of
flocks and crews (R27-R31, R36, R41, R114, R213, R376). -/

namespace Sys2Proof.Machine

/-! ### What is free on a core -/

/-- Quadrants of a core that a partition owns and that are not fenced (R26, R292). -/
def State.quadsOf (s : State) (part core : Nat) : List Nat :=
  match s.ctx? part with
  | none => []
  | some c => (List.range 4).filter fun q =>
      c.owns (core * 4 + q) && !s.fence.quads.contains (core * 4 + q) && !s.fence.cores.contains core

/-- Is a lane slot free for a formation of the crew in slot `own`, if any? One in use, or reserved to another crew, is not
(R41, R376). -/
def State.laneFree (s : State) (core quad lane : Nat) (own : Option Nat) : Bool :=
  !(s.crews.any fun k => k.core == core &&
    ((k.live.flocks.any fun f => f.quad == quad && f.fibres.any fun x => x.lane == lane)
      || (own != some k.slot && k.resv.any fun r => r.quad == quad && r.lane == lane)))

/-- Register ranges in use in a lane slot (R30, R376). -/
def State.windows (s : State) (core quad lane : Nat) (own : Option Nat) : List (Nat × Nat) :=
  (s.crews.filter fun k => k.core == core).flatMap fun k =>
    (k.live.flocks.flatMap fun f =>
      if f.quad = quad then (f.fibres.filter fun x => x.lane == lane).map fun x => (x.base, x.budget) else [])
      ++ (if own = some k.slot then [] else
        (k.resv.filter fun r => r.quad == quad && r.lane == lane).map fun r => (r.base, r.budget))

/-- The lowest base, a multiple of 16, where a window fits (R30). -/
def State.windowAt (s : State) (core quad lane budget : Nat) (own : Option Nat) : Option Nat :=
  let used := s.windows core quad lane own
  ((List.range 64).map (16 * ·)).find? fun b =>
    decide (b + budget ≤ 1024) && used.all fun w => decide (b + budget ≤ w.1) || decide (w.1 + w.2 ≤ b)

/-- Free lane slots of a quadrant, in ascending order, but for those in `used`. (DESIGN CHOICE, safe, log 41) -/
def State.freeLanes (s : State) (core quad : Nat) (own : Option Nat) (used : List (Nat × Nat)) : List Nat :=
  (List.range 32).filter fun l => s.laneFree core quad l own && !used.contains (quad, l)

/-- May a flock of a role stand on a quadrant: a matrix flock only where the unit is free or its crew's own (R213). -/
def State.unitOk (s : State) (core quad : Nat) (own : Option Nat) (role : Role) : Bool :=
  role != .matrix || match s.units.find? fun u => u.gq == core * 4 + quad with
    | some u => u.holder.isNone || (match own, u.holder with
      | some n, some h => h == (core, n)
      | _, _ => false)
    | none => true

/-- The quadrant with the most free lane slots, the lowest on a tie, and those lane slots (R41). -/
def State.pickQuad (s : State) (part core : Nat) (own : Option Nat) (role : Role) (used : List (Nat × Nat)) :
    Option (Nat × List Nat) :=
  let qs := ((s.quadsOf part core).filter fun q => s.unitOk core q own role).map fun q => (q, s.freeLanes core q own used)
  (minBy (fun (p : Nat × List Nat) => 32 - p.2.length) qs).filter fun p => !p.2.isEmpty

/-- The lowest numbers free in the core for a crew's fibres (R376). -/
def State.numberUsed (s : State) (core n : Nat) (own : Option Nat) : Bool :=
  s.crews.any fun k => k.core == core &&
    ((k.live.flocks.any fun f => f.fibres.any fun x => x.num == n)
      || (own != some k.slot && k.resv.any fun r => r.num == n))

/-- `m` numbers from `n` on that are free; the core never holds more than 1,024 fibres. -/
def State.freeNums (s : State) (core : Nat) (own : Option Nat) : Nat → Nat → Nat → List Nat
  | _, _, 0 => []
  | 0, _, _ => []
  | fuel + 1, n, m + 1 =>
    if s.numberUsed core n own then s.freeNums core own fuel (n + 1) (m + 1)
    else n :: s.freeNums core own fuel (n + 1) m

/-- The lowest scratch base for a size (R114): every bank group it spans is the partition's, and no living crew's allocation meets it. -/
def State.scratchBase (s : State) (part core size : Nat) : Option Nat :=
  if size = 0 then some 0
  else ((List.range 8192).map (128 * ·)).find? fun b =>
    decide (b + size ≤ 2 ^ 20)
      && ((List.range ((b + size - 1) / 2 ^ 18 - b / 2 ^ 18 + 1)).all fun g =>
        (s.quadsOf part core).contains (b / 2 ^ 18 + g))
      && s.crews.all fun k => k.core != core || decide (k.limit ≤ b) || decide (b + size ≤ k.base)

/-! ### Matrix units (R213) -/

def State.unit (s : State) (gq : Nat) : MUnit := (s.units.find? fun u => u.gq == gq).getD (MUnit.empty gq)
def State.setUnit (s : State) (u : MUnit) : State := { s with units := u :: s.units.filter fun v => v.gq != u.gq }

/-- A tile that outlives its crew. -/
def Tile.pinned (t : Tile) : Bool := t.state == .pinAtt || t.state == .pinDet

/-- A crew takes a quadrant's unit: what is not pinned is as new (R213). -/
def State.takeUnit (s : State) (core slot quad : Nat) : State :=
  let u := s.unit (core * 4 + quad)
  if u.holder = some (core, slot) then s
  else
    s.setUnit { MUnit.empty (core * 4 + quad) with
      holder := some (core, slot)
      tiles := u.tiles.filter fun t => t.2.pinned }

/-! ### Formation -/

/-- A fibre at its formation (R27), with argument registers v0 on (R85). -/
def newFibre (lane num budget base : Nat) (args : List Word) : Fibre :=
  { lane := lane, num := num, budget := budget, base := base
    regs := args.zipIdx.foldl (fun rs a => spSet LReg.zero a.2 { val := a.1, full := true, poison := false } rs) []
    preds := 1, href := [], latch := none, pend := [] }

/-- The lowest free flock number of a crew (R31). -/
def CrewCore.freeFlock (c : CrewCore) : Option Nat := (List.range 32).find? fun n => c.flocks.all fun f => f.num != n

/-- Form one flock of a crew on lane slots of a quadrant, one fibre per list of arguments; none where a window does not fit
(R30) or the crew has 32 flocks. A reservation whose place the crew takes again stays its own until its next checkpoint (R376). -/
def State.formFlock (s : State) (core slot quad : Nat) (lanes : List Nat) (role : Role) (budget entry : Nat)
    (k : List (Nat × Word)) (args : List (List Word)) : Option State :=
  match (s.crew? core slot).bind fun c => c.live.freeFlock with
  | none => none
  | some n =>
    let use := (lanes.zip args).zip (s.freeNums core (some slot) 65536 0 args.length)
    let placed := use.filterMap fun p =>
      (s.windowAt core quad p.1.1 budget (some slot)).map fun b => newFibre p.1.1 p.2 budget b p.1.2
    if placed.length ≠ args.length then none
    else
      let f : Flock :=
        { num := n, quad := quad, role := role, k := k, q := 0, wpend := false, fibres := placed
          batches := [{ pc := entry, lanes := placed.map (·.lane), age := s.clock, wait := .none, phase := 0, tag := 0 }] }
      let s1 := s.updCrew core slot fun c => c.updLive fun l => { l with flocks := l.flocks ++ [f] }
      let s2 := { s1 with lodged := s1.lodged.filter fun p => p.1 != core * 4 + quad }
      some (if role == .matrix then s2.takeUnit core slot quad else s2)

/-- The k registers KINIT loads: k4 to k19 (R346). -/
def kinitRegs (vs : List Word) : List (Nat × Word) := vs.zipIdx.foldl (fun k v => spSet 0 (4 + v.2) v.1 k) []

/-- A crew as its dispatch begins, before its flocks (R36, R312). -/
def newCrew (core slot part : Nat) (l : Launch) (idx base : Nat) (scratch : Nat) : Crew :=
  let c : CrewCore := { flocks := [], nbs := [], rings := [], arr := 0, bins := [], settings := [], scratch := [],
                        scrBad := [] }
  { core := core, slot := slot, part := part, level := l.level, launch := l.id, idx := idx, ncrew := l.ncrew,
    teamSize := l.team, entry := l.entry, trapArea := l.trapArea, trapQueue := l.trapQueue, base := base,
    limit := base + scratch, live := c, saved := c, savedEng := [], ckptn := 0, timer := 0, prods := [], undo := [],
    scrLog := [], between := false, heldTrap := none, susp := none, halted := false, haltPend := false,
    stepPend := false, stepRec := [], ptwait := 0, done := false, ending := false, preDue := false, ckptDue := false, stopFor := none, resv := [],
    snaps := [], writers := [], kept := [] }

/-- Form the initial flocks, one per role, in order. -/
def State.formFlocks (s : State) (core slot part : Nat) (e : EntryRec) (k : List (Nat × Word)) : List Role → Option State
  | [] => some s
  | r :: rs =>
    match s.pickQuad part core (some slot) r [] with
    | none => none
    | some (q, lanes) =>
      if lanes.length < e.fibres then none
      else match s.formFlock core slot q (lanes.take e.fibres) r e.budget e.va k (List.replicate e.fibres []) with
        | none => none
        | some s1 => State.formFlocks s1 core slot part e k rs

/-- Dispatch one crew onto a core: none where it cannot be placed at once (R36). Its first checkpoint is number 0 (R312), and
its fibres begin as if they had performed E8 at DEV (R268). -/
def State.placeCrew (s : State) (core part : Nat) (l : Launch) (e : EntryRec) (idx : Nat) : Option State :=
  match (List.range 16).find? fun n => (s.crew? core n).isNone, s.scratchBase part core e.scratch with
  | some slot, some base =>
    let s1 := { s with crews := s.crews ++ [newCrew core slot part l idx base e.scratch] }
    ((s1.formFlocks core slot part e (kinitRegs l.kinit) (e.roles.take e.flocks)).map fun s2 =>
      (s2.dropCore core).updCrew core slot fun k => { k with saved := k.live })
  | _, _ => none

end Sys2Proof.Machine
end

