-- ==== Sys2Proof/Machine/Sync.lean ====
section
/-! DEFINITION. Synchronisation inside a crew and a team: SLEEP, WAKE, BAR, TBAR, rings, YIELD and the named barriers
(R126, R127, R272-R278). -/

namespace Sys2Proof.Machine

/-! ### Waits that a barrier's phase or a signal ends -/

/-- Does a named barrier's present state end an NBWAIT (R127)? -/
def NBar.ends (b : NBar) (sampled : Bool) : Bool := b.expect == 0 || b.phase != sampled

/-- A batch after a change of named barrier `n` (R127). -/
def Batch.nbChanged (x : Batch) (n : Nat) (b : NBar) : Batch :=
  match x.wait with
  | .nb m sampled => if m = n ∧ b.ends sampled = true then { x with wait := .none } else x
  | _ => x

/-- The status registers of a flock's sleeps that a phase of barrier `n` ends (R274). -/
def Flock.nbSleeps (f : Flock) (n : Nat) (phase : Bool) : List Nat :=
  f.batches.filterMap fun x => match x.wait with
    | .sleep qd (some (m, qa)) _ _ => if m = n ∧ phase ≠ f.qpred qa then some qd else none
    | _ => none

/-- A flock after a change of named barrier `n`: waits end, and where the phase changed, sleeps too. -/
def Flock.nbChanged (f : Flock) (n : Nat) (b : NBar) (flip : Bool) : Flock :=
  let ends := fun (x : Batch) => match x.wait with
    | .sleep _ (some (m, qa)) _ _ => flip && m == n && b.phase != f.qpred qa
    | _ => false
  let woken := if flip then f.nbSleeps n b.phase else []
  let g := woken.foldl (fun f qd => f.setQ qd true) f
  { g with batches := f.batches.map fun x => if ends x then { x with wait := .none } else x.nbChanged n b }

/-- Does a batch of the crew wait for this barrier, in a wait that its present state ends with an engine's arrival? -/
def CrewCore.nbEngine (c : CrewCore) (n : Nat) (b : NBar) : Bool :=
  b.engine && c.flocks.any fun f => f.batches.any fun x => match x.wait with
    | .nb m sampled => m == n && b.phase != sampled
    | _ => false

/-- Named barrier `n` takes a new value, and the waits this ends end. -/
def CrewCore.changeNb (c : CrewCore) (n : Nat) (g : NBar → NBar) : CrewCore :=
  let b := g (c.nbar n)
  { c.setNbar n b with flocks := c.flocks.map fun f => f.nbChanged n b (b.phase != (c.nbar n).phase) }

/-- A named barrier of a crew takes a new value, with E8 where a wait ends by an engine's arrival. -/
def State.changeNb (s : State) (core slot n : Nat) (g : NBar → NBar) : State :=
  match s.crew? core slot with
  | none => s
  | some k =>
    let s1 := s.updCrew core slot fun k => k.updLive fun c => c.changeNb n g
    if k.live.nbEngine n (g (k.live.nbar n)) then s1.dropCore core else s1

/-- E2 until SB is empty and the scratch writes completed, for each active fibre of the batch (R116, R275). -/
def State.settleFibres (s : State) (i : Iss) : State :=
  (s.passBatch i i.active).onCrew i fun k => k.updLive fun c =>
    i.active.foldl (fun c f => c.completeFibre i.flock.num f.lane) c

/-! ### Named barriers (R126, R127) -/

def execNbinit (x : Form) (s : State) : Out State :=
  uniSet s x .vectorCopy fun i =>
    match kFree i (if x.hasImm then [] else [(x.an, false)]) with
    | .error e => .error e
    | .ok _ =>
      let n := (if x.hasImm then x.immZ else (i.flock.kreg x.an).toNat) % 4096
      .ok ((s.changeNb i.ref.core i.ref.slot x.dn fun b => { b with expect := n, count := 0, engNow := false }).advance i
        x.words)

def execNbarr (x : Form) (s : State) : Out State :=
  uniSet s x .vectorCopy fun i =>
    if s.unitBusy i then .error .wait
    else
      let b := i.crew.live.nbar x.an
      let s1 := s.onFlock i fun f => f.setQ x.dn b.phase
      if b.expect = 0 then .ok (s1.advance i x.words)
      else
        .ok (((s1.settleFibres i).changeNb i.ref.core i.ref.slot x.an fun b => b.arrive false).advance i x.words)

def execNbwait (x : Form) (s : State) : Out State :=
  uniSet s x .vectorCopy fun i =>
    let b := i.crew.live.nbar x.an
    let q := i.flock.qpred x.bn
    let s1 := s.advance i x.words
    if b.ends q then .ok (if b.engine && b.phase != q then s1.dropCore i.ref.core else s1)
    else .ok (s1.onBatch i fun y => { y with wait := .nb x.an q })

/-! ### SLEEP and WAKE (R274) -/

/-- SLEEP: a pending wake or a phase that differs ends it at once; else the batch sleeps (R274). (DEDUCED, unsafe, log 32) -/
def execSleep (x : Form) (s : State) : Out State :=
  uniSet s x .any fun i =>
    let s1 := s.advance i x.words
    if i.flock.wpend then .ok (s1.onFlock i fun f => { f.setQ x.dn true with wpend := false })
    else if x.mb 16 && (i.crew.live.nbar x.an).phase != i.flock.qpred x.bn then
      .ok (s1.onFlock i fun f => f.setQ x.dn true)
    else
      .ok (s1.onBatch i fun b =>
        { b with wait := .sleep x.dn (if x.mb 16 then some (x.an, x.bn) else none) (x.mf 15 0) s.clock })

/-- Is a batch asleep in SLEEP? -/
def Batch.sleepStatus (b : Batch) : Option Nat := match b.wait with
  | .sleep qd _ _ _ => some qd
  | _ => none

/-- A WAKE of a flock. -/
def Flock.wake (f : Flock) : Flock :=
  let qs := f.batches.filterMap Batch.sleepStatus
  if qs.isEmpty then { f with wpend := true }
  else
    { qs.foldl (fun f qd => f.setQ qd true) f with
      batches := f.batches.map fun b => if b.sleepStatus.isSome then { b with wait := .none } else b }

def execWake (x : Form) (s : State) : Out State :=
  uniSet s x .any fun i =>
    if s.unitBusy i then .error .wait
    else
      let s1 := s.onCrew i fun k => k.updLive fun c =>
        i.active.foldl (fun c f => c.completeFibre i.flock.num f.lane) c
      .ok ((s1.onFlock i Flock.wake).advance i x.words)

/-! ### BAR and TBAR (R275, R276) -/

def execBar (x : Form) (s : State) : Out State :=
  uniSet s x .any fun i =>
    if s.unitBusy i then .error .wait
    else
      let s1 := ((s.settleFibres i).onCrew i fun k => k.updLive fun c => { c with arr := c.arr + i.active.length })
      .ok (((s1.advance i x.words).onBatch i fun b => { b with wait := .bar }).settle i)

/-- A checkpoint taken of the state that `f` gives. -/
def ckptAfter (s : State) (i : Iss) (f : State → State) : Res State :=
  if s.ckptReady i.crew then .ok ((f s).checkpoint i.ref.core i.ref.slot) else .error (.ckpt [])

/-- Does the batch at issue stand at a TBAR that it has been released from? -/
def State.passesTbar (s : State) : Bool := match s.iss? with
  | some i => i.batch.wait == .tbarOut
  | none => false

/-- TBAR: the release; then the arrival and the first checkpoint; once the team has arrived, E8 and the second checkpoint. A
batch that is released stands inside its TBAR, as it was fetched, until it goes on (R60). (DEDUCED, safe, log 35) -/
def execTbar (x : Form) (s : State) : Out State :=
  if s.passesTbar then
    runBatch s fun i =>
      ckptAfter (s.dropCore i.ref.core) i fun t => (t.advance i x.words).onBatch i fun b => { b with wait := .none }
  else
    uniSet s x .any fun i =>
      if i.batch.phase = 0 then
        if s.unitBusy i then .error .wait
        else .ok ((s.releaseAll i i.active .herd).onBatch i fun b => { b with phase := 1 })
      else if !s.drained i.ref.core i.batch.tag then .error .wait
      else match ckptAfter s i fun t => t.onBatch i fun b => { b with wait := .tbar, phase := 0, tag := 0 } with
        | .error e => .error e
        | .ok s1 => .ok (s1.settleTeam i.crew)

/-! ### Rings (R277) -/

/-- The slot an instruction names. -/
def ringSlot (x : Form) (i : Iss) : Nat := (if x.hasImm then x.immZ else (i.flock.kreg x.bn).toNat) % 16

def CrewCore.ringFull (c : CrewCore) (ring slot : Nat) : Bool := (spGet 0 c.rings ring).getLsbD slot

/-- A signal: the slot takes its state, and the batches that wait for it go on. -/
def CrewCore.signal (c : CrewCore) (ring slot : Nat) (full : Bool) : CrewCore :=
  { c with
    rings := spSet 0 ring (setBit (spGet 0 c.rings ring) slot full) c.rings
    flocks := c.flocks.map fun f =>
      { f with batches := f.batches.map fun b => if b.wait == .ring ring slot full then { b with wait := .none } else b } }

def ringWait (x : Form) (s : State) (full : Bool) : Out State :=
  uniSet s x .any fun i =>
    match kFree i (if x.hasImm then [] else [(x.bn, false)]) with
    | .error e => .error e
    | .ok _ =>
      let s1 := s.advance i x.words
      if i.crew.live.ringFull x.an (ringSlot x i) = full then .ok s1
      else .ok (s1.onBatch i fun b => { b with wait := .ring x.an (ringSlot x i) full })

def ringSignal (x : Form) (s : State) (full : Bool) : Out State :=
  uniSet s x .any fun i =>
    match kFree i (if x.hasImm then [] else [(x.bn, false)]) with
    | .error e => .error e
    | .ok _ =>
      if s.unitBusy i then .error .wait
      else
        .ok (((s.settleFibres i).onCrew i fun k => k.updLive fun c => c.signal x.an (ringSlot x i) full).advance i x.words)

def execRngwaitF (x : Form) (s : State) : Out State := ringWait x s true
def execRngwaitE (x : Form) (s : State) : Out State := ringWait x s false
def execRngsigF (x : Form) (s : State) : Out State := ringSignal x s true
def execRngsigE (x : Form) (s : State) : Out State := ringSignal x s false

/-! ### YIELD (R278) -/

def execYield (x : Form) (s : State) : Out State :=
  uniSet s x .any fun i =>
    .ok ((s.advance i x.words).onBatch i fun b =>
      { b with age := s.clock, wait := .yield (s.clock + max 1 (x.mf 15 0)) })

end Sys2Proof.Machine
end

