-- ==== Sys2Proof/Machine/Launch.lean ====
section
/-! DEFINITION. Launch records, their checks and acceptance, completion bits, and LAUNCH, DONE and BINCFG (R267, R279-R281,
R345, R346, R360-R363). -/

namespace Sys2Proof.Machine

/-! ### Launch records (R346) -/

/-- A launch record as its 128 bytes read. -/
structure LaunchRec where
  entry : Nat
  ncrew : Nat
  queue : Nat
  flags : Nat
  team : Nat
  node : Nat
  trapArea : Nat
  trapQueue : Nat
  place : Nat
  invBase : Nat
  invLen : Nat
  kinit : List Word
  zero : Bool
  deriving DecidableEq, Repr

/-- A field of `n` bytes at `o`. -/
def field (b : List Byte) (o n : Nat) : Nat := leVal ((b.drop o).take n)

def parseRec (b : List Byte) : LaunchRec :=
  { entry := field b 0 8, ncrew := field b 8 4, queue := field b 14 1, flags := field b 15 1, team := field b 16 1,
    node := field b 20 4, trapArea := field b 24 8, trapQueue := field b 32 8, place := field b 40 8,
    invBase := field b 48 8, invLen := field b 56 8
    kinit := (List.range 16).map fun i => BitVec.ofNat 32 (field b (64 + 4 * i) 4)
    zero := field b 12 2 == 0 && field b 17 3 == 0 }

def LaunchRec.level (r : LaunchRec) : Level := match bits r.flags 1 0 with | 0 => .u | 1 => .t | _ => .f

/-- The fields of a record that hold on their own. -/
def LaunchRec.formed (r : LaunchRec) : Bool :=
  r.zero && decide (r.entry < 2 ^ 57) && r.ncrew != 0 && decide (r.queue < 64) && decide (r.flags < 3) && decide (r.team ≤ 8)

/-- The loaded binary that holds an entry, and the entry (R279). -/
def Context.imageOf (c : Context) (va : Nat) : Option (Image × EntryRec) :=
  c.images.findSome? fun m => (m.entries.find? fun e => e.va == va).map fun e => (m, e)

/-- The placement list's words, read as committed values at the record's level; none where it makes the record malformed
(R279, R346). (DEDUCED, unsafe, log 44) -/
def State.placeList (s : State) (part : Nat) (lv : Level) (va : Nat) : Nat → Option (List Nat)
  | 0 => some []
  | n + 1 =>
    match s.placeList part lv va n with
    | none => none
    | some ws => match s.translate part lv .load (va + 4 * n) with
      | .ok l => if l.cls == .dev then some (ws ++ [s.placeVal l 4]) else none
      | .error _ => none

/-- A placement word the record may hold: bits [30:9] 0, and a core where the partition owns a quadrant. -/
def State.placeOk (s : State) (part w : Nat) : Bool :=
  bits w 30 9 == 0 && (!bitAt w 31 || match s.ctx? part with
    | some c => (List.range 4).any fun q => c.owns (bits w 8 0 * 4 + q)
    | none => false)

/-- The most recent launch of each producer node of the edges into a node, as (edge, key); none where one has none (R363). -/
def Context.producersOf (c : Context) (m : Image) (node : Nat) : Option (List (Nat × Nat)) :=
  (m.edges.zipIdx.filter fun e => e.1.cons == node).foldl (fun o e => o.bind fun l =>
    (c.launches.filter fun x => x.image == m.id && x.node == some e.1.prod).getLast?.map fun x => l ++ [(e.2, x.key)])
    (some [])

/-- Does a launch still live: has it a crew that has not ended? -/
def Launch.lives (l : Launch) : Bool := decide (l.ended.length < l.ncrew)

/-- Launches that wait in a queue. -/
def Context.queued (c : Context) (q : Nat) : Nat :=
  (c.launches.filter fun l => l.queue == q && decide (l.dispatched.length < l.ncrew)).length

/-- The next launch identifier: 1 to 2^31 − 1, passing over those of living launches (R279). (DEDUCED, safe, log 70) -/
def Context.freeId (c : Context) : Nat → Nat → Nat
  | 0, n => n
  | k + 1, n =>
    if c.launches.any fun l => l.id == n && l.lives then c.freeId k (if n = 2 ^ 31 - 1 then 1 else n + 1) else n

/-- The checks of a record whose bytes are read: the refusal code, or the launch to be queued (R279). `lv` is the requester's level. -/
def State.checkLaunch (s : State) (part : Nat) (lv : Level) (r : LaunchRec) : Except Nat Launch :=
  match s.ctx? part with
  | none => .error 0x80000002
  | some c =>
    let place := if r.place = 0 then some []
      else if r.place % 4 ≠ 0 then none
      else (s.placeList part r.level r.place r.ncrew).filter fun ws => ws.all fun w => s.placeOk part w
    if !r.formed || place.isNone || !s.feature part 0 then .error 0x80000002
    else match c.imageOf r.entry with
      | none => .error 0x80000003
      | some (m, e) =>
        let node := if r.node = 2 ^ 32 - 1 then none else some r.node
        let prods := match node with
          | none => some []
          | some n => match m.nodes[n]? with
            | some d => if d.1 = r.entry ∧ r.ncrew ≤ d.2.1 then c.producersOf m n else none
            | none => none
        if e.team ≠ r.team then .error 0x80000002
        else match prods with
          | none => .error 0x80000002
          | some ps =>
            if lv.rank < r.level.rank then .error 0x80000004
            else if 4096 ≤ c.queued r.queue then .error 0x80000001
            else
              .ok
                { id := c.freeId c.launches.length c.nextId, key := c.launches.foldl (fun m x => max m x.key) 0 + 1, entry := r.entry, ncrew := r.ncrew, queue := r.queue, level := r.level, team := r.team,
                  node := node, image := m.id, trapArea := r.trapArea, trapQueue := r.trapQueue,
                  place := place.getD [], kinit := r.kinit, producers := ps, dispatched := [], ended := [], bits := [] }

/-- A launch queued; identifiers go up from 1 and wrap after 2^31 - 1 (R279). -/
def State.queueLaunch (s : State) (part : Nat) (l : Launch) : State :=
  s.updCtx part fun c => { c with launches := c.launches ++ [l], nextId := if l.id = 2 ^ 31 - 1 then 1 else l.id + 1 }

/-! ### The range a record invalidates (R346, R100) -/

/-- Lines of an IA range of a context that have a page, but for those of HOME=11 pages, which CMAINT passes over (R123). -/
def State.iaLines (s : State) (c : Context) (base len : Nat) : List Nat :=
  if len = 0 then []
  else (List.range ((base + len - 1) / 128 - base / 128 + 1)).filterMap fun k =>
    ((s.iaLoc c ((base / 128 + k) * 128)).filter fun l => l.home != 3).map fun l => lineOf l.pa

/-- INVBASE and INVLEN performed; none while an engine owns one of the lines. -/
def State.invalidateRange (s : State) (part base len : Nat) : Option State :=
  match s.ctx? part with
  | none => some s
  | some c =>
    let ls := s.iaLines c base len
    if ls.any (s.owned part) then none else some (ls.foldl (fun s l => s.releaseHome part l) s)

/-! ### Completion bits (R267) -/

/-- The bit of a crew of a living launch, in the launch's record and in its node's bitmap. -/
def State.setBitmap (s : State) (part launch idx : Nat) : State :=
  match s.ctx? part with
  | none => s
  | some c =>
    match c.launches.find? fun l => l.id == launch && l.lives with
    | none => s
    | some l =>
      let s1 := match l.node.bind fun n => (c.images.find? fun m => m.id == l.image).bind fun m => m.nodes[n]? with
        | some (_, _, some ia) => s.iaWrite c (ia + idx / 8) 1 (s.iaVal c (ia + idx / 8) 1 ||| 2 ^ (idx % 8))
        | _ => s
      s1.updCtx part fun c =>
        { c with launches := updFirst (fun l => l.id == launch && l.lives) (fun l => { l with bits := insertAsc idx l.bits }) c.launches }

/-- The completion bit of a crew set, if it is clear (R280). -/
def State.publishDone (s : State) (core slot : Nat) : State :=
  match s.crew? core slot with
  | none => s
  | some k => if k.done then s else
    (s.setBitmap k.part k.launch k.idx).updCrew core slot fun k => { k with done := true }

/-! ### LAUNCH (R279) -/

/-- The pair of checkpoints of R140 around an effect that follows a release at DEV; `finish` acts once the release has
drained, and gives none while it must wait. -/
def twoCkpts (s : State) (i : Iss) (finish : State → Iss → Option State) : Res State :=
  if i.batch.phase = 0 then
    match firstCkpt s i with
    | .error e => .error e
    | .ok s1 => .ok ((s1.releaseAll i i.active .dev).onBatch i fun b => { b with phase := 1 })
  else if !s.drained i.ref.core i.batch.tag then .error .wait
  else if !s.ckptDrained i.crew then .error (.ckpt [])
  else match finish s i with
    | none => .error .wait
    | some s1 => .ok (s1.secondCkpt i.ref.core i.ref.slot)

/-- The address of a launch record, checked before the first checkpoint. -/
def checkRecord (s : State) (i : Iss) (va : Nat) : Chk Loc :=
  (Chk.guard (va % 128 == 0) .alignment va).bind fun _ =>
    ((Chk.ofExcept va (s.translate i.crew.part i.crew.level .load va)).and (devRange s i va)).map (·.1)

/-- Reading, checking and queuing the record: kd's value; none while a collective has still to write its line (R253), or an engine owns a line
to invalidate. -/
def State.launch (s : State) (i : Iss) (va : Nat) : Option (State × Nat) :=
  match s.translate i.crew.part i.crew.level .load va with
  | .error _ => some (s, 0x80000002)
  | .ok l =>
    let r := parseRec (s.placeBytes l 128)
    if s.oxOwned l.part (lineOf l.pa) then none
    else match s.checkLaunch i.crew.part i.crew.level r with
    | .error e => some (s, e)
    | .ok l => (s.invalidateRange i.crew.part r.invBase r.invLen).map fun s1 => (s1.queueLaunch i.crew.part l, l.id)

def execLaunch (x : Form) (s : State) : Out State :=
  uniSet s x .any fun i =>
    match kFree i [(x.an, true), (x.dn, false)] with
    | .error e => .error e
    | .ok _ =>
      let va := (i.flock.kpair x.an).toNat % 2 ^ 57
      let run := twoCkpts s i fun s i =>
        (s.launch i va).map fun p => p.1.uniResult i x false (BitVec.ofNat 64 p.2)
      if i.batch.phase ≠ 0 then run
      else match checkOne i (checkRecord s i va) with
        | .error e => .error e
        | .ok _ => run

/-! ### DONE (R280) -/

def execDone (x : Form) (s : State) : Out State :=
  uniSet s x .any fun i =>
    if i.batch.phase = 0 && s.unitBusy i then .error .wait
    else twoCkpts s i fun s i => some ((s.publishDone i.ref.core i.ref.slot).advance i x.words)

/-! ### BINCFG (R281) -/

/-- The settings with one written: the 16 most recently written stay. -/
def putSetting (l : List BinSetting) (n : BinSetting) : List BinSetting :=
  let r := l.filter (fun t => t.entry != n.entry) ++ [n]
  r.drop (r.length - 16)

def execBincfg (x : Form) (s : State) : Out State :=
  uniSet s x .any fun i =>
    match kFree i [(x.an, false)] with
    | .error e => .error e
    | .ok _ =>
      let target := immTarget x i.batch.pc
      match checkOne i (Chk.guard ((s.entryAt i.crew.part target).any (·.bin)) .permExec target) with
      | .error e => .error e
      | .ok _ =>
        let v := (i.flock.kreg x.an).toNat
        let thr := if bits v 5 0 = 0 then 1 else min 32 (bits v 5 0)
        let tmr := bits v 31 16
        .ok ((s.onCrew i fun k => k.updLive fun c =>
          { c with
            settings := putSetting c.settings { entry := target, thr := thr, tmr := tmr }
            bins := c.bins.map fun b => if b.entry == target then { b with thr := thr, tmr := tmr, due := false } else b }).advance i
          x.words)

end Sys2Proof.Machine
end

