-- ==== Sys2Proof/Machine/Copy.lean ====
section
/-! DEFINITION. Copies: CPY and CPYDRAIN, the Mule's line writes and the completion of engine operations (R99, R128-R133,
R221, R378). -/

namespace Sys2Proof.Machine

/-- An engine's operation stops on a fault: it is removed, and its crew traps with an empty lane mask (R131, R320). -/
def State.engFault (s : State) (e : Engine) (f : EngFault) : State :=
  let s1 := { s with engines := s.engines.filter fun x => x.id != e.id }
  match s.engCrew e with
  | none => s1
  | some _ => s1.raise e.core e.slot
      { cause := f.cause, lanes := 0, addr := f.addr, pc := e.pc, code := 0, flock := e.flock, eng := true }

/-! ### A transfer's steps (R131, R132) -/

/-- PA lines of a descriptor's memory destinations that translate. -/
def State.copyLines (s : State) (part : Nat) (lv : Level) (d : CopyDesc) : List Nat :=
  if d.toScratch then []
  else (d.lines 0).filterMap fun l => match s.translate part lv .store (128 * l) with
    | .ok loc => some (lineOf loc.pa)
    | .error _ => none

/-- The transfer starts: its lines are listed, and it goes by its lowest-numbered participant (R131). -/
def State.startCopy (s : State) (e : Engine) (ds : List CopyDesc) : State :=
  let low := minBy (fun (d : CopyDesc) => d.flock) ds
  s.updEngine e.id fun x =>
    { x with
      flock := (low.map (·.flock)).getD x.flock
      pc := (low.map (·.pc)).getD x.pc
      nb := x.nb.map fun n => (low.map (·.nb)).getD n
      owned := ds.flatMap (s.copyLines e.part e.level)
      job := .copy [] ds true (copyTodo (s.engBase e) ds) }

/-- A free choice among `n` things (DESIGN CHOICE, log 3). -/
def State.choose (s : State) (at_ n : Nat) : Nat := if n ≤ 1 then 0 else (Config.freeWord s.fresh at_).toNat % n

/-- One line of the chunk in hand (E14); none while a row of it is to be waited for (R283), or the scratch log has no room and the checkpoint it needs is awaited. -/
def State.copyStep (s : State) (e : Engine) (ds : List CopyDesc) (todo : List (Nat × Nat)) : Option State :=
  let base := s.engBase e
  let n := s.choose e.id (chunkRest (copyTodo base ds).length todo.length)
  match todo[n]? with
  | none => none
  | some (di, line) =>
    match ds[di]? with
    | none => none
    | some d =>
      let rest := removeAt todo n
      let done := fun (t : State) (pa : Option Nat) => t.updEngine e.id fun x =>
        { x with
          owned := if rest.any fun r => r.2 == line then x.owned else x.owned.filter fun l => some l != pa
          job := .copy [] ds true rest }
      if s.copyWaits e d line then none
      else if !d.toScratch || decide (padBase ≤ line) then
        match s.copyLine e d line with
        | .error f => some (s.engFault e f)
        | .ok p => some (done p.1 p.2)
      else match s.gatherLine e d base (d.sources base line), s.engCrew e with
        | .error f, _ => some (s.engFault e f)
        | .ok _, none => some (done s none)
        | .ok bs, some _ => match s.reserveScratch e.core e.slot [line] with
          | .error p => s.markDue [p]
          | .ok s1 => some (done ((s1.readsCounted e d line).updCrew e.core e.slot fun k => k.updLive fun c => c.engScratch line bs) none)

/-! ### CPY (R128-R131) -/

/-- The descriptor a batch hands over. -/
def copyDesc (x : Form) (i : Iss) : CopyDesc :=
  { flock := i.flock.num, pc := i.batch.pc, nb := x.dn, mod := x.m
    regs := (List.range 8).map fun n => (i.flock.kreg (x.an + n)).toNat }

/-- Scratch extents checked exactly at issue; the address is the first byte's of an extent that fails. -/
def checkExtents (s : State) (i : Iss) (es : List (Nat × Nat)) : Chk Unit :=
  es.foldl (fun c e => (c.and (Chk.guard (e.2 == 0 || s.scratchOk i.crew (i.crew.base + e.1) e.2) .scratchBounds
    (i.crew.base + e.1))).map fun _ => ()) (.ok ())

def checkCopy (s : State) (i : Iss) (d : CopyDesc) : Chk Unit :=
  ((if d.ofScratch then checkExtents s i (d.extents false) else .ok ()).and
    (if d.toScratch then checkExtents s i (d.extents true) else .ok ())).map fun _ => ()

/-- The crew's copies, gathering or in flight. -/
def State.copiesOf (s : State) (k : Crew) : List Engine :=
  s.engines.filter fun e => e.ofCrew k && match e.job with
    | .copy _ _ _ _ => true
    | _ => false

/-- The transfer that a flock's next CPY belongs to: the earliest that still waits for it (R131). -/
def State.joining (s : State) (k : Crew) (flock : Nat) : Option Engine :=
  (s.copiesOf k).find? fun e => match e.job with
    | .copy w _ _ _ => w.contains flock
    | _ => false

/-- A participant's descriptor joins its transfer, or opens a new one with the crew's living vector and copy flocks. -/
def State.addCopy (s : State) (i : Iss) (d : CopyDesc) (id : Nat) : State :=
  let ls := s.copyLines i.crew.part i.crew.level d
  match s.joining i.crew d.flock with
  | some e => s.updEngine e.id fun x =>
      { x with
        owned := x.owned ++ ls
        job := match x.job with
          | .copy w ds st td => .copy (w.filter (· != d.flock)) (ds ++ [d]) st td
          | j => j }
  | none =>
    let w := ((i.crew.live.flocks.filter fun f => f.role != .matrix).map (·.num)).filter (· != d.flock)
    { s with engines := s.engines ++ [i.engine id ls (some d.nb) (.copy w [d] false [])] }

/-- CPY: the batch's scratch writes complete, then its descriptor is issued (R128-R130, R379). (DESIGN CHOICE, safe, log 42) -/
def execCpy (x : Form) (s : State) : Out State :=
  uniSet s x .vectorCopy fun i =>
    match converged i with
    | .error e => .error e
    | .ok _ => match kFree i ((List.range 8).map fun n => (x.an + n, false)) with
      | .error e => .error e
      | .ok _ =>
        let d := copyDesc x i
        match checkOne i (checkCopy s i d) with
        | .error e => .error e
        | .ok _ =>
          if (s.joining i.crew d.flock).isNone && decide (8 ≤ (s.copiesOf i.crew).length) then .error .wait
          else
            let s1 := s.onCrew i fun k => k.updLive fun c =>
              i.active.foldl (fun c f => c.completeFibre i.flock.num f.lane) c
            engineIssue s1 (s1.again i) x.words (fun t => t.copyLines i.crew.part i.crew.level d) fun t id =>
              t.addCopy (t.again i) d id

/-! ### CPYDRAIN (R133) -/

/-- Is an engine operation a copy whose destination is on a path: 0 scratch, 1 memory, 2 the B-store? -/
def Engine.onPath (e : Engine) (path : Nat) : Bool :=
  match e.job with
  | .copy _ ds _ _ => ds.any fun d => (path == 0 && d.toScratch) || (path == 1 && !d.toScratch)
  | .bld _ _ _ _ _ _ _ _ => path == 2
  | _ => false

def execCpydrain (x : Form) (s : State) : Out State :=
  uniSet s x .vectorCopy fun i =>
    let cut := if i.batch.phase = 0 then s.nextTag else i.batch.tag
    if s.engines.any fun e => e.core == i.ref.core && e.onPath x.an && decide (e.id < cut) then
      if i.batch.phase = 0 then .ok (s.onBatch i fun b => { b with phase := 1, tag := cut }) else .error .wait
    else .ok ((if x.an = 1 then s.dropCore i.ref.core else s).advance i x.words)

/-! ### Completion (E15) -/

/-- Is an engine operation done? -/
def Engine.done (e : Engine) : Bool :=
  match e.job with
  | .copy w _ st td => w.isEmpty && st && td.isEmpty
  | .bld _ _ _ rows _ _ _ next => decide (rows ≤ next)
  | .goat _ _ n k _ _ => decide (n ≤ k)
  | .coll _ _ _ _ _ _ _ _ | .migrate _ _ _ _ => false

/-- E15 of a copy, a B-store load or a relocation list: one arrival at its barrier, unless its crew has ended. -/
def State.engineDone (s : State) (e : Engine) : State :=
  let s1 := { s with engines := s.engines.filter fun x => x.id != e.id }
  match s.engCrew e, e.nb with
  | some _, some n => s1.changeNb e.core e.slot n fun b => b.arrive true
  | _, _ => s1

end Sys2Proof.Machine
end

