-- ==== Sys2Proof/Machine/Tiles.lean ====
section
/-! DEFINITION. Tiles and pinned states: ownership, shadows, spills, reloads and evictions (R213, R214, R220, R231-R233,
R239-R242), and the power tokens (R24). -/

namespace Sys2Proof.Machine

/-! ### Tiles -/

def MUnit.tile (u : MUnit) (z : Nat) : Tile := spGet Tile.free u.tiles z
def MUnit.setTile (u : MUnit) (z : Nat) (t : Tile) : MUnit := { u with tiles := spSet Tile.free z t u.tiles }

/-- An element of a tile. -/
def Tile.at_ (t : Tile) (i j : Nat) : Word := spGet 0 t.data (64 * i + j)

/-- The tiles of a state's group (R231). -/
def tileGroup (base : Nat) (d128 : Bool) : List Nat := if d128 then [base, base + 1, base + 2, base + 3] else [base]

/-- dk = dv of a state. -/
def stateDim (d128 : Bool) : Nat := if d128 then 128 else 64

/-- The tile of a group that holds S[i][j] (R231). -/
def groupTile (base i j : Nat) : Nat := base + 2 * (i / 64) + j / 64

/-- Element S[i][j] of a state. -/
def MUnit.elem (u : MUnit) (base i j : Nat) : Word := (u.tile (groupTile base i j)).at_ (i % 64) (j % 64)

/-- The 64 x 64 elements of a tile from a function, in the canonical form. -/
def tileData (f : Nat → Nat → Word) : List (Nat × Word) :=
  (List.range 4096).filterMap fun n => let w := f (n / 64) (n % 64); if w = 0 then none else some (n, w)

/-- A group's tiles set to the elements of a state. -/
def MUnit.putState (u : MUnit) (base : Nat) (d128 : Bool) (f : Nat → Nat → Word) (g : Tile → Tile) : MUnit :=
  (tileGroup base d128).foldl (fun u z =>
    let r := (z - base) / 2
    let c := (z - base) % 2
    u.setTile z { g (u.tile z) with data := tileData fun i j => f (64 * r + i) (64 * c + j) }) u

/-- Copy tiles to their shadows before their first write of the interval (R220). -/
def MUnit.shadow (u : MUnit) (zs : List Nat) : MUnit :=
  zs.foldl (fun u z =>
    if u.shTiles.any fun p => p.1 == z then u else { u with shTiles := u.shTiles ++ [(z, u.tile z)] }) u

/-- Copy both scale banks to theirs. -/
def MUnit.shadowBanks (u : MUnit) : MUnit :=
  if u.shBanks.isSome then u else { u with shBanks := some { sa := u.sa, sb := u.sb, saBad := u.saBad, sbBad := u.sbBad } }

/-- Change a quadrant's unit. -/
def State.onUnit (s : State) (gq : Nat) (f : MUnit → MUnit) : State := s.setUnit (f (s.unit gq))

/-! ### The pin table (R233) -/

def Context.pin (c : Context) (n : Nat) : PinEntry := spGet PinEntry.empty c.pins n
def Context.setPin (c : Context) (n : Nat) (p : PinEntry) : Context := { c with pins := spSet PinEntry.empty n p c.pins }
def State.setPin (s : State) (part n : Nat) (p : PinEntry) : State := s.updCtx part fun c => c.setPin n p

/-- A handle: generation and index. -/
def handleOf (gen idx : Nat) : Nat := gen * 4096 + idx

/-- Does a handle name its entry? -/
def Context.names (c : Context) (h : Nat) : Bool :=
  bits h 31 20 == 0 && (c.pin (bits h 11 0)).valid && (c.pin (bits h 11 0)).gen == bits h 19 12

/-! ### Spills (R239, R240) -/

/-- CRC-32C of bytes (R239). -/
def crcByte (c : Nat) (b : Byte) : Nat :=
  (List.range 8).foldl (fun c _ => if c % 2 = 1 then c / 2 ^^^ 0x82F63B78 else c / 2) (c ^^^ b.toNat)
def crc32c (bs : List Byte) : Nat := bs.foldl crcByte 0xFFFFFFFF ^^^ 0xFFFFFFFF

/-- The header of a spill area. -/
def spillHeader (p : PinEntry) (idx part tokens crc : Nat) : List Byte :=
  leBytes 4 0x4D465753 ++ leBytes 2 1 ++ leBytes 2 (stateDim p.dk) ++ leBytes 2 (stateDim p.dk) ++ leBytes 2 0
    ++ leBytes 4 (handleOf p.gen idx) ++ leBytes 1 p.gen ++ leBytes 1 part ++ leBytes 6 0 ++ leBytes 8 tokens
    ++ leBytes 4 crc ++ leBytes 92 0

/-- The data of a spill area: the state row by row. -/
def MUnit.spillData (u : MUnit) (base : Nat) (d128 : Bool) : List Byte :=
  (List.range (stateDim d128)).flatMap fun i => (List.range (stateDim d128)).flatMap fun j =>
    leBytes 4 (u.elem base i j).toNat

/-- Is an element of the state poisoned (R333)? -/
def MUnit.groupBad (u : MUnit) (base : Nat) (d128 : Bool) : Bool := (tileGroup base d128).any fun z => (u.tile z).bad

/-- Lines of a spill area. -/
def spillLines (d128 : Bool) : Nat := if d128 then 513 else 129

/-- Where a line of an entry's area lies now, checked at the entry's level. -/
def State.spillLoc (s : State) (c : Context) (p : PinEntry) (a : Access) (n : Nat) : Except Cause Loc :=
  s.pageCheck c p.level a .dev ((p.va + 128 * n) % 2 ^ 57) ((p.ia + 128 * n) % 2 ^ 52) 0

/-- A line of a spill that is dropped is logged, with its PA where a page still maps it (R240, R340). -/
def State.logSpill (s : State) (c : Context) (ia : Nat) : State :=
  match s.leaf? c ia with
  | some (e, lv) => s.logError 4 (leafPa e lv ia) ia
  | none => s.logAccess 4 c.part ia

/-- One line of a spill: dropped and logged where its check fails. -/
def State.spillLine (s : State) (c : Context) (p : PinEntry) (n : Nat) (bs : List Byte) (bad : Bool) : State :=
  match s.spillLoc c p .store n with
  | .error _ => s.logSpill c ((p.ia + 128 * n) % 2 ^ 52)
  | .ok l =>
    let s1 := s.placeWrite l bs
    let mark := fun (s : State) (sec : Nat) => if bad then s.poisonSector sec else s.cleanSector sec
    (mark (mark s1 (sectorOf l.pa)) (sectorOf l.pa + 1)).countHit c.part l

/-- The spill of an entry's resident state. -/
def State.spill (s : State) (part idx : Nat) : State :=
  match s.ctx? part with
  | none => s
  | some c =>
    let p := c.pin idx
    let u := s.unit p.gq
    let data := u.spillData p.base p.dk
    let area := spillHeader p idx part (u.tile p.base).tokens (crc32c data) ++ data
    (List.range (spillLines p.dk)).foldl (fun s n =>
      s.spillLine c p n ((area.drop (128 * n)).take 128) (decide (n ≠ 0) && u.groupBad p.base p.dk)) s

/-- The lines that an entry's spill writes, each with its partition. -/
def State.spillTo (s : State) (part idx : Nat) : List (Nat × Nat) :=
  match s.ctx? part with
  | none => []
  | some c => (List.range (spillLines (c.pin idx).dk)).filterMap fun n =>
      match s.spillLoc c (c.pin idx) .store n with
      | .ok l => some (part, lineOf l.pa)
      | .error _ => none

/-- Free a resident state's tiles, with +0. -/
def MUnit.freeGroup (u : MUnit) (base : Nat) (d128 : Bool) : MUnit :=
  (tileGroup base d128).foldl (fun u z => u.setTile z Tile.free) u

/-- Eviction (R242): spill, STATE SPILLED, tiles FREE with +0. -/
def State.evictPin (s : State) (part idx : Nat) : State :=
  match s.ctx? part with
  | none => s
  | some c =>
    let p := c.pin idx
    (((s.spill part idx).onUnit p.gq fun u => u.freeGroup p.base p.dk).setPin part idx
      { p with state := 2, gq := 0, base := 0 })

/-- The pin-table entries of the detached states on some tiles, as (partition, index), each once. -/
def MUnit.detached (u : MUnit) (zs : List Nat) : List (Nat × Nat) :=
  zs.foldl (fun l z =>
    let t := u.tile z
    let k := (t.part, t.handle % 4096)
    if t.state == .pinDet && !l.contains k then l ++ [k] else l) []

/-- The lines that evicting some tiles' detached states writes. -/
def State.evictTo (s : State) (ks : List (Nat × Nat)) : List (Nat × Nat) := ks.flatMap fun k => s.spillTo k.1 k.2

/-- Does an engine own one of some partitions' lines? -/
def State.anyOwned (s : State) (ls : List (Nat × Nat)) : Bool := ls.any fun l => s.owned l.1 l.2

/-- Crews that hold a version of one of some partitions' lines. -/
def State.holdersOf (s : State) (ls : List (Nat × Nat)) : List (Nat × Nat) :=
  ls.foldl (fun ks l => (s.versionHolders l.1 [l.2]).foldl (fun ks k => if ks.contains k then ks else ks ++ [k]) ks) []

/-- Before a batch's spill owns its lines: no engine owns one of them, and the crews that hold a version of one are checkpointed (E13);
`own` when the batch's own crew is among them, because its instruction takes no checkpoint itself. -/
def spillReady (s : State) (i : Iss) (ls : List (Nat × Nat)) (own : Bool) : Res State :=
  if s.anyOwned ls then .error .wait
  else
    let others := (s.holdersOf ls).filter (· != (i.ref.core, i.ref.slot))
    match ckptOthers s (if own then s.holdersOf ls else others) with
    | some s1 => .ok s1
    | none => .error (.ckpt others)

/-- The same before a spill that no batch performs, of a crew that is rolled back or of none; where it cannot be done yet, what happens
instead: the crews in the way are asked for their checkpoints. -/
def State.clearArea (s : State) (ls : List (Nat × Nat)) (but : Option (Nat × Nat)) : Except (Option State) State :=
  let ks := (s.holdersOf ls).filter fun p => but != some p
  if s.anyOwned ls then .error none
  else match ckptOthers s ks with
    | some s1 => .ok s1
    | none => .error (s.markDue ks)

/-! ### Reloads (R241) -/

/-- The bytes of an entry's spill area, none where a line fails its checks or is poisoned. -/
def State.spillRead (s : State) (c : Context) (p : PinEntry) : Nat → Option (List Byte)
  | 0 => some []
  | n + 1 =>
    match s.spillRead c p n, s.spillLoc c p .load n with
    | some bs, .ok l => if s.rangeBad l.pa 128 then none else some (bs ++ s.placeBytes l 128)
    | _, _ => none

/-- Does an area's header match its entry and its data? -/
def spillValid (p : PinEntry) (idx part : Nat) (area : List Byte) : Bool :=
  let data := area.drop 128
  area.take 128 == spillHeader p idx part (field area 24 8) (crc32c data)

/-- A reload: the elements by their number 64·… in row-major order, and TOKENS; none where a check fails. -/
def State.reload (s : State) (part idx : Nat) : Option (List Byte × Nat) :=
  match s.ctx? part with
  | none => none
  | some c =>
    let p := c.pin idx
    (s.spillRead c p (spillLines p.dk)).bind fun area =>
      if spillValid p idx part area then some (area.drop 128, field area 24 8) else none

/-- An element of a spill area's data. -/
def dataElem (data : List Byte) (d128 : Bool) (i j : Nat) : Word :=
  BitVec.ofNat 32 (leVal ((data.drop (4 * (stateDim d128 * i + j))).take 4))

/-- A state installed on tiles as attached by a crew. -/
def State.installPin (s : State) (core slot part idx : Nat) (gq base tokens : Nat) (f : Nat → Nat → Word) (bad : Bool) :
    State :=
  match s.ctx? part with
  | none => s
  | some c =>
    let p := c.pin idx
    (s.onUnit gq fun u => u.putState base p.dk f fun _ =>
      { Tile.free with
        state := .pinAtt, dk := p.dk, base := base, part := part, crew := slot, handle := handleOf p.gen idx, gen := p.gen,
        tokens := tokens, bad := bad }).setPin part idx
      { p with state := 0, gq := gq, base := base, core := core, slot := slot, launch := 0, idx := 0 }

/-! ### What a crew's end and its pre-emption do to its states (R213, R244) -/

/-- Entries of a partition's pin table that a crew has attached (0) or suspended (3). A suspended one names its crew by launch and index too,
as another crew may stand in its slot. -/
def Context.pinsOf (c : Context) (k : Crew) (state : Nat) : List (Nat × PinEntry) :=
  c.pins.filter fun p => p.2.valid && p.2.state == state && p.2.core == k.core && p.2.slot == k.slot
    && (state != 3 || (p.2.launch == k.launch && p.2.idx == k.idx))

/-- The states of an ended crew that it had suspended: spilled (R213). -/
def State.dropSuspended (s : State) (k : Crew) : State :=
  match s.ctx? k.part with
  | none => s
  | some c => (c.pinsOf k 3).foldl (fun s p => s.setPin k.part p.1
      { p.2 with state := 2, core := 0, slot := 0, gq := 0, base := 0, launch := 0, idx := 0 }) s

/-- The states of an ended crew: attached ones become detached, suspended ones spilled (R213). -/
def State.detachAll (s : State) (k : Crew) : State :=
  match s.ctx? k.part with
  | none => s
  | some c => ((c.pinsOf k 0).foldl (fun s p =>
      (s.onUnit p.2.gq fun u => (tileGroup p.2.base p.2.dk).foldl
        (fun u z => u.setTile z { u.tile z with state := .pinDet, crew := 0 }) u).setPin k.part p.1
        { p.2 with state := 1, core := 0, slot := 0 }) s).dropSuspended k

/-- The lines that the pre-emption of a crew spills to. -/
def State.suspendTo (s : State) (k : Crew) : List (Nat × Nat) :=
  match s.ctx? k.part with
  | none => []
  | some c => (c.pinsOf k 0).flatMap fun p => s.spillTo k.part p.1

/-- The detached states that stand on tiles of a unit that a resumed crew is to have: those of its suspended states, and those saved with
it. -/
def State.occupants (s : State) (p : PinEntry) : List (Nat × Nat) := (s.unit p.gq).detached (tileGroup p.base p.dk)
def State.keptOccupants (s : State) (u : MUnit) : List (Nat × Nat) := (s.unit u.gq).detached (u.tiles.map (·.1))

/-- The lines that evicting them at its resume writes. -/
def State.resumeTo (s : State) (k : Crew) : List (Nat × Nat) :=
  match s.ctx? k.part with
  | none => []
  | some c => ((c.pinsOf k 3).flatMap fun p => s.evictTo (s.occupants p.2)) ++ k.kept.flatMap fun u => s.evictTo (s.keptOccupants u)

/-- The states of a pre-empted crew: spilled, SUSPENDED, their tiles FREE; the place is kept for the resume (R244). -/
def State.suspendPins (s : State) (k : Crew) : State :=
  match s.ctx? k.part with
  | none => s
  | some c => (c.pinsOf k 0).foldl (fun s p =>
      ((s.spill k.part p.1).onUnit p.2.gq fun u => u.freeGroup p.2.base p.2.dk).setPin k.part p.1
        { p.2 with state := 3, launch := k.launch, idx := k.idx }) s

/-- The reload of one SUSPENDED state into its tiles, a PIN_DET occupant evicted first; none where a check fails. -/
def State.resumePin (s : State) (part core slot : Nat) (p : Nat × PinEntry) : Option State :=
  (s.reload part p.1).map fun r =>
    let s1 := (s.occupants p.2).foldl (fun s k => s.evictPin k.1 k.2) s
    s1.installPin core slot part p.1 p.2.gq p.2.base r.2 (dataElem r.1 p.2.dk) false

/-- Every SUSPENDED state of a crew reloaded; the spill area of the first that fails its checks (R241, R244). -/
def State.resumePins (s : State) (k : Crew) : State × Option Nat :=
  match s.ctx? k.part with
  | none => (s, none)
  | some c => (c.pinsOf k 3).foldl (fun r p =>
      match r.1.resumePin k.part k.core k.slot p with
      | some s1 => (s1, r.2)
      | none => (r.1, r.2.orElse fun _ => some p.2.va)) (s, none)

/-! ### Tiles named by an instruction (R214) -/

/-- A tile that an instruction names: a free one is claimed by its crew. -/
def MUnit.claimTile (u : MUnit) (part slot z : Nat) : MUnit :=
  if (u.tile z).state == .free then
    (u.shadow [z]).setTile z { Tile.free with state := .crew, part := part, crew := slot }
  else u

/-- Do all of some tiles stand claimed or attached, so that R214 has nothing to do? -/
def MUnit.settled (u : MUnit) (zs : List Nat) : Bool := zs.all fun z => (u.tile z).state == .crew || (u.tile z).state == .pinAtt

/-- R214 for tiles of the batch's quadrant: detached states on them are evicted, and free tiles claimed. -/
def settleTiles (s : State) (i : Iss) (zs : List Nat) : Res State :=
  let ks := (s.unit i.gq).detached zs
  match (if ks.isEmpty then .ok s else spillReady s i (s.evictTo ks) true) with
  | .error e => .error e
  | .ok s1 =>
    let s2 := ks.foldl (fun s k => s.evictPin k.1 k.2) s1
    .ok (s2.onUnit i.gq fun u => zs.foldl (fun u z => u.claimTile i.crew.part i.ref.slot z) u)

/-! ### Power tokens (R24) -/

/-- A die's thermal limit, from 1 to 8, and its tokens: what firmware set, lowered to the limit (R24). -/
def State.thermalLimit (s : State) (die : Nat) : Nat := max 1 (min 8 (spGet 8 s.thermal die))
def State.tokenCount (s : State) (die : Nat) : Nat := max 1 (min (s.thermalLimit die) (spGet 1 s.tokens die))

/-- Tokens that stand at herds as listed; the others of the die stand unused at its herd 0. -/
def State.tokensOut (s : State) (die : Nat) : Nat := (s.holds.filter fun h => h.herd / 8 == die).length

/-- Is a burst over: 2,048 cycles from its start, or 256 in a row without such an issue? -/
def TokenHold.over (h : TokenHold) (now : Nat) : Bool :=
  match h.start with
  | some t => decide (t + 2048 ≤ now) || decide (h.last + 257 ≤ now)
  | none => false

/-- The state after a herd uses the token it holds; none where it holds none. -/
def State.useToken (s : State) (herd : Nat) : Option State :=
  if s.holds.any fun h => h.herd == herd && !h.over s.clock then
    some { s with
      holds := updFirst (fun h => h.herd == herd && !h.over s.clock)
        (fun h => { h with start := some (h.start.getD s.clock), last := s.clock }) s.holds }
  else if herd % 8 = 0 ∧ s.tokensOut (herd / 8) < s.tokenCount (herd / 8) then
    some { s with holds := s.holds ++ [{ herd := herd, start := some s.clock, last := s.clock }] }
  else none

/-- A matrix-arithmetic instruction that is ready but held for a token, a cycle that SR.PTWAIT counts. -/
def State.heldForToken (s : State) (i : Iss) : State :=
  { s with stall := true }.onCrew i fun k => { k with ptwait := (k.ptwait + 1) % 2 ^ 32 }

/-- What an instruction does while it waits at issue, before anything of its own. -/
def State.beforeIssue (s : State) : State := { s with cur := none }

/-- A matrix-arithmetic instruction whose checks have passed (R224): its tiles are settled (R214), then it waits until `ready` and for
its herd's token (R24), and acts. -/
def matIssue (s : State) (i : Iss) (zs : List Nat) (ready : State → Bool) (act : State → State) : Res State :=
  match settleTiles s i zs with
  | .error e => .error e
  | .ok s1 =>
    let settled := (s.unit i.gq).settled zs
    if !ready s1 then (if settled then .error .wait else .ok s1.beforeIssue)
    else match s1.useToken (herdOf i.ref.core) with
      | some s2 => .ok (act s2)
      | none => .ok (if settled then s1.heldForToken i else s1.beforeIssue)

/-! ### Queuing at the unit (R218) -/

/-- Hand an operation to the quadrant's unit and move on. -/
def State.toUnit (s : State) (i : Iss) (words : Nat) (op : MatOp) : State :=
  (s.onUnit i.gq fun u => { u with
    queue := u.queue ++ [{ core := i.ref.core, slot := i.ref.slot, flock := i.flock.num, lanes := i.active.map (·.lane),
                           pc := i.batch.pc, op := op }] }).advance i words

/-- Checks of an operand block in scratch: alignment, then bounds, each with the mask of the issuing batch (R228). -/
def checkBlock (s : State) (i : Iss) (aligned : Bool) (extents : List (Nat × Nat)) (off : Nat) : Res Unit :=
  if !aligned then .error (.trap (i.trap .alignment (maskOf i.active) off))
  else checkOne i (checkExtents s i extents)

end Sys2Proof.Machine
end

