-- ==== Sys2Proof/Machine/Fetch.lean ====
section
/-! DEFINITION. Fetching the instruction at a batch's PC: its words, the choice of R61, the fetch faults of R60, decoding with the
traps of R57, the features of R347, and the undo-log entries an instruction needs (R313, R381). -/

namespace Sys2Proof.Machine

/-! ### Words -/

/-- Four bytes at a place, and whether they are poisoned. -/
def State.fetchAt (s : State) (part : Nat) (l : Loc) : Nat × Bool :=
  match l.cls with
  | .hostw => (leVal (s.hw.read l.pa 4), s.hwBad.contains (sectorOf l.pa))
  | .pod => (s.podVal part l.ia 4, s.podPoison part l.ia 4)
  | _ => (s.placeVal l 4, s.rangeBad l.pa 4)

/-- A word with bytes from `pa` on laid over it. -/
def layOver (w at_ pa : Nat) (bs : List Byte) : Nat :=
  leVal ((leBytes 4 w).zipIdx.map fun p => if pa ≤ at_ + p.2 then (bs[at_ + p.2 - pa]?).getD p.1 else p.1)

/-- Values that stores not yet committed give a word of a context: those in SB and Q, and those of versions. -/
def State.newWords (s : State) (part : Nat) (l : Loc) (w : Nat) : List Nat :=
  ((s.sb ++ s.rq).filterMap fun e => match e.kind with
    | .store bs _ _ => if e.part == part && e.loc.cls != .pod && e.loc.cls != .hostw then some (layOver w l.pa e.loc.pa bs) else none
    | _ => none)
    ++ (s.vers.filter fun v => v.site.part == part && v.line == lineOf l.pa).map fun v =>
      leVal ((List.range 4).map fun k => (ovGet (l.pa + k) v.bytes).getD (s.committed part (l.pa + k)))

/-- Values that a word had, and that the core has not invalidated. -/
def State.oldWords (s : State) (core part pa : Nat) : List Nat :=
  (s.icache.filter fun f => f.part == part && f.pa == pa && !f.gone.contains core).map (·.word)

/-- The value a fetched word has: the committed one, an older or a newer one (R61, DESIGN CHOICE, log 9). -/
def State.pickWord (s : State) (i : Iss) (l : Loc) (w : Nat) : Nat :=
  let alts := match l.cls with
    | .hostw => s.oldWords i.ref.core i.crew.part (windowWord l.pa)
    | .pod => s.oldWords i.ref.core i.crew.part (podWord l.ia)
    | _ => s.oldWords i.ref.core i.crew.part l.pa ++ s.newWords i.crew.part l w
  match alts.filter (· != w) with
  | [] => w
  | a => (pickFree s.fresh l.pa (w :: a)).getD w

/-- One word fetched at the crew's level, its translation cached and its access counted (R299, R326, R338); the cause of R60 and the VA where it faults.
(DEDUCED, unsafe, log 65) -/
def State.fetchWord (s : State) (i : Iss) (va : Nat) : Except (Cause × Nat) (State × Nat) :=
  match s.translate i.crew.part i.crew.level .fetch va with
  | .error c => .error (c, va)
  | .ok l =>
    if (s.fetchAt i.crew.part l).2 then .error (.poisonRead, 0)
    else .ok (s.cacheLeaf i.crew.part l, s.pickWord i l (s.fetchAt i.crew.part l).1)

/-- The words of one instruction: continuations as the X bits announce them, at most two (R47, R60), whatever the C bit of the first: a
word that cannot be fetched faults before the instruction can be found illegal. (DEDUCED, unsafe, log 65) -/
def State.fetchWords (s : State) (i : Iss) : Nat → Nat → Except (Cause × Nat) (State × List Nat)
  | 0, _ => .ok (s, [])
  | n + 1, va =>
    match s.fetchWord i va with
    | .error e => .error e
    | .ok (s1, w) =>
      if bitAt w 29 then
        match State.fetchWords s1 i n (pcPlus va 1) with
        | .error e => .error e
        | .ok (s2, ws) => .ok (s2, w :: ws)
      else .ok (s1, [w])

/-! ### Features (R347) -/

/-- The feature bit that an instruction belongs to. -/
def featureOf (i : Instr) : Nat :=
  match i with
  | .homeof _ => 4
  | .hreloc _ => 3
  | .psnapOpen _ | .psnapClose _ | .psnapBegin _ | .psnapPublish _ | .phintHot _ | .phintCold _ => 5
  | .coll _ => 6
  | _ =>
    let op := i.opcode.2
    if i.opcode.1 then (if 0x40 ≤ op ∧ op ≤ 0x48 then 1 else if 0x50 ≤ op ∧ op ≤ 0x57 then 2 else 0)
    else if 0x7C ≤ op ∧ op ≤ 0x7F then 3
    else 0

/-- The instruction at the batch's PC with the state after its fetch, or the trap of R57 or R60. -/
def State.fetch (s : State) (i : Iss) : Except Trap (State × Instr) :=
  match s.fetchWords i 3 i.batch.pc with
  | .error (c, va) => .error (i.trap c (maskOf i.active) va)
  | .ok (s1, ws) => match decode (ws.flatMap (leBytes 4)) with
    | .error _ => .error (i.trap .illegalInstruction (maskOf i.active) 0)
    | .ok (ins, _) =>
      if s.feature i.crew.part (featureOf ins) then .ok (s1, ins)
      else .error (i.trap .illegalInstruction (maskOf i.active) 0)

/-! ### Undo-log entries (R313, R381) -/

/-- p0 and q0 are never written. -/
def predEntry (n : Nat) : Nat := if n = 0 then 0 else 1

/-- Registers that a destination field names. -/
def Kind.entries : Kind → Nat → Nat
  | .lane, _ | .k, _ | .h, _ => 1
  | .lanePair, _ | .kPair, _ => 2
  | .laneQuad, _ | .quadTo _, _ => 4
  | .pred, n | .q, n => predEntry n
  | _, _ => 0

/-- The predicates that VTOP writes: those of its group for which some fibre's mask has a bit. -/
def vtopEntries (x : Form) (fs : List Fibre) : Nat :=
  ((List.range 32).filter fun j => 32 * x.dn + j != 0 && fs.any fun f => (f.reg x.bn).val.getLsbD j).length

/-- Registers that an instruction writes besides the one its D field names as a register. -/
def extraEntries (i : Instr) (fs : List Fibre) : Nat :=
  match i with
  | .icmp x | .ucmp x | .fcmp x | .hcmp x | .bcmp x | .fclass x => if x.mf 26 20 = x.dn then 0 else predEntry (x.mf 26 20)
  | .lanex x => predEntry x.cn
  | .vtop x => vtopEntries x fs
  | .qdeq x => predEntry x.bn
  | .gqr x => if x.mb 2 then 3 else 1
  | _ => 0

/-- Does an HLD or HST heal the base register of some fibre (R159)? -/
def State.heals (s : State) (i : Iss) (x : Form) (a : Access) (fs : List Fibre) : Bool :=
  (s.ctx? i.crew.part).any fun c => fs.any fun f => (heapEa s i c x a f).val.any fun l => l.healed.isSome

/-- The entry of a base register that is healed, unless the instruction's destination is that register. -/
def State.healEntries (s : State) (i : Iss) (ins : Instr) (fs : List Fibre) : Nat :=
  match ins with
  | .hld x => if s.heals i x .load fs && !(x.ref && x.an == x.dn) then 1 else 0
  | .hst x => if s.heals i x .store fs then 1 else 0
  | _ => 0

/-- Does the instruction's guard let it act? -/
def Iss.acts (i : Iss) (ins : Instr) : Bool :=
  match ins.form? with
  | none => false
  | some x => if ins.opcode.1 then guardUni x i.flock else !(i.takers x).isEmpty

/-- The fibres it acts for. -/
def Iss.taking (i : Iss) (ins : Instr) : List Fibre :=
  match ins.form? with
  | none => []
  | some x => if ins.opcode.1 then i.active else i.takers x

/-- Undo-log entries that an instruction needs: one per register that it writes, whatever the number of lanes. -/
def State.undoNeed (s : State) (i : Iss) (ins : Instr) : Nat :=
  match ins.form? with
  | some x =>
    if i.acts ins then Kind.entries ins.shape.d x.dn + extraEntries ins (i.taking ins) + s.healEntries i ins (i.taking ins) else 0
  | none => 0

/-! ### Poison in registers that are no lane registers (R44, R333) -/

/-- The registers of other banks that an instruction reads, by what its fields name. Cx of LANEX and B of QDEQ name destinations. -/
def readFields (ins : Instr) (x : Form) : List (Kind × Nat) :=
  match ins with
  | .cpy _ => (List.range 8).map fun n => (.k, x.an + n)
  | .hreloc _ => (List.range 3).map fun n => (.k, x.an + n)
  | .bld _ => (if x.mb 7 then [0, 2] else [0, 1, 2]).map fun n => (.k, x.an + n)
  | .ptov _ => (List.range 32).map fun n => (.pred, 32 * x.an + n)
  | .lanex _ | .qdeq _ => [(ins.shape.a, x.an)]
  | _ => [(ins.shape.a, x.an), (ins.shape.b, x.bn), (ins.shape.c, x.cn)]

/-- Is a uniform register or predicate that a field names poisoned? -/
def Flock.poisoned (f : Flock) : Kind → Nat → Bool
  | .k, n => f.kBad.contains n
  | .kPair, n => f.kBad.contains n || f.kBad.contains (n + 1)
  | .q, n => f.qBad.contains n
  | _, _ => false

/-- Is a predicate or reference register that a field names poisoned? -/
def Fibre.poisoned (f : Fibre) : Kind → Nat → Bool
  | .pred, n => f.pBad.contains n
  | .h, n => f.hBad.contains n
  | _, _ => false

/-- The lanes that read a poisoned register of another bank, the guard's predicate among them. -/
def Iss.spoilt (i : Iss) (ins : Instr) : List Nat :=
  match ins.form? with
  | none => []
  | some x =>
    let rs := readFields ins x
    if ins.opcode.1 then
      if i.flock.qBad.contains x.guardNum || (guardUni x i.flock && rs.any fun r => i.flock.poisoned r.1 r.2) then
        i.active.map (·.lane)
      else []
    else
      (i.active.filter fun f => f.pBad.contains x.guardNum
        || (guardLane x f && rs.any fun r => f.poisoned r.1 r.2 || i.flock.poisoned r.1 r.2)).map (·.lane)

/-- Room for an instruction's entries in its quadrant's log of 2,048, taken by checkpoints where it is too small. -/
def State.reserveUndo (s : State) (i : Iss) (n : Nat) : Res State :=
  let fits := fun (t : State) => decide (t.undoUsed i.ref.core i.flock.quad + n ≤ 2048)
  if n = 0 || fits s then .ok s
  else awaitCkpt i (ckptUntil fits (logHolders s i.ref.core i.ref.slot fun k => decide (0 < spGet 0 k.undo i.flock.quad)) s)

/-- The entries charged to the crew. -/
def State.chargeUndo (s : State) (i : Iss) (n : Nat) : State :=
  if n = 0 then s
  else s.onCrew i fun k => { k with undo := spSet 0 i.flock.quad (spGet 0 k.undo i.flock.quad + n) k.undo }

end Sys2Proof.Machine
end

