-- ==== Sys2Proof/Machine/Matrix.lean ====
section
/-! DEFINITION. The matrix class at issue: BLD, SLD, MMA, MMAI, ZZERO, ZLD, ZST, ZRD and ZWR, their checks in the order of
R224 and R228, and what they hand to the unit (R188, R189, R213-R229). -/

namespace Sys2Proof.Machine

/-! ### Format words (R188, R189) -/

def wordFa (w : Nat) : Nat := bits w 3 0
def wordFb (w : Nat) : Nat := bits w 7 4

/-- Is an agreed format word valid, for MMA or for MMAI (R188, R224)? -/
def wordValid (w : Nat) (int : Bool) : Bool :=
  let fa := wordFa w
  let fb := wordFb w
  bits w 15 11 == 0 && (!bitAt w 10 || bitAt w 9) &&
    (if int then (fa == 4 || fa == 5) && (fb == 4 || fb == 5) && bits w 10 8 == 0
     else decide (fa ≤ 3) && decide (fb ≤ 3))

/-- Bytes of an element format. -/
def elemSize (f : Nat) : Nat := if f = 2 ∨ f = 3 then 2 else 1

/-- Slots that an operand of K rows spans (R216). -/
def slotsOf (slot rows size : Nat) : List Nat := (List.range (ceilDiv rows (rowsPerSlot size))).map (slot + ·)

/-- Steps 1 to 4 of R189: the agreed word's bits [23:0]. -/
def formatWord (i : Iss) (x : Form) (int : Bool) (k : Nat) : Res Nat :=
  match converged i with
  | .error e => .error e
  | .ok _ =>
    match checkAll i i.active fun f => readSrc f x.cn x.ec with
    | .error e => .error e
    | .ok ws =>
      let w := ((ws.head?.map fun (p : Nat × Word) => p.2).getD 0).toNat % 2 ^ 24
      let differ := ws.filter fun (p : Nat × Word) => p.2.toNat % 2 ^ 24 != w
      if !differ.isEmpty then .error (.trap (i.trap .formatDivergence (laneMask (differ.map (·.1))) 0))
      else
        let ok := wordValid w int && decide (x.bn + (slotsOf x.bn k (elemSize (wordFb w))).length ≤ 16)
        let bad := if ok then ws.filter fun (p : Nat × Word) => bits p.2.toNat 31 24 != 0 else ws
        if !bad.isEmpty then .error (.trap (i.trap .illegalInstruction (laneMask (bad.map (·.1))) 0)) else .ok w

/-! ### Slots in use (R218) -/

/-- Does an outstanding BLD write one of some slots of a quadrant? -/
def Engine.loads (e : Engine) (gq : Nat) (slots : List Nat) : Bool :=
  match e.job with
  | .bld g slot size rows _ _ _ _ => g == gq && (slotsOf slot rows size).any slots.contains
  | _ => false

/-- Slots that a queued operation reads. -/
def MatOp.slots : MatOp → List Nat
  | .mma _ _ slot _ _ fmt kq _ _ _ => slotsOf slot (16 * (kq + 1)) (elemSize (wordFb fmt))
  | _ => []

/-! ### MMA and MMAI (R223-R226) -/

def matMul (x : Form) (s : State) (int : Bool) : Out State :=
  uniSet s x .matrix fun i =>
    match kFree i [(x.an, true)] with
    | .error e => .error e
    | .ok _ =>
      let k := 16 * (x.mf 16 12 + 1)
      match formatWord i x int k with
      | .error e => .error e
      | .ok w =>
        let off := (i.flock.kreg x.an).toNat
        let pitch := (i.flock.kreg (x.an + 1)).toNat
        match checkBlock s i (off % 16 == 0 && pitch % 16 == 0)
            [(off, 63 * pitch + k * elemSize (wordFa w))] off with
        | .error e => .error e
        | .ok _ =>
          matIssue s i [x.dn] (fun t => !(t.engines.any fun e => e.loads i.gq (slotsOf x.bn k (elemSize (wordFb w))))) fun t =>
            t.toUnit (t.again i) x.words
              (.mma int x.dn x.bn (i.crew.base + off) pitch w (x.mf 16 12) (x.mf 11 10) (x.mf 9 8) (x.mb 7))

def execMma (x : Form) (s : State) : Out State := matMul x s false
def execMmai (x : Form) (s : State) : Out State := matMul x s true

/-! ### BLD (R221) -/

/-- Byte extents of a load's rows. -/
def rowExtents (src pitch rows size : Nat) : List (Nat × Nat) :=
  (List.range rows).map fun r => (src + r * pitch, 64 * size)

def execBld (x : Form) (s : State) : Out State :=
  uniSet s x .matrix fun i =>
    match kFree i [(x.an, true), (x.an + 2, false)] with
    | .error e => .error e
    | .ok _ =>
      let size := if x.mb 6 then 2 else 1
      let rows := x.mf 17 9 + 1
      let src := if x.mb 7 then (i.flock.kreg x.an).toNat else (i.flock.kpair x.an).toNat % 2 ^ 57
      let pitch := (i.flock.kreg (x.an + 2)).toNat
      match (if x.mb 7 then checkOne i (checkExtents s i (rowExtents src pitch rows size)) else .ok ()) with
      | .error e => .error e
      | .ok _ =>
        let busy := (s.engines.filter fun e => e.core == i.ref.core && e.slot == i.ref.slot &&
          e.loads i.gq (List.range 16)).length
        let read := (s.unit i.gq).queue.any fun j => j.op.slots.any (slotsOf x.bn rows size).contains
        if decide (4 ≤ busy) || read then .error .wait
        else engineIssue s i x.words (fun _ => []) fun t id =>
          { t with
            engines := t.engines ++ [(t.again i).engine id [] (if x.mb 8 then some x.dn else none)
              (.bld i.gq x.bn size rows src pitch (x.mb 7) 0)] }

/-! ### SLD (R222) -/

/-- Bytes that a scale load reads. -/
def sldBytes (kind n : Nat) : Nat := if kind = 2 then 4 * n else 256 * n

def execSld (x : Form) (s : State) : Out State :=
  uniSet s x .matrix fun i =>
    match kFree i [(x.an, false)] with
    | .error e => .error e
    | .ok _ =>
      let off := (i.flock.kreg x.an).toNat
      let n := x.mf 6 2 + 1
      match checkBlock s i (off % 4 == 0) [(off, sldBytes (x.mf 1 0) n)] off with
      | .error e => .error e
      | .ok _ => .ok (s.toUnit i x.words (.sld (x.mf 1 0) n (i.crew.base + off)))

/-! ### Tile transfers (R227, R228) -/

def execZzero (x : Form) (s : State) : Out State :=
  uniSet s x .matrix fun i =>
    match settleTiles s i [x.dn] with
    | .error e => .error e
    | .ok s1 => .ok (s1.toUnit (s1.again i) x.words (.zzero x.dn))

/-- The operand block of ZLD and ZST. -/
def tileBlock (s : State) (i : Iss) (ka : Nat) : Res (Nat × Nat) :=
  match kFree i [(ka, true)] with
  | .error e => .error e
  | .ok _ =>
    let off := (i.flock.kreg ka).toNat
    let pitch := (i.flock.kreg (ka + 1)).toNat
    match checkBlock s i (off % 16 == 0 && pitch % 16 == 0) [(off, 63 * pitch + 256)] off with
    | .error e => .error e
    | .ok _ => .ok (i.crew.base + off, pitch)

def execZld (x : Form) (s : State) : Out State :=
  uniSet s x .matrix fun i =>
    match tileBlock s i x.an with
    | .error e => .error e
    | .ok b => match settleTiles s i [x.dn] with
      | .error e => .error e
      | .ok s1 => .ok (s1.toUnit (s1.again i) x.words (.zld x.dn b.1 b.2))

/-- Scratch lines that rows of some bytes touch. -/
def rowLines (start pitch rows n : Nat) : List Nat := (List.range rows).flatMap fun r => scratchLines (start + r * pitch) n

def execZst (x : Form) (s : State) : Out State :=
  uniSet s x .matrix fun i =>
    match tileBlock s i x.an with
    | .error e => .error e
    | .ok b => match needScratch s i (rowLines b.1 b.2 64 256) with
      | .error e => .error e
      | .ok s1 => match settleTiles s1 i [x.bn] with
        | .error e => .error e
        | .ok s2 => .ok (s2.toUnit (s2.again i) x.words (.zst x.bn b.1 b.2))

/-- ZRD marks its destinations empty; the unit fills them. -/
def execZrd (x : Form) (s : State) : Out State :=
  uniSet s x .matrix fun i =>
    match kFree i [(x.bn, false)] with
    | .error e => .error e
    | .ok _ => match checkAll i i.active fun f => destWide f x.dn true with
      | .error e => .error e
      | .ok _ => match settleTiles s i [x.an] with
        | .error e => .error e
        | .ok s1 =>
          let r := bits (i.flock.kreg x.bn).toNat 5 0
          let s2 := s1.onFibres i (i.active.map fun f => (f.lane, ())) fun _ f => f.empty x.dn true
          .ok (s2.toUnit (s2.again i) x.words (.zrd x.dn x.an r (x.mb 0)))

def execZwr (x : Form) (s : State) : Out State :=
  uniSet s x .matrix fun i =>
    match kFree i [(x.an, false)] with
    | .error e => .error e
    | .ok _ => match checkAll i i.active fun f => readPair f x.bn x.eb with
      | .error e => .error e
      | .ok vs => match settleTiles s i [x.dn] with
        | .error e => .error e
        | .ok s1 =>
          .ok (s1.toUnit (s1.again i) x.words
            (.zwr x.dn (bits (i.flock.kreg x.an).toNat 5 0) (x.mb 0)
              (vs.map fun v => (v.1, lo32 v.2, hi32 v.2))))

end Sys2Proof.Machine
end

