-- ==== Sys2Proof/Machine/MatUnit.lean ====
section
/-! DEFINITION. What a matrix unit computes: block sums, the promotion order, integer products, the gated delta rule, and
the effect of each queued operation (R190-R193, R218, R225, R227, R243, R379). -/

namespace Sys2Proof.Machine

/-! ### Exact sums of products (R192) -/

/-- A sum before its rounding: a NaN already in FP32, or an exact result. -/
inductive Sum where
  | nan (bits : Nat)
  | exact (e : Exact)
  deriving DecidableEq, Repr

/-- The first NaN of a block in the order A, B, A, B, …, taken into FP32. -/
def blockNan (fa fb : Fmt) : List (Nat × Nat) → Option Nat
  | [] => none
  | (a, b) :: r =>
    if (decodeF fa a).isNan then some (convNan fa fp32 (a % 2 ^ fa.width))
    else if (decodeF fb b).isNan then some (convNan fb fp32 (b % 2 ^ fb.width))
    else blockNan fa fb r

/-- The exact sum of exact products that are no NaN: invalid or infinite where one is, and −0 only where each product is. -/
def sumExact (ps : List Exact) : Exact :=
  if ps.contains .invalid || (ps.contains (.inf true) && ps.contains (.inf false)) then .invalid
  else if ps.contains (.inf true) then .inf true
  else if ps.contains (.inf false) then .inf false
  else
    let t := ps.foldl (fun (a : Int × Int) p => match p with
      | .val neg m e _ => if m = 0 then a else if a.1 = 0 then (sgn neg m, e) else addDy a (sgn neg m, e)
      | _ => a) (0, 0)
    if t.1 = 0 then
      .val (!ps.isEmpty && ps.all fun p => match p with | .val neg m _ _ => neg && m == 0 | _ => false) 0 0 false
    else .val (decide (t.1 < 0)) t.1.natAbs t.2 false

def blockSum (fa fb : Fmt) (ps : List (Nat × Nat)) : Sum :=
  match blockNan fa fb ps with
  | some n => .nan n
  | none => .exact (sumExact (ps.map fun p => fMul (decodeF fa p.1) (decodeF fb p.2)))

/-- An exact result as a value, an invalid operation as its generated NaN. -/
def Exact.value (e : Exact) : FVal :=
  match e with
  | .val neg m x _ => .fin neg m x
  | .inf neg => .inf neg
  | .invalid => .nan 0

/-- round(s × sa × sb): the NaN order is s, sa, sb (R191, R192). -/
def scaleSum (lane pc : Nat) (s : Sum) (sa sb : Nat) : Nat :=
  match s with
  | .nan n => quiet fp32 n
  | .exact .invalid => genNan fp32 true lane pc
  | .exact e => match firstNan fp32 [sa, sb] with
    | some n => n
    | none =>
      match fMul e.value (decodeF fp32 sa) with
      | .invalid => genNan fp32 true lane pc
      | p => (roundF fp32 0 false (fMul p.value (decodeF fp32 sb))).getD (genNan fp32 true lane pc)

/-- round(s), for a sum without scales. -/
def roundSum (lane pc : Nat) : Sum → Nat
  | .nan n => quiet fp32 n
  | .exact e => (roundF fp32 0 false e).getD (genNan fp32 true lane pc)

/-! ### The promotion order (R191) -/

/-- One element of a floating product: its blocks of P in increasing order. `sa` and `sb` give the scales by block number. -/
def promote (fa fb : Fmt) (lane pc p : Nat) (sa sb : Nat → Nat) : Nat → Nat → List (Nat × Nat) → Nat → Nat
  | 0, _, _, acc => acc
  | n + 1, q, ab, acc =>
    let t := scaleSum lane pc (blockSum fa fb (ab.take p)) (sa q) (sb q)
    promote fa fb lane pc p sa sb n (q + 1) (ab.drop p) (opAdd fp32 0 false lane pc acc t)

/-- The four floating element formats of a format word. -/
def elemFmt : Nat → Fmt
  | 0 => e4m3 | 1 => e5m2 | 2 => fp16 | _ => bf16

/-- An integer element: I8 signed, N8 natural. -/
def elemInt (f v : Nat) : Int := if f = 4 then sextInt v 8 else v % 256

/-- One element of an integer product (R193). -/
def intProduct (fa fb : Nat) (ab : List (Nat × Nat)) (acc : Word) : Word :=
  BitVec.ofInt 32 (ab.foldl (fun t p => t + elemInt fa p.1 * elemInt fb p.2) acc.toNat)

/-! ### Operands -/

/-- A 4-byte unit of scratch as the unit reads it for the lead fibre of an operation (R219). -/
def CrewCore.unitWord (c : CrewCore) (fresh flock lane a : Nat) : Word :=
  let own := match (c.flocks.find? fun f => f.num == flock).bind (·.fibre? lane) with
    | some f => f.pend
    | none => []
  BitVec.ofNat 32 (leVal (c.scratchRead fresh flock own lane a 4))

/-- An element of 1 or 2 bytes at a scratch address. -/
def CrewCore.unitElem (c : CrewCore) (fresh flock lane a size : Nat) : Nat :=
  (c.unitWord fresh flock lane (a / 4 * 4)).toNat / 2 ^ (8 * (a % 4)) % 2 ^ (8 * size)

/-- An element of the B-store (R216). -/
def MUnit.bElem (u : MUnit) (slot k j size : Nat) : Nat :=
  let a := (slot + k / rowsPerSlot size) * 16384 + (k % rowsPerSlot size) * 64 * size + j * size
  leVal ((List.range size).map fun n => spGet 0 u.bstore (a + n))

/-- Poisoned 64-byte units of the B-store among the K rows of an operand. -/
def MUnit.bRowsBad (u : MUnit) (slot k size : Nat) : Bool :=
  u.bBad.any fun n => decide (slot * 256 ≤ n) && decide (n < slot * 256 + ceilDiv k (rowsPerSlot size) * 256)
    && decide (n % 256 / size + (n / 256 - slot) * rowsPerSlot size < k)

/-- A poisoned line of scratch among some extents. -/
def CrewCore.linesBad (c : CrewCore) (es : List (Nat × Nat)) : Bool :=
  es.any fun e => c.scrBad.any fun l => decide (e.1 / 128 ≤ l) && decide (l ≤ (e.1 + e.2 - 1) / 128)

/-- Scale-bank entries: 1.0 where unlisted. -/
def one32 : Word := 0x3F800000
def MUnit.sA (u : MUnit) (i a : Nat) : Word := spGet one32 u.sa (32 * i + a)
def MUnit.sB (u : MUnit) (b j : Nat) : Word := spGet one32 u.sb (64 * b + j)

/-! ### Products (R225) -/

/-- The tile after MMA or MMAI. -/
def MUnit.product (u : MUnit) (c : CrewCore) (fresh : Nat) (j : MatJob) (int : Bool) (z slot off pitch fmt kq bka bkb : Nat)
    (zero : Bool) : List (Nat × Word) :=
  let lead := j.lanes.headD 0
  let k := 16 * (kq + 1)
  let fa := wordFa fmt
  let fb := wordFb fmt
  let old := u.tile z
  let am := (List.range 64).map fun r => (List.range k).map fun n =>
    c.unitElem fresh j.flock lead (off + r * pitch + n * elemSize fa) (elemSize fa)
  let bm := (List.range 64).map fun col => (List.range k).map fun n => u.bElem slot n col (elemSize fb)
  let p := 16 * 2 ^ min bka bkb
  tileData fun r col =>
    let ab := (am.getD r []).zip (bm.getD col [])
    let acc : Word := if zero then 0 else old.at_ r col
    if int then intProduct fa fb ab acc
    else
      let sa := fun q => if bitAt fmt 8 then (u.sA r (q * p / (16 * 2 ^ bka))).toNat else one32.toNat
      let sb := fun q =>
        if bitAt fmt 9 then (u.sB (q * p / (16 * 2 ^ bkb)) (if bitAt fmt 10 then col else 0)).toNat else one32.toNat
      BitVec.ofNat 32 (promote (elemFmt fa) (elemFmt fb) (r % 32) j.pc p sa sb (k / p) 0 ab acc.toNat)

/-! ### The gated delta rule (R243) -/

/-- A vector of a state's dimension. -/
def vecAt (v : List Word) (n : Nat) : Nat := (v.getD n 0).toNat

/-- round(Σ_j S[i][j] × v_j). -/
def rowDot (lane pc : Nat) (row v : List Word) : Nat :=
  roundSum lane pc (blockSum fp32 fp32 ((row.zip v).map fun p => (p.1.toNat, p.2.toNat)))

/-- round(α × S[i][j] + w × k_j): the NaN order is S, α, w, k. -/
def deltaElem (lane pc s al w k : Nat) : Nat :=
  evalF fp32 0 false lane pc [s, al, w, k]
    (match fMul (decodeF fp32 al) (decodeF fp32 s), fMul (decodeF fp32 w) (decodeF fp32 k) with
     | .invalid, _ => .invalid
     | _, .invalid => .invalid
     | a, b => fAdd 0 a.value b.value)

/-- A state as its rows. -/
abbrev FwState := List (List Word)

/-- One row of apply. -/
def applyRow (pc i : Nat) (row k : List Word) (v al be : Nat) : List Word :=
  let lane := i % 32
  let u := rowDot lane pc row k
  let d := opSub fp32 0 false lane pc v (opMul fp32 0 false lane pc al u)
  let w := opMul fp32 0 false lane pc be d
  (row.zip k).map fun p => BitVec.ofNat 32 (deltaElem lane pc p.1.toNat al w p.2.toNat)

/-- apply: every row from the old S. -/
def applyToken (pc : Nat) (s : FwState) (k v : List Word) (al be : Word) : FwState :=
  s.zipIdx.map fun r => applyRow pc r.2 r.1 k (vecAt v r.2) al.toNat be.toNat

/-- query. -/
def queryState (pc : Nat) (s : FwState) (q : List Word) : List Word :=
  s.zipIdx.map fun r => BitVec.ofNat 32 (rowDot (r.2 % 32) pc r.1 q)

/-- A unit's group as rows, and back. -/
def MUnit.rows (u : MUnit) (z : Nat) (d128 : Bool) : FwState :=
  (List.range (stateDim d128)).map fun i => (List.range (stateDim d128)).map fun j => u.elem z i j
def MUnit.putRows (u : MUnit) (z : Nat) (d128 : Bool) (s : FwState) (tokens : Nat) : MUnit :=
  u.putState z d128 (fun i j => (s.getD i []).getD j 0) fun t => { t with tokens := (t.tokens + tokens) % 2 ^ 64 }

/-- Bytes of one token (R243). -/
def tokenSize (d128 : Bool) : Nat := if d128 then 1664 else 896

/-- The words of a token as the unit reads them. -/
def tokenWords (c : CrewCore) (fresh : Nat) (j : MatJob) (d128 : Bool) (a : Nat) : List Word :=
  (List.range (tokenSize d128 / 4)).map fun n => c.unitWord fresh j.flock (j.lanes.headD 0) (a + 4 * n)

/-- A chunk's tokens in order: the state of S, and scratch with the outputs written. -/
def runChunk (fresh : Nat) (j : MatJob) (gdr d128 qf : Bool) (tb ob : Nat) : Nat → Nat → FwState × CrewCore → FwState × CrewCore
  | 0, _, r => r
  | n + 1, t, (s, c) =>
    let d := stateDim d128
    let ws := tokenWords c fresh j d128 (tb + t * tokenSize d128)
    let k := ws.take d
    let v := (ws.drop d).take d
    let q := (ws.drop (2 * d)).take d
    let s1 := if gdr then applyToken j.pc s k v (ws.getD (3 * d) 0) (ws.getD (3 * d + 1) 0) else s
    let o := queryState j.pc (if qf then s else s1) q
    let c1 := { c with scratch := c.scratch.write (ob + t * 4 * d) (o.flatMap fun w => leBytes 4 w.toNat) }
    runChunk fresh j gdr d128 qf tb ob n (t + 1) (s1, c1)

/-! ### Performing an operation (R218) -/

/-- Scratch extents that an operation reads, and its poisoned B rows: what makes it trap POISON_READ (R379). -/
def MatOp.readsBad (op : MatOp) (u : MUnit) (c : CrewCore) : Bool :=
  match op with
  | .mma _ _ slot off pitch fmt kq _ _ _ =>
    let k := 16 * (kq + 1)
    c.linesBad ((List.range 64).map fun r => (off + r * pitch, k * elemSize (wordFa fmt)))
      || u.bRowsBad slot k (elemSize (wordFb fmt))
  | .sld kind n a => c.linesBad [(a, sldBytes kind n)]
  | .zld _ off pitch => c.linesBad ((List.range 64).map fun r => (off + r * pitch, 256))
  | .chunk _ _ d128 _ n tb _ => c.linesBad [(tb, n * tokenSize d128)]
  | .zzero _ | .zst _ _ _ | .zrd _ _ _ _ | .zwr _ _ _ _ | .gdr _ _ _ _ _ _ => false

/-- A row of ZST written: its bytes, poison where the tile holds poison, and the poison of wholly covered lines cleared. -/
def CrewCore.storeRow (c : CrewCore) (a : Nat) (bs : List Byte) (bad : Bool) : CrewCore :=
  let ls := scratchLines a bs.length
  let whole := ls.filter fun l => decide (a ≤ 128 * l) && decide (128 * l + 128 ≤ a + bs.length)
  { c with
    scratch := c.scratch.write a bs
    scrBad := if bad then ls.foldl (fun l x => insertAsc x l) c.scrBad else c.scrBad.filter fun l => !whole.contains l }

/-- The unit after an operation that changes only tiles and banks. -/
def MUnit.perform (u0 : MUnit) (c : CrewCore) (fresh : Nat) (j : MatJob) : MUnit :=
  let lead := j.lanes.headD 0
  match j.op with
  | .sld kind n a =>
    let u := u0.shadowBanks
    let rd := fun w => c.unitWord fresh j.flock lead (a + 4 * w)
    if kind = 0 then
      { u with
        saBad := u.saBad && n != 32
        sa := (List.range (64 * n)).foldl (fun m e => spSet one32 (32 * (e / n) + e % n) (rd e) m) u.sa }
    else
      { u with
        sbBad := u.sbBad && n != 32
        sb := (List.range (64 * n)).foldl (fun m e => spSet one32 e (rd (if kind = 2 then e / 64 else e)) m) u.sb }
  | .mma int z slot off pitch fmt kq bka bkb zero =>
    let u := u0.shadow [z]
    let banks := !int && ((bitAt fmt 8 && u.saBad) || (bitAt fmt 9 && u.sbBad))
    u.setTile z { u.tile z with
      data := u.product c fresh j int z slot off pitch fmt kq bka bkb zero
      bad := ((u.tile z).bad && !zero) || banks }
  | .zzero z => let u := u0.shadow [z]; u.setTile z { u.tile z with data := [], bad := false }
  | .zld z off pitch =>
    let u := u0.shadow [z]
    u.setTile z { u.tile z with
      data := tileData fun r col => c.unitWord fresh j.flock lead (off + r * pitch + 4 * col)
      bad := false }
  | .zwr z r col vals =>
    let u := u0.shadow [z]
    let key := fun n => if col then 64 * n + r else 64 * r + n
    u.setTile z { u.tile z with
      data := vals.foldl (fun d v => spSet 0 (key (v.1 + 32)) v.2.2 (spSet 0 (key v.1) v.2.1 d)) (u.tile z).data }
  | .gdr z d128 k v al be =>
    let u := u0.shadow (tileGroup z d128)
    u.putRows z d128 (applyToken j.pc (u.rows z d128) k v al be) 1
  | .chunk gdr z d128 qf n tb ob =>
    if gdr then
      let u := u0.shadow (tileGroup z d128)
      u.putRows z d128 (runChunk fresh j gdr d128 qf tb ob n 0 (u.rows z d128, c)).1 n
    else u0
  | .zst _ _ _ | .zrd _ _ _ _ => u0

/-- The crew after an operation that writes scratch or lane registers. -/
def CrewCore.perform (c : CrewCore) (u : MUnit) (fresh : Nat) (j : MatJob) : CrewCore :=
  match j.op with
  | .zst z off pitch =>
    let t := u.tile z
    (List.range 64).foldl (fun c r =>
      c.storeRow (off + r * pitch) ((List.range 64).flatMap fun n => leBytes 4 (t.at_ r n).toNat) t.bad) c
  | .zrd d z r col =>
    let t := u.tile z
    let rd := fun n => if col then t.at_ n r else t.at_ r n
    c.updFlock j.flock fun f => j.lanes.foldl (fun f l => f.updFibre l fun x =>
      if t.bad then x.bad d true else x.markFull64 d (join64 (rd l) (rd (l + 32)))) f
  | .chunk gdr z d128 qf n tb ob => (runChunk fresh j gdr d128 qf tb ob n 0 (u.rows z d128, c)).2
  | .sld _ _ _ | .mma _ _ _ _ _ _ _ _ _ _ | .zzero _ | .zld _ _ _ | .zwr _ _ _ _ | .gdr _ _ _ _ _ _ => c

/-- Does an operation write scratch? -/
def MatOp.writesScratch : MatOp → Bool
  | .zst _ _ _ | .chunk _ _ _ _ _ _ _ => true
  | _ => false

/-- Does a B-store load from scratch of the flock that issued an operation still read? It was issued before it, since a load's hand-over
waits for the unit, and its reads come first (R116, R219). -/
def State.loadReads (s : State) (j : MatJob) : Bool :=
  s.engines.any fun e => e.core == j.core && e.slot == j.slot && e.flock == j.flock && match e.job with
    | .bld _ _ _ _ _ _ sc _ => sc
    | _ => false

/-- MATRIX_UNIT_EXECUTE: the operation at the head of a unit's queue takes effect; on poison its crew traps. -/
def State.unitStep (s : State) (gq : Nat) : Option State :=
  let u := s.unit gq
  match u.queue with
  | [] => none
  | j :: rest =>
    match s.crew? j.core j.slot with
    | none => some (s.setUnit { u with queue := rest })
    | some k =>
      let s1 := s.setUnit { u with queue := rest }
      if j.op.writesScratch && s.loadReads j then none
      else if j.op.readsBad u k.live then
        some (s1.raise j.core j.slot
          { cause := .poisonRead, lanes := laneMask j.lanes, addr := 0, pc := j.pc, code := 0, flock := j.flock, eng := false })
      else
        some ((s1.setUnit ({ u with queue := rest }.perform k.live s.fresh j)).updCrew j.core j.slot fun k =>
          k.updLive fun c => c.perform u s.fresh j)

/-! ### Rows of a B-store load (R221, R379) -/

/-- One source byte of a load, with its poison. -/
def State.bldByte (s : State) (e : Engine) (a : Nat) (scratch : Bool) : Except EngFault (Byte × Bool) :=
  if scratch then
    match s.engCrew e with
    | none => .ok (0, false)
    | some k => .ok (k.live.engByte s.fresh (k.base + a))
  else match s.engLoc e .load a with
    | .error f => .error f
    | .ok l => .ok (((s.engRead e l 1).1).headD 0, (s.engRead e l 1).2)

/-- `n` source bytes from an address. -/
def State.bldBytes (s : State) (e : Engine) (scratch : Bool) : Nat → Nat → Except EngFault (List (Byte × Bool))
  | _, 0 => .ok []
  | a, n + 1 =>
    match s.bldByte e a scratch with
    | .error f => .error f
    | .ok b => match State.bldBytes s e scratch (a + 1) n with
      | .error f => .error f
      | .ok bs => .ok (b :: bs)

/-- A row of the B-store written, with its poison. -/
def MUnit.writeRow (u : MUnit) (a : Nat) (bs : List (Byte × Bool)) : MUnit :=
  let n := bs.length / 64
  { u with
    bstore := spSetList 0 a (bs.map (·.1)) u.bstore
    bBad := (List.range n).foldl (fun l i =>
      if bs.any (·.2) then insertAsc (a / 64 + i) l else l.filter (· != a / 64 + i)) u.bBad }

/-- Does an earlier load still write a common slot (R218)? -/
def State.bldBlocked (s : State) (e : Engine) (gq : Nat) (slots : List Nat) : Bool :=
  s.engines.any fun d => decide (d.id < e.id) && d.loads gq slots

/-- The next row of a load, once no row of DRAM holds it back (R283); a memory fault stops it and traps its crew. -/
def State.bldStep (s : State) (e : Engine) (gq slot size rows src pitch : Nat) (scratch : Bool) (next : Nat) : Option State :=
  if rows ≤ next ∨ s.bldBlocked e gq (slotsOf slot rows size)
      ∨ (!scratch && (List.range size).any fun n => s.vaWaits false e .load (src + next * pitch + 64 * n)) then none
  else match s.bldBytes e scratch (src + next * pitch) (64 * size) with
    | .error f => some (s.engFault e f)
    | .ok bs =>
      let a := (slot + next / rowsPerSlot size) * 16384 + (next % rowsPerSlot size) * 64 * size
      let s1 := if scratch then s else s.countReads false e ((List.range (64 * size)).map (src + next * pitch + ·))
      some ((s1.onUnit gq fun u => u.writeRow a bs).updEngine e.id fun x =>
        { x with job := .bld gq slot size rows src pitch scratch (next + 1) })

end Sys2Proof.Machine
end

