-- ==== Sys2Proof/Machine/FastWeight.lean ====
section
/-! DEFINITION. The fast-weight class: ZPIN, ZATT, ZDET, ZREL, ZSPILL, ZINFO and the forms of GDR and GQR (R231-R245). -/

namespace Sys2Proof.Machine

/-! ### Pin-table operations (R234, R236, R237) -/

/-- A pin-table operation's verdict: a trap's cause and address, or a result. -/
abbrev Pin (α : Type) := Except (Cause × Nat) α

/-- The frame of a pin-table operation: two checkpoints with the operation between them, performed as one; its traps are
taken from the second. `lines` are those that its spills write. -/
def pinTable (s : State) (i : Iss) (words : Nat) (lines : List (Nat × Nat)) (run : State → Iss → Pin State) : Res State :=
  match (if lines.isEmpty then .ok s else spillReady s i lines false) with
  | .error e => .error e
  | .ok s0 => match firstCkpt s0 (s0.again i) with
    | .error e => .error e
    | .ok s1 =>
      .ok (match run s1 (s1.again i) with
        | .ok s2 => (s2.advance i words).secondCkpt i.ref.core i.ref.slot
        | .error t => ((s1.advance i words).raise i.ref.core i.ref.slot (i.trap t.1 (maskOf i.active) t.2)).secondCkpt
            i.ref.core i.ref.slot)

/-- The table of the batch's partition. -/
def State.table (s : State) (i : Iss) : Context := (s.ctx? i.crew.part).getD (Context.reset i.crew.part)

/-- The target tiles of ZPIN and ZATT: none may be PIN_ATT. -/
def MUnit.targetOk (u : MUnit) (zs : List Nat) : Bool := zs.all fun z => (u.tile z).state != .pinAtt

/-- The entry that a handle names, with its index. -/
def Context.named (c : Context) (h : Nat) : Pin (Nat × PinEntry) :=
  if c.names h then .ok (bits h 11 0, c.pin (bits h 11 0)) else .error (.pinState, 0)

/-- Is an entry attached by the issuing crew? -/
def PinEntry.attachedBy (p : PinEntry) (i : Iss) : Bool := p.state == 0 && p.core == i.ref.core && p.slot == i.ref.slot

/-! ### ZPIN -/

/-- ZPIN's checks: the range's IA of the spill area, and the lowest free entry if there is one. -/
def zpinPlan (s : State) (i : Iss) (x : Form) : Pin (Nat × Option Nat) :=
  let va := (i.flock.kpair x.bn).toNat % 2 ^ 57
  let c := s.table i
  if va % 128 ≠ 0 then .error (.alignment, va)
  else match c.findRange va 0 16 with
    | none => .error (.rangeMiss, va)
    | some (_, r) =>
      if r.cls ≠ 0 then .error (.pinState, 0)
      else if !(s.unit i.gq).targetOk (tileGroup x.an (x.mb 2)) then .error (.pinState, 0)
      else .ok (r.ia va, (List.range 4096).find? fun n => !(c.pin n).valid)

/-- What ZPIN does once its plan stands (R236, R237). (DEDUCED, unsafe, log 45) -/
def zpinRun (s : State) (i : Iss) (x : Form) : Pin State :=
  match zpinPlan s i x with
  | .error t => .error t
  | .ok (_, none) => .ok (s.onFlock i fun f => f.setK x.dn 0x80000000)
  | .ok (ia, some n) =>
    let zs := tileGroup x.an (x.mb 2)
    let s1 := ((s.unit i.gq).detached zs).foldl (fun s k => s.evictPin k.1 k.2) s
    let gen := ((s.table i).pin n).gen
    let s2 := s1.onUnit i.gq fun u => zs.foldl (fun u z => u.setTile z { u.tile z with
      state := .pinAtt, dk := x.mb 2, base := x.an, part := i.crew.part, crew := i.ref.slot, handle := handleOf gen n,
      gen := gen, tokens := 0 }) u
    let s3 := s2.setPin i.crew.part n
      { valid := true, gen := gen, state := 0, dk := x.mb 2, gq := i.gq, base := x.an, core := i.ref.core, slot := i.ref.slot,
        va := (i.flock.kpair x.bn).toNat % 2 ^ 57, ia := ia, level := i.crew.level,
        launch := 0, idx := 0 }
    .ok (s3.onFlock i fun f => f.setK x.dn (BitVec.ofNat 32 (handleOf gen n)))

def execZpin (x : Form) (s : State) : Out State :=
  uniSet s x .matrix fun i =>
    match kFree i [(x.dn, false), (x.bn, true)] with
    | .error e => .error e
    | .ok _ =>
      let lines := match zpinPlan s i x with
        | .ok (_, some _) => s.evictTo ((s.unit i.gq).detached (tileGroup x.an (x.mb 2)))
        | _ => []
      pinTable s i x.words lines fun s i => zpinRun s i x

/-! ### ZATT -/

/-- What a ZATT finds: it is attached here already, detached here, detached elsewhere, or spilled. -/
inductive Attach where
  | already
  | here
  | move (p : PinEntry)
  | reload (data : List Byte) (tokens : Nat)

def zattPlan (s : State) (i : Iss) (x : Form) : Pin (Nat × Attach) :=
  match (s.table i).named (i.flock.kreg x.an).toNat with
  | .error t => .error t
  | .ok (n, p) =>
    let here := p.gq == i.gq && p.base == x.dn && p.dk == x.mb 2
    if p.attachedBy i && here then .ok (n, .already)
    else if p.state = 0 ∨ p.state = 3 ∨ p.dk ≠ x.mb 2 then .error (.pinState, 0)
    else if !(s.unit i.gq).targetOk (tileGroup x.dn p.dk) then .error (.pinState, 0)
    else if p.state = 1 then .ok (n, if here then .here else .move p)
    else match s.reload i.crew.part n with
      | none => .error (.pinState, p.va)
      | some r => .ok (n, .reload r.1 r.2)

/-- The detached states of other handles that a ZATT evicts. -/
def zattEvicts (s : State) (i : Iss) (x : Form) (n : Nat) : List (Nat × Nat) :=
  ((s.unit i.gq).detached (tileGroup x.dn (x.mb 2))).filter fun k => k.2 != n

def zattRun (s : State) (i : Iss) (x : Form) : Pin State :=
  match zattPlan s i x with
  | .error t => .error t
  | .ok (n, a) =>
    let part := i.crew.part
    let clear := fun (s : State) => (zattEvicts s i x n).foldl (fun s k => s.evictPin k.1 k.2) s
    .ok (match a with
      | .already => s
      | .here =>
        (s.onUnit i.gq fun u => (tileGroup x.dn (x.mb 2)).foldl
          (fun u z => u.setTile z { u.tile z with state := .pinAtt, part := part, crew := i.ref.slot }) u).setPin part n
          { (s.table i).pin n with state := 0, core := i.ref.core, slot := i.ref.slot }
      | .move p =>
        let u := s.unit p.gq
        ((clear s).onUnit p.gq fun v => v.freeGroup p.base p.dk).installPin i.ref.core i.ref.slot part n i.gq x.dn
          (u.tile p.base).tokens (u.elem p.base) (u.groupBad p.base p.dk)
      | .reload data tokens =>
        (clear s).installPin i.ref.core i.ref.slot part n i.gq x.dn tokens (dataElem data (x.mb 2)) false)

def execZatt (x : Form) (s : State) : Out State :=
  uniSet s x .matrix fun i =>
    match kFree i [(x.an, false)] with
    | .error e => .error e
    | .ok _ =>
      let lines := match zattPlan s i x with
        | .ok (n, .move _) | .ok (n, .reload _ _) => s.evictTo (zattEvicts s i x n)
        | _ => []
      pinTable s i x.words lines fun s i => zattRun s i x

/-! ### ZDET, ZREL, ZSPILL -/

def zdetRun (s : State) (i : Iss) (z : Nat) : Pin State :=
  let t := (s.unit i.gq).tile z
  if t.state != .pinAtt || t.base != z then .error (.pinState, 0)
  else
    let n := t.handle % 4096
    .ok ((s.onUnit i.gq fun u => (tileGroup z t.dk).foldl
      (fun u z => u.setTile z { u.tile z with state := .pinDet, crew := 0 }) u).setPin i.crew.part n
      { (s.table i).pin n with state := 1, core := 0, slot := 0 })

def execZdet (x : Form) (s : State) : Out State :=
  uniSet s x .matrix fun i => pinTable s i x.words [] fun s i => zdetRun s i x.dn

/-- The entry that ZREL and ZSPILL act on: neither attached by another crew nor SUSPENDED. -/
def ownPlan (s : State) (i : Iss) (x : Form) : Pin (Nat × PinEntry) :=
  match (s.table i).named (i.flock.kreg x.an).toNat with
  | .error t => .error t
  | .ok (n, p) => if p.state = 3 ∨ (p.state = 0 ∧ p.attachedBy i = false) then .error (.pinState, 0) else .ok (n, p)

def zrelRun (s : State) (i : Iss) (x : Form) : Pin State :=
  match ownPlan s i x with
  | .error t => .error t
  | .ok (n, p) =>
    let s1 := if p.state = 0 then
        s.onUnit p.gq fun u => (tileGroup p.base p.dk).foldl
          (fun u z => u.setTile z { u.tile z with state := .crew, dk := false, base := 0, handle := 0, gen := 0 }) u
      else if p.state = 1 then s.onUnit p.gq fun u => u.freeGroup p.base p.dk
      else s
    .ok (s1.setPin i.crew.part n { PinEntry.empty with gen := (p.gen + 1) % 256 })

def execZrel (x : Form) (s : State) : Out State :=
  uniSet s x .matrix fun i =>
    match kFree i [(x.an, false)] with
    | .error e => .error e
    | .ok _ => pinTable s i x.words [] fun s i => zrelRun s i x

def zspillRun (s : State) (i : Iss) (x : Form) : Pin State :=
  match ownPlan s i x with
  | .error t => .error t
  | .ok (n, p) =>
    .ok (if p.state = 0 then s.spill i.crew.part n else if p.state = 1 then s.evictPin i.crew.part n else s)

def execZspill (x : Form) (s : State) : Out State :=
  uniSet s x .matrix fun i =>
    match kFree i [(x.an, false)] with
    | .error e => .error e
    | .ok _ =>
      let lines := match ownPlan s i x with
        | .ok (n, p) => if p.state ≤ 1 then s.spillTo i.crew.part n else []
        | .error _ => []
      pinTable s i x.words lines fun s i => zspillRun s i x

/-! ### ZINFO (R238) -/

def TileState.code : TileState → Nat
  | .free => 0 | .crew => 1 | .pinAtt => 2 | .pinDet => 3

/-- The three values of the .T form. -/
def Tile.info (t : Tile) : Nat × Nat × Nat :=
  (t.state.code * 2 ^ 30 + (if t.dk then 2 ^ 29 else 0) + t.part % 16 * 2 ^ 8 + t.crew % 16 * 2 ^ 4 + t.base % 8,
   t.gen * 2 ^ 24 + t.handle, t.tokens)

/-- The partition of a detached tile reads 0 (R231). -/
def Tile.shown (t : Tile) : Tile := if t.state == .pinDet then { t with part := 0, crew := 0 } else t

/-- The three values of the .H form. -/
def PinEntry.info (p : PinEntry) (idx : Nat) : Nat × Nat × Nat :=
  if !p.valid then (0, p.gen * 2 ^ 24, 0)
  else
    let res := p.state ≤ 1
    (2 ^ 31 + p.state * 2 ^ 29 + (if p.dk then 2 ^ 28 else 0) + (if res then p.base * 2 ^ 11 + p.gq % 2 ^ 11 else 0),
     p.gen * 2 ^ 24 + handleOf p.gen idx, p.va)

/-- ZINFO reads in the order of R218: it waits until the unit has performed what stands before it. -/
def zinfo (x : Form) (s : State) (regs : List (Nat × Bool)) (val : Iss → Nat × Nat × Nat) : Out State :=
  uniSet s x .matrix fun i =>
    match kFree i ([(x.dn, true), (x.dn + 2, true)] ++ regs) with
    | .error e => .error e
    | .ok _ =>
      if !(s.unit i.gq).queue.isEmpty then .error .wait
      else
        let v := val i
        .ok ((s.onFlock i fun f => (f.setK64 x.dn (BitVec.ofNat 64 (v.1 + v.2.1 * 2 ^ 32))).setK64 (x.dn + 2)
          (BitVec.ofNat 64 v.2.2)).advance i x.words)

def execZinfoT (x : Form) (s : State) : Out State :=
  zinfo x s [] fun i => ((s.unit i.gq).tile x.an).shown.info

def execZinfoH (x : Form) (s : State) : Out State :=
  zinfo x s [(x.an, false)] fun i =>
    let n := bits (i.flock.kreg x.an).toNat 11 0
    ((s.table i).pin n).info n

/-! ### GDR and GQR, single token (R243) -/

/-- Registers per lane that a vector of a state's dimension takes. -/
def vecRegs (d128 : Bool) : Nat := if d128 then 4 else 2

/-- The registers of a fibre that hold its elements of a vector. -/
def readVec (f : Fibre) (n : Nat) (trapMode : Bool) : Nat → Chk (List Word)
  | 0 => .ok []
  | k + 1 => ((readSrc f n trapMode).and (readVec f (n + 1) trapMode k)).map fun p => p.1 :: p.2

/-- A vector from its lanes: element j stands in register ⌊j/32⌋ of lane slot j mod 32; +0 where no fibre stands. -/
def vecOf (vs : List (Nat × List Word)) (n : Nat) : List Word :=
  (List.range n).map fun j => match vs.find? fun v => v.1 == j % 32 with
    | some v => v.2.getD (j / 32) 0
    | none => 0

/-- GDR: a token applied to each tile of the group, whose counts rise (R243, R244). (DEDUCED, unsafe, log 48) -/
def execGdr (x : Form) (s : State) : Out State :=
  uniSet s x .matrix fun i =>
    match converged i with
    | .error e => .error e
    | .ok _ => match kFree i [(x.cn, true)] with
      | .error e => .error e
      | .ok _ =>
        let r := vecRegs (x.mb 2)
        match checkAll i i.active fun f => (readVec f x.an x.ea r).and (readVec f x.bn x.eb r) with
        | .error e => .error e
        | .ok vs =>
          let d := stateDim (x.mb 2)
          matIssue s i (tileGroup x.dn (x.mb 2)) (fun _ => true) fun t =>
            t.toUnit (t.again i) x.words
              (.gdr x.dn (x.mb 2) (vecOf (vs.map fun v => (v.1, v.2.1)) d) (vecOf (vs.map fun v => (v.1, v.2.2)) d)
                (i.flock.kreg x.cn) (i.flock.kreg (x.cn + 1)))

/-- Destinations of a GQR: inside the window and not awaiting another producer. -/
def destVec (f : Fibre) (n : Nat) : Nat → Chk Unit
  | 0 => .ok ()
  | k + 1 => ((destOk f n).and (destVec f (n + 1) k)).map fun _ => ()

/-- The elements of a GQR's result written to a fibre's registers. -/
def Fibre.putVec (f : Fibre) (n : Nat) (o : List Word) (bad : Bool) (k : Nat) : Fibre :=
  (List.range k).foldl (fun f r =>
    if bad then f.markPoison (n + r) else f.markFull (n + r) (o.getD (32 * r + f.lane) 0)) f

/-- GQR's writes are of fixed latency: it acts once the unit has performed what stands before it (R218, R243).
(DEDUCED, safe, log 47) -/
def execGqr (x : Form) (s : State) : Out State :=
  uniSet s x .matrix fun i =>
    match converged i with
    | .error e => .error e
    | .ok _ =>
      let r := vecRegs (x.mb 2)
      match checkAll i i.active fun f => (readVec f x.bn x.eb r).and (destVec f x.dn r) with
      | .error e => .error e
      | .ok vs =>
        matIssue s i (tileGroup x.an (x.mb 2)) (fun t => (t.unit i.gq).queue.isEmpty) fun t =>
          let u := t.unit i.gq
          let o := queryState i.batch.pc (u.rows x.an (x.mb 2)) (vecOf (vs.map fun v => (v.1, v.2.1)) (stateDim (x.mb 2)))
          (t.onFibres i (i.active.map fun f => (f.lane, ())) fun _ f =>
            f.putVec x.dn o (u.groupBad x.an (x.mb 2)) r).advance i x.words

/-! ### Chunk forms (R243) -/

def chunk (x : Form) (s : State) (gdr : Bool) (z ka : Nat) : Out State :=
  uniSet s x .matrix fun i =>
    match converged i with
    | .error e => .error e
    | .ok _ => match kFree i [(ka, true)] with
      | .error e => .error e
      | .ok _ =>
        let tb := (i.flock.kreg ka).toNat
        let ob := (i.flock.kreg (ka + 1)).toNat
        let n := x.mf 7 4 + 1
        let outBytes := n * 4 * stateDim (x.mb 2)
        match checkBlock s i (tb % 128 == 0 && ob % 128 == 0) [(tb, n * tokenSize (x.mb 2)), (ob, outBytes)]
            (if tb % 128 = 0 then ob else tb) with
        | .error e => .error e
        | .ok _ =>
          match needScratch s i (scratchLines (i.crew.base + ob) outBytes) with
          | .error e => .error e
          | .ok s1 =>
            matIssue s1 i (tileGroup z (x.mb 2)) (fun _ => true) fun t =>
              t.toUnit (t.again i) x.words (.chunk gdr z (x.mb 2) (x.mb 8) n (i.crew.base + tb) (i.crew.base + ob))

def execGdrCq (x : Form) (s : State) : Out State := chunk x s true x.dn x.an
def execGqrCq (x : Form) (s : State) : Out State := chunk x s false x.an x.bn

end Sys2Proof.Machine
end

