-- ==== Sys2Proof/Machine/Coll.lean ====
section
/-! DEFINITION. Collectives: COLL with its checks, and the steps of the collective sequencer at this package's endpoint. What
other members send arrives as inputs (R246-R260, DESIGN CHOICE, log 10). -/

namespace Sys2Proof.Machine

/-! ### The parameter block (R249) -/

/-- Word `n` of a block. -/
def cw (b : List Nat) (n : Nat) : Nat := b.getD n 0

def collOp (b : List Nat) : Nat := bits (cw b 0) 7 0
def collRop (b : List Nat) : Nat := bits (cw b 0) 15 8
def collType (b : List Nat) : Nat := bits (cw b 0) 23 16
def collArr (b : List Nat) : Bool := bitAt (cw b 0) 24
def collCmp (b : List Nat) : Bool := bitAt (cw b 0) 25
def collRoot (b : List Nat) : Nat := bits (cw b 1) 63 32
def collCount (b : List Nat) : Nat := cw b 4
def collKind (b : List Nat) : Nat := bits (cw b 5) 7 0
def collNb (b : List Nat) : Nat := bits (cw b 5) 15 8

/-- Bytes of an element of DTYPE; none for an illegal code. -/
def typeSize : Nat → Option Nat
  | 0 => some 4 | 1 => some 2 | 2 => some 2 | 5 => some 4 | 6 => some 4 | 7 => some 8 | 8 => some 8 | _ => none

def elemBytes (b : List Nat) : Nat := (typeSize (collType b)).getD 4

/-- Elements of the send and the receive extent at a rank (R251). -/
def sendCount (b : List Nat) (g rank : Nat) : Nat :=
  match collOp b with
  | 1 | 2 | 4 => collCount b
  | 3 => if rank = collRoot b then collCount b else 0
  | 5 | 6 => g * collCount b
  | _ => 0

def recvCount (b : List Nat) (g rank : Nat) : Nat :=
  match collOp b with
  | 1 | 3 | 5 => collCount b
  | 2 => if rank = collRoot b then collCount b else 0
  | 4 | 6 => g * collCount b
  | _ => 0

/-- The group entry of a group id: its number, G, own rank and the IA of its list (R305). -/
structure GroupEntry where
  g : Nat
  rank : Nat
  list : Nat
  deriving DecidableEq, Repr

def Context.group? (c : Context) (id : Nat) : Option GroupEntry :=
  ((List.range 1024).find? fun n =>
    bitAt (c.reg (snGroup + 4 * n + 1)).toNat 63 && bits (c.reg (snGroup + 4 * n)).toNat 31 0 == id).map fun n =>
    { g := bits (c.reg (snGroup + 4 * n)).toNat 52 32, rank := bits (c.reg (snGroup + 4 * n + 1)).toNat 19 0,
      list := (c.reg (snGroup + 4 * n + 2)).toNat }

/-- The class of the range register that holds a VA. -/
def Context.classAt (c : Context) (va : Nat) : Option Class := (c.findRange (va % 2 ^ 57) 0 16).map fun r => Class.ofCode r.2.cls

/-- Does an extent lie in one range register of class DEV? -/
def Context.devExtent (c : Context) (va n : Nat) : Bool :=
  n == 0 || match c.findRange va 0 16 with
    | some (_, r) => r.cls == 0 && decide (va + n ≤ r.limit)
    | none => false

/-- Does the OP combine values? ROP, ARR and CMP are ignored for those that combine nothing (R250). -/
def combines (op : Nat) : Bool := !(op == 3 || op == 4 || op == 6)

/-- Words 0, 1, 4 and 10 to 15 of R249, and R250. -/
def blockFormed (b : List Nat) (g rank : Nat) : Bool :=
  let op := collOp b
  let root := collRoot b
  bits (cw b 0) 63 28 == 0 && decide (1 ≤ op) && decide (op ≤ 7) && decide (collRop b ≤ 2) && (typeSize (collType b)).isSome
    && (if collCmp b then decide (bits (cw b 0) 27 26 ≤ 1) else bits (cw b 0) 27 26 == 0)
    && decide (1 ≤ g) && decide (g ≤ 2 ^ 20) && decide (rank < g)
    && (if op == 2 || op == 3 then decide (root < g) else root == 0)
    && (cw b 10 == 0 || (isPow2 (cw b 10) && decide (4096 ≤ cw b 10) && decide (cw b 10 ≤ 2 ^ 22)))
    && decide (cw b 11 ≤ 3) && cw b 12 == 0 && cw b 13 == 0 && cw b 14 == 0 && cw b 15 == 0
    && (!combines op || !collCmp b || (collType b == 0 && collRop b == 0 && (op == 1 || op == 2 || op == 5)))
    && (!combines op || !(collArr b && collRop b == 0) || (collType b != 1 && collType b != 2))
    && (op != 7 || (collCount b == 0 && cw b 2 == 0 && cw b 3 == 0 && !collCmp b))

/-- Words 5 to 8: completion, flag and trigger. -/
def flagsFormed (c : Context) (b : List Nat) : Bool :=
  let kind := collKind b
  bits (cw b 5) 63 16 == 0 && decide (kind ≤ 3) && decide (collNb b ≤ 15) && (kind == 1 || kind == 3 || collNb b == 0)
    && (kind ≤ 1 || (cw b 6 != 0 && cw b 6 % 8 == 0 && (match c.classAt (cw b 6) with
      | some .dev | some .hostw => true
      | _ => false)))
    && (cw b 8 == 0 || (cw b 8 % 8 == 0 && (match c.classAt (cw b 8) with
      | some .dev | some .pod | some .hostw => true
      | _ => false)))

/-- R251: alignment, one range of class DEV each, and no overlap but in place. -/
def buffersFormed (c : Context) (b : List Nat) (g rank : Nat) : Bool :=
  let e := elemBytes b
  let sn := sendCount b g rank * e
  let rn := recvCount b g rank * e
  (collOp b == 7 || (cw b 2 % e == 0 && cw b 3 % e == 0)) && c.devExtent (cw b 2) sn && c.devExtent (cw b 3) rn
    && (sn == 0 || rn == 0 || decide (cw b 3 + rn ≤ cw b 2) || decide (cw b 2 + sn ≤ cw b 3)
      || (cw b 2 == cw b 3 && (collOp b == 1 || collOp b == 3)))

/-- The group of a block that keeps R249 to R251. (DEDUCED, unsafe, log 49) -/
def Context.blockOk (c : Context) (b : List Nat) : Option GroupEntry :=
  (c.group? (bits (cw b 1) 31 0)).filter fun g =>
    blockFormed b g.g g.rank && flagsFormed c b && buffersFormed c b g.g g.rank

/-- VAs at which an extent's pages are checked. -/
def pagesOf (va n : Nat) : List Nat :=
  if n = 0 then [] else (List.range ((va + n - 1) / 65536 - va / 65536 + 1)).map fun k => max va ((va / 65536 + k) * 65536)

/-- Page checks of one extent. -/
def checkPages (s : State) (i : Iss) (a : Access) (va n : Nat) : Chk Unit :=
  (pagesOf va n).foldl (fun c p =>
    (c.and (Chk.ofExcept p (s.translate i.crew.part i.crew.level a p))).map fun _ => ()) (.ok ())

/-- PA lines of an extent that translates. -/
def State.extentLines (s : State) (part : Nat) (lv : Level) (va n : Nat) : List Nat :=
  if n = 0 then []
  else (List.range ((va + n - 1) / 128 - va / 128 + 1)).filterMap fun k =>
    match s.translate part lv .store ((va / 128 + k) * 128) with
    | .ok l => some (lineOf l.pa)
    | .error _ => none

/-! ### COLL (R247, R248) -/

/-- The checks of the parameter block's address. -/
def checkColl (s : State) (i : Iss) (va : Nat) : Chk Loc :=
  (Chk.guard (va % 128 == 0) .alignment va).bind fun _ =>
    (Chk.ofExcept va (s.translate i.crew.part i.crew.level .load va)).bind fun l =>
      (Chk.guard (l.cls == .dev) .collParam va).map fun _ => l

/-- The block's words as the crew sees them after its release. -/
def State.collBlock (s : State) (i : Iss) (l : Loc) : List Nat :=
  (List.range 16).map fun n => leVal ((List.range 8).map fun k =>
    if l.home = 3 then s.mem.get (l.pa + 8 * n + k) else s.seenByte l.part i.ref.core i.ref.slot (l.pa + 8 * n + k))

/-- Collectives of a partition that are accepted and not complete. -/
def State.collsOf (s : State) (part : Nat) : Nat :=
  (s.engines.filter fun e => e.part == part && match e.job with
    | .coll _ _ _ _ _ _ _ _ => true
    | _ => false).length

/-- An element of memory as the Ox reads it: value and poison, or the fault (R252, R300). -/
def State.collRead (s : State) (e : Engine) (va n : Nat) : Except EngFault (Nat × Bool) :=
  match s.translateBy true e.part e.level .load va with
  | .error c => .error { cause := c, addr := va % 2 ^ 57 }
  | .ok l => .ok (s.placeVal l n, s.rangeBad l.pa n)

/-- Does a collective move elements: not in a group of one (R251)? -/
def movesAny (g : Nat) : Bool := decide (1 < g)

/-- What stands for an element that had no readable old value. -/
def noOld : Nat := 2 ^ 64

/-- The send buffer as it stands: what the first reads after the start may still find (R253). An element whose page faults then has no old
value. -/
def State.sendNow (s : State) (e : Engine) (b : List Nat) (g own : Nat) : List (Nat × Bool) :=
  if !movesAny g then []
  else (List.range (sendCount b g own)).map fun k => match s.collRead e (cw b 2 + elemBytes b * k) (elemBytes b) with
    | .ok v => v
    | .error _ => (noOld, false)

/-! ### Members (R246, R305) -/

/-- The package and the partition of a rank, as a partition's group list names them. -/
def State.member (s : State) (part gid rank : Nat) : Option (Nat × Nat) :=
  (s.ctx? part).bind fun c => (c.group? gid).map fun ge =>
    let w := s.iaVal c (ge.list + 8 * rank) 8
    (bits w 31 0, bits w 35 32)

/-- A block's group id, and the number of its collective in the group. -/
def collGid (b : List Nat) : Nat := bits (cw b 1) 31 0
def collNum (b : List Nat) : Nat := cw b 16

def State.endpoint (s : State) (e : Engine) (b : List Nat) (rank : Nat) : Nat × Nat :=
  (s.member e.part (collGid b) rank).getD (s.pkg, e.part)

/-- The rank of an endpoint's collective. -/
def Engine.rank (e : Engine) : Nat := match e.job with
  | .coll _ _ r _ _ _ _ _ => r
  | _ => 0

/-- The same collective: its group and its number there (R246). -/
def sameColl (b d : List Nat) : Bool := collGid b == collGid d && collNum b == collNum d

/-- The collectives of this package's other endpoints that are members of one. Each of two members has the other in its list: a list of one
partition gives it nothing of another's (R311). -/
def State.peers (s : State) (e : Engine) (b : List Nat) : List Engine :=
  s.engines.filter fun x => x.id != e.id && x.part != e.part && match x.job with
    | .coll d _ r _ _ _ _ _ => sameColl b d && s.endpoint e b r == (s.pkg, x.part) && s.endpoint x d e.rank == (s.pkg, e.part)
    | _ => false

/-- Does a rank stand on another package? -/
def State.far (s : State) (e : Engine) (b : List Nat) (rank : Nat) : Bool := (s.endpoint e b rank).1 != s.pkg

/-! ### Failures (R254, R259) -/

/-- A cause logged for a partition's run-time, in the form of a trap record (R254, R259, DESIGN CHOICE, log 68). -/
def State.collLog (s : State) (e : Engine) (c : Cause) (va : Nat) : State :=
  { s with notices := s.notices ++
      [(e.part, leBytes 12 0 ++ leBytes 2 e.core ++ leBytes 1 e.slot ++ leBytes 1 c.code ++ leBytes 1 1 ++ leBytes 1 e.flock ++ leBytes 2 0
        ++ leBytes 4 e.launch ++ leBytes 4 e.idx ++ leBytes 8 0 ++ leBytes 8 e.pc ++ leBytes 8 va ++ leBytes 12 0)] }

/-- A collective fails at one endpoint: the cause is logged, nothing further is written, and a member of this package that is accepted later
will find that it has failed. -/
def State.failOne (s : State) (c : Cause) (va : Nat) (e : Engine) : State :=
  match e.job with
  | .coll b g r nr st sp ins _ =>
    ((s.collLog e c va).updEngine e.id fun x => { x with job := .coll b g r nr st sp ins true }).updCtx e.part fun k =>
      { k with collFailed := k.collFailed ++ [(collGid b, collNum b, c)] }
  | _ => s

/-- A collective fails at every member of this package (R259). -/
def State.collMark (s : State) (e : Engine) (b : List Nat) (c : Cause) (va : Nat) : State :=
  (e :: s.peers e b).foldl (fun s x => s.failOne c va x) s

/-- Why a member of this package that was accepted earlier has failed a collective, if one has. -/
def State.failedBefore (s : State) (e : Engine) (b : List Nat) (g : Nat) : Option Cause :=
  (List.range g).findSome? fun r =>
    let m := s.endpoint e b r
    if m.1 != s.pkg || m.2 == e.part || s.member m.2 (collGid b) e.rank != some (s.pkg, e.part) then none
    else (s.ctx? m.2).bind fun c => (c.collFailed.find? fun f => f.1 == collGid b && f.2.1 == collNum b).map (·.2.2)

/-- A collective just accepted fails at once where it has failed at another member. -/
def State.failLate (s : State) (e : Engine) (b : List Nat) (g : Nat) : State :=
  match s.failedBefore e b g with
  | some c => s.failOne c 0 e
  | none => s

/-- Handing over (E13) with the pair of checkpoints around it. It waits while another engine operation owns one of the receive lines; R99 does not
say what a second E13 of a line does, and a copy or a relocation that names an owned line owns it as well, its accesses waiting for
both. (DESIGN CHOICE, unsafe, log 84) -/
def acceptColl (s : State) (i : Iss) (words : Nat) (b : List Nat) (g : GroupEntry) : Res State :=
  let ls := s.extentLines i.crew.part i.crew.level (cw b 3) (recvCount b g.g g.rank * elemBytes b)
  if decide (256 ≤ s.collsOf i.crew.part) || ls.any (s.owned i.crew.part) then .error .wait
  else
    let ks := s.otherHolders i ls
    match ckptOthers s ks with
    | none => .error (.ckpt ks)
    | some s0 => match firstCkpt s0 (s0.again i) with
      | .error e => .error e
      | .ok s1 =>
        let num := spGet 0 ((s.ctx? i.crew.part).getD (Context.reset 0)).collSeq (collGid b)
        let now := cw b 8 == 0
        let j := i.engine s1.nextTag ls (if collKind b = 1 ∨ collKind b = 3 then some (collNb b) else none)
          (.coll (b ++ [num]) g.g g.rank s1.clock now 0 [] false)
        let j1 := { j with job := .coll (b ++ [num]) g.g g.rank s1.clock now 0 (if now then [(g.rank, s1.sendNow j b g.g g.rank)] else []) false }
        let s2 := ({ s1 with engines := s1.engines ++ [j1], nextTag := s1.nextTag + 1 }.updCtx i.crew.part fun c =>
          { c with collSeq := spSet 0 (collGid b) (num + 1) c.collSeq }).advance i words
        .ok ((s2.failLate j1 (b ++ [num]) g.g).secondCkpt i.ref.core i.ref.slot)

/-- Elements of a block's extents whatever its group: those of an operation that moves as many at every rank; at the group's ranks, else. -/
def extentOf (b : List Nat) (g : Option GroupEntry) (send : Bool) : Nat :=
  match g with
  | some g => if send then sendCount b g.g g.rank else recvCount b g.g g.rank
  | none => if (if send then [1, 2, 4] else [1, 3, 5]).contains (collOp b) then collCount b else 0

/-- The checks of a block, which compete (R9, R248): R249 to R251, and the pages of every extent that its words name. -/
def checkBlockOf (s : State) (i : Iss) (c : Context) (b : List Nat) (va : Nat) : Chk GroupEntry :=
  let g := c.group? (collGid b)
  ((Chk.guard (c.blockOk b).isSome .collParam va).and
    ((checkPages s i .load (cw b 2) (extentOf b g true * elemBytes b)).and
      (checkPages s i .store (cw b 3) (extentOf b g false * elemBytes b)))).bind fun _ => match g with
        | some g => .ok g
        | none => .trap .collParam va

def execColl (x : Form) (s : State) : Out State :=
  uniSet s x .vector fun i =>
    match converged i with
    | .error e => .error e
    | .ok _ => match kFree i [(x.an, true)] with
      | .error e => .error e
      | .ok _ => withCtx s i fun c =>
        let va := (i.flock.kpair x.an).toNat % 2 ^ 57
        match checkOne i (checkColl s i va) with
        | .error e => .error e
        | .ok l =>
          if i.batch.phase = 0 then .ok ((s.releaseAll i i.active .dev).onBatch i fun b => { b with phase := 1 })
          else if !s.drained i.ref.core i.batch.tag || s.oxOwned l.part (lineOf l.pa) then .error .wait
          else
            let b := s.collBlock i l
            match checkOne i (checkBlockOf s i c b va) with
            | .error e => .error e
            | .ok g => acceptColl s i x.words b g

/-! ### Element arithmetic (R255, R256) -/

/-- The floating format of DTYPE, if it is one. -/
def typeFmt : Nat → Option Fmt
  | 0 => some fp32 | 1 => some fp16 | 2 => some bf16 | _ => none

/-- Round an engine's result: a NaN it generates has O = 0 and a zero payload. -/
def engRound (f : Fmt) (e : Exact) : FVal := decodeF f ((roundF f 0 false e).getD (genNan f false 0 0))

/-- The bits of a value. -/
def valueBits (f : Fmt) : FVal → Nat
  | .nan b => b
  | .inf neg => f.signed neg f.infBits
  | .fin neg m e => (roundF f 0 false (.val neg m e false)).getD 0

/-- The tree's operation on floating values: NaNs first, quieted (R255). -/
def floatOp (f : Fmt) (rop : Nat) (a b : FVal) : FVal :=
  match a, b with
  | .nan x, _ => .nan (quiet f x)
  | _, .nan y => .nan (quiet f y)
  | _, _ =>
    if rop = 0 then engRound f (fAdd 0 a b)
    else if rop = 1 then (if fLess a b then b else a)
    else (if fLess b a then b else a)

/-- The tree's operation on integers of `w` bits, signed or natural. -/
def intOp (signed : Bool) (w rop a b : Nat) : Nat :=
  let less := if signed then decide (sextInt a w < sextInt b w) else decide (a < b)
  if rop = 0 then (a + b) % 2 ^ w
  else if rop = 1 then (if less then b else a)
  else (if less then a else b)

/-- One level of the tree: neighbours combined, the lower rank as operand a. -/
def pairUp {α : Type} (op : α → α → α) : List α → List α
  | a :: b :: r => op a b :: pairUp op r
  | l => l

/-- The tree of R255. -/
def treeOf {α : Type} (op : α → α → α) : Nat → List α → Option α
  | 0, l => l.head?
  | n + 1, l => if l.length ≤ 1 then l.head? else treeOf op n (pairUp op l)

/-- One level of the tree where each value stands at a place: an operand whose sum is formed elsewhere, at the place that `at_` gives the sum
by its number, passes `code` on its way. -/
def pairVia {α : Type} (op : α → α → α) (code : α → α) (at_ : Nat → Nat) : Nat → List (α × Nat) → List (α × Nat)
  | m, a :: b :: r =>
    let go := fun (x : α × Nat) => if x.2 = at_ m then x.1 else code x.1
    (op (go a) (go b), at_ m) :: pairVia op code at_ (m + 1) r
  | _, l => l

/-- The tree of R255 with the places of its values. -/
def treeVia {α : Type} (op : α → α → α) (code : α → α) (at_ : Nat → Nat → Nat) : Nat → Nat → List (α × Nat) → Option α
  | 0, _, l => l.head?.map (·.1)
  | n + 1, lvl, l => if l.length ≤ 1 then l.head?.map (·.1) else treeVia op code at_ n (lvl + 1) (pairVia op code (at_ lvl) 0 l)

/-- The others' contributions added to the owner's in an order that is free, each draw on its own (R256). -/
def addAll {α : Type} (op : α → α → α) (pick : Nat → Nat → Nat) : Nat → List α → α → α
  | 0, _, acc => acc
  | n + 1, l, acc =>
    match l[pick n l.length]? with
    | none => acc
    | some x => addAll op pick n (removeAt l (pick n l.length)) (op acc x)

/-! ### Compression on pod links (R257) -/

/-- A block of at most 32 FP32 contributions as its receiver decodes it. -/
def decodeBlock (bf : Bool) (xs : List Nat) : List FVal :=
  let vals := xs.map (decodeF fp32)
  let plain := vals.any fun v => match v with | .fin _ _ _ => false | _ => true
  if plain then vals
  else if bf then
    let qs := xs.map fun x => convF fp32 bf16 0 false x
    if qs.any fun q => (decodeF bf16 q).isInf then vals else qs.map (decodeF bf16)
  else
    let m := maxMag (vals.filterMap fun v => match v with | .fin _ m e => some (m, e) | _ => none)
    let s := if m.1 = 0 then decodeF fp32 0x3F800000
      else
        let q := quot m.1 m.2 448 0 28
        decodeF fp32 ((roundF fp32 3 false (.val false q.1 q.2.1 q.2.2)).getD 0)
    vals.map fun v => match fMul (decodeF e4m3 ((roundF e4m3 0 false (fDiv v s)).getD 0)) s with
      | .val neg a e _ => .fin neg a e
      | .inf neg => .inf neg
      | .invalid => .nan 0

/-! ### Traps (R254, R259) -/

/-- The living crew that issued an engine operation, pre-empted or not. -/
def Engine.issuedBy (e : Engine) (k : Crew) : Bool :=
  k.core == e.core && k.slot == e.slot && k.launch == e.launch && k.idx == e.idx && k.part == e.part
def State.issuer (s : State) (e : Engine) : Option Crew := s.allCrews.find? e.issuedBy
def State.resident (s : State) (e : Engine) : Bool := s.crews.any e.issuedBy

/-- Change a pre-empted crew. -/
def State.updParked (s : State) (p : Crew → Bool) (f : Crew → Crew) : State :=
  { s with ctxs := s.ctxs.map fun (c : Context) => { c with parked := updFirst p f c.parked } }

/-- A trap of an engine's operation in a pre-empted crew: it is suspended as it is, with its record (R320). -/
def State.trapParked (s : State) (e : Engine) (k : Crew) (t : Trap) : State :=
  if k.susp.isSome then s.updParked e.issuedBy fun x => { x with heldTrap := some t }
  else
    let r : TrapRec := { trap := t, order := s.nextTag, ckptn := k.ckptn, held := false, pre := true, halt := false, queued := false,
                         retryAt := s.clock }
    let p := { s with nextTag := s.nextTag + 1 }.publish k r
    p.1.updParked e.issuedBy fun x => { x with susp := some p.2 }

/-- A trap of an engine's operation in its crew, while that lives (R320). -/
def State.engTrap (s : State) (e : Engine) (c : Cause) (addr : Nat) : State :=
  let t : Trap := { cause := c, lanes := 0, addr := addr, pc := e.pc, code := 0, flock := e.flock, eng := true }
  match s.issuer e with
  | none => s
  | some k => if s.resident e then s.raise e.core e.slot t else s.trapParked e k t

/-- A failure that this member's own buffer or trigger caused: its crew also traps. -/
def State.collFault (s : State) (e : Engine) (b : List Nat) (f : EngFault) : State :=
  (s.collMark e b f.cause f.addr).engTrap e f.cause f.addr

/-! ### The Ox's reads and writes (R252, R253) -/

/-- Does pre-emption of the run-time's partition hold its collectives (R260)? -/
def State.collHeld (s : State) (part : Nat) : Bool := match s.ctx? part with
  | some c => c.preempting
  | none => true

/-- A value whose aligned 4-byte units are each the old one or the new one (R253). -/
def mixUnits (fresh va n old new : Nat) : Nat :=
  if n ≤ 4 then (if Config.freeBool fresh (va / 4) then old else new)
  else (if Config.freeBool fresh (va / 4) then old else new) % 2 ^ 32
    + (if Config.freeBool fresh (va / 4 + 1) then old else new) / 2 ^ 32 * 2 ^ 32

/-- Element `k` of the own send buffer: as it is now, or in some of its units as it was at the start; with its poison. -/
def State.sendElem (s : State) (e : Engine) (b : List Nat) (own : Nat) (ins : List (Nat × List (Nat × Bool))) (k : Nat) :
    Except EngFault (Nat × Bool) :=
  let va := cw b 2 + elemBytes b * k
  let old := ((((ins.find? fun p => p.1 == own).map (·.2)).getD [])[k]?).getD (noOld, false)
  (s.collRead e va (elemBytes b)).map fun v =>
    if old.1 = noOld then v else (mixUnits s.fresh va (elemBytes b) old.1 v.1, old.2 || v.2)

/-- The trigger word, as an acquire at its scope reads it (R252). -/
def State.triggerVal (s : State) (e : Engine) (va : Nat) : Except Cause Nat :=
  match s.translateBy true e.part e.level .load va with
  | .error c => .error c
  | .ok l => match l.cls with
    | .pod => .ok (s.podVal e.part l.ia 8)
    | .hostw => .ok (leVal (s.hw.read l.pa 8))
    | _ => .ok (s.placeVal l 8)

/-- When the trigger word is read again: at the first multiple of 256 cycles from acceptance that is still to come (R252). -/
def nextRead (next clock : Nat) : Nat := next + 256 * ((clock - next) / 256 + 1)

/-- COLL_TRIGGER_READ: at acceptance and every 256 cycles from then (R252). -/
def State.triggerStep (s : State) (e : Engine) : Option State :=
  match e.job with
  | .coll b g r next started sp ins failed =>
    if started || failed || s.collHeld e.part || decide (s.clock < next) || s.vaWaits true e .load (cw b 8) then none
    else match s.triggerVal e (cw b 8) with
      | .error c => some (s.collFault e b { cause := c, addr := cw b 8 % 2 ^ 57 })
      | .ok v => some ((s.countReads true e [cw b 8]).updEngine e.id fun x =>
          { x with job := if cw b 9 ≤ v then .coll b g r (nextRead next s.clock) true sp ((r, s.sendNow e b g r) :: ins) failed
                          else .coll b g r (nextRead next s.clock) false sp ins failed })
  | _ => none

/-! ### Contributions (R255-R259) -/

/-- Elements that a rank contributes to this endpoint. -/
def givesCount (b : List Nat) (rank own : Nat) : Nat :=
  match collOp b with
  | 1 | 4 | 5 | 6 => collCount b
  | 2 => if own = collRoot b then collCount b else 0
  | 3 => if rank = collRoot b then collCount b else 0
  | _ => 0

/-- Where a rank's elements for another rank begin in its send buffer. -/
def givesAt (b : List Nat) (dst : Nat) : Nat := if collOp b = 5 ∨ collOp b = 6 then dst * collCount b else 0

/-- What a member on this package gives to another, read from its send buffer; none while it has not started or is held, or where its
buffer faults. -/
def State.gives (s : State) (m : Engine) (dst : Nat) : Option (List (Nat × Bool)) :=
  match m.job with
  | .coll b g r _ true _ ins false =>
    if s.collHeld m.part then none
    else (List.range (if movesAny g then givesCount b r dst else 0)).foldl (fun o k => o.bind fun l =>
      match s.sendElem m b r ins (givesAt b dst + k) with
      | .ok v => some (l ++ [v])
      | .error _ => none) (some [])
  | _ => none

/-- The elements that a rank finishes for the others, in arrival mode for an ALLREDUCE (R256). -/
def ownedFrom (b : List Nat) (g o : Nat) : Nat := o * ceilDiv (collCount b) g
def ownedTo (b : List Nat) (g o : Nat) : Nat := min (collCount b) ((o + 1) * ceilDiv (collCount b) g)

/-- Do members of a collective send finished elements: an ALLREDUCE in arrival mode with ROP SUM (R256)? -/
def sendsFinished (b : List Nat) : Bool := collOp b == 1 && collArr b && collRop b == 0

/-- Do two lists agree on the elements that a rank finishes? -/
def agreeOwned (b : List Nat) (g o : Nat) (xs ys : List (Nat × Bool)) : Bool :=
  (xs.drop (ownedFrom b g o)).take (ownedTo b g o - ownedFrom b g o) == (ys.drop (ownedFrom b g o)).take (ownedTo b g o - ownedFrom b g o)

/-- Is a contribution what a member has sent: of another package, an input, whose finished elements are the same for every member of this
one; of this package, what that member's own collective gives? -/
def State.comesFrom (s : State) (e : Engine) (b : List Nat) (own rank w0 root count chunk : Nat) (elems : List (Nat × Bool)) : Bool :=
  if s.far e b rank then
    !sendsFinished b || (s.peers e b).all fun m => match m.job with
      | .coll _ g _ _ _ _ ins _ => (ins.filter fun p => p.1 == rank).all fun p => agreeOwned b g rank p.2 elems
      | _ => true
  else (s.peers e b).any fun m => match m.job with
    | .coll d _ r _ _ _ _ _ =>
      r == rank && w0 == cw d 0 && root == collRoot d && count == collCount d && chunk == cw d 10
        && (w0 != cw b 0 || root != collRoot b || count != collCount b || chunk != cw b 10 || s.gives m own == some elems)
    | _ => false

/-- The reads of what a member on this package gives, counted. -/
def State.countGives (s : State) (e : Engine) (b : List Nat) (own rank : Nat) : State :=
  (s.peers e b).foldl (fun s m => match m.job with
    | .coll d g r _ _ _ _ _ =>
      if r = rank then s.countReads true m ((List.range (if movesAny g then givesCount d r own else 0)).map fun k =>
        cw d 2 + elemBytes d * (givesAt d own + k))
      else s
    | _ => s) s

/-- Another member's start with its parameters and its contribution. Members that disagree fail the collective before any
element moves (R259). -/
def State.contribute (s : State) (e : Engine) (b : List Nat) (g own next : Nat) (sp : Nat) (ins : List (Nat × List (Nat × Bool)))
    (rank w0 root count chunk : Nat) (elems : List (Word64 × Bool)) : Option State :=
  let vs := elems.map fun v => (v.1.toNat % 2 ^ (8 * elemBytes b), v.2)
  if g ≤ rank ∨ rank = own ∨ (ins.any fun p => p.1 == rank) ∨ s.comesFrom e b own rank w0 root count chunk vs = false then none
  else if w0 ≠ cw b 0 ∨ root ≠ collRoot b ∨ count ≠ collCount b ∨ chunk ≠ cw b 10 then some (s.collMark e b .collParam 0)
  else if elems.length ≠ (if movesAny g then givesCount b rank own else 0) then none
  else some ((s.countGives e b own rank).updEngine e.id fun x => { x with job := .coll b g own next true sp (ins ++ [(rank, vs)]) false })

/-- Has every member started, and its contribution arrived? -/
def allStarted (g : Nat) (ins : List (Nat × List (Nat × Bool))) : Bool := (List.range g).all fun r => ins.any fun p => p.1 == r

/-- Does the collective run across the group: has every member started (R252)? A member of another package is known to have by what it
sent. -/
def State.running (s : State) (e : Engine) (b : List Nat) (g : Nat) (ins : List (Nat × List (Nat × Bool))) : Bool :=
  (List.range g).all fun r => (ins.any fun p => p.1 == r) || (s.peers e b).any fun m => match m.job with
    | .coll _ _ q _ st _ _ _ => q == r && st
    | _ => false

/-- The contributions of members on this package that have started and are still to be taken, as inputs of COLL_STEP. -/
def State.localInputs (s : State) (e : Engine) : List CollInput :=
  match e.job with
  | .coll b _ own _ true _ ins false => (s.peers e b).filterMap fun m => match m.job with
    | .coll d _ r _ true _ _ _ =>
      if ins.any fun p => p.1 == r then none
      else some (.contribution r (cw d 0) (collRoot d) (collCount d) (cw d 10)
        (((s.gives m own).getD []).map fun v => (BitVec.ofNat 64 v.1, v.2)))
    | _ => none
  | _ => []

/-! ### Results (R255-R257) -/

/-- The owner of an element in arrival mode (R256). -/
def ownerOf (b : List Nat) (g own n : Nat) : Nat :=
  match collOp b with
  | 1 => n / ceilDiv (collCount b) g
  | 2 => collRoot b
  | _ => own

/-- A rank's contribution to element `n` of this endpoint's result. -/
def State.given (s : State) (e : Engine) (b : List Nat) (own : Nat) (ins : List (Nat × List (Nat × Bool))) (r n : Nat) : Nat × Bool :=
  if r = own then
    match s.sendElem e b own ins (givesAt b own + n) with
    | .ok v => v
    | .error _ => (0, false)
  else ((((ins.find? fun p => p.1 == r).map (·.2)).getD [])[n]?).getD (0, false)

/-- The block of 32 elements that crosses a link with element `n` of a segment from `lo` to `hi`. -/
def linkBlock (lo hi n : Nat) : List Nat :=
  let start := lo + (n - lo) / 32 * 32
  (List.range (min 32 (hi - start))).map (start + ·)

/-- A block as it stands after a link. -/
def linkCode (b : List Nat) (f : Fmt) (v : List FVal) : List FVal := decodeBlock (bits (cw b 0) 27 26 == 1) (v.map (valueBits f))

/-- Where values of a tree stand: a contribution at its rank's package; a sum at one of these packages or in a switch of the network, as G
and the placement decide, in a way the spec does not give (R257, R258; DESIGN CHOICE, log 50). -/
def sumPlace (places : List Nat) (lvl m : Nat) : Nat :=
  let n := Config.sumPlace places lvl m
  if n % 2 = 0 then (places[n / 2 % places.length]?).getD 0 else 2 ^ 32 + n

/-- The deterministic floating result: the tree over the ranks' blocks, where what crosses a link is coded. -/
def State.treeElem (s : State) (e : Engine) (b : List Nat) (own g n : Nat) (ins : List (Nat × List (Nat × Bool))) (f : Fmt) : Nat :=
  let ranks := List.range g
  let op := floatOp f (collRop b)
  if collCmp b && ranks.any (s.far e b) then
    let ks := linkBlock 0 (collCount b) n
    let places := ranks.map fun r => (s.endpoint e b r).1
    let t := treeVia (List.zipWith op) (linkCode b f) (sumPlace places) 21 0
      ((ranks.map fun r => ks.map fun k => decodeF f (s.given e b own ins r k).1).zip places)
    valueBits f (((t.getD [])[n % 32]?).getD (.fin false 0 0))
  else valueBits f ((treeOf op 21 (ranks.map fun r => decodeF f (s.given e b own ins r n).1)).getD (.fin false 0 0))

/-- The floating result in arrival mode at the owner `o`: its value, then the others' in an order that is free at each forming. -/
def State.arriveElem (s : State) (e : Engine) (b : List Nat) (own g o n : Nat) (ins : List (Nat × List (Nat × Bool))) (f : Fmt) : Nat :=
  let lo := if collOp b = 1 then ownedFrom b g o else 0
  let hi := if collOp b = 1 then ownedTo b g o else collCount b
  let val := fun r =>
    if collCmp b && (s.endpoint e b r).1 != (s.endpoint e b o).1 then
      ((linkCode b f ((linkBlock lo hi n).map fun k => decodeF f (s.given e b own ins r k).1))[(n - lo) % 32]?).getD (.fin false 0 0)
    else decodeF f (s.given e b own ins r n).1
  let pick := fun k len => (Config.freeWord s.fresh (n * 2 ^ 21 + k)).toNat % len
  valueBits f (addAll (floatOp f 0) pick g (((List.range g).filter (· != o)).map val) (val o))

/-- A reduced element formed here: in arrival mode by its owner, else by the tree. -/
def State.formElem (s : State) (e : Engine) (b : List Nat) (own g n : Nat) (ins : List (Nat × List (Nat × Bool))) : Nat :=
  match typeFmt (collType b) with
  | some f => if collArr b && collRop b == 0 then s.arriveElem e b own g (ownerOf b g own n) n ins f else s.treeElem e b own g n ins f
  | none =>
    (treeOf (intOp (collType b == 5 || collType b == 7) (8 * elemBytes b) (collRop b)) 21
      ((List.range g).map fun r => (s.given e b own ins r n).1)).getD 0

/-- Where a member keeps the finished elements of a rank, among what has arrived. -/
def finishedKey (g o : Nat) : Nat := g + o

/-- Has every member of this package its finished elements sent (R256)? -/
def State.allFinished (s : State) (e : Engine) (b : List Nat) (g : Nat) (ins : List (Nat × List (Nat × Bool))) : Bool :=
  !sendsFinished b || (List.range g).all fun o => s.far e b o || ins.any fun p => p.1 == finishedKey g o

/-- A member's finished elements, sent to itself and to the other members of this package. -/
def State.finishOwn (s : State) (e : Engine) (b : List Nat) (g own : Nat) (ins : List (Nat × List (Nat × Bool))) : State :=
  let lo := ownedFrom b g own
  let vs := (List.range (ownedTo b g own - lo)).map fun k => (s.formElem e b own g (lo + k) ins, false)
  (e :: s.peers e b).foldl (fun s m => s.updEngine m.id fun x => { x with job := match x.job with
    | .coll b g r nr st sp ins failed => .coll b g r nr st sp (ins ++ [(finishedKey g own, vs)]) failed
    | j => j }) s

/-- The value of a reduced element: formed here, or, where its owner sends it finished, as that came: from another package with its owner's
contribution. -/
def State.reduceElem (s : State) (e : Engine) (b : List Nat) (own g n : Nat) (ins : List (Nat × List (Nat × Bool))) : Nat :=
  let o := ownerOf b g own n
  if !sendsFinished b then s.formElem e b own g n ins
  else if s.far e b o then (s.given e b own ins o n).1
  else (s.given e b own ins (finishedKey g o) (n - ownedFrom b g o)).1

/-- Result element `n` of the receive buffer, with its poison. -/
def State.resultElem (s : State) (e : Engine) (b : List Nat) (g own n : Nat) (ins : List (Nat × List (Nat × Bool))) :
    Except EngFault (Nat × Bool) :=
  let cnt := collCount b
  let take := fun r k => if r = own then s.sendElem e b own ins (givesAt b own + k) else .ok (s.given e b own ins r k)
  match collOp b with
  | 3 => take (collRoot b) n
  | 4 | 6 => take (n / cnt) (n % cnt)
  | _ => (s.sendElem e b own ins (givesAt b own + n)).map fun _ =>
      (s.reduceElem e b own g n ins, (List.range g).any fun r => (s.given e b own ins r n).2)

/-! ### Steps -/

/-- Elements of one chunk; an automatic chunk is a power of two from 4,096 to 4,194,304 bytes (R249; DESIGN CHOICE, safe, log 50). -/
def chunkElems (b : List Nat) : Nat :=
  (if cw b 10 = 0 then 4096 * 2 ^ (Config.autoChunk % 11) else cw b 10) / elemBytes b

/-- Elements that move at an endpoint: none in a group of one. -/
def moving (b : List Nat) (g own : Nat) : Nat := if movesAny g then recvCount b g own else 0

/-- Elements `lo` to `hi` of a buffer that stand in its sector of VA number `sec`. -/
def sectorElems (buf eb lo hi sec : Nat) : List Nat :=
  (List.range (64 / eb)).filterMap fun j =>
    let a := 64 * sec + eb * j
    if buf + eb * lo ≤ a ∧ a < buf + eb * hi then some ((a - buf) / eb) else none

/-- The results of some elements. -/
def State.results (s : State) (e : Engine) (b : List Nat) (g own : Nat) (ins : List (Nat × List (Nat × Bool))) :
    List Nat → Except EngFault (List (Nat × Bool))
  | [] => .ok []
  | n :: r =>
    match s.resultElem e b g own n ins, State.results s e b g own ins r with
    | .error f, _ => .error f
    | _, .error f => .error f
    | .ok v, .ok vs => .ok (v :: vs)

/-- Elements of one sector written in one step (E14, R335). -/
def State.collWrite (s : State) (e : Engine) (va eb : Nat) (vs : List (Nat × Bool)) : Except EngFault State :=
  match s.translateBy true e.part e.level .store va with
  | .error c => .error { cause := c, addr := va % 2 ^ 57 }
  | .ok l =>
    let s1 := s.placeWrite l (vs.flatMap fun v => leBytes eb v.1)
    .ok ((if vs.any (·.2) then s1.poisonSector (sectorOf l.pa)
      else if eb * vs.length = 64 then s1.cleanSector (sectorOf l.pa) else s1).countHit e.part l)

/-- The element of the own send buffer that a result element takes, if it takes one. -/
def ownRead (b : List Nat) (own n : Nat) : Option Nat :=
  let cnt := collCount b
  match collOp b with
  | 3 => if collRoot b = own then some (givesAt b own + n) else none
  | 4 | 6 => if n / cnt = own then some (givesAt b own + n % cnt) else none
  | _ => some (givesAt b own + n)

/-- The elements of one chunk written, sector by sector. -/
def State.writeChunk (s : State) (e : Engine) (b : List Nat) (g own : Nat) (ins : List (Nat × List (Nat × Bool))) (lo hi : Nat) :
    List Nat → Except EngFault State
  | [] => .ok s
  | sec :: r =>
    let eb := elemBytes b
    let ns := sectorElems (cw b 3) eb lo hi sec
    match s.results e b g own ins ns with
    | .error f => .error f
    | .ok vs => match (s.countReads true e ((ns.filterMap (ownRead b own)).map fun k => cw b 2 + eb * k)).collWrite e (cw b 3 + eb * ns.headD lo) eb vs with
      | .error f => .error f
      | .ok s1 => State.writeChunk s1 e b g own ins lo hi r

/-- Has every member on this package what this one gives to it? Its send buffer is not read for them again then (R254). -/
def State.allGiven (s : State) (e : Engine) (b : List Nat) (own : Nat) : Bool :=
  (s.peers e b).all fun m => match m.job with
    | .coll _ _ _ _ _ _ ins failed => failed || ins.any fun p => p.1 == own
    | _ => true

/-- The sectors of the receive buffer that elements `lo` to `hi` stand in. -/
def chunkSectors (b : List Nat) (lo hi : Nat) : List Nat :=
  let first := (cw b 3 + lo * elemBytes b) / 64
  (List.range ((cw b 3 + hi * elemBytes b - 1) / 64 - first + 1)).map (first + ·)

/-- COLL_STEP of this endpoint: its finished elements, where it sends such; else the next chunk of the receive buffer, whose whole lines are
then no longer owned. It waits until every member of this package has its contribution, as the buffers may be one (R251), and for rows of
DRAM (R283). -/
def State.collStep (s : State) (e : Engine) (b : List Nat) (g own next sp : Nat) (ins : List (Nat × List (Nat × Bool))) : Option State :=
  let total := moving b g own
  let eb := elemBytes b
  let lo := sp * chunkElems b
  let hi := lo + min (chunkElems b) (total - lo)
  if !allStarted g ins || decide (total ≤ lo) || !s.allGiven e b own then none
  else if sendsFinished b && !(ins.any fun p => p.1 == finishedKey g own) then some (s.finishOwn e b g own ins)
  else if !s.allFinished e b g ins || (chunkSectors b lo hi).any fun sec => s.vaWaits true e .store (64 * sec) then none
  else
    match s.writeChunk e b g own ins lo hi (chunkSectors b lo hi) with
    | .error f => some (s.collFault e b f)
    | .ok s1 =>
      let done := if hi = total then s1.extentLines e.part e.level (cw b 3) (total * eb)
        else s1.extentLines e.part e.level (cw b 3 + lo * eb) ((cw b 3 + hi * eb) / 128 * 128 - (cw b 3 + lo * eb))
      some (s1.updEngine e.id fun x =>
        { x with owned := x.owned.filter (fun l => !done.contains l), job := .coll b g own next true (sp + 1) ins false })

/-- COLL_STEP. -/
def State.collAdvance (s : State) (e : Engine) (input : CollInput) : Option State :=
  match e.job with
  | .coll b g own next true sp ins false =>
    if s.collHeld e.part then none
    else match input with
      | .own => s.collStep e b g own next sp ins
      | .contribution rank w0 root count chunk elems => s.contribute e b g own next sp ins rank w0 root count chunk elems
  | _ => none

/-- Is the collective complete here, or failed? -/
def collEnds (b : List Nat) (g own sp : Nat) (started : Bool) (ins : List (Nat × List (Nat × Bool))) (failed : Bool) : Bool :=
  failed || (started && allStarted g ins && decide (moving b g own ≤ sp * chunkElems b))

/-- The flag write of a completion; its fault is logged (R254). -/
def State.flagWrite (s : State) (e : Engine) (b : List Nat) (failed : Bool) : State × Option Cause :=
  if collKind b < 2 then (s, none)
  else
    let v := if failed then cw b 7 ^^^ 2 ^ 63 else cw b 7
    match s.translateBy true e.part e.level .store (cw b 6) with
    | .error c => (s.collLog e c (cw b 6 % 2 ^ 57), some c)
    | .ok l => match l.cls with
      | .hostw => (s.windowStore l (leBytes 8 v), none)
      | _ => ((s.placeWrite l (leBytes 8 v)).countHit e.part l, none)

/-- One arrival at a barrier of the issuing crew, pre-empted or not. No rollback reaches it, so the saved state has it too (R248).
(DEDUCED, safe, log 80) -/
def State.collArrive (s : State) (e : Engine) (n : Nat) : State :=
  let g := fun (b : NBar) => b.arrive true
  let save := fun (k : Crew) => { k with saved := k.saved.changeNb n g }
  match s.issuer e with
  | none => s
  | some _ =>
    if s.resident e then (s.changeNb e.core e.slot n g).updCrew e.core e.slot save
    else s.updParked e.issuedBy fun k => save (k.updLive fun c => c.changeNb n g)

/-- COLL_COMPLETION (R254): the flag, the arrival, then the trap of a flag write that failed. -/
def State.collComplete (s : State) (e : Engine) : Option State :=
  match e.job with
  | .coll b g own _ started sp ins failed =>
    if !collEnds b g own sp started ins failed || !(failed || s.allGiven e b own) || s.collHeld e.part then none
    else
      let p := ({ s with engines := s.engines.filter fun x => x.id != e.id }).flagWrite e b failed
      let s1 := match e.nb with
        | some n => p.1.collArrive e n
        | none => p.1
      some (match p.2 with
        | none => s1
        | some c => s1.engTrap e c (cw b 6 % 2 ^ 57))
  | _ => none

/-- The fault that the Ox meets on one of this member's buffers now, if it meets one. -/
def State.bufferFault (s : State) (e : Engine) (b : List Nat) (g own : Nat) : Option EngFault :=
  let eb := elemBytes b
  let bad := fun (a : Access) (va n : Nat) => (pagesOf va n).findSome? fun p => match s.translateBy true e.part e.level a p with
    | .error c => some ({ cause := c, addr := p % 2 ^ 57 } : EngFault)
    | .ok _ => none
  (bad .load (cw b 2) (sendCount b g own * eb)).orElse fun _ => bad .store (cw b 3) (recvCount b g own * eb)

/-- Causes that a failure at another package may have (R259): members there disagree, or a page check or an unavailable range. -/
def failCause (c : Nat) : Option Cause :=
  [Cause.permRead, .permWrite, .permPriv, .permKey, .unmapped, .rangeMiss, .remoteUnavailable, .collParam].find? fun k => k.code == c

/-- COLL_FAILURE (R259): a disagreement or a fault at a member of another package, which only it knows of, or a fault met here; held while the partition is pre-empted
(R260). -/
def State.collFail (s : State) (e : Engine) (cause : CollFail) : Option State :=
  match e.job with
  | .coll b g own _ started sp ins false =>
    if s.collHeld e.part then none
    else match cause with
    | .disagree => if sp == 0 && (List.range g).any fun r => s.far e b r && !(ins.any fun p => p.1 == r) then
        some (s.collMark e b .collParam 0) else none
    | .remote c => if (List.range g).any (s.far e b) then (failCause c).map fun k => s.collMark e b k 0 else none
    | .buffer c a => match s.bufferFault e b g own with
      | some f =>
        if started && movesAny g && s.running e b g ins && f.cause.code == c && f.addr == a then some (s.collFault e b f) else none
      | none => none
    | .trigger c => match s.triggerVal e (cw b 8) with
        | .error k => if k.code = c && cw b 8 != 0 then s.triggerStep e else none
        | .ok _ => none
  | _ => none

end Sys2Proof.Machine
end

