-- ==== Sys2Proof/Machine/Ending.lean ====
section
/-! DEFINITION. The end of a crew (R36, R213, R280), and an ERET ABORT's (R324). -/

namespace Sys2Proof.Machine

/-! ### The crew's end -/

/-- Has a crew no fibre left, living, pending or held (R36)? -/
def Crew.finished (k : Crew) : Bool := k.live.flocks.isEmpty && k.live.bins.isEmpty

/-- Does an outstanding B-store load belong to the crew? -/
def State.loading (s : State) (k : Crew) : Bool := s.engines.any fun e => e.ofCrew k && match e.job with
  | .bld _ _ _ _ _ _ _ _ => true
  | _ => false

/-- The units a crew held: what is not pinned is freed (R213). -/
def State.releaseUnits (s : State) (core slot : Nat) : State :=
  { s with
    units := s.units.map fun u =>
      if u.holder == some (core, slot) then
        { MUnit.empty u.gq with tiles := u.tiles.filter fun t => t.2.pinned }
      else u }

/-- Pool ranges that an ended crew was writing: its unpublished versions are discarded (R134). -/
def State.dropWriter (s : State) (k : Crew) : State :=
  { s with
    pools := s.pools.map fun (p : PoolRange) => if k.writers.any fun w => w.range == p.range then { p with writer := none } else p }

/-- The living launch's record of a crew's end. -/
def Context.crewEnded (c : Context) (launch idx : Nat) : Context :=
  { c with launches := updFirst (fun l => l.id == launch && l.lives) (fun l => { l with ended := insertAsc idx l.ended }) c.launches }

/-- The slot that entries of a pre-empted crew carry in its core's SB and Q, so that a crew placed in its slot meanwhile does not take
them for its own. -/
def parkedSlot (slot : Nat) : Nat := 16 + slot

/-- Has every entry of a resident crew drained, or of a pre-empted one? -/
def State.crewDrained (s : State) (core slot part : Nat) : Bool :=
  !((s.sb ++ s.rq).any fun e => e.core == core && e.slot == slot && e.part == part)

/-- The last part of a crew's end: the completion bit, then its places are free. -/
def State.removeCrew (s : State) (k : Crew) : State :=
  let s1 := s.publishDone k.core k.slot
  let s2 := ((s1.detachAll k).releaseUnits k.core k.slot).dropWriter k
  let s3 := { s2 with crews := s2.crews.filter fun x => !(x.core == k.core && x.slot == k.slot) }
  ((s3.updCtx k.part fun c => c.crewEnded k.launch k.idx).settleTeam k).settleBins k.core

/-- Pre-empted crews that are to resume: those that an ERET has not aborted. -/
def Context.waiting (c : Context) : List Crew := c.parked.filter fun k => !k.ending

/-- A resident crew's end. -/
def State.endCrew (s : State) (k : Crew) : Option State :=
  if !k.finished || k.susp.isSome || !s.ckptDrained k || s.loading k then none
  else if !k.ending then
    some ((s.checkpoint k.core k.slot).updCrew k.core k.slot fun x => { x with ending := true, between := false, heldTrap := none })
  else if !s.crewDrained k.core k.slot k.part then none
  else some (s.removeCrew k)

/-- A pre-empted crew changed in its partition's list, or taken from it. -/
def State.setParked (s : State) (part : Nat) (k : Crew) (f : Crew → Option Crew) : State :=
  s.updCtx part fun c => { c with parked := c.parked.filterMap fun p => if p = k then f p else some p }

/-- The end of a crew that was aborted while pre-empted: its bit is set once its entries have drained (R280, R324). -/
def State.endParked (s : State) (k : Crew) : Option State :=
  if !s.crewDrained k.core (parkedSlot k.slot) k.part then none
  else
    let s1 := ((s.setParked k.part k fun _ => none).dropSuspended k).dropWriter k
    let s2 := (if k.done then s1 else s1.setBitmap k.part k.launch k.idx).updCtx k.part fun c => c.crewEnded k.launch k.idx
    some (s2.settleTeam k)

/-- CREW_END: the open interval closes and every version is committed; once the crew's entries have drained, its completion
bit is set and it ends. -/
def State.crewEnd (s : State) (core slot : Nat) : Option State :=
  match (s.crew? core slot).bind s.endCrew with
  | some t => some t
  | none => (s.allCrews.filter fun k => k.core == core && k.slot == slot && k.ending && (s.crew? core slot) != some k).findSome? s.endParked

/-- ERET ABORT (R324): every fibre, living or pending, ends as by FEND. -/
def Crew.aborted (k : Crew) : Crew :=
  { k with
    susp := none, halted := false, haltPend := false
    live := { k.live.completeAll with flocks := [], bins := [] }
    prods := [] }

/-- The abort of a resident crew: its bins go to held ones (R377), a gathering copy loses its participants (R131), and its team
may have arrived without it (R276). -/
def State.abortCrew (s : State) (k : Crew) : State :=
  (((s.updCrew k.core k.slot Crew.aborted).dropParticipants k.core k.slot).settleBins k.core).settleTeam k

/-- The abort of a pre-empted crew. -/
def State.abortParked (s : State) (k : Crew) : State :=
  (s.setParked k.part k fun p => some { p.aborted with ending := true }).settleTeam k

end Sys2Proof.Machine
end

