-- ==== Sys2Proof/Machine/System.lean ====
section
/-! DEFINITION. The system class: TRAP, BPT, CKPT, ERET, RDSYS, WRSYS, WRPKR and HALT, with the system registers' levels and
limits (R301-R306, R322-R325), and the completion of SYS_XLINV (R299). -/

namespace Sys2Proof.Machine

/-! ### CKPT, TRAP, BPT, HALT (R322, R323, R325) -/

def execCkpt (x : Form) (s : State) : Out State :=
  uniSet s x .any fun i => ckptAfter s i fun t => t.advance i x.words

/-- TRAP and BPT: a checkpoint with the batch at the next instruction, then the trap, taken from that checkpoint. -/
def trapAfter (s : State) (i : Iss) (x : Form) (c : Cause) : Res State :=
  if i.crew.between then .error .wait
  else match ckptAfter s i fun t => t.advance i x.words with
    | .error e => .error e
    | .ok s1 => .ok (s1.takeTrap i.ref.core i.ref.slot { i.trap c (maskOf i.active) 0 with code := x.immZ } false)

def execTrap (x : Form) (s : State) : Out State :=
  uniSet s x .any fun i => trapAfter s i x .trapInstruction

/-- Halting the issuing crew at the next instruction. -/
def State.haltCrew (s : State) (i : Iss) (x : Form) : State :=
  (s.advance i x.words).onCrew i fun k =>
    { k with
      halted := true
      stepRec := stepRecord i.flock.num (maskOf i.active) i.batch.pc (pcPlus i.batch.pc x.words) false false }

def execBpt (x : Form) (s : State) : Out State :=
  uniSet s x .any fun i =>
    if (s.ctx? i.crew.part).any (·.breakHalt) then .ok (s.haltCrew i x) else trapAfter s i x .breakpoint

/-- HALT, of level F alone (R321): the crew halts, and the management function is notified. -/
def execHalt (x : Form) (s : State) : Out State :=
  uniSet s x .any fun i =>
    match needLevel i (i.crew.level == .f) with
    | .error e => .error e
    | .ok _ => .ok ({ s with haltNotes := s.haltNotes ++ [(i.ref.core, i.ref.slot)] }.haltCrew i x)

/-! ### ERET (R324) -/

/-- The address of a trap record, checked before the checkpoint. -/
def checkTrapRec (s : State) (i : Iss) (va : Nat) : Chk Loc :=
  (Chk.guard (va % 64 == 0) .alignment va).bind fun _ =>
    ((Chk.ofExcept va (s.translate i.crew.part i.crew.level .load va)).and (devRange s i va)).map (·.1)

/-- A trap that a reload of a SUSPENDED state raises before a crew's first instruction (R244). -/
def reloadTrap (k : Crew) (va : Nat) : Trap :=
  let f := k.live.flocks.head?
  { cause := .pinState, lanes := 0, addr := va, pc := ((f.bind fun f => f.batches.head?).map (·.pc)).getD k.entry, code := 0,
    flock := (f.map (·.num)).getD 0, eng := false }

/-- A crew's states reloaded before its first instruction; the trap of a reload that fails its checks.
(DESIGN CHOICE, safe, log 53) -/
def State.reloadCrew (s : State) (core slot : Nat) : State :=
  match s.crew? core slot with
  | none => s
  | some k =>
    let r := s.resumePins k
    match r.2 with
    | none => r.1
    | some va => r.1.takeTrap core slot (reloadTrap k va) false

/-- A suspended crew among the pre-empted ones of its partition. -/
def Context.parked? (c : Context) (core slot launch idx ckptn : Nat) : Option Crew :=
  c.parked.find? fun k => k.core == core && k.slot == slot && k.launch == launch && k.idx == idx && (match k.susp with
    | some r => r.ckptn == ckptn
    | none => false)

/-- The fields of a trap record that name a crew. -/
structure RecName where
  core : Nat
  slot : Nat
  launch : Nat
  idx : Nat
  ckptn : Nat
  deriving DecidableEq, Repr

def recName (b : List Byte) : RecName :=
  { core := field b 12 2, slot := field b 14 1, launch := field b 20 4, idx := field b 24 4, ckptn := field b 28 4 }

/-- What ERET leaves in k[D], if it is done, and the state. A pre-empted crew goes on when its partition resumes.
(DESIGN CHOICE, safe, log 54) -/
def State.serve (s : State) (part : Nat) (n : RecName) (act : Nat) : State × Option Nat :=
  match s.suspended? part n.core n.slot n.launch n.idx n.ckptn with
  | some k =>
    if act = 0 then ((s.resumeCrew n.core n.slot).reloadCrew n.core n.slot, some 0)
    else if act = 1 then (s.abortCrew k, none)
    else (s, some 0x80000003)
  | none =>
    match (s.ctx? part).bind fun c => c.parked? n.core n.slot n.launch n.idx n.ckptn with
    | none => (s, some 0x80000001)
    | some k =>
      if act = 0 then
        (s.setParked part k fun p => some { p with susp := none, halted := p.halted || p.haltPend, haltPend := false }, some 0)
      else if act = 1 then (s.abortParked k, none)
      else (s, some 0x80000003)

/-- The lines that evictions for a resumed crew's states write (R240, R244). -/
def State.serveTo (s : State) (part : Nat) (n : RecName) (act : Nat) : List (Nat × Nat) :=
  match s.suspended? part n.core n.slot n.launch n.idx n.ckptn with
  | some k => if act = 0 then s.resumeTo k else []
  | none => []

/-- The mark of the crew whose end an ERET ABORT awaits, and whether it has ended. -/
def abortTag (n : RecName) : Nat := n.launch * 2 ^ 32 + n.idx
def State.abortDone (s : State) (part tag : Nat) : Bool :=
  !(s.allCrews.any fun k => k.part == part && k.launch * 2 ^ 32 + k.idx == tag)

/-- ERET's steps: the record's check and the checkpoint; once its release has drained the record is read, at the address it was checked
at and not while a collective has still to write its line (R253), and served (phase 2·va + 1); an ABORT then waits for the crew's end
(phase 2). -/
def execEret (x : Form) (s : State) : Out State :=
  uniSet s x .any fun i =>
    match needLevel i (i.crew.level != .u) with
    | .error e => .error e
    | .ok _ => match kFree i [(x.an, true), (x.bn, false), (x.dn, false)] with
      | .error e => .error e
      | .ok _ =>
        if i.batch.phase = 2 then
          if s.abortDone i.crew.part i.batch.tag then .ok (s.uniResult i x false 0) else .error .wait
        else
          let va := if i.batch.phase = 0 then (i.flock.kpair x.an).toNat % 2 ^ 57 else i.batch.phase / 2
          match checkOne i (checkTrapRec s i va) with
          | .error e => .error e
          | .ok l =>
            if i.batch.phase = 0 then
              match takeCkpt s i with
              | .error e => .error e
              | .ok s1 => .ok ((s1.releaseAll i i.active .dev).onBatch i fun b => { b with phase := 2 * va + 1 })
            else if !s.drained i.ref.core i.batch.tag || s.oxOwned i.crew.part (lineOf l.pa) then .error .wait
            else
              let n := recName (s.placeBytes l 64)
              match spillReady s i (s.serveTo i.crew.part n (i.flock.kreg x.bn).toNat) true with
              | .error e => .error e
              | .ok s => match s.serve i.crew.part n (i.flock.kreg x.bn).toNat with
              | (s1, some v) => .ok (s1.uniResult i x false (BitVec.ofNat 64 v))
              | (s1, none) => .ok (s1.onBatch i fun b => { b with phase := 2, tag := abortTag n })

/-! ### System registers (R302-R306) -/

/-- Who may read or write a register: nobody, a crew of a level or above, or the management function alone. -/
inductive SysRight where
  | none
  | level (l : Level)
  | mgmt
  deriving DecidableEq, Repr

/-- Read and write rights of a register number; none for a number that R306 does not list. -/
def sysRights (sn : Nat) : Option (SysRight × SysRight) :=
  if sn = snPctx then some (.level .u, .none)
  else if snQown ≤ sn ∧ sn < snQown + 32 then some (.level .u, .mgmt)
  else if snRange ≤ sn ∧ sn < snRange + 64 then some (.level .t, .level .t)
  else if sn = snPtroot then some (.level .t, .level .t)
  else if sn = snXlbase then some (.level .t, .level .t)
  else if sn = snXlinv then some (.none, .level .t)
  else if snPkr ≤ sn ∧ sn < snPkr + 32 then some (.level .f, .none)
  else if snSlway ≤ sn ∧ sn < snSlway + 64 then some (.level .u, .mgmt)
  else if snBwsh ≤ sn ∧ sn < snBwsh + 16 then some (.level .u, .mgmt)
  else if sn = snOxsh then some (.level .u, .mgmt)
  else if sn = snPrio then some (.level .u, .mgmt)
  else if snHeapr ≤ sn ∧ sn < snHeapr + 4096 then some (.level .t, .level .t)
  else if snGroup ≤ sn ∧ sn < snGroup + 4096 then some (.level .t, .level .t)
  else if snLq ≤ sn ∧ sn < snLq + 64 then some (.level .t, .mgmt)
  else none

/-- What a read of a register returns to a crew; `held` the ways its context holds of a slice group, in the case of SYS_SLWAY
(R306, R307). -/
def Context.sysRead (c : Context) (lv : Level) (held sn : Nat) : Word64 :=
  if sn = snPctx then BitVec.ofNat 64 (c.part + 16 * lv.rank)
  else if sn = snXlinv then 0
  else if snSlway ≤ sn ∧ sn < snSlway + 64 then
    BitVec.ofNat 64 ((c.reg sn).toNat / 32 * 32 + held)
  else c.reg sn

/-- The bits [hi:lo] of a value, in place. -/
def keep (v hi lo : Nat) : Nat := bits v hi lo * 2 ^ lo

/-- A range register re-evaluated after a write of one of its words (R293). -/
def Context.recheckRange (c : Context) (n : Nat) : Context :=
  let r := c.range n
  if decide (r.limit ≤ r.base) || decide (6 ≤ r.cls) then
    c.setReg (snRange + 4 * n + 3) (c.reg (snRange + 4 * n + 3) &&& ~~~ (8 : Word64))
  else c

/-- Is an IA of class DEV, that is, does a valid range register of that class reach it (R105, R106)? (DESIGN CHOICE, safe, log 52) -/
def Context.devIa (c : Context) (ia : Nat) : Bool :=
  (List.range 16).any fun n =>
    let r := c.range n
    r.valid && r.cls == 0 && decide (r.base + (ia + 2 ^ 52 - (r.base + r.off) % 2 ^ 52) % 2 ^ 52 < r.limit)

/-- The bits of a descriptor's words that have a meaning; the others read 0 (R3, R155). -/
def heapMask (w v : Nat) : Nat :=
  match w with
  | 0 => keep v 63 63 + keep v 51 7
  | 1 => keep v 52 7
  | 2 => keep v 51 0
  | 3 => keep v 31 0
  | 4 => keep v 51 0
  | _ => 0

/-- Does a heap-region descriptor keep the rules of its table (R155)? -/
def Context.heapOk (c : Context) (j : Nat) : Bool :=
  let w := c.heapWord j
  !((List.range 8).any fun k => c.heapOdd.contains (8 * j + k)) && decide (bits (w 0) 51 0 < w 1) && decide (w 1 ≤ 2 ^ 52)
    && bits (w 2) 4 0 == 0 && c.devIa (w 2) && isPow2 (w 3) && decide (64 ≤ w 3) && decide (w 3 ≤ 2 ^ 24)
    && bits (w 4) 5 0 == 0 && c.devIa (w 4)

/-- Word `n` of the descriptors remembered as written with a bit of a field that must be 0: the bit reads 0 (R3), and it keeps the
descriptor invalid until the word is written again (R155, R304). (DESIGN CHOICE, safe, log 52) -/
def Context.noteHeap (c : Context) (n : Nat) (clean : Bool) : Context :=
  { c with heapOdd := if clean then c.heapOdd.filter (· != n) else insertAsc n c.heapOdd }

/-- A descriptor after a write of one of its words: invalid where it breaks its table (R155, R304). (DESIGN CHOICE, safe, log 52) -/
def Context.recheckHeap (c : Context) (j : Nat) : Context :=
  if c.heapOk j then c
  else c.setReg (snHeapr + 8 * j) (c.reg (snHeapr + 8 * j) &&& ~~~ (0x8000000000000000 : Word64))

/-- A group entry re-evaluated (R304). -/
def Context.recheckGroup (c : Context) (n : Nat) : Context :=
  let w := fun k => (c.reg (snGroup + 4 * n + k)).toNat
  let g := bits (w 0) 52 32
  if g = 0 ∨ 2 ^ 20 < g ∨ g ≤ bits (w 1) 19 0 ∨ w 2 % 8 ≠ 0 then
    c.setReg (snGroup + 4 * n + 1) (c.reg (snGroup + 4 * n + 1) &&& ~~~ (0x8000000000000000 : Word64))
  else c

/-- A write of a register that crews may write, with the limits of R306. SYS_XLINV keeps nothing: its write starts R299. -/
def Context.sysWrite (c : Context) (sn v : Nat) : Context :=
  let set := fun (x : Nat) => c.setReg sn (BitVec.ofNat 64 x)
  if snRange ≤ sn ∧ sn < snRange + 64 then
    let w := (sn - snRange) % 4
    (set (match w with
      | 0 | 1 => keep v 56 16
      | 2 => keep v 51 16
      | _ => keep v 5 0)).recheckRange ((sn - snRange) / 4)
  else if sn = snPtroot then set (keep v 51 12)
  else if sn = snXlbase then set (keep v 51 16)
  else if snHeapr ≤ sn ∧ sn < snHeapr + 4096 then 
    let w := (sn - snHeapr) % 8
    ((set (heapMask w v)).noteHeap (sn - snHeapr) (heapMask w v == v)).recheckHeap ((sn - snHeapr) / 8)
  else if snGroup ≤ sn ∧ sn < snGroup + 4096 then
    (set (match (sn - snGroup) % 4 with
      | 0 => keep v 52 0
      | 1 => keep v 63 63 + keep v 19 0
      | 2 => keep v 51 0
      | _ => 0)).recheckGroup ((sn - snGroup) / 4)
  else if sn = snXlinv then c
  else set v

/-- The number that an access names. -/
def sysNumber (x : Form) (i : Iss) (ix : Bool) (ka : Nat) : Nat :=
  (x.immZ + if ix then bits (i.flock.kreg ka).toNat 23 0 else 0) % 2 ^ 24

/-- The rights of the number, or ILLEGAL_INSTRUCTION. -/
def rightsOf (i : Iss) (sn : Nat) : Res (SysRight × SysRight) :=
  match sysRights sn with
  | some r => .ok r
  | none => .error (.trap (i.trap .illegalInstruction (maskOf i.active) 0))

def Iss.atLeast (i : Iss) (l : Level) : Bool := decide (l.rank ≤ i.crew.level.rank)

/-- The issuing context's view of a register. (DESIGN CHOICE, safe, log 51) -/
def State.sysVal (s : State) (i : Iss) (sn : Nat) : Word64 :=
  match s.ctx? i.crew.part with
  | some c => c.sysRead i.crew.level (s.waysHeld c.part (sn - snSlway)) sn
  | none => 0

def execRdsys (x : Form) (s : State) : Out State :=
  uniSet s x .any fun i =>
    let ix := x.bn == 1
    match kFree i ([(x.dn, true)] ++ if ix then [(x.an, false)] else []) with
    | .error e => .error e
    | .ok _ =>
      let sn := sysNumber x i ix x.an
      match rightsOf i sn with
      | .error e => .error e
      | .ok (.none, _) => .ok (s.uniResult i x true 0)
      | .ok (.mgmt, _) => .error (.trap (i.trap .permPriv (maskOf i.active) 0))
      | .ok (.level l, _) => match needLevel i (i.atLeast l) with
        | .error e => .error e
        | .ok _ => .ok (s.uniResult i x true (s.sysVal i sn))

/-! ### SYS_XLINV (R299) -/

/-- Does a granule of IA meet [base, base + length)? A length of 0 meets none, one of 2^52 or more every granule. -/
def xlHits (base len granule : Nat) : Bool :=
  len != 0 && (decide (2 ^ 52 ≤ len) || (decide (base < (granule + 1) * 65536) && decide (granule * 65536 < base + len)))

/-- The write of SYS_XLINV: an invalidation of the range from SYS_XLBASE is pending under a tag. -/
def State.xlStart (s : State) (part tag len : Nat) : State :=
  s.updCtx part fun c => { c with xlPend := c.xlPend ++ [(tag, (c.reg snXlbase).toNat, len)] }

/-- XLINV: the cached translations of the oldest pending invalidation are dropped. -/
def State.xlDrop (s : State) (part : Nat) : Option State :=
  match (s.ctx? part).bind fun c => c.xlPend.head? with
  | none => none
  | some (_, base, len) =>
    some ({ s with tlb := s.tlb.filter fun t => !(t.part == part && xlHits base len t.granule) }.updCtx part fun c =>
      { c with xlPend := c.xlPend.tail })

/-- Does a batch wait in an irrevocable instruction whose requests, translated before a tag was given, are still to be sent? -/
def Batch.unsent (b : Batch) (tag : Nat) : Bool := decide (b.tag < tag) && match b.wait with
  | .atomic w => !w.todo.isEmpty
  | _ => false

/-- Has every access of a partition older than a tag been performed? -/
def State.olderGone (s : State) (part tag : Nat) : Bool :=
  !((s.sb ++ s.rq).any fun e => e.part == part && !e.isRel && decide (e.tag < tag))
    && s.crews.all fun k => k.part != part || k.live.flocks.all fun f => f.batches.all fun b => !b.unsent tag

/-- WRSYS's steps (R303): the checks and the first checkpoint; once the release has drained, the write; SYS_XLINV then waits for its
translations to be dropped, and for the accesses that used one; the second checkpoint. The phase keeps the number too:
4·number + 1, 2 or 3. -/
def execWrsys (x : Form) (s : State) : Out State :=
  uniSet s x .any fun i =>
    let ix := x.dn == 1
    match kFree i ([(x.bn, true)] ++ if ix then [(x.an, false)] else []) with
    | .error e => .error e
    | .ok _ =>
      let sn := if i.batch.phase = 0 then sysNumber x i ix x.an else i.batch.phase / 4
      let at_ := i.batch.phase % 4
      let goTo := fun (t : State) (p : Nat) => t.onBatch i fun b => { b with phase := 4 * sn + p }
      match rightsOf i sn with
      | .error e => .error e
      | .ok (_, .none) | .ok (_, .mgmt) => .error (.trap (i.trap .permPriv (maskOf i.active) 0))
      | .ok (_, .level l) =>
        if i.batch.phase = 0 then
          match needLevel i (i.atLeast l) with
          | .error e => .error e
          | .ok _ => match firstCkpt s i with
            | .error e => .error e
            | .ok s1 => .ok (goTo (s1.releaseAll i i.active .dev) 1)
        else if at_ = 1 then
          if !s.drained i.ref.core i.batch.tag then .error .wait
          else
            let v := (i.flock.kpair x.bn).toNat
            if sn = snXlinv then
              .ok (goTo (({ s with nextTag := s.nextTag + 1 }.xlStart i.crew.part s.nextTag v).onBatch i fun b =>
                { b with tag := s.nextTag }) 2)
            else .ok (goTo (s.updCtx i.crew.part fun c => c.sysWrite sn v) 3)
        else if at_ = 2 then
          -- the translations are dropped first; then the accesses that used one are awaited
          if (s.ctx? i.crew.part).any fun c => c.xlPend.any fun p => p.1 == i.batch.tag then .error .wait
          else .ok (goTo ({ s with nextTag := s.nextTag + 1 }.onBatch i fun b => { b with tag := s.nextTag }) 3)
        else if sn == snXlinv && !s.olderGone i.crew.part i.batch.tag then .error .wait
        else if !s.ckptDrained i.crew then .error (.ckpt [])
        else .ok ((s.advance i x.words).secondCkpt i.ref.core i.ref.slot)

/-! ### WRPKR (R301) -/

/-- Has every earlier access of the batch passed its memory-side check? Those that wait in SB or Q have, as this model checks
an access when it issues; pod requests are checked at their home. -/
def State.accessesChecked (s : State) (i : Iss) : Bool :=
  i.active.all fun f => !(s.podOut.any fun r => r.core == i.ref.core && r.fib == f.num)

def execWrpkr (x : Form) (s : State) : Out State :=
  uniSet s x .any fun i =>
    match needLevel i (i.crew.level == .f) with
    | .error e => .error e
    | .ok _ => match kFree i [(x.an, false)] with
      | .error e => .error e
      | .ok _ => match takeCkpt s i with
        | .error e => .error e
        | .ok s1 =>
          if !s1.accessesChecked i then .error .wait
          else
            .ok ((s1.updCtx i.crew.part fun c =>
              c.setReg (snPkr + x.dn) (BitVec.ofNat 64 (bits (i.flock.kreg x.an).toNat 1 0))).advance i x.words)

end Sys2Proof.Machine
end

