-- ==== Sys2Proof/Machine/Steps.lean ====
section
/-! DEFINITION. The machine's own steps: E2, E4, E5, E6, E12 of the ordering machine, E14 to E19 of engines and the combining
network, E20 to E22 of the Goat, replies, the matrix unit, collectives, and invalidation (R93, R99, R101, R166). -/

namespace Sys2Proof.Machine

/-- Run a step of the machine that no batch issues: an event that cannot happen now leaves the state but for the mark that
nothing happened (DESIGN CHOICE, log 8). -/
def runEvent (s : State) (body : Option State) : Out State :=
  if s.dead then .fault .poweredDown
  else match body with
    | some t => .next t
    | none => .next { s with stall := true }

/-! ### Store buffers and release queues -/

/-- E2: the head of SB(f) passes, unless an overlapping entry of the same instruction in a lower lane stands before it. -/
def State.pass (s : State) (core fib : Nat) : Option State :=
  match indexOf? (Entry.ofFibre core fib) s.sb 0 with
  | none => none
  | some n => match s.sb[n]? with
    | none => none
    | some e =>
      if (s.sb.take n).any fun d => d.core == core && e.overlaps d then none
      else some ({ s with sb := removeAt s.sb n }.toQueue e)

def execPass (core fib : Nat) (s : State) : Out State := runEvent s (s.pass core fib)

/-- Room for the version an entry writes: its crew's checkpoint, then those of the other crews of the context that hold a
version in the set (R313). -/
def State.roomFor (s : State) (e : Entry) : Except (Nat × Nat) State :=
  let fits := fun (t : State) => !t.writesVersion e || !t.versionFull e.core e.slot e.loc
  if fits s then .ok s
  else ckptUntil fits ((e.core, e.slot) :: (s.setHolders (s.site e.loc) e.line).map fun v => (v.core, v.slot)) s

/-- The state in which E4 may apply an entry: a plain store first makes room for the version it writes (R313), or names the crew whose
checkpoint it waits for. -/
def State.takeIn (s : State) (e : Entry) : Except (Nat × Nat) State :=
  match e.kind with
  | .store _ false _ => s.roomFor e
  | _ => .ok s

/-- E4. -/
def State.drain (s : State) (core idx : Nat) : Option State :=
  match s.drainable core idx with
  | none => none
  | some e =>
    match s.takeIn e with
    | .error p => s.markDue [p]
    | .ok s1 => ({ s1 with rq := dropEntry core idx s1.rq }).applyEntry e

def execDrain (core idx : Nat) (s : State) : Out State := runEvent s (s.drain core idx)

/-- The line of a VA that a core may copy of itself: a page of a class that L1 holds, or the host's memory (R106); none for a page that is
never cached. -/
def State.fillPlace (s : State) (k : Crew) (va : Nat) : Option Loc :=
  match ((s.ctx? k.part).bind fun c => c.findRange (va % 2 ^ 57) 0 16).map fun p => Class.ofCode p.2.cls with
  | none | some .pod | some .hostw => none
  | some .host => (s.translate k.part k.level .load va).toOption
  | some cls => (s.lookup k.part va).bind fun p =>
      if leafHome p.2.2.1 = 3 then none else some (locOf k.part cls va p.2.1 p.2.2.1 p.2.2.2 0)

/-- A quadrant that a fill for a crew is placed in: that of its first flock, else one of its partition's on the core (R292). -/
def State.fillQuad (s : State) (k : Crew) : Option Nat := (k.live.flocks.map (·.quad) ++ s.quadsOf k.part k.core).head?

/-- E5 of the line of a VA that a crew's context maps: a fill at any time for any line it may reach but those that no copy holds (POD,
HOSTW, HOME=11). A HOME=10 line is pinned as by any other fill, and a pinned copy is refreshed in its place. Which lines a core fills
of itself, the spec leaves open (R93). (DESIGN CHOICE, safe, log 29) -/
def State.fill (s : State) (core slot line : Nat) : Option State :=
  (s.crew? core slot).bind fun k => (s.fillPlace k (128 * line)).bind fun l => (s.fillQuad k).bind fun q =>
    if s.owned k.part (lineOf l.pa) || s.lostPa l.pa || s.lineWaits k.part (lineOf l.pa) then none
    else some (s.fillL1 { core := core, group := q, part := k.part, slot := slot, fib := 0 } l)

def execFill (core slot line : Nat) (s : State) : Out State := runEvent s (s.fill core slot line)

/-- E6. (DEDUCED, safe, log 34) -/
def State.evict (s : State) (core line : Nat) : Option State :=
  if s.l1.any fun c => c.core == core && c.line == line && !c.pinned then
    some { s with l1 := s.l1.filter fun c => !(c.core == core && c.line == line && !c.pinned) }
  else none

def execEvict (core line : Nat) (s : State) : Out State := runEvent s (s.evict core line)

/-- E12 of a dirty line, whichever partition's, unless the throttle holds its row (R283). -/
def State.writeBackStep (s : State) (line : Nat) : Option State :=
  match s.home.find? fun h => h.line == line && (h.dirty0 || h.dirty1) with
  | none => none
  | some h =>
    if [2 * line, 2 * line + 1].any fun sec => h.isDirty sec && s.rowWaits h.site.part sec then none
    else some (s.writeBack h.site.part line)

def execWriteBack (line : Nat) (s : State) : Out State := runEvent s (s.writeBackStep line)

/-! ### Engines -/

/-- Does a pre-empted partition hold an engine's work back (R327, R328)? -/
def State.engineHeld (s : State) (e : Engine) : Bool :=
  match (s.ctx? e.part).map (·.parked) with
  | some ks => ks.any fun k => e.ofCrew k
  | none => false

/-- E14: the next line of a copy, or row of a B-store load. -/
def State.lineWrite (s : State) (id : Nat) : Option State :=
  (s.engine? id).bind fun e =>
    if s.engineHeld e then none
    else match e.job with
      | .copy [] ds false _ => some (s.startCopy e ds)
      | .copy [] ds true todo => s.copyStep e ds todo
      | .bld gq slot size rows src pitch sc next => s.bldStep e gq slot size rows src pitch sc next
      | _ => none

def execLineWrite (id : Nat) (s : State) : Out State := runEvent s (s.lineWrite id)

/-- E15. -/
def State.completion (s : State) (id : Nat) : Option State :=
  (s.engine? id).bind fun e => if e.done then some (s.engineDone e) else none

def execEngineCompletion (id : Nat) (s : State) : Out State := runEvent s (s.completion id)

/-! ### The combining network -/

def execAbsorbOrAppend (idx : Nat) (s : State) : Out State := runEvent s (s.absorbStep idx)

/-- E18: a request whose path crosses a lost pod link is answered poisoned, its store or RED dropped and logged
(R141, R339). (DESIGN CHOICE, safe, log 25) -/
def State.transmit (s : State) (p : Port) : Option State :=
  match s.reqs.find? fun r => r.at_ == p with
  | none => none
  | some r =>
    if s.podLost r.ia then
      let s1 := { s with reqs := dropFirst (fun z => z.id == r.id) s.reqs }
      let s2 := (s.dropped r true).foldl (fun t q => t.logAccess 4 q.part q.ia) s1
      some { s2 with replies := s2.replies ++ [{ req := r, val := 0, poison := true, stage := p.stage }] }
    else s.transmitStep p

def execTransmit (p : Port) (s : State) : Out State := runEvent s (s.transmit p)
def execReply (idx : Nat) (s : State) : Out State := runEvent s (s.replyStep idx)

/-- A HOST or POOL write is accepted by its link (R97). A never-cached write of the pool is done here, after those that overlap it and
passed before it, once no row throttle holds it (R100, R283). -/
def State.linkAccept (s : State) (idx : Nat) : Option State :=
  (s.linkWait[idx]?).bind fun e =>
    let rest := { s with linkWait := removeAt s.linkWait idx }
    if !e.atLink then some rest
    else if (s.linkWait.take idx).any fun d => d.atLink && decide (d.loc.pa < e.loc.pa + e.size)
        && decide (e.loc.pa < d.loc.pa + d.size) then none
    else if s.rowWaits e.part (sectorOf e.loc.pa) then none
    else match e.kind with
      | .store bs _ clears => some (rest.storePool e bs clears)
      | _ => some rest

def execWriteAcceptedByLink (idx : Nat) (s : State) : Out State := runEvent s (s.linkAccept idx)

/-! ### The Goat -/

def State.claimStep (s : State) (id : Nat) : Option State :=
  (s.engine? id).bind fun e => match e.job with
    | .goat die l n k false _ => if n ≤ k || s.engineHeld e then none else s.claim e die l n k
    | _ => none

def State.holdStep (s : State) (id : Nat) : Option State :=
  (s.engine? id).bind fun e => match e.job with
    | .goat die l n k true none => if s.engineHeld e then none else s.hold e die l n k
    | _ => none

def State.copyLineStep (s : State) (id : Nat) : Option State :=
  (s.engine? id).bind fun e => match e.job with
    | .goat die l n k true held => if s.engineHeld e then none else s.copyOrFinish e die l n k held
    | _ => none

def execClaim (id : Nat) (s : State) : Out State := runEvent s (s.claimStep id)
def execHold (id : Nat) (s : State) : Out State := runEvent s (s.holdStep id)
def execCopyLine (id : Nat) (s : State) : Out State := runEvent s (s.copyLineStep id)

/-! ### Replies -/

/-- A register producer's value arrives; poison in a uniform or reference register traps POISON_READ instead (R43, R112, R160). -/
def Crew.completeProd (k : Crew) (p : Prod) (idx : Nat) : Crew :=
  let rest := { k with prods := removeAt k.prods idx }
  match p.dest with
  | .lane l r w => rest.updLive fun c => c.updFlock p.flock fun f => f.updFibre l fun x =>
      if p.poison then x.bad r w else x.put r w p.val
  | .uni _ r w => rest.updLive fun c => c.updFlock p.flock fun f => f.putK r w p.val
  | .href l r => rest.updLive fun c => c.updFlock p.flock fun f => f.updFibre l fun x => x.setH r p.val

/-- The lane whose access a producer is, where its poison traps. -/
def ProdDest.trapLane : ProdDest → Option Nat
  | .lane _ _ _ => none
  | .uni l _ _ => some l
  | .href l _ => some l

def State.prodStep (s : State) (core slot idx : Nat) : Option State :=
  (s.crew? core slot).bind fun k => (k.prods[idx]?).bind fun p =>
    if p.src.isPod then none
    else match (if p.poison then p.dest.trapLane else none) with
      | some l =>
        some ((s.updCrew core slot fun k => { k with prods := removeAt k.prods idx }).raise core slot
          { cause := .poisonRead, lanes := laneMask [l], addr := 0, pc := p.pc, code := 0, flock := p.flock, eng := false })
      | none => some (s.updCrew core slot fun k => k.completeProd p idx)

def execRegisterProducerCompletion (core slot idx : Nat) (s : State) : Out State := runEvent s (s.prodStep core slot idx)
def execAtomicReply (b : BatchRef) (s : State) : Out State := runEvent s (s.atomicReplyStep b)

/-! ### Units, collectives, translations -/

def execMatrixUnitExecute (gq : Nat) (s : State) : Out State := runEvent s (s.unitStep gq)

def execCollTriggerRead (id : Nat) (s : State) : Out State := runEvent s ((s.engine? id).bind s.triggerStep)
def execCollStep (id : Nat) (input : CollInput) (s : State) : Out State :=
  runEvent s ((s.engine? id).bind fun e => s.collAdvance e input)
def execCollCompletion (id : Nat) (s : State) : Out State := runEvent s ((s.engine? id).bind s.collComplete)
def execCollFailure (id : Nat) (cause : CollFail) (s : State) : Out State :=
  runEvent s ((s.engine? id).bind fun e => s.collFail e cause)

def execXlinv (part : Nat) (s : State) : Out State := runEvent s (s.xlDrop part)

end Sys2Proof.Machine
end

