-- ==== Sys2Proof/Machine/Sched.lean ====
section
/-! DEFINITION. Scheduling: the dispatcher with its queues, edges, priorities and reservations, the spawn bins' timers and
firing, and the timers that end waits (R36-R41, R87, R153, R264-R269, R274, R278, R363, R377). -/

namespace Sys2Proof.Machine

/-! ### Launch queues (R265, R266) -/

def LQState.zero : LQState := { since := none, raised := 0 }

def Context.lq (c : Context) (q : Nat) : LQState := spGet LQState.zero c.lqs q
def Context.setLq (c : Context) (q : Nat) (v : LQState) : Context := { c with lqs := spSet LQState.zero q v c.lqs }

/-- PRIO, WT and AGE of a queue, within their limits. -/
def Context.lqPrio (c : Context) (q : Nat) : Nat := bits (c.reg (snLq + q)).toNat 2 0
def Context.lqWeight (c : Context) (q : Nat) : Nat := max 1 (bits (c.reg (snLq + q)).toNat 15 8)
def Context.lqAge (c : Context) (q : Nat) : Nat := max (2 ^ 16) (min (2 ^ 30) (bits (c.reg (snLq + q)).toNat 47 16))

/-- The effective priority. -/
def Context.lqLevel (c : Context) (q : Nat) : Nat := min 7 (c.lqPrio q + (c.lq q).raised)

/-! ### Edges (R38, R267, R363) -/

/-- The crews of the producer launch, which has `n` crews, that consumer crew `c` needs. -/
def EdgeRec.needs (e : EdgeRec) (m : Image) (n c : Nat) : List Nat :=
  match e.func with
  | 0 => if c < n then [c] else []
  | 1 => (List.range e.w).map fun (i : Nat) =>
      (clampInt (sextInt e.a 32 * c + sextInt e.b 32 + (i : Int) * sextInt e.s 32) 0 ((n : Int) - 1)).toNat
  | 2 => List.range n
  | _ =>
    if e.w ≤ c then []
    else
      let j := m.lists.getD (e.a + c) 0
      ((m.lists.drop (j + 1)).take (m.lists.getD j 0)).filter fun p => decide (p < n)

/-- The launch with a key. -/
def Context.launch? (c : Context) (key : Nat) : Option Launch := c.launches.find? fun l => l.key == key

/-- Are the edges of a crew of a launch met? -/
def Context.edgesMet (c : Context) (l : Launch) (idx : Nat) : Bool :=
  match c.images.find? fun m => m.id == l.image with
  | none => false
  | some m => l.producers.all fun p => match m.edges[p.1]?, c.launch? p.2 with
    | some e, some x => (e.needs m x.ncrew idx).all fun n => x.bits.contains n
    | _, _ => false

/-- Launches of the same node accepted before this one. -/
def Context.predecessors (c : Context) (l : Launch) : List Launch :=
  match l.node with
  | none => []
  | some n => (c.launches.takeWhile fun x => x != l).filter fun x => x.image == l.image && x.node == some n

/-- A new launch of a producer node waits until every accepted consumer launch that names its predecessor has had all its
crews dispatched (R363). -/
def Context.nodeFree (c : Context) (l : Launch) : Bool :=
  (c.predecessors l).all fun p => c.launches.all fun x =>
    !(x.producers.any fun e => e.2 == p.key) || decide (x.ncrew ≤ x.dispatched.length)

/-- Crews of the dispatch that takes crew `idx`: the crew, or its whole team (R37, R269). -/
def Launch.gang (l : Launch) (idx : Nat) : List Nat :=
  if l.team = 0 then [idx]
  else (List.range l.team).filterMap fun i =>
    let n := idx / l.team * l.team + i
    if n < l.ncrew then some n else none

/-- The lowest crew not yet dispatched whose edges, and those of its team, are met (R265). -/
def Context.nextCrew (c : Context) (l : Launch) : Option Nat :=
  if c.nodeFree l then
    (List.range l.ncrew).find? fun n => !l.dispatched.contains n && (l.gang n).all fun m => c.edgesMet l m
  else none

/-- What stands dispatchable at the head of a queue: launches in arrival order. -/
def Context.head? (c : Context) (q : Nat) : Option (Launch × Nat) :=
  (c.launches.filter fun l => l.queue == q).findSome? fun l => (c.nextCrew l).map fun n => (l, n)

/-! ### Placement (R41, R265, R269) -/

/-- Free lane slots of a core over the quadrants that a partition owns. -/
def State.freeSlots (s : State) (part core : Nat) : Nat :=
  (s.quadsOf part core).foldl (fun n q => n + (s.freeLanes core q none []).length) 0

/-- Cores of a partition, or those of one herd, in ascending order. -/
def State.partCores (s : State) (part : Nat) (herd : Option Nat) : List Nat :=
  (match herd with
    | some h => (List.range 8).map fun i => 8 * h + i
    | none => List.range 512).filter fun c => !(s.quadsOf part c).isEmpty

/-- The core that a placement list names for a crew. -/
def placedCore (l : Launch) (idx : Nat) : Option Nat :=
  match l.place[idx]? with
  | some w => if bitAt w 31 then some (bits w 8 0) else none
  | none => none

/-- The core a crew goes to: its list's, else the one with the most free lane slots, the lowest on a tie. -/
def State.pickCore (s : State) (part : Nat) (l : Launch) (idx : Nat) (cores : List Nat) : Option Nat :=
  match placedCore l idx with
  | some c => if cores.contains c then some c else none
  | none => minBy (fun c => 2048 - s.freeSlots part c) cores

/-- Place some crews of a launch one after another on cores of a list; none where one cannot be placed. -/
def State.placeGang (s : State) (part : Nat) (l : Launch) (e : EntryRec) (cores : List Nat) : List Nat → Option State
  | [] => some s
  | n :: r =>
    match s.pickCore part l n cores with
    | none => none
    | some core => match s.placeCrew core part l e n with
      | none => none
      | some s1 => State.placeGang s1 part l e cores r

/-- Herds of a partition. -/
def State.herdsOf (s : State) (part : Nat) : List Nat :=
  (List.range 64).filter fun h => !(s.partCores part (some h)).isEmpty

/-- Free lane slots of a herd. -/
def State.herdSlots (s : State) (part herd : Nat) : Nat :=
  (s.partCores part (some herd)).foldl (fun n c => n + s.freeSlots part c) 0

/-- Herds reserved for teams, and the one reserved for a launch's team (R269). -/
def Context.reserved (c : Context) : List Nat := c.teams.filterMap (·.herd)
def TeamWait.isFor (t : TeamWait) (l : Launch) (idx : Nat) : Bool := t.key == l.key && t.team == idx / l.team
def Context.herdFor (c : Context) (l : Launch) (idx : Nat) : Option Nat := (c.teams.find? fun t => t.isFor l idx).bind (·.herd)

/-- Place a dispatch: a single crew on any core outside a reserved herd; a team on one herd, its reserved one before any other that is
not reserved (R269). -/
def State.placeDispatch (s : State) (c : Context) (l : Launch) (e : EntryRec) (idx : Nat) : Option State :=
  if l.team = 0 then
    s.placeGang c.part l e ((s.partCores c.part none).filter fun k => !c.reserved.contains (herdOf k)) [idx]
  else
    ((c.herdFor l idx).toList ++ (s.herdsOf c.part).filter fun h => !c.reserved.contains h).findSome? fun h =>
      s.placeGang c.part l e (s.partCores c.part (some h)) (l.gang idx)

/-- The entry a launch starts from. -/
def Context.entryOf (c : Context) (l : Launch) : Option EntryRec :=
  (c.images.find? fun m => m.id == l.image).bind fun m => m.entries.find? fun e => e.va == l.entry

/-- Clear a node's bitmap before its launch's first crew is dispatched (R363). -/
def State.clearBitmap (s : State) (c : Context) (l : Launch) : State :=
  match l.node.bind fun n => (c.images.find? fun m => m.id == l.image).bind fun m => m.nodes[n]? with
  | some (_, maxCrew, some ia) => (List.range (ceilDiv maxCrew 8)).foldl (fun s i => s.iaWrite c (ia + i) 1 0) s
  | _ => s

/-- The head of a queue with the state in which it is placed, its node's bitmap cleared before a launch's first crew; none where
it cannot be placed at once. -/
def State.headPlaced (s : State) (c : Context) (q : Nat) : Option (Launch × Nat × State) :=
  (c.head? q).bind fun p => (c.entryOf p.1).bind fun e =>
    ((if p.1.dispatched.isEmpty then s.clearBitmap c p.1 else s).placeDispatch c p.1 e p.2).map fun t => (p.1, p.2, t)

/-! ### The dispatcher's choice (R265) -/

/-- Queues with a dispatchable head. -/
def Context.ready (c : Context) : List Nat := (List.range 64).filter fun q => (c.head? q).isSome

/-- Round-robin over queues of one priority: the queue whose turn it is, else the next above it, wrapping. -/
def nextInTurn (last : Nat) (more : Bool) (qs : List Nat) : Option Nat :=
  if more && qs.contains last then some last
  else match qs.find? fun q => decide (last < q) with
    | some q => some q
    | none => qs.head?

/-- The queue that had the latest dispatch of a level's rotation, 64 before the first; and how many more its turn there gives it. -/
def Context.turnOf (c : Context) (level : Nat) : Nat := (spGet (64, 0) c.rr level).1
def Context.turnLeft (c : Context) (level : Nat) : Nat := (spGet (64, 0) c.rr level).2

/-- The queue a dispatch takes: those whose head cannot be placed hold themselves; among the others the highest effective
priority, then that level's rotation. -/
def State.chooseQueue (s : State) (c : Context) : Option Nat :=
  let qs := c.ready.filter fun q => (s.headPlaced c q).isSome
  let top := qs.foldl (fun m q => max m (c.lqLevel q)) 0
  nextInTurn (c.turnOf top) (decide (0 < c.turnLeft top)) (qs.filter fun q => c.lqLevel q == top)

/-- The queue's state after its dispatch: its turn counted, its raised priority returned (R266). -/
def Context.afterDispatch (c : Context) (q : Nat) : Context :=
  let lv := c.lqLevel q
  let left := if c.turnOf lv = q ∧ 0 < c.turnLeft lv then c.turnLeft lv - 1 else c.lqWeight q - 1
  { c.setLq q { since := none, raised := 0 } with rr := spSet (64, 0) lv (q, left) c.rr }

/-- Levels that a queue's head has gained by a clock: one for each AGE it has stood dispatchable, up to priority 7 (R266). -/
def Context.ageGain (c : Context) (now q : Nat) : Nat :=
  match (c.lq q).since with
  | none => 0
  | some t => min (7 - c.lqPrio q) ((now - t) / c.lqAge q)

/-- Every raise that is due. -/
def Context.aged (c : Context) (now : Nat) : Context :=
  (List.range 64).foldl (fun (d : Context) q =>
    if (d.lq q).raised < d.ageGain now q then d.setLq q { d.lq q with raised := d.ageGain now q } else d) c

/-! ### Reservations (R269) -/

/-- Lane slots that a team needs. -/
def Launch.slotsOf (l : Launch) (e : EntryRec) (team : Nat) : Nat :=
  (l.gang (team * l.team)).length * ((e.roles.take e.flocks).length * e.fibres)

/-- The herd on which a team lacks the fewest free lane slots, the lowest on a tie, among those not reserved. -/
def State.reserveFor (s : State) (c : Context) (t : TeamWait) : Option Nat :=
  (c.launch? t.key).bind fun l => (c.entryOf l).bind fun e =>
    minBy (fun h => l.slotsOf e t.team - s.herdSlots c.part h) ((s.herdsOf c.part).filter fun h => !c.reserved.contains h)

/-- Every reservation that is due. -/
def State.reserveDue (s : State) (c : Context) : Context :=
  c.teams.foldl (fun d t =>
    if t.herd.isSome || decide (s.clock < t.since + 65536) then d
    else { d with teams := updFirst (· == t) (fun t => { t with herd := s.reserveFor d t }) d.teams }) c

/-! ### Dispatch -/

/-- Launches that need not be remembered: every crew has ended, a later launch of the node exists or it has none, and no
launch names it as a producer. -/
def Context.forget (c : Context) : Context :=
  { c with launches := c.launches.filter fun l =>
      l.lives || (l.node.isSome && !(c.launches.any fun x => (c.predecessors x).contains l))
        || c.launches.any fun x => x.lives && x.producers.any fun p => p.2 == l.key }

/-- A context after the dispatch of a crew of a launch, or of its team, from a queue; `c` is the context as the dispatcher saw it. -/
def Context.dispatched (d c : Context) (q : Nat) (l : Launch) (n : Nat) : Context :=
  let c1 := ({ d with lqs := c.lqs, teams := c.teams } : Context).afterDispatch q
  { c1 with
    launches := updFirst (fun x => x == l)
      (fun x => { x with dispatched := (x.gang n).foldl (fun ds m => insertAsc m ds) x.dispatched }) c1.launches
    teams := c1.teams.filter fun t => !(l.team != 0 && t.isFor l n) }.forget

/-- DISPATCH: one crew or one whole team of a partition placed, after the raises and reservations that are due (R265, R266, R268, R269). -/
def State.dispatchOne (s : State) (part : Nat) : Option State :=
  (s.ctx? part).bind fun c0 =>
    let c := s.reserveDue (c0.aged s.clock)
    if c.preempting || !c.waiting.isEmpty then none
    else (s.chooseQueue c).bind fun q => (s.headPlaced c q).map fun r => r.2.2.updCtx part fun d => d.dispatched c q r.1 r.2.1

def execDispatch (part : Nat) (s : State) : Out State := runEvent s (s.dispatchOne part)

/-- When a queue's head became dispatchable, and since when each team stands so at a head (R266, R269). -/
def Context.watchHeads (c : Context) (now : Nat) : Context :=
  let c1 := (List.range 64).foldl (fun (d : Context) q =>
    match (c.head? q).isSome, (d.lq q).since with
    | true, none => d.setLq q { d.lq q with since := some now }
    | false, some _ => d.setLq q { d.lq q with since := none }
    | _, _ => d) c
  let heads := (List.range 64).filterMap fun q => ((c.head? q).filter fun p => p.1.team != 0).map fun p => (q, p.1, p.2)
  let kept := c.teams.filter fun t => t.herd.isSome || heads.any fun h => t.queue == h.1 && t.isFor h.2.1 h.2.2
  let new := (heads.filter fun h => !(kept.any fun t => t.isFor h.2.1 h.2.2)).map fun h =>
    ({ queue := h.1, key := h.2.1.key, team := h.2.2 / h.2.1.team, since := now, herd := none } : TeamWait)
  { c1 with teams := kept ++ new }

def State.watchQueues (s : State) : State := { s with ctxs := s.ctxs.map fun c => c.watchHeads s.clock }

/-- PRIORITY_AGING: a queue whose head has stood dispatchable for AGE cycles is raised, and once more for each AGE. -/
def State.ageQueue (s : State) (part q : Nat) : Option State :=
  (s.ctx? part).bind fun c =>
    if (c.lq q).raised < c.ageGain s.clock q then
      some (s.updCtx part fun c => c.setLq q { c.lq q with raised := (c.lq q).raised + 1 })
    else none

def execPriorityAging (part queue : Nat) (s : State) : Out State := runEvent s (s.ageQueue part queue)

/-- TEAM_RESERVATION: a herd for each team that has stood dispatchable for 65,536 cycles (R269). -/
def State.reserveHerd (s : State) (part : Nat) : Option State :=
  (s.ctx? part).bind fun c =>
    if s.reserveDue c = c then none else some (s.updCtx part fun c => s.reserveDue c)

def execTeamReservation (part : Nat) (s : State) : Out State := runEvent s (s.reserveHerd part)

def execCrewEnd (core slot : Nat) (s : State) : Out State := runEvent s (s.crewEnd core slot)

/-! ### Spawn bins (R40, R41, R377) -/

/-- Has a bin's timer run out? With 0 it expires on the cycle after the first arrival. -/
def Bin.expired (b : Bin) (now : Nat) : Bool := decide (b.since + max 1 b.tmr ≤ now)

def State.binTimer (s : State) (core slot bin : Nat) : Option State :=
  (s.crew? core slot).bind fun k => (k.live.bins[bin]?).bind fun b =>
    if b.held || b.due || !b.expired s.clock then none
    else some (s.updCrew core slot fun k => k.updLive fun c =>
      { c with bins := updFirst (fun x => x.entry == b.entry) (fun x => { x with due := true }) c.bins })

def execBinTimerExpiry (core slot bin : Nat) (s : State) : Out State := runEvent s (s.binTimer core slot bin)

/-- Does the crew run, so that its bins fire (R41)? No bin fires while its crew is due for pre-emption or holds a trap between the two
checkpoints of R140. (DESIGN CHOICE, unsafe, log 86) -/
def Crew.running (k : Crew) : Bool := k.susp.isNone && !k.halted && !k.preDue && k.heldTrap.isNone

/-- BIN_FIRE: the bin's fibres, or as many as the chosen quadrant has lane slots, form a flock (R41, R213). -/
def State.binFire (s : State) (core slot bin : Nat) : Option State :=
  (s.crew? core slot).bind fun k => (k.live.bins[bin]?).bind fun b =>
    if b.held || !k.running || !(b.due || b.expired s.clock || decide (b.thr ≤ b.pending.length)) then none
    else (s.entryAt k.part b.entry).bind fun e =>
      let role := e.roles.headD .vector
      (s.pickQuad k.part core (some slot) role []).bind fun p =>
        let n := min p.2.length b.pending.length
        (s.formFlock core slot p.1 (p.2.take n) role e.budget b.entry [] (b.pending.take n)).map fun s1 =>
          (s1.updCrew core slot fun k => k.updLive fun c =>
            { c with
              bins := if n = b.pending.length then dropFirst (fun x => x.entry == b.entry) c.bins
                else updFirst (fun x => x.entry == b.entry)
                  (fun x => { x with pending := x.pending.drop n, since := s.clock, due := false }) c.bins }).settleBins core

def execBinFire (core slot bin : Nat) (s : State) : Out State := runEvent s (s.binFire core slot bin)

/-! ### Timers that end waits -/

/-- RCV_TIMEOUT (R87): the open wait of a batch closes t cycles after it opened. -/
def State.rcvTimeout (s : State) (b : BatchRef) : Option State :=
  (s.find b).bind fun i => match i.batch.wait with
    | .rcv addr t opened =>
      if t ≠ 0 ∧ opened + t ≤ s.clock then some (s.onFlock i fun f => f.closeRcv addr) else none
    | _ => none

def execRcvTimeout (b : BatchRef) (s : State) : Out State := runEvent s (s.rcvTimeout b)

/-- SLEEP_TIMEOUT (R274): the status is false. -/
def State.sleepTimeout (s : State) (b : BatchRef) : Option State :=
  (s.find b).bind fun i => match i.batch.wait with
    | .sleep qd _ t since =>
      if t ≠ 0 ∧ since + t ≤ s.clock then
        some ((s.onBatch i fun x => { x with wait := .none }).onFlock i fun f => f.setQ qd false)
      else none
    | _ => none

def execSleepTimeout (b : BatchRef) (s : State) : Out State := runEvent s (s.sleepTimeout b)

/-- QWAIT_TIMEOUT (R153): qd is false. -/
def State.qwaitTimeout (s : State) (b : BatchRef) : Option State :=
  (s.find b).bind fun i => match i.batch.wait with
    | .qwait qd _ _ t since _ _ =>
      if t ≠ 0 ∧ since + t ≤ s.clock then
        some ((s.onBatch i fun x => { x with wait := .none }).onFlock i fun f => f.setQ qd false)
      else none
    | _ => none

def execQwaitTimeout (b : BatchRef) (s : State) : Out State := runEvent s (s.qwaitTimeout b)

/-- Where a sleeper reads its descriptor again: at its address as the page tables now have it, else where it was found, if the frame there
is still the context's (R297; DESIGN CHOICE, safe, log 77). -/
def State.rereadAt (s : State) (i : Iss) (d : Loc) : Option Loc :=
  match s.translate i.crew.part i.crew.level .queue d.va with
  | .ok l => some l
  | .error _ => if (s.ctx? i.crew.part).any fun c => s.reaches c d.pa 64 then some d else none

/-- The first of the reads at `next` and every `step` cycles from then that comes after a clock. -/
def nextAfter (next step now : Nat) : Nat := if next ≤ now then next + step * ((now - next) / step + 1) else next

/-- QWAIT_REREAD (R153): a sleeper that is not listed reads HEAD and TAIL again every 1,024 cycles; an element ends its sleep. -/
def State.qwaitReread (s : State) (b : BatchRef) : Option State :=
  (s.find b).bind fun i => match i.batch.wait with
    | .qwait qd d false t since next f =>
      if next ≤ s.clock then
        let l := s.rereadAt i d
        if l.all fun l => decide ((s.qdesc l).used ≤ 0) then
          some (s.onBatch i fun x => { x with wait := .qwait qd (l.getD d) false t since (nextAfter next 1024 s.clock) f })
        else some ((s.onBatch i fun x => { x with wait := .none }).onFlock i fun f => f.setQ qd true)
      else none
    | _ => none

def execQwaitReread (b : BatchRef) (s : State) : Out State := runEvent s (s.qwaitReread b)

/-- YIELD_EXPIRY (R278). -/
def State.yieldExpiry (s : State) (b : BatchRef) : Option State :=
  (s.find b).bind fun i => match i.batch.wait with
    | .yield t => if t ≤ s.clock then some (s.onBatch i fun x => { x with wait := .none }) else none
    | _ => none

def execYieldExpiry (b : BatchRef) (s : State) : Out State := runEvent s (s.yieldExpiry b)

/-! ### Which batches may issue -/

/-- Does no wait hold the batch? -/
def Batch.awake (b : Batch) : Bool :=
  match b.wait with
  | .none | .tbarOut => true
  | .atomic w => !w.todo.isEmpty
  | _ => false

/-- May a batch of the crew issue (R314, R318, R327, R329)? An instruction that has begun goes on; pre-emption takes back one that
is not between the two checkpoints of R140. -/
def Crew.mayIssue (k : Crew) (f : Flock) (b : Batch) : Bool :=
  k.susp.isNone && !k.ending && b.awake
    && ((b.mid && (k.between || (!k.preDue && k.heldTrap.isNone)))
      || ((!k.halted || k.stepPend) && !k.preDue && (!k.ckptDue || k.unbroken) && k.heldTrap.isNone && (match k.stopFor with
        | none => true
        | some p => p.1 == f.num && b.lanes.contains p.2)))

/-- A reference to a batch by its lowest lane. -/
def refOf (k : Crew) (f : Flock) (b : Batch) : BatchRef :=
  { core := k.core, slot := k.slot, flock := f.num, lane := b.lanes.headD 0 }

/-- The next state, if there is one in which something happened. -/
def movedTo : Out State → Option State
  | .next t => if t.stall then none else some t
  | _ => none

/-! ### Power tokens (R24) -/

/-- A matrix-arithmetic instruction's meaning. -/
def tokenUse (s : State) : Instr → Option State
  | .mma x => movedTo (execMma x s)
  | .mmai x => movedTo (execMmai x s)
  | .gdr x => movedTo (execGdr x s)
  | .gqr x => movedTo (execGqr x s)
  | .gdrCq x => movedTo (execGdrCq x s)
  | .gqrCq x => movedTo (execGqrCq x s)
  | _ => none

/-- Has a herd, which holds a token, such an instruction ready? -/
def State.tokenReady (s : State) (herd : Nat) : Bool :=
  s.crews.any fun k => herdOf k.core == herd && k.live.flocks.any fun f => f.role == .matrix && f.batches.any fun b =>
    k.mayIssue f b && (match ({ s with cur := some (refOf k f b), stall := false } : State) with
      | s0 => match s0.iss? with
        | none => false
        | some i => match s0.fetch i with
          | .ok (s1, ins) => (tokenUse s1 ins).isSome
          | .error _ => false)

/-- POWER_TOKEN_PASS: a token whose burst is over, or that its herd has not used and has no such instruction ready for, moves to the next herd of the die; one
beyond the die's count leaves. The tokens not listed stand unused at herd 0. -/
def State.tokenPass (s : State) (die herd : Nat) : Option State :=
  let g := 8 * die + herd
  if 8 ≤ herd then none
  else
    let next := if herd = 7 then 8 * die else g + 1
    match s.holds.find? fun h => h.herd == g && ((h.start.isNone && !s.tokenReady g) || h.over s.clock) with
    | some h =>
      let rest := dropFirst (fun x => x == h) s.holds
      if s.tokenCount die < s.tokensOut die ∨ next = 8 * die then some { s with holds := rest }
      else some { s with holds := rest ++ [{ herd := next, start := none, last := s.clock }] }
    | none =>
      if herd = 0 ∧ s.tokensOut die < s.tokenCount die ∧ !s.tokenReady g then
        some { s with holds := s.holds ++ [{ herd := next, start := none, last := s.clock }] }
      else none

def execPowerTokenPass (die herd : Nat) (s : State) : Out State := runEvent s (s.tokenPass die herd)

end Sys2Proof.Machine
end

