-- ==== Sys2Proof/Machine/Recovery.lean ====
section
/-! DEFINITION. Checkpoints and traps as events of their own, pre-emption and resumption, debug control, page migration and the
expansion of compressed pages (R312-R318, R320, R326-R330, R338). -/

namespace Sys2Proof.Machine

/-! ### Checkpoints and trap delivery -/

/-- CHECKPOINT: one that another crew's need, a hold or an engine has asked for, once it can be taken (R314, R315). -/
def State.dueCkpt (s : State) (core slot : Nat) : Option State :=
  (s.crew? core slot).bind fun k =>
    if k.ckptDue && !k.between && k.susp.isNone && s.ckptReady k then some (s.checkpoint core slot) else none

def execCheckpoint (core slot : Nat) (s : State) : Out State := runEvent s (s.dueCkpt core slot)

def execTrapDelivery (core slot : Nat) (s : State) : Out State := runEvent s (s.deliverHeld core slot)

/-- TRAP_RECORD_ENQUEUE_RETRY, for a resident crew or a pre-empted one (R320). -/
def State.retryRecord (s : State) (core slot : Nat) : Option State :=
  let waits := fun (k : Crew) => k.core == core && k.slot == slot && (match k.susp with
    | some r => !r.queued && decide (r.retryAt ≤ s.clock)
    | none => false)
  match s.crews.find? waits with
  | some k => k.susp.map fun r =>
      let p := s.tryEnqueue k r
      p.1.updCrew core slot fun x => { x with susp := some p.2 }
  | none => (s.allCrews.find? waits).bind fun k => k.susp.map fun r =>
      let p := s.tryEnqueue k r
      p.1.setParked k.part k fun x => some { x with susp := some p.2 }

def execTrapRecordEnqueueRetry (core slot : Nat) (s : State) : Out State := runEvent s (s.retryRecord core slot)

/-- A partition's interval length, within its limits (R312). -/
def Context.intervalLen (c : Context) : Nat := if c.interval = 0 then 65536 else max 1024 (min 4194304 c.interval)

/-- INTERVAL_TIMER_EXPIRY: a checkpoint, or its request where it cannot be taken yet; between two checkpoints of R140 the
second serves (R312, R315). -/
def State.intervalEnd (s : State) (core slot : Nat) : Option State :=
  (s.crew? core slot).bind fun k => (s.ctx? k.part).bind fun c =>
    if k.timer < c.intervalLen ∨ k.between ∨ k.halted ∨ k.susp.isSome then none
    else if s.ckptReady k then some (s.checkpoint core slot)
    else if k.ckptDue then none
    else some (s.updCrew core slot fun x => { x with ckptDue := true })

def execIntervalTimerExpiry (core slot : Nat) (s : State) : Out State := runEvent s (s.intervalEnd core slot)

/-! ### Pre-emption (R327, R328, R330) -/

/-- A crew is to be pre-empted; the record of one that is suspended gains FLAGS.PRE, unless it is halted or a halt is pending, which
defers the expiry (R330). -/
def State.demand (s : State) (core slot : Nat) : State :=
  let s1 := s.updCrew core slot fun k =>
    { k with
      preDue := true
      susp := k.susp.map fun r => { r with pre := r.pre || !k.deferred } }
  match (s1.crew? core slot).bind fun k => k.susp.map fun r => (k, r) with
  | none => s1
  | some (k, r) => (s1.writeRecord k r).getD s1

def State.demandAll (s : State) (ks : List Crew) : State := ks.foldl (fun s k => s.demand k.core k.slot) s

/-- The quantum of a partition, within its limits; 0 where none is set. -/
def Context.quantumLen (c : Context) : Nat := if c.quantum = 0 then 0 else max (2 ^ 16) (min (2 ^ 32) c.quantum)

/-- QUANTUM_EXPIRY: every crew of the partition. (DESIGN CHOICE, safe, log 59) -/
def State.quantumEnd (s : State) (part : Nat) : Option State :=
  (s.ctx? part).bind fun c =>
    if c.preempting || c.quantumLen == 0 || decide (s.clock < c.quantumAt + c.quantumLen) then none
    else some ((s.demandAll (s.crews.filter fun k => k.part == part)).updCtx part fun c => { c with preempting := true })

def execQuantumExpiry (part : Nat) (s : State) : Out State := runEvent s (s.quantumEnd part)

/-- PREEMPTION_REQUEST: a set of crews, by core and slot. -/
def State.preemptSet (s : State) (ps : List (Nat × Nat)) : Option State :=
  let ks := s.crews.filter fun k => ps.contains (k.core, k.slot)
  if ks.isEmpty then none
  else
    let s1 := s.demandAll ks
    some { s1 with
      ctxs := s1.ctxs.map fun (c : Context) => if ks.any fun k => k.part == c.part then { c with preempting := true } else c }

def execPreemptionRequest (crews : List (Nat × Nat)) (s : State) : Out State := runEvent s (s.preemptSet crews)

/-- Is a crew that is to be pre-empted ready for it: past the second checkpoint of R140, not halted and with no halt or held
trap pending, its entries' end not begun, and no B-store load of it outstanding? -/
def State.lodgeable (s : State) (k : Crew) : Bool :=
  k.preDue && !k.between && !k.halted && !k.haltPend && k.heldTrap.isNone && !k.ending && !s.loading k

/-- The part of a unit that is saved with its crew (R328). -/
def MUnit.ofCrew (u : MUnit) : MUnit :=
  { u with tiles := u.tiles.filter fun t => !t.2.pinned, queue := [], shTiles := [], shBanks := none }

/-- Idle quadrants of a partition that may take lodged state: the same herd, then the rest of the same die, in ascending core. -/
def State.idleQuads (s : State) (part core : Nat) : List Nat :=
  let idle := fun (c : Nat) => ((s.quadsOf part c).filter fun q =>
    !(s.crews.any fun k => k.core == c && k.live.flocks.any fun f => f.quad == q)
      && !(s.lodged.any fun p => p.1 == c * 4 + q)).map fun q => c * 4 + q
  ((List.range 8).map fun i => herdOf core * 8 + i).flatMap idle
    ++ (((List.range 64).map fun i => dieOf core * 64 + i).filter fun c => herdOf c != herdOf core).flatMap idle

/-- A crew's entries that have still to drain, under the name of a pre-empted crew. -/
def State.orphan (s : State) (k : Crew) : State :=
  let away := fun (e : Entry) => if e.core == k.core && e.slot == k.slot then { e with slot := parkedSlot k.slot } else e
  { s with sb := s.sb.map away, rq := s.rq.map away }

/-- A crew's waiting writes of an unpublished pool version, taken into the version (R134). -/
def State.landOwn (s : State) (k : Crew) : State :=
  let mine := fun (e : Entry) => e.core == k.core && e.slot == k.slot && e.own
  (s.rq.filter mine ++ s.sb.filter mine).foldl (fun s e => match e.kind with
    | .store bs _ clears => s.storePool e bs clears
    | _ => s) { s with sb := s.sb.filter fun e => !mine e, rq := s.rq.filter fun e => !mine e }

/-- Quadrants that a crew's flocks stand on. -/
def Crew.quads (k : Crew) : List Nat := k.live.flocks.foldl (fun l f => insertAsc f.quad l) []

/-- The record of a crew that is pre-empted while suspended gains FLAGS.PRE (R320, R327, R330). -/
def State.markPre (s : State) (k : Crew) : State :=
  match k.susp with
  | none => s
  | some r =>
    let j := { k with susp := some { r with pre := true } }
    if r.pre then s else (s.writeRecord j { r with pre := true }).getD s

/-- One crew off its quadrants: rolled back, its pinned states spilled, its state lodged or in the save area, its places free.
(DESIGN CHOICE, safe, log 56) -/
def State.lodgeCrew (s : State) (core slot : Nat) : State :=
  let s0 := s.rollback core slot
  match (s0.crew? core slot).bind fun k => ((s0.landOwn k).crew? core slot).map fun k => (s0.landOwn k, k) with
  | none => s
  | some (s1, k) =>
    let kept := (s1.units.filter fun u => u.holder == some (core, slot)).map MUnit.ofCrew
    let s2 := ((s1.markPre k).suspendPins k).releaseUnits core slot
    let s3 := { s2.orphan k with crews := s2.crews.filter fun x => !(x.core == core && x.slot == slot) }
    let free := (s3.idleQuads k.part core).take k.quads.length
    let s4 := { s3 with lodged := s3.lodged ++ free.map fun q => (q, k.part) }
    (s4.updCtx k.part fun c => { c with parked := c.parked ++ [{ k with
      kept := kept, preDue := false, susp := k.susp.map fun r => { r with pre := true } }] }).settleBins core

/-- A crew taken off once the lines its spills write are clear (R240); none where that is awaited. -/
def State.lodgeOne (s : State) (k : Crew) : Option State :=
  match s.clearArea (s.suspendTo k) (some (k.core, k.slot)) with
  | .ok s1 => some (s1.lodgeCrew k.core k.slot)
  | .error o => o

/-- LODGE_STATE: the crews of a partition that are ready for it, in order. -/
def State.lodge (s : State) (part : Nat) : Option State :=
  (s.crews.filter fun k => k.part == part && s.lodgeable k).foldl (fun o k => match (o.getD s).lodgeOne k with
    | some t => some t
    | none => o) none

def execLodgeState (part : Nat) (s : State) : Out State := runEvent s (s.lodge part)

/-! ### Resumption (R328) -/

/-- Is a crew's old place free: its slot, quadrants, lane slots, windows, numbers, scratch and units? -/
def State.placeFree (s : State) (k : Crew) : Bool :=
  (s.crew? k.core k.slot).isNone
    && k.quads.all (fun q => (s.quadsOf k.part k.core).contains q)
    && (k.live.flocks.all fun f => f.fibres.all fun x =>
      s.laneFree k.core f.quad x.lane (some k.slot) && !s.numberUsed k.core x.num (some k.slot)
        && (s.windows k.core f.quad x.lane (some k.slot)).all fun w =>
          decide (x.base + x.budget ≤ w.1) || decide (w.1 + w.2 ≤ x.base))
    && (s.crews.all fun j => j.core != k.core || decide (k.limit ≤ j.base) || decide (j.limit ≤ k.base))
    && k.kept.all fun u => (s.unit u.gq).holder.isNone

/-- A flock's waits with fresh timers. -/
def Flock.freshWaits (now : Nat) (f : Flock) : Flock :=
  { f with batches := f.batches.map fun b => { b with wait := b.wait.restored now } }

/-- A saved unit put back beside what is pinned there; its tiles have none of those any more. -/
def State.restoreUnit (s : State) (u : MUnit) : State :=
  let pins := (s.unit u.gq).tiles.filter fun t => t.2.pinned
  s.setUnit { u with tiles := pins.foldl (fun ts t => spSet Tile.free t.1 t.2 ts) u.tiles }

/-- A crew back in its place, with E8 at DEV; detached states that others have left on its tiles are evicted (R232, R242). -/
def State.unpark (s : State) (k : Crew) : State :=
  let back : Crew :=
    { k with
      kept := []
      live := { k.live with
        flocks := k.live.flocks.map (Flock.freshWaits s.clock)
        bins := placeBins s.clock (16 - s.binsUsed k.core) k.live.bins } }
  let s1 := { s with
    crews := s.crews ++ [back]
    lodged := s.lodged.filter fun p => !(k.quads.any fun q => p.1 == k.core * 4 + q) }
  let s2 := k.kept.foldl (fun s u => ((s.keptOccupants u).foldl (fun s p => s.evictPin p.1 p.2) s).restoreUnit u) s1
  (s2.dropCore k.core).setParked k.part k fun _ => none

/-- Pre-empted crews that are to resume, and those of a crew's team. -/
def Context.parkedTeam (c : Context) (k : Crew) : List Crew := c.waiting.filter fun j => k.sameTeam j

/-- One team or crew placed back; none where a member's place is not free. -/
def State.unparkTeam (s : State) (ks : List Crew) : Option State :=
  ks.foldl (fun o k => o.bind fun s => if s.placeFree k then some (s.unpark k) else none) (some s)

/-- Teams placed back in the order of their pre-emption, until one does not fit. (DESIGN CHOICE, safe, log 57) -/
def State.unparkAll (s : State) (part : Nat) : Nat → State
  | 0 => s
  | n + 1 =>
    match (s.ctx? part).bind fun c => c.waiting.head?.map fun k => c.parkedTeam k with
    | none => s
    | some ks => match s.unparkTeam ks with
      | none => s
      | some s1 => State.unparkAll s1 part n

/-- The states of the crews just placed back, reloaded; a suspended crew's wait for its ERET. -/
def State.reloadSome (s : State) (ks : List Crew) : State :=
  ks.foldl (fun s k => match s.crew? k.core k.slot with
    | some j => if j.susp.isNone && j.launch == k.launch && j.idx == k.idx then s.reloadCrew k.core k.slot else s
    | none => s) s

/-- PARTITION_RESUME: pre-empted crews back in their places, once the lines that evictions for their states write are clear (R240, R244);
then launches are dispatched again and the quantum starts. -/
def State.resumePart (s : State) (part : Nat) : Option State :=
  (s.ctx? part).bind fun c =>
    if !c.preempting && c.waiting.isEmpty || s.crews.any fun k => k.part == part && s.lodgeable k then none
    else match s.clearArea (c.waiting.flatMap fun k => s.resumeTo k) none with
    | .error o => o
    | .ok s0 =>
      let s1 := (s0.unparkAll part c.waiting.length).reloadSome c.waiting
      let left := ((s1.ctx? part).map (·.waiting.length)).getD 0
      if c.preempting = false ∧ left = c.waiting.length then none
      else
        let s2 := s1.updCtx part fun c => { c with preempting := false, quantumAt := s.clock }
        some (if left = 0 then { s2 with lodged := s2.lodged.filter fun p => p.2 != part } else s2)

def execPartitionResume (part : Nat) (s : State) : Out State := runEvent s (s.resumePart part)

/-! ### Debug control (R329, R330) -/

/-- DEBUG_HALT: at an instruction boundary, without rollback; one of a suspended crew is recorded in its record and delivered
at its resumption. -/
def State.halt (s : State) (core slot : Nat) : Option State :=
  (s.crew? core slot).bind fun k =>
    match k.susp with
    | none => if k.halted then none else some (s.updCrew core slot fun x => { x with halted := true })
    | some r =>
      if k.haltPend then none
      else
        let r1 := { r with halt := true }
        let s1 := s.updCrew core slot fun x => { x with haltPend := true, susp := some r1 }
        some ((s1.writeRecord { k with susp := some r1 } r1).getD s1)

def execDebugHalt (core slot : Nat) (s : State) : Out State := runEvent s (s.halt core slot)

/-- SINGLE_STEP: the halted crew may issue one instruction, of the batch that R270 selects. -/
def State.stepOnce (s : State) (core slot : Nat) : Option State :=
  (s.crew? core slot).bind fun k =>
    if k.halted && !k.stepPend && k.susp.isNone then some (s.updCrew core slot fun x => { x with stepPend := true }) else none

def execSingleStep (core slot : Nat) (s : State) : Out State := runEvent s (s.stepOnce core slot)

/-- HALT_RELEASE. -/
def State.unhalt (s : State) (core slot : Nat) : Option State :=
  (s.crew? core slot).bind fun k =>
    if k.halted || k.haltPend then
      some (s.updCrew core slot fun x => { x with halted := false, haltPend := false, stepPend := false })
    else none

def execHaltRelease (core slot : Nat) (s : State) : Out State := runEvent s (s.unhalt core slot)

/-! ### HBM sectors (R331, R334, R335) -/

/-- The bytes of a sector in its array. -/
def State.arraySector (s : State) (sector : Nat) : List Byte := s.mem.read (64 * sector) 64

/-- The XOR of sectors. -/
def xorSectors (l : List (List Byte)) : List Byte := l.foldl (fun x y => List.zipWith (· ^^^ ·) x y) (List.replicate 64 0)

/-- A group's parity sector as each write of a data sector leaves it: the XOR of the group's data sectors (R332). -/
def State.paritySector (s : State) (sector : Nat) : List Byte :=
  xorSectors ((sector :: parityGroup sector).map s.arraySector)

/-- Where a parity sector is named among the poisoned ones, as no PA names it: by its stack and its number among the stack's parity
sectors. -/
def parityName (stack n : Nat) : Nat := 2 ^ 50 + stack * 2 ^ 31 + n

/-- The parity sector of a sector's group. -/
def parityOf (sector : Nat) : Nat :=
  parityName (dramPlace sector).stack ((dramPlace sector).chan / 15 * channelSectors + (dramPlace sector).at_)

/-- Does a sector stand in HBM? -/
def inHbm (sector : Nat) : Bool := bits (64 * sector) 51 50 == 0

/-- The sector as its group gives it: the XOR of the other data sectors and the parity sector; none where one of them cannot be
corrected (R334). -/
def State.fromParity (s : State) (sector : Nat) : Option (List Byte) :=
  if !inHbm sector || (parityOf sector :: parityGroup sector).any s.sectorBad then none
  else some (xorSectors ((parityGroup sector).map s.arraySector ++ [s.paritySector sector]))

/-- The sector as the clean compressed copy of its page gives it (R334, R338). -/
def State.fromCopy (s : State) (sector : Nat) : Option (List Byte) :=
  (s.clean.find? fun i => decide (i.new ≤ 64 * sector) && decide (64 * sector < i.new + i.size)).bind fun i =>
    let old := (i.old + (64 * sector - i.new)) / 64
    if s.sectorBad old || s.lostPa (64 * old) then none else some (s.arraySector old)

/-- A sector rebuilt: written to its array, and logged. -/
def State.writeRebuilt (s : State) (sector : Nat) (bs : List Byte) : State :=
  { s with mem := s.mem.write (64 * sector) bs }.logError 2 (64 * sector) 0

/-- A sector with an uncorrectable error: rebuilt, or poisoned where no source is left. That a parity sector or its correction fails
comes from outside (DESIGN CHOICE, unsafe, log 62). -/
def State.rebuild (s : State) (sector : Nat) : RebuiltBy → Option State
  | .parity => (s.fromParity sector).map (s.writeRebuilt sector)
  | .copy => (s.fromCopy sector).map (s.writeRebuilt sector)
  | .neither => if (s.fromCopy sector).isSome then none else some ((s.poisonSector sector).logError 3 (64 * sector) 0)

/-- What a read of a sector meets: an error that the code corrects is logged, and its sector stays as it is in the array until the Hen
writes it back; one that it takes for such an error leaves any bytes there; the others are rebuilt or poisoned (R331, R334, R335). The
errors come from outside (DESIGN CHOICE, unsafe, log 62). -/
def State.sectorError (s : State) (sector : Nat) : SectorFind → Option State
  | .clean => some s
  | .correctable => if inHbm sector then some (s.logError 1 (64 * sector) 0) else none
  | .miscorrected =>
    if inHbm sector then
      some ({ s with
        mem := s.mem.write (64 * sector) ((List.range 16).flatMap fun k => leBytes 4 (Config.freeWord s.fresh (16 * sector + k)).toNat)
        }.logError 1 (64 * sector) 0)
    else none
  | .uncorrectable r => s.rebuild sector r

/-! ### Pages (R326, R338) -/

/-- The PA of the entry that a walk of an IA ends in. -/
def State.walkAt (s : State) (c : Context) (ia : Nat) : Option Nat := (s.walkFrom c ia 4 0 c.root).map (·.1)

/-- A leaf with another PA, and CT as given. -/
def leafMoved (e pa : Nat) (ct : Bool) : Nat :=
  e - bits e 51 16 * 2 ^ 16 + pa / 65536 * 2 ^ 16 - (if bitAt e 13 then 2 ^ 13 else 0) + (if ct then 2 ^ 13 else 0)

/-- `n` adjoining frames among some, the first aligned to their size. -/
def frameRun (fs : List Nat) (n : Nat) : Option Nat :=
  fs.find? fun f => f % n == 0 && (List.range n).all fun i => fs.contains (f + i)

/-- A page's leaf rewritten and its cached translations dropped (R299). -/
def State.rewriteLeaf (s : State) (c : Context) (ia e level pa : Nat) (ct : Bool) : State :=
  let s1 := match s.walkAt c ia with
    | some a => s.commitBytes (s.plainSite c.part a) a (leBytes 8 (leafMoved e pa ct))
    | none => s
  { s1 with tlb := s1.tlb.filter fun t => !(t.part == c.part &&
      t.granule * 65536 / 2 ^ pageBits level == ia / 2 ^ pageBits level) }

/-- A PA moved with its page. -/
def movedPa (old new size pa : Nat) : Nat := if old ≤ pa ∧ pa < old + size then pa - old + new else pa
def Loc.moved (l : Loc) (old new size : Nat) : Loc := { l with pa := movedPa old new size l.pa }
def Entry.moved (e : Entry) (old new size : Nat) : Entry := { e with loc := e.loc.moved old new size }

/-- A wait's places moved with their page. -/
def Wait.moved (old new size : Nat) : Wait → Wait
  | .qwait qd d l t since r f => .qwait qd (d.moved old new size) l t since r f
  | .atomic w => .atomic { w with todo := w.todo.map fun r => { r with loc := r.loc.moved old new size } }
  | w => w

def CrewCore.moved (c : CrewCore) (old new size : Nat) : CrewCore :=
  { c with flocks := c.flocks.map fun (f : Flock) =>
      { f with batches := f.batches.map fun (b : Batch) => { b with wait := b.wait.moved old new size } } }

/-- Requests on their way that name the old frame follow the page (R167, R326). -/
def State.retarget (s : State) (part old new size : Nat) : State :=
  let entry := fun (e : Entry) => if e.part = part then e.moved old new size else e
  { s with
    sb := s.sb.map entry
    rq := s.rq.map entry
    crews := s.crews.map fun (k : Crew) =>
      if k.part = part then { k with live := k.live.moved old new size, saved := k.saved.moved old new size } else k }

/-- Line `n` of the frames at a PA, as a page with this leaf has it. -/
def pageLoc (part e level pa n : Nat) : Loc := { locOf part .dev 0 0 e level 0 with pa := pa + 128 * n }

/-- One line of a page moved to its new frame, with its poison; the old home copy is released, so that the old frame holds the page as it
was (R338). -/
def State.movePageLine (s : State) (part e level old new n : Nat) : State :=
  (s.copyLineTo (pageLoc part e level old n) (pageLoc part e level new n)).releaseHome part (lineOf (old + 128 * n))

/-- The first lines of a page moved to its new frame, each with its entries drained, its versions committed and its copies dropped; none
while one of them cannot be held. -/
def State.moveLines (s : State) (part e level old new : Nat) : Nat → Option State
  | 0 => some s
  | n + 1 =>
    (s.moveLines part e level old new n).bind fun s1 =>
      let ln := lineOf (old + 128 * n)
      if s1.owned part ln then none
      else (((s1.passLine part ln).drainLine part ln).bind fun s2 => s2.commitHolders part ln).map fun s3 =>
        (s3.dropL1All part ln).movePageLine part e level old new n

/-- The crews whose checkpoints the move of a page awaits are asked for them. -/
def State.askHolders (s : State) (part old size : Nat) : Option State :=
  s.markDue ((s.vers.filter fun v => v.site.part == part && decide (lineOf old ≤ v.line) && decide (v.line < lineOf (old + size))).map
    fun v => (v.core, v.slot))

/-- Accesses that a page has had in the window. -/
def State.pageHits (s : State) (part ia size : Nat) : Nat :=
  (List.range (size / 65536)).foldl (fun n k => n + spGet 0 s.hits (hitKey part (ia + 65536 * k))) 0

/-- The frames of a list that a page with this leaf may have: in the memory plan, and on its die if it is a DPIN page (R26, R173). -/
def State.planFrames (s : State) (c : Context) (e : Nat) (fs : List Nat) : List Nat :=
  fs.filter fun f => decide (f < 2 ^ 34) && s.paOk c (f * 65536) 65536 (leafDpin e) (leafDie e)

/-- The migration of a page in progress. -/
def State.migration? (s : State) (part ia : Nat) : Option (Engine × Nat × Nat × Nat × Nat) :=
  s.engines.findSome? fun e => match e.job with
    | .migrate base old new next => if e.part = part ∧ base = ia then some (e, base, old, new, next) else none
    | _ => none

/-- The Mule starts on a page that is not resident and whose count exceeds the threshold. -/
def State.startMigration (s : State) (c : Context) (granule : Nat) : Option State :=
  (s.walk c (granule * 65536)).bind fun p =>
    let size := 2 ^ pageBits p.2
    let ia := granule * 65536 / size * size
    let old := leafPa p.1 p.2 ia
    let limit := if s.policy.migThreshold = 0 then 256 else max 16 (min 65536 s.policy.migThreshold)
    if bits old 51 50 = 0 ∨ s.engineRefuses p.1 .store ∨ s.lostPa old ∨ s.pageHits c.part ia size ≤ limit then none
    else (frameRun (s.planFrames c p.1 c.freeFrames) (size / 65536)).map fun f =>
      let s1 := s.updCtx c.part fun c =>
        { c with freeFrames := c.freeFrames.filter fun x => !(decide (f ≤ x) && decide (x < f + size / 65536)) }
      { s1 with
        nextTag := s1.nextTag + 1
        engines := s1.engines ++ [{ id := s1.nextTag, owned := [], core := 0, slot := 16, part := c.part, launch := 0,
                                    idx := 0, level := .f, flock := 0, pc := 0, nb := none,
                                    job := .migrate ia old (f * 65536) 0 }] }

/-- The migration stops: the page keeps its PA, and the new frames are free again (R326). -/
def State.stopMigration (s : State) (e : Engine) (new size : Nat) : State :=
  { s with engines := s.engines.filter fun x => x.id != e.id }.updCtx e.part fun c =>
    { c with freeFrames := c.freeFrames ++ ((List.range (size / 65536)).map fun i => new / 65536 + i).filter c.frames.contains }

/-- A migration that a line which cannot be rebuilt aborts: the line is poisoned at its owner (R326, R336). -/
def State.abortMigration (s : State) (e : Engine) (old new next size : Nat) : State :=
  let ln := lineOf (old + 128 * next)
  (((s.stopMigration e new size).poisonSector (2 * ln)).poisonSector (2 * ln + 1)).logError 6 (128 * ln) 0

/-- A page's last step: its lines' contents are those of the new frame, its leaf names it. -/
def State.endMigration (s : State) (c : Context) (eng : Engine) (ia e level old new : Nat) : Option State :=
  let size := 2 ^ pageBits level
  match s.moveLines c.part e level old new (size / 128) with
  | none => s.askHolders c.part old size
  | some s1 =>
    let s2 := (s1.rewriteLeaf c ia e level new (leafCT e)).retarget c.part old new size
    some { s2 with engines := s2.engines.filter fun x => x.id != eng.id }

/-- The hold, copy and release of one line of a page, whose row of each frame is opened (R283, R326). -/
def State.holdPageLine (s : State) (eng : Engine) (ia e level old new next : Nat) : Option State :=
  let ln := lineOf (old + 128 * next)
  let a := pageLoc eng.part e level old next
  let b := pageLoc eng.part e level new next
  if s.locWaits a || s.locWaits b then none
  else (s.takeLine eng.id eng.part ln).map fun t =>
    if (t.engine? eng.id).any fun x => x.owned.contains ln then
      let t1 := (t.rowSectors a ++ t.rowSectors b).foldl (fun s sec => s.activate eng.part sec) t
      t1.updEngine eng.id fun x => { x with owned := [], job := .migrate ia old new (next + 1) }
    else t

/-- One line of a migration: an error that its copy meets is corrected or its sector rebuilt first; where it cannot be, the migration aborts
(R334, R336). -/
def State.migrateOne (s : State) (eng : Engine) (ia e level old new next : Nat) (read : LineFind) : Option State :=
  let ln := lineOf (old + 128 * next)
  if s.engines.any fun x => x.id != eng.id && x.part == eng.part && x.owned.contains ln then none
  else match read.found with
    | .uncorrectable .neither =>
      if (s.fromCopy (2 * ln + read.half % 2)).isSome then none else some (s.abortMigration eng old new next (2 ^ pageBits level))
    | f => (s.sectorError (2 * ln + read.half % 2) f).bind fun t => t.holdPageLine eng ia e level old new next

/-- MIGRATION_LINE_COPY: the start; the hold, copy and release of one line; or the end. Until the leaf is rewritten the old frame stays
the current copy, as accesses complete there, and what they write meanwhile moves with the page. A page whose key the engines' permission
register has come to refuse, or whose range is lost, stays where it is (R300, R339). (DEDUCED, safe, log 20) -/
def State.migrateLine (s : State) (part granule : Nat) (read : LineFind) : Option State :=
  (s.ctx? part).bind fun c =>
    match (s.walk c (granule * 65536)).bind fun p =>
        (s.migration? part (granule * 65536 / 2 ^ pageBits p.2 * 2 ^ pageBits p.2)).map fun m => (p, m) with
    | none => s.startMigration c granule
    | some ((e, level), eng, ia, old, new, next) =>
      let size := 2 ^ pageBits level
      if s.engineRefuses e .store || s.lostPa old then some (s.stopMigration eng new size)
      else if size ≤ 128 * next then s.endMigration c eng ia e level old new
      else s.migrateOne eng ia e level old new next read

def execMigrationLineCopy (part page : Nat) (read : LineFind) (s : State) : Out State :=
  runEvent s (s.migrateLine part page read)

/-- MIGRATION_COUNT_WINDOW_END (R326). -/
def State.hitWindowEnd (s : State) : Option State :=
  if s.hitWindow + 2 ^ 20 ≤ s.clock then some { s with hits := [], hitWindow := s.clock / 2 ^ 20 * 2 ^ 20 } else none

def execMigrationCountWindowEnd (s : State) : Out State := runEvent s s.hitWindowEnd

/-- A compressed page: its context, base IA, leaf and level. -/
structure CtPage where
  ctx : Context
  ia : Nat
  leaf : Nat
  level : Nat

/-- The compressed page that a granule of a context's IAs lies in. -/
def State.ctPage? (s : State) (part granule : Nat) : Option CtPage :=
  (s.ctx? part).bind fun c => (s.walk c (granule * 65536)).bind fun p =>
    if leafCT p.1 then
      some { ctx := c, ia := granule * 65536 / 2 ^ pageBits p.2 * 2 ^ pageBits p.2, leaf := p.1, level := p.2 }
    else none

def CtPage.size (p : CtPage) : Nat := 2 ^ pageBits p.level
def CtPage.old (p : CtPage) : Nat := leafPa p.leaf p.level p.ia

/-- Frames of the uncompressed pool that take a page's expansion; none also where its range is lost. -/
def State.roomForPage (s : State) (p : CtPage) : Option Nat :=
  if s.lostPa p.old then none else frameRun (s.planFrames p.ctx p.leaf p.ctx.poolFrames) (p.size / 65536)

/-- A page expanded into frames of the pool: its lines held and moved, its leaf rewritten; its image stays a clean copy until the page is
written. While a crew stands in the way its checkpoint is asked for (R326, R338). -/
def State.expandInto (s : State) (p : CtPage) (f : Nat) : Option State :=
  match s.moveLines p.ctx.part p.leaf p.level p.old (f * 65536) (p.size / 128) with
  | some s1 =>
    let s2 := ((s1.rewriteLeaf p.ctx p.ia p.leaf p.level (f * 65536) false).retarget p.ctx.part p.old (f * 65536) p.size).updCtx p.ctx.part fun c =>
      { c with poolFrames := c.poolFrames.filter fun x => !(decide (f ≤ x) && decide (x < f + p.size / 65536)) }
    some { s2 with clean := s2.clean ++ [{ part := p.ctx.part, old := p.old, new := f * 65536, size := p.size }] }
  | none => s.askHolders p.ctx.part p.old p.size

/-- With no free frame in the pool each access is served by expanding the line it needs, and that is logged, as a move that came to nothing
(R338; the record's type is DESIGN CHOICE, log 91). -/
def State.logUnexpanded (s : State) (p : CtPage) : State := s.logError 6 p.old p.ia

/-- CAPACITY_TIER_EXPANSION of a page that has been accessed. -/
def State.expandPage (s : State) (part granule : Nat) : Option State :=
  (s.ctPage? part granule).bind fun p =>
    if s.pageHits part p.ia p.size == 0 then none
    else match s.roomForPage p with
      | some f => s.expandInto p f
      | none => some { s.logUnexpanded p with
          hits := (List.range (p.size / 65536)).foldl (fun h k => spSet 0 (hitKey part (p.ia + 65536 * k)) 0 h) s.hits }

/-- The compressed pages that a step has accessed. -/
def State.ctTouched (s t : State) : List CtPage :=
  (t.hits.filter fun h => decide (spGet 0 s.hits h.1 < h.2)).filterMap fun h => s.ctPage? (h.1 / 2 ^ 36) (h.1 % 2 ^ 36)

/-- A step that accesses a compressed page waits, and the page is expanded in its place: the access completes against the expanded page
(R338). Only where the pool has no frame for the page is the step taken, and logged. -/
def State.expandFirst (s t : State) : State :=
  match (s.ctTouched t).findSome? fun p => (s.roomForPage p).map fun f => (p, f) with
  | some (p, f) => match s.expandInto p f with
    | some u => { u with cur := none }
    | none => { s with stall := true }
  | none => (s.ctTouched t).foldl State.logUnexpanded t

def execCapacityTierExpansion (part page : Nat) (s : State) : Out State := runEvent s (s.expandPage part page)

end Sys2Proof.Machine
end

