-- ==== Sys2Proof/Machine/Errors.lean ====
section
/-! DEFINITION. Memory errors, scrubbing, row and way housekeeping, and lost links (R283, R308, R331-R340, R352). -/

namespace Sys2Proof.Machine

/-! ### Error records (R340) -/

/-- The 32 bytes of an error record. -/
def ErrRec.bytes (r : ErrRec) : List Byte :=
  leBytes 1 r.type ++ leBytes 1 (r.ctx.getD 128) ++ leBytes 2 r.wher ++ leBytes 4 r.count ++ leBytes 8 r.pa ++ leBytes 8 r.ia
    ++ leBytes 8 0

/-- The records that a partition has copies of: those of frames it owns and of its own accesses. -/
def State.errorsOf (s : State) (part : Nat) : List ErrRec := s.errlog.filter fun r => r.ctx == some part

/-- SECTOR_REBUILD: an error that a request meets in a sector. -/
def execSectorRebuild (sector : Nat) (found : SectorFind) (s : State) : Out State :=
  runEvent s (if found == .clean then none else s.sectorError sector found)

/-! ### SRAM and register files (R333) -/

/-- A sector of a slice line: a dirty one is poisoned, a clean one refilled from M(x). -/
def State.sliceError (s : State) (part line sector : Nat) : Option State :=
  let sec := 2 * line + sector % 2
  (s.homeSector? part sec).map fun h =>
    if h.isDirty sec then (s.poisonSector sec).logError 3 (64 * sec) 0
    else ((s.activate part sec).updHome part line fun h => h.fill s.mem sec).logError 2 (64 * sec) 0

/-- An L1 line: dropped, and refilled from the level below, at once where it is pinned. -/
def State.l1Error (s : State) (core part line : Nat) : Option State :=
  (s.copy? core part line).map fun c =>
    (if c.pinned then s.refill c else s.dropL1 core part line false).logError 2 (128 * line) 0

/-- A change made to a crew's live state and to what its latest checkpoint saved: no write of the crew's, so that no rollback undoes it. -/
def Crew.both (k : Crew) (f : CrewCore → CrewCore) : Crew := { k with live := f k.live, saved := f k.saved }

/-- An error in a register of a crew: with an undo entry in the open interval its crew rolls back, else what the register held is lost.
A register that differs from the checkpoint has an entry; for one that does not the state does not say, and it may be either while
its quadrant's log holds entries of the crew (DESIGN CHOICE, log 21). -/
def State.regError (s : State) (k : Crew) (quad salt : Nat) (changed : Bool) (lost : State) : Option State :=
  if changed || (decide (0 < spGet 0 k.undo quad) && Config.freeBool s.fresh salt) then
    if k.between then none else some ((s.rollback k.core k.slot).logDie 7 (dieOf k.core))
  else some (lost.logDie 7 (dieOf k.core))

/-- The loss of a register of a flock: it is poisoned, in the saved state as well, since nothing has been written to it (R333). -/
def State.loseIn (s : State) (core slot flock : Nat) (lose : Flock → Flock) : State :=
  s.updCrew core slot fun k => k.both fun c => c.updFlock flock lose

/-- The error in a register of a fibre, read by `rd`; `lose` poisons it. -/
def State.fibreError {α : Type} [BEq α] (s : State) (core slot flock lane n : Nat) (rd : Fibre → α) (lose : Fibre → Fibre) :
    Option State :=
  (s.crew? core slot).bind fun k => (k.flock? flock).bind fun f => (f.fibre? lane).bind fun x =>
    let old := ((k.saved.flocks.find? fun g => g.num == flock).bind fun g => g.fibre? lane).map rd
    s.regError k f.quad n (old != some (rd x)) (s.loseIn core slot flock fun f => f.updFibre lane lose)

/-- The error in a register of a flock. -/
def State.flockError {α : Type} [BEq α] (s : State) (core slot flock n : Nat) (rd : Flock → α) (lose : Flock → Flock) :
    Option State :=
  (s.crew? core slot).bind fun k => (k.flock? flock).bind fun f =>
    let old := (k.saved.flocks.find? fun g => g.num == flock).map rd
    s.regError k f.quad n (old != some (rd f)) (s.loseIn core slot flock lose)

/-- A tile or a scale bank: with a shadow in the open interval its holder rolls back; else every element is poisoned. -/
def State.unitError (s : State) (gq : Nat) (shadowed : MUnit → Bool) (mark : MUnit → MUnit) : Option State :=
  let u := s.unit gq
  if shadowed u then
    u.holder.bind fun h => if (s.crew? h.1 h.2).any (·.between) then none else some ((s.rollback h.1 h.2).logDie 7 (dieOf (gq / 4)))
  else some ((s.onUnit gq mark).logDie 3 (dieOf (gq / 4)))

/-- A scratch line poisoned. Where the open interval has stored to it, the log keeps the line as it was, with the poison it had then; else a
rollback does not touch it (R379). -/
def Crew.spoil (k : Crew) (line : Nat) : Crew :=
  let mark := fun (c : CrewCore) => { c with scrBad := insertAsc line c.scrBad }
  if k.scrLog.contains line then k.updLive mark else k.both mark

/-- An uncorrectable error in an SRAM or a register file (R333). -/
def State.sramError (s : State) : SramSite → Option State
  | .slice part line sector => s.sliceError part line sector
  | .l1 core part line => s.l1Error core part line
  | .version core slot sec =>
    (s.version? core slot (sec / 2)).map fun _ =>
      let hit := fun (v : Version) => v.ofCrew core slot && v.line == sec / 2
      { s with vers := updFirst hit (fun v => { v with bad := insertAsc sec v.bad }) s.vers }.logError 3 (64 * sec) 0
  | .scratch core slot addr =>
    (s.crew? core slot).bind fun k =>
      if k.base ≤ addr ∧ addr < k.limit then
        some ((s.updCrew core slot fun k => k.spoil (addr / 128)).logDie 3 (dieOf core))
      else none
  | .bstore gq row => some ((s.onUnit gq fun u =>
      { u with bBad := insertAsc (2 * row) (insertAsc (2 * row + 1) u.bBad) }).logDie 3 (dieOf (gq / 4)))
  | .window off => some ({ s with hwBad := insertAsc (off / 64) s.hwBad }.logDie 3 0)
  | .laneReg core slot flock lane n => s.fibreError core slot flock lane n (fun x => x.reg n) fun x => x.markPoison n
  | .lanePred core slot flock lane n =>
    s.fibreError core slot flock lane n (fun x => (x.pred n, x.pBad.contains n)) fun x => x.spoilPred n
  | .href core slot flock lane n => s.fibreError core slot flock lane n (fun x => (x.h n, x.hBad.contains n)) fun x => x.spoilH n
  | .uniReg core slot flock n => s.flockError core slot flock n (fun f => (f.kreg n, f.kBad.contains n)) fun f => f.spoilK n
  | .uniPred core slot flock n => s.flockError core slot flock n (fun f => (f.qpred n, f.qBad.contains n)) fun f => f.spoilQ n
  | .tile gq z => s.unitError gq (fun u => u.shTiles.any fun p => p.1 == z) fun u => u.setTile z { u.tile z with bad := true }
  | .bankA gq => s.unitError gq (·.shBanks.isSome) fun u => { u with saBad := true }
  | .bankB gq => s.unitError gq (·.shBanks.isSome) fun u => { u with sbBad := true }

def execSramUncorrectableError (site : SramSite) (s : State) : Out State := runEvent s (s.sramError site)

/-! ### Scrubbing (R337) -/

/-- Sectors of a stack: 90 GiB with addresses, then the 6 GiB of parity that no PA names. -/
def allSectors : Nat := stackSectors + 2 * channelSectors

/-- A stack's pass period in cycles: 1 to 168 hours at 1.7 GHz, 24 by default. (DEDUCED, unsafe, log 7) -/
def State.scrubPeriod (s : State) (stack : Nat) : Nat :=
  let h := spGet 0 s.policy.scrubPeriod stack
  (if h = 0 then 24 else max 1 (min 168 h)) * 6120000000000

def Hen.zero : Hen := { start := 0, next := 0, step := 0, quarter := 0 }
def State.hen (s : State) (stack : Nat) : Hen := spGet Hen.zero s.hens stack
def State.setHen (s : State) (stack : Nat) (h : Hen) : State := { s with hens := spSet Hen.zero stack h s.hens }

/-- SCRUB_PASS_START. -/
def State.scrubStart (s : State) (stack : Nat) : Option State :=
  if 16 ≤ stack ∨ s.fence.hbm.contains stack ∨ s.clock < (s.hen stack).start + s.scrubPeriod stack then none
  else some (s.setHen stack { start := s.clock, next := 0, step := 0, quarter := 0 })

def execScrubPassStart (stack : Nat) (s : State) : Out State := runEvent s (s.scrubStart stack)

/-- WHERE for a parity sector of a stack, which has no PA (R332, R340); its channel is not told (DESIGN CHOICE, log 18). -/
def stackPlace (stack : Nat) : Nat := stack * 2 ^ 12 + stack / 2 * 2 ^ 4

/-- The data sectors of a parity sector's group. -/
def parityData (stack n : Nat) : List Nat :=
  let first := ({ stack := stack, chan := n / channelSectors * 15, at_ := n % channelSectors } : DramPlace).sector
  first :: parityGroup first

/-- What the Hen finds in a parity sector, whose contents are the XOR of its group's (R332): a sector that cannot be corrected is formed anew
from the group, or poisoned. That a correction was wrong shows in no value of this model (DESIGN CHOICE, unsafe, log 62). -/
def State.parityError (s : State) (stack n : Nat) : SectorFind → Option State
  | .clean => some s
  | .correctable | .miscorrected => some (s.logPlace 1 (stackPlace stack))
  | .uncorrectable .parity => if (parityData stack n).any s.sectorBad then none else some (s.logPlace 2 (stackPlace stack))
  | .uncorrectable .copy => none
  | .uncorrectable .neither => some ((s.poisonSector (parityName stack n)).logPlace 3 (stackPlace stack))

/-- The request-queue occupancy in per cent below which the Hen issues, by its step; none where it issues at any. -/
def State.henLimit (s : State) (stack : Nat) : Option Nat :=
  match (s.hen stack).step with
  | 0 => some (max 5 (min 95 (spGet 25 s.policy.scrubThreshold stack)))
  | 1 => some 50
  | 2 => some 75
  | _ => none

/-- SCRUB_READ of the next sector. -/
def State.scrub (s : State) (stack : Nat) (read : HenRead) : Option State :=
  let h := s.hen stack
  if 16 ≤ stack ∨ s.fence.hbm.contains stack ∨ allSectors ≤ h.next ∨ (s.henLimit stack).any (· ≤ read.occupancy) then none
  else
    let s1 := s.setHen stack { h with next := h.next + 1 }
    if h.next < stackSectors then s1.sectorError (stack * 2 ^ 31 + h.next) read.found
    else s1.parityError stack (h.next - stackSectors) read.found

def execScrubRead (stack : Nat) (read : HenRead) (s : State) : Out State := runEvent s (s.scrub stack read)

/-- SCRUB_ESCALATION_CHECK at a quarter of the period. -/
def State.scrubCheck (s : State) (stack : Nat) : Option State :=
  let h := s.hen stack
  let q := h.quarter + 1
  if 16 ≤ stack ∨ 4 < q ∨ 4 * (s.clock - h.start) < q * s.scrubPeriod stack ∨ s.clock < h.start then none
  else
    let behind := decide (4 * h.next < q * allSectors)
    some (s.setHen stack { h with quarter := q, step := if behind then min 4 (h.step + 1) else h.step })

def execScrubEscalationCheck (stack : Nat) (s : State) : Out State := runEvent s (s.scrubCheck stack)

/-! ### Rows and ways (R283, R308) -/

def State.rowWindowEnd (s : State) : Option State :=
  if s.rowWindow + 2 ^ 16 ≤ s.clock then some { s with rows := [], rowAt := [], rowWindow := s.clock / 2 ^ 16 * 2 ^ 16 } else none

def execRowActivationWindowEnd (s : State) : Out State := runEvent s s.rowWindowEnd

/-- FLOOR and CEIL of a context in a slice group. -/
def Context.wayFloor (c : Context) (g : Nat) : Nat := bits (c.reg (snSlway + g)).toNat 12 8
def Context.wayCeil (c : Context) (g : Nat) : Nat := bits (c.reg (snSlway + g)).toNat 20 16

/-- hit(d) of a context in a slice group in the period. -/
def State.hitAt (s : State) (g part d : Nat) : Nat := spGet 0 s.shHits (shadowHits g part d)

/-- The receiver of a move with its count: the largest hit(HELD + 1), the lower context number on a tie. -/
def State.wayReceiver (s : State) (g : Nat) : Option (Nat × Nat) :=
  let cands := (List.range 16).filterMap fun p => (s.ctx? p).bind fun c =>
    let n := s.hitAt g p (s.waysHeld p g + 1)
    if s.waysHeld p g < c.wayCeil g ∧ 0 < n then some (p, n) else none
  let top := cands.foldl (fun m p => max m p.2) 0
  cands.find? fun p => p.2 == top

/-- The donor with its count: the smallest hit(HELD) among the other contexts above their floor, the lower number on a tie. -/
def State.wayDonor (s : State) (g receiver : Nat) : Option (Nat × Nat) :=
  minBy (·.2) ((List.range 16).filterMap fun p => (s.ctx? p).bind fun c =>
    if p ≠ receiver ∧ c.wayFloor g < s.waysHeld p g then some (p, s.hitAt g p (s.waysHeld p g)) else none)

/-- The free ways of a slice group, the lowest first: which one a context gets outside a move, the spec leaves open (DESIGN CHOICE, log 78). -/
def State.freeWays (s : State) (g : Nat) : List Nat := (List.range 16).filter fun w => spGet 0 s.slWays (16 * g + w) == 0

/-- The lines that stand in a way of a slice group, each with its partition. -/
def State.wayLines (s : State) (g w : Nat) : List (Nat × Nat) :=
  (s.home.filter fun h => h.site.slice / 48 == g && h.way == w).map fun h => (h.site.part, h.line)

/-- Lines of partitions released, dirty sectors first. -/
def State.releaseLines (s : State) (ls : List (Nat × Nat)) : State := ls.foldl (fun s l => s.releaseHome l.1 l.2) s

/-- How many HOME=01 lines of a home line's context stand in its set. -/
def pinsBefore (hs : List HomeLine) (h : HomeLine) : Nat :=
  (hs.filter fun x => x.site.pin && x.site.part == h.site.part && x.site.slice == h.site.slice && setOf x.line == setOf h.line).length

/-- The HOME=01 lines of a context in a slice group are no more pinned where a set has more than min(8, HELD − 1) of them (R307). Which
ones, the spec leaves open (DESIGN CHOICE, unsafe, log 92). -/
def State.unpinOver (s : State) (part g : Nat) : State :=
  { s with
    home := s.home.zipIdx.map fun p =>
      if p.1.site.part == part && p.1.site.slice / 48 == g && p.1.site.pin
          && decide (min 8 (s.waysHeld part g - 1) ≤ pinsBefore (s.home.take p.2) p.1) then
        { p.1 with site := { p.1.site with pin := false } }
      else p.1 }

/-- The way a donor gives: its highest with no HOME=01 line and no uncommitted version in any set of the group. -/
def State.movableWay (s : State) (part g : Nat) : Option Nat :=
  (s.groupWays part g).reverse.find? fun w =>
    !(s.home.any fun h => h.site.slice / 48 == g && h.way == w && h.site.pin)
      && !(s.vers.any fun v => v.site.slice / 48 == g && v.way == w)

/-- A way of a slice group given to a context; the lines it held with no way of its own are released. -/
def State.giveWay (s : State) (g part w : Nat) : State :=
  let s1 := s.releaseLines ((s.home.filter fun h => h.site.slice / 48 == g && h.site.part == part && h.way == 16).map fun h =>
    (part, h.line))
  { s1 with slWays := spSet 0 (16 * g + w) (part + 1) s1.slWays }

/-- A way of a donor taken from it, its lines cleaned and dropped in every slice of the group. -/
def State.leaveWay (s : State) (g part w : Nat) : State :=
  let s1 := s.releaseLines (s.wayLines g w)
  { s1 with slWays := spSet 0 (16 * g + w) 0 s1.slWays }.unpinOver part g

/-- The way that moves: a free one, `pick` saying which, else the donor's. -/
def State.takeWay (s : State) (g pick : Nat) (r : Nat × Nat) : Option (Nat × State) :=
  match (s.freeWays g)[pick % (s.freeWays g).length]? with
  | some w => some (w, s)
  | none => (s.wayDonor g r.1).bind fun d =>
    if d.2 < r.2 then (s.movableWay d.1 g).map fun w => (w, s.leaveWay g d.1 w) else none

/-- WAY_MOVE, at the end of a period of 2^20 cycles: at most one way of a slice group moves, by the counts of its sampled sets, which
restart. -/
def State.wayMove (s : State) (g pick : Nat) : Option State :=
  if 64 ≤ g ∨ s.clock / 2 ^ 20 ≤ spGet 0 s.wayAt g then none
  else
    let moved := match (s.wayReceiver g).bind fun r => (s.takeWay g pick r).map fun t => (r.1, t) with
      | some (p, w, t) => t.giveWay g p w
      | none => s
    some { moved with
      wayAt := spSet 0 g (s.clock / 2 ^ 20) s.wayAt
      shHits := moved.shHits.filter fun h => h.1 / 1024 != g }

def execWayMove (group pick : Nat) (s : State) : Out State := runEvent s (s.wayMove group pick)

/-! ### Lost links (R339, R352) -/

/-- A producer whose reply a lost link was to bring is poisoned. -/
def Prod.lose (l : Link) (p : Prod) : Prod := match p.src with
  | .mem pa => if linkServes l pa then { p with poison := true } else p
  | _ => p

/-- Requests of a store buffer or queue that a link serves. -/
def Entry.onLink (l : Link) (e : Entry) : Bool :=
  !e.isRel && (match e.loc.cls with
    | .hostw | .pod => false
    | _ => true) && linkServes l e.loc.pa

/-- The requests under way to pod homes beyond a pod link are answered poisoned from where they stand, their stores and REDs dropped and
logged; what is on its way back is poisoned (R141, R339, R352). (DESIGN CHOICE, safe, log 25) -/
def State.losePod (s : State) (n : Nat) : State :=
  let hit := fun (r : PodReq) => s.podLink r.ia == some n
  let gone := (s.arrive ++ s.reqs).filter hit
  let s1 := (gone.flatMap fun r => s.dropped r true).foldl (fun t q => t.logAccess 4 q.part q.ia) s
  { s1 with
    arrive := s1.arrive.filter fun r => !hit r
    reqs := s1.reqs.filter fun r => !hit r
    replies := (s1.replies.map fun r => if hit r.req then { r with poison := true } else r)
      ++ gone.map fun r => { req := r, val := 0, poison := true, stage := r.at_.stage } }

/-- Every outstanding request for a range just lost completes as R339 gives. -/
def State.loseOutstanding (s : State) (l : Link) : State :=
  let gone := (s.sb ++ s.rq).filter (Entry.onLink l)
  let sent := s.linkWait.filter (Entry.onLink l)
  let s1 := { s with
    sb := s.sb.filter fun e => !e.onLink l, rq := s.rq.filter fun e => !e.onLink l
    linkWait := s.linkWait.filter fun e => !e.onLink l
    crews := s.crews.map fun (k : Crew) => { k with prods := k.prods.map (Prod.lose l) } }
  let s2 := sent.foldl (fun s e => (s.logError 4 e.loc.pa e.loc.ia).spoilHeld e) (gone.foldl State.loseEntry s1)
  match l with
  | .pod n => s2.losePod n
  | _ => s2

/-- The loss of a link's range logged: at its first PA, or for a pod link, whose homes have none here, at none (R340). -/
def State.logLoss (s : State) : Link → State
  | .cxl p => s.logError 5 (2 ^ 50 + p * 2 ^ 48) 0
  | .host _ => s.logError 5 (2 * 2 ^ 50) 0
  | .pod _ => s.logLink 5

def State.loseRange (s : State) (l : Link) : State :=
  if s.lost.contains l then s else ({ s with lost := s.lost ++ [l] }.logLoss l).loseOutstanding l

def State.linkDown (s : State) (l : Link) : Option State :=
  if s.down.contains l then none else some ({ s with down := s.down ++ [l] }.loseRange l)

def execLinkDown (link : Link) (s : State) : Out State := runEvent s (s.linkDown link)

/-- The clocks at which the requests outstanding on a link were sent. -/
def State.sentOn (s : State) (l : Link) : List Nat :=
  (s.linkWait.filter (Entry.onLink l)).map (·.born)
    ++ (s.crews.flatMap fun k => k.prods.filterMap fun p => match p.src with
      | .mem pa => if linkServes l pa then some p.born else none
      | _ => none)
    ++ s.podOut.filterMap fun r => if (s.podLink r.ia).any fun m => l == .pod m then some r.born else none

/-- A link's completion timeout in cycles of 1.7 GHz: 1 µs to 4 ms (R339, R352), 4 ms where firmware has set none (DESIGN CHOICE, unsafe,
log 4). -/
def Policy.timeout (p : Policy) (l : Link) : Nat :=
  1700 * match p.timeouts.find? fun t => t.1 == l with
    | some t => max 1 (min 4000 t.2)
    | none => 4000

/-- COMPLETION_TIMEOUT: a request has been outstanding for the timeout, and the range is lost though the link is up. -/
def State.timedOut (s : State) (l : Link) : Option State :=
  if s.lost.contains l || !(s.sentOn l).any fun b => decide (b + s.policy.timeout l ≤ s.clock) then none else some (s.loseRange l)

def execCompletionTimeout (link : Link) (s : State) : Out State := runEvent s (s.timedOut link)

/-- LOSTCLR: firmware clears the condition once the link has retrained. -/
def State.clearLost (s : State) (l : Link) : Option State :=
  if s.lost.contains l && !s.down.contains l then some { s with lost := s.lost.filter (· != l) } else none

def execLostclr (link : Link) (s : State) : Out State := runEvent s (s.clearLost link)

def State.retrained (s : State) (l : Link) : Option State :=
  if s.down.contains l then some { s with down := s.down.filter (· != l) } else none

def execLinkRetrained (link : Link) (s : State) : Out State := runEvent s (s.retrained link)

end Sys2Proof.Machine
end

