-- ==== Sys2Proof/Machine/HostSide.lean ====
section
/-! DEFINITION. What the host and the management function do to the package: the window, BAR4, the launch ring, flush, feature
negotiation, contexts, quadrant ownership, policy registers, firmware, attestation, reset and the module's limits (R26, R103,
R289, R292, R307-R310, R343-R351, R355). -/

namespace Sys2Proof.Machine

/-- A reply to the host or to the management function, by function number (R343). (DESIGN CHOICE, safe, log 63) -/
def State.reply (s : State) (fn : Nat) (bs : List Byte) : State := { s with reports := s.reports ++ [(fn, bs)] }

/-! ### The window and BAR4 (R103, R343) -/

/-- Where a function's window begins in the window SRAM, and its size: a context's slice, or the whole for the PF, written as context 16
(R343). -/
def State.windowSpan (s : State) (part : Nat) : Option (Nat × Nat) :=
  if part = 16 then some (0, 2 ^ 23) else (s.ctx? part).map fun c => (c.winBase, c.winSize)

/-- The function that a context number stands for, 16 being the PF. -/
def hostFn (part : Nat) : Nat := if part = 16 then 0 else part + 1

/-- A host write at HW(x), in one step; the words' old values are kept for fetches (R61). -/
def State.windowWrite (s : State) (off : Nat) (bs : List Byte) : State :=
  { s.ctxs.foldl (fun s c => s.noteOld c.part (windowWord 0) off bs.length fun a => leVal (s.hw.read a 4)) s with
    hw := s.hw.write off bs }

/-- HOST_WINDOW_ACCESS: a host read or write of a function's window, applied at HW(x). One beyond the window's end reads nothing and
writes nothing (DESIGN CHOICE, safe, log 63). -/
def State.windowAccess (s : State) (part off : Nat) (a : HostAccess) : Option State :=
  (s.windowSpan part).map fun w => match a with
    | .read n => s.reply (hostFn part) (if off + n ≤ w.2 then s.hw.read (w.1 + off) n else [])
    | .write bs => if off + bs.length ≤ w.2 then s.windowWrite (w.1 + off) bs else s

def execHostWindowAccess (part : Nat) (off : Nat) (data : HostAccess) (s : State) : Out State :=
  runEvent s (s.windowAccess part off data)

/-- The PA of one byte of a BAR4 access: a VF's address is an IA of its context, with every check of R298 at level U; the
PF's is a PA. -/
def State.bar4Byte (s : State) (fn a : Nat) (kind : Access) : Option Nat :=
  if fn = 0 then
    if bits a 51 50 = 0 ∧ (bits a 49 41 ≠ 0 ∨ 0x1680000000 ≤ a % 2 ^ 37 ∨ s.fence.hbm.contains (bits a 40 37)) then none
    else if bits a 51 50 = 3 ∨ s.lostPa a then none
    else some (a % 2 ^ 52)
  else (s.ctx? (fn - 1)).bind fun c => match s.pageCheck c .u kind .dev 0 (a % 2 ^ 52) 0 with
    | .ok l => some l.pa
    | .error _ => none

/-- The PAs of an access's bytes; none where it is refused. -/
def State.bar4Bytes (s : State) (fn addr : Nat) (kind : Access) : Nat → Option (List Nat)
  | 0 => some []
  | n + 1 => match s.bar4Bytes fn addr kind n, s.bar4Byte fn (addr + n) kind with
    | some l, some pa => some (l ++ [pa])
    | _, _ => none

/-- The context whose requests a function's accesses are, 16 for the PF's. -/
def fnContext (fn : Nat) : Nat := if fn = 0 then 16 else fn - 1

/-- The sectors of some bytes. -/
def sectorsOf (l : List Nat) : List Nat := (l.map sectorOf).eraseDups

/-- A refused access: an unsupported request, which is an empty reply, and logged. The record's type is not given: a dropped store's
(DESIGN CHOICE, unsafe, log 18). -/
def State.refuseHost (s : State) (fn addr : Nat) : State :=
  (if fn = 0 then s.logError 4 addr 0 else s.logAccess 4 (fn - 1) addr).reply fn []

/-- A host write of bytes at M(x). -/
def State.hostStore (s : State) (fn : Nat) (l : List (Nat × Byte)) : State :=
  let s1 := (sectorsOf (l.map (·.1))).foldl (fun s sec => (s.activate (fnContext fn) sec).staleImages (64 * sec)) s
  l.foldl (fun s p =>
    { s.ctxs.foldl (fun s c => s.noteOld c.part 0 p.1 1 fun a => leVal (s.mem.read a 4)) s with mem := s.mem.set p.1 p.2 }) s1

/-- A VF's access counted for the pages of its context that it touches (R326, R338). -/
def State.countBar4 (s : State) (fn addr n : Nat) : State :=
  if fn = 0 then s
  else match s.ctx? (fn - 1) with
    | none => s
    | some c => ([addr, addr + n - 1].map (· / 65536)).eraseDups.foldl (fun s g =>
        let ia := g * 65536 % 2 ^ 52
        match s.leaf? c ia with
        | some e => s.countHit c.part (locOf c.part .dev 0 ia e.1 e.2 0)
        | none => s) s

/-- Must an access of a function wait for the row of one of its bytes (R283)? -/
def State.hostWaits (s : State) (fn : Nat) (l : List Nat) : Bool := (sectorsOf l).any fun sec => s.rowWaits (fnContext fn) sec

/-- The oldest posted write of a function completes at M(x). -/
def State.completeOne (s : State) (fn : Nat) : Option State :=
  (s.posted.find? fun p => p.fn == fn).bind fun p =>
    if s.hostWaits fn (p.bytes.map (·.1)) then none
    else some ({ s with posted := dropFirst (fun q => q.fn == fn) s.posted }.hostStore fn p.bytes)

/-- At most `n` posted writes of a function complete, in order; none where one of them waits. -/
def State.completePosted (s : State) (fn : Nat) : Nat → Option State
  | 0 => some s
  | n + 1 => if s.posted.any fun p => p.fn == fn then (s.completeOne fn).bind fun t => t.completePosted fn n else some s

/-- A byte as a read finds it: what the port has read ahead, where it still gives that, or M(x) (R348). -/
def State.hostByte (s : State) (fn addr pa : Nat) : Byte :=
  match s.ahead.find? fun b => b.fn == fn && b.addr == addr with
  | some b => if Config.freeBool s.fresh addr then b.byte else s.mem.get pa
  | none => s.mem.get pa

/-- What the port keeps of a read, and of the 128 bytes after it, if it reads ahead (R348). -/
def State.readAhead (s : State) (fn addr n : Nat) : State :=
  if Config.freeBool s.fresh (2 ^ 58 + 2) then s
  else
    { s with
      ahead := ((List.range (n + 128)).filterMap fun k => (s.bar4Byte fn (addr + k) .load).map fun pa =>
          ({ fn := fn, addr := addr + k, byte := s.mem.get pa } : AheadByte))
        ++ s.ahead.filter fun b => !(b.fn == fn && decide (addr ≤ b.addr) && decide (b.addr < addr + n + 128)) }

/-- A host write through BAR4: it may stay posted, behind the earlier ones of its function (R348). -/
def State.bar4Write (s : State) (fn : Nat) (l : List (Nat × Byte)) : Option State :=
  if (s.posted.any fun p => p.fn == fn) || Config.freeBool s.fresh (2 ^ 58) then
    some { s with posted := s.posted ++ [{ fn := fn, bytes := l }] }
  else if s.hostWaits fn (l.map (·.1)) then none
  else some (s.hostStore fn l)

/-- A host read through BAR4, which may find writes of its function that are still posted (R348). -/
def State.bar4Read (s : State) (fn addr : Nat) (l : List Nat) : Option State :=
  (if Config.freeBool s.fresh (2 ^ 58 + 1) then some s else s.completePosted fn s.posted.length).bind fun s1 =>
    if s1.hostWaits fn l then none
    else
      let s2 := (sectorsOf l).foldl (fun s sec => s.activate (fnContext fn) sec) s1
      some ((s2.reply fn (l.zipIdx.map fun p => s1.hostByte fn (addr + p.2) p.1)).readAhead fn addr l.length)

/-- BAR4_ACCESS: never cached, at M(x), once no row throttle holds it (R283). A write of no bytes names the completion of the oldest
posted write. What stays posted and what is read ahead is free (R348; DESIGN CHOICE, safe, log 63). -/
def State.bar4 (s : State) (fn addr : Nat) : HostAccess → Option State
  | .write [] => s.completeOne fn
  | .write bs => match s.bar4Bytes fn addr .store bs.length with
    | none => some (s.refuseHost fn addr)
    | some l => (s.countBar4 fn addr bs.length).bar4Write fn (l.zip bs)
  | .read n => match s.bar4Bytes fn addr .load n with
    | none => some (s.refuseHost fn addr)
    | some l => (s.countBar4 fn addr n).bar4Read fn addr l

def execBar4Access (fn : Nat) (addr : Nat) (data : HostAccess) (s : State) : Out State :=
  runEvent s (if fn ≤ 16 then s.bar4 fn addr data else none)

/-! ### The launch ring (R344, R345) -/

/-- LTAIL: the tail moves forward without reaching the head, or the write is refused with OVR. -/
def HostFn.writeTail (h : HostFn) (v : Nat) : HostFn :=
  let t := v % 64
  if (h.ltail + 64 - h.lhead) % 64 ≤ (t + 64 - h.lhead) % 64 then { h with ltail := t, ovr := false } else { h with ovr := true }

def execLtail (fn : Nat) (value : BitVec 64) (s : State) : Out State :=
  runEvent s (if fn ≤ 16 then some (s.setFn fn ((s.fn fn).writeTail value.toNat)) else none)

/-- The context and level of a function's launch port. -/
def portContext (fn : Nat) : Nat := if fn = 0 then Config.pfContext else fn - 1
def portLevel (fn : Nat) : Level := if fn = 0 then .f else .t

/-- Does a slot stand between LHEAD and LTAIL? -/
def HostFn.unread (h : HostFn) (slot : Nat) : Bool := decide ((slot + 64 - h.lhead) % 64 < (h.ltail + 64 - h.lhead) % 64)

/-- A word of the launch ring written; a word of an unread record leaves its old value to be read (R345). -/
def HostFn.putWord (h : HostFn) (slot word : Nat) (v : Word64) : HostFn :=
  let n := 16 * slot + word
  { h with
    lrec := spSet 0 n v h.lrec
    lold := if h.unread slot then h.lold ++ [(n, spGet 0 h.lrec n)] else h.lold }

/-- A word of a record as the device reads it: the one there, or one that was written over while the record was unread. -/
def HostFn.recordWord (h : HostFn) (fresh n : Nat) : Word64 :=
  match (h.lold.filter fun p => p.1 == n).map (·.2) with
  | [] => spGet 0 h.lrec n
  | old => (pickFree fresh n (spGet 0 h.lrec n :: old)).getD 0

/-- The record in a slot. -/
def HostFn.record (h : HostFn) (fresh slot : Nat) : LaunchRec :=
  parseRec ((List.range 16).flatMap fun w => leBytes 8 (h.recordWord fresh (16 * slot + w)).toNat)

/-- LSTAT of a slot with V = 1, and the head moved on. -/
def HostFn.finishSlot (h : HostFn) (v : Nat) (accepted : Bool) : HostFn :=
  { h with
    lstat := spSet 0 h.lhead (BitVec.ofNat 64 (2 ^ 63 + v)) h.lstat, lhead := (h.lhead + 1) % 64
    lold := h.lold.filter fun p => p.1 / 16 != h.lhead
    lock := h.lock || accepted }

/-- LSTAT.V of a slot cleared. -/
def HostFn.openSlot (h : HostFn) (slot : Nat) : HostFn :=
  { h with lstat := spSet 0 slot (BitVec.ofNat 64 ((spGet 0 h.lstat slot).toNat % 2 ^ 63)) h.lstat }

/-- LAUNCH_SLOT_PROCESS: the checks and the queuing of LAUNCH for the slot at LHEAD; LSTAT.V reads 0 while the invalidation waits for an
engine. -/
def State.launchSlot (s : State) (fn : Nat) : Option State :=
  let h := s.fn fn
  if 16 < fn ∨ h.lhead = h.ltail then none
  else
    let r := h.record s.fresh h.lhead
    let part := portContext fn
    match s.checkLaunch part (portLevel fn) r with
    | .error e => some (s.setFn fn (h.finishSlot e false))
    | .ok l => match s.invalidateRange part r.invBase r.invLen with
      | none => if (spGet 0 h.lstat h.lhead).toNat < 2 ^ 63 then none else some (s.setFn fn (h.openSlot h.lhead))
      | some t => some ((t.queueLaunch part l).setFn fn (h.finishSlot l.id true))

def execLaunchSlotProcess (fn : Nat) (s : State) : Out State := runEvent s (s.launchSlot fn)

/-! ### Flush, features, function reset (R347, R348) -/

def execFlGo (fn : Nat) (s : State) : Out State :=
  runEvent s (if fn ≤ 16 then some (s.setFn fn { s.fn fn with busy := true }) else none)

/-- FLUSH_COMPLETE: every earlier host write of the function has completed, and the port's read-ahead data of the range is discarded. -/
def State.flush (s : State) (fn : Nat) : Option State :=
  let h := s.fn fn
  if h.busy then
    (s.completePosted fn s.posted.length).map fun t =>
      { t.setFn fn { h with busy := false } with
        ahead := t.ahead.filter fun b =>
          !(b.fn == fn && decide (h.flBase.toNat ≤ b.addr) && decide (b.addr < h.flBase.toNat + h.flLen.toNat)) }
  else none

def execFlushComplete (fn : Nat) (s : State) : Out State := runEvent s (s.flush fn)

/-- FEAT_ACCEPT: bits outside the offer are cleared; ignored while LOCK is set. -/
def execFeatAccept (fn : Nat) (value : BitVec 256) (s : State) : Out State :=
  runEvent s (if 16 < fn then none
    else if (s.fn fn).lock then some s
    else some (s.setFn fn { s.fn fn with accept := value &&& Config.featOffer &&& 0x7F }))

def execFunctionReset (fn : Nat) (s : State) : Out State :=
  runEvent s (if fn ≤ 16 then some (s.setFn fn { s.fn fn with lock := false }) else none)

/-! ### Contexts and quadrants (R289, R292, R307) -/

/-- Free ways given to a context up to its FLOOR (R307). -/
def State.fillFloor (s : State) (part g : Nat) : State :=
  match s.ctx? part with
  | none => s
  | some c => ((s.freeWays g).take (c.wayFloor g - s.waysHeld part g)).foldl (fun s w => s.giveWay g part w) s

def State.createContext (s : State) (part : Nat) : Option State :=
  if 16 ≤ part ∨ (s.ctx? part).isSome then none
  else
    some ((List.range 64).foldl (fun s g => s.fillFloor part g)
      { s with ctxs := s.ctxs ++ [{ Context.reset part with quantumAt := s.clock }] })

def execContextCreate (part : Nat) (s : State) : Out State := runEvent s (s.createContext part)

/-- Does a crew live on a global quadrant: by a flock, by its scratch, or as the holder of the matrix unit (R213)? -/
def State.quadLives (s : State) (gq : Nat) : Bool :=
  (s.unit gq).holder.isSome || s.crews.any fun k => k.core == gq / 4 && ((k.live.flocks.any fun f => f.quad == gq % 4)
    || decide (k.base < (gq % 4 + 1) * 2 ^ 18 && gq % 4 * 2 ^ 18 < k.limit))

/-- The lines that the evictions of R292 write are cleared (R240). -/
def State.clearQuads (s : State) (gqs : List Nat) : Except (Option State) State :=
  s.clearArea (s.evictTo (gqs.flatMap fun gq => (s.unit gq).detached (List.range 8))) none

/-- R292, steps 2 to 4: pinned tiles evicted, the unit as new, the bank group's L1 copies dropped, the core's forwarding
entries of the old owner dropped, the way mask as at reset. Lodged state has moved to the save area. -/
def State.cleanQuad (s : State) (old : Option Nat) (gq : Nat) : State :=
  let s1 := ((s.unit gq).detached (List.range 8)).foldl (fun s k => s.evictPin k.1 k.2) s
  { s1.setUnit (MUnit.empty gq) with
    l1 := s1.l1.filter fun c => !(c.core == gq / 4 && c.group == gq % 4)
    fwd := s1.fwd.filter fun f => !(f.core == gq / 4 && some f.part == old)
    ways := spSet 0xFF00 gq 0xFF00 s1.ways
    lodged := s1.lodged.filter fun p => p.1 != gq }

/-- Set or clear a quadrant's bit in QOWN. -/
def Context.setOwn (c : Context) (gq : Nat) (b : Bool) : Context :=
  c.setReg (snQown + gq / 64) (setBit (c.reg (snQown + gq / 64)) (gq % 64) b)

/-- A context that owns a quadrant has FLOOR at least 1 in every slice group, as far as the others' floors leave room.
(DEDUCED, unsafe, log 60) -/
def State.raiseFloors (s : State) (part : Nat) : State :=
  (List.range 64).foldl (fun s g =>
    match s.ctx? part with
    | none => s
    | some c =>
      let others := s.ctxs.foldl (fun n d => if d.part = part then n else n + d.wayFloor g) 0
      let f := min (max 1 (c.wayFloor g)) (16 - others)
      (s.updCtx part fun c => c.setReg (snSlway + g)
        (BitVec.ofNat 64 (f * 2 ^ 8 + max f (c.wayCeil g) * 2 ^ 16))).fillFloor part g) s

/-- QOWN: the quadrants to gain and to give up; each changes hands by QUADRANT_HANDOVER. A fenced quadrant is never owned
(R26). -/
def State.writeQown (s : State) (part word v : Nat) : Option State :=
  (s.ctx? part).bind fun c =>
    if 32 ≤ word then none
    else
      let todo := ((List.range 64).map fun b => 64 * word + b).filter fun gq =>
        bitAt v (gq % 64) != c.owns gq && !(s.fence.quads.contains gq) && !(s.fence.cores.contains (gq / 4))
      some (s.updCtx part fun c => { c with handover := (c.handover.filter fun g => g / 64 != word) ++ todo })

def execQown (part word : Nat) (value : BitVec 64) (s : State) : Out State := runEvent s (s.writeQown part word value.toNat)

/-- The context that is to have a quadrant: one that gains it, else its owner, who gives it up. -/
def State.heir (s : State) (gq : Nat) : Option Context :=
  match s.ctxs.find? fun c => c.handover.contains gq && !c.owns gq with
  | some c => some c
  | none => s.ctxs.find? fun c => c.handover.contains gq

/-- A quadrant counted as the heir's, and no longer as the old owner's, whose own write of it is done with. -/
def State.passQuad (s : State) (old : Option Nat) (heir gq : Nat) : State :=
  let s1 := match old with
    | some o => s.updCtx o fun d => { d.setOwn gq false with handover := d.handover.filter (· != gq) }
    | none => s
  let s2 := s1.updCtx heir fun d => { d.setOwn gq (old != some heir) with handover := d.handover.filter (· != gq) }
  if old != some heir then s2.raiseFloors heir else s2

/-- QUADRANT_HANDOVER: once no crew of the old owner lives on the quadrant, it is cleaned and changes hands. -/
def State.handover (s : State) (gq : Nat) : Option State :=
  (s.heir gq).bind fun c =>
    let old := (s.ctxs.find? fun d => d.owns gq).map (·.part)
    if old.isSome && s.quadLives gq then none
    else match s.clearQuads [gq] with
      | .error o => o
      | .ok s1 => some ((s1.cleanQuad old gq).passQuad old c.part gq)

def execQuadrantHandover (gquad : Nat) (s : State) : Out State := runEvent s (s.handover gquad)

/-- A context's slice ways freed, its lines cleaned to memory and dropped. -/
def State.freeContextWays (s : State) (part : Nat) : State :=
  let s1 := s.releaseLines ((s.home.filter fun h => h.site.part == part).map fun h => (part, h.line))
  { s1 with slWays := s1.slWays.filter fun w => w.2 != part + 1 }

/-! ### Frames and window slices that change hands (R297, R299, R311) -/

/-- Does a frame hold the PA? -/
def inFrame (f pa : Nat) : Bool := pa / 65536 == f

/-- Does the page of a leaf hold the frame? -/
def leafHolds (e level f : Nat) : Bool := bits e 51 16 / 2 ^ (pageBits level - 16) == f / 2 ^ (pageBits level - 16)

/-- Does an engine operation reach a frame by a line it owns, or move a page of at most 1 GiB into it? -/
def Engine.onFrame (e : Engine) (f : Nat) : Bool :=
  (e.owned.any fun l => inFrame f (128 * l)) || match e.job with
    | .migrate _ _ new _ => decide (new / 65536 ≤ f) && decide (f < new / 65536 + 2 ^ 14)
    | _ => false

/-- Is a request of a context for a frame under way: a store, an atomic, a write at a link, a posted host write, or an engine's? -/
def State.frameBusy (s : State) (part f : Nat) : Bool :=
  ((s.sb ++ s.rq ++ s.linkWait).any fun e => e.part == part && !e.isRel && inFrame f e.loc.pa)
    || (s.crews.any fun k => k.part == part && k.live.flocks.any fun x => x.batches.any fun b => match b.wait with
      | .atomic w => w.todo.any fun r => inFrame f r.loc.pa
      | _ => false)
    || (s.posted.any fun p => p.bytes.any fun b => inFrame f b.1)
    || s.engines.any fun e => e.part == part && e.onFrame f

/-- A frame cleaned as it leaves its context: dirty lines are written back and every copy and translation dropped, so that nothing of the
context reaches it again; then it is written with zeros, as the next context may see no value and no poison of this one (R311).
(DESIGN CHOICE, safe, log 88) -/
def State.cleanFrame (s : State) (part f : Nat) : State :=
  let s1 := s.releaseLines ((s.home.filter fun h => h.site.part == part && inFrame f (128 * h.line)).map fun h => (part, h.line))
  { s1 with
    mem := s1.mem.splice (65536 * f) 65536 []
    poison := s1.poison.filter fun sec => !inFrame f (64 * sec)
    l1 := s1.l1.filter fun c => !(c.part == part && inFrame f (128 * c.line))
    tlb := s1.tlb.filter fun t => !(t.part == part && leafHolds t.leaf t.level f)
    icache := s1.icache.filter fun w => !(w.part == part && inFrame f w.pa)
    ahead := s1.ahead.filter fun b => b.fn != part + 1 && !(b.fn == 0 && inFrame f b.addr)
    clean := s1.clean.filter fun i => !(i.part == part && ((decide (i.old / 65536 ≤ f) && decide (f < (i.old + i.size) / 65536))
      || (decide (i.new / 65536 ≤ f) && decide (f < (i.new + i.size) / 65536)))) }

/-- The bytes and poison of the window that a slice gives up (R311; DESIGN CHOICE, safe, log 88). -/
def State.cleanWindow (s : State) (gone : Nat → Bool) : State :=
  { s with hw := s.hw.filter fun c => !gone c.1, hwBad := s.hwBad.filter fun sec => !gone (64 * sec) }

/-- Does a window slice hold an offset? -/
def inSlice (base size off : Nat) : Bool := decide (base ≤ off) && decide (off < base + size)

/-- CONTEXT_DESTROY: with no crew and no engine operation left, its quadrants are handed back, and its ways and frames are free. -/
def State.destroyContext (s : State) (part : Nat) : Option State :=
  (s.ctx? part).bind fun c =>
    if (s.crews.any fun k => k.part == part) || (s.engines.any fun e => e.part == part)
      || ((s.sb ++ s.rq ++ s.linkWait).any fun e => e.part == part) || c.frames.any (s.frameBusy part)
      || s.posted.any fun p => p.fn == part + 1 then none
    else match s.clearQuads ((List.range 2048).filter c.owns) with
    | .error o => o
    | .ok s0 =>
      let s1 := (((List.range 2048).filter c.owns).foldl (fun s gq => s.cleanQuad (some part) gq) s0).freeContextWays part
      let s2 := (c.frames.foldl (fun s f => s.cleanFrame part f) s1).cleanWindow (inSlice c.winBase c.winSize)
      some { s2 with
        icache := s2.icache.filter fun f => f.part != part
        ctxs := s2.ctxs.filter fun d => d.part != part
        l1 := s2.l1.filter fun x => x.part != part
        tlb := s2.tlb.filter fun t => t.part != part
        fwd := s2.fwd.filter fun f => f.part != part
        hits := s2.hits.filter fun h => h.1 / 2 ^ 36 != part
        ahead := s2.ahead.filter fun b => b.fn != part + 1
        shTags := s2.shTags.filter fun t => t.1 % 32 != part
        shHits := s2.shHits.filter fun t => t.1 / 32 % 32 != part
        errlog := s2.errlog.map fun (r : ErrRec) => if r.ctx == some part then { r with ctx := none, ia := 0 } else r
        clean := s2.clean.filter fun i => i.part != part
        lodged := s2.lodged.filter fun p => p.2 != part }

def execContextDestroy (part : Nat) (s : State) : Out State := runEvent s (s.destroyContext part)

/-! ### Registers of the control space and of the management function (R306-R310, R344, R349) -/

/-- A share lowered to what the other contexts leave. -/
def State.leftOver (s : State) (part total : Nat) (share : Context → Nat) : Nat :=
  total - s.ctxs.foldl (fun n d => if d.part = part then n else n + share d) 0

def State.putReg (s : State) (part sn v : Nat) : State := s.updCtx part fun c => c.setReg sn (BitVec.ofNat 64 v)

/-- SLWAY (R307). -/
def State.writeSlway (s : State) (part g v : Nat) : State :=
  match s.ctx? part with
  | none => s
  | some c =>
    let owns := (List.range 32).any fun w => c.reg (snQown + w) != 0
    let f := min (if owns then max 1 (bits v 12 8) else bits v 12 8) (s.leftOver part 16 fun d => d.wayFloor g)
    (s.putReg part (snSlway + g) (f * 2 ^ 8 + min 16 (max f (bits v 20 16)) * 2 ^ 16)).fillFloor part g

/-- BWSH (R309), whose WT of 0 is kept and counts as 1; OXSH (R310), LQ (R265). -/
def State.writeBwsh (s : State) (part n v : Nat) : State :=
  let f := min (bits v 7 0) (s.leftOver part 240 fun d => bits (d.reg (snBwsh + n)).toNat 7 0)
  s.putReg part (snBwsh + n) (f + bits v 15 8 * 2 ^ 8)

def State.writeOxsh (s : State) (part v : Nat) : State :=
  let b := min (bits v 31 8) (s.leftOver part 65536 fun d => bits (d.reg snOxsh).toNat 31 8)
  s.putReg part snOxsh (min 64 (bits v 6 0) + b * 2 ^ 8)

def State.writeLq (s : State) (part q v : Nat) : State :=
  s.putReg part (snLq + q) (bits v 2 0 + max 1 (bits v 15 8) * 2 ^ 8 + max (2 ^ 16) (min (2 ^ 30) (bits v 47 16)) * 2 ^ 16)

/-- A context's window slice: multiples of 64 KiB, inside the window, disjoint from the others' (R344). -/
def State.windowOk (s : State) (part base size : Nat) : Bool :=
  base % 65536 == 0 && size % 65536 == 0 && decide (base + size ≤ 2 ^ 23)
    && s.ctxs.all fun d => d.part == part || d.winSize == 0 || size == 0
      || decide (base + size ≤ d.winBase) || decide (d.winBase + d.winSize ≤ base)

def State.writeWindow (s : State) (part base size : Nat) : State :=
  match s.ctx? part with
  | none => s
  | some c =>
    if s.windowOk part base size then
      (s.cleanWindow fun off => inSlice c.winBase c.winSize off && !inSlice base size off).updCtx part fun c =>
        { c with winBase := base, winSize := size }
    else s

/-- A grant window: base and limit by index, 0 to 3. -/
def setGrant (l : List (Nat × Nat × Nat)) (i : Nat) (f : Nat × Nat → Nat × Nat) : List (Nat × Nat × Nat) :=
  let old := match l.find? fun g => g.1 == i with
    | some g => g.2
    | none => (0, 0)
  if 4 ≤ i then l else (l.filter fun g => g.1 != i) ++ [(i, f old)]

/-- Is a frame in the memory plan: HBM of a stack that is not fenced (R26, R297)? -/
def State.inPlan (s : State) (f : Nat) : Bool :=
  decide (f < 2 ^ 25) && decide (65536 * f % 2 ^ 37 < 0x1680000000) && !s.fence.hbm.contains (65536 * f / 2 ^ 37)

/-- A frame assigned to a context, if it is in the memory plan and no context has it (R26, R297); or taken from it. -/
def State.assignFrame (s : State) (part f : Nat) : State :=
  if !s.inPlan f || s.ctxs.any fun d => d.frames.contains f then s
  else s.updCtx part fun c => { c with frames := insertAsc f c.frames, freeFrames := c.freeFrames ++ [f] }

/-- A frame taken from a context, once no request of it for the frame is under way and no version of a line of it is uncommitted; the
checkpoints that this awaits are asked for (R299; DESIGN CHOICE, safe, log 88). -/
def State.releaseFrame (s : State) (part f : Nat) : Option State :=
  if !(s.ctx? part).any fun c => c.frames.contains f then some s
  else if s.vers.any fun v => v.site.part == part && inFrame f (128 * v.line) then s.askHolders part (65536 * f) 65536
  else if s.frameBusy part f then none
  else some ((s.cleanFrame part f).updCtx part fun c => { c with
    frames := c.frames.filter (· != f), freeFrames := c.freeFrames.filter (· != f), poolFrames := c.poolFrames.filter (· != f) })

/-- A frame of a context moved to its uncompressed pool (R338). -/
def State.poolFrame (s : State) (part f : Nat) : State :=
  s.updCtx part fun c =>
    if c.freeFrames.contains f then { c with freeFrames := c.freeFrames.filter (· != f), poolFrames := c.poolFrames ++ [f] } else c

def State.onPolicy (s : State) (f : Policy → Policy) : State := { s with policy := f s.policy }

/-- A write of a register that takes effect at once: it takes its value, limited as its rule gives. What a write of SR.PKG or
SR.NPKG outside a pod's numbers does is not given: SR.PKG takes what is written, SR.NPKG the nearest number of packages a pod
can have (R21, R349, R352; DESIGN CHOICE, unsafe, log 76). -/
def State.writeMgmt (s : State) (r : MgmtReg) (v : Nat) : State :=
  match r with
  | .flBase fn => if fn ≤ 16 then s.setFn fn { s.fn fn with flBase := BitVec.ofNat 64 (bits v 51 0) } else s
  | .flLen fn => if fn ≤ 16 then s.setFn fn { s.fn fn with flLen := BitVec.ofNat 64 v } else s
  | .lrec fn slot word =>
    if fn ≤ 16 ∧ slot < 64 ∧ word < 16 then
      s.setFn fn ((s.fn fn).putWord slot word (BitVec.ofNat 64 v))
    else s
  | .slway ctx g => if g < 64 then s.writeSlway ctx g v else s
  | .bwsh ctx n => if n < 16 then s.writeBwsh ctx n v else s
  | .oxsh ctx => s.writeOxsh ctx v
  | .prio ctx => s.putReg ctx snPrio (bits v 2 0)
  | .lq ctx q => if q < 64 then s.writeLq ctx q v else s
  | .winBase ctx => s.writeWindow ctx v (((s.ctx? ctx).map (·.winSize)).getD 0)
  | .winSize ctx => s.writeWindow ctx (((s.ctx? ctx).map (·.winBase)).getD 0) v
  | .cxlGrantBase ctx i => s.updCtx ctx fun c => { c with cxlGrants := setGrant c.cxlGrants i fun g => (v, g.2) }
  | .cxlGrantLimit ctx i => s.updCtx ctx fun c => { c with cxlGrants := setGrant c.cxlGrants i fun g => (g.1, v) }
  | .hostGrantBase ctx i => s.updCtx ctx fun c => { c with hostGrants := setGrant c.hostGrants i fun g => (v, g.2) }
  | .hostGrantLimit ctx i => s.updCtx ctx fun c => { c with hostGrants := setGrant c.hostGrants i fun g => (g.1, v) }
  | .assignFrame ctx => s.assignFrame ctx v
  | .releaseFrame _ => s
  | .poolFrame ctx => s.poolFrame ctx v
  | .saveArea ctx => s.updCtx ctx fun c => { c with saveArea := v }
  | .interval ctx => s.updCtx ctx fun c => { c with interval := max 1024 (min 4194304 v) }
  | .quantum ctx => s.updCtx ctx fun c => { c with quantum := max (2 ^ 16) (min (2 ^ 32) v), quantumAt := s.clock }
  | .tokens die => if die < 8 then { s with tokens := spSet 1 die (max 1 (min (s.thermalLimit die) v)) s.tokens } else s
  | .actMax => s.onPolicy fun p => { p with actMax := max 512 (min 8192 v) }
  | .migThreshold => s.onPolicy fun p => { p with migThreshold := max 16 (min 65536 v) }
  | .scrubThreshold n => s.onPolicy fun p => { p with scrubThreshold := spSet 25 n (max 5 (min 95 v)) p.scrubThreshold }
  | .scrubPeriod n => s.onPolicy fun p => { p with scrubPeriod := spSet 0 n (max 1 (min 168 v)) p.scrubPeriod }
  | .timeout l => s.onPolicy fun p =>
      { p with timeouts := (p.timeouts.filter fun t => t.1 != l) ++ [(l, max 1 (min 4000 v))] }
  | .enginePkr key => if key < 32 then s.onPolicy fun p => { p with enginePkr := spSet 0 key (bits v 1 0) p.enginePkr } else s
  | .breakHalt ctx => s.updCtx ctx fun c => { c with breakHalt := bitAt v 0 }
  | .pkg => { s with pkg := v }
  | .npkg => { s with npkg := max 1 (min 786432 v) }
  | .publicKey ctx => s.updCtx ctx fun c => { c with key := some (BitVec.ofNat 64 v) }
  | .reserved _ => s

/-- MANAGEMENT_REGISTER_WRITE: a frame's release may have to wait. -/
def State.mgmtWrite (s : State) (r : MgmtReg) (v : Nat) : Option State :=
  match r with
  | .releaseFrame ctx => s.releaseFrame ctx v
  | _ => some (s.writeMgmt r v)

def execManagementRegisterWrite (reg : MgmtReg) (value : BitVec 64) (s : State) : Out State :=
  runEvent s (s.mgmtWrite reg value.toNat)

/-! ### Reads of the control space (R344) -/

/-- The fence map as it stands at 0x0400-0x06C7 of the control space. -/
def bitmapBytes (ns : List Nat) (bytes : Nat) : List Byte :=
  (List.range bytes).map fun i => BitVec.ofNat 8 ((List.range 8).foldl (fun v b => if ns.contains (8 * i + b) then v + 2 ^ b else v) 0)
def fenceBytes (f : FenceMap) : List Byte :=
  bitmapBytes f.cores 64 ++ bitmapBytes f.quads 256 ++ bitmapBytes f.slices 384 ++ bitmapBytes f.hbm 8

/-- FSTAT. -/
def HostFn.status (h : HostFn) : Nat := (if h.lock then 1 else 0) + (if h.ovr then 2 else 0)

/-- A register of a context, read. -/
def State.ctxValue (s : State) (part : Nat) (f : Context → Nat) : Nat := ((s.ctx? part).map f).getD 0

/-- A grant window's base or limit. -/
def grantValue (l : List (Nat × Nat × Nat)) (i : Nat) (f : Nat × Nat → Nat) : Nat := ((l.find? fun g => g.1 == i).map fun g => f g.2).getD 0

/-- What a management register reads: the value in force; the frame registers, by which frames are named as they are given and taken, read
0 (DESIGN CHOICE, safe, log 63). -/
def State.mgmtValue (s : State) : MgmtReg → Nat
  | .flBase fn => (s.fn fn).flBase.toNat
  | .flLen fn => (s.fn fn).flLen.toNat
  | .lrec fn slot word => (spGet 0 (s.fn fn).lrec (16 * slot + word)).toNat
  | .slway ctx g => s.ctxValue ctx fun c => (c.reg (snSlway + g)).toNat + s.waysHeld ctx g
  | .bwsh ctx n => s.ctxValue ctx fun c => (c.reg (snBwsh + n)).toNat
  | .oxsh ctx => s.ctxValue ctx fun c => (c.reg snOxsh).toNat
  | .prio ctx => s.ctxValue ctx fun c => (c.reg snPrio).toNat
  | .lq ctx q => s.ctxValue ctx fun c => (c.reg (snLq + q)).toNat
  | .winBase ctx => s.ctxValue ctx (·.winBase)
  | .winSize ctx => s.ctxValue ctx (·.winSize)
  | .cxlGrantBase ctx i => s.ctxValue ctx fun c => grantValue c.cxlGrants i (·.1)
  | .cxlGrantLimit ctx i => s.ctxValue ctx fun c => grantValue c.cxlGrants i (·.2)
  | .hostGrantBase ctx i => s.ctxValue ctx fun c => grantValue c.hostGrants i (·.1)
  | .hostGrantLimit ctx i => s.ctxValue ctx fun c => grantValue c.hostGrants i (·.2)
  | .assignFrame _ | .releaseFrame _ | .poolFrame _ => 0
  | .saveArea ctx => s.ctxValue ctx (·.saveArea)
  | .interval ctx => s.ctxValue ctx Context.intervalLen
  | .quantum ctx => s.ctxValue ctx Context.quantumLen
  | .tokens die => s.tokenCount die
  | .actMax => s.policy.actMax
  | .migThreshold => s.policy.migThreshold
  | .scrubThreshold n => spGet 25 s.policy.scrubThreshold n
  | .scrubPeriod n => s.scrubPeriod n / 6120000000000
  | .timeout l => s.policy.timeout l / 1700
  | .enginePkr key => spGet 0 s.policy.enginePkr key
  | .breakHalt ctx => s.ctxValue ctx fun c => if c.breakHalt then 1 else 0
  | .pkg => s.pkg
  | .npkg => s.npkg
  | .publicKey ctx => s.ctxValue ctx fun c => (c.key.map (·.toNat)).getD 0
  | .reserved _ => 0

/-- A word of the PF's management space, by its offset in words. -/
def State.mgmtWord (s : State) (word : Nat) : Nat :=
  match Config.mgmtAt word with
  | none => 0
  | some (.reg r) => s.mgmtValue r
  | some (.context ctx) => if (s.ctx? ctx).isSome then 1 else 0
  | some (.qown ctx w) => s.ctxValue ctx fun c => (c.reg (snQown + w)).toNat
  | some (.lost l) => if s.lost.contains l then 1 else 0
  | some .fwMailbox => s.policy.mailbox
  | some (.attMailbox w) => match (s.reports.filter fun r => r.1 == 0 && r.2.length == 4883).getLast? with
    | some r => leVal ((r.2.drop (8 * w)).take 8)
    | none => 0

/-- The byte at an offset of a function's control space as a host read finds it: FL_GO, which is write-only, and an offset that names
nothing read 0 (R3, R6). -/
def State.bar0Byte (s : State) (fn off : Nat) : Byte :=
  let h := s.fn fn
  let of := fun (base v : Nat) => BitVec.ofNat 8 (v / 256 ^ (off - base))
  if off < 0x20 then of 0 (Config.featOffer &&& 0x7F).toNat
  else if off < 0x40 then of 0x20 h.accept.toNat
  else if off < 0x48 then of 0x40 h.status
  else if 0x100 ≤ off ∧ off < 0x104 then of 0x100 h.ltail
  else if 0x104 ≤ off ∧ off < 0x108 then of 0x104 h.lhead
  else if 0x200 ≤ off ∧ off < 0x208 then of 0x200 h.flBase.toNat
  else if 0x208 ≤ off ∧ off < 0x210 then of 0x208 h.flLen.toNat
  else if 0x218 ≤ off ∧ off < 0x220 then of 0x218 (if h.busy then 1 else 0)
  else if 0x400 ≤ off ∧ off < 0x6C8 then (fenceBytes s.fence).getD (off - 0x400) 0
  else if 0x1000 ≤ off ∧ off < 0x3000 then
    BitVec.ofNat 8 ((spGet 0 h.lrec ((off - 0x1000) / 8)).toNat / 256 ^ (off % 8))
  else if 0x3000 ≤ off ∧ off < 0x3200 then
    BitVec.ofNat 8 ((spGet 0 h.lstat ((off - 0x3000) / 8)).toNat / 256 ^ (off % 8))
  else if fn = 0 ∧ 0x10000 ≤ off then BitVec.ofNat 8 (s.mgmtWord ((off - 0x10000) / 8) / 256 ^ (off % 8))
  else 0

def State.bar0Read (s : State) (fn off n : Nat) : List Byte := (List.range n).map fun k => s.bar0Byte fn (off + k)

/-! ### Firmware and attestation (R350, R351) -/

/-- What the firmware mailbox reports: nothing, accepted, refused. -/
def mailboxAccepted : Nat := 1
def mailboxRefused : Nat := 2

/-- Is an image's signature, over everything before it, the Maelmin root's, and its version not below the minimum? -/
def State.firmwareOk (s : State) (image : List Byte) : Bool :=
  decide (4627 ≤ image.length) &&
    Config.mlDsaVerify Config.rootKey (Config.sha3 (image.take (image.length - 4627)))
      (BitVec.ofNat 37016 (leVal (image.drop (image.length - 4627))))
    && decide (s.policy.fwMin ≤ (Config.firmwareVersion image).toNat)

def execFirmwareLoad (image : List Byte) (s : State) : Out State :=
  runEvent s (some (s.onPolicy fun p =>
    if s.firmwareOk image then { p with fwPending := some image, mailbox := mailboxAccepted }
    else { p with mailbox := mailboxRefused }))

/-- MANAGEMENT_RESET: the accepted image starts; every partition is pre-empted, to be resumed under it. -/
def State.mgmtReset (s : State) : State :=
  let s1 := (s.demandAll s.crews).onPolicy fun p => match p.fwPending with
    | some i => { p with fwImage := i, fwVersion := (Config.firmwareVersion i).toNat, fwPending := none }
    | none => p
  { s1 with ctxs := s1.ctxs.map fun (c : Context) => { c with preempting := true } }

def execManagementReset (s : State) : Out State := runEvent s (some s.mgmtReset)

/-- Bytes 0 to 255 of an attestation report. -/
def State.reportBody (s : State) (fn : Nat) (nonce : List Byte) : List Byte :=
  nonce ++ leBytes 8 0 ++ leBytes 4 s.policy.fwVersion ++ leBytes 4 s.policy.fwMin ++ leBytes 16 0
    ++ leBytes 64 (Config.sha3 s.policy.fwImage).toNat ++ leBytes 64 (Config.sha3 (fenceBytes s.fence)).toNat
    ++ [BitVec.ofNat 8 (if fn = 0 then 0xFF else fn - 1), (s.fn fn).accept.setWidth 8] ++ leBytes 30 0 ++ leBytes 32 0

/-- ATTESTATION_REQUEST: the signed report for a 32-byte nonce. -/
def State.attest (s : State) (fn : Nat) (nonce : List Byte) : Option State :=
  if fn ≤ 16 ∧ nonce.length = 32 then
    let body := s.reportBody fn nonce
    some (s.reply fn (body ++ leBytes 4627 (Config.mlDsaSign (Config.sha3 body)).toNat))
  else none

def execAttestationRequest (fn : Nat) (nonce : List Byte) (s : State) : Out State := runEvent s (s.attest fn nonce)

/-! ### Reset and the module (R26, R355) -/

/-- The package after a reset that fences some units: what is fused or given from outside stays, and so do the memory of CXL devices and of
the host and the versions that the pool has published. (DEDUCED, safe, log 11) -/
def State.afterReset (s : State) (failed : FenceMap) : State :=
  { State.reset with
    sched := s.sched, fresh := s.fresh, fence := failed
    mem := s.mem.filter fun c => bits c.1 51 50 != 0
    pools := s.pools.map fun (p : PoolRange) => { p with writer := none }
    policy := { Policy.reset with fwMin := s.policy.fwMin, fwVersion := s.policy.fwVersion, fwImage := s.policy.fwImage } }

/-- RESET, also of a module that has powered down. -/
def execReset (failed : FenceMap) (s : State) : Out State := .next (s.afterReset failed)

/-- A die's thermal limit, never below 1, with its token count lowered to it (R24). -/
def State.limitTokens (s : State) (die count : Nat) : State :=
  let n := max 1 (min 8 count)
  { s with thermal := spSet 8 die n s.thermal, tokens := spSet 1 die (min (s.tokenCount die) n) s.tokens }

/-- THERMAL_LIMIT: firmware lowers a die's token count. -/
def execThermalLimit (die count : Nat) (s : State) : Out State :=
  runEvent s (if die < 8 then some (s.limitTokens die count) else none)

def execCriticalLimit (s : State) : Out State :=
  runEvent s (if s.alarm then none else some { s with alarm := true, alarmAt := s.clock })

/-- POWER_DOWN: 100 ms, 170,000,000 cycles at 1.7 GHz, after the alarm; the volatile state is lost. -/
def execPowerDown (s : State) : Out State :=
  runEvent s (if s.alarm && decide (s.alarmAt + 170000000 ≤ s.clock) then
    some { s.afterReset s.fence with dead := true, alarm := true } else none)

end Sys2Proof.Machine
end

