-- ==== Sys2Proof/Machine/Binary.lean ====
section
/-! DEFINITION. The loader of graph binaries: its tables and checks, the placing of regions, and unloading (R356-R366). -/

namespace Sys2Proof.Machine

/-! ### The file and its tables (R356, R357) -/

/-- Are some bytes all zero? -/
def zeros (b : List Byte) (o n : Nat) : Bool := ((b.drop o).take n).all (· == 0)

/-- A table's descriptor: offset and record count. -/
def fileTable (f : List Byte) (i : Nat) : Nat × Nat := (field f (24 + 12 * i) 8, field f (32 + 12 * i) 4)

def recordSizes : List Nat := [32, 32, 64, 16, 32, 32, 24, 4]

/-- The records of a table. -/
def records (f : List Byte) (i : Nat) : List (List Byte) :=
  let sz := recordSizes.getD i 4
  (List.range (fileTable f i).2).map fun n => (f.drop ((fileTable f i).1 + sz * n)).take sz

/-- The alignment of a table's records: that of their widest field. -/
def recordAligns : List Nat := [8, 8, 8, 4, 4, 4, 8, 4]

/-- A table stands inside the file, its records naturally aligned. -/
def fileTableOk (f : List Byte) (i : Nat) : Bool :=
  let t := fileTable f i
  let sz := recordSizes.getD i 4
  t.2 == 0 || (decide (t.1 + sz * t.2 ≤ f.length) && t.1 % recordAligns.getD i 8 == 0)

def sigOff (f : List Byte) : Nat := field f 120 8

/-- The header (R357) and the signature's place (R365). -/
def headerOk (f : List Byte) : Bool :=
  decide (128 ≤ f.length) && field f 0 4 == 0x31424753 && field f 4 2 == 1 && zeros f 6 2
    && field f 16 8 == f.length && decide (field f 8 8 < 256) && (List.range 8).all (fileTableOk f)

/-! ### Regions (R358) -/

/-- A plan record as read. -/
structure PlanRec where
  size : Nat
  cls : Nat
  w : Bool
  x : Bool
  home : Nat
  die : Nat
  dpin : Bool
  align : Nat
  use : Nat
  node : Nat
  va : Nat
  zero : Bool
  deriving DecidableEq, Repr

def planOf (b : List Byte) : PlanRec :=
  let a := field b 9 1
  { size := field b 0 8, cls := field b 8 1, w := bitAt a 7, x := bitAt a 6, home := bits a 5 4, die := bits a 3 1,
    dpin := bitAt a 0, align := field b 10 1, use := field b 11 1, node := field b 12 4, va := field b 16 8,
    zero := zeros b 24 8 }

/-- A region's record on its own. -/
def PlanRec.ok (p : PlanRec) (s : State) : Bool :=
  p.zero && p.size != 0 && p.size % 65536 == 0 && (p.cls == 0 || p.cls == 2 || p.cls == 3 || p.cls == 4)
    && decide (p.use ≤ 1) && decide (16 ≤ p.align) && decide (p.align ≤ 30) && p.va % 65536 == 0
    && decide (p.va + p.size ≤ 2 ^ 57) && (p.use == 1 || p.node == 0) && (p.dpin || p.die == 0)
    && !(p.dpin && s.fence.hbm.contains (2 * p.die) && s.fence.hbm.contains (2 * p.die + 1))

/-- Do two VA ranges meet? -/
def meets (a b : Nat × Nat) : Bool := decide (a.1 < b.1 + b.2) && decide (b.1 < a.1 + a.2)

/-- `v` raised to a multiple of 2^k. -/
def alignUp (v k : Nat) : Nat := ceilDiv v (2 ^ k) * 2 ^ k

/-- The VA of each region: required ones as they are; those of a class without one follow each other from the block's start
(R358). -/
def placeRegions (starts : Nat → Nat) : List PlanRec → List (Nat × Nat) → List Nat
  | [], _ => []
  | p :: r, used =>
    if p.va ≠ 0 then p.va :: placeRegions starts r used
    else
      let next := match used.find? fun u => u.1 == p.cls with
        | some u => alignUp u.2 p.align
        | none => starts p.cls
      next :: placeRegions starts r ((p.cls, next + p.size) :: used.filter fun u => u.1 != p.cls)

/-- The regions of a class without a VA as a block from a start: their VAs and sizes. -/
def blockOf (cls : Nat) : List PlanRec → Nat → List (Nat × Nat)
  | [], _ => []
  | p :: r, v =>
    if p.va = 0 ∧ p.cls = cls then (alignUp v p.align, p.size) :: blockOf cls r (alignUp v p.align + p.size) else blockOf cls r v

/-- The VA range of a block. -/
def blockSpan (b : List (Nat × Nat)) : Nat × Nat :=
  match b.head?, b.getLast? with
  | some f, some l => (f.1, l.1 + l.2 - f.1)
  | _, _ => (0, 0)

/-- May a class's block start at a VA: it meets the leading region's ALIGN, stays in the VA space and clear of some ranges? -/
def startOk (ps : List PlanRec) (cls : Nat) (used : List (Nat × Nat)) (v : Nat) : Bool :=
  let b := blockOf cls ps v
  let span := blockSpan b
  span.1 == v && decide (v + span.2 ≤ 2 ^ 57) && used.all fun u => !(meets span u)

/-- Starts for a class's block of which one is free if any is: how the block stands depends on its start modulo its largest alignment, and
a free start stays free as it moves down by that much, until the block meets a range below it or the VA space ends. -/
def startsFor (ps : List PlanRec) (cls : Nat) (used : List (Nat × Nat)) : List Nat :=
  let aligns := (ps.filter fun p => p.va == 0 && p.cls == cls).map (·.align)
  let first := aligns.headD 16
  let top := aligns.foldl max first
  (used.map (fun (u : Nat × Nat) => u.1 + u.2) ++ [2 ^ first, 0]).flatMap fun b => (List.range (2 ^ (top - first))).map fun k =>
    alignUp (b - min b (2 ^ first * k)) top + 2 ^ first * k

/-- The start of a class's block: the loader's choice if that is free, else the first free one among those that tell; none where no start is
free. -/
def blockStart (ps : List PlanRec) (cls choice : Nat) (used : List (Nat × Nat)) : Option Nat :=
  (choice :: startsFor ps cls used).find? (startOk ps cls used)

/-- The starts of the blocks of some classes, each clear of the ranges in use and of the blocks before it; none where a block finds no
place. -/
def blockStarts (choice : Nat → Nat) (ps : List PlanRec) : List Nat → List (Nat × Nat) → Option (List (Nat × Nat))
  | [], _ => some []
  | k :: r, used =>
    if ps.any fun p => p.va == 0 && p.cls == k then
      (blockStart ps k (choice k) used).bind fun v =>
        (blockStarts choice ps r (used ++ [blockSpan (blockOf k ps v)])).map fun l => (k, v) :: l
    else blockStarts choice ps r used

/-- VA ranges a context's valid range registers cover. -/
def Context.taken (c : Context) : List (Nat × Nat) :=
  ((List.range 16).map c.range).filterMap fun r => if r.valid then some (r.base, r.limit - r.base) else none

/-- Free range registers of a context. -/
def Context.freeRanges (c : Context) : List Nat := (List.range 16).filter fun n => !(c.range n).valid

/-- Are the regions' places available: aligned, in the VA space, clear of each other and of the context's ranges? -/
def placesOk (c : Context) (ps : List PlanRec) (vas : List Nat) : Bool :=
  let rs := (vas.zip ps).map fun q => (q.1, q.2.size)
  ((vas.zip ps).all fun q => q.1 % 65536 == 0 && decide (q.1 + q.2.size ≤ 2 ^ 57)
      && (q.2.va != 0 || q.1 % 2 ^ q.2.align == 0))
    && (List.range rs.length).all fun i => (List.range rs.length).all fun j => i == j ||
      !(meets (rs.getD i (0, 0)) (rs.getD j (0, 0)))
    && rs.all fun r => c.taken.all fun t => !(meets r t)

/-! ### IAs and range registers of the regions (R293, R358) -/

/-- Is an IA range free: no page of it mapped, and clear of some ranges? -/
def State.iaFree (s : State) (c : Context) (used : List (Nat × Nat)) (size ia : Nat) : Bool :=
  decide (ia + size ≤ 2 ^ 52) && used.all (fun u => !(meets u (ia, size)))
    && (List.range (size / 65536)).all fun n => (s.walk c (ia + 65536 * n)).isNone

/-- IAs for regions by VA and size: each that of its VA where that is free, else the lowest free one that follows a range in use.
(DEDUCED, unsafe, log 64) -/
def State.placeIas (s : State) (c : Context) : List (Nat × Nat) → List (Nat × Nat) → Option (List Nat)
  | [], _ => some []
  | (va, size) :: r, used =>
    let after := (minBy id ((used.map fun u => u.1 + u.2).filter (s.iaFree c used size))).toList
    (((va % 2 ^ 52) :: after).find? (s.iaFree c used size)).bind fun ia =>
      (State.placeIas s c r (used ++ [(ia, size)])).map fun l => ia :: l

/-- IA ranges that a context's valid range registers give. -/
def Context.takenIas (c : Context) : List (Nat × Nat) :=
  ((List.range 16).map c.range).filterMap fun r => if r.valid then some ((r.base + r.off) % 2 ^ 52, r.limit - r.base) else none

/-- Does a region go on where another ends, in VA and IA, with its class and rights? -/
def Region.adjoins (a b : Region) : Bool :=
  b.va == a.va + a.size && b.ia == a.ia + a.size && a.cls == b.cls && a.w == b.w && a.x == b.x

/-- Regions in order of VA. -/
def byVa (rs : List Region) : List Region :=
  rs.foldr (fun a l => (l.takeWhile fun b => decide (b.va < a.va)) ++ a :: l.dropWhile fun b => decide (b.va < a.va)) []

/-- Adjoining regions joined. -/
def joinRegions (rs : List Region) : List Region :=
  (byVa rs).foldr (fun a l => match l with
    | b :: r => if a.adjoins b then { a with size := a.size + b.size } :: r else a :: b :: r
    | [] => [a]) []

/-- What range registers are set to: a region each, or, where there are too few registers, adjoining regions joined. -/
def Context.rangesFor (c : Context) (rs : List Region) : List Region :=
  if rs.length ≤ c.freeRanges.length then rs else joinRegions rs

/-! ### Sections (R359) -/

/-- A section: file offset, size, region, offset in it. -/
structure SectRec where
  foff : Nat
  size : Nat
  plan : Nat
  roff : Nat
  zero : Bool
  deriving DecidableEq, Repr

def sectOf (b : List Byte) : SectRec :=
  { foff := field b 0 8, size := field b 8 8, plan := field b 16 4, roff := field b 24 8, zero := zeros b 20 4 }

def sectsOk (f : List Byte) (ps : List PlanRec) (ss : List SectRec) : Bool :=
  (ss.all fun t => t.zero && decide (t.foff + t.size ≤ f.length) && match ps[t.plan]? with
    | some p => decide (t.roff + t.size ≤ p.size)
    | none => false)
    && (List.range ss.length).all fun i => (List.range i).all fun j => match ss[i]?, ss[j]? with
      | some a, some b => a.plan != b.plan || a.size == 0 || b.size == 0 || !(meets (a.roff, a.size) (b.roff, b.size))
      | _, _ => true

/-- A byte of a region as its sections load it; 0 elsewhere. -/
def regionByte (f : List Byte) (ss : List SectRec) (plan o : Nat) : Byte :=
  match ss.find? fun t => t.plan == plan && decide (t.roff ≤ o) && decide (o < t.roff + t.size) with
  | some t => f.getD (t.foff + (o - t.roff)) 0
  | none => 0

/-! ### Entries and functions (R360, R361) -/

def roleOf : Nat → Role
  | 1 => .matrix | 2 => .copy | _ => .vector

/-- A code address that a record names: PLAN an X region, OFF in it. -/
def codeAt (ps : List PlanRec) (vas : List Nat) (plan off : Nat) : Option Nat :=
  match ps[plan]?, vas[plan]? with
  | some p, some va => if p.x ∧ off % 4 = 0 ∧ off < p.size then some (va + off) else none
  | _, _ => none

def entryOf (ps : List PlanRec) (vas : List Nat) (req : LoadReq) (b : List Byte) : Option EntryRec :=
  (codeAt ps vas (field b 0 4) (field b 4 4)).bind fun va =>
    let fib := if field b 10 1 = 0 then req.fibres.getD 0 else field b 10 1
    let roles := (List.range 32).map fun n => bits (field b 32 8) (2 * n + 1) (2 * n)
    if zeros b 12 12 && zeros b 40 24 && decide (1 ≤ field b 8 1) && decide (field b 8 1 ≤ 16) && decide (1 ≤ field b 9 1)
        && decide (field b 9 1 ≤ 32) && decide (1 ≤ fib) && decide (fib ≤ 32) && decide (field b 11 1 ≤ 8)
        && decide (field b 24 1 ≤ 1) && (field b 24 1 == 0 || (decide (1 ≤ field b 25 1) && decide (field b 25 1 ≤ 32)))
        && field b 28 4 % 128 == 0 && decide (field b 28 4 ≤ 2 ^ 20) && roles.all (· != 3) then
      some { va := va, budget := 16 * field b 8 1, flocks := field b 9 1, fibres := fib, team := field b 11 1,
             bin := field b 24 1 == 1, thr := field b 25 1, tmr := field b 26 2, scratch := field b 28 4,
             roles := (roles.take (field b 9 1)).map roleOf }
    else none

def funcOf (ps : List PlanRec) (vas : List Nat) (b : List Byte) : Option (Nat × Nat) :=
  if zeros b 9 7 && decide (1 ≤ field b 8 1) && decide (field b 8 1 ≤ 16) then
    (codeAt ps vas (field b 0 4) (field b 4 4)).map fun va => (va, 16 * field b 8 1)
  else none

/-- The instructions of an X region from a word on up to another, by the words they start at; none where what stands there is no
instruction (R359). -/
def instrStarts (size : Nat) (byte : Nat → Byte) (last : Nat) : Nat → Nat → Option (List Nat)
  | 0, w => if last ≤ w then some [] else none
  | n + 1, w =>
    if last ≤ w then some []
    else match decode ((List.range 12).map fun k => byte (4 * w + k)) with
      | .ok (i, _) =>
        let len := (i.form?.map (·.words)).getD 1
        if 4 * (w + len) ≤ size then (instrStarts size byte last n (w + len)).map fun l => w :: l else none
      | .error _ => none

/-- Every CALL of a region reaches a start whose budget its owner has (R361). `starts` lists (VA, budget), `words` the instructions. -/
def callsOk (starts : List (Nat × Nat)) (va size : Nat) (byte : Nat → Byte) (words : List Nat) : Bool :=
  words.all fun w => match decode ((List.range 12).map fun k => byte (4 * w + k)) with
      | .ok (.call x, _) =>
        let at_ := va + 4 * w
        let target := wrapInt ((at_ : Int) + 4 * x.immS) 57
        let owner := (starts.filter fun t => decide (va ≤ t.1) && decide (t.1 ≤ at_) && decide (t.1 < va + size)).foldl
          (fun (o : Option (Nat × Nat)) t => match o with
            | some u => if u.1 < t.1 then some t else some u
            | none => some t) none
        (match owner, starts.find? fun t => t.1 == target with
          | some o, some t => decide (t.2 ≤ o.2)
          | _, _ => false)
      | _ => true

/-- The word behind the last that a region's sections fill: what follows is zeros, each an instruction. -/
def lastWord (ss : List SectRec) (plan : Nat) : Nat :=
  (ss.filter fun t => t.plan == plan).foldl (fun n t => max n (ceilDiv (t.roff + t.size) 4)) 0

/-- An X region holds instructions only, and its CALLs are in order. -/
def codeOk (starts : List (Nat × Nat)) (va size : Nat) (byte : Nat → Byte) (last : Nat) : Bool :=
  match instrStarts size byte last last 0 with
  | some ws => callsOk starts va size byte ws
  | none => false

/-! ### The graph (R362) -/

def edgeOf (b : List Byte) : EdgeRec :=
  { prod := field b 0 4, cons := field b 4 4, func := field b 8 1, a := field b 12 4, b := field b 16 4, s := field b 20 4,
    w := field b 24 4 }

def edgeOk (nodes : Nat) (lists : List Nat) (raw : List Byte) (e : EdgeRec) : Bool :=
  zeros raw 9 3 && zeros raw 28 4 && decide (e.prod < nodes) && decide (e.cons < nodes)
    && match e.func with
      | 0 | 2 => e.b == 0 && e.s == 0
      | 1 => decide (1 ≤ e.w) && decide (e.w ≤ 65536)
      | 3 => e.b == 0 && e.s == 0 && (List.range e.w).all fun c => match lists[e.a + c]? with
        | some j => (match lists[j]? with
          | some n => decide (j + n < lists.length)
          | none => false)
        | none => false
      | _ => false

/-- Edges without a cycle: nodes without a remaining producer are taken away until none is left. -/
def acyclic (es : List EdgeRec) : Nat → List Nat → Bool
  | 0, ns => ns.isEmpty
  | k + 1, ns =>
    let rest := ns.filter fun n => es.any fun e => e.cons == n && ns.contains e.prod
    if rest.length = ns.length then ns.isEmpty else acyclic es k rest

/-- A node's bitmap region, as the plan gives it. -/
def bitmapOf (ps : List PlanRec) (n : Nat) : List (PlanRec × Nat) :=
  (ps.zipIdx).filter fun p => p.1.use == 1 && p.1.node == n

def nodesOk (ps : List PlanRec) (entries : Nat) (es : List EdgeRec) (raw : List (List Byte)) : Bool :=
  (ps.all fun p => p.use == 0 || decide (p.node < raw.length)) && (raw.zipIdx).all fun q =>
    let max := field q.1 4 4
    let maps := bitmapOf ps q.2
    zeros q.1 8 24 && decide (field q.1 0 4 < entries) && max != 0
      && (!(es.any fun e => e.prod == q.2) || maps.length == 1)
      && maps.all fun m => m.1.cls == 0 && m.1.w && decide (ceilDiv max 8 ≤ m.1.size)

/-! ### Patch points (R364) -/

/-- A patch's bytes and its place: region and offset; none where a rule is broken. -/
def patchOf (ps : List PlanRec) (vas : List Nat) (req : LoadReq) (b : List Byte) : Option (Nat × Nat × List Byte) :=
  let plan := field b 0 4
  let off := field b 4 4
  let kind := field b 8 1
  let arg := field b 12 4
  let base := if kind = 3 then (req.params[arg]?).map (·.toNat) else if kind < 3 then vas[arg]? else none
  let n := if kind = 0 ∨ kind = 3 then 8 else 4
  match base, ps[plan]? with
  | some v, some p =>
    let x := (v + field b 16 8) % 2 ^ 64
    if zeros b 9 3 && !p.x && off % n == 0 && decide (off + n ≤ p.size) then
      some (plan, off, leBytes n (if kind = 2 then x / 2 ^ 32 else x))
    else none
  | _, _ => none

/-! ### Placing (R358) -/

/-- Frames of a context for a region: any of HBM, or of the die's stacks where it is pinned. -/
def fitting (p : PlanRec) (fs : List Nat) : List Nat :=
  fs.filter fun f => bits f 35 34 == 0 && (!p.dpin || bits f 24 21 / 2 == p.die)

/-- Frames for those of the regions that are pinned, or that are not, in turn, and those left; the others get none. -/
def framesFor (pinned : Bool) : List PlanRec → List Nat → Option (List (List Nat) × List Nat)
  | [], fs => some ([], fs)
  | p :: r, fs =>
    let mine := if p.dpin == pinned then (fitting p fs).take (p.size / 65536) else []
    if p.dpin == pinned ∧ mine.length < p.size / 65536 then none
    else (framesFor pinned r (fs.filter fun f => !mine.contains f)).map fun t => (mine :: t.1, t.2)

/-- Frames for every region, and those left: the pinned regions take theirs first, as the others can stand anywhere. -/
def takeFrames (ps : List PlanRec) (fs : List Nat) : Option (List (List Nat) × List Nat) :=
  (framesFor true ps fs).bind fun a => (framesFor false ps a.2).map fun b => (List.zipWith (· ++ ·) a.1 b.1, b.2)

/-- A leaf entry of a region (R296, R358). -/
def leafOf (p : PlanRec) (frame : Nat) : Nat :=
  1 + 2 + 4 + (if p.w then 8 else 0) + (if p.x then 16 else 32) + p.home * 2 ^ 7 + (if p.dpin then 2 ^ 9 else 0)
    + p.die * 2 ^ 10 + frame * 2 ^ 16

/-- A fresh frame for a page table: empty. -/
def State.tableFrame (s : State) (part : Nat) : Option (Nat × State) :=
  (s.ctx? part).bind fun c => c.freeFrames.head?.map fun f =>
    (f, { s with
      mem := s.mem.splice (65536 * f) 65536 []
      home := s.home.filter fun h => h.line / 512 != f }.updCtx part fun c => { c with freeFrames := c.freeFrames.drop 1 })

/-- The table that an entry points at, made in a fresh frame where the entry is not valid; none where no frame is left or a
leaf stands there. -/
def State.nextTable (s : State) (part at_ : Nat) : Option (Nat × State) :=
  let e := s.committedVal part at_ 8
  if bitAt e 0 then (if bitAt e 1 then none else some (bits e 51 8 * 256, s))
  else (s.tableFrame part).map fun t => (65536 * t.1, t.2.commitBytes (t.2.plainSite part at_) at_ (leBytes 8 (65536 * t.1 + 1)))

/-- The root table, made where PTROOT is 0. -/
def State.rootTable (s : State) (part : Nat) : Option (Nat × State) :=
  (s.ctx? part).bind fun c =>
    let r := bits (c.reg snPtroot).toNat 51 12 * 4096
    if r ≠ 0 then some (r, s)
    else (s.tableFrame part).map fun t => (65536 * t.1, t.2.updCtx part fun c => c.setReg snPtroot (BitVec.ofNat 64 (65536 * t.1)))

/-- A 64 KiB leaf written, with the tables above it. -/
def State.mapPage (s : State) (part ia leaf : Nat) : Option State :=
  (s.rootTable part).bind fun t0 => (t0.2.nextTable part (t0.1 + 8 * bits ia 51 39)).bind fun t1 =>
    (t1.2.nextTable part (t1.1 + 8 * bits ia 38 30)).bind fun t2 =>
      (t2.2.nextTable part (t2.1 + 8 * bits ia 29 21)).map fun t3 =>
        let at_ := t3.1 + 8 * bits ia 20 16
        t3.2.commitBytes (t3.2.plainSite part at_) at_ (leBytes 8 leaf)

/-- A region's pages mapped and zeroed, one per frame. -/
def State.mapRegion (s : State) (part : Nat) (p : PlanRec) (ia : Nat) : List Nat → Nat → Option State
  | [], _ => some s
  | f :: r, n =>
    let s1 := { s with
      mem := s.mem.splice (65536 * f) 65536 []
      home := s.home.filter fun h => h.line / 512 != f
      l1 := s.l1.filter fun c => c.line / 512 != f
      icache := s.icache.filter fun w => w.pa / 65536 != f }
    (s1.mapPage part (ia + 65536 * n) (leafOf p f)).bind fun s2 => State.mapRegion s2 part p ia r (n + 1)

/-- Bytes written into a region's frames from an offset on. -/
def State.fillRegion (s : State) (frames : List Nat) (o : Nat) : List Byte → State
  | [] => s
  | b :: r =>
    State.fillRegion { s with mem := s.mem.set (65536 * frames.getD (o / 65536) 0 + o % 65536) b } frames (o + 1) r

/-- A region's range register: NW and NX from W and X (R293). -/
def Context.setRange (c : Context) (n : Nat) (r : Region) : Context :=
  let put := fun (c : Context) (w v : Nat) => c.setReg (snRange + 4 * n + w) (BitVec.ofNat 64 v)
  put (put (put (put c 0 r.va) 1 (r.va + r.size)) 2 ((2 ^ 52 + r.ia - r.va % 2 ^ 52) % 2 ^ 52)) 3
    (r.cls + 8 + (if r.x then 0 else 16) + (if r.w then 0 else 32))

/-! ### BINARY_LOAD (R366) -/

/-- Everything the loader reads from a file, checked; none where a rule is broken. -/
structure Loading where
  plans : List PlanRec
  vas : List Nat
  sects : List SectRec
  image : Image
  patches : List (Nat × Nat × List Byte)
  deriving DecidableEq, Repr

/-- A list of options as an option of a list. -/
def allSome {α : Type} : List (Option α) → Option (List α)
  | [] => some []
  | o :: r => match o, allSome r with
    | some x, some l => some (x :: l)
    | _, _ => none

/-- Is the signature in order (R365)? -/
def signedOk (c : Context) (f : List Byte) (ss : List SectRec) : Bool :=
  let o := sigOff f
  if o = 0 then c.key.isNone
  else
    ((List.range 8).all fun i => (fileTable f i).2 == 0 ||
      decide ((fileTable f i).1 + recordSizes.getD i 4 * (fileTable f i).2 ≤ o))
      && (ss.all fun t => decide (t.foff + t.size ≤ o)) && decide (o + 4627 ≤ f.length)
      && match c.key with
        | some k => Config.mlDsaVerify k (Config.sha3 (f.take o)) (BitVec.ofNat 37016 (leVal ((f.drop o).take 4627)))
        | none => false

/-- Reading and checking a file (R356-R366). -/
def State.readBinary (s : State) (c : Context) (f : List Byte) (req : LoadReq) : Option Loading :=
  if !headerOk f || field f 8 1 &&& (0xFF - (s.fn (c.part + 1)).accept.toNat % 256) != 0 then none
  else
    let ps := (records f 0).map planOf
    let ss := (records f 1).map sectOf
    let choice := fun (k : Nat) => match req.blocks.find? fun b => b.1 == k with
      | some b => b.2
      | none => Config.blockStart c.part k
    match blockStarts choice ps [0, 2, 3, 4] (c.taken ++ (ps.filter fun p => p.va != 0).map fun p => (p.va, p.size)) with
    | none => none
    | some starts =>
    let vas := placeRegions (fun k => ((starts.find? fun b => b.1 == k).map (·.2)).getD 0) ps []
    let lists := (records f 7).map fun b => field b 0 4
    let es := (records f 5).map edgeOf
    match allSome ((records f 2).map (entryOf ps vas req)), allSome ((records f 3).map (funcOf ps vas)),
        allSome ((records f 6).map (patchOf ps vas req)), s.placeIas c (vas.zip (ps.map (·.size))) c.takenIas with
    | some ents, some funcs, some patches, some ias =>
      let regions := (vas.zip (ias.zip ps)).map fun (q : Nat × Nat × PlanRec) =>
        ({ va := q.1, size := q.2.2.size, cls := q.2.2.cls, ia := q.2.1, w := q.2.2.w, x := q.2.2.x } : Region)
      let budgets := funcs ++ ents.map fun e => (e.va, e.budget)
      let nodes := ((records f 4).zipIdx).map fun q =>
        (((ents[field q.1 0 4]?).map (·.va)).getD 0, field q.1 4 4,
          (bitmapOf ps q.2).head?.bind fun m => ias[m.2]?)
      let calls := (ps.zipIdx).all fun p => !p.1.x ||
        codeOk budgets (vas.getD p.2 0) p.1.size (regionByte f ss p.2) (lastWord ss p.2)
      if (ps.all fun p => p.ok s) && placesOk c ps vas && sectsOk f ps ss && nodesOk ps ents.length es (records f 4)
          && (((records f 5).zip es).all fun q => edgeOk nodes.length lists q.1 q.2)
          && acyclic es (nodes.length + 1) (List.range nodes.length) && calls && signedOk c f ss
          && decide ((c.rangesFor regions).length ≤ c.freeRanges.length) then
        some { plans := ps, vas := vas, sects := ss, patches := patches
               image := { id := c.nextImage, regions := regions,
                          entries := ents, funcs := funcs, nodes := nodes, edges := es, lists := lists } }
      else none
    | _, _, _, _ => none

/-- Regions mapped one after another. (DEDUCED, unsafe, log 64) -/
def State.mapAll (s : State) (part : Nat) : List (PlanRec × Nat × List Nat) → Option State
  | [] => some s
  | (p, ia, fs) :: r => (s.mapRegion part p ia fs 0).bind fun s1 => State.mapAll s1 part r

/-- A checked binary placed in its context; none where frames run out. -/
def State.placeBinary (s : State) (part : Nat) (f : List Byte) (b : Loading) : Option State :=
  (s.ctx? part).bind fun c => (takeFrames b.plans c.freeFrames).bind fun t =>
    let s1 := s.updCtx part fun c => { c with freeFrames := t.2 }
    (s1.mapAll part (b.plans.zip ((b.image.regions.map (·.ia)).zip t.1))).map fun s2 =>
      let s3 := b.sects.foldl (fun s q => s.fillRegion (t.1.getD q.plan []) q.roff ((f.drop q.foff).take q.size)) s2
      let s4 := b.patches.foldl (fun s q => s.fillRegion (t.1.getD q.1 []) q.2.1 q.2.2) s3
      s4.updCtx part fun d =>
        let e := (c.freeRanges.zip (c.rangesFor b.image.regions)).foldl (fun (d : Context) q => d.setRange q.1 q.2) d
        { e with images := e.images ++ [b.image], nextImage := e.nextImage + 1 }

/-- BINARY_LOAD: loaded whole, with every region's VA in the reply, or refused whole, with an empty reply. -/
def State.loadBinary (s : State) (part : Nat) (f : List Byte) (req : LoadReq) : Option State :=
  (s.ctx? part).map fun c =>
    match (s.readBinary c f req).bind fun b => (s.placeBinary part f b).map fun t => (b, t) with
    | some (b, t) => t.reply (part + 1) (b.vas.flatMap (leBytes 8))
    | none => s.reply (part + 1) []

def execBinaryLoad (part : Nat) (file : List Byte) (req : LoadReq) (s : State) : Out State :=
  runEvent s (s.loadBinary part file req)

/-! ### BINARY_UNLOAD (R356) -/

/-- Does a range register give a region its place? -/
def Range.gives (g : Range) (r : Region) : Bool :=
  g.valid && decide (g.base ≤ r.va) && decide (r.va + r.size ≤ g.limit) && (r.va + g.off) % 2 ^ 52 == r.ia

/-- A region's pages given back: leaves cleared, frames free, its range register invalid. -/
def State.dropRegion (s : State) (part : Nat) (r : Region) : State :=
  let s1 := (List.range (r.size / 65536)).foldl (fun s n =>
    match s.ctx? part with
    | none => s
    | some c =>
      let ia := r.ia + 65536 * n
      match s.walkFrom c ia 4 0 c.root with
      | some (at_, e, 3) =>
        let t := s.commitBytes (s.plainSite part at_) at_ (leBytes 8 0)
        { t with tlb := t.tlb.filter fun x => !(x.part == part && x.granule == ia / 65536) }.updCtx part fun c =>
          { c with freeFrames := c.freeFrames ++ [bits e 51 16] }
      | _ => s) s
  s1.updCtx part fun c => (List.range 16).foldl (fun c n =>
    if (c.range n).gives r then c.setReg (snRange + 4 * n + 3) 0 else c) c

/-- BINARY_UNLOAD of an image of which no launch lives. -/
def State.unloadBinary (s : State) (part image : Nat) : Option State :=
  (s.ctx? part).bind fun c => (c.images.find? fun m => m.id == image).bind fun m =>
    if c.launches.any fun l => l.image == image && l.lives then none
    else
      some ((m.regions.foldl (fun s r => s.dropRegion part r) s).updCtx part fun c =>
        { c with
          images := c.images.filter fun x => x.id != image
          launches := c.launches.filter fun l => l.image != image })

def execBinaryUnload (part image : Nat) (s : State) : Out State := runEvent s (s.unloadBinary part image)

end Sys2Proof.Machine
end

