-- ==== Sys2Proof/Machine/LaneOps.lean ====
section
/-! DEFINITION. Exchange between lanes, predicate collection, special registers and leaders (R21, R22, R77, R78, R273). -/

namespace Sys2Proof.Machine

/-! ### LANEX (R77) -/

/-- The lane a fibre reads from, inside its own segment of `w` lanes. -/
def lanexSource (mode w lane b : Nat) : Nat :=
  let base := lane - lane % w
  let r := lane % w
  match mode with
  | 0 => base + b % w
  | 1 => base + (r + b) % w
  | 2 => base + (r ^^^ (b % w))
  | _ => base + (w - 1 - (r + b) % w)

/-- What a fibre receives: the value of the source lane if a participant holds it, else its own. -/
def lanexResult (x : Form) (vs : List (Nat × Word × Word)) (v : Nat × Word × Word) : Word × Bool :=
  let s := lanexSource (x.mf 4 3) (32 / 2 ^ x.mf 2 0) v.1 v.2.2.toNat
  match vs.find? fun g => g.1 == s with
  | some g => (g.2.1, true)
  | none => (v.2.1, false)

def execLanex (x : Form) (s : State) : Out State :=
  laneSet s x false fun i ps =>
    match checkAll i ps fun f =>
        ((srcA x f).and (if x.mb 21 then .ok (BitVec.ofNat 32 (x.mf 20 16)) else srcB x (immWord x) f)).and
          (destOk f x.dn) with
    | .error e => .error e
    | .ok vs =>
      let ins := vs.map fun v => (v.1, v.2.1)
      let outs := ins.map fun v => (v.1, lanexResult x ins v)
      let s1 := s.produce i x false (ready (outs.map fun v => (v.1, v.2.1.setWidth 64)))
      .ok ((s1.onFibres i (outs.map fun v => (v.1, v.2.2)) fun ok f => f.setPred x.cn ok).advance i x.words)

/-! ### PCOL (R78) -/

/-- The result for a participant set and the set T of those whose predicate is true, as lanes. -/
def pcolValue (op : Nat) (t : List Nat) : Word :=
  match op with
  | 0 => laneMask t
  | 4 => BitVec.ofNat 32 t.length
  | _ => BitVec.ofNat 32 (t.head?.getD 32)

def pcolBool (op : Nat) (ps t : List Nat) : Bool :=
  match op with
  | 1 => !t.isEmpty
  | 2 => t.length == ps.length
  | _ => t.isEmpty || t.length == ps.length

def execPcol (x : Form) (s : State) : Out State :=
  laneSet s x false fun i ps =>
    let op := x.mf 2 0
    let lanes := ps.map (·.lane)
    let t := (ps.filter fun f => f.pred x.an != x.mb 3).map (·.lane)
    if op = 0 ∨ op = 4 ∨ op = 5 then
      match checkAll i ps fun f => destOk f x.dn with
      | .error e => .error e
      | .ok _ => .ok (s.laneResult i x false (lanes.map fun l => (l, (pcolValue op t).setWidth 64)))
    else
      .ok ((s.onFibres i (lanes.map fun l => (l, pcolBool op lanes t)) fun r f => f.setPred x.dn r).advance i x.words)

/-! ### Special registers (R21, R22) -/

/-- The special register a fibre reads. -/
def srValue (s : State) (i : Iss) (f : Fibre) (code : Nat) : Word :=
  BitVec.ofNat 32 (match code with
    | 0x00 => f.lane
    | 0x01 => i.flock.quad
    | 0x02 => i.ref.core % 64
    | 0x03 => i.ref.core % 64 / 8
    | 0x04 => dieOf i.ref.core
    | 0x05 => dieOf i.ref.core * 384 + i.ref.core % 64 * 6
    | 0x06 => s.pkg
    | 0x07 => i.crew.part
    | 0x08 => f.num
    | 0x09 => i.flock.num
    | 0x0A => i.ref.slot
    | 0x0B => i.crew.idx
    | 0x0C => i.crew.ncrew
    | 0x0D => i.crew.teamNo
    | 0x0E => i.crew.launch
    | 0x10 => s.clock
    | 0x11 => match f.latch with
      | some v => v.toNat
      | none => s.clock / 2 ^ 32
    | 0x12 => i.crew.ckptn
    | 0x13 => i.crew.ptwait
    | _ => s.npkg)

/-- A read of SR.CLKL latches the high half of the count (R22). -/
def srLatch (now code : Nat) (f : Fibre) : Fibre :=
  if code = 0x10 then { f with latch := some (BitVec.ofNat 32 (now / 2 ^ 32)) } else f

def execSr (x : Form) (s : State) : Out State :=
  laneSet s x false fun i ps =>
    match checkAll i ps fun f => destOk f x.dn with
    | .error e => .error e
    | .ok _ =>
      .ok ((s.onFibres i (ps.map fun f => (f.lane, srValue s i f x.an)) fun v f =>
        srLatch s.clock x.an (f.markFull x.dn v)).advance i x.words)

/-- USR: a code that differs per fibre gives the value of the lowest-lane fibre of the batch (R79).
(DESIGN CHOICE, unsafe, log 36) -/
def execUsr (x : Form) (s : State) : Out State :=
  uniSet s x .any fun i =>
    match kFree i [(x.dn, false)], i.lead with
    | .error e, _ => .error e
    | .ok _, none => .ok (s.advance i x.words)
    | .ok _, some f =>
      .ok ((s.onFibre i f.lane (srLatch s.clock x.an)).uniResult i x false ((srValue s i f x.an).setWidth 64))

/-- ELECT: the lowest-lane active fibre of the batch is the leader (R273). -/
def execElect (x : Form) (s : State) : Out State :=
  uniSet s x .any fun i =>
    .ok ((s.onFibres i (i.active.map fun f => (f.lane, f.lane == i.leadLane)) fun r f => f.setPred x.dn r).advance
      i x.words)

end Sys2Proof.Machine
end

