-- ==== Sys2Proof/Machine/Dispatch.lean ====
section
/-! DEFINITION. The dispatch: one arm per constructor of Instr, each a direct call of the instruction's meaning. -/

namespace Sys2Proof.Machine

def exec (i : Instr) (s : State) : Host.Outcome State Fault Refusal :=
  match i with
  | .iadd x => Sys2Proof.Machine.execIadd x s
  | .isub x => Sys2Proof.Machine.execIsub x s
  | .imul x => Sys2Proof.Machine.execImul x s
  | .imulh x => Sys2Proof.Machine.execImulh x s
  | .imad x => Sys2Proof.Machine.execImad x s
  | .iadd64 x => Sys2Proof.Machine.execIadd64 x s
  | .imin x => Sys2Proof.Machine.execImin x s
  | .imax x => Sys2Proof.Machine.execImax x s
  | .iabs x => Sys2Proof.Machine.execIabs x s
  | .idiv x => Sys2Proof.Machine.execIdiv x s
  | .irem x => Sys2Proof.Machine.execIrem x s
  | .and x => Sys2Proof.Machine.execAnd x s
  | .or x => Sys2Proof.Machine.execOr x s
  | .xor x => Sys2Proof.Machine.execXor x s
  | .andn x => Sys2Proof.Machine.execAndn x s
  | .blut x => Sys2Proof.Machine.execBlut x s
  | .shl x => Sys2Proof.Machine.execShl x s
  | .shr x => Sys2Proof.Machine.execShr x s
  | .sar x => Sys2Proof.Machine.execSar x s
  | .rot x => Sys2Proof.Machine.execRot x s
  | .bfx x => Sys2Proof.Machine.execBfx x s
  | .bfi x => Sys2Proof.Machine.execBfi x s
  | .popc x => Sys2Proof.Machine.execPopc x s
  | .clz x => Sys2Proof.Machine.execClz x s
  | .brev x => Sys2Proof.Machine.execBrev x s
  | .lea x => Sys2Proof.Machine.execLea x s
  | .bpick x => Sys2Proof.Machine.execBpick x s
  | .idp4 x => Sys2Proof.Machine.execIdp4 x s
  | .mov x => Sys2Proof.Machine.execMov x s
  | .movi x => Sys2Proof.Machine.execMovi x s
  | .movhi x => Sys2Proof.Machine.execMovhi x s
  | .sel x => Sys2Proof.Machine.execSel x s
  | .lanex x => Sys2Proof.Machine.execLanex x s
  | .pcol x => Sys2Proof.Machine.execPcol x s
  | .sr x => Sys2Proof.Machine.execSr x s
  | .ptov x => Sys2Proof.Machine.execPtov x s
  | .vtop x => Sys2Proof.Machine.execVtop x s
  | .urd x => Sys2Proof.Machine.execUrd x s
  | .bra x => Sys2Proof.Machine.execBra x s
  | .brx x => Sys2Proof.Machine.execBrx x s
  | .call x => Sys2Proof.Machine.execCall x s
  | .calli x => Sys2Proof.Machine.execCalli x s
  | .ret x => Sys2Proof.Machine.execRet x s
  | .fspawn x => Sys2Proof.Machine.execFspawn x s
  | .fend x => Sys2Proof.Machine.execFend x s
  | .rcv x => Sys2Proof.Machine.execRcv x s
  | .icmp x => Sys2Proof.Machine.execIcmp x s
  | .plut x => Sys2Proof.Machine.execPlut x s
  | .fcmp x => Sys2Proof.Machine.execFcmp x s
  | .hcmp x => Sys2Proof.Machine.execHcmp x s
  | .bcmp x => Sys2Proof.Machine.execBcmp x s
  | .fclass x => Sys2Proof.Machine.execFclass x s
  | .fadd x => Sys2Proof.Machine.execFadd x s
  | .fsub x => Sys2Proof.Machine.execFsub x s
  | .fmul x => Sys2Proof.Machine.execFmul x s
  | .ffma x => Sys2Proof.Machine.execFfma x s
  | .fmin x => Sys2Proof.Machine.execFmin x s
  | .fmax x => Sys2Proof.Machine.execFmax x s
  | .fdiv x => Sys2Proof.Machine.execFdiv x s
  | .fsqrt x => Sys2Proof.Machine.execFsqrt x s
  | .frcp x => Sys2Proof.Machine.execFrcp x s
  | .frsq x => Sys2Proof.Machine.execFrsq x s
  | .fex2 x => Sys2Proof.Machine.execFex2 x s
  | .flg2 x => Sys2Proof.Machine.execFlg2 x s
  | .fsin x => Sys2Proof.Machine.execFsin x s
  | .fcos x => Sys2Proof.Machine.execFcos x s
  | .frnd x => Sys2Proof.Machine.execFrnd x s
  | .fscale x => Sys2Proof.Machine.execFscale x s
  | .fcpys x => Sys2Proof.Machine.execFcpys x s
  | .hadd2 x => Sys2Proof.Machine.execHadd2 x s
  | .hmul2 x => Sys2Proof.Machine.execHmul2 x s
  | .hfma2 x => Sys2Proof.Machine.execHfma2 x s
  | .hmin2 x => Sys2Proof.Machine.execHmin2 x s
  | .hmax2 x => Sys2Proof.Machine.execHmax2 x s
  | .badd2 x => Sys2Proof.Machine.execBadd2 x s
  | .bmul2 x => Sys2Proof.Machine.execBmul2 x s
  | .bfma2 x => Sys2Proof.Machine.execBfma2 x s
  | .cvt x => Sys2Proof.Machine.execCvt x s
  | .cvtp x => Sys2Proof.Machine.execCvtp x s
  | .cvtq x => Sys2Proof.Machine.execCvtq x s
  | .cvtx x => Sys2Proof.Machine.execCvtx x s
  | .ld x => Sys2Proof.Machine.execLd x s
  | .st x => Sys2Proof.Machine.execSt x s
  | .lds x => Sys2Proof.Machine.execLds x s
  | .sts x => Sys2Proof.Machine.execSts x s
  | .atom x => Sys2Proof.Machine.execAtom x s
  | .red x => Sys2Proof.Machine.execRed x s
  | .cas x => Sys2Proof.Machine.execCas x s
  | .qenq x => Sys2Proof.Machine.execQenq x s
  | .qdeq x => Sys2Proof.Machine.execQdeq x s
  | .sliceof x => Sys2Proof.Machine.execSliceof x s
  | .homeof x => Sys2Proof.Machine.execHomeof x s
  | .pref x => Sys2Proof.Machine.execPref x s
  | .hld x => Sys2Proof.Machine.execHld x s
  | .hst x => Sys2Proof.Machine.execHst x s
  | .hrefPin x => Sys2Proof.Machine.execHrefPin x s
  | .hrefUnpin x => Sys2Proof.Machine.execHrefUnpin x s
  | .hrefCmp x => Sys2Proof.Machine.execHrefCmp x s
  | .hrefIsnull x => Sys2Proof.Machine.execHrefIsnull x s
  | .hrefMov x => Sys2Proof.Machine.execHrefMov x s
  | .hrefFrom x => Sys2Proof.Machine.execHrefFrom x s
  | .hrefTo x => Sys2Proof.Machine.execHrefTo x s
  | .hnew x => Sys2Proof.Machine.execHnew x s
  | .uadd x => Sys2Proof.Machine.execUadd x s
  | .usub x => Sys2Proof.Machine.execUsub x s
  | .umul x => Sys2Proof.Machine.execUmul x s
  | .umad x => Sys2Proof.Machine.execUmad x s
  | .umin x => Sys2Proof.Machine.execUmin x s
  | .umax x => Sys2Proof.Machine.execUmax x s
  | .uand x => Sys2Proof.Machine.execUand x s
  | .uor x => Sys2Proof.Machine.execUor x s
  | .uxor x => Sys2Proof.Machine.execUxor x s
  | .ushl x => Sys2Proof.Machine.execUshl x s
  | .ushr x => Sys2Proof.Machine.execUshr x s
  | .usar x => Sys2Proof.Machine.execUsar x s
  | .umov x => Sys2Proof.Machine.execUmov x s
  | .umovi x => Sys2Proof.Machine.execUmovi x s
  | .umovhi x => Sys2Proof.Machine.execUmovhi x s
  | .usel x => Sys2Proof.Machine.execUsel x s
  | .ulea x => Sys2Proof.Machine.execUlea x s
  | .ucmp x => Sys2Proof.Machine.execUcmp x s
  | .uplut x => Sys2Proof.Machine.execUplut x s
  | .usr x => Sys2Proof.Machine.execUsr x s
  | .ufrom x => Sys2Proof.Machine.execUfrom x s
  | .uld x => Sys2Proof.Machine.execUld x s
  | .ust x => Sys2Proof.Machine.execUst x s
  | .ufadd x => Sys2Proof.Machine.execUfadd x s
  | .ufmul x => Sys2Proof.Machine.execUfmul x s
  | .uffma x => Sys2Proof.Machine.execUffma x s
  | .ucvt x => Sys2Proof.Machine.execUcvt x s
  | .ubra x => Sys2Proof.Machine.execUbra x s
  | .elect x => Sys2Proof.Machine.execElect x s
  | .sleep x => Sys2Proof.Machine.execSleep x s
  | .wake x => Sys2Proof.Machine.execWake x s
  | .bar x => Sys2Proof.Machine.execBar x s
  | .tbar x => Sys2Proof.Machine.execTbar x s
  | .rngwaitF x => Sys2Proof.Machine.execRngwaitF x s
  | .rngwaitE x => Sys2Proof.Machine.execRngwaitE x s
  | .rngsigF x => Sys2Proof.Machine.execRngsigF x s
  | .rngsigE x => Sys2Proof.Machine.execRngsigE x s
  | .yield x => Sys2Proof.Machine.execYield x s
  | .launch x => Sys2Proof.Machine.execLaunch x s
  | .done x => Sys2Proof.Machine.execDone x s
  | .nop x => Sys2Proof.Machine.execNop x s
  | .bincfg x => Sys2Proof.Machine.execBincfg x s
  | .fence x => Sys2Proof.Machine.execFence x s
  | .cmaintClean x => Sys2Proof.Machine.execCmaintClean x s
  | .cmaintInvalidate x => Sys2Proof.Machine.execCmaintInvalidate x s
  | .cmaintCleanInvalidate x => Sys2Proof.Machine.execCmaintCleanInvalidate x s
  | .cmaintDemote x => Sys2Proof.Machine.execCmaintDemote x s
  | .cpy x => Sys2Proof.Machine.execCpy x s
  | .cpydrain x => Sys2Proof.Machine.execCpydrain x s
  | .nbinit x => Sys2Proof.Machine.execNbinit x s
  | .nbarr x => Sys2Proof.Machine.execNbarr x s
  | .nbwait x => Sys2Proof.Machine.execNbwait x s
  | .qwait x => Sys2Proof.Machine.execQwait x s
  | .coll x => Sys2Proof.Machine.execColl x s
  | .setways x => Sys2Proof.Machine.execSetways x s
  | .psnapOpen x => Sys2Proof.Machine.execPsnapOpen x s
  | .psnapClose x => Sys2Proof.Machine.execPsnapClose x s
  | .psnapBegin x => Sys2Proof.Machine.execPsnapBegin x s
  | .psnapPublish x => Sys2Proof.Machine.execPsnapPublish x s
  | .phintHot x => Sys2Proof.Machine.execPhintHot x s
  | .phintCold x => Sys2Proof.Machine.execPhintCold x s
  | .hreloc x => Sys2Proof.Machine.execHreloc x s
  | .bld x => Sys2Proof.Machine.execBld x s
  | .sld x => Sys2Proof.Machine.execSld x s
  | .mma x => Sys2Proof.Machine.execMma x s
  | .mmai x => Sys2Proof.Machine.execMmai x s
  | .zzero x => Sys2Proof.Machine.execZzero x s
  | .zld x => Sys2Proof.Machine.execZld x s
  | .zst x => Sys2Proof.Machine.execZst x s
  | .zrd x => Sys2Proof.Machine.execZrd x s
  | .zwr x => Sys2Proof.Machine.execZwr x s
  | .zpin x => Sys2Proof.Machine.execZpin x s
  | .zatt x => Sys2Proof.Machine.execZatt x s
  | .zdet x => Sys2Proof.Machine.execZdet x s
  | .zrel x => Sys2Proof.Machine.execZrel x s
  | .gdr x => Sys2Proof.Machine.execGdr x s
  | .gdrCq x => Sys2Proof.Machine.execGdrCq x s
  | .gqr x => Sys2Proof.Machine.execGqr x s
  | .gqrCq x => Sys2Proof.Machine.execGqrCq x s
  | .zspill x => Sys2Proof.Machine.execZspill x s
  | .zinfoT x => Sys2Proof.Machine.execZinfoT x s
  | .zinfoH x => Sys2Proof.Machine.execZinfoH x s
  | .trap x => Sys2Proof.Machine.execTrap x s
  | .bpt x => Sys2Proof.Machine.execBpt x s
  | .ckpt x => Sys2Proof.Machine.execCkpt x s
  | .eret x => Sys2Proof.Machine.execEret x s
  | .rdsys x => Sys2Proof.Machine.execRdsys x s
  | .wrsys x => Sys2Proof.Machine.execWrsys x s
  | .wrpkr x => Sys2Proof.Machine.execWrpkr x s
  | .halt x => Sys2Proof.Machine.execHalt x s
  | .pass core fib => Sys2Proof.Machine.execPass core fib s
  | .drain core idx => Sys2Proof.Machine.execDrain core idx s
  | .fill core slot line => Sys2Proof.Machine.execFill core slot line s
  | .evict core line => Sys2Proof.Machine.execEvict core line s
  | .writeBack line => Sys2Proof.Machine.execWriteBack line s
  | .lineWrite eng => Sys2Proof.Machine.execLineWrite eng s
  | .engineCompletion eng => Sys2Proof.Machine.execEngineCompletion eng s
  | .absorbOrAppend idx => Sys2Proof.Machine.execAbsorbOrAppend idx s
  | .transmit port => Sys2Proof.Machine.execTransmit port s
  | .reply idx => Sys2Proof.Machine.execReply idx s
  | .claim eng => Sys2Proof.Machine.execClaim eng s
  | .hold eng => Sys2Proof.Machine.execHold eng s
  | .copyLine eng => Sys2Proof.Machine.execCopyLine eng s
  | .registerProducerCompletion core slot idx => Sys2Proof.Machine.execRegisterProducerCompletion core slot idx s
  | .atomicReply b => Sys2Proof.Machine.execAtomicReply b s
  | .checkpoint core slot => Sys2Proof.Machine.execCheckpoint core slot s
  | .trapDelivery core slot => Sys2Proof.Machine.execTrapDelivery core slot s
  | .trapRecordEnqueueRetry core slot => Sys2Proof.Machine.execTrapRecordEnqueueRetry core slot s
  | .intervalTimerExpiry core slot => Sys2Proof.Machine.execIntervalTimerExpiry core slot s
  | .dispatch part => Sys2Proof.Machine.execDispatch part s
  | .priorityAging part queue => Sys2Proof.Machine.execPriorityAging part queue s
  | .teamReservation part => Sys2Proof.Machine.execTeamReservation part s
  | .crewEnd core slot => Sys2Proof.Machine.execCrewEnd core slot s
  | .binTimerExpiry core slot bin => Sys2Proof.Machine.execBinTimerExpiry core slot bin s
  | .binFire core slot bin => Sys2Proof.Machine.execBinFire core slot bin s
  | .rcvTimeout b => Sys2Proof.Machine.execRcvTimeout b s
  | .sleepTimeout b => Sys2Proof.Machine.execSleepTimeout b s
  | .qwaitTimeout b => Sys2Proof.Machine.execQwaitTimeout b s
  | .qwaitReread b => Sys2Proof.Machine.execQwaitReread b s
  | .yieldExpiry b => Sys2Proof.Machine.execYieldExpiry b s
  | .powerTokenPass die herd => Sys2Proof.Machine.execPowerTokenPass die herd s
  | .matrixUnitExecute gquad => Sys2Proof.Machine.execMatrixUnitExecute gquad s
  | .collTriggerRead eng => Sys2Proof.Machine.execCollTriggerRead eng s
  | .collStep eng input => Sys2Proof.Machine.execCollStep eng input s
  | .collCompletion eng => Sys2Proof.Machine.execCollCompletion eng s
  | .collFailure eng cause => Sys2Proof.Machine.execCollFailure eng cause s
  | .quantumExpiry part => Sys2Proof.Machine.execQuantumExpiry part s
  | .preemptionRequest crews => Sys2Proof.Machine.execPreemptionRequest crews s
  | .lodgeState part => Sys2Proof.Machine.execLodgeState part s
  | .partitionResume part => Sys2Proof.Machine.execPartitionResume part s
  | .debugHalt core slot => Sys2Proof.Machine.execDebugHalt core slot s
  | .singleStep core slot => Sys2Proof.Machine.execSingleStep core slot s
  | .haltRelease core slot => Sys2Proof.Machine.execHaltRelease core slot s
  | .migrationLineCopy part page read => Sys2Proof.Machine.execMigrationLineCopy part page read s
  | .migrationCountWindowEnd => Sys2Proof.Machine.execMigrationCountWindowEnd s
  | .capacityTierExpansion part page => Sys2Proof.Machine.execCapacityTierExpansion part page s
  | .sectorRebuild sector found => Sys2Proof.Machine.execSectorRebuild sector found s
  | .sramUncorrectableError site => Sys2Proof.Machine.execSramUncorrectableError site s
  | .scrubPassStart stack => Sys2Proof.Machine.execScrubPassStart stack s
  | .scrubRead stack read => Sys2Proof.Machine.execScrubRead stack read s
  | .scrubEscalationCheck stack => Sys2Proof.Machine.execScrubEscalationCheck stack s
  | .rowActivationWindowEnd => Sys2Proof.Machine.execRowActivationWindowEnd s
  | .wayMove group pick => Sys2Proof.Machine.execWayMove group pick s
  | .linkDown link => Sys2Proof.Machine.execLinkDown link s
  | .completionTimeout link => Sys2Proof.Machine.execCompletionTimeout link s
  | .lostclr link => Sys2Proof.Machine.execLostclr link s
  | .xlinv part => Sys2Proof.Machine.execXlinv part s
  | .hostWindowAccess part off data => Sys2Proof.Machine.execHostWindowAccess part off data s
  | .bar4Access fn addr data => Sys2Proof.Machine.execBar4Access fn addr data s
  | .ltail fn value => Sys2Proof.Machine.execLtail fn value s
  | .launchSlotProcess fn => Sys2Proof.Machine.execLaunchSlotProcess fn s
  | .flGo fn => Sys2Proof.Machine.execFlGo fn s
  | .flushComplete fn => Sys2Proof.Machine.execFlushComplete fn s
  | .featAccept fn value => Sys2Proof.Machine.execFeatAccept fn value s
  | .functionReset fn => Sys2Proof.Machine.execFunctionReset fn s
  | .contextCreate part => Sys2Proof.Machine.execContextCreate part s
  | .contextDestroy part => Sys2Proof.Machine.execContextDestroy part s
  | .qown part word value => Sys2Proof.Machine.execQown part word value s
  | .quadrantHandover gquad => Sys2Proof.Machine.execQuadrantHandover gquad s
  | .managementRegisterWrite reg value => Sys2Proof.Machine.execManagementRegisterWrite reg value s
  | .firmwareLoad image => Sys2Proof.Machine.execFirmwareLoad image s
  | .managementReset => Sys2Proof.Machine.execManagementReset s
  | .attestationRequest fn nonce => Sys2Proof.Machine.execAttestationRequest fn nonce s
  | .binaryLoad part file req => Sys2Proof.Machine.execBinaryLoad part file req s
  | .binaryUnload part image => Sys2Proof.Machine.execBinaryUnload part image s
  | .reset failed => Sys2Proof.Machine.execReset failed s
  | .thermalLimit die count => Sys2Proof.Machine.execThermalLimit die count s
  | .criticalLimit => Sys2Proof.Machine.execCriticalLimit s
  | .powerDown => Sys2Proof.Machine.execPowerDown s
  | .linkRetrained link => Sys2Proof.Machine.execLinkRetrained link s
  | .writeAcceptedByLink idx => Sys2Proof.Machine.execWriteAcceptedByLink idx s

end Sys2Proof.Machine
end

