-- ==== Sys2Proof/Machine/Issue.lean ====
section
/-! DEFINITION. Issuing: which batches may issue, the issue selectors (R270, R271), one issue with its fetch, the passing of
time, and the steps the machine takes when its schedule names none (DESIGN CHOICE, log 2). -/

namespace Sys2Proof.Machine

/-- Apply a function to a next state. -/
def onNext (o : Out State) (f : State → State) : Out State :=
  match o with
  | .next t => .next (f t)
  | .fault e => .fault e
  | .refused r => .refused r

/-! ### Which batches may issue -/

/-- The batches of a quadrant, between instructions, that no wait and no stop of their crew holds. Those of a halted crew issue by single
steps alone (R329). -/
def State.awakeOn (s : State) (gq : Nat) : List BatchRef :=
  (s.crews.filter fun k => k.core == gq / 4 && !k.halted).flatMap fun k =>
    (k.live.flocks.filter fun f => f.quad == gq % 4).flatMap fun f =>
      (f.batches.filter fun b => !b.mid && k.mayIssue f b).map fun b => refOf k f b

/-- The batches inside an instruction that may go on. -/
def State.midBatches (s : State) : List BatchRef :=
  s.crews.flatMap fun k => k.live.flocks.flatMap fun f => (f.batches.filter fun b => b.mid && k.mayIssue f b).map fun b => refOf k f b

/-! ### One issue -/

/-- The batch's instruction as fetched: the state after the fetch and the instruction, its trap, or nothing where there is no
such batch. -/
def State.fetchFor (s : State) (b : BatchRef) : Option (Iss × Except Trap (State × Instr)) :=
  let s0 := { s with cur := some b, stall := false }
  (s0.iss?).map fun i => (i, s0.fetch i)

/-- The set that a batch's next instruction belongs to: bit 31 of its leading word (R46). -/
def State.setOf (s : State) (b : BatchRef) : Bool :=
  match s.fetchFor b with
  | some (_, .ok (_, ins)) => ins.opcode.1
  | some (i, .error _) => (match s.fetchWord i i.batch.pc with
    | .ok (_, w) => bitAt w 31
    | .error _ => false)
  | none => false

/-- The batch's instruction: the one it is inside, else the one at its PC, fetched; with the state after the fetch. -/
def State.nextInstr (s : State) (i : Iss) : Except Trap (State × Instr) :=
  match i.batch.held with
  | some ins => if i.batch.mid then .ok (s, ins) else s.fetch i
  | none => s.fetch i

/-- A batch that has gone on into an instruction keeps it as it was fetched (R60). -/
def State.keepInstr (s : State) (i : Iss) (ins : Instr) : State :=
  if (s.find i.ref).any fun j => j.batch.mid then s.onBatch i fun b => { b with held := some ins } else s

/-- The trap that a step has given a crew. -/
def State.trapIn (s : State) (core slot : Nat) : Option Trap := (s.crew? core slot).bind fun k => (k.susp.map (·.trap)).or k.heldTrap

/-- A step of a batch whose instruction reads a poisoned register of the banks that have no empty bit: it traps POISON_READ, whatever else
the step would do, unless a fibre meets a lower cause; with the fibres whose lane registers are poisoned (R9, R44). -/
def State.poisonFirst (s : State) (i : Iss) (lanes : List Nat) (o : Out State) : Out State :=
  let t := i.trap .poisonRead (laneMask lanes) 0
  match o with
  | .next u => match u.trapIn i.ref.core i.ref.slot with
    | some v =>
      if v.cause.code < t.cause.code then o
      else .next (s.raise i.ref.core i.ref.slot { t with lanes := if v.cause = t.cause then t.lanes ||| v.lanes else t.lanes })
    | none => .next (s.raise i.ref.core i.ref.slot t)
  | o => o

/-- Issue the batch's next instruction: its fetch, its undo-log entries, its meaning. What only prepares an issue (`cur` cleared) takes
no entry. -/
def State.attempt (s : State) (b : BatchRef) : Out State :=
  let s0 : State := { s with cur := some b, stall := false }
  match s0.iss? with
  | none => .next { s with stall := true }
  | some i => match s0.nextInstr i with
    | .error t => .next (s0.raise b.core b.slot t)
    | .ok (s1, ins) =>
      let n := if i.batch.mid then 0 else s1.undoNeed i ins
      let bad := if i.batch.mid then [] else i.spoilt ins
      let o := match s1.reserveUndo i n with
        | .error e => .next (s1.stopped i e)
        | .ok s2 => onNext (exec ins s2) fun t => if t.stall || t.cur.isNone then t else (t.chargeUndo i n).keepInstr i ins
      if bad.isEmpty then o else s1.poisonFirst i bad o

/-- The batch's issue, once the compressed pages that it touches are expanded (R338). -/
def State.tryIssue (s : State) (b : BatchRef) : Out State := onNext (s.attempt b) s.expandFirst

/-- Is a batch ready: would its instruction take effect, or trap, now (R270)? -/
def State.readyNow (s : State) (b : BatchRef) : Bool := (movedTo (s.attempt b)).isSome

/-! ### The issue selectors (R270) -/

/-- The order of selection: age, then crew slot, flock number and lane slot. -/
def State.issueKey (s : State) (b : BatchRef) : Nat :=
  (((((s.find b).map fun i => i.batch.age).getD 0) * 16 + b.slot) * 32 + b.flock) * 32 + b.lane

/-- The selector of a quadrant and set. -/
def State.selector (s : State) (gq : Nat) (uni : Bool) : Selector :=
  (s.sels.find? fun x => x.gq == gq && x.uni == uni).getD
    { gq := gq, uni := uni, last := { core := 0, slot := 0, flock := 0, lane := 0 }, run := 0, owed := [], at_ := none }

def State.setSelector (s : State) (x : Selector) : State :=
  { s with sels := x :: s.sels.filter fun y => !(y.gq == x.gq && y.uni == x.uni) }

/-- Has a quadrant's selector issued in this cycle (R34, R270)? -/
def Selector.spent (x : Selector) (now : Nat) : Bool := x.at_ == some now

/-- Has the batch issued an instruction of the other set in this cycle? It issues one at a time. -/
def State.justIssued (s : State) (gq : Nat) (uni : Bool) (b : BatchRef) : Bool :=
  let x := s.selector gq !uni
  x.spent s.clock && x.last == b

/-- The ready batches of a quadrant for a set. -/
def State.readyFor (s : State) (gq : Nat) (uni : Bool) : List BatchRef :=
  (s.awakeOn gq).filter fun b => s.setOf b == uni && !s.justIssued gq uni b && s.readyNow b

/-- The batch selected among the ready ones: the oldest, but one that has issued 64 times in a row is passed over while a
batch that was ready then, and is still ready, has not issued since. (DEDUCED, safe, log 55) -/
def State.select (s : State) (gq : Nat) (uni : Bool) (ready : List BatchRef) : Option BatchRef :=
  let x := s.selector gq uni
  if x.spent s.clock then none
  else minBy s.issueKey (ready.filter fun b => !(x.owed.any fun o => o.1 == b && o.2.any ready.contains))

/-- The selector after an issue: each batch that is passed over waits for one fewer, also where it issues itself because none of those is
ready; and one that has issued 64 times in a row while another was ready joins them. -/
def Selector.after (x : Selector) (b : BatchRef) (others : List BatchRef) (now : Nat) : Selector :=
  let owed := (x.owed.map fun o => (o.1, o.2.filter (· != b))).filter fun o => !o.2.isEmpty
  let run := if others.isEmpty then 0 else if x.last == b then x.run + 1 else 1
  if 64 ≤ run then { x with last := b, run := 0, owed := owed ++ [(b, others)], at_ := some now }
  else { x with last := b, run := run, owed := owed, at_ := some now }

/-- Issue of a selected batch: the instruction, then its selector and step record. -/
def State.issueBatch (s : State) (b : BatchRef) (uni : Bool) (others : List BatchRef) : Out State :=
  onNext (s.tryIssue b) fun t =>
    if t.stall || t.cur.isNone then t
    else match ({ s with cur := some b }).iss? with
      | none => t
      | some i => ((t.setSelector ((s.selector i.gq uni).after b others s.clock)).openStep i).closeStep b.core b.slot

/-! ### Single steps (R329) -/

/-- The ready batches of a crew, on whatever quadrant and for whatever set. -/
def State.readyOf (s : State) (k : Crew) : List BatchRef :=
  (k.live.flocks.flatMap fun f => (f.batches.filter fun b => !b.mid && k.mayIssue f b).map fun b => refOf k f b).filter s.readyNow

/-- The batch that a single step of a halted crew advances: the one that R270 would select among the crew's own. -/
def State.stepBatch (s : State) (k : Crew) : Option BatchRef :=
  if k.halted && k.stepPend then minBy s.issueKey (s.readyOf k) else none

/-- The step of a halted crew: its quadrant's selector is used, but not its order among the other crews. -/
def State.issueStep (s : State) (b : BatchRef) : Out State :=
  onNext (s.tryIssue b) fun t =>
    if t.stall || t.cur.isNone then t
    else match ({ s with cur := some b }).iss? with
      | none => t
      | some i => ((t.setSelector { s.selector i.gq (s.setOf b) with at_ := some s.clock }).openStep i).closeStep b.core b.slot

/-! ### Two batches of a crew that trap in one cycle (R330) -/

/-- The trap that the batch's issue would give its crew. -/
def State.trapOf (s : State) (b : BatchRef) : Option Trap :=
  match s.attempt b with
  | .next t => t.trapIn b.core b.slot
  | _ => none

/-- The batches of a core that act in this cycle: those inside an instruction, and those that its selectors take. -/
def State.takenOn (s : State) (core : Nat) : List BatchRef :=
  (s.midBatches.filter fun b => b.core == core) ++ (List.range 4).flatMap fun q => [false, true].filterMap fun uni =>
    s.select (core * 4 + q) uni (s.readyFor (core * 4 + q) uni)

/-- Of two batches of one crew that trap in one cycle only one traps: the one with the lower cause code, then the older, then the one
of the lower flock (R9, R330). Does this one yield to another? -/
def State.yields (s : State) (b : BatchRef) : Bool :=
  match s.trapOf b with
  | none => false
  | some t => (s.takenOn b.core).any fun o => o.slot == b.slot && match s.trapOf o with
    | none => false
    | some u => decide (u.cause.code < t.cause.code)
      || (u.cause.code == t.cause.code && decide (s.issueKey o < s.issueKey b))

/-- Issue of a batch: a batch inside an instruction goes on by itself, a halted crew's is stepped, and another issues if its quadrant's
selector takes it. -/
def State.issue (s : State) (b : BatchRef) : Out State :=
  match s.find b with
  | none => .next { s with stall := true }
  | some i =>
    if i.batch.mid then
      if s.midBatches.contains b && !s.yields b then onNext (s.tryIssue b) fun t => if t.stall then t else t.closeStep b.core b.slot
      else .next { s with stall := true }
    else
      let uni := s.setOf b
      if i.crew.halted then
        if s.stepBatch i.crew = some b && !(s.selector i.gq uni).spent s.clock then s.issueStep b else .next { s with stall := true }
      else
        let ready := s.readyFor i.gq uni
        if s.select i.gq uni ready = some b && !s.yields b then s.issueBatch b uni (ready.filter (· != b))
        else .next { s with stall := true }

/-- The steps of halted crews. -/
def State.stepsDue (s : State) : List BatchRef := s.crews.filterMap s.stepBatch

/-! ### Time -/

/-- Is a matrix-arithmetic instruction of the crew held for its herd's power token alone (R24)? -/
def State.waitsToken (s : State) (k : Crew) : Bool :=
  k.live.flocks.any fun f => f.role == .matrix && f.batches.any fun b => k.mayIssue f b &&
    match s.attempt (refOf k f b) with
    | .next t => t.stall && ((t.crew? k.core k.slot).any fun j => j.ptwait != k.ptwait)
    | _ => false

/-- One cycle is counted: the counter of R22, the interval timers of crews that are not halted (R312), SR.PTWAIT, and what the
dispatcher remembers of its queues' heads (R266, R269). -/
def State.count (s : State) : State :=
  let s1 := s.watchQueues
  { s1 with
    clock := s.clock + 1
    crews := s1.crews.map fun (k : Crew) => { k with
      timer := if k.halted then k.timer else k.timer + 1
      ptwait := if s.waitsToken k then (k.ptwait + 1) % 2 ^ 32 else k.ptwait } }

/-! ### What time brings (R87, R153, R252, R264, R274, R278, R283, R287, R308, R326)

What ends in a cycle whatever else happens in it (an RCV, a sleep, a bin that is due) ends as the cycle is left; what holds from a cycle's
start (YIELD, a re-read, a trigger read, a window or period) as it is reached. -/

/-- References to the batches of the package. -/
def State.batchRefs (s : State) : List BatchRef :=
  s.crews.flatMap fun k => k.live.flocks.flatMap fun f => f.batches.map fun b => refOf k f b

/-- Waits that may end as a cycle is left. -/
def State.atEnd (s : State) : List (State → Option State) :=
  s.batchRefs.flatMap fun b => [fun s => s.rcvTimeout b, fun s => s.sleepTimeout b, fun s => s.qwaitTimeout b]

/-- The first bin that can fire, fired; and one after another, at most `n`. -/
def State.firstBin (s : State) : Option State :=
  s.crews.findSome? fun k => (List.range k.live.bins.length).findSome? fun n => s.binFire k.core k.slot n

def State.fireBins (s : State) : Nat → State
  | 0 => s
  | n + 1 => match s.firstBin with
    | none => s
    | some t => State.fireBins t n

/-- What a cycle's start brings. -/
def State.atStart (s : State) : List (State → Option State) :=
  [State.rowWindowEnd, State.hitWindowEnd]
    ++ (if s.clock % 2 ^ 20 = 0 then (List.range 64).map fun g s => s.wayMove g (Config.freeWord s.fresh (2 ^ 40 + g)).toNat else [])
    ++ s.batchRefs.flatMap (fun b => [fun s => s.yieldExpiry b, fun s => s.qwaitReread b])
    ++ s.engines.map fun e => fun s => (s.engine? e.id).bind s.triggerStep

/-- Do each that can be done. -/
def State.each (s : State) (l : List (State → Option State)) : State := l.foldl (fun s f => (f s).getD s) s

/-- A cycle is left: waits end, and bins fire. -/
def State.leave (s : State) : State :=
  (s.each s.atEnd).fireBins
    (s.crews.foldl (fun n k => k.live.bins.foldl (fun n b => n + b.pending.length) n) 0)

/-- One cycle passes. -/
def State.tick (s : State) : State :=
  let t := s.leave.count
  t.each t.atStart

/-! ### Steps without a schedule (DESIGN CHOICE, log 2) -/

/-- The meaning of an event with its arguments. -/
abbrev Due := State → Out State

/-- Events of a crew that may stand due; its timers end as time passes. -/
def Crew.events (k : Crew) : List Due :=
  [execTrapDelivery k.core k.slot, execCheckpoint k.core k.slot, execTrapRecordEnqueueRetry k.core k.slot]
    ++ (List.range k.prods.length).map (fun n => execRegisterProducerCompletion k.core k.slot n)
    ++ [execCrewEnd k.core k.slot]
    ++ (List.range k.live.bins.length).map (fun n => execBinFire k.core k.slot n)
    ++ (k.live.flocks.flatMap fun f => f.batches.flatMap fun b => match b.wait with
      | .atomic _ => [execAtomicReply (refOf k f b)]
      | _ => [])
    ++ [execIntervalTimerExpiry k.core k.slot]

/-- Events of a partition context. -/
def Context.events (c : Context) : List Due :=
  [execXlinv c.part, execQuantumExpiry c.part, execLodgeState c.part]
    ++ (if c.preempting || !c.waiting.isEmpty then [execPartitionResume c.part] else [])
    ++ c.parked.flatMap (fun k => [execTrapRecordEnqueueRetry k.core k.slot, execCrewEnd k.core k.slot])
    ++ (c.handover.map fun g => execQuadrantHandover g)
    ++ [execDispatch c.part]
    ++ ((List.range 64).filter fun q => (c.lq q).since.isSome).map (fun q => execPriorityAging c.part q)
    ++ (if c.teams.isEmpty then [] else [execTeamReservation c.part])

/-- Events of an engine operation. A collective of this package's members takes their contributions from one another. -/
def Engine.events (s : State) (e : Engine) : List Due :=
  match e.job with
  | .copy _ _ _ _ | .bld _ _ _ _ _ _ _ _ => [execEngineCompletion e.id, execLineWrite e.id]
  | .goat _ _ _ _ _ _ => [execEngineCompletion e.id, execClaim e.id, execHold e.id, execCopyLine e.id]
  | .coll _ _ _ _ _ _ _ _ =>
    [execCollCompletion e.id, execCollTriggerRead e.id] ++ (s.localInputs e).map (fun i => execCollStep e.id i) ++ [execCollStep e.id .own]
  | .migrate ia _ _ _ => [execMigrationLineCopy e.part (ia / 65536) { half := 0, found := .clean }]

/-- Events of the memory side, the network and the host side. -/
def State.sideEvents (s : State) : List Due :=
  (s.sb.map fun e => execPass e.core e.fib)
    ++ (s.rq.map (·.core)).eraseDups.flatMap (fun c =>
      (List.range (s.rq.filter fun e => e.core == c).length).map fun n => execDrain c n)
    ++ (List.range s.replies.length).map (fun n => execReply n)
    ++ (List.range s.arrive.length).map (fun n => execAbsorbOrAppend n)
    ++ (s.reqs.map fun r => execTransmit r.at_)
    ++ (List.range s.linkWait.length).map (fun n => execWriteAcceptedByLink n)
    ++ (s.units.filter fun u => !u.queue.isEmpty).map (fun u => execMatrixUnitExecute u.gq)
    ++ (s.hits.flatMap fun h => [execCapacityTierExpansion (h.1 / 2 ^ 36) (h.1 % 2 ^ 36),
      execMigrationLineCopy (h.1 / 2 ^ 36) (h.1 % 2 ^ 36) { half := 0, found := .clean }])
    ++ (s.posted.map (·.fn)).eraseDups.map (fun fn => execBar4Access fn 0 (.write []))
    ++ (s.fns.flatMap fun f => [execLaunchSlotProcess f.1, execFlushComplete f.1])
    ++ [execPowerDown]

/-- Everything that may stand due, in the order in which it is tried. -/
def State.dueEvents (s : State) : List Due :=
  s.crews.flatMap Crew.events ++ s.sideEvents ++ s.engines.flatMap (Engine.events s) ++ s.ctxs.flatMap Context.events

/-- The first event of a list that is enabled, done, once the compressed pages that it touches are expanded (R338). -/
def firstEvent (s : State) : List Due → Option State
  | [] => none
  | e :: r => match movedTo (onNext (e s) s.expandFirst) with
    | some t => some t
    | none => firstEvent s r

/-- Quadrants with a batch that may issue. -/
def State.busyQuads (s : State) : List Nat :=
  s.crews.foldl (fun l k => k.live.flocks.foldl (fun l f => insertAsc (k.core * 4 + f.quad) l) l) []

/-- The selectors of the busy quadrants, starting with another each cycle. -/
def State.turns (s : State) : List (Nat × Bool) :=
  let l := s.busyQuads.flatMap fun g => [(g, false), (g, true)]
  l.drop (s.clock % l.length) ++ l.take (s.clock % l.length)

/-- The batches that this cycle still owes an action: those inside an instruction, those that the selectors take, each selector coming first
in its turn, and those that are stepped. -/
def State.owedIssues (s : State) : List BatchRef :=
  s.midBatches ++ s.turns.filterMap (fun t => s.select t.1 t.2 (s.readyFor t.1 t.2)) ++ s.stepsDue

/-- The first of them that acts, done. -/
def State.goOn (s : State) : Option State := s.owedIssues.findSome? fun b => movedTo (s.issue b)

/-- A herd whose power token stands unused while another waits. -/
def State.tokenEvents (s : State) : List Due :=
  if s.crews.any s.waitsToken then (List.range 64).map fun g => execPowerTokenPass (g / 8) (g % 8) else []

/-- A step that no schedule names: an event that is due, else a batch acts that this cycle owes an action, else a token moves, else one
cycle passes. -/
def State.autoStep (s : State) : Out State :=
  match firstEvent s s.dueEvents with
  | some t => .next t
  | none => match s.goOn with
    | some t => .next t
    | none => match firstEvent s s.tokenEvents with
      | some t => .next t
      | none => .next s.tick

/-- A timer's end that a cycle brings at its close: nothing else happens in that cycle after it. -/
def endsCycle : Instr → Bool
  | .rcvTimeout _ | .sleepTimeout _ | .qwaitTimeout _ => true
  | _ => false

/-- What a choice picks: the batch issues, or the event happens, once the compressed pages that it touches are expanded (R338). -/
def State.picked (s : State) (p : Pick) : Out State :=
  match p with
  | .issue b => s.issue b
  | .event i =>
    if i.form?.isSome then .next { s with stall := true }
    else onNext (onNext (exec i s) s.expandFirst) fun t => if endsCycle i && !t.stall then t.tick else t

/-- Does a choice let a cycle pass? -/
def Choice.passes (c : Choice) : Bool := decide (0 < c.dt) || match c.pick with
  | .event i => endsCycle i
  | .issue _ => false

/-- A scheduled choice: its cycles pass one at a time, each once the batches that it owes an action have acted (R270, R271), and the choice
stays until they have; then what it picks is done. -/
def State.chosen (s : State) (c : Choice) : Out State :=
  match (if c.passes then s.goOn else none) with
  | some t => .next { t with sched := c :: t.sched }
  | none =>
    if c.dt = 0 then s.picked c.pick
    else
      let t := s.tick
      .next { t with sched := { c with dt := c.dt - 1 } :: t.sched }

/-- One step of a package that has power. (DEDUCED, safe, log 67) -/
def State.advanceBy (s : State) : Out State :=
  let s0 := { s with fresh := s.fresh + 1, stall := false }
  match s.sched with
  | c :: r => ({ s0 with sched := r }).chosen c
  | [] => s0.autoStep

end Sys2Proof.Machine
end

