-- ==== Sys2Proof/Machine/Boot.lean ====
section
/-! DEFINITION. Placing one instruction where the machine fetches next (DESIGN CHOICE, log 13): at the PC of the batch that the schedule
names, or, where none stands there, at the entry of a crew on a partition built for it as firmware, host and loader build
one. -/

namespace Sys2Proof.Machine

/-- The bytes of an instruction whose bits are `w`, bit 0 the lowest bit of the leading word; every bit above `nbits` 0. -/
def tableBytes (nbits w : Nat) : List Byte := leBytes 12 (w % 2 ^ nbits)

/-- The system registers of the partition (DESIGN CHOICE, log 13): quadrant 0, a DEV range register for [0, 64 KiB) and PTROOT; in each
slice group FLOOR 1, which R307 gives a context that owns a quadrant, and CEIL 16. -/
def bootCtx : Context :=
  let c := (((((Context.reset 0).setReg snQown 1).setReg (snRange + 1) 65536).setReg (snRange + 3) 8).setReg snPtroot
    0x10000)
  let c1 := (List.range 64).foldl (fun (c : Context) g => c.setReg (snSlway + g) 0x100100) c
  { c1 with frames := [1, 2] }

/-- Its tables: one entry at each level, the last a DEV leaf at PA 0x20000 with every permission of level U. -/
def bootTables (m : Mem) : Mem :=
  (((m.write 0x10000 (leBytes 8 0x11001)).write 0x11000 (leBytes 8 0x12001)).write 0x12000 (leBytes 8 0x13001)).write
    0x13000 (leBytes 8 0x2003F)

/-- A flock with the role that its first instruction needs (R42). -/
def bootRole (bs : List Byte) : Role :=
  match decode bs with
  | .ok (i, _) => if i.opcode.1 && decide (0x40 ≤ i.opcode.2) && decide (i.opcode.2 ≤ 0x57) then .matrix else .vector
  | .error _ => .vector

/-- The launch of the crew (DESIGN CHOICE, log 13): level F, one crew, entry 0. -/
def bootLaunch : Launch :=
  { id := 1, key := 1, entry := 0, ncrew := 1, queue := 0, level := .f, team := 1, node := none, image := 0, trapArea := 0,
    trapQueue := 0, place := [], kinit := [], producers := [], dispatched := [0], ended := [], bits := [] }

/-- The crew as its dispatch leaves it (R36, R85): one fibre with a window of 256 registers. -/
def bootCrew (role : Role) : Crew :=
  let f : Flock :=
    { num := 0, quad := 0, role := role, k := [], q := 0, wpend := false
      fibres := [newFibre 0 0 256 0 []]
      batches := [{ pc := 0, lanes := [0], age := 0, wait := .none, phase := 0, tag := 0 }] }
  let k := newCrew 0 0 0 bootLaunch 0 0 0
  let c : CrewCore := { k.live with flocks := [f] }
  { k with live := c, saved := c }

/-- A way of each slice group for the partition, as far as one is free (R307). -/
def State.bootWays (s : State) : State :=
  if s.slWays.isEmpty then { s with slWays := (List.range 64).map fun g => (16 * g, 1) }
  else (List.range 64).foldl (fun s g => s.fillFloor 0 g) { s with slWays := s.slWays.filter fun w => w.2 != 1 }

/-- The machine with that partition, every feature accepted for it, and its crew on core 0, chosen to issue. -/
def State.bootWith (s : State) (bs : List Byte) : State :=
  let role := bootRole bs
  let s1 := s.setFn 1 { s.fn 1 with accept := BitVec.allOnes 256 }
  let s2 := { s1 with
    dead := false, stall := false
    mem := (bootTables s.mem).write 0x20000 bs
    home := s.home.filter fun h => decide (h.line < 0x200) || decide (0x408 ≤ h.line)
    tlb := s.tlb.filter fun t => t.part != 0
    icache := s.icache.filter fun f => f.part != 0
    poison := s.poison.filter fun p => decide (p < 0x400) || decide (0x810 ≤ p)
    ctxs := { bootCtx with launches := [bootLaunch] } :: s.ctxs.filter fun c => c.part != 0
    crews := bootCrew role :: s.crews.filter fun k => k.core != 0
    sels := s.sels.filter fun x => x.gq != 0
    sched := [{ dt := 0, pick := .issue { core := 0, slot := 0, flock := 0, lane := 0 } }] }
  if role == .matrix then s2.bootWays.takeUnit 0 0 0 else s2.bootWays

/-- Where the batch that the schedule names fetches its next instruction, if it stands wholly in one page of a class with
home slices. -/
def State.issuePlace (s : State) : Option (Iss × Loc) :=
  match s.sched with
  | [] => none
  | c :: _ => match c.pick with
    | .event _ => none
    | .issue b => match s.find b with
      | none => none
      | some i => match s.translate i.crew.part i.crew.level .fetch i.batch.pc with
        | .error _ => none
        | .ok l => if l.cls == .hostw || l.cls == .pod || decide (65524 < l.pa % 65536) then none else some (i, l)

/-- Write an instruction's bytes where they are fetched. -/
def State.placeCode (s : State) (l : Loc) (bs : List Byte) : State :=
  { s.placeWrite l bs with
    icache := s.icache.filter fun f => decide (f.pa + 4 ≤ l.pa) || decide (l.pa + 12 ≤ f.pa) }

end Sys2Proof.Machine
end

