-- ==== Sys2Proof/Machine/Step.lean ====
section
/-! DEFINITION. One step of the machine, and the placing of an instruction where the next step fetches. -/

namespace Sys2Proof.Machine

/-- Is a reset chosen next? -/
def State.resetDue (s : State) : Bool :=
  match s.sched with
  | c :: _ => match c.pick with
    | .event (.reset _) => true
    | _ => false
  | [] => false

/-- One step: what the schedule chooses next, else what the machine does by itself (DESIGN CHOICE, log 2). A module that has powered down at
the critical limit does nothing more until a reset (R355). (DESIGN CHOICE, safe, log 66) -/
def step (s : State) : Host.Outcome State Fault Refusal :=
  if s.dead && !s.resetDue then .fault .poweredDown else s.advanceBy

/-- The state with an instruction stored where `step` fetches next (DESIGN CHOICE, log 13). -/
def State.withFetchWord (s : State) (nbits w : Nat) : State :=
  match s.issuePlace with
  | some p => s.placeCode p.2 (tableBytes nbits w)
  | none => s.bootWith (tableBytes nbits w)

end Sys2Proof.Machine
end

