-- ==== Sys2Proof/Safety.lean ====
section
/-! DEFINITION. The terms in which statements speak of runs: a powered package with a batch at issue, an instruction that is
neither skipped nor turned away by its role, registers ready to be read and written, and the parts of the state that
an instruction leaves alone. -/

namespace Sys2Proof.Machine

/-! ### An instruction at issue -/

/-- The batch `i` stands at issue in a powered package. -/
structure Issues (s : State) (i : Iss) : Prop where
  powered : s.dead = false
  found : s.iss? = some i

/-- A lane-set instruction acts: some active fibre's guard is true, and the flock is vector (R42, R54, R58). -/
structure LaneRuns (s : State) (i : Iss) (x : Form) : Prop extends Issues s i where
  some_taker : i.takers x ≠ []
  role : i.flock.role = .vector

/-- A uniform-set instruction acts: no UFROM of another batch holds the flock's uniform pipe (R80), its guard is true at issue, and the
flock's role may issue it (R42, R54, R58). -/
structure UniRuns (s : State) (i : Iss) (x : Form) (roles : Roles) : Prop extends Issues s i where
  pipe : i.pipeHeld = false
  guard : i.batch.phase = 0 → guardUni x i.flock = true
  role : roles.allow i.flock.role = true

/-- A lane register that can be read: inside the window, full and not poisoned (R28, R43). -/
def Fibre.readable (f : Fibre) (n : Nat) : Bool := decide (n < f.budget) && (f.reg n).full && !(f.reg n).poison

/-- A lane register that can be written: inside the window, its earlier producer complete (R28, R44). -/
def Fibre.writable (f : Fibre) (n : Nat) : Bool := decide (n < f.budget) && (f.reg n).full

/-- The registers of an operand: one, or an even-aligned pair (R4). -/
def regPair (n : Nat) (wide : Bool) : List Nat := if wide then [n, n + 1] else [n]

/-- The value of a register, or of a pair, zero-extended (R4). -/
def Fibre.value (f : Fibre) (n : Nat) (wide : Bool) : Word64 :=
  if wide then join64 (f.reg n).val (f.reg (n + 1)).val else (f.reg n).val.setWidth 64

/-- No load of the uniform set still has to write one of some registers (R112). -/
def Iss.free (i : Iss) (regs : List (Nat × Bool)) : Bool := regs.all fun p => !i.kBusy p.1 p.2

/-! ### Single fibres and registers -/

/-- The flock that a reference names, and a fibre of it by its lane slot. -/
def State.flockAt (s : State) (r : BatchRef) : Option Flock :=
  (s.crew? r.core r.slot).bind fun k => k.flock? r.flock
def State.fibreAt (s : State) (r : BatchRef) (lane : Nat) : Option Fibre :=
  (s.flockAt r).bind fun f => f.fibre? lane

/-- A fibre takes part in an instruction, and its lane slot is its own among the fibres of its flock. -/
structure Sole (i : Iss) (x : Form) (f : Fibre) : Prop where
  takes : f ∈ i.takers x
  home : i.flock.fibre? f.lane = some f
  alone : ∀ g ∈ i.takers x, g.lane = f.lane → g = f

/-- A lane register holds a value: full and not poisoned. -/
def State.laneHolds (s : State) (r : BatchRef) (lane n : Nat) (v : Word) : Prop :=
  ∃ f, s.fibreAt r lane = some f ∧ f.reg n = { val := v, full := true, poison := false }

/-! ### Frames -/

/-- Nothing but crews changes: memory, caches, buffers, queues, units, contexts, host side and every other part of the
package stand as they were. -/
def OnlyCrews (s t : State) : Prop := t = { s with crews := t.crews }

/-- Nothing changes but one flock of the batch's crew, which becomes `fl`. -/
def OnlyFlock (s t : State) (i : Iss) (fl : Flock) : Prop := t = s.onFlock i fun _ => fl

/-- Every crew but one stands as it was. -/
def OtherCrews (s t : State) (core slot : Nat) : Prop :=
  ∀ c n, (c, n) ≠ (core, slot) → t.crew? c n = s.crew? c n

/-- Every byte of committed memory reads as before, in every partition (R91). -/
def SameCommitted (s t : State) : Prop := ∀ part a, t.committed part a = s.committed part a

/-- The batch at issue has moved past its instruction, and the other batches of its flock stand as they were. -/
def BatchMoved (i : Iss) (words : Nat) (fl : Flock) : Prop :=
  ∃ pre post, i.flock.batches = pre ++ i.batch :: post ∧ fl.batches = pre ++
    { i.batch with pc := pcPlus i.batch.pc words, phase := 0, tag := 0, held := none } :: post

/-- What the participants' registers show of a lane instruction with one result, and what it leaves alone: only the batch's crew
changes, and in it only the batch's place and register D of the participants. -/
structure LaneFrame (s t : State) (i : Iss) (x : Form) (wide : Bool) : Prop where
  only : OnlyCrews s t
  memory : SameCommitted s t
  others : OtherCrews s t i.ref.core i.ref.slot
  moved : ∃ j, t.find i.ref = some j ∧ j.batch = { i.batch with pc := pcPlus i.batch.pc x.words, phase := 0, tag := 0, held := none }
  flocks : ∃ k, t.crew? i.ref.core i.ref.slot = some k ∧ k = { i.crew with live := k.live } ∧
    k.live = { i.crew.live with flocks := k.live.flocks } ∧ ∀ n, n ≠ i.ref.flock → k.flock? n = i.crew.flock? n
  uniform : ∃ fl, t.flockAt i.ref = some fl ∧
    fl = { i.flock with batches := fl.batches, fibres := fl.fibres } ∧ BatchMoved i x.words fl
  regs : ∀ lane f, i.flock.fibre? lane = some f → ∃ g, t.fibreAt i.ref lane = some g ∧
    g = { f with regs := g.regs } ∧ (∀ n ∉ regPair x.dn wide, g.reg n = f.reg n) ∧
    ((∀ p ∈ i.takers x, p.lane ≠ lane) → g = f)

/-- What a uniform instruction with one result writes and what it leaves alone: only the batch's flock changes, and in it only the
batch's place and register D, which is poisoned no more. -/
structure UniFrame (s t : State) (i : Iss) (x : Form) (wide : Bool) (v : Word64) : Prop where
  only : OnlyCrews s t
  memory : SameCommitted s t
  others : OtherCrews s t i.ref.core i.ref.slot
  moved : ∃ j, t.find i.ref = some j ∧ j.batch = { i.batch with pc := pcPlus i.batch.pc x.words, phase := 0, tag := 0, held := none }
  flocks : ∃ k, t.crew? i.ref.core i.ref.slot = some k ∧ k = { i.crew with live := k.live } ∧
    k.live = { i.crew.live with flocks := k.live.flocks } ∧ ∀ n, n ≠ i.ref.flock → k.flock? n = i.crew.flock? n
  uniform : ∃ fl, t.flockAt i.ref = some fl ∧
    fl = { i.flock with k := fl.k, kBad := fl.kBad, batches := fl.batches } ∧ BatchMoved i x.words fl ∧
    (∀ n ∉ regPair x.dn wide, fl.kreg n = i.flock.kreg n) ∧ fl.kreg x.dn = v.setWidth 32 ∧
    (wide = true → fl.kreg (x.dn + 1) = (v >>> 32).setWidth 32) ∧
    ∀ n, n ∈ fl.kBad ↔ n ∈ i.flock.kBad ∧ n ∉ regPair x.dn wide

/-- The canonical form of every memory the package holds. -/
def State.memoryOk (s : State) : Bool :=
  Memory.wf s.mem && Memory.wf s.podMem && Memory.wf s.hw && s.home.all fun h => Memory.wf h.data

end Sys2Proof.Machine
end

