-- ==== Sys2Proof/Certificates/Slice0/Obligations.lean ====
section
/-! DEFINITION. The statements for the provers, each with the rules of spec/ it rests on. Rows of like instructions stand in
tables, so that one statement covers every instruction of its table. -/

open Sys2Proof Sys2Proof.Machine

namespace Sys2Proof.Claims

/-! ### Lane instructions with one result -/

/-- The value of operand A, B and C in a fibre; an immediate replaces B (R51, R67). -/
def ra (x : Form) (f : Fibre) : Word := (f.reg x.an).val
def rb (x : Form) (imm : Word) (f : Fibre) : Word := if x.hasImm then imm else (f.reg x.bn).val
def rc (x : Form) (f : Fibre) : Word := (f.reg x.cn).val

/-- A lane instruction with one result: the lane registers it reads, whether D is a pair, and the value each fibre gets. -/
structure LaneRow where
  ins : Form → Instr
  srcs : Form → List Nat
  wide : Form → Bool
  val : Form → Iss → Fibre → Word64

def row1 (ins : Form → Instr) (op : Form → Iss → Fibre → Word → Word) : LaneRow :=
  { ins := ins, srcs := fun x => [x.an], wide := fun _ => false,
    val := fun x i f => (op x i f (ra x f)).setWidth 64 }

def row2 (ins : Form → Instr) (imm : Form → Word) (op : Form → Iss → Fibre → Word → Word → Word) : LaneRow :=
  { ins := ins, srcs := fun x => if x.hasImm then [x.an] else [x.an, x.bn], wide := fun _ => false,
    val := fun x i f => (op x i f (ra x f) (rb x (imm x) f)).setWidth 64 }

def row3 (ins : Form → Instr) (imm : Form → Word) (op : Form → Iss → Fibre → Word → Word → Word → Word) : LaneRow :=
  { ins := ins, srcs := fun x => if x.hasImm then [x.an, x.cn] else [x.an, x.bn, x.cn], wide := fun _ => false,
    val := fun x i f => (op x i f (ra x f) (rb x (imm x) f) (rc x f)).setWidth 64 }

/-- Integer, logic, shift and bit-field instructions (R68-R73). -/
def intRows : List LaneRow :=
  [ row2 .iadd immWord fun x _ _ a b => out32 x (rd32 x a + rd32 x b),
    row2 .isub immWord fun x _ _ a b => out32 x (rd32 x a - rd32 x b),
    row2 .imul immWord fun x _ _ a b => out32 x (rd32 x a * rd32 x b),
    row2 .imulh immWord fun x _ _ a b => out32 x (rd32 x a * rd32 x b / 2 ^ 32),
    row3 .imad immWord fun x _ _ a b c => out32 x (rd32 x a * rd32 x b + rd32 x c),
    row2 .imin immWord fun x _ _ a b => out32 x (min (rd32 x a) (rd32 x b)),
    row2 .imax immWord fun x _ _ a b => out32 x (max (rd32 x a) (rd32 x b)),
    row1 .iabs fun x _ _ a => out32 x (rd32 x a).natAbs,
    row2 .idiv immWord fun x _ _ a b => aluDiv x a b,
    row2 .irem immWord fun x _ _ a b => aluRem x a b,
    row2 .and immWord fun _ _ _ a b => a &&& b,
    row2 .or immWord fun _ _ _ a b => a ||| b,
    row2 .xor immWord fun _ _ _ a b => a ^^^ b,
    row2 .andn immWord fun _ _ _ a b => a &&& ~~~b ] ++
  [ row3 .blut (fun _ => 0) fun x _ _ a b c => aluBlut x a b c,
    row2 .shl immWord fun _ _ _ a b => a <<< b.toNat,
    row2 .shr immWord fun _ _ _ a b => a >>> b.toNat,
    row2 .sar immWord fun _ _ _ a b => a.sshiftRight b.toNat,
    row2 .rot immWord fun _ _ _ a b => a.rotateLeft (b.toNat % 32),
    row2 .bfx immWord fun x _ _ a b => aluBfx x a b,
    row3 .bfi immWord fun _ _ _ a b c => aluBfi a b c,
    row1 .popc fun _ _ _ a => aluPopc a,
    row1 .clz fun _ _ _ a => aluClz a,
    row1 .brev fun _ _ _ a => aluBrev a,
    row2 .lea immWord fun x _ _ a b => a + b <<< (x.cf % 32),
    row3 .idp4 (fun _ => 0) fun x _ _ a b c => aluIdp4 x a b c ] ++
  [ { ins := .iadd64, srcs := fun x => if x.hasImm then [x.an, x.an + 1] else [x.an, x.an + 1, x.bn, x.bn + 1],
      wide := fun _ => true,
      val := fun x _ f =>
        out64 x (rd64 x (f.value x.an true) + rd64 x (if x.hasImm then immWord64 x else f.value x.bn true)) },
    { ins := .bpick, srcs := fun x => if x.hasImm then [x.an, x.bn] else [x.an, x.bn, x.cn], wide := fun _ => false,
      val := fun x _ f =>
        (aluBpick (ra x f) (f.reg x.bn).val (if x.hasImm then immZWord x else rc x f)).setWidth 64 } ]

/-- Moves (R76). -/
def moveRows : List LaneRow :=
  [ row1 .mov fun _ _ _ a => a,
    row1 .movhi fun x _ _ a => BitVec.ofNat 32 (x.immZ * 65536 + a.toNat % 65536),
    { ins := .movi, srcs := fun _ => [], wide := fun _ => false, val := fun x _ _ => (immWord x).setWidth 64 },
    row2 .sel immWord fun x _ f a b => if f.pred x.cn then a else b,
    { ins := .ptov, srcs := fun _ => [], wide := fun _ => false,
      val := fun x _ f => (ofBits fun j => f.pred (32 * x.an + j)).setWidth 64 } ]

/-- FP32 instructions (R195-R198): `m` stands for a source with its modifiers. -/
def floatRows : List LaneRow :=
  let f1 := fun (ins : Form → Instr) (op : Form → Nat → Nat → Nat → Nat) =>
    row1 ins fun x i f a => BitVec.ofNat 32 (op x f.lane i.batch.pc (modA fp32 x a.toNat))
  let f2 := fun (ins : Form → Instr) (op : ElOp2) =>
    row2 ins immFloat fun x i f a b =>
      BitVec.ofNat 32 (op x.rm x.sat f.lane i.batch.pc (modA fp32 x a.toNat) (modB fp32 x b.toNat))
  [ f2 .fadd (opAdd fp32), f2 .fsub (opSub fp32), f2 .fmul (opMul fp32), f2 .fdiv (opDiv fp32),
    f2 .fmin (fun _ _ _ _ => opMin fp32), f2 .fmax (fun _ _ _ _ => opMax fp32),
    row3 .ffma immFloat fun x i f a b c =>
      BitVec.ofNat 32 (opFma fp32 x.rm x.sat f.lane i.batch.pc (modA fp32 x a.toNat) (modB fp32 x b.toNat)
        (modC fp32 x c.toNat)),
    f1 .fsqrt (fun x => opSqrt fp32 x.rm x.sat), f1 .frcp (fun x => opRcp fp32 x.rm x.sat) ] ++
  [ f1 .frsq (fun _ l p a => evalBounded l p a (frsqOf (BitVec.ofNat 32 a))),
    f1 .fex2 (fun x l p a => evalBounded l p a (fex2Of (BitVec.ofNat 32 a) x.sat)),
    f1 .flg2 (fun _ l p a => evalBounded l p a (flg2Of (BitVec.ofNat 32 a))),
    f1 .fsin (fun _ l p a => evalBounded l p a (fsinOf (BitVec.ofNat 32 a))),
    f1 .fcos (fun _ l p a => evalBounded l p a (fcosOf (BitVec.ofNat 32 a))),
    f1 .frnd (fun x _ _ a => opRnd fp32 x.rm a),
    row2 .fscale immWord fun x i f a b =>
      BitVec.ofNat 32 (opScale fp32 x.rm x.sat f.lane i.batch.pc (modA fp32 x a.toNat) b.toInt),
    row2 .fcpys (fun _ => 0) fun _ _ _ a b => BitVec.ofNat 32 (copySign fp32 a.toNat b.toNat) ]

/-- Packed 16-bit instructions: each half by itself (R199). -/
def packedRows : List LaneRow :=
  let p2 := fun (ins : Form → Instr) (fm : Fmt) (op : ElOp2) =>
    row2 ins immHalf fun x i f a b =>
      let el := fun hi => op x.rm x.sat f.lane i.batch.pc (modA fm x (half hi a.toNat)) (modB fm x (half hi b.toNat))
      pack2 (el false) (el true)
  let p3 := fun (ins : Form → Instr) (fm : Fmt) (op : ElOp3) =>
    row3 ins immHalf fun x i f a b c =>
      let el := fun hi => op x.rm x.sat f.lane i.batch.pc (modA fm x (half hi a.toNat)) (modB fm x (half hi b.toNat))
        (modC fm x (half hi c.toNat))
      pack2 (el false) (el true)
  [ p2 .hadd2 fp16 (opAdd fp16), p2 .hmul2 fp16 (opMul fp16), p3 .hfma2 fp16 (opFma fp16),
    p2 .hmin2 fp16 (fun _ _ _ _ => opMin fp16), p2 .hmax2 fp16 (fun _ _ _ _ => opMax fp16),
    p2 .badd2 bf16 (opAdd bf16), p2 .bmul2 bf16 (opMul bf16), p3 .bfma2 bf16 (opFma bf16) ]

/-- Conversions (R203, R204, R207); CVTP in the form that packs is a row of its own (R205). -/
def convertRows : List LaneRow :=
  [ { ins := .cvt, srcs := fun x => regPair x.an (cvtWidth (x.mf 17 14) == 64),
      wide := fun x => cvtWidth (x.mf 21 18) == 64,
      val := fun x _ f => cvtResult x (f.value x.an (cvtWidth (x.mf 17 14) == 64)) },
    row2 .cvtx immFloat fun x i f a b => cvtxResult x f.lane i.batch.pc a b ]

/-- The values a row gives its participants. -/
def LaneRow.results (r : LaneRow) (x : Form) (i : Iss) : List (Nat × Word64) :=
  (i.takers x).map fun f => (f.lane, r.val x i f)

/-- Every participant's sources can be read and its destination written. -/
def LaneRow.ready (r : LaneRow) (x : Form) (i : Iss) : Prop :=
  ∀ f ∈ i.takers x, (∀ n ∈ r.srcs x, f.readable n = true) ∧ ∀ n ∈ regPair x.dn (r.wide x), f.writable n = true

/-- The instructions of some rows complete with their results. -/
def Complete (rows : List LaneRow) : Prop :=
  ∀ r ∈ rows, ∀ (s : State) (i : Iss) (x : Form), LaneRuns s i x → r.ready x i →
    exec (r.ins x) s = .next (s.laneResult i x (r.wide x) (r.results x i))

end Sys2Proof.Claims

/-- R67-R73: each lane integer, logic, shift and bit-field instruction writes D of every participant with the exact result of
its row, clamped under .SAT and wrapped otherwise, and moves the batch on. -/
def Obligations.LaneIntegerInstructionsComplete : Prop := Claims.Complete Claims.intRows

/-- R76: each lane move writes D of every participant with the value of its row, and moves the batch on. -/
def Obligations.LaneMovesComplete : Prop :=
  Claims.Complete Claims.moveRows ∧
  -- URD: the flock's uniform register
  (∀ (s : State) (i : Iss) (x : Form), LaneRuns s i x → i.free [(x.an, false)] = true →
    (∀ f ∈ i.takers x, f.writable x.dn = true) →
    exec (.urd x) s = .next (s.laneResult i x false ((i.takers x).map fun f => (f.lane, (i.flock.kreg x.an).setWidth 64)))) ∧
  -- VTOP: predicates 32D to 32D + 31 where B has a bit
  (∀ (s : State) (i : Iss) (x : Form), LaneRuns s i x →
    (∀ f ∈ i.takers x, f.readable x.an = true ∧ f.readable x.bn = true) →
    exec (.vtop x) s = .next ((s.onFibres i ((i.takers x).map fun f => (f.lane, (f.reg x.an).val, (f.reg x.bn).val))
      fun v f => vtop x.dn v.1 v.2 f).advance i x.words))

/-- R195-R199: each FP32 and packed 16-bit instruction writes D of every participant with the result of its row, the
sources first modified as MOD says, and moves the batch on. Model's choices: log 5. -/
def Obligations.LaneFloatInstructionsComplete : Prop :=
  Claims.Complete Claims.floatRows ∧ Claims.Complete Claims.packedRows

/-- R203-R207: CVT, CVTX and CVTP write the converted values, the unpacking form of CVTP two or four registers from D on;
CVTQ marks the pair D empty and starts the producers of its quantised value and scale. -/
def Obligations.ConversionsComplete : Prop :=
  Claims.Complete Claims.convertRows ∧
  -- CVTP, packing
  (∀ (s : State) (i : Iss) (x : Form), LaneRuns s i x → x.mb 18 = false →
    (∀ f ∈ i.takers x,
      (∀ n ∈ regPair x.an (decide (3 ≤ x.mf 17 14)) ++ regPair x.bn (decide (3 ≤ x.mf 17 14)), f.readable n = true) ∧
      f.writable x.dn = true) →
    exec (.cvtp x) s = .next (s.laneResult i x false ((i.takers x).map fun f =>
      (f.lane, (cvtPack x (f.value x.an (decide (3 ≤ x.mf 17 14))) (f.value x.bn (decide (3 ≤ x.mf 17 14)))).setWidth
        64)))) ∧
  -- CVTP, unpacking
  (∀ (s : State) (i : Iss) (x : Form), LaneRuns s i x → x.mb 18 = true →
    (∀ f ∈ i.takers x, f.readable x.an = true ∧
      ∀ n, n < (if 3 ≤ x.mf 17 14 then 4 else 2) → f.writable (x.dn + n) = true) →
    exec (.cvtp x) s = .next ((s.onFibres i ((i.takers x).map fun f => (f.lane, cvtUnpack x (f.reg x.an).val))
      fun ws f => f.putList x.dn ws).advance i x.words)) ∧
  -- CVTQ
  (∀ (s : State) (i : Iss) (x : Form), LaneRuns s i x →
    (∀ f ∈ i.takers x, f.readable x.an = true ∧ f.writable x.dn = true ∧ f.writable (x.dn + 1) = true) →
    exec (.cvtq x) s = .next ((s.produce i x true (ready ((i.takers x).map fun f =>
      let sc := cvtqScale (fmtOf (x.mf 17 14)) (((i.takers x).filter fun g =>
        g.lane / (32 / 2 ^ x.mf 12 10) == f.lane / (32 / 2 ^ x.mf 12 10)).map fun g => (g.reg x.an).val)
      (f.lane, join64 (BitVec.ofNat 32 (cvtqValue (fmtOf (x.mf 17 14)) (f.reg x.an).val sc)) (BitVec.ofNat 32 sc))))).advance
      i x.words))

/-- R74, R75, R200-R202: a compare or FCLASS writes the predicates E and D of every participant, E with the complement; PLUT writes
D from its table; and the batch moves on. -/
def Obligations.LanePredicateInstructionsComplete : Prop :=
  -- ICMP
  (∀ (s : State) (i : Iss) (x : Form), LaneRuns s i x →
    (∀ f ∈ i.takers x, ∀ n ∈ regPair x.an (decide (2 ≤ x.ty)) ++
      (if x.hasImm then [] else regPair x.bn (decide (2 ≤ x.ty))), f.readable n = true) →
    exec (.icmp x) s = .next (s.predResult i x (x.mf 26 20) ((i.takers x).map fun f =>
      (f.lane, combine (x.mf 18 17) (icompare (x.mf 16 14) x.ty (f.value x.an (decide (2 ≤ x.ty)))
        (if x.hasImm then immWord64 x else f.value x.bn (decide (2 ≤ x.ty)))) (combPred x f.pred))))) ∧
  -- FCMP, HCMP, BCMP
  (∀ r ∈ [((Instr.fcmp, fp32), (immFloat, fun _ => false)), ((Instr.hcmp, fp16), (immHalf, fun x => x.ty == 1)),
          ((Instr.bcmp, bf16), (immHalf, fun x => x.ty == 1))],
    ∀ (s : State) (i : Iss) (x : Form), LaneRuns s i x →
    (∀ f ∈ i.takers x, ∀ n ∈ if x.hasImm then [x.an] else [x.an, x.bn], f.readable n = true) →
    exec (r.1.1 x) s = .next (s.predResult i x (x.mf 26 20) ((i.takers x).map fun f =>
      (f.lane, fcmpResult r.1.2 x (r.2.2 x) (Claims.ra x f).toNat (Claims.rb x (r.2.1 x) f).toNat f.pred)))) ∧
  -- FCLASS
  (∀ (s : State) (i : Iss) (x : Form), LaneRuns s i x → (∀ f ∈ i.takers x, f.readable x.an = true) →
    exec (.fclass x) s = .next (s.predResult i x (x.mf 26 20) ((i.takers x).map fun f =>
      (f.lane, fclassResult x (Claims.ra x f).toNat)))) ∧
  -- PLUT
  (∀ (s : State) (i : Iss) (x : Form), LaneRuns s i x →
    exec (.plut x) s = .next ((s.onFibres i ((i.takers x).map fun f =>
      (f.lane, lookup (x.cf % 256) (f.pred x.an) (f.pred x.bn) (f.pred x.cn)))
      fun r f => f.setPred x.dn r).advance i x.words))

/-- R21, R22, R77, R78: LANEX exchanges values inside segments and tells each fibre whether its source lane took part; PCOL
collects a predicate over the participants; SR writes D with a special register and latches the count's high half.
Model's choices: log 4. -/
def Obligations.LaneExchangeAndSpecialRegistersComplete : Prop :=
  -- LANEX
  (∀ (s : State) (i : Iss) (x : Form), LaneRuns s i x →
    (∀ f ∈ i.takers x, f.readable x.an = true ∧ f.writable x.dn = true ∧
      (x.mb 21 = true ∨ x.hasImm = true ∨ f.readable x.bn = true)) →
    let ins := (i.takers x).map fun f =>
      (f.lane, (f.reg x.an).val, if x.mb 21 then BitVec.ofNat 32 (x.mf 20 16) else Claims.rb x (immWord x) f)
    let outs := ins.map fun v => (v.1, lanexResult x ins v)
    exec (.lanex x) s = .next (((s.produce i x false (ready (outs.map fun v => (v.1, v.2.1.setWidth 64)))).onFibres i
      (outs.map fun v => (v.1, v.2.2)) fun ok f => f.setPred x.cn ok).advance i x.words)) ∧
  -- PCOL with a value result, and with a predicate result
  (∀ (s : State) (i : Iss) (x : Form), LaneRuns s i x →
    let t := ((i.takers x).filter fun f => f.pred x.an != x.mb 3).map (·.lane)
    (x.mf 2 0 = 0 ∨ x.mf 2 0 = 4 ∨ x.mf 2 0 = 5 → (∀ f ∈ i.takers x, f.writable x.dn = true) →
      exec (.pcol x) s = .next (s.laneResult i x false
        ((i.takers x).map fun f => (f.lane, (pcolValue (x.mf 2 0) t).setWidth 64)))) ∧
    (¬ (x.mf 2 0 = 0 ∨ x.mf 2 0 = 4 ∨ x.mf 2 0 = 5) →
      exec (.pcol x) s = .next ((s.onFibres i ((i.takers x).map fun f =>
        (f.lane, pcolBool (x.mf 2 0) ((i.takers x).map (·.lane)) t)) fun r f => f.setPred x.dn r).advance i x.words))) ∧
  -- SR
  (∀ (s : State) (i : Iss) (x : Form), LaneRuns s i x → (∀ f ∈ i.takers x, f.writable x.dn = true) →
    exec (.sr x) s = .next ((s.onFibres i ((i.takers x).map fun f => (f.lane, srValue s i f x.an))
      fun v f => srLatch s.clock x.an (f.markFull x.dn v)).advance i x.words))

namespace Sys2Proof.Claims

/-! ### Uniform instructions with one result -/

/-- A uniform instruction with one result: the roles that may issue it, whether D is a pair, the uniform registers it names as
sources, and the value. -/
structure UniRow where
  ins : Form → Instr
  roles : Roles
  wide : Form → Bool
  regs : Form → List (Nat × Bool)
  val : Form → Iss → Word64

def ka (x : Form) (i : Iss) : Word := i.flock.kreg x.an
def kb (x : Form) (imm : Word) (i : Iss) : Word := if x.hasImm then imm else i.flock.kreg x.bn
def kc (x : Form) (i : Iss) : Word := i.flock.kreg x.cn

def urow1 (ins : Form → Instr) (op : Form → Word → Word) : UniRow :=
  { ins := ins, roles := .any, wide := fun _ => false, regs := fun x => [(x.an, false)],
    val := fun x i => (op x (ka x i)).setWidth 64 }

def urow2 (ins : Form → Instr) (op : Form → Word → Word → Word) : UniRow :=
  { ins := ins, roles := .any, wide := fun _ => false, regs := fun x => regsAB x,
    val := fun x i => (op x (ka x i) (kb x (immWord x) i)).setWidth 64 }

/-- Uniform integer instructions and moves (R79, R80) and FP32 instructions (R208). -/
def uniRows : List UniRow :=
  [ urow2 .uadd fun x a b => out32 x (rd32 x a + rd32 x b),
    urow2 .usub fun x a b => out32 x (rd32 x a - rd32 x b),
    urow2 .umul fun x a b => out32 x (rd32 x a * rd32 x b),
    { ins := .umad, roles := .any, wide := fun _ => false, regs := regsABC,
      val := fun x i =>
        (out32 x (rd32 x (ka x i) * rd32 x (kb x (immWord x) i) + rd32 x (kc x i))).setWidth 64 },
    urow2 .umin fun x a b => out32 x (min (rd32 x a) (rd32 x b)),
    urow2 .umax fun x a b => out32 x (max (rd32 x a) (rd32 x b)),
    urow2 .uand fun _ a b => a &&& b, urow2 .uor fun _ a b => a ||| b, urow2 .uxor fun _ a b => a ^^^ b,
    urow2 .ushl fun _ a b => a <<< b.toNat, urow2 .ushr fun _ a b => a >>> b.toNat,
    urow2 .usar fun _ a b => a.sshiftRight b.toNat ] ++
  [ urow1 .umov fun _ a => a,
    { ins := .umovi, roles := .any, wide := fun _ => false, regs := fun _ => [],
      val := fun x _ => (immWord x).setWidth 64 },
    urow1 .umovhi fun x a => BitVec.ofNat 32 (x.immZ * 65536 + a.toNat % 65536),
    { ins := .usel, roles := .any, wide := fun _ => false, regs := regsAB,
      val := fun x i => (if i.flock.qpred x.cn then ka x i else kb x (immWord x) i).setWidth 64 },
    urow2 .ulea fun x a b => a + b <<< (x.cf % 32) ] ++
  [ { ins := .ufadd, roles := .vector, wide := fun _ => false, regs := regsAB,
      val := fun x i => BitVec.ofNat 64 (opAdd fp32 x.rm x.sat i.leadLane i.batch.pc (modA fp32 x (ka x i).toNat)
        (modB fp32 x (kb x (immFloat x) i).toNat)) },
    { ins := .ufmul, roles := .vector, wide := fun _ => false, regs := regsAB,
      val := fun x i => BitVec.ofNat 64 (opMul fp32 x.rm x.sat i.leadLane i.batch.pc (modA fp32 x (ka x i).toNat)
        (modB fp32 x (kb x (immFloat x) i).toNat)) },
    { ins := .uffma, roles := .vector, wide := fun _ => false, regs := regsABC,
      val := fun x i => BitVec.ofNat 64 (opFma fp32 x.rm x.sat i.leadLane i.batch.pc (modA fp32 x (ka x i).toNat)
        (modB fp32 x (kb x (immFloat x) i).toNat) (modC fp32 x (kc x i).toNat)) },
    { ins := .ucvt, roles := .vector, wide := fun x => cvtWidth (x.mf 21 18) == 64,
      regs := fun x => [(x.an, cvtWidth (x.mf 17 14) == 64)],
      val := fun x i => cvtResult x (if cvtWidth (x.mf 17 14) == 64 then i.flock.kpair x.an else (ka x i).setWidth 64) } ]

end Sys2Proof.Claims

/-- R79, R80, R208: each uniform arithmetic instruction and move writes D of its flock with the result of its row and moves the
batch on, once no load of the uniform set still has to write a register it names. -/
def Obligations.UniformResultInstructionsComplete : Prop :=
  ∀ r ∈ Claims.uniRows, ∀ (s : State) (i : Iss) (x : Form), UniRuns s i x r.roles →
    i.free ((x.dn, r.wide x) :: r.regs x) = true →
    exec (r.ins x) s = .next (s.uniResult i x (r.wide x) (r.val x i))

/-- R79, R80, R273: UCMP and UPLUT write the flock's predicates, UFROM reads the lane register of the lowest-lane fibre and holds the
uniform pipe for its flock while that is empty, USR reads a special register, and ELECT makes the lowest-lane active fibre the
leader. Model's choices: logs 8 and 36; that the half of a counter which USR leaves is latched in the lead fibre is log 36, and that an
instruction which waits changes only the field stall is log 8. -/
def Obligations.UniformPredicateAndSpecialInstructionsComplete : Prop :=
  -- UCMP
  (∀ (s : State) (i : Iss) (x : Form), UniRuns s i x .any →
    i.free ((x.an, decide (2 ≤ x.ty)) :: if x.hasImm then [] else [(x.bn, decide (2 ≤ x.ty))]) = true →
    exec (.ucmp x) s = .next (s.uniPredResult i x (x.mf 26 20)
      (combine (x.mf 18 17) (icompare (x.mf 16 14) x.ty
        (if 2 ≤ x.ty then i.flock.kpair x.an else (Claims.ka x i).setWidth 64)
        (if x.hasImm then immWord64 x else if 2 ≤ x.ty then i.flock.kpair x.bn else (i.flock.kreg x.bn).setWidth 64))
        (combPred x i.flock.qpred)))) ∧
  -- UPLUT
  (∀ (s : State) (i : Iss) (x : Form), UniRuns s i x .any →
    exec (.uplut x) s = .next ((s.onFlock i fun f => f.setQ x.dn
      (lookup (x.cf % 256) (i.flock.qpred x.an) (i.flock.qpred x.bn) (i.flock.qpred x.cn))).advance i x.words)) ∧
  -- UFROM
  (∀ (s : State) (i : Iss) (x : Form) (f : Fibre), UniRuns s i x .any → i.lead = some f → f.readable x.an = true →
    i.free [(x.dn, false)] = true →
    exec (.ufrom x) s = .next ((s.uniResult i x false ((f.reg x.an).val.setWidth 64)).onFlock i fun g =>
      { g with pipe := none })) ∧
  -- UFROM of a register that is still empty takes the flock's uniform pipe, and no other batch's uniform instruction acts meanwhile
  (∀ (s : State) (i : Iss) (x : Form) (f : Fibre), UniRuns s i x .any → i.lead = some f → x.ea = false →
    x.an < f.budget → (f.reg x.an).full = false → (f.reg x.an).poison = false → i.flock.pipe = none →
    exec (.ufrom x) s = .next ((s.onFlock i fun g => { g with pipe := some i.ref.lane }).onBatch i fun b => { b with phase := 1 })) ∧
  (∀ r ∈ Claims.uniRows, ∀ (s : State) (i : Iss) (x : Form), Issues s i → i.pipeHeld = true →
    exec (r.ins x) s = .next { s with stall := true }) ∧
  -- USR
  (∀ (s : State) (i : Iss) (x : Form) (f : Fibre), UniRuns s i x .any → i.lead = some f →
    i.free [(x.dn, false)] = true →
    exec (.usr x) s = .next ((s.onFibre i f.lane (srLatch s.clock x.an)).uniResult i x false
      ((srValue s i f x.an).setWidth 64))) ∧
  -- ELECT
  (∀ (s : State) (i : Iss) (x : Form), UniRuns s i x .any →
    exec (.elect x) s = .next ((s.onFibres i (i.active.map fun f => (f.lane, f.lane == i.leadLane))
      fun r f => f.setPred x.dn r).advance i x.words))

namespace Sys2Proof.Claims

/-! ### Flow -/

/-- A lane-set instruction that any role may issue acts: some active fibre's guard is true. -/
structure LaneActs (s : State) (i : Iss) (x : Form) : Prop extends Issues s i where
  some_taker : i.takers x ≠ []

/-- The value of register pair A (R4). -/
def pairA (x : Form) (f : Fibre) : Word64 := f.value x.an true

/-- Can a pair be read, or written? -/
def pairReadable (f : Fibre) (n : Nat) : Bool := f.readable n && f.readable (n + 1)
def pairWritable (f : Fibre) (n : Nat) : Bool := f.writable n && f.writable (n + 1)

/-- A register target that a branch may take: its pair can be read and it is 4-aligned (R59, R81). -/
def targetReady (x : Form) (f : Fibre) : Bool := pairReadable f x.an && regTarget (pairA x f) % 4 == 0

end Sys2Proof.Claims

/-- R81-R84, R88: BRA, BRX and RET move every participant to its target and the other active fibres to the next instruction; UBRA
moves the whole batch; CALL and CALLI first write the return address to the pair D; NOP only moves on. -/
def Obligations.BranchesAndCallsComplete : Prop :=
  (∀ (s : State) (i : Iss) (x : Form), LaneRuns s i x →
    exec (.bra x) s = .next (s.fork i x.words ((i.takers x).map (·.lane)) (immTarget x i.batch.pc))) ∧
  (∀ ins ∈ [Instr.brx, Instr.ret], ∀ (s : State) (i : Iss) (x : Form), LaneRuns s i x →
    (∀ f ∈ i.takers x, Claims.targetReady x f = true) →
    exec (ins x) s =
      .next (s.branch i x.words ((i.takers x).map fun f => (f.lane, regTarget (Claims.pairA x f))))) ∧
  (∀ (s : State) (i : Iss) (x : Form), UniRuns s i x .any →
    exec (.ubra x) s = .next (s.onBatch i fun b => { b with pc := immTarget x i.batch.pc })) ∧
  (∀ (s : State) (i : Iss) (x : Form), LaneRuns s i x → (∀ f ∈ i.takers x, Claims.pairWritable f x.dn = true) →
    exec (.call x) s = .next ((s.linkPair i x ((i.takers x).map (·.lane))).fork i x.words ((i.takers x).map (·.lane))
      (immTarget x i.batch.pc))) ∧
  (∀ (s : State) (i : Iss) (x : Form), LaneRuns s i x →
    (∀ f ∈ i.takers x, Claims.targetReady x f = true ∧ Claims.pairWritable f x.dn = true ∧
      ∃ b, s.callBudget i.crew.part (regTarget (Claims.pairA x f)) = some b ∧ b ≤ f.budget) →
    exec (.calli x) s = .next ((s.linkPair i x ((i.takers x).map (·.lane))).branch i x.words
      ((i.takers x).map fun f => (f.lane, regTarget (Claims.pairA x f))))) ∧
  (∀ (s : State) (i : Iss) (x : Form), UniRuns s i x .any → exec (.nop x) s = .next (s.advance i x.words))

/-- R85-R87: RCV makes its batch wait at its address, in the wait open there or in a new one, and a wait that every living fibre
has reached closes; FSPAWN places one pending fibre for each participant; FEND ends its participants. -/
def Obligations.SpawnEndAndReconvergenceComplete : Prop :=
  (∀ (s : State) (i : Iss) (x : Form), LaneRuns s i x →
    exec (.rcv x) s = .next ((s.onBatch i fun b =>
      { b with wait := ((i.flock.batches.find? fun b => b.inRcv i.batch.pc).map (·.wait)).getD
                 (.rcv i.batch.pc (x.mf 15 0) s.clock) }).settle i)) ∧
  (∀ (s : State) (i : Iss) (x : Form) (e : EntryRec), LaneRuns s i x →
    s.entryAt i.crew.part (immTarget x i.batch.pc) = some e → e.bin = true → s.unitBusy i = false →
    (∀ f ∈ i.takers x, x.an + x.bn ≤ f.budget ∧ ∀ n, n < x.bn → f.readable (x.an + n) = true) →
    let s0 := s.onCrew i fun k => k.updLive fun c =>
      (i.takers x).foldl (fun c f => c.completeFibre i.flock.num f.lane) c
    let r := s0.spawnAll i.ref.core i.ref.slot e
      (((i.takers x).map fun f => (List.range x.bn).map fun n => (f.reg (x.an + n)).val).drop i.batch.phase) i.batch.phase
    (r.2 = (i.takers x).length → exec (.fspawn x) s = .next (r.1.advance i x.words)) ∧
    -- the batch stays until every new fibre has its place; how many have one already stands in its phase
    (r.2 ≠ (i.takers x).length → r.2 ≠ i.batch.phase →
      exec (.fspawn x) s = .next (r.1.onBatch i fun b => { b with phase := r.2 }))) ∧
  (∀ (s : State) (i : Iss) (x : Form), Claims.LaneActs s i x → s.unitBusy i = false →
    exec (.fend x) s = .next ((((s.advance i x.words).onCrew i fun k =>
      k.endFibres i.flock.num ((i.takers x).map (·.lane))).dropParticipants i.ref.core i.ref.slot).settleTeam i.crew))

/-- R32: when a batch splits, there is one new batch for each distinct PC, every fibre stands in the batch of its own PC, and no
fibre stands in a batch it did not come to. -/
def Obligations.BatchesSplitByProgramCounter : Prop :=
  ∀ (b : Batch) (pcs : List (Nat × Nat)),
    (∀ p ∈ pcs, ∃ g ∈ splitGroups b pcs [], g.pc = p.2 ∧ p.1 ∈ g.lanes) ∧
    (∀ g ∈ splitGroups b pcs [], g.age = b.age ∧ ∀ l ∈ g.lanes, (l, g.pc) ∈ pcs) ∧
    ((splitGroups b pcs []).map (·.pc)).Nodup

namespace Sys2Proof.Claims

/-! ### Memory -/

/-- The participants of an instruction with a value each, in ascending lane order. -/
def parts {α : Type} (i : Iss) (x : Form) (v : Fibre → α) : List (Fibre × α) :=
  withFibres (i.takers x) ((i.takers x).map fun f => (f.lane, v f))

/-- The address a lane's memory instruction names: bits [56:0] of pair A plus OFF times the access size (R109). -/
def address (x : Form) (f : Fibre) : Nat := memVa x x.size (pairA x f)

/-- A lane's access finds its place: the pair can be read, the address is aligned, and the crew's translation gives `l`. -/
def Reaches (s : State) (i : Iss) (x : Form) (a : Access) (f : Fibre) (l : Loc) : Prop :=
  pairReadable f x.an = true ∧ address x f % x.size = 0 ∧
    s.translate i.crew.part i.crew.level a (address x f) = .ok l

/-- The state after the checkpoint that an access of some lines takes first, where one of them closes the interval (R106, R315). -/
def afterClose (s : State) (i : Iss) (closes : Bool) : State :=
  if closes then s.checkpoint i.ref.core i.ref.slot else s

/-- That checkpoint can be taken. -/
def canClose (s : State) (i : Iss) (closes : Bool) : Prop := closes = true → s.ckptReady i.crew = true

/-- A word that an ordinary cached load finds in no buffer of its core, in a page that may be written, whose line no engine owns and whose
row is not held back: E3 fills from the home slice (R91, R93, R283). -/
def FromHome (s : State) (i : Iss) (l : Loc) (n : Nat) : Prop :=
  (l.cls = .dev ∨ l.cls = .heap) ∧ l.home ≠ 3 ∧ l.ro = false ∧ s.owned i.crew.part (lineOf l.pa) = false ∧
    s.lineWaits i.crew.part (lineOf l.pa) = false ∧
    s.copy? i.ref.core i.crew.part (lineOf l.pa) = none ∧ s.version? i.ref.core i.ref.slot (lineOf l.pa) = none ∧
    l.pa % n = 0 ∧ n ≤ 128 ∧
    (∀ e ∈ s.sb ++ s.rq, e.core = i.ref.core → ∀ k, k < n → e.covers (l.pa + k) = false)

end Sys2Proof.Claims

/-- R105-R112: LD and ULD, once their addresses translate and the interval is closed where a line asks for it, start the producers
of the values their lanes find and move on, an acquire performing E8 as its lines ask. Model's choices: log 30. -/
def Obligations.LoadsComplete : Prop :=
  (∀ (s s2 : State) (i : Iss) (x : Form) (loc : Fibre → Loc) (rs : List (Nat × Word64 × Bool × ProdSrc)),
    LaneRuns s i x → i.batch.phase = 0 →
    (∀ f ∈ i.takers x, Claims.Reaches s i x .load f (loc f) ∧ ∀ n ∈ regPair x.dn (x.w == 1), f.writable n = true) →
    let ls := Claims.parts i x loc
    let c := ls.any fun p => p.2.closes false
    Claims.canClose s i c →
    (Claims.afterClose s i c).loadRun ((Claims.afterClose s i c).again i) x ls = some (s2, rs) →
    exec (.ld x) s = .next ((s2.produce i x (x.w == 1) rs).loadEnd i x (ls.map (·.2)))) ∧
  (∀ (s s2 : State) (i : Iss) (x : Form) (f : Fibre) (l : Loc) (rs : List (Nat × Word64 × Bool × ProdSrc)),
    UniRuns s i x .any → i.batch.phase = 0 → i.lead = some f → i.free [(x.an, true), (x.dn, x.w == 1)] = true →
    memVa x x.size (i.flock.kpair x.an) % x.size = 0 →
    s.translate i.crew.part i.crew.level .load (memVa x x.size (i.flock.kpair x.an)) = .ok l →
    Claims.canClose s i (l.closes false) →
    (Claims.afterClose s i (l.closes false)).loadRun ((Claims.afterClose s i (l.closes false)).again i) x [(f, l)]
      = some (s2, rs) →
    exec (.uld x) s = .next ((s2.produceK i x rs).loadEnd i x [l])) ∧
  -- the second part of an acquire on POD lines, once their replies are in
  (∀ (s : State) (i : Iss) (x : Form), i.batch.phase ≠ 0 → i.awaitsReply = false →
    (LaneRuns s i x → exec (.ld x) s = .next ((s.dropCore i.ref.core).advance i x.words)) ∧
    (UniRuns s i x .any → exec (.uld x) s = .next ((s.dropCore i.ref.core).advance i x.words)))

/-- R91, R93, R107: a plain load, by a batch with one participant, of a word of class DEV or HEAP that no buffer, copy or version of its
core holds starts one producer with the committed bytes, extended as W and SX say; it changes no crew but in that producer and the
batch's place, and no committed byte outside the line that the home slice may replace to hold the word's (R117). Model's choices:
logs 3 and 30. -/
def Obligations.PlainLoadGivesCommittedBytes : Prop :=
  ∀ (s : State) (i : Iss) (x : Form) (f : Fibre) (l : Loc),
    s.memoryOk = true → LaneRuns s i x → i.batch.phase = 0 → i.takers x = [f] → x.mc.scope = .none → x.mc.ord = .plain →
    Claims.Reaches s i x .load f l → (∀ n ∈ regPair x.dn (x.w == 1), f.writable n = true) →
    Claims.FromHome s i l x.size →
    ∃ (t : State) (bad : Bool), exec (.ld x) s = .next ((t.produce i x (x.w == 1)
        [(f.lane, extendLoad x.size x.sx (s.committedVal i.crew.part l.pa x.size), bad, ProdSrc.mem l.pa)]).advance i x.words) ∧
      (∀ part a, s.replaced (s.site l) (lineOf l.pa) ≠ some (lineOf a) → t.committed part a = s.committed part a) ∧ t.crews = s.crews

/-- What a store of some lanes answers, in its first and its second part (R97, R109-R111): a plain store acts after the checkpoint that
a line asks for; a release takes its checkpoint, and follows its rel entry at once where its lines pass a queue below POD scope; else
its batch waits, and the stores are made once the release has drained. -/
def Sys2Proof.Claims.StoreAnswers (out : Host.Outcome State Fault Refusal) (s : State) (i : Iss) (x : Form)
    (ss : List (Fibre × Loc × List Byte)) : Prop :=
  let ls := ss.map (·.2.1)
  let fs := ss.map (·.1)
  let sc := releaseScope x ls
  let stored := fun (t : State) => Host.Outcome.next ({ t with nextTag := t.nextTag + 1 }.advance i x.words)
  let c := ls.any fun l => l.closes true
  let s0 := Claims.afterClose s i c
  let s1 := s.checkpoint i.ref.core i.ref.slot
  -- a plain store
  (i.batch.phase = 0 → x.mc.ord ≠ .release → Claims.canClose s i c → ∀ s2,
    s0.storeAll (s0.again i) false (coversSector ss) x.mc.hint s0.nextTag ss = some s2 → out = stored s2) ∧
  -- a release store, its first part
  (i.batch.phase = 0 → x.mc.ord = .release → s.ckptReady i.crew = true →
    (releaseWaits x ls = false →
      out = stored (s1.releaseStore (s1.again i) sc (coversSector ss) x.mc.hint s1.nextTag ss)) ∧
    (releaseWaits x ls = true → out = .next ((s1.releaseAll i fs sc).onBatch i fun b => { b with phase := 1 }))) ∧
  -- its second part, once its rel entries have drained
  (i.batch.phase ≠ 0 → s.released i fs sc = true → ∀ s2,
    s.storeAll i true (coversSector ss) x.mc.hint s.nextTag ss = some s2 → out = stored s2)

/-- R97, R109-R112: ST and UST put one entry for each lane into the store buffer, or act at once where the line is of a class or page
without one, after the checkpoint that a line or the release asks for; a release store follows its rel entry. -/
def Obligations.StoresComplete : Prop :=
  (∀ (s : State) (i : Iss) (x : Form) (loc : Fibre → Loc), LaneRuns s i x →
    (∀ f ∈ i.takers x, Claims.Reaches s i x .store f (loc f) ∧ ∀ n ∈ regPair x.bn (x.w == 1), f.readable n = true) →
    Claims.StoreAnswers (exec (.st x) s) s i x ((Claims.parts i x fun f => (loc f, f.value x.bn (x.w == 1))).map fun p =>
      (p.1, p.2.1, leBytes x.size p.2.2.toNat))) ∧
  (∀ (s : State) (i : Iss) (x : Form) (f : Fibre) (l : Loc), UniRuns s i x .any → i.lead = some f →
    i.free [(x.an, true), (x.bn, x.w == 1)] = true → memVa x x.size (i.flock.kpair x.an) % x.size = 0 →
    s.translate i.crew.part i.crew.level .store (memVa x x.size (i.flock.kpair x.an)) = .ok l →
    Claims.StoreAnswers (exec (.ust x) s) s i x
      [(f, l, leBytes x.size (if x.w = 1 then (i.flock.kpair x.bn).toNat else (i.flock.kreg x.bn).toNat))])

/-- R91, R93, R110: a plain store of a batch with one participant to a line of class DEV or HEAP outside HOME=11 pages leaves every
committed byte as it was, leaves everything but the store buffer, the translation cache, the pages' access counts, the counter of
tags and the batch's own crew as it was, and puts exactly the bytes of B, lowest first, into the buffer at the translated address. -/
def Obligations.PlainStoreBuffersItsBytes : Prop :=
  ∀ (s : State) (i : Iss) (x : Form) (f : Fibre) (l : Loc),
    LaneRuns s i x → i.batch.phase = 0 → i.takers x = [f] → x.mc.ord ≠ .release →
    (l.cls = .dev ∨ l.cls = .heap) → l.home ≠ 3 → Claims.Reaches s i x .store f l →
    (∀ n ∈ regPair x.bn (x.w == 1), f.readable n = true) →
    ∃ t e, exec (.st x) s = .next t ∧ t.sb = s.sb ++ [e] ∧ e.loc = l ∧ e.core = i.ref.core ∧ e.fib = f.num ∧
      e.kind = .store (leBytes x.size (f.value x.bn (x.w == 1)).toNat) false false ∧ e.hint = x.mc.hint ∧
      SameCommitted s t ∧ t = { s with sb := t.sb, tlb := t.tlb, hits := t.hits, nextTag := t.nextTag, crews := t.crews } ∧
      OtherCrews s t i.ref.core i.ref.slot

/-- R119, R120, R145, R283: PREF moves on whatever its addresses hold, writing no register, once no line that it fills waits for a hot row;
SLICEOF and HOMEOF write where an address lives. -/
def Sys2Proof.Claims.PrefetchAndLocationComplete : Prop :=
  (∀ (s : State) (i : Iss) (x : Form), LaneRuns s i x → (∀ f ∈ i.takers x, Claims.pairReadable f x.an = true) →
    let rowWaits := fun f => (s.prefetched i x (Claims.pairA x f)).any fun l => s.lineWaits l.part (lineOf l.pa)
    ((∀ f ∈ i.takers x, rowWaits f = false) →
      exec (.pref x) s = .next (((Claims.parts i x (Claims.pairA x)).foldl (fun s p => s.prefetch i x p.1 p.2) s).advance
        i x.words)) ∧
    ((∃ f ∈ i.takers x, rowWaits f = true) → exec (.pref x) s = .next { s with stall := true })) ∧
  (∀ (s : State) (i : Iss) (x : Form), LaneRuns s i x →
    (∀ f ∈ i.takers x, Claims.pairReadable f x.an = true ∧ f.writable x.dn = true) →
    exec (.sliceof x) s = .next (s.laneResult i x false ((i.takers x).map fun f =>
      (f.lane, (sliceOf s i.crew.part (Claims.pairA x f)).setWidth 64))) ∧
    exec (.homeof x) s = .next (s.laneResult i x false ((i.takers x).map fun f =>
      (f.lane, (homeOf s i.crew.part (Claims.pairA x f)).setWidth 64))))

/-- R98, R100, R121-R123, R125: FENCE moves on once it has released or acquired at its scope; CMAINT, its interval closed first where
it cleans, maintains every line of its range in ascending order, goes on after a wait with the line that it waited for, and for a
length of 0 only moves on; SETWAYS sets a bank group's way mask and returns the old one.
Model's choices: logs 3 and 22. -/
def Obligations.FenceAndMaintenanceComplete : Prop :=
  -- a plain fence, an acquire fence, and the first part of a release
  (∀ (s : State) (i : Iss) (x : Form), UniRuns s i x .any → i.batch.phase = 0 →
    (x.mc.ord = .plain → exec (.fence x) s = .next (s.advance i x.words)) ∧
    (x.mc.ord = .acquire → ∀ t, s.acquire i x.mc.scope x.mc.rmt = some t →
      exec (.fence x) s = .next (t.advance i x.words)) ∧
    (x.mc.ord = .release ∨ x.mc.ord = .acqRel → s.ckptReady i.crew = true →
      let t := (s.checkpoint i.ref.core i.ref.slot).releaseAll i i.active x.mc.scope
      exec (.fence x) s = .next (if podScope x.mc.scope || (x.mc.ord == .acqRel && !coreScope x.mc.scope) then
        t.onBatch i fun b => { b with phase := 1 } else t.advance i x.words))) ∧
  -- the second part of a fence, once its release has drained
  (∀ (s : State) (i : Iss) (x : Form), UniRuns s i x .any → i.batch.phase ≠ 0 →
    s.released i i.active x.mc.scope = true →
    (x.mc.ord ≠ .acqRel → exec (.fence x) s = .next (s.advance i x.words)) ∧
    (x.mc.ord = .acqRel → ∀ t, s.acquire i x.mc.scope x.mc.rmt = some t →
      exec (.fence x) s = .next (t.advance i x.words))) ∧
  -- CMAINT: its first part where it cleans, and its lines
  (∀ ins ∈ [Instr.cmaintClean, Instr.cmaintInvalidate, Instr.cmaintCleanInvalidate, Instr.cmaintDemote],
    ∀ (s : State) (i : Iss) (x : Form), UniRuns s i x .vector → i.free [(x.an, true), (x.bn, false)] = true →
    let cleans := !(decide (cmOp x = 1) && decide (cmLevel x = 0))
    let lo := (i.flock.kpair x.an).toNat % 2 ^ 57
    let len := (i.flock.kreg x.bn).toNat
    (len = 0 → exec (ins x) s = .next (s.advance i x.words)) ∧
    (len ≠ 0 → i.batch.phase = 0 → cleans = true → s.ckptReady i.crew = true →
      exec (ins x) s = .next (((s.checkpoint i.ref.core i.ref.slot).passBatch i i.active).onBatch i
        fun b => { b with phase := 1 })) ∧
    -- the phase counts the lines done, plus one
    (len ≠ 0 → i.batch.phase ≠ 0 ∨ cleans = false →
      let total := (lo + len - 1) / 128 - lo / 128 + 1
      let done := i.batch.phase - 1
      let walk := s.maintainAll i (cmOp x) (cmLevel x) lo (lo / 128 + done) (total - done)
      (∀ t, walk = .done t → exec (ins x) s = .next (t.advance i x.words)) ∧
      (∀ t left, walk = .waits t left → total - left ≠ done →
        exec (ins x) s = .next (t.onBatch i fun b => { b with phase := total - left + 1 })))) ∧
  -- SETWAYS: a mask of the ways 16 - n to 15 that leaves room for the scratch in use is set; another is refused, which bit 31 of kd says
  (∀ (s : State) (i : Iss) (x : Form) (c : Context), UniRuns s i x .vector →
    i.free [(x.an, false), (x.dn, false)] = true → s.ctx? i.crew.part = some c →
    let v := (i.flock.kreg x.an).toNat
    let g := bits v 17 16
    let old := s.wayMask i.ref.core g
    c.owns (i.ref.core * 4 + g) = true →
    (∀ n, maskWays (bits v 15 0) = some n → s.groupLimit i.ref.core g ≤ n * 2 ^ 14 → s.ckptReady i.crew = true →
      (old ||| bits v 15 0 = bits v 15 0 ∨ (s.checkpoint i.ref.core i.ref.slot).endedCopies i.ref.core = false) →
      exec (.setways x) s = .next (((s.checkpoint i.ref.core i.ref.slot).setWays i.ref.core g (bits v 15 0)).uniResult i
        x false (BitVec.ofNat 64 old))) ∧
    (maskWays (bits v 15 0) = none ∨ (∃ n, maskWays (bits v 15 0) = some n ∧ n * 2 ^ 14 < s.groupLimit i.ref.core g) →
      exec (.setways x) s = .next (s.uniResult i x false (BitVec.ofNat 64 (2 ^ 31 + old)))))

/-- R134, R135, R354: PSNAP closes the interval and, on a POOL range, opens, closes, begins or publishes a version, with its number as
the result; the result is 0 where it can do none of that, on a range of another class, and for a version that lost a write, which is
discarded. PHINT changes nothing but the PC, once no load of the uniform set still has to write its address or length. Model's choices:
log 16. -/
def Sys2Proof.Claims.PoolSnapshotsAndHintsComplete : Prop :=
  (∀ (s : State) (i : Iss) (x : Form) (c : Context) (p : Nat × Range),
    UniRuns s i x .vector → i.free [(x.an, true), (x.dn, false)] = true → s.ctx? i.crew.part = some c →
    c.findRange ((i.flock.kpair x.an).toNat % 2 ^ 57) 0 16 = some p → s.ckptReady i.crew = true →
    let s0 := s.checkpoint i.ref.core i.ref.slot
    let j := s0.again i
    let key := s0.poolKey i.crew.part p.1
    -- the pool as the instruction finds it, with what another module has published
    let s1 := s0.otherVersion i.crew.part p.1 key
    let gives := fun (t : State) (v : Nat) => Host.Outcome.next (t.uniResult i x false (BitVec.ofNat 64 v))
    (p.2.cls ≠ 4 → ∀ ins ∈ [Instr.psnapOpen, Instr.psnapClose, Instr.psnapBegin, Instr.psnapPublish],
      exec (ins x) s = gives s0 0) ∧
    (p.2.cls = 4 →
      -- open: the snapshot the crew has, else a new one of the latest version, of which a crew holds at most four
      (∀ q, j.crew.snap? key = some q → exec (.psnapOpen x) s = gives s1 q.version) ∧
      (j.crew.snap? key = none → j.crew.snaps.length < 4 →
        exec (.psnapOpen x) s = gives (s1.onCrew j fun k =>
          { k with snaps := k.snaps ++ [{ range := key, version := (s1.pool key).latest, mem := s1.frozen i.crew.part }] })
            (s1.pool key).latest) ∧
      (j.crew.snap? key = none → 4 ≤ j.crew.snaps.length → exec (.psnapOpen x) s = gives s1 0) ∧
      -- close
      (∀ q, j.crew.snap? key = some q →
        exec (.psnapClose x) s = gives (s1.onCrew j fun k =>
          { k with snaps := k.snaps.filter fun r => r.range != key }) q.version) ∧
      (j.crew.snap? key = none → exec (.psnapClose x) s = gives s1 0) ∧
      -- begin: the next version, for the only writer
      ((s1.pool key).writer = none → s1.heldElsewhere key = false →
        exec (.psnapBegin x) s = gives ((s1.setPool { s1.pool key with
          writer := some (j.ref.core, j.ref.slot) }).onCrew j fun k =>
            { k with writers := k.writers ++ [{ range := key, version := (s1.pool key).latest + 1, bytes := [], lost := false }] })
              ((s1.pool key).latest + 1)) ∧
      ((s1.pool key).writer ≠ none ∨ s1.heldElsewhere key = true → exec (.psnapBegin x) s = gives s1 0) ∧
      -- publish, once the crew's writes have reached the pool: the version's bytes become committed, but those of one that lost a write
      (s1.poolWrites j.ref.core j.ref.slot = false →
        (∀ w, j.crew.writing key = some w →
          let ended := fun (t : State) => t.onCrew j fun k => { k with writers := k.writers.filter fun v => v.range != key }
          (w.lost = false → exec (.psnapPublish x) s = gives (ended (s1.publishVersion j w)) w.version) ∧
          (w.lost = true →
            exec (.psnapPublish x) s = gives (ended (s1.setPool { s1.pool key with writer := none })) 0)) ∧
        (j.crew.writing key = none → exec (.psnapPublish x) s = gives s1 0)))) ∧
  (∀ ins ∈ [Instr.phintHot, Instr.phintCold], ∀ (s : State) (i : Iss) (x : Form), UniRuns s i x .vector →
    (i.free [(x.an, true), (x.bn, false)] = true → exec (ins x) s = .next (s.advance i x.words)) ∧
    (i.free [(x.an, true), (x.bn, false)] = false → exec (ins x) s = .next { s with stall := true }))

/-- R114-R116: LDS starts the producers of the bytes its lanes find in the crew's scratch; STS gives each lane's bytes to its fibre's
scratch writes, those of the highest lane where lanes meet, once the scratch log has room for the lines.
Model's choices: log 12. -/
def Obligations.ScratchAccessesComplete : Prop :=
  (∀ (s : State) (i : Iss) (x : Form), LaneRuns s i x →
    (∀ f ∈ i.takers x, f.readable x.an = true ∧ (∀ n ∈ regPair x.dn (x.w == 1), f.writable n = true) ∧
      scratchEa i x (Claims.ra x f) % x.size = 0 ∧
      s.scratchOk i.crew (scratchEa i x (Claims.ra x f)) x.size = true) →
    exec (.lds x) s = .next ((s.produce i x (x.w == 1)
      ((Claims.parts i x fun f => (scratchEa i x (Claims.ra x f)).toNat).map fun p =>
        (p.1.lane, extendLoad x.size x.sx (leVal (i.crew.live.scratchRead s.fresh i.flock.num p.1.pend p.1.lane p.2
          x.size)), i.crew.live.scratchBad s.fresh i.flock.num p.1.pend p.1.lane p.2 x.size, ProdSrc.unit))).advance i
      x.words)) ∧
  (∀ (s s1 : State) (i : Iss) (x : Form), LaneRuns s i x →
    (∀ f ∈ i.takers x, f.readable x.an = true ∧ (∀ n ∈ regPair x.bn (x.w == 1), f.readable n = true) ∧
      scratchEa i x (Claims.ra x f) % x.size = 0 ∧
      s.scratchOk i.crew (scratchEa i x (Claims.ra x f)) x.size = true) →
    let vs := (i.takers x).map fun f =>
      (f.lane, (scratchEa i x (Claims.ra x f)).toNat, f.value x.bn (x.w == 1))
    s.reserveScratch i.ref.core i.ref.slot (vs.flatMap fun v => scratchLines v.2.1 x.size) = .ok s1 →
    exec (.sts x) s = .next ({ s1.onFibres i (stsBytes x s1.nextTag vs) fun w f => { f with pend := f.pend ++ [w] } with
      nextTag := s1.nextTag + 1 }.advance i x.words))

/-- R119, R120, R134, R135, R145: prefetch, the location of an address, pool snapshots and hints.
Model's choices: logs 16, 17 and 83. -/
def Obligations.PrefetchLocationAndPoolComplete : Prop := Claims.PrefetchAndLocationComplete ∧ Claims.PoolSnapshotsAndHintsComplete

namespace Sys2Proof.Claims

/-! ### Irrevocable instructions (R140) -/

/-- An irrevocable instruction may begin: its crew is not between two checkpoints already and can be checkpointed. -/
def mayBegin (s : State) (i : Iss) : Prop := i.crew.between = false ∧ s.ckptReady i.crew = true

/-- The state after the first checkpoint, with the destinations of some lanes emptied and the batch waiting in `w`; a
release comes before the wait. -/
def begun (s : State) (i : Iss) (x : Form) (w : AtomWait) (empty : Fibre → Fibre) : State :=
  let s1 := (s.checkpoint i.ref.core i.ref.slot).updCrew i.ref.core i.ref.slot fun k => { k with between := true }
  let s2 := s1.onFibres i (w.lanes.map fun l => (l, ())) fun _ f => empty f
  let s3 := match w.release with
    | none => s2
    | some sc => s2.releaseAll i (i.takers x) sc
  s3.onBatch i fun b => { b with wait := .atomic w }

/-- Must the requests wait for the release to drain: at POD and SYS scope, and where a line passes no queue (R97)? -/
def requestsWait (w : AtomWait) : Bool :=
  match w.release with
  | none => false
  | some sc => podScope sc || w.todo.any fun r => r.loc.cls == .pod || r.loc.cls == .hostw

/-- An instruction that begins waits in `w` with its destinations empty; its requests leave at once, or once its release has
drained. -/
def Begins (ins : Instr) (s : State) (i : Iss) (x : Form) (w : AtomWait) (empty : Fibre → Fibre) : Prop :=
  (requestsWait w = true → exec ins s = .next (begun s i x w empty)) ∧
  (requestsWait w = false → ∀ t,
    sendTodo (begun s i x w empty) ((begun s i x w empty).again i) { w with release := none } = .ok t →
    exec ins s = .next t)

/-- The wait of an ATOM, RED or CAS. -/
def atomWait (i : Iss) (x : Form) (kind : AtomKind) (returns : Bool) (loc : Fibre → Loc) (op : Fibre → AtomOp) : AtomWait :=
  let ls := (i.takers x).map loc
  { kind := kind
    todo := (i.takers x).map fun f => { lane := f.lane, loc := loc f, op := op f, e := f.value x.bn (x.w == 1) }
    release := atomRelease x ls, size := x.size, lanes := (i.takers x).map (·.lane), replies := []
    acquire := if returns then atomAcquire x ls else none, len := x.words, addrs := [] }

/-- A queue descriptor's place: the pair can be read, the address is 64-byte aligned and translates (R151). -/
def ReachesQueue (s : State) (i : Iss) (x : Form) (f : Fibre) (l : Loc) : Prop :=
  pairReadable f x.an = true ∧ (pairA x f).toNat % 2 ^ 57 % 64 = 0 ∧
    s.translate i.crew.part i.crew.level .queue ((pairA x f).toNat % 2 ^ 57) = .ok l

end Sys2Proof.Claims

/-- R137-R140, R151: ATOM, RED, CAS, QENQ and QDEQ, when the words of their lanes translate, take the first checkpoint, empty their
destinations, and send one request per lane in ascending order, behind their release; those that must wait for it are sent when it has
drained. Model's choices: log 31. -/
def Obligations.AtomicsAndQueueOperationsBegin : Prop :=
  -- ATOM and RED
  (∀ (s : State) (i : Iss) (x : Form) (loc : Fibre → Loc), LaneRuns s i x → i.begun = false → Claims.mayBegin s i →
    (∀ f ∈ i.takers x, Claims.Reaches s i x .atomic f (loc f) ∧ ∀ n ∈ regPair x.bn (x.w == 1), f.readable n = true) →
    ((∀ f ∈ i.takers x, ∀ n ∈ regPair x.dn (x.w == 1), f.writable n = true) →
      Claims.Begins (.atom x) s i x (Claims.atomWait i x (.atom x.dn (x.w == 1)) true loc fun _ => .rmw (bits x.cs 6 3))
        fun f => f.empty x.dn (x.w == 1)) ∧
    Claims.Begins (.red x) s i x (Claims.atomWait i x .red false loc fun _ => .rmw (bits x.cs 6 3)) id) ∧
  -- CAS
  (∀ (s : State) (i : Iss) (x : Form) (loc : Fibre → Loc), LaneRuns s i x → i.begun = false → Claims.mayBegin s i →
    (∀ f ∈ i.takers x, Claims.Reaches s i x .atomic f (loc f) ∧
      (∀ n ∈ regPair x.bn (x.w == 1) ++ regPair x.cn (x.w == 1), f.readable n = true) ∧
      ∀ n ∈ regPair x.dn (x.w == 1), f.writable n = true) →
    Claims.Begins (.cas x) s i x
      (Claims.atomWait i x (.atom x.dn (x.w == 1)) true loc fun f => .cas (f.value x.cn (x.w == 1)))
      fun f => f.empty x.dn (x.w == 1)) ∧
  -- QENQ
  (∀ (s : State) (i : Iss) (x : Form) (loc : Fibre → Loc), LaneRuns s i x → i.begun = false → Claims.mayBegin s i →
    (∀ f ∈ i.takers x, Claims.ReachesQueue s i x f (loc f) ∧ ∀ n ∈ regPair x.bn (x.w == 1), f.readable n = true) →
    Claims.Begins (.qenq x) s i x
      { kind := .qenq x.dn
        todo := (i.takers x).map fun f => { lane := f.lane, loc := loc f, op := .qenq, e := f.value x.bn (x.w == 1) }
        release := some .dev, size := x.size, lanes := (i.takers x).map (·.lane), replies := [], acquire := none
        len := x.words, addrs := (i.takers x).map fun f => (f.lane, (loc f).va) } id) ∧
  -- QDEQ
  (∀ (s : State) (i : Iss) (x : Form) (loc : Fibre → Loc), LaneRuns s i x → i.begun = false → Claims.mayBegin s i →
    (∀ f ∈ i.takers x, Claims.ReachesQueue s i x f (loc f) ∧ ∀ n ∈ regPair x.dn (x.w == 1), f.writable n = true) →
    Claims.Begins (.qdeq x) s i x
      { kind := .qdeq x.dn x.bn (x.w == 1)
        todo := (i.takers x).map fun f => { lane := f.lane, loc := loc f, op := .qdeq, e := 0 }
        release := none, size := x.size, lanes := (i.takers x).map (·.lane), replies := []
        acquire := some (.dev, false), len := x.words
        addrs := (i.takers x).map fun f => (f.lane, (loc f).va) } fun f => f.empty x.dn (x.w == 1)) ∧
  -- one that waits for its release sends its requests once that has drained
  (∀ ins ∈ [Instr.atom, .red, .cas, .qenq, .qdeq, .hrefPin, .hrefUnpin, .hnew], ∀ (s t : State) (i : Iss) (x : Form) (w : AtomWait), LaneRuns s i x →
    i.batch.wait = .atomic w → w.todo ≠ [] → sendTodo s i w = .ok t → exec (ins x) s = .next t)

/-- R138, R140, R152, R161: ATOMIC_REPLY finishes the instruction of a waiting batch whose last reply is in and whose crew's producers
have completed: each reply is written, the acquire performed, the batch moved past its instruction and the second checkpoint taken;
where the descriptor or the pins of some lanes were refused, the crew traps from that checkpoint, with those lanes and the address of
the lowest. -/
def Obligations.AtomicReplyFinishesTheInstruction : Prop :=
  ∀ (s t : State) (b : BatchRef) (i : Iss) (w : AtomWait), s.dead = false → s.find b = some i →
    i.batch.wait = .atomic w → s.atomDone i w = true → s.ckptDrained i.crew = true →
    let s1 := s.onFibres i (w.replies.map fun r => (r.lane, r)) fun r f => w.kind.write r f
    (match w.acquire with
      | some (sc, rmt) => s1.acquire i sc rmt
      | none => some s1) = some t →
    let s3 := t.onBatch i fun b => { b with pc := pcPlus b.pc w.len, wait := .none, phase := 0, tag := 0, held := none }
    let ends := fun (u : State) => Host.Outcome.next ((u.secondCkpt i.ref.core i.ref.slot).closeStep i.ref.core i.ref.slot)
    let bad := (w.replies.filter (·.refused)).map (·.lane)
    let traps := fun (va : Nat) => s3.raise i.ref.core i.ref.slot (i.trap w.kind.refusal (laneMask bad) va)
    (bad = [] → exec (.atomicReply b) s = ends s3) ∧
    (bad ≠ [] →
      (∀ a, w.addrs.find? (fun a => bad.contains a.1) = some a → exec (.atomicReply b) s = ends (traps a.2)) ∧
      (w.addrs.find? (fun a => bad.contains a.1) = none → exec (.atomicReply b) s = ends (traps 0)))

/-- R138: a read-modify-write that reaches its home, its sector not poisoned and no crew version in the way, leaves there what its
operation makes of the word and the operand, for every other byte the committed value it had but in a line that the home slice
replaced to hold the word's (R117), and replies with the old word. Model's choices: logs 3 and 24. -/
def Obligations.AtomicActsOnTheCommittedWord : Prop :=
  ∀ (s t : State) (e : Entry) (aop n : Nat) (v : Word64), s.memoryOk = true → n = 4 ∨ n = 8 → e.kind = .atomic (.rmw aop) n v →
    e.loc.cls = .dev → e.loc.home ≠ 3 → e.loc.pa % n = 0 → s.entryLost e = false →
    s.rangeBad e.loc.pa n = false → s.version? e.core e.slot e.line = none →
    s.applyEntry e = some t →
    t.committedBytes e.loc.part e.loc.pa n =
      leBytes n (rmwValue aop n e.lane e.pc (s.committedVal e.loc.part e.loc.pa n) v.toNat) ∧
    (∀ part a, (a < e.loc.pa ∨ e.loc.pa + n ≤ a) → s.replaced (s.site e.loc) e.line ≠ some (lineOf a) →
      t.committed part a = s.committed part a) ∧
    ∃ u : State, t = u.atomReply e
      { lane := e.lane, val := BitVec.ofNat 64 (s.committedVal e.loc.part e.loc.pa n), status := false, poison := false,
        refused := false }

/-- R153: QWAIT takes a checkpoint, checks the descriptor at its home, and moves on with q set where an element waits; else its flock
is entered in the waiter list and the batch waits. A descriptor that fails its check traps QUEUE_DESC; a poisoned one is left alone and
gives q false. Model's choices: logs 8 and 23. -/
def Obligations.QueueWaitCompletes : Prop :=
  ∀ (s : State) (i : Iss) (x : Form) (l : Loc), UniRuns s i x .vector → i.free [(x.an, true)] = true →
    (i.flock.kpair x.an).toNat % 2 ^ 57 % 64 = 0 →
    s.translate i.crew.part i.crew.level .queue ((i.flock.kpair x.an).toNat % 2 ^ 57) = .ok l →
    s.ckptReady i.crew = true →
    let s1 := s.checkpoint i.ref.core i.ref.slot
    let d := s1.qdesc l
    s1.owned l.part (lineOf l.pa) = false →
    let s2 := s1.cacheLeaf i.crew.part l
    (s1.rangeBad l.pa 64 = true →
      exec (.qwait x) s = .next (((s2.logError 4 l.pa l.ia).onFlock i fun f => f.setQ x.dn false).advance i x.words)) ∧
    (s1.rangeBad l.pa 64 = false → d.ok none = false →
      exec (.qwait x) s = .next (s2.raise i.ref.core i.ref.slot (i.trap .queueDesc (maskOf i.active) l.va))) ∧
    (s1.rangeBad l.pa 64 = false → d.ok none = true → 0 < d.used →
      exec (.qwait x) s = .next ((s2.onFlock i fun f => f.setQ x.dn true).advance i x.words)) ∧
    (s1.rangeBad l.pa 64 = false → d.ok none = true → d.used ≤ 0 →
      let p := s2.qlist l (waiterWord i.crew.part i.ref.core i.ref.slot i.flock.num)
      exec (.qwait x) s = .next (p.1.onBatch i fun b =>
        { b with
          pc := pcPlus b.pc x.words, phase := 0, tag := 0, held := none
          wait := .qwait x.dn l p.2 (x.mf 15 0) s.clock (s.clock + 1024) i.batch.pc }))

/-- R154-R160: HLD and HST, once the objects their references name resolve, heal their base registers and load or store at the
resolved places. -/
def Obligations.HeapAccessesComplete : Prop :=
  (∀ (s s2 : State) (i : Iss) (x : Form) (c : Context) (hl : Fibre → HeapLoc)
    (rs : List (Nat × Word64 × Bool × ProdSrc)),
    LaneRuns s i x → s.ctx? i.crew.part = some c →
    (∀ f ∈ i.takers x, heapEa s i c x .load f = .ok (hl f) ∧
      (if x.ref then i.hBusy f.lane x.dn = false else ∀ n ∈ regPair x.dn (x.w == 1), f.writable n = true)) →
    let hs := (i.takers x).map fun f => (f.lane, hl f)
    let s1 := s.healBase i c x hs
    let ls := Claims.parts i x fun f => (hl f).loc
    s1.loadRun (s1.again i) x ls = some (s2, rs) →
    (x.ref = false → exec (.hld x) s = .next ((s2.produce i x (x.w == 1) rs).loadEnd i x (ls.map (·.2)))) ∧
    (x.ref = true →
      let h := s2.healAll c i.ref.core ((i.takers x).map fun f => (f.lane, (hl f).loc)) rs
      exec (.hld x) s = .next ((h.1.produceH i x h.2).loadEnd i x (ls.map (·.2))))) ∧
  (∀ (s : State) (i : Iss) (x : Form) (c : Context) (hl : Fibre → HeapLoc) (t : State),
    LaneRuns s i x → s.ctx? i.crew.part = some c →
    (∀ f ∈ i.takers x, heapEa s i c x .store f = .ok (hl f) ∧
      (if x.ref then i.hBusy f.lane x.bn = false else ∀ n ∈ regPair x.bn (x.w == 1), f.readable n = true)) →
    let data := fun (f : Fibre) => if x.ref then f.h x.bn else f.value x.bn (x.w == 1)
    let s1 := s.healBase i c x ((i.takers x).map fun f => (f.lane, hl f))
    storeRun s1 (s1.again i) x ((Claims.parts i x fun f => (hl f, data f)).map fun p =>
      (p.1, p.2.1.loc, leBytes x.size p.2.2.toNat)) = .ok t →
    exec (.hst x) s = .next t)

/-- R161, R162: HREF.MOV, FROM, TO, ISNULL and CMP write a reference register, a pair or a predicate; PIN, UNPIN and HNEW begin as
irrevocable instructions. -/
def Sys2Proof.Claims.ReferenceInstructionsComplete : Prop :=
  (∀ (s : State) (i : Iss) (x : Form), LaneRuns s i x → (∀ f ∈ i.takers x, i.hBusy f.lane x.an = false) →
    exec (.hrefIsnull x) s = .next ((s.onFibres i ((i.takers x).map fun f => (f.lane, refTag (f.h x.an) == 0))
      fun r f => f.setPred x.dn r).advance i x.words) ∧
    ((∀ f ∈ i.takers x, i.hBusy f.lane x.dn = false) →
      exec (.hrefMov x) s = .next ((s.onFibres i ((i.takers x).map fun f => (f.lane, f.h x.an))
        fun r f => f.setH x.dn r).advance i x.words)) ∧
    ((∀ f ∈ i.takers x, Claims.pairWritable f x.dn = true) →
      exec (.hrefTo x) s = .next (s.laneResult i x true ((i.takers x).map fun f => (f.lane, f.h x.an))))) ∧
  (∀ (s : State) (i : Iss) (x : Form), LaneRuns s i x →
    (∀ f ∈ i.takers x, Claims.pairReadable f x.an = true ∧ i.hBusy f.lane x.dn = false) →
    exec (.hrefFrom x) s = .next ((s.onFibres i ((i.takers x).map fun f => (f.lane, Claims.pairA x f))
      fun r f => f.setH x.dn r).advance i x.words)) ∧
  (∀ (s : State) (i : Iss) (x : Form) (c : Context) (ba bb : Fibre → Option Nat), LaneRuns s i x →
    s.ctx? i.crew.part = some c →
    (∀ f ∈ i.takers x, i.hBusy f.lane x.an = false ∧ i.hBusy f.lane x.bn = false ∧
      baseOf s c i.ref.core (f.h x.an) = .ok (ba f) ∧ baseOf s c i.ref.core (f.h x.bn) = .ok (bb f)) →
    exec (.hrefCmp x) s = .next ((s.onFibres i ((i.takers x).map fun f =>
      (f.lane, sameObject (f.h x.an) (f.h x.bn) (ba f) (bb f))) fun r f => f.setPred x.dn r).advance i x.words)) ∧
  -- PIN and UNPIN
  (∀ (s : State) (i : Iss) (x : Form) (c : Context) (loc : Fibre → Loc), LaneRuns s i x → i.begun = false →
    Claims.mayBegin s i → s.ctx? i.crew.part = some c →
    (∀ f ∈ i.takers x, i.hBusy f.lane x.an = false ∧ c.usable (f.h x.an) = true ∧
      heapPage s i c .atomic (refBase (f.h x.an)) = .ok (loc f)) →
    let w := fun (k : AtomKind) (op : AtomOp) =>
      ({ kind := k, todo := (i.takers x).map fun f => { lane := f.lane, loc := loc f, op := op, e := f.h x.an }
         release := none, size := 8, lanes := (i.takers x).map (·.lane), replies := [], acquire := none
         len := x.words, addrs := [] } : AtomWait)
    ((∀ f ∈ i.takers x, Claims.pairWritable f x.dn = true) →
      Claims.Begins (.hrefPin x) s i x (w (.pin x.dn) .pin) fun f => f.empty x.dn true) ∧
    Claims.Begins (.hrefUnpin x) s i x (w .unpin .unpin) id) ∧
  -- HNEW: the lanes whose size and region may be allocated send a request; the others have a null reference at once
  (∀ (s : State) (i : Iss) (x : Form) (c : Context) (loc : Fibre → Option Loc), LaneRuns s i x → i.begun = false →
    Claims.mayBegin s i → s.ctx? i.crew.part = some c →
    let size := fun (f : Fibre) => if x.hasImm then x.immZ else (Claims.ra x f).toNat
    (∀ f ∈ i.takers x, (x.hasImm = true ∨ f.readable x.an = true) ∧ i.hBusy f.lane x.dn = false ∧
      match loc f with
      | none => size f < 16 ∨ 65536 < size f ∨ c.regionValid (x.mf 8 0) = false
      | some l => 16 ≤ size f ∧ size f ≤ 65536 ∧ c.regionValid (x.mf 8 0) = true ∧
        s.pageCheck c i.crew.level .atomic .dev (c.regionAlloc (x.mf 8 0)) (c.regionAlloc (x.mf 8 0)) 0 = .ok l) →
    Claims.Begins (.hnew x) s i x
      { kind := .hnew x.dn
        todo := (i.takers x).filterMap fun f => (loc f).map fun l =>
          { lane := f.lane, loc := l, op := .hnew (x.mf 8 0) (size f), e := 0 }
        release := none, size := 8, lanes := (i.takers x).map (·.lane)
        replies := ((i.takers x).filter fun f => (loc f).isNone).map fun f =>
          { lane := f.lane, val := 0, status := false, poison := false, refused := false }
        acquire := none, len := x.words, addrs := [] } id)

/-- An instruction that hands work to an engine: its first part releases at DEV; once the release has drained and the crews other than
its own that hold a version of one of some lines are checkpointed, its own crew's checkpoint is taken with the batch at this
instruction, and in the same step `add` hands the work over under a new number and the batch moves on (R99, R315). -/
def Sys2Proof.Claims.HandsOver (out : Host.Outcome State Fault Refusal) (s : State) (i : Iss) (words : Nat) (lines : List Nat)
    (add : State → Nat → State) : Prop :=
  (i.batch.phase = 0 → out = .next ((s.releaseAll i i.active .dev).onBatch i fun b => { b with phase := 1 })) ∧
  (i.batch.phase ≠ 0 → s.drained i.ref.core i.batch.tag = true → ∀ s1, ckptOthers s (s.otherHolders i lines) = some s1 →
    let s2 := s1.onBatch i fun b => { b with phase := 0, tag := 0, held := none }
    s2.ckptReady i.crew = true →
    let s3 := s2.checkpoint i.ref.core i.ref.slot
    out = .next ((add { s3 with nextTag := s3.nextTag + 1 } s3.nextTag).advance i words))

/-- R99, R154, R163: HRELOC, at level T or F with a list whose pages allow it and whose sources are usable, hands the list to the Goat of its die. -/
def Sys2Proof.Claims.RelocationIsHandedOver : Prop :=
  ∀ (s : State) (i : Iss) (x : Form) (c : Context) (l : Loc), UniRuns s i x .vector → s.ctx? i.crew.part = some c →
    i.crew.level ≠ .u → i.free [(x.an, true), (x.an + 2, false)] = true →
    let n := (i.flock.kreg (x.an + 2)).toNat
    (checkList s i ((i.flock.kpair x.an).toNat % 2 ^ 57) n).bind (checkSources s c n) = .ok l → s.goatsOf i.crew < 2 →
    let lines := fun (t : State) => t.goatLines c i.crew.level l.ia n
    Claims.HandsOver (exec (.hreloc x) s) s i x.words (lines s) fun t id => { t with
      engines := t.engines ++ [i.engine id (lines t) (some x.dn) (.goat (dieOf i.ref.core) l.ia n 0 false none)] }

/-- R155-R163: the instructions on references and objects, and HRELOC, which hands its list to the Goat.
Model's choices: logs 38 and 39. -/
def Obligations.ReferencesAndRelocationComplete : Prop := Claims.ReferenceInstructionsComplete ∧ Claims.RelocationIsHandedOver

/-- R126, R127: NBINIT sets a named barrier's expected count and clears its count, NBARR copies its phase and arrives, and NBWAIT moves
on at once where the phase differs from the flock's predicate, else waits past its instruction. -/
def Obligations.NamedBarriersComplete : Prop :=
  (∀ (s : State) (i : Iss) (x : Form), UniRuns s i x .vectorCopy →
    (i.free (if x.hasImm then [] else [(x.an, false)]) = true →
      exec (.nbinit x) s = .next ((s.changeNb i.ref.core i.ref.slot x.dn fun b =>
        { b with expect := (if x.hasImm then x.immZ else (i.flock.kreg x.an).toNat) % 4096, count := 0,
                 engNow := false }).advance i x.words)) ∧
    (s.unitBusy i = false →
      let s1 := s.onFlock i fun f => f.setQ x.dn (i.crew.live.nbar x.an).phase
      ((i.crew.live.nbar x.an).expect = 0 → exec (.nbarr x) s = .next (s1.advance i x.words)) ∧
      ((i.crew.live.nbar x.an).expect ≠ 0 → exec (.nbarr x) s =
        .next (((s1.settleFibres i).changeNb i.ref.core i.ref.slot x.an fun b => b.arrive false).advance i x.words))) ∧
    ((i.crew.live.nbar x.an).ends (i.flock.qpred x.bn) = false →
      exec (.nbwait x) s = .next ((s.advance i x.words).onBatch i fun y =>
        { y with wait := .nb x.an (i.flock.qpred x.bn) })) ∧
    ((i.crew.live.nbar x.an).ends (i.flock.qpred x.bn) = true →
      exec (.nbwait x) s = .next (if (i.crew.live.nbar x.an).engine && (i.crew.live.nbar x.an).phase != i.flock.qpred x.bn
        then (s.advance i x.words).dropCore i.ref.core else s.advance i x.words)))

/-- R127: an arrival raises a barrier's count; the arrival that reaches the expected count clears the count and changes the phase;
a barrier that expects none ignores it. -/
def Obligations.BarrierPhaseChangesAtItsCount : Prop :=
  ∀ (b : NBar) (e : Bool),
    (b.expect = 0 → b.arrive e = b) ∧
    (b.expect ≠ 0 → b.expect ≤ b.count + 1 → (b.arrive e).phase = !b.phase ∧ (b.arrive e).count = 0) ∧
    (b.count + 1 < b.expect → (b.arrive e).phase = b.phase ∧ (b.arrive e).count = b.count + 1) ∧
    (b.arrive e).expect = b.expect

/-- R274-R278: SLEEP, WAKE, YIELD, BAR, TBAR and the ring instructions act on their waits: a SLEEP that finds a wake pending ends at
once and takes it, WAKE ends the flock's sleeps or stays pending, YIELD makes its batch the youngest, BAR counts its fibres in,
RNGWAIT passes a slot in the state it names, and RNGSIG gives a slot its state. Model's choices: logs 8, 32 and 35. -/
def Obligations.WaitsAndSignalsComplete : Prop :=
  (∀ (s : State) (i : Iss) (x : Form), UniRuns s i x .any →
    -- SLEEP
    (i.flock.wpend = true → exec (.sleep x) s =
      .next ((s.advance i x.words).onFlock i fun f => { f.setQ x.dn true with wpend := false })) ∧
    (i.flock.wpend = false → (x.mb 16 && (i.crew.live.nbar x.an).phase != i.flock.qpred x.bn) = true →
      exec (.sleep x) s = .next ((s.advance i x.words).onFlock i fun f => f.setQ x.dn true)) ∧
    (i.flock.wpend = false → (x.mb 16 && (i.crew.live.nbar x.an).phase != i.flock.qpred x.bn) = false →
      exec (.sleep x) s = .next ((s.advance i x.words).onBatch i fun b =>
        { b with wait := .sleep x.dn (if x.mb 16 then some (x.an, x.bn) else none) (x.mf 15 0) s.clock })) ∧
    -- YIELD
    exec (.yield x) s = .next ((s.advance i x.words).onBatch i fun b =>
      { b with age := s.clock, wait := .yield (s.clock + max 1 (x.mf 15 0)) }) ∧
    -- WAKE and BAR
    (s.unitBusy i = false →
      exec (.wake x) s = .next (((s.onCrew i fun k => k.updLive fun c =>
        i.active.foldl (fun c f => c.completeFibre i.flock.num f.lane) c).onFlock i Flock.wake).advance i x.words) ∧
      exec (.bar x) s = .next (((((s.settleFibres i).onCrew i fun k => k.updLive fun c =>
        { c with arr := c.arr + i.active.length }).advance i x.words).onBatch i fun b =>
          { b with wait := .bar }).settle i)) ∧
    -- rings
    (i.free (if x.hasImm then [] else [(x.bn, false)]) = true →
      ∀ r ∈ [(Instr.rngwaitF, true), (Instr.rngwaitE, false)],
        exec (r.1 x) s = .next (if i.crew.live.ringFull x.an (ringSlot x i) = r.2 then s.advance i x.words
          else (s.advance i x.words).onBatch i fun b => { b with wait := .ring x.an (ringSlot x i) r.2 })) ∧
    (i.free (if x.hasImm then [] else [(x.bn, false)]) = true → s.unitBusy i = false →
      ∀ r ∈ [(Instr.rngsigF, true), (Instr.rngsigE, false)],
        exec (r.1 x) s = .next (((s.settleFibres i).onCrew i fun k => k.updLive fun c =>
          c.signal x.an (ringSlot x i) r.2).advance i x.words))) ∧
  -- TBAR: release, arrival, and the end once the team has arrived
  (∀ (s : State) (i : Iss) (x : Form), UniRuns s i x .any → i.batch.wait ≠ .tbarOut →
    (i.batch.phase = 0 → s.unitBusy i = false →
      exec (.tbar x) s = .next ((s.releaseAll i i.active .herd).onBatch i fun b => { b with phase := 1 })) ∧
    (i.batch.phase ≠ 0 → s.drained i.ref.core i.batch.tag = true → s.ckptReady i.crew = true →
      exec (.tbar x) s = .next (((s.onBatch i fun b => { b with wait := .tbar, phase := 0, tag := 0 }).checkpoint
        i.ref.core i.ref.slot).settleTeam i.crew))) ∧
  (∀ (s : State) (i : Iss) (x : Form), Issues s i → i.batch.wait = .tbarOut → (s.dropCore i.ref.core).ckptReady i.crew = true →
    exec (.tbar x) s = .next ((((s.dropCore i.ref.core).advance i x.words).onBatch i fun b =>
      { b with wait := .none }).checkpoint i.ref.core i.ref.slot))

/-- R279-R281: LAUNCH reads, checks and queues a record between two checkpoints and returns the launch's number; DONE publishes its
crew's completion bit between two checkpoints; BINCFG sets a bin's threshold and timer. Model's choices: logs 44 and 70. -/
def Obligations.LaunchDoneAndBinSettingsComplete : Prop :=
  -- LAUNCH
  (∀ (s : State) (i : Iss) (x : Form) (l : Loc), UniRuns s i x .any → i.free [(x.an, true), (x.dn, false)] = true →
    let va := (i.flock.kpair x.an).toNat % 2 ^ 57
    (i.batch.phase = 0 → checkRecord s i va = .ok l → Claims.mayBegin s i →
      exec (.launch x) s = .next ((((s.checkpoint i.ref.core i.ref.slot).updCrew i.ref.core i.ref.slot fun k =>
        { k with between := true }).releaseAll i i.active .dev).onBatch i fun b => { b with phase := 1 })) ∧
    (i.batch.phase ≠ 0 → s.drained i.ref.core i.batch.tag = true → s.ckptDrained i.crew = true → ∀ p,
      s.launch i va = some p →
      exec (.launch x) s = .next ((p.1.uniResult i x false (BitVec.ofNat 64 p.2)).secondCkpt i.ref.core i.ref.slot))) ∧
  -- DONE
  (∀ (s : State) (i : Iss) (x : Form), UniRuns s i x .any →
    (i.batch.phase = 0 → s.unitBusy i = false → Claims.mayBegin s i →
      exec (.done x) s = .next ((((s.checkpoint i.ref.core i.ref.slot).updCrew i.ref.core i.ref.slot fun k =>
        { k with between := true }).releaseAll i i.active .dev).onBatch i fun b => { b with phase := 1 })) ∧
    (i.batch.phase ≠ 0 → s.drained i.ref.core i.batch.tag = true → s.ckptDrained i.crew = true →
      exec (.done x) s = .next (((s.publishDone i.ref.core i.ref.slot).advance i x.words).secondCkpt i.ref.core
        i.ref.slot))) ∧
  -- BINCFG
  (∀ (s : State) (i : Iss) (x : Form) (e : EntryRec), UniRuns s i x .any → i.free [(x.an, false)] = true →
    let target := immTarget x i.batch.pc
    s.entryAt i.crew.part target = some e → e.bin = true →
    let v := (i.flock.kreg x.an).toNat
    let thr := if bits v 5 0 = 0 then 1 else min 32 (bits v 5 0)
    exec (.bincfg x) s = .next ((s.onCrew i fun k => k.updLive fun c =>
      { c with
        settings := putSetting c.settings { entry := target, thr := thr, tmr := bits v 31 16 }
        bins := c.bins.map fun b => if b.entry == target then { b with thr := thr, tmr := bits v 31 16, due := false }
          else b }).advance i x.words))

/-- R99, R128-R133, R246-R249: CPY and COLL, in a converged batch, release, and hand their work to an engine at a checkpoint once the
other crews with a version of a destination line are checkpointed; the engine of a COLL has the collective of the block the release
made readable as its job, the group's next sequence number, the block's Neighbour Barrier and the receive lines, and fails at once
where another member of this package has failed; CPYDRAIN moves on when no older engine operation is on its path.
Model's choices: logs 42, 49, 61 and 84. -/
def Obligations.CopiesAndCollectivesAreHandedOver : Prop :=
  -- CPY
  (∀ (s : State) (i : Iss) (x : Form), UniRuns s i x .vectorCopy → i.absent = [] →
    i.free ((List.range 8).map fun n => (x.an + n, false)) = true → checkCopy s i (copyDesc x i) = .ok () →
    ((s.joining i.crew i.flock.num).isSome = true ∨ (s.copiesOf i.crew).length < 8) →
    let s1 := s.onCrew i fun k => k.updLive fun c =>
      i.active.foldl (fun c f => c.completeFibre i.flock.num f.lane) c
    let j := s1.again i
    Claims.HandsOver (exec (.cpy x) s) s1 j x.words (s1.copyLines i.crew.part i.crew.level (copyDesc x i)) fun t id =>
      t.addCopy (t.again i) (copyDesc x i) id) ∧
  -- CPYDRAIN
  (∀ (s : State) (i : Iss) (x : Form), UniRuns s i x .vectorCopy →
    (∀ e ∈ s.engines, e.core = i.ref.core → e.onPath x.an = true →
      (if i.batch.phase = 0 then s.nextTag else i.batch.tag) ≤ e.id) →
    exec (.cpydrain x) s = .next ((if x.an = 1 then s.dropCore i.ref.core else s).advance i x.words)) ∧
  -- COLL
  (∀ (s : State) (i : Iss) (x : Form) (c : Context) (l : Loc), UniRuns s i x .vector → i.absent = [] →
    i.free [(x.an, true)] = true → s.ctx? i.crew.part = some c →
    let va := (i.flock.kpair x.an).toNat % 2 ^ 57
    checkColl s i va = .ok l →
    (i.batch.phase = 0 →
      exec (.coll x) s = .next ((s.releaseAll i i.active .dev).onBatch i fun b => { b with phase := 1 })) ∧
    (i.batch.phase ≠ 0 → s.drained i.ref.core i.batch.tag = true → ∀ (g : GroupEntry) (s0 : State),
      let b := s.collBlock i l
      checkBlockOf s i c b va = .ok g →
      let ls := s.extentLines i.crew.part i.crew.level (cw b 3) (recvCount b g.g g.rank * elemBytes b)
      s.oxOwned l.part (lineOf l.pa) = false → s.collsOf i.crew.part < 256 →
      (∀ l ∈ ls, s.owned i.crew.part l = false) → ckptOthers s (s.otherHolders i ls) = some s0 →
      Claims.mayBegin s0 (s0.again i) →
      let s1 := (s0.checkpoint i.ref.core i.ref.slot).updCrew i.ref.core i.ref.slot fun k => { k with between := true }
      let num := spGet 0 ((s.ctx? i.crew.part).getD (Context.reset 0)).collSeq (collGid b)
      let now := cw b 8 == 0
      let job := fun sent => Job.coll (b ++ [num]) g.g g.rank s1.clock now 0 sent false
      let j := i.engine s1.nextTag ls (if collKind b = 1 ∨ collKind b = 3 then some (collNb b) else none) (job [])
      let k := { j with job := job (if now then [(g.rank, s1.sendNow j b g.g g.rank)] else []) }
      let t := ({ s1 with engines := s1.engines ++ [k], nextTag := s1.nextTag + 1 }.updCtx i.crew.part fun c =>
        { c with collSeq := spSet 0 (collGid b) (num + 1) c.collSeq }).advance i x.words
      (t.failedBefore k (b ++ [num]) g.g = none →
        exec (.coll x) s = .next (t.secondCkpt i.ref.core i.ref.slot)) ∧
      (∀ cause, t.failedBefore k (b ++ [num]) g.g = some cause →
        exec (.coll x) s = .next ((t.failOne cause 0 k).secondCkpt i.ref.core i.ref.slot))))

namespace Sys2Proof.Claims

/-! ### Matrix units -/

/-- An operand block in scratch that an instruction may use: its alignment, and its extents inside the allocation (R228). -/
def blockOk (s : State) (i : Iss) (aligned : Bool) (extents : List (Nat × Nat)) : Prop :=
  aligned = true ∧ checkExtents s i extents = .ok ()

/-- A power token stands at the herd of the batch's core (R24). -/
def token (s : State) (i : Iss) (t : State) : Prop := s.useToken (herdOf i.ref.core) = some t

/-- A matrix-arithmetic instruction's tiles are settled and a token stands ready: first the state with its tiles, then with the token
in use (R214, R224). -/
def tilesAndToken (s : State) (i : Iss) (zs : List Nat) (s1 s2 : State) : Prop := settleTiles s i zs = .ok s1 ∧ token s1 i s2

end Sys2Proof.Claims

/-- R218-R228: BLD, SLD, MMA, MMAI, ZZERO, ZLD, ZST and ZWR, their operand blocks in bounds, hand one operation with its operands to
the quadrant's unit, or a B-store load to an engine; ZRD also marks its destinations empty. Model's choices: log 46. -/
def Obligations.MatrixInstructionsAreQueued : Prop :=
  -- MMA and MMAI
  (∀ m ∈ [(Instr.mma, false), (Instr.mmai, true)], ∀ (s s1 s2 : State) (i : Iss) (x : Form) (w : Nat),
    UniRuns s i x .matrix → i.free [(x.an, true)] = true →
    let k := 16 * (x.mf 16 12 + 1)
    let off := (i.flock.kreg x.an).toNat
    let pitch := (i.flock.kreg (x.an + 1)).toNat
    formatWord i x m.2 k = .ok w →
    Claims.blockOk s i (off % 16 == 0 && pitch % 16 == 0) [(off, 63 * pitch + k * elemSize (wordFa w))] →
    Claims.tilesAndToken s i [x.dn] s1 s2 →
    (∀ e ∈ s1.engines, e.loads i.gq (slotsOf x.bn k (elemSize (wordFb w))) = false) →
    exec (m.1 x) s = .next (s2.toUnit (s2.again i) x.words
      (.mma m.2 x.dn x.bn (i.crew.base + off) pitch w (x.mf 16 12) (x.mf 11 10) (x.mf 9 8) (x.mb 7)))) ∧
  -- BLD
  (∀ (s : State) (i : Iss) (x : Form), UniRuns s i x .matrix → i.free [(x.an, true), (x.an + 2, false)] = true →
    let size := if x.mb 6 then 2 else 1
    let rows := x.mf 17 9 + 1
    let src := if x.mb 7 then (i.flock.kreg x.an).toNat else (i.flock.kpair x.an).toNat % 2 ^ 57
    let pitch := (i.flock.kreg (x.an + 2)).toNat
    (x.mb 7 = true → checkExtents s i (rowExtents src pitch rows size) = .ok ()) →
    (s.engines.filter fun e => e.core == i.ref.core && e.slot == i.ref.slot && e.loads i.gq (List.range 16)).length < 4 →
    ((s.unit i.gq).queue.any fun j => j.op.slots.any (slotsOf x.bn rows size).contains) = false →
    Claims.HandsOver (exec (.bld x) s) s i x.words [] fun t id => { t with
      engines := t.engines ++ [(t.again i).engine id [] (if x.mb 8 then some x.dn else none)
        (.bld i.gq x.bn size rows src pitch (x.mb 7) 0)] }) ∧
  -- SLD
  (∀ (s : State) (i : Iss) (x : Form), UniRuns s i x .matrix → i.free [(x.an, false)] = true →
    let off := (i.flock.kreg x.an).toNat
    Claims.blockOk s i (off % 4 == 0) [(off, sldBytes (x.mf 1 0) (x.mf 6 2 + 1))] →
    exec (.sld x) s = .next (s.toUnit i x.words (.sld (x.mf 1 0) (x.mf 6 2 + 1) (i.crew.base + off)))) ∧
  -- ZZERO
  (∀ (s s1 : State) (i : Iss) (x : Form), UniRuns s i x .matrix → settleTiles s i [x.dn] = .ok s1 →
    exec (.zzero x) s = .next (s1.toUnit (s1.again i) x.words (.zzero x.dn))) ∧
  -- ZLD and ZST
  (∀ (s s1 s2 : State) (i : Iss) (x : Form), UniRuns s i x .matrix → i.free [(x.an, true)] = true →
    let off := (i.flock.kreg x.an).toNat
    let pitch := (i.flock.kreg (x.an + 1)).toNat
    Claims.blockOk s i (off % 16 == 0 && pitch % 16 == 0) [(off, 63 * pitch + 256)] →
    (settleTiles s i [x.dn] = .ok s1 →
      exec (.zld x) s = .next (s1.toUnit (s1.again i) x.words (.zld x.dn (i.crew.base + off) pitch))) ∧
    (s.reserveScratch i.ref.core i.ref.slot (rowLines (i.crew.base + off) pitch 64 256) = .ok s1 →
      settleTiles s1 i [x.bn] = .ok s2 →
      exec (.zst x) s = .next (s2.toUnit (s2.again i) x.words (.zst x.bn (i.crew.base + off) pitch)))) ∧
  -- ZRD and ZWR
  (∀ (s s1 : State) (i : Iss) (x : Form), UniRuns s i x .matrix →
    (i.free [(x.bn, false)] = true → (∀ f ∈ i.active, Claims.pairWritable f x.dn = true) →
      settleTiles s i [x.an] = .ok s1 →
      let s2 := s1.onFibres i (i.active.map fun f => (f.lane, ())) fun _ f => f.empty x.dn true
      exec (.zrd x) s = .next (s2.toUnit (s2.again i) x.words
        (.zrd x.dn x.an (bits (i.flock.kreg x.bn).toNat 5 0) (x.mb 0)))) ∧
    (i.free [(x.an, false)] = true → (∀ f ∈ i.active, Claims.pairReadable f x.bn = true) →
      settleTiles s i [x.dn] = .ok s1 →
      exec (.zwr x) s = .next (s1.toUnit (s1.again i) x.words
        (.zwr x.dn (bits (i.flock.kreg x.an).toNat 5 0) (x.mb 0)
          (i.active.map fun f => (f.lane, lo32 (f.value x.bn true), hi32 (f.value x.bn true)))))))

/-- R234-R237, R140: ZPIN, ZATT, ZDET, ZREL and ZSPILL, once the crews that a spill of theirs meets are checkpointed, perform their
pin-table operation between two checkpoints and move on. -/
def Sys2Proof.Claims.PinOperationsComplete : Prop :=
  ∀ (s s0 s1 t : State) (i : Iss) (x : Form), UniRuns s i x .matrix →
    firstCkpt s0 (s0.again i) = .ok s1 →
    let j := s1.again i
    let ready := fun (lines : List (Nat × Nat)) => (if lines.isEmpty then .ok s else spillReady s i lines false) = Except.ok s0
    let done := (t.advance i x.words).secondCkpt i.ref.core i.ref.slot
    -- ZPIN
    (i.free [(x.dn, false), (x.bn, true)] = true →
      ready (match zpinPlan s i x with
        | .ok (_, some _) => s.evictTo ((s.unit i.gq).detached (tileGroup x.an (x.mb 2)))
        | _ => []) →
      zpinRun s1 j x = .ok t → exec (.zpin x) s = .next done) ∧
    -- ZATT
    (i.free [(x.an, false)] = true →
      ready (match zattPlan s i x with
        | .ok (n, .move _) | .ok (n, .reload _ _) => s.evictTo (zattEvicts s i x n)
        | _ => []) →
      zattRun s1 j x = .ok t → exec (.zatt x) s = .next done) ∧
    -- ZDET
    (ready [] → zdetRun s1 j x.dn = .ok t → exec (.zdet x) s = .next done) ∧
    -- ZREL
    (i.free [(x.an, false)] = true → ready [] → zrelRun s1 j x = .ok t → exec (.zrel x) s = .next done) ∧
    -- ZSPILL
    (i.free [(x.an, false)] = true →
      ready (match ownPlan s i x with
        | .ok (n, p) => if p.state ≤ 1 then s.spillTo i.crew.part n else []
        | .error _ => []) →
      zspillRun s1 j x = .ok t → exec (.zspill x) s = .next done)

/-- R238, R243: ZINFO writes the two pairs that describe a tile or a pin-table entry; GDR and the chunk forms hand their step to the
unit, and GQR, once the unit is idle, writes the query's result. -/
def Sys2Proof.Claims.FastWeightStepsComplete : Prop :=
  (∀ (s : State) (i : Iss) (x : Form), UniRuns s i x .matrix → (s.unit i.gq).queue = [] →
    let out := fun (v : Nat × Nat × Nat) => Host.Outcome.next (φ := Fault) (ρ := Refusal) ((s.onFlock i fun f =>
      (f.setK64 x.dn (BitVec.ofNat 64 (v.1 + v.2.1 * 2 ^ 32))).setK64 (x.dn + 2) (BitVec.ofNat 64 v.2.2)).advance i
        x.words)
    (i.free [(x.dn, true), (x.dn + 2, true)] = true →
      exec (.zinfoT x) s = out ((s.unit i.gq).tile x.an).shown.info) ∧
    (i.free [(x.dn, true), (x.dn + 2, true), (x.an, false)] = true →
      let n := bits (i.flock.kreg x.an).toNat 11 0
      exec (.zinfoH x) s = out (((s.table i).pin n).info n))) ∧
  -- GDR
  (∀ (s s1 s2 : State) (i : Iss) (x : Form), UniRuns s i x .matrix → i.absent = [] → i.free [(x.cn, true)] = true →
    let r := vecRegs (x.mb 2)
    let vec := fun (n : Nat) => vecOf (i.active.map fun f =>
      (f.lane, (List.range r).map fun k => (f.reg (n + k)).val)) (stateDim (x.mb 2))
    (∀ f ∈ i.active, ∀ k, k < r → f.readable (x.an + k) = true ∧ f.readable (x.bn + k) = true) →
    Claims.tilesAndToken s i (tileGroup x.dn (x.mb 2)) s1 s2 →
    exec (.gdr x) s = .next (s2.toUnit (s2.again i) x.words
      (.gdr x.dn (x.mb 2) (vec x.an) (vec x.bn) (i.flock.kreg x.cn) (i.flock.kreg (x.cn + 1))))) ∧
  -- GQR
  (∀ (s s1 s2 : State) (i : Iss) (x : Form), UniRuns s i x .matrix → i.absent = [] →
    let r := vecRegs (x.mb 2)
    let vec := vecOf (i.active.map fun f =>
      (f.lane, (List.range r).map fun k => (f.reg (x.bn + k)).val)) (stateDim (x.mb 2))
    (∀ f ∈ i.active, ∀ k, k < r → f.readable (x.bn + k) = true ∧ f.writable (x.dn + k) = true) →
    Claims.tilesAndToken s i (tileGroup x.an (x.mb 2)) s1 s2 → (s1.unit i.gq).queue = [] →
    exec (.gqr x) s = .next ((s2.onFibres i (i.active.map fun f => (f.lane, ())) fun _ f =>
      f.putVec x.dn (queryState i.batch.pc ((s2.unit i.gq).rows x.an (x.mb 2)) vec) ((s2.unit i.gq).groupBad x.an (x.mb 2))
        r).advance i x.words)) ∧
  -- the chunk forms
  (∀ m ∈ [((Instr.gdrCq, true), fun (x : Form) => (x.dn, x.an)), ((Instr.gqrCq, false), fun x => (x.an, x.bn))],
    ∀ (s s1 s2 s3 : State) (i : Iss) (x : Form), UniRuns s i x .matrix → i.absent = [] →
    let z := (m.2 x).1
    let ka := (m.2 x).2
    i.free [(ka, true)] = true →
    let tb := (i.flock.kreg ka).toNat
    let ob := (i.flock.kreg (ka + 1)).toNat
    let n := x.mf 7 4 + 1
    let outBytes := n * 4 * stateDim (x.mb 2)
    Claims.blockOk s i (tb % 128 == 0 && ob % 128 == 0) [(tb, n * tokenSize (x.mb 2)), (ob, outBytes)] →
    s.reserveScratch i.ref.core i.ref.slot (scratchLines (i.crew.base + ob) outBytes) = .ok s1 →
    Claims.tilesAndToken s1 i (tileGroup z (x.mb 2)) s2 s3 →
    exec (m.1.1 x) s = .next (s3.toUnit (s3.again i) x.words
      (.chunk m.1.2 z (x.mb 2) (x.mb 8) n (i.crew.base + tb) (i.crew.base + ob))))

/-- R233-R245: pins of matrix state, and the fast-weight instructions. Model's choices: logs 45, 47 and 48. -/
def Obligations.PinsAndFastWeightsComplete : Prop := Claims.PinOperationsComplete ∧ Claims.FastWeightStepsComplete

/-- R322-R325: CKPT takes a checkpoint with the batch at the next instruction; TRAP, and BPT where its partition's breakpoints do not
halt, take such a checkpoint and then the trap from it; HALT at level F, and BPT where they do, halt the crew. Model's choices: log 68,
the form of the notification that a halt gives. -/
def Obligations.CheckpointTrapAndHaltComplete : Prop :=
  ∀ (s : State) (i : Iss) (x : Form), UniRuns s i x .any →
    let next := (s.advance i x.words).checkpoint i.ref.core i.ref.slot
    let trap := fun (c : Cause) => next.takeTrap i.ref.core i.ref.slot
      { i.trap c (maskOf i.active) 0 with code := x.immZ } false
    (s.ckptReady i.crew = true → exec (.ckpt x) s = .next next) ∧
    (i.crew.between = false → s.ckptReady i.crew = true →
      exec (.trap x) s = .next (trap .trapInstruction) ∧
      ((s.ctx? i.crew.part).any (·.breakHalt) = false → exec (.bpt x) s = .next (trap .breakpoint))) ∧
    ((s.ctx? i.crew.part).any (·.breakHalt) = true → exec (.bpt x) s = .next (s.haltCrew i x)) ∧
    (i.crew.level = .f → exec (.halt x) s =
      .next ({ s with haltNotes := s.haltNotes ++ [(i.ref.core, i.ref.slot)] }.haltCrew i x))

/-- R324: ERET of a trap record, at level T or F, closes the interval and releases; then it resumes the crew the record names, or
answers why not, or aborts the crew, whose end it awaits before it answers 0. Model's choices: logs 53 and 54. -/
def Obligations.TrapReturnCompletes : Prop :=
  ∀ (s : State) (i : Iss) (x : Form), UniRuns s i x .any → i.crew.level ≠ .u →
    i.free [(x.an, true), (x.bn, false), (x.dn, false)] = true →
    let va := (i.flock.kpair x.an).toNat % 2 ^ 57
    (∀ l, i.batch.phase = 0 → checkTrapRec s i va = .ok l → s.ckptReady i.crew = true →
      exec (.eret x) s = .next (((s.checkpoint i.ref.core i.ref.slot).releaseAll i i.active .dev).onBatch i fun b =>
        { b with phase := 2 * va + 1 })) ∧
    (∀ a l s0, i.batch.phase = 2 * a + 1 → checkTrapRec s i a = .ok l → s.drained i.ref.core i.batch.tag = true →
      s.oxOwned i.crew.part (lineOf l.pa) = false →
      let n := recName (s.placeBytes l 64)
      let act := (i.flock.kreg x.bn).toNat
      spillReady s i (s.serveTo i.crew.part n act) true = .ok s0 →
      (∀ s1 v, s0.serve i.crew.part n act = (s1, some v) →
        exec (.eret x) s = .next (s1.uniResult i x false (BitVec.ofNat 64 v))) ∧
      (∀ s1, s0.serve i.crew.part n act = (s1, none) →
        exec (.eret x) s = .next (s1.onBatch i fun b => { b with phase := 2, tag := abortTag n }))) ∧
    (i.batch.phase = 2 → s.abortDone i.crew.part i.batch.tag = true →
      exec (.eret x) s = .next (s.uniResult i x false 0))

/-- R301-R306: RDSYS returns the value of a register whose read level the crew has, and 0 for one that nobody may read; WRSYS, the
crew's level allowing it, writes between two checkpoints behind a release, SYS_XLINV waiting for its invalidation; WRPKR sets a
key's permissions at level F. Model's choices: logs 51 and 52. -/
def Obligations.SystemRegisterAccessesComplete : Prop :=
  -- RDSYS
  (∀ (s : State) (i : Iss) (x : Form), UniRuns s i x .any →
    i.free ((x.dn, true) :: if x.bn == 1 then [(x.an, false)] else []) = true →
    let sn := sysNumber x i (x.bn == 1) x.an
    (∀ w, sysRights sn = some (.none, w) → exec (.rdsys x) s = .next (s.uniResult i x true 0)) ∧
    (∀ l w, sysRights sn = some (.level l, w) → i.atLeast l = true →
      exec (.rdsys x) s = .next (s.uniResult i x true (s.sysVal i sn)))) ∧
  -- WRSYS
  (∀ (s : State) (i : Iss) (x : Form), UniRuns s i x .any →
    i.free ((x.bn, true) :: if x.dn == 1 then [(x.an, false)] else []) = true →
    let v := (i.flock.kpair x.bn).toNat
    ∀ sn r l, sysRights sn = some (r, .level l) →
    let goTo := fun (t : State) (p : Nat) => t.onBatch i fun b => { b with phase := 4 * sn + p }
    (i.batch.phase = 0 → sn = sysNumber x i (x.dn == 1) x.an → i.atLeast l = true → Claims.mayBegin s i →
      exec (.wrsys x) s = .next (goTo (((s.checkpoint i.ref.core i.ref.slot).updCrew i.ref.core i.ref.slot fun k =>
        { k with between := true }).releaseAll i i.active .dev) 1)) ∧
    (i.batch.phase = 4 * sn + 1 → s.drained i.ref.core i.batch.tag = true →
      (sn ≠ snXlinv → exec (.wrsys x) s = .next (goTo (s.updCtx i.crew.part fun c => c.sysWrite sn v) 3)) ∧
      (sn = snXlinv → exec (.wrsys x) s = .next (goTo (({ s with nextTag := s.nextTag + 1 }.xlStart i.crew.part s.nextTag
        v).onBatch i fun b => { b with tag := s.nextTag }) 2))) ∧
    (i.batch.phase = 4 * sn + 2 → (∀ c, s.ctx? i.crew.part = some c → ∀ p ∈ c.xlPend, p.1 ≠ i.batch.tag) →
      exec (.wrsys x) s = .next (goTo ({ s with nextTag := s.nextTag + 1 }.onBatch i fun b => { b with tag := s.nextTag })
        3)) ∧
    (i.batch.phase = 4 * sn + 3 → (sn = snXlinv → s.olderGone i.crew.part i.batch.tag = true) →
      s.ckptDrained i.crew = true →
      exec (.wrsys x) s = .next ((s.advance i x.words).secondCkpt i.ref.core i.ref.slot))) ∧
  -- WRPKR
  (∀ (s : State) (i : Iss) (x : Form), UniRuns s i x .any → i.crew.level = .f → i.free [(x.an, false)] = true →
    s.ckptReady i.crew = true → (s.checkpoint i.ref.core i.ref.slot).accessesChecked i = true →
    exec (.wrpkr x) s = .next (((s.checkpoint i.ref.core i.ref.slot).updCtx i.crew.part fun c =>
      c.setReg (snPkr + x.dn) (BitVec.ofNat 64 (bits (i.flock.kreg x.an).toNat 1 0))).advance i x.words))

namespace Sys2Proof.Claims

/-- An entry taken from Q(c), its arrival at its slice counted (R308). -/
def arrived (s : State) (core idx : Nat) (e : Entry) : State :=
  { s with rq := dropEntry core idx s.rq }.arrival e

end Sys2Proof.Claims

/-- E2, E4-E6, E12 (R93, R97, R99): the head of SB(f) passes to the release queue; an entry that drains is applied, once checkpoints
have made room for the version it writes, one for a lost range is lost (R339) and one that a row throttle holds waits (R283); a fill
copies a line that its core may copy and no engine owns; an eviction drops the copies of a line that are not pinned; a write-back
cleans a dirty line; and a write to a link is accepted, a never-cached one of the pool being done with it. -/
def Sys2Proof.Claims.BufferStepsComplete : Prop :=
  (∀ (s : State) (core fib : Nat) (pre post : List Entry) (e : Entry), s.dead = false → s.sb = pre ++ e :: post →
    e.ofFibre core fib = true → (∀ d ∈ pre, d.ofFibre core fib = false) →
    (∀ d ∈ pre, d.core = core → e.overlaps d = false) →
    exec (.pass core fib) s = .next ({ s with sb := pre ++ post }.toQueue e)) ∧
  (∀ (s : State) (core idx : Nat) (e : Entry), s.dead = false → s.drainable core idx = some e →
    let out := exec (.drain core idx) s
    (∀ p u, s.takeIn e = .error p → s.markDue [p] = some u → out = .next u) ∧
    ∀ u, s.takeIn e = .ok u →
      let t := Claims.arrived u core idx e
      (t.entryLost e = true → out = .next (t.loseEntry e)) ∧
      (t.entryLost e = false → t.entryWaits e = true → out = .next { s with stall := true }) ∧
      (t.entryLost e = false → t.entryWaits e = false →
        (∀ sc, e.kind = .rel sc → out = .next t) ∧
        (∀ bs release clears, e.kind = .store bs release clears →
          release = true ∨ t.writesVersion e = false ∨ t.versionFull e.core e.slot e.loc = false →
          out = .next (t.applyStore e bs release clears)) ∧
        (∀ aop n v, e.kind = .atomic (.rmw aop) n v →
          out = .next (t.applyAtomic e n fun y => rmwValue aop n e.lane e.pc y v.toNat)) ∧
        (∀ c n v, e.kind = .atomic (.cas c) n v →
          out = .next (t.applyAtomic e n fun y => casValue y v.toNat c.toNat)))) ∧
  (∀ (s : State) (core slot line q : Nat) (k : Crew) (l : Loc), s.dead = false → s.crew? core slot = some k →
    s.fillPlace k (128 * line) = some l → s.fillQuad k = some q → s.owned k.part (lineOf l.pa) = false →
    s.lostPa l.pa = false → s.lineWaits k.part (lineOf l.pa) = false →
    exec (.fill core slot line) s =
      .next (s.fillL1 { core := core, group := q, part := k.part, slot := slot, fib := 0 } l)) ∧
  (∀ (s : State) (core line : Nat), s.dead = false →
    (∃ c ∈ s.l1, c.core = core ∧ c.line = line ∧ c.pinned = false) →
    ∃ t, exec (.evict core line) s = .next t ∧ t = { s with l1 := t.l1 } ∧
      ∀ c, c ∈ t.l1 ↔ c ∈ s.l1 ∧ ¬(c.core = core ∧ c.line = line ∧ c.pinned = false)) ∧
  (∀ (s : State) (line : Nat) (pre post : List HomeLine) (h : HomeLine), s.dead = false → s.home = pre ++ h :: post →
    (∀ d ∈ pre, d.line = line → d.dirty0 = false ∧ d.dirty1 = false) → h.line = line → (h.dirty0 = true ∨ h.dirty1 = true) →
    (∀ sec ∈ [2 * line, 2 * line + 1], h.isDirty sec = true → s.rowWaits h.site.part sec = false) →
    exec (.writeBack line) s = .next (s.writeBack h.site.part line)) ∧
  (∀ (s : State) (pre post : List Entry) (e : Entry), s.dead = false → s.linkWait = pre ++ e :: post →
    let t := { s with linkWait := pre ++ post }
    (e.atLink = false → exec (.writeAcceptedByLink pre.length) s = .next t) ∧
    (∀ bs release clears, e.atLink = true → e.kind = .store bs release clears →
      (∀ d ∈ pre, d.atLink = true → e.loc.pa + e.size ≤ d.loc.pa ∨ d.loc.pa + d.size ≤ e.loc.pa) →
      s.rowWaits e.part (sectorOf e.loc.pa) = false →
      exec (.writeAcceptedByLink pre.length) s = .next (t.storePool e bs clears)))

/-- R150-R152, R154-R162: a queue, pin or allocation entry that drains acts in one step at its home, its crew's version of the line
committed before and its core's copy refilled after: QENQ writes the element at TAIL, raises TAIL and wakes every waiter, and QDEQ gives
the element at HEAD and raises HEAD, where the descriptor passes its check and neither is full or empty; PIN and UNPIN count the pins of
the header; HNEW takes its lines from the allocator's and installs them zero with their header. A lane refused changes nothing. -/
def Sys2Proof.Claims.SliceOperationsComplete : Prop :=
  ∀ (s : State) (core idx n : Nat) (e : Entry) (v : Word64) (c : Context), s.dead = false →
    s.drainable core idx = some e → s.ctx? e.part = some c →
    let t := Claims.arrived s core idx e
    t.entryLost e = false → t.entryWaits e = false →
    let out := exec (.drain core idx) s
    -- queues: what stands in the descriptor once the crew's version is committed
    (let u := t.commitLine e.core e.slot e.loc
     let d := u.qdesc e.loc
     let ends := fun (w : State) (r : AtomReply) => Host.Outcome.next ((w.atomReply e r).refreshCopy e e.loc)
     let level := ((u.crew? e.core e.slot).map (·.level)).getD .u
     u.rangeBad e.loc.pa 64 = false →
     (e.kind = .atomic .qenq n v ∨ e.kind = .atomic .qdeq n v → d.ok (some (n == 8)) = false →
       out = ends u (e.reply 0 false true)) ∧
     (e.kind = .atomic .qenq n v → d.ok (some (n == 8)) = true →
       ((d.cap : Int) ≤ d.used → out = ends u (e.reply 0 false false)) ∧
       (d.used < d.cap →
         (∀ x, u.elemLoc e.part level .store (d.elemIa e.loc d.tail) = .error x → out = ends u (e.reply 0 false true)) ∧
         ∀ el, u.elemLoc e.part level .store (d.elemIa e.loc d.tail) = .ok el → u.owned e.part (lineOf el.pa) = false →
           out = ends (((u.placeWrite el (leBytes (2 ^ d.esz) v.toNat)).placeWrite (e.loc.plus 8)
             (leBytes 8 ((d.tail + 1) % 2 ^ 64))).wakeAll e.part e.loc) (e.reply 0 true false))) ∧
     (e.kind = .atomic .qdeq n v → d.ok (some (n == 8)) = true →
       (d.used ≤ 0 → out = ends u (e.reply 0 false false)) ∧
       (0 < d.used →
         (∀ x, u.elemLoc e.part level .load (d.elemIa e.loc d.head) = .error x → out = ends u (e.reply 0 false true)) ∧
         ∀ el, u.elemLoc e.part level .load (d.elemIa e.loc d.head) = .ok el → u.owned e.part (lineOf el.pa) = false →
           u.rangeBad el.pa (2 ^ d.esz) = false →
           out = ends (u.placeWrite e.loc (leBytes 8 ((d.head + 1) % 2 ^ 64)))
             (e.reply (BitVec.ofNat 64 (u.placeVal el (2 ^ d.esz))) true false)))) ∧
    -- pins of the object at its current base
    (∀ b h l, t.headerLoc c e.core v = some l →
      let u := t.commitLine e.core e.slot l
      let ends := fun (w : State) (r : AtomReply) => Host.Outcome.next ((w.atomReply e r).refreshCopy e l)
      u.resolve c e.core v 0 = .line b h → u.rangeBad l.pa 16 = false →
      (e.kind = .atomic .pin n v → u.objMoving c b = false →
        (u.objPins c b ≠ 65535 → out = ends (u.iaWrite c (b + 4) 2 (u.objPins c b + 1))
          (e.reply (BitVec.ofNat 64 ((c.heapVa b 0 16).getD 0)) false false)) ∧
        (u.objPins c b = 65535 → out = ends u (e.reply 0 false true))) ∧
      (e.kind = .atomic .unpin n v →
        (u.objPins c b ≠ 0 → out = ends (u.iaWrite c (b + 4) 2 (u.objPins c b - 1)) (e.reply 0 false false)) ∧
        (u.objPins c b = 0 → out = ends u (e.reply 0 false true)))) ∧
    -- allocation
    (∀ region size, e.kind = .atomic (.hnew region size) n v →
      let u := t.commitLine e.core e.slot e.loc
      let al := c.regionAlloc region
      let top := u.iaVal c al 8
      let len := ceilDiv size 128 * 128
      let ends := fun (w : State) (r : Word64) => Host.Outcome.next ((w.atomReply e (e.reply r false false)).refreshCopy e e.loc)
      u.rangeBad e.loc.pa 64 = false → 16 ≤ size → size ≤ 65536 → c.regionValid region = true →
      (top + len ≤ u.iaVal c (al + 8) 8 → c.regionBase region ≤ top → top + len ≤ c.regionLimit region →
        let w := u.iaWrite c al 8 (top + len)
        out = ends (((w.iaWrite c (al + 16) 8 ((w.iaVal c (al + 16) 8 + 1) % 2 ^ 64)).zeroLines c top (len / 128)).iaWrite
          c top 4 (ceilDiv size 16 * 16)) (mkRef region top)) ∧
      (u.iaVal c (al + 8) 8 < top + len ∨ top < c.regionBase region ∨ c.regionLimit region < top + len →
        out = ends u 0))

/-- E2, E4-E6, E12, R150-R152, R161, R162: the steps of store buffers, release queues, copies and home lines, and what queue, pin and
allocation entries do at their homes. Model's choices: logs 8, 23, 29, 34, 61 and 71. -/
def Obligations.MemoryStepsComplete : Prop := Claims.BufferStepsComplete ∧ Claims.SliceOperationsComplete

namespace Sys2Proof.Claims

/-- An engine operation that may act: it exists and no pre-empted partition holds it back (R327, R328). -/
structure EngineActs (s : State) (id : Nat) (e : Engine) : Prop where
  powered : s.dead = false
  found : s.engine? id = some e
  free : s.engineHeld e = false

/-- What a copy looks like once the line at place `n` of its destination lines is written: no line of it is owned any longer
unless another descriptor still writes that line. -/
def lineDone (t : State) (e : Engine) (ds : List CopyDesc) (todo : List (Nat × Nat)) (n line : Nat) (pa : Option Nat) :
    State :=
  t.updEngine e.id fun x =>
    { x with
      owned := if (removeAt todo n).any fun r => r.2 == line then x.owned else x.owned.filter fun l => some l != pa
      job := .copy [] ds true (removeAt todo n) }

end Sys2Proof.Claims

/-- E14, E15 (R99, R128-R131, R221): a copy whose participants have all issued starts; then each step reads one line of padding or writes one destination
line, in memory or scratch; a B-store load writes its next row; and an operation that is done arrives once at its barrier. -/
def Sys2Proof.Claims.EngineStepsComplete : Prop :=
  (∀ (s : State) (id : Nat) (e : Engine) (ds : List CopyDesc) (td : List (Nat × Nat)), Claims.EngineActs s id e →
    e.job = .copy [] ds false td → exec (.lineWrite id) s = .next (s.startCopy e ds)) ∧
  (∀ (s : State) (id : Nat) (e : Engine) (ds : List CopyDesc) (td : List (Nat × Nat)) (di line : Nat) (d : CopyDesc)
      (bs : List (Nat × Byte × Bool)), Claims.EngineActs s id e → e.job = .copy [] ds true td →
    let n := s.choose e.id (chunkRest (copyTodo (s.engBase e) ds).length td.length)
    td[n]? = some (di, line) → ds[di]? = some d → s.copyWaits e d line = false →
    (∀ l, padBase ≤ line → s.engLoc e .load (128 * (line - padBase)) = .ok l →
      exec (.lineWrite id) s =
        .next (Claims.lineDone (s.countPlace e.part (Except.ok (ε := EngFault) l)) e ds td n line none)) ∧
    (line < padBase → s.gatherLine e d (s.engBase e) (d.sources (s.engBase e) line) = .ok bs →
     (∀ l, d.toScratch = false → s.engLoc e .store (128 * line) = .ok l →
      exec (.lineWrite id) s =
        .next (Claims.lineDone ((s.readsCounted e d line).engWrite e l bs) e ds td n line (some (lineOf l.pa)))) ∧
     (∀ k s1, d.toScratch = true → s.engCrew e = some k → s.reserveScratch e.core e.slot [line] = .ok s1 →
      exec (.lineWrite id) s = .next (Claims.lineDone ((s1.readsCounted e d line).updCrew e.core e.slot fun k =>
        k.updLive fun c => c.engScratch line bs) e ds td n line none)))) ∧
  (∀ (s : State) (id : Nat) (e : Engine) (gq slot size rows src pitch next : Nat) (sc : Bool) (bs : List (Byte × Bool)),
    Claims.EngineActs s id e → e.job = .bld gq slot size rows src pitch sc next → next < rows →
    s.bldBlocked e gq (slotsOf slot rows size) = false →
    (sc = false → ∀ n < size, s.vaWaits false e .load (src + next * pitch + 64 * n) = false) →
    s.bldBytes e sc (src + next * pitch) (64 * size) = .ok bs →
    let a := (slot + next / rowsPerSlot size) * 16384 + (next % rowsPerSlot size) * 64 * size
    let t := if sc then s else s.countReads false e ((List.range (64 * size)).map (src + next * pitch + ·))
    exec (.lineWrite id) s = .next ((t.onUnit gq fun u => u.writeRow a bs).updEngine e.id fun x =>
      { x with job := .bld gq slot size rows src pitch sc (next + 1) })) ∧
  (∀ (s : State) (id : Nat) (e : Engine), s.dead = false → s.engine? id = some e →
    ((∃ ds, e.job = .copy [] ds true []) ∨
      (∃ gq slot size rows src pitch sc next, e.job = .bld gq slot size rows src pitch sc next ∧ rows ≤ next) ∨
      ∃ die l n k cl h, e.job = .goat die l n k cl h ∧ n ≤ k) →
    let t := { s with engines := s.engines.filter fun x => x.id != e.id }
    (∀ k n, s.engCrew e = some k → e.nb = some n →
      exec (.engineCompletion id) s = .next (t.changeNb e.core e.slot n fun b => b.arrive true)) ∧
    (s.engCrew e = none ∨ e.nb = none → exec (.engineCompletion id) s = .next t))

/-- E20-E23 (R163-R168): the Goat claims the object an entry names, entering its forwarding record, or turns the entry away with the
status that says why; it takes each line once nobody holds it; copies the line it holds; every line copied, publishes
the move and gives the entry status 1; and gives an entry up that no longer has a plan. -/
def Sys2Proof.Claims.GoatStepsComplete : Prop :=
  (∀ (s : State) (id : Nat) (e : Engine) (die list n k : Nat) (h : Option Nat) (c : Context), Claims.EngineActs s id e →
    e.job = .goat die list n k false h → k < n → s.ctx? e.part = some c →
    s.iaVal c (goatStatus list k) 8 ≠ 1 →
    (s.goatPlan c e.level (list + 32 * k) = none →
      exec (.claim id) s = .next (s.goatNext c e die list n k 3 [])) ∧
    ∀ p, s.goatPlan c e.level (list + 32 * k) = some p → s.goatAt c e.id p.old = false →
      let ls := s.planLines c p
      let claimed := fun (t : State) => t.updEngine e.id fun x => { x with job := .goat die list n k true none }
      (s.objPins c p.old ≠ 0 → exec (.claim id) s = .next (s.goatNext c e die list n k 2 ls)) ∧
      (s.objPins c p.old = 0 →
        (∀ f, s.forward? c p.region p.old = some f →
          (f.new = p.new → exec (.claim id) s = .next (claimed s)) ∧
          (f.new ≠ p.new → exec (.claim id) s = .next (s.goatNext c e die list n k 4 ls))) ∧
        (s.forward? c p.region p.old = none →
          let slot := s.freeSlot c (c.regionFwd p.region) (c.regionFwdn p.region) p.old 0 (c.regionFwdn p.region)
          (slot = none → exec (.claim id) s = .next (s.goatNext c e die list n k 5 ls)) ∧
          ∀ a, slot = some a → exec (.claim id) s = .next (claimed
            (((((s.setMoving c p.old true).iaWrite c a 8 (p.old + 1)).iaWrite c (a + 8) 8 p.new).iaWrite c
              (a + 16) 4 0).iaWrite c (a + 20) 4 p.lines))))) ∧
  (∀ (s : State) (id : Nat) (e : Engine) (die list n k : Nat) (c : Context) (p : GoatPlan) (f : Fwd) (l : Loc),
    Claims.EngineActs s id e → e.job = .goat die list n k true none → s.ctx? e.part = some c →
    s.goatPlan c e.level (list + 32 * k) = some p → s.forward? c p.region p.old = some f → f.progress < f.lines →
    s.iaLoc c (p.old + 128 * f.progress) = some l →
    (∀ x ∈ s.engines, x.id ≠ e.id → x.part = e.part → lineOf l.pa ∉ x.owned) →
    (∀ d ∈ s.sb ++ s.rq, d.heldBy e.part (lineOf l.pa) = false) →
    (∀ v ∈ s.vers, v.site.part = e.part → v.line ≠ lineOf l.pa) →
    exec (.hold id) s = .next (((s.dropL1All e.part (lineOf l.pa)).updEngine e.id fun x =>
      { x with owned := insertAsc (lineOf l.pa) x.owned }).updEngine e.id fun x =>
        { x with job := .goat die list n k true (some (lineOf l.pa)) })) ∧
  -- with entries of the line drained and the crews that hold a version of it checkpointed first
  (∀ (s t : State) (id : Nat) (e : Engine) (die list n k : Nat) (c : Context) (p : GoatPlan) (f : Fwd) (l : Loc),
    Claims.EngineActs s id e → e.job = .goat die list n k true none → s.ctx? e.part = some c →
    s.goatPlan c e.level (list + 32 * k) = some p → s.forward? c p.region p.old = some f → f.progress < f.lines →
    s.iaLoc c (p.old + 128 * f.progress) = some l →
    (∀ x ∈ s.engines, x.id ≠ e.id → x.part = e.part → lineOf l.pa ∉ x.owned) →
    (s.passLine e.part (lineOf l.pa)).drainLine e.part (lineOf l.pa) = some t →
    (∀ u, t.commitHolders e.part (lineOf l.pa) = some u → u.engine? e.id ≠ none →
      exec (.hold id) s = .next (((u.dropL1All e.part (lineOf l.pa)).updEngine e.id fun x =>
        { x with owned := insertAsc (lineOf l.pa) x.owned }).updEngine e.id fun x =>
          { x with job := .goat die list n k true (some (lineOf l.pa)) })) ∧
    (∀ u, t.commitHolders e.part (lineOf l.pa) = none → s.markDue (t.versionHolders e.part [lineOf l.pa]) = some u →
      (∀ x, u.engine? e.id = some x → lineOf l.pa ∉ x.owned) → exec (.hold id) s = .next u)) ∧
  -- an entry whose plan has gone since it was claimed is given up
  (∀ (s : State) (id : Nat) (e : Engine) (die list n k : Nat) (c : Context), Claims.EngineActs s id e →
    s.ctx? e.part = some c → s.goatPlan c e.level (list + 32 * k) = none →
    (e.job = .goat die list n k true none → exec (.hold id) s = .next (s.goatGiveUp c e die list n k)) ∧
    ∀ ln, e.job = .goat die list n k true (some ln) → exec (.copyLine id) s = .next (s.goatGiveUp c e die list n k)) ∧
  (∀ (s : State) (id : Nat) (e : Engine) (die list n k : Nat) (h : Option Nat) (c : Context) (f : Fwd),
    Claims.EngineActs s id e → e.job = .goat die list n k true h → s.ctx? e.part = some c →
    let src := BitVec.ofNat 64 (s.iaVal c (list + 32 * k) 8)
    let dst := BitVec.ofNat 64 (s.iaVal c (list + 32 * k + 8) 8)
    s.forward? c (refRegion src) (refBase src) = some f →
    (∀ ln a b, h = some ln → (s.goatPlan c e.level (list + 32 * k)).isSome = true → s.iaLoc c (refBase src + 128 * f.progress) = some a →
      s.iaLoc c (refBase dst + 128 * f.progress) = some b →
      let s0 := (s.countPlace e.part (Except.ok (ε := EngFault) a)).countHit e.part b
      exec (.copyLine id) s = .next ((((s0.copyLineTo a b).dropL1All c.part (lineOf b.pa)).iaWrite c (f.at_ + 16) 4
        (f.progress + 1)).updEngine e.id fun x => { x with
          owned := x.owned.filter (fun l => l != ln && l != lineOf b.pa)
          job := .goat die list n k true none })) ∧
    (h = none → f.lines ≤ f.progress →
      exec (.copyLine id) s = .next (((s.iaWrite c f.at_ 8 (refBase src + 2)).setMoving c f.new false).goatNext c e die
        list n k 1 [])))

/-- E17-E19 (R101, R143, R146, R147): a request that has reached a port, no other there going before it by cycle or input, is absorbed into the youngest request that
touches its word where the two combine and the wait buffer has room, and else joins the queue; the head of a queue moves on
to its next stage or is applied at its pod home; a reply is split for the requests absorbed at the switch and moves on. -/
def Sys2Proof.Claims.NetworkStepsComplete : Prop :=
  (∀ (s : State) (pre post : List PodReq) (r : PodReq), s.dead = false → s.arrive = pre ++ r :: post →
    r.came ≠ s.clock → (∀ a ∈ pre, a.at_ = r.at_ → a.before r true = false) →
    (∀ a ∈ post, a.at_ = r.at_ → a.before r false = false) →
    let t := { s with arrive := pre ++ post }
    let met := (s.reqs.filter fun y => y.at_ == r.at_ && y.touches r).getLast?
    (met = none → exec (.absorbOrAppend pre.length) s = .next { t with reqs := s.reqs ++ [r] }) ∧
    ∀ y, met = some y →
      let full := 256 ≤ (s.wbs.filter fun w => w.port == r.at_).length
      (y.sameWord r = true ∧ y.op.combines r.op = true ∧ ¬full →
        exec (.absorbOrAppend pre.length) s = .next
          { t with
            wbs := s.wbs ++ [{ port := r.at_, y := y.id, req := r, ay := y.e }]
            reqs := updFirst (fun z => z.id == y.id) (fun z => { z with e := absorbedOperand y r }) s.reqs }) ∧
      (y.sameWord r = false ∨ y.op.combines r.op = false ∨ full →
        exec (.absorbOrAppend pre.length) s = .next { t with reqs := s.reqs ++ [r] })) ∧
  (∀ (s : State) (p : Port) (pre post : List PodReq) (r : PodReq), s.dead = false → s.reqs = pre ++ r :: post →
    r.at_ = p → (∀ q ∈ pre, q.at_ ≠ p ∧ q.id ≠ r.id) → s.podLost r.ia = false →
    let t := { s with reqs := pre ++ post }
    (∀ n, s.nextStage p.stage = some n →
      exec (.transmit p) s = .next { t with arrive := s.arrive ++ [{ r with at_ := s.podPort r.ia n, inp := p.port, came := s.clock }] }) ∧
    (s.nextStage p.stage = none →
      let a := t.applyPod r
      exec (.transmit p) s = .next { a.1 with
        replies := a.1.replies ++ [{ req := r, val := BitVec.ofNat 64 a.2.1, poison := a.2.2, stage := 5 }] })) ∧
  (∀ (s : State) (pre post : List PodReply) (r : PodReply), s.dead = false → s.replies = pre ++ r :: post →
    let at_ := s.podPort r.req.ia r.stage
    let out := r :: (s.wbs.filter fun w => w.port == at_ && w.y == r.req.id).map fun w =>
      { r with req := w.req, val := BitVec.ofNat 64 (splitReply w.req.op w.req.size r.val.toNat w.ay.toNat) }
    let t := { s with
      replies := pre ++ post
      wbs := s.wbs.filter fun w => !(w.port == at_ && w.y == r.req.id) }
    (∀ n, s.prevStage r.stage = some n →
      exec (.reply pre.length) s = .next { t with replies := pre ++ post ++ out.map fun x => { x with stage := n } }) ∧
    (s.prevStage r.stage = none → exec (.reply pre.length) s = .next (out.foldl State.deliver t)))

/-- R43, R218, R299: a producer's value reaches its register, poison in a uniform or reference register trapping
POISON_READ; a matrix unit performs the head of its queue, trapping POISON_READ where the operation reads poison; and
the oldest pending invalidation drops the translations it names. -/
def Sys2Proof.Claims.RepliesAndUnitsComplete : Prop :=
  (∀ (s : State) (core slot idx : Nat) (k : Crew) (p : Prod), s.dead = false → s.crew? core slot = some k →
    k.prods[idx]? = some p → p.src.isPod = false →
    (p.poison = false ∨ p.dest.trapLane = none →
      exec (.registerProducerCompletion core slot idx) s = .next (s.updCrew core slot fun k => k.completeProd p idx)) ∧
    ∀ l, p.poison = true → p.dest.trapLane = some l →
      exec (.registerProducerCompletion core slot idx) s = .next ((s.updCrew core slot fun k =>
        { k with prods := removeAt k.prods idx }).raise core slot
          { cause := .poisonRead, lanes := laneMask [l], addr := 0, pc := p.pc, code := 0, flock := p.flock
            eng := false })) ∧
  (∀ (s : State) (gq : Nat) (j : MatJob) (rest : List MatJob) (k : Crew), s.dead = false →
    (s.unit gq).queue = j :: rest → s.crew? j.core j.slot = some k → (j.op.writesScratch && s.loadReads j) = false →
    let u := { s.unit gq with queue := rest }
    (j.op.readsBad (s.unit gq) k.live = false →
      exec (.matrixUnitExecute gq) s = .next (((s.setUnit u).setUnit (u.perform k.live s.fresh j)).updCrew j.core j.slot
        fun k => k.updLive fun c => c.perform (s.unit gq) s.fresh j)) ∧
    (j.op.readsBad (s.unit gq) k.live = true →
      exec (.matrixUnitExecute gq) s = .next ((s.setUnit u).raise j.core j.slot
        { cause := .poisonRead, lanes := laneMask j.lanes, addr := 0, pc := j.pc, code := 0, flock := j.flock
          eng := false }))) ∧
  (∀ (s : State) (part tag base len : Nat) (rest : List (Nat × Nat × Nat)) (c : Context), s.dead = false →
    s.ctx? part = some c → c.xlPend = (tag, base, len) :: rest →
    exec (.xlinv part) s = .next
      ({ s with tlb := s.tlb.filter fun t => !(t.part == part && xlHits base len t.granule) }.updCtx part fun c =>
        { c with xlPend := c.xlPend.tail }))

/-- The lines of the receive buffer that a chunk of elements `lo` to `hi` completes: those wholly written, and after the last
chunk the last line too (R257). -/
def Sys2Proof.Claims.chunkLines (s : State) (e : Engine) (b : List Nat) (lo hi total : Nat) : List Nat :=
  let at_ := fun n => cw b 3 + n * elemBytes b
  if hi = total then s.extentLines e.part e.level (cw b 3) (total * elemBytes b)
  else s.extentLines e.part e.level (at_ lo) (at_ hi / 128 * 128 - at_ lo)

/-- R252-R257, R259, R260: while pre-emption does not hold it, an unstarted collective reads its trigger at acceptance and every 256
cycles from then, and starts when the word has reached its value; it takes in each other member's contribution, whose
parameters must agree; in arrival mode sends the elements it finishes; once every member of the package has its contribution, writes
its result chunk by chunk; and, complete, writes its flag and arrives at its barrier. A failure is logged and marks it at every member of
the package. Model's choices: logs 10, 50, 68 and 80. -/
def Obligations.CollectiveStepsComplete : Prop :=
  (∀ (s : State) (id : Nat) (e : Engine) (b : List Nat) (g r next sp v : Nat) (ins : List (Nat × List (Nat × Bool))),
    s.dead = false → s.engine? id = some e → e.job = .coll b g r next false sp ins false → next ≤ s.clock →
    s.collHeld e.part = false → s.vaWaits true e .load (cw b 8) = false → s.triggerVal e (cw b 8) = .ok v →
    let due := nextRead next s.clock
    exec (.collTriggerRead id) s = .next ((s.countReads true e [cw b 8]).updEngine e.id fun x =>
      { x with job := if cw b 9 ≤ v then .coll b g r due true sp ((r, s.sendNow e b g r) :: ins) false
                      else .coll b g r due false sp ins false })) ∧
  (∀ (s : State) (id : Nat) (e : Engine) (b : List Nat) (g r next sp : Nat) (c : Cause) (ins : List (Nat × List (Nat × Bool))),
    s.dead = false → s.engine? id = some e → e.job = .coll b g r next false sp ins false → next ≤ s.clock →
    s.collHeld e.part = false → s.vaWaits true e .load (cw b 8) = false → s.triggerVal e (cw b 8) = .error c →
    exec (.collTriggerRead id) s = .next (s.collFault e b { cause := c, addr := cw b 8 % 2 ^ 57 })) ∧
  (∀ (s : State) (id : Nat) (e : Engine) (b : List Nat) (g own next sp : Nat) (ins : List (Nat × List (Nat × Bool))),
    s.dead = false → s.engine? id = some e → e.job = .coll b g own next true sp ins false →
    s.collHeld e.part = false →
    (∀ rank w0 root count chunk elems, rank < g → rank ≠ own → (∀ p ∈ ins, p.1 ≠ rank) →
      let vs := elems.map fun v => (v.1.toNat % 2 ^ (8 * elemBytes b), v.2)
      s.comesFrom e b own rank w0 root count chunk vs = true →
      (w0 = cw b 0 ∧ root = collRoot b ∧ count = collCount b ∧ chunk = cw b 10 →
        elems.length = (if movesAny g then givesCount b rank own else 0) →
        exec (.collStep id (.contribution rank w0 root count chunk elems)) s = .next ((s.countGives e b own rank).updEngine
          e.id fun x => { x with job := .coll b g own next true sp (ins ++ [(rank, vs)]) false })) ∧
      (w0 ≠ cw b 0 ∨ root ≠ collRoot b ∨ count ≠ collCount b ∨ chunk ≠ cw b 10 →
        exec (.collStep id (.contribution rank w0 root count chunk elems)) s = .next (s.collMark e b .collParam 0))) ∧
    (allStarted g ins = true → sp * chunkElems b < moving b g own → s.allGiven e b own = true →
      let lo := sp * chunkElems b
      let hi := lo + min (chunkElems b) (moving b g own - lo)
      let sent := sendsFinished b = false ∨ ∃ p ∈ ins, p.1 = finishedKey g own
      (¬sent → exec (.collStep id .own) s = .next (s.finishOwn e b g own ins)) ∧
      ∀ s1, sent → s.allFinished e b g ins = true →
        (∀ sec ∈ chunkSectors b lo hi, s.vaWaits true e .store (64 * sec) = false) →
        s.writeChunk e b g own ins lo hi (chunkSectors b lo hi) = .ok s1 →
        exec (.collStep id .own) s = .next (s1.updEngine e.id fun x =>
          { x with
            owned := x.owned.filter (fun l => !(Claims.chunkLines s1 e b lo hi (moving b g own)).contains l)
            job := .coll b g own next true (sp + 1) ins false }))) ∧
  (∀ (s : State) (id : Nat) (e : Engine) (b : List Nat) (g own next sp : Nat) (ins : List (Nat × List (Nat × Bool)))
      (started failed : Bool), s.dead = false → s.engine? id = some e →
    e.job = .coll b g own next started sp ins failed → s.collHeld e.part = false →
    (failed = true ∨ (started = true ∧ allStarted g ins = true ∧ moving b g own ≤ sp * chunkElems b ∧
      s.allGiven e b own = true)) →
    let p := ({ s with engines := s.engines.filter fun x => x.id != e.id }).flagWrite e b failed
    let t := match e.nb with
      | some n => p.1.collArrive e n
      | none => p.1
    (p.2 = none → exec (.collCompletion id) s = .next t) ∧
    (∀ c, p.2 = some c → exec (.collCompletion id) s = .next (t.engTrap e c (cw b 6 % 2 ^ 57)))) ∧
  (∀ (s : State) (id : Nat) (e : Engine) (b : List Nat) (g own next sp : Nat) (ins : List (Nat × List (Nat × Bool)))
      (started : Bool), s.dead = false → s.engine? id = some e → e.job = .coll b g own next started sp ins false →
    s.collHeld e.part = false →
    (∀ rank, sp = 0 → rank < g → s.far e b rank = true → (∀ p ∈ ins, p.1 ≠ rank) →
      exec (.collFailure id .disagree) s = .next (s.collMark e b .collParam 0)) ∧
    (∀ c k rank, rank < g → s.far e b rank = true → failCause c = some k →
      exec (.collFailure id (.remote c)) s = .next (s.collMark e b k 0)) ∧
    ∀ f, started = true → movesAny g = true → s.running e b g ins = true → s.bufferFault e b g own = some f →
      exec (.collFailure id (.buffer f.cause.code f.addr)) s = .next (s.collFault e b f))

/-- E17-E19, R43, R218, R299: requests and replies move through the network, values reach their registers, matrix units work
off their queues, and translations are dropped. Model's choices: logs 10, 15 and 25. -/
def Obligations.NetworkRepliesAndUnitsComplete : Prop := Claims.NetworkStepsComplete ∧ Claims.RepliesAndUnitsComplete

/-- E14, E15, E20-E23 (R99, R128-R131, R163-R168, R221): copies and B-store loads line by line and row by row, relocations
entry by entry, and their completion. Model's choices: logs 3, 34, 40, 69, 81, 89 and 90. -/
def Obligations.EngineAndGoatStepsComplete : Prop := Claims.EngineStepsComplete ∧ Claims.GoatStepsComplete

/-- R312, R314-R318, R320, R329: a checkpoint that is due is taken once the crew is ready for it; a trap held since the first
checkpoint of an irrevocable instruction is taken from the second; a record that found its trap queue full is tried again;
an interval that has run its length ends in a checkpoint, or asks for one; and the debug control halts a crew where it
stands, lets a halted crew issue once, and releases it. -/
def Sys2Proof.Claims.RecoveryAndDebugComplete : Prop :=
  ∀ (s : State) (core slot : Nat) (k : Crew), s.dead = false → s.crew? core slot = some k →
    (k.ckptDue = true → k.between = false → k.susp = none → s.ckptReady k = true →
      exec (.checkpoint core slot) s = .next (s.checkpoint core slot)) ∧
    (∀ t, k.heldTrap = some t → k.between = false → k.susp = none →
      exec (.trapDelivery core slot) s = .next (s.takeTrap core slot t true)) ∧
    (∀ r, k.susp = some r → r.queued = false → r.retryAt ≤ s.clock →
      exec (.trapRecordEnqueueRetry core slot) s =
        .next ((s.tryEnqueue k r).1.updCrew core slot fun x => { x with susp := some (s.tryEnqueue k r).2 })) ∧
    (∀ c, s.ctx? k.part = some c → c.intervalLen ≤ k.timer → k.between = false → k.halted = false → k.susp = none →
      (s.ckptReady k = true → exec (.intervalTimerExpiry core slot) s = .next (s.checkpoint core slot)) ∧
      (s.ckptReady k = false → k.ckptDue = false →
        exec (.intervalTimerExpiry core slot) s = .next (s.updCrew core slot fun x => { x with ckptDue := true }))) ∧
    (k.susp = none → k.halted = false →
      exec (.debugHalt core slot) s = .next (s.updCrew core slot fun x => { x with halted := true })) ∧
    -- of a suspended crew the halt stands in its record and is pending until its resumption
    (∀ r, k.susp = some r → k.haltPend = false →
      let r1 := { r with halt := true }
      let s1 := s.updCrew core slot fun x => { x with haltPend := true, susp := some r1 }
      (∀ t, s1.writeRecord { k with susp := some r1 } r1 = some t → exec (.debugHalt core slot) s = .next t) ∧
      (s1.writeRecord { k with susp := some r1 } r1 = none → exec (.debugHalt core slot) s = .next s1)) ∧
    (k.halted = true → k.stepPend = false → k.susp = none →
      exec (.singleStep core slot) s = .next (s.updCrew core slot fun x => { x with stepPend := true })) ∧
    (k.halted = true ∨ k.haltPend = true →
      exec (.haltRelease core slot) s =
        .next (s.updCrew core slot fun x => { x with halted := false, haltPend := false, stepPend := false }))

/-- Crews lodged one after another, each once the lines that its spills write are clear (R240, R328). -/
def Sys2Proof.Claims.Lodges : List Crew → State → State → Prop
  | [], s, t => t = s
  | k :: r, s, t => ∃ s1, s.clearArea (s.suspendTo k) (some (k.core, k.slot)) = .ok s1 ∧
      Sys2Proof.Claims.Lodges r (s1.lodgeCrew k.core k.slot) t

/-- R240, R327, R328: a quantum that has run out, or a request, marks crews to be pre-empted; those that are ready are rolled back,
their pinned states spilled and their places given up, in order; and at resumption the pre-empted teams take their places
again in the order of their pre-emption, and dispatch goes on. -/
def Sys2Proof.Claims.PreemptionComplete : Prop :=
  (∀ (s : State) (part : Nat) (c : Context), s.dead = false → s.ctx? part = some c → c.preempting = false →
    c.quantumLen ≠ 0 → c.quantumAt + c.quantumLen ≤ s.clock →
    exec (.quantumExpiry part) s = .next ((s.demandAll (s.crews.filter fun k => k.part == part)).updCtx part fun c =>
      { c with preempting := true })) ∧
  (∀ (s : State) (ps : List (Nat × Nat)), s.dead = false → (∃ k ∈ s.crews, (k.core, k.slot) ∈ ps) →
    let ks := s.crews.filter fun k => ps.contains (k.core, k.slot)
    exec (.preemptionRequest ps) s = .next { s.demandAll ks with
      ctxs := (s.demandAll ks).ctxs.map fun c =>
        if ks.any fun k => k.part == c.part then { c with preempting := true } else c }) ∧
  (∀ (s t : State) (part : Nat), s.dead = false → (∃ k ∈ s.crews, k.part = part ∧ s.lodgeable k = true) →
    Claims.Lodges (s.crews.filter fun k => k.part == part && s.lodgeable k) s t →
    exec (.lodgeState part) s = .next t) ∧
  (∀ (s s0 : State) (part : Nat) (c : Context), s.dead = false → s.ctx? part = some c →
    (∀ k ∈ s.crews, k.part = part → s.lodgeable k = false) →
    s.clearArea (c.waiting.flatMap fun k => s.resumeTo k) none = .ok s0 →
    let s1 := (s0.unparkAll part c.waiting.length).reloadSome c.waiting
    let left := ((s1.ctx? part).map (·.waiting.length)).getD 0
    c.preempting = true ∨ (c.waiting ≠ [] ∧ left ≠ c.waiting.length) →
    let s2 := s1.updCtx part fun c => { c with preempting := false, quantumAt := s.clock }
    exec (.partitionResume part) s =
      .next (if left = 0 then { s2 with lodged := s2.lodged.filter fun p => p.2 != part } else s2))

/-- A migration's line once it is held: its copies dropped, its owner set, the row of each frame opened, and the line let go. -/
def Sys2Proof.Claims.lineMoved (u : State) (eng : Engine) (ia e level old new next : Nat) : State :=
  let ln := lineOf (old + 128 * next)
  let v := (u.dropL1All eng.part ln).updEngine eng.id fun x => { x with owned := insertAsc ln x.owned }
  ((v.rowSectors (pageLoc eng.part e level old next) ++ v.rowSectors (pageLoc eng.part e level new next)).foldl
    (fun s sec => s.activate eng.part sec) v).updEngine eng.id fun x => { x with owned := [], job := .migrate ia old new (next + 1) }

/-- R326, R338: a page that is not resident and has been used more often than its threshold starts its migration into free frames of
the context, in the memory plan and on its die; each of its lines, an error in it put right first, is held as the Goat holds one and let
go once copied, and one that cannot be rebuilt aborts the migration (R336); a page whose key refuses the Mule or whose range is lost
stays (R300, R339); and, all copied, its leaf is rewritten, its cached translations dropped and its requests sent after it, the crews in
the way being asked for their checkpoints. The window in which accesses are
counted ends every 2^20 cycles. A compressed page that has been accessed is expanded into frames of the pool, its image kept until
the page is written, or, with no free frame there, the case is logged. Model's choices: logs 20, 62, 89 and 91. -/
def Obligations.PageMovesComplete : Prop :=
  (∀ (s : State) (part page half e level : Nat) (found : SectorFind) (c : Context) (m : Engine × Nat × Nat × Nat × Nat),
    s.dead = false → s.ctx? part = some c → s.walk c (page * 65536) = some (e, level) →
    let size := 2 ^ pageBits level
    s.migration? part (page * 65536 / size * size) = some m →
    let (eng, ia, old, new, next) := m
    let out := exec (.migrationLineCopy part page { half := half, found := found }) s
    (s.engineRefuses e .store = true ∨ s.lostPa old = true → out = .next (s.stopMigration eng new size)) ∧
    (s.engineRefuses e .store = false → s.lostPa old = false →
      (size ≤ 128 * next →
        (∀ s0, s.moveLines c.part e level old new (size / 128) = some s0 →
          let s1 := (s0.rewriteLeaf c ia e level new (leafCT e)).retarget c.part old new size
          out = .next { s1 with engines := s1.engines.filter fun x => x.id != eng.id }) ∧
        (∀ u, s.moveLines c.part e level old new (size / 128) = none → s.askHolders c.part old size = some u → out = .next u)) ∧
      let ln := lineOf (old + 128 * next)
      let sec := 2 * ln + half % 2
      (128 * next < size → (∀ x ∈ s.engines, x.id ≠ eng.id → x.part = eng.part → ln ∉ x.owned) →
        (found = .uncorrectable .neither → s.fromCopy sec = none → out = .next (s.abortMigration eng old new next size)) ∧
        ∀ t, found ≠ .uncorrectable .neither → s.sectorError sec found = some t →
          t.locWaits (pageLoc eng.part e level old next) = false → t.locWaits (pageLoc eng.part e level new next) = false →
          ((∀ d ∈ t.sb ++ t.rq, d.heldBy eng.part ln = false) → (∀ v ∈ t.vers, v.site.part = eng.part → v.line ≠ ln) →
            out = .next (Claims.lineMoved t eng ia e level old new next)) ∧
          -- with entries of the line drained and the crews that hold a version of it checkpointed first
          (∀ d u, (t.passLine eng.part ln).drainLine eng.part ln = some d → d.commitHolders eng.part ln = some u →
            u.engine? eng.id ≠ none → out = .next (Claims.lineMoved u eng ia e level old new next))))) ∧
  (∀ (s : State) (part page e level f : Nat) (c : Context) (read : LineFind), s.dead = false → s.ctx? part = some c →
    s.walk c (page * 65536) = some (e, level) →
    let size := 2 ^ pageBits level
    let ia := page * 65536 / size * size
    let old := leafPa e level ia
    s.migration? part ia = none → bits old 51 50 ≠ 0 → s.engineRefuses e .store = false → s.lostPa old = false →
    (if s.policy.migThreshold = 0 then 256 else max 16 (min 65536 s.policy.migThreshold)) <
      s.pageHits c.part ia size →
    frameRun (s.planFrames c e c.freeFrames) (size / 65536) = some f →
    let s1 := s.updCtx c.part fun c =>
      { c with freeFrames := c.freeFrames.filter fun x => !(decide (f ≤ x) && decide (x < f + size / 65536)) }
    ∃ eng, exec (.migrationLineCopy part page read) s =
        .next { s1 with nextTag := s1.nextTag + 1, engines := s1.engines ++ [eng] } ∧
      eng.id = s.nextTag ∧ eng.part = c.part ∧ eng.owned = [] ∧ eng.nb = none ∧
      eng.job = .migrate ia old (f * 65536) 0) ∧
  (∀ s : State, s.dead = false → s.hitWindow + 2 ^ 20 ≤ s.clock →
    exec .migrationCountWindowEnd s = .next { s with hits := [], hitWindow := s.clock / 2 ^ 20 * 2 ^ 20 }) ∧
  (∀ (s : State) (part page e level : Nat) (c : Context), s.dead = false → s.ctx? part = some c →
    s.walk c (page * 65536) = some (e, level) → leafCT e = true →
    let size := 2 ^ pageBits level
    let ia := page * 65536 / size * size
    let old := leafPa e level ia
    let room := frameRun (s.planFrames c e c.poolFrames) (size / 65536)
    let out := exec (.capacityTierExpansion part page) s
    s.pageHits part ia size ≠ 0 →
    (∀ f, s.lostPa old = false → room = some f →
      (∀ s1, s.moveLines c.part e level old (f * 65536) (size / 128) = some s1 →
        let s2 := ((s1.rewriteLeaf c ia e level (f * 65536) false).retarget c.part old (f * 65536) size).updCtx c.part fun c =>
          { c with poolFrames := c.poolFrames.filter fun x => !(decide (f ≤ x) && decide (x < f + size / 65536)) }
        out = .next { s2 with clean := s2.clean ++ [{ part := c.part, old := old, new := f * 65536, size := size }] }) ∧
      (∀ u, s.moveLines c.part e level old (f * 65536) (size / 128) = none → s.askHolders c.part old size = some u →
        out = .next u)) ∧
    (s.lostPa old = true ∨ room = none →
      out = .next { s.logError 6 old ia with
        hits := (List.range (size / 65536)).foldl (fun h k => spSet 0 (hitKey part (ia + 65536 * k)) 0 h) s.hits }))

/-- R312-R320, R327-R329: checkpoints, traps and records, debug control, and crews that give up their places and take
them again. Model's choices: logs 14, 56, 57, 58 and 59; that the halt of a suspended crew is written into its record in memory again is log
58. -/
def Obligations.RecoveryDebugAndPreemptionComplete : Prop := Claims.RecoveryAndDebugComplete ∧ Claims.PreemptionComplete

/-- R265-R269, R280: whenever some queue's head can be placed, the dispatcher takes the queue whose turn it is among those of the highest
priority and places its head, a crew or a whole team; a queue whose head has stood dispatchable for AGE cycles is raised once for
each AGE; a team that has stood so for 65,536 cycles reserves the free herd on which it lacks the fewest lane slots, the lowest on a
tie; and a crew without fibres ends in two parts, its interval closed first, its completion published once its entries have
drained, and so does that of one aborted while it was pre-empted. Model's choices: logs 41 and 54. -/
def Obligations.DispatchAndCrewEndComplete : Prop :=
  -- DISPATCH, of the queue that is chosen
  (∀ (s : State) (part : Nat) (c0 : Context), s.dead = false → s.ctx? part = some c0 → c0.preempting = false →
    c0.waiting = [] →
    -- the context with the raises and reservations that are due
    let c := s.reserveDue (c0.aged s.clock)
    (∃ q < 64, (s.headPlaced c q).isSome = true) →
    ∃ q l n t, q < 64 ∧ (∀ p < 64, (s.headPlaced c p).isSome = true → c.lqLevel p ≤ c.lqLevel q) ∧
      -- the queue whose turn it is goes on, else the next above it, wrapping
      (let last := c.turnOf (c.lqLevel q)
       let left := c.turnLeft (c.lqLevel q)
       let peer := fun p => p < 64 ∧ (s.headPlaced c p).isSome = true ∧ c.lqLevel p = c.lqLevel q
       (peer last → 0 < left → q = last) ∧
       (¬(peer last ∧ 0 < left) →
         (last < q ∧ ∀ p, peer p → last < p → q ≤ p) ∨ ∀ p, peer p → p ≤ last ∧ q ≤ p)) ∧
      s.headPlaced c q = some (l, n, t) ∧ c.head? q = some (l, n) ∧
      exec (.dispatch part) s = .next (t.updCtx part fun d => d.dispatched c q l n)) ∧
  -- what it records: the queue's turn, of WT dispatches, the crews dispatched and the team's reservation, which ends
  (∀ (d c : Context) (q n : Nat) (l : Launch),
    ((d.dispatched c q l n).lq q).since = none ∧ ((d.dispatched c q l n).lq q).raised = 0 ∧
    (d.rr = c.rr → d.sys = c.sys →
      (d.dispatched c q l n).turnOf (c.lqLevel q) = q ∧
      (d.dispatched c q l n).turnLeft (c.lqLevel q) =
        if c.turnOf (c.lqLevel q) = q ∧ 0 < c.turnLeft (c.lqLevel q) then c.turnLeft (c.lqLevel q) - 1
        else c.lqWeight q - 1) ∧
    (l.team ≠ 0 → ∀ w ∈ (d.dispatched c q l n).teams, w.isFor l n = false) ∧
    ∀ x ∈ (d.dispatched c q l n).launches, x ∈ d.launches ∨
      x = { l with dispatched := (l.gang n).foldl (fun ds m => insertAsc m ds) l.dispatched }) ∧
  -- PRIORITY_AGING
  (∀ (s : State) (part q t : Nat) (c : Context), s.dead = false → s.ctx? part = some c → (c.lq q).since = some t →
    c.lqPrio q + (c.lq q).raised < 7 → t + c.lqAge q * ((c.lq q).raised + 1) ≤ s.clock →
    exec (.priorityAging part q) s = .next (s.updCtx part fun c =>
      c.setLq q { c.lq q with raised := (c.lq q).raised + 1 })) ∧
  -- TEAM_RESERVATION
  (∀ (s : State) (part h : Nat) (c : Context) (pre post : List TeamWait) (t : TeamWait) (l : Launch) (e : EntryRec),
    s.dead = false → s.ctx? part = some c → c.teams = pre ++ t :: post →
    (∀ x ∈ pre, x.herd ≠ none ∨ s.clock < x.since + 65536) → t.herd = none → t.since + 65536 ≤ s.clock →
    c.launch? t.key = some l → c.entryOf l = some e → h ∈ s.herdsOf part → h ∉ c.reserved →
    let lacks := fun g => l.slotsOf e t.team - s.herdSlots part g
    ∃ g ∈ s.herdsOf part, g ∉ c.reserved ∧
      (∀ x ∈ s.herdsOf part, x ∉ c.reserved → lacks g < lacks x ∨ (lacks g = lacks x ∧ g ≤ x)) ∧
      exec (.teamReservation part) s = .next (s.updCtx part fun c => s.reserveDue c) ∧
      ({ t with herd := some g } : TeamWait) ∈ (s.reserveDue c).teams) ∧
  -- CREW_END of a resident crew, in its two parts
  (∀ (s : State) (core slot : Nat) (k : Crew), s.dead = false → s.crew? core slot = some k → k.finished = true →
    k.susp = none → s.ckptDrained k = true → s.loading k = false →
    (k.ending = false →
      exec (.crewEnd core slot) s = .next ((s.checkpoint core slot).updCrew core slot fun x =>
        { x with ending := true, between := false, heldTrap := none })) ∧
    (k.ending = true → (∀ e ∈ s.sb ++ s.rq, ¬(e.core = core ∧ e.slot = slot ∧ e.part = k.part)) →
      exec (.crewEnd core slot) s = .next (s.removeCrew k))) ∧
  -- and of one that was aborted while it was pre-empted
  (∀ (s : State) (core slot : Nat) (k : Crew) (rest : List Crew), s.dead = false → s.crew? core slot = none →
    (s.allCrews.filter fun j => j.core == core && j.slot == slot && j.ending) = k :: rest →
    (∀ e ∈ s.sb ++ s.rq, ¬(e.core = core ∧ e.slot = parkedSlot slot ∧ e.part = k.part)) →
    let s1 := ((s.setParked k.part k fun _ => none).dropSuspended k).dropWriter k
    exec (.crewEnd core slot) s = .next (((if k.done then s1 else s1.setBitmap k.part k.launch k.idx).updCtx k.part fun c =>
      c.crewEnded k.launch k.idx).settleTeam k))

/-- R40, R41, R87, R153, R274, R278: a bin whose time has run out is due, and a bin that is due or has reached its threshold forms
a flock from its pending fibres; a wait at RCV, SLEEP, QWAIT or YIELD ends when its time has passed, SLEEP and QWAIT with
the status false; and a sleeper that is not listed reads its queue again every 1,024 cycles. -/
def Sys2Proof.Claims.BinsAndTimersComplete : Prop :=
  (∀ (s : State) (core slot n : Nat) (k : Crew) (b : Bin), s.dead = false → s.crew? core slot = some k →
    k.live.bins[n]? = some b → b.held = false →
    (b.due = false → b.since + max 1 b.tmr ≤ s.clock →
      exec (.binTimerExpiry core slot n) s = .next (s.updCrew core slot fun k => k.updLive fun c =>
        { c with bins := updFirst (fun x => x.entry == b.entry) (fun x => { x with due := true }) c.bins })) ∧
    ∀ (s1 : State) (e : EntryRec) (p : Nat × List Nat), k.running = true →
      (b.due = true ∨ b.since + max 1 b.tmr ≤ s.clock ∨ b.thr ≤ b.pending.length) →
      s.entryAt k.part b.entry = some e → s.pickQuad k.part core (some slot) (e.roles.headD .vector) [] = some p →
      let m := min p.2.length b.pending.length
      s.formFlock core slot p.1 (p.2.take m) (e.roles.headD .vector) e.budget b.entry [] (b.pending.take m) = some s1 →
      exec (.binFire core slot n) s = .next ((s1.updCrew core slot fun k => k.updLive fun c =>
        { c with
          bins := if m = b.pending.length then dropFirst (fun x => x.entry == b.entry) c.bins
            else updFirst (fun x => x.entry == b.entry)
              (fun x => { x with pending := x.pending.drop m, since := s.clock, due := false }) c.bins }).settleBins core)) ∧
  (∀ (s : State) (b : BatchRef) (i : Iss), s.dead = false → s.find b = some i →
    let free := s.onBatch i fun x => { x with wait := .none }
    (∀ addr t opened, i.batch.wait = .rcv addr t opened → t ≠ 0 → opened + t ≤ s.clock →
      exec (.rcvTimeout b) s = .next (s.onFlock i fun f => f.closeRcv addr)) ∧
    (∀ qd nb t since, i.batch.wait = .sleep qd nb t since → t ≠ 0 → since + t ≤ s.clock →
      exec (.sleepTimeout b) s = .next (free.onFlock i fun f => f.setQ qd false)) ∧
    (∀ qd d listed t since next at_, i.batch.wait = .qwait qd d listed t since next at_ →
      (t ≠ 0 → since + t ≤ s.clock → exec (.qwaitTimeout b) s = .next (free.onFlock i fun f => f.setQ qd false)) ∧
      (listed = false → next ≤ s.clock →
        let waits := fun l => Host.Outcome.next (φ := Fault) (ρ := Refusal) (s.onBatch i fun x =>
          { x with wait := .qwait qd l false t since (nextAfter next 1024 s.clock) at_ })
        (∀ l, s.rereadAt i d = some l →
          (0 < (s.qdesc l).used → exec (.qwaitReread b) s = .next (free.onFlock i fun f => f.setQ qd true)) ∧
          ((s.qdesc l).used ≤ 0 → exec (.qwaitReread b) s = waits l)) ∧
        (s.rereadAt i d = none → exec (.qwaitReread b) s = waits d))) ∧
    (∀ t, i.batch.wait = .yield t → t ≤ s.clock → exec (.yieldExpiry b) s = .next free))

/-- R24: a power token that its herd has not used and has no matrix instruction ready for, or whose burst is over, moves to the next herd
of its die; a token of herd 7 returns to herd 0, and one beyond the die's count leaves. -/
def Sys2Proof.Claims.PowerTokensMoveRound : Prop :=
  ∀ (s : State) (die herd : Nat), s.dead = false → herd < 8 →
    (∀ (pre post : List TokenHold) (h : TokenHold), s.holds = pre ++ h :: post → h.herd = 8 * die + herd →
      ((h.start = none ∧ s.tokenReady (8 * die + herd) = false) ∨ h.over s.clock = true) →
      (∀ d ∈ pre, ¬(d.herd = 8 * die + herd ∧ ((d.start = none ∧ s.tokenReady (8 * die + herd) = false) ∨
        d.over s.clock = true)) ∧ d ≠ h) →
      (herd = 7 ∨ s.tokenCount die < s.tokensOut die →
        exec (.powerTokenPass die herd) s = .next { s with holds := pre ++ post }) ∧
      (herd < 7 → s.tokensOut die ≤ s.tokenCount die →
        exec (.powerTokenPass die herd) s = .next { s with
          holds := pre ++ post ++ [{ herd := 8 * die + herd + 1, start := none, last := s.clock }] })) ∧
    (herd = 0 → (∀ h ∈ s.holds, h.herd = 8 * die → h.start ≠ none ∧ h.over s.clock = false) →
      s.tokensOut die < s.tokenCount die → s.tokenReady (8 * die) = false →
      exec (.powerTokenPass die herd) s = .next { s with
        holds := s.holds ++ [{ herd := 8 * die + 1, start := none, last := s.clock }] })

/-- R24, R40, R41, R87, R153, R274, R278: what time brings about: bins fire, waits end, power tokens move round.
Model's choices: logs 4, 77 and 86. -/
def Obligations.BinsTimersAndTokensComplete : Prop := Claims.BinsAndTimersComplete ∧ Claims.PowerTokensMoveRound

/-- An error in a register: one that the open interval has changed has an undo entry, and its crew rolls back; one that stands as at the
checkpoint, with no entry of the crew in its quadrant's log, is lost. -/
def Sys2Proof.Claims.RegisterHit (site : SramSite) (s : State) (k : Crew) (quad : Nat) (kept : Prop) (lost : State) : Prop :=
  (¬kept → k.between = false →
    exec (.sramUncorrectableError site) s = .next ((s.rollback k.core k.slot).logDie 7 (dieOf k.core))) ∧
  (kept → spGet 0 k.undo quad = 0 →
    exec (.sramUncorrectableError site) s = .next (lost.logDie 7 (dieOf k.core)))

/-- R331-R335: an error that the code corrects is logged, and one that it takes for such leaves some other bytes; the XOR of a sector's
parity group gives what its array held, and so, or with a clean copy of its page, an uncorrectable sector of HBM is rebuilt in its array,
or else poisoned, and logged; and an uncorrectable error in an
SRAM or a register file poisons dirty or only data, refills clean data from the level below, and rolls a crew back where what it hit can
be restored; a register that is lost is poisoned, at the checkpoint too. -/
def Sys2Proof.Claims.MemoryErrorsComplete : Prop :=
  (∀ (s : State) (sector : Nat), s.dead = false →
    let pa := 64 * sector
    (inHbm sector = true →
      exec (.sectorRebuild sector .correctable) s = .next (s.logError 1 pa 0) ∧
      ∃ bs, bs.length = 64 ∧
        exec (.sectorRebuild sector .miscorrected) s = .next ({ s with mem := s.mem.write pa bs }.logError 1 pa 0)) ∧
    (inHbm sector = true → (∀ x ∈ parityOf sector :: parityGroup sector, s.sectorBad x = false) →
      exec (.sectorRebuild sector (.uncorrectable .parity)) s =
        .next ({ s with mem := s.mem.write pa (s.mem.read pa 64) }.logError 2 pa 0)) ∧
    (∀ bs, s.fromCopy sector = some bs → exec (.sectorRebuild sector (.uncorrectable .copy)) s =
      .next ({ s with mem := s.mem.write pa bs }.logError 2 pa 0)) ∧
    (s.fromCopy sector = none → exec (.sectorRebuild sector (.uncorrectable .neither)) s =
      .next ((s.poisonSector sector).logError 3 pa 0))) ∧
  (∀ (s : State) (part line sector : Nat) (h : HomeLine), s.dead = false →
    let sec := 2 * line + sector % 2
    s.homeSector? part sec = some h →
    (h.isDirty sec = true → exec (.sramUncorrectableError (.slice part line sector)) s =
      .next ((s.poisonSector sec).logError 3 (64 * sec) 0)) ∧
    (h.isDirty sec = false → exec (.sramUncorrectableError (.slice part line sector)) s =
      .next (((s.activate part sec).updHome part line fun h => h.fill s.mem sec).logError 2 (64 * sec) 0))) ∧
  (∀ (s : State) (core part line : Nat) (c : L1Copy), s.dead = false → s.copy? core part line = some c →
    (c.pinned = true → exec (.sramUncorrectableError (.l1 core part line)) s =
      .next ((s.refill c).logError 2 (128 * line) 0)) ∧
    (c.pinned = false → exec (.sramUncorrectableError (.l1 core part line)) s =
      .next ((s.dropL1 core part line false).logError 2 (128 * line) 0))) ∧
  (∀ (s : State) (core slot sec : Nat) (v : Version), s.dead = false → s.version? core slot (sec / 2) = some v →
    exec (.sramUncorrectableError (.version core slot sec)) s = .next ({ s with
      vers := updFirst (fun v => v.ofCrew core slot && v.line == sec / 2) (fun v => { v with bad := insertAsc sec v.bad })
        s.vers }.logError 3 (64 * sec) 0)) ∧
  (∀ (s : State) (core slot addr : Nat) (k : Crew), s.dead = false → s.crew? core slot = some k → k.base ≤ addr →
    addr < k.limit → exec (.sramUncorrectableError (.scratch core slot addr)) s = .next ((s.updCrew core slot fun k =>
      k.spoil (addr / 128)).logDie 3 (dieOf core))) ∧
  (∀ (s : State) (core slot flock lane n : Nat) (k : Crew) (f : Flock) (x : Fibre), s.dead = false →
    s.crew? core slot = some k → k.flock? flock = some f → f.fibre? lane = some x →
    let flock0 := k.saved.flocks.find? fun g => g.num == flock
    let fibre0 := flock0.bind fun g => g.fibre? lane
    let inFibre := fun (lose : Fibre → Fibre) => s.loseIn core slot flock fun f => f.updFibre lane lose
    let hit := fun (site : SramSite) => Claims.RegisterHit site s k f.quad
    hit (.laneReg core slot flock lane n) (fibre0.map (fun y => y.reg n) = some (x.reg n))
      (inFibre fun x => x.markPoison n) ∧
    hit (.lanePred core slot flock lane n)
      (fibre0.map (fun y => (y.pred n, y.pBad.contains n)) = some (x.pred n, x.pBad.contains n))
      (inFibre fun x => x.spoilPred n) ∧
    hit (.href core slot flock lane n) (fibre0.map (fun y => (y.h n, y.hBad.contains n)) = some (x.h n, x.hBad.contains n))
      (inFibre fun x => x.spoilH n) ∧
    hit (.uniReg core slot flock n) (flock0.map (fun g => (g.kreg n, g.kBad.contains n)) = some (f.kreg n, f.kBad.contains n))
      (s.loseIn core slot flock fun f => f.spoilK n) ∧
    hit (.uniPred core slot flock n)
      (flock0.map (fun g => (g.qpred n, g.qBad.contains n)) = some (f.qpred n, f.qBad.contains n))
      (s.loseIn core slot flock fun f => f.spoilQ n)) ∧
  (∀ (s : State) (gq row : Nat), s.dead = false → exec (.sramUncorrectableError (.bstore gq row)) s =
    .next ((s.onUnit gq fun u => { u with bBad := insertAsc (2 * row) (insertAsc (2 * row + 1) u.bBad) }).logDie 3
      (dieOf (gq / 4)))) ∧
  (∀ (s : State) (off : Nat), s.dead = false → exec (.sramUncorrectableError (.window off)) s =
    .next ({ s with hwBad := insertAsc (off / 64) s.hwBad }.logDie 3 0)) ∧
  (∀ (s : State) (gq z : Nat), s.dead = false → ∀ p ∈ [
      (SramSite.tile gq z, (s.unit gq).shTiles.any fun p => p.1 == z,
        fun (u : MUnit) => u.setTile z { u.tile z with bad := true }),
      (SramSite.bankA gq, (s.unit gq).shBanks.isSome, fun (u : MUnit) => { u with saBad := true }),
      (SramSite.bankB gq, (s.unit gq).shBanks.isSome, fun (u : MUnit) => { u with sbBad := true })],
    (p.2.1 = false → exec (.sramUncorrectableError p.1) s = .next ((s.onUnit gq p.2.2).logDie 3 (dieOf (gq / 4)))) ∧
    ∀ h, p.2.1 = true → (s.unit gq).holder = some h → (s.crew? h.1 h.2).any (·.between) = false →
      exec (.sramUncorrectableError p.1) s = .next ((s.rollback h.1 h.2).logDie 7 (dieOf (gq / 4))))

/-- R283, R308, R337: a scrub pass starts when its period has passed; each read goes on to the next sector, logging or repairing
what it finds; at each quarter of the period a pass that is behind goes up one step; the row window ends every 2^16 cycles;
and once in every 2^20 cycles a way of a slice group goes to the context that the counts of its shadow tags show to gain most by it: a
free one, else the highest that the context which loses least can give, its lines released first; the counts restart. Model's choices: logs 3, 7, 18, 59, 62, 78 and 92. -/
def Obligations.ScrubbingAndWaysComplete : Prop :=
  (∀ (s : State) (stack : Nat), s.dead = false → stack < 16 → stack ∉ s.fence.hbm →
    ((s.hen stack).start + s.scrubPeriod stack ≤ s.clock →
      exec (.scrubPassStart stack) s = .next (s.setHen stack { start := s.clock, next := 0, step := 0, quarter := 0 })) ∧
    (∀ occupancy, (s.hen stack).next < allSectors → (∀ l, s.henLimit stack = some l → occupancy < l) →
      let t := s.setHen stack { s.hen stack with next := (s.hen stack).next + 1 }
      let out := fun found => exec (.scrubRead stack { occupancy := occupancy, found := found }) s
      out .clean = .next t ∧
      ((s.hen stack).next < stackSectors →
        let sec := stack * 2 ^ 31 + (s.hen stack).next
        out .correctable = .next (t.logError 1 (64 * sec) 0) ∧
        (t.fromCopy sec = none → out (.uncorrectable .neither) = .next ((t.poisonSector sec).logError 3 (64 * sec) 0)) ∧
        -- what stands in the sector is rebuilt with its parity group or a clean copy
        ((∀ x ∈ parityOf sec :: parityGroup sec, t.sectorBad x = false) → out (.uncorrectable .parity) = .next
          ({ t with mem := t.mem.write (64 * sec) (t.mem.read (64 * sec) 64) }.logError 2 (64 * sec) 0)) ∧
        ∀ bs, t.fromCopy sec = some bs → out (.uncorrectable .copy) = .next
          ({ t with mem := t.mem.write (64 * sec) bs }.logError 2 (64 * sec) 0)) ∧
      -- a parity sector is formed anew from its group, or poisoned
      (stackSectors ≤ (s.hen stack).next →
        let n := (s.hen stack).next - stackSectors
        out .correctable = .next (t.logPlace 1 (stackPlace stack)) ∧
        ((∀ x ∈ parityData stack n, t.sectorBad x = false) →
          out (.uncorrectable .parity) = .next (t.logPlace 2 (stackPlace stack))) ∧
        out (.uncorrectable .neither) = .next ((t.poisonSector (parityName stack n)).logPlace 3 (stackPlace stack))))) ∧
  (∀ (s : State) (stack : Nat), s.dead = false → stack < 16 →
    let h := s.hen stack
    h.quarter < 4 → h.start ≤ s.clock → (h.quarter + 1) * s.scrubPeriod stack ≤ 4 * (s.clock - h.start) →
    exec (.scrubEscalationCheck stack) s = .next (s.setHen stack { h with
      quarter := h.quarter + 1
      step := if 4 * h.next < (h.quarter + 1) * allSectors then min 4 (h.step + 1) else h.step })) ∧
  (∀ s : State, s.dead = false → s.rowWindow + 2 ^ 16 ≤ s.clock →
    exec .rowActivationWindowEnd s = .next { s with rows := [], rowAt := [], rowWindow := s.clock / 2 ^ 16 * 2 ^ 16 }) ∧
  (∀ (s : State) (g pick : Nat), s.dead = false → g < 64 → spGet 0 s.wayAt g < s.clock / 2 ^ 20 →
    let ended := fun (t : State) => { t with
      wayAt := spSet 0 g (s.clock / 2 ^ 20) s.wayAt
      shHits := t.shHits.filter fun h => h.1 / 1024 != g }
    let out := exec (.wayMove g pick) s
    (s.wayReceiver g = none → out = .next (ended s)) ∧
    ∀ r, s.wayReceiver g = some r →
      (∀ w, (s.freeWays g)[pick % (s.freeWays g).length]? = some w → out = .next (ended (s.giveWay g r.1 w))) ∧
      (s.freeWays g = [] →
        (s.wayDonor g r.1 = none → out = .next (ended s)) ∧
        ∀ d, s.wayDonor g r.1 = some d →
          (∀ w, d.2 < r.2 → s.movableWay d.1 g = some w →
            let s1 := (s.wayLines g w).foldl (fun s l => s.releaseHome l.1 l.2) s
            out = .next (ended (({ s1 with slWays := spSet 0 (16 * g + w) 0 s1.slWays }.unpinOver d.1 g).giveWay g r.1 w))) ∧
          (r.2 ≤ d.2 ∨ s.movableWay d.1 g = none → out = .next (ended s))))

/-- R339: a link that goes down, or on which a request times out, loses its range, and every request outstanding there completes; a request times
out that has been outstanding for the link's timeout; the range is lost until firmware clears it once the link is up again. -/
def Sys2Proof.Claims.LinkEventsComplete : Prop :=
  ∀ (s : State) (l : Link), s.dead = false →
    (l ∉ s.down → exec (.linkDown l) s = .next ({ s with down := s.down ++ [l] }.loseRange l)) ∧
    (l ∉ s.lost → (∃ b ∈ s.sentOn l, b + s.policy.timeout l ≤ s.clock) → exec (.completionTimeout l) s = .next (s.loseRange l)) ∧
    (l ∈ s.lost → l ∉ s.down → exec (.lostclr l) s = .next { s with lost := s.lost.filter (· != l) }) ∧
    (l ∈ s.down → exec (.linkRetrained l) s = .next { s with down := s.down.filter (· != l) })

/-- R332-R335, R339: uncorrectable errors in memory, and links that are lost and come back.
Model's choices: logs 18, 21, 61 and 62. -/
def Obligations.ErrorsAndLinksComplete : Prop := Claims.MemoryErrorsComplete ∧ Claims.LinkEventsComplete

/-- R103, R343-R348: a host access inside a context's window slice, or by the PF anywhere in the window, reads or writes the window
SRAM at HW(x), and one beyond its end reads nothing and writes nothing; BAR4 reads and writes memory itself unless its row is
throttled, a write staying posted where the port keeps it, and a refused access completes with an empty reply, logged; LTAIL moves forward or is refused with OVR; the slot at LHEAD is
accepted once its invalidation is made, or answered with its error; a flush is busy until the function's posted writes are done; and features are accepted from
those offered until a launch locks them; and a host read of the control space finds these registers. Model's choices: logs 18, 19 and 63. -/
def Obligations.HostAccessAndRingComplete : Prop :=
  (∀ (s : State) (part off : Nat) (w : Nat × Nat), s.dead = false → s.windowSpan part = some w →
    (∀ n, off + n ≤ w.2 → exec (.hostWindowAccess part off (.read n)) s = .next (s.reply (hostFn part) (s.hw.read (w.1 + off) n))) ∧
    (∀ n, w.2 < off + n → exec (.hostWindowAccess part off (.read n)) s = .next (s.reply (hostFn part) [])) ∧
    (∀ bs, off + bs.length ≤ w.2 → ∃ t, exec (.hostWindowAccess part off (.write bs)) s = .next t ∧
      t.hw = s.hw.write (w.1 + off) bs ∧ t.mem = s.mem ∧ t.home = s.home ∧ t.l1 = s.l1 ∧ t.crews = s.crews ∧ t.ctxs = s.ctxs) ∧
    (∀ bs, w.2 < off + bs.length → exec (.hostWindowAccess part off (.write bs)) s = .next s)) ∧
  (∀ (s : State) (fn addr : Nat), s.dead = false → fn ≤ 16 →
    -- a read, with nothing of the function posted or read ahead
    (∀ n l, s.bar4Bytes fn addr .load n = some l → (∀ p ∈ s.posted, p.fn ≠ fn) → (∀ b ∈ s.ahead, b.fn ≠ fn) →
      let t := s.countBar4 fn addr n
      t.hostWaits fn l = false →
      exec (.bar4Access fn addr (.read n)) s = .next ((((sectorsOf l).foldl
        (fun s sec => s.activate (fnContext fn) sec) t).reply fn (l.map s.mem.get)).readAhead fn addr l.length)) ∧
    (∀ n, s.bar4Bytes fn addr .load n = none → exec (.bar4Access fn addr (.read n)) s = .next (s.refuseHost fn addr)) ∧
    -- a write is done, or stays posted; behind a posted one of its function it stays posted
    (∀ bs l, bs ≠ [] → s.bar4Bytes fn addr .store bs.length = some l →
      let t := s.countBar4 fn addr bs.length
      let out := exec (.bar4Access fn addr (.write bs)) s
      out = .next { t with posted := s.posted ++ [{ fn := fn, bytes := l.zip bs }] } ∨
        ((∀ p ∈ s.posted, p.fn ≠ fn) ∧
          (t.hostWaits fn ((l.zip bs).map (·.1)) = false → out = .next (t.hostStore fn (l.zip bs))) ∧
          (t.hostWaits fn ((l.zip bs).map (·.1)) = true → out = .next { s with stall := true }))) ∧
    (∀ pre post p, s.posted = pre ++ p :: post → p.fn = fn → (∀ q ∈ pre, q.fn ≠ fn) →
      s.hostWaits fn (p.bytes.map (·.1)) = false →
      exec (.bar4Access fn addr (.write [])) s = .next ({ s with posted := pre ++ post }.hostStore fn p.bytes)) ∧
    (∀ w, (s.hostStore fn w).mem = w.foldl (fun m p => m.set p.1 p.2) s.mem ∧ (s.hostStore fn w).home = s.home ∧
      (s.hostStore fn w).l1 = s.l1 ∧ (s.hostStore fn w).crews = s.crews) ∧
    (∀ bs, bs ≠ [] → s.bar4Bytes fn addr .store bs.length = none →
      exec (.bar4Access fn addr (.write bs)) s = .next (s.refuseHost fn addr)) ∧
    ((s.refuseHost fn addr).reports = s.reports ++ [(fn, [])] ∧ (s.refuseHost fn addr).mem = s.mem)) ∧
  (∀ (s : State) (fn : Nat), s.dead = false → fn ≤ 16 →
    let h := s.fn fn
    (∀ v : BitVec 64,
      ((h.ltail + 64 - h.lhead) % 64 ≤ (v.toNat % 64 + 64 - h.lhead) % 64 →
        exec (.ltail fn v) s = .next (s.setFn fn { h with ltail := v.toNat % 64, ovr := false })) ∧
      ((v.toNat % 64 + 64 - h.lhead) % 64 < (h.ltail + 64 - h.lhead) % 64 →
        exec (.ltail fn v) s = .next (s.setFn fn { h with ovr := true }))) ∧
    (h.lhead ≠ h.ltail →
      let r := h.record s.fresh h.lhead
      (∀ e, s.checkLaunch (portContext fn) (portLevel fn) r = .error e →
        exec (.launchSlotProcess fn) s = .next (s.setFn fn (h.finishSlot e false))) ∧
      ∀ c l, s.ctx? (portContext fn) = some c → s.checkLaunch (portContext fn) (portLevel fn) r = .ok l →
        (∀ ln ∈ s.iaLines c r.invBase r.invLen, s.owned (portContext fn) ln = false) →
        exec (.launchSlotProcess fn) s = .next ((((s.iaLines c r.invBase r.invLen).foldl
          (fun s ln => s.releaseHome (portContext fn) ln) s).queueLaunch (portContext fn) l).setFn fn (h.finishSlot l.id true))) ∧
    -- while an engine owns a line that it is to invalidate, LSTAT.V of its slot reads 0
    (h.lhead ≠ h.ltail →
      let r := h.record s.fresh h.lhead
      ∀ c l ln, s.ctx? (portContext fn) = some c → s.checkLaunch (portContext fn) (portLevel fn) r = .ok l →
        ln ∈ s.iaLines c r.invBase r.invLen → s.owned (portContext fn) ln = true → 2 ^ 63 ≤ (spGet 0 h.lstat h.lhead).toNat →
        exec (.launchSlotProcess fn) s = .next (s.setFn fn (h.openSlot h.lhead))) ∧
    exec (.flGo fn) s = .next (s.setFn fn { h with busy := true }) ∧
    -- a flush ends once the function's posted writes are done, and what was read ahead of its range is dropped
    (h.busy = true → ∀ u, s.completePosted fn s.posted.length = some u →
      exec (.flushComplete fn) s = .next { u.setFn fn { h with busy := false } with
        ahead := u.ahead.filter fun b =>
          !(b.fn == fn && decide (h.flBase.toNat ≤ b.addr) && decide (b.addr < h.flBase.toNat + h.flLen.toNat)) }) ∧
    (∀ v, h.lock = false → exec (.featAccept fn v) s =
      .next (s.setFn fn { h with accept := v &&& Config.featOffer &&& 0x7F })) ∧
    (∀ v, h.lock = true → exec (.featAccept fn v) s = .next s) ∧
    exec (.functionReset fn) s = .next (s.setFn fn { h with lock := false }) ∧
    -- what a host read of the control space finds: FL_GO is write-only
    s.bar0Read fn 0x100 4 = leBytes 4 h.ltail ∧ s.bar0Read fn 0x104 4 = leBytes 4 h.lhead ∧
    s.bar0Read fn 0x200 8 = leBytes 8 h.flBase.toNat ∧ s.bar0Read fn 0x208 8 = leBytes 8 h.flLen.toNat ∧
    s.bar0Read fn 0x210 8 = List.replicate 8 0 ∧ s.bar0Read fn 0x218 8 = leBytes 8 (if h.busy then 1 else 0))

namespace Sys2Proof.Claims

/-- Registers of the management function whose written value lies between two limits, with the field that takes it (R24, R283,
R312, R326, R327, R337, R352). -/
def limited : List (MgmtReg × Nat × Nat × (State → Nat → State)) :=
  [(.actMax, 512, 8192, fun s v => s.onPolicy fun p => { p with actMax := v }),
   (.migThreshold, 16, 65536, fun s v => s.onPolicy fun p => { p with migThreshold := v })]

/-- Registers of one thing each, the same way: a stack's or a region's scrub settings, a link's timeout, a partition's shares. -/
def limitedEach (n : Nat) (l : Link) : List (MgmtReg × Nat × Nat × (State → Nat → State)) :=
  [(.scrubThreshold n, 5, 95, fun s v => s.onPolicy fun p => { p with scrubThreshold := spSet 25 n v p.scrubThreshold }),
   (.scrubPeriod n, 1, 168, fun s v => s.onPolicy fun p => { p with scrubPeriod := spSet 0 n v p.scrubPeriod }),
   (.timeout l, 1, 4000, fun s v => s.onPolicy fun p => { p with timeouts := (p.timeouts.filter fun t => t.1 != l) ++ [(l, v)] }),
   (.interval n, 1024, 4194304, fun s v => s.updCtx n fun c => { c with interval := v }),
   (.quantum n, 2 ^ 16, 2 ^ 32, fun s v => s.updCtx n fun c => { c with quantum := v, quantumAt := s.clock })]

/-- Registers that take their value as it stands: what a write leaves (R297, R306, R328, R330, R338, R344, R349, R352). -/
def taken (fn part i : Nat) (v : BitVec 64) (s : State) : List (MgmtReg × State) :=
  [(.flBase fn, s.setFn fn { s.fn fn with flBase := BitVec.ofNat 64 (v.toNat % 2 ^ 52) }),
   (.flLen fn, s.setFn fn { s.fn fn with flLen := v }),
   (.saveArea part, s.updCtx part fun c => { c with saveArea := v.toNat }),
   (.breakHalt part, s.updCtx part fun c => { c with breakHalt := bitAt v.toNat 0 }),
   (.publicKey part, s.updCtx part fun c => { c with key := some v }),
   (.poolFrame part, s.updCtx part fun c => if c.freeFrames.contains v.toNat then
      { c with freeFrames := c.freeFrames.filter (· != v.toNat), poolFrames := c.poolFrames ++ [v.toNat] } else c),
   (.cxlGrantBase part i, s.updCtx part fun c => { c with cxlGrants := setGrant c.cxlGrants i fun g => (v.toNat, g.2) }),
   (.cxlGrantLimit part i, s.updCtx part fun c => { c with cxlGrants := setGrant c.cxlGrants i fun g => (g.1, v.toNat) }),
   (.hostGrantBase part i, s.updCtx part fun c => { c with hostGrants := setGrant c.hostGrants i fun g => (v.toNat, g.2) }),
   (.hostGrantLimit part i, s.updCtx part fun c => { c with hostGrants := setGrant c.hostGrants i fun g => (g.1, v.toNat) }),
   (.pkg, { s with pkg := v.toNat }),
   (.reserved i, s)]

end Sys2Proof.Claims

/-- R289, R292, R307, R349: a context that does not exist is created at its reset values; one without crews or requests is
destroyed, its quadrants, its frames and its window slice cleaned (R311); a frame is taken from a context once no request for it is
under way, and cleaned; QOWN names quadrants to change hands, and each does so, cleaned, once no crew of its owner lives there;
and a register of the management function takes its value, limited as its rule gives. -/
def Sys2Proof.Claims.ContextsAndManagementComplete : Prop :=
  (∀ (s : State) (part : Nat), s.dead = false → part < 16 → s.ctx? part = none →
    exec (.contextCreate part) s = .next ((List.range 64).foldl (fun s g => s.fillFloor part g)
      { s with ctxs := s.ctxs ++ [{ Context.reset part with quantumAt := s.clock }] })) ∧
  (∀ (s s0 : State) (part : Nat) (c : Context), s.dead = false → s.ctx? part = some c → (∀ k ∈ s.crews, k.part ≠ part) →
    (∀ e ∈ s.engines, e.part ≠ part) → (∀ e ∈ s.sb ++ s.rq ++ s.linkWait, e.part ≠ part) →
    (∀ f ∈ c.frames, s.frameBusy part f = false) → (∀ p ∈ s.posted, p.fn ≠ part + 1) →
    s.clearQuads ((List.range 2048).filter c.owns) = .ok s0 →
    let s1 := (((List.range 2048).filter c.owns).foldl (fun s gq => s.cleanQuad (some part) gq) s0).freeContextWays part
    let s2 := (c.frames.foldl (fun s f => s.cleanFrame part f) s1).cleanWindow (inSlice c.winBase c.winSize)
    exec (.contextDestroy part) s = .next { s2 with
      icache := s2.icache.filter fun f => f.part != part
      ctxs := s2.ctxs.filter fun d => d.part != part
      l1 := s2.l1.filter fun x => x.part != part
      tlb := s2.tlb.filter fun t => t.part != part
      fwd := s2.fwd.filter fun f => f.part != part
      hits := s2.hits.filter fun h => h.1 / 2 ^ 36 != part
      ahead := s2.ahead.filter fun b => b.fn != part + 1
      shTags := s2.shTags.filter fun t => t.1 % 32 != part
      shHits := s2.shHits.filter fun t => t.1 / 32 % 32 != part
      errlog := s2.errlog.map fun r => if r.ctx == some part then { r with ctx := none, ia := 0 } else r
      clean := s2.clean.filter fun i => i.part != part
      lodged := s2.lodged.filter fun p => p.2 != part }) ∧
  (∀ (s : State) (part word : Nat) (v : BitVec 64) (c : Context), s.dead = false → s.ctx? part = some c → word < 32 →
    let todo := ((List.range 64).map fun b => 64 * word + b).filter fun gq =>
      bitAt v.toNat (gq % 64) != c.owns gq && !(s.fence.quads.contains gq) && !(s.fence.cores.contains (gq / 4))
    exec (.qown part word v) s = .next (s.updCtx part fun c =>
      { c with handover := (c.handover.filter fun g => g / 64 != word) ++ todo })) ∧
  (∀ (s s1 : State) (gq : Nat) (c : Context), s.dead = false → c ∈ s.ctxs → gq ∈ c.handover → s.clearQuads [gq] = .ok s1 →
    -- a quadrant that nobody owns
    (s.ctxs.find? (fun d => d.owns gq) = none → (∀ d ∈ s.ctxs, gq ∈ d.handover → d = c) →
      exec (.quadrantHandover gq) s = .next (((s1.cleanQuad none gq).updCtx c.part fun d =>
        { d.setOwn gq true with handover := d.handover.filter (· != gq) }).raiseFloors c.part)) ∧
    ∀ d, s.ctxs.find? (fun d => d.owns gq) = some d → s.quadLives gq = false →
      let s2 := (s1.cleanQuad (some d.part) gq).updCtx d.part fun x =>
        { x.setOwn gq false with handover := x.handover.filter (· != gq) }
      -- one that changes hands, whether or not its owner was told to give it up
      (d.part ≠ c.part → (∀ x ∈ s.ctxs, gq ∈ x.handover → x = c ∨ x.owns gq = true) → c.owns gq = false →
        exec (.quadrantHandover gq) s = .next ((s2.updCtx c.part fun d =>
          { d.setOwn gq true with handover := d.handover.filter (· != gq) }).raiseFloors c.part)) ∧
      -- one that its owner gives up and nobody gains
      (d.part = c.part → (∀ x ∈ s.ctxs, gq ∈ x.handover → x = c ∧ x.owns gq = true) →
        exec (.quadrantHandover gq) s = .next (s2.updCtx c.part fun d =>
          { d.setOwn gq false with handover := d.handover.filter (· != gq) }))) ∧
  (∀ r ∈ Claims.limited, ∀ (s : State) (v : BitVec 64), s.dead = false →
    ∃ w, exec (.managementRegisterWrite r.1 v) s = .next (r.2.2.2 s w) ∧ r.2.1 ≤ w ∧ w ≤ r.2.2.1 ∧
      (r.2.1 ≤ v.toNat → v.toNat ≤ r.2.2.1 → w = v.toNat)) ∧
  (∀ (n : Nat) (l : Link), ∀ r ∈ Claims.limitedEach n l, ∀ (s : State) (v : BitVec 64), s.dead = false →
    ∃ w, exec (.managementRegisterWrite r.1 v) s = .next (r.2.2.2 s w) ∧ r.2.1 ≤ w ∧ w ≤ r.2.2.1 ∧
      (r.2.1 ≤ v.toNat → v.toNat ≤ r.2.2.1 → w = v.toNat) ∧ (v.toNat < r.2.1 → w = r.2.1) ∧ (r.2.2.1 < v.toNat → w = r.2.2.1)) ∧
  (∀ (s : State) (fn part i : Nat) (v : BitVec 64), s.dead = false → fn ≤ 16 → ∀ r ∈ Claims.taken fn part i v s,
    exec (.managementRegisterWrite r.1 v) s = .next r.2) ∧
  (∀ (s : State) (part : Nat) (v : BitVec 64), s.dead = false →
    exec (.managementRegisterWrite (.prio part) v) s = .next (s.putReg part snPrio (v.toNat % 8)) ∧
    exec (.managementRegisterWrite .npkg v) s = .next { s with npkg := max 1 (min 786432 v.toNat) } ∧
    (∀ fn slot word, fn ≤ 16 → slot < 64 → word < 16 →
      exec (.managementRegisterWrite (.lrec fn slot word) v) s = .next (s.setFn fn ((s.fn fn).putWord slot word v))) ∧
    (∀ die, die < 8 → exec (.managementRegisterWrite (.tokens die) v) s =
      .next { s with tokens := spSet 1 die (max 1 (min (s.thermalLimit die) v.toNat)) s.tokens }) ∧
    (∀ key, key < 32 → exec (.managementRegisterWrite (.enginePkr key) v) s =
      .next (s.onPolicy fun p => { p with enginePkr := spSet 0 key (v.toNat % 4) p.enginePkr })) ∧
    -- a frame of the memory plan that no context has
    (s.inPlan v.toNat = true → (∀ d ∈ s.ctxs, v.toNat ∉ d.frames) →
      exec (.managementRegisterWrite (.assignFrame part) v) s = .next (s.updCtx part fun c =>
        { c with frames := insertAsc v.toNat c.frames, freeFrames := c.freeFrames ++ [v.toNat] })) ∧
    (s.inPlan v.toNat = false ∨ (∃ d ∈ s.ctxs, v.toNat ∈ d.frames) →
      exec (.managementRegisterWrite (.assignFrame part) v) s = .next s) ∧
    -- a frame of a context, with no request for it under way and no uncommitted version of a line of it
    (∀ c, s.ctx? part = some c →
      let busy := s.vers.any fun w => w.site.part == part && inFrame v.toNat (128 * w.line)
      let out := exec (.managementRegisterWrite (.releaseFrame part) v) s
      (v.toNat ∉ c.frames → out = .next s) ∧
      (v.toNat ∈ c.frames → busy = false → s.frameBusy part v.toNat = false →
        out = .next ((s.cleanFrame part v.toNat).updCtx part fun c => { c with
          frames := c.frames.filter (· != v.toNat), freeFrames := c.freeFrames.filter (· != v.toNat)
          poolFrames := c.poolFrames.filter (· != v.toNat) })) ∧
      (v.toNat ∈ c.frames → busy = false → s.frameBusy part v.toNat = true → out = .next { s with stall := true }) ∧
      (∀ u, v.toNat ∈ c.frames → busy = true → s.askHolders part (65536 * v.toNat) 65536 = some u → out = .next u)) ∧
    -- a window slice that stands in the window apart from the others, what it gives up being cleaned
    (∀ c, s.ctx? part = some c →
      let gone := fun (base size off : Nat) => inSlice c.winBase c.winSize off && !inSlice base size off
      (s.windowOk part v.toNat c.winSize = true → exec (.managementRegisterWrite (.winBase part) v) s =
        .next ((s.cleanWindow (gone v.toNat c.winSize)).updCtx part fun c => { c with winBase := v.toNat })) ∧
      (s.windowOk part v.toNat c.winSize = false → exec (.managementRegisterWrite (.winBase part) v) s = .next s) ∧
      (s.windowOk part c.winBase v.toNat = true → exec (.managementRegisterWrite (.winSize part) v) s =
        .next ((s.cleanWindow (gone c.winBase v.toNat)).updCtx part fun c => { c with winSize := v.toNat })) ∧
      (s.windowOk part c.winBase v.toNat = false → exec (.managementRegisterWrite (.winSize part) v) s = .next s)) ∧
    -- the settings of a launch queue and the shares of links and HBM, each floor as far as the others leave room (R265, R309, R310)
    (∀ q, q < 64 → exec (.managementRegisterWrite (.lq part q) v) s = .next (s.putReg part (snLq + q)
      (bits v.toNat 2 0 + max 1 (bits v.toNat 15 8) * 2 ^ 8 + max (2 ^ 16) (min (2 ^ 30) (bits v.toNat 47 16)) * 2 ^ 16))) ∧
    (∀ n, n < 16 → exec (.managementRegisterWrite (.bwsh part n) v) s = .next (s.putReg part (snBwsh + n)
      (min (bits v.toNat 7 0) (s.leftOver part 240 fun d => bits (d.reg (snBwsh + n)).toNat 7 0) + bits v.toNat 15 8 * 2 ^ 8))) ∧
    exec (.managementRegisterWrite (.oxsh part) v) s = .next (s.putReg part snOxsh (min 64 (bits v.toNat 6 0) +
      min (bits v.toNat 31 8) (s.leftOver part 65536 fun d => bits (d.reg snOxsh).toNat 31 8) * 2 ^ 8)) ∧
    -- FLOOR and CEIL of a slice group: at least one way where the context owns a quadrant (R307)
    ∀ c g, s.ctx? part = some c → g < 64 →
      let owns := (List.range 32).any fun w => c.reg (snQown + w) != 0
      let floor := min (if owns then max 1 (bits v.toNat 12 8) else bits v.toNat 12 8) (s.leftOver part 16 fun d => d.wayFloor g)
      exec (.managementRegisterWrite (.slway part g) v) s = .next ((s.putReg part (snSlway + g)
        (floor * 2 ^ 8 + min 16 (max floor (bits v.toNat 20 16)) * 2 ^ 16)).fillFloor part g))

/-- R24, R26, R350, R351, R355: a firmware image that is signed and not too old waits for the management reset, under which every
partition is pre-empted; a 32-byte nonce is answered with a signed report; the thermal limit lowers a die's token count, and
the critical limit raises the alarm, 100 ms before the power goes and the volatile state with it; and a reset starts the
package again with what the self-test fenced, the memory of CXL devices and of the host and the published versions of the pool kept. -/
def Sys2Proof.Claims.FirmwareAndPowerComplete : Prop :=
  (∀ (s : State), s.dead = false →
    (∀ image, s.firmwareOk image = true → exec (.firmwareLoad image) s =
      .next (s.onPolicy fun p => { p with fwPending := some image, mailbox := mailboxAccepted })) ∧
    (∀ image, s.firmwareOk image = false → exec (.firmwareLoad image) s =
      .next (s.onPolicy fun p => { p with mailbox := mailboxRefused })) ∧
    (∃ t, exec .managementReset s = .next t ∧ (∀ c ∈ t.ctxs, c.preempting = true) ∧
      ∀ i, s.policy.fwPending = some i → t.policy.fwImage = i ∧ t.policy.fwVersion = (Config.firmwareVersion i).toNat ∧
        t.policy.fwPending = none) ∧
    (∀ fn nonce, fn ≤ 16 → nonce.length = 32 → exec (.attestationRequest fn nonce) s =
      .next (s.reply fn (s.reportBody fn nonce ++
        leBytes 4627 (Config.mlDsaSign (Config.sha3 (s.reportBody fn nonce))).toNat))) ∧
    (∀ fn nonce, nonce.length = 32 → (s.reportBody fn nonce).length = 256) ∧
    (∀ die count, die < 8 → exec (.thermalLimit die count) s =
      .next { s with
        thermal := spSet 8 die (max 1 (min 8 count)) s.thermal
        tokens := spSet 1 die (min (s.tokenCount die) (max 1 (min 8 count))) s.tokens }) ∧
    (s.alarm = false → exec .criticalLimit s = .next { s with alarm := true, alarmAt := s.clock }) ∧
    (s.alarm = true → s.alarmAt + 170000000 ≤ s.clock →
      exec .powerDown s = .next { s.afterReset s.fence with dead := true, alarm := true })) ∧
  (∀ (s : State) (failed : FenceMap), ∃ t, exec (.reset failed) s = .next t ∧ t.fence = failed ∧ t.dead = false ∧
    t = { State.reset with
      sched := s.sched, fresh := s.fresh, fence := failed, mem := s.mem.filter fun c => bits c.1 51 50 != 0
      pools := s.pools.map fun p => { p with writer := none }, policy := t.policy } ∧
    t.policy = { Policy.reset with
      fwMin := s.policy.fwMin, fwVersion := s.policy.fwVersion, fwImage := s.policy.fwImage })

/-- R356-R366: a binary that passes every check and fits the context's free frames is loaded whole, with every region's VA in the
reply; one that does not is refused whole, with an empty reply; and an image of which no launch lives is unloaded, its pages
and range registers given back. -/
def Sys2Proof.Claims.BinariesComplete : Prop :=
  (∀ (s : State) (part : Nat) (c : Context) (f : List Byte) (req : LoadReq), s.dead = false → s.ctx? part = some c →
    (∀ b t, s.readBinary c f req = some b → s.placeBinary part f b = some t →
      exec (.binaryLoad part f req) s = .next (t.reply (part + 1) (b.vas.flatMap (leBytes 8)))) ∧
    (∀ b, s.readBinary c f req = some b → s.placeBinary part f b = none →
      exec (.binaryLoad part f req) s = .next (s.reply (part + 1) [])) ∧
    (s.readBinary c f req = none → exec (.binaryLoad part f req) s = .next (s.reply (part + 1) []))) ∧
  (∀ (s : State) (part image : Nat) (c : Context) (m : Image), s.dead = false → s.ctx? part = some c →
    (c.images.find? fun m => m.id == image) = some m → (∀ l ∈ c.launches, l.image = image → l.lives = false) →
    exec (.binaryUnload part image) s = .next ((m.regions.foldl (fun s r => s.dropRegion part r) s).updCtx part fun c =>
      { c with
        images := c.images.filter fun x => x.id != image
        launches := c.launches.filter fun l => l.image != image }))

/-- R24, R26, R350-R366: firmware, attestation, limits, power and reset; and binaries loaded and unloaded. -/
def Sys2Proof.Claims.FirmwarePowerAndBinariesComplete : Prop := Claims.FirmwareAndPowerComplete ∧ Claims.BinariesComplete

/-- R24, R26, R289, R292, R307, R349-R366: contexts, quadrants, registers, firmware, limits, power, reset and binaries.
Model's choices: logs 6, 7, 11, 59, 60, 63, 64, 66, 76 and 88: that a write of SR.PKG is taken as it stands and SR.NPKG is limited to
1 to 786,432 is log 76; that the quantum counts from a context's creation and from a write of it is log 59. -/
def Obligations.ManagementAndBinariesComplete : Prop := Claims.ContextsAndManagementComplete ∧ Claims.FirmwarePowerAndBinariesComplete

namespace Sys2Proof.Claims

/-- Every lane instruction whose only effect is one register result per participant. -/
def laneRows : List LaneRow := intRows ++ moveRows ++ floatRows ++ packedRows ++ convertRows

end Sys2Proof.Claims

/-- R7, R44, R67, R79: a lane instruction with one result leaves each participant's D full with its value, and a uniform instruction its
flock's D, with no poison; neither changes any other register, predicate, fibre, flock or crew, any memory or any other part of the
package, but the place of the batch, which stands past its instruction, the other batches of the flock standing as they were. -/
def Obligations.ResultsAreWrittenAndNothingElse : Prop :=
  (∀ r ∈ Claims.laneRows, ∀ (s : State) (i : Iss) (x : Form), LaneRuns s i x → r.ready x i →
    ∃ t, exec (r.ins x) s = .next t ∧ LaneFrame s t i x (r.wide x) ∧
      ∀ f, Sole i x f →
        (r.wide x = false → t.laneHolds i.ref f.lane x.dn ((r.val x i f).setWidth 32)) ∧
        (r.wide x = true → t.laneHolds i.ref f.lane x.dn ((r.val x i f).setWidth 32) ∧
          t.laneHolds i.ref f.lane (x.dn + 1) ((r.val x i f >>> 32).setWidth 32))) ∧
  (∀ r ∈ Claims.uniRows, ∀ (s : State) (i : Iss) (x : Form), UniRuns s i x r.roles →
    i.free ((x.dn, r.wide x) :: r.regs x) = true →
    ∃ t, exec (r.ins x) s = .next t ∧ UniFrame s t i x (r.wide x) (r.val x i))

namespace Sys2Proof.Claims

/-- R42's table: may a role issue an opcode of a set (true: uniform)? -/
def mayIssue (r : Role) (o : Bool × Nat) : Bool :=
  let within := fun lo hi => o.1 && decide (lo ≤ o.2) && decide (o.2 ≤ hi)
  let every := within 0x60 0x67 || within 0x30 0x30 || o == (false, 0x36)
  let matrixSet := within 0x40 0x48 || within 0x50 0x57
  let plainSet := within 0x00 0x16 || within 0x20 0x2C
  every || match r with
    | .vector => !matrixSet
    | .matrix => matrixSet || plainSet
    | .copy => within 0x32 0x36 || plainSet

/-- Does an encoded instruction's guard let it act in the batch at issue (R54, R58)? -/
def acts (i : Iss) (ins : Instr) (x : Form) : Bool :=
  if ins.opcode.1 then guardUni x i.flock else !(i.takers x).isEmpty

/-- The fibres that a check of the instruction as a whole names. -/
def named (i : Iss) (ins : Instr) (x : Form) : List Fibre := if ins.opcode.1 then i.active else i.takers x

end Sys2Proof.Claims

/-- R42, R54, R58: an instruction of either set, no UFROM of another batch holding its flock's uniform pipe, whose guard is false does nothing but move its batch on, whatever its role; and
one whose guard lets it act in a flock whose role may not issue it traps ROLE_VIOLATION, with none of its effect. Model's choices: for
a lane instruction the trap's lane mask names the participants (log 75). -/
def Obligations.GuardsAndRolesComeFirst : Prop :=
  ∀ (ins : Instr) (x : Form) (s : State) (i : Iss), ins.form? = some x → Issues s i → i.batch.phase = 0 →
    (ins.opcode.1 = true → i.pipeHeld = false) →
    (Claims.acts i ins x = false → exec ins s = .next (s.advance i x.words)) ∧
    (Claims.acts i ins x = true → Claims.mayIssue i.flock.role ins.opcode = false →
      exec ins s = .next (s.raise i.ref.core i.ref.slot (i.trap .roleViolation (maskOf (Claims.named i ins x)) 0)))

/-- R28, R43, R44, R58, R301-R303: a source outside the window traps BUDGET_EXCEEDED for the fibre concerned, a poisoned one
POISON_READ, an empty one in trap mode EMPTY_READ, an empty one in block mode makes the batch wait; and a system
instruction below the level that it or its register needs traps PERM_PRIV. Model's choices: log 8. -/
def Obligations.OperandAndPrivilegeChecks : Prop :=
  (∀ (s : State) (i : Iss) (x : Form) (f : Fibre), LaneRuns s i x → i.takers x = [f] →
    let trap := fun (c : Cause) => s.raise i.ref.core i.ref.slot (i.trap c (maskOf [f]) 0)
    (f.budget ≤ x.an → f.writable x.dn = true → exec (.mov x) s = .next (trap .budgetExceeded)) ∧
    (x.an < f.budget → f.writable x.dn = true →
      ((f.reg x.an).poison = true → exec (.mov x) s = .next (trap .poisonRead)) ∧
      ((f.reg x.an).poison = false → (f.reg x.an).full = false →
        exec (.mov x) s = .next (if x.ea then trap .emptyRead else { s with stall := true })))) ∧
  (∀ (s : State) (i : Iss) (x : Form), UniRuns s i x .any → i.batch.phase = 0 →
    let trap := s.raise i.ref.core i.ref.slot (i.trap .permPriv (maskOf i.active) 0)
    (i.crew.level ≠ .f → exec (.wrpkr x) s = .next trap ∧ exec (.halt x) s = .next trap) ∧
    (i.crew.level = .u → exec (.eret x) s = .next trap) ∧
    (∀ l w, i.free ((x.dn, true) :: if x.bn == 1 then [(x.an, false)] else []) = true →
      sysRights (sysNumber x i (x.bn == 1) x.an) = some (.level l, w) → i.atLeast l = false →
      exec (.rdsys x) s = .next trap) ∧
    (∀ r l, i.free ((x.bn, true) :: if x.dn == 1 then [(x.an, false)] else []) = true →
      sysRights (sysNumber x i (x.dn == 1) x.an) = some (r, .level l) → i.atLeast l = false →
      exec (.wrsys x) s = .next trap))

/-- R316, R318, R330: a trap taken from no open pair of checkpoints rolls its crew back to the latest checkpoint and suspends it with a
record of the trap: no version of the crew and no entry of its open interval is left, no producer is outstanding, and
SR.CKPTN stands as it was. Between the two checkpoints of an irrevocable instruction it is held, the lowest cause first, and
nothing else changes. Model's choices: logs 14, 43 and 68; that the driver gets the record's 64 bytes is log 68. -/
def Obligations.TrapsRollBackAndSuspend : Prop :=
  ∀ (s : State) (core slot : Nat) (k : Crew) (t : Trap), s.crew? core slot = some k → k.ending = false → k.susp = none →
    let u := s.raise core slot t
    (k.between = false → k.heldTrap = none →
      (∃ k' r, u.crew? core slot = some k' ∧ k'.susp = some r ∧ r.trap = t ∧ r.ckptn = k.ckptn ∧ r.held = false ∧
        k'.ckptn = k.ckptn ∧ k'.prods = [] ∧ k'.undo = [] ∧ k'.live.scratch = k.saved.scratch ∧
        k'.live.nbs = k.saved.nbs ∧ k'.live.rings = k.saved.rings ∧ k'.live.arr = k.saved.arr) ∧
      (∀ v ∈ u.vers, ¬(v.core = core ∧ v.slot = slot)) ∧
      (∀ e ∈ u.sb ++ u.rq, ¬(e.core = core ∧ e.slot = slot ∧ e.interval = k.ckptn)) ∧
      -- with no record area the record goes to the driver; nothing else of the package's memory changes
      (k.trapArea = 0 → (∀ e ∈ s.engines, e.ofCrew k = false) → (∀ f ∈ k.saved.flocks, ∀ b ∈ f.batches, b.wait ≠ .tbar) →
        ∃ k' r, u.crew? core slot = some k' ∧ k'.susp = some r ∧
          k'.live.flocks = k.saved.flocks.map (Flock.restored s.clock k) ∧
          u.notices = s.notices ++ [(k.part, k.recordBytes r)] ∧ u.mem = s.mem ∧ u.home = s.home)) ∧
    (k.between = true → u = s.updCrew core slot fun x => { x with
      heldTrap := match x.heldTrap with
        | some v => if t.cause.code < v.cause.code then some t else some v
        | none => some t })

/-- R320: the trap record's fields stand at the bytes that its table gives, each in its own width. -/
def Obligations.TrapRecordLayout : Prop :=
  ∀ (k : Crew) (r : TrapRec),
    let field := fun (at_ n : Nat) => leVal (((k.recordBytes r).drop at_).take n)
    let flag := fun (b : Bool) => if b then 1 else 0
    (k.recordBytes r).length = 64 ∧ field 0 12 = 0 ∧ field 52 12 = 0 ∧
    field 12 2 = k.core % 2 ^ 16 ∧ field 14 1 = k.slot % 2 ^ 8 ∧ field 15 1 = r.trap.cause.code ∧
    field 16 1 = flag r.trap.eng + 2 * flag r.held + 4 * flag r.pre + 8 * flag r.halt ∧
    field 17 1 = r.trap.flock % 2 ^ 8 ∧ field 18 2 = r.trap.code % 2 ^ 16 ∧ field 20 4 = k.launch % 2 ^ 32 ∧
    field 24 4 = k.idx % 2 ^ 32 ∧ field 28 4 = r.ckptn % 2 ^ 32 ∧
    field 32 4 = (if r.trap.eng then 0 else r.trap.lanes.toNat) ∧ field 36 8 = r.trap.pc % 2 ^ 64 ∧
    field 44 8 = r.trap.addr % 2 ^ 64

namespace Sys2Proof.Claims

/-- The participants of a two-source lane instruction with a word result can read A and B and write D. -/
def ready2 (x : Form) (i : Iss) : Prop :=
  ∀ f ∈ i.takers x, (∀ n ∈ if x.hasImm then [x.an] else [x.an, x.bn], f.readable n = true) ∧ f.writable x.dn = true

/-- Such an instruction completes, and the value of D in every participant is in a given relation to those of A and B. -/
def Gives2 (ins : Form → Instr) (imm : Form → Word) (p : Form → Word → Word → Word → Prop) : Prop :=
  ∀ (s : State) (i : Iss) (x : Form), LaneRuns s i x → ready2 x i →
    ∃ t, exec (ins x) s = .next t ∧ OnlyCrews s t ∧
      ∀ f, Sole i x f → ∃ v, t.laneHolds i.ref f.lane x.dn v ∧ p x (ra x f) (rb x (imm x) f) v

/-- Are the bits of a word those of an FP32 NaN? -/
def nan32 (a : Nat) : Bool := a / 2 ^ 23 % 256 == 255 && a % 2 ^ 23 != 0

/-- An FP32 NaN with its quiet bit set. -/
def quieted (a : Nat) : Nat := if a / 2 ^ 22 % 2 = 1 then a else a + 2 ^ 22

end Sys2Proof.Claims

/-- R70: shift counts are natural 32-bit values; SHL and SHR give 0 from 32 on and SAR the sign; ROT rotates by the count modulo
32. -/
def Obligations.ShiftsGiveTheirValues : Prop :=
  Claims.Gives2 .shl immWord (fun _ a b v => v.toNat = a.toNat * 2 ^ b.toNat % 2 ^ 32 ∧ (32 ≤ b.toNat → v = 0)) ∧
  Claims.Gives2 .shr immWord (fun _ a b v => v.toNat = a.toNat / 2 ^ b.toNat ∧ (32 ≤ b.toNat → v = 0)) ∧
  Claims.Gives2 .sar immWord (fun _ a b v => v.toInt = a.toInt / 2 ^ b.toNat ∧
    (32 ≤ b.toNat → v = if a.toNat / 2 ^ 31 % 2 = 1 then 0xFFFFFFFF else 0)) ∧
  Claims.Gives2 .rot immWord (fun _ a b v => ∀ n, n < 32 →
    v.getLsbD ((n + b.toNat % 32) % 32) = a.getLsbD n)

/-- R69: the quotient is truncated towards zero and the remainder takes the sign of a; the cases that have no ordinary quotient
give the results of the table, and no value traps. -/
def Obligations.DivisionAndRemainder : Prop :=
  -- TY 0: I32
  Claims.Gives2 .idiv immWord (fun x a b v => x.ty = 0 →
    (b ≠ 0 → ¬(a = 0x80000000 ∧ b = 0xFFFFFFFF) → v.toInt = a.toInt.tdiv b.toInt) ∧
    (b = 0 → 0 ≤ a.toInt → v = 0x7FFFFFFF) ∧ (b = 0 → a.toInt < 0 → v = 0xFFFFFFFF) ∧
    (a = 0x80000000 → b = 0xFFFFFFFF → v = 0x80000000)) ∧
  Claims.Gives2 .irem immWord (fun x a b v => x.ty = 0 →
    (b ≠ 0 → v.toInt = a.toInt - b.toInt * a.toInt.tdiv b.toInt) ∧ (b = 0 → v = a) ∧
    (a = 0x80000000 → b = 0xFFFFFFFF → v = 0)) ∧
  -- TY 1: N32
  Claims.Gives2 .idiv immWord (fun x a b v => x.ty = 1 →
    (b ≠ 0 → v.toNat = a.toNat / b.toNat) ∧ (b = 0 → v = 0xFFFFFFFF)) ∧
  Claims.Gives2 .irem immWord (fun x a b v => x.ty = 1 → (b ≠ 0 → v.toNat = a.toNat % b.toNat) ∧ (b = 0 → v = a))

/-- R186: an FP32 operation with a NaN operand returns the first of them in the order of its sources, quieted, its sign and its other
payload bits kept. -/
def Obligations.FirstNanIsReturned : Prop :=
  (∀ ins ∈ [Instr.fadd, .fsub, .fmul, .fdiv, .fmin, .fmax],
    Claims.Gives2 ins immFloat (fun x a b v =>
      let a := modA fp32 x a.toNat
      let b := modB fp32 x b.toNat
      (Claims.nan32 a = true → v.toNat = Claims.quieted a % 2 ^ 32) ∧
      (Claims.nan32 a = false → Claims.nan32 b = true → v.toNat = Claims.quieted b % 2 ^ 32))) ∧
  (∀ (s : State) (i : Iss) (x : Form), LaneRuns s i x →
    (∀ f ∈ i.takers x, (∀ n ∈ if x.hasImm then [x.an, x.cn] else [x.an, x.bn, x.cn], f.readable n = true) ∧
      f.writable x.dn = true) →
    ∃ t, exec (.ffma x) s = .next t ∧ ∀ f, Sole i x f →
      let a := modA fp32 x (Claims.ra x f).toNat
      let b := modB fp32 x (Claims.rb x (immFloat x) f).toNat
      let c := modC fp32 x (Claims.rc x f).toNat
      ∃ v, t.laneHolds i.ref f.lane x.dn v ∧
        (Claims.nan32 a = true → v.toNat = Claims.quieted a % 2 ^ 32) ∧
        (Claims.nan32 a = false → Claims.nan32 b = true → v.toNat = Claims.quieted b % 2 ^ 32) ∧
        (Claims.nan32 a = false → Claims.nan32 b = false → Claims.nan32 c = true → v.toNat = Claims.quieted c % 2 ^ 32))

namespace Sys2Proof.Claims

/-- A leading word's fields with no guard and no continuation. -/
def lead (d a b : Nat) : Form :=
  { gn := false, gp := 0, d := BitVec.ofNat 6 d, a := BitVec.ofNat 6 a, b := BitVec.ofNat 6 b, ext := none, imm := none
    mem := none, mod := none }

end Sys2Proof.Claims

/-- R46-R53: words written out from the encodings decode to the instructions they stand for, and a word whose OP is not
assigned, a continuation at the PC, and a continuation out of order do not decode. -/
def Obligations.WordsOfTheSpecDecode : Prop :=
  -- 0 0 0 | 0000000 | 0 | 000 | 000001 | 000010 | 000011: IADD v1, v2, v3
  decode (leBytes 4 0b00000000000000000001000010000011) = .ok (.iadd (Claims.lead 1 2 3), []) ∧
  -- 1 0 0 | 0101011 | 0 | 000 | 0 | 0 | 0: NOP
  decode (leBytes 4 0b10001010110000000000000000000000) = .ok (.nop (Claims.lead 0 0 0), []) ∧
  -- 1 0 0 | 0001100 | 1 | 101 | 000001 | 000010 | 000000: @!q5 UMOV k1, k2
  decode (leBytes 4 0b10000011001101000001000010000000) =
    .ok (.umov { Claims.lead 1 2 0 with gn := true, gp := 5 }, []) ∧
  -- 0 0 1 | 0100001 (MOVI) with D = 7, then IMM of -2: 0 1 0 | 01 | payload
  decode (leBytes 4 0b00101000010000000111000000000000 ++ leBytes 4 0b01001111111111111111111111111110) =
    .ok (.movi { Claims.lead 7 0 0 with imm := some (-2) }, []) ∧
  -- an OP that no set assigns, C = 1 in the leading word, MOD before EXT
  decode (leBytes 4 0b00010111110000000000000000000000) = .error .opcode ∧
  decode (leBytes 4 0b01000000000000000000000000000000) = .error .continuationAtPc ∧
  decode (leBytes 4 0b00100000000000000000000000000000 ++ leBytes 4 0b01111000000000000000000000000000 ++
    leBytes 4 0b01000000000000000000000000000000) = .error .framing

/-- R46-R57: every well-formed instruction, with every operand at every value its encoding admits, is what its encoding decodes
to, whatever bytes follow. -/
def Obligations.EveryEncodingReadsBack : Prop :=
  ∀ (i : Instr) (rest : List Byte), i.wf = true → decode (encode i ++ rest) = .ok (i, rest)

/-- R3, R46-R57: the decoder accepts nothing but encodings of well-formed instructions: bytes that decode are the instruction's
encoding followed by the rest, so that no bit of an accepted word goes unread and no instruction has two encodings. -/
def Obligations.OnlyEncodingsDecode : Prop :=
  ∀ (bs rest : List Byte) (i : Instr), decode bs = .ok (i, rest) → i.wf = true ∧ bs = encode i ++ rest

/-- What an issue does with an instruction once it is fetched, at `s1`, and has room for its `n` undo-log entries, at `s2`: its meaning,
its entries charged, the instruction kept where the batch is still inside it; before all of that the trap of a poisoned source of the
banks without an empty bit (R44); and, in its place, the expansion of a compressed page that it touches (R338). -/
def Sys2Proof.Claims.tried (s0 s1 s2 : State) (i : Iss) (ins : Instr) (n : Nat) : Host.Outcome State Fault Refusal :=
  let o := onNext (exec ins s2) fun t => if t.stall || t.cur.isNone then t else (t.chargeUndo i n).keepInstr i ins
  onNext (if (i.spoilt ins).isEmpty then o else s1.poisonFirst i (i.spoilt ins) o) s0.expandFirst

/-- R60, R61, R270, R313, R329, R330, R338: when the schedule issues a batch that its quadrant's selector takes, and the words at its PC,
fetched as a unit, decode to an instruction of an accepted feature, the step is that instruction's meaning at the state after the fetch
and the checkpoints that make room for its undo-log entries; the step then charges those entries, keeps the instruction where the
batch is still inside it, moves the selector on and writes a single step's record. So is the single step of a halted crew, of the batch
that the selection finds among its own. A batch inside an instruction goes on with the instruction it holds. Of two batches of a crew
that trap in one cycle one yields. An event that the schedule names is its meaning; one that ends a wait in a cycle ends that cycle; and
each cycle that the schedule lets pass waits for the batches that it owes an issue (R271). Model's choices: logs 2, 55 and 67. -/
def Obligations.AStepRunsTheDecodedInstruction : Prop :=
  (∀ (s s1 s2 : State) (b : BatchRef) (rest : List Choice) (i : Iss) (ins : Instr) (ws : List Nat) (bs : List Byte),
    s.dead = false → s.sched = { dt := 0, pick := .issue b } :: rest →
    let s0 := { s with fresh := s.fresh + 1, stall := false, sched := rest }
    s0.find b = some i → i.batch.mid = false →
    { s0 with cur := some b }.fetchWords i 3 i.batch.pc = .ok (s1, ws) →
    decode (ws.flatMap (leBytes 4)) = .ok (ins, bs) → s0.feature i.crew.part (featureOf ins) = true →
    let n := s1.undoNeed i ins
    s1.reserveUndo i n = .ok s2 →
    let ready := s0.readyFor i.gq (s0.setOf b)
    let after := fun (x : Selector) (t : State) =>
      if t.stall || t.cur.isNone then t else ((t.setSelector x).openStep i).closeStep b.core b.slot
    (i.crew.halted = false → s0.select i.gq (s0.setOf b) ready = some b →
      step s = if s0.yields b then .next { s0 with stall := true } else onNext (Claims.tried s0 s1 s2 i ins n)
        (after ((s0.selector i.gq (s0.setOf b)).after b (ready.filter (· != b)) s0.clock))) ∧
    (i.crew.halted = true → s0.stepBatch i.crew = some b → (s0.selector i.gq (s0.setOf b)).spent s0.clock = false →
      step s = onNext (Claims.tried s0 s1 s2 i ins n)
        (after { s0.selector i.gq (s0.setOf b) with at_ := some s0.clock }))) ∧
  (∀ (s : State) (b : BatchRef) (rest : List Choice) (i : Iss) (ins : Instr),
    s.dead = false → s.sched = { dt := 0, pick := .issue b } :: rest →
    let s0 := { s with fresh := s.fresh + 1, stall := false, sched := rest }
    s0.find b = some i → i.batch.mid = true → i.batch.held = some ins → b ∈ s0.midBatches →
    step s = if s0.yields b then .next { s0 with stall := true } else
      onNext (onNext (onNext (exec ins { s0 with cur := some b }) fun t =>
        if t.stall || t.cur.isNone then t else t.keepInstr i ins) s0.expandFirst) fun t =>
          if t.stall then t else t.closeStep b.core b.slot) ∧
  (∀ (s : State) (ev : Instr) (rest : List Choice), s.dead = false → ev.form? = none →
    s.sched = { dt := 0, pick := .event ev } :: rest →
    let s0 := { s with fresh := s.fresh + 1, stall := false, sched := rest }
    (endsCycle ev = true → s0.goOn = none) →
    step s = onNext (onNext (exec ev s0) s0.expandFirst) fun t => if endsCycle ev && !t.stall then t.tick else t) ∧
  (∀ (s : State) (pick : Pick) (dt : Nat) (rest : List Choice), s.dead = false →
    s.sched = { dt := dt + 1, pick := pick } :: rest →
    let s0 := { s with fresh := s.fresh + 1, stall := false, sched := rest }
    (∀ t, s0.goOn = some t → step s = .next { t with sched := { dt := dt + 1, pick := pick } :: t.sched }) ∧
    (s0.goOn = none → step s = .next { s0.tick with sched := { dt := dt, pick := pick } :: s0.tick.sched }))

/-- R22, R91, R125, R265, R289, R293, R300, R344: the values that the spec gives for reset and for the creation of a context; and at
reset every memory that the package holds has its canonical form. Model's choices: log 1. -/
def Obligations.ResetAndCreationValues : Prop :=
  State.reset.clock = 0 ∧ (∀ core g, State.reset.wayMask core g = 0xFF00) ∧ (∀ fn,
    let h := State.reset.fn fn
    h.accept = 0 ∧ h.lock = false ∧ h.ovr = false ∧ h.ltail = 0 ∧ h.lhead = 0 ∧ h.flBase = 0 ∧ h.flLen = 0 ∧
    h.busy = false ∧ (∀ n, spGet 0 h.lrec n = 0) ∧ ∀ n, spGet 0 h.lstat n = 0) ∧
  State.reset.ctxs = [] ∧ State.reset.crews = [] ∧ State.reset.home = [] ∧ State.reset.vers = [] ∧
  State.reset.l1 = [] ∧ State.reset.sb = [] ∧ State.reset.rq = [] ∧ State.reset.engines = [] ∧
  State.reset.memoryOk = true ∧
  ∀ part,
    (∀ q, q < 64 → (Context.reset part).reg (snLq + q) = 0x0000000100000100) ∧
    (∀ n, n < 64 → (Context.reset part).reg (snRange + n) = 0) ∧
    (∀ n, n < 32 → (Context.reset part).reg (snPkr + n) = 0) ∧
    (Context.reset part).pins = [] ∧ (Context.reset part).launches = [] ∧ (Context.reset part).images = []

/-- R91: every step keeps the canonical form of memory: where every memory of the package has its addresses strictly rising and lists
no byte that equals what an unlisted address reads as, it has so after the step. Model's choices: log 1. -/
def Obligations.MemoryKeepsItsForm : Prop :=
  ∀ s t : State, s.memoryOk = true → step s = .next t → t.memoryOk = true
end

