-- ==== Sys2Proof/Laws/Exec.lean ====
section
/-! SUPPORT. The meaning that each constructor runs, one equation each. -/

namespace Sys2Proof.Machine

@[simp] theorem exec_iadd (x : Form) (s : State) : exec (.iadd x) s = execIadd x s := rfl
@[simp] theorem exec_isub (x : Form) (s : State) : exec (.isub x) s = execIsub x s := rfl
@[simp] theorem exec_imul (x : Form) (s : State) : exec (.imul x) s = execImul x s := rfl
@[simp] theorem exec_imulh (x : Form) (s : State) : exec (.imulh x) s = execImulh x s := rfl
@[simp] theorem exec_imad (x : Form) (s : State) : exec (.imad x) s = execImad x s := rfl
@[simp] theorem exec_iadd64 (x : Form) (s : State) : exec (.iadd64 x) s = execIadd64 x s := rfl
@[simp] theorem exec_imin (x : Form) (s : State) : exec (.imin x) s = execImin x s := rfl
@[simp] theorem exec_imax (x : Form) (s : State) : exec (.imax x) s = execImax x s := rfl
@[simp] theorem exec_iabs (x : Form) (s : State) : exec (.iabs x) s = execIabs x s := rfl
@[simp] theorem exec_idiv (x : Form) (s : State) : exec (.idiv x) s = execIdiv x s := rfl
@[simp] theorem exec_irem (x : Form) (s : State) : exec (.irem x) s = execIrem x s := rfl
@[simp] theorem exec_and (x : Form) (s : State) : exec (.and x) s = execAnd x s := rfl
@[simp] theorem exec_or (x : Form) (s : State) : exec (.or x) s = execOr x s := rfl
@[simp] theorem exec_xor (x : Form) (s : State) : exec (.xor x) s = execXor x s := rfl
@[simp] theorem exec_andn (x : Form) (s : State) : exec (.andn x) s = execAndn x s := rfl
@[simp] theorem exec_blut (x : Form) (s : State) : exec (.blut x) s = execBlut x s := rfl
@[simp] theorem exec_shl (x : Form) (s : State) : exec (.shl x) s = execShl x s := rfl
@[simp] theorem exec_shr (x : Form) (s : State) : exec (.shr x) s = execShr x s := rfl
@[simp] theorem exec_sar (x : Form) (s : State) : exec (.sar x) s = execSar x s := rfl
@[simp] theorem exec_rot (x : Form) (s : State) : exec (.rot x) s = execRot x s := rfl
@[simp] theorem exec_bfx (x : Form) (s : State) : exec (.bfx x) s = execBfx x s := rfl
@[simp] theorem exec_bfi (x : Form) (s : State) : exec (.bfi x) s = execBfi x s := rfl
@[simp] theorem exec_popc (x : Form) (s : State) : exec (.popc x) s = execPopc x s := rfl
@[simp] theorem exec_clz (x : Form) (s : State) : exec (.clz x) s = execClz x s := rfl
@[simp] theorem exec_brev (x : Form) (s : State) : exec (.brev x) s = execBrev x s := rfl
@[simp] theorem exec_lea (x : Form) (s : State) : exec (.lea x) s = execLea x s := rfl
@[simp] theorem exec_bpick (x : Form) (s : State) : exec (.bpick x) s = execBpick x s := rfl
@[simp] theorem exec_idp4 (x : Form) (s : State) : exec (.idp4 x) s = execIdp4 x s := rfl
@[simp] theorem exec_mov (x : Form) (s : State) : exec (.mov x) s = execMov x s := rfl
@[simp] theorem exec_movi (x : Form) (s : State) : exec (.movi x) s = execMovi x s := rfl
@[simp] theorem exec_movhi (x : Form) (s : State) : exec (.movhi x) s = execMovhi x s := rfl
@[simp] theorem exec_sel (x : Form) (s : State) : exec (.sel x) s = execSel x s := rfl
@[simp] theorem exec_lanex (x : Form) (s : State) : exec (.lanex x) s = execLanex x s := rfl
@[simp] theorem exec_pcol (x : Form) (s : State) : exec (.pcol x) s = execPcol x s := rfl
@[simp] theorem exec_sr (x : Form) (s : State) : exec (.sr x) s = execSr x s := rfl
@[simp] theorem exec_ptov (x : Form) (s : State) : exec (.ptov x) s = execPtov x s := rfl
@[simp] theorem exec_vtop (x : Form) (s : State) : exec (.vtop x) s = execVtop x s := rfl
@[simp] theorem exec_urd (x : Form) (s : State) : exec (.urd x) s = execUrd x s := rfl
@[simp] theorem exec_bra (x : Form) (s : State) : exec (.bra x) s = execBra x s := rfl
@[simp] theorem exec_brx (x : Form) (s : State) : exec (.brx x) s = execBrx x s := rfl
@[simp] theorem exec_call (x : Form) (s : State) : exec (.call x) s = execCall x s := rfl
@[simp] theorem exec_calli (x : Form) (s : State) : exec (.calli x) s = execCalli x s := rfl
@[simp] theorem exec_ret (x : Form) (s : State) : exec (.ret x) s = execRet x s := rfl
@[simp] theorem exec_fspawn (x : Form) (s : State) : exec (.fspawn x) s = execFspawn x s := rfl
@[simp] theorem exec_fend (x : Form) (s : State) : exec (.fend x) s = execFend x s := rfl
@[simp] theorem exec_rcv (x : Form) (s : State) : exec (.rcv x) s = execRcv x s := rfl
@[simp] theorem exec_icmp (x : Form) (s : State) : exec (.icmp x) s = execIcmp x s := rfl
@[simp] theorem exec_plut (x : Form) (s : State) : exec (.plut x) s = execPlut x s := rfl
@[simp] theorem exec_fcmp (x : Form) (s : State) : exec (.fcmp x) s = execFcmp x s := rfl
@[simp] theorem exec_hcmp (x : Form) (s : State) : exec (.hcmp x) s = execHcmp x s := rfl
@[simp] theorem exec_bcmp (x : Form) (s : State) : exec (.bcmp x) s = execBcmp x s := rfl
@[simp] theorem exec_fclass (x : Form) (s : State) : exec (.fclass x) s = execFclass x s := rfl
@[simp] theorem exec_fadd (x : Form) (s : State) : exec (.fadd x) s = execFadd x s := rfl
@[simp] theorem exec_fsub (x : Form) (s : State) : exec (.fsub x) s = execFsub x s := rfl
@[simp] theorem exec_fmul (x : Form) (s : State) : exec (.fmul x) s = execFmul x s := rfl
@[simp] theorem exec_ffma (x : Form) (s : State) : exec (.ffma x) s = execFfma x s := rfl
@[simp] theorem exec_fmin (x : Form) (s : State) : exec (.fmin x) s = execFmin x s := rfl
@[simp] theorem exec_fmax (x : Form) (s : State) : exec (.fmax x) s = execFmax x s := rfl
@[simp] theorem exec_fdiv (x : Form) (s : State) : exec (.fdiv x) s = execFdiv x s := rfl
@[simp] theorem exec_fsqrt (x : Form) (s : State) : exec (.fsqrt x) s = execFsqrt x s := rfl
@[simp] theorem exec_frcp (x : Form) (s : State) : exec (.frcp x) s = execFrcp x s := rfl
@[simp] theorem exec_frsq (x : Form) (s : State) : exec (.frsq x) s = execFrsq x s := rfl
@[simp] theorem exec_fex2 (x : Form) (s : State) : exec (.fex2 x) s = execFex2 x s := rfl
@[simp] theorem exec_flg2 (x : Form) (s : State) : exec (.flg2 x) s = execFlg2 x s := rfl
@[simp] theorem exec_fsin (x : Form) (s : State) : exec (.fsin x) s = execFsin x s := rfl
@[simp] theorem exec_fcos (x : Form) (s : State) : exec (.fcos x) s = execFcos x s := rfl
@[simp] theorem exec_frnd (x : Form) (s : State) : exec (.frnd x) s = execFrnd x s := rfl
@[simp] theorem exec_fscale (x : Form) (s : State) : exec (.fscale x) s = execFscale x s := rfl
@[simp] theorem exec_fcpys (x : Form) (s : State) : exec (.fcpys x) s = execFcpys x s := rfl
@[simp] theorem exec_hadd2 (x : Form) (s : State) : exec (.hadd2 x) s = execHadd2 x s := rfl
@[simp] theorem exec_hmul2 (x : Form) (s : State) : exec (.hmul2 x) s = execHmul2 x s := rfl
@[simp] theorem exec_hfma2 (x : Form) (s : State) : exec (.hfma2 x) s = execHfma2 x s := rfl
@[simp] theorem exec_hmin2 (x : Form) (s : State) : exec (.hmin2 x) s = execHmin2 x s := rfl
@[simp] theorem exec_hmax2 (x : Form) (s : State) : exec (.hmax2 x) s = execHmax2 x s := rfl
@[simp] theorem exec_badd2 (x : Form) (s : State) : exec (.badd2 x) s = execBadd2 x s := rfl
@[simp] theorem exec_bmul2 (x : Form) (s : State) : exec (.bmul2 x) s = execBmul2 x s := rfl
@[simp] theorem exec_bfma2 (x : Form) (s : State) : exec (.bfma2 x) s = execBfma2 x s := rfl
@[simp] theorem exec_cvt (x : Form) (s : State) : exec (.cvt x) s = execCvt x s := rfl
@[simp] theorem exec_cvtp (x : Form) (s : State) : exec (.cvtp x) s = execCvtp x s := rfl
@[simp] theorem exec_cvtq (x : Form) (s : State) : exec (.cvtq x) s = execCvtq x s := rfl
@[simp] theorem exec_cvtx (x : Form) (s : State) : exec (.cvtx x) s = execCvtx x s := rfl
@[simp] theorem exec_ld (x : Form) (s : State) : exec (.ld x) s = execLd x s := rfl
@[simp] theorem exec_st (x : Form) (s : State) : exec (.st x) s = execSt x s := rfl
@[simp] theorem exec_lds (x : Form) (s : State) : exec (.lds x) s = execLds x s := rfl
@[simp] theorem exec_sts (x : Form) (s : State) : exec (.sts x) s = execSts x s := rfl
@[simp] theorem exec_atom (x : Form) (s : State) : exec (.atom x) s = execAtom x s := rfl
@[simp] theorem exec_red (x : Form) (s : State) : exec (.red x) s = execRed x s := rfl
@[simp] theorem exec_cas (x : Form) (s : State) : exec (.cas x) s = execCas x s := rfl
@[simp] theorem exec_qenq (x : Form) (s : State) : exec (.qenq x) s = execQenq x s := rfl
@[simp] theorem exec_qdeq (x : Form) (s : State) : exec (.qdeq x) s = execQdeq x s := rfl
@[simp] theorem exec_sliceof (x : Form) (s : State) : exec (.sliceof x) s = execSliceof x s := rfl
@[simp] theorem exec_homeof (x : Form) (s : State) : exec (.homeof x) s = execHomeof x s := rfl
@[simp] theorem exec_pref (x : Form) (s : State) : exec (.pref x) s = execPref x s := rfl
@[simp] theorem exec_hld (x : Form) (s : State) : exec (.hld x) s = execHld x s := rfl
@[simp] theorem exec_hst (x : Form) (s : State) : exec (.hst x) s = execHst x s := rfl
@[simp] theorem exec_hrefPin (x : Form) (s : State) : exec (.hrefPin x) s = execHrefPin x s := rfl
@[simp] theorem exec_hrefUnpin (x : Form) (s : State) : exec (.hrefUnpin x) s = execHrefUnpin x s := rfl
@[simp] theorem exec_hrefCmp (x : Form) (s : State) : exec (.hrefCmp x) s = execHrefCmp x s := rfl
@[simp] theorem exec_hrefIsnull (x : Form) (s : State) : exec (.hrefIsnull x) s = execHrefIsnull x s := rfl
@[simp] theorem exec_hrefMov (x : Form) (s : State) : exec (.hrefMov x) s = execHrefMov x s := rfl
@[simp] theorem exec_hrefFrom (x : Form) (s : State) : exec (.hrefFrom x) s = execHrefFrom x s := rfl
@[simp] theorem exec_hrefTo (x : Form) (s : State) : exec (.hrefTo x) s = execHrefTo x s := rfl
@[simp] theorem exec_hnew (x : Form) (s : State) : exec (.hnew x) s = execHnew x s := rfl
@[simp] theorem exec_uadd (x : Form) (s : State) : exec (.uadd x) s = execUadd x s := rfl
@[simp] theorem exec_usub (x : Form) (s : State) : exec (.usub x) s = execUsub x s := rfl
@[simp] theorem exec_umul (x : Form) (s : State) : exec (.umul x) s = execUmul x s := rfl
@[simp] theorem exec_umad (x : Form) (s : State) : exec (.umad x) s = execUmad x s := rfl
@[simp] theorem exec_umin (x : Form) (s : State) : exec (.umin x) s = execUmin x s := rfl
@[simp] theorem exec_umax (x : Form) (s : State) : exec (.umax x) s = execUmax x s := rfl
@[simp] theorem exec_uand (x : Form) (s : State) : exec (.uand x) s = execUand x s := rfl
@[simp] theorem exec_uor (x : Form) (s : State) : exec (.uor x) s = execUor x s := rfl
@[simp] theorem exec_uxor (x : Form) (s : State) : exec (.uxor x) s = execUxor x s := rfl
@[simp] theorem exec_ushl (x : Form) (s : State) : exec (.ushl x) s = execUshl x s := rfl
@[simp] theorem exec_ushr (x : Form) (s : State) : exec (.ushr x) s = execUshr x s := rfl
@[simp] theorem exec_usar (x : Form) (s : State) : exec (.usar x) s = execUsar x s := rfl
@[simp] theorem exec_umov (x : Form) (s : State) : exec (.umov x) s = execUmov x s := rfl
@[simp] theorem exec_umovi (x : Form) (s : State) : exec (.umovi x) s = execUmovi x s := rfl
@[simp] theorem exec_umovhi (x : Form) (s : State) : exec (.umovhi x) s = execUmovhi x s := rfl
@[simp] theorem exec_usel (x : Form) (s : State) : exec (.usel x) s = execUsel x s := rfl
@[simp] theorem exec_ulea (x : Form) (s : State) : exec (.ulea x) s = execUlea x s := rfl
@[simp] theorem exec_ucmp (x : Form) (s : State) : exec (.ucmp x) s = execUcmp x s := rfl
@[simp] theorem exec_uplut (x : Form) (s : State) : exec (.uplut x) s = execUplut x s := rfl
@[simp] theorem exec_usr (x : Form) (s : State) : exec (.usr x) s = execUsr x s := rfl
@[simp] theorem exec_ufrom (x : Form) (s : State) : exec (.ufrom x) s = execUfrom x s := rfl
@[simp] theorem exec_uld (x : Form) (s : State) : exec (.uld x) s = execUld x s := rfl
@[simp] theorem exec_ust (x : Form) (s : State) : exec (.ust x) s = execUst x s := rfl
@[simp] theorem exec_ufadd (x : Form) (s : State) : exec (.ufadd x) s = execUfadd x s := rfl
@[simp] theorem exec_ufmul (x : Form) (s : State) : exec (.ufmul x) s = execUfmul x s := rfl
@[simp] theorem exec_uffma (x : Form) (s : State) : exec (.uffma x) s = execUffma x s := rfl
@[simp] theorem exec_ucvt (x : Form) (s : State) : exec (.ucvt x) s = execUcvt x s := rfl
@[simp] theorem exec_ubra (x : Form) (s : State) : exec (.ubra x) s = execUbra x s := rfl
@[simp] theorem exec_elect (x : Form) (s : State) : exec (.elect x) s = execElect x s := rfl
@[simp] theorem exec_sleep (x : Form) (s : State) : exec (.sleep x) s = execSleep x s := rfl
@[simp] theorem exec_wake (x : Form) (s : State) : exec (.wake x) s = execWake x s := rfl
@[simp] theorem exec_bar (x : Form) (s : State) : exec (.bar x) s = execBar x s := rfl
@[simp] theorem exec_tbar (x : Form) (s : State) : exec (.tbar x) s = execTbar x s := rfl
@[simp] theorem exec_rngwaitF (x : Form) (s : State) : exec (.rngwaitF x) s = execRngwaitF x s := rfl
@[simp] theorem exec_rngwaitE (x : Form) (s : State) : exec (.rngwaitE x) s = execRngwaitE x s := rfl
@[simp] theorem exec_rngsigF (x : Form) (s : State) : exec (.rngsigF x) s = execRngsigF x s := rfl
@[simp] theorem exec_rngsigE (x : Form) (s : State) : exec (.rngsigE x) s = execRngsigE x s := rfl
@[simp] theorem exec_yield (x : Form) (s : State) : exec (.yield x) s = execYield x s := rfl
@[simp] theorem exec_launch (x : Form) (s : State) : exec (.launch x) s = execLaunch x s := rfl
@[simp] theorem exec_done (x : Form) (s : State) : exec (.done x) s = execDone x s := rfl
@[simp] theorem exec_nop (x : Form) (s : State) : exec (.nop x) s = execNop x s := rfl
@[simp] theorem exec_bincfg (x : Form) (s : State) : exec (.bincfg x) s = execBincfg x s := rfl
@[simp] theorem exec_fence (x : Form) (s : State) : exec (.fence x) s = execFence x s := rfl
@[simp] theorem exec_cmaintClean (x : Form) (s : State) : exec (.cmaintClean x) s = execCmaintClean x s := rfl
@[simp] theorem exec_cmaintInvalidate (x : Form) (s : State) : exec (.cmaintInvalidate x) s = execCmaintInvalidate x s := rfl
@[simp] theorem exec_cmaintCleanInvalidate (x : Form) (s : State) : exec (.cmaintCleanInvalidate x) s = execCmaintCleanInvalidate x s := rfl
@[simp] theorem exec_cmaintDemote (x : Form) (s : State) : exec (.cmaintDemote x) s = execCmaintDemote x s := rfl
@[simp] theorem exec_cpy (x : Form) (s : State) : exec (.cpy x) s = execCpy x s := rfl
@[simp] theorem exec_cpydrain (x : Form) (s : State) : exec (.cpydrain x) s = execCpydrain x s := rfl
@[simp] theorem exec_nbinit (x : Form) (s : State) : exec (.nbinit x) s = execNbinit x s := rfl
@[simp] theorem exec_nbarr (x : Form) (s : State) : exec (.nbarr x) s = execNbarr x s := rfl
@[simp] theorem exec_nbwait (x : Form) (s : State) : exec (.nbwait x) s = execNbwait x s := rfl
@[simp] theorem exec_qwait (x : Form) (s : State) : exec (.qwait x) s = execQwait x s := rfl
@[simp] theorem exec_coll (x : Form) (s : State) : exec (.coll x) s = execColl x s := rfl
@[simp] theorem exec_setways (x : Form) (s : State) : exec (.setways x) s = execSetways x s := rfl
@[simp] theorem exec_psnapOpen (x : Form) (s : State) : exec (.psnapOpen x) s = execPsnapOpen x s := rfl
@[simp] theorem exec_psnapClose (x : Form) (s : State) : exec (.psnapClose x) s = execPsnapClose x s := rfl
@[simp] theorem exec_psnapBegin (x : Form) (s : State) : exec (.psnapBegin x) s = execPsnapBegin x s := rfl
@[simp] theorem exec_psnapPublish (x : Form) (s : State) : exec (.psnapPublish x) s = execPsnapPublish x s := rfl
@[simp] theorem exec_phintHot (x : Form) (s : State) : exec (.phintHot x) s = execPhintHot x s := rfl
@[simp] theorem exec_phintCold (x : Form) (s : State) : exec (.phintCold x) s = execPhintCold x s := rfl
@[simp] theorem exec_hreloc (x : Form) (s : State) : exec (.hreloc x) s = execHreloc x s := rfl
@[simp] theorem exec_bld (x : Form) (s : State) : exec (.bld x) s = execBld x s := rfl
@[simp] theorem exec_sld (x : Form) (s : State) : exec (.sld x) s = execSld x s := rfl
@[simp] theorem exec_mma (x : Form) (s : State) : exec (.mma x) s = execMma x s := rfl
@[simp] theorem exec_mmai (x : Form) (s : State) : exec (.mmai x) s = execMmai x s := rfl
@[simp] theorem exec_zzero (x : Form) (s : State) : exec (.zzero x) s = execZzero x s := rfl
@[simp] theorem exec_zld (x : Form) (s : State) : exec (.zld x) s = execZld x s := rfl
@[simp] theorem exec_zst (x : Form) (s : State) : exec (.zst x) s = execZst x s := rfl
@[simp] theorem exec_zrd (x : Form) (s : State) : exec (.zrd x) s = execZrd x s := rfl
@[simp] theorem exec_zwr (x : Form) (s : State) : exec (.zwr x) s = execZwr x s := rfl
@[simp] theorem exec_zpin (x : Form) (s : State) : exec (.zpin x) s = execZpin x s := rfl
@[simp] theorem exec_zatt (x : Form) (s : State) : exec (.zatt x) s = execZatt x s := rfl
@[simp] theorem exec_zdet (x : Form) (s : State) : exec (.zdet x) s = execZdet x s := rfl
@[simp] theorem exec_zrel (x : Form) (s : State) : exec (.zrel x) s = execZrel x s := rfl
@[simp] theorem exec_gdr (x : Form) (s : State) : exec (.gdr x) s = execGdr x s := rfl
@[simp] theorem exec_gdrCq (x : Form) (s : State) : exec (.gdrCq x) s = execGdrCq x s := rfl
@[simp] theorem exec_gqr (x : Form) (s : State) : exec (.gqr x) s = execGqr x s := rfl
@[simp] theorem exec_gqrCq (x : Form) (s : State) : exec (.gqrCq x) s = execGqrCq x s := rfl
@[simp] theorem exec_zspill (x : Form) (s : State) : exec (.zspill x) s = execZspill x s := rfl
@[simp] theorem exec_zinfoT (x : Form) (s : State) : exec (.zinfoT x) s = execZinfoT x s := rfl
@[simp] theorem exec_zinfoH (x : Form) (s : State) : exec (.zinfoH x) s = execZinfoH x s := rfl
@[simp] theorem exec_trap (x : Form) (s : State) : exec (.trap x) s = execTrap x s := rfl
@[simp] theorem exec_bpt (x : Form) (s : State) : exec (.bpt x) s = execBpt x s := rfl
@[simp] theorem exec_ckpt (x : Form) (s : State) : exec (.ckpt x) s = execCkpt x s := rfl
@[simp] theorem exec_eret (x : Form) (s : State) : exec (.eret x) s = execEret x s := rfl
@[simp] theorem exec_rdsys (x : Form) (s : State) : exec (.rdsys x) s = execRdsys x s := rfl
@[simp] theorem exec_wrsys (x : Form) (s : State) : exec (.wrsys x) s = execWrsys x s := rfl
@[simp] theorem exec_wrpkr (x : Form) (s : State) : exec (.wrpkr x) s = execWrpkr x s := rfl
@[simp] theorem exec_halt (x : Form) (s : State) : exec (.halt x) s = execHalt x s := rfl
@[simp] theorem exec_pass (core fib : Nat) (s : State) : exec (.pass core fib) s = execPass core fib s := rfl
@[simp] theorem exec_drain (core idx : Nat) (s : State) : exec (.drain core idx) s = execDrain core idx s := rfl
@[simp] theorem exec_fill (core slot line : Nat) (s : State) : exec (.fill core slot line) s = execFill core slot line s := rfl
@[simp] theorem exec_evict (core line : Nat) (s : State) : exec (.evict core line) s = execEvict core line s := rfl
@[simp] theorem exec_writeBack (line : Nat) (s : State) : exec (.writeBack line) s = execWriteBack line s := rfl
@[simp] theorem exec_lineWrite (eng : Nat) (s : State) : exec (.lineWrite eng) s = execLineWrite eng s := rfl
@[simp] theorem exec_engineCompletion (eng : Nat) (s : State) : exec (.engineCompletion eng) s = execEngineCompletion eng s := rfl
@[simp] theorem exec_absorbOrAppend (idx : Nat) (s : State) : exec (.absorbOrAppend idx) s = execAbsorbOrAppend idx s := rfl
@[simp] theorem exec_transmit (port : Port) (s : State) : exec (.transmit port) s = execTransmit port s := rfl
@[simp] theorem exec_reply (idx : Nat) (s : State) : exec (.reply idx) s = execReply idx s := rfl
@[simp] theorem exec_claim (eng : Nat) (s : State) : exec (.claim eng) s = execClaim eng s := rfl
@[simp] theorem exec_hold (eng : Nat) (s : State) : exec (.hold eng) s = execHold eng s := rfl
@[simp] theorem exec_copyLine (eng : Nat) (s : State) : exec (.copyLine eng) s = execCopyLine eng s := rfl
@[simp] theorem exec_registerProducerCompletion (core slot idx : Nat) (s : State) : exec (.registerProducerCompletion core slot idx) s = execRegisterProducerCompletion core slot idx s := rfl
@[simp] theorem exec_atomicReply (b : BatchRef) (s : State) : exec (.atomicReply b) s = execAtomicReply b s := rfl
@[simp] theorem exec_checkpoint (core slot : Nat) (s : State) : exec (.checkpoint core slot) s = execCheckpoint core slot s := rfl
@[simp] theorem exec_trapDelivery (core slot : Nat) (s : State) : exec (.trapDelivery core slot) s = execTrapDelivery core slot s := rfl
@[simp] theorem exec_trapRecordEnqueueRetry (core slot : Nat) (s : State) : exec (.trapRecordEnqueueRetry core slot) s = execTrapRecordEnqueueRetry core slot s := rfl
@[simp] theorem exec_intervalTimerExpiry (core slot : Nat) (s : State) : exec (.intervalTimerExpiry core slot) s = execIntervalTimerExpiry core slot s := rfl
@[simp] theorem exec_dispatch (part : Nat) (s : State) : exec (.dispatch part) s = execDispatch part s := rfl
@[simp] theorem exec_priorityAging (part queue : Nat) (s : State) : exec (.priorityAging part queue) s = execPriorityAging part queue s := rfl
@[simp] theorem exec_teamReservation (part : Nat) (s : State) : exec (.teamReservation part) s = execTeamReservation part s := rfl
@[simp] theorem exec_crewEnd (core slot : Nat) (s : State) : exec (.crewEnd core slot) s = execCrewEnd core slot s := rfl
@[simp] theorem exec_binTimerExpiry (core slot bin : Nat) (s : State) : exec (.binTimerExpiry core slot bin) s = execBinTimerExpiry core slot bin s := rfl
@[simp] theorem exec_binFire (core slot bin : Nat) (s : State) : exec (.binFire core slot bin) s = execBinFire core slot bin s := rfl
@[simp] theorem exec_rcvTimeout (b : BatchRef) (s : State) : exec (.rcvTimeout b) s = execRcvTimeout b s := rfl
@[simp] theorem exec_sleepTimeout (b : BatchRef) (s : State) : exec (.sleepTimeout b) s = execSleepTimeout b s := rfl
@[simp] theorem exec_qwaitTimeout (b : BatchRef) (s : State) : exec (.qwaitTimeout b) s = execQwaitTimeout b s := rfl
@[simp] theorem exec_qwaitReread (b : BatchRef) (s : State) : exec (.qwaitReread b) s = execQwaitReread b s := rfl
@[simp] theorem exec_yieldExpiry (b : BatchRef) (s : State) : exec (.yieldExpiry b) s = execYieldExpiry b s := rfl
@[simp] theorem exec_powerTokenPass (die herd : Nat) (s : State) : exec (.powerTokenPass die herd) s = execPowerTokenPass die herd s := rfl
@[simp] theorem exec_matrixUnitExecute (gquad : Nat) (s : State) : exec (.matrixUnitExecute gquad) s = execMatrixUnitExecute gquad s := rfl
@[simp] theorem exec_collTriggerRead (eng : Nat) (s : State) : exec (.collTriggerRead eng) s = execCollTriggerRead eng s := rfl
@[simp] theorem exec_collStep (eng : Nat) (input : CollInput) (s : State) : exec (.collStep eng input) s = execCollStep eng input s := rfl
@[simp] theorem exec_collCompletion (eng : Nat) (s : State) : exec (.collCompletion eng) s = execCollCompletion eng s := rfl
@[simp] theorem exec_collFailure (eng : Nat) (cause : CollFail) (s : State) : exec (.collFailure eng cause) s = execCollFailure eng cause s := rfl
@[simp] theorem exec_quantumExpiry (part : Nat) (s : State) : exec (.quantumExpiry part) s = execQuantumExpiry part s := rfl
@[simp] theorem exec_preemptionRequest (crews : List (Nat × Nat)) (s : State) : exec (.preemptionRequest crews) s = execPreemptionRequest crews s := rfl
@[simp] theorem exec_lodgeState (part : Nat) (s : State) : exec (.lodgeState part) s = execLodgeState part s := rfl
@[simp] theorem exec_partitionResume (part : Nat) (s : State) : exec (.partitionResume part) s = execPartitionResume part s := rfl
@[simp] theorem exec_debugHalt (core slot : Nat) (s : State) : exec (.debugHalt core slot) s = execDebugHalt core slot s := rfl
@[simp] theorem exec_singleStep (core slot : Nat) (s : State) : exec (.singleStep core slot) s = execSingleStep core slot s := rfl
@[simp] theorem exec_haltRelease (core slot : Nat) (s : State) : exec (.haltRelease core slot) s = execHaltRelease core slot s := rfl
@[simp] theorem exec_migrationLineCopy (part : Nat) (page : Nat) (read : LineFind) (s : State) : exec (.migrationLineCopy part page read) s = execMigrationLineCopy part page read s := rfl
@[simp] theorem exec_migrationCountWindowEnd (s : State) : exec .migrationCountWindowEnd s = execMigrationCountWindowEnd s := rfl
@[simp] theorem exec_capacityTierExpansion (part page : Nat) (s : State) : exec (.capacityTierExpansion part page) s = execCapacityTierExpansion part page s := rfl
@[simp] theorem exec_sectorRebuild (sector : Nat) (found : SectorFind) (s : State) : exec (.sectorRebuild sector found) s = execSectorRebuild sector found s := rfl
@[simp] theorem exec_sramUncorrectableError (site : SramSite) (s : State) : exec (.sramUncorrectableError site) s = execSramUncorrectableError site s := rfl
@[simp] theorem exec_scrubPassStart (stack : Nat) (s : State) : exec (.scrubPassStart stack) s = execScrubPassStart stack s := rfl
@[simp] theorem exec_scrubRead (stack : Nat) (read : HenRead) (s : State) : exec (.scrubRead stack read) s = execScrubRead stack read s := rfl
@[simp] theorem exec_scrubEscalationCheck (stack : Nat) (s : State) : exec (.scrubEscalationCheck stack) s = execScrubEscalationCheck stack s := rfl
@[simp] theorem exec_rowActivationWindowEnd (s : State) : exec .rowActivationWindowEnd s = execRowActivationWindowEnd s := rfl
@[simp] theorem exec_wayMove (group : Nat) (pick : Nat) (s : State) : exec (.wayMove group pick) s = execWayMove group pick s := rfl
@[simp] theorem exec_linkDown (link : Link) (s : State) : exec (.linkDown link) s = execLinkDown link s := rfl
@[simp] theorem exec_completionTimeout (link : Link) (s : State) : exec (.completionTimeout link) s = execCompletionTimeout link s := rfl
@[simp] theorem exec_lostclr (link : Link) (s : State) : exec (.lostclr link) s = execLostclr link s := rfl
@[simp] theorem exec_xlinv (part : Nat) (s : State) : exec (.xlinv part) s = execXlinv part s := rfl
@[simp] theorem exec_hostWindowAccess (part : Nat) (off : Nat) (data : HostAccess) (s : State) : exec (.hostWindowAccess part off data) s = execHostWindowAccess part off data s := rfl
@[simp] theorem exec_bar4Access (fn : Nat) (addr : Nat) (data : HostAccess) (s : State) : exec (.bar4Access fn addr data) s = execBar4Access fn addr data s := rfl
@[simp] theorem exec_ltail (fn : Nat) (value : BitVec 64) (s : State) : exec (.ltail fn value) s = execLtail fn value s := rfl
@[simp] theorem exec_launchSlotProcess (fn : Nat) (s : State) : exec (.launchSlotProcess fn) s = execLaunchSlotProcess fn s := rfl
@[simp] theorem exec_flGo (fn : Nat) (s : State) : exec (.flGo fn) s = execFlGo fn s := rfl
@[simp] theorem exec_flushComplete (fn : Nat) (s : State) : exec (.flushComplete fn) s = execFlushComplete fn s := rfl
@[simp] theorem exec_featAccept (fn : Nat) (value : BitVec 256) (s : State) : exec (.featAccept fn value) s = execFeatAccept fn value s := rfl
@[simp] theorem exec_functionReset (fn : Nat) (s : State) : exec (.functionReset fn) s = execFunctionReset fn s := rfl
@[simp] theorem exec_contextCreate (part : Nat) (s : State) : exec (.contextCreate part) s = execContextCreate part s := rfl
@[simp] theorem exec_contextDestroy (part : Nat) (s : State) : exec (.contextDestroy part) s = execContextDestroy part s := rfl
@[simp] theorem exec_qown (part word : Nat) (value : BitVec 64) (s : State) : exec (.qown part word value) s = execQown part word value s := rfl
@[simp] theorem exec_quadrantHandover (gquad : Nat) (s : State) : exec (.quadrantHandover gquad) s = execQuadrantHandover gquad s := rfl
@[simp] theorem exec_managementRegisterWrite (reg : MgmtReg) (value : BitVec 64) (s : State) : exec (.managementRegisterWrite reg value) s = execManagementRegisterWrite reg value s := rfl
@[simp] theorem exec_firmwareLoad (image : List (BitVec 8)) (s : State) : exec (.firmwareLoad image) s = execFirmwareLoad image s := rfl
@[simp] theorem exec_managementReset (s : State) : exec .managementReset s = execManagementReset s := rfl
@[simp] theorem exec_attestationRequest (fn : Nat) (nonce : List (BitVec 8)) (s : State) : exec (.attestationRequest fn nonce) s = execAttestationRequest fn nonce s := rfl
@[simp] theorem exec_binaryLoad (part : Nat) (file : List (BitVec 8)) (req : LoadReq) (s : State) : exec (.binaryLoad part file req) s = execBinaryLoad part file req s := rfl
@[simp] theorem exec_binaryUnload (part image : Nat) (s : State) : exec (.binaryUnload part image) s = execBinaryUnload part image s := rfl
@[simp] theorem exec_reset (failed : FenceMap) (s : State) : exec (.reset failed) s = execReset failed s := rfl
@[simp] theorem exec_thermalLimit (die count : Nat) (s : State) : exec (.thermalLimit die count) s = execThermalLimit die count s := rfl
@[simp] theorem exec_criticalLimit (s : State) : exec .criticalLimit s = execCriticalLimit s := rfl
@[simp] theorem exec_powerDown (s : State) : exec .powerDown s = execPowerDown s := rfl
@[simp] theorem exec_linkRetrained (link : Link) (s : State) : exec (.linkRetrained link) s = execLinkRetrained link s := rfl
@[simp] theorem exec_writeAcceptedByLink (idx : Nat) (s : State) : exec (.writeAcceptedByLink idx) s = execWriteAcceptedByLink idx s := rfl

end Sys2Proof.Machine
end

