-- ==== Sys2Proof/Laws/Front.lean ====
section
/-! SUPPORT. Every encoded instruction enters through its set's shared operation, with the roles of R42 that it admits: its meaning
is that operation of a body of its own. CVTP and TBAR take one of two ways first. -/

namespace Sys2Proof.Machine

/-- A lane instruction enters through `laneSet`; `anyRole` where every role may issue it. -/
def EntersLane (anyRole : Bool) (ins : Form → Instr) : Prop :=
  ∃ body : Form → State → Iss → List Fibre → Res State, ∀ x s, exec (ins x) s = laneSet s x anyRole (body x s)

/-- A uniform instruction enters through `uniSet`, with the roles that may issue it. -/
def EntersUni (roles : Roles) (ins : Form → Instr) : Prop :=
  ∃ body : Form → State → Iss → Res State, ∀ x s, exec (ins x) s = uniSet s x roles (body x s)

theorem iadd_enters : EntersLane false Instr.iadd :=
  ⟨_, fun x s => by rw [exec_iadd, execIadd, lane2, laneWrite]; try rfl⟩
theorem isub_enters : EntersLane false Instr.isub :=
  ⟨_, fun x s => by rw [exec_isub, execIsub, lane2, laneWrite]; try rfl⟩
theorem imul_enters : EntersLane false Instr.imul :=
  ⟨_, fun x s => by rw [exec_imul, execImul, lane2, laneWrite]; try rfl⟩
theorem imulh_enters : EntersLane false Instr.imulh :=
  ⟨_, fun x s => by rw [exec_imulh, execImulh, lane2, laneWrite]; try rfl⟩
theorem imad_enters : EntersLane false Instr.imad :=
  ⟨_, fun x s => by rw [exec_imad, execImad, lane3, laneWrite]; try rfl⟩
theorem iadd64_enters : EntersLane false Instr.iadd64 :=
  ⟨_, fun x s => by rw [exec_iadd64, execIadd64, lanePair2, laneWrite]; try rfl⟩
theorem imin_enters : EntersLane false Instr.imin :=
  ⟨_, fun x s => by rw [exec_imin, execImin, lane2, laneWrite]; try rfl⟩
theorem imax_enters : EntersLane false Instr.imax :=
  ⟨_, fun x s => by rw [exec_imax, execImax, lane2, laneWrite]; try rfl⟩
theorem iabs_enters : EntersLane false Instr.iabs :=
  ⟨_, fun x s => by rw [exec_iabs, execIabs, lane1, laneWrite]; try rfl⟩
theorem idiv_enters : EntersLane false Instr.idiv :=
  ⟨_, fun x s => by rw [exec_idiv, execIdiv, lane2, laneWrite]; try rfl⟩
theorem irem_enters : EntersLane false Instr.irem :=
  ⟨_, fun x s => by rw [exec_irem, execIrem, lane2, laneWrite]; try rfl⟩
theorem and_enters : EntersLane false Instr.and :=
  ⟨_, fun x s => by rw [exec_and, execAnd, lane2, laneWrite]; try rfl⟩
theorem or_enters : EntersLane false Instr.or :=
  ⟨_, fun x s => by rw [exec_or, execOr, lane2, laneWrite]; try rfl⟩
theorem xor_enters : EntersLane false Instr.xor :=
  ⟨_, fun x s => by rw [exec_xor, execXor, lane2, laneWrite]; try rfl⟩
theorem andn_enters : EntersLane false Instr.andn :=
  ⟨_, fun x s => by rw [exec_andn, execAndn, lane2, laneWrite]; try rfl⟩
theorem blut_enters : EntersLane false Instr.blut :=
  ⟨_, fun x s => by rw [exec_blut, execBlut, lane3, laneWrite]; try rfl⟩
theorem shl_enters : EntersLane false Instr.shl :=
  ⟨_, fun x s => by rw [exec_shl, execShl, lane2, laneWrite]; try rfl⟩
theorem shr_enters : EntersLane false Instr.shr :=
  ⟨_, fun x s => by rw [exec_shr, execShr, lane2, laneWrite]; try rfl⟩
theorem sar_enters : EntersLane false Instr.sar :=
  ⟨_, fun x s => by rw [exec_sar, execSar, lane2, laneWrite]; try rfl⟩
theorem rot_enters : EntersLane false Instr.rot :=
  ⟨_, fun x s => by rw [exec_rot, execRot, lane2, laneWrite]; try rfl⟩
theorem bfx_enters : EntersLane false Instr.bfx :=
  ⟨_, fun x s => by rw [exec_bfx, execBfx, lane2, laneWrite]; try rfl⟩
theorem bfi_enters : EntersLane false Instr.bfi :=
  ⟨_, fun x s => by rw [exec_bfi, execBfi, lane3, laneWrite]; try rfl⟩
theorem popc_enters : EntersLane false Instr.popc :=
  ⟨_, fun x s => by rw [exec_popc, execPopc, lane1, laneWrite]; try rfl⟩
theorem clz_enters : EntersLane false Instr.clz :=
  ⟨_, fun x s => by rw [exec_clz, execClz, lane1, laneWrite]; try rfl⟩
theorem brev_enters : EntersLane false Instr.brev :=
  ⟨_, fun x s => by rw [exec_brev, execBrev, lane1, laneWrite]; try rfl⟩
theorem lea_enters : EntersLane false Instr.lea :=
  ⟨_, fun x s => by rw [exec_lea, execLea, lane2, laneWrite]; try rfl⟩
theorem bpick_enters : EntersLane false Instr.bpick :=
  ⟨_, fun x s => by rw [exec_bpick, execBpick, laneWrite]; try rfl⟩
theorem idp4_enters : EntersLane false Instr.idp4 :=
  ⟨_, fun x s => by rw [exec_idp4, execIdp4, lane3, laneWrite]; try rfl⟩
theorem mov_enters : EntersLane false Instr.mov :=
  ⟨_, fun x s => by rw [exec_mov, execMov, lane1, laneWrite]; try rfl⟩
theorem movi_enters : EntersLane false Instr.movi :=
  ⟨_, fun x s => by rw [exec_movi, execMovi, laneWrite]; try rfl⟩
theorem movhi_enters : EntersLane false Instr.movhi :=
  ⟨_, fun x s => by rw [exec_movhi, execMovhi, lane1, laneWrite]; try rfl⟩
theorem sel_enters : EntersLane false Instr.sel :=
  ⟨_, fun x s => by rw [exec_sel, execSel, laneWrite]; try rfl⟩
theorem lanex_enters : EntersLane false Instr.lanex :=
  ⟨_, fun x s => by rw [exec_lanex, execLanex]; try rfl⟩
theorem pcol_enters : EntersLane false Instr.pcol :=
  ⟨_, fun x s => by rw [exec_pcol, execPcol]; try rfl⟩
theorem sr_enters : EntersLane false Instr.sr :=
  ⟨_, fun x s => by rw [exec_sr, execSr]; try rfl⟩
theorem ptov_enters : EntersLane false Instr.ptov :=
  ⟨_, fun x s => by rw [exec_ptov, execPtov, laneWrite]; try rfl⟩
theorem vtop_enters : EntersLane false Instr.vtop :=
  ⟨_, fun x s => by rw [exec_vtop, execVtop]; try rfl⟩
theorem urd_enters : EntersLane false Instr.urd :=
  ⟨_, fun x s => by rw [exec_urd, execUrd]; try rfl⟩
theorem bra_enters : EntersLane false Instr.bra :=
  ⟨_, fun x s => by rw [exec_bra, execBra]; try rfl⟩
theorem brx_enters : EntersLane false Instr.brx :=
  ⟨_, fun x s => by rw [exec_brx, execBrx]; try rfl⟩
theorem call_enters : EntersLane false Instr.call :=
  ⟨_, fun x s => by rw [exec_call, execCall]; try rfl⟩
theorem calli_enters : EntersLane false Instr.calli :=
  ⟨_, fun x s => by rw [exec_calli, execCalli]; try rfl⟩
theorem ret_enters : EntersLane false Instr.ret :=
  ⟨_, fun x s => by rw [exec_ret, execRet]; try rfl⟩
theorem fspawn_enters : EntersLane false Instr.fspawn :=
  ⟨_, fun x s => by rw [exec_fspawn, execFspawn]; try rfl⟩
theorem fend_enters : EntersLane true Instr.fend :=
  ⟨_, fun x s => by rw [exec_fend, execFend]; try rfl⟩
theorem rcv_enters : EntersLane false Instr.rcv :=
  ⟨_, fun x s => by rw [exec_rcv, execRcv]; try rfl⟩
theorem icmp_enters : EntersLane false Instr.icmp :=
  ⟨_, fun x s => by rw [exec_icmp, execIcmp, lanePred]; try rfl⟩
theorem plut_enters : EntersLane false Instr.plut :=
  ⟨_, fun x s => by rw [exec_plut, execPlut]; try rfl⟩
theorem fcmp_enters : EntersLane false Instr.fcmp :=
  ⟨_, fun x s => by rw [exec_fcmp, execFcmp, lanePred]; try rfl⟩
theorem hcmp_enters : EntersLane false Instr.hcmp :=
  ⟨_, fun x s => by rw [exec_hcmp, execHcmp, lanePred]; try rfl⟩
theorem bcmp_enters : EntersLane false Instr.bcmp :=
  ⟨_, fun x s => by rw [exec_bcmp, execBcmp, lanePred]; try rfl⟩
theorem fclass_enters : EntersLane false Instr.fclass :=
  ⟨_, fun x s => by rw [exec_fclass, execFclass, lanePred]; try rfl⟩
theorem fadd_enters : EntersLane false Instr.fadd :=
  ⟨_, fun x s => by rw [exec_fadd, execFadd, float2, lane2, laneWrite]; try rfl⟩
theorem fsub_enters : EntersLane false Instr.fsub :=
  ⟨_, fun x s => by rw [exec_fsub, execFsub, float2, lane2, laneWrite]; try rfl⟩
theorem fmul_enters : EntersLane false Instr.fmul :=
  ⟨_, fun x s => by rw [exec_fmul, execFmul, float2, lane2, laneWrite]; try rfl⟩
theorem ffma_enters : EntersLane false Instr.ffma :=
  ⟨_, fun x s => by rw [exec_ffma, execFfma, float3, lane3, laneWrite]; try rfl⟩
theorem fmin_enters : EntersLane false Instr.fmin :=
  ⟨_, fun x s => by rw [exec_fmin, execFmin, float2, lane2, laneWrite]; try rfl⟩
theorem fmax_enters : EntersLane false Instr.fmax :=
  ⟨_, fun x s => by rw [exec_fmax, execFmax, float2, lane2, laneWrite]; try rfl⟩
theorem fdiv_enters : EntersLane false Instr.fdiv :=
  ⟨_, fun x s => by rw [exec_fdiv, execFdiv, float2, lane2, laneWrite]; try rfl⟩
theorem fsqrt_enters : EntersLane false Instr.fsqrt :=
  ⟨_, fun x s => by rw [exec_fsqrt, execFsqrt, float1, lane1, laneWrite]; try rfl⟩
theorem frcp_enters : EntersLane false Instr.frcp :=
  ⟨_, fun x s => by rw [exec_frcp, execFrcp, float1, lane1, laneWrite]; try rfl⟩
theorem frsq_enters : EntersLane false Instr.frsq :=
  ⟨_, fun x s => by rw [exec_frsq, execFrsq, float1, lane1, laneWrite]; try rfl⟩
theorem fex2_enters : EntersLane false Instr.fex2 :=
  ⟨_, fun x s => by rw [exec_fex2, execFex2, float1, lane1, laneWrite]; try rfl⟩
theorem flg2_enters : EntersLane false Instr.flg2 :=
  ⟨_, fun x s => by rw [exec_flg2, execFlg2, float1, lane1, laneWrite]; try rfl⟩
theorem fsin_enters : EntersLane false Instr.fsin :=
  ⟨_, fun x s => by rw [exec_fsin, execFsin, float1, lane1, laneWrite]; try rfl⟩
theorem fcos_enters : EntersLane false Instr.fcos :=
  ⟨_, fun x s => by rw [exec_fcos, execFcos, float1, lane1, laneWrite]; try rfl⟩
theorem frnd_enters : EntersLane false Instr.frnd :=
  ⟨_, fun x s => by rw [exec_frnd, execFrnd, float1, lane1, laneWrite]; try rfl⟩
theorem fscale_enters : EntersLane false Instr.fscale :=
  ⟨_, fun x s => by rw [exec_fscale, execFscale, lane2, laneWrite]; try rfl⟩
theorem fcpys_enters : EntersLane false Instr.fcpys :=
  ⟨_, fun x s => by rw [exec_fcpys, execFcpys, lane2, laneWrite]; try rfl⟩
theorem hadd2_enters : EntersLane false Instr.hadd2 :=
  ⟨_, fun x s => by rw [exec_hadd2, execHadd2, packed2, lane2, laneWrite]; try rfl⟩
theorem hmul2_enters : EntersLane false Instr.hmul2 :=
  ⟨_, fun x s => by rw [exec_hmul2, execHmul2, packed2, lane2, laneWrite]; try rfl⟩
theorem hfma2_enters : EntersLane false Instr.hfma2 :=
  ⟨_, fun x s => by rw [exec_hfma2, execHfma2, packed3, lane3, laneWrite]; try rfl⟩
theorem hmin2_enters : EntersLane false Instr.hmin2 :=
  ⟨_, fun x s => by rw [exec_hmin2, execHmin2, packed2, lane2, laneWrite]; try rfl⟩
theorem hmax2_enters : EntersLane false Instr.hmax2 :=
  ⟨_, fun x s => by rw [exec_hmax2, execHmax2, packed2, lane2, laneWrite]; try rfl⟩
theorem badd2_enters : EntersLane false Instr.badd2 :=
  ⟨_, fun x s => by rw [exec_badd2, execBadd2, packed2, lane2, laneWrite]; try rfl⟩
theorem bmul2_enters : EntersLane false Instr.bmul2 :=
  ⟨_, fun x s => by rw [exec_bmul2, execBmul2, packed2, lane2, laneWrite]; try rfl⟩
theorem bfma2_enters : EntersLane false Instr.bfma2 :=
  ⟨_, fun x s => by rw [exec_bfma2, execBfma2, packed3, lane3, laneWrite]; try rfl⟩
theorem cvt_enters : EntersLane false Instr.cvt :=
  ⟨_, fun x s => by rw [exec_cvt, execCvt, laneWrite]; try rfl⟩
theorem cvtp_enters : EntersLane false Instr.cvtp := by
  have h1 : ∃ b : Form → State → Iss → List Fibre → Res State, ∀ x s, x.mb 18 = true →
      exec (.cvtp x) s = laneSet s x false (b x s) := ⟨_, fun x s h => by rw [exec_cvtp, execCvtp]; simp only [h, if_true]; rfl⟩
  have h2 : ∃ b : Form → State → Iss → List Fibre → Res State, ∀ x s, x.mb 18 = false →
      exec (.cvtp x) s = laneSet s x false (b x s) :=
    ⟨_, fun x s h => by rw [exec_cvtp, execCvtp]; simp only [h, laneWrite, Bool.false_eq_true, if_false]; rfl⟩
  obtain ⟨b1, h1⟩ := h1
  obtain ⟨b2, h2⟩ := h2
  refine ⟨fun x s => if x.mb 18 then b1 x s else b2 x s, fun x s => ?_⟩
  cases h : x.mb 18
  · simp only [h2 x s h, h, Bool.false_eq_true, if_false]
  · simp only [h1 x s h, h, if_true]
theorem cvtq_enters : EntersLane false Instr.cvtq :=
  ⟨_, fun x s => by rw [exec_cvtq, execCvtq]; try rfl⟩
theorem cvtx_enters : EntersLane false Instr.cvtx :=
  ⟨_, fun x s => by rw [exec_cvtx, execCvtx, lane2, laneWrite]; try rfl⟩
theorem ld_enters : EntersLane false Instr.ld :=
  ⟨_, fun x s => by rw [exec_ld, execLd]; try rfl⟩
theorem st_enters : EntersLane false Instr.st :=
  ⟨_, fun x s => by rw [exec_st, execSt]; try rfl⟩
theorem lds_enters : EntersLane false Instr.lds :=
  ⟨_, fun x s => by rw [exec_lds, execLds]; try rfl⟩
theorem sts_enters : EntersLane false Instr.sts :=
  ⟨_, fun x s => by rw [exec_sts, execSts]; try rfl⟩
theorem atom_enters : EntersLane false Instr.atom :=
  ⟨_, fun x s => by rw [exec_atom, execAtom, atomic]; try rfl⟩
theorem red_enters : EntersLane false Instr.red :=
  ⟨_, fun x s => by rw [exec_red, execRed, atomic]; try rfl⟩
theorem cas_enters : EntersLane false Instr.cas :=
  ⟨_, fun x s => by rw [exec_cas, execCas, atomic]; try rfl⟩
theorem qenq_enters : EntersLane false Instr.qenq :=
  ⟨_, fun x s => by rw [exec_qenq, execQenq]; try rfl⟩
theorem qdeq_enters : EntersLane false Instr.qdeq :=
  ⟨_, fun x s => by rw [exec_qdeq, execQdeq]; try rfl⟩
theorem sliceof_enters : EntersLane false Instr.sliceof :=
  ⟨_, fun x s => by rw [exec_sliceof, execSliceof, laneWrite]; try rfl⟩
theorem homeof_enters : EntersLane false Instr.homeof :=
  ⟨_, fun x s => by rw [exec_homeof, execHomeof, laneWrite]; try rfl⟩
theorem pref_enters : EntersLane false Instr.pref :=
  ⟨_, fun x s => by rw [exec_pref, execPref]; try rfl⟩
theorem hld_enters : EntersLane false Instr.hld :=
  ⟨_, fun x s => by rw [exec_hld, execHld]; try rfl⟩
theorem hst_enters : EntersLane false Instr.hst :=
  ⟨_, fun x s => by rw [exec_hst, execHst]; try rfl⟩
theorem hrefPin_enters : EntersLane false Instr.hrefPin :=
  ⟨_, fun x s => by rw [exec_hrefPin, execHrefPin, pinOp]; try rfl⟩
theorem hrefUnpin_enters : EntersLane false Instr.hrefUnpin :=
  ⟨_, fun x s => by rw [exec_hrefUnpin, execHrefUnpin, pinOp]; try rfl⟩
theorem hrefCmp_enters : EntersLane false Instr.hrefCmp :=
  ⟨_, fun x s => by rw [exec_hrefCmp, execHrefCmp]; try rfl⟩
theorem hrefIsnull_enters : EntersLane false Instr.hrefIsnull :=
  ⟨_, fun x s => by rw [exec_hrefIsnull, execHrefIsnull]; try rfl⟩
theorem hrefMov_enters : EntersLane false Instr.hrefMov :=
  ⟨_, fun x s => by rw [exec_hrefMov, execHrefMov]; try rfl⟩
theorem hrefFrom_enters : EntersLane false Instr.hrefFrom :=
  ⟨_, fun x s => by rw [exec_hrefFrom, execHrefFrom]; try rfl⟩
theorem hrefTo_enters : EntersLane false Instr.hrefTo :=
  ⟨_, fun x s => by rw [exec_hrefTo, execHrefTo, laneWrite]; try rfl⟩
theorem hnew_enters : EntersLane false Instr.hnew :=
  ⟨_, fun x s => by rw [exec_hnew, execHnew]; try rfl⟩
theorem uadd_enters : EntersUni .any Instr.uadd :=
  ⟨_, fun x s => by rw [exec_uadd, execUadd, uni2, uniWrite]; try rfl⟩
theorem usub_enters : EntersUni .any Instr.usub :=
  ⟨_, fun x s => by rw [exec_usub, execUsub, uni2, uniWrite]; try rfl⟩
theorem umul_enters : EntersUni .any Instr.umul :=
  ⟨_, fun x s => by rw [exec_umul, execUmul, uni2, uniWrite]; try rfl⟩
theorem umad_enters : EntersUni .any Instr.umad :=
  ⟨_, fun x s => by rw [exec_umad, execUmad, uni3, uniWrite]; try rfl⟩
theorem umin_enters : EntersUni .any Instr.umin :=
  ⟨_, fun x s => by rw [exec_umin, execUmin, uni2, uniWrite]; try rfl⟩
theorem umax_enters : EntersUni .any Instr.umax :=
  ⟨_, fun x s => by rw [exec_umax, execUmax, uni2, uniWrite]; try rfl⟩
theorem uand_enters : EntersUni .any Instr.uand :=
  ⟨_, fun x s => by rw [exec_uand, execUand, uni2, uniWrite]; try rfl⟩
theorem uor_enters : EntersUni .any Instr.uor :=
  ⟨_, fun x s => by rw [exec_uor, execUor, uni2, uniWrite]; try rfl⟩
theorem uxor_enters : EntersUni .any Instr.uxor :=
  ⟨_, fun x s => by rw [exec_uxor, execUxor, uni2, uniWrite]; try rfl⟩
theorem ushl_enters : EntersUni .any Instr.ushl :=
  ⟨_, fun x s => by rw [exec_ushl, execUshl, uni2, uniWrite]; try rfl⟩
theorem ushr_enters : EntersUni .any Instr.ushr :=
  ⟨_, fun x s => by rw [exec_ushr, execUshr, uni2, uniWrite]; try rfl⟩
theorem usar_enters : EntersUni .any Instr.usar :=
  ⟨_, fun x s => by rw [exec_usar, execUsar, uni2, uniWrite]; try rfl⟩
theorem umov_enters : EntersUni .any Instr.umov :=
  ⟨_, fun x s => by rw [exec_umov, execUmov, uni1, uniWrite]; try rfl⟩
theorem umovi_enters : EntersUni .any Instr.umovi :=
  ⟨_, fun x s => by rw [exec_umovi, execUmovi, uniWrite]; try rfl⟩
theorem umovhi_enters : EntersUni .any Instr.umovhi :=
  ⟨_, fun x s => by rw [exec_umovhi, execUmovhi, uni1, uniWrite]; try rfl⟩
theorem usel_enters : EntersUni .any Instr.usel :=
  ⟨_, fun x s => by rw [exec_usel, execUsel, uniWrite]; try rfl⟩
theorem ulea_enters : EntersUni .any Instr.ulea :=
  ⟨_, fun x s => by rw [exec_ulea, execUlea, uni2, uniWrite]; try rfl⟩
theorem ucmp_enters : EntersUni .any Instr.ucmp :=
  ⟨_, fun x s => by rw [exec_ucmp, execUcmp]; try rfl⟩
theorem uplut_enters : EntersUni .any Instr.uplut :=
  ⟨_, fun x s => by rw [exec_uplut, execUplut]; try rfl⟩
theorem usr_enters : EntersUni .any Instr.usr :=
  ⟨_, fun x s => by rw [exec_usr, execUsr]; try rfl⟩
theorem ufrom_enters : EntersUni .any Instr.ufrom :=
  ⟨_, fun x s => by rw [exec_ufrom, execUfrom]; try rfl⟩
theorem uld_enters : EntersUni .any Instr.uld :=
  ⟨_, fun x s => by rw [exec_uld, execUld]; try rfl⟩
theorem ust_enters : EntersUni .any Instr.ust :=
  ⟨_, fun x s => by rw [exec_ust, execUst]; try rfl⟩
theorem ufadd_enters : EntersUni .vector Instr.ufadd :=
  ⟨_, fun x s => by rw [exec_ufadd, execUfadd, ufloat2, uniWrite]; try rfl⟩
theorem ufmul_enters : EntersUni .vector Instr.ufmul :=
  ⟨_, fun x s => by rw [exec_ufmul, execUfmul, ufloat2, uniWrite]; try rfl⟩
theorem uffma_enters : EntersUni .vector Instr.uffma :=
  ⟨_, fun x s => by rw [exec_uffma, execUffma, uniWrite]; try rfl⟩
theorem ucvt_enters : EntersUni .vector Instr.ucvt :=
  ⟨_, fun x s => by rw [exec_ucvt, execUcvt, uniWrite]; try rfl⟩
theorem ubra_enters : EntersUni .any Instr.ubra :=
  ⟨_, fun x s => by rw [exec_ubra, execUbra]; try rfl⟩
theorem elect_enters : EntersUni .any Instr.elect :=
  ⟨_, fun x s => by rw [exec_elect, execElect]; try rfl⟩
theorem sleep_enters : EntersUni .any Instr.sleep :=
  ⟨_, fun x s => by rw [exec_sleep, execSleep]; try rfl⟩
theorem wake_enters : EntersUni .any Instr.wake :=
  ⟨_, fun x s => by rw [exec_wake, execWake]; try rfl⟩
theorem bar_enters : EntersUni .any Instr.bar :=
  ⟨_, fun x s => by rw [exec_bar, execBar]; try rfl⟩
theorem rngwaitF_enters : EntersUni .any Instr.rngwaitF :=
  ⟨_, fun x s => by rw [exec_rngwaitF, execRngwaitF, ringWait]; try rfl⟩
theorem rngwaitE_enters : EntersUni .any Instr.rngwaitE :=
  ⟨_, fun x s => by rw [exec_rngwaitE, execRngwaitE, ringWait]; try rfl⟩
theorem rngsigF_enters : EntersUni .any Instr.rngsigF :=
  ⟨_, fun x s => by rw [exec_rngsigF, execRngsigF, ringSignal]; try rfl⟩
theorem rngsigE_enters : EntersUni .any Instr.rngsigE :=
  ⟨_, fun x s => by rw [exec_rngsigE, execRngsigE, ringSignal]; try rfl⟩
theorem yield_enters : EntersUni .any Instr.yield :=
  ⟨_, fun x s => by rw [exec_yield, execYield]; try rfl⟩
theorem launch_enters : EntersUni .any Instr.launch :=
  ⟨_, fun x s => by rw [exec_launch, execLaunch]; try rfl⟩
theorem done_enters : EntersUni .any Instr.done :=
  ⟨_, fun x s => by rw [exec_done, execDone]; try rfl⟩
theorem nop_enters : EntersUni .any Instr.nop :=
  ⟨_, fun x s => by rw [exec_nop, execNop]; try rfl⟩
theorem bincfg_enters : EntersUni .any Instr.bincfg :=
  ⟨_, fun x s => by rw [exec_bincfg, execBincfg]; try rfl⟩
theorem fence_enters : EntersUni .any Instr.fence :=
  ⟨_, fun x s => by rw [exec_fence, execFence]; try rfl⟩
theorem cmaintClean_enters : EntersUni .vector Instr.cmaintClean :=
  ⟨_, fun x s => by rw [exec_cmaintClean, execCmaintClean, cmaint]; try rfl⟩
theorem cmaintInvalidate_enters : EntersUni .vector Instr.cmaintInvalidate :=
  ⟨_, fun x s => by rw [exec_cmaintInvalidate, execCmaintInvalidate, cmaint]; try rfl⟩
theorem cmaintCleanInvalidate_enters : EntersUni .vector Instr.cmaintCleanInvalidate :=
  ⟨_, fun x s => by rw [exec_cmaintCleanInvalidate, execCmaintCleanInvalidate, cmaint]; try rfl⟩
theorem cmaintDemote_enters : EntersUni .vector Instr.cmaintDemote :=
  ⟨_, fun x s => by rw [exec_cmaintDemote, execCmaintDemote, cmaint]; try rfl⟩
theorem cpy_enters : EntersUni .vectorCopy Instr.cpy :=
  ⟨_, fun x s => by rw [exec_cpy, execCpy]; try rfl⟩
theorem cpydrain_enters : EntersUni .vectorCopy Instr.cpydrain :=
  ⟨_, fun x s => by rw [exec_cpydrain, execCpydrain]; try rfl⟩
theorem nbinit_enters : EntersUni .vectorCopy Instr.nbinit :=
  ⟨_, fun x s => by rw [exec_nbinit, execNbinit]; try rfl⟩
theorem nbarr_enters : EntersUni .vectorCopy Instr.nbarr :=
  ⟨_, fun x s => by rw [exec_nbarr, execNbarr]; try rfl⟩
theorem nbwait_enters : EntersUni .vectorCopy Instr.nbwait :=
  ⟨_, fun x s => by rw [exec_nbwait, execNbwait]; try rfl⟩
theorem qwait_enters : EntersUni .vector Instr.qwait :=
  ⟨_, fun x s => by rw [exec_qwait, execQwait]; try rfl⟩
theorem coll_enters : EntersUni .vector Instr.coll :=
  ⟨_, fun x s => by rw [exec_coll, execColl]; try rfl⟩
theorem setways_enters : EntersUni .vector Instr.setways :=
  ⟨_, fun x s => by rw [exec_setways, execSetways]; try rfl⟩
theorem psnapOpen_enters : EntersUni .vector Instr.psnapOpen :=
  ⟨_, fun x s => by rw [exec_psnapOpen, execPsnapOpen, psnap]; try rfl⟩
theorem psnapClose_enters : EntersUni .vector Instr.psnapClose :=
  ⟨_, fun x s => by rw [exec_psnapClose, execPsnapClose, psnap]; try rfl⟩
theorem psnapBegin_enters : EntersUni .vector Instr.psnapBegin :=
  ⟨_, fun x s => by rw [exec_psnapBegin, execPsnapBegin, psnap]; try rfl⟩
theorem psnapPublish_enters : EntersUni .vector Instr.psnapPublish :=
  ⟨_, fun x s => by rw [exec_psnapPublish, execPsnapPublish, psnap]; try rfl⟩
theorem phintHot_enters : EntersUni .vector Instr.phintHot :=
  ⟨_, fun x s => by rw [exec_phintHot, execPhintHot]; try rfl⟩
theorem phintCold_enters : EntersUni .vector Instr.phintCold :=
  ⟨_, fun x s => by rw [exec_phintCold, execPhintCold]; try rfl⟩
theorem hreloc_enters : EntersUni .vector Instr.hreloc :=
  ⟨_, fun x s => by rw [exec_hreloc, execHreloc]; try rfl⟩
theorem bld_enters : EntersUni .matrix Instr.bld :=
  ⟨_, fun x s => by rw [exec_bld, execBld]; try rfl⟩
theorem sld_enters : EntersUni .matrix Instr.sld :=
  ⟨_, fun x s => by rw [exec_sld, execSld]; try rfl⟩
theorem mma_enters : EntersUni .matrix Instr.mma :=
  ⟨_, fun x s => by rw [exec_mma, execMma, matMul]; try rfl⟩
theorem mmai_enters : EntersUni .matrix Instr.mmai :=
  ⟨_, fun x s => by rw [exec_mmai, execMmai, matMul]; try rfl⟩
theorem zzero_enters : EntersUni .matrix Instr.zzero :=
  ⟨_, fun x s => by rw [exec_zzero, execZzero]; try rfl⟩
theorem zld_enters : EntersUni .matrix Instr.zld :=
  ⟨_, fun x s => by rw [exec_zld, execZld]; try rfl⟩
theorem zst_enters : EntersUni .matrix Instr.zst :=
  ⟨_, fun x s => by rw [exec_zst, execZst]; try rfl⟩
theorem zrd_enters : EntersUni .matrix Instr.zrd :=
  ⟨_, fun x s => by rw [exec_zrd, execZrd]; try rfl⟩
theorem zwr_enters : EntersUni .matrix Instr.zwr :=
  ⟨_, fun x s => by rw [exec_zwr, execZwr]; try rfl⟩
theorem zpin_enters : EntersUni .matrix Instr.zpin :=
  ⟨_, fun x s => by rw [exec_zpin, execZpin]; try rfl⟩
theorem zatt_enters : EntersUni .matrix Instr.zatt :=
  ⟨_, fun x s => by rw [exec_zatt, execZatt]; try rfl⟩
theorem zdet_enters : EntersUni .matrix Instr.zdet :=
  ⟨_, fun x s => by rw [exec_zdet, execZdet]; try rfl⟩
theorem zrel_enters : EntersUni .matrix Instr.zrel :=
  ⟨_, fun x s => by rw [exec_zrel, execZrel]; try rfl⟩
theorem gdr_enters : EntersUni .matrix Instr.gdr :=
  ⟨_, fun x s => by rw [exec_gdr, execGdr]; try rfl⟩
theorem gdrCq_enters : EntersUni .matrix Instr.gdrCq :=
  ⟨_, fun x s => by rw [exec_gdrCq, execGdrCq, chunk]; try rfl⟩
theorem gqr_enters : EntersUni .matrix Instr.gqr :=
  ⟨_, fun x s => by rw [exec_gqr, execGqr]; try rfl⟩
theorem gqrCq_enters : EntersUni .matrix Instr.gqrCq :=
  ⟨_, fun x s => by rw [exec_gqrCq, execGqrCq, chunk]; try rfl⟩
theorem zspill_enters : EntersUni .matrix Instr.zspill :=
  ⟨_, fun x s => by rw [exec_zspill, execZspill]; try rfl⟩
theorem zinfoT_enters : EntersUni .matrix Instr.zinfoT :=
  ⟨_, fun x s => by rw [exec_zinfoT, execZinfoT, zinfo]; try rfl⟩
theorem zinfoH_enters : EntersUni .matrix Instr.zinfoH :=
  ⟨_, fun x s => by rw [exec_zinfoH, execZinfoH, zinfo]; try rfl⟩
theorem trap_enters : EntersUni .any Instr.trap :=
  ⟨_, fun x s => by rw [exec_trap, execTrap]; try rfl⟩
theorem bpt_enters : EntersUni .any Instr.bpt :=
  ⟨_, fun x s => by rw [exec_bpt, execBpt]; try rfl⟩
theorem ckpt_enters : EntersUni .any Instr.ckpt :=
  ⟨_, fun x s => by rw [exec_ckpt, execCkpt]; try rfl⟩
theorem eret_enters : EntersUni .any Instr.eret :=
  ⟨_, fun x s => by rw [exec_eret, execEret]; try rfl⟩
theorem rdsys_enters : EntersUni .any Instr.rdsys :=
  ⟨_, fun x s => by rw [exec_rdsys, execRdsys]; try rfl⟩
theorem wrsys_enters : EntersUni .any Instr.wrsys :=
  ⟨_, fun x s => by rw [exec_wrsys, execWrsys]; try rfl⟩
theorem wrpkr_enters : EntersUni .any Instr.wrpkr :=
  ⟨_, fun x s => by rw [exec_wrpkr, execWrpkr]; try rfl⟩
theorem halt_enters : EntersUni .any Instr.halt :=
  ⟨_, fun x s => by rw [exec_halt, execHalt]; try rfl⟩

end Sys2Proof.Machine
end

