-- ==== Sys2Proof/Laws/Sparse.lean ====
section
/-! SUPPORT. What the operations over sparse contents and over memory do: reading after writing, for any lists, and that
each keeps the canonical form. -/

namespace Sys2Proof.Machine

/-! ### Reading -/

theorem spGet_spAfter {α : Type} (d : α) {a b : Nat} (h : a < b) (l : List (Nat × α)) :
    spGet d (spAfter a l) b = spGet d l b := by
  induction l with
  | nil => rfl
  | cons c r ih =>
    obtain ⟨k, v⟩ := c
    by_cases hk : k ≤ a
    · rw [spAfter, if_pos hk, ih, spGet, if_neg (by omega), if_neg (by omega)]
    · rw [spAfter, if_neg hk]

theorem spGet_spAfter_self {α : Type} (d : α) {a b : Nat} (h : b ≤ a) (l : List (Nat × α)) :
    spGet d (spAfter a l) b = d := by
  induction l with
  | nil => rfl
  | cons c r ih =>
    obtain ⟨k, v⟩ := c
    by_cases hk : k ≤ a
    · rw [spAfter, if_pos hk, ih]
    · rw [spAfter, if_neg hk, spGet, if_neg (by omega), if_pos (by omega)]

/-- A read after a write, of the key written or of another, whatever the list. -/
@[simp] theorem spGet_spSet {α : Type} [DecidableEq α] (d : α) (a b : Nat) (x : α) (l : List (Nat × α)) :
    spGet d (spSet d a x l) b = if b = a then x else spGet d l b := by
  induction l with
  | nil =>
    by_cases hx : x = d
    · simp [spSet, spGet, hx]
    · simp [spSet, spGet, hx]
  | cons c r ih =>
    obtain ⟨k, v⟩ := c
    rcases Nat.lt_trichotomy a k with h | h | h
    · have e : spSet d a x ((k, v) :: r) = if x = d then (k, v) :: r else (a, x) :: (k, v) :: r := by
        rw [spSet, if_neg (by omega), if_pos h]
      rw [e]
      by_cases hb : b = a
      · subst hb
        rw [if_pos rfl]
        split_ifs with hx
        · rw [spGet, if_neg (by omega), if_pos h, hx]
        · rw [spGet, if_pos rfl]
      · rw [if_neg hb]
        split_ifs with hx
        · rfl
        · rw [spGet, if_neg hb]
          split_ifs with hba
          · rw [spGet, if_neg (by omega), if_pos (by omega)]
          · rfl
    · subst h
      have e : spSet d a x ((a, v) :: r) = if x = d then spAfter a r else (a, x) :: r := by rw [spSet, if_pos rfl]
      rw [e]
      by_cases hb : b = a
      · subst hb
        rw [if_pos rfl]
        split_ifs with hx
        · rw [spGet_spAfter_self d (Nat.le_refl b), hx]
        · rw [spGet, if_pos rfl]
      · rw [if_neg hb, spGet, if_neg hb]
        split_ifs with hx hba hba
        · exact spGet_spAfter_self d (by omega) r
        · exact spGet_spAfter d (by omega) r
        · rw [spGet, if_neg hb, if_pos hba]
        · rw [spGet, if_neg hb, if_neg hba]
    · have e : spSet d a x ((k, v) :: r) = (k, v) :: spSet d a x r := by
        rw [spSet, if_neg (by omega), if_neg (by omega)]
      rw [e, spGet, spGet, ih]
      by_cases hb : b = a
      · subst hb; rw [if_neg (by omega), if_neg (by omega), if_pos rfl, if_pos rfl]
      · rw [if_neg hb, if_neg hb]

theorem spGet_spSetList {α : Type} [DecidableEq α] (d : α) (xs : List α) (a b : Nat) (l : List (Nat × α)) :
    spGet d (spSetList d a xs l) b = if a ≤ b ∧ b < a + xs.length then xs.getD (b - a) d else spGet d l b := by
  induction xs generalizing a l with
  | nil => simp [spSetList]
  | cons x xs ih =>
    rw [spSetList, ih]
    by_cases h : b = a
    · subst h; simp
    · by_cases h' : a + 1 ≤ b ∧ b < a + 1 + xs.length
      · have e : b - a = (b - (a + 1)) + 1 := by omega
        rw [if_pos h', if_pos (by simp; omega), e, List.getD_cons_succ]
      · rw [if_neg h', if_neg (by simp; omega), spGet_spSet, if_neg h]

theorem spGetList_length {α : Type} (d : α) (l : List (Nat × α)) (n a : Nat) :
    (spGetList d l a n).length = n := by
  induction n generalizing a with
  | zero => rfl
  | succ n ih => simp [spGetList, ih]

/-- Reading the values just written gives them back. -/
theorem spGetList_spSetList {α : Type} [DecidableEq α] (d : α) (xs : List α) (a : Nat) (l : List (Nat × α)) :
    spGetList d (spSetList d a xs l) a xs.length = xs := by
  have key : ∀ (n o : Nat), o + n = xs.length →
      spGetList d (spSetList d a xs l) (a + o) n = xs.drop o := by
    intro n
    induction n with
    | zero => intro o h; simp [spGetList]; omega
    | succ n ih =>
      intro o h
      rw [spGetList, Nat.add_assoc, ih (o + 1) (by omega), spGet_spSetList, if_pos (by omega)]
      have : a + o - a = o := by omega
      rw [this, List.drop_eq_getElem_cons (by omega : o < xs.length)]
      simp [List.getD, List.getElem?_eq_getElem (by omega : o < xs.length)]
  simpa using key xs.length 0 (by omega)

/-! ### The canonical form -/

theorem spWf_cons {α : Type} [DecidableEq α] (d : α) (k : Nat) (v : α) (r : List (Nat × α)) :
    spWf d ((k, v) :: r) = true ↔ v ≠ d ∧ (∀ c ∈ r, k < c.1) ∧ spWf d r = true := by
  induction r generalizing k v with
  | nil => simp [spWf]
  | cons c r ih =>
    obtain ⟨k', v'⟩ := c
    simp only [spWf, Bool.and_eq_true, bne_iff_ne, decide_eq_true_eq, List.mem_cons, forall_eq_or_imp]
    constructor
    · rintro ⟨⟨h1, h2⟩, h3⟩
      refine ⟨h1, ⟨h2, fun c hc => ?_⟩, h3⟩
      exact Nat.lt_trans h2 (((ih k' v').mp h3).2.1 c hc)
    · rintro ⟨h1, ⟨h2, _⟩, h3⟩
      exact ⟨⟨h1, h2⟩, h3⟩

theorem spWf_of_sublist {α : Type} [DecidableEq α] (d : α) {l m : List (Nat × α)} (h : l.Sublist m)
    (hm : spWf d m = true) : spWf d l = true := by
  induction h with
  | slnil => rfl
  | cons c _ ih => obtain ⟨k, v⟩ := c; exact ih ((spWf_cons d k v _).mp hm).2.2
  | cons_cons c hs ih =>
    obtain ⟨k, v⟩ := c
    obtain ⟨h1, h2, h3⟩ := (spWf_cons d k v _).mp hm
    exact (spWf_cons d k v _).mpr ⟨h1, fun c hc => h2 c (hs.subset hc), ih h3⟩

theorem spAfter_sublist {α : Type} (a : Nat) (l : List (Nat × α)) : (spAfter a l).Sublist l := by
  induction l with
  | nil => exact List.Sublist.refl _
  | cons c r ih =>
    obtain ⟨k, v⟩ := c
    by_cases h : k ≤ a
    · rw [spAfter, if_pos h]; exact ih.cons _
    · rw [spAfter, if_neg h]

theorem mem_spSet {α : Type} [DecidableEq α] (d : α) (a : Nat) (x : α) (l : List (Nat × α)) (c : Nat × α)
    (h : c ∈ spSet d a x l) : c = (a, x) ∨ c ∈ l := by
  induction l with
  | nil => by_cases hx : x = d <;> simp [spSet, hx] at h; exact .inl h
  | cons e r ih =>
    obtain ⟨k, v⟩ := e
    rw [spSet] at h
    split at h
    · split at h
      · exact .inr (List.mem_cons_of_mem _ ((spAfter_sublist a r).subset h))
      · rcases List.mem_cons.mp h with h | h
        · exact .inl h
        · exact .inr (List.mem_cons_of_mem _ h)
    · split at h
      · split at h
        · exact .inr h
        · rcases List.mem_cons.mp h with h | h
          · exact .inl h
          · exact .inr h
      · rcases List.mem_cons.mp h with h | h
        · exact .inr (h ▸ List.mem_cons_self)
        · exact (ih h).imp id (List.mem_cons_of_mem _)

/-- A write keeps the canonical form. -/
theorem spWf_spSet {α : Type} [DecidableEq α] (d : α) (a : Nat) (x : α) (l : List (Nat × α))
    (h : spWf d l = true) : spWf d (spSet d a x l) = true := by
  induction l with
  | nil => by_cases hx : x = d <;> simp [spSet, spWf, hx]
  | cons e r ih =>
    obtain ⟨k, v⟩ := e
    obtain ⟨h1, h2, h3⟩ := (spWf_cons d k v r).mp h
    rw [spSet]
    split
    · subst_vars
      split
      · exact spWf_of_sublist d (spAfter_sublist _ _) h3
      · exact (spWf_cons d _ x r).mpr ⟨by assumption, h2, h3⟩
    · split
      · split
        · exact h
        · refine (spWf_cons d a x _).mpr ⟨by assumption, fun c hc => ?_, h⟩
          rcases List.mem_cons.mp hc with hc | hc
          · subst hc; assumption
          · exact Nat.lt_trans (by assumption) (h2 c hc)
      · refine (spWf_cons d k v _).mpr ⟨h1, fun c hc => ?_, ih h3⟩
        rcases mem_spSet d a x r c hc with hc | hc
        · subst hc; simp only; omega
        · exact h2 c hc

theorem spWf_spSetList {α : Type} [DecidableEq α] (d : α) (xs : List α) (a : Nat) (l : List (Nat × α))
    (h : spWf d l = true) : spWf d (spSetList d a xs l) = true := by
  induction xs generalizing a l with
  | nil => exact h
  | cons x xs ih => exact ih _ _ (spWf_spSet d a x l h)

/-! ### Memory -/

@[simp] theorem Mem.get_set (m : Mem) (a b : Nat) (x : Byte) : (m.set a x).get b = if b = a then x else m.get b :=
  spGet_spSet 0 a b x m

/-- A byte after a write: the byte written there, else the byte before. -/
theorem Mem.get_write (m : Mem) (a b : Nat) (bs : List Byte) :
    (m.write a bs).get b = if a ≤ b ∧ b < a + bs.length then bs.getD (b - a) 0 else m.get b :=
  spGet_spSetList 0 bs a b m

/-- The bytes just written are read back. -/
theorem Mem.read_write (m : Mem) (a : Nat) (bs : List Byte) : (m.write a bs).read a bs.length = bs :=
  spGetList_spSetList 0 bs a m

theorem Mem.set_wf (m : Mem) (a : Nat) (b : Byte) (h : Memory.wf m = true) : Memory.wf (m.set a b) = true :=
  spWf_spSet 0 a b m h

theorem Mem.write_wf (m : Mem) (a : Nat) (bs : List Byte) (h : Memory.wf m = true) :
    Memory.wf (m.write a bs) = true := spWf_spSetList 0 bs a m h

theorem Mem.slice_wf (m : Mem) (lo n : Nat) (h : Memory.wf m = true) : Memory.wf (m.slice lo n) = true :=
  spWf_of_sublist 0 ((List.takeWhile_sublist _).trans (List.dropWhile_sublist _)) h

theorem Mem.overlay_wf (m : Mem) (o : List Host.Cell) (h : Memory.wf m = true) : Memory.wf (m.overlay o) = true := by
  induction o generalizing m with
  | nil => exact h
  | cons c o ih => exact ih _ (m.set_wf _ _ h)

theorem reset_mem_wf : Memory.wf State.reset.mem = true ∧ Memory.wf State.reset.podMem = true ∧
    Memory.wf State.reset.hw = true := ⟨rfl, rfl, rfl⟩

end Sys2Proof.Machine
end

