-- ==== Sys2Proof/Laws/Lookup.lean ====
section
/-! SUPPORT. Lookups after updates: the crew, flock, batch and fibre that a reference names, and the registers a fibre or a
flock shows, after each of the updates that meanings make. -/

namespace Sys2Proof.Machine

/-! ### Lists -/

/-- After the first match is changed to another match, it is the one found. -/
theorem find?_updFirst_self {α : Type} (p : α → Bool) (f : α → α) (l : List α) (a : α) (h : l.find? p = some a)
    (hf : p (f a) = true) : (updFirst p f l).find? p = some (f a) := by
  induction l with
  | nil => simp at h
  | cons b r ih =>
    by_cases hb : p b = true
    · have : b = a := by simpa [hb] using h
      subst this; simp [updFirst, hb, hf]
    · have hb : p b = false := by simpa using hb
      simp only [List.find?_cons, hb] at h
      simp [updFirst, hb, ih h]

/-- A search that the change does not touch finds what it found. -/
theorem find?_updFirst_other {α : Type} (p q : α → Bool) (f : α → α) (l : List α)
    (h : ∀ a, p a = true → q a = false ∧ q (f a) = false) : (updFirst p f l).find? q = l.find? q := by
  induction l with
  | nil => rfl
  | cons b r ih =>
    by_cases hb : p b = true
    · simp [updFirst, hb, (h b hb).1, (h b hb).2]
    · have hb : p b = false := by simpa using hb
      simp [updFirst, hb, List.find?_cons, ih]

/-- The first entry that satisfies `p` is changed, and those before and after it stand. -/
theorem updFirst_split {α : Type} (p : α → Bool) (f : α → α) (l : List α) (a : α) (h : l.find? p = some a) :
    ∃ pre post, l = pre ++ a :: post ∧ updFirst p f l = pre ++ f a :: post := by
  induction l with
  | nil => simp at h
  | cons b r ih =>
    by_cases hb : p b
    · obtain rfl : b = a := by simpa [List.find?_cons, hb] using h
      exact ⟨[], r, rfl, by simp [updFirst, hb]⟩
    · obtain ⟨pre, post, h1, h2⟩ := ih (by simpa [List.find?_cons, hb] using h)
      exact ⟨b :: pre, post, by simp [h1], by simp [updFirst, hb, h2]⟩

/-- Where nothing matches, nothing is changed. -/
theorem updFirst_none {α : Type} (p : α → Bool) (f : α → α) (l : List α) (h : l.find? p = none) : updFirst p f l = l := by
  induction l with
  | nil => rfl
  | cons b r ih =>
    by_cases hb : p b = true
    · simp [hb] at h
    · have hb : p b = false := by simpa using hb
      simp only [List.find?_cons, hb] at h
      simp [updFirst, hb, ih h]

/-! ### Crews -/

theorem crew?_core {s : State} {c n : Nat} {k : Crew} (h : s.crew? c n = some k) : k.core = c ∧ k.slot = n := by
  have := List.find?_some h
  simpa using this

theorem crew?_updCrew_self {s : State} {c n : Nat} {k : Crew} (f : Crew → Crew) (h : s.crew? c n = some k)
    (hf : (f k).core = k.core ∧ (f k).slot = k.slot) : (s.updCrew c n f).crew? c n = some (f k) := by
  have hk := crew?_core h
  exact find?_updFirst_self _ f s.crews k h (by simp [hf, hk])

theorem crew?_updCrew_other (s : State) (c n c' n' : Nat) (f : Crew → Crew)
    (hf : ∀ k, (f k).core = k.core ∧ (f k).slot = k.slot) (h : (c', n') ≠ (c, n)) :
    (s.updCrew c n f).crew? c' n' = s.crew? c' n' := by
  apply find?_updFirst_other
  intro a ha
  have ha : a.core = c ∧ a.slot = n := by simpa using ha
  have hne : ¬(c = c' ∧ n = n') := by rintro ⟨rfl, rfl⟩; exact h rfl
  have hx : (a.core == c' && a.slot == n') = false := by
    rw [Bool.eq_false_iff]; intro hx
    simp only [Bool.and_eq_true, beq_iff_eq] at hx
    exact hne ⟨ha.1 ▸ hx.1, ha.2 ▸ hx.2⟩
  refine ⟨hx, ?_⟩
  rw [(hf a).1, (hf a).2]; exact hx

theorem onlyCrews_updCrew (s : State) (c n : Nat) (f : Crew → Crew) : OnlyCrews s (s.updCrew c n f) := rfl

theorem OnlyCrews.trans {s t u : State} (h : OnlyCrews s t) (k : OnlyCrews t u) : OnlyCrews s u := by
  unfold OnlyCrews at *
  rw [k, h]

/-- Where only crews change, every committed byte stands (R91). -/
theorem OnlyCrews.committed {s t : State} (h : OnlyCrews s t) : SameCommitted s t := by
  intro part a
  rw [h]
  rfl

/-! ### Flocks -/

theorem flock?_num {k : Crew} {n : Nat} {fl : Flock} (h : k.flock? n = some fl) : fl.num = n := by
  have := List.find?_some h
  simpa using this

theorem flock?_updFlock_self {k : Crew} {n : Nat} {fl : Flock} (f : Flock → Flock) (h : k.flock? n = some fl)
    (hf : (f fl).num = fl.num) : (k.updLive fun c => c.updFlock n f).flock? n = some (f fl) :=
  find?_updFirst_self _ f k.live.flocks fl h (by simp [hf, flock?_num h])

theorem flock?_updFlock_other (k : Crew) (n m : Nat) (f : Flock → Flock) (hf : ∀ x, (f x).num = x.num) (h : m ≠ n) :
    (k.updLive fun c => c.updFlock n f).flock? m = k.flock? m := by
  apply find?_updFirst_other
  intro a ha
  have ha : a.num = n := by simpa using ha
  simp [hf, ha, Ne.symm h]

/-- What `find` finds: the crew, the flock and the batch of its reference. -/
theorem find_parts {s : State} {r : BatchRef} {i : Iss} (h : s.find r = some i) :
    i.ref = r ∧ s.crew? r.core r.slot = some i.crew ∧ i.crew.flock? r.flock = some i.flock ∧
      i.flock.batchAt? r.lane = some i.batch := by
  unfold State.find at h
  cases hk : s.crew? r.core r.slot with
  | none => simp [hk] at h
  | some k =>
    simp only [hk] at h
    cases hf : k.flock? r.flock with
    | none => simp [hf] at h
    | some f =>
      simp only [hf] at h
      cases hb : f.batchAt? r.lane with
      | none => simp [hb] at h
      | some b =>
        simp only [hb, Option.some.injEq] at h
        subst h
        exact ⟨rfl, rfl, hf, hb⟩

theorem find_of_parts {s : State} {i : Iss} (hk : s.crew? i.ref.core i.ref.slot = some i.crew)
    (hf : i.crew.flock? i.ref.flock = some i.flock) (hb : i.flock.batchAt? i.ref.lane = some i.batch) :
    s.find i.ref = some i := by
  simp [State.find, hk, hf, hb]

/-- The batch at issue, by its own reference. -/
theorem iss_find {s : State} {i : Iss} (h : s.iss? = some i) : s.find i.ref = some i := by
  unfold State.iss? at h
  cases hc : s.cur with
  | none => simp [hc] at h
  | some r =>
    simp only [hc, Option.bind_some] at h
    rw [(find_parts h).1]; exact h

/-- Changing the batch's flock: the crew and the flock after it. -/
theorem onFlock_crew {s : State} {i : Iss} (f : Flock → Flock) (h : s.find i.ref = some i) :
    (s.onFlock i f).crew? i.ref.core i.ref.slot = some (i.crew.updLive fun c => c.updFlock i.ref.flock f) :=
  crew?_updCrew_self _ (find_parts h).2.1 ⟨rfl, rfl⟩

theorem onFlock_flock {s : State} {i : Iss} (f : Flock → Flock) (h : s.find i.ref = some i)
    (hf : (f i.flock).num = i.flock.num) : (s.onFlock i f).flockAt i.ref = some (f i.flock) := by
  simp only [State.flockAt, onFlock_crew f h, Option.bind_some]
  exact flock?_updFlock_self f (find_parts h).2.2.1 hf

theorem onFlock_others (s : State) (i : Iss) (f : Flock → Flock) : OtherCrews s (s.onFlock i f) i.ref.core i.ref.slot :=
  fun c n h => crew?_updCrew_other s _ _ c n _ (fun _ => ⟨rfl, rfl⟩) h

theorem onFlock_onlyCrews (s : State) (i : Iss) (f : Flock → Flock) : OnlyCrews s (s.onFlock i f) := rfl

theorem OtherCrews.trans {s t u : State} {c n : Nat} (h : OtherCrews s t c n) (k : OtherCrews t u c n) :
    OtherCrews s u c n := fun c' n' hne => (k c' n' hne).trans (h c' n' hne)

theorem updFirst_comp {α : Type} (p : α → Bool) (f g : α → α) (l : List α) (h : ∀ a, p a = true → p (f a) = true) :
    updFirst p g (updFirst p f l) = updFirst p (fun a => g (f a)) l := by
  induction l with
  | nil => rfl
  | cons b r ih =>
    by_cases hb : p b = true
    · simp [updFirst, hb, h b hb]
    · have hb : p b = false := by simpa using hb
      simp [updFirst, hb, ih]

/-- Two changes of the batch's flock are one. -/
theorem onFlock_onFlock (s : State) (i : Iss) (f g : Flock → Flock) (hf : ∀ x, (f x).num = x.num) :
    (s.onFlock i f).onFlock i g = s.onFlock i fun x => g (f x) := by
  simp only [State.onFlock, State.updFlock, State.updCrew]
  rw [updFirst_comp _ _ _ _ (by intro a ha; simpa [Crew.updLive] using ha)]
  congr 2
  funext k
  simp only [Crew.updLive, CrewCore.updFlock]
  rw [updFirst_comp _ _ _ _ (by intro a ha; simpa [hf] using ha)]

/-! ### Fibres -/

theorem fibre?_lane {fl : Flock} {l : Nat} {f : Fibre} (h : fl.fibre? l = some f) : f.lane = l := by
  have := List.find?_some h
  simpa using this

theorem fibre?_updFibre_self {fl : Flock} {l : Nat} {f : Fibre} (g : Fibre → Fibre) (h : fl.fibre? l = some f)
    (hg : (g f).lane = f.lane) : (fl.updFibre l g).fibre? l = some (g f) :=
  find?_updFirst_self _ g fl.fibres f h (by simp [hg, fibre?_lane h])

theorem fibre?_updFibre_other (fl : Flock) (l m : Nat) (g : Fibre → Fibre) (hg : ∀ x, (g x).lane = x.lane) (h : m ≠ l) :
    (fl.updFibre l g).fibre? m = fl.fibre? m := by
  apply find?_updFirst_other
  intro a ha
  have ha : a.lane = l := by simpa using ha
  simp [hg, ha, Ne.symm h]

/-- Changes of several fibres of a flock, each by a value of its own: everything but the fibres stands. -/
theorem foldFibres_frame {α : Type} (vs : List (Nat × α)) (g : α → Fibre → Fibre) (fl : Flock) :
    vs.foldl (fun fl p => fl.updFibre p.1 (g p.2)) fl =
      { fl with fibres := (vs.foldl (fun fl p => fl.updFibre p.1 (g p.2)) fl).fibres } := by
  induction vs generalizing fl with
  | nil => rfl
  | cons p r ih => rw [List.foldl_cons, ih]; rfl

/-- The fibre of a lane after them: changed by the values given for its lane, in order. -/
theorem foldFibres_fibre? {α : Type} (vs : List (Nat × α)) (g : α → Fibre → Fibre) (hg : ∀ a x, (g a x).lane = x.lane)
    (fl : Flock) (l : Nat) (f : Fibre) (h : fl.fibre? l = some f) :
    (vs.foldl (fun fl p => fl.updFibre p.1 (g p.2)) fl).fibre? l =
      some ((vs.filter fun p => p.1 == l).foldl (fun f p => g p.2 f) f) := by
  induction vs generalizing fl f with
  | nil => simpa using h
  | cons p r ih =>
    rw [List.foldl_cons]
    by_cases hp : p.1 = l
    · rw [ih _ (g p.2 f) (by rw [hp]; exact fibre?_updFibre_self _ h (hg _ _))]
      simp [hp]
    · rw [ih _ f (by rw [fibre?_updFibre_other _ _ _ _ (hg _) (Ne.symm hp)]; exact h)]
      simp [hp]

/-- A batch that a change of fibres does not touch. -/
theorem batchAt?_frame {fl : Flock} {fs : List Fibre} (l : Nat) :
    ({ fl with fibres := fs } : Flock).batchAt? l = fl.batchAt? l := rfl

theorem batchAt?_updBatch {fl : Flock} {l : Nat} {b : Batch} (g : Batch → Batch) (h : fl.batchAt? l = some b)
    (hg : (g b).lanes = b.lanes) : (fl.updBatch l g).batchAt? l = some (g b) := by
  refine find?_updFirst_self _ g fl.batches b h ?_
  have := List.find?_some h
  simpa [hg] using this

/-! ### Registers -/

@[simp] theorem reg_markFull (f : Fibre) (n m : Nat) (v : Word) :
    (f.markFull n v).reg m = if m = n then { val := v, full := true, poison := false } else f.reg m := by
  simp only [Fibre.markFull, Fibre.setReg, Fibre.reg]
  rw [spGet_spSet]

theorem markFull_frame (f : Fibre) (n : Nat) (v : Word) : f.markFull n v = { f with regs := (f.markFull n v).regs } := rfl

/-- What `put` writes, and that it writes nothing else. -/
theorem put_frame (f : Fibre) (n : Nat) (w : Bool) (v : Word64) :
    f.put n w v = { f with regs := (f.put n w v).regs } ∧
    (∀ m ∉ regPair n w, (f.put n w v).reg m = f.reg m) ∧
    (f.put n w v).reg n = { val := v.setWidth 32, full := true, poison := false } ∧
    (w = true → (f.put n w v).reg (n + 1) = { val := (v >>> 32).setWidth 32, full := true, poison := false }) := by
  cases w
  · refine ⟨rfl, ?_, ?_, by simp⟩
    · intro m hm
      simp only [regPair, Bool.false_eq_true, if_false, List.mem_singleton] at hm
      simp [Fibre.put, hm]
    · simp [Fibre.put, lo32]
  · refine ⟨rfl, ?_, ?_, ?_⟩
    · intro m hm
      simp only [regPair, if_true, List.mem_cons, List.not_mem_nil, or_false, not_or] at hm
      simp [Fibre.put, Fibre.markFull64, hm]
    · simp [Fibre.put, Fibre.markFull64, lo32]
    · intro _; simp [Fibre.put, Fibre.markFull64, hi32]

@[simp] theorem kreg_setK (f : Flock) (n m : Nat) (v : Word) : (f.setK n v).kreg m = if m = n then v else f.kreg m := by
  simp only [Flock.setK, Flock.kreg]
  rw [spGet_spSet]

/-- What `putK` writes, and that it writes nothing else. -/
theorem putK_frame (f : Flock) (n : Nat) (w : Bool) (v : Word64) :
    f.putK n w v = { f with k := (f.putK n w v).k, kBad := (f.putK n w v).kBad } ∧ (∀ m ∉ regPair n w, (f.putK n w v).kreg m = f.kreg m) ∧
    (f.putK n w v).kreg n = v.setWidth 32 ∧ (w = true → (f.putK n w v).kreg (n + 1) = (v >>> 32).setWidth 32) := by
  cases w
  · refine ⟨rfl, ?_, ?_, by simp⟩
    · intro m hm
      simp only [regPair, Bool.false_eq_true, if_false, List.mem_singleton] at hm
      simp [Flock.putK, hm]
    · simp [Flock.putK, lo32]
  · refine ⟨rfl, ?_, ?_, ?_⟩
    · intro m hm
      simp only [regPair, if_true, List.mem_cons, List.not_mem_nil, or_false, not_or] at hm
      simp [Flock.putK, Flock.setK64, hm]
    · simp [Flock.putK, Flock.setK64, lo32]
    · intro _; simp [Flock.putK, Flock.setK64, hi32]

/-- The registers that `putK` writes are poisoned no more. -/
theorem putK_kBad (f : Flock) (n : Nat) (w : Bool) (v : Word64) :
    (f.putK n w v).kBad = f.kBad.filter fun m => !(regPair n w).contains m := by
  cases w <;> simp only [Flock.putK, Flock.setK64, Flock.setK, regPair, List.filter_filter, if_true, if_false, Bool.false_eq_true] <;>
    exact List.filter_congr fun m _ => by rw [Bool.eq_iff_iff]; simp [and_comm]

end Sys2Proof.Machine
end

