-- ==== Sys2Proof/Laws/Results.lean ====
section
/-! SUPPORT. What the shared results of lane and uniform instructions do: the fibres, flock and batch after `laneResult` and
`uniResult`, and that an event which is enabled gives its state. -/

namespace Sys2Proof.Machine

/-- The move to the next instruction. -/
abbrev Batch.next (b : Batch) (words : Nat) : Batch := { b with pc := pcPlus b.pc words, phase := 0, tag := 0, held := none }

/-- A change of fibres and the move to the next instruction are one change of the batch's flock. -/
theorem onFibres_advance {α : Type} (s : State) (i : Iss) (vs : List (Nat × α)) (g : α → Fibre → Fibre) (n : Nat) :
    (s.onFibres i vs g).advance i n = s.onFlock i fun fl =>
      (vs.foldl (fun fl p => fl.updFibre p.1 (g p.2)) fl).updBatch i.ref.lane fun b => b.next n := by
  simp only [State.onFibres, State.advance, State.onBatch]
  apply onFlock_onFlock
  intro x
  rw [foldFibres_frame]

/-- The flock at issue after such a change. -/
theorem onFibres_advance_flock {α : Type} {s : State} {i : Iss} (vs : List (Nat × α)) (g : α → Fibre → Fibre) (n : Nat)
    (h : s.find i.ref = some i) :
    ((s.onFibres i vs g).advance i n).flockAt i.ref =
      some ((vs.foldl (fun fl p => fl.updFibre p.1 (g p.2)) i.flock).updBatch i.ref.lane fun b => b.next n) := by
  rw [onFibres_advance]
  refine onFlock_flock _ h ?_
  rw [foldFibres_frame]
  rfl

/-- A fibre of the flock at issue after such a change. -/
theorem onFibres_advance_fibre {α : Type} {s : State} {i : Iss} (vs : List (Nat × α)) (g : α → Fibre → Fibre) (n : Nat)
    (hg : ∀ a x, (g a x).lane = x.lane) (h : s.find i.ref = some i) {lane : Nat} {f : Fibre}
    (hf : i.flock.fibre? lane = some f) :
    ((s.onFibres i vs g).advance i n).fibreAt i.ref lane =
      some ((vs.filter fun p => p.1 == lane).foldl (fun f p => g p.2 f) f) := by
  simp only [State.fibreAt, onFibres_advance_flock vs g n h, Option.bind_some]
  exact foldFibres_fibre? vs g hg i.flock lane f hf

/-- The batch at issue after such a change. -/
theorem onFibres_advance_find {α : Type} {s : State} {i : Iss} (vs : List (Nat × α)) (g : α → Fibre → Fibre) (n : Nat)
    (h : s.find i.ref = some i) :
    ∃ j, ((s.onFibres i vs g).advance i n).find i.ref = some j ∧ j.batch = i.batch.next n := by
  obtain ⟨-, hk, hfl, hb⟩ := find_parts h
  have hc := onFlock_crew (s := s) (i := i) (fun fl =>
      (vs.foldl (fun fl p => fl.updFibre p.1 (g p.2)) fl).updBatch i.ref.lane fun b => b.next n) h
  have hf := flock?_updFlock_self (fun fl : Flock =>
      (vs.foldl (fun fl p => fl.updFibre p.1 (g p.2)) fl).updBatch i.ref.lane fun b => b.next n) hfl
      (by rw [foldFibres_frame]; rfl)
  have hbb : ((vs.foldl (fun fl p => fl.updFibre p.1 (g p.2)) i.flock).updBatch i.ref.lane fun b => b.next n).batchAt?
      i.ref.lane = some (i.batch.next n) := by
    refine batchAt?_updBatch _ ?_ rfl
    rw [foldFibres_frame]
    exact hb
  rw [onFibres_advance]
  refine ⟨{ ref := i.ref, crew := _, flock := _, batch := i.batch.next n }, find_of_parts (i := ⟨i.ref, _, _, _⟩) hc hf hbb, rfl⟩

theorem put_lane (f : Fibre) (n : Nat) (w : Bool) (v : Word64) : (f.put n w v).lane = f.lane := by cases w <;> rfl

theorem foldPut_frame (vs : List (Nat × Word64)) (n : Nat) (w : Bool) (f : Fibre) :
    vs.foldl (fun f p => f.put n w p.2) f = { f with regs := (vs.foldl (fun f p => f.put n w p.2) f).regs } ∧
    ∀ m ∉ regPair n w, (vs.foldl (fun f p => f.put n w p.2) f).reg m = f.reg m := by
  induction vs generalizing f with
  | nil => exact ⟨rfl, fun _ _ => rfl⟩
  | cons p r ih =>
    obtain ⟨h1, h2⟩ := ih (f.put n w p.2)
    obtain ⟨p1, p2, -⟩ := put_frame f n w p.2
    refine ⟨?_, ?_⟩
    · rw [List.foldl_cons, h1]
      rw [p1]
    · intro m hm
      rw [List.foldl_cons, h2 m hm, p2 m hm]

theorem laneResult_eq (s : State) (i : Iss) (x : Form) (w : Bool) (vs : List (Nat × Word64)) :
    s.laneResult i x w vs = (s.onFibres i vs fun v f => f.put x.dn w v).advance i x.words := rfl

/-- Everything that `laneResult` does and does not do (R7). -/
theorem laneResult_frame {s : State} {i : Iss} (x : Form) (w : Bool) (val : Fibre → Word64) (h : s.find i.ref = some i) :
    LaneFrame s (s.laneResult i x w ((i.takers x).map fun f => (f.lane, val f))) i x w := by
  obtain ⟨-, hk, hfl, hb⟩ := find_parts h
  have ha := onFibres_advance s i ((i.takers x).map fun f => (f.lane, val f)) (fun v f => f.put x.dn w v) x.words
  refine
    { only := ?_, memory := ?_, others := ?_, moved := ?_, flocks := ?_, uniform := ?_, regs := ?_ }
  · unfold State.laneResult; rw [ha]; rfl
  · apply OnlyCrews.committed; unfold State.laneResult; rw [ha]; rfl
  · unfold State.laneResult; rw [ha]; exact onFlock_others s i _
  · exact onFibres_advance_find _ _ _ h
  · unfold State.laneResult
    rw [ha, onFlock_crew _ h]
    refine ⟨_, rfl, rfl, rfl, ?_⟩
    intro n hn
    refine flock?_updFlock_other _ _ _ _ ?_ hn
    intro y
    have := foldFibres_frame (List.map (fun f => (f.lane, val f)) (i.takers x)) (fun v f => Fibre.put f x.dn w v) y
    rw [this]
    rfl
  · unfold State.laneResult
    rw [onFibres_advance_flock _ _ _ h]
    refine ⟨_, rfl, ?_⟩
    have := foldFibres_frame (List.map (fun f => (f.lane, val f)) (i.takers x)) (fun v f => Fibre.put f x.dn w v) i.flock
    rw [this]
    exact ⟨rfl, updFirst_split _ (fun b : Batch => b.next x.words) _ _ hb⟩
  · intro lane f hf
    unfold State.laneResult
    rw [onFibres_advance_fibre _ _ _ (fun v y => put_lane y _ _ v) h hf]
    obtain ⟨h1, h2⟩ := foldPut_frame ((List.map (fun f => (f.lane, val f)) (i.takers x)).filter fun p => p.1 == lane)
      x.dn w f
    refine ⟨_, rfl, h1, h2, ?_⟩
    intro hne
    have : ((i.takers x).map fun f => (f.lane, val f)).filter (fun p => p.1 == lane) = [] := by
      simp only [List.filter_eq_nil_iff, List.mem_map]
      rintro _ ⟨g, hg, rfl⟩
      simpa using hne g hg
    rw [this]
    rfl

theorem foldPut_const {n : Nat} {w : Bool} {v : Word64} : ∀ (vs : List (Nat × Word64)) (f : Fibre), (∀ p ∈ vs, p.2 = v) →
    vs ≠ [] → ∃ g, vs.foldl (fun f p => f.put n w p.2) f = Fibre.put g n w v
  | [], _, _, h => absurd rfl h
  | [p], f, hv, _ => ⟨f, by simp [hv p (by simp)]⟩
  | p :: q :: r, f, hv, _ => by
    obtain ⟨g, hg⟩ := foldPut_const (q :: r) (f.put n w p.2) (fun a ha => hv a (by simp [ha])) (by simp)
    exact ⟨g, by simpa using hg⟩

/-- The registers that a participant shows after `laneResult`. -/
theorem laneResult_holds {s : State} {i : Iss} {x : Form} (w : Bool) (val : Fibre → Word64) (h : s.find i.ref = some i)
    {f : Fibre} (hf : Sole i x f) :
    let t := s.laneResult i x w ((i.takers x).map fun f => (f.lane, val f))
    t.laneHolds i.ref f.lane x.dn ((val f).setWidth 32) ∧
      (w = true → t.laneHolds i.ref f.lane (x.dn + 1) ((val f >>> 32).setWidth 32)) := by
  generalize ht0 : s.laneResult i x w ((i.takers x).map fun f => (f.lane, val f)) = t
  have ht : t.fibreAt i.ref f.lane = some ((((i.takers x).map fun f => (f.lane, val f)).filter
      fun p => p.1 == f.lane).foldl (fun f p => f.put x.dn w p.2) f) :=
by
    rw [← ht0, laneResult_eq]
    exact onFibres_advance_fibre _ (fun v f => Fibre.put f x.dn w v) x.words (fun v y => put_lane y _ _ v) h hf.home
  clear ht0
  obtain ⟨g, hg⟩ := foldPut_const (n := x.dn) (w := w) (v := val f)
    (((i.takers x).map fun f => (f.lane, val f)).filter fun p => p.1 == f.lane) f (by
      simp only [List.mem_filter, List.mem_map]
      rintro p ⟨⟨g, hg, rfl⟩, hl⟩
      rw [hf.alone g hg (by simpa using hl)]) (by
      intro h0
      have : (f.lane, val f) ∈ ((i.takers x).map fun f => (f.lane, val f)).filter fun p => p.1 == f.lane := by
        simp only [List.mem_filter, List.mem_map]
        exact ⟨⟨f, hf.takes, rfl⟩, by simp⟩
      rw [h0] at this
      simp at this)
  rw [hg] at ht
  obtain ⟨-, -, p3, p4⟩ := put_frame g x.dn w (val f)
  exact ⟨⟨_, ht, p3⟩, fun hw => ⟨_, ht, p4 hw⟩⟩

/-- Everything that `uniResult` does and does not do (R7). -/
theorem uniResult_frame {s : State} {i : Iss} (x : Form) (w : Bool) (v : Word64) (h : s.find i.ref = some i) :
    UniFrame s (s.uniResult i x w v) i x w v := by
  obtain ⟨-, hk, hfl, hb⟩ := find_parts h
  obtain ⟨p1, p2, p3, p4⟩ := putK_frame i.flock x.dn w v
  have hn : ∀ y : Flock, ((y.putK x.dn w v).updBatch i.ref.lane fun b => b.next x.words).num = y.num := by
    intro y; cases w <;> rfl
  have ht : s.uniResult i x w v = s.onFlock i fun fl => (fl.putK x.dn w v).updBatch i.ref.lane fun b => b.next x.words := by
    show (s.onFlock i _).advance i x.words = _
    exact onFlock_onFlock s i _ _ fun y => by cases w <;> rfl
  have hbs : (i.flock.putK x.dn w v).batches = i.flock.batches := by rw [p1]
  have hc := onFlock_crew (s := s) (i := i) (fun fl => (fl.putK x.dn w v).updBatch i.ref.lane fun b => b.next x.words) h
  rw [ht]
  refine
    { only := rfl, memory := fun _ _ => rfl, others := onFlock_others s i _, moved := ?_, flocks := ?_, uniform := ?_ }
  · have hf := flock?_updFlock_self (fun fl : Flock => (fl.putK x.dn w v).updBatch i.ref.lane fun b => b.next x.words)
      hfl (hn _)
    have hbb : ((i.flock.putK x.dn w v).updBatch i.ref.lane fun b => b.next x.words).batchAt? i.ref.lane =
        some (i.batch.next x.words) := by
      refine batchAt?_updBatch _ ?_ rfl
      simpa only [Flock.batchAt?, hbs] using hb
    exact ⟨{ ref := i.ref, crew := _, flock := _, batch := i.batch.next x.words },
      find_of_parts (i := ⟨i.ref, _, _, _⟩) hc hf hbb, rfl⟩
  · exact ⟨_, hc, rfl, rfl, fun n hne => flock?_updFlock_other _ _ _ _ hn hne⟩
  · rw [onFlock_flock _ h (hn _)]
    refine ⟨_, rfl, ?_, ?_, p2, p3, p4, fun n => ?_⟩
    · cases w <;> rfl
    · have := updFirst_split _ (fun b : Batch => b.next x.words) _ _ hb
      simpa only [BatchMoved, Flock.updBatch, hbs] using this
    · show n ∈ (i.flock.putK x.dn w v).kBad ↔ _
      simp [putK_kBad]

/-! ### Events -/

/-- An event that can happen gives its state. -/
theorem runEvent_ok {s t : State} {b : Option State} (hd : s.dead = false) (h : b = some t) : runEvent s b = .next t := by
  simp only [runEvent, hd, h]; rfl

/-- One that cannot leaves the mark that nothing happened. -/
theorem runEvent_none {s : State} {b : Option State} (hd : s.dead = false) (h : b = none) :
    runEvent s b = .next { s with stall := true } := by
  simp only [runEvent, hd, h]; rfl

end Sys2Proof.Machine
end

