-- ==== Sys2Proof/Laws/Lane.lean ====
section
/-! SUPPORT. When an instruction completes: the checks of sources and destinations that succeed, and what the shared frames
`laneSet`, `uniSet`, `laneWrite` and `uniWrite` then give. -/

namespace Sys2Proof.Machine

/-! ### Checks that succeed -/

theorem readSrc_ok {f : Fibre} {n : Nat} (m : Bool) (h : f.readable n = true) : readSrc f n m = .ok (f.reg n).val := by
  simp only [Fibre.readable, Bool.and_eq_true, decide_eq_true_eq, Bool.not_eq_true'] at h
  obtain ⟨⟨hb, hf⟩, hp⟩ := h
  simp only [readSrc, Nat.not_le.mpr hb, hp, hf, if_false, if_true, Bool.false_eq_true]

theorem destOk_ok {f : Fibre} {n : Nat} (h : f.writable n = true) : destOk f n = .ok () := by
  simp only [Fibre.writable, Bool.and_eq_true, decide_eq_true_eq] at h
  simp only [destOk, Nat.not_le.mpr h.1, h.2, if_false, if_true]

theorem Chk.ok_and {α β : Type} (a : α) (b : β) : (Chk.ok a).and (Chk.ok b) = .ok (a, b) := rfl
theorem Chk.ok_map {α β : Type} (f : α → β) (a : α) : (Chk.ok a).map f = .ok (f a) := rfl
theorem Chk.ok_bind {α β : Type} (a : α) (f : α → Chk β) : (Chk.ok a).bind f = f a := by
  simp [Chk.bind, Chk.ok]
theorem Chk.guard_ok {b : Bool} (c : Cause) (a : Nat) (h : b = true) : Chk.guard b c a = .ok () := by simp [Chk.guard, h]

theorem readPair_ok {f : Fibre} {n : Nat} (m : Bool) (h : f.readable n = true) (h1 : f.readable (n + 1) = true) :
    readPair f n m = .ok (join64 (f.reg n).val (f.reg (n + 1)).val) := by
  rw [readPair, readSrc_ok m h, readSrc_ok m h1]; rfl

theorem readWide_ok {f : Fibre} {n : Nat} (w m : Bool) (h : ∀ k ∈ regPair n w, f.readable k = true) :
    readWide f n w m = .ok (f.value n w) := by
  cases w with
  | false => rw [readWide, if_neg (by simp), readSrc_ok m (h n (by simp [regPair]))]; rfl
  | true => rw [readWide, if_pos rfl, readPair_ok m (h n (by simp [regPair])) (h (n + 1) (by simp [regPair]))]; rfl

theorem destWide_ok {f : Fibre} {n : Nat} {w : Bool} (h : ∀ k ∈ regPair n w, f.writable k = true) :
    destWide f n w = .ok () := by
  cases w with
  | false => rw [destWide, if_neg (by simp), destOk_ok (h n (by simp [regPair]))]
  | true =>
    rw [destWide, if_pos rfl, destOk_ok (h n (by simp [regPair])), destOk_ok (h (n + 1) (by simp [regPair]))]; rfl

/-- A step whose checks all succeed gives every lane's value. -/
theorem checkAll_ok {α : Type} (i : Iss) (fs : List Fibre) {f : Fibre → Chk α} (v : Fibre → α)
    (h : ∀ x ∈ fs, f x = .ok (v x)) : checkAll i fs f = .ok (fs.map fun x => (x.lane, v x)) := by
  have e : fs.map (fun x => (x.lane, f x)) = fs.map fun x => (x.lane, Chk.ok (v x)) :=
    List.map_congr_left fun x hx => by rw [h x hx]
  have e1 : trapsOf (fs.map fun x => (x.lane, Chk.ok (v x))) = [] := by
    simp [trapsOf, Chk.ok, List.flatMap_map]
  simp only [checkAll, gather, e, e1]
  have e2 : (fs.map fun x => (x.lane, Chk.ok (v x))).any (fun p => p.2.val.isNone) = false := by
    simp [List.any_map, Chk.ok]
  simp only [lowestCause, minBy, Option.map_none, e2, Bool.false_eq_true, if_false]
  congr 1
  rw [List.filterMap_map]
  simp [Chk.ok]

theorem checkOne_ok {α : Type} (i : Iss) {c : Chk α} {v : α} (h : c = .ok v) : checkOne i c = .ok v := by
  subst h; rfl

/-! ### The frames in which meanings run -/

theorem runBatch_eq {s : State} {i : Iss} (h : Issues s i) (body : Iss → Res State) :
    runBatch s body = match body i with
      | .ok t => .next t
      | .error e => .next (s.stopped i e) := by
  simp only [runBatch, h.powered, h.found]; rfl

/-- An instruction whose guard is false in every active fibre only moves on (R54, R58). -/
theorem laneSet_skips {s : State} {i : Iss} {x : Form} (h : Issues s i) (hp : i.takers x = []) (anyRole : Bool)
    (body : Iss → List Fibre → Res State) : laneSet s x anyRole body = .next (s.advance i x.words) := by
  rw [laneSet, runBatch_eq h]; simp [hp]

/-- Outside its role it traps ROLE_VIOLATION (R42). -/
theorem laneSet_role {s : State} {i : Iss} {x : Form} (h : Issues s i) (hp : i.takers x ≠ []) (hr : i.flock.role ≠ .vector)
    (body : Iss → List Fibre → Res State) : laneSet s x false body =
      .next (s.raise i.ref.core i.ref.slot (i.trap .roleViolation (maskOf (i.takers x)) 0)) := by
  rw [laneSet, runBatch_eq h]; simp [hp, hr, State.stopped]

theorem laneSet_eq {s : State} {i : Iss} {x : Form} (h : LaneRuns s i x) (anyRole : Bool)
    (body : Iss → List Fibre → Res State) : laneSet s x anyRole body = match body i (i.takers x) with
      | .ok t => .next t
      | .error e => .next (s.stopped i e) := by
  rw [laneSet, runBatch_eq h.toIssues]
  simp [h.some_taker, h.role]

theorem laneSet_ok {s t : State} {i : Iss} {x : Form} (h : LaneRuns s i x) {anyRole : Bool}
    {body : Iss → List Fibre → Res State} (hb : body i (i.takers x) = .ok t) : laneSet s x anyRole body = .next t := by
  rw [laneSet_eq h, hb]

theorem uniSet_skips {s : State} {i : Iss} {x : Form} (h : Issues s i) (hp : i.pipeHeld = false) (h0 : i.batch.phase = 0)
    (hg : guardUni x i.flock = false) (roles : Roles) (body : Iss → Res State) :
    uniSet s x roles body = .next (s.advance i x.words) := by
  rw [uniSet, runBatch_eq h]; simp [hp, h0, hg]

theorem uniSet_role {s : State} {i : Iss} {x : Form} (h : Issues s i) (hp : i.pipeHeld = false) (hg : guardUni x i.flock = true) {roles : Roles}
    (hr : roles.allow i.flock.role = false) (body : Iss → Res State) :
    uniSet s x roles body =
      .next (s.raise i.ref.core i.ref.slot (i.trap .roleViolation (maskOf i.active) 0)) := by
  rw [uniSet, runBatch_eq h]; simp [hp, hg, hr, State.stopped]

theorem uniSet_eq {s : State} {i : Iss} {x : Form} {roles : Roles} (h : UniRuns s i x roles) (body : Iss → Res State) :
    uniSet s x roles body = match body i with
      | .ok t => .next t
      | .error e => .next (s.stopped i e) := by
  rw [uniSet, runBatch_eq h.toIssues]
  have hg : ¬(i.batch.phase = 0 ∧ guardUni x i.flock = false) := by
    rintro ⟨h0, h1⟩; rw [h.guard h0] at h1; exact absurd h1 (by simp)
  simp [h.pipe, hg, h.role]

theorem uniSet_ok {s t : State} {i : Iss} {x : Form} {roles : Roles} (h : UniRuns s i x roles) {body : Iss → Res State}
    (hb : body i = .ok t) : uniSet s x roles body = .next t := by
  rw [uniSet_eq h, hb]

theorem kFree_ok {i : Iss} {rs : List (Nat × Bool)} (h : i.free rs = true) : kFree i rs = .ok () := by
  simp only [Iss.free, List.all_eq_true, Bool.not_eq_true'] at h
  have : (rs.any fun p => i.kBusy p.1 p.2) = false := by simpa [List.any_eq_false] using h
  rw [kFree, this]; rfl

/-! ### Instructions with one result -/

theorem laneWrite_ok {s : State} {i : Iss} {x : Form} (h : LaneRuns s i x) {w : Bool} {rd : Iss → Fibre → Chk Word64}
    (v : Fibre → Word64) (hv : ∀ f ∈ i.takers x, rd i f = .ok (v f))
    (hd : ∀ f ∈ i.takers x, ∀ n ∈ regPair x.dn w, f.writable n = true) :
    laneWrite s x w rd = .next (s.laneResult i x w ((i.takers x).map fun f => (f.lane, v f))) := by
  apply laneSet_ok h
  rw [checkAll_ok i _ (fun f => (v f, ())) (fun f hf => by rw [hv f hf, destWide_ok (hd f hf)]; rfl)]
  simp only [List.map_map]
  rfl

theorem lanePred_ok {s : State} {i : Iss} {x : Form} {e : Nat} {rd : Fibre → Chk Bool} (h : LaneRuns s i x) (v : Fibre → Bool)
    (hr : ∀ f ∈ i.takers x, rd f = .ok (v f)) :
    lanePred s x e rd = .next (s.predResult i x e ((i.takers x).map fun f => (f.lane, v f))) := by
  apply laneSet_ok h
  rw [checkAll_ok i _ v hr]

theorem uniWrite_ok {s : State} {i : Iss} {x : Form} {roles : Roles} (h : UniRuns s i x roles) {w : Bool}
    {rs : List (Nat × Bool)} (op : Iss → Word64) (hf : i.free ((x.dn, w) :: rs) = true) :
    uniWrite s x roles w rs op = .next (s.uniResult i x w (op i)) := by
  apply uniSet_ok h
  rw [kFree_ok hf]

theorem srcA_ok {x : Form} {f : Fibre} (h : f.readable x.an = true) : srcA x f = .ok (f.reg x.an).val := readSrc_ok _ h
theorem srcC_ok {x : Form} {f : Fibre} (h : f.readable x.cn = true) : srcC x f = .ok (f.reg x.cn).val := readSrc_ok _ h
theorem srcB_ok {x : Form} {f : Fibre} (imm : Word) (h : x.hasImm = false → f.readable x.bn = true) :
    srcB x imm f = .ok (if x.hasImm then imm else (f.reg x.bn).val) := by
  cases hi : x.hasImm with
  | true => simp [srcB, hi]
  | false => simp [srcB, hi, readSrc_ok _ (h hi)]

theorem lane1_ok {s : State} {i : Iss} {x : Form} (h : LaneRuns s i x) (op : Iss → Fibre → Word → Word)
    (hr : ∀ f ∈ i.takers x, f.readable x.an = true) (hw : ∀ f ∈ i.takers x, f.writable x.dn = true) :
    lane1 s x op = .next (s.laneResult i x false ((i.takers x).map fun f =>
      (f.lane, (op i f (f.reg x.an).val).setWidth 64))) :=
  laneWrite_ok h _ (fun f hf => by rw [srcA_ok (hr f hf)]; rfl) (fun f hf n hn => by
    simp only [regPair, Bool.false_eq_true, if_false, List.mem_singleton] at hn
    rw [hn]; exact hw f hf)

theorem lane2_ok {s : State} {i : Iss} {x : Form} (h : LaneRuns s i x) (imm : Word) (op : Iss → Fibre → Word → Word → Word)
    (hr : ∀ f ∈ i.takers x, ∀ n ∈ if x.hasImm then [x.an] else [x.an, x.bn], f.readable n = true)
    (hw : ∀ f ∈ i.takers x, f.writable x.dn = true) :
    lane2 s x imm op = .next (s.laneResult i x false ((i.takers x).map fun f =>
      (f.lane, (op i f (f.reg x.an).val (if x.hasImm then imm else (f.reg x.bn).val)).setWidth 64))) :=
  laneWrite_ok h _ (fun f hf => by
    rw [srcA_ok (hr f hf _ (by cases x.hasImm <;> simp)), srcB_ok imm (fun hi => hr f hf _ (by simp [hi]))]; rfl)
    (fun f hf n hn => by
      simp only [regPair, Bool.false_eq_true, if_false, List.mem_singleton] at hn
      rw [hn]; exact hw f hf)

theorem lane3_ok {s : State} {i : Iss} {x : Form} (h : LaneRuns s i x) (imm : Word)
    (op : Iss → Fibre → Word → Word → Word → Word)
    (hr : ∀ f ∈ i.takers x, ∀ n ∈ if x.hasImm then [x.an, x.cn] else [x.an, x.bn, x.cn], f.readable n = true)
    (hw : ∀ f ∈ i.takers x, f.writable x.dn = true) :
    lane3 s x imm op = .next (s.laneResult i x false ((i.takers x).map fun f =>
      (f.lane, (op i f (f.reg x.an).val (if x.hasImm then imm else (f.reg x.bn).val) (f.reg x.cn).val).setWidth 64))) :=
  laneWrite_ok h _ (fun f hf => by
    rw [srcA_ok (hr f hf _ (by cases x.hasImm <;> simp)), srcB_ok imm (fun hi => hr f hf _ (by simp [hi])),
      srcC_ok (hr f hf _ (by cases x.hasImm <;> simp))]; rfl)
    (fun f hf n hn => by
      simp only [regPair, Bool.false_eq_true, if_false, List.mem_singleton] at hn
      rw [hn]; exact hw f hf)

end Sys2Proof.Machine
end

