-- ==== Sys2Proof/Laws/State.lean ====
section
/-! SUPPORT. What the named updates of the state leave: one lemma per update and field, so that no proof unfolds an update. -/

namespace Sys2Proof.Machine

/-! ### updCtx changes `ctxs` alone -/

section
variable (s : State) (part : Nat) (f : Context → Context)
@[simp] theorem State.updCtx_clock : (s.updCtx part f).clock = s.clock := rfl
@[simp] theorem State.updCtx_sched : (s.updCtx part f).sched = s.sched := rfl
@[simp] theorem State.updCtx_fresh : (s.updCtx part f).fresh = s.fresh := rfl
@[simp] theorem State.updCtx_cur : (s.updCtx part f).cur = s.cur := rfl
@[simp] theorem State.updCtx_stall : (s.updCtx part f).stall = s.stall := rfl
@[simp] theorem State.updCtx_dead : (s.updCtx part f).dead = s.dead := rfl
@[simp] theorem State.updCtx_alarm : (s.updCtx part f).alarm = s.alarm := rfl
@[simp] theorem State.updCtx_alarmAt : (s.updCtx part f).alarmAt = s.alarmAt := rfl
@[simp] theorem State.updCtx_pkg : (s.updCtx part f).pkg = s.pkg := rfl
@[simp] theorem State.updCtx_npkg : (s.updCtx part f).npkg = s.npkg := rfl
@[simp] theorem State.updCtx_fence : (s.updCtx part f).fence = s.fence := rfl
@[simp] theorem State.updCtx_mem : (s.updCtx part f).mem = s.mem := rfl
@[simp] theorem State.updCtx_home : (s.updCtx part f).home = s.home := rfl
@[simp] theorem State.updCtx_vers : (s.updCtx part f).vers = s.vers := rfl
@[simp] theorem State.updCtx_l1 : (s.updCtx part f).l1 = s.l1 := rfl
@[simp] theorem State.updCtx_icache : (s.updCtx part f).icache = s.icache := rfl
@[simp] theorem State.updCtx_tlb : (s.updCtx part f).tlb = s.tlb := rfl
@[simp] theorem State.updCtx_sb : (s.updCtx part f).sb = s.sb := rfl
@[simp] theorem State.updCtx_rq : (s.updCtx part f).rq = s.rq := rfl
@[simp] theorem State.updCtx_engines : (s.updCtx part f).engines = s.engines := rfl
@[simp] theorem State.updCtx_poison : (s.updCtx part f).poison = s.poison := rfl
@[simp] theorem State.updCtx_podMem : (s.updCtx part f).podMem = s.podMem := rfl
@[simp] theorem State.updCtx_hw : (s.updCtx part f).hw = s.hw := rfl
@[simp] theorem State.updCtx_hwBad : (s.updCtx part f).hwBad = s.hwBad := rfl
@[simp] theorem State.updCtx_arrive : (s.updCtx part f).arrive = s.arrive := rfl
@[simp] theorem State.updCtx_reqs : (s.updCtx part f).reqs = s.reqs := rfl
@[simp] theorem State.updCtx_wbs : (s.updCtx part f).wbs = s.wbs := rfl
@[simp] theorem State.updCtx_replies : (s.updCtx part f).replies = s.replies := rfl
@[simp] theorem State.updCtx_podOut : (s.updCtx part f).podOut = s.podOut := rfl
@[simp] theorem State.updCtx_linkWait : (s.updCtx part f).linkWait = s.linkWait := rfl
@[simp] theorem State.updCtx_nextTag : (s.updCtx part f).nextTag = s.nextTag := rfl
@[simp] theorem State.updCtx_crews : (s.updCtx part f).crews = s.crews := rfl
@[simp] theorem State.updCtx_units : (s.updCtx part f).units = s.units := rfl
@[simp] theorem State.updCtx_ways : (s.updCtx part f).ways = s.ways := rfl
@[simp] theorem State.updCtx_slWays : (s.updCtx part f).slWays = s.slWays := rfl
@[simp] theorem State.updCtx_wayAt : (s.updCtx part f).wayAt = s.wayAt := rfl
@[simp] theorem State.updCtx_shTags : (s.updCtx part f).shTags = s.shTags := rfl
@[simp] theorem State.updCtx_shHits : (s.updCtx part f).shHits = s.shHits := rfl
@[simp] theorem State.updCtx_fwd : (s.updCtx part f).fwd = s.fwd := rfl
@[simp] theorem State.updCtx_tokens : (s.updCtx part f).tokens = s.tokens := rfl
@[simp] theorem State.updCtx_holds : (s.updCtx part f).holds = s.holds := rfl
@[simp] theorem State.updCtx_sels : (s.updCtx part f).sels = s.sels := rfl
@[simp] theorem State.updCtx_fns : (s.updCtx part f).fns = s.fns := rfl
@[simp] theorem State.updCtx_policy : (s.updCtx part f).policy = s.policy := rfl
@[simp] theorem State.updCtx_hens : (s.updCtx part f).hens = s.hens := rfl
@[simp] theorem State.updCtx_rows : (s.updCtx part f).rows = s.rows := rfl
@[simp] theorem State.updCtx_rowAt : (s.updCtx part f).rowAt = s.rowAt := rfl
@[simp] theorem State.updCtx_rowWindow : (s.updCtx part f).rowWindow = s.rowWindow := rfl
@[simp] theorem State.updCtx_thermal : (s.updCtx part f).thermal = s.thermal := rfl
@[simp] theorem State.updCtx_hitWindow : (s.updCtx part f).hitWindow = s.hitWindow := rfl
@[simp] theorem State.updCtx_hits : (s.updCtx part f).hits = s.hits := rfl
@[simp] theorem State.updCtx_clean : (s.updCtx part f).clean = s.clean := rfl
@[simp] theorem State.updCtx_errlog : (s.updCtx part f).errlog = s.errlog := rfl
@[simp] theorem State.updCtx_down : (s.updCtx part f).down = s.down := rfl
@[simp] theorem State.updCtx_lost : (s.updCtx part f).lost = s.lost := rfl
@[simp] theorem State.updCtx_pools : (s.updCtx part f).pools = s.pools := rfl
@[simp] theorem State.updCtx_lodged : (s.updCtx part f).lodged = s.lodged := rfl
@[simp] theorem State.updCtx_posted : (s.updCtx part f).posted = s.posted := rfl
@[simp] theorem State.updCtx_ahead : (s.updCtx part f).ahead = s.ahead := rfl
@[simp] theorem State.updCtx_reports : (s.updCtx part f).reports = s.reports := rfl
@[simp] theorem State.updCtx_notices : (s.updCtx part f).notices = s.notices := rfl
@[simp] theorem State.updCtx_haltNotes : (s.updCtx part f).haltNotes = s.haltNotes := rfl
end

/-! ### setPin changes `ctxs` alone -/

section
variable (s : State) (part n : Nat) (p : PinEntry)
@[simp] theorem State.setPin_clock : (s.setPin part n p).clock = s.clock := rfl
@[simp] theorem State.setPin_sched : (s.setPin part n p).sched = s.sched := rfl
@[simp] theorem State.setPin_fresh : (s.setPin part n p).fresh = s.fresh := rfl
@[simp] theorem State.setPin_cur : (s.setPin part n p).cur = s.cur := rfl
@[simp] theorem State.setPin_stall : (s.setPin part n p).stall = s.stall := rfl
@[simp] theorem State.setPin_dead : (s.setPin part n p).dead = s.dead := rfl
@[simp] theorem State.setPin_alarm : (s.setPin part n p).alarm = s.alarm := rfl
@[simp] theorem State.setPin_alarmAt : (s.setPin part n p).alarmAt = s.alarmAt := rfl
@[simp] theorem State.setPin_pkg : (s.setPin part n p).pkg = s.pkg := rfl
@[simp] theorem State.setPin_npkg : (s.setPin part n p).npkg = s.npkg := rfl
@[simp] theorem State.setPin_fence : (s.setPin part n p).fence = s.fence := rfl
@[simp] theorem State.setPin_mem : (s.setPin part n p).mem = s.mem := rfl
@[simp] theorem State.setPin_home : (s.setPin part n p).home = s.home := rfl
@[simp] theorem State.setPin_vers : (s.setPin part n p).vers = s.vers := rfl
@[simp] theorem State.setPin_l1 : (s.setPin part n p).l1 = s.l1 := rfl
@[simp] theorem State.setPin_icache : (s.setPin part n p).icache = s.icache := rfl
@[simp] theorem State.setPin_tlb : (s.setPin part n p).tlb = s.tlb := rfl
@[simp] theorem State.setPin_sb : (s.setPin part n p).sb = s.sb := rfl
@[simp] theorem State.setPin_rq : (s.setPin part n p).rq = s.rq := rfl
@[simp] theorem State.setPin_engines : (s.setPin part n p).engines = s.engines := rfl
@[simp] theorem State.setPin_poison : (s.setPin part n p).poison = s.poison := rfl
@[simp] theorem State.setPin_podMem : (s.setPin part n p).podMem = s.podMem := rfl
@[simp] theorem State.setPin_hw : (s.setPin part n p).hw = s.hw := rfl
@[simp] theorem State.setPin_hwBad : (s.setPin part n p).hwBad = s.hwBad := rfl
@[simp] theorem State.setPin_arrive : (s.setPin part n p).arrive = s.arrive := rfl
@[simp] theorem State.setPin_reqs : (s.setPin part n p).reqs = s.reqs := rfl
@[simp] theorem State.setPin_wbs : (s.setPin part n p).wbs = s.wbs := rfl
@[simp] theorem State.setPin_replies : (s.setPin part n p).replies = s.replies := rfl
@[simp] theorem State.setPin_podOut : (s.setPin part n p).podOut = s.podOut := rfl
@[simp] theorem State.setPin_linkWait : (s.setPin part n p).linkWait = s.linkWait := rfl
@[simp] theorem State.setPin_nextTag : (s.setPin part n p).nextTag = s.nextTag := rfl
@[simp] theorem State.setPin_crews : (s.setPin part n p).crews = s.crews := rfl
@[simp] theorem State.setPin_units : (s.setPin part n p).units = s.units := rfl
@[simp] theorem State.setPin_ways : (s.setPin part n p).ways = s.ways := rfl
@[simp] theorem State.setPin_slWays : (s.setPin part n p).slWays = s.slWays := rfl
@[simp] theorem State.setPin_wayAt : (s.setPin part n p).wayAt = s.wayAt := rfl
@[simp] theorem State.setPin_shTags : (s.setPin part n p).shTags = s.shTags := rfl
@[simp] theorem State.setPin_shHits : (s.setPin part n p).shHits = s.shHits := rfl
@[simp] theorem State.setPin_fwd : (s.setPin part n p).fwd = s.fwd := rfl
@[simp] theorem State.setPin_tokens : (s.setPin part n p).tokens = s.tokens := rfl
@[simp] theorem State.setPin_holds : (s.setPin part n p).holds = s.holds := rfl
@[simp] theorem State.setPin_sels : (s.setPin part n p).sels = s.sels := rfl
@[simp] theorem State.setPin_fns : (s.setPin part n p).fns = s.fns := rfl
@[simp] theorem State.setPin_policy : (s.setPin part n p).policy = s.policy := rfl
@[simp] theorem State.setPin_hens : (s.setPin part n p).hens = s.hens := rfl
@[simp] theorem State.setPin_rows : (s.setPin part n p).rows = s.rows := rfl
@[simp] theorem State.setPin_rowAt : (s.setPin part n p).rowAt = s.rowAt := rfl
@[simp] theorem State.setPin_rowWindow : (s.setPin part n p).rowWindow = s.rowWindow := rfl
@[simp] theorem State.setPin_thermal : (s.setPin part n p).thermal = s.thermal := rfl
@[simp] theorem State.setPin_hitWindow : (s.setPin part n p).hitWindow = s.hitWindow := rfl
@[simp] theorem State.setPin_hits : (s.setPin part n p).hits = s.hits := rfl
@[simp] theorem State.setPin_clean : (s.setPin part n p).clean = s.clean := rfl
@[simp] theorem State.setPin_errlog : (s.setPin part n p).errlog = s.errlog := rfl
@[simp] theorem State.setPin_down : (s.setPin part n p).down = s.down := rfl
@[simp] theorem State.setPin_lost : (s.setPin part n p).lost = s.lost := rfl
@[simp] theorem State.setPin_pools : (s.setPin part n p).pools = s.pools := rfl
@[simp] theorem State.setPin_lodged : (s.setPin part n p).lodged = s.lodged := rfl
@[simp] theorem State.setPin_posted : (s.setPin part n p).posted = s.posted := rfl
@[simp] theorem State.setPin_ahead : (s.setPin part n p).ahead = s.ahead := rfl
@[simp] theorem State.setPin_reports : (s.setPin part n p).reports = s.reports := rfl
@[simp] theorem State.setPin_notices : (s.setPin part n p).notices = s.notices := rfl
@[simp] theorem State.setPin_haltNotes : (s.setPin part n p).haltNotes = s.haltNotes := rfl
end

/-! ### putReg changes `ctxs` alone -/

section
variable (s : State) (part sn v : Nat)
@[simp] theorem State.putReg_clock : (s.putReg part sn v).clock = s.clock := rfl
@[simp] theorem State.putReg_sched : (s.putReg part sn v).sched = s.sched := rfl
@[simp] theorem State.putReg_fresh : (s.putReg part sn v).fresh = s.fresh := rfl
@[simp] theorem State.putReg_cur : (s.putReg part sn v).cur = s.cur := rfl
@[simp] theorem State.putReg_stall : (s.putReg part sn v).stall = s.stall := rfl
@[simp] theorem State.putReg_dead : (s.putReg part sn v).dead = s.dead := rfl
@[simp] theorem State.putReg_alarm : (s.putReg part sn v).alarm = s.alarm := rfl
@[simp] theorem State.putReg_alarmAt : (s.putReg part sn v).alarmAt = s.alarmAt := rfl
@[simp] theorem State.putReg_pkg : (s.putReg part sn v).pkg = s.pkg := rfl
@[simp] theorem State.putReg_npkg : (s.putReg part sn v).npkg = s.npkg := rfl
@[simp] theorem State.putReg_fence : (s.putReg part sn v).fence = s.fence := rfl
@[simp] theorem State.putReg_mem : (s.putReg part sn v).mem = s.mem := rfl
@[simp] theorem State.putReg_home : (s.putReg part sn v).home = s.home := rfl
@[simp] theorem State.putReg_vers : (s.putReg part sn v).vers = s.vers := rfl
@[simp] theorem State.putReg_l1 : (s.putReg part sn v).l1 = s.l1 := rfl
@[simp] theorem State.putReg_icache : (s.putReg part sn v).icache = s.icache := rfl
@[simp] theorem State.putReg_tlb : (s.putReg part sn v).tlb = s.tlb := rfl
@[simp] theorem State.putReg_sb : (s.putReg part sn v).sb = s.sb := rfl
@[simp] theorem State.putReg_rq : (s.putReg part sn v).rq = s.rq := rfl
@[simp] theorem State.putReg_engines : (s.putReg part sn v).engines = s.engines := rfl
@[simp] theorem State.putReg_poison : (s.putReg part sn v).poison = s.poison := rfl
@[simp] theorem State.putReg_podMem : (s.putReg part sn v).podMem = s.podMem := rfl
@[simp] theorem State.putReg_hw : (s.putReg part sn v).hw = s.hw := rfl
@[simp] theorem State.putReg_hwBad : (s.putReg part sn v).hwBad = s.hwBad := rfl
@[simp] theorem State.putReg_arrive : (s.putReg part sn v).arrive = s.arrive := rfl
@[simp] theorem State.putReg_reqs : (s.putReg part sn v).reqs = s.reqs := rfl
@[simp] theorem State.putReg_wbs : (s.putReg part sn v).wbs = s.wbs := rfl
@[simp] theorem State.putReg_replies : (s.putReg part sn v).replies = s.replies := rfl
@[simp] theorem State.putReg_podOut : (s.putReg part sn v).podOut = s.podOut := rfl
@[simp] theorem State.putReg_linkWait : (s.putReg part sn v).linkWait = s.linkWait := rfl
@[simp] theorem State.putReg_nextTag : (s.putReg part sn v).nextTag = s.nextTag := rfl
@[simp] theorem State.putReg_crews : (s.putReg part sn v).crews = s.crews := rfl
@[simp] theorem State.putReg_units : (s.putReg part sn v).units = s.units := rfl
@[simp] theorem State.putReg_ways : (s.putReg part sn v).ways = s.ways := rfl
@[simp] theorem State.putReg_slWays : (s.putReg part sn v).slWays = s.slWays := rfl
@[simp] theorem State.putReg_wayAt : (s.putReg part sn v).wayAt = s.wayAt := rfl
@[simp] theorem State.putReg_shTags : (s.putReg part sn v).shTags = s.shTags := rfl
@[simp] theorem State.putReg_shHits : (s.putReg part sn v).shHits = s.shHits := rfl
@[simp] theorem State.putReg_fwd : (s.putReg part sn v).fwd = s.fwd := rfl
@[simp] theorem State.putReg_tokens : (s.putReg part sn v).tokens = s.tokens := rfl
@[simp] theorem State.putReg_holds : (s.putReg part sn v).holds = s.holds := rfl
@[simp] theorem State.putReg_sels : (s.putReg part sn v).sels = s.sels := rfl
@[simp] theorem State.putReg_fns : (s.putReg part sn v).fns = s.fns := rfl
@[simp] theorem State.putReg_policy : (s.putReg part sn v).policy = s.policy := rfl
@[simp] theorem State.putReg_hens : (s.putReg part sn v).hens = s.hens := rfl
@[simp] theorem State.putReg_rows : (s.putReg part sn v).rows = s.rows := rfl
@[simp] theorem State.putReg_rowAt : (s.putReg part sn v).rowAt = s.rowAt := rfl
@[simp] theorem State.putReg_rowWindow : (s.putReg part sn v).rowWindow = s.rowWindow := rfl
@[simp] theorem State.putReg_thermal : (s.putReg part sn v).thermal = s.thermal := rfl
@[simp] theorem State.putReg_hitWindow : (s.putReg part sn v).hitWindow = s.hitWindow := rfl
@[simp] theorem State.putReg_hits : (s.putReg part sn v).hits = s.hits := rfl
@[simp] theorem State.putReg_clean : (s.putReg part sn v).clean = s.clean := rfl
@[simp] theorem State.putReg_errlog : (s.putReg part sn v).errlog = s.errlog := rfl
@[simp] theorem State.putReg_down : (s.putReg part sn v).down = s.down := rfl
@[simp] theorem State.putReg_lost : (s.putReg part sn v).lost = s.lost := rfl
@[simp] theorem State.putReg_pools : (s.putReg part sn v).pools = s.pools := rfl
@[simp] theorem State.putReg_lodged : (s.putReg part sn v).lodged = s.lodged := rfl
@[simp] theorem State.putReg_posted : (s.putReg part sn v).posted = s.posted := rfl
@[simp] theorem State.putReg_ahead : (s.putReg part sn v).ahead = s.ahead := rfl
@[simp] theorem State.putReg_reports : (s.putReg part sn v).reports = s.reports := rfl
@[simp] theorem State.putReg_notices : (s.putReg part sn v).notices = s.notices := rfl
@[simp] theorem State.putReg_haltNotes : (s.putReg part sn v).haltNotes = s.haltNotes := rfl
end

/-! ### updCrew changes `crews` alone -/

section
variable (s : State) (core slot : Nat) (f : Crew → Crew)
@[simp] theorem State.updCrew_clock : (s.updCrew core slot f).clock = s.clock := rfl
@[simp] theorem State.updCrew_sched : (s.updCrew core slot f).sched = s.sched := rfl
@[simp] theorem State.updCrew_fresh : (s.updCrew core slot f).fresh = s.fresh := rfl
@[simp] theorem State.updCrew_cur : (s.updCrew core slot f).cur = s.cur := rfl
@[simp] theorem State.updCrew_stall : (s.updCrew core slot f).stall = s.stall := rfl
@[simp] theorem State.updCrew_dead : (s.updCrew core slot f).dead = s.dead := rfl
@[simp] theorem State.updCrew_alarm : (s.updCrew core slot f).alarm = s.alarm := rfl
@[simp] theorem State.updCrew_alarmAt : (s.updCrew core slot f).alarmAt = s.alarmAt := rfl
@[simp] theorem State.updCrew_pkg : (s.updCrew core slot f).pkg = s.pkg := rfl
@[simp] theorem State.updCrew_npkg : (s.updCrew core slot f).npkg = s.npkg := rfl
@[simp] theorem State.updCrew_fence : (s.updCrew core slot f).fence = s.fence := rfl
@[simp] theorem State.updCrew_mem : (s.updCrew core slot f).mem = s.mem := rfl
@[simp] theorem State.updCrew_home : (s.updCrew core slot f).home = s.home := rfl
@[simp] theorem State.updCrew_vers : (s.updCrew core slot f).vers = s.vers := rfl
@[simp] theorem State.updCrew_l1 : (s.updCrew core slot f).l1 = s.l1 := rfl
@[simp] theorem State.updCrew_icache : (s.updCrew core slot f).icache = s.icache := rfl
@[simp] theorem State.updCrew_tlb : (s.updCrew core slot f).tlb = s.tlb := rfl
@[simp] theorem State.updCrew_sb : (s.updCrew core slot f).sb = s.sb := rfl
@[simp] theorem State.updCrew_rq : (s.updCrew core slot f).rq = s.rq := rfl
@[simp] theorem State.updCrew_engines : (s.updCrew core slot f).engines = s.engines := rfl
@[simp] theorem State.updCrew_poison : (s.updCrew core slot f).poison = s.poison := rfl
@[simp] theorem State.updCrew_podMem : (s.updCrew core slot f).podMem = s.podMem := rfl
@[simp] theorem State.updCrew_hw : (s.updCrew core slot f).hw = s.hw := rfl
@[simp] theorem State.updCrew_hwBad : (s.updCrew core slot f).hwBad = s.hwBad := rfl
@[simp] theorem State.updCrew_arrive : (s.updCrew core slot f).arrive = s.arrive := rfl
@[simp] theorem State.updCrew_reqs : (s.updCrew core slot f).reqs = s.reqs := rfl
@[simp] theorem State.updCrew_wbs : (s.updCrew core slot f).wbs = s.wbs := rfl
@[simp] theorem State.updCrew_replies : (s.updCrew core slot f).replies = s.replies := rfl
@[simp] theorem State.updCrew_podOut : (s.updCrew core slot f).podOut = s.podOut := rfl
@[simp] theorem State.updCrew_linkWait : (s.updCrew core slot f).linkWait = s.linkWait := rfl
@[simp] theorem State.updCrew_nextTag : (s.updCrew core slot f).nextTag = s.nextTag := rfl
@[simp] theorem State.updCrew_ctxs : (s.updCrew core slot f).ctxs = s.ctxs := rfl
@[simp] theorem State.updCrew_units : (s.updCrew core slot f).units = s.units := rfl
@[simp] theorem State.updCrew_ways : (s.updCrew core slot f).ways = s.ways := rfl
@[simp] theorem State.updCrew_slWays : (s.updCrew core slot f).slWays = s.slWays := rfl
@[simp] theorem State.updCrew_wayAt : (s.updCrew core slot f).wayAt = s.wayAt := rfl
@[simp] theorem State.updCrew_shTags : (s.updCrew core slot f).shTags = s.shTags := rfl
@[simp] theorem State.updCrew_shHits : (s.updCrew core slot f).shHits = s.shHits := rfl
@[simp] theorem State.updCrew_fwd : (s.updCrew core slot f).fwd = s.fwd := rfl
@[simp] theorem State.updCrew_tokens : (s.updCrew core slot f).tokens = s.tokens := rfl
@[simp] theorem State.updCrew_holds : (s.updCrew core slot f).holds = s.holds := rfl
@[simp] theorem State.updCrew_sels : (s.updCrew core slot f).sels = s.sels := rfl
@[simp] theorem State.updCrew_fns : (s.updCrew core slot f).fns = s.fns := rfl
@[simp] theorem State.updCrew_policy : (s.updCrew core slot f).policy = s.policy := rfl
@[simp] theorem State.updCrew_hens : (s.updCrew core slot f).hens = s.hens := rfl
@[simp] theorem State.updCrew_rows : (s.updCrew core slot f).rows = s.rows := rfl
@[simp] theorem State.updCrew_rowAt : (s.updCrew core slot f).rowAt = s.rowAt := rfl
@[simp] theorem State.updCrew_rowWindow : (s.updCrew core slot f).rowWindow = s.rowWindow := rfl
@[simp] theorem State.updCrew_thermal : (s.updCrew core slot f).thermal = s.thermal := rfl
@[simp] theorem State.updCrew_hitWindow : (s.updCrew core slot f).hitWindow = s.hitWindow := rfl
@[simp] theorem State.updCrew_hits : (s.updCrew core slot f).hits = s.hits := rfl
@[simp] theorem State.updCrew_clean : (s.updCrew core slot f).clean = s.clean := rfl
@[simp] theorem State.updCrew_errlog : (s.updCrew core slot f).errlog = s.errlog := rfl
@[simp] theorem State.updCrew_down : (s.updCrew core slot f).down = s.down := rfl
@[simp] theorem State.updCrew_lost : (s.updCrew core slot f).lost = s.lost := rfl
@[simp] theorem State.updCrew_pools : (s.updCrew core slot f).pools = s.pools := rfl
@[simp] theorem State.updCrew_lodged : (s.updCrew core slot f).lodged = s.lodged := rfl
@[simp] theorem State.updCrew_posted : (s.updCrew core slot f).posted = s.posted := rfl
@[simp] theorem State.updCrew_ahead : (s.updCrew core slot f).ahead = s.ahead := rfl
@[simp] theorem State.updCrew_reports : (s.updCrew core slot f).reports = s.reports := rfl
@[simp] theorem State.updCrew_notices : (s.updCrew core slot f).notices = s.notices := rfl
@[simp] theorem State.updCrew_haltNotes : (s.updCrew core slot f).haltNotes = s.haltNotes := rfl
end

/-! ### updFlock changes `crews` alone -/

section
variable (s : State) (core slot n : Nat) (f : Flock → Flock)
@[simp] theorem State.updFlock_clock : (s.updFlock core slot n f).clock = s.clock := rfl
@[simp] theorem State.updFlock_sched : (s.updFlock core slot n f).sched = s.sched := rfl
@[simp] theorem State.updFlock_fresh : (s.updFlock core slot n f).fresh = s.fresh := rfl
@[simp] theorem State.updFlock_cur : (s.updFlock core slot n f).cur = s.cur := rfl
@[simp] theorem State.updFlock_stall : (s.updFlock core slot n f).stall = s.stall := rfl
@[simp] theorem State.updFlock_dead : (s.updFlock core slot n f).dead = s.dead := rfl
@[simp] theorem State.updFlock_alarm : (s.updFlock core slot n f).alarm = s.alarm := rfl
@[simp] theorem State.updFlock_alarmAt : (s.updFlock core slot n f).alarmAt = s.alarmAt := rfl
@[simp] theorem State.updFlock_pkg : (s.updFlock core slot n f).pkg = s.pkg := rfl
@[simp] theorem State.updFlock_npkg : (s.updFlock core slot n f).npkg = s.npkg := rfl
@[simp] theorem State.updFlock_fence : (s.updFlock core slot n f).fence = s.fence := rfl
@[simp] theorem State.updFlock_mem : (s.updFlock core slot n f).mem = s.mem := rfl
@[simp] theorem State.updFlock_home : (s.updFlock core slot n f).home = s.home := rfl
@[simp] theorem State.updFlock_vers : (s.updFlock core slot n f).vers = s.vers := rfl
@[simp] theorem State.updFlock_l1 : (s.updFlock core slot n f).l1 = s.l1 := rfl
@[simp] theorem State.updFlock_icache : (s.updFlock core slot n f).icache = s.icache := rfl
@[simp] theorem State.updFlock_tlb : (s.updFlock core slot n f).tlb = s.tlb := rfl
@[simp] theorem State.updFlock_sb : (s.updFlock core slot n f).sb = s.sb := rfl
@[simp] theorem State.updFlock_rq : (s.updFlock core slot n f).rq = s.rq := rfl
@[simp] theorem State.updFlock_engines : (s.updFlock core slot n f).engines = s.engines := rfl
@[simp] theorem State.updFlock_poison : (s.updFlock core slot n f).poison = s.poison := rfl
@[simp] theorem State.updFlock_podMem : (s.updFlock core slot n f).podMem = s.podMem := rfl
@[simp] theorem State.updFlock_hw : (s.updFlock core slot n f).hw = s.hw := rfl
@[simp] theorem State.updFlock_hwBad : (s.updFlock core slot n f).hwBad = s.hwBad := rfl
@[simp] theorem State.updFlock_arrive : (s.updFlock core slot n f).arrive = s.arrive := rfl
@[simp] theorem State.updFlock_reqs : (s.updFlock core slot n f).reqs = s.reqs := rfl
@[simp] theorem State.updFlock_wbs : (s.updFlock core slot n f).wbs = s.wbs := rfl
@[simp] theorem State.updFlock_replies : (s.updFlock core slot n f).replies = s.replies := rfl
@[simp] theorem State.updFlock_podOut : (s.updFlock core slot n f).podOut = s.podOut := rfl
@[simp] theorem State.updFlock_linkWait : (s.updFlock core slot n f).linkWait = s.linkWait := rfl
@[simp] theorem State.updFlock_nextTag : (s.updFlock core slot n f).nextTag = s.nextTag := rfl
@[simp] theorem State.updFlock_ctxs : (s.updFlock core slot n f).ctxs = s.ctxs := rfl
@[simp] theorem State.updFlock_units : (s.updFlock core slot n f).units = s.units := rfl
@[simp] theorem State.updFlock_ways : (s.updFlock core slot n f).ways = s.ways := rfl
@[simp] theorem State.updFlock_slWays : (s.updFlock core slot n f).slWays = s.slWays := rfl
@[simp] theorem State.updFlock_wayAt : (s.updFlock core slot n f).wayAt = s.wayAt := rfl
@[simp] theorem State.updFlock_shTags : (s.updFlock core slot n f).shTags = s.shTags := rfl
@[simp] theorem State.updFlock_shHits : (s.updFlock core slot n f).shHits = s.shHits := rfl
@[simp] theorem State.updFlock_fwd : (s.updFlock core slot n f).fwd = s.fwd := rfl
@[simp] theorem State.updFlock_tokens : (s.updFlock core slot n f).tokens = s.tokens := rfl
@[simp] theorem State.updFlock_holds : (s.updFlock core slot n f).holds = s.holds := rfl
@[simp] theorem State.updFlock_sels : (s.updFlock core slot n f).sels = s.sels := rfl
@[simp] theorem State.updFlock_fns : (s.updFlock core slot n f).fns = s.fns := rfl
@[simp] theorem State.updFlock_policy : (s.updFlock core slot n f).policy = s.policy := rfl
@[simp] theorem State.updFlock_hens : (s.updFlock core slot n f).hens = s.hens := rfl
@[simp] theorem State.updFlock_rows : (s.updFlock core slot n f).rows = s.rows := rfl
@[simp] theorem State.updFlock_rowAt : (s.updFlock core slot n f).rowAt = s.rowAt := rfl
@[simp] theorem State.updFlock_rowWindow : (s.updFlock core slot n f).rowWindow = s.rowWindow := rfl
@[simp] theorem State.updFlock_thermal : (s.updFlock core slot n f).thermal = s.thermal := rfl
@[simp] theorem State.updFlock_hitWindow : (s.updFlock core slot n f).hitWindow = s.hitWindow := rfl
@[simp] theorem State.updFlock_hits : (s.updFlock core slot n f).hits = s.hits := rfl
@[simp] theorem State.updFlock_clean : (s.updFlock core slot n f).clean = s.clean := rfl
@[simp] theorem State.updFlock_errlog : (s.updFlock core slot n f).errlog = s.errlog := rfl
@[simp] theorem State.updFlock_down : (s.updFlock core slot n f).down = s.down := rfl
@[simp] theorem State.updFlock_lost : (s.updFlock core slot n f).lost = s.lost := rfl
@[simp] theorem State.updFlock_pools : (s.updFlock core slot n f).pools = s.pools := rfl
@[simp] theorem State.updFlock_lodged : (s.updFlock core slot n f).lodged = s.lodged := rfl
@[simp] theorem State.updFlock_posted : (s.updFlock core slot n f).posted = s.posted := rfl
@[simp] theorem State.updFlock_ahead : (s.updFlock core slot n f).ahead = s.ahead := rfl
@[simp] theorem State.updFlock_reports : (s.updFlock core slot n f).reports = s.reports := rfl
@[simp] theorem State.updFlock_notices : (s.updFlock core slot n f).notices = s.notices := rfl
@[simp] theorem State.updFlock_haltNotes : (s.updFlock core slot n f).haltNotes = s.haltNotes := rfl
end

/-! ### onCrew changes `crews` alone -/

section
variable (s : State) (i : Iss) (f : Crew → Crew)
@[simp] theorem State.onCrew_clock : (s.onCrew i f).clock = s.clock := rfl
@[simp] theorem State.onCrew_sched : (s.onCrew i f).sched = s.sched := rfl
@[simp] theorem State.onCrew_fresh : (s.onCrew i f).fresh = s.fresh := rfl
@[simp] theorem State.onCrew_cur : (s.onCrew i f).cur = s.cur := rfl
@[simp] theorem State.onCrew_stall : (s.onCrew i f).stall = s.stall := rfl
@[simp] theorem State.onCrew_dead : (s.onCrew i f).dead = s.dead := rfl
@[simp] theorem State.onCrew_alarm : (s.onCrew i f).alarm = s.alarm := rfl
@[simp] theorem State.onCrew_alarmAt : (s.onCrew i f).alarmAt = s.alarmAt := rfl
@[simp] theorem State.onCrew_pkg : (s.onCrew i f).pkg = s.pkg := rfl
@[simp] theorem State.onCrew_npkg : (s.onCrew i f).npkg = s.npkg := rfl
@[simp] theorem State.onCrew_fence : (s.onCrew i f).fence = s.fence := rfl
@[simp] theorem State.onCrew_mem : (s.onCrew i f).mem = s.mem := rfl
@[simp] theorem State.onCrew_home : (s.onCrew i f).home = s.home := rfl
@[simp] theorem State.onCrew_vers : (s.onCrew i f).vers = s.vers := rfl
@[simp] theorem State.onCrew_l1 : (s.onCrew i f).l1 = s.l1 := rfl
@[simp] theorem State.onCrew_icache : (s.onCrew i f).icache = s.icache := rfl
@[simp] theorem State.onCrew_tlb : (s.onCrew i f).tlb = s.tlb := rfl
@[simp] theorem State.onCrew_sb : (s.onCrew i f).sb = s.sb := rfl
@[simp] theorem State.onCrew_rq : (s.onCrew i f).rq = s.rq := rfl
@[simp] theorem State.onCrew_engines : (s.onCrew i f).engines = s.engines := rfl
@[simp] theorem State.onCrew_poison : (s.onCrew i f).poison = s.poison := rfl
@[simp] theorem State.onCrew_podMem : (s.onCrew i f).podMem = s.podMem := rfl
@[simp] theorem State.onCrew_hw : (s.onCrew i f).hw = s.hw := rfl
@[simp] theorem State.onCrew_hwBad : (s.onCrew i f).hwBad = s.hwBad := rfl
@[simp] theorem State.onCrew_arrive : (s.onCrew i f).arrive = s.arrive := rfl
@[simp] theorem State.onCrew_reqs : (s.onCrew i f).reqs = s.reqs := rfl
@[simp] theorem State.onCrew_wbs : (s.onCrew i f).wbs = s.wbs := rfl
@[simp] theorem State.onCrew_replies : (s.onCrew i f).replies = s.replies := rfl
@[simp] theorem State.onCrew_podOut : (s.onCrew i f).podOut = s.podOut := rfl
@[simp] theorem State.onCrew_linkWait : (s.onCrew i f).linkWait = s.linkWait := rfl
@[simp] theorem State.onCrew_nextTag : (s.onCrew i f).nextTag = s.nextTag := rfl
@[simp] theorem State.onCrew_ctxs : (s.onCrew i f).ctxs = s.ctxs := rfl
@[simp] theorem State.onCrew_units : (s.onCrew i f).units = s.units := rfl
@[simp] theorem State.onCrew_ways : (s.onCrew i f).ways = s.ways := rfl
@[simp] theorem State.onCrew_slWays : (s.onCrew i f).slWays = s.slWays := rfl
@[simp] theorem State.onCrew_wayAt : (s.onCrew i f).wayAt = s.wayAt := rfl
@[simp] theorem State.onCrew_shTags : (s.onCrew i f).shTags = s.shTags := rfl
@[simp] theorem State.onCrew_shHits : (s.onCrew i f).shHits = s.shHits := rfl
@[simp] theorem State.onCrew_fwd : (s.onCrew i f).fwd = s.fwd := rfl
@[simp] theorem State.onCrew_tokens : (s.onCrew i f).tokens = s.tokens := rfl
@[simp] theorem State.onCrew_holds : (s.onCrew i f).holds = s.holds := rfl
@[simp] theorem State.onCrew_sels : (s.onCrew i f).sels = s.sels := rfl
@[simp] theorem State.onCrew_fns : (s.onCrew i f).fns = s.fns := rfl
@[simp] theorem State.onCrew_policy : (s.onCrew i f).policy = s.policy := rfl
@[simp] theorem State.onCrew_hens : (s.onCrew i f).hens = s.hens := rfl
@[simp] theorem State.onCrew_rows : (s.onCrew i f).rows = s.rows := rfl
@[simp] theorem State.onCrew_rowAt : (s.onCrew i f).rowAt = s.rowAt := rfl
@[simp] theorem State.onCrew_rowWindow : (s.onCrew i f).rowWindow = s.rowWindow := rfl
@[simp] theorem State.onCrew_thermal : (s.onCrew i f).thermal = s.thermal := rfl
@[simp] theorem State.onCrew_hitWindow : (s.onCrew i f).hitWindow = s.hitWindow := rfl
@[simp] theorem State.onCrew_hits : (s.onCrew i f).hits = s.hits := rfl
@[simp] theorem State.onCrew_clean : (s.onCrew i f).clean = s.clean := rfl
@[simp] theorem State.onCrew_errlog : (s.onCrew i f).errlog = s.errlog := rfl
@[simp] theorem State.onCrew_down : (s.onCrew i f).down = s.down := rfl
@[simp] theorem State.onCrew_lost : (s.onCrew i f).lost = s.lost := rfl
@[simp] theorem State.onCrew_pools : (s.onCrew i f).pools = s.pools := rfl
@[simp] theorem State.onCrew_lodged : (s.onCrew i f).lodged = s.lodged := rfl
@[simp] theorem State.onCrew_posted : (s.onCrew i f).posted = s.posted := rfl
@[simp] theorem State.onCrew_ahead : (s.onCrew i f).ahead = s.ahead := rfl
@[simp] theorem State.onCrew_reports : (s.onCrew i f).reports = s.reports := rfl
@[simp] theorem State.onCrew_notices : (s.onCrew i f).notices = s.notices := rfl
@[simp] theorem State.onCrew_haltNotes : (s.onCrew i f).haltNotes = s.haltNotes := rfl
end

/-! ### onFlock changes `crews` alone -/

section
variable (s : State) (i : Iss) (f : Flock → Flock)
@[simp] theorem State.onFlock_clock : (s.onFlock i f).clock = s.clock := rfl
@[simp] theorem State.onFlock_sched : (s.onFlock i f).sched = s.sched := rfl
@[simp] theorem State.onFlock_fresh : (s.onFlock i f).fresh = s.fresh := rfl
@[simp] theorem State.onFlock_cur : (s.onFlock i f).cur = s.cur := rfl
@[simp] theorem State.onFlock_stall : (s.onFlock i f).stall = s.stall := rfl
@[simp] theorem State.onFlock_dead : (s.onFlock i f).dead = s.dead := rfl
@[simp] theorem State.onFlock_alarm : (s.onFlock i f).alarm = s.alarm := rfl
@[simp] theorem State.onFlock_alarmAt : (s.onFlock i f).alarmAt = s.alarmAt := rfl
@[simp] theorem State.onFlock_pkg : (s.onFlock i f).pkg = s.pkg := rfl
@[simp] theorem State.onFlock_npkg : (s.onFlock i f).npkg = s.npkg := rfl
@[simp] theorem State.onFlock_fence : (s.onFlock i f).fence = s.fence := rfl
@[simp] theorem State.onFlock_mem : (s.onFlock i f).mem = s.mem := rfl
@[simp] theorem State.onFlock_home : (s.onFlock i f).home = s.home := rfl
@[simp] theorem State.onFlock_vers : (s.onFlock i f).vers = s.vers := rfl
@[simp] theorem State.onFlock_l1 : (s.onFlock i f).l1 = s.l1 := rfl
@[simp] theorem State.onFlock_icache : (s.onFlock i f).icache = s.icache := rfl
@[simp] theorem State.onFlock_tlb : (s.onFlock i f).tlb = s.tlb := rfl
@[simp] theorem State.onFlock_sb : (s.onFlock i f).sb = s.sb := rfl
@[simp] theorem State.onFlock_rq : (s.onFlock i f).rq = s.rq := rfl
@[simp] theorem State.onFlock_engines : (s.onFlock i f).engines = s.engines := rfl
@[simp] theorem State.onFlock_poison : (s.onFlock i f).poison = s.poison := rfl
@[simp] theorem State.onFlock_podMem : (s.onFlock i f).podMem = s.podMem := rfl
@[simp] theorem State.onFlock_hw : (s.onFlock i f).hw = s.hw := rfl
@[simp] theorem State.onFlock_hwBad : (s.onFlock i f).hwBad = s.hwBad := rfl
@[simp] theorem State.onFlock_arrive : (s.onFlock i f).arrive = s.arrive := rfl
@[simp] theorem State.onFlock_reqs : (s.onFlock i f).reqs = s.reqs := rfl
@[simp] theorem State.onFlock_wbs : (s.onFlock i f).wbs = s.wbs := rfl
@[simp] theorem State.onFlock_replies : (s.onFlock i f).replies = s.replies := rfl
@[simp] theorem State.onFlock_podOut : (s.onFlock i f).podOut = s.podOut := rfl
@[simp] theorem State.onFlock_linkWait : (s.onFlock i f).linkWait = s.linkWait := rfl
@[simp] theorem State.onFlock_nextTag : (s.onFlock i f).nextTag = s.nextTag := rfl
@[simp] theorem State.onFlock_ctxs : (s.onFlock i f).ctxs = s.ctxs := rfl
@[simp] theorem State.onFlock_units : (s.onFlock i f).units = s.units := rfl
@[simp] theorem State.onFlock_ways : (s.onFlock i f).ways = s.ways := rfl
@[simp] theorem State.onFlock_slWays : (s.onFlock i f).slWays = s.slWays := rfl
@[simp] theorem State.onFlock_wayAt : (s.onFlock i f).wayAt = s.wayAt := rfl
@[simp] theorem State.onFlock_shTags : (s.onFlock i f).shTags = s.shTags := rfl
@[simp] theorem State.onFlock_shHits : (s.onFlock i f).shHits = s.shHits := rfl
@[simp] theorem State.onFlock_fwd : (s.onFlock i f).fwd = s.fwd := rfl
@[simp] theorem State.onFlock_tokens : (s.onFlock i f).tokens = s.tokens := rfl
@[simp] theorem State.onFlock_holds : (s.onFlock i f).holds = s.holds := rfl
@[simp] theorem State.onFlock_sels : (s.onFlock i f).sels = s.sels := rfl
@[simp] theorem State.onFlock_fns : (s.onFlock i f).fns = s.fns := rfl
@[simp] theorem State.onFlock_policy : (s.onFlock i f).policy = s.policy := rfl
@[simp] theorem State.onFlock_hens : (s.onFlock i f).hens = s.hens := rfl
@[simp] theorem State.onFlock_rows : (s.onFlock i f).rows = s.rows := rfl
@[simp] theorem State.onFlock_rowAt : (s.onFlock i f).rowAt = s.rowAt := rfl
@[simp] theorem State.onFlock_rowWindow : (s.onFlock i f).rowWindow = s.rowWindow := rfl
@[simp] theorem State.onFlock_thermal : (s.onFlock i f).thermal = s.thermal := rfl
@[simp] theorem State.onFlock_hitWindow : (s.onFlock i f).hitWindow = s.hitWindow := rfl
@[simp] theorem State.onFlock_hits : (s.onFlock i f).hits = s.hits := rfl
@[simp] theorem State.onFlock_clean : (s.onFlock i f).clean = s.clean := rfl
@[simp] theorem State.onFlock_errlog : (s.onFlock i f).errlog = s.errlog := rfl
@[simp] theorem State.onFlock_down : (s.onFlock i f).down = s.down := rfl
@[simp] theorem State.onFlock_lost : (s.onFlock i f).lost = s.lost := rfl
@[simp] theorem State.onFlock_pools : (s.onFlock i f).pools = s.pools := rfl
@[simp] theorem State.onFlock_lodged : (s.onFlock i f).lodged = s.lodged := rfl
@[simp] theorem State.onFlock_posted : (s.onFlock i f).posted = s.posted := rfl
@[simp] theorem State.onFlock_ahead : (s.onFlock i f).ahead = s.ahead := rfl
@[simp] theorem State.onFlock_reports : (s.onFlock i f).reports = s.reports := rfl
@[simp] theorem State.onFlock_notices : (s.onFlock i f).notices = s.notices := rfl
@[simp] theorem State.onFlock_haltNotes : (s.onFlock i f).haltNotes = s.haltNotes := rfl
end

/-! ### onBatch changes `crews` alone -/

section
variable (s : State) (i : Iss) (f : Batch → Batch)
@[simp] theorem State.onBatch_clock : (s.onBatch i f).clock = s.clock := rfl
@[simp] theorem State.onBatch_sched : (s.onBatch i f).sched = s.sched := rfl
@[simp] theorem State.onBatch_fresh : (s.onBatch i f).fresh = s.fresh := rfl
@[simp] theorem State.onBatch_cur : (s.onBatch i f).cur = s.cur := rfl
@[simp] theorem State.onBatch_stall : (s.onBatch i f).stall = s.stall := rfl
@[simp] theorem State.onBatch_dead : (s.onBatch i f).dead = s.dead := rfl
@[simp] theorem State.onBatch_alarm : (s.onBatch i f).alarm = s.alarm := rfl
@[simp] theorem State.onBatch_alarmAt : (s.onBatch i f).alarmAt = s.alarmAt := rfl
@[simp] theorem State.onBatch_pkg : (s.onBatch i f).pkg = s.pkg := rfl
@[simp] theorem State.onBatch_npkg : (s.onBatch i f).npkg = s.npkg := rfl
@[simp] theorem State.onBatch_fence : (s.onBatch i f).fence = s.fence := rfl
@[simp] theorem State.onBatch_mem : (s.onBatch i f).mem = s.mem := rfl
@[simp] theorem State.onBatch_home : (s.onBatch i f).home = s.home := rfl
@[simp] theorem State.onBatch_vers : (s.onBatch i f).vers = s.vers := rfl
@[simp] theorem State.onBatch_l1 : (s.onBatch i f).l1 = s.l1 := rfl
@[simp] theorem State.onBatch_icache : (s.onBatch i f).icache = s.icache := rfl
@[simp] theorem State.onBatch_tlb : (s.onBatch i f).tlb = s.tlb := rfl
@[simp] theorem State.onBatch_sb : (s.onBatch i f).sb = s.sb := rfl
@[simp] theorem State.onBatch_rq : (s.onBatch i f).rq = s.rq := rfl
@[simp] theorem State.onBatch_engines : (s.onBatch i f).engines = s.engines := rfl
@[simp] theorem State.onBatch_poison : (s.onBatch i f).poison = s.poison := rfl
@[simp] theorem State.onBatch_podMem : (s.onBatch i f).podMem = s.podMem := rfl
@[simp] theorem State.onBatch_hw : (s.onBatch i f).hw = s.hw := rfl
@[simp] theorem State.onBatch_hwBad : (s.onBatch i f).hwBad = s.hwBad := rfl
@[simp] theorem State.onBatch_arrive : (s.onBatch i f).arrive = s.arrive := rfl
@[simp] theorem State.onBatch_reqs : (s.onBatch i f).reqs = s.reqs := rfl
@[simp] theorem State.onBatch_wbs : (s.onBatch i f).wbs = s.wbs := rfl
@[simp] theorem State.onBatch_replies : (s.onBatch i f).replies = s.replies := rfl
@[simp] theorem State.onBatch_podOut : (s.onBatch i f).podOut = s.podOut := rfl
@[simp] theorem State.onBatch_linkWait : (s.onBatch i f).linkWait = s.linkWait := rfl
@[simp] theorem State.onBatch_nextTag : (s.onBatch i f).nextTag = s.nextTag := rfl
@[simp] theorem State.onBatch_ctxs : (s.onBatch i f).ctxs = s.ctxs := rfl
@[simp] theorem State.onBatch_units : (s.onBatch i f).units = s.units := rfl
@[simp] theorem State.onBatch_ways : (s.onBatch i f).ways = s.ways := rfl
@[simp] theorem State.onBatch_slWays : (s.onBatch i f).slWays = s.slWays := rfl
@[simp] theorem State.onBatch_wayAt : (s.onBatch i f).wayAt = s.wayAt := rfl
@[simp] theorem State.onBatch_shTags : (s.onBatch i f).shTags = s.shTags := rfl
@[simp] theorem State.onBatch_shHits : (s.onBatch i f).shHits = s.shHits := rfl
@[simp] theorem State.onBatch_fwd : (s.onBatch i f).fwd = s.fwd := rfl
@[simp] theorem State.onBatch_tokens : (s.onBatch i f).tokens = s.tokens := rfl
@[simp] theorem State.onBatch_holds : (s.onBatch i f).holds = s.holds := rfl
@[simp] theorem State.onBatch_sels : (s.onBatch i f).sels = s.sels := rfl
@[simp] theorem State.onBatch_fns : (s.onBatch i f).fns = s.fns := rfl
@[simp] theorem State.onBatch_policy : (s.onBatch i f).policy = s.policy := rfl
@[simp] theorem State.onBatch_hens : (s.onBatch i f).hens = s.hens := rfl
@[simp] theorem State.onBatch_rows : (s.onBatch i f).rows = s.rows := rfl
@[simp] theorem State.onBatch_rowAt : (s.onBatch i f).rowAt = s.rowAt := rfl
@[simp] theorem State.onBatch_rowWindow : (s.onBatch i f).rowWindow = s.rowWindow := rfl
@[simp] theorem State.onBatch_thermal : (s.onBatch i f).thermal = s.thermal := rfl
@[simp] theorem State.onBatch_hitWindow : (s.onBatch i f).hitWindow = s.hitWindow := rfl
@[simp] theorem State.onBatch_hits : (s.onBatch i f).hits = s.hits := rfl
@[simp] theorem State.onBatch_clean : (s.onBatch i f).clean = s.clean := rfl
@[simp] theorem State.onBatch_errlog : (s.onBatch i f).errlog = s.errlog := rfl
@[simp] theorem State.onBatch_down : (s.onBatch i f).down = s.down := rfl
@[simp] theorem State.onBatch_lost : (s.onBatch i f).lost = s.lost := rfl
@[simp] theorem State.onBatch_pools : (s.onBatch i f).pools = s.pools := rfl
@[simp] theorem State.onBatch_lodged : (s.onBatch i f).lodged = s.lodged := rfl
@[simp] theorem State.onBatch_posted : (s.onBatch i f).posted = s.posted := rfl
@[simp] theorem State.onBatch_ahead : (s.onBatch i f).ahead = s.ahead := rfl
@[simp] theorem State.onBatch_reports : (s.onBatch i f).reports = s.reports := rfl
@[simp] theorem State.onBatch_notices : (s.onBatch i f).notices = s.notices := rfl
@[simp] theorem State.onBatch_haltNotes : (s.onBatch i f).haltNotes = s.haltNotes := rfl
end

/-! ### onFibre changes `crews` alone -/

section
variable (s : State) (i : Iss) (lane : Nat) (f : Fibre → Fibre)
@[simp] theorem State.onFibre_clock : (s.onFibre i lane f).clock = s.clock := rfl
@[simp] theorem State.onFibre_sched : (s.onFibre i lane f).sched = s.sched := rfl
@[simp] theorem State.onFibre_fresh : (s.onFibre i lane f).fresh = s.fresh := rfl
@[simp] theorem State.onFibre_cur : (s.onFibre i lane f).cur = s.cur := rfl
@[simp] theorem State.onFibre_stall : (s.onFibre i lane f).stall = s.stall := rfl
@[simp] theorem State.onFibre_dead : (s.onFibre i lane f).dead = s.dead := rfl
@[simp] theorem State.onFibre_alarm : (s.onFibre i lane f).alarm = s.alarm := rfl
@[simp] theorem State.onFibre_alarmAt : (s.onFibre i lane f).alarmAt = s.alarmAt := rfl
@[simp] theorem State.onFibre_pkg : (s.onFibre i lane f).pkg = s.pkg := rfl
@[simp] theorem State.onFibre_npkg : (s.onFibre i lane f).npkg = s.npkg := rfl
@[simp] theorem State.onFibre_fence : (s.onFibre i lane f).fence = s.fence := rfl
@[simp] theorem State.onFibre_mem : (s.onFibre i lane f).mem = s.mem := rfl
@[simp] theorem State.onFibre_home : (s.onFibre i lane f).home = s.home := rfl
@[simp] theorem State.onFibre_vers : (s.onFibre i lane f).vers = s.vers := rfl
@[simp] theorem State.onFibre_l1 : (s.onFibre i lane f).l1 = s.l1 := rfl
@[simp] theorem State.onFibre_icache : (s.onFibre i lane f).icache = s.icache := rfl
@[simp] theorem State.onFibre_tlb : (s.onFibre i lane f).tlb = s.tlb := rfl
@[simp] theorem State.onFibre_sb : (s.onFibre i lane f).sb = s.sb := rfl
@[simp] theorem State.onFibre_rq : (s.onFibre i lane f).rq = s.rq := rfl
@[simp] theorem State.onFibre_engines : (s.onFibre i lane f).engines = s.engines := rfl
@[simp] theorem State.onFibre_poison : (s.onFibre i lane f).poison = s.poison := rfl
@[simp] theorem State.onFibre_podMem : (s.onFibre i lane f).podMem = s.podMem := rfl
@[simp] theorem State.onFibre_hw : (s.onFibre i lane f).hw = s.hw := rfl
@[simp] theorem State.onFibre_hwBad : (s.onFibre i lane f).hwBad = s.hwBad := rfl
@[simp] theorem State.onFibre_arrive : (s.onFibre i lane f).arrive = s.arrive := rfl
@[simp] theorem State.onFibre_reqs : (s.onFibre i lane f).reqs = s.reqs := rfl
@[simp] theorem State.onFibre_wbs : (s.onFibre i lane f).wbs = s.wbs := rfl
@[simp] theorem State.onFibre_replies : (s.onFibre i lane f).replies = s.replies := rfl
@[simp] theorem State.onFibre_podOut : (s.onFibre i lane f).podOut = s.podOut := rfl
@[simp] theorem State.onFibre_linkWait : (s.onFibre i lane f).linkWait = s.linkWait := rfl
@[simp] theorem State.onFibre_nextTag : (s.onFibre i lane f).nextTag = s.nextTag := rfl
@[simp] theorem State.onFibre_ctxs : (s.onFibre i lane f).ctxs = s.ctxs := rfl
@[simp] theorem State.onFibre_units : (s.onFibre i lane f).units = s.units := rfl
@[simp] theorem State.onFibre_ways : (s.onFibre i lane f).ways = s.ways := rfl
@[simp] theorem State.onFibre_slWays : (s.onFibre i lane f).slWays = s.slWays := rfl
@[simp] theorem State.onFibre_wayAt : (s.onFibre i lane f).wayAt = s.wayAt := rfl
@[simp] theorem State.onFibre_shTags : (s.onFibre i lane f).shTags = s.shTags := rfl
@[simp] theorem State.onFibre_shHits : (s.onFibre i lane f).shHits = s.shHits := rfl
@[simp] theorem State.onFibre_fwd : (s.onFibre i lane f).fwd = s.fwd := rfl
@[simp] theorem State.onFibre_tokens : (s.onFibre i lane f).tokens = s.tokens := rfl
@[simp] theorem State.onFibre_holds : (s.onFibre i lane f).holds = s.holds := rfl
@[simp] theorem State.onFibre_sels : (s.onFibre i lane f).sels = s.sels := rfl
@[simp] theorem State.onFibre_fns : (s.onFibre i lane f).fns = s.fns := rfl
@[simp] theorem State.onFibre_policy : (s.onFibre i lane f).policy = s.policy := rfl
@[simp] theorem State.onFibre_hens : (s.onFibre i lane f).hens = s.hens := rfl
@[simp] theorem State.onFibre_rows : (s.onFibre i lane f).rows = s.rows := rfl
@[simp] theorem State.onFibre_rowAt : (s.onFibre i lane f).rowAt = s.rowAt := rfl
@[simp] theorem State.onFibre_rowWindow : (s.onFibre i lane f).rowWindow = s.rowWindow := rfl
@[simp] theorem State.onFibre_thermal : (s.onFibre i lane f).thermal = s.thermal := rfl
@[simp] theorem State.onFibre_hitWindow : (s.onFibre i lane f).hitWindow = s.hitWindow := rfl
@[simp] theorem State.onFibre_hits : (s.onFibre i lane f).hits = s.hits := rfl
@[simp] theorem State.onFibre_clean : (s.onFibre i lane f).clean = s.clean := rfl
@[simp] theorem State.onFibre_errlog : (s.onFibre i lane f).errlog = s.errlog := rfl
@[simp] theorem State.onFibre_down : (s.onFibre i lane f).down = s.down := rfl
@[simp] theorem State.onFibre_lost : (s.onFibre i lane f).lost = s.lost := rfl
@[simp] theorem State.onFibre_pools : (s.onFibre i lane f).pools = s.pools := rfl
@[simp] theorem State.onFibre_lodged : (s.onFibre i lane f).lodged = s.lodged := rfl
@[simp] theorem State.onFibre_posted : (s.onFibre i lane f).posted = s.posted := rfl
@[simp] theorem State.onFibre_ahead : (s.onFibre i lane f).ahead = s.ahead := rfl
@[simp] theorem State.onFibre_reports : (s.onFibre i lane f).reports = s.reports := rfl
@[simp] theorem State.onFibre_notices : (s.onFibre i lane f).notices = s.notices := rfl
@[simp] theorem State.onFibre_haltNotes : (s.onFibre i lane f).haltNotes = s.haltNotes := rfl
end

/-! ### onFibres changes `crews` alone -/

section
variable (s : State) {α : Type} (i : Iss) (l : List (Nat × α)) (f : α → Fibre → Fibre)
@[simp] theorem State.onFibres_clock : (s.onFibres i l f).clock = s.clock := rfl
@[simp] theorem State.onFibres_sched : (s.onFibres i l f).sched = s.sched := rfl
@[simp] theorem State.onFibres_fresh : (s.onFibres i l f).fresh = s.fresh := rfl
@[simp] theorem State.onFibres_cur : (s.onFibres i l f).cur = s.cur := rfl
@[simp] theorem State.onFibres_stall : (s.onFibres i l f).stall = s.stall := rfl
@[simp] theorem State.onFibres_dead : (s.onFibres i l f).dead = s.dead := rfl
@[simp] theorem State.onFibres_alarm : (s.onFibres i l f).alarm = s.alarm := rfl
@[simp] theorem State.onFibres_alarmAt : (s.onFibres i l f).alarmAt = s.alarmAt := rfl
@[simp] theorem State.onFibres_pkg : (s.onFibres i l f).pkg = s.pkg := rfl
@[simp] theorem State.onFibres_npkg : (s.onFibres i l f).npkg = s.npkg := rfl
@[simp] theorem State.onFibres_fence : (s.onFibres i l f).fence = s.fence := rfl
@[simp] theorem State.onFibres_mem : (s.onFibres i l f).mem = s.mem := rfl
@[simp] theorem State.onFibres_home : (s.onFibres i l f).home = s.home := rfl
@[simp] theorem State.onFibres_vers : (s.onFibres i l f).vers = s.vers := rfl
@[simp] theorem State.onFibres_l1 : (s.onFibres i l f).l1 = s.l1 := rfl
@[simp] theorem State.onFibres_icache : (s.onFibres i l f).icache = s.icache := rfl
@[simp] theorem State.onFibres_tlb : (s.onFibres i l f).tlb = s.tlb := rfl
@[simp] theorem State.onFibres_sb : (s.onFibres i l f).sb = s.sb := rfl
@[simp] theorem State.onFibres_rq : (s.onFibres i l f).rq = s.rq := rfl
@[simp] theorem State.onFibres_engines : (s.onFibres i l f).engines = s.engines := rfl
@[simp] theorem State.onFibres_poison : (s.onFibres i l f).poison = s.poison := rfl
@[simp] theorem State.onFibres_podMem : (s.onFibres i l f).podMem = s.podMem := rfl
@[simp] theorem State.onFibres_hw : (s.onFibres i l f).hw = s.hw := rfl
@[simp] theorem State.onFibres_hwBad : (s.onFibres i l f).hwBad = s.hwBad := rfl
@[simp] theorem State.onFibres_arrive : (s.onFibres i l f).arrive = s.arrive := rfl
@[simp] theorem State.onFibres_reqs : (s.onFibres i l f).reqs = s.reqs := rfl
@[simp] theorem State.onFibres_wbs : (s.onFibres i l f).wbs = s.wbs := rfl
@[simp] theorem State.onFibres_replies : (s.onFibres i l f).replies = s.replies := rfl
@[simp] theorem State.onFibres_podOut : (s.onFibres i l f).podOut = s.podOut := rfl
@[simp] theorem State.onFibres_linkWait : (s.onFibres i l f).linkWait = s.linkWait := rfl
@[simp] theorem State.onFibres_nextTag : (s.onFibres i l f).nextTag = s.nextTag := rfl
@[simp] theorem State.onFibres_ctxs : (s.onFibres i l f).ctxs = s.ctxs := rfl
@[simp] theorem State.onFibres_units : (s.onFibres i l f).units = s.units := rfl
@[simp] theorem State.onFibres_ways : (s.onFibres i l f).ways = s.ways := rfl
@[simp] theorem State.onFibres_slWays : (s.onFibres i l f).slWays = s.slWays := rfl
@[simp] theorem State.onFibres_wayAt : (s.onFibres i l f).wayAt = s.wayAt := rfl
@[simp] theorem State.onFibres_shTags : (s.onFibres i l f).shTags = s.shTags := rfl
@[simp] theorem State.onFibres_shHits : (s.onFibres i l f).shHits = s.shHits := rfl
@[simp] theorem State.onFibres_fwd : (s.onFibres i l f).fwd = s.fwd := rfl
@[simp] theorem State.onFibres_tokens : (s.onFibres i l f).tokens = s.tokens := rfl
@[simp] theorem State.onFibres_holds : (s.onFibres i l f).holds = s.holds := rfl
@[simp] theorem State.onFibres_sels : (s.onFibres i l f).sels = s.sels := rfl
@[simp] theorem State.onFibres_fns : (s.onFibres i l f).fns = s.fns := rfl
@[simp] theorem State.onFibres_policy : (s.onFibres i l f).policy = s.policy := rfl
@[simp] theorem State.onFibres_hens : (s.onFibres i l f).hens = s.hens := rfl
@[simp] theorem State.onFibres_rows : (s.onFibres i l f).rows = s.rows := rfl
@[simp] theorem State.onFibres_rowAt : (s.onFibres i l f).rowAt = s.rowAt := rfl
@[simp] theorem State.onFibres_rowWindow : (s.onFibres i l f).rowWindow = s.rowWindow := rfl
@[simp] theorem State.onFibres_thermal : (s.onFibres i l f).thermal = s.thermal := rfl
@[simp] theorem State.onFibres_hitWindow : (s.onFibres i l f).hitWindow = s.hitWindow := rfl
@[simp] theorem State.onFibres_hits : (s.onFibres i l f).hits = s.hits := rfl
@[simp] theorem State.onFibres_clean : (s.onFibres i l f).clean = s.clean := rfl
@[simp] theorem State.onFibres_errlog : (s.onFibres i l f).errlog = s.errlog := rfl
@[simp] theorem State.onFibres_down : (s.onFibres i l f).down = s.down := rfl
@[simp] theorem State.onFibres_lost : (s.onFibres i l f).lost = s.lost := rfl
@[simp] theorem State.onFibres_pools : (s.onFibres i l f).pools = s.pools := rfl
@[simp] theorem State.onFibres_lodged : (s.onFibres i l f).lodged = s.lodged := rfl
@[simp] theorem State.onFibres_posted : (s.onFibres i l f).posted = s.posted := rfl
@[simp] theorem State.onFibres_ahead : (s.onFibres i l f).ahead = s.ahead := rfl
@[simp] theorem State.onFibres_reports : (s.onFibres i l f).reports = s.reports := rfl
@[simp] theorem State.onFibres_notices : (s.onFibres i l f).notices = s.notices := rfl
@[simp] theorem State.onFibres_haltNotes : (s.onFibres i l f).haltNotes = s.haltNotes := rfl
end

/-! ### advance changes `crews` alone -/

section
variable (s : State) (i : Iss) (n : Nat)
@[simp] theorem State.advance_clock : (s.advance i n).clock = s.clock := rfl
@[simp] theorem State.advance_sched : (s.advance i n).sched = s.sched := rfl
@[simp] theorem State.advance_fresh : (s.advance i n).fresh = s.fresh := rfl
@[simp] theorem State.advance_cur : (s.advance i n).cur = s.cur := rfl
@[simp] theorem State.advance_stall : (s.advance i n).stall = s.stall := rfl
@[simp] theorem State.advance_dead : (s.advance i n).dead = s.dead := rfl
@[simp] theorem State.advance_alarm : (s.advance i n).alarm = s.alarm := rfl
@[simp] theorem State.advance_alarmAt : (s.advance i n).alarmAt = s.alarmAt := rfl
@[simp] theorem State.advance_pkg : (s.advance i n).pkg = s.pkg := rfl
@[simp] theorem State.advance_npkg : (s.advance i n).npkg = s.npkg := rfl
@[simp] theorem State.advance_fence : (s.advance i n).fence = s.fence := rfl
@[simp] theorem State.advance_mem : (s.advance i n).mem = s.mem := rfl
@[simp] theorem State.advance_home : (s.advance i n).home = s.home := rfl
@[simp] theorem State.advance_vers : (s.advance i n).vers = s.vers := rfl
@[simp] theorem State.advance_l1 : (s.advance i n).l1 = s.l1 := rfl
@[simp] theorem State.advance_icache : (s.advance i n).icache = s.icache := rfl
@[simp] theorem State.advance_tlb : (s.advance i n).tlb = s.tlb := rfl
@[simp] theorem State.advance_sb : (s.advance i n).sb = s.sb := rfl
@[simp] theorem State.advance_rq : (s.advance i n).rq = s.rq := rfl
@[simp] theorem State.advance_engines : (s.advance i n).engines = s.engines := rfl
@[simp] theorem State.advance_poison : (s.advance i n).poison = s.poison := rfl
@[simp] theorem State.advance_podMem : (s.advance i n).podMem = s.podMem := rfl
@[simp] theorem State.advance_hw : (s.advance i n).hw = s.hw := rfl
@[simp] theorem State.advance_hwBad : (s.advance i n).hwBad = s.hwBad := rfl
@[simp] theorem State.advance_arrive : (s.advance i n).arrive = s.arrive := rfl
@[simp] theorem State.advance_reqs : (s.advance i n).reqs = s.reqs := rfl
@[simp] theorem State.advance_wbs : (s.advance i n).wbs = s.wbs := rfl
@[simp] theorem State.advance_replies : (s.advance i n).replies = s.replies := rfl
@[simp] theorem State.advance_podOut : (s.advance i n).podOut = s.podOut := rfl
@[simp] theorem State.advance_linkWait : (s.advance i n).linkWait = s.linkWait := rfl
@[simp] theorem State.advance_nextTag : (s.advance i n).nextTag = s.nextTag := rfl
@[simp] theorem State.advance_ctxs : (s.advance i n).ctxs = s.ctxs := rfl
@[simp] theorem State.advance_units : (s.advance i n).units = s.units := rfl
@[simp] theorem State.advance_ways : (s.advance i n).ways = s.ways := rfl
@[simp] theorem State.advance_slWays : (s.advance i n).slWays = s.slWays := rfl
@[simp] theorem State.advance_wayAt : (s.advance i n).wayAt = s.wayAt := rfl
@[simp] theorem State.advance_shTags : (s.advance i n).shTags = s.shTags := rfl
@[simp] theorem State.advance_shHits : (s.advance i n).shHits = s.shHits := rfl
@[simp] theorem State.advance_fwd : (s.advance i n).fwd = s.fwd := rfl
@[simp] theorem State.advance_tokens : (s.advance i n).tokens = s.tokens := rfl
@[simp] theorem State.advance_holds : (s.advance i n).holds = s.holds := rfl
@[simp] theorem State.advance_sels : (s.advance i n).sels = s.sels := rfl
@[simp] theorem State.advance_fns : (s.advance i n).fns = s.fns := rfl
@[simp] theorem State.advance_policy : (s.advance i n).policy = s.policy := rfl
@[simp] theorem State.advance_hens : (s.advance i n).hens = s.hens := rfl
@[simp] theorem State.advance_rows : (s.advance i n).rows = s.rows := rfl
@[simp] theorem State.advance_rowAt : (s.advance i n).rowAt = s.rowAt := rfl
@[simp] theorem State.advance_rowWindow : (s.advance i n).rowWindow = s.rowWindow := rfl
@[simp] theorem State.advance_thermal : (s.advance i n).thermal = s.thermal := rfl
@[simp] theorem State.advance_hitWindow : (s.advance i n).hitWindow = s.hitWindow := rfl
@[simp] theorem State.advance_hits : (s.advance i n).hits = s.hits := rfl
@[simp] theorem State.advance_clean : (s.advance i n).clean = s.clean := rfl
@[simp] theorem State.advance_errlog : (s.advance i n).errlog = s.errlog := rfl
@[simp] theorem State.advance_down : (s.advance i n).down = s.down := rfl
@[simp] theorem State.advance_lost : (s.advance i n).lost = s.lost := rfl
@[simp] theorem State.advance_pools : (s.advance i n).pools = s.pools := rfl
@[simp] theorem State.advance_lodged : (s.advance i n).lodged = s.lodged := rfl
@[simp] theorem State.advance_posted : (s.advance i n).posted = s.posted := rfl
@[simp] theorem State.advance_ahead : (s.advance i n).ahead = s.ahead := rfl
@[simp] theorem State.advance_reports : (s.advance i n).reports = s.reports := rfl
@[simp] theorem State.advance_notices : (s.advance i n).notices = s.notices := rfl
@[simp] theorem State.advance_haltNotes : (s.advance i n).haltNotes = s.haltNotes := rfl
end

/-! ### setUnit changes `units` alone -/

section
variable (s : State) (u : MUnit)
@[simp] theorem State.setUnit_clock : (s.setUnit u).clock = s.clock := rfl
@[simp] theorem State.setUnit_sched : (s.setUnit u).sched = s.sched := rfl
@[simp] theorem State.setUnit_fresh : (s.setUnit u).fresh = s.fresh := rfl
@[simp] theorem State.setUnit_cur : (s.setUnit u).cur = s.cur := rfl
@[simp] theorem State.setUnit_stall : (s.setUnit u).stall = s.stall := rfl
@[simp] theorem State.setUnit_dead : (s.setUnit u).dead = s.dead := rfl
@[simp] theorem State.setUnit_alarm : (s.setUnit u).alarm = s.alarm := rfl
@[simp] theorem State.setUnit_alarmAt : (s.setUnit u).alarmAt = s.alarmAt := rfl
@[simp] theorem State.setUnit_pkg : (s.setUnit u).pkg = s.pkg := rfl
@[simp] theorem State.setUnit_npkg : (s.setUnit u).npkg = s.npkg := rfl
@[simp] theorem State.setUnit_fence : (s.setUnit u).fence = s.fence := rfl
@[simp] theorem State.setUnit_mem : (s.setUnit u).mem = s.mem := rfl
@[simp] theorem State.setUnit_home : (s.setUnit u).home = s.home := rfl
@[simp] theorem State.setUnit_vers : (s.setUnit u).vers = s.vers := rfl
@[simp] theorem State.setUnit_l1 : (s.setUnit u).l1 = s.l1 := rfl
@[simp] theorem State.setUnit_icache : (s.setUnit u).icache = s.icache := rfl
@[simp] theorem State.setUnit_tlb : (s.setUnit u).tlb = s.tlb := rfl
@[simp] theorem State.setUnit_sb : (s.setUnit u).sb = s.sb := rfl
@[simp] theorem State.setUnit_rq : (s.setUnit u).rq = s.rq := rfl
@[simp] theorem State.setUnit_engines : (s.setUnit u).engines = s.engines := rfl
@[simp] theorem State.setUnit_poison : (s.setUnit u).poison = s.poison := rfl
@[simp] theorem State.setUnit_podMem : (s.setUnit u).podMem = s.podMem := rfl
@[simp] theorem State.setUnit_hw : (s.setUnit u).hw = s.hw := rfl
@[simp] theorem State.setUnit_hwBad : (s.setUnit u).hwBad = s.hwBad := rfl
@[simp] theorem State.setUnit_arrive : (s.setUnit u).arrive = s.arrive := rfl
@[simp] theorem State.setUnit_reqs : (s.setUnit u).reqs = s.reqs := rfl
@[simp] theorem State.setUnit_wbs : (s.setUnit u).wbs = s.wbs := rfl
@[simp] theorem State.setUnit_replies : (s.setUnit u).replies = s.replies := rfl
@[simp] theorem State.setUnit_podOut : (s.setUnit u).podOut = s.podOut := rfl
@[simp] theorem State.setUnit_linkWait : (s.setUnit u).linkWait = s.linkWait := rfl
@[simp] theorem State.setUnit_nextTag : (s.setUnit u).nextTag = s.nextTag := rfl
@[simp] theorem State.setUnit_ctxs : (s.setUnit u).ctxs = s.ctxs := rfl
@[simp] theorem State.setUnit_crews : (s.setUnit u).crews = s.crews := rfl
@[simp] theorem State.setUnit_ways : (s.setUnit u).ways = s.ways := rfl
@[simp] theorem State.setUnit_slWays : (s.setUnit u).slWays = s.slWays := rfl
@[simp] theorem State.setUnit_wayAt : (s.setUnit u).wayAt = s.wayAt := rfl
@[simp] theorem State.setUnit_shTags : (s.setUnit u).shTags = s.shTags := rfl
@[simp] theorem State.setUnit_shHits : (s.setUnit u).shHits = s.shHits := rfl
@[simp] theorem State.setUnit_fwd : (s.setUnit u).fwd = s.fwd := rfl
@[simp] theorem State.setUnit_tokens : (s.setUnit u).tokens = s.tokens := rfl
@[simp] theorem State.setUnit_holds : (s.setUnit u).holds = s.holds := rfl
@[simp] theorem State.setUnit_sels : (s.setUnit u).sels = s.sels := rfl
@[simp] theorem State.setUnit_fns : (s.setUnit u).fns = s.fns := rfl
@[simp] theorem State.setUnit_policy : (s.setUnit u).policy = s.policy := rfl
@[simp] theorem State.setUnit_hens : (s.setUnit u).hens = s.hens := rfl
@[simp] theorem State.setUnit_rows : (s.setUnit u).rows = s.rows := rfl
@[simp] theorem State.setUnit_rowAt : (s.setUnit u).rowAt = s.rowAt := rfl
@[simp] theorem State.setUnit_rowWindow : (s.setUnit u).rowWindow = s.rowWindow := rfl
@[simp] theorem State.setUnit_thermal : (s.setUnit u).thermal = s.thermal := rfl
@[simp] theorem State.setUnit_hitWindow : (s.setUnit u).hitWindow = s.hitWindow := rfl
@[simp] theorem State.setUnit_hits : (s.setUnit u).hits = s.hits := rfl
@[simp] theorem State.setUnit_clean : (s.setUnit u).clean = s.clean := rfl
@[simp] theorem State.setUnit_errlog : (s.setUnit u).errlog = s.errlog := rfl
@[simp] theorem State.setUnit_down : (s.setUnit u).down = s.down := rfl
@[simp] theorem State.setUnit_lost : (s.setUnit u).lost = s.lost := rfl
@[simp] theorem State.setUnit_pools : (s.setUnit u).pools = s.pools := rfl
@[simp] theorem State.setUnit_lodged : (s.setUnit u).lodged = s.lodged := rfl
@[simp] theorem State.setUnit_posted : (s.setUnit u).posted = s.posted := rfl
@[simp] theorem State.setUnit_ahead : (s.setUnit u).ahead = s.ahead := rfl
@[simp] theorem State.setUnit_reports : (s.setUnit u).reports = s.reports := rfl
@[simp] theorem State.setUnit_notices : (s.setUnit u).notices = s.notices := rfl
@[simp] theorem State.setUnit_haltNotes : (s.setUnit u).haltNotes = s.haltNotes := rfl
end

/-! ### onUnit changes `units` alone -/

section
variable (s : State) (gq : Nat) (f : MUnit → MUnit)
@[simp] theorem State.onUnit_clock : (s.onUnit gq f).clock = s.clock := rfl
@[simp] theorem State.onUnit_sched : (s.onUnit gq f).sched = s.sched := rfl
@[simp] theorem State.onUnit_fresh : (s.onUnit gq f).fresh = s.fresh := rfl
@[simp] theorem State.onUnit_cur : (s.onUnit gq f).cur = s.cur := rfl
@[simp] theorem State.onUnit_stall : (s.onUnit gq f).stall = s.stall := rfl
@[simp] theorem State.onUnit_dead : (s.onUnit gq f).dead = s.dead := rfl
@[simp] theorem State.onUnit_alarm : (s.onUnit gq f).alarm = s.alarm := rfl
@[simp] theorem State.onUnit_alarmAt : (s.onUnit gq f).alarmAt = s.alarmAt := rfl
@[simp] theorem State.onUnit_pkg : (s.onUnit gq f).pkg = s.pkg := rfl
@[simp] theorem State.onUnit_npkg : (s.onUnit gq f).npkg = s.npkg := rfl
@[simp] theorem State.onUnit_fence : (s.onUnit gq f).fence = s.fence := rfl
@[simp] theorem State.onUnit_mem : (s.onUnit gq f).mem = s.mem := rfl
@[simp] theorem State.onUnit_home : (s.onUnit gq f).home = s.home := rfl
@[simp] theorem State.onUnit_vers : (s.onUnit gq f).vers = s.vers := rfl
@[simp] theorem State.onUnit_l1 : (s.onUnit gq f).l1 = s.l1 := rfl
@[simp] theorem State.onUnit_icache : (s.onUnit gq f).icache = s.icache := rfl
@[simp] theorem State.onUnit_tlb : (s.onUnit gq f).tlb = s.tlb := rfl
@[simp] theorem State.onUnit_sb : (s.onUnit gq f).sb = s.sb := rfl
@[simp] theorem State.onUnit_rq : (s.onUnit gq f).rq = s.rq := rfl
@[simp] theorem State.onUnit_engines : (s.onUnit gq f).engines = s.engines := rfl
@[simp] theorem State.onUnit_poison : (s.onUnit gq f).poison = s.poison := rfl
@[simp] theorem State.onUnit_podMem : (s.onUnit gq f).podMem = s.podMem := rfl
@[simp] theorem State.onUnit_hw : (s.onUnit gq f).hw = s.hw := rfl
@[simp] theorem State.onUnit_hwBad : (s.onUnit gq f).hwBad = s.hwBad := rfl
@[simp] theorem State.onUnit_arrive : (s.onUnit gq f).arrive = s.arrive := rfl
@[simp] theorem State.onUnit_reqs : (s.onUnit gq f).reqs = s.reqs := rfl
@[simp] theorem State.onUnit_wbs : (s.onUnit gq f).wbs = s.wbs := rfl
@[simp] theorem State.onUnit_replies : (s.onUnit gq f).replies = s.replies := rfl
@[simp] theorem State.onUnit_podOut : (s.onUnit gq f).podOut = s.podOut := rfl
@[simp] theorem State.onUnit_linkWait : (s.onUnit gq f).linkWait = s.linkWait := rfl
@[simp] theorem State.onUnit_nextTag : (s.onUnit gq f).nextTag = s.nextTag := rfl
@[simp] theorem State.onUnit_ctxs : (s.onUnit gq f).ctxs = s.ctxs := rfl
@[simp] theorem State.onUnit_crews : (s.onUnit gq f).crews = s.crews := rfl
@[simp] theorem State.onUnit_ways : (s.onUnit gq f).ways = s.ways := rfl
@[simp] theorem State.onUnit_slWays : (s.onUnit gq f).slWays = s.slWays := rfl
@[simp] theorem State.onUnit_wayAt : (s.onUnit gq f).wayAt = s.wayAt := rfl
@[simp] theorem State.onUnit_shTags : (s.onUnit gq f).shTags = s.shTags := rfl
@[simp] theorem State.onUnit_shHits : (s.onUnit gq f).shHits = s.shHits := rfl
@[simp] theorem State.onUnit_fwd : (s.onUnit gq f).fwd = s.fwd := rfl
@[simp] theorem State.onUnit_tokens : (s.onUnit gq f).tokens = s.tokens := rfl
@[simp] theorem State.onUnit_holds : (s.onUnit gq f).holds = s.holds := rfl
@[simp] theorem State.onUnit_sels : (s.onUnit gq f).sels = s.sels := rfl
@[simp] theorem State.onUnit_fns : (s.onUnit gq f).fns = s.fns := rfl
@[simp] theorem State.onUnit_policy : (s.onUnit gq f).policy = s.policy := rfl
@[simp] theorem State.onUnit_hens : (s.onUnit gq f).hens = s.hens := rfl
@[simp] theorem State.onUnit_rows : (s.onUnit gq f).rows = s.rows := rfl
@[simp] theorem State.onUnit_rowAt : (s.onUnit gq f).rowAt = s.rowAt := rfl
@[simp] theorem State.onUnit_rowWindow : (s.onUnit gq f).rowWindow = s.rowWindow := rfl
@[simp] theorem State.onUnit_thermal : (s.onUnit gq f).thermal = s.thermal := rfl
@[simp] theorem State.onUnit_hitWindow : (s.onUnit gq f).hitWindow = s.hitWindow := rfl
@[simp] theorem State.onUnit_hits : (s.onUnit gq f).hits = s.hits := rfl
@[simp] theorem State.onUnit_clean : (s.onUnit gq f).clean = s.clean := rfl
@[simp] theorem State.onUnit_errlog : (s.onUnit gq f).errlog = s.errlog := rfl
@[simp] theorem State.onUnit_down : (s.onUnit gq f).down = s.down := rfl
@[simp] theorem State.onUnit_lost : (s.onUnit gq f).lost = s.lost := rfl
@[simp] theorem State.onUnit_pools : (s.onUnit gq f).pools = s.pools := rfl
@[simp] theorem State.onUnit_lodged : (s.onUnit gq f).lodged = s.lodged := rfl
@[simp] theorem State.onUnit_posted : (s.onUnit gq f).posted = s.posted := rfl
@[simp] theorem State.onUnit_ahead : (s.onUnit gq f).ahead = s.ahead := rfl
@[simp] theorem State.onUnit_reports : (s.onUnit gq f).reports = s.reports := rfl
@[simp] theorem State.onUnit_notices : (s.onUnit gq f).notices = s.notices := rfl
@[simp] theorem State.onUnit_haltNotes : (s.onUnit gq f).haltNotes = s.haltNotes := rfl
end

/-! ### setFn changes `fns` alone -/

section
variable (s : State) (fn : Nat) (h : HostFn)
@[simp] theorem State.setFn_clock : (s.setFn fn h).clock = s.clock := rfl
@[simp] theorem State.setFn_sched : (s.setFn fn h).sched = s.sched := rfl
@[simp] theorem State.setFn_fresh : (s.setFn fn h).fresh = s.fresh := rfl
@[simp] theorem State.setFn_cur : (s.setFn fn h).cur = s.cur := rfl
@[simp] theorem State.setFn_stall : (s.setFn fn h).stall = s.stall := rfl
@[simp] theorem State.setFn_dead : (s.setFn fn h).dead = s.dead := rfl
@[simp] theorem State.setFn_alarm : (s.setFn fn h).alarm = s.alarm := rfl
@[simp] theorem State.setFn_alarmAt : (s.setFn fn h).alarmAt = s.alarmAt := rfl
@[simp] theorem State.setFn_pkg : (s.setFn fn h).pkg = s.pkg := rfl
@[simp] theorem State.setFn_npkg : (s.setFn fn h).npkg = s.npkg := rfl
@[simp] theorem State.setFn_fence : (s.setFn fn h).fence = s.fence := rfl
@[simp] theorem State.setFn_mem : (s.setFn fn h).mem = s.mem := rfl
@[simp] theorem State.setFn_home : (s.setFn fn h).home = s.home := rfl
@[simp] theorem State.setFn_vers : (s.setFn fn h).vers = s.vers := rfl
@[simp] theorem State.setFn_l1 : (s.setFn fn h).l1 = s.l1 := rfl
@[simp] theorem State.setFn_icache : (s.setFn fn h).icache = s.icache := rfl
@[simp] theorem State.setFn_tlb : (s.setFn fn h).tlb = s.tlb := rfl
@[simp] theorem State.setFn_sb : (s.setFn fn h).sb = s.sb := rfl
@[simp] theorem State.setFn_rq : (s.setFn fn h).rq = s.rq := rfl
@[simp] theorem State.setFn_engines : (s.setFn fn h).engines = s.engines := rfl
@[simp] theorem State.setFn_poison : (s.setFn fn h).poison = s.poison := rfl
@[simp] theorem State.setFn_podMem : (s.setFn fn h).podMem = s.podMem := rfl
@[simp] theorem State.setFn_hw : (s.setFn fn h).hw = s.hw := rfl
@[simp] theorem State.setFn_hwBad : (s.setFn fn h).hwBad = s.hwBad := rfl
@[simp] theorem State.setFn_arrive : (s.setFn fn h).arrive = s.arrive := rfl
@[simp] theorem State.setFn_reqs : (s.setFn fn h).reqs = s.reqs := rfl
@[simp] theorem State.setFn_wbs : (s.setFn fn h).wbs = s.wbs := rfl
@[simp] theorem State.setFn_replies : (s.setFn fn h).replies = s.replies := rfl
@[simp] theorem State.setFn_podOut : (s.setFn fn h).podOut = s.podOut := rfl
@[simp] theorem State.setFn_linkWait : (s.setFn fn h).linkWait = s.linkWait := rfl
@[simp] theorem State.setFn_nextTag : (s.setFn fn h).nextTag = s.nextTag := rfl
@[simp] theorem State.setFn_ctxs : (s.setFn fn h).ctxs = s.ctxs := rfl
@[simp] theorem State.setFn_crews : (s.setFn fn h).crews = s.crews := rfl
@[simp] theorem State.setFn_units : (s.setFn fn h).units = s.units := rfl
@[simp] theorem State.setFn_ways : (s.setFn fn h).ways = s.ways := rfl
@[simp] theorem State.setFn_slWays : (s.setFn fn h).slWays = s.slWays := rfl
@[simp] theorem State.setFn_wayAt : (s.setFn fn h).wayAt = s.wayAt := rfl
@[simp] theorem State.setFn_shTags : (s.setFn fn h).shTags = s.shTags := rfl
@[simp] theorem State.setFn_shHits : (s.setFn fn h).shHits = s.shHits := rfl
@[simp] theorem State.setFn_fwd : (s.setFn fn h).fwd = s.fwd := rfl
@[simp] theorem State.setFn_tokens : (s.setFn fn h).tokens = s.tokens := rfl
@[simp] theorem State.setFn_holds : (s.setFn fn h).holds = s.holds := rfl
@[simp] theorem State.setFn_sels : (s.setFn fn h).sels = s.sels := rfl
@[simp] theorem State.setFn_policy : (s.setFn fn h).policy = s.policy := rfl
@[simp] theorem State.setFn_hens : (s.setFn fn h).hens = s.hens := rfl
@[simp] theorem State.setFn_rows : (s.setFn fn h).rows = s.rows := rfl
@[simp] theorem State.setFn_rowAt : (s.setFn fn h).rowAt = s.rowAt := rfl
@[simp] theorem State.setFn_rowWindow : (s.setFn fn h).rowWindow = s.rowWindow := rfl
@[simp] theorem State.setFn_thermal : (s.setFn fn h).thermal = s.thermal := rfl
@[simp] theorem State.setFn_hitWindow : (s.setFn fn h).hitWindow = s.hitWindow := rfl
@[simp] theorem State.setFn_hits : (s.setFn fn h).hits = s.hits := rfl
@[simp] theorem State.setFn_clean : (s.setFn fn h).clean = s.clean := rfl
@[simp] theorem State.setFn_errlog : (s.setFn fn h).errlog = s.errlog := rfl
@[simp] theorem State.setFn_down : (s.setFn fn h).down = s.down := rfl
@[simp] theorem State.setFn_lost : (s.setFn fn h).lost = s.lost := rfl
@[simp] theorem State.setFn_pools : (s.setFn fn h).pools = s.pools := rfl
@[simp] theorem State.setFn_lodged : (s.setFn fn h).lodged = s.lodged := rfl
@[simp] theorem State.setFn_posted : (s.setFn fn h).posted = s.posted := rfl
@[simp] theorem State.setFn_ahead : (s.setFn fn h).ahead = s.ahead := rfl
@[simp] theorem State.setFn_reports : (s.setFn fn h).reports = s.reports := rfl
@[simp] theorem State.setFn_notices : (s.setFn fn h).notices = s.notices := rfl
@[simp] theorem State.setFn_haltNotes : (s.setFn fn h).haltNotes = s.haltNotes := rfl
end

/-! ### setHen changes `hens` alone -/

section
variable (s : State) (stack : Nat) (h : Hen)
@[simp] theorem State.setHen_clock : (s.setHen stack h).clock = s.clock := rfl
@[simp] theorem State.setHen_sched : (s.setHen stack h).sched = s.sched := rfl
@[simp] theorem State.setHen_fresh : (s.setHen stack h).fresh = s.fresh := rfl
@[simp] theorem State.setHen_cur : (s.setHen stack h).cur = s.cur := rfl
@[simp] theorem State.setHen_stall : (s.setHen stack h).stall = s.stall := rfl
@[simp] theorem State.setHen_dead : (s.setHen stack h).dead = s.dead := rfl
@[simp] theorem State.setHen_alarm : (s.setHen stack h).alarm = s.alarm := rfl
@[simp] theorem State.setHen_alarmAt : (s.setHen stack h).alarmAt = s.alarmAt := rfl
@[simp] theorem State.setHen_pkg : (s.setHen stack h).pkg = s.pkg := rfl
@[simp] theorem State.setHen_npkg : (s.setHen stack h).npkg = s.npkg := rfl
@[simp] theorem State.setHen_fence : (s.setHen stack h).fence = s.fence := rfl
@[simp] theorem State.setHen_mem : (s.setHen stack h).mem = s.mem := rfl
@[simp] theorem State.setHen_home : (s.setHen stack h).home = s.home := rfl
@[simp] theorem State.setHen_vers : (s.setHen stack h).vers = s.vers := rfl
@[simp] theorem State.setHen_l1 : (s.setHen stack h).l1 = s.l1 := rfl
@[simp] theorem State.setHen_icache : (s.setHen stack h).icache = s.icache := rfl
@[simp] theorem State.setHen_tlb : (s.setHen stack h).tlb = s.tlb := rfl
@[simp] theorem State.setHen_sb : (s.setHen stack h).sb = s.sb := rfl
@[simp] theorem State.setHen_rq : (s.setHen stack h).rq = s.rq := rfl
@[simp] theorem State.setHen_engines : (s.setHen stack h).engines = s.engines := rfl
@[simp] theorem State.setHen_poison : (s.setHen stack h).poison = s.poison := rfl
@[simp] theorem State.setHen_podMem : (s.setHen stack h).podMem = s.podMem := rfl
@[simp] theorem State.setHen_hw : (s.setHen stack h).hw = s.hw := rfl
@[simp] theorem State.setHen_hwBad : (s.setHen stack h).hwBad = s.hwBad := rfl
@[simp] theorem State.setHen_arrive : (s.setHen stack h).arrive = s.arrive := rfl
@[simp] theorem State.setHen_reqs : (s.setHen stack h).reqs = s.reqs := rfl
@[simp] theorem State.setHen_wbs : (s.setHen stack h).wbs = s.wbs := rfl
@[simp] theorem State.setHen_replies : (s.setHen stack h).replies = s.replies := rfl
@[simp] theorem State.setHen_podOut : (s.setHen stack h).podOut = s.podOut := rfl
@[simp] theorem State.setHen_linkWait : (s.setHen stack h).linkWait = s.linkWait := rfl
@[simp] theorem State.setHen_nextTag : (s.setHen stack h).nextTag = s.nextTag := rfl
@[simp] theorem State.setHen_ctxs : (s.setHen stack h).ctxs = s.ctxs := rfl
@[simp] theorem State.setHen_crews : (s.setHen stack h).crews = s.crews := rfl
@[simp] theorem State.setHen_units : (s.setHen stack h).units = s.units := rfl
@[simp] theorem State.setHen_ways : (s.setHen stack h).ways = s.ways := rfl
@[simp] theorem State.setHen_slWays : (s.setHen stack h).slWays = s.slWays := rfl
@[simp] theorem State.setHen_wayAt : (s.setHen stack h).wayAt = s.wayAt := rfl
@[simp] theorem State.setHen_shTags : (s.setHen stack h).shTags = s.shTags := rfl
@[simp] theorem State.setHen_shHits : (s.setHen stack h).shHits = s.shHits := rfl
@[simp] theorem State.setHen_fwd : (s.setHen stack h).fwd = s.fwd := rfl
@[simp] theorem State.setHen_tokens : (s.setHen stack h).tokens = s.tokens := rfl
@[simp] theorem State.setHen_holds : (s.setHen stack h).holds = s.holds := rfl
@[simp] theorem State.setHen_sels : (s.setHen stack h).sels = s.sels := rfl
@[simp] theorem State.setHen_fns : (s.setHen stack h).fns = s.fns := rfl
@[simp] theorem State.setHen_policy : (s.setHen stack h).policy = s.policy := rfl
@[simp] theorem State.setHen_rows : (s.setHen stack h).rows = s.rows := rfl
@[simp] theorem State.setHen_rowAt : (s.setHen stack h).rowAt = s.rowAt := rfl
@[simp] theorem State.setHen_rowWindow : (s.setHen stack h).rowWindow = s.rowWindow := rfl
@[simp] theorem State.setHen_thermal : (s.setHen stack h).thermal = s.thermal := rfl
@[simp] theorem State.setHen_hitWindow : (s.setHen stack h).hitWindow = s.hitWindow := rfl
@[simp] theorem State.setHen_hits : (s.setHen stack h).hits = s.hits := rfl
@[simp] theorem State.setHen_clean : (s.setHen stack h).clean = s.clean := rfl
@[simp] theorem State.setHen_errlog : (s.setHen stack h).errlog = s.errlog := rfl
@[simp] theorem State.setHen_down : (s.setHen stack h).down = s.down := rfl
@[simp] theorem State.setHen_lost : (s.setHen stack h).lost = s.lost := rfl
@[simp] theorem State.setHen_pools : (s.setHen stack h).pools = s.pools := rfl
@[simp] theorem State.setHen_lodged : (s.setHen stack h).lodged = s.lodged := rfl
@[simp] theorem State.setHen_posted : (s.setHen stack h).posted = s.posted := rfl
@[simp] theorem State.setHen_ahead : (s.setHen stack h).ahead = s.ahead := rfl
@[simp] theorem State.setHen_reports : (s.setHen stack h).reports = s.reports := rfl
@[simp] theorem State.setHen_notices : (s.setHen stack h).notices = s.notices := rfl
@[simp] theorem State.setHen_haltNotes : (s.setHen stack h).haltNotes = s.haltNotes := rfl
end

/-! ### onPolicy changes `policy` alone -/

section
variable (s : State) (f : Policy → Policy)
@[simp] theorem State.onPolicy_clock : (s.onPolicy f).clock = s.clock := rfl
@[simp] theorem State.onPolicy_sched : (s.onPolicy f).sched = s.sched := rfl
@[simp] theorem State.onPolicy_fresh : (s.onPolicy f).fresh = s.fresh := rfl
@[simp] theorem State.onPolicy_cur : (s.onPolicy f).cur = s.cur := rfl
@[simp] theorem State.onPolicy_stall : (s.onPolicy f).stall = s.stall := rfl
@[simp] theorem State.onPolicy_dead : (s.onPolicy f).dead = s.dead := rfl
@[simp] theorem State.onPolicy_alarm : (s.onPolicy f).alarm = s.alarm := rfl
@[simp] theorem State.onPolicy_alarmAt : (s.onPolicy f).alarmAt = s.alarmAt := rfl
@[simp] theorem State.onPolicy_pkg : (s.onPolicy f).pkg = s.pkg := rfl
@[simp] theorem State.onPolicy_npkg : (s.onPolicy f).npkg = s.npkg := rfl
@[simp] theorem State.onPolicy_fence : (s.onPolicy f).fence = s.fence := rfl
@[simp] theorem State.onPolicy_mem : (s.onPolicy f).mem = s.mem := rfl
@[simp] theorem State.onPolicy_home : (s.onPolicy f).home = s.home := rfl
@[simp] theorem State.onPolicy_vers : (s.onPolicy f).vers = s.vers := rfl
@[simp] theorem State.onPolicy_l1 : (s.onPolicy f).l1 = s.l1 := rfl
@[simp] theorem State.onPolicy_icache : (s.onPolicy f).icache = s.icache := rfl
@[simp] theorem State.onPolicy_tlb : (s.onPolicy f).tlb = s.tlb := rfl
@[simp] theorem State.onPolicy_sb : (s.onPolicy f).sb = s.sb := rfl
@[simp] theorem State.onPolicy_rq : (s.onPolicy f).rq = s.rq := rfl
@[simp] theorem State.onPolicy_engines : (s.onPolicy f).engines = s.engines := rfl
@[simp] theorem State.onPolicy_poison : (s.onPolicy f).poison = s.poison := rfl
@[simp] theorem State.onPolicy_podMem : (s.onPolicy f).podMem = s.podMem := rfl
@[simp] theorem State.onPolicy_hw : (s.onPolicy f).hw = s.hw := rfl
@[simp] theorem State.onPolicy_hwBad : (s.onPolicy f).hwBad = s.hwBad := rfl
@[simp] theorem State.onPolicy_arrive : (s.onPolicy f).arrive = s.arrive := rfl
@[simp] theorem State.onPolicy_reqs : (s.onPolicy f).reqs = s.reqs := rfl
@[simp] theorem State.onPolicy_wbs : (s.onPolicy f).wbs = s.wbs := rfl
@[simp] theorem State.onPolicy_replies : (s.onPolicy f).replies = s.replies := rfl
@[simp] theorem State.onPolicy_podOut : (s.onPolicy f).podOut = s.podOut := rfl
@[simp] theorem State.onPolicy_linkWait : (s.onPolicy f).linkWait = s.linkWait := rfl
@[simp] theorem State.onPolicy_nextTag : (s.onPolicy f).nextTag = s.nextTag := rfl
@[simp] theorem State.onPolicy_ctxs : (s.onPolicy f).ctxs = s.ctxs := rfl
@[simp] theorem State.onPolicy_crews : (s.onPolicy f).crews = s.crews := rfl
@[simp] theorem State.onPolicy_units : (s.onPolicy f).units = s.units := rfl
@[simp] theorem State.onPolicy_ways : (s.onPolicy f).ways = s.ways := rfl
@[simp] theorem State.onPolicy_slWays : (s.onPolicy f).slWays = s.slWays := rfl
@[simp] theorem State.onPolicy_wayAt : (s.onPolicy f).wayAt = s.wayAt := rfl
@[simp] theorem State.onPolicy_shTags : (s.onPolicy f).shTags = s.shTags := rfl
@[simp] theorem State.onPolicy_shHits : (s.onPolicy f).shHits = s.shHits := rfl
@[simp] theorem State.onPolicy_fwd : (s.onPolicy f).fwd = s.fwd := rfl
@[simp] theorem State.onPolicy_tokens : (s.onPolicy f).tokens = s.tokens := rfl
@[simp] theorem State.onPolicy_holds : (s.onPolicy f).holds = s.holds := rfl
@[simp] theorem State.onPolicy_sels : (s.onPolicy f).sels = s.sels := rfl
@[simp] theorem State.onPolicy_fns : (s.onPolicy f).fns = s.fns := rfl
@[simp] theorem State.onPolicy_hens : (s.onPolicy f).hens = s.hens := rfl
@[simp] theorem State.onPolicy_rows : (s.onPolicy f).rows = s.rows := rfl
@[simp] theorem State.onPolicy_rowAt : (s.onPolicy f).rowAt = s.rowAt := rfl
@[simp] theorem State.onPolicy_rowWindow : (s.onPolicy f).rowWindow = s.rowWindow := rfl
@[simp] theorem State.onPolicy_thermal : (s.onPolicy f).thermal = s.thermal := rfl
@[simp] theorem State.onPolicy_hitWindow : (s.onPolicy f).hitWindow = s.hitWindow := rfl
@[simp] theorem State.onPolicy_hits : (s.onPolicy f).hits = s.hits := rfl
@[simp] theorem State.onPolicy_clean : (s.onPolicy f).clean = s.clean := rfl
@[simp] theorem State.onPolicy_errlog : (s.onPolicy f).errlog = s.errlog := rfl
@[simp] theorem State.onPolicy_down : (s.onPolicy f).down = s.down := rfl
@[simp] theorem State.onPolicy_lost : (s.onPolicy f).lost = s.lost := rfl
@[simp] theorem State.onPolicy_pools : (s.onPolicy f).pools = s.pools := rfl
@[simp] theorem State.onPolicy_lodged : (s.onPolicy f).lodged = s.lodged := rfl
@[simp] theorem State.onPolicy_posted : (s.onPolicy f).posted = s.posted := rfl
@[simp] theorem State.onPolicy_ahead : (s.onPolicy f).ahead = s.ahead := rfl
@[simp] theorem State.onPolicy_reports : (s.onPolicy f).reports = s.reports := rfl
@[simp] theorem State.onPolicy_notices : (s.onPolicy f).notices = s.notices := rfl
@[simp] theorem State.onPolicy_haltNotes : (s.onPolicy f).haltNotes = s.haltNotes := rfl
end

/-! ### updEngine changes `engines` alone -/

section
variable (s : State) (id : Nat) (f : Engine → Engine)
@[simp] theorem State.updEngine_clock : (s.updEngine id f).clock = s.clock := rfl
@[simp] theorem State.updEngine_sched : (s.updEngine id f).sched = s.sched := rfl
@[simp] theorem State.updEngine_fresh : (s.updEngine id f).fresh = s.fresh := rfl
@[simp] theorem State.updEngine_cur : (s.updEngine id f).cur = s.cur := rfl
@[simp] theorem State.updEngine_stall : (s.updEngine id f).stall = s.stall := rfl
@[simp] theorem State.updEngine_dead : (s.updEngine id f).dead = s.dead := rfl
@[simp] theorem State.updEngine_alarm : (s.updEngine id f).alarm = s.alarm := rfl
@[simp] theorem State.updEngine_alarmAt : (s.updEngine id f).alarmAt = s.alarmAt := rfl
@[simp] theorem State.updEngine_pkg : (s.updEngine id f).pkg = s.pkg := rfl
@[simp] theorem State.updEngine_npkg : (s.updEngine id f).npkg = s.npkg := rfl
@[simp] theorem State.updEngine_fence : (s.updEngine id f).fence = s.fence := rfl
@[simp] theorem State.updEngine_mem : (s.updEngine id f).mem = s.mem := rfl
@[simp] theorem State.updEngine_home : (s.updEngine id f).home = s.home := rfl
@[simp] theorem State.updEngine_vers : (s.updEngine id f).vers = s.vers := rfl
@[simp] theorem State.updEngine_l1 : (s.updEngine id f).l1 = s.l1 := rfl
@[simp] theorem State.updEngine_icache : (s.updEngine id f).icache = s.icache := rfl
@[simp] theorem State.updEngine_tlb : (s.updEngine id f).tlb = s.tlb := rfl
@[simp] theorem State.updEngine_sb : (s.updEngine id f).sb = s.sb := rfl
@[simp] theorem State.updEngine_rq : (s.updEngine id f).rq = s.rq := rfl
@[simp] theorem State.updEngine_poison : (s.updEngine id f).poison = s.poison := rfl
@[simp] theorem State.updEngine_podMem : (s.updEngine id f).podMem = s.podMem := rfl
@[simp] theorem State.updEngine_hw : (s.updEngine id f).hw = s.hw := rfl
@[simp] theorem State.updEngine_hwBad : (s.updEngine id f).hwBad = s.hwBad := rfl
@[simp] theorem State.updEngine_arrive : (s.updEngine id f).arrive = s.arrive := rfl
@[simp] theorem State.updEngine_reqs : (s.updEngine id f).reqs = s.reqs := rfl
@[simp] theorem State.updEngine_wbs : (s.updEngine id f).wbs = s.wbs := rfl
@[simp] theorem State.updEngine_replies : (s.updEngine id f).replies = s.replies := rfl
@[simp] theorem State.updEngine_podOut : (s.updEngine id f).podOut = s.podOut := rfl
@[simp] theorem State.updEngine_linkWait : (s.updEngine id f).linkWait = s.linkWait := rfl
@[simp] theorem State.updEngine_nextTag : (s.updEngine id f).nextTag = s.nextTag := rfl
@[simp] theorem State.updEngine_ctxs : (s.updEngine id f).ctxs = s.ctxs := rfl
@[simp] theorem State.updEngine_crews : (s.updEngine id f).crews = s.crews := rfl
@[simp] theorem State.updEngine_units : (s.updEngine id f).units = s.units := rfl
@[simp] theorem State.updEngine_ways : (s.updEngine id f).ways = s.ways := rfl
@[simp] theorem State.updEngine_slWays : (s.updEngine id f).slWays = s.slWays := rfl
@[simp] theorem State.updEngine_wayAt : (s.updEngine id f).wayAt = s.wayAt := rfl
@[simp] theorem State.updEngine_shTags : (s.updEngine id f).shTags = s.shTags := rfl
@[simp] theorem State.updEngine_shHits : (s.updEngine id f).shHits = s.shHits := rfl
@[simp] theorem State.updEngine_fwd : (s.updEngine id f).fwd = s.fwd := rfl
@[simp] theorem State.updEngine_tokens : (s.updEngine id f).tokens = s.tokens := rfl
@[simp] theorem State.updEngine_holds : (s.updEngine id f).holds = s.holds := rfl
@[simp] theorem State.updEngine_sels : (s.updEngine id f).sels = s.sels := rfl
@[simp] theorem State.updEngine_fns : (s.updEngine id f).fns = s.fns := rfl
@[simp] theorem State.updEngine_policy : (s.updEngine id f).policy = s.policy := rfl
@[simp] theorem State.updEngine_hens : (s.updEngine id f).hens = s.hens := rfl
@[simp] theorem State.updEngine_rows : (s.updEngine id f).rows = s.rows := rfl
@[simp] theorem State.updEngine_rowAt : (s.updEngine id f).rowAt = s.rowAt := rfl
@[simp] theorem State.updEngine_rowWindow : (s.updEngine id f).rowWindow = s.rowWindow := rfl
@[simp] theorem State.updEngine_thermal : (s.updEngine id f).thermal = s.thermal := rfl
@[simp] theorem State.updEngine_hitWindow : (s.updEngine id f).hitWindow = s.hitWindow := rfl
@[simp] theorem State.updEngine_hits : (s.updEngine id f).hits = s.hits := rfl
@[simp] theorem State.updEngine_clean : (s.updEngine id f).clean = s.clean := rfl
@[simp] theorem State.updEngine_errlog : (s.updEngine id f).errlog = s.errlog := rfl
@[simp] theorem State.updEngine_down : (s.updEngine id f).down = s.down := rfl
@[simp] theorem State.updEngine_lost : (s.updEngine id f).lost = s.lost := rfl
@[simp] theorem State.updEngine_pools : (s.updEngine id f).pools = s.pools := rfl
@[simp] theorem State.updEngine_lodged : (s.updEngine id f).lodged = s.lodged := rfl
@[simp] theorem State.updEngine_posted : (s.updEngine id f).posted = s.posted := rfl
@[simp] theorem State.updEngine_ahead : (s.updEngine id f).ahead = s.ahead := rfl
@[simp] theorem State.updEngine_reports : (s.updEngine id f).reports = s.reports := rfl
@[simp] theorem State.updEngine_notices : (s.updEngine id f).notices = s.notices := rfl
@[simp] theorem State.updEngine_haltNotes : (s.updEngine id f).haltNotes = s.haltNotes := rfl
end

/-! ### updHome changes `home` alone -/

section
variable (s : State) (part l : Nat) (f : HomeLine → HomeLine)
@[simp] theorem State.updHome_clock : (s.updHome part l f).clock = s.clock := rfl
@[simp] theorem State.updHome_sched : (s.updHome part l f).sched = s.sched := rfl
@[simp] theorem State.updHome_fresh : (s.updHome part l f).fresh = s.fresh := rfl
@[simp] theorem State.updHome_cur : (s.updHome part l f).cur = s.cur := rfl
@[simp] theorem State.updHome_stall : (s.updHome part l f).stall = s.stall := rfl
@[simp] theorem State.updHome_dead : (s.updHome part l f).dead = s.dead := rfl
@[simp] theorem State.updHome_alarm : (s.updHome part l f).alarm = s.alarm := rfl
@[simp] theorem State.updHome_alarmAt : (s.updHome part l f).alarmAt = s.alarmAt := rfl
@[simp] theorem State.updHome_pkg : (s.updHome part l f).pkg = s.pkg := rfl
@[simp] theorem State.updHome_npkg : (s.updHome part l f).npkg = s.npkg := rfl
@[simp] theorem State.updHome_fence : (s.updHome part l f).fence = s.fence := rfl
@[simp] theorem State.updHome_mem : (s.updHome part l f).mem = s.mem := rfl
@[simp] theorem State.updHome_vers : (s.updHome part l f).vers = s.vers := rfl
@[simp] theorem State.updHome_l1 : (s.updHome part l f).l1 = s.l1 := rfl
@[simp] theorem State.updHome_icache : (s.updHome part l f).icache = s.icache := rfl
@[simp] theorem State.updHome_tlb : (s.updHome part l f).tlb = s.tlb := rfl
@[simp] theorem State.updHome_sb : (s.updHome part l f).sb = s.sb := rfl
@[simp] theorem State.updHome_rq : (s.updHome part l f).rq = s.rq := rfl
@[simp] theorem State.updHome_engines : (s.updHome part l f).engines = s.engines := rfl
@[simp] theorem State.updHome_poison : (s.updHome part l f).poison = s.poison := rfl
@[simp] theorem State.updHome_podMem : (s.updHome part l f).podMem = s.podMem := rfl
@[simp] theorem State.updHome_hw : (s.updHome part l f).hw = s.hw := rfl
@[simp] theorem State.updHome_hwBad : (s.updHome part l f).hwBad = s.hwBad := rfl
@[simp] theorem State.updHome_arrive : (s.updHome part l f).arrive = s.arrive := rfl
@[simp] theorem State.updHome_reqs : (s.updHome part l f).reqs = s.reqs := rfl
@[simp] theorem State.updHome_wbs : (s.updHome part l f).wbs = s.wbs := rfl
@[simp] theorem State.updHome_replies : (s.updHome part l f).replies = s.replies := rfl
@[simp] theorem State.updHome_podOut : (s.updHome part l f).podOut = s.podOut := rfl
@[simp] theorem State.updHome_linkWait : (s.updHome part l f).linkWait = s.linkWait := rfl
@[simp] theorem State.updHome_nextTag : (s.updHome part l f).nextTag = s.nextTag := rfl
@[simp] theorem State.updHome_ctxs : (s.updHome part l f).ctxs = s.ctxs := rfl
@[simp] theorem State.updHome_crews : (s.updHome part l f).crews = s.crews := rfl
@[simp] theorem State.updHome_units : (s.updHome part l f).units = s.units := rfl
@[simp] theorem State.updHome_ways : (s.updHome part l f).ways = s.ways := rfl
@[simp] theorem State.updHome_slWays : (s.updHome part l f).slWays = s.slWays := rfl
@[simp] theorem State.updHome_wayAt : (s.updHome part l f).wayAt = s.wayAt := rfl
@[simp] theorem State.updHome_shTags : (s.updHome part l f).shTags = s.shTags := rfl
@[simp] theorem State.updHome_shHits : (s.updHome part l f).shHits = s.shHits := rfl
@[simp] theorem State.updHome_fwd : (s.updHome part l f).fwd = s.fwd := rfl
@[simp] theorem State.updHome_tokens : (s.updHome part l f).tokens = s.tokens := rfl
@[simp] theorem State.updHome_holds : (s.updHome part l f).holds = s.holds := rfl
@[simp] theorem State.updHome_sels : (s.updHome part l f).sels = s.sels := rfl
@[simp] theorem State.updHome_fns : (s.updHome part l f).fns = s.fns := rfl
@[simp] theorem State.updHome_policy : (s.updHome part l f).policy = s.policy := rfl
@[simp] theorem State.updHome_hens : (s.updHome part l f).hens = s.hens := rfl
@[simp] theorem State.updHome_rows : (s.updHome part l f).rows = s.rows := rfl
@[simp] theorem State.updHome_rowAt : (s.updHome part l f).rowAt = s.rowAt := rfl
@[simp] theorem State.updHome_rowWindow : (s.updHome part l f).rowWindow = s.rowWindow := rfl
@[simp] theorem State.updHome_thermal : (s.updHome part l f).thermal = s.thermal := rfl
@[simp] theorem State.updHome_hitWindow : (s.updHome part l f).hitWindow = s.hitWindow := rfl
@[simp] theorem State.updHome_hits : (s.updHome part l f).hits = s.hits := rfl
@[simp] theorem State.updHome_clean : (s.updHome part l f).clean = s.clean := rfl
@[simp] theorem State.updHome_errlog : (s.updHome part l f).errlog = s.errlog := rfl
@[simp] theorem State.updHome_down : (s.updHome part l f).down = s.down := rfl
@[simp] theorem State.updHome_lost : (s.updHome part l f).lost = s.lost := rfl
@[simp] theorem State.updHome_pools : (s.updHome part l f).pools = s.pools := rfl
@[simp] theorem State.updHome_lodged : (s.updHome part l f).lodged = s.lodged := rfl
@[simp] theorem State.updHome_posted : (s.updHome part l f).posted = s.posted := rfl
@[simp] theorem State.updHome_ahead : (s.updHome part l f).ahead = s.ahead := rfl
@[simp] theorem State.updHome_reports : (s.updHome part l f).reports = s.reports := rfl
@[simp] theorem State.updHome_notices : (s.updHome part l f).notices = s.notices := rfl
@[simp] theorem State.updHome_haltNotes : (s.updHome part l f).haltNotes = s.haltNotes := rfl
end

/-! ### poisonSector changes `poison` alone -/

section
variable (s : State) (sec : Nat)
@[simp] theorem State.poisonSector_clock : (s.poisonSector sec).clock = s.clock := rfl
@[simp] theorem State.poisonSector_sched : (s.poisonSector sec).sched = s.sched := rfl
@[simp] theorem State.poisonSector_fresh : (s.poisonSector sec).fresh = s.fresh := rfl
@[simp] theorem State.poisonSector_cur : (s.poisonSector sec).cur = s.cur := rfl
@[simp] theorem State.poisonSector_stall : (s.poisonSector sec).stall = s.stall := rfl
@[simp] theorem State.poisonSector_dead : (s.poisonSector sec).dead = s.dead := rfl
@[simp] theorem State.poisonSector_alarm : (s.poisonSector sec).alarm = s.alarm := rfl
@[simp] theorem State.poisonSector_alarmAt : (s.poisonSector sec).alarmAt = s.alarmAt := rfl
@[simp] theorem State.poisonSector_pkg : (s.poisonSector sec).pkg = s.pkg := rfl
@[simp] theorem State.poisonSector_npkg : (s.poisonSector sec).npkg = s.npkg := rfl
@[simp] theorem State.poisonSector_fence : (s.poisonSector sec).fence = s.fence := rfl
@[simp] theorem State.poisonSector_mem : (s.poisonSector sec).mem = s.mem := rfl
@[simp] theorem State.poisonSector_home : (s.poisonSector sec).home = s.home := rfl
@[simp] theorem State.poisonSector_vers : (s.poisonSector sec).vers = s.vers := rfl
@[simp] theorem State.poisonSector_l1 : (s.poisonSector sec).l1 = s.l1 := rfl
@[simp] theorem State.poisonSector_icache : (s.poisonSector sec).icache = s.icache := rfl
@[simp] theorem State.poisonSector_tlb : (s.poisonSector sec).tlb = s.tlb := rfl
@[simp] theorem State.poisonSector_sb : (s.poisonSector sec).sb = s.sb := rfl
@[simp] theorem State.poisonSector_rq : (s.poisonSector sec).rq = s.rq := rfl
@[simp] theorem State.poisonSector_engines : (s.poisonSector sec).engines = s.engines := rfl
@[simp] theorem State.poisonSector_podMem : (s.poisonSector sec).podMem = s.podMem := rfl
@[simp] theorem State.poisonSector_hw : (s.poisonSector sec).hw = s.hw := rfl
@[simp] theorem State.poisonSector_hwBad : (s.poisonSector sec).hwBad = s.hwBad := rfl
@[simp] theorem State.poisonSector_arrive : (s.poisonSector sec).arrive = s.arrive := rfl
@[simp] theorem State.poisonSector_reqs : (s.poisonSector sec).reqs = s.reqs := rfl
@[simp] theorem State.poisonSector_wbs : (s.poisonSector sec).wbs = s.wbs := rfl
@[simp] theorem State.poisonSector_replies : (s.poisonSector sec).replies = s.replies := rfl
@[simp] theorem State.poisonSector_podOut : (s.poisonSector sec).podOut = s.podOut := rfl
@[simp] theorem State.poisonSector_linkWait : (s.poisonSector sec).linkWait = s.linkWait := rfl
@[simp] theorem State.poisonSector_nextTag : (s.poisonSector sec).nextTag = s.nextTag := rfl
@[simp] theorem State.poisonSector_ctxs : (s.poisonSector sec).ctxs = s.ctxs := rfl
@[simp] theorem State.poisonSector_crews : (s.poisonSector sec).crews = s.crews := rfl
@[simp] theorem State.poisonSector_units : (s.poisonSector sec).units = s.units := rfl
@[simp] theorem State.poisonSector_ways : (s.poisonSector sec).ways = s.ways := rfl
@[simp] theorem State.poisonSector_slWays : (s.poisonSector sec).slWays = s.slWays := rfl
@[simp] theorem State.poisonSector_wayAt : (s.poisonSector sec).wayAt = s.wayAt := rfl
@[simp] theorem State.poisonSector_shTags : (s.poisonSector sec).shTags = s.shTags := rfl
@[simp] theorem State.poisonSector_shHits : (s.poisonSector sec).shHits = s.shHits := rfl
@[simp] theorem State.poisonSector_fwd : (s.poisonSector sec).fwd = s.fwd := rfl
@[simp] theorem State.poisonSector_tokens : (s.poisonSector sec).tokens = s.tokens := rfl
@[simp] theorem State.poisonSector_holds : (s.poisonSector sec).holds = s.holds := rfl
@[simp] theorem State.poisonSector_sels : (s.poisonSector sec).sels = s.sels := rfl
@[simp] theorem State.poisonSector_fns : (s.poisonSector sec).fns = s.fns := rfl
@[simp] theorem State.poisonSector_policy : (s.poisonSector sec).policy = s.policy := rfl
@[simp] theorem State.poisonSector_hens : (s.poisonSector sec).hens = s.hens := rfl
@[simp] theorem State.poisonSector_rows : (s.poisonSector sec).rows = s.rows := rfl
@[simp] theorem State.poisonSector_rowAt : (s.poisonSector sec).rowAt = s.rowAt := rfl
@[simp] theorem State.poisonSector_rowWindow : (s.poisonSector sec).rowWindow = s.rowWindow := rfl
@[simp] theorem State.poisonSector_thermal : (s.poisonSector sec).thermal = s.thermal := rfl
@[simp] theorem State.poisonSector_hitWindow : (s.poisonSector sec).hitWindow = s.hitWindow := rfl
@[simp] theorem State.poisonSector_hits : (s.poisonSector sec).hits = s.hits := rfl
@[simp] theorem State.poisonSector_clean : (s.poisonSector sec).clean = s.clean := rfl
@[simp] theorem State.poisonSector_errlog : (s.poisonSector sec).errlog = s.errlog := rfl
@[simp] theorem State.poisonSector_down : (s.poisonSector sec).down = s.down := rfl
@[simp] theorem State.poisonSector_lost : (s.poisonSector sec).lost = s.lost := rfl
@[simp] theorem State.poisonSector_pools : (s.poisonSector sec).pools = s.pools := rfl
@[simp] theorem State.poisonSector_lodged : (s.poisonSector sec).lodged = s.lodged := rfl
@[simp] theorem State.poisonSector_posted : (s.poisonSector sec).posted = s.posted := rfl
@[simp] theorem State.poisonSector_ahead : (s.poisonSector sec).ahead = s.ahead := rfl
@[simp] theorem State.poisonSector_reports : (s.poisonSector sec).reports = s.reports := rfl
@[simp] theorem State.poisonSector_notices : (s.poisonSector sec).notices = s.notices := rfl
@[simp] theorem State.poisonSector_haltNotes : (s.poisonSector sec).haltNotes = s.haltNotes := rfl
end

/-! ### cleanSector changes `poison` alone -/

section
variable (s : State) (sec : Nat)
@[simp] theorem State.cleanSector_clock : (s.cleanSector sec).clock = s.clock := rfl
@[simp] theorem State.cleanSector_sched : (s.cleanSector sec).sched = s.sched := rfl
@[simp] theorem State.cleanSector_fresh : (s.cleanSector sec).fresh = s.fresh := rfl
@[simp] theorem State.cleanSector_cur : (s.cleanSector sec).cur = s.cur := rfl
@[simp] theorem State.cleanSector_stall : (s.cleanSector sec).stall = s.stall := rfl
@[simp] theorem State.cleanSector_dead : (s.cleanSector sec).dead = s.dead := rfl
@[simp] theorem State.cleanSector_alarm : (s.cleanSector sec).alarm = s.alarm := rfl
@[simp] theorem State.cleanSector_alarmAt : (s.cleanSector sec).alarmAt = s.alarmAt := rfl
@[simp] theorem State.cleanSector_pkg : (s.cleanSector sec).pkg = s.pkg := rfl
@[simp] theorem State.cleanSector_npkg : (s.cleanSector sec).npkg = s.npkg := rfl
@[simp] theorem State.cleanSector_fence : (s.cleanSector sec).fence = s.fence := rfl
@[simp] theorem State.cleanSector_mem : (s.cleanSector sec).mem = s.mem := rfl
@[simp] theorem State.cleanSector_home : (s.cleanSector sec).home = s.home := rfl
@[simp] theorem State.cleanSector_vers : (s.cleanSector sec).vers = s.vers := rfl
@[simp] theorem State.cleanSector_l1 : (s.cleanSector sec).l1 = s.l1 := rfl
@[simp] theorem State.cleanSector_icache : (s.cleanSector sec).icache = s.icache := rfl
@[simp] theorem State.cleanSector_tlb : (s.cleanSector sec).tlb = s.tlb := rfl
@[simp] theorem State.cleanSector_sb : (s.cleanSector sec).sb = s.sb := rfl
@[simp] theorem State.cleanSector_rq : (s.cleanSector sec).rq = s.rq := rfl
@[simp] theorem State.cleanSector_engines : (s.cleanSector sec).engines = s.engines := rfl
@[simp] theorem State.cleanSector_podMem : (s.cleanSector sec).podMem = s.podMem := rfl
@[simp] theorem State.cleanSector_hw : (s.cleanSector sec).hw = s.hw := rfl
@[simp] theorem State.cleanSector_hwBad : (s.cleanSector sec).hwBad = s.hwBad := rfl
@[simp] theorem State.cleanSector_arrive : (s.cleanSector sec).arrive = s.arrive := rfl
@[simp] theorem State.cleanSector_reqs : (s.cleanSector sec).reqs = s.reqs := rfl
@[simp] theorem State.cleanSector_wbs : (s.cleanSector sec).wbs = s.wbs := rfl
@[simp] theorem State.cleanSector_replies : (s.cleanSector sec).replies = s.replies := rfl
@[simp] theorem State.cleanSector_podOut : (s.cleanSector sec).podOut = s.podOut := rfl
@[simp] theorem State.cleanSector_linkWait : (s.cleanSector sec).linkWait = s.linkWait := rfl
@[simp] theorem State.cleanSector_nextTag : (s.cleanSector sec).nextTag = s.nextTag := rfl
@[simp] theorem State.cleanSector_ctxs : (s.cleanSector sec).ctxs = s.ctxs := rfl
@[simp] theorem State.cleanSector_crews : (s.cleanSector sec).crews = s.crews := rfl
@[simp] theorem State.cleanSector_units : (s.cleanSector sec).units = s.units := rfl
@[simp] theorem State.cleanSector_ways : (s.cleanSector sec).ways = s.ways := rfl
@[simp] theorem State.cleanSector_slWays : (s.cleanSector sec).slWays = s.slWays := rfl
@[simp] theorem State.cleanSector_wayAt : (s.cleanSector sec).wayAt = s.wayAt := rfl
@[simp] theorem State.cleanSector_shTags : (s.cleanSector sec).shTags = s.shTags := rfl
@[simp] theorem State.cleanSector_shHits : (s.cleanSector sec).shHits = s.shHits := rfl
@[simp] theorem State.cleanSector_fwd : (s.cleanSector sec).fwd = s.fwd := rfl
@[simp] theorem State.cleanSector_tokens : (s.cleanSector sec).tokens = s.tokens := rfl
@[simp] theorem State.cleanSector_holds : (s.cleanSector sec).holds = s.holds := rfl
@[simp] theorem State.cleanSector_sels : (s.cleanSector sec).sels = s.sels := rfl
@[simp] theorem State.cleanSector_fns : (s.cleanSector sec).fns = s.fns := rfl
@[simp] theorem State.cleanSector_policy : (s.cleanSector sec).policy = s.policy := rfl
@[simp] theorem State.cleanSector_hens : (s.cleanSector sec).hens = s.hens := rfl
@[simp] theorem State.cleanSector_rows : (s.cleanSector sec).rows = s.rows := rfl
@[simp] theorem State.cleanSector_rowAt : (s.cleanSector sec).rowAt = s.rowAt := rfl
@[simp] theorem State.cleanSector_rowWindow : (s.cleanSector sec).rowWindow = s.rowWindow := rfl
@[simp] theorem State.cleanSector_thermal : (s.cleanSector sec).thermal = s.thermal := rfl
@[simp] theorem State.cleanSector_hitWindow : (s.cleanSector sec).hitWindow = s.hitWindow := rfl
@[simp] theorem State.cleanSector_hits : (s.cleanSector sec).hits = s.hits := rfl
@[simp] theorem State.cleanSector_clean : (s.cleanSector sec).clean = s.clean := rfl
@[simp] theorem State.cleanSector_errlog : (s.cleanSector sec).errlog = s.errlog := rfl
@[simp] theorem State.cleanSector_down : (s.cleanSector sec).down = s.down := rfl
@[simp] theorem State.cleanSector_lost : (s.cleanSector sec).lost = s.lost := rfl
@[simp] theorem State.cleanSector_pools : (s.cleanSector sec).pools = s.pools := rfl
@[simp] theorem State.cleanSector_lodged : (s.cleanSector sec).lodged = s.lodged := rfl
@[simp] theorem State.cleanSector_posted : (s.cleanSector sec).posted = s.posted := rfl
@[simp] theorem State.cleanSector_ahead : (s.cleanSector sec).ahead = s.ahead := rfl
@[simp] theorem State.cleanSector_reports : (s.cleanSector sec).reports = s.reports := rfl
@[simp] theorem State.cleanSector_notices : (s.cleanSector sec).notices = s.notices := rfl
@[simp] theorem State.cleanSector_haltNotes : (s.cleanSector sec).haltNotes = s.haltNotes := rfl
end

/-! ### dropL1 changes `l1` alone -/

section
variable (s : State) (core part l : Nat) (pinned : Bool)
@[simp] theorem State.dropL1_clock : (s.dropL1 core part l pinned).clock = s.clock := rfl
@[simp] theorem State.dropL1_sched : (s.dropL1 core part l pinned).sched = s.sched := rfl
@[simp] theorem State.dropL1_fresh : (s.dropL1 core part l pinned).fresh = s.fresh := rfl
@[simp] theorem State.dropL1_cur : (s.dropL1 core part l pinned).cur = s.cur := rfl
@[simp] theorem State.dropL1_stall : (s.dropL1 core part l pinned).stall = s.stall := rfl
@[simp] theorem State.dropL1_dead : (s.dropL1 core part l pinned).dead = s.dead := rfl
@[simp] theorem State.dropL1_alarm : (s.dropL1 core part l pinned).alarm = s.alarm := rfl
@[simp] theorem State.dropL1_alarmAt : (s.dropL1 core part l pinned).alarmAt = s.alarmAt := rfl
@[simp] theorem State.dropL1_pkg : (s.dropL1 core part l pinned).pkg = s.pkg := rfl
@[simp] theorem State.dropL1_npkg : (s.dropL1 core part l pinned).npkg = s.npkg := rfl
@[simp] theorem State.dropL1_fence : (s.dropL1 core part l pinned).fence = s.fence := rfl
@[simp] theorem State.dropL1_mem : (s.dropL1 core part l pinned).mem = s.mem := rfl
@[simp] theorem State.dropL1_home : (s.dropL1 core part l pinned).home = s.home := rfl
@[simp] theorem State.dropL1_vers : (s.dropL1 core part l pinned).vers = s.vers := rfl
@[simp] theorem State.dropL1_icache : (s.dropL1 core part l pinned).icache = s.icache := rfl
@[simp] theorem State.dropL1_tlb : (s.dropL1 core part l pinned).tlb = s.tlb := rfl
@[simp] theorem State.dropL1_sb : (s.dropL1 core part l pinned).sb = s.sb := rfl
@[simp] theorem State.dropL1_rq : (s.dropL1 core part l pinned).rq = s.rq := rfl
@[simp] theorem State.dropL1_engines : (s.dropL1 core part l pinned).engines = s.engines := rfl
@[simp] theorem State.dropL1_poison : (s.dropL1 core part l pinned).poison = s.poison := rfl
@[simp] theorem State.dropL1_podMem : (s.dropL1 core part l pinned).podMem = s.podMem := rfl
@[simp] theorem State.dropL1_hw : (s.dropL1 core part l pinned).hw = s.hw := rfl
@[simp] theorem State.dropL1_hwBad : (s.dropL1 core part l pinned).hwBad = s.hwBad := rfl
@[simp] theorem State.dropL1_arrive : (s.dropL1 core part l pinned).arrive = s.arrive := rfl
@[simp] theorem State.dropL1_reqs : (s.dropL1 core part l pinned).reqs = s.reqs := rfl
@[simp] theorem State.dropL1_wbs : (s.dropL1 core part l pinned).wbs = s.wbs := rfl
@[simp] theorem State.dropL1_replies : (s.dropL1 core part l pinned).replies = s.replies := rfl
@[simp] theorem State.dropL1_podOut : (s.dropL1 core part l pinned).podOut = s.podOut := rfl
@[simp] theorem State.dropL1_linkWait : (s.dropL1 core part l pinned).linkWait = s.linkWait := rfl
@[simp] theorem State.dropL1_nextTag : (s.dropL1 core part l pinned).nextTag = s.nextTag := rfl
@[simp] theorem State.dropL1_ctxs : (s.dropL1 core part l pinned).ctxs = s.ctxs := rfl
@[simp] theorem State.dropL1_crews : (s.dropL1 core part l pinned).crews = s.crews := rfl
@[simp] theorem State.dropL1_units : (s.dropL1 core part l pinned).units = s.units := rfl
@[simp] theorem State.dropL1_ways : (s.dropL1 core part l pinned).ways = s.ways := rfl
@[simp] theorem State.dropL1_slWays : (s.dropL1 core part l pinned).slWays = s.slWays := rfl
@[simp] theorem State.dropL1_wayAt : (s.dropL1 core part l pinned).wayAt = s.wayAt := rfl
@[simp] theorem State.dropL1_shTags : (s.dropL1 core part l pinned).shTags = s.shTags := rfl
@[simp] theorem State.dropL1_shHits : (s.dropL1 core part l pinned).shHits = s.shHits := rfl
@[simp] theorem State.dropL1_fwd : (s.dropL1 core part l pinned).fwd = s.fwd := rfl
@[simp] theorem State.dropL1_tokens : (s.dropL1 core part l pinned).tokens = s.tokens := rfl
@[simp] theorem State.dropL1_holds : (s.dropL1 core part l pinned).holds = s.holds := rfl
@[simp] theorem State.dropL1_sels : (s.dropL1 core part l pinned).sels = s.sels := rfl
@[simp] theorem State.dropL1_fns : (s.dropL1 core part l pinned).fns = s.fns := rfl
@[simp] theorem State.dropL1_policy : (s.dropL1 core part l pinned).policy = s.policy := rfl
@[simp] theorem State.dropL1_hens : (s.dropL1 core part l pinned).hens = s.hens := rfl
@[simp] theorem State.dropL1_rows : (s.dropL1 core part l pinned).rows = s.rows := rfl
@[simp] theorem State.dropL1_rowAt : (s.dropL1 core part l pinned).rowAt = s.rowAt := rfl
@[simp] theorem State.dropL1_rowWindow : (s.dropL1 core part l pinned).rowWindow = s.rowWindow := rfl
@[simp] theorem State.dropL1_thermal : (s.dropL1 core part l pinned).thermal = s.thermal := rfl
@[simp] theorem State.dropL1_hitWindow : (s.dropL1 core part l pinned).hitWindow = s.hitWindow := rfl
@[simp] theorem State.dropL1_hits : (s.dropL1 core part l pinned).hits = s.hits := rfl
@[simp] theorem State.dropL1_clean : (s.dropL1 core part l pinned).clean = s.clean := rfl
@[simp] theorem State.dropL1_errlog : (s.dropL1 core part l pinned).errlog = s.errlog := rfl
@[simp] theorem State.dropL1_down : (s.dropL1 core part l pinned).down = s.down := rfl
@[simp] theorem State.dropL1_lost : (s.dropL1 core part l pinned).lost = s.lost := rfl
@[simp] theorem State.dropL1_pools : (s.dropL1 core part l pinned).pools = s.pools := rfl
@[simp] theorem State.dropL1_lodged : (s.dropL1 core part l pinned).lodged = s.lodged := rfl
@[simp] theorem State.dropL1_posted : (s.dropL1 core part l pinned).posted = s.posted := rfl
@[simp] theorem State.dropL1_ahead : (s.dropL1 core part l pinned).ahead = s.ahead := rfl
@[simp] theorem State.dropL1_reports : (s.dropL1 core part l pinned).reports = s.reports := rfl
@[simp] theorem State.dropL1_notices : (s.dropL1 core part l pinned).notices = s.notices := rfl
@[simp] theorem State.dropL1_haltNotes : (s.dropL1 core part l pinned).haltNotes = s.haltNotes := rfl
end

/-! ### dropL1All changes `l1` alone -/

section
variable (s : State) (part l : Nat)
@[simp] theorem State.dropL1All_clock : (s.dropL1All part l).clock = s.clock := rfl
@[simp] theorem State.dropL1All_sched : (s.dropL1All part l).sched = s.sched := rfl
@[simp] theorem State.dropL1All_fresh : (s.dropL1All part l).fresh = s.fresh := rfl
@[simp] theorem State.dropL1All_cur : (s.dropL1All part l).cur = s.cur := rfl
@[simp] theorem State.dropL1All_stall : (s.dropL1All part l).stall = s.stall := rfl
@[simp] theorem State.dropL1All_dead : (s.dropL1All part l).dead = s.dead := rfl
@[simp] theorem State.dropL1All_alarm : (s.dropL1All part l).alarm = s.alarm := rfl
@[simp] theorem State.dropL1All_alarmAt : (s.dropL1All part l).alarmAt = s.alarmAt := rfl
@[simp] theorem State.dropL1All_pkg : (s.dropL1All part l).pkg = s.pkg := rfl
@[simp] theorem State.dropL1All_npkg : (s.dropL1All part l).npkg = s.npkg := rfl
@[simp] theorem State.dropL1All_fence : (s.dropL1All part l).fence = s.fence := rfl
@[simp] theorem State.dropL1All_mem : (s.dropL1All part l).mem = s.mem := rfl
@[simp] theorem State.dropL1All_home : (s.dropL1All part l).home = s.home := rfl
@[simp] theorem State.dropL1All_vers : (s.dropL1All part l).vers = s.vers := rfl
@[simp] theorem State.dropL1All_icache : (s.dropL1All part l).icache = s.icache := rfl
@[simp] theorem State.dropL1All_tlb : (s.dropL1All part l).tlb = s.tlb := rfl
@[simp] theorem State.dropL1All_sb : (s.dropL1All part l).sb = s.sb := rfl
@[simp] theorem State.dropL1All_rq : (s.dropL1All part l).rq = s.rq := rfl
@[simp] theorem State.dropL1All_engines : (s.dropL1All part l).engines = s.engines := rfl
@[simp] theorem State.dropL1All_poison : (s.dropL1All part l).poison = s.poison := rfl
@[simp] theorem State.dropL1All_podMem : (s.dropL1All part l).podMem = s.podMem := rfl
@[simp] theorem State.dropL1All_hw : (s.dropL1All part l).hw = s.hw := rfl
@[simp] theorem State.dropL1All_hwBad : (s.dropL1All part l).hwBad = s.hwBad := rfl
@[simp] theorem State.dropL1All_arrive : (s.dropL1All part l).arrive = s.arrive := rfl
@[simp] theorem State.dropL1All_reqs : (s.dropL1All part l).reqs = s.reqs := rfl
@[simp] theorem State.dropL1All_wbs : (s.dropL1All part l).wbs = s.wbs := rfl
@[simp] theorem State.dropL1All_replies : (s.dropL1All part l).replies = s.replies := rfl
@[simp] theorem State.dropL1All_podOut : (s.dropL1All part l).podOut = s.podOut := rfl
@[simp] theorem State.dropL1All_linkWait : (s.dropL1All part l).linkWait = s.linkWait := rfl
@[simp] theorem State.dropL1All_nextTag : (s.dropL1All part l).nextTag = s.nextTag := rfl
@[simp] theorem State.dropL1All_ctxs : (s.dropL1All part l).ctxs = s.ctxs := rfl
@[simp] theorem State.dropL1All_crews : (s.dropL1All part l).crews = s.crews := rfl
@[simp] theorem State.dropL1All_units : (s.dropL1All part l).units = s.units := rfl
@[simp] theorem State.dropL1All_ways : (s.dropL1All part l).ways = s.ways := rfl
@[simp] theorem State.dropL1All_slWays : (s.dropL1All part l).slWays = s.slWays := rfl
@[simp] theorem State.dropL1All_wayAt : (s.dropL1All part l).wayAt = s.wayAt := rfl
@[simp] theorem State.dropL1All_shTags : (s.dropL1All part l).shTags = s.shTags := rfl
@[simp] theorem State.dropL1All_shHits : (s.dropL1All part l).shHits = s.shHits := rfl
@[simp] theorem State.dropL1All_fwd : (s.dropL1All part l).fwd = s.fwd := rfl
@[simp] theorem State.dropL1All_tokens : (s.dropL1All part l).tokens = s.tokens := rfl
@[simp] theorem State.dropL1All_holds : (s.dropL1All part l).holds = s.holds := rfl
@[simp] theorem State.dropL1All_sels : (s.dropL1All part l).sels = s.sels := rfl
@[simp] theorem State.dropL1All_fns : (s.dropL1All part l).fns = s.fns := rfl
@[simp] theorem State.dropL1All_policy : (s.dropL1All part l).policy = s.policy := rfl
@[simp] theorem State.dropL1All_hens : (s.dropL1All part l).hens = s.hens := rfl
@[simp] theorem State.dropL1All_rows : (s.dropL1All part l).rows = s.rows := rfl
@[simp] theorem State.dropL1All_rowAt : (s.dropL1All part l).rowAt = s.rowAt := rfl
@[simp] theorem State.dropL1All_rowWindow : (s.dropL1All part l).rowWindow = s.rowWindow := rfl
@[simp] theorem State.dropL1All_thermal : (s.dropL1All part l).thermal = s.thermal := rfl
@[simp] theorem State.dropL1All_hitWindow : (s.dropL1All part l).hitWindow = s.hitWindow := rfl
@[simp] theorem State.dropL1All_hits : (s.dropL1All part l).hits = s.hits := rfl
@[simp] theorem State.dropL1All_clean : (s.dropL1All part l).clean = s.clean := rfl
@[simp] theorem State.dropL1All_errlog : (s.dropL1All part l).errlog = s.errlog := rfl
@[simp] theorem State.dropL1All_down : (s.dropL1All part l).down = s.down := rfl
@[simp] theorem State.dropL1All_lost : (s.dropL1All part l).lost = s.lost := rfl
@[simp] theorem State.dropL1All_pools : (s.dropL1All part l).pools = s.pools := rfl
@[simp] theorem State.dropL1All_lodged : (s.dropL1All part l).lodged = s.lodged := rfl
@[simp] theorem State.dropL1All_posted : (s.dropL1All part l).posted = s.posted := rfl
@[simp] theorem State.dropL1All_ahead : (s.dropL1All part l).ahead = s.ahead := rfl
@[simp] theorem State.dropL1All_reports : (s.dropL1All part l).reports = s.reports := rfl
@[simp] theorem State.dropL1All_notices : (s.dropL1All part l).notices = s.notices := rfl
@[simp] theorem State.dropL1All_haltNotes : (s.dropL1All part l).haltNotes = s.haltNotes := rfl
end

/-! ### dropCore changes `l1` alone -/

section
variable (s : State) (core : Nat)
@[simp] theorem State.dropCore_clock : (s.dropCore core).clock = s.clock := rfl
@[simp] theorem State.dropCore_sched : (s.dropCore core).sched = s.sched := rfl
@[simp] theorem State.dropCore_fresh : (s.dropCore core).fresh = s.fresh := rfl
@[simp] theorem State.dropCore_cur : (s.dropCore core).cur = s.cur := rfl
@[simp] theorem State.dropCore_stall : (s.dropCore core).stall = s.stall := rfl
@[simp] theorem State.dropCore_dead : (s.dropCore core).dead = s.dead := rfl
@[simp] theorem State.dropCore_alarm : (s.dropCore core).alarm = s.alarm := rfl
@[simp] theorem State.dropCore_alarmAt : (s.dropCore core).alarmAt = s.alarmAt := rfl
@[simp] theorem State.dropCore_pkg : (s.dropCore core).pkg = s.pkg := rfl
@[simp] theorem State.dropCore_npkg : (s.dropCore core).npkg = s.npkg := rfl
@[simp] theorem State.dropCore_fence : (s.dropCore core).fence = s.fence := rfl
@[simp] theorem State.dropCore_mem : (s.dropCore core).mem = s.mem := rfl
@[simp] theorem State.dropCore_home : (s.dropCore core).home = s.home := rfl
@[simp] theorem State.dropCore_vers : (s.dropCore core).vers = s.vers := rfl
@[simp] theorem State.dropCore_icache : (s.dropCore core).icache = s.icache := rfl
@[simp] theorem State.dropCore_tlb : (s.dropCore core).tlb = s.tlb := rfl
@[simp] theorem State.dropCore_sb : (s.dropCore core).sb = s.sb := rfl
@[simp] theorem State.dropCore_rq : (s.dropCore core).rq = s.rq := rfl
@[simp] theorem State.dropCore_engines : (s.dropCore core).engines = s.engines := rfl
@[simp] theorem State.dropCore_poison : (s.dropCore core).poison = s.poison := rfl
@[simp] theorem State.dropCore_podMem : (s.dropCore core).podMem = s.podMem := rfl
@[simp] theorem State.dropCore_hw : (s.dropCore core).hw = s.hw := rfl
@[simp] theorem State.dropCore_hwBad : (s.dropCore core).hwBad = s.hwBad := rfl
@[simp] theorem State.dropCore_arrive : (s.dropCore core).arrive = s.arrive := rfl
@[simp] theorem State.dropCore_reqs : (s.dropCore core).reqs = s.reqs := rfl
@[simp] theorem State.dropCore_wbs : (s.dropCore core).wbs = s.wbs := rfl
@[simp] theorem State.dropCore_replies : (s.dropCore core).replies = s.replies := rfl
@[simp] theorem State.dropCore_podOut : (s.dropCore core).podOut = s.podOut := rfl
@[simp] theorem State.dropCore_linkWait : (s.dropCore core).linkWait = s.linkWait := rfl
@[simp] theorem State.dropCore_nextTag : (s.dropCore core).nextTag = s.nextTag := rfl
@[simp] theorem State.dropCore_ctxs : (s.dropCore core).ctxs = s.ctxs := rfl
@[simp] theorem State.dropCore_crews : (s.dropCore core).crews = s.crews := rfl
@[simp] theorem State.dropCore_units : (s.dropCore core).units = s.units := rfl
@[simp] theorem State.dropCore_ways : (s.dropCore core).ways = s.ways := rfl
@[simp] theorem State.dropCore_slWays : (s.dropCore core).slWays = s.slWays := rfl
@[simp] theorem State.dropCore_wayAt : (s.dropCore core).wayAt = s.wayAt := rfl
@[simp] theorem State.dropCore_shTags : (s.dropCore core).shTags = s.shTags := rfl
@[simp] theorem State.dropCore_shHits : (s.dropCore core).shHits = s.shHits := rfl
@[simp] theorem State.dropCore_fwd : (s.dropCore core).fwd = s.fwd := rfl
@[simp] theorem State.dropCore_tokens : (s.dropCore core).tokens = s.tokens := rfl
@[simp] theorem State.dropCore_holds : (s.dropCore core).holds = s.holds := rfl
@[simp] theorem State.dropCore_sels : (s.dropCore core).sels = s.sels := rfl
@[simp] theorem State.dropCore_fns : (s.dropCore core).fns = s.fns := rfl
@[simp] theorem State.dropCore_policy : (s.dropCore core).policy = s.policy := rfl
@[simp] theorem State.dropCore_hens : (s.dropCore core).hens = s.hens := rfl
@[simp] theorem State.dropCore_rows : (s.dropCore core).rows = s.rows := rfl
@[simp] theorem State.dropCore_rowAt : (s.dropCore core).rowAt = s.rowAt := rfl
@[simp] theorem State.dropCore_rowWindow : (s.dropCore core).rowWindow = s.rowWindow := rfl
@[simp] theorem State.dropCore_thermal : (s.dropCore core).thermal = s.thermal := rfl
@[simp] theorem State.dropCore_hitWindow : (s.dropCore core).hitWindow = s.hitWindow := rfl
@[simp] theorem State.dropCore_hits : (s.dropCore core).hits = s.hits := rfl
@[simp] theorem State.dropCore_clean : (s.dropCore core).clean = s.clean := rfl
@[simp] theorem State.dropCore_errlog : (s.dropCore core).errlog = s.errlog := rfl
@[simp] theorem State.dropCore_down : (s.dropCore core).down = s.down := rfl
@[simp] theorem State.dropCore_lost : (s.dropCore core).lost = s.lost := rfl
@[simp] theorem State.dropCore_pools : (s.dropCore core).pools = s.pools := rfl
@[simp] theorem State.dropCore_lodged : (s.dropCore core).lodged = s.lodged := rfl
@[simp] theorem State.dropCore_posted : (s.dropCore core).posted = s.posted := rfl
@[simp] theorem State.dropCore_ahead : (s.dropCore core).ahead = s.ahead := rfl
@[simp] theorem State.dropCore_reports : (s.dropCore core).reports = s.reports := rfl
@[simp] theorem State.dropCore_notices : (s.dropCore core).notices = s.notices := rfl
@[simp] theorem State.dropCore_haltNotes : (s.dropCore core).haltNotes = s.haltNotes := rfl
end

/-! ### setSelector changes `sels` alone -/

section
variable (s : State) (x : Selector)
@[simp] theorem State.setSelector_clock : (s.setSelector x).clock = s.clock := rfl
@[simp] theorem State.setSelector_sched : (s.setSelector x).sched = s.sched := rfl
@[simp] theorem State.setSelector_fresh : (s.setSelector x).fresh = s.fresh := rfl
@[simp] theorem State.setSelector_cur : (s.setSelector x).cur = s.cur := rfl
@[simp] theorem State.setSelector_stall : (s.setSelector x).stall = s.stall := rfl
@[simp] theorem State.setSelector_dead : (s.setSelector x).dead = s.dead := rfl
@[simp] theorem State.setSelector_alarm : (s.setSelector x).alarm = s.alarm := rfl
@[simp] theorem State.setSelector_alarmAt : (s.setSelector x).alarmAt = s.alarmAt := rfl
@[simp] theorem State.setSelector_pkg : (s.setSelector x).pkg = s.pkg := rfl
@[simp] theorem State.setSelector_npkg : (s.setSelector x).npkg = s.npkg := rfl
@[simp] theorem State.setSelector_fence : (s.setSelector x).fence = s.fence := rfl
@[simp] theorem State.setSelector_mem : (s.setSelector x).mem = s.mem := rfl
@[simp] theorem State.setSelector_home : (s.setSelector x).home = s.home := rfl
@[simp] theorem State.setSelector_vers : (s.setSelector x).vers = s.vers := rfl
@[simp] theorem State.setSelector_l1 : (s.setSelector x).l1 = s.l1 := rfl
@[simp] theorem State.setSelector_icache : (s.setSelector x).icache = s.icache := rfl
@[simp] theorem State.setSelector_tlb : (s.setSelector x).tlb = s.tlb := rfl
@[simp] theorem State.setSelector_sb : (s.setSelector x).sb = s.sb := rfl
@[simp] theorem State.setSelector_rq : (s.setSelector x).rq = s.rq := rfl
@[simp] theorem State.setSelector_engines : (s.setSelector x).engines = s.engines := rfl
@[simp] theorem State.setSelector_poison : (s.setSelector x).poison = s.poison := rfl
@[simp] theorem State.setSelector_podMem : (s.setSelector x).podMem = s.podMem := rfl
@[simp] theorem State.setSelector_hw : (s.setSelector x).hw = s.hw := rfl
@[simp] theorem State.setSelector_hwBad : (s.setSelector x).hwBad = s.hwBad := rfl
@[simp] theorem State.setSelector_arrive : (s.setSelector x).arrive = s.arrive := rfl
@[simp] theorem State.setSelector_reqs : (s.setSelector x).reqs = s.reqs := rfl
@[simp] theorem State.setSelector_wbs : (s.setSelector x).wbs = s.wbs := rfl
@[simp] theorem State.setSelector_replies : (s.setSelector x).replies = s.replies := rfl
@[simp] theorem State.setSelector_podOut : (s.setSelector x).podOut = s.podOut := rfl
@[simp] theorem State.setSelector_linkWait : (s.setSelector x).linkWait = s.linkWait := rfl
@[simp] theorem State.setSelector_nextTag : (s.setSelector x).nextTag = s.nextTag := rfl
@[simp] theorem State.setSelector_ctxs : (s.setSelector x).ctxs = s.ctxs := rfl
@[simp] theorem State.setSelector_crews : (s.setSelector x).crews = s.crews := rfl
@[simp] theorem State.setSelector_units : (s.setSelector x).units = s.units := rfl
@[simp] theorem State.setSelector_ways : (s.setSelector x).ways = s.ways := rfl
@[simp] theorem State.setSelector_slWays : (s.setSelector x).slWays = s.slWays := rfl
@[simp] theorem State.setSelector_wayAt : (s.setSelector x).wayAt = s.wayAt := rfl
@[simp] theorem State.setSelector_shTags : (s.setSelector x).shTags = s.shTags := rfl
@[simp] theorem State.setSelector_shHits : (s.setSelector x).shHits = s.shHits := rfl
@[simp] theorem State.setSelector_fwd : (s.setSelector x).fwd = s.fwd := rfl
@[simp] theorem State.setSelector_tokens : (s.setSelector x).tokens = s.tokens := rfl
@[simp] theorem State.setSelector_holds : (s.setSelector x).holds = s.holds := rfl
@[simp] theorem State.setSelector_fns : (s.setSelector x).fns = s.fns := rfl
@[simp] theorem State.setSelector_policy : (s.setSelector x).policy = s.policy := rfl
@[simp] theorem State.setSelector_hens : (s.setSelector x).hens = s.hens := rfl
@[simp] theorem State.setSelector_rows : (s.setSelector x).rows = s.rows := rfl
@[simp] theorem State.setSelector_rowAt : (s.setSelector x).rowAt = s.rowAt := rfl
@[simp] theorem State.setSelector_rowWindow : (s.setSelector x).rowWindow = s.rowWindow := rfl
@[simp] theorem State.setSelector_thermal : (s.setSelector x).thermal = s.thermal := rfl
@[simp] theorem State.setSelector_hitWindow : (s.setSelector x).hitWindow = s.hitWindow := rfl
@[simp] theorem State.setSelector_hits : (s.setSelector x).hits = s.hits := rfl
@[simp] theorem State.setSelector_clean : (s.setSelector x).clean = s.clean := rfl
@[simp] theorem State.setSelector_errlog : (s.setSelector x).errlog = s.errlog := rfl
@[simp] theorem State.setSelector_down : (s.setSelector x).down = s.down := rfl
@[simp] theorem State.setSelector_lost : (s.setSelector x).lost = s.lost := rfl
@[simp] theorem State.setSelector_pools : (s.setSelector x).pools = s.pools := rfl
@[simp] theorem State.setSelector_lodged : (s.setSelector x).lodged = s.lodged := rfl
@[simp] theorem State.setSelector_posted : (s.setSelector x).posted = s.posted := rfl
@[simp] theorem State.setSelector_ahead : (s.setSelector x).ahead = s.ahead := rfl
@[simp] theorem State.setSelector_reports : (s.setSelector x).reports = s.reports := rfl
@[simp] theorem State.setSelector_notices : (s.setSelector x).notices = s.notices := rfl
@[simp] theorem State.setSelector_haltNotes : (s.setSelector x).haltNotes = s.haltNotes := rfl
end

/-! ### setPool changes `pools` alone -/

section
variable (s : State) (p : PoolRange)
@[simp] theorem State.setPool_clock : (s.setPool p).clock = s.clock := rfl
@[simp] theorem State.setPool_sched : (s.setPool p).sched = s.sched := rfl
@[simp] theorem State.setPool_fresh : (s.setPool p).fresh = s.fresh := rfl
@[simp] theorem State.setPool_cur : (s.setPool p).cur = s.cur := rfl
@[simp] theorem State.setPool_stall : (s.setPool p).stall = s.stall := rfl
@[simp] theorem State.setPool_dead : (s.setPool p).dead = s.dead := rfl
@[simp] theorem State.setPool_alarm : (s.setPool p).alarm = s.alarm := rfl
@[simp] theorem State.setPool_alarmAt : (s.setPool p).alarmAt = s.alarmAt := rfl
@[simp] theorem State.setPool_pkg : (s.setPool p).pkg = s.pkg := rfl
@[simp] theorem State.setPool_npkg : (s.setPool p).npkg = s.npkg := rfl
@[simp] theorem State.setPool_fence : (s.setPool p).fence = s.fence := rfl
@[simp] theorem State.setPool_mem : (s.setPool p).mem = s.mem := rfl
@[simp] theorem State.setPool_home : (s.setPool p).home = s.home := rfl
@[simp] theorem State.setPool_vers : (s.setPool p).vers = s.vers := rfl
@[simp] theorem State.setPool_l1 : (s.setPool p).l1 = s.l1 := rfl
@[simp] theorem State.setPool_icache : (s.setPool p).icache = s.icache := rfl
@[simp] theorem State.setPool_tlb : (s.setPool p).tlb = s.tlb := rfl
@[simp] theorem State.setPool_sb : (s.setPool p).sb = s.sb := rfl
@[simp] theorem State.setPool_rq : (s.setPool p).rq = s.rq := rfl
@[simp] theorem State.setPool_engines : (s.setPool p).engines = s.engines := rfl
@[simp] theorem State.setPool_poison : (s.setPool p).poison = s.poison := rfl
@[simp] theorem State.setPool_podMem : (s.setPool p).podMem = s.podMem := rfl
@[simp] theorem State.setPool_hw : (s.setPool p).hw = s.hw := rfl
@[simp] theorem State.setPool_hwBad : (s.setPool p).hwBad = s.hwBad := rfl
@[simp] theorem State.setPool_arrive : (s.setPool p).arrive = s.arrive := rfl
@[simp] theorem State.setPool_reqs : (s.setPool p).reqs = s.reqs := rfl
@[simp] theorem State.setPool_wbs : (s.setPool p).wbs = s.wbs := rfl
@[simp] theorem State.setPool_replies : (s.setPool p).replies = s.replies := rfl
@[simp] theorem State.setPool_podOut : (s.setPool p).podOut = s.podOut := rfl
@[simp] theorem State.setPool_linkWait : (s.setPool p).linkWait = s.linkWait := rfl
@[simp] theorem State.setPool_nextTag : (s.setPool p).nextTag = s.nextTag := rfl
@[simp] theorem State.setPool_ctxs : (s.setPool p).ctxs = s.ctxs := rfl
@[simp] theorem State.setPool_crews : (s.setPool p).crews = s.crews := rfl
@[simp] theorem State.setPool_units : (s.setPool p).units = s.units := rfl
@[simp] theorem State.setPool_ways : (s.setPool p).ways = s.ways := rfl
@[simp] theorem State.setPool_slWays : (s.setPool p).slWays = s.slWays := rfl
@[simp] theorem State.setPool_wayAt : (s.setPool p).wayAt = s.wayAt := rfl
@[simp] theorem State.setPool_shTags : (s.setPool p).shTags = s.shTags := rfl
@[simp] theorem State.setPool_shHits : (s.setPool p).shHits = s.shHits := rfl
@[simp] theorem State.setPool_fwd : (s.setPool p).fwd = s.fwd := rfl
@[simp] theorem State.setPool_tokens : (s.setPool p).tokens = s.tokens := rfl
@[simp] theorem State.setPool_holds : (s.setPool p).holds = s.holds := rfl
@[simp] theorem State.setPool_sels : (s.setPool p).sels = s.sels := rfl
@[simp] theorem State.setPool_fns : (s.setPool p).fns = s.fns := rfl
@[simp] theorem State.setPool_policy : (s.setPool p).policy = s.policy := rfl
@[simp] theorem State.setPool_hens : (s.setPool p).hens = s.hens := rfl
@[simp] theorem State.setPool_rows : (s.setPool p).rows = s.rows := rfl
@[simp] theorem State.setPool_rowAt : (s.setPool p).rowAt = s.rowAt := rfl
@[simp] theorem State.setPool_rowWindow : (s.setPool p).rowWindow = s.rowWindow := rfl
@[simp] theorem State.setPool_thermal : (s.setPool p).thermal = s.thermal := rfl
@[simp] theorem State.setPool_hitWindow : (s.setPool p).hitWindow = s.hitWindow := rfl
@[simp] theorem State.setPool_hits : (s.setPool p).hits = s.hits := rfl
@[simp] theorem State.setPool_clean : (s.setPool p).clean = s.clean := rfl
@[simp] theorem State.setPool_errlog : (s.setPool p).errlog = s.errlog := rfl
@[simp] theorem State.setPool_down : (s.setPool p).down = s.down := rfl
@[simp] theorem State.setPool_lost : (s.setPool p).lost = s.lost := rfl
@[simp] theorem State.setPool_lodged : (s.setPool p).lodged = s.lodged := rfl
@[simp] theorem State.setPool_posted : (s.setPool p).posted = s.posted := rfl
@[simp] theorem State.setPool_ahead : (s.setPool p).ahead = s.ahead := rfl
@[simp] theorem State.setPool_reports : (s.setPool p).reports = s.reports := rfl
@[simp] theorem State.setPool_notices : (s.setPool p).notices = s.notices := rfl
@[simp] theorem State.setPool_haltNotes : (s.setPool p).haltNotes = s.haltNotes := rfl
end

/-! ### reply changes `reports` alone -/

section
variable (s : State) (fn : Nat) (bs : List Byte)
@[simp] theorem State.reply_clock : (s.reply fn bs).clock = s.clock := rfl
@[simp] theorem State.reply_sched : (s.reply fn bs).sched = s.sched := rfl
@[simp] theorem State.reply_fresh : (s.reply fn bs).fresh = s.fresh := rfl
@[simp] theorem State.reply_cur : (s.reply fn bs).cur = s.cur := rfl
@[simp] theorem State.reply_stall : (s.reply fn bs).stall = s.stall := rfl
@[simp] theorem State.reply_dead : (s.reply fn bs).dead = s.dead := rfl
@[simp] theorem State.reply_alarm : (s.reply fn bs).alarm = s.alarm := rfl
@[simp] theorem State.reply_alarmAt : (s.reply fn bs).alarmAt = s.alarmAt := rfl
@[simp] theorem State.reply_pkg : (s.reply fn bs).pkg = s.pkg := rfl
@[simp] theorem State.reply_npkg : (s.reply fn bs).npkg = s.npkg := rfl
@[simp] theorem State.reply_fence : (s.reply fn bs).fence = s.fence := rfl
@[simp] theorem State.reply_mem : (s.reply fn bs).mem = s.mem := rfl
@[simp] theorem State.reply_home : (s.reply fn bs).home = s.home := rfl
@[simp] theorem State.reply_vers : (s.reply fn bs).vers = s.vers := rfl
@[simp] theorem State.reply_l1 : (s.reply fn bs).l1 = s.l1 := rfl
@[simp] theorem State.reply_icache : (s.reply fn bs).icache = s.icache := rfl
@[simp] theorem State.reply_tlb : (s.reply fn bs).tlb = s.tlb := rfl
@[simp] theorem State.reply_sb : (s.reply fn bs).sb = s.sb := rfl
@[simp] theorem State.reply_rq : (s.reply fn bs).rq = s.rq := rfl
@[simp] theorem State.reply_engines : (s.reply fn bs).engines = s.engines := rfl
@[simp] theorem State.reply_poison : (s.reply fn bs).poison = s.poison := rfl
@[simp] theorem State.reply_podMem : (s.reply fn bs).podMem = s.podMem := rfl
@[simp] theorem State.reply_hw : (s.reply fn bs).hw = s.hw := rfl
@[simp] theorem State.reply_hwBad : (s.reply fn bs).hwBad = s.hwBad := rfl
@[simp] theorem State.reply_arrive : (s.reply fn bs).arrive = s.arrive := rfl
@[simp] theorem State.reply_reqs : (s.reply fn bs).reqs = s.reqs := rfl
@[simp] theorem State.reply_wbs : (s.reply fn bs).wbs = s.wbs := rfl
@[simp] theorem State.reply_replies : (s.reply fn bs).replies = s.replies := rfl
@[simp] theorem State.reply_podOut : (s.reply fn bs).podOut = s.podOut := rfl
@[simp] theorem State.reply_linkWait : (s.reply fn bs).linkWait = s.linkWait := rfl
@[simp] theorem State.reply_nextTag : (s.reply fn bs).nextTag = s.nextTag := rfl
@[simp] theorem State.reply_ctxs : (s.reply fn bs).ctxs = s.ctxs := rfl
@[simp] theorem State.reply_crews : (s.reply fn bs).crews = s.crews := rfl
@[simp] theorem State.reply_units : (s.reply fn bs).units = s.units := rfl
@[simp] theorem State.reply_ways : (s.reply fn bs).ways = s.ways := rfl
@[simp] theorem State.reply_slWays : (s.reply fn bs).slWays = s.slWays := rfl
@[simp] theorem State.reply_wayAt : (s.reply fn bs).wayAt = s.wayAt := rfl
@[simp] theorem State.reply_shTags : (s.reply fn bs).shTags = s.shTags := rfl
@[simp] theorem State.reply_shHits : (s.reply fn bs).shHits = s.shHits := rfl
@[simp] theorem State.reply_fwd : (s.reply fn bs).fwd = s.fwd := rfl
@[simp] theorem State.reply_tokens : (s.reply fn bs).tokens = s.tokens := rfl
@[simp] theorem State.reply_holds : (s.reply fn bs).holds = s.holds := rfl
@[simp] theorem State.reply_sels : (s.reply fn bs).sels = s.sels := rfl
@[simp] theorem State.reply_fns : (s.reply fn bs).fns = s.fns := rfl
@[simp] theorem State.reply_policy : (s.reply fn bs).policy = s.policy := rfl
@[simp] theorem State.reply_hens : (s.reply fn bs).hens = s.hens := rfl
@[simp] theorem State.reply_rows : (s.reply fn bs).rows = s.rows := rfl
@[simp] theorem State.reply_rowAt : (s.reply fn bs).rowAt = s.rowAt := rfl
@[simp] theorem State.reply_rowWindow : (s.reply fn bs).rowWindow = s.rowWindow := rfl
@[simp] theorem State.reply_thermal : (s.reply fn bs).thermal = s.thermal := rfl
@[simp] theorem State.reply_hitWindow : (s.reply fn bs).hitWindow = s.hitWindow := rfl
@[simp] theorem State.reply_hits : (s.reply fn bs).hits = s.hits := rfl
@[simp] theorem State.reply_clean : (s.reply fn bs).clean = s.clean := rfl
@[simp] theorem State.reply_errlog : (s.reply fn bs).errlog = s.errlog := rfl
@[simp] theorem State.reply_down : (s.reply fn bs).down = s.down := rfl
@[simp] theorem State.reply_lost : (s.reply fn bs).lost = s.lost := rfl
@[simp] theorem State.reply_pools : (s.reply fn bs).pools = s.pools := rfl
@[simp] theorem State.reply_lodged : (s.reply fn bs).lodged = s.lodged := rfl
@[simp] theorem State.reply_posted : (s.reply fn bs).posted = s.posted := rfl
@[simp] theorem State.reply_ahead : (s.reply fn bs).ahead = s.ahead := rfl
@[simp] theorem State.reply_notices : (s.reply fn bs).notices = s.notices := rfl
@[simp] theorem State.reply_haltNotes : (s.reply fn bs).haltNotes = s.haltNotes := rfl
end

end Sys2Proof.Machine
end

