-- ==== Sys2Proof/Laws/Memory.lean ====
section
/-! SUPPORT. What the operations on committed memory do: each keeps the canonical form, and a committed byte reads as it was
last written (R91). -/

namespace Sys2Proof.Machine

/-! ### The canonical form -/

theorem State.memoryOk_iff (s : State) : s.memoryOk = true ↔
    Memory.wf s.mem = true ∧ Memory.wf s.podMem = true ∧ Memory.wf s.hw = true ∧ ∀ h ∈ s.home, Memory.wf h.data = true := by
  simp [State.memoryOk, and_assoc]

theorem mem_updFirst {α : Type} (p : α → Bool) (f : α → α) {l : List α} {y : α} (h : y ∈ updFirst p f l) :
    y ∈ l ∨ ∃ x ∈ l, y = f x := by
  induction l with
  | nil => simp [updFirst] at h
  | cons x r ih =>
    unfold updFirst at h
    split at h
    · rcases List.mem_cons.mp h with h | h
      · exact .inr ⟨x, List.mem_cons_self, h⟩
      · exact .inl (List.mem_cons_of_mem _ h)
    · rcases List.mem_cons.mp h with h | h
      · exact .inl (h ▸ List.mem_cons_self)
      · rcases ih h with h | ⟨z, hz, e⟩
        · exact .inl (List.mem_cons_of_mem _ h)
        · exact .inr ⟨z, List.mem_cons_of_mem _ hz, e⟩

/-- A change of home lines that keeps each line's form keeps the package's. -/
theorem updHome_ok {s : State} {p l : Nat} {f : HomeLine → HomeLine} (hs : s.memoryOk = true)
    (hf : ∀ h ∈ s.home, Memory.wf h.data = true → Memory.wf (f h).data = true) : (s.updHome p l f).memoryOk = true := by
  rw [State.memoryOk_iff] at hs ⊢
  refine ⟨hs.1, hs.2.1, hs.2.2.1, fun y hy => ?_⟩
  rcases mem_updFirst _ _ hy with h | ⟨x, hx, rfl⟩
  · exact hs.2.2.2 y h
  · exact hf x hx (hs.2.2.2 x hx)

@[simp] theorem HomeLine.dirty_data (h : HomeLine) (pa : Nat) : (h.dirty pa).data = h.data := by
  unfold HomeLine.dirty; split <;> rfl
@[simp] theorem HomeLine.dirty_line (h : HomeLine) (pa : Nat) : (h.dirty pa).line = h.line := by
  unfold HomeLine.dirty; split <;> rfl
@[simp] theorem HomeLine.dirty_has (h : HomeLine) (pa sec : Nat) : (h.dirty pa).has sec = h.has sec := by
  simp only [HomeLine.dirty, HomeLine.has]; split <;> split <;> rfl
@[simp] theorem HomeLine.store_data (h : HomeLine) (pa : Nat) (b : Byte) : (h.store pa b).data = h.data.set pa b := rfl
@[simp] theorem HomeLine.store_line (h : HomeLine) (pa : Nat) (b : Byte) : (h.store pa b).line = h.line := h.dirty_line pa
@[simp] theorem HomeLine.store_has (h : HomeLine) (pa sec : Nat) (b : Byte) : (h.store pa b).has sec = h.has sec :=
  h.dirty_has pa sec
@[simp] theorem HomeLine.clean_data (h : HomeLine) (sec : Nat) : (h.clean sec).data = h.data := by
  unfold HomeLine.clean; split <;> rfl
@[simp] theorem HomeLine.clean_line (h : HomeLine) (sec : Nat) : (h.clean sec).line = h.line := by
  unfold HomeLine.clean; split <;> rfl
@[simp] theorem HomeLine.fill_line (h : HomeLine) (m : Mem) (sec : Nat) : (h.fill m sec).line = h.line := by
  unfold HomeLine.fill; split <;> rfl
@[simp] theorem HomeLine.fill_data (h : HomeLine) (m : Mem) (sec : Nat) : (h.fill m sec).data = h.data.splice (64 * sec) 64 m := by
  unfold HomeLine.fill; split <;> rfl

/-! ### Slices -/

theorem spGet_takeWhile {α : Type} (d : α) (B a : Nat) (h : a < B) (l : List (Nat × α)) :
    spGet d (l.takeWhile fun c => decide (c.1 < B)) a = spGet d l a := by
  induction l with
  | nil => rfl
  | cons c r ih =>
    obtain ⟨k, v⟩ := c
    by_cases hk : k < B
    · simp only [List.takeWhile_cons, hk, decide_true, if_true, spGet, ih]
    · have h1 : a ≠ k := by omega
      have h2 : a < k := by omega
      simp [hk, spGet, h1, h2]

theorem spGet_dropWhile {α : Type} (d : α) (B a : Nat) (h : B ≤ a) (l : List (Nat × α)) :
    spGet d (l.dropWhile fun c => decide (c.1 < B)) a = spGet d l a := by
  induction l with
  | nil => rfl
  | cons c r ih =>
    obtain ⟨k, v⟩ := c
    by_cases hk : k < B
    · have h1 : a ≠ k := by omega
      have h2 : ¬a < k := by omega
      simp only [List.dropWhile_cons, hk, decide_true, if_true, ih, spGet, h1, h2, if_false]
    · simp [hk]

/-- A slice's bytes are the memory's. -/
theorem Mem.get_slice (m : Mem) {lo n a : Nat} (h : lo ≤ a) (h' : a < lo + n) : (m.slice lo n).get a = m.get a := by
  unfold Mem.slice Mem.get
  rw [spGet_takeWhile _ _ _ h', spGet_dropWhile _ _ _ h]

theorem spWf_append {α : Type} [DecidableEq α] (d : α) {l r : List (Nat × α)} (hl : spWf d l = true) (hr : spWf d r = true)
    (h : ∀ c ∈ l, ∀ e ∈ r, c.1 < e.1) : spWf d (l ++ r) = true := by
  induction l with
  | nil => exact hr
  | cons c l ih =>
    obtain ⟨k, v⟩ := c
    obtain ⟨h1, h2, h3⟩ := (spWf_cons d k v l).mp hl
    refine (spWf_cons d k v (l ++ r)).mpr ⟨h1, fun e he => ?_, ih h3 fun c hc => h c (List.mem_cons_of_mem _ hc)⟩
    rcases List.mem_append.mp he with he | he
    · exact h2 e he
    · exact h (k, v) List.mem_cons_self e he

theorem dropWhile_keys {α : Type} [DecidableEq α] (d : α) (B : Nat) {l : List (Nat × α)} (h : spWf d l = true) :
    ∀ c ∈ l.dropWhile (fun c => decide (c.1 < B)), B ≤ c.1 := by
  induction l with
  | nil => simp
  | cons e r ih =>
    obtain ⟨k, v⟩ := e
    obtain ⟨_, h2, h3⟩ := (spWf_cons d k v r).mp h
    by_cases hk : k < B
    · simpa [hk] using ih h3
    · intro c hc
      simp only [List.dropWhile_cons, hk, decide_false, if_false, Bool.false_eq_true, List.mem_cons] at hc
      rcases hc with rfl | hc
      · omega
      · exact Nat.le_trans (by omega) (Nat.le_of_lt (h2 c hc))

theorem takeWhile_keys {α : Type} (B : Nat) (l : List (Nat × α)) :
    ∀ c ∈ l.takeWhile (fun c => decide (c.1 < B)), c.1 < B := fun c hc => by
  have h := List.mem_takeWhile_imp hc
  simpa using h

theorem Mem.splice_wf (m d : Mem) (lo n : Nat) (h : Memory.wf m = true) (hd : Memory.wf d = true) :
    Memory.wf (m.splice lo n d) = true := by
  have hs : ∀ c ∈ d.slice lo n, lo ≤ c.1 ∧ c.1 < lo + n := fun c hc =>
    ⟨dropWhile_keys 0 lo hd c ((List.takeWhile_sublist _).subset hc), takeWhile_keys _ _ c hc⟩
  have ht := takeWhile_keys lo m
  have hr := dropWhile_keys 0 (lo + n) h
  refine spWf_append 0 (spWf_append 0 (spWf_of_sublist 0 (List.takeWhile_sublist _) h) (Mem.slice_wf _ _ _ hd)
    fun c hc e he => ?_) (spWf_of_sublist 0 (List.dropWhile_sublist _) h) fun c hc e he => ?_
  · have := ht c hc; have := (hs e he).1; omega
  · have := hr e he
    rcases List.mem_append.mp hc with hc | hc
    · have := ht c hc; omega
    · have := (hs c hc).2; omega

/-! ### What the steps of the memory side leave alone -/

/-- Operations that count, log or mark: home slices and memories stand. -/
theorem activate_memory (s : State) (p sec : Nat) : ∃ r a, s.activate p sec = { s with rows := r, rowAt := a } := by
  unfold State.activate
  split
  · exact ⟨_, _, rfl⟩
  · exact ⟨s.rows, s.rowAt, rfl⟩

theorem logError_memory (s : State) (t p i : Nat) : ∃ e, s.logError t p i = { s with errlog := e } := by
  unfold State.logError; simp only; split <;> exact ⟨_, rfl⟩

theorem staleImages_memory (s : State) (pa : Nat) : ∃ c x, s.staleImages pa = { s with clean := c, ctxs := x } := by
  unfold State.staleImages
  simp only
  split
  · exact ⟨s.clean, s.ctxs, rfl⟩
  · exact ⟨_, _, rfl⟩

theorem activate_ok {s : State} (p sec : Nat) (hs : s.memoryOk = true) : (s.activate p sec).memoryOk = true := by
  obtain ⟨_, _, h⟩ := activate_memory s p sec; rw [h]; exact hs
theorem staleImages_ok {s : State} (pa : Nat) (hs : s.memoryOk = true) : (s.staleImages pa).memoryOk = true := by
  obtain ⟨_, _, h⟩ := staleImages_memory s pa; rw [h]; exact hs
theorem logError_ok {s : State} (t p i : Nat) (hs : s.memoryOk = true) : (s.logError t p i).memoryOk = true := by
  obtain ⟨_, h⟩ := logError_memory s t p i; rw [h]; exact hs
theorem poison_ok {s : State} (sec : Nat) (hs : s.memoryOk = true) : (s.poisonSector sec).memoryOk = true := hs

/-! ### The canonical form is kept -/

theorem writeBackSector_ok {s : State} (p sec : Nat) (hs : s.memoryOk = true) : (s.writeBackSector p sec).memoryOk = true := by
  unfold State.writeBackSector
  split
  · exact hs
  · rename_i h hl
    split
    · exact hs
    · split
      · exact updHome_ok (poison_ok _ (logError_ok _ _ _ hs)) fun _ _ hw => by simpa using hw
      · refine updHome_ok ?_ fun _ _ hw => by simpa using hw
        have ha := activate_ok p sec hs
        rw [State.memoryOk_iff] at ha hs ⊢
        exact ⟨Mem.splice_wf _ _ _ _ hs.1 (hs.2.2.2 h (List.mem_of_find?_eq_some hl)), ha.2⟩

theorem writeBack_ok {s : State} (p l : Nat) (hs : s.memoryOk = true) : (s.writeBack p l).memoryOk = true :=
  writeBackSector_ok _ _ (writeBackSector_ok _ _ hs)

theorem releaseHome_ok {s : State} (p l : Nat) (hs : s.memoryOk = true) : (s.releaseHome p l).memoryOk = true := by
  have h := writeBack_ok p l hs
  rw [State.memoryOk_iff] at h ⊢
  exact ⟨h.1, h.2.1, h.2.2.1, fun y hy => h.2.2.2 y (List.mem_of_mem_filter hy)⟩

theorem makeRoom_ok {s : State} (g : Site) (l : Nat) (hs : s.memoryOk = true) : (s.makeRoom g l).memoryOk = true := by
  unfold State.makeRoom
  split
  · exact releaseHome_ok _ _ hs
  · exact hs

theorem holdLine_ok {s : State} (g : Site) (l : Nat) (hs : s.memoryOk = true) : (s.holdLine g l).memoryOk = true := by
  unfold State.holdLine
  split
  · exact hs
  · have h := makeRoom_ok g l hs
    rw [State.memoryOk_iff] at h ⊢
    refine ⟨h.1, h.2.1, h.2.2.1, fun y hy => ?_⟩
    rcases List.mem_cons.mp hy with rfl | hy
    · rfl
    · exact h.2.2.2 y hy

theorem fillSector_ok {s : State} (g : Site) (sec : Nat) (hs : s.memoryOk = true) : (s.fillSector g sec).memoryOk = true := by
  unfold State.fillSector
  split
  · split
    · exact hs
    · exact updHome_ok hs fun _ _ hw => hw
  · have h := activate_ok g.part sec (holdLine_ok g (sec / 2) hs)
    refine updHome_ok h fun x _ hw => ?_
    rw [HomeLine.fill_data]
    exact Mem.splice_wf _ _ _ _ hw (by
      have := holdLine_ok g (sec / 2) hs
      rw [State.memoryOk_iff] at this
      exact this.1)

theorem fillHome_ok {s : State} (g : Site) (l : Nat) (hs : s.memoryOk = true) : (s.fillHome g l).memoryOk = true :=
  fillSector_ok _ _ (fillSector_ok _ _ hs)

theorem commitByte_ok {s : State} (g : Site) (pa : Nat) (b : Byte) (hs : s.memoryOk = true) :
    (s.commitByte g pa b).memoryOk = true :=
  staleImages_ok _ (updHome_ok (fillSector_ok _ _ hs) fun h _ hw => by simpa using Mem.set_wf h.data pa b hw)

theorem commitBytes_ok {s : State} (g : Site) (pa : Nat) (bs : List Byte) (hs : s.memoryOk = true) :
    (s.commitBytes g pa bs).memoryOk = true := by
  induction bs generalizing s pa with
  | nil => exact hs
  | cons b bs ih => exact ih _ (commitByte_ok g pa b hs)

theorem noteOld_memory (s : State) (part base pa n : Nat) (old : Nat → Nat) :
    ∃ c, s.noteOld part base pa n old = { s with icache := c } := by
  unfold State.noteOld
  generalize (List.range (n / 4 + 2)).map _ = l
  induction l generalizing s with
  | nil => exact ⟨s.icache, rfl⟩
  | cons a l ih =>
    rw [List.foldl_cons]
    split
    · obtain ⟨c, h⟩ := ih (s.keepWord part (base + a) (old a))
      exact ⟨c, h⟩
    · exact ih s

theorem noteOld_ok {s : State} (part base pa n : Nat) (old : Nat → Nat) (hs : s.memoryOk = true) :
    (s.noteOld part base pa n old).memoryOk = true := by
  obtain ⟨_, h⟩ := noteOld_memory s part base pa n old; rw [h]; exact hs

theorem placeWrite_ok {s : State} (l : Loc) (bs : List Byte) (hs : s.memoryOk = true) : (s.placeWrite l bs).memoryOk = true := by
  have hn : (s.noteAt l bs.length).memoryOk = true := noteOld_ok _ _ _ _ _ hs
  unfold State.placeWrite
  simp only
  split
  · unfold State.writeM
    have ha := staleImages_ok l.pa (activate_ok l.part (sectorOf l.pa) hn)
    rw [State.memoryOk_iff] at ha hn ⊢
    exact ⟨Mem.write_wf _ _ _ hn.1, ha.2⟩
  · exact commitBytes_ok _ _ _ hn

theorem iaWrite_ok {s : State} (c : Context) (ia n v : Nat) (hs : s.memoryOk = true) : (s.iaWrite c ia n v).memoryOk = true := by
  unfold State.iaWrite
  split
  · exact placeWrite_ok _ _ hs
  · exact hs

theorem commitVersion_ok {s : State} (v : Version) (hs : s.memoryOk = true) : (s.commitVersion v).memoryOk = true := by
  have h : ∀ (l : List Host.Cell) (t : State), t.memoryOk = true →
      (l.foldl (fun (s : State) c => (s.commitByte v.site c.1 c.2).patchCopy v.core v.site.part c.1 [c.2]) t).memoryOk = true := by
    intro l
    induction l with
    | nil => exact fun _ h => h
    | cons c l ih => exact fun t ht => ih _ (commitByte_ok _ _ _ ht)
  have h1 := h v.bytes _ (noteOld_ok v.site.part 0 (128 * v.line) 128 (fun a => s.committedVal v.site.part a 4) hs)
  have hp : ∀ (g : State → Nat → State), (∀ t n, t.memoryOk = true → (g t n).memoryOk = true) →
      ∀ (l : List Nat) (t : State), t.memoryOk = true → (l.foldl g t).memoryOk = true := by
    intro g hg l
    induction l with
    | nil => exact fun _ h => h
    | cons c l ih => exact fun t ht => ih _ (hg _ _ ht)
  exact hp State.poisonSector (fun _ _ h => h) v.bad _ (hp State.cleanSector (fun _ _ h => h) v.clean _ h1)

theorem commitCrew_ok {s : State} (core slot : Nat) (hs : s.memoryOk = true) : (s.commitCrew core slot).memoryOk = true := by
  unfold State.commitCrew
  generalize s.vers.filter _ = l
  induction l generalizing s with
  | nil => exact hs
  | cons v l ih => exact ih (commitVersion_ok v hs)

theorem copyLineTo_ok {s : State} (a b : Loc) (hs : s.memoryOk = true) : (s.copyLineTo a b).memoryOk = true := by
  unfold State.copyLineTo
  simp only
  split <;> split <;> exact placeWrite_ok _ _ hs

/-! ### What a write of committed memory leaves alone -/

/-- The queues, the versions and the engines of two states are the same. -/
def SameQueues (s t : State) : Prop := t.sb = s.sb ∧ t.rq = s.rq ∧ t.vers = s.vers ∧ t.engines = s.engines

theorem SameQueues.refl (s : State) : SameQueues s s := ⟨rfl, rfl, rfl, rfl⟩
theorem SameQueues.trans {s t u : State} (h : SameQueues s t) (g : SameQueues t u) : SameQueues s u :=
  ⟨g.1.trans h.1, g.2.1.trans h.2.1, g.2.2.1.trans h.2.2.1, g.2.2.2.trans h.2.2.2⟩

theorem activate_queues (s : State) (p n : Nat) : SameQueues s (s.activate p n) := by
  unfold State.activate; split <;> exact .refl _
theorem updHome_queues (s : State) (p l : Nat) (f : HomeLine → HomeLine) : SameQueues s (s.updHome p l f) := .refl _
theorem staleImages_queues (s : State) (pa : Nat) : SameQueues s (s.staleImages pa) := by
  unfold State.staleImages; dsimp only; split <;> exact .refl _

theorem writeBackSector_queues (s : State) (p sec : Nat) : SameQueues s (s.writeBackSector p sec) := by
  unfold State.writeBackSector
  split
  · exact .refl _
  · split
    · exact .refl _
    · split
      · show SameQueues s (s.logError 4 (64 * sec) 0)
        unfold State.logError; dsimp only; split <;> exact .refl _
      · exact activate_queues s _ _

theorem writeBack_queues (s : State) (p l : Nat) : SameQueues s (s.writeBack p l) :=
  (writeBackSector_queues s _ _).trans (writeBackSector_queues _ _ _)

theorem holdLine_queues (s : State) (g : Site) (l : Nat) : SameQueues s (s.holdLine g l) := by
  unfold State.holdLine
  split
  · exact .refl _
  · show SameQueues s (s.makeRoom g l)
    unfold State.makeRoom
    split
    · exact writeBack_queues s _ _
    · exact .refl _

theorem fillSector_queues (s : State) (g : Site) (sec : Nat) : SameQueues s (s.fillSector g sec) := by
  unfold State.fillSector
  split
  · split <;> exact .refl _
  · exact ((holdLine_queues s g _).trans (activate_queues _ _ _)).trans (updHome_queues _ _ _ _)

theorem commitBytes_queues (s : State) (g : Site) (pa : Nat) (bs : List Byte) : SameQueues s (s.commitBytes g pa bs) := by
  induction bs generalizing s pa with
  | nil => exact .refl _
  | cons b bs ih =>
    exact (((fillSector_queues s g _).trans (updHome_queues _ _ _ _)).trans (staleImages_queues _ _)).trans (ih _ _)

theorem placeWrite_queues (s : State) (l : Loc) (bs : List Byte) : SameQueues s (s.placeWrite l bs) := by
  obtain ⟨c, h⟩ := noteOld_memory s l.part 0 l.pa bs.length fun a => s.placeVal { l with pa := a } 4
  have hn : SameQueues s (s.noteAt l bs.length) := by unfold State.noteAt; rw [h]; exact .refl _
  unfold State.placeWrite
  dsimp only
  split
  · exact hn.trans ((activate_queues _ _ _).trans (staleImages_queues _ _))
  · exact hn.trans (commitBytes_queues _ _ _ _)

theorem copyLineTo_queues (s : State) (a b : Loc) : SameQueues s (s.copyLineTo a b) := by
  have h := placeWrite_queues s b (s.placeBytes a 128)
  unfold State.copyLineTo
  dsimp only
  split <;> split <;> exact h

theorem releaseHome_queues (s : State) (p l : Nat) : SameQueues s (s.releaseHome p l) := writeBack_queues s p l

theorem movePageLine_queues (s : State) (part e level old new n : Nat) :
    SameQueues s (s.movePageLine part e level old new n) :=
  (copyLineTo_queues s _ _).trans (releaseHome_queues _ _ _)

theorem State.passLine_nil {s : State} (h : s.sb = []) (p l : Nat) : s.passLine p l = s := by simp [State.passLine, h]
theorem State.drainLine_nil {s : State} (h : s.rq = []) (p l : Nat) : s.drainLine p l = some s := by simp [State.drainLine, h]
theorem State.commitHolders_nil {s : State} (h : s.vers = []) (p l : Nat) : s.commitHolders p l = some s := by
  simp [State.commitHolders, State.versionHolders, h]

/-- With nothing queued, no version and no line owned, every line of a page can be moved. -/
theorem moveLines_isSome {s : State} (part e level old new : Nat) (hb : s.sb = []) (hq : s.rq = []) (hv : s.vers = [])
    (ho : ∀ x ∈ s.engines, x.owned = []) (n : Nat) :
    ∃ t, s.moveLines part e level old new n = some t ∧ SameQueues s t := by
  induction n with
  | zero => exact ⟨s, rfl, .refl _⟩
  | succ n ih =>
    obtain ⟨t, h, g⟩ := ih
    have hw : t.owned part (lineOf (old + 128 * n)) = false := by
      simp only [State.owned, g.2.2.2, List.any_eq_false]
      intro x hx
      simp [ho x hx]
    refine ⟨_, by
      simp only [State.moveLines, h, Option.bind_some, hw, Bool.false_eq_true, if_false, State.passLine_nil (g.1.trans hb),
        State.drainLine_nil (g.2.1.trans hq), State.commitHolders_nil (g.2.2.1.trans hv), Option.map_some]
      rfl, ?_⟩
    exact g.trans (movePageLine_queues (t.dropL1All _ _) part e level old new n)

/-! ### Reading committed bytes -/

theorem spGet_append_right {α : Type} (d : α) (a : Nat) {l : List (Nat × α)} (r : List (Nat × α)) (h : ∀ c ∈ l, c.1 < a) :
    spGet d (l ++ r) a = spGet d r a := by
  induction l with
  | nil => rfl
  | cons c l ih =>
    have hc := h c List.mem_cons_self
    have h1 : a ≠ c.1 := by omega
    have h2 : ¬a < c.1 := by omega
    rw [List.cons_append]
    simp only [spGet, h1, h2, if_false]
    exact ih fun c hc => h c (List.mem_cons_of_mem _ hc)

theorem spGet_append_left {α : Type} (d : α) (a B : Nat) (l : List (Nat × α)) {r : List (Nat × α)} (ha : a < B)
    (h : ∀ c ∈ r, B ≤ c.1) : spGet d (l ++ r) a = spGet d l a := by
  induction l with
  | nil =>
    cases r with
    | nil => rfl
    | cons c r =>
      have hc := h c List.mem_cons_self
      have h1 : a ≠ c.1 := by omega
      have h2 : a < c.1 := by omega
      simp [spGet, h1, h2]
  | cons c l ih => simp only [List.cons_append, spGet, ih]

/-- A splice reads as what was laid in, inside it, and as before elsewhere. -/
theorem Mem.get_splice (m d : Mem) (lo n a : Nat) (h : Memory.wf m = true) (hd : Memory.wf d = true) :
    (m.splice lo n d).get a = if lo ≤ a ∧ a < lo + n then d.get a else m.get a := by
  have hs : ∀ c ∈ d.slice lo n, lo ≤ c.1 ∧ c.1 < lo + n := fun c hc =>
    ⟨dropWhile_keys 0 lo hd c ((List.takeWhile_sublist _).subset hc), takeWhile_keys _ _ c hc⟩
  have ht := takeWhile_keys lo m
  have hr := dropWhile_keys 0 (lo + n) h
  unfold Mem.splice Mem.get
  by_cases h1 : a < lo
  · rw [if_neg (by omega), List.append_assoc, spGet_append_left 0 a lo _ h1, spGet_takeWhile _ _ _ h1]
    intro c hc
    rcases List.mem_append.mp hc with hc | hc
    · exact (hs c hc).1
    · have := hr c hc; omega
  · by_cases h2 : a < lo + n
    · rw [if_pos ⟨by omega, h2⟩, List.append_assoc, spGet_append_right 0 a _ fun c hc => by have := ht c hc; omega,
        spGet_append_left 0 a _ _ h2 hr]
      exact Mem.get_slice d (by omega) h2
    · rw [if_neg (by omega), spGet_append_right 0 a, spGet_dropWhile _ _ _ (by omega)]
      intro c hc
      rcases List.mem_append.mp hc with hc | hc
      · have := ht c hc; omega
      · have := (hs c hc).2; omega

theorem HomeLine.is_iff (h : HomeLine) (p l : Nat) : h.is p l = true ↔ h.site.part = p ∧ h.line = l := by
  simp [HomeLine.is]

/-- A change of home lines that leaves a line's name alone: its partition and its number. -/
def KeepsName (f : HomeLine → HomeLine) : Prop := ∀ h p l, (f h).is p l = h.is p l

theorem clean_keeps (sec : Nat) : KeepsName fun h => h.clean sec := fun h p l => by
  unfold HomeLine.clean; split <;> rfl
theorem store_keeps (pa : Nat) (b : Byte) : KeepsName fun h => h.store pa b := fun h p l => by
  unfold HomeLine.store HomeLine.dirty; split <;> rfl
theorem pin_keeps : KeepsName fun h => { h with site := { h.site with pin := true } } := fun _ _ _ => rfl
theorem fill_keeps (m : Mem) (sec : Nat) : KeepsName fun h => h.fill m sec := fun h p l => by
  unfold HomeLine.fill; split <;> rfl

/-- Lines other than the one that is changed stand. -/
theorem homeLine_updHome (s : State) (p l m : Nat) (f : HomeLine → HomeLine) (hf : KeepsName f) :
    (s.updHome p l f).homeLine? p m = if m = l then (s.homeLine? p m).map f else s.homeLine? p m := by
  unfold State.homeLine? State.updHome
  split
  · rename_i e
    subst e
    cases h : s.home.find? fun h => h.is p m with
    | none => rw [updFirst_none _ _ _ h, h]; rfl
    | some x =>
      rw [Option.map_some]
      refine find?_updFirst_self _ _ _ x h ?_
      have := List.find?_some h
      rw [hf]
      exact this
  · rename_i hne
    refine find?_updFirst_other _ _ _ _ fun x hx => ?_
    rw [hf]
    have hx := (x.is_iff p l).mp hx
    have : x.is p m = false := by
      rw [← Bool.not_eq_true, x.is_iff]
      exact fun h => hne (h.2.symm.trans hx.2)
    exact ⟨this, this⟩

/-- E12 of a sector: of the other lines neither the home copies nor M(x) change. -/
theorem writeBackSector_other {s : State} (p sec : Nat) (hs : s.memoryOk = true) :
    (∀ m, m ≠ sec / 2 → (s.writeBackSector p sec).homeLine? p m = s.homeLine? p m) ∧
      ∀ a, lineOf a ≠ sec / 2 → (s.writeBackSector p sec).mem.get a = s.mem.get a := by
  unfold State.writeBackSector
  split
  · exact ⟨fun _ _ => rfl, fun _ _ => rfl⟩
  · rename_i h hl
    split
    · exact ⟨fun _ _ => rfl, fun _ _ => rfl⟩
    · split
      · obtain ⟨e, he⟩ := logError_memory s 4 (64 * sec) 0
        refine ⟨fun m hm => ?_, fun a _ => ?_⟩
        · rw [homeLine_updHome _ _ _ _ _ (clean_keeps sec), if_neg hm, he]; rfl
        · rw [he]; rfl
      · obtain ⟨r, x, he⟩ := activate_memory s p sec
        refine ⟨fun m hm => ?_, fun a ha => ?_⟩
        · rw [homeLine_updHome _ _ _ _ _ (clean_keeps sec), if_neg hm, he]; rfl
        · have hw := (State.memoryOk_iff s).mp hs
          have hd := hw.2.2.2 h (List.mem_of_find?_eq_some hl)
          show (s.mem.splice (64 * sec) 64 h.data).get a = _
          rw [Mem.get_splice _ _ _ _ _ hw.1 hd, if_neg]
          unfold lineOf at ha
          omega

/-- Releasing a home copy leaves the other lines. -/
theorem releaseHome_other {s : State} (p v : Nat) (hs : s.memoryOk = true) :
    (∀ m, m ≠ v → (s.releaseHome p v).homeLine? p m = s.homeLine? p m) ∧
      ∀ a, lineOf a ≠ v → (s.releaseHome p v).mem.get a = s.mem.get a := by
  have h1 := writeBackSector_other p (2 * v) hs
  have h2 := writeBackSector_other p (2 * v + 1) (writeBackSector_ok p (2 * v) hs)
  have e1 : 2 * v / 2 = v := by omega
  have e2 : (2 * v + 1) / 2 = v := by omega
  rw [e1] at h1
  rw [e2] at h2
  refine ⟨fun m hm => ?_, fun a ha => (h2.2 a ha).trans (h1.2 a ha)⟩
  rw [← (h1.1 m hm), ← (h2.1 m hm)]
  unfold State.homeLine? State.releaseHome State.writeBack
  rw [List.find?_filter]
  refine List.find?_congr fun x _ => ?_
  by_cases hx : x.is p m = true
  · have : x.is p v = false := by
      rw [← Bool.not_eq_true, x.is_iff]
      exact fun h => hm (((x.is_iff p m).mp hx).2.symm.trans h.2)
    simp [hx, this]
  · simp [hx]

theorem mem_of_pickFree {α : Type} {n salt : Nat} {l : List α} {x : α} (h : pickFree n salt l = some x) : x ∈ l :=
  List.mem_of_getElem? h

/-- The line that a fill replaces stands in its slice, and is another line. -/
theorem replaced_ne {s : State} {g : Site} {l v : Nat} (h : s.replaced g l = some v) : v ≠ l := by
  unfold State.replaced at h
  split at h
  · cases h
  · rename_i hn
    obtain ⟨x, hx, rfl⟩ := Option.map_eq_some_iff.mp h
    intro e
    have hc := List.mem_of_mem_filter (mem_of_pickFree hx)
    have hp := (List.mem_filter.mp hc).2
    simp only [Bool.and_eq_true, beq_iff_eq] at hp
    have hm := List.mem_of_mem_filter (List.mem_of_mem_filter hc)
    have : (s.homeLine? g.part l).isSome = true := by
      rw [State.homeLine?, List.find?_isSome]
      exact ⟨x, hm, (x.is_iff _ _).mpr ⟨hp.1.1, e⟩⟩
    simp [this] at hn

/-- Making room leaves every line but the one replaced. -/
theorem makeRoom_other {s : State} (g : Site) (l m : Nat) (hs : s.memoryOk = true) (hm : s.replaced g l ≠ some m) :
    (s.makeRoom g l).homeLine? g.part m = s.homeLine? g.part m ∧
      ∀ a, lineOf a = m → (s.makeRoom g l).mem.get a = s.mem.get a := by
  unfold State.makeRoom
  split
  · rename_i v hv
    have hne : m ≠ v := fun e => hm (e ▸ hv)
    exact ⟨(releaseHome_other _ v hs).1 m hne, fun a ha => (releaseHome_other _ v hs).2 a (ha ▸ hne)⟩
  · exact ⟨rfl, fun _ _ => rfl⟩

/-- A byte as a home line, where there is one, and M(x) give it. -/
def viewOf (h : Option HomeLine) (m : Mem) (a : Nat) : Byte :=
  match h.filter (·.has (sectorOf a)) with
  | some h => h.data.get a
  | none => m.get a

theorem viewOf_none (m : Mem) (a : Nat) : viewOf none m a = m.get a := rfl
theorem viewOf_some (h : HomeLine) (m : Mem) (a : Nat) :
    viewOf (some h) m a = if h.has (sectorOf a) then h.data.get a else m.get a := by
  unfold viewOf
  cases hh : h.has (sectorOf a) <;> simp [Option.filter, hh]

theorem committed_eq (s : State) (p a : Nat) : s.committed p a = viewOf (s.homeLine? p (lineOf a)) s.mem a := by
  have : sectorOf a / 2 = lineOf a := by unfold sectorOf lineOf; omega
  unfold State.committed State.homeSector? viewOf
  rw [this] <;> rfl

theorem viewOf_congr {h : Option HomeLine} {m n : Mem} {a : Nat} (e : m.get a = n.get a) : viewOf h m a = viewOf h n a := by
  unfold viewOf; rw [e]

/-- Holding a line changes no committed byte of it, nor of any line but the one it replaces. -/
theorem holdLine_line {s : State} (g : Site) (l : Nat) (hs : s.memoryOk = true) :
    ∃ h, (s.holdLine g l).homeLine? g.part l = some h ∧
      ∀ a, lineOf a = l → viewOf (some h) (s.holdLine g l).mem a = s.committed g.part a := by
  unfold State.holdLine
  split
  · rename_i h hl
    exact ⟨h, hl, fun a ha => by rw [committed_eq, ha, hl]⟩
  · rename_i hl
    obtain ⟨h1, h2⟩ := makeRoom_other g l l hs fun e => replaced_ne e rfl
    refine ⟨_, by simp [State.homeLine?, HomeLine.is]; rfl, fun a ha => ?_⟩
    rw [committed_eq, ha, hl, viewOf_some, viewOf_none]
    simp only [HomeLine.has, ite_self, Bool.false_eq_true, if_false]
    exact h2 a ha

theorem holdLine_other {s : State} (g : Site) (l m : Nat) (hs : s.memoryOk = true) (hm : m ≠ l)
    (hr : s.replaced g l ≠ some m) :
    (s.holdLine g l).homeLine? g.part m = s.homeLine? g.part m ∧
      ∀ a, lineOf a = m → (s.holdLine g l).mem.get a = s.mem.get a := by
  unfold State.holdLine
  split
  · exact ⟨rfl, fun _ _ => rfl⟩
  · obtain ⟨h1, h2⟩ := makeRoom_other g l m hs hr
    refine ⟨?_, h2⟩
    rw [← h1]
    have : ¬l = m := fun e => hm e.symm
    simp [State.homeLine?, HomeLine.is, this]

theorem HomeLine.fill_has (h : HomeLine) (m : Mem) (sec sec' : Nat) :
    (h.fill m sec).has sec' = (h.has sec' || decide (sec' % 2 = sec % 2)) := by
  unfold HomeLine.fill HomeLine.has
  have : sec % 2 = 0 ∨ sec % 2 = 1 := by omega
  have : sec' % 2 = 0 ∨ sec' % 2 = 1 := by omega
  rcases ‹sec % 2 = 0 ∨ _› with h1 | h1 <;> rcases ‹sec' % 2 = 0 ∨ _› with h2 | h2 <;> simp [h1, h2]

/-- A filled line reads as before. -/
theorem viewOf_fill {h : HomeLine} {m : Mem} {sec a : Nat} (hd : Memory.wf h.data = true) (hm : Memory.wf m = true)
    (hn : h.has sec = false) (ha : lineOf a = sec / 2) : viewOf (some (h.fill m sec)) m a = viewOf (some h) m a := by
  rw [viewOf_some, viewOf_some, HomeLine.fill_has, HomeLine.fill_data, Mem.get_splice _ _ _ _ _ hd hm]
  by_cases e : sectorOf a % 2 = sec % 2
  · have es : sectorOf a = sec := by unfold sectorOf lineOf at *; omega
    have hin : 64 * sec ≤ a ∧ a < 64 * sec + 64 := by unfold sectorOf at es; omega
    simp [es, hn, hin]
  · have hout : ¬(64 * sec ≤ a ∧ a < 64 * sec + 64) := by unfold sectorOf at e; omega
    simp [e, hout]

/-- Filling a sector changes no committed byte of its line, and leaves a home line that holds it. -/
theorem fillSector_line {s : State} (g : Site) (sec : Nat) (hs : s.memoryOk = true) :
    ∃ h, (s.fillSector g sec).homeLine? g.part (sec / 2) = some h ∧ h.has sec = true ∧
      ∀ a, lineOf a = sec / 2 → viewOf (some h) (s.fillSector g sec).mem a = s.committed g.part a := by
  unfold State.fillSector
  split
  · rename_i h hh
    obtain ⟨hl, hv⟩ := Option.filter_eq_some_iff.mp hh
    split
    · exact ⟨h, hl, hv, fun a ha => by rw [committed_eq, ha, hl]⟩
    · refine ⟨{ h with site := { h.site with pin := true } }, ?_, hv, fun a ha => ?_⟩
      · rw [homeLine_updHome _ _ _ _ _ pin_keeps, if_pos rfl, hl]; rfl
      · rw [committed_eq, ha, hl, viewOf_some, viewOf_some]; rfl
  · rename_i hh
    obtain ⟨h, hl, hv⟩ := holdLine_line g (sec / 2) hs
    have hk := (State.memoryOk_iff _).mp (holdLine_ok g (sec / 2) hs)
    obtain ⟨r, x, he⟩ := activate_memory (s.holdLine g (sec / 2)) g.part sec
    refine ⟨h.fill (s.holdLine g (sec / 2)).mem sec, ?_, ?_, fun a ha => ?_⟩
    · simp only
      rw [homeLine_updHome _ _ _ _ _ (fill_keeps _ _), if_pos rfl, he]
      show Option.map _ ((s.holdLine g (sec / 2)).homeLine? g.part (sec / 2)) = _
      rw [hl]; rfl
    · rw [HomeLine.fill_has]; simp
    · show viewOf _ ((s.holdLine g (sec / 2)).activate g.part sec).mem a = _
      rw [← hv a ha, he]
      have hn : h.has sec = false := by
        by_contra hc
        have hc : h.has sec = true := by simpa using hc
        unfold State.homeSector? at hh
        unfold State.holdLine at hl
        split at hl
        · rename_i y hy
          rw [hy] at hl hh
          cases hl
          simp [Option.filter, hc] at hh
        · simp only [State.homeLine?, HomeLine.is, List.find?_cons, beq_self_eq_true, Bool.and_self, Option.some.injEq] at hl
          rw [← hl] at hc
          simp [HomeLine.has] at hc
      exact viewOf_fill (hk.2.2.2 h (List.mem_of_find?_eq_some hl)) hk.1 hn ha

theorem fillSector_other {s : State} (g : Site) (sec m : Nat) (hs : s.memoryOk = true) (hm : m ≠ sec / 2)
    (hr : s.replaced g (sec / 2) ≠ some m) :
    (s.fillSector g sec).homeLine? g.part m = s.homeLine? g.part m ∧ ∀ a, lineOf a = m → (s.fillSector g sec).mem.get a = s.mem.get a := by
  unfold State.fillSector
  split
  · split
    · exact ⟨rfl, fun _ _ => rfl⟩
    · exact ⟨by rw [homeLine_updHome _ _ _ _ _ pin_keeps, if_neg hm], fun _ _ => rfl⟩
  · obtain ⟨h1, h2⟩ := holdLine_other g (sec / 2) m hs hm hr
    obtain ⟨r, x, he⟩ := activate_memory (s.holdLine g (sec / 2)) g.part sec
    refine ⟨?_, fun a ha => by
      show ((s.holdLine g (sec / 2)).activate g.part sec).mem.get a = _
      rw [← h2 a ha, he]⟩
    simp only
    rw [homeLine_updHome _ _ _ _ _ (fill_keeps _ _), if_neg hm, he, ← h1]
    rfl

/-- A committed byte just written reads as written; every other byte of its line, and of any line that the write does not replace in
its slice, as before. -/
theorem committed_commitByte {s : State} (g : Site) (pa a : Nat) (b : Byte) (hs : s.memoryOk = true)
    (hr : s.replaced g (lineOf pa) ≠ some (lineOf a)) :
    (s.commitByte g pa b).committed g.part a = if a = pa then b else s.committed g.part a := by
  have el : sectorOf pa / 2 = lineOf pa := by unfold sectorOf lineOf; omega
  obtain ⟨c, x, he⟩ := staleImages_memory ((s.fillSector g (sectorOf pa)).updHome g.part (lineOf pa) fun h => h.store pa b) pa
  have hc : (s.commitByte g pa b).committed g.part a =
      ((s.fillSector g (sectorOf pa)).updHome g.part (lineOf pa) fun h => h.store pa b).committed g.part a := by
    unfold State.commitByte; rw [he]; rfl
  rw [hc, committed_eq, homeLine_updHome _ _ _ _ _ (store_keeps pa b)]
  obtain ⟨h, e1, e2, e3⟩ := fillSector_line g (sectorOf pa) hs
  rw [el] at e1 e3
  by_cases hl : lineOf a = lineOf pa
  · rw [if_pos hl, hl, e1, Option.map_some]
    show viewOf (some (h.store pa b)) (s.fillSector g (sectorOf pa)).mem a = _
    rw [viewOf_some]
    by_cases ha : a = pa
    · rw [if_pos ha, ha]
      simp [e2]
    · rw [if_neg ha, ← e3 a hl]
      rw [viewOf_some]
      simp [ha]
  · have hne : a ≠ pa := fun e => hl (e ▸ rfl)
    rw [if_neg hl, if_neg hne, committed_eq]
    obtain ⟨f1, f2⟩ := fillSector_other g (sectorOf pa) (lineOf a) hs (by rw [el]; exact hl) (by rw [el]; exact hr)
    rw [f1]
    exact viewOf_congr (f2 a rfl)

/-- The same for bytes in one line. -/
theorem committed_commitBytes {s : State} (g : Site) (pa a : Nat) (bs : List Byte) (hs : s.memoryOk = true)
    (hl : ∀ n, n < bs.length → lineOf (pa + n) = lineOf a) :
    (s.commitBytes g pa bs).committed g.part a = if pa ≤ a ∧ a < pa + bs.length then bs.getD (a - pa) 0 else s.committed g.part a := by
  induction bs generalizing s pa with
  | nil =>
    have : ¬(pa ≤ a ∧ a < pa + ([] : List Byte).length) := by simp only [List.length_nil]; omega
    rw [if_neg this]
    rfl
  | cons b bs ih =>
    have h0 : lineOf pa = lineOf a := hl 0 (by simp)
    have hr : s.replaced g (lineOf pa) ≠ some (lineOf a) := fun e => replaced_ne e h0.symm
    rw [State.commitBytes, ih (pa + 1) (commitByte_ok g pa b hs) fun n hn => by
      have := hl (n + 1) (by simpa using hn)
      rw [← this]
      congr 1
      omega, committed_commitByte g pa a b hs hr]
    simp only [List.length_cons]
    by_cases h : a = pa
    · subst h
      rw [if_neg (by omega), if_pos rfl, if_pos (by omega)]
      simp
    · rw [if_neg h]
      by_cases h2 : pa + 1 ≤ a ∧ a < pa + 1 + bs.length
      · rw [if_pos h2, if_pos (by omega)]
        have : a - pa = (a - (pa + 1)) + 1 := by omega
        rw [this]
        simp
      · rw [if_neg h2, if_neg (by omega)]

end Sys2Proof.Machine
end

