-- ==== Sys2Proof/Laws/PerInstr.lean ====
section
/-! SUPPORT. What holds of every instruction, constructor by constructor: a well-formed instruction's opcode and fields name it in
its set's map, so that the decoder reads it back from them. -/

namespace Sys2Proof.Laws.NamedByFields

open Sys2Proof.Machine

/-- A well-formed instruction is the one its opcode and fields name (R46, R57, R62, R63). -/
def Statement (i : Instr) : Prop :=
  i.wf = true → ∀ x, i.form? = some x → (if i.opcode.1 then uniOf i.opcode.2 x else laneOf i.opcode.2 x) = some i

/-- A well-formed instruction's own limits hold. -/
theorem ok_of_wf {i : Instr} {x : Form} (hw : i.wf = true) (h : i.form? = some x) : i.shape.ok = true := by
  refine Decidable.byContradiction fun hn => ?_
  simp only [Bool.not_eq_true] at hn
  unfold Instr.wf Instr.illegal at hw
  rw [h] at hw
  simp only [Shape.check, hn, Bool.not_false, if_true] at hw
  repeat (split at hw; exact absurd hw (by decide))
  exact absurd hw (by decide)

/-- An instruction of either set whose map names it. -/
theorem lane_named {i : Instr} (x : Form) (hf : i.form? = some x) (op : Nat) (ho : i.opcode = (false, op)) (h : laneOf op x = some i) :
    Statement i := by
  intro _ y hy
  rw [hf] at hy
  cases hy
  rw [ho]
  exact h

theorem uni_named {i : Instr} (x : Form) (hf : i.form? = some x) (op : Nat) (ho : i.opcode = (true, op)) (h : uniOf op x = some i) :
    Statement i := by
  intro _ y hy
  rw [hf] at hy
  cases hy
  rw [ho]
  exact h

theorem bit_of_mb (x : Form) (n : Nat) (b : Bool) (h : (x.mb n == b) = true) : x.mf n n = if b then 1 else 0 := by
  have hb : x.mb n = b := by simpa using h
  subst hb
  have e : x.mf n n = x.m / 2 ^ n % 2 := by simp [Form.mf, bits]
  have f : x.mb n = (x.m / 2 ^ n % 2 == 1) := rfl
  rw [e, f]
  cases Nat.mod_two_eq_zero_or_one (x.m / 2 ^ n) with
  | inl h => simp [h]
  | inr h => simp [h]

theorem iadd (x : Form) : Statement (.iadd x) := lane_named x rfl 0x00 rfl rfl
theorem isub (x : Form) : Statement (.isub x) := lane_named x rfl 0x01 rfl rfl
theorem imul (x : Form) : Statement (.imul x) := lane_named x rfl 0x02 rfl rfl
theorem imulh (x : Form) : Statement (.imulh x) := lane_named x rfl 0x03 rfl rfl
theorem imad (x : Form) : Statement (.imad x) := lane_named x rfl 0x04 rfl rfl
theorem iadd64 (x : Form) : Statement (.iadd64 x) := lane_named x rfl 0x05 rfl rfl
theorem imin (x : Form) : Statement (.imin x) := lane_named x rfl 0x06 rfl rfl
theorem imax (x : Form) : Statement (.imax x) := lane_named x rfl 0x07 rfl rfl
theorem iabs (x : Form) : Statement (.iabs x) := lane_named x rfl 0x08 rfl rfl
theorem idiv (x : Form) : Statement (.idiv x) := lane_named x rfl 0x09 rfl rfl
theorem irem (x : Form) : Statement (.irem x) := lane_named x rfl 0x0A rfl rfl
theorem and (x : Form) : Statement (.and x) := lane_named x rfl 0x0B rfl rfl
theorem or (x : Form) : Statement (.or x) := lane_named x rfl 0x0C rfl rfl
theorem xor (x : Form) : Statement (.xor x) := lane_named x rfl 0x0D rfl rfl
theorem andn (x : Form) : Statement (.andn x) := lane_named x rfl 0x0E rfl rfl
theorem blut (x : Form) : Statement (.blut x) := lane_named x rfl 0x0F rfl rfl
theorem shl (x : Form) : Statement (.shl x) := lane_named x rfl 0x10 rfl rfl
theorem shr (x : Form) : Statement (.shr x) := lane_named x rfl 0x11 rfl rfl
theorem sar (x : Form) : Statement (.sar x) := lane_named x rfl 0x12 rfl rfl
theorem rot (x : Form) : Statement (.rot x) := lane_named x rfl 0x13 rfl rfl
theorem bfx (x : Form) : Statement (.bfx x) := lane_named x rfl 0x14 rfl rfl
theorem bfi (x : Form) : Statement (.bfi x) := lane_named x rfl 0x15 rfl rfl
theorem popc (x : Form) : Statement (.popc x) := lane_named x rfl 0x16 rfl rfl
theorem clz (x : Form) : Statement (.clz x) := lane_named x rfl 0x17 rfl rfl
theorem brev (x : Form) : Statement (.brev x) := lane_named x rfl 0x18 rfl rfl
theorem lea (x : Form) : Statement (.lea x) := lane_named x rfl 0x19 rfl rfl
theorem bpick (x : Form) : Statement (.bpick x) := lane_named x rfl 0x1A rfl rfl
theorem idp4 (x : Form) : Statement (.idp4 x) := lane_named x rfl 0x1B rfl rfl
theorem mov (x : Form) : Statement (.mov x) := lane_named x rfl 0x20 rfl rfl
theorem movi (x : Form) : Statement (.movi x) := lane_named x rfl 0x21 rfl rfl
theorem movhi (x : Form) : Statement (.movhi x) := lane_named x rfl 0x22 rfl rfl
theorem sel (x : Form) : Statement (.sel x) := lane_named x rfl 0x23 rfl rfl
theorem lanex (x : Form) : Statement (.lanex x) := lane_named x rfl 0x24 rfl rfl
theorem pcol (x : Form) : Statement (.pcol x) := lane_named x rfl 0x25 rfl rfl
theorem sr (x : Form) : Statement (.sr x) := lane_named x rfl 0x26 rfl rfl
theorem ptov (x : Form) : Statement (.ptov x) := lane_named x rfl 0x27 rfl rfl
theorem vtop (x : Form) : Statement (.vtop x) := lane_named x rfl 0x28 rfl rfl
theorem urd (x : Form) : Statement (.urd x) := lane_named x rfl 0x29 rfl rfl
theorem bra (x : Form) : Statement (.bra x) := lane_named x rfl 0x30 rfl rfl
theorem brx (x : Form) : Statement (.brx x) := lane_named x rfl 0x31 rfl rfl
theorem call (x : Form) : Statement (.call x) := lane_named x rfl 0x32 rfl rfl
theorem calli (x : Form) : Statement (.calli x) := lane_named x rfl 0x33 rfl rfl
theorem ret (x : Form) : Statement (.ret x) := lane_named x rfl 0x34 rfl rfl
theorem fspawn (x : Form) : Statement (.fspawn x) := lane_named x rfl 0x35 rfl rfl
theorem fend (x : Form) : Statement (.fend x) := lane_named x rfl 0x36 rfl rfl
theorem rcv (x : Form) : Statement (.rcv x) := lane_named x rfl 0x37 rfl rfl
theorem icmp (x : Form) : Statement (.icmp x) := lane_named x rfl 0x38 rfl rfl
theorem plut (x : Form) : Statement (.plut x) := lane_named x rfl 0x39 rfl rfl
theorem fcmp (x : Form) : Statement (.fcmp x) := lane_named x rfl 0x3A rfl rfl
theorem hcmp (x : Form) : Statement (.hcmp x) := lane_named x rfl 0x3B rfl rfl
theorem bcmp (x : Form) : Statement (.bcmp x) := lane_named x rfl 0x3C rfl rfl
theorem fclass (x : Form) : Statement (.fclass x) := lane_named x rfl 0x3D rfl rfl
theorem fadd (x : Form) : Statement (.fadd x) := lane_named x rfl 0x40 rfl rfl
theorem fsub (x : Form) : Statement (.fsub x) := lane_named x rfl 0x41 rfl rfl
theorem fmul (x : Form) : Statement (.fmul x) := lane_named x rfl 0x42 rfl rfl
theorem ffma (x : Form) : Statement (.ffma x) := lane_named x rfl 0x43 rfl rfl
theorem fmin (x : Form) : Statement (.fmin x) := lane_named x rfl 0x44 rfl rfl
theorem fmax (x : Form) : Statement (.fmax x) := lane_named x rfl 0x45 rfl rfl
theorem fdiv (x : Form) : Statement (.fdiv x) := lane_named x rfl 0x46 rfl rfl
theorem fsqrt (x : Form) : Statement (.fsqrt x) := lane_named x rfl 0x47 rfl rfl
theorem frcp (x : Form) : Statement (.frcp x) := lane_named x rfl 0x48 rfl rfl
theorem frsq (x : Form) : Statement (.frsq x) := lane_named x rfl 0x49 rfl rfl
theorem fex2 (x : Form) : Statement (.fex2 x) := lane_named x rfl 0x4A rfl rfl
theorem flg2 (x : Form) : Statement (.flg2 x) := lane_named x rfl 0x4B rfl rfl
theorem fsin (x : Form) : Statement (.fsin x) := lane_named x rfl 0x4C rfl rfl
theorem fcos (x : Form) : Statement (.fcos x) := lane_named x rfl 0x4D rfl rfl
theorem frnd (x : Form) : Statement (.frnd x) := lane_named x rfl 0x4E rfl rfl
theorem fscale (x : Form) : Statement (.fscale x) := lane_named x rfl 0x4F rfl rfl
theorem fcpys (x : Form) : Statement (.fcpys x) := lane_named x rfl 0x50 rfl rfl
theorem hadd2 (x : Form) : Statement (.hadd2 x) := lane_named x rfl 0x60 rfl rfl
theorem hmul2 (x : Form) : Statement (.hmul2 x) := lane_named x rfl 0x61 rfl rfl
theorem hfma2 (x : Form) : Statement (.hfma2 x) := lane_named x rfl 0x62 rfl rfl
theorem hmin2 (x : Form) : Statement (.hmin2 x) := lane_named x rfl 0x63 rfl rfl
theorem hmax2 (x : Form) : Statement (.hmax2 x) := lane_named x rfl 0x64 rfl rfl
theorem badd2 (x : Form) : Statement (.badd2 x) := lane_named x rfl 0x65 rfl rfl
theorem bmul2 (x : Form) : Statement (.bmul2 x) := lane_named x rfl 0x66 rfl rfl
theorem bfma2 (x : Form) : Statement (.bfma2 x) := lane_named x rfl 0x67 rfl rfl
theorem cvt (x : Form) : Statement (.cvt x) := lane_named x rfl 0x68 rfl rfl
theorem cvtp (x : Form) : Statement (.cvtp x) := lane_named x rfl 0x69 rfl rfl
theorem cvtq (x : Form) : Statement (.cvtq x) := lane_named x rfl 0x6A rfl rfl
theorem cvtx (x : Form) : Statement (.cvtx x) := lane_named x rfl 0x6B rfl rfl
theorem ld (x : Form) : Statement (.ld x) := lane_named x rfl 0x70 rfl rfl
theorem st (x : Form) : Statement (.st x) := lane_named x rfl 0x71 rfl rfl
theorem lds (x : Form) : Statement (.lds x) := lane_named x rfl 0x72 rfl rfl
theorem sts (x : Form) : Statement (.sts x) := lane_named x rfl 0x73 rfl rfl
theorem atom (x : Form) : Statement (.atom x) := lane_named x rfl 0x74 rfl rfl
theorem red (x : Form) : Statement (.red x) := lane_named x rfl 0x75 rfl rfl
theorem cas (x : Form) : Statement (.cas x) := lane_named x rfl 0x76 rfl rfl
theorem qenq (x : Form) : Statement (.qenq x) := lane_named x rfl 0x77 rfl rfl
theorem qdeq (x : Form) : Statement (.qdeq x) := lane_named x rfl 0x78 rfl rfl
theorem sliceof (x : Form) : Statement (.sliceof x) := lane_named x rfl 0x79 rfl rfl
theorem homeof (x : Form) : Statement (.homeof x) := lane_named x rfl 0x7A rfl rfl
theorem pref (x : Form) : Statement (.pref x) := lane_named x rfl 0x7B rfl rfl
theorem hld (x : Form) : Statement (.hld x) := lane_named x rfl 0x7C rfl rfl
theorem hst (x : Form) : Statement (.hst x) := lane_named x rfl 0x7D rfl rfl
theorem hrefPin (x : Form) : Statement (.hrefPin x) := fun hw => by
  have e : x.mf 2 0 = 0 := by have this : (x.mf 2 0 == 0 && x.mz 26 3) = true := ok_of_wf hw rfl; simp only [Bool.and_eq_true, beq_iff_eq] at this; exact this.1
  exact lane_named x rfl 0x7E rfl (by delta laneOf; rw [e]; rfl) hw
theorem hrefUnpin (x : Form) : Statement (.hrefUnpin x) := fun hw => by
  have e : x.mf 2 0 = 1 := by have this : (x.mf 2 0 == 1 && x.mz 26 3) = true := ok_of_wf hw rfl; simp only [Bool.and_eq_true, beq_iff_eq] at this; exact this.1
  exact lane_named x rfl 0x7E rfl (by delta laneOf; rw [e]; rfl) hw
theorem hrefCmp (x : Form) : Statement (.hrefCmp x) := fun hw => by
  have e : x.mf 2 0 = 2 := by have this : (x.mf 2 0 == 2 && x.mz 26 3) = true := ok_of_wf hw rfl; simp only [Bool.and_eq_true, beq_iff_eq] at this; exact this.1
  exact lane_named x rfl 0x7E rfl (by delta laneOf; rw [e]; rfl) hw
theorem hrefIsnull (x : Form) : Statement (.hrefIsnull x) := fun hw => by
  have e : x.mf 2 0 = 3 := by have this : (x.mf 2 0 == 3 && x.mz 26 3) = true := ok_of_wf hw rfl; simp only [Bool.and_eq_true, beq_iff_eq] at this; exact this.1
  exact lane_named x rfl 0x7E rfl (by delta laneOf; rw [e]; rfl) hw
theorem hrefMov (x : Form) : Statement (.hrefMov x) := fun hw => by
  have e : x.mf 2 0 = 4 := by have this : (x.mf 2 0 == 4 && x.mz 26 3) = true := ok_of_wf hw rfl; simp only [Bool.and_eq_true, beq_iff_eq] at this; exact this.1
  exact lane_named x rfl 0x7E rfl (by delta laneOf; rw [e]; rfl) hw
theorem hrefFrom (x : Form) : Statement (.hrefFrom x) := fun hw => by
  have e : x.mf 2 0 = 5 := by have this : (x.mf 2 0 == 5 && x.mz 26 3) = true := ok_of_wf hw rfl; simp only [Bool.and_eq_true, beq_iff_eq] at this; exact this.1
  exact lane_named x rfl 0x7E rfl (by delta laneOf; rw [e]; rfl) hw
theorem hrefTo (x : Form) : Statement (.hrefTo x) := fun hw => by
  have e : x.mf 2 0 = 6 := by have this : (x.mf 2 0 == 6 && x.mz 26 3) = true := ok_of_wf hw rfl; simp only [Bool.and_eq_true, beq_iff_eq] at this; exact this.1
  exact lane_named x rfl 0x7E rfl (by delta laneOf; rw [e]; rfl) hw
theorem hnew (x : Form) : Statement (.hnew x) := lane_named x rfl 0x7F rfl rfl
theorem uadd (x : Form) : Statement (.uadd x) := uni_named x rfl 0x00 rfl rfl
theorem usub (x : Form) : Statement (.usub x) := uni_named x rfl 0x01 rfl rfl
theorem umul (x : Form) : Statement (.umul x) := uni_named x rfl 0x02 rfl rfl
theorem umad (x : Form) : Statement (.umad x) := uni_named x rfl 0x03 rfl rfl
theorem umin (x : Form) : Statement (.umin x) := uni_named x rfl 0x04 rfl rfl
theorem umax (x : Form) : Statement (.umax x) := uni_named x rfl 0x05 rfl rfl
theorem uand (x : Form) : Statement (.uand x) := uni_named x rfl 0x06 rfl rfl
theorem uor (x : Form) : Statement (.uor x) := uni_named x rfl 0x07 rfl rfl
theorem uxor (x : Form) : Statement (.uxor x) := uni_named x rfl 0x08 rfl rfl
theorem ushl (x : Form) : Statement (.ushl x) := uni_named x rfl 0x09 rfl rfl
theorem ushr (x : Form) : Statement (.ushr x) := uni_named x rfl 0x0A rfl rfl
theorem usar (x : Form) : Statement (.usar x) := uni_named x rfl 0x0B rfl rfl
theorem umov (x : Form) : Statement (.umov x) := uni_named x rfl 0x0C rfl rfl
theorem umovi (x : Form) : Statement (.umovi x) := uni_named x rfl 0x0D rfl rfl
theorem umovhi (x : Form) : Statement (.umovhi x) := uni_named x rfl 0x0E rfl rfl
theorem usel (x : Form) : Statement (.usel x) := uni_named x rfl 0x0F rfl rfl
theorem ulea (x : Form) : Statement (.ulea x) := uni_named x rfl 0x10 rfl rfl
theorem ucmp (x : Form) : Statement (.ucmp x) := uni_named x rfl 0x11 rfl rfl
theorem uplut (x : Form) : Statement (.uplut x) := uni_named x rfl 0x12 rfl rfl
theorem usr (x : Form) : Statement (.usr x) := uni_named x rfl 0x13 rfl rfl
theorem ufrom (x : Form) : Statement (.ufrom x) := uni_named x rfl 0x14 rfl rfl
theorem uld (x : Form) : Statement (.uld x) := uni_named x rfl 0x15 rfl rfl
theorem ust (x : Form) : Statement (.ust x) := uni_named x rfl 0x16 rfl rfl
theorem ufadd (x : Form) : Statement (.ufadd x) := uni_named x rfl 0x17 rfl rfl
theorem ufmul (x : Form) : Statement (.ufmul x) := uni_named x rfl 0x18 rfl rfl
theorem uffma (x : Form) : Statement (.uffma x) := uni_named x rfl 0x19 rfl rfl
theorem ucvt (x : Form) : Statement (.ucvt x) := uni_named x rfl 0x1A rfl rfl
theorem ubra (x : Form) : Statement (.ubra x) := uni_named x rfl 0x20 rfl rfl
theorem elect (x : Form) : Statement (.elect x) := uni_named x rfl 0x21 rfl rfl
theorem sleep (x : Form) : Statement (.sleep x) := uni_named x rfl 0x22 rfl rfl
theorem wake (x : Form) : Statement (.wake x) := uni_named x rfl 0x23 rfl rfl
theorem bar (x : Form) : Statement (.bar x) := uni_named x rfl 0x24 rfl rfl
theorem tbar (x : Form) : Statement (.tbar x) := uni_named x rfl 0x25 rfl rfl
theorem rngwaitF (x : Form) : Statement (.rngwaitF x) := fun hw => by
  have e : x.mf 0 0 = 0 := by have this : (decide (x.immZ < 16) && x.mf 0 0 == 0 && x.mz 26 1) = true := ok_of_wf hw rfl; simp only [Bool.and_eq_true, beq_iff_eq] at this; exact this.1.2
  exact uni_named x rfl 0x26 rfl (by delta uniOf; rw [e]; rfl) hw
theorem rngwaitE (x : Form) : Statement (.rngwaitE x) := fun hw => by
  have e : x.mf 0 0 = 1 := by have this : (decide (x.immZ < 16) && x.mf 0 0 == 1 && x.mz 26 1) = true := ok_of_wf hw rfl; simp only [Bool.and_eq_true, beq_iff_eq] at this; exact this.1.2
  exact uni_named x rfl 0x26 rfl (by delta uniOf; rw [e]; rfl) hw
theorem rngsigF (x : Form) : Statement (.rngsigF x) := fun hw => by
  have e : x.mf 0 0 = 0 := by have this : (decide (x.immZ < 16) && x.mf 0 0 == 0 && x.mz 26 1) = true := ok_of_wf hw rfl; simp only [Bool.and_eq_true, beq_iff_eq] at this; exact this.1.2
  exact uni_named x rfl 0x27 rfl (by delta uniOf; rw [e]; rfl) hw
theorem rngsigE (x : Form) : Statement (.rngsigE x) := fun hw => by
  have e : x.mf 0 0 = 1 := by have this : (decide (x.immZ < 16) && x.mf 0 0 == 1 && x.mz 26 1) = true := ok_of_wf hw rfl; simp only [Bool.and_eq_true, beq_iff_eq] at this; exact this.1.2
  exact uni_named x rfl 0x27 rfl (by delta uniOf; rw [e]; rfl) hw
theorem yield (x : Form) : Statement (.yield x) := uni_named x rfl 0x28 rfl rfl
theorem launch (x : Form) : Statement (.launch x) := uni_named x rfl 0x29 rfl rfl
theorem done (x : Form) : Statement (.done x) := uni_named x rfl 0x2A rfl rfl
theorem nop (x : Form) : Statement (.nop x) := uni_named x rfl 0x2B rfl rfl
theorem bincfg (x : Form) : Statement (.bincfg x) := uni_named x rfl 0x2C rfl rfl
theorem fence (x : Form) : Statement (.fence x) := uni_named x rfl 0x30 rfl rfl
theorem cmaintClean (x : Form) : Statement (.cmaintClean x) := fun hw => by
  have e : bits x.cs 1 0 = 0 := by have this : (cmaintShape x 0).ok = true := ok_of_wf hw rfl; simp only [cmaintShape, Bool.and_eq_true, beq_iff_eq] at this; exact this.1.2
  exact uni_named x rfl 0x31 rfl (by delta uniOf; rw [e]; rfl) hw
theorem cmaintInvalidate (x : Form) : Statement (.cmaintInvalidate x) := fun hw => by
  have e : bits x.cs 1 0 = 1 := by have this : (cmaintShape x 1).ok = true := ok_of_wf hw rfl; simp only [cmaintShape, Bool.and_eq_true, beq_iff_eq] at this; exact this.1.2
  exact uni_named x rfl 0x31 rfl (by delta uniOf; rw [e]; rfl) hw
theorem cmaintCleanInvalidate (x : Form) : Statement (.cmaintCleanInvalidate x) := fun hw => by
  have e : bits x.cs 1 0 = 2 := by have this : (cmaintShape x 2).ok = true := ok_of_wf hw rfl; simp only [cmaintShape, Bool.and_eq_true, beq_iff_eq] at this; exact this.1.2
  exact uni_named x rfl 0x31 rfl (by delta uniOf; rw [e]; rfl) hw
theorem cmaintDemote (x : Form) : Statement (.cmaintDemote x) := fun hw => by
  have e : bits x.cs 1 0 = 3 := by have this : (cmaintShape x 3).ok = true := ok_of_wf hw rfl; simp only [cmaintShape, Bool.and_eq_true, beq_iff_eq] at this; exact this.1.2
  exact uni_named x rfl 0x31 rfl (by delta uniOf; rw [e]; rfl) hw
theorem cpy (x : Form) : Statement (.cpy x) := uni_named x rfl 0x32 rfl rfl
theorem cpydrain (x : Form) : Statement (.cpydrain x) := uni_named x rfl 0x33 rfl rfl
theorem nbinit (x : Form) : Statement (.nbinit x) := uni_named x rfl 0x34 rfl rfl
theorem nbarr (x : Form) : Statement (.nbarr x) := uni_named x rfl 0x35 rfl rfl
theorem nbwait (x : Form) : Statement (.nbwait x) := uni_named x rfl 0x36 rfl rfl
theorem qwait (x : Form) : Statement (.qwait x) := uni_named x rfl 0x37 rfl rfl
theorem coll (x : Form) : Statement (.coll x) := uni_named x rfl 0x38 rfl rfl
theorem setways (x : Form) : Statement (.setways x) := uni_named x rfl 0x39 rfl rfl
theorem psnapOpen (x : Form) : Statement (.psnapOpen x) := fun hw => by
  have e : x.mf 1 0 = 0 := by have this : (x.mf 1 0 == 0 && x.mz 26 2) = true := ok_of_wf hw rfl; simp only [Bool.and_eq_true, beq_iff_eq] at this; exact this.1
  exact uni_named x rfl 0x3A rfl (by delta uniOf; rw [e]; rfl) hw
theorem psnapClose (x : Form) : Statement (.psnapClose x) := fun hw => by
  have e : x.mf 1 0 = 1 := by have this : (x.mf 1 0 == 1 && x.mz 26 2) = true := ok_of_wf hw rfl; simp only [Bool.and_eq_true, beq_iff_eq] at this; exact this.1
  exact uni_named x rfl 0x3A rfl (by delta uniOf; rw [e]; rfl) hw
theorem psnapBegin (x : Form) : Statement (.psnapBegin x) := fun hw => by
  have e : x.mf 1 0 = 2 := by have this : (x.mf 1 0 == 2 && x.mz 26 2) = true := ok_of_wf hw rfl; simp only [Bool.and_eq_true, beq_iff_eq] at this; exact this.1
  exact uni_named x rfl 0x3A rfl (by delta uniOf; rw [e]; rfl) hw
theorem psnapPublish (x : Form) : Statement (.psnapPublish x) := fun hw => by
  have e : x.mf 1 0 = 3 := by have this : (x.mf 1 0 == 3 && x.mz 26 2) = true := ok_of_wf hw rfl; simp only [Bool.and_eq_true, beq_iff_eq] at this; exact this.1
  exact uni_named x rfl 0x3A rfl (by delta uniOf; rw [e]; rfl) hw
theorem phintHot (x : Form) : Statement (.phintHot x) := fun hw => by
  have e : x.mf 0 0 = 0 := by have this : (x.mf 0 0 == 0 && x.mz 26 1) = true := ok_of_wf hw rfl; simp only [Bool.and_eq_true, beq_iff_eq] at this; exact this.1
  exact uni_named x rfl 0x3B rfl (by delta uniOf; rw [e]; rfl) hw
theorem phintCold (x : Form) : Statement (.phintCold x) := fun hw => by
  have e : x.mf 0 0 = 1 := by have this : (x.mf 0 0 == 1 && x.mz 26 1) = true := ok_of_wf hw rfl; simp only [Bool.and_eq_true, beq_iff_eq] at this; exact this.1
  exact uni_named x rfl 0x3B rfl (by delta uniOf; rw [e]; rfl) hw
theorem hreloc (x : Form) : Statement (.hreloc x) := uni_named x rfl 0x3C rfl rfl
theorem bld (x : Form) : Statement (.bld x) := uni_named x rfl 0x40 rfl rfl
theorem sld (x : Form) : Statement (.sld x) := uni_named x rfl 0x41 rfl rfl
theorem mma (x : Form) : Statement (.mma x) := uni_named x rfl 0x42 rfl rfl
theorem mmai (x : Form) : Statement (.mmai x) := uni_named x rfl 0x43 rfl rfl
theorem zzero (x : Form) : Statement (.zzero x) := uni_named x rfl 0x44 rfl rfl
theorem zld (x : Form) : Statement (.zld x) := uni_named x rfl 0x45 rfl rfl
theorem zst (x : Form) : Statement (.zst x) := uni_named x rfl 0x46 rfl rfl
theorem zrd (x : Form) : Statement (.zrd x) := uni_named x rfl 0x47 rfl rfl
theorem zwr (x : Form) : Statement (.zwr x) := uni_named x rfl 0x48 rfl rfl
theorem zpin (x : Form) : Statement (.zpin x) := uni_named x rfl 0x50 rfl rfl
theorem zatt (x : Form) : Statement (.zatt x) := uni_named x rfl 0x51 rfl rfl
theorem zdet (x : Form) : Statement (.zdet x) := uni_named x rfl 0x52 rfl rfl
theorem zrel (x : Form) : Statement (.zrel x) := uni_named x rfl 0x53 rfl rfl
theorem gdr (x : Form) : Statement (.gdr x) := fun hw => by
  have e := bit_of_mb x 3 false (by have this : fwOk x x.dn false false = true := ok_of_wf hw rfl; simp only [fwOk, Bool.and_eq_true] at this; exact this.1.1.1.2)
  exact uni_named x rfl 0x54 rfl (by delta uniOf; rw [e]; rfl) hw
theorem gdrCq (x : Form) : Statement (.gdrCq x) := fun hw => by
  have e := bit_of_mb x 3 true (by have this : fwOk x x.dn true true = true := ok_of_wf hw rfl; simp only [fwOk, Bool.and_eq_true] at this; exact this.1.1.1.2)
  exact uni_named x rfl 0x54 rfl (by delta uniOf; rw [e]; rfl) hw
theorem gqr (x : Form) : Statement (.gqr x) := fun hw => by
  have e := bit_of_mb x 3 false (by have this : fwOk x x.an false false = true := ok_of_wf hw rfl; simp only [fwOk, Bool.and_eq_true] at this; exact this.1.1.1.2)
  exact uni_named x rfl 0x55 rfl (by delta uniOf; rw [e]; rfl) hw
theorem gqrCq (x : Form) : Statement (.gqrCq x) := fun hw => by
  have e := bit_of_mb x 3 true (by have this : fwOk x x.an true false = true := ok_of_wf hw rfl; simp only [fwOk, Bool.and_eq_true] at this; exact this.1.1.1.2)
  exact uni_named x rfl 0x55 rfl (by delta uniOf; rw [e]; rfl) hw
theorem zspill (x : Form) : Statement (.zspill x) := uni_named x rfl 0x56 rfl rfl
theorem zinfoT (x : Form) : Statement (.zinfoT x) := fun hw => by
  have this : (x.m == 0) = true := ok_of_wf hw rfl
  have e : x.mf 0 0 = 0 := by unfold Form.mf; rw [eq_of_beq this]; rfl
  exact uni_named x rfl 0x57 rfl (by delta uniOf; rw [e]; rfl) hw
theorem zinfoH (x : Form) : Statement (.zinfoH x) := fun hw => by
  have this : (x.m == 1) = true := ok_of_wf hw rfl
  have e : x.mf 0 0 = 1 := by unfold Form.mf; rw [eq_of_beq this]; rfl
  exact uni_named x rfl 0x57 rfl (by delta uniOf; rw [e]; rfl) hw
theorem trap (x : Form) : Statement (.trap x) := uni_named x rfl 0x60 rfl rfl
theorem bpt (x : Form) : Statement (.bpt x) := uni_named x rfl 0x61 rfl rfl
theorem ckpt (x : Form) : Statement (.ckpt x) := uni_named x rfl 0x62 rfl rfl
theorem eret (x : Form) : Statement (.eret x) := uni_named x rfl 0x63 rfl rfl
theorem rdsys (x : Form) : Statement (.rdsys x) := uni_named x rfl 0x64 rfl rfl
theorem wrsys (x : Form) : Statement (.wrsys x) := uni_named x rfl 0x65 rfl rfl
theorem wrpkr (x : Form) : Statement (.wrpkr x) := uni_named x rfl 0x66 rfl rfl
theorem halt (x : Form) : Statement (.halt x) := uni_named x rfl 0x67 rfl rfl
theorem pass : ∀ a0 a1, Statement (.pass a0 a1) := by intro _ _; intro _ y h; cases h
theorem drain : ∀ a0 a1, Statement (.drain a0 a1) := by intro _ _; intro _ y h; cases h
theorem fill : ∀ a0 a1 a2, Statement (.fill a0 a1 a2) := by intro _ _ _; intro _ y h; cases h
theorem evict : ∀ a0 a1, Statement (.evict a0 a1) := by intro _ _; intro _ y h; cases h
theorem writeBack : ∀ a0, Statement (.writeBack a0) := by intro _; intro _ y h; cases h
theorem lineWrite : ∀ a0, Statement (.lineWrite a0) := by intro _; intro _ y h; cases h
theorem engineCompletion : ∀ a0, Statement (.engineCompletion a0) := by intro _; intro _ y h; cases h
theorem absorbOrAppend : ∀ a0, Statement (.absorbOrAppend a0) := by intro _; intro _ y h; cases h
theorem transmit : ∀ a0, Statement (.transmit a0) := by intro _; intro _ y h; cases h
theorem reply : ∀ a0, Statement (.reply a0) := by intro _; intro _ y h; cases h
theorem claim : ∀ a0, Statement (.claim a0) := by intro _; intro _ y h; cases h
theorem hold : ∀ a0, Statement (.hold a0) := by intro _; intro _ y h; cases h
theorem copyLine : ∀ a0, Statement (.copyLine a0) := by intro _; intro _ y h; cases h
theorem registerProducerCompletion : ∀ a0 a1 a2, Statement (.registerProducerCompletion a0 a1 a2) := by intro _ _ _; intro _ y h; cases h
theorem atomicReply : ∀ a0, Statement (.atomicReply a0) := by intro _; intro _ y h; cases h
theorem checkpoint : ∀ a0 a1, Statement (.checkpoint a0 a1) := by intro _ _; intro _ y h; cases h
theorem trapDelivery : ∀ a0 a1, Statement (.trapDelivery a0 a1) := by intro _ _; intro _ y h; cases h
theorem trapRecordEnqueueRetry : ∀ a0 a1, Statement (.trapRecordEnqueueRetry a0 a1) := by intro _ _; intro _ y h; cases h
theorem intervalTimerExpiry : ∀ a0 a1, Statement (.intervalTimerExpiry a0 a1) := by intro _ _; intro _ y h; cases h
theorem dispatch : ∀ a0, Statement (.dispatch a0) := by intro _; intro _ y h; cases h
theorem priorityAging : ∀ a0 a1, Statement (.priorityAging a0 a1) := by intro _ _; intro _ y h; cases h
theorem teamReservation : ∀ a0, Statement (.teamReservation a0) := by intro _; intro _ y h; cases h
theorem crewEnd : ∀ a0 a1, Statement (.crewEnd a0 a1) := by intro _ _; intro _ y h; cases h
theorem binTimerExpiry : ∀ a0 a1 a2, Statement (.binTimerExpiry a0 a1 a2) := by intro _ _ _; intro _ y h; cases h
theorem binFire : ∀ a0 a1 a2, Statement (.binFire a0 a1 a2) := by intro _ _ _; intro _ y h; cases h
theorem rcvTimeout : ∀ a0, Statement (.rcvTimeout a0) := by intro _; intro _ y h; cases h
theorem sleepTimeout : ∀ a0, Statement (.sleepTimeout a0) := by intro _; intro _ y h; cases h
theorem qwaitTimeout : ∀ a0, Statement (.qwaitTimeout a0) := by intro _; intro _ y h; cases h
theorem qwaitReread : ∀ a0, Statement (.qwaitReread a0) := by intro _; intro _ y h; cases h
theorem yieldExpiry : ∀ a0, Statement (.yieldExpiry a0) := by intro _; intro _ y h; cases h
theorem powerTokenPass : ∀ a0 a1, Statement (.powerTokenPass a0 a1) := by intro _ _; intro _ y h; cases h
theorem matrixUnitExecute : ∀ a0, Statement (.matrixUnitExecute a0) := by intro _; intro _ y h; cases h
theorem collTriggerRead : ∀ a0, Statement (.collTriggerRead a0) := by intro _; intro _ y h; cases h
theorem collStep : ∀ a0 a1, Statement (.collStep a0 a1) := by intro _ _; intro _ y h; cases h
theorem collCompletion : ∀ a0, Statement (.collCompletion a0) := by intro _; intro _ y h; cases h
theorem collFailure : ∀ a0 a1, Statement (.collFailure a0 a1) := by intro _ _; intro _ y h; cases h
theorem quantumExpiry : ∀ a0, Statement (.quantumExpiry a0) := by intro _; intro _ y h; cases h
theorem preemptionRequest : ∀ a0, Statement (.preemptionRequest a0) := by intro _; intro _ y h; cases h
theorem lodgeState : ∀ a0, Statement (.lodgeState a0) := by intro _; intro _ y h; cases h
theorem partitionResume : ∀ a0, Statement (.partitionResume a0) := by intro _; intro _ y h; cases h
theorem debugHalt : ∀ a0 a1, Statement (.debugHalt a0 a1) := by intro _ _; intro _ y h; cases h
theorem singleStep : ∀ a0 a1, Statement (.singleStep a0 a1) := by intro _ _; intro _ y h; cases h
theorem haltRelease : ∀ a0 a1, Statement (.haltRelease a0 a1) := by intro _ _; intro _ y h; cases h
theorem migrationLineCopy : ∀ a0 a1 a2, Statement (.migrationLineCopy a0 a1 a2) := by intro _ _ _; intro _ y h; cases h
theorem migrationCountWindowEnd : Statement (.migrationCountWindowEnd) := by intro _ y h; cases h
theorem capacityTierExpansion : ∀ a0 a1, Statement (.capacityTierExpansion a0 a1) := by intro _ _; intro _ y h; cases h
theorem sectorRebuild : ∀ a0 a1, Statement (.sectorRebuild a0 a1) := by intro _ _; intro _ y h; cases h
theorem sramUncorrectableError : ∀ a0, Statement (.sramUncorrectableError a0) := by intro _; intro _ y h; cases h
theorem scrubPassStart : ∀ a0, Statement (.scrubPassStart a0) := by intro _; intro _ y h; cases h
theorem scrubRead : ∀ a0 a1, Statement (.scrubRead a0 a1) := by intro _ _; intro _ y h; cases h
theorem scrubEscalationCheck : ∀ a0, Statement (.scrubEscalationCheck a0) := by intro _; intro _ y h; cases h
theorem rowActivationWindowEnd : Statement (.rowActivationWindowEnd) := by intro _ y h; cases h
theorem wayMove : ∀ a0 a1, Statement (.wayMove a0 a1) := by intro _ _; intro _ y h; cases h
theorem linkDown : ∀ a0, Statement (.linkDown a0) := by intro _; intro _ y h; cases h
theorem completionTimeout : ∀ a0, Statement (.completionTimeout a0) := by intro _; intro _ y h; cases h
theorem lostclr : ∀ a0, Statement (.lostclr a0) := by intro _; intro _ y h; cases h
theorem xlinv : ∀ a0, Statement (.xlinv a0) := by intro _; intro _ y h; cases h
theorem hostWindowAccess : ∀ a0 a1 a2, Statement (.hostWindowAccess a0 a1 a2) := by intro _ _ _; intro _ y h; cases h
theorem bar4Access : ∀ a0 a1 a2, Statement (.bar4Access a0 a1 a2) := by intro _ _ _; intro _ y h; cases h
theorem ltail : ∀ a0 a1, Statement (.ltail a0 a1) := by intro _ _; intro _ y h; cases h
theorem launchSlotProcess : ∀ a0, Statement (.launchSlotProcess a0) := by intro _; intro _ y h; cases h
theorem flGo : ∀ a0, Statement (.flGo a0) := by intro _; intro _ y h; cases h
theorem flushComplete : ∀ a0, Statement (.flushComplete a0) := by intro _; intro _ y h; cases h
theorem featAccept : ∀ a0 a1, Statement (.featAccept a0 a1) := by intro _ _; intro _ y h; cases h
theorem functionReset : ∀ a0, Statement (.functionReset a0) := by intro _; intro _ y h; cases h
theorem contextCreate : ∀ a0, Statement (.contextCreate a0) := by intro _; intro _ y h; cases h
theorem contextDestroy : ∀ a0, Statement (.contextDestroy a0) := by intro _; intro _ y h; cases h
theorem qown : ∀ a0 a1 a2, Statement (.qown a0 a1 a2) := by intro _ _ _; intro _ y h; cases h
theorem quadrantHandover : ∀ a0, Statement (.quadrantHandover a0) := by intro _; intro _ y h; cases h
theorem managementRegisterWrite : ∀ a0 a1, Statement (.managementRegisterWrite a0 a1) := by intro _ _; intro _ y h; cases h
theorem firmwareLoad : ∀ a0, Statement (.firmwareLoad a0) := by intro _; intro _ y h; cases h
theorem managementReset : Statement (.managementReset) := by intro _ y h; cases h
theorem attestationRequest : ∀ a0 a1, Statement (.attestationRequest a0 a1) := by intro _ _; intro _ y h; cases h
theorem binaryLoad : ∀ a0 a1 a2, Statement (.binaryLoad a0 a1 a2) := by intro _ _ _; intro _ y h; cases h
theorem binaryUnload : ∀ a0 a1, Statement (.binaryUnload a0 a1) := by intro _ _; intro _ y h; cases h
theorem reset : ∀ a0, Statement (.reset a0) := by intro _; intro _ y h; cases h
theorem thermalLimit : ∀ a0 a1, Statement (.thermalLimit a0 a1) := by intro _ _; intro _ y h; cases h
theorem criticalLimit : Statement (.criticalLimit) := by intro _ y h; cases h
theorem powerDown : Statement (.powerDown) := by intro _ y h; cases h
theorem linkRetrained : ∀ a0, Statement (.linkRetrained a0) := by intro _; intro _ y h; cases h
theorem writeAcceptedByLink : ∀ a0, Statement (.writeAcceptedByLink a0) := by intro _; intro _ y h; cases h

end Sys2Proof.Laws.NamedByFields
end

