-- ==== Sys2Proof/Tests/Slice0.lean ====
section
/-! SUPPORT. Tests: words of the spec and what they decode to, ill-formed terms that are refused, small steps, and for every statement
with hypotheses a state and operands that meet them. The states are the machine with one instruction placed as
`withFetchWord` places it (log 13), its batch at issue. -/

set_option Elab.async false

open Sys2Proof Sys2Proof.Machine Sys2Proof.Claims

namespace Sys2Proof.Tests

/-! ### States -/

/-- An entry of a loaded binary at VA 0: a bin's, and one whose crew has a flock of one fibre. -/
def binAt0 : EntryRec :=
  { va := 0, budget := 16, flocks := 1, fibres := 1, team := 1, bin := true, thr := 1, tmr := 1, scratch := 0,
    roles := [.vector] }
def image0 : Image :=
  { id := 0, regions := [], entries := [binAt0], funcs := [], nodes := [], edges := [], lists := [] }

/-- The reference of the one batch, and the machine with it at issue, the crew with 16 KiB of scratch: a vector and a matrix
flock. -/
def wr : BatchRef := ⟨0, 0, 0, 0⟩
def atIssue (w : Nat) : State :=
  let s := State.reset.bootWith (leBytes 4 w)
  { s with
    cur := some wr
    ctxs := s.ctxs.map fun (c : Context) => { c with images := [image0] }
    crews := s.crews.map fun (k : Crew) => { k with base := 0x8000, limit := 0xC000 } }
def wV : State := atIssue 0
def wM : State := atIssue 0x91000000

def iV : Iss := wV.iss?.get (by decide +kernel)
def iM : Iss := wM.iss?.get (by decide +kernel)

/-- A change of the crew, of the flock and of the fibre. -/
def onK (s : State) (f : Crew → Crew) : State := s.updCrew 0 0 f
def onF (s : State) (f : Flock → Flock) : State := s.updFlock 0 0 0 f
def onB (s : State) (f : Batch → Batch) : State := s.updFlock 0 0 0 fun x => x.updBatch 0 f
def onX (s : State) (f : Fibre → Fibre) : State := s.updFlock 0 0 0 fun x => x.updFibre 0 f

/-- Fields with the registers D, A, B, C and with the continuations a form may have. -/
def fm (d a b : Nat) : Form := Claims.lead d a b
def fe (d a b c : Nat) (ea eb ec : Bool) : Form :=
  { fm d a b with ext := some { gn2 := false, gp2 := 0, dhi := 0, ahi := 0, bhi := 0, cx := BitVec.ofNat 8 c, ea := ea,
                                eb := eb, ec := ec } }
def fi (d a b : Nat) (v : Int) : Form := { fm d a b with imm := some (BitVec.ofInt 27 v) }
def fo (d a b v : Nat) : Form := { fm d a b with mod := some (BitVec.ofNat 27 v) }
def fa (d a b : Nat) (o : Order) (sc : Scope) (cs : Nat) : Form :=
  { fm d a b with mem := some { off := 0, scope := sc, ord := o, hint := .normal, rmt := false, cs := BitVec.ofNat 7 cs } }

theorem okOf {ε α : Type} {e : Except ε α} {a : α} (h : e.toOption = some a) : e = .ok a := by
  cases e with
  | ok b => simpa [Except.toOption] using h
  | error _ => simp [Except.toOption] at h

theorem errOf {ε α : Type} {e : Except ε α} {x : ε} (h : (match e with | .ok _ => none | .error y => some y) = some x) :
    e = .error x := by
  cases e with
  | ok _ => simp at h
  | error _ => simpa using h

theorem reachesOf {s : State} {i : Iss} {x : Form} {a : Access} {l : Loc} (fs : List Fibre)
    (h : ∀ f ∈ fs, pairReadable f x.an = true ∧ address x f % x.size = 0 ∧
      (s.translate i.crew.part i.crew.level a (address x f)).toOption = some l) : ∀ f ∈ fs, Reaches s i x a f l :=
  fun f hf => ⟨(h f hf).1, (h f hf).2.1, okOf (h f hf).2.2⟩

theorem issues {s : State} (h : s.iss?.isSome = true) (hd : s.dead = false) : Issues s (s.iss?.get h) :=
  ⟨hd, (Option.some_get h).symm⟩

/-- The batch at issue of a state, and when an instruction acts there. -/
def issOf (s : State) : Iss := s.iss?.getD iV

theorem at_ {s : State} (h : s.dead = false ∧ s.iss?.isSome = true) : Issues s (issOf s) :=
  ⟨h.1, by unfold issOf; cases hs : s.iss? with | none => simp [hs] at h | some i => rfl⟩

theorem lane {s : State} {x : Form} (h : (s.dead = false ∧ s.iss?.isSome = true) ∧ (issOf s).takers x ≠ [] ∧
    (issOf s).flock.role = .vector) : LaneRuns s (issOf s) x := ⟨at_ h.1, h.2.1, h.2.2⟩

theorem uni {s : State} {x : Form} {r : Roles} (h : (s.dead = false ∧ s.iss?.isSome = true) ∧
    (((issOf s).batch.phase = 0 → guardUni x (issOf s).flock = true) ∧ (issOf s).pipeHeld = false) ∧
    r.allow (issOf s).flock.role = true) : UniRuns s (issOf s) x r := ⟨at_ h.1, h.2.1.2, h.2.1.1, h.2.2⟩

theorem runsV (x : Form) (h : iV.takers x ≠ []) : LaneRuns wV iV x :=
  ⟨issues _ (by decide +kernel), h, by decide +kernel⟩

theorem uniV (x : Form) (r : Roles) (h : guardUni x iV.flock = true) (hr : r.allow .vector = true) : UniRuns wV iV x r :=
  ⟨issues _ (by decide +kernel), by decide +kernel, fun _ => h, by rw [show iV.flock.role = .vector by decide +kernel]; exact hr⟩

theorem uniM (x : Form) (r : Roles) (h : guardUni x iM.flock = true) (hr : r.allow .matrix = true) : UniRuns wM iM x r :=
  ⟨issues _ (by decide +kernel), by decide +kernel, fun _ => h, by rw [show iM.flock.role = .matrix by decide +kernel]; exact hr⟩

/-! ### Witnesses: lane and uniform instructions -/

/-- LaneIntegerInstructionsComplete, LaneMovesComplete, LaneFloatInstructionsComplete, ConversionsComplete and
ResultsAreWrittenAndNothingElse: every row, the destination one of the sources. -/
theorem witness_lane_rows : LaneRuns wV iV (fe 2 2 4 6 false false false) ∧
    ∀ r ∈ laneRows, r.ready (fe 2 2 4 6 false false false) iV :=
  ⟨runsV _ (by decide +kernel), by unfold LaneRow.ready; decide +kernel⟩

theorem witness_lane_immediate : LaneRuns wV iV (fi 255 2 0 (-1)) ∧ ∀ r ∈ laneRows, r.ready (fi 62 2 4 (-1)) iV :=
  ⟨runsV _ (by decide +kernel), by unfold LaneRow.ready; decide +kernel⟩

/-- The participant of such an instruction is the only one at its lane slot. -/
theorem witness_sole : ∃ f, Sole iV (fm 1 2 3) f :=
  ⟨(iV.takers (fm 1 2 3)).head (by decide +kernel), List.head_mem _, by decide +kernel, by decide +kernel⟩

theorem witness_urd : LaneRuns wV iV (fm 1 2 3) ∧ iV.free [(2, false)] = true ∧ ∀ f ∈ iV.takers (fm 1 2 3), f.writable 1 = true :=
  ⟨runsV _ (by decide +kernel), by decide +kernel, by decide +kernel⟩

theorem witness_vtop : ∀ f ∈ iV.takers (fm 1 2 3), f.readable 2 = true ∧ f.readable 3 = true := by decide +kernel

theorem witness_cvtp_packs : (fo 1 2 4 (3 * 2 ^ 14)).mb 18 = false ∧ ∀ f ∈ iV.takers (fo 1 2 4 (3 * 2 ^ 14)),
    (∀ n ∈ regPair 2 true ++ regPair 4 true, f.readable n = true) ∧ f.writable 1 = true := by decide +kernel

theorem witness_cvtp_unpacks : (fo 4 2 0 (2 ^ 18 + 3 * 2 ^ 14)).mb 18 = true ∧
    ∀ f ∈ iV.takers (fo 4 2 0 (2 ^ 18 + 3 * 2 ^ 14)), f.readable 2 = true ∧ ∀ n, n < 4 → f.writable (4 + n) = true := by
  decide +kernel

theorem witness_cvtq : ∀ f ∈ iV.takers (fo 4 2 0 0),
    f.readable 2 = true ∧ f.writable 4 = true ∧ f.writable (4 + 1) = true := by decide +kernel

/-- ICMP of pairs, FCMP, HCMP, BCMP and FCLASS. -/
theorem witness_compares : ∀ f ∈ iV.takers (fo 1 2 4 0), ∀ n ∈ regPair 2 true ++ regPair 4 true, f.readable n = true := by
  decide +kernel

theorem witness_lanex : ∀ f ∈ iV.takers (fo 1 2 4 0), f.readable 2 = true ∧ f.writable 1 = true ∧
    ((fo 1 2 4 0).mb 21 = true ∨ (fo 1 2 4 0).hasImm = true ∨ f.readable 4 = true) := by decide +kernel

theorem witness_uniform_rows : ∀ r ∈ uniRows, UniRuns wV iV (fm 2 2 4) r.roles ∧
    iV.free ((2, r.wide (fm 2 2 4)) :: r.regs (fm 2 2 4)) = true := by
  have h : ∀ r ∈ uniRows, r.roles.allow .vector = true ∧
      iV.free ((2, r.wide (fm 2 2 4)) :: r.regs (fm 2 2 4)) = true := by decide +kernel
  exact fun r hr => ⟨uniV _ _ (by decide +kernel) (h r hr).1, (h r hr).2⟩

theorem witness_ufrom : ∃ f, iV.lead = some f ∧ f.readable 2 = true ∧ iV.free [(1, false)] = true :=
  ⟨iV.lead.get (by decide +kernel), (Option.some_get _).symm, by decide +kernel, by decide +kernel⟩

/-! ### Witnesses: flow -/

theorem witness_branches : LaneRuns wV iV (fm 4 2 0) ∧ UniRuns wV iV (fi 0 0 0 0) .any ∧
    ∀ f ∈ iV.takers (fm 4 2 0), targetReady (fm 4 2 0) f = true ∧ pairWritable f 4 = true ∧
      ∃ b, wV.callBudget iV.crew.part (regTarget (pairA (fm 4 2 0) f)) = some b ∧ b ≤ f.budget := by
  refine ⟨runsV _ (by decide +kernel), uniV _ _ (by decide +kernel) rfl, ?_⟩
  have h : ∀ f ∈ iV.takers (fm 4 2 0), targetReady (fm 4 2 0) f = true ∧ pairWritable f 4 = true ∧
      wV.callBudget iV.crew.part (regTarget (pairA (fm 4 2 0) f)) = some 16 ∧ 16 ≤ f.budget := by decide +kernel
  exact fun f hf => ⟨(h f hf).1, (h f hf).2.1, 16, (h f hf).2.2⟩

/-- FSPAWN of two arguments into a bin with room, and FEND. -/
theorem witness_spawn : LaneRuns wV iV (fi 0 2 2 0) ∧ LaneActs wV iV (fm 0 0 0) ∧ wV.unitBusy iV = false ∧
    iV.batch.phase = 0 ∧ (∀ f ∈ iV.takers (fi 0 2 2 0), ∀ n, n < 2 → f.readable (2 + n) = true) ∧
    ∃ e, wV.entryAt iV.crew.part (immTarget (fi 0 2 2 0) iV.batch.pc) = some e ∧ e.bin = true ∧
      ((wV.onCrew iV fun k => k.updLive fun c =>
        (iV.takers (fi 0 2 2 0)).foldl (fun c f => c.completeFibre iV.flock.num f.lane) c).spawnAll 0 0 e
          ((iV.takers (fi 0 2 2 0)).map fun f => (List.range 2).map fun n => (f.reg (2 + n)).val) 0).2 =
        (iV.takers (fi 0 2 2 0)).length :=
  ⟨runsV _ (by decide +kernel), ⟨issues _ (by decide +kernel), by decide +kernel⟩, by decide +kernel, by decide +kernel,
    by decide +kernel, binAt0, by decide +kernel, by decide +kernel, by decide +kernel⟩

/-- Two fibres that spawn into a bin with room for one. -/
def wTwo : State :=
  onK (onB (onF wV fun f => { f with fibres := f.fibres ++ f.fibres.map fun x => { x with lane := 1 } }) fun b => { b with lanes := [0, 1] })
    fun k => k.updLive fun c => { c with bins := [{ entry := 0, thr := 32, tmr := 0, since := 0, due := false, pending := List.replicate 31 [], held := false }] }
theorem witness_spawn_part : LaneRuns wTwo (issOf wTwo) (fi 0 2 2 0) ∧ wTwo.unitBusy (issOf wTwo) = false ∧
    ((issOf wTwo).takers (fi 0 2 2 0)).length = 2 ∧ (issOf wTwo).batch.phase = 0 ∧
    ((wTwo.onCrew (issOf wTwo) fun k => k.updLive fun c =>
      ((issOf wTwo).takers (fi 0 2 2 0)).foldl (fun c f => c.completeFibre (issOf wTwo).flock.num f.lane) c).spawnAll 0 0 binAt0
        (((issOf wTwo).takers (fi 0 2 2 0)).map fun f => (List.range 2).map fun n => (f.reg (2 + n)).val) 0).2 = 1 :=
  ⟨lane (by decide +kernel), by decide +kernel, by decide +kernel, by decide +kernel, by decide +kernel⟩
/-! ### Witnesses: memory -/

/-- The page at VA 0. -/
def l0 : Loc := { cls := .dev, va := 0, ia := 0, pa := 0x20000, home := 0, dpin := false, die := 0, range := 0, ro := false, part := 0 }

/-- Every kind of access of the word at VA 0 reaches it, at every size. -/
theorem witness_reaches : ∀ a ∈ [Access.load, .store, .atomic, .queue], ∀ x ∈ [fm 4 2 6, fa 4 2 6 .plain .none 1],
    ∀ f ∈ iV.takers x, Reaches wV iV x a f l0 := by
  have h : ∀ a ∈ [Access.load, .store, .atomic, .queue], ∀ x ∈ [fm 4 2 6, fa 4 2 6 .plain .none 1],
      ∀ f ∈ iV.takers x, pairReadable f x.an = true ∧ address x f % x.size = 0 ∧
        (wV.translate iV.crew.part iV.crew.level a (address x f)).toOption = some l0 := by decide +kernel
  exact fun a ha x hx => reachesOf _ (h a ha x hx)

theorem witness_ld : LaneRuns wV iV (fm 4 2 6) ∧ iV.batch.phase = 0 ∧
    (∀ f ∈ iV.takers (fm 4 2 6), Reaches wV iV (fm 4 2 6) .load f l0) ∧
    (∀ f ∈ iV.takers (fm 4 2 6), ∀ n ∈ regPair 4 ((fm 4 2 6).w == 1), f.writable n = true) ∧
    ((parts iV (fm 4 2 6) fun _ => l0).any fun p => p.2.closes false) = false ∧
    (wV.loadRun (wV.again iV) (fm 4 2 6) (parts iV (fm 4 2 6) fun _ => l0)).isSome = true ∧ FromHome wV iV l0 1 := by
  refine ⟨runsV _ (by decide +kernel), by decide +kernel, reachesOf _ (by decide +kernel), by decide +kernel,
    by decide +kernel, by decide +kernel, ?_⟩
  exact ⟨.inl rfl, by decide, by decide +kernel, by decide +kernel, by decide +kernel, by decide, by decide,
    by decide +kernel⟩

theorem witness_uld : UniRuns wV iV (fm 4 2 6) .any ∧ iV.free [(2, true), (4, (fm 4 2 6).w == 1)] = true ∧
    memVa (fm 4 2 6) (fm 4 2 6).size (iV.flock.kpair 2) % (fm 4 2 6).size = 0 ∧
    wV.translate iV.crew.part iV.crew.level .load (memVa (fm 4 2 6) (fm 4 2 6).size (iV.flock.kpair 2)) = .ok l0 ∧
    l0.closes false = false ∧ ∃ f, iV.lead = some f ∧
      (wV.loadRun (wV.again iV) (fm 4 2 6) [(f, l0)]).isSome = true :=
  ⟨uniV _ _ (by decide +kernel) rfl, by decide +kernel, by decide +kernel, okOf (by decide +kernel), by decide +kernel,
    iV.lead.get (by decide +kernel), (Option.some_get _).symm, by decide +kernel⟩

/-- The batch in the second part of an acquire or a release. -/
def wP : State := onB wV fun b => { b with phase := 1 }
def iP : Iss := wP.iss?.get (by decide +kernel)

theorem runsP (x : Form) (h : iP.takers x ≠ []) : LaneRuns wP iP x :=
  ⟨issues _ (by decide +kernel), h, by decide +kernel⟩
theorem uniP (x : Form) (r : Roles) (hr : r.allow .vector = true) : UniRuns wP iP x r :=
  ⟨issues _ (by decide +kernel), by decide +kernel, fun h => absurd h (by decide +kernel), by
    rw [show iP.flock.role = .vector by decide +kernel]; exact hr⟩

theorem witness_second_part : iP.batch.phase ≠ 0 ∧ iP.awaitsReply = false ∧ LaneRuns wP iP (fm 4 2 6) ∧
    UniRuns wP iP (fm 4 2 6) .any :=
  ⟨by decide +kernel, by decide +kernel, runsP _ (by decide +kernel), uniP _ _ rfl⟩

theorem witness_st : LaneRuns wV iV (fm 4 2 6) ∧ (fm 4 2 6).mc.ord ≠ .release ∧
    (∀ f ∈ iV.takers (fm 4 2 6), Reaches wV iV (fm 4 2 6) .store f l0) ∧
    (∀ f ∈ iV.takers (fm 4 2 6), ∀ n ∈ regPair 6 ((fm 4 2 6).w == 1), f.readable n = true) ∧
    ((parts iV (fm 4 2 6) fun f => (l0, f.value 6 false)).map fun p =>
      (p.1, p.2.1, leBytes 4 p.2.2.toNat)).any (fun p => p.2.1.closes true) = false ∧
    (wV.storeAll (wV.again iV) false (coversSector []) .normal wV.nextTag ((parts iV (fm 4 2 6) fun f =>
      (l0, f.value 6 false)).map fun p => (p.1, p.2.1, leBytes 4 p.2.2.toNat))).isSome = true :=
  ⟨runsV _ (by decide +kernel), by decide, reachesOf _ (by decide +kernel), by decide +kernel, by decide +kernel,
    by decide +kernel⟩

theorem witness_st_release : LaneRuns wV iV (fa 4 2 6 .release .dev 0) ∧
    (∀ f ∈ iV.takers (fa 4 2 6 .release .dev 0), Reaches wV iV (fa 4 2 6 .release .dev 0) .store f l0) ∧
    (∀ f ∈ iV.takers (fa 4 2 6 .release .dev 0), f.readable 6 = true) ∧ releaseWaits (fa 4 2 6 .release .dev 0) [l0] = false ∧ wV.ckptReady iV.crew = true :=
  ⟨runsV _ (by decide +kernel), reachesOf _ (by decide +kernel), by decide +kernel, by decide +kernel,
    by decide +kernel⟩

theorem witness_st_second_part : LaneRuns wP iP (fa 4 2 6 .release .pod 0) ∧
    (∀ f ∈ iP.takers (fa 4 2 6 .release .pod 0), Reaches wP iP (fa 4 2 6 .release .pod 0) .store f l0) ∧
    wP.released iP iP.active (releaseScope (fa 4 2 6 .release .pod 0) [l0]) = true ∧
    (wP.storeAll iP true (coversSector []) .normal wP.nextTag (iP.active.map fun f => (f, l0, leBytes 4 0))).isSome = true :=
  ⟨runsP _ (by decide +kernel), reachesOf _ (by decide +kernel), by decide +kernel, by decide +kernel⟩

theorem witness_ust : UniRuns wV iV (fm 4 2 6) .any ∧ iV.free [(2, true), (6, (fm 4 2 6).w == 1)] = true ∧
    wV.translate iV.crew.part iV.crew.level .store (memVa (fm 4 2 6) (fm 4 2 6).size (iV.flock.kpair 2)) = .ok l0 ∧
    l0.closes true = false ∧ ∃ f, iV.lead = some f ∧
      (wV.storeAll (wV.again iV) false (coversSector []) .normal wV.nextTag [(f, l0, leBytes 4 0)]).isSome = true :=
  ⟨uniV _ _ (by decide +kernel) rfl, by decide +kernel, okOf (by decide +kernel), by decide +kernel,
    iV.lead.get (by decide +kernel), (Option.some_get _).symm, by decide +kernel⟩

/-- The two first parts of a release and its second part, of ST and of UST. -/
theorem witness_store_release : releaseWaits (fa 4 2 6 .release .dev 0) [l0] = false ∧
    releaseWaits (fa 4 2 6 .release .pod 0) [l0] = true ∧ (fa 4 2 6 .release .pod 0).mc.ord = .release ∧
    LaneRuns wV iV (fa 4 2 6 .release .pod 0) ∧ UniRuns wV iV (fa 4 2 6 .release .pod 0) .any ∧
    UniRuns wP iP (fa 4 2 6 .release .pod 0) .any ∧ iP.free [(2, true), (6, false)] = true ∧
    ∃ f, iP.lead = some f ∧ wP.released iP [f] .pod = true ∧
      (wP.storeAll iP true (coversSector []) .normal wP.nextTag [(f, l0, leBytes 4 0)]).isSome = true :=
  ⟨by decide +kernel, by decide +kernel, by decide, runsV _ (by decide +kernel), uniV _ _ (by decide +kernel) rfl,
    uniP _ _ rfl, by decide +kernel, iP.lead.get (by decide +kernel), (Option.some_get _).symm, by decide +kernel,
    by decide +kernel⟩

theorem witness_location : ∀ f ∈ iV.takers (fm 4 2 0), pairReadable f 2 = true ∧ f.writable 4 = true := by decide +kernel

theorem witness_fence : UniRuns wV iV (fa 0 0 0 .acquire .dev 0) .any ∧ UniRuns wV iV (fa 0 0 0 .release .dev 0) .any ∧
    (wV.acquire iV .dev false).isSome = true ∧ podScope .dev = false ∧ wV.ckptReady iV.crew = true ∧
    UniRuns wP iP (fa 0 0 0 .release .pod 0) .any ∧ wP.released iP iP.active .pod = true :=
  ⟨uniV _ _ (by decide +kernel) rfl, uniV _ _ (by decide +kernel) rfl, by decide +kernel, by decide +kernel,
    by decide +kernel, uniP _ _ rfl, by decide +kernel⟩

/-- A fence of both orders, its two parts. -/
theorem witness_fence_both : UniRuns wV iV (fa 0 0 0 .acqRel .dev 0) .any ∧ UniRuns wP iP (fa 0 0 0 .acqRel .dev 0) .any ∧
    wP.released iP iP.active .dev = true ∧ (wP.acquire iP .dev false).isSome = true :=
  ⟨uniV _ _ (by decide +kernel) rfl, uniP _ _ rfl, by decide +kernel, by decide +kernel⟩

theorem witness_cmaint : UniRuns wV iV (fa 0 2 4 .plain .none 0) .vector ∧ iV.free [(2, true), (4, false)] = true ∧
    (∃ t, wP.maintainAll iP 0 0 0 0 0 = .done t) ∧ UniRuns wP iP (fa 0 2 4 .plain .none 0) .vector :=
  ⟨uniV _ _ (by decide +kernel) rfl, by decide +kernel, ⟨_, rfl⟩, uniP _ _ rfl⟩

theorem witness_setways : UniRuns wV iV (fm 4 2 0) .vector ∧ ∃ c n, wV.ctx? iV.crew.part = some c ∧
    c.owns 0 = true ∧ maskWays 0xFF00 = some n ∧ wV.groupLimit 0 0 ≤ n * 2 ^ 14 ∧
    (wV.checkpoint 0 0).endedCopies 0 = false :=
  ⟨uniV _ _ (by decide +kernel) rfl, (wV.ctx? 0).get (by decide +kernel), 8, (Option.some_get _).symm,
    by decide +kernel, by decide +kernel, by decide +kernel, by decide +kernel⟩

/-- Masks that SETWAYS refuses: three ways apart, and eight ways of a group whose scratch needs more. -/
theorem witness_setways_refused : maskWays 0x0111 = none ∧ ∃ n s g, maskWays 0xFF00 = some n ∧ n * 2 ^ 14 < State.groupLimit s 0 g :=
  ⟨by decide +kernel, 8, onK wV fun k => { k with limit := 0x2C000 }, 0, by decide +kernel, by decide +kernel⟩

theorem witness_lds : LaneRuns wV iV (fm 4 2 6) ∧ ∀ f ∈ iV.takers (fm 4 2 6), f.readable 2 = true ∧
    f.writable 4 = true ∧ f.readable 6 = true ∧ scratchEa iV (fm 4 2 6) (ra (fm 4 2 6) f) % (fm 4 2 6).size = 0 ∧
    wV.scratchOk iV.crew (scratchEa iV (fm 4 2 6) (ra (fm 4 2 6) f)) (fm 4 2 6).size = true :=
  ⟨runsV _ (by decide +kernel), by decide +kernel⟩

theorem witness_sts : ∃ s1, wV.reserveScratch 0 0 (scratchLines 0x8000 4) = .ok s1 := ⟨_, rfl⟩

/-! ### Witnesses: pools, atomics, queues and the heap -/

/-- The page of VA 0 in a POOL range, in a HEAP range with a region, and a reference to its first object in h0. -/
def wPool : State := wV.updCtx 0 fun c => c.setReg (snRange + 3) 12
def wH : State := onX (wV.updCtx 0 fun c => ((((c.setReg (snRange + 3) 10).setReg snHeapr (2 ^ 63)).setReg (snHeapr + 1)
  65536).setReg (snHeapr + 4) 0x1000)) fun f => f.setH 0 (mkRef 0 0)

/-- PSNAP of a range without and with a snapshot, and with a writer, and PHINT. -/
theorem witness_psnap : UniRuns wPool (issOf wPool) (fm 4 2 0) .vector ∧ (issOf wPool).free [(2, true), (4, false)] = true ∧
    wPool.ckptReady (issOf wPool).crew = true ∧ ∃ c p, wPool.ctx? 0 = some c ∧
      c.findRange (((issOf wPool).flock.kpair 2).toNat % 2 ^ 57) 0 16 = some p ∧ p.2.cls = 4 ∧
      let s1 := wPool.checkpoint 0 0
      let key := s1.poolKey 0 p.1
      (s1.again (issOf wPool)).crew.snap? key = none ∧ (s1.again (issOf wPool)).crew.snaps.length < 4 ∧ (s1.pool key).writer = none ∧
        s1.heldElsewhere key = false ∧ s1.poolWrites 0 0 = false :=
  ⟨uni (by decide +kernel), by decide +kernel, by decide +kernel, (wPool.ctx? 0).get (by decide +kernel),
    (((wPool.ctx? 0).get (by decide +kernel)).findRange 0 0 16).get (by decide +kernel), (Option.some_get _).symm,
    by decide +kernel, by decide +kernel, by decide +kernel⟩

/-- A crew with a snapshot and a version of the range. -/
def wSnap : State := onK wPool fun k =>
  { k with snaps := [{ range := wPool.poolKey 0 0, version := 1, mem := [] }]
           writers := [{ range := wPool.poolKey 0 0, version := 2, bytes := [(0x20000, 7)], lost := false }] }

/-- Its version with a write that the pool dropped. -/
def wLost : State := onK wSnap fun k => { k with writers := k.writers.map fun w => { w with lost := true } }

theorem witness_psnap_lost : ∃ p, ((wLost.ctx? 0).bind fun c => c.findRange 0 0 16) = some p ∧
    let s1 := wLost.checkpoint 0 0
    ((s1.again (issOf wLost)).crew.writing (s1.poolKey 0 p.1)).map (·.lost) = some true ∧ s1.poolWrites 0 0 = false :=
  ⟨((wLost.ctx? 0).bind fun c => c.findRange 0 0 16).get (by decide +kernel), (Option.some_get _).symm,
    by decide +kernel⟩

/-- PSNAP that can do nothing: four snapshots of other ranges, another writer, and no snapshot or version to end. -/
def wFull : State := (onK wPool fun k => { k with snaps := (List.range 4).map fun n =>
  { range := wPool.poolKey 0 0 + 1 + n, version := 1, mem := [] } }).setPool
    { range := wPool.poolKey 0 0, latest := 1, writer := some (1, 0) }
theorem witness_psnap_none : ∃ p, ((wFull.ctx? 0).bind fun c => c.findRange 0 0 16) = some p ∧ p.2.cls = 4 ∧
    let s1 := wFull.checkpoint 0 0
    let k := (s1.again (issOf wFull)).crew
    let key := s1.poolKey (issOf wFull).crew.part p.1
    k.snap? key = none ∧ 4 ≤ k.snaps.length ∧ k.writing key = none ∧ (s1.pool key).writer ≠ none ∧
      s1.poolWrites 0 0 = false ∧ wFull.ckptReady (issOf wFull).crew = true :=
  ⟨((wFull.ctx? 0).bind fun c => c.findRange 0 0 16).get (by decide +kernel), (Option.some_get _).symm, by decide +kernel,
    by decide +kernel⟩

/-- PSNAP of a range that is no POOL range. -/
theorem witness_psnap_other_class : ∃ c p, wV.ctx? 0 = some c ∧ c.findRange ((iV.flock.kpair 2).toNat % 2 ^ 57) 0 16 = some p ∧
    p.2.cls ≠ 4 :=
  ⟨(wV.ctx? 0).get (by decide +kernel), (((wV.ctx? 0).get (by decide +kernel)).findRange 0 0 16).get (by decide +kernel),
    (Option.some_get _).symm, by decide +kernel, by decide +kernel⟩

theorem witness_psnap_open_again : ∃ p, ((wSnap.ctx? 0).bind fun c => c.findRange 0 0 16) = some p ∧
    let s1 := wSnap.checkpoint 0 0
    ((s1.again (issOf wSnap)).crew.snap? (s1.poolKey 0 p.1)).isSome = true ∧
      ((s1.again (issOf wSnap)).crew.writing (s1.poolKey 0 p.1)).isSome = true :=
  ⟨((wSnap.ctx? 0).bind fun c => c.findRange 0 0 16).get (by decide +kernel), (Option.some_get _).symm,
    by decide +kernel⟩

/-- ATOM, RED and CAS of a word: they may begin, and their requests leave at once. -/
theorem witness_atomics : LaneRuns wV iV (fe 4 2 6 8 false false false) ∧ iV.begun = false ∧ mayBegin wV iV ∧
    (∀ f ∈ iV.takers (fm 4 2 6), f.readable 6 = true ∧ f.readable 0 = true ∧ f.writable 4 = true) ∧
    (let w := atomWait iV (fm 4 2 6) (.atom 4 false) true (fun _ => l0) fun _ => .rmw 0
     requestsWait w = false ∧ (sendTodo (begun wV iV (fm 4 2 6) w fun f => f.empty 4 false)
      ((begun wV iV (fm 4 2 6) w fun f => f.empty 4 false).again iV) { w with release := none }).toOption.isSome = true) :=
  ⟨runsV _ (by decide +kernel), by decide +kernel, ⟨by decide +kernel, by decide +kernel⟩, by decide +kernel,
    by decide +kernel⟩

/-- A release at POD scope: the requests wait. -/
theorem witness_atomic_waits : requestsWait (atomWait iV (fa 4 2 6 .acqRel .pod 0) .red false (fun _ => l0)
    fun _ => .rmw 0) = true := by decide +kernel

/-- An atomic that has begun and still has its request to send. -/
def wTodo : State := onB wV fun b => { b with wait := .atomic (atomWait iV (fa 4 2 6 .acqRel .pod 0) (.atom 4 false) true
  (fun _ => l0) fun _ => .rmw 0) }
theorem witness_atomic_continues : LaneRuns wTodo (issOf wTodo) (fa 4 2 6 .acqRel .pod 0) ∧
    ∃ w, (issOf wTodo).batch.wait = .atomic w ∧ w.todo ≠ [] ∧ (sendTodo wTodo (issOf wTodo) w).toOption.isSome = true :=
  ⟨lane (by decide +kernel), _, rfl, by decide +kernel, by decide +kernel⟩

theorem witness_queues : ∀ f ∈ iV.takers (fm 1 2 6), ReachesQueue wV iV (fm 1 2 6) f l0 ∧ f.readable 6 = true ∧
    f.writable 1 = true := by
  have h : ∀ f ∈ iV.takers (fm 1 2 6), pairReadable f 2 = true ∧ (pairA (fm 1 2 6) f).toNat % 2 ^ 57 % 64 = 0 ∧
      (wV.translate iV.crew.part iV.crew.level .queue ((pairA (fm 1 2 6) f).toNat % 2 ^ 57)).toOption = some l0 ∧
      f.readable 6 = true ∧ f.writable 1 = true := by decide +kernel
  exact fun f hf => ⟨⟨(h f hf).1, (h f hf).2.1, okOf (h f hf).2.2.1⟩, (h f hf).2.2.2⟩

/-- A batch whose atomic has its one reply, with an acquire to take. -/
def wRep : State := onB wV fun b => { b with
  wait := .atomic { kind := .atom 4 false, todo := [], release := none, size := 4, lanes := [0]
                    replies := [{ lane := 0, val := 5, status := false, poison := false, refused := false }]
                    acquire := some (.dev, false), len := 1, addrs := [] } }

theorem witness_atomic_reply : wRep.dead = false ∧ ∃ i w, wRep.find wr = some i ∧ i.batch.wait = .atomic w ∧
    wRep.atomDone i w = true ∧ wRep.ckptReady i.crew = true ∧ (∀ r ∈ w.replies, r.refused = false) ∧
    ((wRep.onFibres i (w.replies.map fun r => (r.lane, r)) fun r f => w.kind.write r f).acquire i .dev false).isSome :=
  ⟨by decide +kernel, (wRep.find wr).get (by decide +kernel), _, (Option.some_get _).symm, rfl, by decide +kernel,
    by decide +kernel, by decide +kernel, by decide +kernel⟩

/-- A queue operation whose lane was refused, with and without an address to name. -/
def wRefused (addrs : List (Nat × Nat)) : State := onB wV fun b => { b with
  wait := .atomic { kind := .qdeq 4 1 false, todo := [], release := none, size := 4, lanes := [0]
                    replies := [{ lane := 0, val := 0, status := false, poison := false, refused := true }]
                    acquire := none, len := 1, addrs := addrs } }
theorem witness_atomic_refused : ∀ addrs ∈ [[], [(0, 64)]], ∃ i w, (wRefused addrs).find wr = some i ∧
    i.batch.wait = .atomic w ∧ (wRefused addrs).atomDone i w = true ∧ (wRefused addrs).ckptDrained i.crew = true ∧
    (w.replies.filter (·.refused)).map (·.lane) ≠ [] ∧ w.addrs = addrs := by
  have h : ∀ addrs ∈ [[], [(0, 64)]], ((wRefused addrs).find wr).isSome = true ∧
      (match (wRefused addrs).find wr with
        | some i => (match i.batch.wait with
          | .atomic w => (wRefused addrs).atomDone i w && (wRefused addrs).ckptDrained i.crew && w.addrs == addrs &&
              ((w.replies.filter (·.refused)).map (·.lane) != [])
          | _ => false)
        | none => false) = true := by decide +kernel
  intro addrs ha
  have := (h addrs ha).2
  cases hf : (wRefused addrs).find wr with
  | none => simp [hf] at this
  | some i =>
    simp only [hf] at this
    cases hw : i.batch.wait <;> simp only [hw, Bool.false_eq_true] at this
    simp only [Bool.and_eq_true, beq_iff_eq, bne_iff_ne] at this
    exact ⟨i, _, rfl, hw, this.1.1.1, this.1.1.2, this.2, this.1.2⟩

/-- An atomic at its home, its word the last of a line. -/
def eAtom : Entry :=
  { core := 0, slot := 0, flock := 0, lane := 0, fib := 0, part := 0, interval := 0, loc := { l0 with pa := 0x2007C }
    kind := .atomic (.rmw 0) 4 1, tag := 0, pc := 0 }

theorem witness_atomic_at_home : eAtom.loc.pa % 4 = 0 ∧ wV.entryLost eAtom = false ∧ wV.rangeBad eAtom.loc.pa 4 = false ∧
    wV.version? eAtom.core eAtom.slot eAtom.line = none ∧ ∃ t, wV.applyEntry eAtom = some t :=
  ⟨by decide, by decide +kernel, by decide +kernel, by decide +kernel, Option.isSome_iff_exists.mp (by decide +kernel)⟩

/-- A queue of two 4-byte elements at VA 0, empty, and with one element. -/
def wQ (tail : Nat) : State :=
  { wV with mem := wV.mem.write 0x20000 (leBytes 16 (tail * 2 ^ 64) ++ leBytes 8 128 ++ leBytes 4 2 ++ leBytes 4 2) }

theorem witness_qwait : ∀ tail ∈ [0, 1],
    (UniRuns (wQ tail) (issOf (wQ tail)) (fo 1 2 0 0) .vector ∧ (issOf (wQ tail)).free [(2, true)] = true ∧
    (wQ tail).translate (issOf (wQ tail)).crew.part (issOf (wQ tail)).crew.level .queue
      (((issOf (wQ tail)).flock.kpair 2).toNat % 2 ^ 57) = .ok l0) ∧
    (wQ tail).ckptReady (issOf (wQ tail)).crew = true ∧ ((wQ tail).checkpoint 0 0).owned l0.part (lineOf l0.pa) = false ∧
    ((wQ tail).checkpoint 0 0).rangeBad l0.pa 64 = false ∧
    (((wQ tail).checkpoint 0 0).qdesc l0).ok none = true ∧ (((wQ tail).checkpoint 0 0).qdesc l0).used = tail := by
  intro tail ht
  have h : ∀ tail ∈ [0, 1], ((wQ tail).ckptReady (issOf (wQ tail)).crew = true ∧
    ((wQ tail).checkpoint 0 0).owned l0.part (lineOf l0.pa) = false ∧
    ((wQ tail).checkpoint 0 0).rangeBad l0.pa 64 = false ∧
    (((wQ tail).checkpoint 0 0).qdesc l0).ok none = true ∧ (((wQ tail).checkpoint 0 0).qdesc l0).used = tail) ∧
    (((wQ tail).dead = false ∧ (wQ tail).iss?.isSome = true) ∧
      (((issOf (wQ tail)).batch.phase = 0 → guardUni (fo 1 2 0 0) (issOf (wQ tail)).flock = true) ∧
        (issOf (wQ tail)).pipeHeld = false) ∧
      Roles.allow .vector (issOf (wQ tail)).flock.role = true) ∧
    (issOf (wQ tail)).free [(2, true)] = true ∧
    ((wQ tail).translate (issOf (wQ tail)).crew.part (issOf (wQ tail)).crew.level .queue
      (((issOf (wQ tail)).flock.kpair 2).toNat % 2 ^ 57)).toOption = some l0 := by decide +kernel
  exact ⟨⟨uni (h tail ht).2.1, (h tail ht).2.2.1, okOf (h tail ht).2.2.2⟩, (h tail ht).1⟩

/-- A descriptor that QWAIT refuses, and a poisoned one. -/
theorem witness_qwait_refused : (wV.checkpoint 0 0).owned l0.part (lineOf l0.pa) = false ∧
    (wV.checkpoint 0 0).rangeBad l0.pa 64 = false ∧ ((wV.checkpoint 0 0).qdesc l0).ok none = false ∧
    ({ wV with poison := [sectorOf l0.pa] }.checkpoint 0 0).rangeBad l0.pa 64 = true := by decide +kernel

/-- HLD and HST of a word of an object whose reference is in h0, a healed base register not arising. -/
def lH : Loc := { l0 with cls := .heap }

theorem witness_heap : LaneRuns wH (issOf wH) (fm 4 0 6) ∧ ∃ c, wH.ctx? 0 = some c ∧
    (∀ f ∈ (issOf wH).takers (fm 4 0 6), heapEa wH (issOf wH) c (fm 4 0 6) .load f = .ok { loc := lH, healed := none } ∧
      heapEa wH (issOf wH) c (fm 4 0 6) .store f = .ok { loc := lH, healed := none }) ∧
    (fm 4 0 6).ref = false ∧
    (wH.loadRun (wH.again (issOf wH)) (fm 4 0 6) (parts (issOf wH) (fm 4 0 6) fun _ => lH)).isSome = true ∧
    (storeRun wH (wH.again (issOf wH)) (fm 4 0 6) ((parts (issOf wH) (fm 4 0 6) fun _ => lH).map fun p =>
      (p.1, p.2, leBytes 4 0))).toOption.isSome = true :=
  ⟨lane (by decide +kernel), (wH.ctx? 0).get (by decide +kernel), (Option.some_get _).symm, by decide +kernel,
    by decide +kernel, by decide +kernel, by decide +kernel⟩

/-- HREF of references that no load still has to write, CMP of two of them, PIN, UNPIN and HNEW of the least object. -/
theorem witness_references : ∃ c, wH.ctx? 0 = some c ∧ c.regionValid 0 = true ∧ mayBegin wH (issOf wH) ∧
    (issOf wH).begun = false ∧ ∀ f ∈ (issOf wH).takers (fi 2 0 0 16),
      (issOf wH).hBusy f.lane 0 = false ∧ (issOf wH).hBusy f.lane 2 = false ∧ pairWritable f 2 = true ∧
      pairReadable f 0 = true ∧ baseOf wH c 0 (f.h 0) = .ok (some 0) ∧ c.usable (f.h 0) = true ∧
      heapPage wH (issOf wH) c .atomic (refBase (f.h 0)) = .ok lH ∧ (fi 2 0 0 16).hasImm = true ∧
      (fi 2 0 0 16).immZ = 16 ∧
      (wH.pageCheck c (issOf wH).crew.level .atomic .dev (c.regionAlloc 0) (c.regionAlloc 0) 0).toOption.isSome = true :=
  ⟨(wH.ctx? 0).get (by decide +kernel), (Option.some_get _).symm, by decide +kernel,
    ⟨by decide +kernel, by decide +kernel⟩, by decide +kernel, by decide +kernel⟩

/-- HNEW of a size too small for an object: the lane has its null reference at once. -/
theorem witness_hnew_null : ∀ f ∈ (issOf wH).takers (fi 2 0 0 8), (fi 2 0 0 8).hasImm = true ∧
    (issOf wH).hBusy f.lane 2 = false ∧ (fi 2 0 0 8).immZ < 16 := by decide +kernel

/-- HRELOC of an empty list, its two parts. -/
theorem witness_hreloc : UniRuns wV iV (fm 1 2 0) .vector ∧ iV.crew.level ≠ .u ∧ iV.free [(2, true), (4, false)] = true ∧
    (∃ c, wV.ctx? 0 = some c ∧ (checkList wV iV 0 0).bind (checkSources wV c 0) = .ok l0) ∧ wV.goatsOf iV.crew < 2 ∧ wV.ckptReady iV.crew = true ∧
    UniRuns wP iP (fm 1 2 0) .vector ∧ wP.drained 0 iP.batch.tag = true ∧
    (ckptOthers wP (wP.versionHolders 0 [])).isSome = true :=
  ⟨uniV _ _ (by decide +kernel) rfl, by decide +kernel, by decide +kernel,
    ⟨(wV.ctx? 0).get (by decide +kernel), (Option.some_get _).symm, by decide +kernel⟩, by decide +kernel,
    by decide +kernel, uniP _ _ rfl, by decide +kernel, by decide +kernel⟩

/-! ### Witnesses: synchronisation, launches, engines -/

/-- A crew whose named barrier 1 expects two arrivals, with one in and an engine's among them. -/
def wN : State := onK wV fun k => k.updLive fun c =>
  { c with nbs := [(1, { expect := 2, count := 1, phase := true, engine := true, engNow := false }),
                   (3, { NBar.zero with expect := 1 })] }

theorem witness_named_barriers : UniRuns wN (issOf wN) (fi 2 1 1 5) .vectorCopy ∧ (issOf wN).free [] = true ∧
    wN.unitBusy (issOf wN) = false ∧ ((issOf wN).crew.live.nbar 1).expect ≠ 0 ∧ ((issOf wN).crew.live.nbar 2).expect = 0 ∧
    ((issOf wN).crew.live.nbar 1).ends ((issOf wN).flock.qpred 1) = true ∧
    ((issOf wN).crew.live.nbar 3).ends ((issOf wN).flock.qpred 1) = false :=
  ⟨uni (by decide +kernel), by decide +kernel, by decide +kernel, by decide +kernel, by decide +kernel, by decide +kernel,
    by decide +kernel⟩

/-- The barrier's phase changes exactly where the count reaches what is expected. -/
theorem witness_barrier_counts : ∀ b ∈ [({ NBar.zero with expect := 2, count := 1 } : NBar)],
    b.expect ≠ 0 ∧ b.expect ≤ b.count + 1 ∧ ∀ b ∈ [({ NBar.zero with expect := 2 } : NBar)], b.count + 1 < b.expect := by
  decide

def wW : State := onF wN fun f => { f with wpend := true }

theorem witness_waits : UniRuns wN (issOf wN) (fo 2 1 1 (2 ^ 16)) .any ∧ UniRuns wW (issOf wW) (fo 2 1 1 0) .any ∧
    (issOf wW).flock.wpend = true ∧ (issOf wN).flock.wpend = false ∧
    ((fo 2 1 1 (2 ^ 16)).mb 16 && ((issOf wN).crew.live.nbar 1).phase != (issOf wN).flock.qpred 1) = true ∧
    ((fo 2 1 1 0).mb 16 && ((issOf wN).crew.live.nbar 1).phase != (issOf wN).flock.qpred 1) = false ∧
    wN.unitBusy (issOf wN) = false ∧ (issOf wN).free [(1, false)] = true :=
  ⟨uni (by decide +kernel), uni (by decide +kernel), by decide +kernel, by decide +kernel, by decide +kernel,
    by decide +kernel, by decide +kernel, by decide +kernel⟩

/-- TBAR: at its start, once drained, and released. -/
def wT : State := onB wV fun b => { b with wait := .tbarOut }

theorem witness_tbar : iV.batch.wait ≠ .tbarOut ∧ wV.unitBusy iV = false ∧ UniRuns wP iP (fm 0 0 0) .any ∧
    iP.batch.wait ≠ .tbarOut ∧ wP.drained 0 iP.batch.tag = true ∧ wP.ckptReady iP.crew = true ∧ Issues wT (issOf wT) ∧
    (issOf wT).batch.wait = .tbarOut ∧ (wT.dropCore 0).ckptReady (issOf wT).crew = true :=
  ⟨by decide +kernel, by decide +kernel, uniP _ _ rfl, by decide +kernel, by decide +kernel, by decide +kernel,
    at_ (by decide +kernel), by decide +kernel, by decide +kernel⟩

theorem witness_launch : UniRuns wV iV (fm 1 2 0) .any ∧ iV.free [(2, true), (1, false)] = true ∧
    checkRecord wV iV 0 = .ok l0 ∧ mayBegin wV iV ∧ UniRuns wP iP (fm 1 2 0) .any ∧ (wP.launch iP 0).isSome = true :=
  ⟨uniV _ _ (by decide +kernel) rfl, by decide +kernel, by decide +kernel, ⟨by decide +kernel, by decide +kernel⟩,
    uniP _ _ rfl, by decide +kernel⟩

theorem witness_bincfg : UniRuns wV iV (fi 0 2 0 0) .any ∧ iV.free [(2, false)] = true ∧
    ∃ e, wV.entryAt iV.crew.part (immTarget (fi 0 2 0 0) iV.batch.pc) = some e ∧ e.bin = true :=
  ⟨uniV _ _ (by decide +kernel) rfl, by decide +kernel, binAt0, by decide +kernel, rfl⟩

theorem witness_cpy : UniRuns wV iV (fo 1 8 0 0) .vectorCopy ∧ iV.absent = [] ∧
    iV.free ((List.range 8).map fun n => (8 + n, false)) = true ∧ checkCopy wV iV (copyDesc (fo 1 8 0 0) iV) = .ok () ∧
    (wV.copiesOf iV.crew).length < 8 ∧ wV.ckptReady iV.crew = true ∧ UniRuns wP iP (fo 1 8 0 0) .vectorCopy ∧
    (ckptOthers wP (wP.versionHolders 0 (wP.copyLines 0 .f (copyDesc (fo 1 8 0 0) iP)))).isSome = true :=
  ⟨uniV _ _ (by decide +kernel) rfl, by decide +kernel, by decide +kernel, by decide +kernel, by decide +kernel,
    by decide +kernel, uniP _ _ rfl, by decide +kernel⟩

theorem witness_cpydrain : UniRuns wV iV (fm 0 1 0) .vectorCopy ∧ ∀ e ∈ wV.engines, e.core = 0 → e.onPath 1 = true →
    wV.nextTag ≤ e.id := ⟨uniV _ _ (by decide +kernel) rfl, by decide +kernel⟩

/-- A group of one, and a barrier's parameter block at VA 0, in the second part of its COLL. -/
def wC : State := { wP with mem := wP.mem.write 0x20000 [7] }.updCtx 0 fun c =>
  (c.setReg snGroup (2 ^ 32)).setReg (snGroup + 1) (2 ^ 63)

theorem witness_coll : UniRuns wV iV (fm 0 2 0) .vector ∧ iV.free [(2, true)] = true ∧ checkColl wV iV 0 = .ok l0 ∧
    UniRuns wC (issOf wC) (fm 0 2 0) .vector ∧ (issOf wC).absent = [] ∧ (issOf wC).batch.phase ≠ 0 ∧
    wC.drained 0 (issOf wC).batch.tag = true ∧ ∃ c g, wC.ctx? 0 = some c ∧
      checkBlockOf wC (issOf wC) c (wC.collBlock (issOf wC) l0) 0 = .ok g ∧
      wC.oxOwned l0.part (lineOf l0.pa) = false ∧
      (acceptColl wC (issOf wC) 1 (wC.collBlock (issOf wC) l0) g).toOption.isSome = true :=
  ⟨uniV _ _ (by decide +kernel) rfl, by decide +kernel, by decide +kernel, uni (by decide +kernel), by decide +kernel,
    by decide +kernel, by decide +kernel, (wC.ctx? 0).get (by decide +kernel), { g := 1, rank := 0, list := 0 },
    (Option.some_get _).symm, by decide +kernel, by decide +kernel, by decide +kernel⟩

/-! ### Witnesses: matrix units and system instructions -/

/-- MMA and MMAI with a format word of each kind, at the last slot an operand of one slot may stand in. -/
def wMM (w : Nat) : State := onX wM fun f => f.put 6 false (BitVec.ofNat 64 w)
def xMM : Form := { fe 0 2 15 6 false false false with mod := some 0 }

theorem witness_mma : ∀ p ∈ [(0, false), (68, true)], UniRuns (wMM p.1) (issOf (wMM p.1)) xMM .matrix ∧
    (issOf (wMM p.1)).free [(2, true)] = true ∧ formatWord (issOf (wMM p.1)) xMM p.2 16 = .ok p.1 ∧
    blockOk (wMM p.1) (issOf (wMM p.1)) (0 % 16 == 0 && 0 % 16 == 0) [(0, 16)] ∧
    ∃ s1, token (wMM p.1) (issOf (wMM p.1)) s1 ∧
      (∀ e ∈ s1.engines, e.loads 0 (slotsOf 15 16 (elemSize (wordFb p.1))) = false) ∧
      (settleTiles s1 (issOf (wMM p.1)) [0]).toOption.isSome = true := by
  have h : ∀ p ∈ [(0, false), (68, true)], ((((wMM p.1).dead = false ∧ (wMM p.1).iss?.isSome = true) ∧
      (((issOf (wMM p.1)).batch.phase = 0 → guardUni xMM (issOf (wMM p.1)).flock = true) ∧ (issOf (wMM p.1)).pipeHeld = false) ∧
      Roles.allow .matrix (issOf (wMM p.1)).flock.role = true)) ∧ (issOf (wMM p.1)).free [(2, true)] = true ∧
      (formatWord (issOf (wMM p.1)) xMM p.2 16).toOption = some p.1 ∧
      checkExtents (wMM p.1) (issOf (wMM p.1)) [(0, 16)] = .ok () ∧ ((wMM p.1).useToken (herdOf (issOf (wMM p.1)).ref.core)).any (fun s1 =>
        decide (∀ e ∈ s1.engines, e.loads 0 (slotsOf 15 16 (elemSize (wordFb p.1))) = false) &&
        (settleTiles s1 (issOf (wMM p.1)) [0]).toOption.isSome) = true := by decide +kernel
  intro p hp
  obtain ⟨h1, h2, h3, h4, h5⟩ := h p hp
  obtain ⟨s1, e1, e2⟩ := Option.any_eq_true _ _ |>.mp h5
  simp only [Bool.and_eq_true, decide_eq_true_eq] at e2
  exact ⟨uni h1, h2, okOf h3, ⟨rfl, h4⟩, s1, e1, e2⟩

/-- BLD from scratch and from memory, and the second part of each. -/
def wMP : State := onB wM fun b => { b with phase := 1 }

theorem witness_bld : ∀ x ∈ [fo 1 2 0 0, fo 1 2 0 (2 ^ 7)], UniRuns wM (issOf wM) x .matrix ∧ UniRuns wMP (issOf wMP) x .matrix ∧
    (issOf wM).free [(2, true), (4, false)] = true ∧ checkExtents wM (issOf wM) (rowExtents 0 0 1 1) = .ok () ∧
    wM.ckptReady (issOf wM).crew = true ∧ wMP.drained 0 (issOf wMP).batch.tag = true ∧
    (ckptOthers wMP (wMP.versionHolders 0 [])).isSome = true := by
  have h : (∀ x ∈ [fo 1 2 0 0, fo 1 2 0 (2 ^ 7)], (((wM.dead = false ∧ wM.iss?.isSome = true) ∧
      (((issOf wM).batch.phase = 0 → guardUni x (issOf wM).flock = true) ∧ (issOf wM).pipeHeld = false) ∧
      Roles.allow .matrix (issOf wM).flock.role = true)) ∧ (((wMP.dead = false ∧ wMP.iss?.isSome = true) ∧
      (((issOf wMP).batch.phase = 0 → guardUni x (issOf wMP).flock = true) ∧ (issOf wMP).pipeHeld = false) ∧
      Roles.allow .matrix (issOf wMP).flock.role = true))) ∧ (issOf wM).free [(2, true), (4, false)] = true ∧
      checkExtents wM (issOf wM) (rowExtents 0 0 1 1) = .ok () ∧
      wM.ckptReady (issOf wM).crew = true ∧ wMP.drained 0 (issOf wMP).batch.tag = true ∧
      (ckptOthers wMP (wMP.versionHolders 0 [])).isSome = true := by decide +kernel
  exact fun x hx => ⟨uni (h.1 x hx).1, uni (h.1 x hx).2, h.2⟩

/-- SLD, ZZERO, ZLD, ZST, ZRD and ZWR. -/
theorem witness_tiles : UniRuns wM (issOf wM) (fm 0 2 2) .matrix ∧ (issOf wM).free [(2, true)] = true ∧
    blockOk wM (issOf wM) (0 % 16 == 0 && 0 % 16 == 0) [(0, 63 * 0 + 256)] ∧
    blockOk wM (issOf wM) (0 % 4 == 0) [(0, sldBytes 0 1)] ∧
    (settleTiles wM (issOf wM) [0]).toOption.isSome = true ∧ (settleTiles wM (issOf wM) [2]).toOption.isSome = true ∧
    (wM.reserveScratch 0 0 (rowLines 0x8000 0 64 256)).toOption.any (fun s1 =>
      (settleTiles s1 (issOf wM) [2]).toOption.isSome) = true ∧
    ∀ f ∈ (issOf wM).active, pairWritable f 0 = true ∧ pairReadable f 2 = true :=
  ⟨uni (by decide +kernel), by decide +kernel, ⟨rfl, by decide +kernel⟩, ⟨rfl, by decide +kernel⟩, by decide +kernel,
    by decide +kernel, by decide +kernel, by decide +kernel⟩

/-- A unit with tile 0 pinned by its own crew, the handle in k1. -/
def wPin : State := (zpinRun wM (issOf wM) (fo 1 0 2 0)).toOption.getD wM

/-- Runs `f` after the first checkpoint. -/
def afterCkpt (s : State) (f : State → Iss → Pin State) : Bool :=
  (((firstCkpt s (s.again (issOf s))).toOption.bind fun s1 => (f s1 (s1.again (issOf s))).toOption)).isSome

theorem witness_pins : UniRuns wM (issOf wM) (fo 1 0 2 0) .matrix ∧ (issOf wM).free [(1, false), (2, true)] = true ∧
    afterCkpt wM (fun s i => zpinRun s i (fo 1 0 2 0)) = true ∧ wM.evictTo ((wM.unit 0).detached (tileGroup 0 false)) = [] ∧
    UniRuns wPin (issOf wPin) (fo 0 1 0 0) .matrix ∧ (issOf wPin).free [(1, false)] = true ∧
    afterCkpt wPin (fun s i => zattRun s i (fo 0 1 0 0)) = true ∧ afterCkpt wPin (fun s i => zdetRun s i 0) = true ∧
    afterCkpt wPin (fun s i => zrelRun s i (fo 0 1 0 0)) = true ∧
    afterCkpt wPin (fun s i => zspillRun s i (fo 0 1 0 0)) = true :=
  ⟨uni (by decide +kernel), by decide +kernel, by decide +kernel, by decide +kernel, uni (by decide +kernel),
    by decide +kernel, by decide +kernel, by decide +kernel, by decide +kernel, by decide +kernel⟩

/-- ZINFO, GDR, GQR and the chunk forms of one token. -/
theorem witness_fast_weights : UniRuns wM (issOf wM) (fe 0 2 4 6 false false false) .matrix ∧ (wM.unit 0).queue = [] ∧
    (issOf wM).absent = [] ∧ (issOf wM).free [(0, true), (2, true), (6, true)] = true ∧
    (∀ f ∈ (issOf wM).active, ∀ k, k < vecRegs false → f.readable (2 + k) = true ∧ f.readable (4 + k) = true ∧
      f.writable (0 + k) = true) ∧
    checkExtents wM (issOf wM) [(0, 1 * tokenSize false), (0, 1 * 4 * stateDim false)] = .ok () ∧
    (wM.useToken 0).any (fun s1 => (settleTiles s1 (issOf wM) (tileGroup 0 false)).toOption.isSome &&
      ((s1.reserveScratch 0 0 (scratchLines 0x8000 (1 * 4 * stateDim false))).toOption.any fun s2 =>
        (settleTiles s2 (issOf wM) (tileGroup 0 false)).toOption.isSome)) = true :=
  ⟨uni (by decide +kernel), by decide +kernel, by decide +kernel, by decide +kernel, by decide +kernel,
    by decide +kernel, by decide +kernel⟩

/-- CKPT, TRAP, BPT with and without the partition's breakpoints, HALT. -/
def wBk : State := wV.updCtx 0 fun c => { c with breakHalt := true }

theorem witness_traps : UniRuns wV iV (fi 0 0 0 7) .any ∧ wV.ckptReady iV.crew = true ∧ iV.crew.between = false ∧
    (wV.ctx? 0).any (·.breakHalt) = false ∧ UniRuns wBk (issOf wBk) (fi 0 0 0 7) .any ∧
    (wBk.ctx? (issOf wBk).crew.part).any (·.breakHalt) = true :=
  ⟨uniV _ _ (by decide +kernel) rfl, by decide +kernel, by decide +kernel, by decide +kernel, uni (by decide +kernel),
    by decide +kernel⟩

/-- ERET of the record at VA 0, in its three parts. -/
theorem witness_eret : UniRuns wV iV (fm 1 2 4) .any ∧ iV.free [(2, true), (4, false), (1, false)] = true ∧
    checkTrapRec wV iV 0 = .ok l0 ∧ wV.ckptReady iV.crew = true ∧ UniRuns wP iP (fm 1 2 4) .any ∧ iP.batch.phase = 1 ∧
    wP.drained 0 iP.batch.tag = true ∧ (wP.serve 0 (recName (wP.placeBytes l0 64)) 0).2.isSome = true :=
  ⟨uniV _ _ (by decide +kernel) rfl, by decide +kernel, by decide +kernel, by decide +kernel, uniP _ _ rfl,
    by decide +kernel, by decide +kernel, by decide +kernel⟩

def wE2 : State := onB wV fun b => { b with phase := 2 }

theorem witness_eret_abort : UniRuns wE2 (issOf wE2) (fm 1 2 4) .any ∧ (issOf wE2).batch.phase = 2 ∧
    wE2.abortDone (issOf wE2).crew.part (issOf wE2).batch.tag = true :=
  ⟨uni (by decide +kernel), by decide +kernel, by decide +kernel⟩

/-- RDSYS of a register that the level may read and of one that nobody may; WRSYS of the last launch queue's word. -/
theorem witness_sys : UniRuns wV iV (fi 2 0 0 (2 ^ 12)) .any ∧ iV.free [(2, true)] = true ∧
    (∃ l w, sysRights snLq = some (.level l, w) ∧ iV.atLeast l = true) ∧
    (∃ w, sysRights snXlbase = some (w, .level .t)) ∧ iV.atLeast .t = true ∧ mayBegin wV iV ∧
    UniRuns wP iP (fi 0 0 2 0) .any ∧ iP.batch.phase = 1 ∧ wP.drained 0 iP.batch.tag = true ∧
    UniRuns wE2 (issOf wE2) (fi 0 0 2 0) .any ∧ (wE2.ctx? 0).any (fun c => c.reg snXlinv != 0) = false ∧
    wE2.olderGone 0 0 = true ∧ wE2.ckptReady (issOf wE2).crew = true :=
  ⟨uniV _ _ (by decide +kernel) rfl, by decide +kernel, ⟨_, _, rfl, by decide +kernel⟩, ⟨_, rfl⟩, by decide +kernel,
    ⟨by decide +kernel, by decide +kernel⟩, uniP _ _ rfl, by decide +kernel, by decide +kernel, uni (by decide +kernel),
    by decide +kernel, by decide +kernel, by decide +kernel⟩

theorem witness_wrpkr : UniRuns wV iV (fm 31 2 0) .any ∧ iV.crew.level = .f ∧ iV.free [(2, false)] = true ∧
    (wV.checkpoint 0 0).accessesChecked iV = true :=
  ⟨uniV _ _ (by decide +kernel) rfl, by decide +kernel, by decide +kernel, by decide +kernel⟩

/-! ### Witnesses: the machine's own steps -/

/-- A store of fibre 0 to the word at VA 0, and an older one of fibre 1 elsewhere in the line. -/
def eSt (fib pa : Nat) (kind : EntryKind) : Entry :=
  { core := 0, slot := 0, flock := 0, lane := 0, fib := fib, part := 0, interval := 0, loc := { l0 with pa := pa }
    kind := kind, tag := 0, pc := 0 }
def st4 : EntryKind := .store (leBytes 4 9) false false

theorem witness_pass : (eSt 0 0x20000 st4).ofFibre 0 0 = true ∧ (∀ d ∈ [eSt 1 0x20004 st4], d.ofFibre 0 0 = false) ∧
    ∀ d ∈ [eSt 1 0x20004 st4], d.core = 0 → (eSt 0 0x20000 st4).overlaps d = false := by decide +kernel

def wRq (kind : EntryKind) : State := { wV with rq := [eSt 0 0x20000 kind] }

/-- An entry that drains and that its arrival at the slice neither loses nor makes wait. -/
def arrives (s : State) (e : Entry) : Bool :=
  s.drainable 0 0 == some e && !(arrived s 0 0 e).entryLost e && !(arrived s 0 0 e).entryWaits e

theorem witness_drain : ∀ k ∈ [.rel .dev, st4, .store (leBytes 4 9) true false, .atomic (.rmw 0) 4 1, .atomic (.cas 0) 8 1],
    (wRq k).dead = false ∧ arrives (wRq k) (eSt 0 0x20000 k) = true ∧ (((wRq k).takeIn (eSt 0 0x20000 k)).toOption).isSome = true ∧
    (wRq k).versionFull 0 0 l0 = false := by decide +kernel

/-- A row of DRAM whose activations have passed the bound, context 0 having made them all. -/
def hot (s : State) (sec : Nat) : State := { s with rows := [(rowKey (dramRow sec) 0, 9000)], rowAt := [] }
theorem hot_rowWaits {s : State} {sec : Nat} (h : bits (64 * sec) 51 50 = 0 ∧ s.policy.actMax < 9000 ∧ s.clock < 256) :
    (hot s sec).rowWaits 0 sec = true := by
  have hk : ∀ p, (rowKey (dramRow sec) p = rowKey (dramRow sec) 0) ↔ p = 0 := by intro p; unfold rowKey; omega
  have hl : ∀ p, ¬ rowKey (dramRow sec) p < rowKey (dramRow sec) 0 := by intro p; unfold rowKey; omega
  have hg : ∀ p, spGet 0 (hot s sec).rows (rowKey (dramRow sec) p) = if p = 0 then 9000 else 0 := by
    intro p; simp [hot, spGet, hk]
  have hc : (hot s sec).rowCount (dramRow sec) = 9000 := by simp only [State.rowCount, hg]; decide
  have ht : (hot s sec).rowTop (dramRow sec) = 0 := by simp only [State.rowTop, hg]; decide
  simp only [State.rowWaits, hc, ht]
  simp [hot, spGet, h.1, h.2.1, h.2.2]

/-- A plain store that needs room, its context holding no way of the slice, where its crew can and cannot be checkpointed, and entries
whose range is lost. -/
def wRoom (busy : Bool) : State :=
  let s := { wRq st4 with slWays := [] }
  if busy then onK s fun k => { k with prods := [{ flock := 0, dest := .uni 0 4 false, val := 0, poison := false, pc := 0, src := .unit }] } else s
theorem arrived_rowWaits (s : State) (core idx : Nat) (e : Entry) (part sec : Nat) :
    (arrived s core idx e).rowWaits part sec = s.rowWaits part sec := by unfold arrived State.arrival; split <;> rfl
theorem held {s : State} {e : Entry} (hk : ∃ a n v, e.kind = .atomic a n v) (hc : e.loc.cls = .dev)
    (hh : s.home = []) (hr : s.rowWaits e.part (sectorOf e.loc.pa) = true) : (arrived s 0 0 e).entryWaits e = true := by
  obtain ⟨a, n, v, hk⟩ := hk
  have h2 : (arrived s 0 0 e).home = [] := by rw [← hh]; unfold arrived State.arrival; split <;> rfl
  simp [State.entryWaits, hk, hc, arrived_rowWaits, hr, State.homeSector?, State.homeLine?, h2, Entry.isRel]
def eHeld (op : AtomOp) : Entry := eSt 0 0x20000 (.atomic op 4 1)
theorem witness_drain_held : ∀ op ∈ [AtomOp.rmw 0, .pin],
    (hot (wRq (.atomic op 4 1)) 0x800).drainable 0 0 = some (eHeld op) ∧
    (arrived (hot (wRq (.atomic op 4 1)) 0x800) 0 0 (eHeld op)).entryLost (eHeld op) = false ∧
    (arrived (hot (wRq (.atomic op 4 1)) 0x800) 0 0 (eHeld op)).entryWaits (eHeld op) = true := by
  intro op ho
  have h : bits (64 * 0x800) 51 50 = 0 ∧ (wRq (.atomic op 4 1)).policy.actMax < 9000 ∧ (wRq (.atomic op 4 1)).clock < 256 := by
    revert op; decide +kernel
  refine ⟨by revert op; decide +kernel, by revert op; decide +kernel, held ⟨op, 4, 1, rfl⟩ rfl (by revert op; decide +kernel) ?_⟩
  have hs : sectorOf (eHeld op).loc.pa = 0x800 := by simp [sectorOf, eHeld, eSt]
  rw [hs]
  exact hot_rowWaits h
theorem witness_drain_room : (wRoom false).drainable 0 0 = some (eSt 0 0x20000 st4) ∧
    (wRoom false).versionFull 0 0 l0 = true ∧ ∃ u, (wRoom false).roomFor (eSt 0 0x20000 st4) = .ok u ∧
    u.drainable 0 0 = some (eSt 0 0x20000 st4) ∧ arrives u (eSt 0 0x20000 st4) = true ∧
    (arrived u 0 0 (eSt 0 0x20000 st4)).writesVersion (eSt 0 0x20000 st4) = false :=
  ⟨by decide +kernel, by decide +kernel, ((wRoom false).roomFor (eSt 0 0x20000 st4)).toOption.get (by decide +kernel),
    okOf (Option.some_get _).symm, by decide +kernel, by decide +kernel, by decide +kernel⟩
theorem witness_drain_waits : ∃ p, (wRoom true).takeIn (eSt 0 0x20000 st4) = .error p ∧ ((wRoom true).markDue [p]).isSome = true :=
  ⟨(0, 0), errOf (by decide +kernel), by decide +kernel⟩
theorem witness_drain_lost : ∀ k ∈ [.store (leBytes 4 9) true false, .atomic (.rmw 0) 4 1],
    let s := { wV with rq := [eSt 0 (2 ^ 50) k], lost := [Link.cxl 0] }
    s.drainable 0 0 = some (eSt 0 (2 ^ 50) k) ∧ (arrived s 0 0 (eSt 0 (2 ^ 50) k)).entryLost (eSt 0 (2 ^ 50) k) = true := by
  decide +kernel

/-- A queue operation that drains at the descriptor of VA 0: empty, with one element, full; one that fails its check; and one whose
elements no page maps. -/
def eOp (op : AtomOp) (v : Word64) : Entry := { eSt 0 0x20000 (.atomic op 4 v) with loc := { l0 with ia := 0 } }
def wDeq (s : State) (e : Entry) : State := { s with rq := [e] }
theorem witness_queue_acts : ∀ op ∈ [AtomOp.qenq, .qdeq], ∀ tail ∈ [0, 1, 2],
    let s := wDeq (wQ tail) (eOp op 7)
    let u := (arrived s 0 0 (eOp op 7)).commitLine 0 0 l0
    arrives s (eOp op 7) = true ∧ (s.ctx? 0).isSome = true ∧
      u.rangeBad 0x20000 64 = false ∧ (u.qdesc l0).ok (some false) = true ∧
      (u.qdesc l0).used = tail ∧ (u.qdesc l0).cap = 2 ∧
      ∀ a ∈ [Access.load, .store], (match u.elemLoc 0 .u a ((u.qdesc l0).elemIa l0 tail) with
        | .ok el => !u.owned 0 (lineOf el.pa) && !u.rangeBad el.pa 4
        | .error _ => false) = true := by decide +kernel
def wQFar : State :=
  { wV with mem := wV.mem.write 0x20000 (leBytes 8 0 ++ leBytes 8 1 ++ leBytes 8 (2 ^ 40) ++ leBytes 4 2 ++ leBytes 4 2) }
theorem witness_queue_refused : ((wV.commitLine 0 0 l0).qdesc l0).ok (some false) = false ∧
    ((wQFar.commitLine 0 0 l0).qdesc l0).ok (some false) = true ∧
    ∀ a ∈ [Access.load, .store], (match wQFar.elemLoc 0 .u a (((wQFar.commitLine 0 0 l0).qdesc l0).elemIa l0 0) with
      | .ok _ => false
      | .error _ => true) = true := by decide +kernel

/-- A pin operation at a header with some pins, and an allocation from a line with room and without. -/
def wPins (n : Nat) : State := { wH with mem := wH.mem.write 0x20004 (leBytes 2 n) }
theorem witness_pins_act : ∀ op ∈ [AtomOp.pin, .unpin], ∀ n ∈ [0, 1, 65535], ∀ c ∈ (wPins n).ctx? 0,
    let s := wDeq (wPins n) (eOp op (mkRef 0 0))
    let t := arrived s 0 0 (eOp op (mkRef 0 0))
    arrives s (eOp op (mkRef 0 0)) = true ∧ (match t.headerLoc c 0 (mkRef 0 0) with
      | some l =>
        let u := t.commitLine 0 0 l
        decide (u.resolve c 0 (mkRef 0 0) 0 = .line 0 false) && !u.rangeBad l.pa 16 && !u.objMoving c 0 && u.objPins c 0 == n
      | none => false) = true := by decide +kernel
def wAlloc (top : Nat) : State := { wH with mem := wH.mem.write 0x21000 (leBytes 8 top ++ leBytes 8 0x8000) }
theorem witness_hnew_acts : ∀ top ∈ [0x2000, 0x8000], ∀ c ∈ (wAlloc top).ctx? 0,
    let e : Entry := { eOp (.hnew 0 16) 0 with loc := { l0 with ia := 0x1000, pa := 0x21000 } }
    let s := wDeq (wAlloc top) e
    let u := (arrived s 0 0 e).commitLine 0 0 e.loc
    arrives s e = true ∧ u.rangeBad 0x21000 64 = false ∧ c.regionValid 0 = true ∧ c.regionAlloc 0 = 0x1000 ∧
      u.iaVal c 0x1000 8 = top ∧ u.iaVal c 0x1008 8 = 0x8000 ∧ c.regionBase 0 ≤ top ∧ top + 128 ≤ c.regionLimit 0 := by
  decide +kernel

theorem witness_fill : wV.dead = false ∧ ∃ k l, wV.crew? 0 0 = some k ∧ wV.fillPlace k (128 * 0) = some l ∧
    wV.fillQuad k = some 0 ∧ wV.owned k.part (lineOf l.pa) = false ∧ wV.lostPa l.pa = false ∧
    wV.lineWaits k.part (lineOf l.pa) = false :=
  ⟨by decide +kernel, (wV.crew? 0 0).get (by decide +kernel),
    (wV.fillPlace ((wV.crew? 0 0).get (by decide +kernel)) 0).get (by decide +kernel),
    (Option.some_get _).symm, (Option.some_get _).symm, by decide +kernel, by decide +kernel, by decide +kernel,
    by decide +kernel⟩

def copyL : L1Copy := { core := 0, group := 0, way := 8, part := 0, line := 0x400, data := [], bad := [], pinned := false }
def homeL : HomeLine :=
  { line := 0x400, site := { part := 0, slice := 0, pin := false }, way := 0, data := [(0x20000, 5)], valid0 := true, valid1 := true
    dirty0 := true, dirty1 := false, evictFirst := false, evictLast := false }
def wL : State := { wV with l1 := [copyL], home := [homeL], linkWait := [eSt 0 0x20000 st4] }
def ePool : Entry := { eSt 0 (2 ^ 50) st4 with loc := { l0 with pa := 2 ^ 50, cls := .pool, home := 3 } }

theorem witness_lines : wL.dead = false ∧ (∃ c ∈ wL.l1, c.core = 0 ∧ c.line = 0x400 ∧ c.pinned = false) ∧
    wL.home = [] ++ homeL :: [] ∧ homeL.line = 0x400 ∧ homeL.dirty0 = true ∧
    (∀ sec ∈ [0x800, 0x801], homeL.isDirty sec = true → wL.rowWaits homeL.site.part sec = false) ∧
    wL.linkWait = [] ++ eSt 0 0x20000 st4 :: [] ∧ (eSt 0 0x20000 st4).atLink = false ∧ ePool.atLink = true ∧
    ({ wL with linkWait := [ePool] } : State).rowWaits 0 (sectorOf ePool.loc.pa) = false := by
  decide +kernel

/-- A copy of 16 bytes from VA 0 to memory or scratch, a B-store load, and a copy that is done; each with barrier 1. -/
def desc (mod : Nat) : CopyDesc := { flock := 0, pc := 0, nb := 1, mod := mod, regs := [0, 0, 0x80, 0, 16, 1, 16, 16] }
def eng (j : Job) : Engine :=
  { id := 5, owned := [], core := 0, slot := 0, part := 0, launch := 1, idx := 0, level := .f, flock := 0, pc := 0
    nb := some 1, job := j }
def wEng (j : Job) : State := { wV with engines := [eng j] }

theorem witness_copies : EngineActs (wEng (.copy [] [desc 0] false [])) 5 (eng (.copy [] [desc 0] false [])) ∧
    EngineActs (wEng (.copy [] [desc 0] true [(0, 1)])) 5 (eng (.copy [] [desc 0] true [(0, 1)])) ∧
    (let s := wEng (.copy [] [desc 0] true [(0, 1)])
     s.copyWaits (eng (.copy [] [desc 0] true [(0, 1)])) (desc 0) 1 = false ∧ s.choose 5 (chunkRest (copyTodo 0x8000 [desc 0]).length 1) = 0 ∧ 1 < padBase ∧ (s.gatherLine (eng (.copy [] [desc 0] true [(0, 1)])) (desc 0) 0x8000
      ((desc 0).sources 0x8000 1)).toOption.isSome = true ∧ (desc 0).toScratch = false ∧
      (s.engLoc (eng (.copy [] [desc 0] true [(0, 1)])) .store 128).toOption.isSome = true) ∧
    (let s := wEng (.copy [] [desc 16] true [(0, 0x101)])
     (desc 16).toScratch = true ∧ s.copyWaits (eng (.copy [] [desc 16] true [(0, 0x101)])) (desc 16) 0x101 = false ∧ (s.engCrew (eng (.copy [] [desc 16] true [(0, 0x101)]))).isSome = true ∧
      (s.gatherLine (eng (.copy [] [desc 16] true [(0, 0x101)])) (desc 16) 0x8000
        ((desc 16).sources 0x8000 0x101)).toOption.isSome = true ∧
      (s.reserveScratch 0 0 [0x101]).toOption.isSome = true) :=
  ⟨⟨by decide +kernel, by decide +kernel, by decide +kernel⟩, ⟨by decide +kernel, by decide +kernel, by decide +kernel⟩,
    by decide +kernel, by decide +kernel⟩

def jBld : Job := .bld 0 0 1 1 0 64 false 0

theorem witness_bld_row : EngineActs (wEng jBld) 5 (eng jBld) ∧ (wEng jBld).bldBlocked (eng jBld) 0 (slotsOf 0 1 1) = false ∧
    (∀ n < 1, (wEng jBld).vaWaits false (eng jBld) .load (0 + 0 * 64 + 64 * n) = false) ∧
    ((wEng jBld).bldBytes (eng jBld) false (0 + 0 * 64) (64 * 1)).toOption.isSome = true :=
  ⟨⟨by decide +kernel, by decide +kernel, by decide +kernel⟩, by decide +kernel, by decide +kernel, by decide +kernel⟩

theorem witness_completion : ∀ j ∈ [Job.copy [] [desc 0] true [], .bld 0 0 1 1 0 64 false 1, .goat 0 0 0 0 false none],
    (wEng j).dead = false ∧ (wEng j).engine? 5 = some (eng j) ∧ ((wEng j).engCrew (eng j)).isSome = true ∧
      ({ wEng j with crews := [] } : State).engCrew (eng j) = none := by decide +kernel

/-- The heap of `wH` with a list of one entry at IA 0x8000: an object of one line at 0x1000, to 0x2000; forwarding table of
64 slots at 0x4000. -/
def wG (j : Job) (size pins : Nat) : State :=
  { (wH.updCtx 0 fun c => (c.setReg (snHeapr + 2) 0x4000).setReg (snHeapr + 3) 64) with
    engines := [eng j]
    mem := ((wH.mem.write 0x28000 (leBytes 8 (mkRef 0 0x1000).toNat ++ leBytes 8 (mkRef 0 0x2000).toNat)).write 0x21000
      (leBytes 4 size)).write 0x21004 (leBytes 2 pins) }
def jG : Job := .goat 0 0x8000 1 0 false none
def cG : Context := ((wG jG 128 0).ctx? 0).getD (Context.reset 0)

theorem witness_claim : (wG jG 128 0).dead = false ∧ (wG jG 128 0).engine? 5 = some (eng jG) ∧
    (wG jG 128 0).ctx? 0 = some cG ∧ (wG jG 128 0).iaVal cG (goatStatus 0x8000 0) 8 ≠ 1 ∧
    ((wG jG 128 0).goatPlan cG .f 0x8000).isSome = true ∧ (wG jG 128 0).goatAt cG 5 0x1000 = false ∧
    (wG jG 128 0).objPins cG 0x1000 = 0 ∧ (wG jG 128 1).objPins cG 0x1000 ≠ 0 ∧
    (wG jG 128 0).forward? cG 0 0x1000 = none ∧ ((wG jG 128 0).freeSlot cG 0x4000 64 0x1000 0 64).isSome = true ∧
    (wG jG 0x100000 0).goatPlan cG .f 0x8000 = none ∧
    ∀ j ∈ [Job.goat 0 0x8000 1 0 true none, .goat 0 0x8000 1 0 true (some 0x420)],
      (wG j 0x100000 0).goatPlan cG .f 0x8000 = none ∧ (wG j 0x100000 0).engine? 5 = some (eng j) := by decide +kernel

/-- The object claimed: its forwarding entry MOVING, no line copied; then its line held; then its one line copied. -/
def wGC (h : Option Nat) (progress : Nat) : State :=
  let s := wG (.goat 0 0x8000 1 0 true h) 128 0
  { s with mem := s.mem.write (0x24000 + 32 * 32) (leBytes 8 0x1001 ++ leBytes 8 0x2000 ++ leBytes 4 progress ++ leBytes 4 1) }

theorem witness_hold : ((wGC none 0).ctx? 0 = some cG ∧ ((wGC none 0).goatPlan cG .f 0x8000).isSome = true) ∧
    ∃ f l, (wGC none 0).forward? cG 0 0x1000 = some f ∧ f.progress < f.lines ∧
      (wGC none 0).iaLoc cG (0x1000 + 128 * f.progress) = some l ∧ (wGC none 0).vers = [] ∧
      (wGC none 0).sb ++ (wGC none 0).rq = [] ∧ ∀ x ∈ (wGC none 0).engines, x.id = 5 :=
  ⟨by decide +kernel, ((wGC none 0).forward? cG 0 0x1000).get (by decide +kernel),
    ((wGC none 0).iaLoc cG 0x1000).get (by decide +kernel), (Option.some_get _).symm, by decide +kernel,
    by decide +kernel, by decide +kernel, by decide +kernel, by decide +kernel⟩

/-- The line with a store of its crew in the queue and a version of the crew, which can and cannot be checkpointed. -/
def wGV (busy : Bool) : State :=
  let s := { wGC none 0 with
    rq := [eSt 0 0x21000 (.store (leBytes 4 9) true false)]
    vers := [{ core := 0, slot := 0, site := { part := 0, slice := 0, pin := false }, way := 0, line := 0x420, bytes := [], bad := [], clean := [] }] }
  if busy then onK s fun k => { k with prods := [{ flock := 0, dest := .uni 0 4 false, val := 0, poison := false, pc := 0, src := .unit }] } else s
theorem witness_hold_drains : ∀ b ∈ [false, true], ((wGV b).ctx? 0).isSome = true ∧
    (match ((wGV b).passLine 0 0x420).drainLine 0 0x420 with
      | some t => (match t.commitHolders 0 0x420 with
        | some u => !b && (u.engine? 5).isSome
        | none => b && (match (wGV b).markDue (t.versionHolders 0 [0x420]) with
          | some u => (u.engine? 5).all fun x => !x.owned.contains 0x420
          | none => false))
      | none => false) = true := by decide +kernel

theorem witness_copy_line : ((wGC (some 0x420) 0).goatPlan cG .f 0x8000).isSome = true ∧ ((wGC (some 0x420) 0).forward? cG 0 0x1000).isSome = true ∧
    ((wGC (some 0x420) 0).iaLoc cG 0x1000).isSome = true ∧ ((wGC (some 0x420) 0).iaLoc cG 0x2000).isSome = true ∧
    ((wGC none 1).forward? cG 0 0x1000).any (fun f => decide (f.lines ≤ f.progress)) = true := by decide +kernel

/-! ### Witnesses: network, producers, units, collectives -/

/-- A fetch-and-add of a pod word at its first port; a second of the same word, a load of it, and one of another word. -/
def pReq (id ia : Nat) (op : PodOp) : PodReq :=
  { id := id, part := 0, ia := ia, size := 4, sx := false, op := op, e := 1, core := 0, slot := 0, flock := 0, lane := 0,
    fib := 0, tag := 0, pc := 0, at_ := wV.podPort ia 0, inp := id, came := 0 }

theorem witness_arrival : (pReq 1 0 (.rmw 0)).touches (pReq 2 0 (.rmw 0)) = true ∧
    (pReq 1 0 (.rmw 0)).sameWord (pReq 2 0 (.rmw 0)) = true ∧ (PodOp.rmw 0).combines (.rmw 0) = true ∧
    (pReq 1 0 (.rmw 0)).at_ = (pReq 2 0 (.rmw 0)).at_ ∧
    (pReq 1 0 (.rmw 0)).came ≠ ({ wV with clock := 1 } : State).clock ∧
    (pReq 2 0 (.rmw 0)).before (pReq 1 0 (.rmw 0)) false = false ∧ (PodOp.rmw 0).combines .store = false ∧ (pReq 1 0 (.rmw 0)).touches (pReq 2 4 (.rmw 0)) = false := by decide +kernel

theorem witness_network : wV.podLost 0 = false ∧ (wV.nextStage 0).isSome = true ∧ (∃ n, n < 8 ∧ wV.nextStage n = none) ∧
    (wV.prevStage 5).isSome = true ∧ (∃ n, n < 8 ∧ wV.prevStage n = none) := by decide +kernel

def prod (poison : Bool) (d : ProdDest) : Prod := { flock := 0, dest := d, val := 5, poison := poison, pc := 0, src := .unit }
def wProd (p : Prod) : State := onK wV fun k => { k with prods := [p] }

theorem witness_producer : ∀ p ∈ [prod false (.lane 0 4 false), prod true (.lane 0 4 false), prod true (.uni 0 4 false)],
    (wProd p).dead = false ∧ ((wProd p).crew? 0 0).any (fun k => k.prods[0]? == some p) = true ∧ p.src.isPod = false ∧
    ((prod true (.uni 0 4 false)).dest.trapLane).isSome = true ∧ (prod true (.lane 0 4 false)).dest.trapLane = none := by
  decide +kernel

def job0 : MatJob := { core := 0, slot := 0, flock := 0, lanes := [0], pc := 0, op := .zzero 0 }
def jobZ : MatJob := { core := 0, slot := 0, flock := 0, lanes := [0], pc := 0, op := .zld 0 0x8000 256 }
def wU (j : MatJob) (bad : Bool) : State :=
  (onK wM fun k => k.updLive fun c => { c with scrBad := if bad then [0x100] else [] }).onUnit 0 fun u => { u with queue := [j] }

theorem witness_unit : (wU job0 false).dead = false ∧ ((wU job0 false).unit 0).queue = [job0] ∧
    ((wU job0 false).crew? 0 0).any (fun k => !job0.op.readsBad ((wU job0 false).unit 0) k.live) = true ∧
    ((wU jobZ true).crew? 0 0).any (fun k => jobZ.op.readsBad ((wU jobZ true).unit 0) k.live) = true ∧
    (job0.op.writesScratch && (wU job0 false).loadReads job0) = false ∧
    ((wV.updCtx 0 fun c => { c with xlPend := [(3, 0, 0)] }).ctx? 0).any (fun c => c.xlPend == [(3, 0, 0)]) = true := by decide +kernel

/-- A sum over two members of 1,024 elements of 4 bytes from VA 0 to VA 0x2000: before its start, with the other's
contribution to come, with both in, and with every chunk written. -/
def blk : List Nat := [1 + 5 * 2 ^ 16, 0, 0, 0x2000, 1024, 1 + 2 ^ 8, 0, 0, 0, 0, 4096, 0, 0, 0, 0, 0]
def jC (started : Bool) (sp : Nat) (ins : List (Nat × List (Nat × Bool))) : Job := .coll blk 2 0 0 started sp ins false
def ones : List (Nat × Bool) := List.replicate 1024 (1, false)

/-- The same in a group of two whose other member is on package 0, this package being number 5. -/
def wCol (j : Job) : State := { (wEng j).updCtx 0 fun c => (c.setReg snGroup (2 * 2 ^ 32)).setReg (snGroup + 1) (2 ^ 63) with pkg := 5 }

theorem witness_coll_trigger : (wEng (jC false 0 [])).engine? 5 = some (eng (jC false 0 [])) ∧ 0 ≤ (wEng (jC false 0 [])).clock ∧
    (wEng (jC false 0 [])).collHeld 0 = false ∧
    (wEng (jC false 0 [])).vaWaits true (eng (jC false 0 [])) .load (cw blk 8) = false ∧
    ((wEng (jC false 0 [])).triggerVal (eng (jC false 0 [])) (cw blk 8)).toOption.isSome = true ∧
    (wEng (jC false 0 [])).vaWaits true (eng (jC false 0 [])) .load (2 ^ 32) = false ∧
    (match (wEng (jC false 0 [])).triggerVal (eng (jC false 0 [])) (2 ^ 32) with
      | .ok _ => false
      | .error _ => true) = true := by decide +kernel

/-- A contribution that agrees, and one whose root does not. -/
theorem witness_coll_contribution : (wCol (jC true 0 [])).engine? 5 = some (eng (jC true 0 [])) ∧
    (wCol (jC true 0 [])).collHeld 0 = false ∧ ones.length = givesCount blk 1 0 ∧ movesAny 2 = true ∧
    (wCol (jC true 0 [])).far (eng (jC true 0 [])) blk 1 = true ∧
    (wCol (jC true 0 [])).comesFrom (eng (jC true 0 [])) blk 0 1 (cw blk 0) (collRoot blk) (collCount blk) (cw blk 10) ones = true ∧
    (wCol (jC true 0 [])).comesFrom (eng (jC true 0 [])) blk 0 1 (cw blk 0) 9 (collCount blk) (cw blk 10) ones = true ∧
    9 ≠ collRoot blk := by decide +kernel

theorem witness_coll_done : (wEng (jC true 1 [(0, ones), (1, ones)])).collHeld 0 = false ∧ moving blk 2 0 ≤ 1 * chunkElems blk ∧
    allStarted 2 [(0, ones), (1, ones)] = true ∧ (wEng (jC true 1 [(0, ones), (1, ones)])).allGiven (eng (jC true 1 [(0, ones), (1, ones)])) blk 0 = true ∧
    (({ wEng (jC true 1 [(0, ones), (1, ones)]) with engines := [] } : State).flagWrite (eng (jC true 1 [(0, ones), (1, ones)])) blk
      false).2 = none := by decide +kernel

/-- A flag at an address without a page: the completion's fault. -/
theorem witness_coll_flag : (({ wEng (jC true 1 []) with engines := [] } : State).flagWrite (eng (jC true 1 []))
    ((blk.set 5 (2 + 2 ^ 8)).set 6 0x20000) true).2.isSome = true := by decide +kernel

/-- A chunk: the first sectors of the receive buffer. -/
def blk1 : List Nat := (blk.set 4 16).set 10 4096
def jChunk (b : List Nat) : Job := .coll b 2 0 0 true 0 [(0, ones), (1, ones)] false
theorem witness_coll_chunk : 0 * chunkElems blk1 < moving blk1 2 0 ∧ allStarted 2 [(0, ones), (1, ones)] = true ∧
    (wEng (jChunk blk1)).allGiven (eng (jChunk blk1)) blk1 0 = true ∧ sendsFinished blk1 = false ∧
    (wEng (jChunk blk1)).allFinished (eng (jChunk blk1)) blk1 2 [(0, ones), (1, ones)] = true ∧
    min (chunkElems blk1) (moving blk1 2 0 - 0) = 16 ∧
    (∀ sec ∈ chunkSectors blk1 0 16, (wEng (jChunk blk1)).vaWaits true (eng (jChunk blk1)) .store (64 * sec) = false) ∧
    ((wEng (jChunk blk1)).writeChunk (eng (jChunk blk1)) blk1 2 0 [(0, ones), (1, ones)] 0 16
      (chunkSectors blk1 0 16)).toOption.isSome = true := by decide +kernel

/-- The same in arrival mode: the finished elements have not been sent. -/
def blkA : List Nat := blk1.set 0 (1 + 5 * 2 ^ 16 + 2 ^ 24)
theorem witness_coll_finish : 0 * chunkElems blkA < moving blkA 2 0 ∧
    (wEng (jChunk blkA)).allGiven (eng (jChunk blkA)) blkA 0 = true ∧
    ¬(sendsFinished blkA = false ∨ ∃ p ∈ [(0, ones), (1, ones)], p.1 = finishedKey 2 0) := by decide +kernel

/-- The receive buffer in no range: a fault of the member's own memory; and a link's failure. -/
def blkX : List Nat := blk.set 3 0x20000
theorem witness_coll_fault : (∀ p ∈ ([] : List (Nat × List (Nat × Bool))), p.1 ≠ 1) ∧ movesAny 2 = true ∧
    (wEng (jChunk blkX)).running (eng (jChunk blkX)) blkX 2 [(0, ones), (1, ones)] = true ∧ ((wEng (.coll blkX 2 0 0 true 0 [(0, ones), (1, ones)] false)).bufferFault
    (eng (.coll blkX 2 0 0 true 0 [(0, ones), (1, ones)] false)) blkX 2 0).isSome = true ∧
    (failCause Cause.remoteUnavailable.code).isSome = true := by decide +kernel
/-! ### Witnesses: recovery, pre-emption, pages -/

def tr0 : Trap := { cause := .poisonRead, lanes := 1, addr := 0, pc := 4, code := 0, flock := 0, eng := false }
def rec0 : TrapRec :=
  { trap := tr0, order := 0, ckptn := 0, held := false, pre := false, halt := false, queued := false, retryAt := 0 }
def hasK (s : State) (p : Crew → Bool) : Bool := s.dead == false && (s.crew? 0 0).any p

theorem witness_recovery :
    hasK (onK wV fun k => { k with ckptDue := true }) (fun k => k.ckptDue && !k.between && k.susp.isNone &&
      (onK wV fun k => { k with ckptDue := true }).ckptReady k) = true ∧
    hasK (onK wV fun k => { k with heldTrap := some tr0 }) (fun k => k.heldTrap == some tr0 && !k.between && k.susp.isNone) ∧
    hasK wV (fun k => !k.ending) ∧ hasK (onK wV fun k => { k with susp := some rec0 }) (fun k => k.susp == some rec0 && !rec0.queued &&
      decide (rec0.retryAt ≤ wV.clock)) ∧
    hasK (onK wV fun k => { k with timer := 2 ^ 40 }) (fun k => (wV.ctx? k.part).any (fun c => decide (c.intervalLen ≤ k.timer))
      && !k.between && !k.halted && k.susp.isNone && wV.ckptReady k) ∧
    hasK (onK (wProd (prod false (.lane 0 4 false))) fun k => { k with timer := 2 ^ 40 }) (fun k =>
      (wV.ctx? k.part).any (fun c => decide (c.intervalLen ≤ k.timer)) && !k.between && !k.halted && k.susp.isNone &&
      !k.ckptDue && !wV.ckptReady k) := by decide +kernel

theorem witness_debug : hasK wV (fun k => k.susp.isNone && !k.halted) ∧
    hasK (onK wV fun k => { k with halted := true }) (fun k => k.susp.isNone && k.halted && !k.stepPend) := by decide +kernel

/-- A partition whose quantum has run out; a crew that must give way; one that has given way. -/
def wQx : State := wV.updCtx 0 fun c => { c with quantum := 2 ^ 16, quantumAt := 0 }
def wLate : State := { wQx with clock := 2 ^ 16 }
def wGive : State := onK wV fun k => { k with preDue := true }
def wAway : State := wGive.lodgeCrew 0 0
/-- The lines that its spills write, none here, are clear. -/
theorem witness_lodges : ∃ t, Claims.Lodges (wGive.crews.filter fun k => k.part == 0 && wGive.lodgeable k) wGive t := by
  have h : (wGive.crews.filter fun k => k.part == 0 && wGive.lodgeable k) = [(wGive.crews).head (by decide +kernel)] := by
    decide +kernel
  rw [h]
  exact ⟨_, _, okOf (Option.some_get (by decide +kernel)).symm, rfl⟩

theorem witness_preemption : (wLate.ctx? 0).any (fun c => !c.preempting && c.quantumLen != 0 &&
      decide (c.quantumAt + c.quantumLen ≤ wLate.clock)) = true ∧
    (∃ k ∈ wV.crews, (k.core, k.slot) ∈ [(0, 0)]) ∧ (∃ k ∈ wGive.crews, k.part = 0 ∧ wGive.lodgeable k = true) := by decide +kernel

theorem witness_resume : wAway.dead = false ∧ (∀ k ∈ wAway.crews, k.part = 0 → wAway.lodgeable k = false) ∧
    (wAway.ctx? 0).any (fun c => !c.waiting.isEmpty &&
      ((wAway.clearArea (c.waiting.flatMap fun k => wAway.resumeTo k) none).toOption.any fun s0 =>
        ((((s0.unparkAll 0 c.waiting.length).reloadSome c.waiting).ctx? 0).map (·.waiting.length)).getD 0 != c.waiting.length)) = true := by
  decide +kernel

/-- Page 1 of the partition in CXL memory at its first 64 KiB, compressed or not, used `n` times; a free frame 3. -/
def wFar (ct : Bool) (n : Nat) (es : List Engine) : State :=
  { (wV.updCtx 0 fun c => { c with cxlGrants := [(0, 2 ^ 50, 2 ^ 50 + 2 ^ 20)], frames := [1, 2, 3, 4], freeFrames := [3], poolFrames := [4] }) with
    mem := wV.mem.write 0x13008 (leBytes 8 (2 ^ 50 + 0x3F + if ct then 2 ^ 13 else 0))
    hits := [(1, n)]
    engines := es }
/-- Its migration to frame 3, at a line. -/
def mig (next : Nat) : Engine := { eng (.migrate 0x10000 (2 ^ 50) 0x30000 next) with slot := 16, nb := none }

theorem witness_migration_start : ((wFar false 300 []).ctx? 0).any (fun c => ((wFar false 300 []).walk c 65536).any fun p =>
    p.2 == 3 && ((wFar false 300 []).migration? 0 65536).isNone && bits (leafPa p.1 p.2 65536) 51 50 == 1 &&
    !(wFar false 300 []).engineRefuses p.1 .store && !(wFar false 300 []).lostPa (2 ^ 50) && decide ((if (wFar false 300 []).policy.migThreshold = 0 then 256 else max 16 (min 65536 (wFar false 300 []).policy.migThreshold)) < 300) &&
    (wFar false 300 []).pageHits c.part 65536 65536 == 300 &&
    frameRun ((wFar false 300 []).planFrames c p.1 c.freeFrames) 1 == some 3) = true := by decide +kernel

theorem witness_migration_line :
    (((wFar false 300 [mig 512]).ctx? 0).any fun c => ((wFar false 300 [mig 512]).walk c 65536).any fun p =>
      (wFar false 300 [mig 512]).migration? 0 65536 == some (mig 512, 0x10000, 2 ^ 50, 0x30000, 512) && p == (2 ^ 50 + 0x3F, 3)) = true ∧
    (((wFar false 300 [mig 7]).ctx? 0).any fun c => ((wFar false 300 [mig 7]).walk c 65536).any fun p =>
      (wFar false 300 [mig 7]).migration? 0 65536 == some (mig 7, 0x10000, 2 ^ 50, 0x30000, 7) && p.2 == 3) = true ∧
    (let s := wFar false 300 [mig 7]
     s.engineRefuses (2 ^ 50 + 0x3F) .store = false ∧ s.lostPa (2 ^ 50) = false ∧ s.sectorError (2 ^ 44 + 14) .clean = some s ∧
     (∀ x ∈ s.engines, x.id = (mig 7).id) ∧ s.sb ++ s.rq = [] ∧ s.vers = [] ∧
     s.locWaits (pageLoc 0 (2 ^ 50 + 0x3F) 3 (2 ^ 50) 7) = false ∧ s.locWaits (pageLoc 0 (2 ^ 50 + 0x3F) 3 0x30000 7) = false ∧
     s.fromCopy (2 ^ 44 + 14) = none) ∧
    ({ wFar false 300 [mig 7] with lost := [Link.cxl 0] } : State).lostPa (2 ^ 50) = true := by
  decide +kernel

/-- All lines of the page move. -/
theorem wFar_moves (ct : Bool) (n : Nat) (es : List Engine) (h : ∀ x ∈ es, x.owned = []) (part e level old new k : Nat) :
    ∃ t, (wFar ct n es).moveLines part e level old new k = some t := by
  obtain ⟨t, ht, _⟩ := moveLines_isSome (s := wFar ct n es) part e level old new (by rfl) (by rfl) (by rfl) h k
  exact ⟨t, ht⟩

theorem witness_migration_end : ∃ t, (wFar false 300 [mig 512]).moveLines 0 (2 ^ 50 + 0x3F) 3 (2 ^ 50) 0x30000 512 = some t :=
  wFar_moves _ _ _ (by decide +kernel) ..

theorem witness_expansion : ((wFar true 1 []).ctx? 0).any (fun c => ((wFar true 1 []).walk c 65536).any fun p =>
    p == (2 ^ 50 + 0x203F, 3) && leafCT p.1 && leafPa p.1 p.2 65536 == 2 ^ 50 && (wFar true 1 []).pageHits 0 65536 65536 == 1 &&
    !(wFar true 1 []).lostPa (2 ^ 50) && frameRun ((wFar true 1 []).planFrames c p.1 c.poolFrames) 1 == some 4 && frameRun ((wFar true 1 []).planFrames c p.1 []) 1 == none) =
      true ∧
    ∃ t, (wFar true 1 []).moveLines 0 (2 ^ 50 + 0x203F) 3 (2 ^ 50) 0x40000 512 = some t :=
  ⟨by decide +kernel, wFar_moves _ _ _ (by decide +kernel) ..⟩

/-- A halt of a suspended crew whose record has a place in memory, and none. -/
theorem witness_halt_suspended : ∀ area ∈ [0, 64],
    hasK (onK wV fun k => { k with susp := some rec0, trapArea := area }) (fun k => k.susp == some rec0 && !k.haltPend &&
      ((onK wV fun k => { k with susp := some { rec0 with halt := true }, trapArea := area }).writeRecord
        { k with susp := some { rec0 with halt := true } } { rec0 with halt := true }).isSome == (area != 0)) = true := by
  decide +kernel

/-- The first line of the page to be moved, with a version of a crew that can and cannot be checkpointed. -/
def wMigV (busy : Bool) (next : Nat) : State :=
  let s := { wFar false 300 [mig next] with
    vers := [{ core := 0, slot := 0, site := { part := 0, slice := 0, pin := false }, way := 0, line := 2 ^ 43, bytes := [], bad := [], clean := [] }] }
  if busy then onK s fun k => { k with prods := [{ flock := 0, dest := .uni 0 4 false, val := 0, poison := false, pc := 0, src := .unit }] } else s

theorem witness_migration_drains : (((wMigV false 0).passLine 0 (2 ^ 43)).drainLine 0 (2 ^ 43)).any (fun t =>
    (t.commitHolders 0 (2 ^ 43)).any fun u => (u.engine? (mig 0).id).isSome) = true := by decide +kernel

theorem witness_migration_asks : ((wMigV true 512).moveLines 0 (2 ^ 50 + 0x3F) 3 (2 ^ 50) 0x30000 512).isNone = true ∧
    ((wMigV true 512).askHolders 0 (2 ^ 50) 65536).isSome = true := by decide +kernel
/-! ### Witnesses: scheduling, errors, the host -/

/-- The launch of `wV` not yet dispatched, its crew's place free; a queue and a team that have waited. -/
def wDisp : State :=
  { wV with crews := [], ctxs := wV.ctxs.map fun c => { c with launches := [{ bootLaunch with dispatched := [] }] } }
def lDisp : Launch := { bootLaunch with dispatched := [] }
def wWait : State :=
  { (wDisp.updCtx 0 fun c => { c.setLq 0 { since := some 0, raised := 0 } with
      teams := [{ queue := 0, key := 1, team := 0, since := 0, herd := none }] }) with clock := 2 ^ 30 }

theorem witness_dispatch : wDisp.dead = false ∧ (wDisp.ctx? 0).any (fun c => !c.preempting && c.waiting.isEmpty &&
    (wDisp.headPlaced (wDisp.reserveDue (c.aged wDisp.clock)) 0).isSome) = true := by decide +kernel

theorem witness_queue_waits : (wWait.ctx? 0).any (fun c => (c.lq 0).since == some 0 && decide (c.lqPrio 0 + (c.lq 0).raised < 7) &&
    decide (0 + c.lqAge 0 * ((c.lq 0).raised + 1) ≤ wWait.clock) && c.teams.length == 1 && c.reserved.isEmpty &&
    (c.launch? 1).any fun l => (c.entryOf l).isSome) = true ∧ 0 ∈ wWait.herdsOf 0 := by decide +kernel

/-- The crew without fibres, before the first and before the second part of its end. -/
def wOver (ending : Bool) : State := onK wV fun k => { (k.updLive fun c => { c with flocks := [] }) with ending := ending }

theorem witness_crew_end : ∀ e ∈ [true, false], hasK (wOver e) (fun k => k.finished && k.susp.isNone && k.prods.isEmpty &&
    (wOver e).ckptDrained k && !(wOver e).loading k && k.ending == e) = true ∧ (wOver e).sb ++ (wOver e).rq = [] := by
  decide +kernel

/-- One that was aborted while it was pre-empted. -/
def wGone : State := { ((wV.updCtx 0 fun c => { c with parked := wV.crews.map fun (k : Crew) => { k.aborted with ending := true } })) with crews := [] }
theorem witness_parked_end : wGone.dead = false ∧ wGone.crew? 0 0 = none ∧
    (wGone.allCrews.filter fun j => j.core == 0 && j.slot == 0 && j.ending).length = 1 ∧ wGone.sb ++ wGone.rq = [] := by decide +kernel

def bin0 (due : Bool) : Bin := { entry := 0, thr := 2, tmr := 1, since := 0, due := due, pending := [[7]], held := false }
def wBin (due : Bool) : State :=
  { (onK wV fun k => k.updLive fun c => { c with bins := [bin0 due] }) with clock := 1 }

theorem witness_bins : hasK (wBin false) (fun k => k.live.bins[0]? == some (bin0 false)) ∧
    (bin0 false).since + max 1 (bin0 false).tmr ≤ (wBin false).clock ∧
    (hasK (wBin true) fun k => k.live.bins[0]? == some (bin0 true) && k.running &&
      ((wBin true).entryAt k.part 0).any fun e => ((wBin true).pickQuad k.part 0 (some 0) (e.roles.headD .vector) []).any fun p =>
        ((wBin true).formFlock 0 0 p.1 (p.2.take (min p.2.length 1)) (e.roles.headD .vector) e.budget 0 []
          ([[7]].take (min p.2.length 1))).isSome) = true := by decide +kernel

def wTime (w : Wait) : State := { onB wV fun b => { b with wait := w } with clock := 2000 }

theorem witness_waits_end : ∀ w ∈ [Wait.rcv 0x8000 1 0, .sleep 3 .none 1 0, .qwait 3 l0 false 1 0 1024 0, .yield 1],
    (wTime w).dead = false ∧ ((wTime w).find wr).any (fun i => i.batch.wait == w) = true ∧
    ((wTime w).qdesc l0).used ≤ 0 ∧
    0 < (({ wTime w with mem := (wTime w).mem.write 0x20008 [1] } : State).qdesc l0).used := by decide +kernel

/-- Two tokens that stand unused at herd 3 and at herd 7 of die 0. -/
def hold (h : Nat) : TokenHold := { herd := h, start := none, last := 0 }
theorem witness_tokens :
    (let s : State := { wV with holds := [hold 3] }
     s.holds = [] ++ hold 3 :: [] ∧ s.tokensOut 0 ≤ s.tokenCount 0) ∧
    (let s : State := { wV with holds := [hold 3, hold 7] }
     s.holds = [hold 3] ++ hold 7 :: [] ∧ s.tokenCount 0 < s.tokensOut 0 ∧ (∀ d ∈ [hold 3], d.herd ≠ 7)) ∧
    wV.tokenReady 3 = false ∧ wV.tokenReady 7 = false ∧ wV.tokenReady 0 = false ∧ wV.holds = [] ∧ wV.tokensOut 0 < wV.tokenCount 0 := by decide +kernel

theorem witness_errors : wL.dead = false ∧ wL.homeSector? 0 0x800 = some homeL ∧ homeL.isDirty 0x800 = true ∧
    wL.homeSector? 0 0x801 = some homeL ∧ homeL.isDirty 0x801 = false ∧
    wL.copy? 0 0 0x400 = some copyL ∧ copyL.pinned = false ∧
    ({ wL with l1 := [{ copyL with pinned := true }] } : State).copy? 0 0 0x400 = some { copyL with pinned := true } := by
  decide +kernel

theorem witness_rebuild : inHbm 0x800 = true ∧ (∀ x ∈ parityOf 0x800 :: parityGroup 0x800, wL.sectorBad x = false) ∧ wL.fromCopy 0x800 = none ∧
    ({ wL with clean := [{ part := 0, old := 0x100000, new := 0x20000, size := 65536 }] } : State).fromCopy 0x801 =
      some (List.replicate 64 0) :=
  ⟨by decide +kernel, fun _ _ => rfl, by decide +kernel, by decide +kernel⟩

theorem witness_crew_errors : hasK wV (fun k => decide (k.base ≤ 0x8000) && decide (0x8000 < k.limit) &&
      (k.flock? 0).any fun f => (f.fibre? 0).any fun x =>
        ((k.saved.flocks.find? fun g => g.num == 0).bind fun g => g.fibre? 0).map (fun y => y.reg 4) == some (x.reg 4) &&
        spGet 0 k.undo f.quad == 0) = true ∧
    ({ wV with vers := [{ core := 0, slot := 0, site := { part := 0, slice := 0, pin := false }, way := 0, line := 0x400, bytes := [], bad := [], clean := [] }] } :
      State).version? 0 0 0x400 ≠ none := by decide +kernel

theorem witness_unit_error : (wM.unit 0).shTiles = [] ∧ (wM.unit 0).holder = some (0, 0) ∧
    (let s := wM.onUnit 0 fun u => { u with shTiles := [(0, Tile.free)] }
     (∃ p ∈ (s.unit 0).shTiles, p.1 = 0) ∧ (s.unit 0).holder = some (0, 0) ∧ (s.crew? 0 0).any (·.between) = false) := by
  decide +kernel

/-- A register that the interval has changed, and every kind of register as at the checkpoint; scale banks with a shadow. -/
theorem witness_register_errors : hasK (onX wV fun x => x.put 4 false 7) (fun k => !k.between && (k.flock? 0).any fun f =>
      (f.fibre? 0).any fun x => ((k.saved.flocks.find? fun g => g.num == 0).bind fun g => g.fibre? 0).map (fun y => y.reg 4) !=
        some (x.reg 4)) = true ∧
    hasK wV (fun k => (k.flock? 0).any fun f => spGet 0 k.undo f.quad == 0 && (f.fibre? 0).any fun x =>
      (k.saved.flocks.find? fun g => g.num == 0).any fun g => g.kreg 3 == f.kreg 3 && g.qpred 3 == f.qpred 3 &&
        g.kBad.contains 3 == f.kBad.contains 3 && g.qBad.contains 3 == f.qBad.contains 3 &&
        (g.fibre? 0).any fun y => y.pred 3 == x.pred 3 && y.h 3 == x.h 3 && y.pBad.contains 3 == x.pBad.contains 3 &&
          y.hBad.contains 3 == x.hBad.contains 3) = true ∧
    (let s := wM.onUnit 0 fun u => { u with shBanks := some { sa := u.sa, sb := u.sb, saBad := false, sbBad := false } }
     (s.unit 0).shBanks.isSome = true ∧ (s.unit 0).holder = some (0, 0)) ∧ (wM.unit 0).shBanks = none := by
  decide +kernel

/-- A pass that is due; one in progress, in the sectors with addresses and in the parity. -/
def wScrub (clock next : Nat) : State :=
  ({ wV with clock := clock }).setHen 3 { start := 0, next := next, step := 0, quarter := 0 }

theorem witness_scrub_rebuild : wV.fromCopy (3 * 2 ^ 31 + 5) = none ∧
    (∀ x ∈ parityOf (3 * 2 ^ 31 + 5) :: parityGroup (3 * 2 ^ 31 + 5), wV.sectorBad x = false) ∧
    (∀ x ∈ parityData 3 0, wV.sectorBad x = false) ∧ (∀ l ∈ (wScrub 0 5).henLimit 3, 0 < l) ∧
    ({ wScrub 0 5 with clean := [{ part := 0, old := 0x100000, new := 3 * 2 ^ 37, size := 65536 }] } : State).fromCopy (3 * 2 ^ 31 + 5) ≠ none :=
  ⟨by decide +kernel, fun _ _ => rfl, fun _ _ => rfl, by decide +kernel, by decide +kernel⟩

theorem witness_scrub : ((wScrub (2 ^ 48) 0).hen 3).start + (wScrub (2 ^ 48) 0).scrubPeriod 3 ≤ (wScrub (2 ^ 48) 0).clock ∧
    3 ∉ wV.fence.hbm ∧ ((wScrub 0 5).hen 3).next < stackSectors ∧ stackSectors ≤ ((wScrub 0 stackSectors).hen 3).next ∧
    ((wScrub 0 stackSectors).hen 3).next < allSectors ∧
    1 * (wScrub (2 ^ 48) 0).scrubPeriod 3 ≤ 4 * ((wScrub (2 ^ 48) 0).clock - 0) := by decide +kernel

/-- Two contexts whose ways a group's counts move: free ways in the group, and none. -/
def wWays (n beyond held : Nat) : State :=
  { wV with
    shHits := [(shadowHits 0 0 (n + 1), beyond), (shadowHits 0 1 2, held)]
    clock := 2 ^ 20
    ctxs := [bootCtx, { Context.reset 1 with sys := [] }]
    slWays := (List.range n).map (fun w => (w, 1)) ++ [(n, 2), (n + 1, 2)] }
theorem witness_ways : spGet 0 (wWays 1 9 1).wayAt 0 < (wWays 1 9 1).clock / 2 ^ 20 ∧ (wWays 1 0 1).wayReceiver 0 = none ∧
    (wWays 1 9 1).wayReceiver 0 = some (0, 9) ∧ ((wWays 1 9 1).freeWays 0)[0 % ((wWays 1 9 1).freeWays 0).length]? = some 3 ∧
    (wWays 14 9 1).wayReceiver 0 = some (0, 9) ∧ (wWays 14 9 1).freeWays 0 = [] ∧
    (wWays 14 9 1).wayDonor 0 0 = some (1, 1) ∧ (wWays 14 9 1).movableWay 1 0 = some 15 ∧
    (wWays 14 9 9).wayReceiver 0 = some (0, 9) ∧ (wWays 14 9 9).wayDonor 0 0 = some (1, 9) := by
  decide +kernel

theorem witness_links : ∃ l l2 : Link, l ∉ wV.down ∧ l ∉ wV.lost ∧
    (let s : State := { wV with down := [l], lost := [l, l2] }; l2 ∈ s.lost ∧ l2 ∉ s.down ∧ l ∈ s.down) :=
  ⟨.cxl 0, .pod 1, by decide +kernel⟩

theorem witness_timeout : Link.cxl 0 ∉ wV.lost ∧
    (let s : State := { wV with linkWait := [{ ePool with born := 5 }], clock := 10 ^ 7 }
     ∃ b ∈ s.sentOn (.cxl 0), b + s.policy.timeout (.cxl 0) ≤ s.clock) := by decide +kernel

/-- Posted writes of two functions. -/
def wPosted : State := { wV with posted := [{ fn := 2, bytes := [] }, { fn := 1, bytes := [(0x20000, 7)] }] }
theorem witness_posted : wPosted.posted = [{ fn := 2, bytes := [] }] ++ { fn := 1, bytes := [(0x20000, 7)] } :: [] ∧
    wPosted.hostWaits 1 [0x20000] = false ∧ (wPosted.completePosted 1 wPosted.posted.length).isSome = true := by decide +kernel

/-- The window slice of a context, a ring with a slot to take, a flush that runs, a feature word that a launch has locked. -/
def wHost : State := (wV.updCtx 0 fun c => { c with winBase := 0x100, winSize := 64 }).setFn 1 { HostFn.reset with
  ltail := 1, busy := true, lock := true }

theorem witness_host : wHost.dead = false ∧ wHost.windowSpan 0 = some (0x100, 64) ∧ wHost.windowSpan 16 = some (0, 2 ^ 23) ∧
    (∀ k, k < 4 → wHost.rowWaits (fnContext 0) (sectorOf (0x20000 + k)) = false) ∧
    (wHost.bar4Bytes 0 0x20000 .load 4).isSome = true ∧ wHost.bar4Bytes 0 (2 ^ 49) .load 4 = none ∧
    wHost.posted = [] ∧ wHost.ahead = [] ∧ (wHost.completePosted 1 0).isSome = true ∧ (wHost.fn 1).lhead ≠ (wHost.fn 1).ltail ∧ (wHost.fn 1).busy = true ∧ (wHost.fn 1).lock = true ∧
    (wHost.fn 2).lock = false := by decide +kernel

/-- A launch record that is refused, and one that is accepted: entry 0 of `image0`, one crew, level T, no node. -/
theorem witness_slot_refused : (wHost.checkLaunch (portContext 1) (portLevel 1) ((wHost.fn 1).record wHost.fresh 0)).toOption = none := by
  decide +kernel

def wLaunch : State := wV.setFn 1 { HostFn.reset with ltail := 1, accept := 1, lrec := [(1, 0x0100000000000001), (2, 0xFFFFFFFF00000001)] }

theorem witness_slot_accepted : (wLaunch.checkLaunch 0 .t ((wLaunch.fn 1).record wLaunch.fresh 0)).toOption.isSome = true ∧
    (wLaunch.ctx? 0).any (fun c =>
      (wLaunch.iaLines c ((wLaunch.fn 1).record wLaunch.fresh 0).invBase ((wLaunch.fn 1).record wLaunch.fresh 0).invLen).all fun ln => !wLaunch.owned 0 ln) = true ∧
    portContext 1 = 0 ∧ portLevel 1 = .t := by
  decide +kernel

/-- A record in the ring whose invalidation waits for an engine, LSTAT.V set; a window slice that may stand and one that may not; a frame
to assign and one that a context has. -/
def wInv : State :=
  let h : HostFn := { wLaunch.fn 1 with lrec := (wLaunch.fn 1).lrec ++ [(6, 0), (7, 128)], lstat := [(0, BitVec.ofNat 64 (2 ^ 63))] }
  { wLaunch.setFn 1 h with engines := [{ eng (.copy [] [] true []) with owned := [0x400] }] }
theorem witness_slot_waits : (wInv.fn 1).lhead ≠ (wInv.fn 1).ltail ∧ 2 ^ 63 ≤ (spGet 0 (wInv.fn 1).lstat (wInv.fn 1).lhead).toNat ∧
    (wInv.checkLaunch 0 .t ((wInv.fn 1).record wInv.fresh 0)).toOption.isSome = true ∧
    (wInv.ctx? 0).any (fun c => (wInv.iaLines c ((wInv.fn 1).record wInv.fresh 0).invBase ((wInv.fn 1).record wInv.fresh 0).invLen).any
      (wInv.owned 0)) = true := by decide +kernel

theorem witness_registers : (wV.ctx? 0).any (fun c => wV.windowOk 0 0x20000 c.winSize && !wV.windowOk 0 1 c.winSize &&
      wV.windowOk 0 c.winBase 0x10000 && !wV.windowOk 0 c.winBase 1) = true ∧ wV.inPlan 7 = true ∧ wV.inPlan (2 ^ 25) = false ∧
    ∀ d ∈ wV.ctxs, 7 ∉ d.frames := by decide +kernel

/-- A frame of a context that no request is for; one that a store is for; one of whose lines a crew holds a version. -/
def wFrame : State := wV.updCtx 0 fun c => { c with frames := [2] }
theorem witness_frames : (wFrame.ctx? 0).any (fun c => c.frames.contains 2) = true ∧ wFrame.frameBusy 0 2 = false ∧
    wFrame.vers = [] ∧ ({ wFrame with rq := [eSt 0 0x20000 st4] } : State).frameBusy 0 2 = true ∧
    (let s : State := { wFrame with
       vers := [{ core := 0, slot := 0, site := { part := 0, slice := 0, pin := false }, way := 0, line := 0x400, bytes := [],
                  bad := [], clean := [] }] }
     s.vers.any (fun w => w.site.part == 0 && inFrame 2 (128 * w.line)) = true ∧ (s.askHolders 0 (65536 * 2) 65536).isSome = true) := by
  decide +kernel

theorem witness_contexts : wV.ctx? 1 = none ∧ (1 : Nat) < 16 ∧
    (let s : State := { wV with crews := [] }
     (s.ctx? 0).any (fun c => (s.clearQuads ((List.range 2048).filter c.owns)).toOption.isSome) = true ∧
      (∀ k ∈ s.crews, k.part ≠ 0) ∧ (∀ e ∈ s.engines, e.part ≠ 0) ∧ s.sb ++ s.rq ++ s.linkWait = [] ∧ s.posted = [] ∧
      (s.ctx? 0).any (fun c => c.frames.all fun f => !s.frameBusy 0 f) = true) := by decide +kernel

/-- Quadrant 1 to be gained, quadrant 0 to be given up, quadrant 0 to go to another context. -/
def wHand (gs : List Nat) : State := ({ wV with crews := [] } : State).updCtx 0 fun c => { c with handover := gs }
def wOther : State :=
  let s := wHand []
  { s with ctxs := s.ctxs ++ [{ Context.reset 1 with handover := [0] }] }

theorem witness_handover :
    (wHand [1]).ctxs.any (fun c => c.handover.contains 1) = true ∧ (wHand [1]).ctxs.length = 1 ∧
    (wHand [1]).ctxs.find? (fun d => d.owns 1) = none ∧ ((wHand [1]).clearQuads [1]).toOption.isSome = true ∧
    (wHand [0]).ctxs.all (fun c => c.handover.contains 0 && c.owns 0 && c.part == 0) = true ∧
    ((wHand [0]).ctxs.find? (fun d => d.owns 0)).any (fun d => d.part == 0) = true ∧ (wHand [0]).quadLives 0 = false ∧
    ((wHand [0]).clearQuads [0]).toOption.isSome = true ∧
    wOther.ctxs.any (fun c => c.handover.contains 0 && c.part == 1 && !c.owns 0) = true ∧
    (wOther.ctxs.filter fun c => c.handover.contains 0).length = 1 ∧ (wOther.clearQuads [0]).toOption.isSome = true ∧
    (wOther.ctxs.find? (fun d => d.owns 0)).any (fun d => d.part == 0) = true ∧ wOther.quadLives 0 = false := by decide +kernel

/-- A package at its critical limit for 100 ms; an image that is too short to be signed. -/
def wHot : State := { wV with alarm := true, alarmAt := 0, clock := 170000000 }
theorem witness_power : wHot.dead = false ∧ wHot.alarmAt + 170000000 ≤ wHot.clock ∧ wV.alarm = false ∧
    wV.firmwareOk [] = false ∧ (leBytes 32 0).length = 32 := by decide +kernel

/-- Whether an image is signed is the package's secret: one that is accepted exists if the verification accepts any. -/
theorem witness_signed (f : List Byte) (h : Config.mlDsaVerify Config.rootKey (Config.sha3 (f.take (f.length - 4627)))
    (BitVec.ofNat 37016 (leVal (f.drop (f.length - 4627)))) = true) (hl : 4627 ≤ f.length) : wV.firmwareOk f = true := by
  have h0 : wV.policy.fwMin = 0 := by decide +kernel
  simp [State.firmwareOk, h, hl, h0]

/-- A binary with a header and nothing else, and the request to load it. -/
def file0 : List Byte := leBytes 8 0x131424753 ++ leBytes 8 0 ++ leBytes 8 128 ++ leBytes 104 0
def req0 : LoadReq := { fibres := none, params := [], blocks := [] }

theorem witness_binary : (wV.ctx? 0).any (fun c => (wV.readBinary c file0 req0).any fun b => (wV.placeBinary 0 file0 b).isSome)
      = true ∧ (wV.ctx? 0).any (fun c => (wV.readBinary c [] req0).isNone) = true ∧
    (let s := wV.updCtx 0 fun c => { c with launches := [] }
     (s.ctx? 0).any (fun c => (c.images.find? fun m => m.id == 0) == some image0 && c.launches.isEmpty) = true) := by
  decide +kernel
/-! ### Witnesses: guards, operands, traps, steps -/

/-- GuardsAndRolesComeFirst: an instruction whose guard is false in both sets, and one of another role. -/
theorem witness_guards : wV.dead = false ∧ iV.batch.phase = 0 ∧ iV.batch.wait ≠ .tbarOut ∧
    acts iV (.iadd { fm 1 2 3 with gn := true }) { fm 1 2 3 with gn := true } = false ∧
    acts iV (.uadd { fm 1 2 3 with gn := true }) { fm 1 2 3 with gn := true } = false ∧
    acts iV (.zzero (fm 1 0 0)) (fm 1 0 0) = true ∧ iV.pipeHeld = false ∧ mayIssue iV.flock.role (Instr.zzero (fm 1 0 0)).opcode = false := by
  decide +kernel

/-- OperandAndPrivilegeChecks: v20 outside a window of 16; v2 poisoned; v2 empty. -/
def wSmall : State := onX wV fun x => { x with budget := 16 }
def wBad : State := onX wV fun x => x.markPoison 2
def wEmpty : State := onX wV fun x => x.markEmpty 2
def tk (s : State) (x : Form) (p : Fibre → Bool) : Bool := match (issOf s).takers x with
  | [f] => p f
  | _ => false

theorem witness_operands :
    tk wSmall (fm 1 20 0) (fun f => decide (f.budget ≤ 20) && f.writable 1) = true ∧
    tk wBad (fm 1 2 0) (fun f => decide (2 < f.budget) && f.writable 1 && (f.reg 2).poison) = true ∧
    tk wEmpty (fm 1 2 0) (fun f => decide (2 < f.budget) && f.writable 1 && !(f.reg 2).poison && !(f.reg 2).full) = true :=
  ⟨by decide +kernel, by decide +kernel, by decide +kernel⟩

theorem witness_operands_run : LaneRuns wSmall (issOf wSmall) (fm 1 20 0) ∧ LaneRuns wBad (issOf wBad) (fm 1 2 0) ∧
    LaneRuns wEmpty (issOf wEmpty) (fm 1 2 0) :=
  ⟨lane (by decide +kernel), lane (by decide +kernel), lane (by decide +kernel)⟩

/-- A crew of level U: SYS_PTROOT takes level T to read and to write. -/
def wU0 : State := onK wV fun k => { k with level := .u }
def xPt : Form := { fm 2 0 4 with imm := some (BitVec.ofNat 27 snPtroot) }

theorem witness_privilege : UniRuns wU0 (issOf wU0) xPt .any ∧ (issOf wU0).batch.phase = 0 ∧ (issOf wU0).crew.level ≠ .f ∧
    (issOf wU0).free [(2, true)] = true ∧ (issOf wU0).free [(4, true)] = true ∧
    sysRights (sysNumber xPt (issOf wU0) false xPt.an) = some (.level .t, .level .t) ∧ (issOf wU0).atLeast .t = false :=
  ⟨uni (by decide +kernel), by decide +kernel, by decide +kernel, by decide +kernel, by decide +kernel, by decide +kernel,
    by decide +kernel⟩

/-- HALT and ERET, at level U. -/
theorem witness_levels : UniRuns wU0 (issOf wU0) (fm 1 2 4) .any ∧ (issOf wU0).crew.level = .u := ⟨uni (by decide +kernel), by decide +kernel⟩

/-- TrapsRollBackAndSuspend: a crew outside and inside a pair of checkpoints. -/
theorem witness_trap_taken : (wV.crew? 0 0).any (fun k => !k.between && k.heldTrap.isNone && !k.ending && k.susp.isNone && k.trapArea == 0 &&
      k.saved.flocks.all fun f => f.batches.all fun b => b.wait != .tbar) = true ∧ wV.engines = [] ∧
    ((onK wV fun k => { k with between := true }).crew? 0 0).any (fun k => k.between) = true := by decide +kernel

/-- ShiftsGiveTheirValues, DivisionAndRemainder and FirstNanIsReturned. -/
theorem witness_two_sources : LaneRuns wV iV (fm 2 2 4) ∧ ready2 (fm 2 2 4) iV ∧ (fm 2 2 4).ty = 0 ∧ (fo 2 2 4 (1 * 2 ^ 10)).ty = 1 ∧
    ∀ f ∈ iV.takers (fe 2 2 4 6 false false false), ∀ n ∈ [2, 4, 6], f.readable n = true :=
  ⟨runsV _ (by decide +kernel), by unfold ready2; decide +kernel, by decide +kernel, by decide +kernel, by decide +kernel⟩

/-- MemoryKeepsItsForm. -/
theorem reset_memory : State.reset.memoryOk = true := by decide +kernel

/-- AStepRunsTheDecodedInstruction: IADD v1, v2, v3 placed as the first instruction. -/
def wStep : State := State.reset.withFetchWord 32 0x1083
def wStep0 : State := { wStep with fresh := wStep.fresh + 1, stall := false, sched := [] }
def iStep : Iss := (wStep0.find wr).getD iV

theorem witness_step : wStep.dead = false ∧ wStep.sched = [{ dt := 0, pick := .issue wr }] ∧ wStep0.find wr = some iStep ∧
    wStep0.select iStep.gq (wStep0.setOf wr) (wStep0.readyFor iStep.gq (wStep0.setOf wr)) = some wr ∧
    ((({ wStep0 with cur := some wr } : State).fetchWords iStep 3 iStep.batch.pc).toOption.any fun (p : State × List Nat) =>
      p.2 == [0x1083] && (decode (p.2.flatMap (leBytes 4))).toOption == some (.iadd (fm 1 2 3), []) &&
      wStep0.feature iStep.crew.part (featureOf (.iadd (fm 1 2 3))) &&
      (p.1.reserveUndo iStep (p.1.undoNeed iStep (.iadd (fm 1 2 3)))).toOption.isSome) = true ∧
    iStep.crew.halted = false ∧ iStep.spoilt (.iadd (fm 1 2 3)) = [] ∧ iStep.batch.mid = false :=
  ⟨by decide +kernel, by decide +kernel, by decide +kernel, by decide +kernel, by decide +kernel, by decide +kernel,
    by decide +kernel, by decide +kernel⟩

/-- The single step of a halted crew. -/
def wStop : State := onK wStep fun k => { k with halted := true, stepPend := true }
theorem witness_single_step : (wStop.find wr).any (fun i => i.crew.halted && wStop.stepBatch i.crew == some wr &&
    !(wStop.selector i.gq (wStop.setOf wr)).spent wStop.clock) = true := by decide +kernel

/-- A batch inside an instruction goes on. -/
def wMid : State := (onB wStep fun b => { b with phase := 1, held := some (.nop (fm 0 0 0)) })
theorem witness_mid_step : wMid.dead = false ∧ wMid.sched = [{ dt := 0, pick := .issue wr }] ∧
    (({ wMid with fresh := wMid.fresh + 1, stall := false, sched := [] } : State).find wr).any (fun i => i.batch.mid &&
      i.batch.held == some (.nop (fm 0 0 0))) = true ∧
    wr ∈ ({ wMid with fresh := wMid.fresh + 1, stall := false, sched := [] } : State).midBatches := by decide +kernel

theorem witness_event_step : ∃ ev : Instr, ev.form? = none ∧
    ({ wStep with sched := [{ dt := 0, pick := .event ev }] } : State).dead = false ∧ endsCycle ev = false ∧
    -- batches that a cycle owes their issue, and none
    ({ wStep with sched := [{ dt := 2, pick := .event ev }] } : State).goOn.isSome = true ∧
    endsCycle (.sleepTimeout wr) = true ∧ (onK wStep fun k => { k with halted := true }).goOn = none :=
  ⟨.reset State.reset.fence, by decide +kernel, by decide +kernel, by decide +kernel, by decide +kernel, by decide +kernel,
    by decide +kernel⟩
/-! ### Small steps: one instruction on given registers, the expected value worked out by hand from its rule -/

/-- The value of a lane register, a predicate or a uniform register of fibre 0 after one instruction at `wV`. -/
def withV (rs : List (Nat × Nat)) (s : State) : State :=
  onX s fun f => rs.foldl (fun f r => f.put r.1 false (BitVec.ofNat 64 r.2)) f
def withK (rs : List (Nat × Nat)) (s : State) : State :=
  onF s fun f => rs.foldl (fun f r => f.putK r.1 false (BitVec.ofNat 64 r.2)) f
def after (s : State) (ins : Instr) : Option State := match exec ins s with
  | .next t => some t
  | _ => none
def fl (t : State) : Option Flock := (t.crew? 0 0).bind fun k => k.flock? 0
def v (ins : Instr) (rs : List (Nat × Nat)) (n : Nat) : Option Nat :=
  ((after (withV rs wV) ins).bind fl).bind fun f => (f.fibre? 0).map fun x => (x.reg n).val.toNat
def p (ins : Instr) (rs : List (Nat × Nat)) (n : Nat) : Option Bool :=
  ((after (withV rs wV) ins).bind fl).bind fun f => (f.fibre? 0).map fun x => x.pred n
def k (ins : Instr) (rs : List (Nat × Nat)) (n : Nat) : Option Nat :=
  ((after (withK rs wV) ins).bind fl).map fun f => (f.kreg n).toNat

theorem test_iadd_wraps : v (.iadd (fm 1 2 3)) [(2, 0xFFFFFFFF), (3, 2)] 1 = some 1 := by decide +kernel
theorem test_iadd_saturates : v (.iadd (fo 1 2 3 8)) [(2, 0x7FFFFFFF), (3, 2)] 1 = some 0x7FFFFFFF := by decide +kernel
theorem test_isub_borrows : v (.isub (fm 2 2 3)) [(2, 1), (3, 2)] 2 = some 0xFFFFFFFF := by decide +kernel
theorem test_imulh_signed : v (.imulh (fm 1 2 3)) [(2, 0xFFFFFFFF), (3, 5)] 1 = some 0xFFFFFFFF := by decide +kernel
theorem test_imulh_natural : v (.imulh (fo 1 2 3 0x400)) [(2, 0xFFFFFFFF), (3, 5)] 1 = some 4 := by decide +kernel
theorem test_imad : v (.imad (fe 1 2 3 4 false false false)) [(2, 3), (3, 5), (4, 0xFFFFFFFF)] 1 = some 14 := by decide +kernel
theorem test_iadd64_carries : v (.iadd64 (fm 10 2 4)) [(2, 0xFFFFFFFF), (3, 0), (4, 1), (5, 6)] 11 = some 7 := by decide +kernel
theorem test_andn : v (.andn (fm 1 2 3)) [(2, 0b1100), (3, 0b1010)] 1 = some 0b0100 := by decide +kernel
/-- R72: 0x96 is the table of a XOR b XOR c. -/
theorem test_blut_xor : v (.blut { fe 1 2 3 4 false false false with mod := some (BitVec.ofNat 27 (0x96 * 2 ^ 14)) })
    [(2, 0b1100), (3, 0b1010), (4, 0b1111)] 1 = some 0b1001 := by decide +kernel
/-- R72: a selector of 0x00_1083 reverses the bytes of a, 0x20_8200 sign-extends byte 0, 0x9E_6964 complements b. -/
theorem test_bpick : v (.bpick (fe 1 2 3 4 false false false)) [(2, 0x01020384), (3, 0x0F0F0F0F), (4, 0x001083)] 1 =
      some 0x84030201 ∧
    v (.bpick (fe 1 2 3 4 false false false)) [(2, 0x01020384), (3, 0), (4, 0x208200)] 1 = some 0xFFFFFF84 ∧
    v (.bpick (fe 1 2 3 4 false false false)) [(2, 0), (3, 0x0F0F00FF), (4, 0x9E6964)] 1 = some 0xF0F0FF00 := by decide +kernel
theorem test_bfx_signed : v (.bfx (fm 1 2 3)) [(2, 0xF0), (3, 0x0404)] 1 = some 0xFFFFFFFF := by decide +kernel
theorem test_bfi_drops_beyond_31 : v (.bfi (fe 1 2 3 4 false false false)) [(2, 0xFF), (3, 0x081C), (4, 0)] 1 = some 0xF0000000 := by
  decide +kernel
theorem test_clz_popc_brev : v (.clz (fm 1 2 0)) [(2, 0)] 1 = some 32 ∧ v (.popc (fm 1 2 0)) [(2, 0xF00F)] 1 = some 8 ∧
    v (.brev (fm 1 2 0)) [(2, 1)] 1 = some 0x80000000 := by decide +kernel
theorem test_idp4 : v (.idp4 (fe 1 2 3 4 false false false)) [(2, 0xFF020304), (3, 0x01010101), (4, 10)] 1 = some 18 := by
  decide +kernel
theorem test_sel_takes_b : v (.sel (fe 1 2 3 5 false false false)) [(2, 7), (3, 9)] 1 = some 9 := by decide +kernel
theorem test_icmp_less : p (.icmp (fo 4 2 3 (6 * 2 ^ 20 + 2 * 2 ^ 14))) [(2, 0xFFFFFFFF), (3, 1)] 4 = some true ∧
    p (.icmp (fo 4 2 3 (6 * 2 ^ 20 + 2 * 2 ^ 14))) [(2, 0xFFFFFFFF), (3, 1)] 6 = some false ∧
    p (.icmp (fo 4 2 3 (2 * 2 ^ 14 + 2 ^ 10))) [(2, 0xFFFFFFFF), (3, 1)] 4 = some false := by decide +kernel
/-- 1 + 2^-24 ties to even; +0 + -0 is +0, and -0 rounding down. -/
theorem test_fadd_ties : v (.fadd (fm 1 2 3)) [(2, 0x3F800000), (3, 0x33800000)] 1 = some 0x3F800000 := by decide +kernel
theorem test_fadd_zero_signs : v (.fadd (fm 1 2 3)) [(2, 0), (3, 0x80000000)] 1 = some 0 ∧
    v (.fadd (fo 1 2 3 2)) [(2, 0), (3, 0x80000000)] 1 = some 0x80000000 := by decide +kernel
theorem test_fmul : v (.fmul (fm 1 2 3)) [(2, 0x40000000), (3, 0x40400000)] 1 = some 0x40C00000 := by decide +kernel
theorem test_fdiv_third : v (.fdiv (fm 1 2 3)) [(2, 0x3F800000), (3, 0x40400000)] 1 = some 0x3EAAAAAB := by decide +kernel
theorem test_fsqrt_two : v (.fsqrt (fm 1 2 0)) [(2, 0x40000000)] 1 = some 0x3FB504F3 := by decide +kernel
/-- The product is not rounded: (1 + 2^-12)^2 - (1 + 2^-11) = 2^-24. -/
theorem test_ffma_fused : v (.ffma (fe 1 2 3 4 false false false)) [(2, 0x3F800800), (3, 0x3F800800), (4, 0xBF801000)] 1 =
    some 0x33800000 := by decide +kernel
theorem test_hadd2 : v (.hadd2 (fm 1 2 3)) [(2, 0x3C004000), (3, 0x3C003C00)] 1 = some 0x40004200 := by decide +kernel
theorem test_uadd_wraps : k (.uadd (fm 1 2 3)) [(2, 0xFFFFFFFF), (3, 3)] 1 = some 2 := by decide +kernel
theorem test_umov_guarded : k (.umov { fm 1 2 0 with gn := true }) [(1, 4), (2, 3)] 1 = some 4 := by decide +kernel
theorem test_bra_targets_its_word : ((after wV (.bra (fi 0 0 0 5))).bind fl).any (fun f => f.batches.any fun b => b.pc == 20) =
    true := by decide +kernel
/-- STS, then LDS of the same fibre: the reply outstanding holds the fibre's own write (R116). -/
theorem test_sts_own_read : ((after (withV [(2, 0x40), (6, 0xAB)] wV) (.sts (fm 0 2 6))).bind fun s =>
    after { s with cur := some wr } (.lds (fm 4 2 0))).any (fun s => (s.crew? 0 0).any fun k =>
      k.prods.any fun q => q.val.toNat == 0xAB) = true := by decide +kernel
/-- ST keeps its bytes in the store buffer, at the page's PA. -/
theorem test_st_buffers : (after (withV [(2, 8), (3, 0), (6, 0x11223344)] wV) (.st (fm 0 2 6))).any (fun s => s.sb.any fun e =>
    e.loc.pa == 0x20008 && e.kind == .store (leBytes 4 0x11223344) false false) = true := by decide +kernel
/-- TRAP 7 suspends the crew with the code in its record, the PC after the instruction (R322). -/
theorem test_trap_code : (after wV (.trap (fi 0 0 0 7))).any (fun s => (s.crew? 0 0).any fun k => k.susp.any fun r =>
    r.trap.cause == .trapInstruction && r.trap.code == 7 && r.ckptn == 1) = true := by decide +kernel
theorem test_unmapped_traps : (after (withV [(2, 0), (3, 1)] wV) (.ld (fm 4 2 0))).any (fun s => (s.crew? 0 0).any fun k =>
    k.susp.any fun r => r.trap.cause == .rangeMiss && r.trap.addr == 2 ^ 32) = true := by decide +kernel

/-! ### Witnesses with registers: every hypothesis of a clause at one state -/

/-- UFROM of an empty register; a uniform instruction of a batch while another's UFROM holds the pipe. -/
theorem witness_ufrom_empty : UniRuns wEmpty (issOf wEmpty) (fm 1 2 0) .any ∧ ∃ f, (issOf wEmpty).lead = some f ∧ (fm 1 2 0).ea = false ∧
    2 < f.budget ∧ (f.reg 2).full = false ∧ (f.reg 2).poison = false ∧ (issOf wEmpty).flock.pipe = none :=
  ⟨uni (by decide +kernel), (issOf wEmpty).lead.get (by decide +kernel), (Option.some_get _).symm, by decide +kernel⟩

def wHeld : State := onF wV fun f => { f with pipe := some 5 }
theorem witness_pipe_held : Issues wHeld (issOf wHeld) ∧ (issOf wHeld).pipeHeld = true :=
  ⟨at_ (by decide +kernel), by decide +kernel⟩

/-- The plain load of a word that no buffer, copy or version of its core holds. -/
theorem witness_plain_load : wV.memoryOk = true ∧ LaneRuns wV iV (fm 4 2 6) ∧ (∃ f, iV.takers (fm 4 2 6) = [f] ∧ Reaches wV iV (fm 4 2 6) .load f l0) ∧
    (fm 4 2 6).mc.scope = .none ∧ (fm 4 2 6).mc.ord = .plain ∧ FromHome wV iV l0 (fm 4 2 6).size := by
  refine ⟨by decide +kernel, runsV _ (by decide +kernel), ⟨(iV.takers (fm 4 2 6)).head (by decide +kernel), by decide +kernel, ?_⟩, rfl, rfl, ?_⟩
  · exact reachesOf (iV.takers (fm 4 2 6)) (by decide +kernel) _ (List.head_mem _)
  · exact ⟨.inl rfl, by decide, rfl, by decide +kernel, by decide +kernel, by decide +kernel, by decide +kernel, by decide +kernel, by decide +kernel,
      by decide +kernel⟩

/-- FSPAWN's arguments inside the window. -/
theorem witness_spawn_budget : ∀ f ∈ iV.takers (fi 0 2 2 0), 2 + 2 ≤ f.budget := by decide +kernel

/-- CMAINT of 128 bytes from VA 0: its first part where it cleans, and its lines; SETWAYS of ways 8 to 15 of bank group 0. -/
def wCm : State := withK [(2, 0), (3, 0), (4, 128)] wV
def wCmP : State := withK [(2, 0), (3, 0), (4, 128)] wP
def xCm : Form := fa 0 2 4 .plain .none 0

theorem witness_cmaint_range : UniRuns wCm (issOf wCm) xCm .vector ∧ (issOf wCm).free [(2, true), (4, false)] = true ∧
    ((issOf wCm).flock.kreg 4).toNat ≠ 0 ∧ (issOf wCm).batch.phase = 0 ∧ (!(decide (cmOp xCm = 1) && decide (cmLevel xCm = 0))) = true ∧
    wCm.ckptReady (issOf wCm).crew = true ∧ UniRuns wCmP (issOf wCmP) xCm .vector ∧ (issOf wCmP).batch.phase ≠ 0 ∧
    (match wCmP.maintainAll (issOf wCmP) (cmOp xCm) (cmLevel xCm) 0 (0 / 128) ((0 + 128 - 1) / 128 - 0 / 128 + 1) with
      | .done _ => true
      | _ => false) = true :=
  ⟨uni (by decide +kernel), by decide +kernel, by decide +kernel, by decide +kernel, by decide +kernel, by decide +kernel,
    uni (by decide +kernel), by decide +kernel, by decide +kernel⟩

/-- One of two lines, the second owned by an engine: it goes on with that one. -/
def wCmW : State := { withK [(2, 0), (3, 0), (4, 256)] wP with engines := [{ eng (.copy [] [] true []) with owned := [0x401] }] }
theorem witness_cmaint_waits : UniRuns wCmW (issOf wCmW) xCm .vector ∧ (issOf wCmW).batch.phase = 1 ∧
    ((issOf wCmW).flock.kreg 4).toNat = 256 ∧ (match wCmW.maintainAll (issOf wCmW) (cmOp xCm) (cmLevel xCm) 0 (0 / 128 + 0) (2 - 0) with
      | .waits _ left => 2 - left == 1
      | _ => false) = true :=
  ⟨uni (by decide +kernel), by decide +kernel, by decide +kernel, by decide +kernel⟩

/-- PHINT with its length ready, and while a load of it is outstanding. -/
def wHint : State := onK wV fun k => { k with prods := [prod false (.uni 0 4 false)] }
theorem witness_phint : UniRuns wV iV (fm 0 2 4) .vector ∧ iV.free [(2, true), (4, false)] = true ∧
    UniRuns wHint (issOf wHint) (fm 0 2 4) .vector ∧ (issOf wHint).free [(2, true), (4, false)] = false :=
  ⟨uniV _ _ (by decide +kernel) rfl, by decide +kernel, uni (by decide +kernel), by decide +kernel⟩

def wWm : State := withK [(2, 0xFF00)] wV
theorem witness_setways_value : UniRuns wWm (issOf wWm) (fm 4 2 0) .vector ∧ (issOf wWm).free [(2, false), (4, false)] = true ∧
    ((issOf wWm).flock.kreg 2).toNat = 0xFF00 ∧ maskWays (bits 0xFF00 15 0) = some 8 ∧ wWm.groupLimit 0 (bits 0xFF00 17 16) ≤ 8 * 2 ^ 14 ∧
    wWm.ckptReady (issOf wWm).crew = true ∧ wWm.wayMask 0 0 ||| bits 0xFF00 15 0 = bits 0xFF00 15 0 :=
  ⟨uni (by decide +kernel), by decide +kernel, by decide +kernel, by decide +kernel, by decide +kernel, by decide +kernel,
    by decide +kernel⟩

/-- STS of a word at the base of the allocation. -/
theorem witness_sts_room : let vs := (iV.takers (fm 4 2 6)).map fun f => (f.lane, (scratchEa iV (fm 4 2 6) (ra (fm 4 2 6) f)).toNat, f.value 6 false)
    (wV.reserveScratch iV.ref.core iV.ref.slot (vs.flatMap fun v => scratchLines v.2.1 (fm 4 2 6).size)).toOption.isSome = true := by
  decide +kernel

theorem witness_atomic_drained : wRep.dead = false ∧ (wRep.find wr).any (fun i => wRep.ckptDrained i.crew) = true ∧ wV.memoryOk = true := by
  decide +kernel

/-- Two partitions of this package in one group, a collective of which the other has failed, and none. -/
def wPair (failed : List (Nat × Nat × Cause)) : State :=
  let s := wV.updCtx 0 fun c => (c.setReg snGroup (2 * 2 ^ 32)).setReg (snGroup + 1) (2 ^ 63)
  { s with
    mem := s.mem.write 0x20000 (leBytes 8 0 ++ leBytes 8 (2 ^ 32))
    ctxs := s.ctxs ++ s.ctxs.map fun (c : Context) => { c with part := 1, collFailed := failed } }
theorem witness_coll_failed_before : let e := eng (.coll blk 2 0 0 true 0 [] false)
    (wPair []).failedBefore e (blk ++ [0]) 2 = none ∧
    (wPair [(0, 0, .collParam)]).failedBefore e (blk ++ [0]) 2 = some .collParam := by decide +kernel

/-- CPY, BLD and HRELOC at their second part: the other crews' checkpoints and their own can be taken. -/
def handsOver (s : State) (i : Iss) (ls : List Nat) : Bool :=
  s.drained i.ref.core i.batch.tag && (ckptOthers s (s.otherHolders i ls)).any fun s1 =>
    (s1.onBatch i fun b => { b with phase := 0, tag := 0, held := none }).ckptReady i.crew

theorem witness_hands_over :
    (let s1 := wP.onCrew iP fun k => k.updLive fun c => iP.active.foldl (fun c f => c.completeFibre iP.flock.num f.lane) c
     handsOver s1 (s1.again iP) (s1.copyLines iP.crew.part iP.crew.level (copyDesc (fo 1 8 0 0) iP)) = true) ∧
    handsOver wMP (issOf wMP) [] = true ∧
    ((wM.engines.filter fun e => e.core == 0 && e.slot == 0 && e.loads 0 (List.range 16)).length < 4 ∧
      ((wM.unit 0).queue.any fun j => j.op.slots.any (slotsOf 2 1 1).contains) = false) ∧
    (wP.ctx? 0).any (fun c => handsOver wP iP (wP.goatLines c .f 0 0)) = true := by decide +kernel

/-- COLL's second part. -/
theorem witness_coll_accepted : ∃ (c : Context) (g : GroupEntry) (s0 : State), wC.ctx? (issOf wC).crew.part = some c ∧
    let b := wC.collBlock (issOf wC) l0
    checkBlockOf wC (issOf wC) c b 0 = .ok g ∧ checkColl wC (issOf wC) 0 = .ok l0 ∧
    let ls := wC.extentLines 0 (issOf wC).crew.level (cw b 3) (recvCount b g.g g.rank * elemBytes b)
    wC.collsOf 0 < 256 ∧ (∀ l ∈ ls, wC.owned 0 l = false) ∧ wC.oxOwned 0 (lineOf l0.pa) = false ∧ ckptOthers wC (wC.otherHolders (issOf wC) ls) = some s0 ∧
      mayBegin s0 (s0.again (issOf wC)) := by
  refine ⟨(wC.ctx? 0).get (by decide +kernel), { g := 1, rank := 0, list := 0 }, wC, (Option.some_get _).symm,
    by decide +kernel, by decide +kernel, by decide +kernel, by decide +kernel, by decide +kernel, ?_, by decide +kernel,
    by decide +kernel⟩
  have h : wC.otherHolders (issOf wC) (wC.extentLines 0 (issOf wC).crew.level (cw (wC.collBlock (issOf wC) l0) 3)
      (recvCount (wC.collBlock (issOf wC) l0) 1 0 * elemBytes (wC.collBlock (issOf wC) l0))) = [] := by decide +kernel
  show ckptOthers wC _ = _
  rw [h]; rfl

/-- The tiles of a matrix instruction settled, then the token taken; the chunk forms first reserve the scratch they write. -/
theorem witness_tiles_and_token : ∀ zs ∈ [[0], tileGroup 0 false],
    (∃ s1 s2, tilesAndToken wM (issOf wM) zs s1 s2 ∧ (∀ e ∈ s1.engines, e.loads 0 (slotsOf 15 16 1) = false) ∧ (s1.unit 0).queue = []) ∧
    ((wM.reserveScratch 0 0 (scratchLines 0x8000 (1 * 4 * stateDim false))).toOption.any fun s1 =>
      (settleTiles s1 (issOf wM) zs).toOption.any fun s2 => (s2.useToken 0).isSome) = true := by
  have h : ∀ zs ∈ [[0], tileGroup 0 false],
      ((settleTiles wM (issOf wM) zs).toOption.any fun s1 => (s1.useToken (herdOf (issOf wM).ref.core)).isSome &&
        (decide (∀ e ∈ s1.engines, e.loads 0 (slotsOf 15 16 1) = false) && decide ((s1.unit 0).queue = []))) = true ∧
      ((wM.reserveScratch 0 0 (scratchLines 0x8000 (1 * 4 * stateDim false))).toOption.any fun s1 =>
        (settleTiles s1 (issOf wM) zs).toOption.any fun s2 => (s2.useToken 0).isSome) = true := by decide +kernel
  intro zs hz
  obtain ⟨h1, h2⟩ := h zs hz
  obtain ⟨s1, e1, e2⟩ := Option.any_eq_true _ _ |>.mp h1
  simp only [Bool.and_eq_true, decide_eq_true_eq] at e2
  exact ⟨⟨s1, _, ⟨okOf e1, (Option.some_get e2.1).symm⟩, e2.2⟩, h2⟩

/-- The lines that the pin instructions' spills would write, none here. -/
theorem witness_pin_lines :
    (match zpinPlan wM (issOf wM) (fo 1 0 2 0) with
      | .ok (_, some _) => wM.evictTo ((wM.unit 0).detached (tileGroup 0 false))
      | _ => []) = [] ∧
    (match zattPlan wPin (issOf wPin) (fo 0 1 0 0) with
      | .ok (n, .move _) | .ok (n, .reload _ _) => wPin.evictTo (zattEvicts wPin (issOf wPin) (fo 0 1 0 0) n)
      | _ => []) = [] ∧
    (match ownPlan wPin (issOf wPin) (fo 0 1 0 0) with
      | .ok (n, p) => if p.state ≤ 1 then spillReady wPin (issOf wPin) (wPin.spillTo 0 n) false else .ok wPin
      | .error _ => .ok wPin).toOption.any (fun s0 => afterCkpt s0 fun s i => zspillRun s i (fo 0 1 0 0)) = true := by
  decide +kernel

/-- WRSYS of SYS_PTROOT and of SYS_XLINV in its parts; ERET's resumption, with the lines it may write clear. -/
def wPh (n : Nat) : State := onB wV fun b => { b with phase := n }
theorem witness_wrsys_parts : (∀ sn ∈ [snPtroot, snXlinv], ∀ p ∈ [1, 2, 3], UniRuns (wPh (4 * sn + p)) (issOf (wPh (4 * sn + p))) (fm 0 0 2) .any ∧
      (issOf (wPh (4 * sn + p))).batch.phase = 4 * sn + p) ∧
    (∃ r, sysRights snXlinv = some (r, .level .t)) ∧ (wPh 1).drained 0 0 = true ∧
    (wPh 1).ctxs.all (fun c => c.xlPend.isEmpty) = true ∧ (wPh 1).olderGone 0 0 = true ∧ (wPh 1).ckptDrained (issOf (wPh 1)).crew = true ∧
    snPtroot ≠ snXlinv := by
  have h : (∀ sn ∈ [snPtroot, snXlinv], ∀ p ∈ [1, 2, 3], ((((wPh (4 * sn + p)).dead = false ∧ (wPh (4 * sn + p)).iss?.isSome = true) ∧
      (((issOf (wPh (4 * sn + p))).batch.phase = 0 → guardUni (fm 0 0 2) (issOf (wPh (4 * sn + p))).flock = true) ∧
        (issOf (wPh (4 * sn + p))).pipeHeld = false) ∧ Roles.allow .any (issOf (wPh (4 * sn + p))).flock.role = true)) ∧
      (issOf (wPh (4 * sn + p))).batch.phase = 4 * sn + p) := by decide +kernel
  exact ⟨fun sn hs p hp => ⟨uni (h sn hs p hp).1, (h sn hs p hp).2⟩, ⟨_, rfl⟩, by decide +kernel, by decide +kernel, by decide +kernel,
    by decide +kernel, by decide +kernel⟩

theorem witness_eret_lines : (spillReady wP iP (wP.serveTo iP.crew.part (recName (wP.placeBytes l0 64)) 0) true).toOption.any
    (fun s0 => (s0.serve iP.crew.part (recName (wP.placeBytes l0 64)) 0).2.isSome) = true ∧ checkTrapRec wP iP 0 = .ok l0 ∧
    iP.batch.phase = 2 * 0 + 1 ∧ iP.crew.level ≠ .u := by decide +kernel
/-! ### Words of the spec and what they decode to (R46-R53 and the opcode map) -/

/-- integer and logic: OP 0000001. -/
theorem test_decode_isub : decode (leBytes 4 0b00000000010000000001000010000011) =
    .ok (.isub (fm 1 2 3), []) := okOf (by decide +kernel)

/-- shifts and fields: OP 0010001, then EXT with Dhi 01, Ahi 10, Bhi 11 and EA. -/
theorem test_decode_shr_wide_registers : decode (leBytes 4 0b00100100010000000001000010000011 ++
    leBytes 4 0b01000000000000110110000000010000) =
    .ok (.shr { fe 1 2 3 0 true false false with ext := some { gn2 := false, gp2 := 0, dhi := 1, ahi := 2, bhi := 3, cx := 0, ea := true, eb := false, ec := false } }, []) := okOf (by decide +kernel)

/-- moves: OP 0100000, guarded by @!p3. -/
theorem test_decode_mov : decode (leBytes 4 0b00001000001011000101001001000000) =
    .ok (.mov { fm 5 9 0 with gn := true, gp := 3 }, []) := okOf (by decide +kernel)

/-- control: OP 0110000, then IMM of -3 words. -/
theorem test_decode_bra : decode (leBytes 4 0b00101100000000000000000000000000 ++
    leBytes 4 0b01001111111111111111111111111101) =
    .ok (.bra (fi 0 0 0 (-3)), []) := okOf (by decide +kernel)

/-- FP32: OP 1000000, then MOD with NEGA and RM 3. -/
theorem test_decode_fadd : decode (leBytes 4 0b00110000000000000001000010000011 ++
    leBytes 4 0b01011000000000000000000000010011) =
    .ok (.fadd (fo 1 2 3 0x13), []) := okOf (by decide +kernel)

/-- FP32, the second row: OP 1010000. -/
theorem test_decode_fcpys : decode (leBytes 4 0b00010100000000000001000010000011) =
    .ok (.fcpys (fm 1 2 3), []) := okOf (by decide +kernel)

/-- packed 16-bit: OP 1100000. -/
theorem test_decode_hadd2 : decode (leBytes 4 0b00011000000000000001000010000011) =
    .ok (.hadd2 (fm 1 2 3), []) := okOf (by decide +kernel)

/-- lane memory: OP 1110000, then MEM with OFF -1, SCOPE 4, ORD 01 and RMT. -/
theorem test_decode_ld : decode (leBytes 4 0b00111100000000000100000010000000 ++
    leBytes 4 0b01010111111111111100010010000000) =
    .ok (.ld { fm 4 2 0 with mem := some { off := -1, scope := .dev, ord := .acquire, hint := .normal, rmt := true, cs := 0 } }, []) := okOf (by decide +kernel)

/-- uniform integer: set 1, OP 0000000. -/
theorem test_decode_uadd : decode (leBytes 4 0b10000000000000000001000010000011) =
    .ok (.uadd (fm 1 2 3), []) := okOf (by decide +kernel)

/-- uniform FP: set 1, OP 0010111. -/
theorem test_decode_ufadd : decode (leBytes 4 0b10000101110000000001000010000011) =
    .ok (.ufadd (fm 1 2 3), []) := okOf (by decide +kernel)

/-- uniform flow: set 1, OP 0100000, then IMM of 5 words. -/
theorem test_decode_ubra : decode (leBytes 4 0b10101000000000000000000000000000 ++
    leBytes 4 0b11001000000000000000000000000101) =
    .ok (.ubra (fi 0 0 0 5), []) := okOf (by decide +kernel)

/-- engines and barriers: set 1, OP 0110011. -/
theorem test_decode_cpydrain : decode (leBytes 4 0b10001100110000000000000000000000) =
    .ok (.cpydrain (fm 0 0 0), []) := okOf (by decide +kernel)

/-- matrix: set 1, OP 1000100. -/
theorem test_decode_zzero : decode (leBytes 4 0b10010001000000000011000000000000) =
    .ok (.zzero (fm 3 0 0), []) := okOf (by decide +kernel)

/-- tiles: set 1, OP 1010011. -/
theorem test_decode_zrel : decode (leBytes 4 0b10010100110000000000000011000000) =
    .ok (.zrel (fm 0 3 0), []) := okOf (by decide +kernel)

/-- system: set 1, OP 1100010. -/
theorem test_decode_ckpt : decode (leBytes 4 0b10011000100000000000000000000000) =
    .ok (.ckpt (fm 0 0 0), []) := okOf (by decide +kernel)

/-! ### Ill-formed terms, each refused by its check (R57) -/

/-- A continuation that the entry does not list, and one that is missing. -/
theorem test_refuses_continuation : (Instr.fcpys (fi 1 2 3 0)).illegal = some .continuation ∧
    (Instr.bra (fm 0 0 0)).illegal = some .continuation := by decide +kernel
/-- Three continuations. -/
theorem test_refuses_third_continuation : (Instr.iadd { fe 1 2 0 0 false false false with imm := some 1, mod := some 0 }).illegal =
    some .framing := by decide +kernel
/-- A leading guard beside EXT; a guard on NOP. -/
theorem test_refuses_guard_field : (Instr.iadd { fe 1 2 3 0 false false false with gp := 1 }).illegal = some .guardField ∧
    (Instr.nop { fm 0 0 0 with gp := 1 }).illegal = some .guardField := by decide +kernel
/-- Guard 96 in the lane set, 16 in the uniform set. -/
theorem test_refuses_guard_number :
    (Instr.iadd { fm 1 2 3 with ext := some { gn2 := false, gp2 := 96, dhi := 0, ahi := 0, bhi := 0, cx := 0, ea := false, eb := false, ec := false } }).illegal =
      some .guardNumber ∧
    (Instr.uadd { fm 1 2 3 with ext := some { gn2 := false, gp2 := 16, dhi := 0, ahi := 0, bhi := 0, cx := 0, ea := false, eb := false, ec := false } }).illegal =
      some .guardNumber := by decide +kernel
/-- ORD without a scope; RMT on a release. -/
theorem test_refuses_mem_fields : (Instr.ld (fa 4 2 0 .acquire .none 0)).illegal = some .memFields ∧
    (Instr.st { fm 4 2 0 with mem := some { off := 0, scope := .dev, ord := .release, hint := .normal, rmt := true, cs := 0 } }).illegal =
      some .memFields := by decide +kernel
/-- An odd address pair; k16 to k63 exist, and a uniform operand 64 does not. -/
theorem test_refuses_operand : (Instr.ld (fm 4 3 0)).illegal = some .operand := by decide +kernel
/-- EA on a uniform source. -/
theorem test_refuses_mode : (Instr.uadd (fe 1 2 3 0 true false false)).illegal = some .mode := by decide +kernel
/-- RM 5 on FADD. -/
theorem test_refuses_reserved : (Instr.fadd (fo 1 2 3 5)).illegal = some .reserved := by decide +kernel
/-- An event has no encoding. -/
theorem test_refuses_event : (Instr.powerDown).illegal = some .opcode ∧ encode .powerDown = [] := by decide +kernel
/-- Bytes that end inside an instruction, a continuation of the other set, and payload bits that are not 0. -/
theorem test_refuses_words : decode (leBytes 4 0x20000000) = .error .truncated ∧ decode [0, 0, 0] = .error .truncated ∧
    decode (leBytes 4 0x20000000 ++ leBytes 4 0xC0000000) = .error .framing ∧
    decode (leBytes 4 0x20000000 ++ leBytes 4 0x40000001) = .error .reserved ∧
    decode (leBytes 4 (0x20000000 + 0x70 * 2 ^ 22) ++ leBytes 4 0x50007000) = .error .memFields :=
  ⟨errOf (by decide +kernel), errOf (by decide +kernel), errOf (by decide +kernel), errOf (by decide +kernel),
    errOf (by decide +kernel)⟩

/-- EveryEncodingReadsBack and OnlyEncodingsDecode. -/
theorem witness_well_formed : (Instr.iadd (fm 1 2 3)).wf = true ∧
    decode (leBytes 4 0x1083 ++ [1]) = .ok (.iadd (fm 1 2 3), [1]) := ⟨by decide +kernel, okOf (by decide +kernel)⟩
end Sys2Proof.Tests
end

/-! PROOF. The decoder accepts encodings of well-formed instructions and nothing else (R46-R57): each part of the decoder reads whole
what it takes, so the encoder gives it back. -/

namespace Sys2Proof.Decoding

open Machine

/-! ### Bit fields of a word -/

/-- The low bits of a word are a field and the bits below it. -/
theorem mod_eq_bits_add (w hi lo : Nat) (h : lo ≤ hi + 1 := by decide) :
    w % 2 ^ (hi + 1) = bits w hi lo * 2 ^ lo + w % 2 ^ lo := by
  have hp : 2 ^ (hi + 1) = 2 ^ lo * 2 ^ (hi + 1 - lo) := by rw [← Nat.pow_add]; congr 1; omega
  rw [hp, Nat.mod_mul, bits]
  ring

theorem bit_bitAt (w n : Nat) : bit (bitAt w n) = bits w n n := by
  have hlt := Nat.mod_lt (w / 2 ^ n) (by decide : 0 < 2)
  simp only [bit, bitAt, bits, Nat.add_sub_cancel_left, Nat.pow_one, beq_iff_eq]
  split <;> omega

theorem bits_lt (w hi lo : Nat) : bits w hi lo < 2 ^ (hi + 1 - lo) := Nat.mod_lt _ (Nat.two_pow_pos _)

/-- A field of `n` bits read into a bit vector of that width keeps its value. -/
theorem toNat_ofNat_bits (w hi lo : Nat) : (BitVec.ofNat (hi + 1 - lo) (bits w hi lo)).toNat = bits w hi lo := by
  rw [BitVec.toNat_ofNat, Nat.mod_eq_of_lt (bits_lt w hi lo)]

/-! ### Bytes of a word -/

theorem leBytes_leVal (bs : List Byte) : leBytes bs.length (leVal bs) = bs := by
  induction bs with
  | nil => rfl
  | cons b bs ih =>
    have hb : BitVec.ofNat 8 (b.toNat + 256 * leVal bs) = b := by
      apply BitVec.eq_of_toNat_eq; have := b.isLt; rw [BitVec.toNat_ofNat]; omega
    have hd : (b.toNat + 256 * leVal bs) / 256 = leVal bs := by have := b.isLt; omega
    simp only [List.length_cons, leVal, leBytes, hb, hd, ih]

theorem leVal_lt (bs : List Byte) : leVal bs < 256 ^ bs.length := by
  induction bs with
  | nil => decide
  | cons b bs ih => have := b.isLt; simp only [leVal, List.length_cons, Nat.pow_succ]; omega

/-- A word taken from a stream is the value of its first four bytes (R4). -/
theorem takeWord_some {bs r : List Byte} {w : Nat} (h : takeWord bs = some (w, r)) : bs = leBytes 4 w ++ r ∧ w < 2 ^ 32 := by
  match bs, h with
  | b0 :: b1 :: b2 :: b3 :: _, rfl =>
    exact ⟨congrArg (· ++ r) (leBytes_leVal [b0, b1, b2, b3]).symm, (leVal_lt [b0, b1, b2, b3]).trans_eq (by norm_num)⟩

/-! ### Continuations (R47, R49) -/

/-- Continuations whose types rise strictly from `lo` and whose payloads have 27 bits. -/
def Rising : Nat → List (Nat × Nat) → Prop
  | _, [] => True
  | lo, (ct, p) :: cs => lo ≤ ct ∧ ct < 4 ∧ p < 2 ^ 27 ∧ Rising (ct + 1) cs

/-- A continuation word is put together from its fields. -/
theorem contWord_eq {w : Nat} {s x : Bool} (hw : w < 2 ^ 32) (hc : bitAt w 30 = true) (hs : bitAt w 31 = s) (hx : bitAt w 29 = x) :
    bit s * 2 ^ 31 + 2 ^ 30 + bit x * 2 ^ 29 + bits w 28 27 * 2 ^ 27 + bits w 26 0 = w := by
  have hc1 : bits w 30 30 = 1 := by rw [← bit_bitAt, hc]; rfl
  rw [← hs, ← hx, bit_bitAt, bit_bitAt]
  calc _ = w % 2 ^ 32 := by
        rw [mod_eq_bits_add w 31 31, mod_eq_bits_add w 30 30, mod_eq_bits_add w 29 29, mod_eq_bits_add w 28 27,
          mod_eq_bits_add w 26 0, hc1]
        omega
    _ = w := Nat.mod_eq_of_lt hw

/-- Continuations that are taken are rising, are announced by the X bit before them, and their words are the bytes they are taken from. -/
theorem takeConts_ok {s : Bool} {n lo : Nat} {x : Bool} {bs r : List Byte} {cs : List (Nat × Nat)}
    (h : takeConts s n lo x bs = .ok (cs, r)) :
    Rising lo cs ∧ x = !cs.isEmpty ∧ bs = (contWords s cs).flatMap (leBytes 4) ++ r := by
  induction n generalizing lo x bs cs with
  | zero =>
    cases x with
    | false => cases h; exact ⟨trivial, rfl, rfl⟩
    | true => cases h
  | succ n ih =>
    cases x with
    | false => cases h; exact ⟨trivial, rfl, rfl⟩
    | true =>
      rw [takeConts] at h
      split at h
      · cases h
      next w r1 hw =>
      split at h
      case isFalse => cases h
      case isTrue hok =>
      split at h
      case h_2 => cases h
      case h_1 cs1 r2 hcs =>
      cases h
      simp only [Bool.and_eq_true, beq_iff_eq, decide_eq_true_eq] at hok
      obtain ⟨⟨hc, hs⟩, hlo⟩ := hok
      obtain ⟨hrise, hx, hbs⟩ := ih hcs
      obtain ⟨hbytes, hlt⟩ := takeWord_some hw
      refine ⟨⟨hlo, bits_lt w 28 27, bits_lt w 26 0, hrise⟩, rfl, ?_⟩
      rw [contWords, contWord_eq hlt hc hs hx, hbytes, hbs]
      simp

/-- The entry of a continuation type, where its payload stands. -/
def entry (ct : Nat) (p : Option Nat) : List (Nat × Nat) := (p.map (ct, ·)).toList

theorem payload_of_rising {lo k : Nat} {cs : List (Nat × Nat)} (h : Rising lo cs) (hk : k < lo) : payload k cs = none := by
  induction cs generalizing lo with
  | nil => rfl
  | cons c cs ih =>
    obtain ⟨hlo, -, -, hr⟩ := h
    rw [payload, if_neg (by omega), ih hr (by omega)]

theorem payload_lt {lo k p : Nat} {cs : List (Nat × Nat)} (h : Rising lo cs) (hp : payload k cs = some p) : p < 2 ^ 27 := by
  induction cs generalizing lo with
  | nil => cases hp
  | cons c cs ih =>
    obtain ⟨-, -, hlt, hr⟩ := h
    rw [payload] at hp
    split at hp
    · cases hp; exact hlt
    · exact ih hr hp

/-- Of rising continuations the lowest type's entry comes first, and the others are found behind it. -/
theorem Rising.peel {lo : Nat} {cs : List (Nat × Nat)} (h : Rising lo cs) :
    ∃ cs', cs = entry lo (payload lo cs) ++ cs' ∧ Rising (lo + 1) cs' ∧ ∀ k, lo < k → payload k cs = payload k cs' := by
  cases cs with
  | nil => exact ⟨[], rfl, trivial, fun _ _ => rfl⟩
  | cons c cs =>
    obtain ⟨ct, p⟩ := c
    obtain ⟨hlo, h4, hp, hr⟩ := h
    by_cases hct : ct = lo
    · subst hct
      exact ⟨cs, by simp [payload, entry], hr, fun k hk => by rw [payload, if_neg (by omega)]⟩
    · refine ⟨(ct, p) :: cs, ?_, ⟨by omega, h4, hp, hr⟩, fun _ _ => rfl⟩
      rw [payload, if_neg hct, payload_of_rising hr (by omega)]
      rfl

theorem Rising.nil_of_four {cs : List (Nat × Nat)} (h : Rising 4 cs) : cs = [] := by
  cases cs with
  | nil => rfl
  | cons c cs => obtain ⟨hlo, h4, -⟩ := h; omega

/-- Rising continuations are told by the payloads of the four types. -/
theorem Rising.eq_entries {cs : List (Nat × Nat)} (h : Rising 0 cs) :
    cs = entry 0 (payload 0 cs) ++ entry 1 (payload 1 cs) ++ entry 2 (payload 2 cs) ++ entry 3 (payload 3 cs) := by
  obtain ⟨cs1, e0, h1, p1⟩ := h.peel
  obtain ⟨cs2, e1, h2, p2⟩ := h1.peel
  obtain ⟨cs3, e2, h3, p3⟩ := h2.peel
  obtain ⟨cs4, e3, h4, -⟩ := h3.peel
  rw [h4.nil_of_four, List.append_nil] at e3
  rw [p1 1 (by decide), p1 2 (by decide), p2 2 (by decide), p1 3 (by decide), p2 3 (by decide), p3 3 (by decide),
    ← e3, List.append_assoc, List.append_assoc, ← e2, ← e1, ← e0]

/-! ### Fields of the continuations (R50-R53) -/

theorem scope_code_of_ofCode {n : Nat} {sc : Scope} (h : Scope.ofCode n = some sc) : sc.code = n := by
  unfold Scope.ofCode at h
  split at h <;> cases h <;> rfl

theorem order_code_ofCode {n : Nat} (h : n < 4) : (Order.ofCode n).code = n := by
  interval_cases n <;> rfl

theorem hint_code_ofCode {n : Nat} (h : n < 4) : (Hint.ofCode n).code = n := by
  interval_cases n <;> rfl

/-- EXT is read whole: its reserved bits are 0, and every other bit stands in a field (R50). -/
theorem code_of_extOf {p : Nat} {e : Ext} (hp : p < 2 ^ 27) (h : extOf p = .ok e) : e.code = p := by
  unfold extOf at h
  split at h
  case isFalse => cases h
  case isTrue h0 =>
  cases h
  simp only [Ext.code, bit_bitAt]
  rw [toNat_ofNat_bits p 25 19, toNat_ofNat_bits p 18 17, toNat_ofNat_bits p 16 15, toNat_ofNat_bits p 14 13,
    toNat_ofNat_bits p 12 5]
  calc _ = p % 2 ^ 27 := by
        rw [mod_eq_bits_add p 26 26, mod_eq_bits_add p 25 19, mod_eq_bits_add p 18 17, mod_eq_bits_add p 16 15,
          mod_eq_bits_add p 14 13, mod_eq_bits_add p 12 5, mod_eq_bits_add p 4 4, mod_eq_bits_add p 3 3, mod_eq_bits_add p 2 2,
          mod_eq_bits_add p 1 0, h0]
        omega
    _ = p := Nat.mod_eq_of_lt hp

/-- MEM is read whole (R52). -/
theorem code_of_memOf {p : Nat} {m : MemC} (hp : p < 2 ^ 27) (h : memOf p = .ok m) : m.code = p := by
  unfold memOf at h
  split at h
  case h_2 => cases h
  case h_1 sc hsc =>
  cases h
  simp only [MemC.code, bit_bitAt, scope_code_of_ofCode hsc, order_code_ofCode (bits_lt p 11 10), hint_code_ofCode (bits_lt p 9 8)]
  rw [toNat_ofNat_bits p 26 15, toNat_ofNat_bits p 6 0]
  calc _ = p % 2 ^ 27 := by
        rw [mod_eq_bits_add p 26 15, mod_eq_bits_add p 14 12, mod_eq_bits_add p 11 10, mod_eq_bits_add p 9 8,
          mod_eq_bits_add p 7 7, mod_eq_bits_add p 6 0]
        omega
    _ = p := Nat.mod_eq_of_lt hp

/-- Where a continuation's fields give its payload back, they tell whether it stands and what it holds. -/
theorem map_of_optOf {α : Type} {f : Nat → Except Illegal α} {code : α → Nat} {p : Option Nat} {o : Option α}
    (h : optOf f p = .ok o) (hc : ∀ q a, p = some q → f q = .ok a → code a = q) : o.map code = p := by
  cases p with
  | none => cases h; rfl
  | some q =>
    rw [optOf] at h
    split at h
    · next a ha => cases h; exact congrArg some (hc q a rfl ha)
    · cases h

theorem map_toNat_ofNat {p : Option Nat} (h : ∀ q, p = some q → q < 2 ^ 27) :
    (p.map (BitVec.ofNat 27)).map BitVec.toNat = p := by
  cases p with
  | none => rfl
  | some q => rw [Option.map_some, Option.map_some, BitVec.toNat_ofNat, Nat.mod_eq_of_lt (h q rfl)]

/-- The continuations of a form, by type. -/
theorem conts_eq_entries (x : Form) : x.conts = entry 0 (x.ext.map Ext.code) ++ entry 1 (x.imm.map BitVec.toNat) ++
    entry 2 (x.mem.map MemC.code) ++ entry 3 (x.mod.map BitVec.toNat) := by
  obtain ⟨_, _, _, _, _, ext, imm, mem, mod⟩ := x
  cases ext <;> cases imm <;> cases mem <;> cases mod <;> rfl

theorem conts_isEmpty (x : Form) :
    (!x.conts.isEmpty) = (x.ext.isSome || x.imm.isSome || x.mem.isSome || x.mod.isSome) := by
  obtain ⟨_, _, _, _, _, ext, imm, mem, mod⟩ := x
  cases ext <;> cases imm <;> cases mem <;> cases mod <;> rfl

/-! ### Fields of the leading word (R48) -/

/-- The fields that a leading word holds, with no continuation. -/
def leadForm (w : Nat) : Form :=
  { gn := bitAt w 21, gp := BitVec.ofNat 3 (bits w 20 18), d := BitVec.ofNat 6 (bits w 17 12), a := BitVec.ofNat 6 (bits w 11 6),
    b := BitVec.ofNat 6 (bits w 5 0), ext := none, imm := none, mem := none, mod := none }

/-- The form of a leading word and continuations that are accepted. -/
theorem formOf_ok {w : Nat} {cs : List (Nat × Nat)} {x : Form} (h : formOf w cs = .ok x) :
    optOf extOf (payload 0 cs) = .ok x.ext ∧ optOf memOf (payload 2 cs) = .ok x.mem ∧
      x = { leadForm w with ext := x.ext, imm := (payload 1 cs).map (BitVec.ofNat 27), mem := x.mem,
                            mod := (payload 3 cs).map (BitVec.ofNat 27) } := by
  unfold formOf at h
  split at h
  · next e m he hm => cases h; exact ⟨he, hm, rfl⟩
  · cases h
  · cases h

/-- A form's continuations are those it was read from. -/
theorem conts_of_formOf {w : Nat} {cs : List (Nat × Nat)} {x : Form} (h : formOf w cs = .ok x) (hcs : Rising 0 cs) :
    x.conts = cs := by
  obtain ⟨he, hm, hx⟩ := formOf_ok h
  have hext : x.ext.map Ext.code = payload 0 cs :=
    map_of_optOf he fun q a hq ha => code_of_extOf (payload_lt hcs hq) ha
  have hmem : x.mem.map MemC.code = payload 2 cs :=
    map_of_optOf hm fun q a hq ha => code_of_memOf (payload_lt hcs hq) ha
  have himm : x.imm.map BitVec.toNat = payload 1 cs := by
    rw [hx]; exact map_toNat_ofNat fun q hq => payload_lt hcs hq
  have hmod : x.mod.map BitVec.toNat = payload 3 cs := by
    rw [hx]; exact map_toNat_ofNat fun q hq => payload_lt hcs hq
  rw [conts_eq_entries, hext, himm, hmem, hmod, ← hcs.eq_entries]

/-- A leading word is put together from its set, its opcode, its X bit and its form's fields. -/
theorem leadWord_of_formOf {w : Nat} {cs : List (Nat × Nat)} {x : Form} (h : formOf w cs = .ok x) (hw : w < 2 ^ 32)
    (hc : bitAt w 30 = false) (hx : bitAt w 29 = !x.conts.isEmpty) : leadWord (bitAt w 31) (bits w 28 22) x = w := by
  obtain ⟨-, -, hform⟩ := formOf_ok h
  have hc0 : bits w 30 30 = 0 := by rw [← bit_bitAt, hc]; rfl
  have egn : x.gn = bitAt w 21 := by rw [hform]; rfl
  have egp : x.gp.toNat = bits w 20 18 := by rw [hform]; exact toNat_ofNat_bits w 20 18
  have ed : x.d.toNat = bits w 17 12 := by rw [hform]; exact toNat_ofNat_bits w 17 12
  have ea : x.a.toNat = bits w 11 6 := by rw [hform]; exact toNat_ofNat_bits w 11 6
  have eb : x.b.toNat = bits w 5 0 := by rw [hform]; exact toNat_ofNat_bits w 5 0
  rw [leadWord, ← conts_isEmpty, ← hx, egn, egp, ed, ea, eb, bit_bitAt, bit_bitAt, bit_bitAt]
  calc _ = w % 2 ^ 32 := by
        rw [mod_eq_bits_add w 31 31, mod_eq_bits_add w 30 30, mod_eq_bits_add w 29 29, mod_eq_bits_add w 28 22,
          mod_eq_bits_add w 21 21, mod_eq_bits_add w 20 18, mod_eq_bits_add w 17 12, mod_eq_bits_add w 11 6,
          mod_eq_bits_add w 5 0, hc0]
        omega
    _ = w := Nat.mod_eq_of_lt hw

/-! ### The maps of the two sets (R62, R63) -/

/-- The lane map names an instruction of the lane set that has the opcode and the fields it was looked up by. -/
theorem form_opcode_of_laneOf {op : Nat} {x : Form} {i : Instr} (h : laneOf op x = some i) :
    i.form? = some x ∧ i.opcode = (false, op) := by
  unfold laneOf at h
  repeat' split at h
  all_goals cases h <;> exact ⟨rfl, rfl⟩

/-- So does the uniform map for the uniform set. -/
theorem form_opcode_of_uniOf {op : Nat} {x : Form} {i : Instr} (h : uniOf op x = some i) :
    i.form? = some x ∧ i.opcode = (true, op) := by
  unfold uniOf at h
  repeat' split at h
  all_goals cases h <;> exact ⟨rfl, rfl⟩

/-- An instruction that a set, an opcode and a form give has them, and meets no condition of R57. -/
theorem instrOf_ok {s : Bool} {op : Nat} {x : Form} {i : Instr} (h : instrOf s op x = .ok i) :
    i.form? = some x ∧ i.opcode = (s, op) ∧ i.wf = true := by
  unfold instrOf at h
  split at h
  · cases h
  next j hj =>
  split at h
  case h_2 => cases h
  case h_1 hlegal =>
  cases h
  have hnamed : i.form? = some x ∧ i.opcode = (s, op) := by
    cases s with
    | false => exact form_opcode_of_laneOf hj
    | true => exact form_opcode_of_uniOf hj
  exact ⟨hnamed.1, hnamed.2, by rw [Instr.wf, hlegal]; rfl⟩

/-! ### The decoder -/

/-- What the decoder has read where it accepts: a leading word, its continuations, the form of both and the instruction named by them. -/
theorem decode_ok {bs rest : List Byte} {i : Instr} (h : decode bs = .ok (i, rest)) :
    ∃ w r cs x, takeWord bs = some (w, r) ∧ bitAt w 30 = false ∧ takeConts (bitAt w 31) 2 0 (bitAt w 29) r = .ok (cs, rest) ∧
      formOf w cs = .ok x ∧ instrOf (bitAt w 31) (bits w 28 22) x = .ok i := by
  unfold decode at h
  split at h
  · cases h
  next w r hw =>
  split at h
  · cases h
  next hc =>
  split at h
  · cases h
  next cs r' hcs =>
  split at h
  · cases h
  next x hx =>
  split at h
  · cases h
  next j hj =>
  cases h
  exact ⟨w, r, cs, x, hw, by simpa using hc, hcs, hx, hj⟩

/-- The encoding of an instruction with a form: its leading word, then its continuations' words. -/
theorem encode_of_form {i : Instr} {x : Form} (h : i.form? = some x) :
    encode i = leBytes 4 (leadWord i.opcode.1 i.opcode.2 x) ++ (contWords i.opcode.1 x.conts).flatMap (leBytes 4) := by
  simp only [encode, encodeWords, h, List.flatMap_cons]

/-- Settles O57: each part of the decoder reads whole what it takes, so the encoder gives its bytes back. -/
theorem onlyEncodingsDecode : Obligations.OnlyEncodingsDecode := by
  intro bs rest i h
  obtain ⟨w, r, cs, x, hw, hc, hcs, hx, hi⟩ := decode_ok h
  obtain ⟨hform, hop, hwf⟩ := instrOf_ok hi
  obtain ⟨hlead, hlt⟩ := takeWord_some hw
  obtain ⟨hrise, hany, htail⟩ := takeConts_ok hcs
  have hconts : x.conts = cs := conts_of_formOf hx hrise
  have hword : leadWord (bitAt w 31) (bits w 28 22) x = w := leadWord_of_formOf hx hlt hc (by rw [hconts, hany])
  refine ⟨hwf, ?_⟩
  rw [encode_of_form hform, hop, hword, hconts, List.append_assoc, ← htail, hlead]

end Sys2Proof.Decoding

/-! PROOF. Every lane and uniform instruction with one result completes with it (R67, R79), and what that leaves alone (R7). -/

namespace Sys2Proof.Results

open Machine Claims

/-! ### Rows of lane instructions -/

/-- The instruction of a row completes with the row's results. -/
def LaneCompletes (r : LaneRow) : Prop :=
  ∀ (s : State) (i : Iss) (x : Form), LaneRuns s i x → r.ready x i →
    exec (r.ins x) s = .next (s.laneResult i x (r.wide x) (r.results x i))

theorem complete_iff (rows : List LaneRow) : Complete rows ↔ ∀ r ∈ rows, LaneCompletes r := Iff.rfl

theorem complete_append {rows rows' : List LaneRow} (h : Complete rows) (h' : Complete rows') : Complete (rows ++ rows') :=
  List.forall_mem_append.2 ⟨h, h'⟩

/-- A row completes whose instruction is a `laneWrite` that reads the row's value from ready sources. -/
theorem laneCompletes_of_laneWrite {r : LaneRow} {rd : Form → Iss → Fibre → Chk Word64}
    (he : ∀ x s, exec (r.ins x) s = laneWrite s x (r.wide x) (rd x))
    (hv : ∀ x i f, (∀ n ∈ r.srcs x, f.readable n = true) → rd x i f = .ok (r.val x i f)) : LaneCompletes r :=
  fun _ i x h hr => (he x _).trans
    (laneWrite_ok h (r.val x i) (fun f hf => hv x i f (hr f hf).1) fun f hf => (hr f hf).2)

theorem row1_completes {ins : Form → Instr} {op : Form → Iss → Fibre → Word → Word}
    (he : ∀ x s, exec (ins x) s = lane1 s x (op x) := by intros; rfl) : LaneCompletes (row1 ins op) :=
  laneCompletes_of_laneWrite he fun x _ f hs => by
    have ha : f.readable x.an = true := hs _ (List.mem_singleton_self _)
    rw [srcA_ok ha]; rfl

theorem row2_completes {ins : Form → Instr} {imm : Form → Word} {op : Form → Iss → Fibre → Word → Word → Word}
    (he : ∀ x s, exec (ins x) s = lane2 s x (imm x) (op x) := by intros; rfl) :
    LaneCompletes (row2 ins imm op) :=
  laneCompletes_of_laneWrite he fun x _ f hs => by
    simp only [row2] at hs
    have ha : f.readable x.an = true := hs _ (by split <;> simp)
    have hb : x.hasImm = false → f.readable x.bn = true := fun hi => hs _ (by simp [hi])
    rw [srcA_ok ha, srcB_ok _ hb]; rfl

theorem row3_completes {ins : Form → Instr} {imm : Form → Word} {op : Form → Iss → Fibre → Word → Word → Word → Word}
    (he : ∀ x s, exec (ins x) s = lane3 s x (imm x) (op x) := by intros; rfl) :
    LaneCompletes (row3 ins imm op) :=
  laneCompletes_of_laneWrite he fun x _ f hs => by
    simp only [row3] at hs
    have ha : f.readable x.an = true := hs _ (by split <;> simp)
    have hb : x.hasImm = false → f.readable x.bn = true := fun hi => hs _ (by simp [hi])
    have hc : f.readable x.cn = true := hs _ (by split <;> simp)
    rw [srcA_ok ha, srcB_ok _ hb, srcC_ok hc]; rfl

theorem srcA64_ok {x : Form} {f : Fibre} (h : f.readable x.an = true) (h1 : f.readable (x.an + 1) = true) :
    srcA64 x f = .ok (f.value x.an true) := readPair_ok _ h h1

theorem srcB64_ok {x : Form} {f : Fibre} (imm : Word64)
    (h : x.hasImm = false → f.readable x.bn = true ∧ f.readable (x.bn + 1) = true) :
    srcB64 x imm f = .ok (if x.hasImm then imm else f.value x.bn true) := by
  cases hi : x.hasImm with
  | true => simp [srcB64, hi]
  | false => simp [srcB64, hi, readPair_ok _ (h hi).1 (h hi).2, Fibre.value]

/-- IADD64 adds pairs, or a pair and an immediate (R68). -/
theorem iadd64_completes : LaneCompletes
    { ins := .iadd64, srcs := fun x => if x.hasImm then [x.an, x.an + 1] else [x.an, x.an + 1, x.bn, x.bn + 1],
      wide := fun _ => true,
      val := fun x _ f =>
        out64 x (rd64 x (f.value x.an true) + rd64 x (if x.hasImm then immWord64 x else f.value x.bn true)) } :=
  laneCompletes_of_laneWrite (fun _ _ => rfl) fun x _ f hs => by
    have ha : f.readable x.an = true ∧ f.readable (x.an + 1) = true :=
      ⟨hs _ (by dsimp only; split <;> simp), hs _ (by dsimp only; split <;> simp)⟩
    have hb : x.hasImm = false → f.readable x.bn = true ∧ f.readable (x.bn + 1) = true :=
      fun hi => ⟨hs _ (by simp [hi]), hs _ (by simp [hi])⟩
    rw [srcA64_ok ha.1 ha.2, srcB64_ok _ hb]; rfl

/-- BPICK's selectors come from C, or from an immediate in its place (R72). -/
theorem bpick_completes : LaneCompletes
    { ins := .bpick, srcs := fun x => if x.hasImm then [x.an, x.bn] else [x.an, x.bn, x.cn], wide := fun _ => false,
      val := fun x _ f =>
        (aluBpick (ra x f) (f.reg x.bn).val (if x.hasImm then immZWord x else rc x f)).setWidth 64 } :=
  laneCompletes_of_laneWrite (fun _ _ => rfl) fun x _ f hs => by
    have ha : f.readable x.an = true := hs _ (by dsimp only; split <;> simp)
    have hb : f.readable x.bn = true := hs _ (by dsimp only; split <;> simp)
    have hc : (if x.hasImm then .ok (immZWord x) else srcC x f) = Chk.ok (if x.hasImm then immZWord x else rc x f) := by
      cases hi : x.hasImm with
      | true => rfl
      | false => exact srcC_ok (hs _ (by simp [hi]))
    rw [srcA_ok ha, readSrc_ok _ hb, hc]; rfl

/-- CVT reads and writes a register or a pair, as its types ask (R203). -/
theorem cvt_completes : LaneCompletes
    { ins := .cvt, srcs := fun x => regPair x.an (cvtWidth (x.mf 17 14) == 64),
      wide := fun x => cvtWidth (x.mf 21 18) == 64,
      val := fun x _ f => cvtResult x (f.value x.an (cvtWidth (x.mf 17 14) == 64)) } :=
  laneCompletes_of_laneWrite (fun _ _ => rfl) fun _ _ _ hs => by rw [readWide_ok _ _ hs]; rfl

/-! ### The tables of lane instructions -/

theorem intRows_complete : Complete intRows := by
  rw [complete_iff, intRows]
  simp only [List.cons_append, List.nil_append, List.forall_mem_cons]
  refine ⟨row2_completes, row2_completes, row2_completes, row2_completes, row3_completes, row2_completes, row2_completes,
    row1_completes, row2_completes, row2_completes, row2_completes, row2_completes, row2_completes, row2_completes, ?_⟩
  exact ⟨row3_completes, row2_completes, row2_completes, row2_completes, row2_completes, row2_completes, row3_completes,
    row1_completes, row1_completes, row1_completes, row2_completes, row3_completes, iadd64_completes, bpick_completes,
    List.forall_mem_nil _⟩

theorem moveRows_complete : Complete moveRows := by
  rw [complete_iff, moveRows]
  simp only [List.forall_mem_cons]
  exact ⟨row1_completes, row1_completes, laneCompletes_of_laneWrite (fun _ _ => rfl) fun _ _ _ _ => rfl, row2_completes,
    laneCompletes_of_laneWrite (fun _ _ => rfl) fun _ _ _ _ => rfl, List.forall_mem_nil _⟩

theorem floatRows_complete : Complete floatRows := by
  rw [complete_iff, floatRows]
  simp only [List.cons_append, List.nil_append, List.forall_mem_cons]
  refine ⟨row2_completes, row2_completes, row2_completes, row2_completes, row2_completes, row2_completes, row3_completes,
    row1_completes, row1_completes, ?_⟩
  exact ⟨row1_completes, row1_completes, row1_completes, row1_completes, row1_completes, row1_completes, row2_completes,
    row2_completes, List.forall_mem_nil _⟩

theorem packedRows_complete : Complete packedRows := by
  rw [complete_iff, packedRows]
  simp only [List.forall_mem_cons]
  exact ⟨row2_completes, row2_completes, row3_completes, row2_completes, row2_completes, row2_completes, row2_completes,
    row3_completes, List.forall_mem_nil _⟩

theorem convertRows_complete : Complete convertRows := by
  rw [complete_iff, convertRows]
  simp only [List.forall_mem_cons]
  exact ⟨cvt_completes, row2_completes, List.forall_mem_nil _⟩

theorem laneRows_complete : Complete laneRows :=
  complete_append (complete_append (complete_append (complete_append intRows_complete moveRows_complete) floatRows_complete)
    packedRows_complete) convertRows_complete

/-! ### Rows of uniform instructions -/

/-- The instruction of a row completes with the row's result, once no load still has to write a register it names. -/
def UniCompletes (r : UniRow) : Prop :=
  ∀ (s : State) (i : Iss) (x : Form), UniRuns s i x r.roles → i.free ((x.dn, r.wide x) :: r.regs x) = true →
    exec (r.ins x) s = .next (s.uniResult i x (r.wide x) (r.val x i))

/-- A row completes whose instruction is a `uniWrite` of the row's value. -/
theorem uniCompletes_of_uniWrite {r : UniRow}
    (he : ∀ x s, exec (r.ins x) s = uniWrite s x r.roles (r.wide x) (r.regs x) (r.val x)) : UniCompletes r :=
  fun _ _ x h hf => (he x _).trans (uniWrite_ok h (r.val x) hf)

/-- Every uniform instruction with one result is such a `uniWrite` (R79, R80, R208). -/
theorem uniRows_uniWrite : ∀ r ∈ uniRows, ∀ x s, exec (r.ins x) s = uniWrite s x r.roles (r.wide x) (r.regs x) (r.val x) := by
  rw [uniRows]
  simp only [List.cons_append, List.nil_append, List.forall_mem_cons, List.not_mem_nil, false_implies, implies_true, and_true]
  and_intros <;> exact fun _ _ => rfl

theorem uniRows_complete : ∀ r ∈ uniRows, UniCompletes r :=
  fun r hr => uniCompletes_of_uniWrite (uniRows_uniWrite r hr)

/-! ### Results and frames -/

/-- What a completed row shows in a participant's D and leaves alone elsewhere (R7, R44, R67). -/
theorem LaneCompletes.writes {r : LaneRow} (hc : LaneCompletes r) {s : State} {i : Iss} {x : Form} (h : LaneRuns s i x)
    (hr : r.ready x i) : ∃ t, exec (r.ins x) s = .next t ∧ LaneFrame s t i x (r.wide x) ∧
      ∀ f, Sole i x f → t.laneHolds i.ref f.lane x.dn ((r.val x i f).setWidth 32) ∧
        (r.wide x = true → t.laneHolds i.ref f.lane (x.dn + 1) ((r.val x i f >>> 32).setWidth 32)) :=
  ⟨_, hc s i x h hr, laneResult_frame x _ (r.val x i) (iss_find h.found), fun _ hf =>
    laneResult_holds _ (r.val x i) (iss_find h.found) hf⟩

/-- Settles O47: each row's instruction ends in the shared result of its set, whose frame is known. -/
theorem resultsAreWrittenAndNothingElse : Obligations.ResultsAreWrittenAndNothingElse := by
  refine ⟨fun r hr s i x h hready => ?_, fun r hr s i x h hfree => ?_⟩
  · obtain ⟨t, ht, hframe, hholds⟩ := LaneCompletes.writes (laneRows_complete r hr) h hready
    refine ⟨t, ht, hframe, fun f hf => ?_⟩
    obtain ⟨hlow, hhigh⟩ := hholds f hf
    exact ⟨fun _ => hlow, fun hw => ⟨hlow, hhigh hw⟩⟩
  · exact ⟨_, uniRows_complete r hr s i x h hfree, uniResult_frame x (r.wide x) (r.val x i) (iss_find h.found)⟩

end Sys2Proof.Results

/-! PROOF. What a reset and the creation of a context leave, and lane instructions that gather from every participant: LANEX, PCOL
and SR. -/

namespace Sys2Proof.Device

open Machine Claims

/-! ### Reset and creation (R22, R265, R293, R300) -/

/-- A system register of a context just created reads its reset value (R306). -/
theorem reg_context_reset (part sn : Nat) : (Context.reset part).reg sn = sysReset sn := BitVec.zero_xor

theorem sysReset_snLq {q : Nat} (h : q < 64) : sysReset (snLq + q) = 0x0000000100000100 :=
  if_pos ⟨Nat.le_add_right _ _, Nat.add_lt_add_left h _⟩

/-- A system register below the launch queues resets to 0 (R306). -/
theorem sysReset_of_lt_snLq {sn : Nat} (h : sn < snLq) : sysReset sn = 0 :=
  if_neg fun hq => absurd h (Nat.not_lt.2 hq.1)

theorem memoryOk_reset : State.reset.memoryOk = true := by
  obtain ⟨hmem, hpod, hw⟩ := reset_mem_wf
  exact (State.memoryOk_iff _).2 ⟨hmem, hpod, hw, List.forall_mem_nil _⟩

/-- Settles O59: reset and creation are literal values, and every register of a new context reads its reset value. -/
theorem resetAndCreationValues : Obligations.ResetAndCreationValues := by
  refine ⟨rfl, fun _ _ => rfl, fun _ => ⟨rfl, rfl, rfl, rfl, rfl, rfl, rfl, rfl, fun _ => rfl, fun _ => rfl⟩, rfl, rfl, rfl, rfl, rfl,
    rfl, rfl, rfl, memoryOk_reset, fun part => ⟨fun q hq => ?_, fun n hn => ?_, fun n hn => ?_, rfl, rfl, rfl⟩⟩
  · rw [reg_context_reset, sysReset_snLq hq]
  · rw [reg_context_reset, sysReset_of_lt_snLq (by simp only [snRange, snLq]; omega)]
  · rw [reg_context_reset, sysReset_of_lt_snLq (by simp only [snPkr, snLq]; omega)]

/-! ### Instructions that gather from the participants (R21, R77, R78) -/

/-- LANEX's second source: a constant of its MOD, an immediate, or B. -/
def lanexSource (x : Form) (f : Fibre) : Word :=
  if x.mb 21 then BitVec.ofNat 32 (x.mf 20 16) else rb x (immWord x) f

section
variable {s : State} {i : Iss} {x : Form}

theorem lanexSource_ok {f : Fibre} (h : x.mb 21 = true ∨ x.hasImm = true ∨ f.readable x.bn = true) :
    (if x.mb 21 then .ok (BitVec.ofNat 32 (x.mf 20 16)) else srcB x (immWord x) f) = Chk.ok (lanexSource x f) := by
  cases hm : x.mb 21 with
  | true => simp [lanexSource, hm]
  | false =>
    have hb : x.hasImm = false → f.readable x.bn = true := fun hi => by simpa [hm, hi] using h
    simp only [lanexSource, hm]
    exact srcB_ok (immWord x) hb

theorem lanex_completes (h : LaneRuns s i x)
    (hr : ∀ f ∈ i.takers x, f.readable x.an = true ∧ f.writable x.dn = true ∧
      (x.mb 21 = true ∨ x.hasImm = true ∨ f.readable x.bn = true)) :
    let ins := (i.takers x).map fun f => (f.lane, (f.reg x.an).val, lanexSource x f)
    let outs := ins.map fun v => (v.1, lanexResult x ins v)
    exec (.lanex x) s = .next (((s.produce i x false (ready (outs.map fun v => (v.1, v.2.1.setWidth 64)))).onFibres i
      (outs.map fun v => (v.1, v.2.2)) fun ok f => f.setPred x.cn ok).advance i x.words) := by
  intro ins outs
  rw [exec_lanex, execLanex]
  refine laneSet_ok h ?_
  rw [checkAll_ok i _ (fun f => (((f.reg x.an).val, lanexSource x f), ())) fun f hf => ?_]
  · simp only [ins, outs, List.map_map]; rfl
  · obtain ⟨ha, hd, hb⟩ := hr f hf
    rw [srcA_ok ha, lanexSource_ok hb, destOk_ok hd]; rfl

/-- PCOL with a value result (R77): it goes into D of every participant. -/
theorem pcol_value_completes (h : LaneRuns s i x) (hop : x.mf 2 0 = 0 ∨ x.mf 2 0 = 4 ∨ x.mf 2 0 = 5)
    (hw : ∀ f ∈ i.takers x, f.writable x.dn = true) :
    let t := ((i.takers x).filter fun f => f.pred x.an != x.mb 3).map (·.lane)
    exec (.pcol x) s = .next (s.laneResult i x false
      ((i.takers x).map fun f => (f.lane, (pcolValue (x.mf 2 0) t).setWidth 64))) := by
  intro t
  rw [exec_pcol, execPcol]
  refine laneSet_ok h ?_
  rw [checkAll_ok i _ (fun _ => ()) fun f hf => destOk_ok (hw f hf)]
  simp only [if_pos hop, List.map_map]; rfl

/-- PCOL with a predicate result (R77). -/
theorem pcol_predicate_completes (h : LaneRuns s i x) (hop : ¬ (x.mf 2 0 = 0 ∨ x.mf 2 0 = 4 ∨ x.mf 2 0 = 5)) :
    let t := ((i.takers x).filter fun f => f.pred x.an != x.mb 3).map (·.lane)
    exec (.pcol x) s = .next ((s.onFibres i ((i.takers x).map fun f =>
      (f.lane, pcolBool (x.mf 2 0) ((i.takers x).map (·.lane)) t)) fun r f => f.setPred x.dn r).advance i x.words) := by
  intro t
  rw [exec_pcol, execPcol]
  refine laneSet_ok h ?_
  simp only [if_neg hop, List.map_map]; rfl

theorem sr_completes (h : LaneRuns s i x) (hw : ∀ f ∈ i.takers x, f.writable x.dn = true) :
    exec (.sr x) s = .next ((s.onFibres i ((i.takers x).map fun f => (f.lane, srValue s i f x.an))
      fun v f => srLatch s.clock x.an (f.markFull x.dn v)).advance i x.words) := by
  rw [exec_sr, execSr]
  refine laneSet_ok h ?_
  rw [checkAll_ok i _ (fun _ => ()) fun f hf => destOk_ok (hw f hf)]

end

/-- Settles O6: each of the three runs in the lane set's frame, and its checks succeed on ready registers. -/
theorem laneExchangeAndSpecialRegistersComplete : Obligations.LaneExchangeAndSpecialRegistersComplete :=
  ⟨fun _ _ _ h hr => lanex_completes h hr,
    fun _ _ _ h => ⟨fun hop hw => pcol_value_completes h hop hw, fun hop => pcol_predicate_completes h hop⟩,
    fun _ _ _ h hw => sr_completes h hw⟩

end Sys2Proof.Device

/-! PROOF. Events that time brings about: bins fire, waits end, and power tokens move round (R24, R40, R41, R87, R153, R274, R278). -/

namespace Sys2Proof.Timed

open Machine Claims

/-! ### Spawn bins (R40, R41) -/

section
variable {s : State} {core slot n : Nat} {k : Crew} {b : Bin}

theorem binTimer_due (hk : s.crew? core slot = some k) (hb : k.live.bins[n]? = some b) (hh : b.held = false)
    (hdue : b.due = false) (ht : b.since + max 1 b.tmr ≤ s.clock) :
    s.binTimer core slot n = some (s.updCrew core slot fun k => k.updLive fun c =>
      { c with bins := updFirst (fun x => x.entry == b.entry) (fun x => { x with due := true }) c.bins }) := by
  have hexp : b.expired s.clock = true := decide_eq_true ht
  simp [State.binTimer, hk, hb, hh, hdue, hexp]

theorem binFire_forms {s1 : State} {e : EntryRec} {p : Nat × List Nat} (hk : s.crew? core slot = some k)
    (hb : k.live.bins[n]? = some b) (hh : b.held = false) (hrun : k.running = true)
    (hfire : b.due = true ∨ b.since + max 1 b.tmr ≤ s.clock ∨ b.thr ≤ b.pending.length)
    (he : s.entryAt k.part b.entry = some e) (hp : s.pickQuad k.part core (some slot) (e.roles.headD .vector) [] = some p)
    (hform : s.formFlock core slot p.1 (p.2.take (min p.2.length b.pending.length)) (e.roles.headD .vector) e.budget b.entry []
      (b.pending.take (min p.2.length b.pending.length)) = some s1) :
    s.binFire core slot n = some ((s1.updCrew core slot fun k => k.updLive fun c =>
      { c with
        bins := if min p.2.length b.pending.length = b.pending.length then dropFirst (fun x => x.entry == b.entry) c.bins
          else updFirst (fun x => x.entry == b.entry)
            (fun x => { x with
              pending := x.pending.drop (min p.2.length b.pending.length), since := s.clock, due := false })
            c.bins }).settleBins core) := by
  have hready : (b.due || b.expired s.clock || decide (b.thr ≤ b.pending.length)) = true := by
    simpa [Bin.expired, or_assoc] using hfire
  simp only [State.binFire, hk, hb, hh, hrun, hready, he, hp, hform, Option.bind_some, Option.map_some, Bool.not_true,
    Bool.or_self, Bool.false_eq_true, if_false]

end

/-! ### Waits that end (R87, R153, R274, R278) -/

/-- The batch at issue freed from its wait. -/
def freed (s : State) (i : Iss) : State := s.onBatch i fun x => { x with wait := .none }

section
variable {s : State} {b : BatchRef} {i : Iss}

theorem rcvTimeout_closes {addr t opened : Nat} (hi : s.find b = some i) (hw : i.batch.wait = .rcv addr t opened)
    (h0 : t ≠ 0) (ht : opened + t ≤ s.clock) : s.rcvTimeout b = some (s.onFlock i fun f => f.closeRcv addr) := by
  simp [State.rcvTimeout, hi, hw, h0, ht]

theorem sleepTimeout_frees {qd t since : Nat} {nb : Option (Nat × Nat)} (hi : s.find b = some i)
    (hw : i.batch.wait = .sleep qd nb t since) (h0 : t ≠ 0) (ht : since + t ≤ s.clock) :
    s.sleepTimeout b = some ((freed s i).onFlock i fun f => f.setQ qd false) := by
  simp [State.sleepTimeout, freed, hi, hw, h0, ht]

theorem yieldExpiry_frees {t : Nat} (hi : s.find b = some i) (hw : i.batch.wait = .yield t) (ht : t ≤ s.clock) :
    s.yieldExpiry b = some (freed s i) := by
  simp [State.yieldExpiry, freed, hi, hw, ht]

/-! A batch asleep at QWAIT. -/

variable {qd t since next from_ : Nat} {d : Loc}

theorem qwaitTimeout_frees {listed : Bool} (hi : s.find b = some i)
    (hw : i.batch.wait = .qwait qd d listed t since next from_) (h0 : t ≠ 0) (ht : since + t ≤ s.clock) :
    s.qwaitTimeout b = some ((freed s i).onFlock i fun f => f.setQ qd false) := by
  simp [State.qwaitTimeout, freed, hi, hw, h0, ht]

/-- A sleeper whose queue holds an element when it reads it again wakes. -/
theorem qwaitReread_wakes {l : Loc} (hi : s.find b = some i) (hw : i.batch.wait = .qwait qd d false t since next from_)
    (hn : next ≤ s.clock) (hl : s.rereadAt i d = some l) (hu : 0 < (s.qdesc l).used) :
    s.qwaitReread b = some ((freed s i).onFlock i fun f => f.setQ qd true) := by
  simp [State.qwaitReread, freed, hi, hw, hn, hl, hu]

/-- One whose queue holds none, or whose descriptor is gone, sleeps on until its next read. -/
theorem qwaitReread_waits (hi : s.find b = some i) (hw : i.batch.wait = .qwait qd d false t since next from_)
    (hn : next ≤ s.clock) (hl : ∀ l, s.rereadAt i d = some l → (s.qdesc l).used ≤ 0) :
    s.qwaitReread b = some (s.onBatch i fun x =>
      { x with wait := .qwait qd ((s.rereadAt i d).getD d) false t since (nextAfter next 1024 s.clock) from_ }) := by
  have hnone : ((s.rereadAt i d).all fun l => decide ((s.qdesc l).used ≤ 0)) = true := by
    cases h : s.rereadAt i d with
    | none => rfl
    | some l => exact decide_eq_true (hl l h)
  simp only [State.qwaitReread, hi, hw, Option.bind_some, if_pos hn, if_pos hnone]

end

theorem binsAndTimersComplete : BinsAndTimersComplete := by
  refine ⟨fun s core slot n k b hd hk hb hh => ⟨fun hdue ht => ?_, fun s1 e p hrun hfire he hp hform => ?_⟩,
    fun s b i hd hi => ⟨fun addr t opened hw h0 ht => ?_, fun qd nb t since hw h0 ht => ?_,
      fun qd d listed t since next from_ hw => ⟨fun h0 ht => ?_, fun hl hn => ?_⟩, fun t hw ht => ?_⟩⟩
  · exact runEvent_ok hd (binTimer_due hk hb hh hdue ht)
  · exact runEvent_ok hd (binFire_forms hk hb hh hrun hfire he hp hform)
  · exact runEvent_ok hd (rcvTimeout_closes hi hw h0 ht)
  · exact runEvent_ok hd (sleepTimeout_frees hi hw h0 ht)
  · exact runEvent_ok hd (qwaitTimeout_frees hi hw h0 ht)
  · subst hl
    refine ⟨fun l hl => ⟨fun hu => runEvent_ok hd (qwaitReread_wakes hi hw hn hl hu), fun hu => ?_⟩, fun hl => ?_⟩
    · rw [exec_qwaitReread, execQwaitReread, runEvent_ok hd (qwaitReread_waits hi hw hn fun l' hl' => ?_), hl]
      · rfl
      · rwa [← Option.some.inj (hl.symm.trans hl')]
    · rw [exec_qwaitReread, execQwaitReread, runEvent_ok hd (qwaitReread_waits hi hw hn fun l' hl' => ?_), hl]
      · rfl
      · cases hl.symm.trans hl'
  · exact runEvent_ok hd (yieldExpiry_frees hi hw ht)

/-! ### Power tokens (R24) -/

/-- Is a token one that POWER_TOKEN_PASS takes from herd `g`? -/
def moves (s : State) (g : Nat) : TokenHold → Bool := fun h =>
  h.herd == g && ((h.start.isNone && !s.tokenReady g) || h.over s.clock)

theorem moves_iff (s : State) (g : Nat) (h : TokenHold) :
    moves s g h = true ↔ h.herd = g ∧ ((h.start = none ∧ s.tokenReady g = false) ∨ h.over s.clock = true) := by
  simp [moves]

/-- What is dropped is the first entry that satisfies the condition. -/
theorem dropFirst_append_cons {α : Type} {p : α → Bool} {pre post : List α} {a : α} (hpre : ∀ x ∈ pre, p x = false) (ha : p a = true) :
    dropFirst p (pre ++ a :: post) = pre ++ post := by
  induction pre with
  | nil => simp [dropFirst, ha]
  | cons x xs ih =>
    obtain ⟨hx, hxs⟩ := List.forall_mem_cons.1 hpre
    simp [dropFirst, hx, ih hxs]

section
variable {s : State} {die herd : Nat}

/-- The first token that is to move leaves its herd; it joins the next one unless it returns to herd 0 or there is one too many. -/
theorem tokenPass_moves {pre post : List TokenHold} {h : TokenHold} (hh : herd < 8) (hs : s.holds = pre ++ h :: post)
    (hm : moves s (8 * die + herd) h = true) (hpre : ∀ d ∈ pre, moves s (8 * die + herd) d = false ∧ d ≠ h) :
    s.tokenPass die herd = some (if herd = 7 ∨ s.tokenCount die < s.tokensOut die then { s with holds := pre ++ post }
      else { s with holds := pre ++ post ++ [{ herd := 8 * die + herd + 1, start := none, last := s.clock }] }) := by
  have hfind : s.holds.find? (moves s (8 * die + herd)) = some h :=
    List.find?_eq_some_iff_append.2 ⟨hm, pre, post, hs, fun d hd => by simp [(hpre d hd).1]⟩
  have hdrop : dropFirst (fun x => x == h) s.holds = pre ++ post := by
    rw [hs]; exact dropFirst_append_cons (fun d hd => by simpa using (hpre d hd).2) (beq_self_eq_true h)
  have hnext : (s.tokenCount die < s.tokensOut die ∨ (if herd = 7 then 8 * die else 8 * die + herd + 1) = 8 * die) ↔
      (herd = 7 ∨ s.tokenCount die < s.tokensOut die) := by split <;> omega
  unfold moves at hfind
  simp only [State.tokenPass, if_neg (Nat.not_le.2 hh), hfind, hdrop, hnext]
  by_cases hc : herd = 7 ∨ s.tokenCount die < s.tokensOut die
  · rw [if_pos hc, if_pos hc]
  · have h7 : herd ≠ 7 := fun h7 => hc (.inl h7)
    simp only [if_neg hc, if_neg h7]

/-- Where herd 0 holds no token that is listed to move, one of the die's free tokens does. -/
theorem tokenPass_starts (hh : ∀ h ∈ s.holds, moves s (8 * die) h = false) (hout : s.tokensOut die < s.tokenCount die)
    (hr : s.tokenReady (8 * die) = false) :
    s.tokenPass die 0 = some { s with holds := s.holds ++ [{ herd := 8 * die + 1, start := none, last := s.clock }] } := by
  have hfind : s.holds.find? (moves s (8 * die)) = none := List.find?_eq_none.2 fun h hm => by simp [hh h hm]
  unfold moves at hfind
  simp only [State.tokenPass, Nat.add_zero, hfind]
  simp [hout, hr]

end

theorem powerTokensMoveRound : PowerTokensMoveRound := by
  intro s die herd hd hh
  refine ⟨fun pre post h hs hherd hm hpre => ?_, fun h0 hn hout hr => ?_⟩
  · have hstep := tokenPass_moves hh hs ((moves_iff _ _ _).2 ⟨hherd, hm⟩) fun d hd =>
      ⟨Bool.eq_false_iff.2 fun h => (hpre d hd).1 ((moves_iff _ _ _).1 h), (hpre d hd).2⟩
    refine ⟨fun hc => runEvent_ok hd ?_, fun h7 hout => runEvent_ok hd ?_⟩
    · rw [hstep, if_pos hc]
    · rw [hstep, if_neg (by omega)]
  · subst h0
    refine runEvent_ok hd (tokenPass_starts (fun h hm => Bool.eq_false_iff.2 fun hmv => ?_) hout hr)
    obtain ⟨hherd, ⟨hstart, -⟩ | hover⟩ := (moves_iff _ _ _).1 hmv
    · exact (hn h hm hherd).1 hstart
    · exact absurd hover (by simp [(hn h hm hherd).2])

/-- Settles O42: an event that is due runs its step, which leaves what the statement says. -/
theorem binsTimersAndTokensComplete : Obligations.BinsTimersAndTokensComplete := ⟨binsAndTimersComplete, powerTokensMoveRound⟩

end Sys2Proof.Timed

/-! PROOF. The management side: contexts and quadrants, registers, firmware, power and reset, binaries (R24, R26, R289, R292, R307,
R349-R366). -/

namespace Sys2Proof.Management

open Machine Claims

variable {s : State}

/-! ### Searches and updates of contexts -/

/-- The one entry that satisfies a condition is the one found. -/
theorem find?_eq_some_of_unique {α : Type} {p : α → Bool} {l : List α} {a : α} (ha : a ∈ l) (hp : p a = true)
    (hu : ∀ b ∈ l, p b = true → b = a) : l.find? p = some a := by
  obtain ⟨b, hb⟩ := Option.isSome_iff_exists.1 (List.find?_isSome.2 ⟨a, ha, hp⟩)
  rw [hb, hu b (List.mem_of_find?_eq_some hb) (List.find?_some hb)]

theorem updFirst_congr {α : Type} {p : α → Bool} {f g : α → α} {l : List α} (h : ∀ a, l.find? p = some a → f a = g a) :
    updFirst p f l = updFirst p g l := by
  induction l with
  | nil => rfl
  | cons b r ih =>
    by_cases hb : p b = true
    · simp [updFirst, hb, h b (List.find?_cons_of_pos hb)]
    · simp [updFirst, hb, ih fun a ha => h a ((List.find?_cons_of_neg hb).trans ha)]

/-- Two changes of a context are one where they give the same for the context that is there. -/
theorem updCtx_congr {part : Nat} {c : Context} {f g : Context → Context} (hc : s.ctx? part = some c) (h : f c = g c) :
    s.updCtx part f = s.updCtx part g := by
  have : updFirst (fun c => c.part == part) f s.ctxs = updFirst (fun c => c.part == part) g s.ctxs :=
    updFirst_congr fun d hd => by cases hd.symm.trans hc; exact h
  rw [State.updCtx, this]; rfl

/-! ### Contexts (R289, R311) -/

theorem createContext_new {part : Nat} (hp : part < 16) (hc : s.ctx? part = none) :
    s.createContext part = some ((List.range 64).foldl (fun s g => s.fillFloor part g)
      { s with ctxs := s.ctxs ++ [{ Context.reset part with quantumAt := s.clock }] }) :=
  if_neg (by simp [hp, hc])

/-- A context's destruction waits for nothing: no crew, engine, buffered request, request for a frame or posted write is left. -/
structure Quiet (s : State) (part : Nat) (c : Context) : Prop where
  crews : ∀ k ∈ s.crews, k.part ≠ part
  engines : ∀ e ∈ s.engines, e.part ≠ part
  buffers : ∀ e ∈ s.sb ++ s.rq ++ s.linkWait, e.part ≠ part
  frames : ∀ f ∈ c.frames, s.frameBusy part f = false
  posted : ∀ p ∈ s.posted, p.fn ≠ part + 1

theorem Quiet.not_busy {part : Nat} {c : Context} (h : Quiet s part c) :
    ((s.crews.any fun k => k.part == part) || (s.engines.any fun e => e.part == part)
      || ((s.sb ++ s.rq ++ s.linkWait).any fun e => e.part == part) || c.frames.any (s.frameBusy part)
      || s.posted.any fun p => p.fn == part + 1) = false := by
  have hcrews : (s.crews.any fun k => k.part == part) = false := List.any_eq_false.2 fun k hk => by simpa using h.crews k hk
  have hengines : (s.engines.any fun e => e.part == part) = false := List.any_eq_false.2 fun e he => by simpa using h.engines e he
  have hbuffers : ((s.sb ++ s.rq ++ s.linkWait).any fun e => e.part == part) = false :=
    List.any_eq_false.2 fun e he => by simpa using h.buffers e he
  have hframes : c.frames.any (s.frameBusy part) = false := List.any_eq_false.2 fun f hf => by simpa using h.frames f hf
  have hposted : (s.posted.any fun p => p.fn == part + 1) = false := List.any_eq_false.2 fun p hp => by simpa using h.posted p hp
  rw [hcrews, hengines, hbuffers, hframes, hposted]; rfl

/-- Such a context is destroyed once its quadrants can be cleared. -/
theorem destroyContext_quiet {s0 : State} {part : Nat} {c : Context} (hc : s.ctx? part = some c) (hq : Quiet s part c)
    (h0 : s.clearQuads ((List.range 2048).filter c.owns) = .ok s0) :
    let s1 := (((List.range 2048).filter c.owns).foldl (fun s gq => s.cleanQuad (some part) gq) s0).freeContextWays part
    let s2 := (c.frames.foldl (fun s f => s.cleanFrame part f) s1).cleanWindow (inSlice c.winBase c.winSize)
    s.destroyContext part = some { s2 with
      icache := s2.icache.filter fun f => f.part != part
      ctxs := s2.ctxs.filter fun d => d.part != part
      l1 := s2.l1.filter fun x => x.part != part
      tlb := s2.tlb.filter fun t => t.part != part
      fwd := s2.fwd.filter fun f => f.part != part
      hits := s2.hits.filter fun h => h.1 / 2 ^ 36 != part
      ahead := s2.ahead.filter fun b => b.fn != part + 1
      shTags := s2.shTags.filter fun t => t.1 % 32 != part
      shHits := s2.shHits.filter fun t => t.1 / 32 % 32 != part
      errlog := s2.errlog.map fun r => if r.ctx == some part then { r with ctx := none, ia := 0 } else r
      clean := s2.clean.filter fun i => i.part != part
      lodged := s2.lodged.filter fun p => p.2 != part } := by
  simp only [State.destroyContext, hc, Option.bind_some, hq.not_busy, h0, Bool.false_eq_true, if_false]

/-! ### Quadrants that change hands (R289, R292) -/

theorem writeQown_names {part word v : Nat} {c : Context} (hc : s.ctx? part = some c) (hw : word < 32) :
    let todo := ((List.range 64).map fun b => 64 * word + b).filter fun gq =>
      bitAt v (gq % 64) != c.owns gq && !(s.fence.quads.contains gq) && !(s.fence.cores.contains (gq / 4))
    s.writeQown part word v = some (s.updCtx part fun c =>
      { c with handover := (c.handover.filter fun g => g / 64 != word) ++ todo }) := by
  simp only [State.writeQown, hc, Option.bind_some, if_neg (Nat.not_le.2 hw)]

section
variable {gq : Nat} {c : Context}

/-- A context that is to gain a quadrant is its heir. -/
theorem heir_of_gains (hc : c ∈ s.ctxs) (hq : gq ∈ c.handover) (hown : c.owns gq = false)
    (hu : ∀ x ∈ s.ctxs, gq ∈ x.handover → x = c ∨ x.owns gq = true) : s.heir gq = some c := by
  have hfind : (s.ctxs.find? fun c => c.handover.contains gq && !c.owns gq) = some c := by
    refine find?_eq_some_of_unique hc (by simp [hq, hown]) fun x hx hp => ?_
    obtain ⟨hxq, hxo⟩ : gq ∈ x.handover ∧ x.owns gq = false := by simpa using hp
    exact (hu x hx hxq).resolve_right (by simp [hxo])
  simp only [State.heir, hfind]

/-- Where none is, the owner that gives it up counts as its heir. -/
theorem heir_of_gives (hc : c ∈ s.ctxs) (hq : gq ∈ c.handover)
    (hu : ∀ x ∈ s.ctxs, gq ∈ x.handover → x = c ∧ x.owns gq = true) : s.heir gq = some c := by
  have hnone : (s.ctxs.find? fun c => c.handover.contains gq && !c.owns gq) = none := by
    refine List.find?_eq_none.2 fun x hx hp => ?_
    obtain ⟨hxq, hxo⟩ : gq ∈ x.handover ∧ x.owns gq = false := by simpa using hp
    exact absurd (hu x hx hxq).2 (by simp [hxo])
  have hfind : (s.ctxs.find? fun c => c.handover.contains gq) = some c :=
    find?_eq_some_of_unique hc (by simpa using hq) fun x hx hp => (hu x hx (by simpa using hp)).1
  simp only [State.heir, hnone, hfind]

variable {s1 : State}

/-- A quadrant that nobody owns passes to its heir. -/
theorem handover_unowned (hh : s.heir gq = some c) (ho : s.ctxs.find? (fun d => d.owns gq) = none)
    (h1 : s.clearQuads [gq] = .ok s1) :
    s.handover gq = some ((s1.cleanQuad none gq).passQuad none c.part gq) := by
  simp [State.handover, hh, ho, h1]

/-- One that has an owner passes on once no crew of the owner lives there. -/
theorem handover_owned {d : Context} (hh : s.heir gq = some c) (ho : s.ctxs.find? (fun d => d.owns gq) = some d)
    (hl : s.quadLives gq = false) (h1 : s.clearQuads [gq] = .ok s1) :
    s.handover gq = some ((s1.cleanQuad (some d.part) gq).passQuad (some d.part) c.part gq) := by
  simp [State.handover, hh, ho, hl, h1]

end

/-- A change of hands clears the quadrant's bit for its owner, and sets it for an heir other than the owner. -/
theorem passQuad_unowned (heir gq : Nat) : s.passQuad none heir gq =
    (s.updCtx heir fun d => { d.setOwn gq true with handover := d.handover.filter (· != gq) }).raiseFloors heir := rfl

theorem passQuad_other {o heir : Nat} (gq : Nat) (h : o ≠ heir) : s.passQuad (some o) heir gq =
    ((s.updCtx o fun x => { x.setOwn gq false with handover := x.handover.filter (· != gq) }).updCtx heir fun d =>
      { d.setOwn gq true with handover := d.handover.filter (· != gq) }).raiseFloors heir := by
  have hne : (some o != some heir) = true := by simpa using h
  simp only [State.passQuad, hne, if_true]

theorem passQuad_same (o gq : Nat) : s.passQuad (some o) o gq =
    (s.updCtx o fun x => { x.setOwn gq false with handover := x.handover.filter (· != gq) }).updCtx o fun d =>
      { d.setOwn gq false with handover := d.handover.filter (· != gq) } := by
  have heq : (some o != some o) = false := by simp
  simp only [State.passQuad, heq, if_false, Bool.false_eq_true]

/-! ### Frames and window slices (R297, R311, R344) -/

section
variable {part f : Nat}

theorem assignFrame_free (hp : s.inPlan f = true) (hf : ∀ d ∈ s.ctxs, f ∉ d.frames) :
    s.assignFrame part f = s.updCtx part fun c =>
      { c with frames := insertAsc f c.frames, freeFrames := c.freeFrames ++ [f] } :=
  if_neg (by simpa [hp] using hf)

theorem assignFrame_refused (h : s.inPlan f = false ∨ ∃ d ∈ s.ctxs, f ∈ d.frames) : s.assignFrame part f = s :=
  if_pos (by simpa using h)

variable {c : Context}

theorem releaseFrame_other (hc : s.ctx? part = some c) (hf : f ∉ c.frames) : s.releaseFrame part f = some s :=
  if_pos (by simpa [hc] using hf)

/-- A frame of the context is released through the three cases of its lines and requests. -/
theorem releaseFrame_own (hc : s.ctx? part = some c) (hf : f ∈ c.frames) : s.releaseFrame part f =
    if s.vers.any fun v => v.site.part == part && inFrame f (128 * v.line) then s.askHolders part (65536 * f) 65536
    else if s.frameBusy part f then none
    else some ((s.cleanFrame part f).updCtx part fun c => { c with
      frames := c.frames.filter (· != f), freeFrames := c.freeFrames.filter (· != f)
      poolFrames := c.poolFrames.filter (· != f) }) :=
  if_neg (by simpa [hc] using hf)

theorem writeWindow_ok {base size : Nat} (hc : s.ctx? part = some c) (hw : s.windowOk part base size = true) :
    s.writeWindow part base size =
      (s.cleanWindow fun off => inSlice c.winBase c.winSize off && !inSlice base size off).updCtx part fun c =>
        { c with winBase := base, winSize := size } := by
  simp only [State.writeWindow, hc, if_pos hw]

theorem writeWindow_refused {base size : Nat} (hw : s.windowOk part base size = false) : s.writeWindow part base size = s := by
  simp only [State.writeWindow, hw, Bool.false_eq_true, if_false]; split <;> rfl

/-- A write of SIZE leaves the slice's base, and one of BASE its size. -/
theorem writeWindow_base {base : Nat} (hc : s.ctx? part = some c) (hw : s.windowOk part base c.winSize = true) :
    s.writeWindow part base c.winSize =
      (s.cleanWindow fun off => inSlice c.winBase c.winSize off && !inSlice base c.winSize off).updCtx part fun c =>
        { c with winBase := base } :=
  (writeWindow_ok hc hw).trans (updCtx_congr hc rfl)

theorem writeWindow_size {size : Nat} (hc : s.ctx? part = some c) (hw : s.windowOk part c.winBase size = true) :
    s.writeWindow part c.winBase size =
      (s.cleanWindow fun off => inSlice c.winBase c.winSize off && !inSlice c.winBase size off).updCtx part fun c =>
        { c with winSize := size } :=
  (writeWindow_ok hc hw).trans (updCtx_congr hc rfl)

end

/-! ### Registers of the management function (R349) -/

/-- A register that takes effect at once leaves what `writeMgmt` gives. -/
theorem exec_write {r : MgmtReg} {v : BitVec 64} {t : State} (hd : s.dead = false) (h : s.mgmtWrite r v.toNat = some t) :
    exec (.managementRegisterWrite r v) s = .next t := runEvent_ok hd h

/-- A value between two limits: the nearest to what is written. -/
theorem clamp_spec {lo hi : Nat} (v : Nat) (h : lo ≤ hi) :
    lo ≤ max lo (min hi v) ∧ max lo (min hi v) ≤ hi ∧ (lo ≤ v → v ≤ hi → max lo (min hi v) = v) ∧
      (v < lo → max lo (min hi v) = lo) ∧ (hi < v → max lo (min hi v) = hi) := by omega

/-- A row of limited registers: the register is written with the nearest value between its limits. -/
structure Limits (r : MgmtReg × Nat × Nat × (State → Nat → State)) : Prop where
  ordered : r.2.1 ≤ r.2.2.1
  takes : ∀ (s : State) (v : Nat), s.mgmtWrite r.1 v = some (r.2.2.2 s (max r.2.1 (min r.2.2.1 v)))

theorem limits_of {r : MgmtReg} {lo hi : Nat} {f : State → Nat → State} (h : lo ≤ hi := by decide)
    (hw : ∀ s v, s.mgmtWrite r v = some (f s (max lo (min hi v))) := by intros; rfl) : Limits (r, lo, hi, f) := ⟨h, hw⟩

theorem limited_limits : ∀ r ∈ limited, Limits r := by
  simp only [limited, List.forall_mem_cons]
  exact ⟨limits_of, limits_of, List.forall_mem_nil _⟩

theorem limitedEach_limits (n : Nat) (l : Link) : ∀ r ∈ limitedEach n l, Limits r := by
  simp only [limitedEach, List.forall_mem_cons]
  exact ⟨limits_of, limits_of, limits_of, limits_of, limits_of, List.forall_mem_nil _⟩

/-- What a write of a limited register leaves, and the value it takes. -/
theorem Limits.written {r : MgmtReg × Nat × Nat × (State → Nat → State)} (h : Limits r) (v : BitVec 64) (hd : s.dead = false) :
    ∃ w, exec (.managementRegisterWrite r.1 v) s = .next (r.2.2.2 s w) ∧ r.2.1 ≤ w ∧ w ≤ r.2.2.1 ∧
      (r.2.1 ≤ v.toNat → v.toNat ≤ r.2.2.1 → w = v.toNat) ∧ (v.toNat < r.2.1 → w = r.2.1) ∧ (r.2.2.1 < v.toNat → w = r.2.2.1) :=
  ⟨_, exec_write hd (h.takes s v.toNat), clamp_spec v.toNat h.ordered⟩

/-- A register that takes its value as it stands. -/
theorem taken_written {fn : Nat} (part i : Nat) (v : BitVec 64) (hf : fn ≤ 16) :
    ∀ r ∈ taken fn part i v s, s.mgmtWrite r.1 v.toNat = some r.2 := by
  have hbits : bits v.toNat 51 0 = v.toNat % 2 ^ 52 := by simp [bits]
  simp only [taken, List.forall_mem_cons]
  refine ⟨?_, ?_, rfl, rfl, ?_, rfl, rfl, rfl, rfl, rfl, rfl, rfl, List.forall_mem_nil _⟩
  · simp only [State.mgmtWrite, State.writeMgmt, if_pos hf, hbits]
  · simp only [State.mgmtWrite, State.writeMgmt, if_pos hf, BitVec.ofNat_toNat, BitVec.setWidth_eq]
  · simp only [State.mgmtWrite, State.writeMgmt, BitVec.ofNat_toNat, BitVec.setWidth_eq]

/-! Registers with numbers or fields of their own, and what a write leaves in each. -/

theorem mgmtWrite_lrec {fn slot word : Nat} (v : BitVec 64) (hf : fn ≤ 16) (hs : slot < 64) (hw : word < 16) :
    s.mgmtWrite (.lrec fn slot word) v.toNat = some (s.setFn fn ((s.fn fn).putWord slot word v)) := by
  simp only [State.mgmtWrite, State.writeMgmt, if_pos (And.intro hf (And.intro hs hw)), BitVec.ofNat_toNat, BitVec.setWidth_eq]

theorem mgmtWrite_tokens {die : Nat} (v : Nat) (h : die < 8) : s.mgmtWrite (.tokens die) v =
    some { s with tokens := spSet 1 die (max 1 (min (s.thermalLimit die) v)) s.tokens } := by
  simp only [State.mgmtWrite, State.writeMgmt, if_pos h]

theorem mgmtWrite_prio (part v : Nat) : s.mgmtWrite (.prio part) v = some (s.putReg part snPrio (v % 8)) := by
  simp [State.mgmtWrite, State.writeMgmt, bits]

theorem mgmtWrite_enginePkr {key : Nat} (v : Nat) (h : key < 32) : s.mgmtWrite (.enginePkr key) v =
    some (s.onPolicy fun p => { p with enginePkr := spSet 0 key (v % 4) p.enginePkr }) := by
  simp [State.mgmtWrite, State.writeMgmt, if_pos h, bits]

theorem mgmtWrite_lq {part q : Nat} (v : Nat) (h : q < 64) : s.mgmtWrite (.lq part q) v = some (s.writeLq part q v) := by
  simp only [State.mgmtWrite, State.writeMgmt, if_pos h]

theorem mgmtWrite_bwsh {part n : Nat} (v : Nat) (h : n < 16) : s.mgmtWrite (.bwsh part n) v = some (s.writeBwsh part n v) := by
  simp only [State.mgmtWrite, State.writeMgmt, if_pos h]

theorem mgmtWrite_slway {part g : Nat} (v : Nat) {c : Context} (hc : s.ctx? part = some c) (h : g < 64) :
    let owns := (List.range 32).any fun w => c.reg (snQown + w) != 0
    let floor := min (if owns then max 1 (bits v 12 8) else bits v 12 8) (s.leftOver part 16 fun d => d.wayFloor g)
    s.mgmtWrite (.slway part g) v = some ((s.putReg part (snSlway + g)
      (floor * 2 ^ 8 + min 16 (max floor (bits v 20 16)) * 2 ^ 16)).fillFloor part g) := by
  simp only [State.mgmtWrite, State.writeMgmt, if_pos h, State.writeSlway, hc]

theorem mgmtWrite_winBase {part : Nat} (v : Nat) {c : Context} (hc : s.ctx? part = some c) :
    s.mgmtWrite (.winBase part) v = some (s.writeWindow part v c.winSize) := by
  simp only [State.mgmtWrite, State.writeMgmt, hc, Option.map_some, Option.getD_some]

theorem mgmtWrite_winSize {part : Nat} (v : Nat) {c : Context} (hc : s.ctx? part = some c) :
    s.mgmtWrite (.winSize part) v = some (s.writeWindow part c.winBase v) := by
  simp only [State.mgmtWrite, State.writeMgmt, hc, Option.map_some, Option.getD_some]

/-! ### The claim about contexts and management -/

theorem handover_complete {s1 : State} {gq : Nat} {c : Context} (hd : s.dead = false) (hc : c ∈ s.ctxs) (hq : gq ∈ c.handover)
    (h1 : s.clearQuads [gq] = .ok s1) :
    (s.ctxs.find? (fun d => d.owns gq) = none → (∀ d ∈ s.ctxs, gq ∈ d.handover → d = c) →
      exec (.quadrantHandover gq) s = .next (((s1.cleanQuad none gq).updCtx c.part fun d =>
        { d.setOwn gq true with handover := d.handover.filter (· != gq) }).raiseFloors c.part)) ∧
    ∀ d, s.ctxs.find? (fun d => d.owns gq) = some d → s.quadLives gq = false →
      let s2 := (s1.cleanQuad (some d.part) gq).updCtx d.part fun x =>
        { x.setOwn gq false with handover := x.handover.filter (· != gq) }
      (d.part ≠ c.part → (∀ x ∈ s.ctxs, gq ∈ x.handover → x = c ∨ x.owns gq = true) → c.owns gq = false →
        exec (.quadrantHandover gq) s = .next ((s2.updCtx c.part fun d =>
          { d.setOwn gq true with handover := d.handover.filter (· != gq) }).raiseFloors c.part)) ∧
      (d.part = c.part → (∀ x ∈ s.ctxs, gq ∈ x.handover → x = c ∧ x.owns gq = true) →
        exec (.quadrantHandover gq) s = .next (s2.updCtx c.part fun d =>
          { d.setOwn gq false with handover := d.handover.filter (· != gq) })) := by
  refine ⟨fun ho hu => ?_, fun d ho hl => ⟨fun hne hu hown => ?_, fun he hu => ?_⟩⟩
  · have hown : c.owns gq = false := by simpa using List.find?_eq_none.1 ho c hc
    have hheir := heir_of_gains hc hq hown fun x hx hxq => .inl (hu x hx hxq)
    exact runEvent_ok hd ((handover_unowned hheir ho h1).trans (by rw [passQuad_unowned]))
  · have hheir := heir_of_gains hc hq hown hu
    exact runEvent_ok hd ((handover_owned hheir ho hl h1).trans (by rw [passQuad_other gq hne]))
  · have hheir := heir_of_gives hc hq hu
    exact runEvent_ok hd ((handover_owned hheir ho hl h1).trans (by rw [he, passQuad_same]))

theorem releaseFrame_complete {part : Nat} {v : BitVec 64} {c : Context} (hd : s.dead = false) (hc : s.ctx? part = some c) :
    let busy := s.vers.any fun w => w.site.part == part && inFrame v.toNat (128 * w.line)
    let out := exec (.managementRegisterWrite (.releaseFrame part) v) s
    (v.toNat ∉ c.frames → out = .next s) ∧
    (v.toNat ∈ c.frames → busy = false → s.frameBusy part v.toNat = false →
      out = .next ((s.cleanFrame part v.toNat).updCtx part fun c => { c with
        frames := c.frames.filter (· != v.toNat), freeFrames := c.freeFrames.filter (· != v.toNat)
        poolFrames := c.poolFrames.filter (· != v.toNat) })) ∧
    (v.toNat ∈ c.frames → busy = false → s.frameBusy part v.toNat = true → out = .next { s with stall := true }) ∧
    (∀ u, v.toNat ∈ c.frames → busy = true → s.askHolders part (65536 * v.toNat) 65536 = some u → out = .next u) := by
  refine ⟨fun hf => exec_write hd (releaseFrame_other hc hf), fun hf hb hr => exec_write hd ?_, fun hf hb hr => runEvent_none hd ?_,
    fun u hf hb hu => exec_write hd ?_⟩
  · exact (releaseFrame_own hc hf).trans (by simp only [hb, hr, Bool.false_eq_true, if_false])
  · exact (releaseFrame_own hc hf).trans (by simp only [hb, hr, Bool.false_eq_true, if_false, if_true])
  · exact (releaseFrame_own hc hf).trans (by simp only [hb, if_true, hu])

theorem windowRegisters_complete {part : Nat} {v : BitVec 64} {c : Context} (hd : s.dead = false) (hc : s.ctx? part = some c) :
    let gone := fun (base size off : Nat) => inSlice c.winBase c.winSize off && !inSlice base size off
    (s.windowOk part v.toNat c.winSize = true → exec (.managementRegisterWrite (.winBase part) v) s =
      .next ((s.cleanWindow (gone v.toNat c.winSize)).updCtx part fun c => { c with winBase := v.toNat })) ∧
    (s.windowOk part v.toNat c.winSize = false → exec (.managementRegisterWrite (.winBase part) v) s = .next s) ∧
    (s.windowOk part c.winBase v.toNat = true → exec (.managementRegisterWrite (.winSize part) v) s =
      .next ((s.cleanWindow (gone c.winBase v.toNat)).updCtx part fun c => { c with winSize := v.toNat })) ∧
    (s.windowOk part c.winBase v.toNat = false → exec (.managementRegisterWrite (.winSize part) v) s = .next s) := by
  refine ⟨fun hw => exec_write hd ?_, fun hw => exec_write hd ?_, fun hw => exec_write hd ?_, fun hw => exec_write hd ?_⟩
  · rw [mgmtWrite_winBase _ hc, writeWindow_base hc hw]
  · rw [mgmtWrite_winBase _ hc, writeWindow_refused hw]
  · rw [mgmtWrite_winSize _ hc, writeWindow_size hc hw]
  · rw [mgmtWrite_winSize _ hc, writeWindow_refused hw]

theorem contextsAndManagementComplete : ContextsAndManagementComplete := by
  refine ⟨fun s part hd hp hc => runEvent_ok hd (createContext_new hp hc),
    fun s s0 part c hd hc hk he hb hf hp h0 => runEvent_ok hd (destroyContext_quiet hc ⟨hk, he, hb, hf, hp⟩ h0),
    fun s part word v c hd hc hw => runEvent_ok hd (writeQown_names hc hw),
    fun s s1 gq c hd hc hq h1 => handover_complete hd hc hq h1,
    fun r hr s v hd => ?_, fun n l r hr s v hd => (limitedEach_limits n l r hr).written v hd,
    fun s fn part i v hd hf r hr => exec_write hd (taken_written part i v hf r hr), fun s part v hd => ?_⟩
  · obtain ⟨w, hw, hlo, hhi, hin, -⟩ := (limited_limits r hr).written v hd
    exact ⟨w, hw, hlo, hhi, hin⟩
  · exact ⟨exec_write hd (mgmtWrite_prio _ _), exec_write hd rfl,
      fun fn slot word hf hs hw => exec_write hd (mgmtWrite_lrec v hf hs hw),
      fun die h => exec_write hd (mgmtWrite_tokens _ h), fun key h => exec_write hd (mgmtWrite_enginePkr _ h),
      fun hp hf => exec_write hd (congrArg some (assignFrame_free hp hf)),
      fun h => exec_write hd (congrArg some (assignFrame_refused h)),
      fun c hc => releaseFrame_complete hd hc, fun c hc => windowRegisters_complete hd hc,
      fun q h => exec_write hd (mgmtWrite_lq _ h), fun n h => exec_write hd (mgmtWrite_bwsh _ h), exec_write hd rfl,
      fun c g hc h => exec_write hd (mgmtWrite_slway _ hc h)⟩

/-! ### A write of committed memory keeps the policy of the management function

Only a trap record that is written again can follow from a demand to suspend (R320), so a management reset finds the policy it had. -/

theorem activate_policy (s : State) (p n : Nat) : (s.activate p n).policy = s.policy := by
  unfold State.activate; split <;> rfl

theorem staleImages_policy (s : State) (pa : Nat) : (s.staleImages pa).policy = s.policy := by
  obtain ⟨_, _, h⟩ := staleImages_memory s pa; rw [h]

theorem logError_policy (s : State) (t p i : Nat) : (s.logError t p i).policy = s.policy := by
  obtain ⟨_, h⟩ := logError_memory s t p i; rw [h]

theorem writeBackSector_policy (s : State) (p sec : Nat) : (s.writeBackSector p sec).policy = s.policy := by
  unfold State.writeBackSector
  split
  · rfl
  · split
    · rfl
    · split
      · exact logError_policy s _ _ _
      · exact activate_policy s _ _

theorem releaseHome_policy (s : State) (p l : Nat) : (s.releaseHome p l).policy = s.policy :=
  (writeBackSector_policy _ _ _).trans (writeBackSector_policy s _ _)

theorem holdLine_policy (s : State) (g : Site) (l : Nat) : (s.holdLine g l).policy = s.policy := by
  unfold State.holdLine State.makeRoom
  split
  · rfl
  · dsimp only
    split
    · exact releaseHome_policy s _ _
    · rfl

theorem fillSector_policy (s : State) (g : Site) (sec : Nat) : (s.fillSector g sec).policy = s.policy := by
  unfold State.fillSector
  split
  · split <;> rfl
  · exact (activate_policy _ _ _).trans (holdLine_policy s _ _)

theorem commitBytes_policy (s : State) (g : Site) (pa : Nat) (bs : List Byte) : (s.commitBytes g pa bs).policy = s.policy := by
  induction bs generalizing s pa with
  | nil => rfl
  | cons b bs ih => exact (ih _ _).trans ((staleImages_policy _ _).trans (fillSector_policy s _ _))

theorem placeWrite_policy (s : State) (l : Loc) (bs : List Byte) : (s.placeWrite l bs).policy = s.policy := by
  have hn : (s.noteAt l bs.length).policy = s.policy := by
    obtain ⟨_, h⟩ := noteOld_memory s l.part 0 l.pa bs.length fun a => s.placeVal { l with pa := a } 4
    rw [State.noteAt, h]
  unfold State.placeWrite
  dsimp only
  split
  · exact (staleImages_policy _ _).trans ((activate_policy _ _ _).trans hn)
  · exact (commitBytes_policy _ _ _ _).trans hn

theorem writeRecord_policy (s : State) (k : Crew) (r : TrapRec) : ((s.writeRecord k r).getD s).policy = s.policy := by
  unfold State.writeRecord
  split
  · rfl
  · split
    · rfl
    · exact placeWrite_policy s _ _

theorem demand_policy (s : State) (core slot : Nat) : (s.demand core slot).policy = s.policy := by
  unfold State.demand
  dsimp only
  split
  · rfl
  · exact writeRecord_policy _ _ _

theorem demandAll_policy (s : State) (ks : List Crew) : (s.demandAll ks).policy = s.policy :=
  List.foldlRecOn (motive := fun t => t.policy = s.policy) ks _ rfl fun t ht _ _ => (demand_policy t _ _).trans ht

/-! ### Firmware, attestation, power and reset (R24, R26, R350, R351, R355) -/

theorem mgmtReset_preempts (s : State) : ∀ c ∈ s.mgmtReset.ctxs, c.preempting = true := by
  intro c hc
  obtain ⟨_, -, rfl⟩ := List.mem_map.1 hc
  rfl

/-- A management reset starts the image that waits for it. -/
theorem mgmtReset_policy {i : List Byte} (h : s.policy.fwPending = some i) : s.mgmtReset.policy =
    { s.policy with fwImage := i, fwVersion := (Config.firmwareVersion i).toNat, fwPending := none } := by
  simp only [State.mgmtReset, State.onPolicy, demandAll_policy, h]

@[simp] theorem length_leBytes (n x : Nat) : (leBytes n x).length = n := by
  induction n generalizing x with
  | zero => rfl
  | succ n ih => exact congrArg (· + 1) (ih _)

theorem length_reportBody (s : State) (fn : Nat) {nonce : List Byte} (h : nonce.length = 32) :
    (s.reportBody fn nonce).length = 256 := by
  simp [State.reportBody, h]

theorem firmwareAndPowerComplete : FirmwareAndPowerComplete := by
  refine ⟨fun s hd => ⟨fun image h => ?_, fun image h => ?_, ⟨s.mgmtReset, runEvent_ok hd rfl, mgmtReset_preempts s, fun i h => ?_⟩,
    fun fn nonce hf hn => runEvent_ok hd (if_pos ⟨hf, hn⟩), fun fn nonce hn => length_reportBody s fn hn,
    fun die count h => runEvent_ok hd (if_pos h), fun h => runEvent_ok hd (if_neg (by simp [h])),
    fun h ht => runEvent_ok hd (if_pos (by simp [h, ht]))⟩,
    fun s failed => ⟨s.afterReset failed, rfl, rfl, rfl, rfl, rfl⟩⟩
  · rw [exec_firmwareLoad, execFirmwareLoad]
    exact runEvent_ok hd (by simp only [h, if_true])
  · rw [exec_firmwareLoad, execFirmwareLoad]
    exact runEvent_ok hd (by simp only [h, Bool.false_eq_true, if_false])
  · rw [mgmtReset_policy h]; exact ⟨rfl, rfl, rfl⟩

/-! ### Binaries (R356-R366) -/

section
variable {part : Nat} {c : Context} {f : List Byte} {req : LoadReq}

theorem loadBinary_placed {b : Loading} {t : State} (hc : s.ctx? part = some c) (hb : s.readBinary c f req = some b)
    (hp : s.placeBinary part f b = some t) :
    s.loadBinary part f req = some (t.reply (part + 1) (b.vas.flatMap (leBytes 8))) := by
  simp only [State.loadBinary, hc, hb, hp, Option.map_some, Option.bind_some]

/-- A file that fails a check, or whose frames the context lacks, is refused whole. -/
theorem loadBinary_refused (hc : s.ctx? part = some c)
    (h : ∀ b, s.readBinary c f req = some b → s.placeBinary part f b = none) :
    s.loadBinary part f req = some (s.reply (part + 1) []) := by
  have hnone : ((s.readBinary c f req).bind fun b => (s.placeBinary part f b).map fun t => (b, t)) = none := by
    cases hb : s.readBinary c f req with
    | none => rfl
    | some b => simp [h b hb]
  simp only [State.loadBinary, hc, hnone, Option.map_some]

theorem unloadBinary_idle {image : Nat} {m : Image} (hc : s.ctx? part = some c)
    (hm : (c.images.find? fun m => m.id == image) = some m) (hl : ∀ l ∈ c.launches, l.image = image → l.lives = false) :
    s.unloadBinary part image = some ((m.regions.foldl (fun s r => s.dropRegion part r) s).updCtx part fun c =>
      { c with
        images := c.images.filter fun x => x.id != image
        launches := c.launches.filter fun l => l.image != image }) := by
  have hidle : (c.launches.any fun l => l.image == image && l.lives) = false :=
    List.any_eq_false.2 fun l hm => by simpa using hl l hm
  simp only [State.unloadBinary, hc, hm, hidle, Option.bind_some, Bool.false_eq_true, if_false]

end

theorem binariesComplete : BinariesComplete :=
  ⟨fun _ _ _ _ _ hd hc => ⟨fun _ _ hb hp => runEvent_ok hd (loadBinary_placed hc hb hp),
      fun _ hb hp => runEvent_ok hd (loadBinary_refused hc fun _ hb' => by cases hb.symm.trans hb'; exact hp),
      fun hn => runEvent_ok hd (loadBinary_refused hc fun _ hb' => by cases hn.symm.trans hb')⟩,
    fun _ _ _ _ _ hd hc hm hl => runEvent_ok hd (unloadBinary_idle hc hm hl)⟩

/-- Settles O46: each event that can happen runs its step, and the policy that a management reset reads outlives its demands. -/
theorem managementAndBinariesComplete : Obligations.ManagementAndBinariesComplete :=
  ⟨contextsAndManagementComplete, firmwareAndPowerComplete, binariesComplete⟩

end Sys2Proof.Management

/-! PROOF. A split leaves one batch for each distinct PC (R32): what `splitGroups` keeps as it places one lane after another. -/

namespace Sys2Proof.Split

open Machine

/-- The batches made of some (lane, PC) pairs: each pair's lane stands in a batch of its PC, a batch holds no other lane, and
no two batches have one PC. -/
structure Grouped (b : Batch) (pcs : List (Nat × Nat)) (gs : List Batch) : Prop where
  placed : ∀ p ∈ pcs, ∃ g ∈ gs, g.pc = p.2 ∧ p.1 ∈ g.lanes
  own : ∀ g ∈ gs, g.age = b.age ∧ ∀ l ∈ g.lanes, (l, g.pc) ∈ pcs
  distinct : (gs.map (·.pc)).Nodup

theorem exists_mem_append_cons {α : Type} {P : α → Prop} {pre post : List α} {a : α} :
    (∃ x ∈ pre ++ a :: post, P x) ↔ (∃ x ∈ pre, P x) ∨ P a ∨ ∃ x ∈ post, P x := by
  simp [or_and_right, exists_or]

section
variable {b : Batch} {pcs : List (Nat × Nat)} {gs : List Batch} {l pc : Nat}

/-- With one pair more, the batches still hold none but lanes of the pairs. -/
theorem Grouped.own_of_more (h : Grouped b pcs gs) (p : Nat × Nat) :
    ∀ g ∈ gs, g.age = b.age ∧ ∀ l ∈ g.lanes, (l, g.pc) ∈ pcs ++ [p] :=
  fun g hg => ⟨(h.own g hg).1, fun m hm => List.mem_append_left _ ((h.own g hg).2 m hm)⟩

/-- A lane joins the batch that already stands at its PC. -/
theorem Grouped.join (h : Grouped b pcs gs) (hpc : gs.any (fun g => g.pc == pc) = true) :
    Grouped b (pcs ++ [(l, pc)]) (updFirst (fun g => g.pc == pc) (fun g => { g with lanes := g.lanes ++ [l] }) gs) := by
  obtain ⟨g0, hg0⟩ := Option.isSome_iff_exists.1 ((List.find?_isSome (p := fun g : Batch => g.pc == pc)).2 (by simpa using hpc))
  have hat : g0.pc = pc := by simpa using List.find?_some hg0
  obtain ⟨pre, post, rfl, hupd⟩ := updFirst_split _ (fun g : Batch => { g with lanes := g.lanes ++ [l] }) gs g0 hg0
  obtain ⟨hpre, hrest⟩ := List.forall_mem_append.1 (h.own_of_more (l, pc))
  obtain ⟨⟨hage, hlanes⟩, hpost⟩ := List.forall_mem_cons.1 hrest
  have hlanes' : ∀ m ∈ g0.lanes ++ [l], (m, g0.pc) ∈ pcs ++ [(l, pc)] :=
    List.forall_mem_append.2 ⟨hlanes, List.forall_mem_singleton.2 (by simp [hat])⟩
  rw [hupd]
  refine ⟨List.forall_mem_append.2 ⟨fun p hp => ?_, List.forall_mem_singleton.2 ?_⟩,
    List.forall_mem_append.2 ⟨hpre, List.forall_mem_cons.2 ⟨⟨hage, hlanes'⟩, hpost⟩⟩, by simpa using h.distinct⟩
  · exact exists_mem_append_cons.2 ((exists_mem_append_cons.1 (h.placed p hp)).imp_right
      (Or.imp_left fun hp => ⟨hp.1, List.mem_append_left _ hp.2⟩))
  · exact exists_mem_append_cons.2 (.inr (.inl ⟨hat, by simp⟩))

/-- A lane whose PC no batch has opens one of its own. -/
theorem Grouped.opens {g0 : Batch} (h : Grouped b pcs gs) (hpc : gs.any (fun g => g.pc == pc) = false) (hage : g0.age = b.age)
    (hat : g0.pc = pc) (hl : g0.lanes = [l]) : Grouped b (pcs ++ [(l, pc)]) (gs ++ [g0]) := by
  have hnew : ∀ g ∈ gs, g.pc ≠ pc := by simpa using hpc
  refine ⟨List.forall_mem_append.2 ⟨fun p hp => ?_, List.forall_mem_singleton.2 ⟨g0, by simp, hat, by simp [hl]⟩⟩,
    List.forall_mem_append.2 ⟨h.own_of_more _, List.forall_mem_singleton.2 ⟨hage, by simp [hat, hl]⟩⟩, ?_⟩
  · obtain ⟨g, hg, hp⟩ := h.placed p hp
    exact ⟨g, List.mem_append_left _ hg, hp⟩
  · rw [List.map_append, List.nodup_append]
    exact ⟨h.distinct, List.nodup_singleton _, by simpa [hat] using hnew⟩

/-- What is still to be placed joins what has been. -/
theorem splitGroups_grouped (todo : List (Nat × Nat)) (h : Grouped b pcs gs) :
    Grouped b (pcs ++ todo) (splitGroups b todo gs) := by
  induction todo generalizing pcs gs with
  | nil => simpa [splitGroups] using h
  | cons p r ih =>
    rw [List.append_cons, splitGroups]
    split
    next hpc => exact ih (h.join hpc)
    next hpc => exact ih (h.opens (by simpa using hpc) rfl rfl rfl)

end

/-- Settles O11, by induction on the pairs that are still to be placed. -/
theorem batchesSplitByProgramCounter : Obligations.BatchesSplitByProgramCounter := by
  intro b pcs
  obtain ⟨hplaced, hown, hdistinct⟩ := splitGroups_grouped pcs (b := b) (pcs := []) (gs := [])
    ⟨List.forall_mem_nil _, List.forall_mem_nil _, List.nodup_nil⟩
  exact ⟨hplaced, hown, hdistinct⟩

end Sys2Proof.Split

/-! PROOF. What comes before an instruction's own effect: the checks of its operands and of its crew's level (R28, R43, R44, R58,
R301-R303), and the guard that a batch released from TBAR does not read again (R54, R276). -/

namespace Sys2Proof.Checks

open Machine Claims

section
variable {s : State} {i : Iss} {x : Form} {f : Fibre}

/-! ### A source that cannot be read (R28, R43, R44) -/

section
variable {n : Nat} {m : Bool}

theorem readSrc_outside (h : f.budget ≤ n) : readSrc f n m = .trap .budgetExceeded 0 := if_pos h

theorem readSrc_poisoned (hn : n < f.budget) (hp : (f.reg n).poison = true) : readSrc f n m = .trap .poisonRead 0 := by
  rw [readSrc, if_neg (Nat.not_le.2 hn), if_pos hp]

theorem readSrc_empty (hn : n < f.budget) (hp : (f.reg n).poison = false) (hf : (f.reg n).full = false) :
    readSrc f n m = if m then .trap .emptyRead 0 else .wait := by
  simp [readSrc, Nat.not_le.2 hn, hp, hf]

end

/-! ### The verdict on a single participant (R9) -/

section
variable {α : Type} {rd : Fibre → Chk α}

theorem checkAll_trap {c : Cause} {a : Nat} (h : rd f = .trap c a) :
    checkAll i [f] rd = .error (.trap (i.trap c (maskOf [f]) a)) := by
  simp [checkAll, gather, trapsOf, lowestCause, minBy, h, Chk.trap, maskOf]

theorem checkAll_wait (h : rd f = .wait) : checkAll i [f] rd = .error .wait := by
  simp [checkAll, gather, trapsOf, lowestCause, minBy, h, Chk.wait]

end

/-- A lane instruction with one result stops where the checks of its participants do. -/
theorem laneWrite_stops {w : Bool} {rd : Iss → Fibre → Chk Word64} {e : Stop} (h : LaneRuns s i x)
    (he : checkAll i (i.takers x) (fun f => (rd i f).and (destWide f x.dn w)) = .error e) :
    laneWrite s x w rd = .next (s.stopped i e) := by
  rw [laneWrite, laneSet_eq h, he]

theorem destWide_word (hw : f.writable x.dn = true) : destWide f x.dn false = .ok () :=
  destWide_ok fun n hn => by rwa [List.mem_singleton.1 hn]

theorem mov_traps {c : Cause} (h : LaneRuns s i x) (ht : i.takers x = [f]) (hw : f.writable x.dn = true)
    (hs : srcA x f = .trap c 0) :
    exec (.mov x) s = .next (s.raise i.ref.core i.ref.slot (i.trap c (maskOf [f]) 0)) := by
  rw [exec_mov, execMov, lane1]
  refine laneWrite_stops h (e := .trap _) ?_
  rw [ht]
  exact checkAll_trap (by rw [hs, destWide_word hw]; rfl)

theorem mov_waits (h : LaneRuns s i x) (ht : i.takers x = [f]) (hw : f.writable x.dn = true) (hs : srcA x f = .wait) :
    exec (.mov x) s = .next { s with stall := true } := by
  rw [exec_mov, execMov, lane1]
  refine laneWrite_stops h (e := .wait) ?_
  rw [ht]
  exact checkAll_wait (by rw [hs, destWide_word hw]; rfl)

/-! ### Levels (R58, R301-R303) -/

/-- A uniform instruction stops where its body does. -/
theorem uniSet_stops {roles : Roles} {body : Iss → Res State} {e : Stop} (h : UniRuns s i x roles) (he : body i = .error e) :
    uniSet s x roles body = .next (s.stopped i e) := by
  rw [uniSet_eq h, he]

theorem needLevel_below {ok : Bool} (h : ok = false) :
    needLevel i ok = .error (.trap (i.trap .permPriv (maskOf i.active) 0)) := by rw [h]; rfl

theorem rightsOf_listed {sn : Nat} {r : SysRight × SysRight} (h : sysRights sn = some r) : rightsOf i sn = .ok r := by
  rw [rightsOf, h]

/-- What PERM_PRIV leaves: the trap names every active fibre. -/
def privTrap (s : State) (i : Iss) : State := s.raise i.ref.core i.ref.slot (i.trap .permPriv (maskOf i.active) 0)

theorem wrpkr_below (h : UniRuns s i x .any) (hl : i.crew.level ≠ .f) : exec (.wrpkr x) s = .next (privTrap s i) := by
  rw [exec_wrpkr, execWrpkr]
  refine uniSet_stops (e := .trap _) h ?_
  rw [needLevel_below (beq_false_of_ne hl)]

theorem halt_below (h : UniRuns s i x .any) (hl : i.crew.level ≠ .f) : exec (.halt x) s = .next (privTrap s i) := by
  rw [exec_halt, execHalt]
  refine uniSet_stops (e := .trap _) h ?_
  rw [needLevel_below (beq_false_of_ne hl)]

theorem eret_below (h : UniRuns s i x .any) (hl : i.crew.level = .u) : exec (.eret x) s = .next (privTrap s i) := by
  rw [exec_eret, execEret]
  refine uniSet_stops (e := .trap _) h ?_
  rw [needLevel_below (by rw [hl]; rfl)]

theorem rdsys_below {l : Level} {w : SysRight} (h : UniRuns s i x .any)
    (hf : i.free ((x.dn, true) :: if x.bn == 1 then [(x.an, false)] else []) = true)
    (hr : sysRights (sysNumber x i (x.bn == 1) x.an) = some (.level l, w)) (hl : i.atLeast l = false) :
    exec (.rdsys x) s = .next (privTrap s i) := by
  rw [exec_rdsys, execRdsys]
  refine uniSet_stops (e := .trap _) h ?_
  simp only [List.cons_append, List.nil_append, kFree_ok hf, rightsOf_listed hr, needLevel_below hl]

theorem wrsys_below {l : Level} {r : SysRight} (h : UniRuns s i x .any) (h0 : i.batch.phase = 0)
    (hf : i.free ((x.bn, true) :: if x.dn == 1 then [(x.an, false)] else []) = true)
    (hr : sysRights (sysNumber x i (x.dn == 1) x.an) = some (r, .level l)) (hl : i.atLeast l = false) :
    exec (.wrsys x) s = .next (privTrap s i) := by
  rw [exec_wrsys, execWrsys]
  refine uniSet_stops (e := .trap _) h ?_
  simp only [List.cons_append, List.nil_append, kFree_ok hf, h0, if_true, rightsOf_listed hr, needLevel_below hl]

end

/-- Settles O49: MOV stops as the check of its source does, and a system instruction at its level check. -/
theorem operandAndPrivilegeChecks : Obligations.OperandAndPrivilegeChecks := by
  refine ⟨fun s i x f h ht => ⟨fun hb hw => mov_traps h ht hw (readSrc_outside hb), fun hb hw =>
      ⟨fun hp => mov_traps h ht hw (readSrc_poisoned hb hp), fun hp hf => ?_⟩⟩,
    fun s i x h h0 => ⟨fun hl => ⟨wrpkr_below h hl, halt_below h hl⟩, fun hl => eret_below h hl,
      fun l w hf hr hl => rdsys_below h hf hr hl, fun r l hf hr hl => wrsys_below h h0 hf hr hl⟩⟩
  have hs := readSrc_empty (m := x.ea) hb hp hf
  cases hm : x.ea with
  | true => rw [if_pos rfl]; exact mov_traps h ht hw (hs.trans (if_pos hm))
  | false => rw [if_neg (by simp)]; exact mov_waits h ht hw (hs.trans (if_neg (by simp [hm])))

/-! ### A guard that is not read again (R54, R276) -/

theorem passesTbar_of_released {s : State} {i : Iss} (h : Issues s i) (hw : i.batch.wait = .tbarOut) : s.passesTbar = true := by
  simp [State.passesTbar, h.found, hw]

/-- A batch that is released from TBAR takes its second checkpoint, whatever its guard has become (R60, R276). -/
theorem tbar_released {s : State} {i : Iss} {x : Form} (h : Issues s i) (hw : i.batch.wait = .tbarOut)
    (hr : (s.dropCore i.ref.core).ckptReady i.crew = true) :
    exec (.tbar x) s = .next ((((s.dropCore i.ref.core).advance i x.words).onBatch i fun b =>
      { b with wait := .none }).checkpoint i.ref.core i.ref.slot) := by
  rw [exec_tbar, execTbar, if_pos (passesTbar_of_released h hw), runBatch_eq h, ckptAfter, if_pos hr]

/-- A package with one batch, at issue, that its team has released from a TBAR; q1 of its flock is false. -/
def released : State :=
  { State.reset with
    cur := some ⟨0, 0, 0, 0⟩
    crews := [(bootCrew .vector).updLive fun c => c.updFlock 0 fun f => f.updBatch 0 fun b => { b with wait := .tbarOut }] }

def releasedIss : Iss := released.iss?.get (by decide +kernel)

theorem released_issues : Issues released releasedIss := ⟨rfl, (Option.some_get _).symm⟩

theorem released_wait : releasedIss.batch.wait = .tbarOut := by decide +kernel

/-- The fields of `@q1 TBAR`. -/
def onQ1 : Form := { lead 0 0 0 with gp := 1 }

/-- The number of the crew's last checkpoint. -/
def ckptn (s : State) : Option Nat := (s.crew? 0 0).map (·.ckptn)

theorem ckptn_advance : ckptn (released.advance releasedIss onQ1.words) = some 0 := by decide +kernel

theorem ckptn_tbar : ckptn ((((released.dropCore releasedIss.ref.core).advance releasedIss onQ1.words).onBatch releasedIss fun b =>
    { b with wait := .none }).checkpoint releasedIss.ref.core releasedIss.ref.slot) = some 1 := by decide +kernel

/-- Refutes O48: a batch that its team has released from a TBAR stands inside that TBAR with phase 0, and goes on to the second checkpoint
though its guard is false by then; the statement asks of every batch with phase 0 that it only move on. -/
theorem not_guardsAndRolesComeFirst : ¬ Obligations.GuardsAndRolesComeFirst := by
  intro h
  obtain ⟨hskip, -⟩ := h (.tbar onQ1) onQ1 released releasedIss rfl released_issues (by decide +kernel) fun _ => by decide +kernel
  have hmoves := hskip (by decide +kernel)
  rw [tbar_released released_issues released_wait (by decide +kernel)] at hmoves
  have hsame := congrArg ckptn (Host.Outcome.next.inj hmoves)
  rw [ckptn_tbar, ckptn_advance] at hsame
  exact absurd hsame (by decide)

end Sys2Proof.Checks

/-! PROOF. The pod network, register producers, matrix units and pending invalidations (R43, R93, R141, R143, R146, R147, R218, R299). -/

namespace Sys2Proof.Network

open Machine Claims

/-! ### Lists -/

section
variable {α : Type} {l pre post : List α} {a : α}

theorem getElem?_split (hs : l = pre ++ a :: post) : l[pre.length]? = some a := by simp [hs]

theorem removeAt_split (hs : l = pre ++ a :: post) : removeAt l pre.length = pre ++ post := by
  subst hs
  induction pre with
  | nil => rfl
  | cons b r ih => exact congrArg (b :: ·) ih

end

/-! ### A request at a port (R143, R146, R147) -/

section
variable {s : State} {pre post : List PodReq} {r : PodReq}

/-- A request is taken next at its port where none before it in the list goes before it, and none behind it. -/
theorem none_before (hs : s.arrive = pre ++ r :: post) (hpre : ∀ a ∈ pre, a.at_ = r.at_ → a.before r true = false)
    (hpost : ∀ a ∈ post, a.at_ = r.at_ → a.before r false = false) :
    (s.arrive.zipIdx.any fun a => a.1.at_ == r.at_ && a.2 != pre.length && a.1.before r (decide (a.2 < pre.length))) = false := by
  rw [hs, List.zipIdx_append, List.zipIdx_cons, List.any_append, List.any_cons]
  simp only [Bool.or_eq_false_iff, List.any_eq_false]
  refine ⟨fun a ha => ?_, by simp, fun a ha => ?_⟩
  · have hlt : a.2 < pre.length := by simpa using List.snd_lt_of_mem_zipIdx ha
    have hm : a.1 ∈ pre := List.fst_mem_of_mem_zipIdx ha
    simpa [hlt, hlt.ne] using hpre a.1 hm
  · have hle : pre.length < a.2 := by have := List.le_snd_of_mem_zipIdx ha; omega
    have hm : a.1 ∈ post := List.fst_mem_of_mem_zipIdx ha
    simpa [hle.not_gt, hle.ne'] using hpost a.1 hm

/-- It leaves the arrivals and is absorbed. -/
theorem absorbStep_takes (hs : s.arrive = pre ++ r :: post) (hc : r.came ≠ s.clock)
    (hpre : ∀ a ∈ pre, a.at_ = r.at_ → a.before r true = false) (hpost : ∀ a ∈ post, a.at_ = r.at_ → a.before r false = false) :
    s.absorbStep pre.length = some ({ s with arrive := pre ++ post }.absorb r) := by
  simp only [State.absorbStep, getElem?_split hs, removeAt_split hs, none_before hs hpre hpost, beq_false_of_ne hc, Bool.or_self,
    Bool.false_eq_true, if_false]

end

section
variable {s : State} {r y : PodReq}

/-- The youngest request at a port that touches the word of one that has arrived. -/
def met (s : State) (r : PodReq) : Option PodReq := (s.reqs.filter fun y => y.at_ == r.at_ && y.touches r).getLast?

/-- Is the wait buffer of the request's port full? -/
def waitFull (s : State) (r : PodReq) : Prop := 256 ≤ (s.wbs.filter fun w => w.port == r.at_).length

theorem absorb_alone (h : met s r = none) : s.absorb r = { s with reqs := s.reqs ++ [r] } := by
  unfold met at h
  simp only [State.absorb, h]

theorem absorb_combines (h : met s r = some y) (hw : y.sameWord r = true) (hc : y.op.combines r.op = true) (hf : ¬waitFull s r) :
    s.absorb r = { s with
      wbs := s.wbs ++ [{ port := r.at_, y := y.id, req := r, ay := y.e }]
      reqs := updFirst (fun z => z.id == y.id) (fun z => { z with e := absorbedOperand y r }) s.reqs } := by
  unfold met at h
  have hroom : decide ((s.wbs.filter fun w => w.port == r.at_).length < 256) = true := decide_eq_true (Nat.not_le.1 hf)
  simp only [State.absorb, h, hw, hc, hroom, Bool.and_self, if_true]

theorem absorb_appends (h : met s r = some y) (hn : y.sameWord r = false ∨ y.op.combines r.op = false ∨ waitFull s r) :
    s.absorb r = { s with reqs := s.reqs ++ [r] } := by
  unfold met at h
  have hcond : (y.sameWord r && y.op.combines r.op && decide ((s.wbs.filter fun w => w.port == r.at_).length < 256)) = false := by
    rcases hn with hn | hn | hn
    · simp [hn]
    · simp [hn]
    · simp [Nat.not_lt.2 hn]
  simp only [State.absorb, h, hcond, Bool.false_eq_true, if_false]

end

/-! ### The head of an output queue (R101, R143, R144) -/

section
variable {s : State} {pre post : List PodReq} {r : PodReq}

theorem find?_head (hs : s.reqs = pre ++ r :: post) (hpre : ∀ q ∈ pre, q.at_ ≠ r.at_ ∧ q.id ≠ r.id) :
    (s.reqs.find? fun q => q.at_ == r.at_) = some r :=
  List.find?_eq_some_iff_append.2 ⟨beq_self_eq_true _, pre, post, hs, fun q hq => by simpa using (hpre q hq).1⟩

theorem dropFirst_head (hs : s.reqs = pre ++ r :: post) (hpre : ∀ q ∈ pre, q.at_ ≠ r.at_ ∧ q.id ≠ r.id) :
    dropFirst (fun z => z.id == r.id) s.reqs = pre ++ post := by
  rw [hs]
  exact Timed.dropFirst_append_cons (fun q hq => by simpa using (hpre q hq).2) (beq_self_eq_true _)

/-- Where no link of its path is lost, the head of a port's queue takes its ordinary step. -/
theorem transmit_head (hs : s.reqs = pre ++ r :: post) (hpre : ∀ q ∈ pre, q.at_ ≠ r.at_ ∧ q.id ≠ r.id)
    (hl : s.podLost r.ia = false) : s.transmit r.at_ = s.transmitStep r.at_ := by
  simp only [State.transmit, find?_head hs hpre, hl, Bool.false_eq_true, if_false]

theorem transmitStep_moves {n : Nat} (hs : s.reqs = pre ++ r :: post) (hpre : ∀ q ∈ pre, q.at_ ≠ r.at_ ∧ q.id ≠ r.id)
    (hn : s.nextStage r.at_.stage = some n) :
    s.transmitStep r.at_ = some { s with
      reqs := pre ++ post
      arrive := s.arrive ++ [{ r with at_ := s.podPort r.ia n, inp := r.at_.port, came := s.clock }] } := by
  simp only [State.transmitStep, find?_head hs hpre, dropFirst_head hs hpre, hn]

theorem transmitStep_applies (hs : s.reqs = pre ++ r :: post) (hpre : ∀ q ∈ pre, q.at_ ≠ r.at_ ∧ q.id ≠ r.id)
    (hn : s.nextStage r.at_.stage = none) :
    let a := { s with reqs := pre ++ post }.applyPod r
    s.transmitStep r.at_ = some { a.1 with
      replies := a.1.replies ++ [{ req := r, val := BitVec.ofNat 64 a.2.1, poison := a.2.2, stage := 5 }] } := by
  simp only [State.transmitStep, find?_head hs hpre, dropFirst_head hs hpre, hn]

end

/-! ### A reply at a switch (R147) -/

section
variable {s : State} {pre post : List PodReply} {r : PodReply}

/-- A reply and those that it is split into for the requests absorbed at its switch. -/
def answers (s : State) (r : PodReply) : List PodReply :=
  r :: (s.wbs.filter fun w => w.port == s.podPort r.req.ia r.stage && w.y == r.req.id).map fun w =>
    { r with req := w.req, val := BitVec.ofNat 64 (splitReply w.req.op w.req.size r.val.toNat w.ay.toNat) }

/-- The state without a reply and without the absorbed requests that it answers. -/
def answered (s : State) (rest : List PodReply) (r : PodReply) : State :=
  { s with
    replies := rest
    wbs := s.wbs.filter fun w => !(w.port == s.podPort r.req.ia r.stage && w.y == r.req.id) }

theorem replyStep_moves {n : Nat} (hs : s.replies = pre ++ r :: post) (hn : s.prevStage r.stage = some n) :
    s.replyStep pre.length = some { answered s (pre ++ post) r with
      replies := pre ++ post ++ (answers s r).map fun x => { x with stage := n } } := by
  simp only [State.replyStep, getElem?_split hs, removeAt_split hs, hn, answered, answers]

theorem replyStep_delivers (hs : s.replies = pre ++ r :: post) (hn : s.prevStage r.stage = none) :
    s.replyStep pre.length = some ((answers s r).foldl State.deliver (answered s (pre ++ post) r)) := by
  simp only [State.replyStep, getElem?_split hs, removeAt_split hs, hn, answered, answers]

end

theorem networkStepsComplete : NetworkStepsComplete := by
  refine ⟨fun s pre post r hd hs hc hpre hpost => ?_, fun s p pre post r hd hs hat hpre hlost => ?_,
    fun s pre post r hd hs => ⟨fun n hn => runEvent_ok hd (replyStep_moves hs hn),
      fun hn => runEvent_ok hd (replyStep_delivers hs hn)⟩⟩
  · have hstep := absorbStep_takes hs hc hpre hpost
    refine ⟨fun hm => runEvent_ok hd (hstep.trans ?_), fun y hm => ⟨fun ⟨hw, hop, hf⟩ => runEvent_ok hd (hstep.trans ?_),
      fun hn => runEvent_ok hd (hstep.trans ?_)⟩⟩
    · exact congrArg some (absorb_alone hm)
    · exact congrArg some (absorb_combines hm hw hop hf)
    · exact congrArg some (absorb_appends hm hn)
  · subst hat
    have hstep := transmit_head hs hpre hlost
    exact ⟨fun n hn => runEvent_ok hd (hstep.trans (transmitStep_moves hs hpre hn)),
      fun hn => runEvent_ok hd (hstep.trans (transmitStep_applies hs hpre hn))⟩

/-! ### Values that reach their registers (R43) -/

section
variable {s : State} {core slot idx : Nat} {k : Crew} {p : Prod}

theorem prodStep_completes (hk : s.crew? core slot = some k) (hp : k.prods[idx]? = some p) (hs : p.src.isPod = false)
    (hb : p.poison = false ∨ p.dest.trapLane = none) :
    s.prodStep core slot idx = some (s.updCrew core slot fun k => k.completeProd p idx) := by
  have hnone : (if p.poison then p.dest.trapLane else none) = none := by
    rcases hb with hb | hb
    · rw [hb]; rfl
    · rw [hb, ite_self]
  simp only [State.prodStep, hk, hp, hs, hnone, Option.bind_some, Bool.false_eq_true, if_false]

theorem prodStep_traps {l : Nat} (hk : s.crew? core slot = some k) (hp : k.prods[idx]? = some p) (hs : p.src.isPod = false)
    (hb : p.poison = true) (hl : p.dest.trapLane = some l) :
    s.prodStep core slot idx = some ((s.updCrew core slot fun k => { k with prods := removeAt k.prods idx }).raise core slot
      { cause := .poisonRead, lanes := laneMask [l], addr := 0, pc := p.pc, code := 0, flock := p.flock, eng := false }) := by
  simp only [State.prodStep, hk, hp, hs, hb, hl, Option.bind_some, Bool.false_eq_true, if_false, if_true]

end

/-! ### The head of a matrix unit's queue (R218) -/

section
variable {s : State} {gq : Nat} {j : MatJob} {rest : List MatJob} {k : Crew}

theorem unitStep_performs (hq : (s.unit gq).queue = j :: rest) (hk : s.crew? j.core j.slot = some k)
    (hw : (j.op.writesScratch && s.loadReads j) = false) (hb : j.op.readsBad (s.unit gq) k.live = false) :
    let u := { s.unit gq with queue := rest }
    s.unitStep gq = some (((s.setUnit u).setUnit (u.perform k.live s.fresh j)).updCrew j.core j.slot
      fun k => k.updLive fun c => c.perform (s.unit gq) s.fresh j) := by
  simp only [State.unitStep, hq, hk, hw, hb, Bool.false_eq_true, if_false]

theorem unitStep_traps (hq : (s.unit gq).queue = j :: rest) (hk : s.crew? j.core j.slot = some k)
    (hw : (j.op.writesScratch && s.loadReads j) = false) (hb : j.op.readsBad (s.unit gq) k.live = true) :
    s.unitStep gq = some ((s.setUnit { s.unit gq with queue := rest }).raise j.core j.slot
      { cause := .poisonRead, lanes := laneMask j.lanes, addr := 0, pc := j.pc, code := 0, flock := j.flock, eng := false }) := by
  simp only [State.unitStep, hq, hk, hw, hb, Bool.false_eq_true, if_false, if_true]

end

/-! ### The oldest pending invalidation (R299) -/

theorem xlDrop_oldest {s : State} {part tag base len : Nat} {rest : List (Nat × Nat × Nat)} {c : Context}
    (hc : s.ctx? part = some c) (hx : c.xlPend = (tag, base, len) :: rest) :
    s.xlDrop part = some ({ s with tlb := s.tlb.filter fun t => !(t.part == part && xlHits base len t.granule) }.updCtx part fun c =>
      { c with xlPend := c.xlPend.tail }) := by
  simp only [State.xlDrop, hc, hx, Option.bind_some, List.head?_cons]

theorem repliesAndUnitsComplete : RepliesAndUnitsComplete :=
  ⟨fun _ _ _ _ _ _ hd hk hp hs => ⟨fun hb => runEvent_ok hd (prodStep_completes hk hp hs hb),
      fun _ hb hl => runEvent_ok hd (prodStep_traps hk hp hs hb hl)⟩,
    fun _ _ _ _ _ hd hq hk hw => ⟨fun hb => runEvent_ok hd (unitStep_performs hq hk hw hb),
      fun hb => runEvent_ok hd (unitStep_traps hq hk hw hb)⟩,
    fun _ _ _ _ _ _ _ hd hc hx => runEvent_ok hd (xlDrop_oldest hc hx)⟩

/-- Settles O37: each event can happen, and the equation of its step in the case at hand gives the state. -/
theorem networkRepliesAndUnitsComplete : Obligations.NetworkRepliesAndUnitsComplete :=
  ⟨networkStepsComplete, repliesAndUnitsComplete⟩

end Sys2Proof.Network

/-! PROOF. Every encoding of a well-formed instruction reads back (R46-R63): each field of each word is what it was put together from. -/

namespace Sys2Proof.Laws.NamedByFields

/-- Every well-formed instruction is the one that its opcode and fields name in its set's map. -/
theorem named (i : Instr) : Statement i :=
  Instr.casesOn (motive := Statement) i
    iadd isub imul imulh imad iadd64 imin imax iabs idiv irem and or xor andn blut shl shr sar rot bfx bfi popc clz brev lea bpick idp4
    mov movi movhi sel lanex pcol sr ptov vtop urd bra brx call calli ret fspawn fend rcv icmp plut fcmp hcmp bcmp fclass fadd fsub fmul
    ffma fmin fmax fdiv fsqrt frcp frsq fex2 flg2 fsin fcos frnd fscale fcpys hadd2 hmul2 hfma2 hmin2 hmax2 badd2 bmul2 bfma2 cvt cvtp
    cvtq cvtx ld st lds sts atom red cas qenq qdeq sliceof homeof pref hld hst hrefPin hrefUnpin hrefCmp hrefIsnull hrefMov hrefFrom
    hrefTo hnew uadd usub umul umad umin umax uand uor uxor ushl ushr usar umov umovi umovhi usel ulea ucmp uplut usr ufrom uld ust
    ufadd ufmul uffma ucvt ubra elect sleep wake bar tbar rngwaitF rngwaitE rngsigF rngsigE yield launch done nop bincfg fence
    cmaintClean cmaintInvalidate cmaintCleanInvalidate cmaintDemote cpy cpydrain nbinit nbarr nbwait qwait coll setways psnapOpen
    psnapClose psnapBegin psnapPublish phintHot phintCold hreloc bld sld mma mmai zzero zld zst zrd zwr zpin zatt zdet zrel gdr gdrCq
    gqr gqrCq zspill zinfoT zinfoH trap bpt ckpt eret rdsys wrsys wrpkr halt pass drain fill evict writeBack lineWrite engineCompletion
    absorbOrAppend transmit reply claim hold copyLine registerProducerCompletion atomicReply checkpoint trapDelivery
    trapRecordEnqueueRetry intervalTimerExpiry dispatch priorityAging teamReservation crewEnd binTimerExpiry binFire rcvTimeout
    sleepTimeout qwaitTimeout qwaitReread yieldExpiry powerTokenPass matrixUnitExecute collTriggerRead collStep collCompletion
    collFailure quantumExpiry preemptionRequest lodgeState partitionResume debugHalt singleStep haltRelease migrationLineCopy
    migrationCountWindowEnd capacityTierExpansion sectorRebuild sramUncorrectableError scrubPassStart scrubRead scrubEscalationCheck
    rowActivationWindowEnd wayMove linkDown completionTimeout lostclr xlinv hostWindowAccess bar4Access ltail launchSlotProcess flGo
    flushComplete featAccept functionReset contextCreate contextDestroy qown quadrantHandover managementRegisterWrite firmwareLoad
    managementReset attestationRequest binaryLoad binaryUnload reset thermalLimit criticalLimit powerDown linkRetrained
    writeAcceptedByLink

end Sys2Proof.Laws.NamedByFields

namespace Sys2Proof.Encoding

open Machine Decoding

/-! ### Bytes and words (R4) -/

theorem leVal_leBytes (n x : Nat) : leVal (leBytes n x) = x % 256 ^ n := by
  induction n generalizing x with
  | zero => rw [pow_zero, Nat.mod_one]; rfl
  | succ n ih => rw [leBytes, leVal, ih, BitVec.toNat_ofNat, pow_succ' 256 n, Nat.mod_mul]

theorem takeWord_leBytes {w : Nat} (h : w < 2 ^ 32) (r : List Byte) : takeWord (leBytes 4 w ++ r) = some (w, r) :=
  congrArg (fun v => some (v, r)) ((leVal_leBytes 4 w).trans (Nat.mod_eq_of_lt h))

theorem bit_lt_two (b : Bool) : bit b < 2 := by cases b <;> decide

theorem bit_injective : Function.Injective bit := by decide

/-- A bit of a word is a flag where the field of that one bit holds the flag. -/
theorem bitAt_eq {w n : Nat} {b : Bool} (h : bits w n n = bit b) : bitAt w n = b := bit_injective ((bit_bitAt w n).trans h)

/-! ### Continuations (R47, R49-R53) -/

section
variable {s x : Bool} {ct p : Nat}

/-- A continuation word. -/
def contWord (s x : Bool) (ct p : Nat) : Nat := bit s * 2 ^ 31 + 2 ^ 30 + bit x * 2 ^ 29 + ct * 2 ^ 27 + p

theorem contWords_cons (s : Bool) (ct p : Nat) (cs : List (Nat × Nat)) :
    contWords s ((ct, p) :: cs) = contWord s (!cs.isEmpty) ct p :: contWords s cs := rfl

/-- The fields of a continuation word are those that it is put together from (R49). -/
theorem contWord_fields (hct : ct < 4) (hp : p < 2 ^ 27) :
    contWord s x ct p < 2 ^ 32 ∧ bitAt (contWord s x ct p) 31 = s ∧ bitAt (contWord s x ct p) 30 = true ∧
      bitAt (contWord s x ct p) 29 = x ∧ bits (contWord s x ct p) 28 27 = ct ∧ bits (contWord s x ct p) 26 0 = p := by
  have hs := bit_lt_two s
  have hx := bit_lt_two x
  have h1 : bit true = 1 := rfl
  refine ⟨?_, bitAt_eq ?_, bitAt_eq ?_, bitAt_eq ?_, ?_, ?_⟩ <;> simp only [contWord, bits] <;> omega

end

/-- Rising continuations, encoded, are taken as they were, where there are no more than allowed. -/
theorem takeConts_contWords {s : Bool} {n lo : Nat} {cs : List (Nat × Nat)} (h : Rising lo cs) (hn : cs.length ≤ n) (rest : List Byte) :
    takeConts s n lo (!cs.isEmpty) ((contWords s cs).flatMap (leBytes 4) ++ rest) = .ok (cs, rest) := by
  induction cs generalizing n lo with
  | nil => cases n <;> rfl
  | cons c cs ih =>
    obtain ⟨ct, p⟩ := c
    obtain ⟨hlo, hct, hp, hr⟩ := h
    obtain ⟨n, rfl⟩ : ∃ m, n = m + 1 := Nat.exists_eq_add_one.2 (Nat.lt_of_lt_of_le (Nat.succ_pos _) hn)
    obtain ⟨hw, h31, h30, h29, htype, hload⟩ := contWord_fields (s := s) (x := !cs.isEmpty) hct hp
    rw [contWords_cons, List.flatMap_cons, List.append_assoc, List.isEmpty_cons, Bool.not_false, takeConts, takeWord_leBytes hw]
    simp [h31, h30, h29, htype, hload, hlo, ih hr (Nat.le_of_succ_le_succ hn)]

theorem rising_mono {lo lo' : Nat} {cs : List (Nat × Nat)} (h : Rising lo cs) (hle : lo' ≤ lo) : Rising lo' cs := by
  cases cs with
  | nil => trivial
  | cons c cs => exact ⟨hle.trans h.1, h.2⟩

/-- A continuation of the lowest type, or none, stands before rising ones of higher types. -/
theorem rising_entry {ct : Nat} {o : Option Nat} {cs : List (Nat × Nat)} (hct : ct < 4) (ho : ∀ p ∈ o, p < 2 ^ 27)
    (h : Rising (ct + 1) cs) : Rising ct (entry ct o ++ cs) := by
  cases o with
  | none => exact rising_mono h (Nat.le_succ ct)
  | some p => exact ⟨le_rfl, hct, ho p rfl, h⟩

/-! ### The payloads of EXT and MEM (R50, R52) -/

/-- EXT's payload has 27 bits, its reserved bits are 0, and its fields are those that it is put together from. -/
theorem ext_code_fields (e : Ext) :
    e.code < 2 ^ 27 ∧ bits e.code 1 0 = 0 ∧ bitAt e.code 26 = e.gn2 ∧ bits e.code 25 19 = e.gp2.toNat ∧
      bits e.code 18 17 = e.dhi.toNat ∧ bits e.code 16 15 = e.ahi.toNat ∧ bits e.code 14 13 = e.bhi.toNat ∧
      bits e.code 12 5 = e.cx.toNat ∧ bitAt e.code 4 = e.ea ∧ bitAt e.code 3 = e.eb ∧ bitAt e.code 2 = e.ec := by
  have hgn := bit_lt_two e.gn2
  have hgp := e.gp2.isLt
  have hd := e.dhi.isLt
  have ha := e.ahi.isLt
  have hb := e.bhi.isLt
  have hc := e.cx.isLt
  have hea := bit_lt_two e.ea
  have heb := bit_lt_two e.eb
  have hec := bit_lt_two e.ec
  refine ⟨?_, ?_, bitAt_eq ?_, ?_, ?_, ?_, ?_, ?_, bitAt_eq ?_, bitAt_eq ?_, bitAt_eq ?_⟩ <;> simp only [Ext.code, bits] <;> omega

theorem extOf_code (e : Ext) : extOf e.code = .ok e := by
  obtain ⟨-, h0, hgn, hgp, hd, ha, hb, hc, hea, heb, hec⟩ := ext_code_fields e
  simp only [extOf, h0, hgn, hgp, hd, ha, hb, hc, hea, heb, hec, BitVec.ofNat_toNat, BitVec.setWidth_eq, if_true]

theorem scope_ofCode_code (sc : Scope) : Scope.ofCode sc.code = some sc := by cases sc <;> rfl

theorem order_ofCode_code (o : Order) : Order.ofCode o.code = o := by cases o <;> rfl

theorem hint_ofCode_code (h : Hint) : Hint.ofCode h.code = h := by cases h <;> rfl

/-- MEM's payload has 27 bits, and its fields are those that it is put together from. -/
theorem mem_code_fields (m : MemC) :
    m.code < 2 ^ 27 ∧ bits m.code 26 15 = m.off.toNat ∧ bits m.code 14 12 = m.scope.code ∧ bits m.code 11 10 = m.ord.code ∧
      bits m.code 9 8 = m.hint.code ∧ bitAt m.code 7 = m.rmt ∧ bits m.code 6 0 = m.cs.toNat := by
  have hoff := m.off.isLt
  have hsc : m.scope.code < 8 := by cases m.scope <;> decide
  have hord : m.ord.code < 4 := by cases m.ord <;> decide
  have hhint : m.hint.code < 4 := by cases m.hint <;> decide
  have hrmt := bit_lt_two m.rmt
  have hcs := m.cs.isLt
  refine ⟨?_, ?_, ?_, ?_, ?_, bitAt_eq ?_, ?_⟩ <;> simp only [MemC.code, bits] <;> omega

theorem memOf_code (m : MemC) : memOf m.code = .ok m := by
  obtain ⟨-, hoff, hsc, hord, hhint, hrmt, hcs⟩ := mem_code_fields m
  simp only [memOf, hoff, hsc, hord, hhint, hrmt, hcs, scope_ofCode_code, order_ofCode_code, hint_ofCode_code, BitVec.ofNat_toNat,
    BitVec.setWidth_eq]

/-! ### The continuations of a form -/

theorem lt_of_mem_map {α : Type} {code : α → Nat} {n : Nat} (h : ∀ a, code a < n) (o : Option α) : ∀ p ∈ o.map code, p < n := by
  intro p hp
  obtain ⟨a, -, rfl⟩ := Option.map_eq_some_iff.1 hp
  exact h a

/-- A form's continuations rise. -/
theorem rising_conts (x : Form) : Rising 0 x.conts := by
  have hext := lt_of_mem_map (fun e => (ext_code_fields e).1) x.ext
  have himm := lt_of_mem_map BitVec.isLt x.imm
  have hmem := lt_of_mem_map (fun m => (mem_code_fields m).1) x.mem
  have hmod := lt_of_mem_map BitVec.isLt x.mod
  rw [conts_eq_entries, List.append_assoc, List.append_assoc, ← List.append_nil (entry 3 _)]
  exact rising_entry (by decide) hext (rising_entry (by decide) himm (rising_entry (by decide) hmem
    (rising_entry (by decide) hmod trivial)))

theorem words_eq_conts (x : Form) : x.words = 1 + x.conts.length := by
  obtain ⟨_, _, _, _, _, ext, imm, mem, mod⟩ := x
  cases ext <;> cases imm <;> cases mem <;> cases mod <;> rfl

/-- Each type's payload is found among a form's continuations. -/
theorem payload_conts (x : Form) :
    payload 0 x.conts = x.ext.map Ext.code ∧ payload 1 x.conts = x.imm.map BitVec.toNat ∧
      payload 2 x.conts = x.mem.map MemC.code ∧ payload 3 x.conts = x.mod.map BitVec.toNat := by
  obtain ⟨_, _, _, _, _, ext, imm, mem, mod⟩ := x
  cases ext <;> cases imm <;> cases mem <;> cases mod <;> exact ⟨rfl, rfl, rfl, rfl⟩

theorem optOf_map {α : Type} {f : Nat → Except Illegal α} {code : α → Nat} (h : ∀ a, f (code a) = .ok a) (o : Option α) :
    optOf f (o.map code) = .ok o := by
  cases o with
  | none => rfl
  | some a => simp only [Option.map_some, optOf, h]

theorem map_ofNat_toNat {n : Nat} (o : Option (BitVec n)) : (o.map BitVec.toNat).map (BitVec.ofNat n) = o := by
  cases o <;> simp

/-! ### The leading word (R46, R48) -/

/-- The fields of a leading word are those that it is put together from. -/
theorem leadWord_fields {s : Bool} {op : Nat} (hop : op < 2 ^ 7) (x : Form) :
    leadWord s op x < 2 ^ 32 ∧ bitAt (leadWord s op x) 31 = s ∧ bitAt (leadWord s op x) 30 = false ∧
      bitAt (leadWord s op x) 29 = !x.conts.isEmpty ∧ bits (leadWord s op x) 28 22 = op ∧
      leadForm (leadWord s op x) = { x with ext := none, imm := none, mem := none, mod := none } := by
  have hs := bit_lt_two s
  have hx := bit_lt_two (!x.conts.isEmpty)
  have hgn := bit_lt_two x.gn
  have hgp := x.gp.isLt
  have hd := x.d.isLt
  have ha := x.a.isLt
  have hb := x.b.isLt
  have h0 : bit false = 0 := rfl
  have egn : bitAt (leadWord s op x) 21 = x.gn := bitAt_eq (by simp only [leadWord, ← conts_isEmpty, bits]; omega)
  have egp : bits (leadWord s op x) 20 18 = x.gp.toNat := by simp only [leadWord, ← conts_isEmpty, bits]; omega
  have ed : bits (leadWord s op x) 17 12 = x.d.toNat := by simp only [leadWord, ← conts_isEmpty, bits]; omega
  have ea : bits (leadWord s op x) 11 6 = x.a.toNat := by simp only [leadWord, ← conts_isEmpty, bits]; omega
  have eb : bits (leadWord s op x) 5 0 = x.b.toNat := by simp only [leadWord, ← conts_isEmpty, bits]; omega
  refine ⟨?_, bitAt_eq ?_, bitAt_eq ?_, bitAt_eq ?_, ?_, ?_⟩
  case refine_6 => simp only [leadForm, egn, egp, ed, ea, eb, BitVec.ofNat_toNat, BitVec.setWidth_eq]
  all_goals simp only [leadWord, ← conts_isEmpty, bits]; omega

/-- A leading word and a form's continuations give the form back. -/
theorem formOf_leadWord {s : Bool} {op : Nat} (hop : op < 2 ^ 7) (x : Form) : formOf (leadWord s op x) x.conts = .ok x := by
  obtain ⟨hext, himm, hmem, hmod⟩ := payload_conts x
  obtain ⟨-, -, -, -, -, hlead⟩ := leadWord_fields (s := s) hop x
  injection hlead with hgn hgp hd ha hb
  simp only [formOf, hext, himm, hmem, hmod, optOf_map extOf_code, optOf_map memOf_code, map_ofNat_toNat, hgn, hgp, hd, ha, hb]

/-! ### The decoder reads an encoding back (R57-R63) -/

/-- OP has seven bits. -/
theorem opcode_lt {i : Instr} {x : Form} (h : i.form? = some x) : i.opcode.2 < 2 ^ 7 := by
  cases i <;> cases h <;> exact Nat.le_of_ble_eq_true rfl

/-- A well-formed instruction is encoded, meets no condition of R57, and has at most two continuations. -/
theorem form_of_wf {i : Instr} (h : i.wf = true) : ∃ x, i.form? = some x ∧ i.illegal = none ∧ x.words ≤ 3 := by
  have hi : i.illegal = none := by simpa [Instr.wf] using h
  cases hf : i.form? with
  | none => simp [Instr.illegal, hf] at hi
  | some x =>
    refine ⟨x, rfl, hi, ?_⟩
    simp only [Instr.illegal, hf, Shape.check] at hi
    by_contra hw
    rw [if_pos (show 3 < x.words by omega)] at hi
    split at hi <;> cases hi

theorem instrOf_wf {i : Instr} {x : Form} (h : i.wf = true) (hx : i.form? = some x) :
    instrOf i.opcode.1 i.opcode.2 x = .ok i := by
  obtain ⟨-, -, hi, -⟩ := form_of_wf h
  simp only [instrOf, Laws.NamedByFields.named i h x hx, hi]

/-- The decoder accepts where each of its parts does. -/
theorem decode_of_parts {bs r rest : List Byte} {w : Nat} {cs : List (Nat × Nat)} {x : Form} {i : Instr} (hw : takeWord bs = some (w, r))
    (hc : bitAt w 30 = false) (hcs : takeConts (bitAt w 31) 2 0 (bitAt w 29) r = .ok (cs, rest)) (hx : formOf w cs = .ok x)
    (hi : instrOf (bitAt w 31) (bits w 28 22) x = .ok i) : decode bs = .ok (i, rest) := by
  simp only [decode, hw, hc, hcs, hx, hi, Bool.false_eq_true, if_false]

/-- Settles O56: the fields of each word are those that it is put together from, so the decoder finds them, and the instruction that they
name. -/
theorem everyEncodingReadsBack : Obligations.EveryEncodingReadsBack := by
  intro i rest h
  obtain ⟨x, hx, -, hwords⟩ := form_of_wf h
  have hop := opcode_lt hx
  obtain ⟨hlt, h31, h30, h29, h22, -⟩ := leadWord_fields (s := i.opcode.1) hop x
  have hlen : x.conts.length ≤ 2 := by rw [words_eq_conts] at hwords; omega
  rw [encode_of_form hx, List.append_assoc]
  refine decode_of_parts (takeWord_leBytes hlt _) h30 ?_ (formOf_leadWord hop x) ?_
  · rw [h31, h29]; exact takeConts_contWords (rising_conts x) hlen rest
  · rw [h31, h22]; exact instrOf_wf h hx

/-! ### Words written out (R46-R53) -/

/-- Bytes that are the encoding of a well-formed instruction decode to it. -/
theorem decode_of_eq_encode {i : Instr} {bs : List Byte} (hw : i.wf = true) (h : bs = encode i) : decode bs = .ok (i, []) := by
  have hback := everyEncodingReadsBack i [] hw
  rwa [List.append_nil, ← h] at hback

section
variable {bs r : List Byte} {w : Nat}

/-- A word with C = 1 at the PC is refused (R47). -/
theorem decode_continuationAtPc (hw : takeWord bs = some (w, r)) (hc : bitAt w 30 = true) : decode bs = .error .continuationAtPc := by
  simp only [decode, hw, hc, if_true]

/-- A leading word whose continuations are refused is refused for what they are (R47). -/
theorem decode_conts_error {e : Illegal} (hw : takeWord bs = some (w, r)) (hc : bitAt w 30 = false)
    (hcs : takeConts (bitAt w 31) 2 0 (bitAt w 29) r = .error e) : decode bs = .error e := by
  simp only [decode, hw, hc, hcs, Bool.false_eq_true, if_false]

/-- A single word whose OP its set does not assign is refused (R57). -/
theorem decode_opcode (hw : takeWord bs = some (w, r)) (hc : bitAt w 30 = false) (hx : bitAt w 29 = false)
    (hop : (if bitAt w 31 then uniOf (bits w 28 22) (leadForm w) else laneOf (bits w 28 22) (leadForm w)) = none) :
    decode bs = .error .opcode := by
  have hform : formOf w [] = .ok (leadForm w) := rfl
  simp only [decode, hw, hc, hx, takeConts, hform, instrOf, hop, Bool.false_eq_true, if_false]

/-- Continuation words whose types do not rise are refused (R47). -/
theorem takeConts_falling {s : Bool} {n lo v : Nat} {r' : List Byte} (hw : takeWord bs = some (w, r)) (hx : bitAt w 29 = true)
    (hv : takeWord r = some (v, r')) (hle : bits v 28 27 ≤ bits w 28 27) : takeConts s (n + 2) lo true bs = .error .framing := by
  have hinner : takeConts s (n + 1) (bits w 28 27 + 1) true r = .error .framing := by
    simp [takeConts, hv, Nat.not_le.2 (Nat.lt_succ_of_le hle)]
  rw [takeConts, hw]
  simp only [hx, hinner, ite_self]

end

/-- Settles O55: the words that decode are the encodings of their instructions, and each of the others meets its condition of R57. -/
theorem wordsOfTheSpecDecode : Obligations.WordsOfTheSpecDecode :=
  ⟨decode_of_eq_encode (by decide) (by decide), decode_of_eq_encode (by decide) (by decide),
    decode_of_eq_encode (by decide) (by decide), decode_of_eq_encode (by decide) (by decide),
    decode_opcode (w := 0b00010111110000000000000000000000) (r := []) (by decide) (by decide) (by decide) (by rfl),
    decode_continuationAtPc (w := 0b01000000000000000000000000000000) (r := []) (by decide) (by decide),
    decode_conts_error (takeWord_leBytes (by decide) _) (by decide) (takeConts_falling (takeWord_leBytes (by decide) _) (by decide)
      (v := 0b01000000000000000000000000000000) (r' := []) (by decide) (by decide))⟩

end Sys2Proof.Encoding

/-! PROOF. A step runs the instruction that the bytes at the PC decode to, an event that the schedule names, or lets a cycle pass (R60,
R61, R270, R271, R313, R329, R330). -/

namespace Sys2Proof.Stepping

open Machine Claims

/-! ### One attempt of a batch (R60, R270, R313) -/

section
variable {s : State} {b : BatchRef} {i : Iss} {ins : Instr} {o : Out State}

/-- A batch between instructions fetches the words at its PC; they are an instruction where they decode to one of an accepted feature. -/
theorem nextInstr_fetched {s1 : State} {ws : List Nat} {bs : List Byte} (hm : i.batch.mid = false)
    (hf : s.fetchWords i 3 i.batch.pc = .ok (s1, ws)) (hd : decode (ws.flatMap (leBytes 4)) = .ok (ins, bs))
    (ha : s.feature i.crew.part (featureOf ins) = true) : s.nextInstr i = .ok (s1, ins) := by
  have hfetch : s.fetch i = .ok (s1, ins) := by simp only [State.fetch, hf, hd, ha, if_true]
  unfold State.nextInstr
  split
  · rw [hm]; exact hfetch
  · exact hfetch

theorem nextInstr_held (hm : i.batch.mid = true) (hh : i.batch.held = some ins) : s.nextInstr i = .ok (s, ins) := by
  simp only [State.nextInstr, hh, hm, if_true]

/-- The issue of a fetched instruction that has room for its undo-log entries. -/
theorem tryIssue_fetched {s1 s2 : State} (hs : s.stall = false) (hi : s.find b = some i) (hm : i.batch.mid = false)
    (hn : { s with cur := some b }.nextInstr i = .ok (s1, ins)) (hr : s1.reserveUndo i (s1.undoNeed i ins) = .ok s2) :
    s.tryIssue b = tried s s1 s2 i ins (s1.undoNeed i ins) := by
  have hstall : { s with cur := some b, stall := false } = { s with cur := some b } := by rw [← hs]
  have hiss : { s with cur := some b }.iss? = some i := hi
  simp only [State.tryIssue, State.attempt, tried, hstall, hiss, hn, hm, hr, Bool.false_eq_true, if_false]

/-- A batch that goes on inside its instruction takes no new entry, and its sources have been checked. -/
theorem tryIssue_held (hs : s.stall = false) (hi : s.find b = some i) (hm : i.batch.mid = true) (hh : i.batch.held = some ins) :
    s.tryIssue b = onNext (onNext (exec ins { s with cur := some b }) fun t =>
      if t.stall || t.cur.isNone then t else t.keepInstr i ins) s.expandFirst := by
  have hstall : { s with cur := some b, stall := false } = { s with cur := some b } := by rw [← hs]
  have hiss : { s with cur := some b }.iss? = some i := hi
  have hroom : { s with cur := some b }.reserveUndo i 0 = .ok { s with cur := some b } := rfl
  simp only [State.tryIssue, State.attempt, hstall, hiss, nextInstr_held hm hh, hm, hroom, State.chargeUndo, List.isEmpty_nil, if_true]

/-! ### The issue of a batch (R270, R329, R330) -/

/-- A batch that its selector takes issues, or yields; the selector then moves on. -/
theorem issue_selected (ho : s.tryIssue b = o) (hi : s.find b = some i) (hm : i.batch.mid = false) (hh : i.crew.halted = false)
    (hsel : s.select i.gq (s.setOf b) (s.readyFor i.gq (s.setOf b)) = some b) :
    s.issue b = if s.yields b then .next { s with stall := true } else onNext o fun t =>
      if t.stall || t.cur.isNone then t else ((t.setSelector ((s.selector i.gq (s.setOf b)).after b
        ((s.readyFor i.gq (s.setOf b)).filter (· != b)) s.clock)).openStep i).closeStep b.core b.slot := by
  have hiss : { s with cur := some b }.iss? = some i := hi
  cases hy : s.yields b <;>
    simp only [State.issue, State.issueBatch, ho, hi, hm, hh, hsel, hy, hiss, Bool.not_true, Bool.not_false, Bool.and_true, Bool.and_false,
      decide_true, Bool.false_eq_true, if_true, if_false]

/-- The single step of a halted crew uses its quadrant's selector, but not its order. -/
theorem issue_stepped (ho : s.tryIssue b = o) (hi : s.find b = some i) (hm : i.batch.mid = false) (hh : i.crew.halted = true)
    (hsel : s.stepBatch i.crew = some b) (hfree : (s.selector i.gq (s.setOf b)).spent s.clock = false) :
    s.issue b = onNext o fun t => if t.stall || t.cur.isNone then t else
      ((t.setSelector { s.selector i.gq (s.setOf b) with at_ := some s.clock }).openStep i).closeStep b.core b.slot := by
  have hiss : { s with cur := some b }.iss? = some i := hi
  simp only [State.issue, State.issueStep, ho, hi, hm, hh, hsel, hfree, hiss, Bool.not_false, Bool.and_true, decide_true,
    Bool.false_eq_true, if_true, if_false]

/-- A batch inside an instruction goes on by itself, or yields. -/
theorem issue_mid (ho : s.tryIssue b = o) (hi : s.find b = some i) (hm : i.batch.mid = true) (hb : b ∈ s.midBatches) :
    s.issue b = if s.yields b then .next { s with stall := true } else onNext o fun t =>
      if t.stall then t else t.closeStep b.core b.slot := by
  have hc : s.midBatches.contains b = true := List.contains_iff_mem.2 hb
  cases hy : s.yields b <;>
    simp only [State.issue, ho, hi, hm, hc, hy, Bool.not_true, Bool.not_false, Bool.and_true, Bool.and_false, Bool.false_eq_true, if_true,
      if_false]

end

/-! ### A choice of the schedule (R270, R271) -/

/-- The state in which a step takes its choice, the choices that remain being `rest`. -/
def choosing (s : State) (rest : List Choice) : State := { s with fresh := s.fresh + 1, stall := false, sched := rest }

section
variable {s : State} {c : Choice} {pick : Pick} {dt : Nat} {rest : List Choice}

theorem step_chosen (hd : s.dead = false) (hs : s.sched = c :: rest) : step s = (choosing s rest).chosen c := by
  simp only [step, hd, State.advanceBy, hs, choosing, Bool.false_and, Bool.false_eq_true, if_false]

/-- A choice that lets no cycle pass before it is done, where it ends none or the cycle owes no issue. -/
theorem chosen_event {ev : Instr} (hf : ev.form? = none) (hgo : endsCycle ev = true → s.goOn = none) :
    s.chosen { dt := 0, pick := .event ev } =
      onNext (onNext (exec ev s) s.expandFirst) fun t => if endsCycle ev && !t.stall then t.tick else t := by
  have howed : (if Choice.passes { dt := 0, pick := .event ev } then s.goOn else none) = none := by
    by_cases he : endsCycle ev = true
    · rw [hgo he, ite_self]
    · exact if_neg (by simpa [Choice.passes] using he)
  simp only [State.chosen, howed, State.picked, hf, Option.isSome_none, Bool.false_eq_true, if_true, if_false]

/-- A cycle that a choice lets pass first has the batches act to which it owes an issue. -/
theorem chosen_waits {t : State} (hgo : s.goOn = some t) :
    s.chosen { dt := dt + 1, pick := pick } = .next { t with sched := { dt := dt + 1, pick := pick } :: t.sched } := by
  simp [State.chosen, Choice.passes, hgo]

theorem chosen_passes (hgo : s.goOn = none) :
    s.chosen { dt := dt + 1, pick := pick } = .next { s.tick with sched := { dt := dt, pick := pick } :: s.tick.sched } := by
  simp [State.chosen, hgo]

end

/-- Settles O58: the schedule's choice is the batch's issue or the event, and the issue is what its attempt gives. -/
theorem aStepRunsTheDecodedInstruction : Obligations.AStepRunsTheDecodedInstruction := by
  refine ⟨fun s s1 s2 b rest i ins ws bs hd hs hi hm hf hdec hfeat hr => ?_,
    fun s b rest i ins hd hs hi hm hh hb => (step_chosen hd hs).trans (issue_mid (tryIssue_held rfl hi hm hh) hi hm hb),
    fun s ev rest hd hf hs hgo => (step_chosen hd hs).trans (chosen_event hf hgo),
    fun s pick dt rest hd hs => ⟨fun t hgo => (step_chosen hd hs).trans (chosen_waits hgo),
      fun hgo => (step_chosen hd hs).trans (chosen_passes hgo)⟩⟩
  have htry : (choosing s rest).tryIssue b = tried (choosing s rest) s1 s2 i ins (s1.undoNeed i ins) :=
    tryIssue_fetched rfl hi hm (nextInstr_fetched hm hf hdec hfeat) hr
  exact ⟨fun hrun hsel => (step_chosen hd hs).trans (issue_selected htry hi hm hrun hsel),
    fun hhalt hsel hfree => (step_chosen hd hs).trans (issue_stepped htry hi hm hhalt hsel hfree)⟩

end Sys2Proof.Stepping

/-! PROOF. Everyday instructions of the lane and the uniform set complete: results, moves, predicates, branches, spawning and ending
(R67-R88, R200-R202, R208, R273). -/

namespace Sys2Proof.Everyday

open Machine Claims Results

/-! ### Results and moves of the lane set (R67-R73, R76) -/

/-- Settles O1: the table of integer rows, each row a `laneWrite` of its value. -/
theorem laneIntegerInstructionsComplete : Obligations.LaneIntegerInstructionsComplete := intRows_complete

section
variable {s : State} {i : Iss} {x : Form}

theorem urd_completes (h : LaneRuns s i x) (hk : i.free [(x.an, false)] = true) (hw : ∀ f ∈ i.takers x, f.writable x.dn = true) :
    exec (.urd x) s =
      .next (s.laneResult i x false ((i.takers x).map fun f => (f.lane, (i.flock.kreg x.an).setWidth 64))) := by
  rw [exec_urd, execUrd]
  refine laneSet_ok h ?_
  rw [checkAll_ok i _ (fun _ => ()) fun f hf => destOk_ok (hw f hf), kFree_ok hk]
  simp only [List.map_map]; rfl

theorem vtop_completes (h : LaneRuns s i x) (hr : ∀ f ∈ i.takers x, f.readable x.an = true ∧ f.readable x.bn = true) :
    exec (.vtop x) s = .next ((s.onFibres i ((i.takers x).map fun f => (f.lane, (f.reg x.an).val, (f.reg x.bn).val))
      fun v f => vtop x.dn v.1 v.2 f).advance i x.words) := by
  rw [exec_vtop, execVtop]
  refine laneSet_ok h ?_
  rw [checkAll_ok i _ (fun f => ((f.reg x.an).val, (f.reg x.bn).val)) fun f hf => ?_]
  rw [srcA_ok (hr f hf).1, readSrc_ok _ (hr f hf).2, Chk.ok_and]

end

/-- Settles O2: the table of move rows, and the two moves between register sets. -/
theorem laneMovesComplete : Obligations.LaneMovesComplete :=
  ⟨moveRows_complete, fun _ _ _ h hk hw => urd_completes h hk hw, fun _ _ _ h hr => vtop_completes h hr⟩

/-! ### Predicates of the lane set (R74, R75, R200-R202) -/

section
variable {s : State} {i : Iss} {x : Form}

/-- A compare of A, a register or a pair, with an immediate or B of the same width (R74). -/
theorem icmp_completes (h : LaneRuns s i x)
    (hr : ∀ f ∈ i.takers x, ∀ n ∈ regPair x.an (decide (2 ≤ x.ty)) ++
      (if x.hasImm then [] else regPair x.bn (decide (2 ≤ x.ty))), f.readable n = true) :
    exec (.icmp x) s = .next (s.predResult i x (x.mf 26 20) ((i.takers x).map fun f =>
      (f.lane, combine (x.mf 18 17) (icompare (x.mf 16 14) x.ty (f.value x.an (decide (2 ≤ x.ty)))
        (if x.hasImm then immWord64 x else f.value x.bn (decide (2 ≤ x.ty)))) (combPred x f.pred)))) := by
  rw [exec_icmp, execIcmp]
  refine lanePred_ok h _ fun f hf => ?_
  obtain ⟨ha, hb⟩ := List.forall_mem_append.1 (hr f hf)
  rw [readWide_ok _ _ ha]
  cases hi : x.hasImm with
  | true => rfl
  | false => rw [if_neg Bool.false_ne_true, if_neg Bool.false_ne_true, readWide_ok _ _ (by simpa [hi] using hb)]; rfl

/-- A compare of A with an immediate or B, one register each. -/
theorem lanePred2_ok {imm : Word} {e : Nat} (h : LaneRuns s i x) (op : Fibre → Word → Word → Bool)
    (hr : ∀ f ∈ i.takers x, ∀ n ∈ if x.hasImm then [x.an] else [x.an, x.bn], f.readable n = true) :
    lanePred s x e (fun f => ((srcA x f).and (srcB x imm f)).map fun p => op f p.1 p.2) =
      .next (s.predResult i x e ((i.takers x).map fun f => (f.lane, op f (ra x f) (rb x imm f)))) := by
  refine lanePred_ok h _ fun f hf => ?_
  have ha : f.readable x.an = true := hr f hf _ (by split <;> simp)
  have hb : x.hasImm = false → f.readable x.bn = true := fun hi => hr f hf _ (by simp [hi])
  rw [srcA_ok ha, srcB_ok imm hb]; rfl

theorem fclass_completes (h : LaneRuns s i x) (hr : ∀ f ∈ i.takers x, f.readable x.an = true) :
    exec (.fclass x) s = .next (s.predResult i x (x.mf 26 20) ((i.takers x).map fun f =>
      (f.lane, fclassResult x (ra x f).toNat))) := by
  rw [exec_fclass, execFclass]
  exact lanePred_ok h _ fun f hf => by rw [srcA_ok (hr f hf)]; rfl

theorem plut_completes (h : LaneRuns s i x) :
    exec (.plut x) s = .next ((s.onFibres i ((i.takers x).map fun f =>
      (f.lane, lookup (x.cf % 256) (f.pred x.an) (f.pred x.bn) (f.pred x.cn))) fun r f => f.setPred x.dn r).advance i x.words) := by
  rw [exec_plut, execPlut]
  exact laneSet_ok h rfl

end

/-- Settles O5: each compare's sources are ready, and PLUT reads predicates alone. -/
theorem lanePredicateInstructionsComplete : Obligations.LanePredicateInstructionsComplete := by
  refine ⟨fun _ _ _ h hr => icmp_completes h hr, ?_, fun _ _ _ h hr => fclass_completes h hr, fun _ _ _ h => plut_completes h⟩
  simp only [List.forall_mem_cons]
  exact ⟨fun _ _ x h hr => lanePred2_ok h (fun f a b => fcmpResult fp32 x false a.toNat b.toNat f.pred) hr,
    fun _ _ x h hr => lanePred2_ok h (fun f a b => fcmpResult fp16 x (x.ty == 1) a.toNat b.toNat f.pred) hr,
    fun _ _ x h hr => lanePred2_ok h (fun f a b => fcmpResult bf16 x (x.ty == 1) a.toNat b.toNat f.pred) hr, List.forall_mem_nil _⟩

/-! ### The uniform set (R79, R80, R208, R273) -/

/-- Settles O7: the table of uniform rows, each row a `uniWrite` of its value. -/
theorem uniformResultInstructionsComplete : Obligations.UniformResultInstructionsComplete := uniRows_complete

section
variable {s : State} {i : Iss} {x : Form} {f : Fibre}

/-- While a UFROM of another batch holds the flock's uniform pipe, a uniform instruction waits (R80). -/
theorem uniSet_waits {roles : Roles} {body : Iss → Res State} (h : Issues s i) (hp : i.pipeHeld = true) :
    uniSet s x roles body = .next { s with stall := true } := by
  rw [uniSet, runBatch_eq h, if_pos hp]; rfl

theorem ucmp_completes (h : UniRuns s i x .any)
    (hk : i.free ((x.an, decide (2 ≤ x.ty)) :: if x.hasImm then [] else [(x.bn, decide (2 ≤ x.ty))]) = true) :
    exec (.ucmp x) s = .next (s.uniPredResult i x (x.mf 26 20)
      (combine (x.mf 18 17) (icompare (x.mf 16 14) x.ty
        (if 2 ≤ x.ty then i.flock.kpair x.an else (ka x i).setWidth 64)
        (if x.hasImm then immWord64 x else if 2 ≤ x.ty then i.flock.kpair x.bn else (i.flock.kreg x.bn).setWidth 64))
        (combPred x i.flock.qpred))) := by
  rw [exec_ucmp, execUcmp]
  refine uniSet_ok h ?_
  rw [kFree_ok hk]
  simp only [decide_eq_true_eq, ka]

theorem uplut_completes (h : UniRuns s i x .any) :
    exec (.uplut x) s = .next ((s.onFlock i fun f => f.setQ x.dn
      (lookup (x.cf % 256) (i.flock.qpred x.an) (i.flock.qpred x.bn) (i.flock.qpred x.cn))).advance i x.words) := by
  rw [exec_uplut, execUplut]
  exact uniSet_ok h rfl

theorem ufrom_completes (h : UniRuns s i x .any) (hl : i.lead = some f) (hr : f.readable x.an = true)
    (hk : i.free [(x.dn, false)] = true) :
    exec (.ufrom x) s = .next ((s.uniResult i x false ((f.reg x.an).val.setWidth 64)).onFlock i fun g =>
      { g with pipe := none }) := by
  rw [exec_ufrom, execUfrom]
  refine uniSet_ok h ?_
  simp only [hl, checkOne_ok i (srcA_ok hr), kFree_ok hk]

/-- A UFROM of an empty register takes the free pipe and goes on to phase 1 (R80). -/
theorem ufrom_takes_pipe (h : UniRuns s i x .any) (hl : i.lead = some f) (hm : x.ea = false) (hb : x.an < f.budget)
    (hf : (f.reg x.an).full = false) (hp : (f.reg x.an).poison = false) (hfree : i.flock.pipe = none) :
    exec (.ufrom x) s =
      .next ((s.onFlock i fun g => { g with pipe := some i.ref.lane }).onBatch i fun b => { b with phase := 1 }) := by
  have hwait : checkOne i (srcA x f) = .error .wait := by rw [srcA, Checks.readSrc_empty hb hp hf, hm]; rfl
  rw [exec_ufrom, execUfrom]
  refine uniSet_ok h ?_
  simp only [hl, hwait, holdPipe, hfree, Option.isSome_none, Bool.false_eq_true, if_false]

theorem usr_completes (h : UniRuns s i x .any) (hl : i.lead = some f) (hk : i.free [(x.dn, false)] = true) :
    exec (.usr x) s = .next ((s.onFibre i f.lane (srLatch s.clock x.an)).uniResult i x false
      ((srValue s i f x.an).setWidth 64)) := by
  rw [exec_usr, execUsr]
  refine uniSet_ok h ?_
  rw [kFree_ok hk, hl]

theorem elect_completes (h : UniRuns s i x .any) :
    exec (.elect x) s = .next ((s.onFibres i (i.active.map fun f => (f.lane, f.lane == i.leadLane))
      fun r f => f.setPred x.dn r).advance i x.words) := by
  rw [exec_elect, execElect]
  exact uniSet_ok h rfl

end

/-- Settles O8: each runs in the uniform set's frame, which waits where another batch holds the pipe. -/
theorem uniformPredicateAndSpecialInstructionsComplete : Obligations.UniformPredicateAndSpecialInstructionsComplete :=
  ⟨fun _ _ _ h hk => ucmp_completes h hk, fun _ _ _ h => uplut_completes h, fun _ _ _ _ h hl hr hk => ufrom_completes h hl hr hk,
    fun _ _ _ _ h hl hm hb hf hp hfree => ufrom_takes_pipe h hl hm hb hf hp hfree,
    fun r hr _ _ x h hp => (uniRows_uniWrite r hr x _).trans (uniSet_waits h hp),
    fun _ _ _ _ h hl hk => usr_completes h hl hk, fun _ _ _ h => elect_completes h⟩

/-! ### Branches and calls (R59, R81-R84, R88) -/

section
variable {s : State} {i : Iss} {x : Form} {f : Fibre}

/-- A register target that is ready passes its checks (R59, R81). -/
theorem srcTarget_ok (h : targetReady x f = true) : srcTarget x f = .ok (regTarget (pairA x f)) := by
  simp only [targetReady, pairReadable, pairA, Bool.and_eq_true] at h
  obtain ⟨⟨hlow, hhigh⟩, halign⟩ := h
  rw [srcTarget, srcA64_ok hlow hhigh, Chk.ok_bind, Chk.guard_ok _ _ halign, Chk.ok_map, pairA]

theorem destPair_ok {n : Nat} (h : pairWritable f n = true) : destWide f n true = .ok () := by
  simp only [pairWritable, Bool.and_eq_true] at h
  exact destWide_ok (List.forall_mem_cons.2 ⟨h.1, List.forall_mem_singleton.2 h.2⟩)

/-- A ready target that is listed with a budget the reservation holds passes CALLI's checks (R84). -/
theorem calliTarget_ok {b : Nat} (h : targetReady x f = true)
    (hb : s.callBudget i.crew.part (regTarget (pairA x f)) = some b) (hle : b ≤ f.budget) :
    calliTarget s i x f = .ok (regTarget (pairA x f)) := by
  rw [calliTarget, srcTarget_ok h, Chk.ok_bind, hb, Chk.guard_ok _ _ (decide_eq_true hle), Chk.ok_map]

theorem bra_completes (h : LaneRuns s i x) :
    exec (.bra x) s = .next (s.fork i x.words ((i.takers x).map (·.lane)) (immTarget x i.batch.pc)) := by
  rw [exec_bra, execBra]
  exact laneSet_ok h rfl

/-- BRX and RET branch to register targets alike (R83, R84). -/
theorem registerBranch_completes {ins : Form → Instr} (hins : ins ∈ [Instr.brx, Instr.ret]) (h : LaneRuns s i x)
    (hr : ∀ f ∈ i.takers x, targetReady x f = true) :
    exec (ins x) s = .next (s.branch i x.words ((i.takers x).map fun f => (f.lane, regTarget (pairA x f)))) := by
  have hbrx : execBrx x s = .next (s.branch i x.words ((i.takers x).map fun f => (f.lane, regTarget (pairA x f)))) := by
    rw [execBrx]
    refine laneSet_ok h ?_
    rw [checkAll_ok i _ _ fun f hf => srcTarget_ok (hr f hf)]
  simp only [List.mem_cons, List.not_mem_nil, or_false] at hins
  obtain rfl | rfl := hins
  · exact hbrx
  · exact hbrx

theorem ubra_completes (h : UniRuns s i x .any) :
    exec (.ubra x) s = .next (s.onBatch i fun b => { b with pc := immTarget x i.batch.pc }) := by
  rw [exec_ubra, execUbra]
  exact uniSet_ok h rfl

theorem call_completes (h : LaneRuns s i x) (hw : ∀ f ∈ i.takers x, pairWritable f x.dn = true) :
    exec (.call x) s = .next ((s.linkPair i x ((i.takers x).map (·.lane))).fork i x.words ((i.takers x).map (·.lane))
      (immTarget x i.batch.pc)) := by
  rw [exec_call, execCall]
  refine laneSet_ok h ?_
  rw [checkAll_ok i _ (fun _ => ()) fun f hf => destPair_ok (hw f hf)]

theorem calli_completes (h : LaneRuns s i x)
    (hr : ∀ f ∈ i.takers x, targetReady x f = true ∧ pairWritable f x.dn = true ∧
      ∃ b, s.callBudget i.crew.part (regTarget (pairA x f)) = some b ∧ b ≤ f.budget) :
    exec (.calli x) s = .next ((s.linkPair i x ((i.takers x).map (·.lane))).branch i x.words
      ((i.takers x).map fun f => (f.lane, regTarget (pairA x f)))) := by
  rw [exec_calli, execCalli]
  refine laneSet_ok h ?_
  rw [checkAll_ok i _ (fun f => (regTarget (pairA x f), ())) fun f hf => ?_]
  · simp only [List.map_map]; rfl
  · obtain ⟨htarget, hdest, b, hb, hle⟩ := hr f hf
    rw [calliTarget_ok htarget hb hle, destPair_ok hdest, Chk.ok_and]

theorem nop_completes (h : UniRuns s i x .any) : exec (.nop x) s = .next (s.advance i x.words) := by
  rw [exec_nop, execNop]
  exact uniSet_ok h rfl

end

/-- Settles O9: immediate targets need no check, and those of registers pass theirs. -/
theorem branchesAndCallsComplete : Obligations.BranchesAndCallsComplete :=
  ⟨fun _ _ _ h => bra_completes h, fun _ hins _ _ _ h hr => registerBranch_completes hins h hr, fun _ _ _ h => ubra_completes h,
    fun _ _ _ h hw => call_completes h hw, fun _ _ _ h hr => calli_completes h hr, fun _ _ _ h => nop_completes h⟩

/-! ### Reconvergence, spawning and ending (R85-R87) -/

section
variable {s : State} {i : Iss} {x : Form}

theorem rcv_completes (h : LaneRuns s i x) :
    exec (.rcv x) s = .next ((s.onBatch i fun b =>
      { b with wait := ((i.flock.batches.find? fun b => b.inRcv i.batch.pc).map (·.wait)).getD
                 (.rcv i.batch.pc (x.mf 15 0) s.clock) }).settle i) := by
  rw [exec_rcv, execRcv]
  exact laneSet_ok h rfl

/-- The argument registers of a spawner that can all be read (R85). -/
theorem srcArgs_ok {f : Fibre} (n r : Nat) (h : ∀ k, k < n → f.readable (r + k) = true) :
    srcArgs x f n r = .ok ((List.range n).map fun k => (f.reg (r + k)).val) := by
  induction n generalizing r with
  | zero => rfl
  | succ n ih =>
    have hrest : ∀ k, k < n → f.readable (r + 1 + k) = true := fun k hk => by
      rw [Nat.add_assoc, Nat.add_comm 1]; exact h (k + 1) (Nat.succ_lt_succ hk)
    have hfirst : f.readable r = true := h 0 n.succ_pos
    rw [srcArgs, readSrc_ok _ hfirst, ih (r + 1) hrest, List.range_succ_eq_map]
    simp [Chk.ok_and, Chk.ok_map, Function.comp_def, Nat.add_assoc, Nat.add_comm 1]

/-- The arguments that each participant of an FSPAWN passes on. -/
def spawnArgs (x : Form) (f : Fibre) : List Word := (List.range x.bn).map fun n => (f.reg (x.an + n)).val

/-- The state from which FSPAWN places fibres: the scratch writes of its participants are complete (R85). -/
def spawner (s : State) (i : Iss) (x : Form) : State :=
  s.onCrew i fun k => k.updLive fun c => (i.takers x).foldl (fun c f => c.completeFibre i.flock.num f.lane) c

/-- The state after FSPAWN has placed what there is room for, and how many fibres have their place; its phase counts the earlier ones. -/
def spawned (s : State) (i : Iss) (x : Form) (e : EntryRec) : State × Nat :=
  (spawner s i x).spawnAll i.ref.core i.ref.slot e (((i.takers x).map (spawnArgs x)).drop i.batch.phase) i.batch.phase

/-- An FSPAWN of a listed entry whose arguments can be read places what there is room for (R40, R85). -/
theorem fspawn_places {e : EntryRec} (h : LaneRuns s i x) (he : s.entryAt i.crew.part (immTarget x i.batch.pc) = some e)
    (hbin : e.bin = true) (hunit : s.unitBusy i = false)
    (hr : ∀ f ∈ i.takers x, x.an + x.bn ≤ f.budget ∧ ∀ n, n < x.bn → f.readable (x.an + n) = true)
    (hmore : (spawned s i x e).2 ≠ i.batch.phase ∨ (spawned s i x e).2 = (i.takers x).length) :
    exec (.fspawn x) s = .next (if (spawned s i x e).2 = (i.takers x).length then (spawned s i x e).1.advance i x.words
      else (spawned s i x e).1.onBatch i fun b => { b with phase := (spawned s i x e).2 }) := by
  have hchecks : checkAll i (i.takers x) (fun f => (srcArgs x f x.bn x.an).and ((Chk.guard true .permExec
      (immTarget x i.batch.pc)).and (Chk.guard (decide (x.an + x.bn ≤ f.budget)) .budgetExceeded 0))) =
      .ok ((i.takers x).map fun f => (f.lane, spawnArgs x f, (), ())) :=
    checkAll_ok i _ _ fun f hf => by
      rw [srcArgs_ok _ _ (hr f hf).2, Chk.guard_ok _ _ rfl, Chk.guard_ok _ _ (decide_eq_true (hr f hf).1)]; rfl
  have hentry : (s.entryAt i.crew.part (immTarget x i.batch.pc)).filter (·.bin) = some e := by
    rw [he]; exact if_pos hbin
  have hfree : (some e).filter (fun _ => !s.unitBusy i) = some e := if_pos (by rw [hunit]; rfl)
  rw [exec_fspawn, execFspawn]
  refine laneSet_ok h ?_
  simp only [hentry, Option.isSome_some, hchecks, hfree, List.map_map]
  change (if (spawned s i x e).2 = _ then _ else if (spawned s i x e).2 = _ then _ else _) = _
  split
  next hall => rfl
  next hsome => rw [if_neg (hmore.resolve_right hsome)]; rfl

/-- FEND, once the flock's matrix instructions are done (R86, R219). -/
theorem fend_completes (h : LaneActs s i x) (hunit : s.unitBusy i = false) :
    exec (.fend x) s = .next ((((s.advance i x.words).onCrew i fun k =>
      k.endFibres i.flock.num ((i.takers x).map (·.lane))).dropParticipants i.ref.core i.ref.slot).settleTeam i.crew) := by
  rw [exec_fend, execFend, laneSet, runBatch_eq h.toIssues]
  simp [h.some_taker, hunit]

end

/-- Settles O10: an FSPAWN moves on when every fibre has its place, and else counts those that have. -/
theorem spawnEndAndReconvergenceComplete : Obligations.SpawnEndAndReconvergenceComplete := by
  refine ⟨fun _ _ _ h => rcv_completes h, fun s i x e h he hbin hunit hr => ⟨fun hall => ?_, fun hsome hnew => ?_⟩,
    fun _ _ _ h hunit => fend_completes h hunit⟩
  · exact (fspawn_places h he hbin hunit hr (.inr hall)).trans (congrArg _ (if_pos hall))
  · exact (fspawn_places h he hbin hunit hr (.inl hnew)).trans (congrArg _ (if_neg hsome))

end Sys2Proof.Everyday

/-! PROOF. What shifts and divisions give (R69, R70), in the library's words for them. -/

namespace Sys2Proof.Arithmetic

open Machine Claims Results

/-! ### A two-source instruction -/

/-- A row that completes gives its value, in the relation that the value is shown to stand in. -/
theorem gives2_of_completes {ins : Form → Instr} {imm : Form → Word} {op : Form → Iss → Fibre → Word → Word → Word}
    {p : Form → Word → Word → Word → Prop} (hc : LaneCompletes (row2 ins imm op)) (hp : ∀ x i f a b, p x a b (op x i f a b)) :
    Gives2 ins imm p := by
  intro s i x h hr
  have hready : (row2 ins imm op).ready x i := fun f hf => ⟨(hr f hf).1, List.forall_mem_singleton.2 (hr f hf).2⟩
  obtain ⟨t, ht, hframe, hholds⟩ := hc.writes h hready
  refine ⟨t, ht, hframe.only, fun f hf => ⟨_, (hholds f hf).1, ?_⟩⟩
  have hv : ((op x i f (ra x f) (rb x (imm x) f)).setWidth 64).setWidth 32 = op x i f (ra x f) (rb x (imm x) f) := by
    rw [BitVec.setWidth_setWidth_of_le _ (by decide), BitVec.setWidth_eq]
  simp only [row2, hv]
  exact hp x i f _ _

/-! ### Shifts (R70) -/

section
variable (a : Word) {n : Nat}

/-- From 32 on, every bit of an arithmetic shift is the sign. -/
theorem sshiftRight_all (h : 32 ≤ n) : a.sshiftRight n = if a.toNat / 2 ^ 31 % 2 = 1 then 0xFFFFFFFF else 0 := by
  have hmsb : a.msb = decide (a.toNat / 2 ^ 31 % 2 = 1) := by
    rw [BitVec.msb_eq_decide, decide_eq_decide]
    have := a.isLt
    omega
  cases hm : a.msb with
  | true =>
    rw [BitVec.sshiftRight_eq_of_msb_true hm, BitVec.ushiftRight_eq_zero h, if_pos (of_decide_eq_true (hmsb.symm.trans hm))]
    rfl
  | false =>
    rw [BitVec.sshiftRight_eq_of_msb_false hm, BitVec.ushiftRight_eq_zero h,
      if_neg (of_decide_eq_false (hmsb.symm.trans hm))]
    rfl

/-- A rotation moves bit k to the place n on, modulo 32. -/
theorem getLsbD_rotateLeft_word {k : Nat} (hn : n < 32) (hk : k < 32) : (a.rotateLeft n).getLsbD ((k + n) % 32) = a.getLsbD k := by
  rw [BitVec.getLsbD_rotateLeft, Nat.mod_eq_of_lt hn]
  by_cases hwrap : k + n < 32
  · have hplace : (k + n) % 32 = k + n := Nat.mod_eq_of_lt hwrap
    rw [hplace, Nat.add_sub_cancel]
    simp [hwrap]
  · have hplace : (k + n) % 32 = k + n - 32 := by omega
    have hback : 32 - n + (k + n - 32) = k := by omega
    have hlow : k + n - 32 < n := by omega
    rw [hplace, hback]
    simp [hlow]

end

/-- Settles O52: the shifts of the integer table, with the values of the library's shifts. -/
theorem shiftsGiveTheirValues : Obligations.ShiftsGiveTheirValues := by
  refine ⟨gives2_of_completes (op := fun _ _ _ a b => a <<< b.toNat) row2_completes fun _ _ _ a _ => ?_,
    gives2_of_completes (op := fun _ _ _ a b => a >>> b.toNat) row2_completes fun _ _ _ a _ => ?_,
    gives2_of_completes (op := fun _ _ _ a b => a.sshiftRight b.toNat) row2_completes fun _ _ _ a _ => ?_,
    gives2_of_completes (op := fun _ _ _ a b => a.rotateLeft (b.toNat % 32)) row2_completes fun _ _ _ a b n hn => ?_⟩
  · exact ⟨by rw [BitVec.toNat_shiftLeft, Nat.shiftLeft_eq], BitVec.shiftLeft_eq_zero⟩
  · exact ⟨by rw [BitVec.toNat_ushiftRight, Nat.shiftRight_eq_div_pow], BitVec.ushiftRight_eq_zero⟩
  · exact ⟨by rw [BitVec.toInt_sshiftRight, Int.shiftRight_eq_div_pow, Nat.cast_pow, Nat.cast_ofNat], sshiftRight_all a⟩
  · exact getLsbD_rotateLeft_word a (Nat.mod_lt _ (by decide)) hn

/-! ### Division and remainder (R69) -/

section
variable {x : Form} {a b : Word}

/-- TY 0 reads integers, TY 1 naturals (R66). -/
theorem rd32_of_i32 (h : x.ty = 0) (a : Word) : rd32 x a = a.toInt := by
  have hmod : a.toNat % 2 ^ 32 = a.toNat := Nat.mod_eq_of_lt a.isLt
  have hsign : a.toNat < 2 ^ (32 - 1) ↔ 2 * a.toNat < 2 ^ 32 := by omega
  simp only [rd32, Form.nat?, h, readInt, sextInt, hmod, hsign, BitVec.toInt_eq_toNat_cond]
  rfl

theorem rd32_of_n32 (h : x.ty = 1) (a : Word) : rd32 x a = a.toNat := by
  simp [rd32, Form.nat?, h, readInt, Nat.mod_eq_of_lt a.isLt]

/-- An ordinary quotient is the library's signed or natural one. -/
theorem aluDiv_of_i32 (h : x.ty = 0) (hb : b ≠ 0) : aluDiv x a b = a.sdiv b := by
  rw [aluDiv, if_neg hb, rd32_of_i32 h, rd32_of_i32 h]
  exact BitVec.eq_of_toInt_eq (by rw [BitVec.toInt_ofInt, BitVec.toInt_sdiv])

theorem aluRem_of_i32 (h : x.ty = 0) (hb : b ≠ 0) : aluRem x a b = a.srem b := by
  rw [aluRem, if_neg hb, rd32_of_i32 h, rd32_of_i32 h, ← BitVec.toInt_srem, BitVec.ofInt_toInt]

theorem aluDiv_of_n32 (h : x.ty = 1) (hb : b ≠ 0) : aluDiv x a b = a / b := by
  rw [aluDiv, if_neg hb, rd32_of_n32 h, rd32_of_n32 h, ← Int.ofNat_tdiv, ← BitVec.toNat_udiv, BitVec.ofInt_natCast,
    BitVec.ofNat_toNat, BitVec.setWidth_eq]

theorem aluRem_of_n32 (h : x.ty = 1) (hb : b ≠ 0) : aluRem x a b = a % b := by
  rw [aluRem, if_neg hb, rd32_of_n32 h, rd32_of_n32 h, ← Int.ofNat_tmod, ← BitVec.toNat_umod, BitVec.ofInt_natCast,
    BitVec.ofNat_toNat, BitVec.setWidth_eq]

/-- The cases of R69's table with divisor 0. -/
theorem aluDiv_zero_of_i32 (h : x.ty = 0) : aluDiv x a 0 = if a.toInt < 0 then 0xFFFFFFFF else 0x7FFFFFFF := by
  rw [aluDiv, if_pos rfl, rd32_of_i32 h, Form.nat?, h]; rfl

theorem aluDiv_zero_of_n32 (h : x.ty = 1) : aluDiv x a 0 = 0xFFFFFFFF := by
  rw [aluDiv, if_pos rfl, Form.nat?, h]; rfl

theorem aluRem_zero : aluRem x a 0 = a := if_pos rfl

theorem aluDiv_table_i32 (h : x.ty = 0) :
    (b ≠ 0 → ¬(a = 0x80000000 ∧ b = 0xFFFFFFFF) → (aluDiv x a b).toInt = a.toInt.tdiv b.toInt) ∧
    (b = 0 → 0 ≤ a.toInt → aluDiv x a b = 0x7FFFFFFF) ∧ (b = 0 → a.toInt < 0 → aluDiv x a b = 0xFFFFFFFF) ∧
    (a = 0x80000000 → b = 0xFFFFFFFF → aluDiv x a b = 0x80000000) := by
  refine ⟨fun hb hne => ?_, ?_, ?_, ?_⟩
  · rw [aluDiv_of_i32 h hb, BitVec.toInt_sdiv_of_ne_or_ne]
    exact not_and_or.1 hne
  · rintro rfl ha
    rw [aluDiv_zero_of_i32 h, if_neg (Int.not_lt.2 ha)]
  · rintro rfl ha
    rw [aluDiv_zero_of_i32 h, if_pos ha]
  · rintro rfl rfl
    rw [aluDiv_of_i32 h (by decide)]; decide

theorem aluRem_table_i32 (h : x.ty = 0) :
    (b ≠ 0 → (aluRem x a b).toInt = a.toInt - b.toInt * a.toInt.tdiv b.toInt) ∧ (b = 0 → aluRem x a b = a) ∧
    (a = 0x80000000 → b = 0xFFFFFFFF → aluRem x a b = 0) := by
  refine ⟨fun hb => ?_, ?_, ?_⟩
  · rw [aluRem_of_i32 h hb, BitVec.toInt_srem, Int.tmod_def]
  · rintro rfl
    exact aluRem_zero
  · rintro rfl rfl
    rw [aluRem_of_i32 h (by decide)]; decide

theorem aluDiv_table_n32 (h : x.ty = 1) :
    (b ≠ 0 → (aluDiv x a b).toNat = a.toNat / b.toNat) ∧ (b = 0 → aluDiv x a b = 0xFFFFFFFF) := by
  refine ⟨fun hb => ?_, ?_⟩
  · rw [aluDiv_of_n32 h hb, BitVec.toNat_udiv]
  · rintro rfl
    exact aluDiv_zero_of_n32 h

theorem aluRem_table_n32 (h : x.ty = 1) :
    (b ≠ 0 → (aluRem x a b).toNat = a.toNat % b.toNat) ∧ (b = 0 → aluRem x a b = a) := by
  refine ⟨fun hb => ?_, ?_⟩
  · rw [aluRem_of_n32 h hb, BitVec.toNat_umod]
  · rintro rfl
    exact aluRem_zero

end

/-- Settles O53: the rows of IDIV and IREM, whose ordinary values are the library's quotients and remainders. -/
theorem divisionAndRemainder : Obligations.DivisionAndRemainder :=
  ⟨gives2_of_completes (op := fun x _ _ => aluDiv x) row2_completes fun _ _ _ _ _ => aluDiv_table_i32,
    gives2_of_completes (op := fun x _ _ => aluRem x) row2_completes fun _ _ _ _ _ => aluRem_table_i32,
    gives2_of_completes (op := fun x _ _ => aluDiv x) row2_completes fun _ _ _ _ _ => aluDiv_table_n32,
    gives2_of_completes (op := fun x _ _ => aluRem x) row2_completes fun _ _ _ _ _ => aluRem_table_n32⟩

end Sys2Proof.Arithmetic

/-! PROOF. Every step keeps the canonical form of memory (R91). -/

namespace Sys2Proof.MemoryForm
open Sys2Proof Sys2Proof.Machine

/-! ### What an answer holds -/

/-- The state in an optional answer, where there is one, keeps the form. -/
def OnSome {α : Type} (st : α → State) : Option α → Prop
  | none => True
  | some a => (st a).memoryOk = true

/-- The state of an answer that is no error keeps the form. -/
def OnOk {ε α : Type} (st : α → State) : Except ε α → Prop
  | .error _ => True
  | .ok a => (st a).memoryOk = true

/-- Of an answer that may come with a state in its error too, both keep the form. -/
def OnEither : Except (Option State) State → Prop
  | .error o => OnSome id o
  | .ok t => t.memoryOk = true

/-- The state that CMAINT's walk has come to keeps the form. -/
def OnWalk : Maintained → Prop
  | .done t | .waits t _ | .trap t _ _ => t.memoryOk = true

/-- The next state, where there is one, keeps the form. -/
def OnNext : Out State → Prop
  | .next t => t.memoryOk = true
  | _ => True

section
variable {α β ε δ : Type} {st : α → State} {su : β → State}

theorem OnSome.get {o : Option α} {a : α} (h : OnSome st o) (e : o = some a) : (st a).memoryOk = true := by
  subst e; exact h
theorem OnOk.get {o : Except ε α} {a : α} (h : OnOk st o) (e : o = .ok a) : (st a).memoryOk = true := by
  subst e; exact h
theorem OnNext.get {o : Out State} {t : State} (h : OnNext o) (e : o = .next t) : t.memoryOk = true := by
  subst e; exact h
theorem OnSome.of {o : Option α} {a : α} (e : o = some a) (h : OnSome st o) : (st a).memoryOk = true := h.get e
theorem OnOk.of {o : Except ε α} {a : α} (e : o = .ok a) (h : OnOk st o) : (st a).memoryOk = true := h.get e
theorem OnNext.of {o : Out State} {t : State} (e : o = .next t) (h : OnNext o) : t.memoryOk = true := h.get e
theorem fst_get {p : State × α} {t : State} {a : α} (h : p.1.memoryOk = true) (e : p = (t, a)) : t.memoryOk = true := by
  subst e; exact h

theorem OnSome.bind {o : Option β} {k : β → Option α} (h : ∀ a, o = some a → OnSome st (k a)) : OnSome st (o.bind k) := by
  cases o with
  | none => trivial
  | some a => exact h a rfl

theorem OnSome.map {o : Option β} {k : β → α} (h : ∀ a, o = some a → (st (k a)).memoryOk = true) : OnSome st (o.map k) := by
  cases o with
  | none => trivial
  | some a => exact h a rfl

theorem OnOk.map {o : Except ε β} {k : β → α} (h : ∀ a, o = .ok a → (st (k a)).memoryOk = true) : OnOk st (o.map k) := by
  cases o with
  | error => trivial
  | ok a => exact h a rfl

theorem OnSome.findSome {l : List β} {k : β → Option α} (h : ∀ a, OnSome st (k a)) : OnSome st (l.findSome? k) := by
  induction l with
  | nil => trivial
  | cons b l ih =>
    rw [List.findSome?_cons]
    cases hb : k b with
    | none => exact ih
    | some a => exact (h b).get hb

theorem OnSome.ite {c : Prop} [Decidable c] {o q : Option α} (h : OnSome st o) (g : OnSome st q) : OnSome st (if c then o else
    q) := by
  split
  · exact h
  · exact g
theorem OnOk.ite {c : Prop} [Decidable c] {o q : Except ε α} (h : OnOk st o) (g : OnOk st q) : OnOk st (if c then o else q) :=
    by
  split
  · exact h
  · exact g
theorem OnNext.ite {c : Prop} [Decidable c] {o q : Out State} (h : OnNext o) (g : OnNext q) : OnNext (if c then o else q) := by
  split
  · exact h
  · exact g
theorem ite_ok {c : Prop} [Decidable c] {t u : State} (h : t.memoryOk = true) (g : u.memoryOk = true) :
    (if c then t else u).memoryOk = true := by
  split
  · exact h
  · exact g

theorem fst_ite_ok {c : Prop} [Decidable c] {p q : State × α} (h : p.1.memoryOk = true) (g : q.1.memoryOk = true) :
    (if c then p else q).1.memoryOk = true := by
  split
  · exact h
  · exact g
theorem state_ite_ok {c : Prop} [Decidable c] {p q : QStep} (h : p.state.memoryOk = true) (g : q.state.memoryOk = true) :
    (if c then p else q).state.memoryOk = true := by
  split
  · exact h
  · exact g
theorem OnEither.ite {c : Prop} [Decidable c] {o q : Except (Option State) State} (h : OnEither o) (g : OnEither q) :
    OnEither (if c then o else q) := by
  split
  · exact h
  · exact g
theorem OnWalk.ite {c : Prop} [Decidable c] {o q : Maintained} (h : OnWalk o) (g : OnWalk q) : OnWalk (if c then o else q) := by
  split
  · exact h
  · exact g

theorem OnEither.get {o : Except (Option State) State} {t : State} (h : OnEither o) (e : o = .ok t) : t.memoryOk = true := by
  subst e; exact h
theorem OnEither.of {o : Except (Option State) State} {t : State} (e : o = .ok t) (h : OnEither o) : t.memoryOk = true := h.get
    e
theorem OnEither.getError {o : Except (Option State) State} {q : Option State} (h : OnEither o) (e : o = .error q) : OnSome id
    q := by
  subst e; exact h

theorem OnSome.foldl {g : Option α → β → Option α} (h : ∀ o a, OnSome st o → OnSome st (g o a)) {l : List β} {o : Option α}
    (ho : OnSome st o) : OnSome st (l.foldl g o) := by
  induction l generalizing o with
  | nil => exact ho
  | cons a l ih => exact ih (h o a ho)

theorem foldl_ok {g : State → α → State} (h : ∀ t a, t.memoryOk = true → (g t a).memoryOk = true) {l : List α} {s : State}
    (hs : s.memoryOk = true) : (l.foldl g s).memoryOk = true := by
  induction l generalizing s with
  | nil => exact hs
  | cons a l ih => exact ih (h s a hs)

theorem foldl_fst_ok {g : State × α → β → State × α} (h : ∀ r a, r.1.memoryOk = true → (g r a).1.memoryOk = true) {l : List β}
    {r : State × α} (hr : r.1.memoryOk = true) : (l.foldl g r).1.memoryOk = true := by
  induction l generalizing r with
  | nil => exact hr
  | cons a l ih => exact ih (h r a hr)

theorem getD_ok {o : Option State} {d : State} (h : OnSome id o) (hd : d.memoryOk = true) : (o.getD d).memoryOk = true := by
  cases o with
  | none => exact hd
  | some t => exact h

/-- The form speaks of memory, home lines, pod memory and the window alone: whatever else a step changes, the form stays. -/
theorem same {x : State}
    {clock sched fresh cur stall dead alarm alarmAt pkg npkg fence vers l1 icache tlb sb rq engines poison hwBad arrive reqs
    wbs replies podOut linkWait nextTag ctxs crews units ways slWays wayAt shTags shHits fwd tokens holds sels fns policy
    hens rows rowAt rowWindow thermal hitWindow hits clean errlog down lost pools lodged posted ahead reports notices
    haltNotes}
    (h : x.memoryOk = true) :
    (State.mk
      clock sched fresh cur stall dead alarm alarmAt pkg npkg fence x.mem x.home vers l1 icache tlb sb rq engines poison
      x.podMem x.hw hwBad arrive reqs wbs replies podOut linkWait nextTag ctxs crews units ways slWays wayAt shTags shHits
      fwd tokens holds sels fns policy hens rows rowAt rowWindow thermal hitWindow hits clean errlog down lost pools lodged
      posted ahead reports notices haltNotes).memoryOk = true := h

/-- A change of memory in its canonical form, and of no other memory of the package. -/
theorem ofMem {s t : State} (hs : s.memoryOk = true) (h1 : Memory.wf t.mem = true) (h2 : t.podMem = s.podMem := by rfl)
    (h3 : t.hw = s.hw := by rfl) (h4 : t.home = s.home := by rfl) : t.memoryOk = true := by
  rw [State.memoryOk_iff] at hs ⊢
  rw [h2, h3, h4]
  exact ⟨h1, hs.2⟩

/-- The same of the window SRAM. -/
theorem ofHw {s t : State} (hs : s.memoryOk = true) (h3 : Memory.wf t.hw = true) (h1 : t.mem = s.mem := by rfl)
    (h2 : t.podMem = s.podMem := by rfl) (h4 : t.home = s.home := by rfl) : t.memoryOk = true := by
  rw [State.memoryOk_iff] at hs ⊢
  rw [h1, h2, h4]
  exact ⟨hs.1, hs.2.1, h3, hs.2.2.2⟩

/-- A change of memory and of home lines, each home line in its canonical form. -/
theorem ofMemHome {s t : State} (hs : s.memoryOk = true) (h1 : Memory.wf t.mem = true) (h4 : ∀ h ∈ t.home, Memory.wf h.data =
    true)
    (h2 : t.podMem = s.podMem := by rfl) (h3 : t.hw = s.hw := by rfl) : t.memoryOk = true := by
  rw [State.memoryOk_iff] at hs ⊢
  rw [h2, h3]
  exact ⟨h1, hs.2.1, hs.2.2.1, h4⟩

theorem mem_ok {s : State} (hs : s.memoryOk = true) : Memory.wf s.mem = true := ((State.memoryOk_iff s).mp hs).1
theorem hw_ok {s : State} (hs : s.memoryOk = true) : Memory.wf s.hw = true := ((State.memoryOk_iff s).mp hs).2.2.1
theorem home_ok {s : State} (hs : s.memoryOk = true) : ∀ h ∈ s.home, Memory.wf h.data = true := ((State.memoryOk_iff s).mp
    hs).2.2.2

/-- Part of a memory in its canonical form is in it. -/
theorem filter_ok {m : Mem} (p : Host.Cell → Bool) (h : Memory.wf m = true) : Memory.wf (m.filter p) = true :=
  spWf_of_sublist 0 List.filter_sublist h

theorem memWritten_ok {s : State} (hs : s.memoryOk = true) {a : Nat} {bs : List Byte} :
    ({ s with mem := s.mem.write a bs } : State).memoryOk = true := ofMem hs (Mem.write_wf _ _ _ (mem_ok hs))

theorem awaitCkpt_ok {i : Iss} {r : Except (Nat × Nat) α} (h : OnOk st r) : OnOk st (awaitCkpt i r) := by
  cases r with
  | error => trivial
  | ok a => exact h

theorem movedTo_ok {o : Out State} (h : OnNext o) : OnSome id (movedTo o) := by
  cases o with
  | next t => exact OnSome.ite trivial h
  | fault | refused => trivial

theorem onNext_ok {o : Out State} {f : State → State} (h : OnNext o) (hf : ∀ t : State, t.memoryOk = true → (f t).memoryOk =
    true) :
    OnNext (onNext o f) := by
  cases o with
  | next t => exact hf t h
  | fault | refused => trivial

theorem reset_ok : State.reset.memoryOk = true := Tests.reset_memory

end

section
variable {s : State} (hs : s.memoryOk = true)
include hs

/-! ### Home lines, versions and copies -/

theorem cleanSector_ok {sec} : (s.cleanSector sec).memoryOk = true := same hs

theorem dropVersions_ok {core slot} : (s.dropVersions core slot).memoryOk = true := foldl_ok (fun _ _ ht1 => poison_ok _ ht1)
    (same hs)

theorem updCrew_ok {core slot f} : (s.updCrew core slot f).memoryOk = true := same hs

theorem dropL1_ok {core part l pinned} : (s.dropL1 core part l pinned).memoryOk = true := same hs

theorem dropL1All_ok {part l} : (s.dropL1All part l).memoryOk = true := same hs

theorem updL1_ok {core part l f} : (s.updL1 core part l f).memoryOk = true := same hs

theorem dropCore_ok {core} : (s.dropCore core).memoryOk = true := same hs

/-! ### Contexts and translations -/

theorem updCtx_ok {part f} : (s.updCtx part f).memoryOk = true := same hs

theorem setFn_ok {fn h} : (s.setFn fn h).memoryOk = true := same hs

theorem countHit_ok {part l} : (s.countHit part l).memoryOk = true := by
  unfold State.countHit
  exact ite_ok (same hs) hs

theorem tlbLeaf_ok {part l} : (s.tlbLeaf part l).memoryOk = true := by
  unfold State.tlbLeaf
  split
  · exact hs
  · exact hs
  · exact hs
  · split
    · exact hs
    · refine ite_ok hs ?_
      split
      · exact same hs
      · exact hs

theorem cacheLeaf_ok {part l} : (s.cacheLeaf part l).memoryOk = true := countHit_ok (tlbLeaf_ok hs)

/-! ### Rows, home slices, versions and L1 ways -/

theorem logPlace_ok {type wher} : (s.logPlace type wher).memoryOk = true := by
  unfold State.logPlace
  exact ite_ok (same hs) (same hs)

theorem logAccess_ok {type part ia} : (s.logAccess type part ia).memoryOk = true := by
  unfold State.logAccess
  exact ite_ok (same hs) (same hs)

theorem logLink_ok {type} : (s.logLink type).memoryOk = true := logPlace_ok hs

theorem logDie_ok {type die} : (s.logDie type die).memoryOk = true := logPlace_ok hs

theorem touch_ok {g l} : (s.touch g l).memoryOk = true := by
  unfold State.touch
  exact same hs

theorem versionBytes_ok {core slot g pa bs} : (s.versionBytes core slot g pa bs).memoryOk = true := by
  unfold State.versionBytes
  split <;> exact same hs

theorem versionClean_ok {core slot sec} : (s.versionClean core slot sec).memoryOk = true := same hs

theorem patchCopy_ok {core part pa bs} : (s.patchCopy core part pa bs).memoryOk = true := updL1_ok hs

theorem fillData_ok {r l} : (s.fillData r l).1.memoryOk = true := by
  unfold State.fillData
  dsimp only
  split
  · exact hs
  · exact fillHome_ok _ _ (touch_ok hs)

theorem setCopy_ok {r l d bad} : (s.setCopy r l d bad).memoryOk = true := by
  unfold State.setCopy
  dsimp only
  split
  · exact hs
  · exact same hs

theorem fillL1_ok {r l} : (s.fillL1 r l).memoryOk = true := by
  unfold State.fillL1
  exact setCopy_ok (fillData_ok hs)

theorem refill_ok {c} : (s.refill c).memoryOk = true := updL1_ok hs

theorem refillLines_ok {core part ls} : (s.refillLines core part ls).memoryOk = true := foldl_ok (fun _ _ ht1 => refill_ok ht1)
    hs

theorem readyE3_ok {r w l n noAlloc} : OnSome (fun p => p.1) (s.readyE3 r w l n noAlloc) := by
  unfold State.readyE3
  exact OnSome.ite trivial (OnSome.ite (OnSome.ite trivial (ite_ok (fillData_ok hs) (setCopy_ok (fillData_ok hs)))) hs)

theorem toQueue_ok {e} : (s.toQueue e).memoryOk = true := same hs

theorem passAll_ok {core fib} : (s.passAll core fib).memoryOk = true := by
  unfold State.passAll
  exact foldl_ok (fun _ _ ht1 => toQueue_ok ht1) (same hs)

/-! ### Crews, flocks, batches and fibres -/

theorem updFlock_ok {core slot n f} : (s.updFlock core slot n f).memoryOk = true := updCrew_ok hs

theorem onFlock_ok {i f} : (s.onFlock i f).memoryOk = true := updFlock_ok hs

theorem onBatch_ok {i f} : (s.onBatch i f).memoryOk = true := onFlock_ok hs

theorem onFibre_ok {i lane f} : (s.onFibre i lane f).memoryOk = true := onFlock_ok hs

theorem onCrew_ok {i f} : (s.onCrew i f).memoryOk = true := updCrew_ok hs

theorem onFibres_ok {α : Type} {i : Iss} {l : List (ℕ × α)} {f : α → Fibre → Fibre} : (s.onFibres i l f).memoryOk = true :=
    onFlock_ok hs

theorem advance_ok {i words} : (s.advance i words).memoryOk = true := onBatch_ok hs

/-! ### Slice-resident queues -/

theorem wakeEntry_ok {part pa w} : (s.wakeEntry part pa w).memoryOk = true := by
  unfold State.wakeEntry
  refine ite_ok ?_ hs
  split
  · exact ite_ok (updFlock_ok hs) hs
  · exact hs

theorem wakeAll_ok {part l} : (s.wakeAll part l).memoryOk = true := by
  unfold State.wakeAll
  exact placeWrite_ok _ _ (placeWrite_ok _ _ (foldl_ok (fun _ _ ht1 => wakeEntry_ok ht1) hs))

theorem qno_ok : s.qno.state.memoryOk = true := by
  unfold State.qno
  exact hs

theorem qbad_ok {l} : (s.qbad l).state.memoryOk = true := by
  unfold State.qbad
  exact qno_ok (logError_ok _ _ _ hs)

theorem qenq_ok {part lv l wide x} : (s.qenq part lv l wide x).state.memoryOk = true := by
  unfold State.qenq
  dsimp only
  refine state_ite_ok (qbad_ok hs) ?_
  refine state_ite_ok (qno_ok hs) ?_
  refine state_ite_ok ?_ (qno_ok hs)
  split
  · exact qno_ok hs
  · exact state_ite_ok (qno_ok hs) (wakeAll_ok (placeWrite_ok _ _ (placeWrite_ok _ _ hs)))

theorem qdeq_ok {part lv l wide} : (s.qdeq part lv l wide).state.memoryOk = true := by
  unfold State.qdeq
  dsimp only
  refine state_ite_ok (qno_ok hs) ?_
  refine state_ite_ok (qno_ok hs) ?_
  refine state_ite_ok (qno_ok hs) ?_
  split
  · exact qno_ok hs
  · exact state_ite_ok (qno_ok hs) (placeWrite_ok _ _ hs)

theorem qlist_ok {l w} : (s.qlist l w).1.memoryOk = true := by
  unfold State.qlist
  split <;> exact placeWrite_ok _ _ hs

/-! ### Pins and allocation at the slice -/

theorem setMoving_ok {c base b} : (s.setMoving c base b).memoryOk = true := by
  unfold State.setMoving
  exact iaWrite_ok _ _ _ _ hs

theorem cacheFwd_ok {c core r} : (s.cacheFwd c core r).memoryOk = true := by
  unfold State.cacheFwd
  dsimp only
  refine ite_ok hs ?_
  split
  · exact ite_ok (same hs) hs
  · exact hs

theorem pinStep_ok {c core r} : OnSome (fun p => p.1) (s.pinStep c core r) := by
  unfold State.pinStep
  split
  · trivial
  · exact OnSome.ite trivial (OnSome.ite hs (iaWrite_ok _ _ _ _ hs))

theorem unpinStep_ok {c core r} : OnSome (fun p => p.1) (s.unpinStep c core r) := by
  unfold State.unpinStep
  split
  · trivial
  · exact OnSome.ite hs (iaWrite_ok _ _ _ _ hs)

theorem zeroLines_ok {c ia a} : (s.zeroLines c ia a).memoryOk = true := by
  induction a generalizing s ia with
  | zero => exact hs
  | succ k ih =>
    rw [State.zeroLines]
    refine ih ?_
    split
    · exact cleanSector_ok (cleanSector_ok (placeWrite_ok _ _ hs))
    · exact hs

theorem hnewStep_ok {c region size} : (s.hnewStep c region size).1.memoryOk = true := by
  unfold State.hnewStep
  exact fst_ite_ok hs (iaWrite_ok _ _ _ _ (zeroLines_ok (iaWrite_ok _ _ _ _ (iaWrite_ok _ _ _ _ hs))))

/-! ### Engines' line writes -/

theorem updEngine_ok {id f} : (s.updEngine id f).memoryOk = true := same hs

theorem poolDrop_ok {core slot key l} : (s.poolDrop core slot key l).memoryOk = true := logError_ok _ _ _ (updCrew_ok hs)

theorem countPlace_ok {ε : Type} {part : ℕ} {a : Except ε Loc} : (s.countPlace part a).memoryOk = true := by
  unfold State.countPlace
  dsimp only
  split
  · exact countHit_ok (ite_ok (foldl_ok (fun _ _ ht1 => activate_ok _ _ ht1) hs) (touch_ok (foldl_ok (fun _ _ ht1 =>
        activate_ok _ _ ht1) hs)))
  · exact hs

theorem countReads_ok {ox e vas} : (s.countReads ox e vas).memoryOk = true := foldl_ok (fun _ _ ht1 => countPlace_ok ht1) hs

theorem markSector_ok {sec bs} : (s.markSector sec bs).memoryOk = true := ite_ok (poison_ok _ hs) (ite_ok (cleanSector_ok hs)
    hs)

theorem engWrite_ok {e l bs} : (s.engWrite e l bs).memoryOk = true := by
  unfold State.engWrite
  extract_lets key writer s1 lo hi s2 s3
  have h1 : s1.memoryOk = true := by
    unfold s1
    clear_value writer
    cases writer with
    | some w => exact updCrew_ok hs
    | none => exact foldl_ok (fun _ _ ht => placeWrite_ok _ _ ht) hs
  have h2 : s2.memoryOk = true := ite_ok h1 (markSector_ok h1)
  have h3 : s3.memoryOk = true := ite_ok h2 (markSector_ok h2)
  exact ite_ok (poolDrop_ok hs) (countHit_ok (ite_ok h3 (touch_ok h3)))

theorem readsCounted_ok {e d line} : (s.readsCounted e d line).memoryOk = true := ite_ok hs (countReads_ok hs)

theorem copyLine_ok {e d line} : OnOk (fun p => p.1) (s.copyLine e d line) := by
  unfold State.copyLine
  refine OnOk.ite (OnOk.map (fun _ _ => countPlace_ok hs)) ?_
  split
  · trivial
  · exact OnOk.map (fun _ _ => engWrite_ok (readsCounted_ok hs))

theorem finishChunk_ok {e ds todo} : (s.finishChunk e ds todo).memoryOk = true := by
  unfold State.finishChunk
  dsimp only
  refine ite_ok ?_ hs
  refine foldl_ok (fun _ ⟨_, _⟩ ht1 => ?_) hs
  split
  · refine ite_ok ht1 ?_
    split
    · rename_i e2
      exact (copyLine_ok ht1).get e2
    · exact ht1
  · exact ht1

theorem goatCopy_ok {e die list count k ln} : OnSome id (s.goatCopy e die list count k ln) := by
  unfold State.goatCopy
  dsimp only
  refine OnSome.bind (fun _ _ => ?_)
  refine OnSome.bind (fun _ _ => ?_)
  split
  · exact updEngine_ok (iaWrite_ok _ _ _ _ (dropL1All_ok (copyLineTo_ok _ _ (countHit_ok (countPlace_ok hs)))))
  · trivial

theorem finishUnit_ok {e} : (s.finishUnit e).memoryOk = true := by
  unfold State.finishUnit
  split
  · exact finishChunk_ok hs
  · exact getD_ok (goatCopy_ok hs) hs
  · exact hs

theorem finishUnits_ok {k} : (s.finishUnits k).memoryOk = true := foldl_ok (fun _ _ ht1 => finishUnit_ok ht1) hs

/-! ### Checkpoints, rollback, traps and the frames of meanings -/

theorem dropShadows_ok {core slot} : (s.dropShadows core slot).memoryOk = true := same hs

theorem checkpoint_ok {core slot} : (s.checkpoint core slot).memoryOk = true := by
  unfold State.checkpoint
  split
  · exact hs
  · exact updCrew_ok (dropShadows_ok (commitCrew_ok _ _ hs))

theorem takeCkpt_ok {i} : OnOk id (takeCkpt s i) := OnOk.ite (checkpoint_ok hs) trivial

theorem firstCkpt_ok {i} : OnOk id (firstCkpt s i) := by
  unfold firstCkpt
  refine OnOk.ite trivial ?_
  split
  · trivial
  · rename_i e
    exact updCrew_ok ((takeCkpt_ok hs).get e)

theorem ckptOthers_ok {ks} : OnSome id (ckptOthers s ks) := OnSome.ite (foldl_ok (fun _ ⟨_, _⟩ ht1 => checkpoint_ok ht1) hs)
    trivial

theorem takeBins_ok {core a} : (s.takeBins core a).memoryOk = true := by
  induction a generalizing s with
  | zero => exact hs
  | succ k ih =>
    rw [State.takeBins]
    split
    · exact hs
    · exact ih (updCrew_ok hs)

theorem settleBins_ok {core} : (s.settleBins core).memoryOk = true := takeBins_ok hs

theorem settleTeam_ok {k} : (s.settleTeam k).memoryOk = true := by
  unfold State.settleTeam
  exact ite_ok (same hs) hs

theorem discard_ok {k} : (s.discard k).memoryOk = true := by
  unfold State.discard
  exact same (dropVersions_ok hs)

theorem rollback_ok {core slot} : (s.rollback core slot).memoryOk = true := by
  unfold State.rollback
  dsimp only
  split
  · exact hs
  · exact settleTeam_ok (settleBins_ok (updCrew_ok (same (discard_ok (finishUnits_ok hs)))))

theorem toDriver_ok {k r} : (s.toDriver k r).1.memoryOk = true := by
  unfold State.toDriver
  exact same hs

theorem tryEnqueue_ok {k r} : (s.tryEnqueue k r).1.memoryOk = true := by
  unfold State.tryEnqueue
  dsimp only
  refine fst_ite_ok hs ?_
  refine fst_ite_ok (toDriver_ok hs) ?_
  split
  · exact toDriver_ok hs
  · exact fst_ite_ok hs (fst_ite_ok (qenq_ok hs) (fst_ite_ok (toDriver_ok hs) hs))

theorem writeRecord_ok {k r} : OnSome id (s.writeRecord k r) := by
  unfold State.writeRecord
  refine OnSome.ite trivial ?_
  split
  · trivial
  · exact placeWrite_ok _ _ hs

theorem publish_ok {k r} : (s.publish k r).1.memoryOk = true := by
  unfold State.publish
  split
  · exact toDriver_ok hs
  · rename_i e
    exact tryEnqueue_ok ((writeRecord_ok hs).get e)

theorem publishRecord_ok {core slot} : (s.publishRecord core slot).memoryOk = true := by
  unfold State.publishRecord
  split
  · exact hs
  · exact updCrew_ok (publish_ok hs)

theorem takeTrap_ok {core slot t held} : (s.takeTrap core slot t held).memoryOk = true := by
  unfold State.takeTrap
  dsimp only
  split
  · exact hs
  · exact publishRecord_ok (updCrew_ok (same (rollback_ok hs)))

theorem raise_ok {core slot t} : (s.raise core slot t).memoryOk = true := by
  unfold State.raise
  split
  · exact hs
  · exact ite_ok hs (ite_ok (updCrew_ok hs) (takeTrap_ok hs))

theorem secondCkpt_ok {core slot} : (s.secondCkpt core slot).memoryOk = true := checkpoint_ok (updCrew_ok hs)

theorem deliverHeld_ok {core slot} : OnSome id (s.deliverHeld core slot) := by
  unfold State.deliverHeld
  split
  · trivial
  · split
    · trivial
    · exact OnSome.ite trivial (takeTrap_ok hs)

theorem resumeCrew_ok {core slot} : (s.resumeCrew core slot).memoryOk = true := updCrew_ok (dropCore_ok hs)

theorem openStep_ok {i} : (s.openStep i).memoryOk = true := onCrew_ok hs

theorem closeStep_ok {core slot} : (s.closeStep core slot).memoryOk = true := updCrew_ok hs

theorem stopped_ok {i a} : (s.stopped i a).memoryOk = true := by
  unfold State.stopped
  dsimp only
  split
  · exact same hs
  · exact onCrew_ok (foldl_ok (fun _ ⟨_, _⟩ ht1 => updCrew_ok ht1) (same hs))
  · exact raise_ok hs

theorem runBatch_ok {body} (hbody : ∀ (a : Iss), OnOk id (body a)) : OnNext (runBatch s body) := by
  unfold runBatch
  refine OnNext.ite trivial ?_
  split
  · trivial
  · split
    · rename_i e1
      exact (hbody _).get e1
    · exact stopped_ok hs

theorem laneSet_ok {x anyRole body} (hbody : ∀ (j : Iss) (l : List Fibre), OnOk id (body j l)) : OnNext (laneSet s x
    anyRole body) := by
  unfold laneSet
  exact runBatch_ok hs (fun _ => OnOk.ite (advance_ok hs) (OnOk.ite trivial (hbody _ _)))

theorem uniSet_ok {x roles body} (hbody : ∀ (a : Iss), OnOk id (body a)) : OnNext (uniSet s x roles body) := runBatch_ok hs
    (fun _ => OnOk.ite trivial (OnOk.ite (advance_ok hs) (OnOk.ite trivial (hbody _))))

theorem passBatch_ok {i fs} : (s.passBatch i fs).memoryOk = true := foldl_ok (fun _ _ ht1 => passAll_ok ht1) hs

theorem releaseAll_ok {i fs sc} : (s.releaseAll i fs sc).memoryOk = true := by
  unfold State.releaseAll
  exact onBatch_ok (same (foldl_ok (fun _ _ ht1 => same (passAll_ok ht1)) hs))

theorem engineIssue_ok {i words lines add} (hadd : ∀ t : State, t.memoryOk = true → ∀ j : ℕ, (add t j).memoryOk = true)
    : OnOk id (engineIssue s i words lines add) := by
  unfold engineIssue
  dsimp only
  refine OnOk.ite (onBatch_ok (releaseAll_ok hs)) ?_
  refine OnOk.ite trivial ?_
  split
  · trivial
  · rename_i e
    split
    · trivial
    · rename_i e1
      exact advance_ok (hadd _ (same ((takeCkpt_ok (onBatch_ok ((ckptOthers_ok hs).get e))).get e1)) _)

/-! ### Operand forms -/

theorem laneResult_ok {i x wide vs} : (s.laneResult i x wide vs).memoryOk = true := advance_ok (onFibres_ok hs)

theorem laneWrite_ok {x wide rd} : OnNext (laneWrite s x wide rd) := by
  unfold laneWrite
  refine laneSet_ok hs (fun _ _ => ?_)
  split
  · trivial
  · exact laneResult_ok hs

theorem lane1_ok {x op} : OnNext (lane1 s x op) := laneWrite_ok hs

theorem lane2_ok {x imm op} : OnNext (lane2 s x imm op) := laneWrite_ok hs

theorem lane3_ok {x imm op} : OnNext (lane3 s x imm op) := laneWrite_ok hs

theorem lanePair2_ok {x op} : OnNext (lanePair2 s x op) := laneWrite_ok hs

theorem predResult_ok {i x e vs} : (s.predResult i x e vs).memoryOk = true := advance_ok (onFibres_ok hs)

theorem lanePred_ok {x e rd} : OnNext (lanePred s x e rd) := by
  unfold lanePred
  refine laneSet_ok hs (fun _ _ => ?_)
  split
  · trivial
  · exact predResult_ok hs

theorem uniResult_ok {i x wide v} : (s.uniResult i x wide v).memoryOk = true := advance_ok (onFlock_ok hs)

theorem uniWrite_ok {x roles wide regs op} : OnNext (uniWrite s x roles wide regs op) := by
  unfold uniWrite
  refine uniSet_ok hs (fun _ => ?_)
  split
  · trivial
  · exact uniResult_ok hs

theorem uni1_ok {x op} : OnNext (uni1 s x op) := uniWrite_ok hs

theorem uni2_ok {x op} : OnNext (uni2 s x op) := uniWrite_ok hs

theorem uni3_ok {x op} : OnNext (uni3 s x op) := uniWrite_ok hs

theorem uniPredResult_ok {i x e r} : (s.uniPredResult i x e r).memoryOk = true := advance_ok (onFlock_ok hs)

/-! ### Floating-point instructions -/

theorem float1_ok {x op} : OnNext (float1 s x op) := lane1_ok hs

theorem float2_ok {x op} : OnNext (float2 s x op) := lane2_ok hs

theorem float3_ok {x op} : OnNext (float3 s x op) := lane3_ok hs

theorem execFadd_ok {x} : OnNext (execFadd x s) := float2_ok hs

theorem execFsub_ok {x} : OnNext (execFsub x s) := float2_ok hs

theorem execFmul_ok {x} : OnNext (execFmul x s) := float2_ok hs

theorem execFfma_ok {x} : OnNext (execFfma x s) := float3_ok hs

theorem execFmin_ok {x} : OnNext (execFmin x s) := float2_ok hs

theorem execFmax_ok {x} : OnNext (execFmax x s) := float2_ok hs

theorem execFdiv_ok {x} : OnNext (execFdiv x s) := float2_ok hs

theorem execFsqrt_ok {x} : OnNext (execFsqrt x s) := float1_ok hs

theorem execFrcp_ok {x} : OnNext (execFrcp x s) := float1_ok hs

theorem execFrsq_ok {x} : OnNext (execFrsq x s) := float1_ok hs

theorem execFex2_ok {x} : OnNext (execFex2 x s) := float1_ok hs

theorem execFlg2_ok {x} : OnNext (execFlg2 x s) := float1_ok hs

theorem execFsin_ok {x} : OnNext (execFsin x s) := float1_ok hs

theorem execFcos_ok {x} : OnNext (execFcos x s) := float1_ok hs

theorem execFrnd_ok {x} : OnNext (execFrnd x s) := float1_ok hs

theorem execFscale_ok {x} : OnNext (execFscale x s) := lane2_ok hs

theorem execFcpys_ok {x} : OnNext (execFcpys x s) := lane2_ok hs

theorem packed2_ok {x f op} : OnNext (packed2 s x f op) := by
  unfold packed2
  exact lane2_ok hs

theorem packed3_ok {x f op} : OnNext (packed3 s x f op) := by
  unfold packed3
  exact lane3_ok hs

theorem execHadd2_ok {x} : OnNext (execHadd2 x s) := packed2_ok hs

theorem execHmul2_ok {x} : OnNext (execHmul2 x s) := packed2_ok hs

theorem execHfma2_ok {x} : OnNext (execHfma2 x s) := packed3_ok hs

theorem execHmin2_ok {x} : OnNext (execHmin2 x s) := packed2_ok hs

theorem execHmax2_ok {x} : OnNext (execHmax2 x s) := packed2_ok hs

theorem execBadd2_ok {x} : OnNext (execBadd2 x s) := packed2_ok hs

theorem execBmul2_ok {x} : OnNext (execBmul2 x s) := packed2_ok hs

theorem execBfma2_ok {x} : OnNext (execBfma2 x s) := packed3_ok hs

theorem execCvt_ok {x} : OnNext (execCvt x s) := laneWrite_ok hs

theorem execCvtp_ok {x} : OnNext (execCvtp x s) := by
  unfold execCvtp
  dsimp only
  refine OnNext.ite ?_ (laneWrite_ok hs)
  refine laneSet_ok hs (fun _ _ => ?_)
  split
  · trivial
  · exact advance_ok (onFibres_ok hs)

theorem execCvtx_ok {x} : OnNext (execCvtx x s) := lane2_ok hs

theorem produce_ok {i x wide vs} : (s.produce i x wide vs).memoryOk = true := onCrew_ok (onFibres_ok hs)

theorem execCvtq_ok {x} : OnNext (execCvtq x s) := by
  unfold execCvtq
  dsimp only
  refine laneSet_ok hs (fun _ _ => ?_)
  split
  · trivial
  · exact advance_ok (produce_ok hs)

theorem ufloat2_ok {x op} : OnNext (ufloat2 s x op) := uniWrite_ok hs

theorem execUfadd_ok {x} : OnNext (execUfadd x s) := ufloat2_ok hs

theorem execUfmul_ok {x} : OnNext (execUfmul x s) := ufloat2_ok hs

theorem execUffma_ok {x} : OnNext (execUffma x s) := uniWrite_ok hs

theorem execUcvt_ok {x} : OnNext (execUcvt x s) := by
  unfold execUcvt
  exact uniWrite_ok hs

/-! ### The pod network -/

theorem podWrite_ok {part ia n v} : (s.podWrite part ia n v).memoryOk = true := by
  have hn : (s.noteOld part (podWord 0) ia n fun a => s.podVal part a 4).memoryOk = true := noteOld_ok _ _ _ _ _ hs
  unfold State.podWrite
  dsimp only
  split
  · exact commitBytes_ok _ _ _ hn
  · have h := (State.memoryOk_iff _).mp hn
    exact (State.memoryOk_iff _).mpr ⟨h.1, Mem.write_wf _ _ _ h.2.1, h.2.2⟩

theorem logDropped_ok {q} : (s.logDropped q).memoryOk = true := by
  unfold State.logDropped
  split
  · exact logError_ok _ _ _ hs
  · exact logAccess_ok hs

theorem logReds_ok {r} : (s.logReds r).memoryOk = true := foldl_ok (fun _ _ ht1 => logDropped_ok ht1) hs

theorem applyPod_ok {r} : (s.applyPod r).1.memoryOk = true := by
  unfold State.applyPod
  dsimp only
  split
  · exact hs
  · exact podWrite_ok hs
  · exact fst_ite_ok (logReds_ok hs) (podWrite_ok hs)
  · exact fst_ite_ok hs (podWrite_ok hs)

theorem podSend_ok {r} : (s.podSend r).memoryOk = true := by
  unfold State.podSend
  exact same hs

theorem absorb_ok {e} : (s.absorb e).memoryOk = true := by
  unfold State.absorb
  split
  · exact ite_ok (same hs) (same hs)
  · exact same hs

theorem absorbStep_ok {idx} : OnSome id (s.absorbStep idx) := by
  unfold State.absorbStep
  split
  · trivial
  · exact OnSome.ite trivial (absorb_ok (same hs))

theorem transmitStep_ok {p} : OnSome id (s.transmitStep p) := by
  unfold State.transmitStep
  dsimp only
  split
  · trivial
  · split
    · exact same hs
    · exact same (applyPod_ok (same hs))

theorem deliver_ok {r} : (s.deliver r).memoryOk = true := by
  unfold State.deliver
  dsimp only
  split
  · exact same hs
  · exact updCrew_ok (same hs)
  · exact updFlock_ok (same hs)

theorem replyStep_ok {idx} : OnSome id (s.replyStep idx) := by
  unfold State.replyStep
  dsimp only
  split
  · trivial
  · split
    · exact same hs
    · exact foldl_ok (fun _ _ ht1 => deliver_ok ht1) (same hs)

/-! ### Loads, entries that drain, and stores -/

theorem hintLine_ok {h part l filled} : (s.hintLine h part l filled).memoryOk = true := by
  unfold State.hintLine
  split
  · exact ite_ok (updHome_ok hs (fun _ _ e1 => e1)) hs
  · exact updHome_ok hs (fun _ _ e1 => e1)
  · exact hs

theorem loadLine_ok {r w l n m} : OnSome (fun p => p.1) (s.loadLine r w l n m) := by
  unfold State.loadLine
  dsimp only
  refine OnSome.ite (OnSome.map (fun ⟨_, _, _⟩ e => hintLine_ok ((readyE3_ok hs).get e))) ?_
  split
  · trivial
  · exact hs
  · exact OnSome.ite (OnSome.ite trivial (fillL1_ok (hintLine_ok (fillSector_ok _ _ (touch_ok hs))))) (hintLine_ok
        (fillSector_ok _ _ (touch_ok hs)))

theorem loadOne_ok {i f l n sx m} : OnSome (fun p => p.1) (s.loadOne i f l n sx m) := by
  unfold State.loadOne
  dsimp only
  split
  · exact hs
  · exact OnSome.ite trivial (same (podSend_ok hs))
  · split
    · exact cacheLeaf_ok hs
    · exact OnSome.ite (OnSome.map (fun _ _ => activate_ok _ _ (cacheLeaf_ok hs))) (OnSome.map (fun ⟨_, _, _⟩ e3 =>
          (loadLine_ok (cacheLeaf_ok hs)).get e3))

theorem loadAll_ok {i n sx m a} : OnSome (fun p => p.1) (s.loadAll i n sx m a) := by
  induction a generalizing s with
  | nil => exact hs
  | cons y l ih =>
    obtain ⟨f, l⟩ := y
    rw [State.loadAll]
    dsimp only
    split
    · trivial
    · rename_i e
      split
      · trivial
      · rename_i e1
        exact ((ih ((loadOne_ok hs).get e)).get e1 :)

theorem clearPoison_ok {e clears} : (s.clearPoison e clears).memoryOk = true := ite_ok (updL1_ok (cleanSector_ok hs)) hs

theorem storeCommitted_ok {e bs clears} : (s.storeCommitted e bs clears).memoryOk = true := by
  unfold State.storeCommitted
  exact clearPoison_ok (ite_ok (placeWrite_ok _ _ hs) (patchCopy_ok (placeWrite_ok _ _ hs)))

theorem storeVersion_ok {e bs clears} : (s.storeVersion e bs clears).memoryOk = true := by
  unfold State.storeVersion
  exact ite_ok (versionClean_ok (versionBytes_ok hs)) (versionBytes_ok hs)

theorem storePool_ok {e bs clears} : (s.storePool e bs clears).memoryOk = true := by
  unfold State.storePool
  exact ite_ok (poolDrop_ok hs) (ite_ok (updCrew_ok hs) (storeCommitted_ok hs))

theorem hintEntry_ok {e} : (s.hintEntry e).memoryOk = true := ite_ok hs (hintLine_ok (fillSector_ok _ _ hs))

theorem applyStore_ok {e bs release clears} : (s.applyStore e bs release clears).memoryOk = true := by
  unfold State.applyStore
  dsimp only
  split
  · exact same (ite_ok (storeVersion_ok (hintEntry_ok hs)) (ite_ok (hintEntry_ok hs) (ite_ok (storePool_ok (hintEntry_ok hs))
        (storeCommitted_ok (hintEntry_ok hs)))))
  · exact same (ite_ok (storeVersion_ok (hintEntry_ok hs)) (ite_ok (hintEntry_ok hs) (ite_ok (storePool_ok (hintEntry_ok hs))
        (storeCommitted_ok (hintEntry_ok hs)))))
  · exact ite_ok (storeVersion_ok (hintEntry_ok hs)) (ite_ok (hintEntry_ok hs) (ite_ok (storePool_ok (hintEntry_ok hs))
        (storeCommitted_ok (hintEntry_ok hs))))

theorem atomReply_ok {e r} : (s.atomReply e r).memoryOk = true := updFlock_ok hs

theorem commitLine_ok {core slot l} : (s.commitLine core slot l).memoryOk = true := by
  unfold State.commitLine
  split
  · exact ite_ok hs (commitVersion_ok _ hs)
  · exact hs

theorem refreshCopy_ok {e l} : (s.refreshCopy e l).memoryOk = true := by
  unfold State.refreshCopy
  split
  · exact ite_ok hs (fillL1_ok hs)
  · exact hs

theorem applyAtomic_ok {e n f} : (s.applyAtomic e n f).memoryOk = true := by
  unfold State.applyAtomic
  exact atomReply_ok (ite_ok (logError_ok _ _ _ (refreshCopy_ok (ite_ok (commitLine_ok hs) (placeWrite_ok _ _ (commitLine_ok
      hs))))) (refreshCopy_ok (ite_ok (commitLine_ok hs) (placeWrite_ok _ _ (commitLine_ok hs)))))

theorem sliceStep_ok {c e op l n v} : OnSome id (s.sliceStep c e op l n v) := by
  unfold State.sliceStep
  dsimp only
  split
  · exact OnSome.ite trivial (atomReply_ok (qenq_ok hs))
  · exact OnSome.ite trivial (atomReply_ok (qdeq_ok hs))
  · exact OnSome.ite (atomReply_ok hs) (OnSome.map (fun ⟨_, _, _⟩ e1 => atomReply_ok ((pinStep_ok hs).get e1)))
  · exact OnSome.ite (atomReply_ok (logError_ok _ _ _ hs)) (OnSome.map (fun ⟨_, _, _⟩ e1 => atomReply_ok ((unpinStep_ok hs).get
        e1)))
  · exact OnSome.ite (atomReply_ok hs) (atomReply_ok (hnewStep_ok hs))
  · exact hs

theorem applySlice_ok {e op n v} : OnSome id (s.applySlice e op n v) := by
  unfold State.applySlice
  dsimp only
  split
  · exact atomReply_ok hs
  · exact OnSome.map (fun _ e2 => refreshCopy_ok ((sliceStep_ok (commitLine_ok hs)).get e2))

theorem spoilHeld_ok {e} : (s.spoilHeld e).memoryOk = true := ite_ok (poison_ok _ hs) hs

theorem loseEntry_ok {e} : (s.loseEntry e).memoryOk = true := by
  unfold State.loseEntry
  dsimp only
  split
  · exact hs
  · exact spoilHeld_ok (logError_ok _ _ _ hs)
  · split
    · exact ite_ok (atomReply_ok hs) (atomReply_ok (spoilHeld_ok (logError_ok _ _ _ hs)))
    · exact atomReply_ok hs
    · exact atomReply_ok hs
    · exact atomReply_ok hs
    · exact atomReply_ok hs
    · exact atomReply_ok (logError_ok _ _ _ hs)
    · exact atomReply_ok (logError_ok _ _ _ hs)

theorem arrival_ok {e} : (s.arrival e).memoryOk = true := ite_ok hs (touch_ok hs)

theorem applyEntry_ok {e} : OnSome id (s.applyEntry e) := by
  unfold State.applyEntry
  dsimp only
  refine OnSome.ite (loseEntry_ok (arrival_ok hs)) ?_
  refine OnSome.ite trivial ?_
  split
  · exact arrival_ok hs
  · exact OnSome.ite trivial (applyStore_ok (arrival_ok hs))
  · exact applyAtomic_ok (arrival_ok hs)
  · exact applyAtomic_ok (arrival_ok hs)
  · exact applySlice_ok (arrival_ok hs)

theorem drainAll_ok {a} : OnSome id (s.drainAll a) := by
  induction a generalizing s with
  | nil => exact hs
  | cons y l ih =>
    rw [State.drainAll]
    refine OnSome.ite trivial ?_
    split
    · trivial
    · rename_i e
      exact ih ((applyEntry_ok (same hs)).get e)

theorem promote_ok {part} : OnSome id (s.promote part) := by
  unfold State.promote
  exact OnSome.foldl (fun _ _ e => OnSome.bind (fun _ e1 => drainAll_ok (e.get e1))) hs

theorem acquire_ok {i sc rmt} : OnSome id (s.acquire i sc rmt) := OnSome.ite hs (OnSome.map (fun _ e => dropCore_ok (OnSome.of
    (st := id) e (OnSome.ite (promote_ok hs) hs))))

theorem windowStore_ok {l bs} : (s.windowStore l bs).memoryOk = true :=
  ofHw (noteOld_ok _ _ _ _ _ hs) (Mem.write_wf _ _ _ (hw_ok hs))

theorem storeDirect_ok {e bs clears} : OnSome id (s.storeDirect e bs clears) := OnSome.ite trivial (OnSome.ite (same hs)
    (storeCommitted_ok hs))

theorem storeOne_ok {i f l bs release clears hint tag} : OnSome id (s.storeOne i f l bs release clears hint tag) := by
  unfold State.storeOne
  dsimp only
  split
  · exact windowStore_ok hs
  · exact OnSome.ite trivial (same (podSend_ok hs))
  · exact OnSome.ite (same (cacheLeaf_ok hs)) (OnSome.ite (storeDirect_ok (cacheLeaf_ok hs)) (same (cacheLeaf_ok hs)))

theorem storeAll_ok {i release clears hint tag a} : OnSome id (s.storeAll i release clears hint tag a) := by
  induction a generalizing s with
  | nil => exact hs
  | cons y l ih =>
    obtain ⟨f, l, bs⟩ := y
    rw [State.storeAll]
    split
    · trivial
    · rename_i e
      exact ih ((storeOne_ok hs).get e)

/-! ### Scratch -/

theorem ckptUntil_ok {ok a} : OnOk id (ckptUntil ok a s) := by
  induction a generalizing s with
  | nil => exact hs
  | cons y l ih =>
    rw [ckptUntil]
    refine OnOk.ite hs ?_
    split
    · exact ih hs
    · exact OnOk.ite (ih (checkpoint_ok hs)) trivial

theorem reserveScratch_ok {core slot lines} : OnOk id (s.reserveScratch core slot lines) := by
  unfold State.reserveScratch
  dsimp only
  split
  · trivial
  · rename_i e
    exact updCrew_ok ((ckptUntil_ok hs).get e)

theorem needScratch_ok {i lines} : OnOk id (needScratch s i lines) := awaitCkpt_ok (reserveScratch_ok hs)

theorem execLds_ok {x} : OnNext (execLds x s) := by
  unfold execLds
  dsimp only
  refine laneSet_ok hs (fun _ _ => ?_)
  split
  · trivial
  · exact advance_ok (produce_ok hs)

theorem execSts_ok {x} : OnNext (execSts x s) := by
  unfold execSts
  dsimp only
  refine laneSet_ok hs (fun _ _ => ?_)
  split
  · trivial
  · split
    · trivial
    · rename_i e1
      exact advance_ok (same (onFibres_ok ((needScratch_ok hs).get e1)))

/-! ### Memory instructions -/

theorem loadRun_ok {i x ls} : OnSome (fun p => p.1) (s.loadRun i x ls) := by
  unfold State.loadRun
  dsimp only
  split
  · trivial
  · rename_i e
    exact loadAll_ok (OnSome.of (st := id) e (OnSome.ite (promote_ok hs) hs))

theorem closeFirst_ok {i closes} : OnOk id (closeFirst s i closes) := OnOk.ite (takeCkpt_ok hs) hs

theorem loadEnd_ok {i x ls} : (s.loadEnd i x ls).memoryOk = true := ite_ok (advance_ok hs) (ite_ok (onBatch_ok hs) (advance_ok
    (dropCore_ok hs)))

theorem loadAcquired_ok {i x} : OnOk id (loadAcquired s i x) := OnOk.ite trivial (advance_ok (dropCore_ok hs))

theorem execLd_ok {x} : OnNext (execLd x s) := by
  unfold execLd
  dsimp only
  refine laneSet_ok hs (fun _ _ => ?_)
  refine OnOk.ite (loadAcquired_ok hs) ?_
  split
  · trivial
  · split
    · trivial
    · rename_i e1
      split
      · trivial
      · rename_i e2
        exact loadEnd_ok (produce_ok ((loadRun_ok ((closeFirst_ok hs).get e1)).get e2))

theorem produceK_ok {i x vs} : (s.produceK i x vs).memoryOk = true := onCrew_ok hs

theorem execUld_ok {x} : OnNext (execUld x s) := by
  unfold execUld
  dsimp only
  refine uniSet_ok hs (fun _ => ?_)
  refine OnOk.ite (loadAcquired_ok hs) ?_
  split
  · trivial
  · split
    · trivial
    · split
      · trivial
      · rename_i e2
        split
        · trivial
        · rename_i e3
          exact loadEnd_ok (produceK_ok ((loadRun_ok ((closeFirst_ok hs).get e2)).get e3))

theorem releaseStore_ok {i sc clears hint tag a} : (s.releaseStore i sc clears hint tag a).memoryOk = true := by
  induction a generalizing s with
  | nil => exact hs
  | cons y l ih =>
    obtain ⟨f, l, bs⟩ := y
    exact ih (same (cacheLeaf_ok (passAll_ok hs)))

theorem storeRun_ok {i x ss} : OnOk id (storeRun s i x ss) := by
  unfold storeRun
  dsimp only
  refine OnOk.ite ?_ ?_
  · refine OnOk.ite ?_ trivial
    split
    · trivial
    · rename_i e
      exact advance_ok (same ((storeAll_ok hs).get e))
  · split
    · trivial
    · rename_i e
      refine OnOk.ite ?_ (OnOk.ite (onBatch_ok (releaseAll_ok ((closeFirst_ok hs).get e))) (advance_ok (same (releaseStore_ok
          ((closeFirst_ok hs).get e)))))
      split
      · trivial
      · rename_i e1
        exact advance_ok (same ((storeAll_ok ((closeFirst_ok hs).get e)).get e1))

theorem execSt_ok {x} : OnNext (execSt x s) := by
  unfold execSt
  refine laneSet_ok hs (fun _ _ => ?_)
  split
  · trivial
  · exact storeRun_ok hs

theorem execUst_ok {x} : OnNext (execUst x s) := by
  unfold execUst
  dsimp only
  refine uniSet_ok hs (fun _ => ?_)
  split
  · trivial
  · split
    · trivial
    · exact storeRun_ok hs

theorem prefetch_ok {i x f v} : (s.prefetch i x f v).memoryOk = true := by
  unfold State.prefetch
  dsimp only
  split
  · exact hs
  · exact ite_ok (hintLine_ok (fillHome_ok _ _ (cacheLeaf_ok hs))) (fillL1_ok (hintLine_ok (fillHome_ok _ _ (cacheLeaf_ok hs))))

theorem execPref_ok {x} : OnNext (execPref x s) := by
  unfold execPref
  refine laneSet_ok hs (fun _ _ => ?_)
  split
  · trivial
  · exact OnOk.ite trivial (advance_ok (foldl_ok (fun _ ⟨_, _⟩ ht1 => prefetch_ok ht1) hs))

theorem execSliceof_ok {x} : OnNext (execSliceof x s) := laneWrite_ok hs

theorem execHomeof_ok {x} : OnNext (execHomeof x s) := laneWrite_ok hs

theorem execFence_ok {x} : OnNext (execFence x s) := by
  unfold execFence
  dsimp only
  refine uniSet_ok hs (fun _ => ?_)
  refine OnOk.ite ?_ ?_
  · refine OnOk.ite trivial ?_
    refine OnOk.ite ?_ (advance_ok hs)
    split
    · trivial
    · rename_i e
      exact advance_ok ((acquire_ok hs).get e)
  · split
    · exact advance_ok hs
    · split
      · trivial
      · rename_i e1
        exact advance_ok ((acquire_ok hs).get e1)
    · split
      · trivial
      · rename_i e1
        exact OnOk.ite (onBatch_ok (releaseAll_ok ((takeCkpt_ok hs).get e1))) (advance_ok (releaseAll_ok ((takeCkpt_ok hs).get
            e1)))
    · split
      · trivial
      · rename_i e1
        exact OnOk.ite (onBatch_ok (releaseAll_ok ((takeCkpt_ok hs).get e1))) (advance_ok (releaseAll_ok ((takeCkpt_ok hs).get
            e1)))

theorem dropFetched_ok {core part l} : (s.dropFetched core part l).memoryOk = true := same hs

theorem maintain_ok {core part l op level} : (s.maintain core part l op level).memoryOk = true := by
  unfold State.maintain
  split
  · exact ite_ok (writeBack_ok _ _ hs) hs
  · exact ite_ok (dropFetched_ok (dropL1_ok hs)) (releaseHome_ok _ _ hs)
  · exact dropFetched_ok (ite_ok (dropL1All_ok (releaseHome_ok _ _ hs)) (dropL1_ok (releaseHome_ok _ _ hs)))
  · exact updHome_ok hs (fun _ _ e4 => e4)

theorem passOver_ok {core l op level} : (s.passOver core l op level).memoryOk = true := by
  unfold State.passOver
  exact ite_ok (dropFetched_ok hs) hs

theorem maintainAll_ok {i op level lo a b} : OnWalk (s.maintainAll i op level lo a b) := by
  induction b generalizing s a with
  | zero => exact hs
  | succ k ih =>
    rw [State.maintainAll]
    split
    · exact hs
    · exact OnWalk.ite (ih (passOver_ok hs)) (OnWalk.ite hs (ih (maintain_ok hs)))

theorem maintainOn_ok {i x lo len done} : OnOk id (s.maintainOn i x lo len done) := by
  have h : OnWalk (s.maintainAll i (cmOp x) (cmLevel x) lo (lo / 128 + done) ((lo + len - 1) / 128 - lo / 128 + 1 - done)) :=
    maintainAll_ok hs
  unfold State.maintainOn
  dsimp only
  split
  · rename_i e
    rw [e] at h
    exact advance_ok h
  · rename_i e
    rw [e] at h
    exact OnOk.ite trivial (onBatch_ok h)
  · rename_i e
    rw [e] at h
    exact raise_ok h

theorem cmaint_ok {x} : OnNext (cmaint x s) := by
  unfold cmaint
  dsimp only
  refine uniSet_ok hs (fun _ => ?_)
  split
  · trivial
  · refine OnOk.ite (advance_ok hs) ?_
    refine OnOk.ite ?_ (maintainOn_ok hs)
    split
    · trivial
    · rename_i e1
      exact onBatch_ok (passBatch_ok ((takeCkpt_ok hs).get e1))

theorem execCmaintClean_ok {x} : OnNext (execCmaintClean x s) := cmaint_ok hs

theorem execCmaintInvalidate_ok {x} : OnNext (execCmaintInvalidate x s) := cmaint_ok hs

theorem execCmaintCleanInvalidate_ok {x} : OnNext (execCmaintCleanInvalidate x s) := cmaint_ok hs

theorem execCmaintDemote_ok {x} : OnNext (execCmaintDemote x s) := cmaint_ok hs

theorem setWays_ok {core g mask} : (s.setWays core g mask).memoryOk = true := same hs

theorem execSetways_ok {x} : OnNext (execSetways x s) := by
  unfold execSetways
  dsimp only
  refine uniSet_ok hs (fun _ => ?_)
  split
  · trivial
  · split
    · trivial
    · split
      · exact uniResult_ok hs
      · refine OnOk.ite (uniResult_ok hs) ?_
        split
        · trivial
        · rename_i e4
          exact OnOk.ite trivial (uniResult_ok (setWays_ok ((takeCkpt_ok hs).get e4)))

theorem setPool_ok {p} : (s.setPool p).memoryOk = true := same hs

theorem publishByte_ok {pa b} : (s.publishByte pa b).memoryOk = true := by
  refine ofMemHome hs (Mem.set_wf _ _ _ (mem_ok hs)) fun y hy => ?_
  obtain ⟨h, hh, rfl⟩ := List.mem_map.mp hy
  have hw := home_ok hs h hh
  split
  · exact Mem.set_wf _ _ _ hw
  · exact hw

theorem otherVersion_ok {part n key} : (s.otherVersion part n key).memoryOk = true := by
  unfold State.otherVersion
  dsimp only
  split
  · exact hs
  · exact ite_ok hs (setPool_ok (foldl_ok (fun _ ⟨_, _⟩ ht1 => publishByte_ok (noteOld_ok _ _ _ _ _ ht1)) hs))

theorem psnap_ok {x act} (hact : ∀ t : State, t.memoryOk = true → ∀ (j : Iss) (m : ℕ), OnSome (fun p => p.1) (act t j m)) :
    OnNext (psnap x s act) := by
  unfold psnap
  dsimp only
  refine uniSet_ok hs (fun _ => ?_)
  split
  · trivial
  · split
    · trivial
    · split
      · trivial
      · rename_i e2
        refine OnOk.ite (uniResult_ok ((takeCkpt_ok hs).get e2)) ?_
        split
        · trivial
        · rename_i e3
          exact uniResult_ok ((hact _ (otherVersion_ok ((takeCkpt_ok hs).get e2)) _ _).get e3)

theorem execPsnapOpen_ok {x} : OnNext (execPsnapOpen x s) := by
  unfold execPsnapOpen
  refine psnap_ok hs (fun _ ha _ _ => ?_)
  split
  · exact ha
  · exact OnSome.ite ha (onCrew_ok ha)

theorem execPsnapClose_ok {x} : OnNext (execPsnapClose x s) := by
  unfold execPsnapClose
  refine psnap_ok hs (fun _ ha _ _ => ?_)
  split
  · exact onCrew_ok ha
  · exact ha

theorem execPsnapBegin_ok {x} : OnNext (execPsnapBegin x s) := by
  unfold execPsnapBegin
  exact psnap_ok hs (fun _ ha _ _ => OnSome.ite ha (onCrew_ok (setPool_ok ha)))

theorem publishPool_ok {part bs} : (s.publishPool part bs).memoryOk = true := foldl_ok (fun _ ⟨_, _⟩ ht1 => publishByte_ok
    (noteOld_ok _ _ _ _ _ ht1)) hs

theorem publishVersion_ok {i w} : (s.publishVersion i w).memoryOk = true := by
  unfold State.publishVersion
  exact refillLines_ok (setPool_ok (publishPool_ok hs))

theorem execPsnapPublish_ok {x} : OnNext (execPsnapPublish x s) := by
  unfold execPsnapPublish
  dsimp only
  refine psnap_ok hs (fun _ ha _ _ => ?_)
  refine OnSome.ite trivial ?_
  split
  · exact ha
  · exact onCrew_ok (ite_ok (setPool_ok ha) (publishVersion_ok ha))

theorem phint_ok {x} : OnNext (phint x s) := uniSet_ok hs (fun _ => OnOk.map (fun _ _ => advance_ok hs))

theorem execPhintHot_ok {x} : OnNext (execPhintHot x s) := phint_ok hs

theorem execPhintCold_ok {x} : OnNext (execPhintCold x s) := phint_ok hs

/-! ### Irrevocable instructions -/

theorem sendOne_ok {i size tag f r} : OnSome id (s.sendOne i size tag f r) := by
  unfold State.sendOne
  dsimp only
  split
  · exact onBatch_ok (ite_ok (windowStore_ok hs) (ite_ok (logAccess_ok hs) hs))
  · exact OnSome.ite trivial (same (podSend_ok hs))
  · exact same (cacheLeaf_ok hs)

theorem sendAll_ok {i size tag a} : OnSome id (s.sendAll i size tag a) := by
  induction a generalizing s with
  | nil => exact hs
  | cons y l ih =>
    obtain ⟨f, r⟩ := y
    rw [State.sendAll]
    split
    · trivial
    · rename_i e
      exact ih ((sendOne_ok hs).get e)

theorem sendTodo_ok {i w} : OnOk id (sendTodo s i w) := by
  unfold sendTodo
  dsimp only
  refine OnOk.ite trivial ?_
  split
  · trivial
  · rename_i e
    exact (sendAll_ok (same (onBatch_ok hs))).get e

theorem beginAtomic_ok {i ps w empty} : OnOk id (beginAtomic s i ps w empty) := by
  unfold beginAtomic
  dsimp only
  split
  · trivial
  · rename_i e
    split
    · exact sendTodo_ok (onBatch_ok (onFibres_ok ((firstCkpt_ok hs).get e)))
    · exact OnOk.ite (onBatch_ok (releaseAll_ok (onFibres_ok ((firstCkpt_ok hs).get e)))) (sendTodo_ok (onBatch_ok
          (releaseAll_ok (onFibres_ok ((firstCkpt_ok hs).get e)))))

theorem continueAtomic_ok {i} : OnOk id (continueAtomic s i) := by
  unfold continueAtomic
  split
  · exact OnOk.ite trivial (sendTodo_ok hs)
  · trivial

theorem atomic_ok {x kind returns chk} : OnNext (atomic s x kind returns chk) := by
  unfold atomic
  dsimp only
  refine laneSet_ok hs (fun _ _ => ?_)
  refine OnOk.ite (continueAtomic_ok hs) ?_
  split
  · trivial
  · exact beginAtomic_ok hs

theorem execAtom_ok {x} : OnNext (execAtom x s) := atomic_ok hs

theorem execRed_ok {x} : OnNext (execRed x s) := atomic_ok hs

theorem execCas_ok {x} : OnNext (execCas x s) := atomic_ok hs

theorem execQenq_ok {x} : OnNext (execQenq x s) := by
  unfold execQenq
  refine laneSet_ok hs (fun _ _ => ?_)
  refine OnOk.ite (continueAtomic_ok hs) ?_
  split
  · trivial
  · exact beginAtomic_ok hs

theorem execQdeq_ok {x} : OnNext (execQdeq x s) := by
  unfold execQdeq
  refine laneSet_ok hs (fun _ _ => ?_)
  refine OnOk.ite (continueAtomic_ok hs) ?_
  split
  · trivial
  · exact beginAtomic_ok hs

theorem finishAtomic_ok {i w} : OnSome id (s.finishAtomic i w) := by
  unfold State.finishAtomic
  dsimp only
  split
  · trivial
  · rename_i e
    refine closeStep_ok ?_
    refine secondCkpt_ok ?_
    refine ite_ok ?_ ?_
    · refine onBatch_ok ?_
      refine OnSome.of (st := id) e ?_
      split
      · exact acquire_ok (onFibres_ok hs)
      · exact onFibres_ok hs
    · refine raise_ok ?_
      refine onBatch_ok ?_
      refine OnSome.of (st := id) e ?_
      split
      · exact acquire_ok (onFibres_ok hs)
      · exact onFibres_ok hs

theorem atomicReplyStep_ok {r} : OnSome id (s.atomicReplyStep r) := by
  unfold State.atomicReplyStep
  split
  · trivial
  · split
    · exact OnSome.ite trivial (OnSome.ite (finishAtomic_ok hs) (OnSome.ite trivial (updCrew_ok hs)))
    · trivial

theorem execQwait_ok {x} : OnNext (execQwait x s) := by
  unfold execQwait
  dsimp only
  refine uniSet_ok hs (fun _ => ?_)
  split
  · trivial
  · split
    · trivial
    · split
      · trivial
      · rename_i e2
        exact OnOk.ite trivial (OnOk.ite (advance_ok (onFlock_ok (logError_ok _ _ _ (cacheLeaf_ok ((takeCkpt_ok hs).get e2)))))
            (OnOk.ite (raise_ok (cacheLeaf_ok ((takeCkpt_ok hs).get e2))) (OnOk.ite (advance_ok (onFlock_ok (cacheLeaf_ok
            ((takeCkpt_ok hs).get e2)))) (onBatch_ok (qlist_ok (cacheLeaf_ok ((takeCkpt_ok hs).get e2)))))))

/-! ### Heap instructions and the Goat -/

theorem healBase_ok {i c x vs} : (s.healBase i c x vs).memoryOk = true := by
  unfold State.healBase
  dsimp only
  refine foldl_ok (fun _ ⟨_, _⟩ ht1 => ?_) hs
  split
  · exact ht1
  · exact onFibre_ok (cacheFwd_ok ht1)

theorem healField_ok {c core l r} : (s.healField c core l r).1.memoryOk = true := by
  unfold State.healField
  dsimp only
  refine fst_ite_ok hs ?_
  split
  · exact ite_ok (placeWrite_ok _ _ hs) hs
  · exact hs

theorem healAll_ok {c core locs a} : (s.healAll c core locs a).1.memoryOk = true := by
  induction a generalizing s with
  | nil => exact hs
  | cons y l ih =>
    rw [State.healAll]
    dsimp only
    refine ih ?_
    split
    · exact fst_ite_ok hs (healField_ok hs)
    · exact hs

theorem produceH_ok {i x vs} : (s.produceH i x vs).memoryOk = true := onCrew_ok hs

omit hs in
theorem withCtx_ok {i f} (hf : ∀ a : Context, OnOk id (f a)) : OnOk id (withCtx s i f) := by
  unfold withCtx
  split
  · exact hf _
  · trivial

theorem execHld_ok {x} : OnNext (execHld x s) := by
  unfold execHld
  dsimp only
  refine laneSet_ok hs (fun _ _ => ?_)
  refine withCtx_ok (fun _ => ?_)
  split
  · trivial
  · split
    · trivial
    · rename_i e1
      exact loadEnd_ok (ite_ok (produceH_ok (healAll_ok ((loadRun_ok (healBase_ok hs)).get e1))) (produce_ok ((loadRun_ok
          (healBase_ok hs)).get e1)))

theorem execHst_ok {x} : OnNext (execHst x s) := by
  unfold execHst
  dsimp only
  refine laneSet_ok hs (fun _ _ => ?_)
  refine withCtx_ok (fun _ => ?_)
  split
  · trivial
  · exact storeRun_ok (healBase_ok hs)

theorem pinOp_ok {x kind op dest empty} : OnNext (pinOp s x kind op dest empty) := by
  unfold pinOp
  refine laneSet_ok hs (fun _ _ => ?_)
  refine OnOk.ite (continueAtomic_ok hs) ?_
  refine withCtx_ok (fun _ => ?_)
  split
  · trivial
  · exact beginAtomic_ok hs

theorem execHrefPin_ok {x} : OnNext (execHrefPin x s) := pinOp_ok hs

theorem execHrefUnpin_ok {x} : OnNext (execHrefUnpin x s) := pinOp_ok hs

theorem execHrefCmp_ok {x} : OnNext (execHrefCmp x s) := by
  unfold execHrefCmp
  refine laneSet_ok hs (fun _ _ => ?_)
  refine withCtx_ok (fun _ => ?_)
  split
  · trivial
  · exact advance_ok (onFibres_ok hs)

theorem execHrefIsnull_ok {x} : OnNext (execHrefIsnull x s) := by
  unfold execHrefIsnull
  refine laneSet_ok hs (fun _ _ => ?_)
  split
  · trivial
  · exact advance_ok (onFibres_ok hs)

theorem execHrefMov_ok {x} : OnNext (execHrefMov x s) := by
  unfold execHrefMov
  refine laneSet_ok hs (fun _ _ => ?_)
  split
  · trivial
  · exact advance_ok (onFibres_ok hs)

theorem execHrefFrom_ok {x} : OnNext (execHrefFrom x s) := by
  unfold execHrefFrom
  refine laneSet_ok hs (fun _ _ => ?_)
  split
  · trivial
  · exact advance_ok (onFibres_ok hs)

theorem execHrefTo_ok {x} : OnNext (execHrefTo x s) := laneWrite_ok hs

theorem execHnew_ok {x} : OnNext (execHnew x s) := by
  unfold execHnew
  refine laneSet_ok hs (fun _ _ => ?_)
  refine OnOk.ite (continueAtomic_ok hs) ?_
  refine withCtx_ok (fun _ => ?_)
  split
  · trivial
  · exact beginAtomic_ok hs

theorem execHreloc_ok {x} : OnNext (execHreloc x s) := by
  unfold execHreloc
  dsimp only
  refine uniSet_ok hs (fun _ => ?_)
  refine withCtx_ok (fun _ => ?_)
  split
  · trivial
  · split
    · trivial
    · split
      · trivial
      · exact OnOk.ite trivial (engineIssue_ok hs (fun _ ha4 _ => same ha4))

theorem goatNext_ok {c e die list count k status lines} : (s.goatNext c e die list count k status lines).memoryOk = true :=
    updEngine_ok (iaWrite_ok _ _ _ _ hs)

theorem claim_ok {e die list count k} : OnSome id (s.claim e die list count k) := by
  unfold State.claim
  dsimp only
  refine OnSome.bind (fun _ _ => ?_)
  split
  · exact goatNext_ok hs
  · refine OnSome.ite (goatNext_ok hs) ?_
    refine OnSome.ite trivial ?_
    refine OnSome.ite (goatNext_ok hs) ?_
    split
    · exact OnSome.ite (updEngine_ok hs) (goatNext_ok hs)
    · split
      · exact goatNext_ok hs
      · exact updEngine_ok (iaWrite_ok _ _ _ _ (iaWrite_ok _ _ _ _ (iaWrite_ok _ _ _ _ (iaWrite_ok _ _ _ _ (setMoving_ok hs)))))

theorem passLine_ok {part line} : (s.passLine part line).memoryOk = true := foldl_ok (fun _ _ ht1 => passAll_ok ht1) hs

theorem forceAll_ok {part line a b} : OnSome id (s.forceAll part line a b) := by
  induction b generalizing s a with
  | nil => exact hs
  | cons y l ih =>
    rw [State.forceAll]
    refine OnSome.ite (ih hs) ?_
    refine OnSome.ite trivial ?_
    split
    · trivial
    · rename_i e
      exact ih ((applyEntry_ok (same hs)).get e)

theorem drainLine_ok {part line} : OnSome id (s.drainLine part line) := by
  unfold State.drainLine
  exact OnSome.foldl (fun _ _ e => OnSome.bind (fun _ e1 => forceAll_ok (e.get e1))) hs

theorem commitHolders_ok {part line} : OnSome id (s.commitHolders part line) := by
  unfold State.commitHolders
  exact OnSome.ite (foldl_ok (fun _ ⟨_, _⟩ ht1 => checkpoint_ok ht1) hs) trivial

theorem markDue_ok {ks} : OnSome id (s.markDue ks) := by
  unfold State.markDue
  exact OnSome.ite trivial (foldl_ok (fun _ ⟨_, _⟩ ht1 => updCrew_ok ht1) hs)

theorem takeLine_ok {n part line} : OnSome id (s.takeLine n part line) := by
  unfold State.takeLine
  split
  · trivial
  · rename_i e
    split
    · exact markDue_ok hs
    · rename_i e1
      exact updEngine_ok (dropL1All_ok ((commitHolders_ok ((drainLine_ok (passLine_ok hs)).get e)).get e1))

theorem goatGiveUp_ok {c e die list count k} : (s.goatGiveUp c e die list count k).memoryOk = true := by
  unfold State.goatGiveUp
  exact goatNext_ok hs

theorem hold_ok {e die list count k} : OnSome id (s.hold e die list count k) := by
  unfold State.hold
  refine OnSome.bind (fun _ _ => ?_)
  split
  · exact goatGiveUp_ok hs
  · refine OnSome.ite trivial ?_
    split
    · exact goatGiveUp_ok hs
    · exact OnSome.ite trivial (OnSome.map (fun _ e4 => ite_ok (updEngine_ok ((takeLine_ok hs).get e4)) ((takeLine_ok hs).get
          e4)))

theorem copyOrFinish_ok {e die list count k held} : OnSome id (s.copyOrFinish e die list count k held) := by
  unfold State.copyOrFinish
  dsimp only
  refine OnSome.bind (fun _ _ => ?_)
  split
  · exact OnSome.ite (goatGiveUp_ok hs) (getD_ok (goatCopy_ok hs) (goatGiveUp_ok hs))
  · split
    · exact goatGiveUp_ok hs
    · exact OnSome.ite trivial (goatNext_ok (setMoving_ok (iaWrite_ok _ _ _ _ hs)))

/-! ### Integer instructions -/

theorem execIadd_ok {x} : OnNext (execIadd x s) := lane2_ok hs

theorem execIsub_ok {x} : OnNext (execIsub x s) := lane2_ok hs

theorem execImul_ok {x} : OnNext (execImul x s) := lane2_ok hs

theorem execImulh_ok {x} : OnNext (execImulh x s) := lane2_ok hs

theorem execImad_ok {x} : OnNext (execImad x s) := lane3_ok hs

theorem execIadd64_ok {x} : OnNext (execIadd64 x s) := lanePair2_ok hs

theorem execImin_ok {x} : OnNext (execImin x s) := lane2_ok hs

theorem execImax_ok {x} : OnNext (execImax x s) := lane2_ok hs

theorem execIabs_ok {x} : OnNext (execIabs x s) := lane1_ok hs

theorem execIdiv_ok {x} : OnNext (execIdiv x s) := lane2_ok hs

theorem execIrem_ok {x} : OnNext (execIrem x s) := lane2_ok hs

theorem execAnd_ok {x} : OnNext (execAnd x s) := lane2_ok hs

theorem execOr_ok {x} : OnNext (execOr x s) := lane2_ok hs

theorem execXor_ok {x} : OnNext (execXor x s) := lane2_ok hs

theorem execAndn_ok {x} : OnNext (execAndn x s) := lane2_ok hs

theorem execBlut_ok {x} : OnNext (execBlut x s) := lane3_ok hs

theorem execShl_ok {x} : OnNext (execShl x s) := lane2_ok hs

theorem execShr_ok {x} : OnNext (execShr x s) := lane2_ok hs

theorem execSar_ok {x} : OnNext (execSar x s) := lane2_ok hs

theorem execRot_ok {x} : OnNext (execRot x s) := lane2_ok hs

theorem execBfx_ok {x} : OnNext (execBfx x s) := lane2_ok hs

theorem execBfi_ok {x} : OnNext (execBfi x s) := lane3_ok hs

theorem execPopc_ok {x} : OnNext (execPopc x s) := lane1_ok hs

theorem execClz_ok {x} : OnNext (execClz x s) := lane1_ok hs

theorem execBrev_ok {x} : OnNext (execBrev x s) := lane1_ok hs

theorem execLea_ok {x} : OnNext (execLea x s) := lane2_ok hs

theorem execBpick_ok {x} : OnNext (execBpick x s) := laneWrite_ok hs

theorem execIdp4_ok {x} : OnNext (execIdp4 x s) := lane3_ok hs

theorem execIcmp_ok {x} : OnNext (execIcmp x s) := by
  unfold execIcmp
  exact lanePred_ok hs

theorem execPlut_ok {x} : OnNext (execPlut x s) := laneSet_ok hs (fun _ _ => advance_ok (onFibres_ok hs))

theorem execFclass_ok {x} : OnNext (execFclass x s) := lanePred_ok hs

theorem execFcmp_ok {x} : OnNext (execFcmp x s) := lanePred_ok hs

theorem execHcmp_ok {x} : OnNext (execHcmp x s) := lanePred_ok hs

theorem execBcmp_ok {x} : OnNext (execBcmp x s) := lanePred_ok hs

theorem execMov_ok {x} : OnNext (execMov x s) := lane1_ok hs

theorem execMovi_ok {x} : OnNext (execMovi x s) := laneWrite_ok hs

theorem execMovhi_ok {x} : OnNext (execMovhi x s) := lane1_ok hs

theorem execSel_ok {x} : OnNext (execSel x s) := laneWrite_ok hs

theorem execPtov_ok {x} : OnNext (execPtov x s) := laneWrite_ok hs

theorem execVtop_ok {x} : OnNext (execVtop x s) := by
  unfold execVtop
  refine laneSet_ok hs (fun _ _ => ?_)
  split
  · trivial
  · exact advance_ok (onFibres_ok hs)

theorem execUrd_ok {x} : OnNext (execUrd x s) := by
  unfold execUrd
  refine laneSet_ok hs (fun _ _ => ?_)
  split
  · trivial
  · trivial
  · exact laneResult_ok hs

theorem execUadd_ok {x} : OnNext (execUadd x s) := uni2_ok hs

theorem execUsub_ok {x} : OnNext (execUsub x s) := uni2_ok hs

theorem execUmul_ok {x} : OnNext (execUmul x s) := uni2_ok hs

theorem execUmad_ok {x} : OnNext (execUmad x s) := uni3_ok hs

theorem execUmin_ok {x} : OnNext (execUmin x s) := uni2_ok hs

theorem execUmax_ok {x} : OnNext (execUmax x s) := uni2_ok hs

theorem execUand_ok {x} : OnNext (execUand x s) := uni2_ok hs

theorem execUor_ok {x} : OnNext (execUor x s) := uni2_ok hs

theorem execUxor_ok {x} : OnNext (execUxor x s) := uni2_ok hs

theorem execUshl_ok {x} : OnNext (execUshl x s) := uni2_ok hs

theorem execUshr_ok {x} : OnNext (execUshr x s) := uni2_ok hs

theorem execUsar_ok {x} : OnNext (execUsar x s) := uni2_ok hs

theorem execUmov_ok {x} : OnNext (execUmov x s) := uni1_ok hs

theorem execUmovi_ok {x} : OnNext (execUmovi x s) := uniWrite_ok hs

theorem execUmovhi_ok {x} : OnNext (execUmovhi x s) := uni1_ok hs

theorem execUsel_ok {x} : OnNext (execUsel x s) := uniWrite_ok hs

theorem execUlea_ok {x} : OnNext (execUlea x s) := uni2_ok hs

theorem execUcmp_ok {x} : OnNext (execUcmp x s) := by
  unfold execUcmp
  dsimp only
  refine uniSet_ok hs (fun _ => ?_)
  split
  · trivial
  · exact uniPredResult_ok hs

theorem execUplut_ok {x} : OnNext (execUplut x s) := by
  unfold execUplut
  exact uniSet_ok hs (fun _ => advance_ok (onFlock_ok hs))

theorem holdPipe_ok {i} : OnOk id (holdPipe s i) := OnOk.ite trivial (onBatch_ok (onFlock_ok hs))

theorem execUfrom_ok {x} : OnNext (execUfrom x s) := by
  unfold execUfrom
  refine uniSet_ok hs (fun _ => ?_)
  split
  · exact holdPipe_ok hs
  · trivial
  · split
    · trivial
    · exact onFlock_ok (uniResult_ok hs)

/-! ### Flow instructions -/

theorem branch_ok {i words targets} : (s.branch i words targets).memoryOk = true := by
  unfold State.branch
  exact onFlock_ok hs

theorem fork_ok {i words taken target} : (s.fork i words taken target).memoryOk = true := onFlock_ok hs

theorem execBra_ok {x} : OnNext (execBra x s) := laneSet_ok hs (fun _ _ => fork_ok hs)

theorem execUbra_ok {x} : OnNext (execUbra x s) := uniSet_ok hs (fun _ => onBatch_ok hs)

theorem execBrx_ok {x} : OnNext (execBrx x s) := by
  unfold execBrx
  refine laneSet_ok hs (fun _ _ => ?_)
  split
  · trivial
  · exact branch_ok hs

theorem execRet_ok {x} : OnNext (execRet x s) := by
  unfold execRet
  refine laneSet_ok hs (fun _ _ => ?_)
  split
  · trivial
  · exact branch_ok hs

theorem linkPair_ok {i x lanes} : (s.linkPair i x lanes).memoryOk = true := onFibres_ok hs

theorem execCall_ok {x} : OnNext (execCall x s) := by
  unfold execCall
  refine laneSet_ok hs (fun _ _ => ?_)
  split
  · trivial
  · exact fork_ok (linkPair_ok hs)

theorem execCalli_ok {x} : OnNext (execCalli x s) := by
  unfold execCalli
  refine laneSet_ok hs (fun _ _ => ?_)
  split
  · trivial
  · exact branch_ok (linkPair_ok hs)

theorem execNop_ok {x} : OnNext (execNop x s) := uniSet_ok hs (fun _ => advance_ok hs)

theorem settle_ok {i} : (s.settle i).memoryOk = true := onCrew_ok hs

theorem execRcv_ok {x} : OnNext (execRcv x s) := by
  unfold execRcv
  exact laneSet_ok hs (fun _ _ => settle_ok (onBatch_ok hs))

theorem spawnAll_ok {core slot e a b} : (s.spawnAll core slot e a b).1.memoryOk = true := by
  induction a generalizing s b with
  | nil => exact hs
  | cons y l ih =>
    rw [State.spawnAll]
    split
    · exact ih (updCrew_ok hs)
    · exact hs

theorem execFspawn_ok {x} : OnNext (execFspawn x s) := by
  unfold execFspawn
  dsimp only
  refine laneSet_ok hs (fun _ _ => ?_)
  split
  · trivial
  · split
    · trivial
    · exact OnOk.ite (advance_ok (spawnAll_ok (onCrew_ok hs))) (OnOk.ite trivial (onBatch_ok (spawnAll_ok (onCrew_ok hs))))

theorem dropParticipants_ok {core slot} : (s.dropParticipants core slot).memoryOk = true := by
  unfold State.dropParticipants
  split
  · exact hs
  · exact same hs

theorem execFend_ok {x} : OnNext (execFend x s) := laneSet_ok hs (fun _ _ => OnOk.ite trivial (settleTeam_ok
    (dropParticipants_ok (onCrew_ok (advance_ok hs)))))

/-! ### Placing fibres -/

theorem setUnit_ok {u} : (s.setUnit u).memoryOk = true := same hs

theorem takeUnit_ok {core slot quad} : (s.takeUnit core slot quad).memoryOk = true := by
  unfold State.takeUnit
  exact ite_ok hs (setUnit_ok hs)

theorem formFlock_ok {core slot quad lanes role budget entry k args} : OnSome id (s.formFlock core slot quad lanes role budget
    entry k args) := by
  unfold State.formFlock
  dsimp only
  split
  · trivial
  · exact OnSome.ite trivial (ite_ok (takeUnit_ok (same (updCrew_ok hs))) (same (updCrew_ok hs)))

theorem formFlocks_ok {core slot part e k a} : OnSome id (s.formFlocks core slot part e k a) := by
  induction a generalizing s with
  | nil => exact hs
  | cons y l ih =>
    rw [State.formFlocks]
    split
    · trivial
    · refine OnSome.ite trivial ?_
      split
      · trivial
      · rename_i e2
        exact ih ((formFlock_ok hs).get e2)

theorem placeCrew_ok {core part l e idx} : OnSome id (s.placeCrew core part l e idx) := by
  unfold State.placeCrew
  dsimp only
  split
  · exact OnSome.map (fun _ e3 => updCrew_ok (dropCore_ok ((formFlocks_ok (same hs)).get e3)))
  · trivial

/-! ### Synchronisation -/

theorem changeNb_ok {core slot n g} : (s.changeNb core slot n g).memoryOk = true := by
  unfold State.changeNb
  dsimp only
  split
  · exact hs
  · exact ite_ok (dropCore_ok (updCrew_ok hs)) (updCrew_ok hs)

theorem settleFibres_ok {i} : (s.settleFibres i).memoryOk = true := onCrew_ok (passBatch_ok hs)

theorem execNbinit_ok {x} : OnNext (execNbinit x s) := by
  unfold execNbinit
  dsimp only
  refine uniSet_ok hs (fun _ => ?_)
  split
  · trivial
  · exact advance_ok (changeNb_ok hs)

theorem execNbarr_ok {x} : OnNext (execNbarr x s) := by
  unfold execNbarr
  exact uniSet_ok hs (fun _ => OnOk.ite trivial (OnOk.ite (advance_ok (onFlock_ok hs)) (advance_ok (changeNb_ok
      (settleFibres_ok (onFlock_ok hs))))))

theorem execNbwait_ok {x} : OnNext (execNbwait x s) := by
  unfold execNbwait
  exact uniSet_ok hs (fun _ => OnOk.ite (ite_ok (dropCore_ok (advance_ok hs)) (advance_ok hs)) (onBatch_ok (advance_ok hs)))

theorem execSleep_ok {x} : OnNext (execSleep x s) := by
  unfold execSleep
  exact uniSet_ok hs (fun _ => OnOk.ite (onFlock_ok (advance_ok hs)) (OnOk.ite (onFlock_ok (advance_ok hs)) (onBatch_ok
      (advance_ok hs))))

theorem execWake_ok {x} : OnNext (execWake x s) := by
  unfold execWake
  exact uniSet_ok hs (fun _ => OnOk.ite trivial (advance_ok (onFlock_ok (onCrew_ok hs))))

theorem execBar_ok {x} : OnNext (execBar x s) := by
  unfold execBar
  exact uniSet_ok hs (fun _ => OnOk.ite trivial (settle_ok (onBatch_ok (advance_ok (onCrew_ok (settleFibres_ok hs))))))

theorem ckptAfter_ok {i f} (hf : ∀ (a : State), a.memoryOk = true → (f a).memoryOk = true) : OnOk id (ckptAfter s i f) :=
    OnOk.ite (checkpoint_ok (hf _ hs)) trivial

theorem execTbar_ok {x} : OnNext (execTbar x s) := by
  unfold execTbar
  refine OnNext.ite (runBatch_ok hs (fun _ => ckptAfter_ok (dropCore_ok hs) (fun _ ha1 => onBatch_ok (advance_ok ha1)))) ?_
  refine uniSet_ok hs (fun _ => ?_)
  refine OnOk.ite (OnOk.ite trivial (onBatch_ok (releaseAll_ok hs))) ?_
  refine OnOk.ite trivial ?_
  split
  · trivial
  · rename_i e
    exact settleTeam_ok ((ckptAfter_ok hs (fun _ ha1 => onBatch_ok ha1)).get e)

theorem ringWait_ok {x full} : OnNext (ringWait x s full) := by
  unfold ringWait
  dsimp only
  refine uniSet_ok hs (fun _ => ?_)
  split
  · trivial
  · exact OnOk.ite (advance_ok hs) (onBatch_ok (advance_ok hs))

theorem ringSignal_ok {x full} : OnNext (ringSignal x s full) := by
  unfold ringSignal
  refine uniSet_ok hs (fun _ => ?_)
  split
  · trivial
  · exact OnOk.ite trivial (advance_ok (onCrew_ok (settleFibres_ok hs)))

theorem execRngwaitF_ok {x} : OnNext (execRngwaitF x s) := ringWait_ok hs

theorem execRngwaitE_ok {x} : OnNext (execRngwaitE x s) := ringWait_ok hs

theorem execRngsigF_ok {x} : OnNext (execRngsigF x s) := ringSignal_ok hs

theorem execRngsigE_ok {x} : OnNext (execRngsigE x s) := ringSignal_ok hs

theorem execYield_ok {x} : OnNext (execYield x s) := uniSet_ok hs (fun _ => onBatch_ok (advance_ok hs))

/-! ### Launches -/

theorem queueLaunch_ok {part l} : (s.queueLaunch part l).memoryOk = true := updCtx_ok hs

theorem invalidateRange_ok {part base len} : OnSome id (s.invalidateRange part base len) := by
  unfold State.invalidateRange
  dsimp only
  split
  · exact hs
  · exact OnSome.ite trivial (foldl_ok (fun _ _ ht1 => releaseHome_ok _ _ ht1) hs)

theorem setBitmap_ok {part launch idx} : (s.setBitmap part launch idx).memoryOk = true := by
  unfold State.setBitmap
  dsimp only
  split
  · exact hs
  · split
    · exact hs
    · refine updCtx_ok ?_
      split
      · exact iaWrite_ok _ _ _ _ hs
      · exact hs

theorem publishDone_ok {core slot} : (s.publishDone core slot).memoryOk = true := by
  unfold State.publishDone
  split
  · exact hs
  · exact ite_ok hs (updCrew_ok (setBitmap_ok hs))

theorem twoCkpts_ok {i finish} (hfinish : ∀ t : State, t.memoryOk = true → ∀ j : Iss, OnSome id (finish t j)) : OnOk id
    (twoCkpts s i finish) := by
  unfold twoCkpts
  refine OnOk.ite ?_ ?_
  · split
    · trivial
    · rename_i e
      exact onBatch_ok (releaseAll_ok ((firstCkpt_ok hs).get e))
  · refine OnOk.ite trivial ?_
    refine OnOk.ite trivial ?_
    split
    · trivial
    · rename_i e
      exact secondCkpt_ok ((hfinish _ hs _).get e)

theorem launch_ok {i va} : OnSome (fun p => p.1) (s.launch i va) := by
  unfold State.launch
  dsimp only
  split
  · exact hs
  · refine OnSome.ite trivial ?_
    split
    · exact hs
    · exact OnSome.map (fun _ e2 => queueLaunch_ok ((invalidateRange_ok hs).get e2))

theorem execLaunch_ok {x} : OnNext (execLaunch x s) := by
  unfold execLaunch
  dsimp only
  refine uniSet_ok hs (fun _ => ?_)
  split
  · trivial
  · refine OnOk.ite (twoCkpts_ok hs (fun _ ha2 _ => OnSome.map (fun ⟨_, _⟩ e1 => uniResult_ok ((launch_ok ha2).get e1)))) ?_
    split
    · trivial
    · exact twoCkpts_ok hs (fun _ ha2 _ => OnSome.map (fun ⟨_, _⟩ e2 => uniResult_ok ((launch_ok ha2).get e2)))

theorem execDone_ok {x} : OnNext (execDone x s) := uniSet_ok hs (fun _ => OnOk.ite trivial (twoCkpts_ok hs (fun _ ha1 _ =>
    advance_ok (publishDone_ok ha1))))

theorem execBincfg_ok {x} : OnNext (execBincfg x s) := by
  unfold execBincfg
  dsimp only
  refine uniSet_ok hs (fun _ => ?_)
  split
  · trivial
  · split
    · trivial
    · exact advance_ok (onCrew_ok hs)

/-! ### Copies -/

theorem engFault_ok {e f} : (s.engFault e f).memoryOk = true := by
  unfold State.engFault
  dsimp only
  split
  · exact same hs
  · exact raise_ok (same hs)

theorem startCopy_ok {e ds} : (s.startCopy e ds).memoryOk = true := by
  unfold State.startCopy
  exact updEngine_ok hs

theorem copyStep_ok {e ds todo} : OnSome id (s.copyStep e ds todo) := by
  unfold State.copyStep
  dsimp only
  split
  · trivial
  · split
    · trivial
    · refine OnSome.ite trivial ?_
      refine OnSome.ite ?_ ?_
      · split
        · exact engFault_ok hs
        · rename_i e4
          exact updEngine_ok ((copyLine_ok hs).get e4)
      · split
        · exact engFault_ok hs
        · exact updEngine_ok hs
        · split
          · exact markDue_ok hs
          · rename_i e6
            exact updEngine_ok (updCrew_ok (readsCounted_ok ((reserveScratch_ok hs).get e6)))

theorem addCopy_ok {i d id} : (s.addCopy i d id).memoryOk = true := by
  unfold State.addCopy
  dsimp only
  split
  · exact updEngine_ok hs
  · exact same hs

theorem execCpy_ok {x} : OnNext (execCpy x s) := by
  unfold execCpy
  dsimp only
  refine uniSet_ok hs (fun _ => ?_)
  split
  · trivial
  · split
    · trivial
    · split
      · trivial
      · exact OnOk.ite trivial (engineIssue_ok (onCrew_ok hs) (fun _ ha4 _ => addCopy_ok ha4))

theorem execCpydrain_ok {x} : OnNext (execCpydrain x s) := by
  unfold execCpydrain
  exact uniSet_ok hs (fun _ => OnOk.ite (OnOk.ite (onBatch_ok hs) trivial) (advance_ok (ite_ok (dropCore_ok hs) hs)))

theorem engineDone_ok {e} : (s.engineDone e).memoryOk = true := by
  unfold State.engineDone
  dsimp only
  split
  · exact changeNb_ok (same hs)
  · exact same hs

/-! ### Tiles and pinned states -/

theorem onUnit_ok {gq f} : (s.onUnit gq f).memoryOk = true := setUnit_ok hs

theorem setPin_ok {part n p} : (s.setPin part n p).memoryOk = true := updCtx_ok hs

theorem logSpill_ok {c ia} : (s.logSpill c ia).memoryOk = true := by
  unfold State.logSpill
  split
  · exact logError_ok _ _ _ hs
  · exact logAccess_ok hs

theorem spillLine_ok {c p n bs bad} : (s.spillLine c p n bs bad).memoryOk = true := by
  unfold State.spillLine
  dsimp only
  split
  · exact logSpill_ok hs
  · exact countHit_ok (ite_ok (poison_ok _ (ite_ok (poison_ok _ (placeWrite_ok _ _ hs)) (cleanSector_ok (placeWrite_ok _ _
        hs)))) (cleanSector_ok (ite_ok (poison_ok _ (placeWrite_ok _ _ hs)) (cleanSector_ok (placeWrite_ok _ _ hs)))))

theorem spill_ok {part idx} : (s.spill part idx).memoryOk = true := by
  unfold State.spill
  dsimp only
  split
  · exact hs
  · exact foldl_ok (fun _ _ ht1 => spillLine_ok ht1) hs

theorem evictPin_ok {part idx} : (s.evictPin part idx).memoryOk = true := by
  unfold State.evictPin
  dsimp only
  split
  · exact hs
  · exact setPin_ok (onUnit_ok (spill_ok hs))

theorem spillReady_ok {i ls own} : OnOk id (spillReady s i ls own) := by
  unfold spillReady
  dsimp only
  refine OnOk.ite trivial ?_
  split
  · rename_i e
    exact (ckptOthers_ok hs).get e
  · trivial

theorem clearArea_ok {ls but} : OnEither (s.clearArea ls but) := by
  unfold State.clearArea
  dsimp only
  refine OnEither.ite trivial ?_
  split
  · rename_i e
    exact (ckptOthers_ok hs).get e
  · exact markDue_ok hs

theorem installPin_ok {core slot part idx gq base tokens f bad} : (s.installPin core slot part idx gq base tokens f
    bad).memoryOk = true := by
  unfold State.installPin
  dsimp only
  split
  · exact hs
  · exact setPin_ok (onUnit_ok hs)

theorem dropSuspended_ok {k} : (s.dropSuspended k).memoryOk = true := by
  unfold State.dropSuspended
  dsimp only
  split
  · exact hs
  · exact foldl_ok (fun _ ⟨_, _⟩ ht1 => setPin_ok ht1) hs

theorem detachAll_ok {k} : (s.detachAll k).memoryOk = true := by
  unfold State.detachAll
  dsimp only
  split
  · exact hs
  · exact dropSuspended_ok (foldl_ok (fun _ ⟨_, _⟩ ht1 => setPin_ok (onUnit_ok ht1)) hs)

theorem suspendPins_ok {k} : (s.suspendPins k).memoryOk = true := by
  unfold State.suspendPins
  dsimp only
  split
  · exact hs
  · exact foldl_ok (fun _ ⟨_, _⟩ ht1 => setPin_ok (onUnit_ok (spill_ok ht1))) hs

theorem resumePin_ok {part core slot p} : OnSome id (s.resumePin part core slot p) := by
  unfold State.resumePin
  exact OnSome.map (fun ⟨_, _⟩ _ => installPin_ok (foldl_ok (fun _ ⟨_, _⟩ ht1 => evictPin_ok ht1) hs))

theorem resumePins_ok {k} : (s.resumePins k).1.memoryOk = true := by
  unfold State.resumePins
  split
  · exact hs
  · refine foldl_fst_ok (fun r p hr => ?_) hs
    split
    · rename_i e
      exact (resumePin_ok hr).get e
    · exact hr

theorem settleTiles_ok {i zs} : OnOk id (settleTiles s i zs) := by
  unfold settleTiles
  dsimp only
  split
  · trivial
  · rename_i e
    exact onUnit_ok (foldl_ok (fun _ ⟨_, _⟩ ht1 => evictPin_ok ht1) (OnOk.of (st := id) e (OnOk.ite hs (spillReady_ok hs))))

theorem useToken_ok {herd} : OnSome id (s.useToken herd) := OnSome.ite (same hs) (OnSome.ite (same hs) trivial)

theorem heldForToken_ok {i} : (s.heldForToken i).memoryOk = true := onCrew_ok (same hs)

theorem beforeIssue_ok : s.beforeIssue.memoryOk = true := same hs

theorem matIssue_ok {i zs ready act} (hact : ∀ (a : State), a.memoryOk = true → (act a).memoryOk = true) : OnOk id (matIssue s
    i zs ready act) := by
  unfold matIssue
  dsimp only
  split
  · trivial
  · rename_i e
    refine OnOk.ite (OnOk.ite trivial (beforeIssue_ok ((settleTiles_ok hs).get e))) ?_
    split
    · rename_i e1
      exact hact _ ((useToken_ok ((settleTiles_ok hs).get e)).get e1)
    · exact ite_ok (heldForToken_ok ((settleTiles_ok hs).get e)) (beforeIssue_ok ((settleTiles_ok hs).get e))

theorem toUnit_ok {i words op} : (s.toUnit i words op).memoryOk = true := advance_ok (onUnit_ok hs)

/-! ### Fetching -/

theorem fetchWord_ok {i va} : OnOk (fun p => p.1) (s.fetchWord i va) := by
  unfold State.fetchWord
  split
  · trivial
  · exact OnOk.ite trivial (cacheLeaf_ok hs)

theorem fetchWords_ok {i a b} : OnOk (fun p => p.1) (s.fetchWords i a b) := by
  induction a generalizing s b with
  | zero => exact hs
  | succ k ih =>
    rw [State.fetchWords]
    split
    · trivial
    · rename_i e
      refine OnOk.ite ?_ (((fetchWord_ok hs).get e :))
      split
      · trivial
      · rename_i e1
        exact ((ih ((fetchWord_ok hs).get e)).get e1 :)

theorem fetch_ok {i} : OnOk (fun p => p.1) (s.fetch i) := by
  unfold State.fetch
  split
  · trivial
  · rename_i e
    split
    · trivial
    · exact OnOk.ite (((fetchWords_ok hs).get e :)) trivial

theorem reserveUndo_ok {i n} : OnOk id (s.reserveUndo i n) := OnOk.ite hs (awaitCkpt_ok (ckptUntil_ok hs))

theorem chargeUndo_ok {i n} : (s.chargeUndo i n).memoryOk = true := ite_ok hs (onCrew_ok hs)

/-! ### The matrix class at issue -/

theorem matMul_ok {x int} : OnNext (matMul x s int) := by
  unfold matMul
  dsimp only
  refine uniSet_ok hs (fun _ => ?_)
  split
  · trivial
  · split
    · trivial
    · split
      · trivial
      · exact matIssue_ok hs (fun _ ha3 => toUnit_ok ha3)

theorem execMma_ok {x} : OnNext (execMma x s) := matMul_ok hs

theorem execMmai_ok {x} : OnNext (execMmai x s) := matMul_ok hs

theorem execBld_ok {x} : OnNext (execBld x s) := by
  unfold execBld
  dsimp only
  refine uniSet_ok hs (fun _ => ?_)
  split
  · trivial
  · split
    · trivial
    · exact OnOk.ite trivial (engineIssue_ok hs (fun _ ha3 _ => same ha3))

theorem execSld_ok {x} : OnNext (execSld x s) := by
  unfold execSld
  dsimp only
  refine uniSet_ok hs (fun _ => ?_)
  split
  · trivial
  · split
    · trivial
    · exact toUnit_ok hs

theorem execZzero_ok {x} : OnNext (execZzero x s) := by
  unfold execZzero
  refine uniSet_ok hs (fun _ => ?_)
  split
  · trivial
  · rename_i e
    exact toUnit_ok ((settleTiles_ok hs).get e)

theorem execZld_ok {x} : OnNext (execZld x s) := by
  unfold execZld
  refine uniSet_ok hs (fun _ => ?_)
  split
  · trivial
  · split
    · trivial
    · rename_i e1
      exact toUnit_ok ((settleTiles_ok hs).get e1)

theorem execZst_ok {x} : OnNext (execZst x s) := by
  unfold execZst
  refine uniSet_ok hs (fun _ => ?_)
  split
  · trivial
  · split
    · trivial
    · rename_i e1
      split
      · trivial
      · rename_i e2
        exact toUnit_ok ((settleTiles_ok ((needScratch_ok hs).get e1)).get e2)

theorem execZrd_ok {x} : OnNext (execZrd x s) := by
  unfold execZrd
  dsimp only
  refine uniSet_ok hs (fun _ => ?_)
  split
  · trivial
  · split
    · trivial
    · split
      · trivial
      · rename_i e2
        exact toUnit_ok (onFibres_ok ((settleTiles_ok hs).get e2))

theorem execZwr_ok {x} : OnNext (execZwr x s) := by
  unfold execZwr
  refine uniSet_ok hs (fun _ => ?_)
  split
  · trivial
  · split
    · trivial
    · split
      · trivial
      · rename_i e2
        exact toUnit_ok ((settleTiles_ok hs).get e2)

/-! ### Matrix units -/

theorem unitStep_ok {gq} : OnSome id (s.unitStep gq) := by
  unfold State.unitStep
  dsimp only
  split
  · trivial
  · split
    · exact setUnit_ok hs
    · exact OnSome.ite trivial (OnSome.ite (raise_ok (setUnit_ok hs)) (updCrew_ok (setUnit_ok (setUnit_ok hs))))

theorem bldStep_ok {e gq slot size rows src pitch scratch next} : OnSome id (s.bldStep e gq slot size rows src pitch scratch
    next) := by
  unfold State.bldStep
  dsimp only
  refine OnSome.ite trivial ?_
  split
  · exact engFault_ok hs
  · exact updEngine_ok (onUnit_ok (ite_ok hs (countReads_ok hs)))

/-! ### The fast-weight class -/

theorem pinTable_ok {i words lines run} (hrun : ∀ t : State, t.memoryOk = true → ∀ j : Iss, OnOk id (run t j)) : OnOk
    id (pinTable s i words lines run) := by
  unfold pinTable
  split
  · trivial
  · rename_i e
    split
    · trivial
    · rename_i e1
      split
      · rename_i e2
        exact secondCkpt_ok (advance_ok ((hrun _ ((firstCkpt_ok (OnOk.of (st := id) e (OnOk.ite hs (spillReady_ok hs)))).get
            e1) _).get e2))
      · exact secondCkpt_ok (raise_ok (advance_ok ((firstCkpt_ok (OnOk.of (st := id) e (OnOk.ite hs (spillReady_ok hs)))).get
            e1)))

theorem zpinRun_ok {i x} : OnOk id (zpinRun s i x) := by
  unfold zpinRun
  dsimp only
  split
  · trivial
  · exact onFlock_ok hs
  · exact onFlock_ok (setPin_ok (onUnit_ok (foldl_ok (fun _ ⟨_, _⟩ ht1 => evictPin_ok ht1) hs)))

theorem execZpin_ok {x} : OnNext (execZpin x s) := by
  unfold execZpin
  dsimp only
  refine uniSet_ok hs (fun _ => ?_)
  split
  · trivial
  · exact pinTable_ok hs (fun _ ha2 _ => zpinRun_ok ha2)

theorem zattRun_ok {i x} : OnOk id (zattRun s i x) := by
  unfold zattRun
  dsimp only
  split
  · trivial
  · split
    · exact hs
    · exact setPin_ok (onUnit_ok hs)
    · exact installPin_ok (onUnit_ok (foldl_ok (fun _ ⟨_, _⟩ ht1 => evictPin_ok ht1) hs))
    · exact installPin_ok (foldl_ok (fun _ ⟨_, _⟩ ht1 => evictPin_ok ht1) hs)

theorem execZatt_ok {x} : OnNext (execZatt x s) := by
  unfold execZatt
  dsimp only
  refine uniSet_ok hs (fun _ => ?_)
  split
  · trivial
  · exact pinTable_ok hs (fun _ ha2 _ => zattRun_ok ha2)

theorem zdetRun_ok {i z} : OnOk id (zdetRun s i z) := by
  unfold zdetRun
  exact OnOk.ite trivial (setPin_ok (onUnit_ok hs))

theorem execZdet_ok {x} : OnNext (execZdet x s) := uniSet_ok hs (fun _ => pinTable_ok hs (fun _ ha1 _ => zdetRun_ok ha1))

theorem zrelRun_ok {i x} : OnOk id (zrelRun s i x) := by
  unfold zrelRun
  dsimp only
  split
  · trivial
  · exact setPin_ok (ite_ok (onUnit_ok hs) (ite_ok (onUnit_ok hs) hs))

theorem execZrel_ok {x} : OnNext (execZrel x s) := by
  unfold execZrel
  refine uniSet_ok hs (fun _ => ?_)
  split
  · trivial
  · exact pinTable_ok hs (fun _ ha2 _ => zrelRun_ok ha2)

theorem zspillRun_ok {i x} : OnOk id (zspillRun s i x) := by
  unfold zspillRun
  split
  · trivial
  · exact ite_ok (spill_ok hs) (ite_ok (evictPin_ok hs) hs)

theorem execZspill_ok {x} : OnNext (execZspill x s) := by
  unfold execZspill
  dsimp only
  refine uniSet_ok hs (fun _ => ?_)
  split
  · trivial
  · exact pinTable_ok hs (fun _ ha2 _ => zspillRun_ok ha2)

theorem zinfo_ok {x regs val} : OnNext (zinfo x s regs val) := by
  unfold zinfo
  dsimp only
  refine uniSet_ok hs (fun _ => ?_)
  split
  · trivial
  · exact OnOk.ite trivial (advance_ok (onFlock_ok hs))

theorem execZinfoT_ok {x} : OnNext (execZinfoT x s) := zinfo_ok hs

theorem execZinfoH_ok {x} : OnNext (execZinfoH x s) := by
  unfold execZinfoH
  exact zinfo_ok hs

theorem execGdr_ok {x} : OnNext (execGdr x s) := by
  unfold execGdr
  dsimp only
  refine uniSet_ok hs (fun _ => ?_)
  split
  · trivial
  · split
    · trivial
    · split
      · trivial
      · exact matIssue_ok hs (fun _ ha3 => toUnit_ok ha3)

theorem execGqr_ok {x} : OnNext (execGqr x s) := by
  unfold execGqr
  dsimp only
  refine uniSet_ok hs (fun _ => ?_)
  split
  · trivial
  · split
    · trivial
    · exact matIssue_ok hs (fun _ ha2 => advance_ok (onFibres_ok ha2))

theorem chunk_ok {x gdr z ka} : OnNext (chunk x s gdr z ka) := by
  unfold chunk
  dsimp only
  refine uniSet_ok hs (fun _ => ?_)
  split
  · trivial
  · split
    · trivial
    · split
      · trivial
      · split
        · trivial
        · rename_i e3
          exact matIssue_ok ((needScratch_ok hs).get e3) (fun _ ha4 => toUnit_ok ha4)

theorem execGdrCq_ok {x} : OnNext (execGdrCq x s) := chunk_ok hs

theorem execGqrCq_ok {x} : OnNext (execGqrCq x s) := chunk_ok hs

/-! ### Collectives -/

theorem collLog_ok {e c va} : (s.collLog e c va).memoryOk = true := same hs

theorem failOne_ok {c va e} : (s.failOne c va e).memoryOk = true := by
  unfold State.failOne
  split
  · exact updCtx_ok (updEngine_ok (collLog_ok hs))
  · exact hs

theorem collMark_ok {e b c va} : (s.collMark e b c va).memoryOk = true := foldl_ok (fun _ _ ht1 => failOne_ok ht1) hs

theorem failLate_ok {e b g} : (s.failLate e b g).memoryOk = true := by
  unfold State.failLate
  split
  · exact failOne_ok hs
  · exact hs

theorem acceptColl_ok {i words b g} : OnOk id (acceptColl s i words b g) := by
  unfold acceptColl
  dsimp only
  refine OnOk.ite trivial ?_
  split
  · trivial
  · rename_i e
    split
    · trivial
    · rename_i e1
      exact secondCkpt_ok (failLate_ok (advance_ok (updCtx_ok (same ((firstCkpt_ok ((ckptOthers_ok hs).get e)).get e1)))))

theorem execColl_ok {x} : OnNext (execColl x s) := by
  unfold execColl
  dsimp only
  refine uniSet_ok hs (fun _ => ?_)
  split
  · trivial
  · split
    · trivial
    · refine withCtx_ok (fun _ => ?_)
      split
      · trivial
      · refine OnOk.ite (onBatch_ok (releaseAll_ok hs)) ?_
        refine OnOk.ite trivial ?_
        split
        · trivial
        · exact acceptColl_ok hs

theorem updParked_ok {p f} : (s.updParked p f).memoryOk = true := same hs

theorem trapParked_ok {e k t} : (s.trapParked e k t).memoryOk = true := by
  unfold State.trapParked
  exact ite_ok (updParked_ok hs) (updParked_ok (publish_ok (same hs)))

theorem engTrap_ok {e c addr} : (s.engTrap e c addr).memoryOk = true := by
  unfold State.engTrap
  dsimp only
  split
  · exact hs
  · exact ite_ok (raise_ok hs) (trapParked_ok hs)

theorem collFault_ok {e b f} : (s.collFault e b f).memoryOk = true := engTrap_ok (collMark_ok hs)

theorem triggerStep_ok {e} : OnSome id (s.triggerStep e) := by
  unfold State.triggerStep
  split
  · refine OnSome.ite trivial ?_
    split
    · exact collFault_ok hs
    · exact updEngine_ok (countReads_ok hs)
  · trivial

theorem countGives_ok {e b own rank} : (s.countGives e b own rank).memoryOk = true := by
  unfold State.countGives
  refine foldl_ok (fun _ _ ht1 => ?_) hs
  split
  · exact ite_ok (countReads_ok ht1) ht1
  · exact ht1

theorem contribute_ok {e b g own next sp ins rank w0 root count chunk elems} : OnSome id (s.contribute e b g own next sp ins
    rank w0 root count chunk elems) := by
  unfold State.contribute
  exact OnSome.ite trivial (OnSome.ite (collMark_ok hs) (OnSome.ite trivial (updEngine_ok (countGives_ok hs))))

theorem finishOwn_ok {e b g own ins} : (s.finishOwn e b g own ins).memoryOk = true := by
  unfold State.finishOwn
  exact foldl_ok (fun _ _ ht1 => updEngine_ok ht1) hs

theorem collWrite_ok {e va eb vs} : OnOk id (s.collWrite e va eb vs) := by
  unfold State.collWrite
  dsimp only
  split
  · trivial
  · exact countHit_ok (ite_ok (poison_ok _ (placeWrite_ok _ _ hs)) (ite_ok (cleanSector_ok (placeWrite_ok _ _ hs))
        (placeWrite_ok _ _ hs)))

theorem writeChunk_ok {e b g own ins lo hi a} : OnOk id (s.writeChunk e b g own ins lo hi a) := by
  induction a generalizing s with
  | nil => exact hs
  | cons y l ih =>
    rw [State.writeChunk]
    split
    · trivial
    · split
      · trivial
      · rename_i e2
        exact ih ((collWrite_ok (countReads_ok hs)).get e2)

theorem collStep_ok {e b g own next sp ins} : OnSome id (s.collStep e b g own next sp ins) := by
  unfold State.collStep
  dsimp only
  refine OnSome.ite trivial ?_
  refine OnSome.ite (finishOwn_ok hs) ?_
  refine OnSome.ite trivial ?_
  split
  · exact collFault_ok hs
  · rename_i e1
    exact updEngine_ok ((writeChunk_ok hs).get e1)

theorem collAdvance_ok {e input} : OnSome id (s.collAdvance e input) := by
  unfold State.collAdvance
  split
  · refine OnSome.ite trivial ?_
    split
    · exact collStep_ok hs
    · exact contribute_ok hs
  · trivial

theorem flagWrite_ok {e b failed} : (s.flagWrite e b failed).1.memoryOk = true := by
  unfold State.flagWrite
  dsimp only
  refine fst_ite_ok hs ?_
  split
  · exact collLog_ok hs
  · split
    · exact windowStore_ok hs
    · exact countHit_ok (placeWrite_ok _ _ hs)

theorem collArrive_ok {e n} : (s.collArrive e n).memoryOk = true := by
  unfold State.collArrive
  dsimp only
  split
  · exact hs
  · exact ite_ok (updCrew_ok (changeNb_ok hs)) (updParked_ok hs)

theorem collComplete_ok {e} : OnSome id (s.collComplete e) := by
  unfold State.collComplete
  dsimp only
  split
  · refine OnSome.ite trivial ?_
    split
    · split
      · exact collArrive_ok (flagWrite_ok (same hs))
      · exact flagWrite_ok (same hs)
    · refine engTrap_ok ?_
      split
      · exact collArrive_ok (flagWrite_ok (same hs))
      · exact flagWrite_ok (same hs)
  · trivial

theorem collFail_ok {e cause} : OnSome id (s.collFail e cause) := by
  unfold State.collFail
  split
  · refine OnSome.ite trivial ?_
    split
    · exact OnSome.ite (collMark_ok hs) trivial
    · exact OnSome.ite (OnSome.map (fun _ _ => collMark_ok hs)) trivial
    · split
      · exact OnSome.ite (collFault_ok hs) trivial
      · trivial
    · split
      · exact OnSome.ite (triggerStep_ok hs) trivial
      · trivial
  · trivial

/-! ### The end of a crew -/

theorem releaseUnits_ok {core slot} : (s.releaseUnits core slot).memoryOk = true := by
  unfold State.releaseUnits
  exact same hs

theorem dropWriter_ok {k} : (s.dropWriter k).memoryOk = true := same hs

theorem removeCrew_ok {k} : (s.removeCrew k).memoryOk = true := by
  unfold State.removeCrew
  exact settleBins_ok (settleTeam_ok (updCtx_ok (same (dropWriter_ok (releaseUnits_ok (detachAll_ok (publishDone_ok hs)))))))

theorem endCrew_ok {k} : OnSome id (s.endCrew k) := OnSome.ite trivial (OnSome.ite (updCrew_ok (checkpoint_ok hs)) (OnSome.ite
    trivial (removeCrew_ok hs)))

theorem setParked_ok {part k f} : (s.setParked part k f).memoryOk = true := updCtx_ok hs

theorem endParked_ok {k} : OnSome id (s.endParked k) := by
  unfold State.endParked
  exact OnSome.ite trivial (settleTeam_ok (updCtx_ok (ite_ok (dropWriter_ok (dropSuspended_ok (setParked_ok hs))) (setBitmap_ok
      (dropWriter_ok (dropSuspended_ok (setParked_ok hs)))))))

theorem crewEnd_ok {core slot} : OnSome id (s.crewEnd core slot) := by
  unfold State.crewEnd
  split
  · rename_i e
    exact OnSome.of (st := id) e (OnSome.bind (fun _ _ => endCrew_ok hs))
  · exact OnSome.findSome (fun _ => endParked_ok hs)

theorem abortCrew_ok {k} : (s.abortCrew k).memoryOk = true := settleTeam_ok (settleBins_ok (dropParticipants_ok (updCrew_ok
    hs)))

theorem abortParked_ok {k} : (s.abortParked k).memoryOk = true := by
  unfold State.abortParked
  exact settleTeam_ok (setParked_ok hs)

/-! ### The system class -/

theorem execCkpt_ok {x} : OnNext (execCkpt x s) := uniSet_ok hs (fun _ => ckptAfter_ok hs (fun _ ha1 => advance_ok ha1))

theorem trapAfter_ok {i x c} : OnOk id (trapAfter s i x c) := by
  unfold trapAfter
  dsimp only
  refine OnOk.ite trivial ?_
  split
  · trivial
  · rename_i e
    exact takeTrap_ok ((ckptAfter_ok hs (fun _ ha => advance_ok ha)).get e)

theorem execTrap_ok {x} : OnNext (execTrap x s) := uniSet_ok hs (fun _ => trapAfter_ok hs)

theorem haltCrew_ok {i x} : (s.haltCrew i x).memoryOk = true := onCrew_ok (advance_ok hs)

theorem execBpt_ok {x} : OnNext (execBpt x s) := uniSet_ok hs (fun _ => OnOk.ite (haltCrew_ok hs) (trapAfter_ok hs))

theorem execHalt_ok {x} : OnNext (execHalt x s) := by
  unfold execHalt
  refine uniSet_ok hs (fun _ => ?_)
  split
  · trivial
  · exact haltCrew_ok (same hs)

theorem reloadCrew_ok {core slot} : (s.reloadCrew core slot).memoryOk = true := by
  unfold State.reloadCrew
  dsimp only
  split
  · exact hs
  · split
    · exact resumePins_ok hs
    · exact takeTrap_ok (resumePins_ok hs)

theorem serve_ok {part n act} : (s.serve part n act).1.memoryOk = true := by
  unfold State.serve
  split
  · exact fst_ite_ok (reloadCrew_ok (resumeCrew_ok hs)) (fst_ite_ok (abortCrew_ok hs) hs)
  · split
    · exact hs
    · exact fst_ite_ok (setParked_ok hs) (fst_ite_ok (abortParked_ok hs) hs)

theorem execEret_ok {x} : OnNext (execEret x s) := by
  unfold execEret
  dsimp only
  refine uniSet_ok hs (fun _ => ?_)
  split
  · trivial
  · split
    · trivial
    · refine OnOk.ite (OnOk.ite (uniResult_ok hs) trivial) ?_
      split
      · trivial
      · refine OnOk.ite ?_ ?_
        · split
          · trivial
          · rename_i e3
            exact onBatch_ok (releaseAll_ok ((takeCkpt_ok hs).get e3))
        · refine OnOk.ite trivial ?_
          split
          · trivial
          · rename_i e3
            split
            · rename_i e4
              exact uniResult_ok (fst_get (serve_ok ((spillReady_ok hs).get e3)) e4)
            · rename_i e4
              exact onBatch_ok (fst_get (serve_ok ((spillReady_ok hs).get e3)) e4)

theorem execRdsys_ok {x} : OnNext (execRdsys x s) := by
  unfold execRdsys
  dsimp only
  refine uniSet_ok hs (fun _ => ?_)
  split
  · trivial
  · split
    · trivial
    · exact uniResult_ok hs
    · trivial
    · split
      · trivial
      · exact uniResult_ok hs

theorem xlStart_ok {part tag len} : (s.xlStart part tag len).memoryOk = true := updCtx_ok hs

theorem xlDrop_ok {part} : OnSome id (s.xlDrop part) := by
  unfold State.xlDrop
  split
  · trivial
  · exact updCtx_ok (same hs)

theorem execWrsys_ok {x} : OnNext (execWrsys x s) := by
  unfold execWrsys
  dsimp only
  refine uniSet_ok hs (fun _ => ?_)
  split
  · trivial
  · split
    · trivial
    · trivial
    · trivial
    · refine OnOk.ite ?_ (OnOk.ite (OnOk.ite trivial (OnOk.ite (onBatch_ok (onBatch_ok (xlStart_ok (same hs)))) (onBatch_ok
          (updCtx_ok hs)))) (OnOk.ite (OnOk.ite trivial (onBatch_ok (onBatch_ok (same hs)))) (OnOk.ite trivial (OnOk.ite
          trivial (secondCkpt_ok (advance_ok hs))))))
      split
      · trivial
      · split
        · trivial
        · rename_i e3
          exact onBatch_ok (releaseAll_ok ((firstCkpt_ok hs).get e3))

theorem execWrpkr_ok {x} : OnNext (execWrpkr x s) := by
  unfold execWrpkr
  refine uniSet_ok hs (fun _ => ?_)
  split
  · trivial
  · split
    · trivial
    · split
      · trivial
      · rename_i e2
        exact OnOk.ite trivial (advance_ok (updCtx_ok ((takeCkpt_ok hs).get e2)))

/-! ### The machine's own steps -/

theorem runEvent_ok {body} (hbody : OnSome id body) : OnNext (runEvent s body) := by
  unfold runEvent
  refine OnNext.ite trivial ?_
  split
  · exact hbody
  · exact same hs

theorem pass_ok {core fib} : OnSome id (s.pass core fib) := by
  unfold State.pass
  split
  · trivial
  · split
    · trivial
    · exact OnSome.ite trivial (toQueue_ok (same hs))

theorem execPass_ok {core fib} : OnNext (execPass core fib s) := runEvent_ok hs (pass_ok hs)

theorem roomFor_ok {e} : OnOk id (s.roomFor e) := by
  unfold State.roomFor
  exact OnOk.ite hs (ckptUntil_ok hs)

theorem takeIn_ok {e} : OnOk id (s.takeIn e) := by
  unfold State.takeIn
  split
  · exact roomFor_ok hs
  · exact hs

theorem drain_ok {core idx} : OnSome id (s.drain core idx) := by
  unfold State.drain
  split
  · trivial
  · split
    · exact markDue_ok hs
    · rename_i e2
      exact applyEntry_ok (same ((takeIn_ok hs).get e2))

theorem execDrain_ok {core idx} : OnNext (execDrain core idx s) := runEvent_ok hs (drain_ok hs)

theorem fill_ok {core slot line} : OnSome id (s.fill core slot line) := OnSome.bind (fun _ _ => OnSome.bind (fun _ _ =>
    OnSome.bind (fun _ _ => OnSome.ite trivial (fillL1_ok hs))))

theorem execFill_ok {core slot line} : OnNext (execFill core slot line s) := runEvent_ok hs (fill_ok hs)

theorem evict_ok {core line} : OnSome id (s.evict core line) := OnSome.ite (same hs) trivial

theorem execEvict_ok {core line} : OnNext (execEvict core line s) := runEvent_ok hs (evict_ok hs)

theorem writeBackStep_ok {line} : OnSome id (s.writeBackStep line) := by
  unfold State.writeBackStep
  split
  · trivial
  · exact OnSome.ite trivial (writeBack_ok _ _ hs)

theorem execWriteBack_ok {line} : OnNext (execWriteBack line s) := runEvent_ok hs (writeBackStep_ok hs)

theorem lineWrite_ok {n} : OnSome id (s.lineWrite n) := by
  unfold State.lineWrite
  refine OnSome.bind (fun _ _ => ?_)
  refine OnSome.ite trivial ?_
  split
  · exact startCopy_ok hs
  · exact copyStep_ok hs
  · exact bldStep_ok hs
  · trivial

theorem execLineWrite_ok {id} : OnNext (execLineWrite id s) := runEvent_ok hs (lineWrite_ok hs)

theorem completion_ok {n} : OnSome id (s.completion n) := OnSome.bind (fun _ _ => OnSome.ite (engineDone_ok hs)
    trivial)

theorem execEngineCompletion_ok {id} : OnNext (execEngineCompletion id s) := runEvent_ok hs (completion_ok hs)

theorem execAbsorbOrAppend_ok {idx} : OnNext (execAbsorbOrAppend idx s) := runEvent_ok hs (absorbStep_ok hs)

theorem transmit_ok {p} : OnSome id (s.transmit p) := by
  unfold State.transmit
  dsimp only
  split
  · trivial
  · exact OnSome.ite (same (foldl_ok (fun _ _ ht1 => logAccess_ok ht1) (same hs))) (transmitStep_ok hs)

theorem execTransmit_ok {p} : OnNext (execTransmit p s) := runEvent_ok hs (transmit_ok hs)

theorem execReply_ok {idx} : OnNext (execReply idx s) := runEvent_ok hs (replyStep_ok hs)

theorem linkAccept_ok {idx} : OnSome id (s.linkAccept idx) := by
  unfold State.linkAccept
  dsimp only
  refine OnSome.bind (fun _ _ => ?_)
  refine OnSome.ite (same hs) ?_
  refine OnSome.ite trivial ?_
  refine OnSome.ite trivial ?_
  split
  · exact storePool_ok (same hs)
  · exact same hs

theorem execWriteAcceptedByLink_ok {idx} : OnNext (execWriteAcceptedByLink idx s) := runEvent_ok hs (linkAccept_ok hs)

theorem claimStep_ok {n} : OnSome id (s.claimStep n) := by
  unfold State.claimStep
  refine OnSome.bind (fun _ _ => ?_)
  split
  · exact OnSome.ite trivial (claim_ok hs)
  · trivial

theorem holdStep_ok {n} : OnSome id (s.holdStep n) := by
  unfold State.holdStep
  refine OnSome.bind (fun _ _ => ?_)
  split
  · exact OnSome.ite trivial (hold_ok hs)
  · trivial

theorem copyLineStep_ok {n} : OnSome id (s.copyLineStep n) := by
  unfold State.copyLineStep
  refine OnSome.bind (fun _ _ => ?_)
  split
  · exact OnSome.ite trivial (copyOrFinish_ok hs)
  · trivial

theorem execClaim_ok {id} : OnNext (execClaim id s) := runEvent_ok hs (claimStep_ok hs)

theorem execHold_ok {id} : OnNext (execHold id s) := runEvent_ok hs (holdStep_ok hs)

theorem execCopyLine_ok {id} : OnNext (execCopyLine id s) := runEvent_ok hs (copyLineStep_ok hs)

theorem prodStep_ok {core slot idx} : OnSome id (s.prodStep core slot idx) := by
  unfold State.prodStep
  refine OnSome.bind (fun _ _ => ?_)
  refine OnSome.bind (fun _ _ => ?_)
  refine OnSome.ite trivial ?_
  split
  · exact raise_ok (updCrew_ok hs)
  · exact updCrew_ok hs

theorem execRegisterProducerCompletion_ok {core slot idx} : OnNext (execRegisterProducerCompletion core slot idx s) :=
    runEvent_ok hs (prodStep_ok hs)

theorem execAtomicReply_ok {b} : OnNext (execAtomicReply b s) := runEvent_ok hs (atomicReplyStep_ok hs)

theorem execMatrixUnitExecute_ok {gq} : OnNext (execMatrixUnitExecute gq s) := runEvent_ok hs (unitStep_ok hs)

theorem execCollTriggerRead_ok {id} : OnNext (execCollTriggerRead id s) := runEvent_ok hs (OnSome.bind (fun _ _ =>
    triggerStep_ok hs))

theorem execCollStep_ok {id input} : OnNext (execCollStep id input s) := runEvent_ok hs (OnSome.bind (fun _ _ => collAdvance_ok
    hs))

theorem execCollCompletion_ok {id} : OnNext (execCollCompletion id s) := runEvent_ok hs (OnSome.bind (fun _ _ =>
    collComplete_ok hs))

theorem execCollFailure_ok {id cause} : OnNext (execCollFailure id cause s) := runEvent_ok hs (OnSome.bind (fun _ _ =>
    collFail_ok hs))

theorem execXlinv_ok {part} : OnNext (execXlinv part s) := runEvent_ok hs (xlDrop_ok hs)

/-! ### Scheduling -/

theorem placeGang_ok {part l e cores a} : OnSome id (s.placeGang part l e cores a) := by
  induction a generalizing s with
  | nil => exact hs
  | cons y l ih =>
    rw [State.placeGang]
    split
    · trivial
    · split
      · trivial
      · rename_i e3
        exact ih ((placeCrew_ok hs).get e3)

theorem placeDispatch_ok {c l e idx} : OnSome id (s.placeDispatch c l e idx) := OnSome.ite (placeGang_ok hs) (OnSome.findSome
    (fun _ => placeGang_ok hs))

theorem clearBitmap_ok {c l} : (s.clearBitmap c l).memoryOk = true := by
  unfold State.clearBitmap
  split
  · exact foldl_ok (fun _ _ ht1 => iaWrite_ok _ _ _ _ ht1) hs
  · exact hs

theorem headPlaced_ok {c q} : OnSome (fun p => p.2.2) (s.headPlaced c q) := OnSome.bind (fun ⟨_, _⟩ _ => OnSome.bind (fun _ _
    => OnSome.map (fun _ e2 => (placeDispatch_ok (ite_ok (clearBitmap_ok hs) hs)).get e2)))

theorem dispatchOne_ok {part} : OnSome id (s.dispatchOne part) := by
  unfold State.dispatchOne
  refine OnSome.bind fun c _ => ?_
  extract_lets d
  clear_value d
  exact OnSome.ite trivial (OnSome.bind fun q _ => OnSome.map fun _ e => updCtx_ok ((headPlaced_ok hs).get e))

theorem execDispatch_ok {part} : OnNext (execDispatch part s) := runEvent_ok hs (dispatchOne_ok hs)

theorem watchQueues_ok : s.watchQueues.memoryOk = true := same hs

theorem ageQueue_ok {part q} : OnSome id (s.ageQueue part q) := by
  unfold State.ageQueue
  exact OnSome.bind (fun _ _ => OnSome.ite (updCtx_ok hs) trivial)

theorem execPriorityAging_ok {part queue} : OnNext (execPriorityAging part queue s) := runEvent_ok hs (ageQueue_ok hs)

theorem reserveHerd_ok {part} : OnSome id (s.reserveHerd part) := OnSome.bind (fun _ _ => OnSome.ite trivial (updCtx_ok hs))

theorem execTeamReservation_ok {part} : OnNext (execTeamReservation part s) := runEvent_ok hs (reserveHerd_ok hs)

theorem execCrewEnd_ok {core slot} : OnNext (execCrewEnd core slot s) := runEvent_ok hs (crewEnd_ok hs)

theorem binTimer_ok {core slot bin} : OnSome id (s.binTimer core slot bin) := OnSome.bind (fun _ _ => OnSome.bind (fun _ _ =>
    OnSome.ite trivial (updCrew_ok hs)))

theorem execBinTimerExpiry_ok {core slot bin} : OnNext (execBinTimerExpiry core slot bin s) := runEvent_ok hs (binTimer_ok hs)

theorem binFire_ok {core slot bin} : OnSome id (s.binFire core slot bin) := by
  unfold State.binFire
  exact OnSome.bind (fun _ _ => OnSome.bind (fun _ _ => OnSome.ite trivial (OnSome.bind (fun _ _ => OnSome.bind (fun ⟨_, _⟩ _
      => OnSome.map (fun _ e4 => settleBins_ok (updCrew_ok ((formFlock_ok hs).get e4))))))))

theorem execBinFire_ok {core slot bin} : OnNext (execBinFire core slot bin s) := runEvent_ok hs (binFire_ok hs)

theorem rcvTimeout_ok {b} : OnSome id (s.rcvTimeout b) := by
  unfold State.rcvTimeout
  refine OnSome.bind (fun _ _ => ?_)
  split
  · exact OnSome.ite (onFlock_ok hs) trivial
  · trivial

theorem execRcvTimeout_ok {b} : OnNext (execRcvTimeout b s) := runEvent_ok hs (rcvTimeout_ok hs)

theorem sleepTimeout_ok {b} : OnSome id (s.sleepTimeout b) := by
  unfold State.sleepTimeout
  refine OnSome.bind (fun _ _ => ?_)
  split
  · exact OnSome.ite (onFlock_ok (onBatch_ok hs)) trivial
  · trivial

theorem execSleepTimeout_ok {b} : OnNext (execSleepTimeout b s) := runEvent_ok hs (sleepTimeout_ok hs)

theorem qwaitTimeout_ok {b} : OnSome id (s.qwaitTimeout b) := by
  unfold State.qwaitTimeout
  refine OnSome.bind (fun _ _ => ?_)
  split
  · exact OnSome.ite (onFlock_ok (onBatch_ok hs)) trivial
  · trivial

theorem execQwaitTimeout_ok {b} : OnNext (execQwaitTimeout b s) := runEvent_ok hs (qwaitTimeout_ok hs)

theorem qwaitReread_ok {b} : OnSome id (s.qwaitReread b) := by
  unfold State.qwaitReread
  dsimp only
  refine OnSome.bind (fun _ _ => ?_)
  split
  · exact OnSome.ite (OnSome.ite (onBatch_ok hs) (onFlock_ok (onBatch_ok hs))) trivial
  · trivial

theorem execQwaitReread_ok {b} : OnNext (execQwaitReread b s) := runEvent_ok hs (qwaitReread_ok hs)

theorem yieldExpiry_ok {b} : OnSome id (s.yieldExpiry b) := by
  unfold State.yieldExpiry
  refine OnSome.bind (fun _ _ => ?_)
  split
  · exact OnSome.ite (onBatch_ok hs) trivial
  · trivial

theorem execYieldExpiry_ok {b} : OnNext (execYieldExpiry b s) := runEvent_ok hs (yieldExpiry_ok hs)

theorem tokenPass_ok {die herd} : OnSome id (s.tokenPass die herd) := by
  unfold State.tokenPass
  dsimp only
  refine OnSome.ite trivial ?_
  split
  · exact OnSome.ite (same hs) (same hs)
  · exact OnSome.ite (same hs) trivial

theorem execPowerTokenPass_ok {die herd} : OnNext (execPowerTokenPass die herd s) := runEvent_ok hs (tokenPass_ok hs)

/-! ### Recovery, pre-emption, debug and pages -/

theorem dueCkpt_ok {core slot} : OnSome id (s.dueCkpt core slot) := OnSome.bind (fun _ _ => OnSome.ite (checkpoint_ok hs)
    trivial)

theorem execCheckpoint_ok {core slot} : OnNext (execCheckpoint core slot s) := runEvent_ok hs (dueCkpt_ok hs)

theorem execTrapDelivery_ok {core slot} : OnNext (execTrapDelivery core slot s) := runEvent_ok hs (deliverHeld_ok hs)

theorem retryRecord_ok {core slot} : OnSome id (s.retryRecord core slot) := by
  unfold State.retryRecord
  dsimp only
  split
  · exact OnSome.map (fun _ _ => updCrew_ok (tryEnqueue_ok hs))
  · exact OnSome.bind (fun _ _ => OnSome.map (fun _ _ => setParked_ok (tryEnqueue_ok hs)))

theorem execTrapRecordEnqueueRetry_ok {core slot} : OnNext (execTrapRecordEnqueueRetry core slot s) := runEvent_ok hs
    (retryRecord_ok hs)

theorem intervalEnd_ok {core slot} : OnSome id (s.intervalEnd core slot) := OnSome.bind (fun _ _ => OnSome.bind (fun _ _ =>
    OnSome.ite trivial (OnSome.ite (checkpoint_ok hs) (OnSome.ite trivial (updCrew_ok hs)))))

theorem execIntervalTimerExpiry_ok {core slot} : OnNext (execIntervalTimerExpiry core slot s) := runEvent_ok hs (intervalEnd_ok
    hs)

theorem demand_ok {core slot} : (s.demand core slot).memoryOk = true := by
  unfold State.demand
  dsimp only
  split
  · exact updCrew_ok hs
  · exact getD_ok (writeRecord_ok (updCrew_ok hs)) (updCrew_ok hs)

theorem demandAll_ok {ks} : (s.demandAll ks).memoryOk = true := foldl_ok (fun _ _ ht1 => demand_ok ht1) hs

theorem quantumEnd_ok {part} : OnSome id (s.quantumEnd part) := OnSome.bind (fun _ _ => OnSome.ite trivial (updCtx_ok
    (demandAll_ok hs)))

theorem execQuantumExpiry_ok {part} : OnNext (execQuantumExpiry part s) := runEvent_ok hs (quantumEnd_ok hs)

theorem preemptSet_ok {ps} : OnSome id (s.preemptSet ps) := by
  unfold State.preemptSet
  exact OnSome.ite trivial (same (demandAll_ok hs))

theorem execPreemptionRequest_ok {crews} : OnNext (execPreemptionRequest crews s) := runEvent_ok hs (preemptSet_ok hs)

theorem orphan_ok {k} : (s.orphan k).memoryOk = true := by
  unfold State.orphan
  exact same hs

theorem landOwn_ok {k} : (s.landOwn k).memoryOk = true := by
  unfold State.landOwn
  dsimp only
  refine foldl_ok (fun _ _ ht1 => ?_) (same hs)
  split
  · exact storePool_ok ht1
  · exact ht1

theorem markPre_ok {k} : (s.markPre k).memoryOk = true := by
  unfold State.markPre
  dsimp only
  split
  · exact hs
  · exact ite_ok hs (getD_ok (writeRecord_ok hs) hs)

theorem lodgeCrew_ok {core slot} : (s.lodgeCrew core slot).memoryOk = true := by
  have h0 := rollback_ok hs (core := core) (slot := slot)
  unfold State.lodgeCrew
  dsimp only
  split
  · exact hs
  · rename_i s1 k e
    have h1 : s1.memoryOk = true := OnSome.of (st := fun p => p.1) e (OnSome.bind fun _ _ => OnSome.map fun _ _ => landOwn_ok
        h0)
    have h2 := releaseUnits_ok (suspendPins_ok (markPre_ok h1 (k := k)) (k := k)) (core := core) (slot := slot)
    exact settleBins_ok (updCtx_ok (same (same (orphan_ok h2 (k := k)))))

theorem lodgeOne_ok {k} : OnSome id (s.lodgeOne k) := by
  unfold State.lodgeOne
  split
  · rename_i e
    exact lodgeCrew_ok ((clearArea_ok hs).get e)
  · rename_i e
    exact (clearArea_ok hs).getError e

theorem lodge_ok {part} : OnSome id (s.lodge part) := by
  unfold State.lodge
  refine OnSome.foldl (fun _ _ e => ?_) trivial
  split
  · rename_i e1
    exact (lodgeOne_ok (getD_ok e hs)).get e1
  · exact e

theorem execLodgeState_ok {part} : OnNext (execLodgeState part s) := runEvent_ok hs (lodge_ok hs)

theorem restoreUnit_ok {u} : (s.restoreUnit u).memoryOk = true := by
  unfold State.restoreUnit
  exact setUnit_ok hs

theorem unpark_ok {k} : (s.unpark k).memoryOk = true := by
  unfold State.unpark
  exact setParked_ok (dropCore_ok (foldl_ok (fun _ _ ht1 => restoreUnit_ok (foldl_ok (fun _ ⟨_, _⟩ ht2 => evictPin_ok ht2)
      ht1)) (same hs)))

theorem unparkTeam_ok {ks} : OnSome id (s.unparkTeam ks) := by
  unfold State.unparkTeam
  refine OnSome.foldl (fun _ _ h => OnSome.bind fun _ e => ?_) hs
  exact OnSome.ite (unpark_ok (h.get e)) trivial

theorem unparkAll_ok {part a} : (s.unparkAll part a).memoryOk = true := by
  induction a generalizing s with
  | zero => exact hs
  | succ k ih =>
    rw [State.unparkAll]
    split
    · exact hs
    · split
      · exact hs
      · rename_i e1
        exact ih ((unparkTeam_ok hs).get e1)

theorem reloadSome_ok {ks} : (s.reloadSome ks).memoryOk = true := by
  unfold State.reloadSome
  refine foldl_ok (fun _ _ ht1 => ?_) hs
  split
  · exact ite_ok (reloadCrew_ok ht1) ht1
  · exact ht1

theorem resumePart_ok {part} : OnSome id (s.resumePart part) := by
  unfold State.resumePart
  dsimp only
  refine OnSome.bind (fun _ _ => ?_)
  refine OnSome.ite trivial ?_
  split
  · rename_i e1
    exact (clearArea_ok hs).getError e1
  · rename_i e1
    exact OnSome.ite trivial (ite_ok (same (updCtx_ok (reloadSome_ok (unparkAll_ok ((clearArea_ok hs).get e1))))) (updCtx_ok
        (reloadSome_ok (unparkAll_ok ((clearArea_ok hs).get e1)))))

theorem execPartitionResume_ok {part} : OnNext (execPartitionResume part s) := runEvent_ok hs (resumePart_ok hs)

theorem halt_ok {core slot} : OnSome id (s.halt core slot) := by
  unfold State.halt
  dsimp only
  refine OnSome.bind (fun _ _ => ?_)
  split
  · exact OnSome.ite trivial (updCrew_ok hs)
  · exact OnSome.ite trivial (getD_ok (writeRecord_ok (updCrew_ok hs)) (updCrew_ok hs))

theorem execDebugHalt_ok {core slot} : OnNext (execDebugHalt core slot s) := runEvent_ok hs (halt_ok hs)

theorem stepOnce_ok {core slot} : OnSome id (s.stepOnce core slot) := OnSome.bind (fun _ _ => OnSome.ite (updCrew_ok hs)
    trivial)

theorem execSingleStep_ok {core slot} : OnNext (execSingleStep core slot s) := runEvent_ok hs (stepOnce_ok hs)

theorem unhalt_ok {core slot} : OnSome id (s.unhalt core slot) := OnSome.bind (fun _ _ => OnSome.ite (updCrew_ok hs) trivial)

theorem execHaltRelease_ok {core slot} : OnNext (execHaltRelease core slot s) := runEvent_ok hs (unhalt_ok hs)

theorem writeRebuilt_ok {sector bs} : (s.writeRebuilt sector bs).memoryOk = true := logError_ok _ _ _ (memWritten_ok hs)

theorem rebuild_ok {sector a} : OnSome id (s.rebuild sector a) := by
  unfold State.rebuild
  split
  · exact OnSome.map (fun _ _ => writeRebuilt_ok hs)
  · exact OnSome.map (fun _ _ => writeRebuilt_ok hs)
  · exact OnSome.ite trivial (logError_ok _ _ _ (poison_ok _ hs))

theorem sectorError_ok {sector a} : OnSome id (s.sectorError sector a) := by
  unfold State.sectorError
  split
  · exact hs
  · exact OnSome.ite (logError_ok _ _ _ hs) trivial
  · split
    · exact logError_ok _ _ _ (memWritten_ok hs)
    · trivial
  · exact rebuild_ok hs

theorem rewriteLeaf_ok {c ia e level pa ct} : (s.rewriteLeaf c ia e level pa ct).memoryOk = true := by
  unfold State.rewriteLeaf
  dsimp only
  refine same ?_
  split
  · exact commitBytes_ok _ _ _ hs
  · exact hs

theorem retarget_ok {part old new size} : (s.retarget part old new size).memoryOk = true := by
  unfold State.retarget
  exact same hs

theorem movePageLine_ok {part e level old new n} : (s.movePageLine part e level old new n).memoryOk = true := releaseHome_ok _
    _ (copyLineTo_ok _ _ hs)

theorem moveLines_ok {part e level old new a} : OnSome id (s.moveLines part e level old new a) := by
  induction a generalizing s with
  | zero => exact hs
  | succ k ih => exact OnSome.bind (fun _ e1 => OnSome.ite trivial (OnSome.map (fun _ e2 => movePageLine_ok (dropL1All_ok
        (OnSome.of (st := id) e2 (OnSome.bind (fun _ e3 => commitHolders_ok ((drainLine_ok (passLine_ok ((ih hs).get e1))).get
        e3))))))))

theorem askHolders_ok {part old size} : OnSome id (s.askHolders part old size) := markDue_ok hs

theorem startMigration_ok {c granule} : OnSome id (s.startMigration c granule) := by
  unfold State.startMigration
  exact OnSome.bind (fun ⟨_, _⟩ _ => OnSome.ite trivial (OnSome.map (fun _ _ => same (updCtx_ok hs))))

theorem stopMigration_ok {e new size} : (s.stopMigration e new size).memoryOk = true := updCtx_ok (same hs)

theorem abortMigration_ok {e old new next size} : (s.abortMigration e old new next size).memoryOk = true := by
  unfold State.abortMigration
  exact logError_ok _ _ _ (poison_ok _ (poison_ok _ (stopMigration_ok hs)))

theorem endMigration_ok {c eng ia e level old new} : OnSome id (s.endMigration c eng ia e level old new) := by
  unfold State.endMigration
  dsimp only
  split
  · exact askHolders_ok hs
  · rename_i e1
    exact same (retarget_ok (rewriteLeaf_ok ((moveLines_ok hs).get e1)))

theorem holdPageLine_ok {eng ia e level old new next} : OnSome id (s.holdPageLine eng ia e level old new next) := by
  unfold State.holdPageLine
  exact OnSome.ite trivial (OnSome.map (fun _ e1 => ite_ok (updEngine_ok (foldl_ok (fun _ _ ht1 => activate_ok _ _ ht1)
      ((takeLine_ok hs).get e1))) ((takeLine_ok hs).get e1)))

theorem migrateOne_ok {eng ia e level old new next read} : OnSome id (s.migrateOne eng ia e level old new next read) := by
  unfold State.migrateOne
  dsimp only
  refine OnSome.ite trivial ?_
  split
  · exact OnSome.ite trivial (abortMigration_ok hs)
  · exact OnSome.bind (fun _ e2 => holdPageLine_ok ((sectorError_ok hs).get e2))

theorem migrateLine_ok {part granule read} : OnSome id (s.migrateLine part granule read) := by
  unfold State.migrateLine
  dsimp only
  refine OnSome.bind (fun _ _ => ?_)
  split
  · exact startMigration_ok hs
  · exact OnSome.ite (stopMigration_ok hs) (OnSome.ite (endMigration_ok hs) (migrateOne_ok hs))

theorem execMigrationLineCopy_ok {part page read} : OnNext (execMigrationLineCopy part page read s) := runEvent_ok hs
    (migrateLine_ok hs)

theorem hitWindowEnd_ok : OnSome id s.hitWindowEnd := OnSome.ite (same hs) trivial

theorem execMigrationCountWindowEnd_ok : OnNext (execMigrationCountWindowEnd s) := runEvent_ok hs (hitWindowEnd_ok hs)

theorem expandInto_ok {p f} : OnSome id (s.expandInto p f) := by
  unfold State.expandInto
  dsimp only
  split
  · rename_i e
    exact same (updCtx_ok (retarget_ok (rewriteLeaf_ok ((moveLines_ok hs).get e))))
  · exact askHolders_ok hs

theorem logUnexpanded_ok {p} : (s.logUnexpanded p).memoryOk = true := logError_ok _ _ _ hs

theorem expandPage_ok {part granule} : OnSome id (s.expandPage part granule) := by
  unfold State.expandPage
  dsimp only
  refine OnSome.bind (fun _ _ => ?_)
  refine OnSome.ite trivial ?_
  split
  · exact expandInto_ok hs
  · exact same (logUnexpanded_ok hs)

theorem expandFirst_ok {t} (ht : t.memoryOk = true) : (s.expandFirst t).memoryOk = true := by
  unfold State.expandFirst
  split
  · split
    · rename_i e1
      exact same ((expandInto_ok hs).get e1)
    · exact same hs
  · exact foldl_ok (fun _ _ ht1 => logUnexpanded_ok ht1) ht

theorem execCapacityTierExpansion_ok {part page} : OnNext (execCapacityTierExpansion part page s) := runEvent_ok hs
    (expandPage_ok hs)

/-! ### Memory errors and links -/

theorem execSectorRebuild_ok {sector found} : OnNext (execSectorRebuild sector found s) := runEvent_ok hs (OnSome.ite trivial
    (sectorError_ok hs))

theorem sliceError_ok {part line sector} : OnSome id (s.sliceError part line sector) := by
  unfold State.sliceError
  refine OnSome.map fun _ _ => ite_ok (logError_ok _ _ _ (poison_ok _ hs)) (logError_ok _ _ _ ?_)
  refine updHome_ok (activate_ok _ _ hs) fun h _ hw => ?_
  rw [HomeLine.fill_data]
  exact Mem.splice_wf _ _ _ _ hw (mem_ok hs)

theorem l1Error_ok {core part line} : OnSome id (s.l1Error core part line) := OnSome.map (fun _ _ => logError_ok _ _ _ (ite_ok
    (refill_ok hs) (dropL1_ok hs)))

theorem regError_ok {k quad salt changed lost} (hlost : lost.memoryOk = true) : OnSome id (s.regError k quad salt changed lost)
    := OnSome.ite (OnSome.ite trivial (logDie_ok (rollback_ok hs))) (logDie_ok hlost)

theorem loseIn_ok {core slot flock lose} : (s.loseIn core slot flock lose).memoryOk = true := updCrew_ok hs

theorem fibreError_ok {α : Type} {a : BEq α} {core : ℕ} {slot : ℕ} {flock : ℕ} {lane : ℕ} {n : ℕ} {rd : Fibre → α} {lose :
    Fibre → Fibre} : OnSome id (s.fibreError core slot flock lane n rd lose) := by
  unfold State.fibreError
  exact OnSome.bind (fun _ _ => OnSome.bind (fun _ _ => OnSome.bind (fun _ _ => regError_ok hs (loseIn_ok hs))))

theorem flockError_ok {α : Type} {a : BEq α} {core : ℕ} {slot : ℕ} {flock : ℕ} {n : ℕ} {rd : Flock → α} {lose : Flock → Flock}
    : OnSome id (s.flockError core slot flock n rd lose) := by
  unfold State.flockError
  exact OnSome.bind (fun _ _ => OnSome.bind (fun _ _ => regError_ok hs (loseIn_ok hs)))

theorem unitError_ok {gq shadowed mark} : OnSome id (s.unitError gq shadowed mark) := by
  unfold State.unitError
  exact OnSome.ite (OnSome.bind (fun ⟨_, _⟩ _ => OnSome.ite trivial (logDie_ok (rollback_ok hs)))) (logDie_ok (onUnit_ok hs))

theorem sramError_ok {a} : OnSome id (s.sramError a) := by
  unfold State.sramError
  dsimp only
  split
  · exact sliceError_ok hs
  · exact l1Error_ok hs
  · exact OnSome.map (fun _ _ => logError_ok _ _ _ (same hs))
  · exact OnSome.bind (fun _ _ => OnSome.ite (logDie_ok (updCrew_ok hs)) trivial)
  · exact logDie_ok (onUnit_ok hs)
  · exact logDie_ok (same hs)
  · exact fibreError_ok hs
  · exact fibreError_ok hs
  · exact fibreError_ok hs
  · exact flockError_ok hs
  · exact flockError_ok hs
  · exact unitError_ok hs
  · exact unitError_ok hs
  · exact unitError_ok hs

theorem execSramUncorrectableError_ok {site} : OnNext (execSramUncorrectableError site s) := runEvent_ok hs (sramError_ok hs)

theorem setHen_ok {stack h} : (s.setHen stack h).memoryOk = true := same hs

theorem scrubStart_ok {stack} : OnSome id (s.scrubStart stack) := OnSome.ite trivial (setHen_ok hs)

theorem execScrubPassStart_ok {stack} : OnNext (execScrubPassStart stack s) := runEvent_ok hs (scrubStart_ok hs)

theorem parityError_ok {stack n a} : OnSome id (s.parityError stack n a) := by
  unfold State.parityError
  split
  · exact hs
  · exact logPlace_ok hs
  · exact logPlace_ok hs
  · exact OnSome.ite trivial (logPlace_ok hs)
  · trivial
  · exact logPlace_ok (poison_ok _ hs)

theorem scrub_ok {stack read} : OnSome id (s.scrub stack read) := by
  unfold State.scrub
  exact OnSome.ite trivial (OnSome.ite (sectorError_ok (setHen_ok hs)) (parityError_ok (setHen_ok hs)))

theorem execScrubRead_ok {stack read} : OnNext (execScrubRead stack read s) := runEvent_ok hs (scrub_ok hs)

theorem scrubCheck_ok {stack} : OnSome id (s.scrubCheck stack) := by
  unfold State.scrubCheck
  exact OnSome.ite trivial (setHen_ok hs)

theorem execScrubEscalationCheck_ok {stack} : OnNext (execScrubEscalationCheck stack s) := runEvent_ok hs (scrubCheck_ok hs)

theorem rowWindowEnd_ok : OnSome id s.rowWindowEnd := OnSome.ite (same hs) trivial

theorem execRowActivationWindowEnd_ok : OnNext (execRowActivationWindowEnd s) := runEvent_ok hs (rowWindowEnd_ok hs)

theorem releaseLines_ok {ls} : (s.releaseLines ls).memoryOk = true := foldl_ok (fun _ ⟨_, _⟩ ht1 => releaseHome_ok _ _ ht1) hs

theorem unpinOver_ok {part g} : (s.unpinOver part g).memoryOk = true := by
  unfold State.unpinOver
  have hm := (State.memoryOk_iff s).mp hs
  refine (State.memoryOk_iff _).mpr ⟨hm.1, hm.2.1, hm.2.2.1, fun y hy => ?_⟩
  obtain ⟨p, hp, rfl⟩ := List.mem_map.mp hy
  have hw := home_ok hs p.1 (List.fst_mem_of_mem_zipIdx hp)
  dsimp only
  split <;> exact hw

theorem giveWay_ok {g part w} : (s.giveWay g part w).memoryOk = true := by
  unfold State.giveWay
  exact same (releaseLines_ok hs)

theorem leaveWay_ok {g part w} : (s.leaveWay g part w).memoryOk = true := by
  unfold State.leaveWay
  exact unpinOver_ok (same (releaseLines_ok hs))

theorem takeWay_ok {g pick r} : OnSome (fun p => p.2) (s.takeWay g pick r) := by
  unfold State.takeWay
  split
  · exact hs
  · exact OnSome.bind (fun ⟨_, _⟩ _ => OnSome.ite (OnSome.map (fun _ _ => leaveWay_ok hs)) trivial)

theorem wayMove_ok {g pick} : OnSome id (s.wayMove g pick) := by
  unfold State.wayMove
  dsimp only
  refine OnSome.ite trivial ?_
  refine same ?_
  split
  · rename_i p _ _ e
    exact giveWay_ok (OnSome.of (st := fun p => p.2.2) e (OnSome.bind (fun ⟨_, _⟩ _ => OnSome.map (fun ⟨_, _⟩ e2 => (takeWay_ok
        hs).get e2))))
  · exact hs

theorem execWayMove_ok {group pick} : OnNext (execWayMove group pick s) := runEvent_ok hs (wayMove_ok hs)

theorem losePod_ok {n} : (s.losePod n).memoryOk = true := by
  unfold State.losePod
  exact same (foldl_ok (fun _ _ ht1 => logAccess_ok ht1) hs)

theorem loseOutstanding_ok {l} : (s.loseOutstanding l).memoryOk = true := by
  unfold State.loseOutstanding
  dsimp only
  split
  · exact losePod_ok (foldl_ok (fun _ _ ht1 => spoilHeld_ok (logError_ok _ _ _ ht1)) (foldl_ok (fun _ _ ht1 => loseEntry_ok
        ht1) (same hs)))
  · exact foldl_ok (fun _ _ ht1 => spoilHeld_ok (logError_ok _ _ _ ht1)) (foldl_ok (fun _ _ ht1 => loseEntry_ok ht1) (same hs))

theorem logLoss_ok {a} : (s.logLoss a).memoryOk = true := by
  unfold State.logLoss
  split
  · exact logError_ok _ _ _ hs
  · exact logError_ok _ _ _ hs
  · exact logLink_ok hs

theorem loseRange_ok {l} : (s.loseRange l).memoryOk = true := ite_ok hs (loseOutstanding_ok (logLoss_ok (same hs)))

theorem linkDown_ok {l} : OnSome id (s.linkDown l) := OnSome.ite trivial (loseRange_ok (same hs))

theorem execLinkDown_ok {link} : OnNext (execLinkDown link s) := runEvent_ok hs (linkDown_ok hs)

theorem timedOut_ok {l} : OnSome id (s.timedOut l) := OnSome.ite trivial (loseRange_ok hs)

theorem execCompletionTimeout_ok {link} : OnNext (execCompletionTimeout link s) := runEvent_ok hs (timedOut_ok hs)

theorem clearLost_ok {l} : OnSome id (s.clearLost l) := OnSome.ite (same hs) trivial

theorem execLostclr_ok {link} : OnNext (execLostclr link s) := runEvent_ok hs (clearLost_ok hs)

theorem retrained_ok {l} : OnSome id (s.retrained l) := OnSome.ite (same hs) trivial

theorem execLinkRetrained_ok {link} : OnNext (execLinkRetrained link s) := runEvent_ok hs (retrained_ok hs)

/-! ### The host side -/

theorem reply_ok {fn bs} : (s.reply fn bs).memoryOk = true := same hs

theorem windowWrite_ok {off bs} : (s.windowWrite off bs).memoryOk = true :=
  ofHw (foldl_ok (fun _ _ ht => noteOld_ok _ _ _ _ _ ht) hs) (Mem.write_wf _ _ _ (hw_ok hs))

theorem windowAccess_ok {part off a} : OnSome id (s.windowAccess part off a) := by
  unfold State.windowAccess
  refine OnSome.map (fun ⟨_, _⟩ _ => ?_)
  split
  · exact reply_ok hs
  · exact ite_ok (windowWrite_ok hs) hs

theorem execHostWindowAccess_ok {part off data} : OnNext (execHostWindowAccess part off data s) := runEvent_ok hs
    (windowAccess_ok hs)

theorem refuseHost_ok {fn addr} : (s.refuseHost fn addr).memoryOk = true := reply_ok (ite_ok (logError_ok _ _ _ hs)
    (logAccess_ok hs))

theorem hostStore_ok {fn l} : (s.hostStore fn l).memoryOk = true := by
  unfold State.hostStore
  refine foldl_ok (fun t p ht => ?_) (foldl_ok (fun t sec ht => staleImages_ok _ (activate_ok _ _ ht)) hs)
  exact ofMem (foldl_ok (fun _ _ hu => noteOld_ok _ _ _ _ _ hu) ht) (Mem.set_wf _ _ _ (mem_ok ht))

theorem countBar4_ok {fn addr n} : (s.countBar4 fn addr n).memoryOk = true := by
  unfold State.countBar4
  dsimp only
  refine ite_ok hs ?_
  split
  · exact hs
  · refine foldl_ok (fun _ _ ht1 => ?_) hs
    split
    · exact countHit_ok ht1
    · exact ht1

theorem completeOne_ok {fn} : OnSome id (s.completeOne fn) := OnSome.bind (fun _ _ => OnSome.ite trivial (hostStore_ok (same
    hs)))

theorem completePosted_ok {fn a} : OnSome id (s.completePosted fn a) := by
  induction a generalizing s with
  | zero => exact hs
  | succ k ih => exact OnSome.ite (OnSome.bind (fun _ e => ih ((completeOne_ok hs).get e))) hs

theorem readAhead_ok {fn addr n} : (s.readAhead fn addr n).memoryOk = true := ite_ok hs (same hs)

theorem bar4Write_ok {fn l} : OnSome id (s.bar4Write fn l) := OnSome.ite (same hs) (OnSome.ite trivial (hostStore_ok hs))

theorem bar4Read_ok {fn addr l} : OnSome id (s.bar4Read fn addr l) := by
  unfold State.bar4Read
  exact OnSome.bind (fun _ e => OnSome.ite trivial (readAhead_ok (reply_ok (foldl_ok (fun _ _ ht1 => activate_ok _ _ ht1)
      (OnSome.of (st := id) e (OnSome.ite hs (completePosted_ok hs)))))))

theorem bar4_ok {fn addr a} : OnSome id (s.bar4 fn addr a) := by
  unfold State.bar4
  split
  · exact completeOne_ok hs
  · split
    · exact refuseHost_ok hs
    · exact bar4Write_ok (countBar4_ok hs)
  · split
    · exact refuseHost_ok hs
    · exact bar4Read_ok (countBar4_ok hs)

theorem execBar4Access_ok {fn addr data} : OnNext (execBar4Access fn addr data s) := runEvent_ok hs (OnSome.ite (bar4_ok hs)
    trivial)

theorem execLtail_ok {fn value} : OnNext (execLtail fn value s) := runEvent_ok hs (OnSome.ite (setFn_ok hs) trivial)

theorem launchSlot_ok {fn} : OnSome id (s.launchSlot fn) := by
  unfold State.launchSlot
  dsimp only
  refine OnSome.ite trivial ?_
  split
  · exact setFn_ok hs
  · split
    · exact OnSome.ite trivial (setFn_ok hs)
    · rename_i e1
      exact setFn_ok (queueLaunch_ok ((invalidateRange_ok hs).get e1))

theorem execLaunchSlotProcess_ok {fn} : OnNext (execLaunchSlotProcess fn s) := runEvent_ok hs (launchSlot_ok hs)

theorem execFlGo_ok {fn} : OnNext (execFlGo fn s) := by
  unfold execFlGo
  exact runEvent_ok hs (OnSome.ite (setFn_ok hs) trivial)

theorem flush_ok {fn} : OnSome id (s.flush fn) := by
  unfold State.flush
  exact OnSome.ite (OnSome.map (fun _ e => same (setFn_ok ((completePosted_ok hs).get e)))) trivial

theorem execFlushComplete_ok {fn} : OnNext (execFlushComplete fn s) := runEvent_ok hs (flush_ok hs)

theorem execFeatAccept_ok {fn value} : OnNext (execFeatAccept fn value s) := by
  unfold execFeatAccept
  exact runEvent_ok hs (OnSome.ite trivial (OnSome.ite hs (setFn_ok hs)))

theorem execFunctionReset_ok {fn} : OnNext (execFunctionReset fn s) := by
  unfold execFunctionReset
  exact runEvent_ok hs (OnSome.ite (setFn_ok hs) trivial)

theorem fillFloor_ok {part g} : (s.fillFloor part g).memoryOk = true := by
  unfold State.fillFloor
  split
  · exact hs
  · exact foldl_ok (fun _ _ ht1 => giveWay_ok ht1) hs

theorem createContext_ok {part} : OnSome id (s.createContext part) := by
  unfold State.createContext
  exact OnSome.ite trivial (foldl_ok (fun _ _ ht1 => fillFloor_ok ht1) (same hs))

theorem execContextCreate_ok {part} : OnNext (execContextCreate part s) := runEvent_ok hs (createContext_ok hs)

theorem clearQuads_ok {gqs} : OnEither (s.clearQuads gqs) := clearArea_ok hs

theorem cleanQuad_ok {old gq} : (s.cleanQuad old gq).memoryOk = true := by
  unfold State.cleanQuad
  exact same (setUnit_ok (foldl_ok (fun _ ⟨_, _⟩ ht1 => evictPin_ok ht1) hs))

theorem raiseFloors_ok {part} : (s.raiseFloors part).memoryOk = true := by
  unfold State.raiseFloors
  dsimp only
  refine foldl_ok (fun _ _ ht1 => ?_) hs
  split
  · exact ht1
  · exact fillFloor_ok (updCtx_ok ht1)

theorem writeQown_ok {part word v} : OnSome id (s.writeQown part word v) := by
  unfold State.writeQown
  exact OnSome.bind (fun _ _ => OnSome.ite trivial (updCtx_ok hs))

theorem execQown_ok {part word value} : OnNext (execQown part word value s) := runEvent_ok hs (writeQown_ok hs)

theorem passQuad_ok {old heir gq} : (s.passQuad old heir gq).memoryOk = true := by
  unfold State.passQuad
  dsimp only
  refine ite_ok ?_ ?_
  · refine raiseFloors_ok ?_
    refine updCtx_ok ?_
    split
    · exact updCtx_ok hs
    · exact hs
  · refine updCtx_ok ?_
    split
    · exact updCtx_ok hs
    · exact hs

theorem handover_ok {gq} : OnSome id (s.handover gq) := by
  unfold State.handover
  dsimp only
  refine OnSome.bind (fun _ _ => ?_)
  refine OnSome.ite trivial ?_
  split
  · rename_i e1
    exact (clearQuads_ok hs).getError e1
  · rename_i e1
    exact passQuad_ok (cleanQuad_ok ((clearQuads_ok hs).get e1))

theorem execQuadrantHandover_ok {gquad} : OnNext (execQuadrantHandover gquad s) := runEvent_ok hs (handover_ok hs)

theorem freeContextWays_ok {part} : (s.freeContextWays part).memoryOk = true := by
  unfold State.freeContextWays
  exact same (releaseLines_ok hs)

theorem cleanFrame_ok {part f} : (s.cleanFrame part f).memoryOk = true :=
  ofMem (releaseLines_ok hs) (Mem.splice_wf _ _ _ _ (mem_ok (releaseLines_ok hs)) rfl)

theorem cleanWindow_ok {gone} : (s.cleanWindow gone).memoryOk = true := ofHw hs (filter_ok _ (hw_ok hs))

theorem destroyContext_ok {part} : OnSome id (s.destroyContext part) := by
  unfold State.destroyContext
  dsimp only
  refine OnSome.bind (fun _ _ => ?_)
  refine OnSome.ite trivial ?_
  split
  · rename_i e1
    exact (clearQuads_ok hs).getError e1
  · rename_i e1
    exact same (cleanWindow_ok (foldl_ok (fun _ _ ht1 => cleanFrame_ok ht1) (freeContextWays_ok (foldl_ok (fun _ _ ht1 =>
        cleanQuad_ok ht1) ((clearQuads_ok hs).get e1)))))

theorem execContextDestroy_ok {part} : OnNext (execContextDestroy part s) := runEvent_ok hs (destroyContext_ok hs)

theorem putReg_ok {part sn v} : (s.putReg part sn v).memoryOk = true := updCtx_ok hs

theorem writeSlway_ok {part g v} : (s.writeSlway part g v).memoryOk = true := by
  unfold State.writeSlway
  dsimp only
  split
  · exact hs
  · exact fillFloor_ok (putReg_ok hs)

theorem writeBwsh_ok {part n v} : (s.writeBwsh part n v).memoryOk = true := by
  unfold State.writeBwsh
  exact putReg_ok hs

theorem writeOxsh_ok {part v} : (s.writeOxsh part v).memoryOk = true := by
  unfold State.writeOxsh
  exact putReg_ok hs

theorem writeLq_ok {part q v} : (s.writeLq part q v).memoryOk = true := putReg_ok hs

theorem writeWindow_ok {part base size} : (s.writeWindow part base size).memoryOk = true := by
  unfold State.writeWindow
  split
  · exact hs
  · exact ite_ok (updCtx_ok (cleanWindow_ok hs)) hs

theorem assignFrame_ok {part f} : (s.assignFrame part f).memoryOk = true := ite_ok hs (updCtx_ok hs)

theorem releaseFrame_ok {part f} : OnSome id (s.releaseFrame part f) := OnSome.ite hs (OnSome.ite (askHolders_ok hs)
    (OnSome.ite trivial (updCtx_ok (cleanFrame_ok hs))))

theorem poolFrame_ok {part f} : (s.poolFrame part f).memoryOk = true := updCtx_ok hs

theorem onPolicy_ok {f} : (s.onPolicy f).memoryOk = true := same hs

theorem writeMgmt_ok {r v} : (s.writeMgmt r v).memoryOk = true := by
  unfold State.writeMgmt
  dsimp only
  split
  · exact ite_ok (setFn_ok hs) hs
  · exact ite_ok (setFn_ok hs) hs
  · exact ite_ok (setFn_ok hs) hs
  · exact ite_ok (writeSlway_ok hs) hs
  · exact ite_ok (writeBwsh_ok hs) hs
  · exact writeOxsh_ok hs
  · exact putReg_ok hs
  · exact ite_ok (writeLq_ok hs) hs
  · exact writeWindow_ok hs
  · exact writeWindow_ok hs
  · exact updCtx_ok hs
  · exact updCtx_ok hs
  · exact updCtx_ok hs
  · exact updCtx_ok hs
  · exact assignFrame_ok hs
  · exact hs
  · exact poolFrame_ok hs
  · exact updCtx_ok hs
  · exact updCtx_ok hs
  · exact updCtx_ok hs
  · exact ite_ok (same hs) hs
  · exact onPolicy_ok hs
  · exact onPolicy_ok hs
  · exact onPolicy_ok hs
  · exact onPolicy_ok hs
  · exact onPolicy_ok hs
  · exact ite_ok (onPolicy_ok hs) hs
  · exact updCtx_ok hs
  · exact same hs
  · exact same hs
  · exact updCtx_ok hs
  · exact hs

theorem mgmtWrite_ok {r v} : OnSome id (s.mgmtWrite r v) := by
  unfold State.mgmtWrite
  split
  · exact releaseFrame_ok hs
  · exact writeMgmt_ok hs

theorem execManagementRegisterWrite_ok {reg value} : OnNext (execManagementRegisterWrite reg value s) := runEvent_ok hs
    (mgmtWrite_ok hs)

theorem execFirmwareLoad_ok {image} : OnNext (execFirmwareLoad image s) := runEvent_ok hs (onPolicy_ok hs)

theorem mgmtReset_ok : s.mgmtReset.memoryOk = true := by
  unfold State.mgmtReset
  exact same (onPolicy_ok (demandAll_ok hs))

theorem execManagementReset_ok : OnNext (execManagementReset s) := runEvent_ok hs (mgmtReset_ok hs)

theorem attest_ok {fn nonce} : OnSome id (s.attest fn nonce) := by
  unfold State.attest
  exact OnSome.ite (reply_ok hs) trivial

theorem execAttestationRequest_ok {fn nonce} : OnNext (execAttestationRequest fn nonce s) := runEvent_ok hs (attest_ok hs)

theorem afterReset_ok {failed} : (s.afterReset failed).memoryOk = true := ofMem reset_ok (filter_ok _ (mem_ok hs))

theorem execReset_ok {failed} : OnNext (execReset failed s) := afterReset_ok hs

theorem limitTokens_ok {die count} : (s.limitTokens die count).memoryOk = true := by
  unfold State.limitTokens
  exact same hs

theorem execThermalLimit_ok {die count} : OnNext (execThermalLimit die count s) := runEvent_ok hs (OnSome.ite (limitTokens_ok
    hs) trivial)

theorem execCriticalLimit_ok : OnNext (execCriticalLimit s) := runEvent_ok hs (OnSome.ite trivial (same hs))

theorem execPowerDown_ok : OnNext (execPowerDown s) := by
  unfold execPowerDown
  exact runEvent_ok hs (OnSome.ite (same (afterReset_ok hs)) trivial)

/-! ### The loader -/

theorem tableFrame_ok {part} : OnSome (fun p => p.2) (s.tableFrame part) := by
  unfold State.tableFrame
  refine OnSome.bind fun _ _ => OnSome.map fun f _ => ?_
  exact updCtx_ok (ofMemHome (s := s) hs (Mem.splice_wf _ _ _ _ (mem_ok hs) rfl)
    fun h hh => home_ok hs h (List.mem_of_mem_filter hh))

theorem nextTable_ok {part at_} : OnSome (fun p => p.2) (s.nextTable part at_) := by
  unfold State.nextTable
  dsimp only
  split
  · exact OnSome.ite trivial hs
  · refine OnSome.map fun p e => ?_
    dsimp only
    exact commitBytes_ok _ _ _ ((tableFrame_ok hs).get e)

theorem rootTable_ok {part} : OnSome (fun p => p.2) (s.rootTable part) := by
  unfold State.rootTable
  exact OnSome.bind (fun _ _ => OnSome.ite hs (OnSome.map (fun ⟨_, _⟩ e1 => updCtx_ok ((tableFrame_ok hs).get e1))))

theorem mapPage_ok {part ia leaf} : OnSome id (s.mapPage part ia leaf) := by
  unfold State.mapPage
  refine OnSome.bind fun _ e => OnSome.bind fun _ e1 => OnSome.bind fun _ e2 => OnSome.map fun p e3 => ?_
  dsimp only [id_eq]
  exact commitBytes_ok _ _ _ ((nextTable_ok ((nextTable_ok ((nextTable_ok ((rootTable_ok hs).get e)).get e1)).get e2)).get e3)

theorem mapRegion_ok {part p ia a b} : OnSome id (s.mapRegion part p ia a b) := by
  induction a generalizing s b with
  | nil => exact hs
  | cons f l ih =>
    rw [State.mapRegion]
    refine OnSome.bind fun t e => ih ((mapPage_ok ?_).get e)
    exact ofMemHome hs (Mem.splice_wf _ _ _ _ (mem_ok hs) rfl) fun h hh => home_ok hs h (List.mem_of_mem_filter hh)

theorem fillRegion_ok {frames o a} : (s.fillRegion frames o a).memoryOk = true := by
  induction a generalizing s o with
  | nil => exact hs
  | cons y l ih => exact ih (ofMem hs (Mem.set_wf _ _ _ (mem_ok hs)))

theorem mapAll_ok {part a} : OnSome id (s.mapAll part a) := by
  induction a generalizing s with
  | nil => exact hs
  | cons y l ih =>
    obtain ⟨p, ia, fs⟩ := y
    exact OnSome.bind (fun _ e => ih ((mapRegion_ok hs).get e))

theorem placeBinary_ok {part f b} : OnSome id (s.placeBinary part f b) := by
  unfold State.placeBinary
  exact OnSome.bind (fun _ _ => OnSome.bind (fun ⟨_, _⟩ _ => OnSome.map (fun _ e2 => updCtx_ok (foldl_ok (fun _ ⟨_, _, _⟩ ht1
      => fillRegion_ok ht1) (foldl_ok (fun _ _ ht1 => fillRegion_ok ht1) ((mapAll_ok (updCtx_ok hs)).get e2))))))

theorem loadBinary_ok {part f req} : OnSome id (s.loadBinary part f req) := by
  unfold State.loadBinary
  refine OnSome.map (fun _ _ => ?_)
  split
  · rename_i e1
    exact reply_ok (OnSome.of (st := fun p => p.2) e1 (OnSome.bind (fun _ _ => OnSome.map (fun _ e3 => (placeBinary_ok hs).get
        e3))))
  · exact reply_ok hs

theorem execBinaryLoad_ok {part file req} : OnNext (execBinaryLoad part file req s) := runEvent_ok hs (loadBinary_ok hs)

theorem dropRegion_ok {part r} : (s.dropRegion part r).memoryOk = true := by
  unfold State.dropRegion
  dsimp only
  refine updCtx_ok ?_
  refine foldl_ok (fun _ _ ht1 => ?_) hs
  split
  · exact ht1
  · split
    · exact updCtx_ok (same (commitBytes_ok _ _ _ ht1))
    · exact ht1

theorem unloadBinary_ok {part image} : OnSome id (s.unloadBinary part image) := OnSome.bind (fun _ _ => OnSome.bind (fun _ _ =>
    OnSome.ite trivial (updCtx_ok (foldl_ok (fun _ _ ht1 => dropRegion_ok ht1) hs))))

theorem execBinaryUnload_ok {part image} : OnNext (execBinaryUnload part image s) := runEvent_ok hs (unloadBinary_ok hs)

/-! ### Exchange between lanes -/

theorem execLanex_ok {x} : OnNext (execLanex x s) := by
  unfold execLanex
  dsimp only
  refine laneSet_ok hs (fun _ _ => ?_)
  split
  · trivial
  · exact advance_ok (onFibres_ok (produce_ok hs))

theorem execPcol_ok {x} : OnNext (execPcol x s) := by
  unfold execPcol
  dsimp only
  refine laneSet_ok hs (fun _ _ => ?_)
  refine OnOk.ite ?_ (advance_ok (onFibres_ok hs))
  split
  · trivial
  · exact laneResult_ok hs

theorem execSr_ok {x} : OnNext (execSr x s) := by
  unfold execSr
  refine laneSet_ok hs (fun _ _ => ?_)
  split
  · trivial
  · exact advance_ok (onFibres_ok hs)

theorem execUsr_ok {x} : OnNext (execUsr x s) := by
  unfold execUsr
  refine uniSet_ok hs (fun _ => ?_)
  split
  · trivial
  · exact advance_ok hs
  · exact uniResult_ok (onFibre_ok hs)

theorem execElect_ok {x} : OnNext (execElect x s) := uniSet_ok hs (fun _ => advance_ok (onFibres_ok hs))

/-! ### The dispatch -/

theorem exec_ok {i} : OnNext (exec i s) := by
  cases i with
  | iadd _ => exact execIadd_ok hs
  | isub _ => exact execIsub_ok hs
  | imul _ => exact execImul_ok hs
  | imulh _ => exact execImulh_ok hs
  | imad _ => exact execImad_ok hs
  | iadd64 _ => exact execIadd64_ok hs
  | imin _ => exact execImin_ok hs
  | imax _ => exact execImax_ok hs
  | iabs _ => exact execIabs_ok hs
  | idiv _ => exact execIdiv_ok hs
  | irem _ => exact execIrem_ok hs
  | and _ => exact execAnd_ok hs
  | or _ => exact execOr_ok hs
  | xor _ => exact execXor_ok hs
  | andn _ => exact execAndn_ok hs
  | blut _ => exact execBlut_ok hs
  | shl _ => exact execShl_ok hs
  | shr _ => exact execShr_ok hs
  | sar _ => exact execSar_ok hs
  | rot _ => exact execRot_ok hs
  | bfx _ => exact execBfx_ok hs
  | bfi _ => exact execBfi_ok hs
  | popc _ => exact execPopc_ok hs
  | clz _ => exact execClz_ok hs
  | brev _ => exact execBrev_ok hs
  | lea _ => exact execLea_ok hs
  | bpick _ => exact execBpick_ok hs
  | idp4 _ => exact execIdp4_ok hs
  | mov _ => exact execMov_ok hs
  | movi _ => exact execMovi_ok hs
  | movhi _ => exact execMovhi_ok hs
  | sel _ => exact execSel_ok hs
  | lanex _ => exact execLanex_ok hs
  | pcol _ => exact execPcol_ok hs
  | sr _ => exact execSr_ok hs
  | ptov _ => exact execPtov_ok hs
  | vtop _ => exact execVtop_ok hs
  | urd _ => exact execUrd_ok hs
  | bra _ => exact execBra_ok hs
  | brx _ => exact execBrx_ok hs
  | call _ => exact execCall_ok hs
  | calli _ => exact execCalli_ok hs
  | ret _ => exact execRet_ok hs
  | fspawn _ => exact execFspawn_ok hs
  | fend _ => exact execFend_ok hs
  | rcv _ => exact execRcv_ok hs
  | icmp _ => exact execIcmp_ok hs
  | plut _ => exact execPlut_ok hs
  | fcmp _ => exact execFcmp_ok hs
  | hcmp _ => exact execHcmp_ok hs
  | bcmp _ => exact execBcmp_ok hs
  | fclass _ => exact execFclass_ok hs
  | fadd _ => exact execFadd_ok hs
  | fsub _ => exact execFsub_ok hs
  | fmul _ => exact execFmul_ok hs
  | ffma _ => exact execFfma_ok hs
  | fmin _ => exact execFmin_ok hs
  | fmax _ => exact execFmax_ok hs
  | fdiv _ => exact execFdiv_ok hs
  | fsqrt _ => exact execFsqrt_ok hs
  | frcp _ => exact execFrcp_ok hs
  | frsq _ => exact execFrsq_ok hs
  | fex2 _ => exact execFex2_ok hs
  | flg2 _ => exact execFlg2_ok hs
  | fsin _ => exact execFsin_ok hs
  | fcos _ => exact execFcos_ok hs
  | frnd _ => exact execFrnd_ok hs
  | fscale _ => exact execFscale_ok hs
  | fcpys _ => exact execFcpys_ok hs
  | hadd2 _ => exact execHadd2_ok hs
  | hmul2 _ => exact execHmul2_ok hs
  | hfma2 _ => exact execHfma2_ok hs
  | hmin2 _ => exact execHmin2_ok hs
  | hmax2 _ => exact execHmax2_ok hs
  | badd2 _ => exact execBadd2_ok hs
  | bmul2 _ => exact execBmul2_ok hs
  | bfma2 _ => exact execBfma2_ok hs
  | cvt _ => exact execCvt_ok hs
  | cvtp _ => exact execCvtp_ok hs
  | cvtq _ => exact execCvtq_ok hs
  | cvtx _ => exact execCvtx_ok hs
  | ld _ => exact execLd_ok hs
  | st _ => exact execSt_ok hs
  | lds _ => exact execLds_ok hs
  | sts _ => exact execSts_ok hs
  | atom _ => exact execAtom_ok hs
  | red _ => exact execRed_ok hs
  | cas _ => exact execCas_ok hs
  | qenq _ => exact execQenq_ok hs
  | qdeq _ => exact execQdeq_ok hs
  | sliceof _ => exact execSliceof_ok hs
  | homeof _ => exact execHomeof_ok hs
  | pref _ => exact execPref_ok hs
  | hld _ => exact execHld_ok hs
  | hst _ => exact execHst_ok hs
  | hrefPin _ => exact execHrefPin_ok hs
  | hrefUnpin _ => exact execHrefUnpin_ok hs
  | hrefCmp _ => exact execHrefCmp_ok hs
  | hrefIsnull _ => exact execHrefIsnull_ok hs
  | hrefMov _ => exact execHrefMov_ok hs
  | hrefFrom _ => exact execHrefFrom_ok hs
  | hrefTo _ => exact execHrefTo_ok hs
  | hnew _ => exact execHnew_ok hs
  | uadd _ => exact execUadd_ok hs
  | usub _ => exact execUsub_ok hs
  | umul _ => exact execUmul_ok hs
  | umad _ => exact execUmad_ok hs
  | umin _ => exact execUmin_ok hs
  | umax _ => exact execUmax_ok hs
  | uand _ => exact execUand_ok hs
  | uor _ => exact execUor_ok hs
  | uxor _ => exact execUxor_ok hs
  | ushl _ => exact execUshl_ok hs
  | ushr _ => exact execUshr_ok hs
  | usar _ => exact execUsar_ok hs
  | umov _ => exact execUmov_ok hs
  | umovi _ => exact execUmovi_ok hs
  | umovhi _ => exact execUmovhi_ok hs
  | usel _ => exact execUsel_ok hs
  | ulea _ => exact execUlea_ok hs
  | ucmp _ => exact execUcmp_ok hs
  | uplut _ => exact execUplut_ok hs
  | usr _ => exact execUsr_ok hs
  | ufrom _ => exact execUfrom_ok hs
  | uld _ => exact execUld_ok hs
  | ust _ => exact execUst_ok hs
  | ufadd _ => exact execUfadd_ok hs
  | ufmul _ => exact execUfmul_ok hs
  | uffma _ => exact execUffma_ok hs
  | ucvt _ => exact execUcvt_ok hs
  | ubra _ => exact execUbra_ok hs
  | elect _ => exact execElect_ok hs
  | sleep _ => exact execSleep_ok hs
  | wake _ => exact execWake_ok hs
  | bar _ => exact execBar_ok hs
  | tbar _ => exact execTbar_ok hs
  | rngwaitF _ => exact execRngwaitF_ok hs
  | rngwaitE _ => exact execRngwaitE_ok hs
  | rngsigF _ => exact execRngsigF_ok hs
  | rngsigE _ => exact execRngsigE_ok hs
  | yield _ => exact execYield_ok hs
  | launch _ => exact execLaunch_ok hs
  | done _ => exact execDone_ok hs
  | nop _ => exact execNop_ok hs
  | bincfg _ => exact execBincfg_ok hs
  | fence _ => exact execFence_ok hs
  | cmaintClean _ => exact execCmaintClean_ok hs
  | cmaintInvalidate _ => exact execCmaintInvalidate_ok hs
  | cmaintCleanInvalidate _ => exact execCmaintCleanInvalidate_ok hs
  | cmaintDemote _ => exact execCmaintDemote_ok hs
  | cpy _ => exact execCpy_ok hs
  | cpydrain _ => exact execCpydrain_ok hs
  | nbinit _ => exact execNbinit_ok hs
  | nbarr _ => exact execNbarr_ok hs
  | nbwait _ => exact execNbwait_ok hs
  | qwait _ => exact execQwait_ok hs
  | coll _ => exact execColl_ok hs
  | setways _ => exact execSetways_ok hs
  | psnapOpen _ => exact execPsnapOpen_ok hs
  | psnapClose _ => exact execPsnapClose_ok hs
  | psnapBegin _ => exact execPsnapBegin_ok hs
  | psnapPublish _ => exact execPsnapPublish_ok hs
  | phintHot _ => exact execPhintHot_ok hs
  | phintCold _ => exact execPhintCold_ok hs
  | hreloc _ => exact execHreloc_ok hs
  | bld _ => exact execBld_ok hs
  | sld _ => exact execSld_ok hs
  | mma _ => exact execMma_ok hs
  | mmai _ => exact execMmai_ok hs
  | zzero _ => exact execZzero_ok hs
  | zld _ => exact execZld_ok hs
  | zst _ => exact execZst_ok hs
  | zrd _ => exact execZrd_ok hs
  | zwr _ => exact execZwr_ok hs
  | zpin _ => exact execZpin_ok hs
  | zatt _ => exact execZatt_ok hs
  | zdet _ => exact execZdet_ok hs
  | zrel _ => exact execZrel_ok hs
  | gdr _ => exact execGdr_ok hs
  | gdrCq _ => exact execGdrCq_ok hs
  | gqr _ => exact execGqr_ok hs
  | gqrCq _ => exact execGqrCq_ok hs
  | zspill _ => exact execZspill_ok hs
  | zinfoT _ => exact execZinfoT_ok hs
  | zinfoH _ => exact execZinfoH_ok hs
  | trap _ => exact execTrap_ok hs
  | bpt _ => exact execBpt_ok hs
  | ckpt _ => exact execCkpt_ok hs
  | eret _ => exact execEret_ok hs
  | rdsys _ => exact execRdsys_ok hs
  | wrsys _ => exact execWrsys_ok hs
  | wrpkr _ => exact execWrpkr_ok hs
  | halt _ => exact execHalt_ok hs
  | pass _ _ => exact execPass_ok hs
  | drain _ _ => exact execDrain_ok hs
  | fill _ _ _ => exact execFill_ok hs
  | evict _ _ => exact execEvict_ok hs
  | writeBack _ => exact execWriteBack_ok hs
  | lineWrite _ => exact execLineWrite_ok hs
  | engineCompletion _ => exact execEngineCompletion_ok hs
  | absorbOrAppend _ => exact execAbsorbOrAppend_ok hs
  | transmit _ => exact execTransmit_ok hs
  | reply _ => exact execReply_ok hs
  | claim _ => exact execClaim_ok hs
  | hold _ => exact execHold_ok hs
  | copyLine _ => exact execCopyLine_ok hs
  | registerProducerCompletion _ _ _ => exact execRegisterProducerCompletion_ok hs
  | atomicReply _ => exact execAtomicReply_ok hs
  | checkpoint _ _ => exact execCheckpoint_ok hs
  | trapDelivery _ _ => exact execTrapDelivery_ok hs
  | trapRecordEnqueueRetry _ _ => exact execTrapRecordEnqueueRetry_ok hs
  | intervalTimerExpiry _ _ => exact execIntervalTimerExpiry_ok hs
  | dispatch _ => exact execDispatch_ok hs
  | priorityAging _ _ => exact execPriorityAging_ok hs
  | teamReservation _ => exact execTeamReservation_ok hs
  | crewEnd _ _ => exact execCrewEnd_ok hs
  | binTimerExpiry _ _ _ => exact execBinTimerExpiry_ok hs
  | binFire _ _ _ => exact execBinFire_ok hs
  | rcvTimeout _ => exact execRcvTimeout_ok hs
  | sleepTimeout _ => exact execSleepTimeout_ok hs
  | qwaitTimeout _ => exact execQwaitTimeout_ok hs
  | qwaitReread _ => exact execQwaitReread_ok hs
  | yieldExpiry _ => exact execYieldExpiry_ok hs
  | powerTokenPass _ _ => exact execPowerTokenPass_ok hs
  | matrixUnitExecute _ => exact execMatrixUnitExecute_ok hs
  | collTriggerRead _ => exact execCollTriggerRead_ok hs
  | collStep _ _ => exact execCollStep_ok hs
  | collCompletion _ => exact execCollCompletion_ok hs
  | collFailure _ _ => exact execCollFailure_ok hs
  | quantumExpiry _ => exact execQuantumExpiry_ok hs
  | preemptionRequest _ => exact execPreemptionRequest_ok hs
  | lodgeState _ => exact execLodgeState_ok hs
  | partitionResume _ => exact execPartitionResume_ok hs
  | debugHalt _ _ => exact execDebugHalt_ok hs
  | singleStep _ _ => exact execSingleStep_ok hs
  | haltRelease _ _ => exact execHaltRelease_ok hs
  | migrationLineCopy _ _ _ => exact execMigrationLineCopy_ok hs
  | migrationCountWindowEnd => exact execMigrationCountWindowEnd_ok hs
  | capacityTierExpansion _ _ => exact execCapacityTierExpansion_ok hs
  | sectorRebuild _ _ => exact execSectorRebuild_ok hs
  | sramUncorrectableError _ => exact execSramUncorrectableError_ok hs
  | scrubPassStart _ => exact execScrubPassStart_ok hs
  | scrubRead _ _ => exact execScrubRead_ok hs
  | scrubEscalationCheck _ => exact execScrubEscalationCheck_ok hs
  | rowActivationWindowEnd => exact execRowActivationWindowEnd_ok hs
  | wayMove _ _ => exact execWayMove_ok hs
  | linkDown _ => exact execLinkDown_ok hs
  | completionTimeout _ => exact execCompletionTimeout_ok hs
  | lostclr _ => exact execLostclr_ok hs
  | xlinv _ => exact execXlinv_ok hs
  | hostWindowAccess _ _ _ => exact execHostWindowAccess_ok hs
  | bar4Access _ _ _ => exact execBar4Access_ok hs
  | ltail _ _ => exact execLtail_ok hs
  | launchSlotProcess _ => exact execLaunchSlotProcess_ok hs
  | flGo _ => exact execFlGo_ok hs
  | flushComplete _ => exact execFlushComplete_ok hs
  | featAccept _ _ => exact execFeatAccept_ok hs
  | functionReset _ => exact execFunctionReset_ok hs
  | contextCreate _ => exact execContextCreate_ok hs
  | contextDestroy _ => exact execContextDestroy_ok hs
  | qown _ _ _ => exact execQown_ok hs
  | quadrantHandover _ => exact execQuadrantHandover_ok hs
  | managementRegisterWrite _ _ => exact execManagementRegisterWrite_ok hs
  | firmwareLoad _ => exact execFirmwareLoad_ok hs
  | managementReset => exact execManagementReset_ok hs
  | attestationRequest _ _ => exact execAttestationRequest_ok hs
  | binaryLoad _ _ _ => exact execBinaryLoad_ok hs
  | binaryUnload _ _ => exact execBinaryUnload_ok hs
  | reset _ => exact execReset_ok hs
  | thermalLimit _ _ => exact execThermalLimit_ok hs
  | criticalLimit => exact execCriticalLimit_ok hs
  | powerDown => exact execPowerDown_ok hs
  | linkRetrained _ => exact execLinkRetrained_ok hs
  | writeAcceptedByLink _ => exact execWriteAcceptedByLink_ok hs

/-! ### Issuing -/

theorem nextInstr_ok {i} : OnOk (fun p => p.1) (s.nextInstr i) := by
  unfold State.nextInstr
  split
  · exact OnOk.ite hs (fetch_ok hs)
  · exact fetch_ok hs

theorem keepInstr_ok {i ins} : (s.keepInstr i ins).memoryOk = true := ite_ok (onBatch_ok hs) hs

theorem poisonFirst_ok {i lanes o} (ho : OnNext o) : OnNext (s.poisonFirst i lanes o) := by
  unfold State.poisonFirst
  dsimp only
  split
  · split
    · exact OnNext.ite ho (raise_ok hs)
    · exact raise_ok hs
  · exact ho

theorem attempt_ok {b} : OnNext (s.attempt b) := by
  unfold State.attempt
  dsimp only
  split
  · exact same hs
  · split
    · exact raise_ok (same hs)
    · rename_i e1
      refine OnNext.ite ?_ ?_
      · split
        · exact stopped_ok ((nextInstr_ok (same hs)).get e1)
        · rename_i e2
          exact onNext_ok (exec_ok ((reserveUndo_ok ((nextInstr_ok (same hs)).get e1)).get e2)) (fun _ ht1 => ite_ok ht1
              (keepInstr_ok (chargeUndo_ok ht1)))
      · refine poisonFirst_ok ((nextInstr_ok (same hs)).get e1) ?_
        split
        · exact stopped_ok ((nextInstr_ok (same hs)).get e1)
        · rename_i e2
          exact onNext_ok (exec_ok ((reserveUndo_ok ((nextInstr_ok (same hs)).get e1)).get e2)) (fun _ ht1 => ite_ok ht1
              (keepInstr_ok (chargeUndo_ok ht1)))

theorem tryIssue_ok {b} : OnNext (s.tryIssue b) := onNext_ok (attempt_ok hs) (fun _ ht1 => expandFirst_ok hs ht1)

theorem setSelector_ok {x} : (s.setSelector x).memoryOk = true := same hs

theorem issueBatch_ok {b uni others} : OnNext (s.issueBatch b uni others) := by
  unfold State.issueBatch
  refine onNext_ok (tryIssue_ok hs) (fun _ ht1 => ?_)
  refine ite_ok ht1 ?_
  split
  · exact ht1
  · exact closeStep_ok (openStep_ok (setSelector_ok ht1))

theorem issueStep_ok {b} : OnNext (s.issueStep b) := by
  unfold State.issueStep
  dsimp only
  refine onNext_ok (tryIssue_ok hs) (fun _ ht1 => ?_)
  refine ite_ok ht1 ?_
  split
  · exact ht1
  · exact closeStep_ok (openStep_ok (setSelector_ok ht1))

theorem issue_ok {b} : OnNext (s.issue b) := by
  unfold State.issue
  dsimp only
  split
  · exact same hs
  · exact OnNext.ite (OnNext.ite (onNext_ok (tryIssue_ok hs) (fun _ ht1 => ite_ok ht1 (closeStep_ok ht1))) (same hs))
        (OnNext.ite (OnNext.ite (issueStep_ok hs) (same hs)) (OnNext.ite (issueBatch_ok hs) (same hs)))

theorem count_ok : s.count.memoryOk = true := by
  unfold State.count
  exact same (watchQueues_ok hs)

end

/-! ### Time and what it brings (R87, R153, R252, R274, R278) -/

/-- What each of some timers does, where its time has come, keeps the form. -/
def AllTimed (l : List (State → Option State)) : Prop := ∀ f ∈ l, ∀ s : State, s.memoryOk = true → OnSome id (f s)

/-- Each of some events keeps the form. -/
def AllDue (l : List Due) : Prop := ∀ e ∈ l, ∀ s : State, s.memoryOk = true → OnNext (e s)

section
variable {α : Type}

theorem AllTimed.flatMap {l : List α} {f : α → List (State → Option State)} (h : ∀ a, AllTimed (f a)) : AllTimed (l.flatMap f)
    :=
  List.forall_mem_flatMap.mpr fun a _ => h a
theorem AllTimed.map {l : List α} {f : α → State → Option State} (h : ∀ a, ∀ s : State, s.memoryOk = true → OnSome id (f a s)) :
    AllTimed (l.map f) := List.forall_mem_map.mpr fun a _ => h a
theorem AllDue.flatMap {l : List α} {f : α → List Due} (h : ∀ a, AllDue (f a)) : AllDue (l.flatMap f) :=
  List.forall_mem_flatMap.mpr fun a _ => h a
theorem AllDue.map {l : List α} {f : α → Due} (h : ∀ a, ∀ s : State, s.memoryOk = true → OnNext (f a s)) : AllDue (l.map f) :=
  List.forall_mem_map.mpr fun a _ => h a
theorem AllTimed.append {l m : List (State → Option State)} (h : AllTimed l) (g : AllTimed m) : AllTimed (l ++ m) :=
  List.forall_mem_append.mpr ⟨h, g⟩
theorem AllDue.append {l m : List Due} (h : AllDue l) (g : AllDue m) : AllDue (l ++ m) := List.forall_mem_append.mpr ⟨h, g⟩
theorem AllTimed.nil : AllTimed [] := List.forall_mem_nil _
theorem AllTimed.cons {f : State → Option State} {l : List (State → Option State)}
    (h : ∀ s : State, s.memoryOk = true → OnSome id (f s)) (g : AllTimed l) : AllTimed (f :: l) := List.forall_mem_cons.mpr ⟨h,
        g⟩
theorem AllDue.nil : AllDue [] := List.forall_mem_nil _
theorem AllDue.cons {e : Due} {l : List Due} (h : ∀ s : State, s.memoryOk = true → OnNext (e s)) (g : AllDue l) : AllDue (e ::
    l) :=
  List.forall_mem_cons.mpr ⟨h, g⟩

end

theorem atEnd_timed (s : State) : AllTimed s.atEnd :=
  .flatMap fun _ => .cons (fun _ h => rcvTimeout_ok h) (.cons (fun _ h => sleepTimeout_ok h) (.cons (fun _ h => qwaitTimeout_ok
      h) .nil))

theorem atStart_timed (s : State) : AllTimed s.atStart := by
  unfold State.atStart
  refine .append (.append (.append ?_ ?_) ?_) ?_
  · exact .cons (fun _ h => rowWindowEnd_ok h) (.cons (fun _ h => hitWindowEnd_ok h) .nil)
  · split
    · exact .map fun _ _ h => wayMove_ok h
    · exact .nil
  · exact .flatMap fun _ => .cons (fun _ h => yieldExpiry_ok h) (.cons (fun _ h => qwaitReread_ok h) .nil)
  · exact .map fun _ _ h => OnSome.bind fun _ _ => triggerStep_ok h

theorem each_ok {s : State} {l : List (State → Option State)} (hs : s.memoryOk = true) (hl : AllTimed l) : (s.each l).memoryOk
    = true := by
  induction l generalizing s with
  | nil => exact hs
  | cons f l ih =>
    exact ih (getD_ok (hl f List.mem_cons_self s hs) hs) fun g hg => hl g (List.mem_cons_of_mem f hg)

theorem firstBin_ok {s : State} (hs : s.memoryOk = true) : OnSome id s.firstBin :=
  OnSome.findSome fun _ => OnSome.findSome fun _ => binFire_ok hs

theorem fireBins_ok {s : State} {n : Nat} (hs : s.memoryOk = true) : (s.fireBins n).memoryOk = true := by
  induction n generalizing s with
  | zero => exact hs
  | succ n ih =>
    rw [State.fireBins]
    split
    · exact hs
    · rename_i e
      exact ih ((firstBin_ok hs).get e)

theorem leave_ok {s : State} (hs : s.memoryOk = true) : s.leave.memoryOk = true := fireBins_ok (each_ok hs (atEnd_timed s))

theorem tick_ok {s : State} (hs : s.memoryOk = true) : s.tick.memoryOk = true :=
  each_ok (count_ok (leave_ok hs)) (atStart_timed _)

/-! ### Steps that no schedule names -/

theorem crewEvents_due (k : Crew) : AllDue k.events := by
  unfold Crew.events
  refine .append (.append (.append (.append (.append ?_ ?_) ?_) ?_) ?_) ?_
  · exact .cons (fun _ h => execTrapDelivery_ok h) (.cons (fun _ h => execCheckpoint_ok h)
      (.cons (fun _ h => execTrapRecordEnqueueRetry_ok h) .nil))
  · exact .map fun _ _ h => execRegisterProducerCompletion_ok h
  · exact .cons (fun _ h => execCrewEnd_ok h) .nil
  · exact .map fun _ _ h => execBinFire_ok h
  · refine .flatMap fun f => .flatMap fun b => ?_
    split
    · exact .cons (fun _ h => execAtomicReply_ok h) .nil
    · exact .nil
  · exact .cons (fun _ h => execIntervalTimerExpiry_ok h) .nil

theorem contextEvents_due (c : Context) : AllDue c.events := by
  unfold Context.events
  refine .append (.append (.append (.append (.append (.append ?_ ?_) ?_) ?_) ?_) ?_) ?_
  · exact .cons (fun _ h => execXlinv_ok h) (.cons (fun _ h => execQuantumExpiry_ok h) (.cons (fun _ h => execLodgeState_ok h)
        .nil))
  · split
    · exact .cons (fun _ h => execPartitionResume_ok h) .nil
    · exact .nil
  · exact .flatMap fun _ => .cons (fun _ h => execTrapRecordEnqueueRetry_ok h) (.cons (fun _ h => execCrewEnd_ok h) .nil)
  · exact .map fun _ _ h => execQuadrantHandover_ok h
  · exact .cons (fun _ h => execDispatch_ok h) .nil
  · exact .map fun _ _ h => execPriorityAging_ok h
  · split
    · exact .nil
    · exact .cons (fun _ h => execTeamReservation_ok h) .nil

theorem engineEvents_due (s : State) (e : Engine) : AllDue (Engine.events s e) := by
  unfold Engine.events
  split
  · exact .cons (fun _ h => execEngineCompletion_ok h) (.cons (fun _ h => execLineWrite_ok h) .nil)
  · exact .cons (fun _ h => execEngineCompletion_ok h) (.cons (fun _ h => execLineWrite_ok h) .nil)
  · exact .cons (fun _ h => execEngineCompletion_ok h) (.cons (fun _ h => execClaim_ok h) (.cons (fun _ h => execHold_ok h)
      (.cons (fun _ h => execCopyLine_ok h) .nil)))
  · exact .append (.append (.cons (fun _ h => execCollCompletion_ok h) (.cons (fun _ h => execCollTriggerRead_ok h) .nil))
      (.map fun _ _ h => execCollStep_ok h)) (.cons (fun _ h => execCollStep_ok h) .nil)
  · exact .cons (fun _ h => execMigrationLineCopy_ok h) .nil

theorem sideEvents_due (s : State) : AllDue s.sideEvents := by
  unfold State.sideEvents
  refine .append (.append (.append (.append (.append (.append (.append (.append (.append (.append ?_ ?_) ?_) ?_) ?_) ?_) ?_)
      ?_) ?_) ?_) ?_
  · exact .map fun _ _ h => execPass_ok h
  · exact .flatMap fun _ => .map fun _ _ h => execDrain_ok h
  · exact .map fun _ _ h => execReply_ok h
  · exact .map fun _ _ h => execAbsorbOrAppend_ok h
  · exact .map fun _ _ h => execTransmit_ok h
  · exact .map fun _ _ h => execWriteAcceptedByLink_ok h
  · exact .map fun _ _ h => execMatrixUnitExecute_ok h
  · exact .flatMap fun _ => .cons (fun _ h => execCapacityTierExpansion_ok h) (.cons (fun _ h => execMigrationLineCopy_ok h)
        .nil)
  · exact .map fun _ _ h => execBar4Access_ok h
  · exact .flatMap fun _ => .cons (fun _ h => execLaunchSlotProcess_ok h) (.cons (fun _ h => execFlushComplete_ok h) .nil)
  · exact .cons (fun _ h => execPowerDown_ok h) .nil

theorem dueEvents_due (s : State) : AllDue s.dueEvents :=
  .append (.append (.append (.flatMap crewEvents_due) (sideEvents_due s)) (.flatMap (engineEvents_due s))) (.flatMap
      contextEvents_due)

theorem tokenEvents_due (s : State) : AllDue s.tokenEvents := by
  unfold State.tokenEvents
  split
  · exact .map fun _ _ h => execPowerTokenPass_ok h
  · exact .nil

section
variable {s : State} (hs : s.memoryOk = true)
include hs

theorem firstEvent_ok {l : List Due} (hl : AllDue l) : OnSome id (firstEvent s l) := by
  induction l with
  | nil => trivial
  | cons e r ih =>
    rw [firstEvent]
    split
    · rename_i h
      exact (movedTo_ok (onNext_ok (hl e List.mem_cons_self s hs) fun _ ht => expandFirst_ok hs ht)).get h
    · exact ih fun d hd => hl d (List.mem_cons_of_mem e hd)

theorem goOn_ok : OnSome id s.goOn := OnSome.findSome fun _ => movedTo_ok (issue_ok hs)

theorem autoStep_ok : OnNext s.autoStep := by
  unfold State.autoStep
  split
  · rename_i e
    exact (firstEvent_ok hs (dueEvents_due s)).get e
  · split
    · rename_i e
      exact (goOn_ok hs).get e
    · split
      · rename_i e
        exact (firstEvent_ok hs (tokenEvents_due s)).get e
      · exact tick_ok hs

/-! ### Steps that a schedule names -/

theorem picked_ok {p} : OnNext (s.picked p) := by
  unfold State.picked
  split
  · exact issue_ok hs
  · exact OnNext.ite (same hs) (onNext_ok (onNext_ok (exec_ok hs) fun _ ht => expandFirst_ok hs ht) fun _ ht => ite_ok (tick_ok
        ht) ht)

theorem chosen_ok {c} : OnNext (s.chosen c) := by
  unfold State.chosen
  dsimp only
  split
  · rename_i e
    exact same (OnSome.of (st := id) e (OnSome.ite (goOn_ok hs) trivial))
  · exact OnNext.ite (picked_ok hs) (same (tick_ok hs))

theorem advanceBy_ok : OnNext s.advanceBy := by
  unfold State.advanceBy
  dsimp only
  split
  · exact chosen_ok (same hs)
  · exact autoStep_ok (same hs)

theorem step_ok : OnNext (step s) := OnNext.ite trivial (advanceBy_ok hs)

end

/-- Settles O60: every operation of the model, from the write of one byte to a step of the schedule, keeps the form (R91). -/
theorem memoryKeepsItsForm : Obligations.MemoryKeepsItsForm := fun _ _ hs h => (step_ok hs).get h

end Sys2Proof.MemoryForm

/-! PROOF. Loads, stores, fences, cache maintenance and way masks complete (R91-R125). -/

namespace Sys2Proof.Accesses
open Sys2Proof Sys2Proof.Machine Sys2Proof.Claims

section
variable {s : State} {i : Iss} {x : Form}

/-! ### Addresses and checkpoints -/

theorem checkVa_ok {a : Access} {size va : Nat} {l : Loc} (h0 : va % size = 0)
    (ht : s.translate i.crew.part i.crew.level a va = .ok l) : checkVa s i a size va = .ok l := by
  rw [checkVa, if_neg (not_not.2 h0), ht]; rfl

theorem srcLoc_ok {a : Access} {f : Fibre} {l : Loc} (h : Reaches s i x a f l) : srcLoc s i x a f = .ok l := by
  obtain ⟨hr, h0, ht⟩ := h
  rw [pairReadable, Bool.and_eq_true] at hr
  rw [srcLoc, Results.srcA64_ok hr.1 hr.2, Chk.ok_bind]
  exact checkVa_ok h0 ht

theorem takeCkpt_ready (h : s.ckptReady i.crew = true) : takeCkpt s i = .ok (s.checkpoint i.ref.core i.ref.slot) := by
  rw [takeCkpt, if_pos h]

theorem closeFirst_ok {c : Bool} (h : canClose s i c) : closeFirst s i c = .ok (afterClose s i c) := by
  cases c with
  | false => rfl
  | true => exact takeCkpt_ready (h rfl)

/-- Of one fibre with a value, that value. -/
theorem withFibres_single {α : Type} (f : Fibre) (v : α) : withFibres [f] [(f.lane, v)] = [(f, v)] := by
  simp [withFibres]

theorem parts_single {α : Type} {f : Fibre} (v : Fibre → α) (h : i.takers x = [f]) : parts i x v = [(f, v f)] := by
  rw [parts, h]
  exact withFibres_single f (v f)

/-- Where no checkpoint came between, the batch is found as it was. -/
theorem again_of_issues (h : Issues s i) : s.again i = i := by
  rw [State.again, iss_find h.found]; rfl

theorem tlbLeaf_eq (s : State) (part : Nat) (l : Loc) : s.tlbLeaf part l = { s with tlb := (s.tlbLeaf part l).tlb } := by
  unfold State.tlbLeaf
  repeat' split
  all_goals rfl

theorem countHit_eq (s : State) (part : Nat) (l : Loc) : s.countHit part l = { s with hits := (s.countHit part l).hits } := by
  unfold State.countHit
  extract_lets far ct
  split <;> rfl

/-- An access that passes its checks leaves a trace in the translation cache and in its page's count alone. -/
theorem cacheLeaf_eq (s : State) (part : Nat) (l : Loc) :
    s.cacheLeaf part l = { s with tlb := (s.cacheLeaf part l).tlb, hits := (s.cacheLeaf part l).hits } := by
  unfold State.cacheLeaf
  rw [countHit_eq, tlbLeaf_eq]

end

/-! ### Stores -/

section
variable {s : State} {i : Iss} {x : Form}

/-- What a store answers with its lanes' bytes. -/
def storeOut (s : State) (i : Iss) (x : Form) (ss : List (Fibre × Loc × List Byte)) : Out State :=
  match storeRun s i x ss with
  | .ok t => .next t
  | .error e => .next (s.stopped i e)

theorem storeOut_of_ok {ss : List (Fibre × Loc × List Byte)} {t : State} (h : storeRun s i x ss = .ok t) :
    storeOut s i x ss = .next t := by rw [storeOut, h]

theorem storeOut_answers (ss : List (Fibre × Loc × List Byte)) : StoreAnswers (storeOut s i x ss) s i x ss := by
  refine ⟨fun h0 ho hc s2 h2 => storeOut_of_ok ?_, fun h0 ho hr => ⟨fun hw => storeOut_of_ok ?_, fun hw => storeOut_of_ok ?_⟩,
    fun h0 hd s2 h2 => storeOut_of_ok ?_⟩
  · rw [storeRun, if_neg (not_not.2 h0)]
    simp only [beq_eq_false_iff_ne.2 ho, Bool.false_or, closeFirst_ok hc, Bool.not_false, if_true, h2]
  · rw [storeRun, if_neg (not_not.2 h0)]
    simp only [ho, beq_self_eq_true, Bool.true_or, closeFirst, if_true, takeCkpt_ready hr, Bool.not_true, Bool.false_eq_true, if_false, hw]
  · rw [storeRun, if_neg (not_not.2 h0)]
    simp only [ho, beq_self_eq_true, Bool.true_or, closeFirst, if_true, takeCkpt_ready hr, Bool.not_true, Bool.false_eq_true, if_false, hw]
  · rw [storeRun, if_pos h0]
    simp only [hd, if_true, h2]

/-- A store whose addresses and values can be read runs with them. -/
theorem st_runs (h : LaneRuns s i x) (loc : Fibre → Loc)
    (hr : ∀ f ∈ i.takers x, Reaches s i x .store f (loc f) ∧ ∀ n ∈ regPair x.bn (x.w == 1), f.readable n = true) :
    exec (.st x) s = storeOut s i x ((parts i x fun f => (loc f, f.value x.bn (x.w == 1))).map fun p =>
      (p.1, p.2.1, leBytes x.size p.2.2.toNat)) := by
  rw [exec_st, execSt, laneSet_eq h, checkAll_ok i _ (fun f => (loc f, f.value x.bn (x.w == 1))) fun f hf => by
    rw [srcLoc_ok (hr f hf).1, readWide_ok _ _ (hr f hf).2]; rfl]
  rfl

theorem ust_runs {f : Fibre} {l : Loc} (h : UniRuns s i x .any) (hl : i.lead = some f)
    (hk : i.free [(x.an, true), (x.bn, x.w == 1)] = true) (h0 : memVa x x.size (i.flock.kpair x.an) % x.size = 0)
    (ht : s.translate i.crew.part i.crew.level .store (memVa x x.size (i.flock.kpair x.an)) = .ok l) :
    exec (.ust x) s = storeOut s i x
      [(f, l, leBytes x.size (if x.w = 1 then (i.flock.kpair x.bn).toNat else (i.flock.kreg x.bn).toNat))] := by
  rw [exec_ust, execUst, uniSet_eq h, kFree_ok hk, hl]
  simp only [Option.toList_some]
  rw [checkAll_ok i _ (fun _ => l) fun _ _ => checkVa_ok h0 ht]
  simp only [List.map_cons, List.map_nil, withFibres_single]
  rfl

end

/-- Settles O14: the checks of a store give its lanes' places and bytes, and the run of those is `StoreAnswers`. -/
theorem storesComplete : Obligations.StoresComplete := by
  unfold Obligations.StoresComplete
  refine ⟨fun s i x loc h hr => ?_, fun s i x f l h hl hk h0 ht => ?_⟩
  · rw [st_runs h loc hr]
    exact storeOut_answers _
  · rw [ust_runs h hl hk h0 ht]
    exact storeOut_answers _

section
variable {s : State} {i : Iss} {x : Form}

theorem size_le (x : Form) : x.size ≤ 8 := by
  unfold Form.size widthBytes
  split <;> omega

/-- One lane's bytes never cover a sector. -/
theorem coversSector_single {f : Fibre} {l : Loc} {bs : List Byte} (h : bs.length ≤ 8) (sec : Nat) :
    coversSector [(f, l, bs)] sec = false := by
  rw [Bool.eq_false_iff]
  intro hc
  simp only [coversSector, List.all_eq_true, List.mem_range, List.any_cons, List.any_nil, Bool.or_false, Bool.and_eq_true,
    decide_eq_true_eq] at hc
  have hfirst := (hc 0 (by omega)).1
  have hlast := (hc 63 (by omega)).2
  omega

/-- A plain store of a line of class DEV or HEAP outside HOME=11 pages puts one entry into SB(f) (E1). -/
theorem storeOne_buffers {f : Fibre} {l : Loc} (hc : l.cls = .dev ∨ l.cls = .heap) (hh : l.home ≠ 3) (bs : List Byte)
    (clears : Bool) (hint : Hint) (tag : Nat) : s.storeOne i f l bs false clears hint tag =
      some { s.cacheLeaf i.crew.part l with
        sb := (s.cacheLeaf i.crew.part l).sb ++ [laneEntry s i f l (.store bs false clears) hint tag] } := by
  have hd : (laneEntry s i f l (.store bs false clears) hint tag).direct = false := beq_eq_false_iff_ne.2 hh
  unfold State.storeOne
  split
  · next h => rw [h] at hc; simp at hc
  · next h => rw [h] at hc; simp at hc
  · simp only [hd, Bool.false_and, Bool.false_eq_true, if_false]

theorem closes_far {l : Loc} (hc : l.cls = .dev ∨ l.cls = .heap) (store : Bool) : l.closes store = false := by
  unfold Loc.closes
  rcases hc with hc | hc <;> rw [hc]

end

/-- Settles O15: E1 of one entry, whose translation leaves its trace in the translation cache and the page's count alone. -/
theorem plainStoreBuffersItsBytes : Obligations.PlainStoreBuffersItsBytes := by
  unfold Obligations.PlainStoreBuffersItsBytes
  intro s i x f l h h0 hf ho hc hh hr hv
  have hrun := st_runs h (fun _ => l) (by rw [hf]; exact List.forall_mem_singleton.2 ⟨hr, hv⟩)
  rw [parts_single _ hf] at hrun
  have hb : (leBytes x.size (f.value x.bn (x.w == 1)).toNat).length ≤ 8 := by rw [Management.length_leBytes]; exact size_le x
  have hout := (storeOut_answers (s := s) (i := i) (x := x) [(f, l, leBytes x.size (f.value x.bn (x.w == 1)).toNat)]).1 h0 ho
  simp only [List.map_cons, List.map_nil, List.any_cons, List.any_nil, closes_far hc, Bool.or_false, afterClose,
    Bool.false_eq_true, if_false, again_of_issues h.toIssues, canClose, false_implies, forall_const, State.storeAll,
    coversSector_single hb, storeOne_buffers hc hh, Option.some.injEq, forall_eq'] at hout
  rw [hrun]
  refine ⟨_, laneEntry s i f l (.store (leBytes x.size (f.value x.bn (x.w == 1)).toNat) false false) x.mc.hint s.nextTag,
    hout, ?_⟩
  rw [cacheLeaf_eq]
  exact ⟨rfl, rfl, rfl, rfl, rfl, rfl, fun _ _ => rfl, rfl, onFlock_others _ i _⟩

/-! ### A fill of a home slice -/

section
variable {s : State}

/-- What a fill of a home slice may change: memory, home lines, poison, rows and the error log. -/
def HomeSide (s t : State) : Prop :=
  t = { s with mem := t.mem, home := t.home, poison := t.poison, rows := t.rows, rowAt := t.rowAt, errlog := t.errlog }

theorem HomeSide.trans {t u : State} (h : HomeSide s t) (k : HomeSide t u) : HomeSide s u := by
  unfold HomeSide at *
  rw [k, h]

theorem activate_side (s : State) (p sec : Nat) : HomeSide s (s.activate p sec) := by
  obtain ⟨_, _, h⟩ := activate_memory s p sec
  rw [h]; rfl

theorem logError_side (s : State) (t p i : Nat) : HomeSide s (s.logError t p i) := by
  obtain ⟨_, h⟩ := logError_memory s t p i
  rw [h]; rfl

theorem HomeSide.withMem {t : State} (h : HomeSide s t) (m : Mem) : HomeSide s { t with mem := m } := h.trans rfl
theorem HomeSide.withHome {t : State} (h : HomeSide s t) (l : List HomeLine) : HomeSide s { t with home := l } := h.trans rfl
theorem HomeSide.poisonSector {t : State} (h : HomeSide s t) (sec : Nat) : HomeSide s (t.poisonSector sec) := h.trans rfl

theorem updHome_side (s : State) (p l : Nat) (f : HomeLine → HomeLine) : HomeSide s (s.updHome p l f) := rfl

theorem writeBackSector_side (s : State) (p sec : Nat) : HomeSide s (s.writeBackSector p sec) := by
  unfold State.writeBackSector
  split
  · rfl
  · split
    · rfl
    · split
      · exact ((logError_side s 4 (64 * sec) 0).poisonSector sec).trans (updHome_side _ _ _ _)
      · exact ((activate_side s p sec).withMem _).trans (updHome_side _ _ _ _)

theorem releaseHome_side (s : State) (p l : Nat) : HomeSide s (s.releaseHome p l) :=
  ((writeBackSector_side s p (2 * l)).trans (writeBackSector_side _ p (2 * l + 1))).withHome _

theorem makeRoom_side (s : State) (g : Site) (l : Nat) : HomeSide s (s.makeRoom g l) := by
  unfold State.makeRoom
  split
  · exact releaseHome_side s _ _
  · rfl

theorem holdLine_side (s : State) (g : Site) (l : Nat) : HomeSide s (s.holdLine g l) := by
  unfold State.holdLine
  split
  · rfl
  · exact (makeRoom_side s g l).withHome _

theorem fillSector_side (s : State) (g : Site) (sec : Nat) : HomeSide s (s.fillSector g sec) := by
  unfold State.fillSector
  split
  · split
    · rfl
    · exact updHome_side _ _ _ _
  · exact ((holdLine_side s g _).trans (activate_side _ _ _)).trans (updHome_side _ _ _ _)

theorem fillHome_side (s : State) (g : Site) (l : Nat) : HomeSide s (s.fillHome g l) :=
  (fillSector_side s g _).trans (fillSector_side _ g _)

/-! ### Home lines of other partitions -/

theorem homeLine_updHome_part {p q : Nat} (hq : q ≠ p) (l m : Nat) (f : HomeLine → HomeLine) (hf : KeepsName f) :
    (s.updHome p l f).homeLine? q m = s.homeLine? q m := by
  refine find?_updFirst_other _ _ _ _ fun h hh => ?_
  have hp := ((h.is_iff p l).1 hh).1
  have hn : h.is q m = false := by
    rw [← Bool.not_eq_true, h.is_iff, hp]
    exact fun e => hq e.1.symm
  exact ⟨hn, (hf h q m).trans hn⟩

theorem writeBackSector_part {p q : Nat} (hq : q ≠ p) (sec m : Nat) : (s.writeBackSector p sec).homeLine? q m = s.homeLine? q m := by
  unfold State.writeBackSector
  split
  · rfl
  · split
    · rfl
    · split
      · obtain ⟨e, he⟩ := logError_memory s 4 (64 * sec) 0
        rw [homeLine_updHome_part hq _ _ _ (clean_keeps sec), he]; rfl
      · obtain ⟨r, x, he⟩ := activate_memory s p sec
        rw [homeLine_updHome_part hq _ _ _ (clean_keeps sec), he]; rfl

theorem releaseHome_part {p q : Nat} (hq : q ≠ p) (v m : Nat) : (s.releaseHome p v).homeLine? q m = s.homeLine? q m := by
  refine Eq.trans ?_ ((writeBackSector_part hq (2 * v + 1) m).trans (writeBackSector_part hq (2 * v) m))
  unfold State.homeLine? State.releaseHome State.writeBack
  rw [List.find?_filter]
  refine List.find?_congr fun h _ => ?_
  by_cases hh : h.is q m = true
  · have hn : h.is p v = false := by
      rw [← Bool.not_eq_true, h.is_iff]
      exact fun e => hq (((h.is_iff q m).1 hh).1.symm.trans e.1)
    simp [hh, hn]
  · simp [hh]

theorem holdLine_part {g : Site} {q : Nat} (hq : q ≠ g.part) (l m : Nat) : (s.holdLine g l).homeLine? q m = s.homeLine? q m := by
  have hroom : (s.makeRoom g l).homeLine? q m = s.homeLine? q m := by
    unfold State.makeRoom
    split
    · exact releaseHome_part hq _ m
    · rfl
  unfold State.holdLine
  split
  · rfl
  · rw [← hroom]
    simp [State.homeLine?, HomeLine.is, hq.symm]

theorem fillSector_part {g : Site} {q : Nat} (hq : q ≠ g.part) (sec m : Nat) :
    (s.fillSector g sec).homeLine? q m = s.homeLine? q m := by
  unfold State.fillSector
  split
  · split
    · rfl
    · exact homeLine_updHome_part hq _ _ _ pin_keeps
  · obtain ⟨r, x, he⟩ := activate_memory (s.holdLine g (sec / 2)) g.part sec
    simp only
    rw [homeLine_updHome_part hq _ _ _ (fill_keeps _ _), he]
    exact holdLine_part hq _ m

/-! ### Committed bytes through a fill (R117) -/

/-- M(x) stands but in the line that makes room. -/
theorem fillSector_mem {g : Site} {sec a : Nat} (hs : s.memoryOk = true) (hr : s.replaced g (sec / 2) ≠ some (lineOf a)) :
    (s.fillSector g sec).mem.get a = s.mem.get a := by
  have hhold : (s.holdLine g (sec / 2)).mem.get a = s.mem.get a := by
    unfold State.holdLine
    split
    · rfl
    · exact (makeRoom_other g (sec / 2) (lineOf a) hs hr).2 a rfl
  unfold State.fillSector
  split
  · split <;> rfl
  · obtain ⟨r, x, he⟩ := activate_memory (s.holdLine g (sec / 2)) g.part sec
    show ((s.holdLine g (sec / 2)).activate g.part sec).mem.get a = _
    rw [he]
    exact hhold

/-- A fill changes no committed byte outside the line that makes room for it, in any partition. -/
theorem fillSector_committed {g : Site} {sec a : Nat} (p : Nat) (hs : s.memoryOk = true)
    (hr : s.replaced g (sec / 2) ≠ some (lineOf a)) : (s.fillSector g sec).committed p a = s.committed p a := by
  by_cases hp : p = g.part
  · subst hp
    by_cases hl : lineOf a = sec / 2
    · obtain ⟨h, e1, _, e3⟩ := fillSector_line g sec hs
      rw [committed_eq, hl, e1, e3 a hl]
    · rw [committed_eq, committed_eq, (fillSector_other g sec (lineOf a) hs hl hr).1]
      exact viewOf_congr (fillSector_mem hs hr)
  · rw [committed_eq, committed_eq, fillSector_part hp]
    exact viewOf_congr (fillSector_mem hs hr)

/-- Once its first sector is filled, a line needs no further room. -/
theorem replaced_fillSector {g : Site} {sec : Nat} (hs : s.memoryOk = true) : (s.fillSector g sec).replaced g (sec / 2) = none := by
  obtain ⟨h, e, _⟩ := fillSector_line g sec hs
  rw [State.replaced, e]
  simp

theorem fillHome_committed {g : Site} {l a : Nat} (p : Nat) (hs : s.memoryOk = true) (hr : s.replaced g l ≠ some (lineOf a)) :
    (s.fillHome g l).committed p a = s.committed p a := by
  have h0 : 2 * l / 2 = l := by omega
  have h1 : (2 * l + 1) / 2 = l := by omega
  have hfull : (s.fillSector g (2 * l)).replaced g l = none := by
    have := replaced_fillSector (g := g) (sec := 2 * l) hs
    rwa [h0] at this
  rw [State.fillHome, fillSector_committed p (fillSector_ok g _ hs) (by rw [h1, hfull]; simp),
    fillSector_committed p hs (by rwa [h0])]

/-- The cells of a committed line read as its committed bytes. -/
theorem get_committedLine {p l a : Nat} (hs : s.memoryOk = true) (ha : lineOf a = l) : (s.committedLine p l).get a = s.committed p a := by
  obtain ⟨hm, _, _, hh⟩ := (State.memoryOk_iff s).1 hs
  have hsec : ∀ sec, sectorOf a = sec → (s.committedSector p sec).get a = s.committed p a := by
    rintro sec rfl
    unfold State.committedSector State.committed
    have hlo : 64 * sectorOf a ≤ a := by unfold sectorOf; omega
    have hhi : a < 64 * sectorOf a + 64 := by unfold sectorOf; omega
    split <;> exact Mem.get_slice _ hlo hhi
  have hkeys : ∀ sec, ∀ c ∈ s.committedSector p sec, 64 * sec ≤ c.1 ∧ c.1 < 64 * sec + 64 := by
    intro sec c hc
    unfold State.committedSector at hc
    split at hc
    · next h e =>
      have hw := hh h (List.mem_of_find?_eq_some (Option.filter_eq_some_iff.1 e).1)
      exact ⟨dropWhile_keys 0 _ hw c ((List.takeWhile_sublist _).subset hc), takeWhile_keys _ _ c hc⟩
    · exact ⟨dropWhile_keys 0 _ hm c ((List.takeWhile_sublist _).subset hc), takeWhile_keys _ _ c hc⟩
  unfold State.committedLine
  by_cases hlow : a < 64 * (2 * l + 1)
  · rw [Mem.get, spGet_append_left 0 a _ _ hlow fun c hc => (hkeys _ c hc).1]
    exact hsec _ (by unfold sectorOf lineOf at *; omega)
  · rw [Mem.get, spGet_append_right 0 a _ fun c hc => by have := (hkeys _ c hc).2; omega]
    exact hsec _ (by unfold sectorOf lineOf at *; omega)

theorem committedBytes_eq_map (s : State) (p a n : Nat) : s.committedBytes p a n = (List.range n).map fun k => s.committed p (a + k) := by
  induction n generalizing a with
  | zero => rfl
  | succ n ih =>
    rw [State.committedBytes, ih, List.range_succ_eq_map, List.map_cons, List.map_map]
    congr 1
    refine List.map_congr_left fun k _ => ?_
    simp only [Function.comp_apply]
    congr 1
    omega

end

/-! ### Loads -/

section
variable {s : State} {i : Iss} {x : Form}

theorem pageCheckBy_part {c : Context} {eng : Bool} {lv : Level} {a : Access} {cls : Machine.Class} {va ia range : Nat} {l : Loc}
    (h : s.pageCheckBy c eng lv a cls va ia range = .ok l) : l.part = c.part := by
  unfold State.pageCheckBy at h
  split at h
  · cases h
  · split at h
    · cases h
    · dsimp only at h
      generalize (if (cls == .pod) = true then s.podLost ia else _) = lost at h
      cases lost with
      | true => cases h
      | false => cases h; rfl

/-- A translated address belongs to the partition that asked. -/
theorem translate_part {part va : Nat} {lv : Level} {a : Access} {l : Loc} (h : s.translate part lv a va = .ok l) : l.part = part := by
  unfold State.translate State.translateBy at h
  dsimp only at h
  split at h
  · cases h
  · next c hc =>
    have hcp : c.part = part := by simpa using List.find?_some hc
    split at h
    · cases h
    · iterate 5
        split at h
        · cases h
      split at h
      · split at h
        · cases h
        · cases h; rfl
      · split at h
        · cases h
        · split at h
          · cases h
          · cases h; rfl
      · exact (pageCheckBy_part h).trans hcp

theorem findByte_nothing {p : Entry → Bool} {pa : Nat} {es : List Entry} (h : ∀ e ∈ es, p e = true → e.covers pa = false) :
    findByte p pa es = .nothing := by
  induction es with
  | nil => rfl
  | cons e es ih =>
    rw [findByte, ih fun d hd => h d (List.mem_cons_of_mem _ hd)]
    have he := h e List.mem_cons_self
    cases hp : p e with
    | false => rfl
    | true => simp [he hp]

/-- E3 finds no byte of a word from home in the core. -/
theorem viewByte_fromHome {l : Loc} {n k : Nat} {f : Fibre} (h : FromHome s i l n) (hk : k < n)
    (hline : lineOf (l.pa + k) = lineOf l.pa) : s.viewByte (i.reader f) none (l.pa + k) = .nothing := by
  obtain ⟨_, _, _, _, _, hcopy, hvers, _, _, hent⟩ := h
  have hnone : ∀ p : Entry → Bool, (∀ e, p e = true → e.core = i.ref.core) → ∀ es, (∀ e ∈ es, e ∈ s.sb ++ s.rq) →
      findByte p (l.pa + k) es = .nothing := fun p hp es hes =>
    findByte_nothing fun e he hpe => hent e (hes e he) (hp e hpe) k hk
  have hsb : ∀ e ∈ s.sb, e ∈ s.sb ++ s.rq := fun e he => List.mem_append_left _ he
  have hrq : ∀ e ∈ s.rq, e ∈ s.sb ++ s.rq := fun e he => List.mem_append_right _ he
  have hwrote : ∀ e, (i.reader f).wrote false e = true → e.core = i.ref.core := by
    intro e he
    simp only [Reader.wrote, Entry.ofFibre, Bool.and_eq_true, beq_iff_eq] at he
    exact he.1.1
  have hfirst : ∀ e, s.seesFirst (i.reader f) e = true → e.core = i.ref.core := by
    intro e he
    simp only [State.seesFirst, Bool.and_eq_true, beq_iff_eq] at he
    exact he.1.1.1.1
  have hsees : ∀ e, s.sees (i.reader f) e = true → e.core = i.ref.core := by
    intro e he
    simp only [State.sees, Bool.and_eq_true, beq_iff_eq] at he
    exact he.1.1.1
  unfold State.viewByte State.versionByte?
  rw [hnone _ hwrote _ hsb, hnone _ hfirst _ hrq, hnone _ hsees _ hrq, hline]
  show Found.orElse .nothing (Found.orElse .nothing (Found.orElse .nothing (Found.orElse (Found.ofOption
    ((s.version? i.ref.core i.ref.slot (lineOf l.pa)).bind _)) (Found.orElse .nothing (Found.ofOption
      ((s.copy? i.ref.core i.crew.part (lineOf l.pa)).map _)))))) = _
  rw [hcopy, hvers]
  rfl

theorem oxOwned_of_owned {p l : Nat} (h : s.owned p l = false) : s.oxOwned p l = false := by
  simp only [State.owned, List.any_eq_false] at h
  simp only [State.oxOwned, List.any_eq_false]
  intro e he hc
  simp only [Bool.and_eq_true] at hc
  exact h e he (by rw [Bool.and_eq_true]; exact hc.1)

/-- The bytes that E3 gives of a word that none of its sources holds. -/
theorem zipIdx_nothing (n : Nat) (d : Nat → Byte) :
    (((List.range n).map fun _ => Found.nothing).zipIdx.map fun p => match p.1 with
      | .byte b => b
      | _ => d p.2) = (List.range n).map d := by
  refine List.ext_getElem (by simp) fun k h1 h2 => ?_
  simp

/-- E3 of a word from home fills the line, and gives its bytes from the fill. -/
theorem readyE3_fromHome {l : Loc} {n : Nat} {f : Fibre} (h : FromHome s i l n) (hn : 0 < n)
    (hline : ∀ k, k < n → lineOf (l.pa + k) = lineOf l.pa) (noAlloc : Bool) :
    ∃ bad, s.readyE3 (i.reader f) none l n noAlloc =
      some (if noAlloc then (s.fillData (i.reader f) l).1
          else (s.fillData (i.reader f) l).1.setCopy (i.reader f) l (s.fillData (i.reader f) l).2.1 (s.fillData (i.reader f) l).2.2,
        (List.range n).map fun k => (s.fillData (i.reader f) l).2.1.get (l.pa + k), bad) := by
  have hview : ((List.range n).map fun k => s.viewByte (i.reader f) none (l.pa + k)) = (List.range n).map fun _ => Found.nothing :=
    List.map_congr_left fun k hk => viewByte_fromHome h (List.mem_range.1 hk) (hline k (List.mem_range.1 hk))
  have hb : ((List.range n).map fun _ => Found.nothing).any (· == .blocked) = false := by simp
  have hv : ((List.range n).map fun _ => Found.nothing).any (· == .nothing) = true := by
    simp only [List.any_map, List.any_eq_true, List.mem_range]
    exact ⟨0, hn, rfl⟩
  obtain ⟨_, _, _, hown, hrow, _⟩ := h
  refine ⟨meetsSector (s.badFor i.ref.core i.ref.slot (lineOf l.pa) (s.fillData (i.reader f) l).2.2) l.pa n, ?_⟩
  unfold State.readyE3
  simp only [hview, hb, hv, show (i.reader f).part = i.crew.part from rfl, oxOwned_of_owned hown, hown, hrow, Bool.or_false,
    Bool.false_eq_true, if_false, if_true]
  exact congrArg (fun b => some (_, b, _)) (zipIdx_nothing n fun k => (s.fillData (i.reader f) l).2.1.get (l.pa + k))

/-- A home line's marks do not change what it reads as. -/
theorem updHome_committed {p l : Nat} {f : HomeLine → HomeLine} (hf : KeepsName f)
    (hd : ∀ h : HomeLine, (f h).data = h.data ∧ ∀ sec, (f h).has sec = h.has sec) (q a : Nat) :
    (s.updHome p l f).committed q a = s.committed q a := by
  have hview : ∀ h : HomeLine, viewOf (some (f h)) s.mem a = viewOf (some h) s.mem a := fun h => by
    rw [viewOf_some, viewOf_some, (hd h).1, (hd h).2]
  rw [committed_eq, committed_eq]
  show viewOf _ s.mem a = _
  by_cases hq : q = p
  · subst hq
    rw [homeLine_updHome _ _ _ _ _ hf]
    split
    · cases s.homeLine? q (lineOf a) with
      | none => rfl
      | some h => exact hview h
    · rfl
  · rw [homeLine_updHome_part hq _ _ _ hf]

theorem hintLine_committed (h : Hint) (p l : Nat) (filled : Bool) (q a : Nat) :
    (s.hintLine h p l filled).committed q a = s.committed q a := by
  unfold State.hintLine
  split
  · split
    · refine updHome_committed ?_ ?_ q a
      · exact fun _ _ _ => rfl
      · exact fun _ => ⟨rfl, fun _ => rfl⟩
    · rfl
  · refine updHome_committed ?_ ?_ q a
    · exact fun _ _ _ => rfl
    · exact fun _ => ⟨rfl, fun _ => rfl⟩
  · rfl

theorem hintLine_crews (h : Hint) (p l : Nat) (filled : Bool) : (s.hintLine h p l filled).crews = s.crews := by
  unfold State.hintLine
  repeat' split
  all_goals rfl

theorem setCopy_committed (r : Reader) (l : Loc) (d : Mem) (bad : List Nat) (q a : Nat) :
    (s.setCopy r l d bad).committed q a = s.committed q a := by
  unfold State.setCopy
  dsimp only
  split <;> rfl

theorem setCopy_crews (r : Reader) (l : Loc) (d : Mem) (bad : List Nat) : (s.setCopy r l d bad).crews = s.crews := by
  unfold State.setCopy
  dsimp only
  split <;> rfl

/-- What a fill may leave: every committed byte outside a line that may make room, and the crews. -/
def FillFrame (s t : State) (l : Loc) : Prop :=
  (∀ part a, s.replaced (s.site l) (lineOf l.pa) ≠ some (lineOf a) → t.committed part a = s.committed part a) ∧ t.crews = s.crews

/-- E5 of a line that is its slice's alone: the committed line, from the slice once it holds it. -/
theorem fillData_home {r : Reader} {l : Loc} (hs : s.memoryOk = true) (hro : l.ro = false) :
    FillFrame s (s.fillData r l).1 l ∧ ∀ a, lineOf a = lineOf l.pa → (s.fillData r l).2.1.get a = s.committed l.part a := by
  have hpeer : s.peerCopy r l = none := by simp [State.peerCopy, hro]
  have hside := fillHome_side (s.touch (s.site l) (lineOf l.pa)) (s.site l) (lineOf l.pa)
  have hc : ∀ part a, s.replaced (s.site l) (lineOf l.pa) ≠ some (lineOf a) →
      ((s.touch (s.site l) (lineOf l.pa)).fillHome (s.site l) (lineOf l.pa)).committed part a = s.committed part a :=
    fun part a ha => fillHome_committed (s := s.touch (s.site l) (lineOf l.pa)) part hs ha
  unfold State.fillData
  simp only [hpeer]
  refine ⟨⟨hc, by rw [hside]; rfl⟩, fun a ha => ?_⟩
  rw [get_committedLine (fillHome_ok (s := s.touch (s.site l) (lineOf l.pa)) _ _ hs) ha]
  exact hc _ _ fun e => replaced_ne e ha

/-- E3 of a word from home: its committed bytes. -/
theorem loadOne_fromHome {l : Loc} {n : Nat} {f : Fibre} (h : FromHome s i l n) (hs : s.memoryOk = true) (hp : l.part = i.crew.part)
    (hn : 0 < n) (hline : ∀ k, k < n → lineOf (l.pa + k) = lineOf l.pa) (sx : Bool) (m : MemC) (hm : m.scope = .none) :
    ∃ t bad, s.loadOne i f l n sx m = some (t, .bytes (s.committedBytes i.crew.part l.pa n) bad) ∧ FillFrame s t l := by
  have h0 : FromHome (s.cacheLeaf i.crew.part l) i l n := by rw [cacheLeaf_eq]; exact h
  have hs0 : (s.cacheLeaf i.crew.part l).memoryOk = true := by rw [cacheLeaf_eq]; exact hs
  have hc0 : ∀ p a, (s.cacheLeaf i.crew.part l).committed p a = s.committed p a := fun p a => by rw [cacheLeaf_eq]; rfl
  have hr0 : (s.cacheLeaf i.crew.part l).replaced ((s.cacheLeaf i.crew.part l).site l) (lineOf l.pa) =
      s.replaced (s.site l) (lineOf l.pa) := by rw [cacheLeaf_eq]; rfl
  have hk0 : (s.cacheLeaf i.crew.part l).crews = s.crews := by rw [cacheLeaf_eq]
  obtain ⟨bad, he⟩ := readyE3_fromHome h0 (f := f) hn hline (m.hint == .noAllocate)
  obtain ⟨⟨hframe, hcrews⟩, hdata⟩ := fillData_home (r := i.reader f) hs0 h0.2.2.1
  obtain ⟨hcls, hhome, _⟩ := h
  have hpool : (l.cls == .pool) = false := by rcases hcls with e | e <;> rw [e] <;> rfl
  have hbytes : ((List.range n).map fun k => ((s.cacheLeaf i.crew.part l).fillData (i.reader f) l).2.1.get (l.pa + k)) =
      s.committedBytes i.crew.part l.pa n := by
    rw [committedBytes_eq_map]
    refine List.map_congr_left fun k hk => ?_
    rw [hdata _ (hline k (List.mem_range.1 hk)), hp, hc0]
  have hone : s.loadOne i f l n sx m = ((s.cacheLeaf i.crew.part l).loadLine (i.reader f) none l n m).map fun p =>
      (p.1, .bytes p.2.1 p.2.2) := by
    unfold State.loadOne
    split
    · next e => rw [e] at hcls; simp at hcls
    · next e => rw [e] at hcls; simp at hcls
    · simp only [hpool, Bool.false_eq_true, if_false, beq_eq_false_iff_ne.2 hhome]
  rw [hone, State.loadLine]
  simp only [hm, coreScope, if_true, he, Option.map_some, hbytes]
  refine ⟨_, _, rfl, fun part a ha => ?_, ?_⟩
  · rw [hintLine_committed, ← hc0 part a, ← hframe part a (by rw [hr0]; exact ha)]
    split
    · rfl
    · exact setCopy_committed _ _ _ _ _ _
  · rw [hintLine_crews, ← hk0, ← hcrews]
    split
    · rfl
    · exact setCopy_crews _ _ _ _

theorem size_pos (x : Form) : 0 < x.size := by
  unfold Form.size widthBytes
  split <;> omega

/-- An aligned access stays in its line. -/
theorem line_of_aligned {a k : Nat} (h : a % x.size = 0) (hk : k < x.size) : lineOf (a + k) = lineOf a := by
  unfold Form.size widthBytes at *
  unfold lineOf
  split at h <;> simp_all <;> omega

end

/-- Settles O13: E3 finds no byte in the core, so that E5's fill of the line gives them, which changes no committed byte outside the line
that makes room. -/
theorem plainLoadGivesCommittedBytes : Obligations.PlainLoadGivesCommittedBytes := by
  unfold Obligations.PlainLoadGivesCommittedBytes
  intro s i x f l hs h h0 hf hsc ho hr hw hh
  have hclose : l.closes false = false := closes_far hh.1 false
  have hacq : acquires x [l] = false := by simp [acquires, ho]
  obtain ⟨t, bad, hone, hframe, hcrews⟩ := loadOne_fromHome hh hs (translate_part hr.2.2) (size_pos x)
    (fun k hk => line_of_aligned hh.2.2.2.2.2.2.2.1 hk) x.sx x.mc hsc (f := f)
  refine ⟨t, bad, ?_, hframe, hcrews⟩
  rw [exec_ld, execLd]
  refine laneSet_ok h ?_
  rw [if_neg (not_not.2 h0), checkAll_ok i _ (fun _ => (l, ())) fun g hg => ?_]
  · simp only [hf, List.map_cons, List.map_nil, withFibres_single, List.any_cons, List.any_nil, hclose, Bool.or_false]
    have hrun : s.loadRun (s.again i) x [(f, l)] = some (t, [(f.lane, extendLoad x.size x.sx
        (s.committedVal i.crew.part l.pa x.size), bad, ProdSrc.mem l.pa)]) := by
      rw [again_of_issues h.toIssues, State.loadRun]
      simp only [List.map_cons, List.map_nil, hacq, Bool.false_and, Bool.false_eq_true, if_false, State.loadAll, hone]
      rfl
    simp only [closeFirst, Bool.false_eq_true, if_false, hrun, State.loadEnd, hacq, Bool.not_false, if_true]
  · rw [hf, List.mem_singleton] at hg
    subst hg
    rw [srcLoc_ok hr, destWide_ok hw]; rfl

/-! ### Fences -/

section
variable {s : State} {i : Iss} {x : Form}

theorem fence_plain (h : UniRuns s i x .any) (h0 : i.batch.phase = 0) (ho : x.mc.ord = .plain) :
    exec (.fence x) s = .next (s.advance i x.words) := by
  rw [exec_fence, execFence]
  refine uniSet_ok h ?_
  simp only [h0, ne_eq, not_true_eq_false, if_false, ho]

theorem fence_acquire {t : State} (h : UniRuns s i x .any) (h0 : i.batch.phase = 0) (ho : x.mc.ord = .acquire)
    (ht : s.acquire i x.mc.scope x.mc.rmt = some t) : exec (.fence x) s = .next (t.advance i x.words) := by
  rw [exec_fence, execFence]
  refine uniSet_ok h ?_
  simp only [h0, ne_eq, not_true_eq_false, if_false, ho, ht]

theorem fence_release (h : UniRuns s i x .any) (h0 : i.batch.phase = 0) (ho : x.mc.ord = .release ∨ x.mc.ord = .acqRel)
    (hr : s.ckptReady i.crew = true) :
    let t := (s.checkpoint i.ref.core i.ref.slot).releaseAll i i.active x.mc.scope
    exec (.fence x) s = .next (if podScope x.mc.scope || (x.mc.ord == .acqRel && !coreScope x.mc.scope) then
      t.onBatch i fun b => { b with phase := 1 } else t.advance i x.words) := by
  intro t
  rw [exec_fence, execFence]
  refine uniSet_ok h ?_
  have hout : ∀ (c : Bool) (u v : State), (if c then Except.ok u else Except.ok v : Res State) = .ok (if c then u else v) :=
    fun c u v => by cases c <;> rfl
  simp only [h0, ne_eq, not_true_eq_false, if_false]
  rcases ho with ho | ho <;> simp only [ho, takeCkpt_ready hr, hout] <;> rfl

theorem fence_released (h : UniRuns s i x .any) (h0 : i.batch.phase ≠ 0) (hd : s.released i i.active x.mc.scope = true)
    (ho : x.mc.ord ≠ .acqRel) : exec (.fence x) s = .next (s.advance i x.words) := by
  rw [exec_fence, execFence]
  refine uniSet_ok h ?_
  simp only [h0, ne_eq, not_false_eq_true, if_true, hd, Bool.not_true, Bool.false_eq_true, if_false, beq_eq_false_iff_ne.2 ho]

theorem fence_released_acquires {t : State} (h : UniRuns s i x .any) (h0 : i.batch.phase ≠ 0)
    (hd : s.released i i.active x.mc.scope = true) (ho : x.mc.ord = .acqRel) (ht : s.acquire i x.mc.scope x.mc.rmt = some t) :
    exec (.fence x) s = .next (t.advance i x.words) := by
  rw [exec_fence, execFence]
  refine uniSet_ok h ?_
  simp only [h0, ne_eq, not_false_eq_true, if_true, hd, Bool.not_true, Bool.false_eq_true, if_false, ho, beq_self_eq_true, ht]

/-! ### Cache maintenance -/

theorem exec_cmaint {ins : Form → Instr}
    (hins : ins ∈ [Instr.cmaintClean, Instr.cmaintInvalidate, Instr.cmaintCleanInvalidate, Instr.cmaintDemote]) :
    exec (ins x) s = cmaint x s := by
  simp only [List.mem_cons, List.not_mem_nil, or_false] at hins
  obtain rfl | rfl | rfl | rfl := hins <;> rfl

theorem cmaint_nothing (h : UniRuns s i x .vector) (hk : i.free [(x.an, true), (x.bn, false)] = true)
    (hlen : (i.flock.kreg x.bn).toNat = 0) : cmaint x s = .next (s.advance i x.words) := by
  refine uniSet_ok h ?_
  simp only [kFree_ok hk, hlen, if_true]

theorem cmaint_closes (h : UniRuns s i x .vector) (hk : i.free [(x.an, true), (x.bn, false)] = true)
    (hlen : (i.flock.kreg x.bn).toNat ≠ 0) (h0 : i.batch.phase = 0) (hc : ¬(cmOp x = 1 ∧ cmLevel x = 0))
    (hr : s.ckptReady i.crew = true) :
    cmaint x s = .next (((s.checkpoint i.ref.core i.ref.slot).passBatch i i.active).onBatch i fun b => { b with phase := 1 }) := by
  refine uniSet_ok h ?_
  simp only [kFree_ok hk, hlen, if_false, h0, hc, not_false_eq_true, and_self, if_true, takeCkpt_ready hr]

theorem cmaint_walks {t : State} (h : UniRuns s i x .vector) (hk : i.free [(x.an, true), (x.bn, false)] = true)
    (hlen : (i.flock.kreg x.bn).toNat ≠ 0) (hp : ¬(i.batch.phase = 0 ∧ ¬(cmOp x = 1 ∧ cmLevel x = 0)))
    (hw : s.maintainOn i x ((i.flock.kpair x.an).toNat % 2 ^ 57) (i.flock.kreg x.bn).toNat (i.batch.phase - 1) = .ok t) :
    cmaint x s = .next t := by
  refine uniSet_ok h ?_
  simp only [kFree_ok hk, hlen, if_false, hp, hw]

theorem maintainOn_done {lo len done : Nat} {t : State}
    (hw : s.maintainAll i (cmOp x) (cmLevel x) lo (lo / 128 + done) ((lo + len - 1) / 128 - lo / 128 + 1 - done) = .done t) :
    s.maintainOn i x lo len done = .ok (t.advance i x.words) := by
  simp only [State.maintainOn, hw]

theorem maintainOn_waits {lo len done left : Nat} {t : State}
    (hw : s.maintainAll i (cmOp x) (cmLevel x) lo (lo / 128 + done) ((lo + len - 1) / 128 - lo / 128 + 1 - done) = .waits t left)
    (hl : (lo + len - 1) / 128 - lo / 128 + 1 - left ≠ done) : s.maintainOn i x lo len done =
      .ok (t.onBatch i fun b => { b with phase := (lo + len - 1) / 128 - lo / 128 + 1 - left + 1 }) := by
  simp only [State.maintainOn, hw, if_neg hl]

/-! ### Way masks -/

section
variable {c : Context} (h : UniRuns s i x .vector) (hk : i.free [(x.an, false), (x.dn, false)] = true)
  (hc : s.ctx? i.crew.part = some c) (hown : c.owns (i.ref.core * 4 + bits (i.flock.kreg x.an).toNat 17 16) = true)
include h hk hc hown

theorem setways_sets {n : Nat} (hn : maskWays (bits (i.flock.kreg x.an).toNat 15 0) = some n)
    (hroom : s.groupLimit i.ref.core (bits (i.flock.kreg x.an).toNat 17 16) ≤ n * 2 ^ 14) (hr : s.ckptReady i.crew = true)
    (he : s.wayMask i.ref.core (bits (i.flock.kreg x.an).toNat 17 16) ||| bits (i.flock.kreg x.an).toNat 15 0 =
        bits (i.flock.kreg x.an).toNat 15 0 ∨ (s.checkpoint i.ref.core i.ref.slot).endedCopies i.ref.core = false) :
    exec (.setways x) s = .next (((s.checkpoint i.ref.core i.ref.slot).setWays i.ref.core (bits (i.flock.kreg x.an).toNat 17 16)
      (bits (i.flock.kreg x.an).toNat 15 0)).uniResult i x false
        (BitVec.ofNat 64 (s.wayMask i.ref.core (bits (i.flock.kreg x.an).toNat 17 16)))) := by
  have hw : (s.wayMask i.ref.core (bits (i.flock.kreg x.an).toNat 17 16) ||| bits (i.flock.kreg x.an).toNat 15 0 !=
      bits (i.flock.kreg x.an).toNat 15 0 && (s.checkpoint i.ref.core i.ref.slot).endedCopies i.ref.core) = false := by
    rcases he with he | he
    · rw [he]; simp
    · rw [he, Bool.and_false]
  rw [exec_setways, execSetways]
  refine uniSet_ok h ?_
  simp only [kFree_ok hk, hc, hown, needLevel, if_true, hn, Nat.not_lt.2 hroom, if_false, takeCkpt_ready hr, hw, Bool.false_eq_true]

theorem setways_refused (hn : maskWays (bits (i.flock.kreg x.an).toNat 15 0) = none ∨
      ∃ n, maskWays (bits (i.flock.kreg x.an).toNat 15 0) = some n ∧
        n * 2 ^ 14 < s.groupLimit i.ref.core (bits (i.flock.kreg x.an).toNat 17 16)) :
    exec (.setways x) s = .next (s.uniResult i x false
      (BitVec.ofNat 64 (2 ^ 31 + s.wayMask i.ref.core (bits (i.flock.kreg x.an).toNat 17 16)))) := by
  rw [exec_setways, execSetways]
  refine uniSet_ok h ?_
  obtain hn | ⟨n, hn, hfull⟩ := hn
  · simp only [kFree_ok hk, hc, hown, needLevel, if_true, hn]
  · simp only [kFree_ok hk, hc, hown, needLevel, if_true, hn, hfull]

end

end

/-- Settles O16, instruction by instruction and phase by phase. -/
theorem fenceAndMaintenanceComplete : Obligations.FenceAndMaintenanceComplete := by
  unfold Obligations.FenceAndMaintenanceComplete
  refine ⟨fun s i x h h0 => ⟨fence_plain h h0, fun ho t => fence_acquire h h0 ho, fun ho hr => fence_release h h0 ho hr⟩,
    fun s i x h h0 hd => ⟨fence_released h h0 hd, fun ho t => fence_released_acquires h h0 hd ho⟩,
    fun ins hins s i x h hk => ?_,
    fun s i x c h hk hc hown => ⟨fun n hn hroom hr he => setways_sets h hk hc hown hn hroom hr he, setways_refused h hk hc hown⟩⟩
  rw [exec_cmaint hins]
  refine ⟨cmaint_nothing h hk, fun hlen h0 hc hr => cmaint_closes h hk hlen h0 (fun e => by simp [e.1, e.2] at hc) hr, fun hlen hp => ?_⟩
  have hp' : ¬(i.batch.phase = 0 ∧ ¬(cmOp x = 1 ∧ cmLevel x = 0)) := by
    rintro ⟨h0, hc⟩
    rcases hp with hp | hp
    · exact hp h0
    · exact hc (by simpa using hp)
  exact ⟨fun t hw => cmaint_walks h hk hlen hp' (maintainOn_done hw),
    fun t left hw hl => cmaint_walks h hk hlen hp' (maintainOn_waits hw hl)⟩

end Sys2Proof.Accesses

/-! PROOF. Copies and collectives are handed over to an engine, and CPYDRAIN waits for its path (R99, R128-R133, R246-R249). -/

namespace Sys2Proof.Handover
open Sys2Proof Sys2Proof.Machine Sys2Proof.Claims

section
variable {s : State} {i : Iss} {x : Form}

theorem converged_ok (h : i.absent = []) : converged i = .ok () := by rw [converged, h]; rfl

theorem again_ref (s : State) (i : Iss) : (s.again i).ref = i.ref := by
  unfold State.again
  cases h : s.find i.ref with
  | none => rfl
  | some j => exact (find_parts h).1

/-- E13 hands over as `HandsOver` says, whatever its answer is made into. -/
theorem handsOver_of_engineIssue {out : Out State} {words : Nat} {lines : State → List Nat} {add : State → Nat → State}
    (h : ∀ t, engineIssue s i words lines add = .ok t → out = .next t) : HandsOver out s i words (lines s) add := by
  refine ⟨fun h0 => h _ ?_, fun h0 hd s1 h1 => ?_⟩
  · rw [engineIssue, if_pos h0]
  · intro s2 hr s3
    refine h _ ?_
    have hready : takeCkpt s2 i = .ok (s2.checkpoint i.ref.core i.ref.slot) := by rw [takeCkpt, if_pos hr]
    simp only [engineIssue, if_neg h0, hd, Bool.not_true, Bool.false_eq_true, if_false, h1]
    rw [hready]

theorem cpy_handsOver (h : UniRuns s i x .vectorCopy) (ha : i.absent = [])
    (hk : i.free ((List.range 8).map fun n => (x.an + n, false)) = true) (hc : checkCopy s i (copyDesc x i) = .ok ())
    (hroom : (s.joining i.crew i.flock.num).isSome = true ∨ (s.copiesOf i.crew).length < 8) :
    let s1 := s.onCrew i fun k => k.updLive fun c => i.active.foldl (fun c f => c.completeFibre i.flock.num f.lane) c
    HandsOver (exec (.cpy x) s) s1 (s1.again i) x.words (s1.copyLines i.crew.part i.crew.level (copyDesc x i)) fun t id =>
      t.addCopy (t.again i) (copyDesc x i) id := by
  intro s1
  refine handsOver_of_engineIssue (lines := fun t => t.copyLines i.crew.part i.crew.level (copyDesc x i)) fun t ht => ?_
  have hfull : ((s.joining i.crew (copyDesc x i).flock).isNone && decide (8 ≤ (s.copiesOf i.crew).length)) = false := by
    rcases hroom with hj | hl
    · rw [show (copyDesc x i).flock = i.flock.num from rfl, Option.isNone_eq_false_iff.2 hj, Bool.false_and]
    · rw [decide_eq_false (Nat.not_le.2 hl), Bool.and_false]
  rw [exec_cpy, execCpy]
  refine uniSet_ok h ?_
  simp only [converged_ok ha, kFree_ok hk, checkOne_ok i hc, hfull, Bool.false_eq_true, if_false]
  exact ht

theorem cpydrain_completes (h : UniRuns s i x .vectorCopy)
    (hold : ∀ e ∈ s.engines, e.core = i.ref.core → e.onPath x.an = true →
      (if i.batch.phase = 0 then s.nextTag else i.batch.tag) ≤ e.id) :
    exec (.cpydrain x) s = .next ((if x.an = 1 then s.dropCore i.ref.core else s).advance i x.words) := by
  have hnone : (s.engines.any fun e => e.core == i.ref.core && e.onPath x.an &&
      decide (e.id < if i.batch.phase = 0 then s.nextTag else i.batch.tag)) = false := by
    rw [List.any_eq_false]
    intro e he hc
    simp only [Bool.and_eq_true, beq_iff_eq, decide_eq_true_eq] at hc
    exact absurd (hold e he hc.1.1 hc.1.2) (Nat.not_le.2 hc.2)
  rw [exec_cpydrain, execCpydrain]
  refine uniSet_ok h ?_
  simp only [hnone, Bool.false_eq_true, if_false]

/-! ### Collectives -/

theorem firstCkpt_begins (h : mayBegin s (s.again i)) : firstCkpt s (s.again i) =
    .ok ((s.checkpoint i.ref.core i.ref.slot).updCrew i.ref.core i.ref.slot fun k => { k with between := true }) := by
  simp only [firstCkpt, h.1, Bool.false_eq_true, if_false, takeCkpt, h.2, if_true, again_ref]

section
variable {c : Context} {l : Loc} (h : UniRuns s i x .vector) (ha : i.absent = []) (hk : i.free [(x.an, true)] = true)
  (hctx : s.ctx? i.crew.part = some c) (hl : checkColl s i ((i.flock.kpair x.an).toNat % 2 ^ 57) = .ok l)
include h ha hk hctx hl

theorem coll_releases (h0 : i.batch.phase = 0) :
    exec (.coll x) s = .next ((s.releaseAll i i.active .dev).onBatch i fun b => { b with phase := 1 }) := by
  rw [exec_coll, execColl]
  refine uniSet_ok h ?_
  simp only [converged_ok ha, kFree_ok hk, withCtx, hctx, checkOne_ok i hl, if_pos h0]

/-- Once the block can be read, what `acceptColl` answers is the answer. -/
theorem coll_accepts {g : GroupEntry} {t : State} (h0 : i.batch.phase ≠ 0) (hd : s.drained i.ref.core i.batch.tag = true)
    (hg : checkBlockOf s i c (s.collBlock i l) ((i.flock.kpair x.an).toNat % 2 ^ 57) = .ok g)
    (hox : s.oxOwned l.part (lineOf l.pa) = false) (ht : acceptColl s i x.words (s.collBlock i l) g = .ok t) :
    exec (.coll x) s = .next t := by
  rw [exec_coll, execColl]
  refine uniSet_ok h ?_
  simp only [converged_ok ha, kFree_ok hk, withCtx, hctx, checkOne_ok i hl, if_neg h0, hd, hox, Bool.not_true, Bool.or_false,
    Bool.false_eq_true, if_false, checkOne_ok i hg, ht]

end

end

/-- Settles O29: CPY and its E13, CPYDRAIN's path, and the two parts of COLL. -/
theorem copiesAndCollectivesAreHandedOver : Obligations.CopiesAndCollectivesAreHandedOver := by
  unfold Obligations.CopiesAndCollectivesAreHandedOver
  refine ⟨fun s i x h ha hk hc hroom => cpy_handsOver h ha hk hc hroom, fun s i x h hold => cpydrain_completes h hold,
    fun s i x c l h ha hk hctx => ?_⟩
  intro va hl
  refine ⟨coll_releases h ha hk hctx hl, ?_⟩
  intro h0 hd g s0 b hg ls hox hroom hown hothers hbegin s1 num now job j k t
  have hfull : (decide (256 ≤ s.collsOf i.crew.part) || ls.any (s.owned i.crew.part)) = false := by
    rw [decide_eq_false (Nat.not_le.2 hroom), Bool.false_or, List.any_eq_false]
    exact fun l hl => by simp [hown l hl]
  have haccept : acceptColl s i x.words b g = .ok ((t.failLate k (b ++ [num]) g.g).secondCkpt i.ref.core i.ref.slot) := by
    unfold acceptColl
    dsimp only
    rw [if_neg (by rw [hfull]; simp), hothers]
    dsimp only
    rw [firstCkpt_begins hbegin]
  refine ⟨fun hf => ?_, fun cause hf => ?_⟩
  · rw [coll_accepts h ha hk hctx hl h0 hd hg hox haccept, State.failLate, hf]
  · rw [coll_accepts h ha hk hctx hl h0 hd hg hox haccept, State.failLate, hf]

end Sys2Proof.Handover

/-! PROOF. Host accesses, the launch ring, flush and feature negotiation complete (R103, R343-R348). -/

namespace Sys2Proof.HostAccess
open Sys2Proof Sys2Proof.Machine

/-! ### The window (R103, R343) -/

section
variable {s : State} {part off : Nat} {w : Nat × Nat}

/-- Words kept for fetches change the instruction cache alone. -/
theorem noteFold_icache {α : Type} (l : List α) (f : State → α → State) (hf : ∀ s a, ∃ c, f s a = { s with icache := c }) (s : State) :
    ∃ c, l.foldl f s = { s with icache := c } := by
  induction l generalizing s with
  | nil => exact ⟨s.icache, rfl⟩
  | cons a l ih =>
    obtain ⟨c, hc⟩ := hf s a
    obtain ⟨d, hd⟩ := ih (f s a)
    exact ⟨d, by rw [List.foldl_cons, hd, hc]⟩

theorem windowWrite_forms (s : State) (off : Nat) (bs : List Byte) :
    ∃ c, s.windowWrite off bs = { s with icache := c, hw := s.hw.write off bs } := by
  obtain ⟨c, hc⟩ := noteFold_icache s.ctxs
    (fun s c => s.noteOld c.part (windowWord 0) off bs.length fun a => leVal (s.hw.read a 4)) (fun s c => noteOld_memory s _ _ _ _ _) s
  exact ⟨c, by rw [State.windowWrite, hc]⟩

theorem window_access {a : HostAccess} {t : State} (hd : s.dead = false) (h : s.windowAccess part off a = some t) :
    exec (.hostWindowAccess part off a) s = .next t := by
  rw [exec_hostWindowAccess, execHostWindowAccess, runEvent_ok hd h]

theorem window_complete (hd : s.dead = false) (hw : s.windowSpan part = some w) :
    (∀ n, off + n ≤ w.2 → exec (.hostWindowAccess part off (.read n)) s = .next (s.reply (hostFn part) (s.hw.read (w.1 + off) n))) ∧
    (∀ n, w.2 < off + n → exec (.hostWindowAccess part off (.read n)) s = .next (s.reply (hostFn part) [])) ∧
    (∀ bs, off + bs.length ≤ w.2 → ∃ t, exec (.hostWindowAccess part off (.write bs)) s = .next t ∧
      t.hw = s.hw.write (w.1 + off) bs ∧ t.mem = s.mem ∧ t.home = s.home ∧ t.l1 = s.l1 ∧ t.crews = s.crews ∧ t.ctxs = s.ctxs) ∧
    (∀ bs, w.2 < off + bs.length → exec (.hostWindowAccess part off (.write bs)) s = .next s) := by
  refine ⟨fun n h => window_access hd ?_, fun n h => window_access hd ?_, fun bs h => ?_, fun bs h => window_access hd ?_⟩
  · simp only [State.windowAccess, hw, Option.map_some, if_pos h]
  · simp only [State.windowAccess, hw, Option.map_some, if_neg (Nat.not_le.2 h)]
  · obtain ⟨c, hc⟩ := windowWrite_forms s (w.1 + off) bs
    refine ⟨s.windowWrite (w.1 + off) bs, window_access hd ?_, ?_⟩
    · simp only [State.windowAccess, hw, Option.map_some, if_pos h]
    · rw [hc]
      exact ⟨rfl, rfl, rfl, rfl, rfl, rfl⟩
  · simp only [State.windowAccess, hw, Option.map_some, if_neg (Nat.not_le.2 h)]

end

/-! ### BAR4 (R343, R348) -/

section
variable {s : State} {fn addr : Nat}

theorem countBar4_hits (s : State) (fn addr n : Nat) : ∃ h, s.countBar4 fn addr n = { s with hits := h } := by
  have hstep : ∀ (l : List Nat) (f : State → Nat → State), (∀ s a, ∃ h, f s a = { s with hits := h }) → ∀ s : State,
      ∃ h, l.foldl f s = { s with hits := h } := by
    intro l f hf
    induction l with
    | nil => exact fun s => ⟨s.hits, rfl⟩
    | cons a l ih =>
      intro s
      obtain ⟨c, hc⟩ := hf s a
      obtain ⟨d, hd⟩ := ih (f s a)
      exact ⟨d, by rw [List.foldl_cons, hd, hc]⟩
  unfold State.countBar4
  split
  · exact ⟨s.hits, rfl⟩
  · split
    · exact ⟨s.hits, rfl⟩
    · refine hstep _ _ (fun s a => ?_) s
      dsimp only
      split
      · exact ⟨_, Accesses.countHit_eq s _ _⟩
      · exact ⟨s.hits, rfl⟩

theorem completePosted_none (n : Nat) (h : ∀ p ∈ s.posted, p.fn ≠ fn) : s.completePosted fn n = some s := by
  cases n with
  | zero => rfl
  | succ n =>
    have hnone : (s.posted.any fun p => p.fn == fn) = false := by
      rw [List.any_eq_false]
      exact fun p hp => by simpa using h p hp
    rw [State.completePosted, hnone]; rfl

theorem hostByte_memory {a pa : Nat} (h : ∀ b ∈ s.ahead, b.fn ≠ fn) : s.hostByte fn a pa = s.mem.get pa := by
  have hnone : s.ahead.find? (fun b => b.fn == fn && b.addr == a) = none := by
    rw [List.find?_eq_none]
    intro b hb hc
    simp only [Bool.and_eq_true, beq_iff_eq] at hc
    exact h b hb hc.1
  rw [State.hostByte, hnone]

theorem bar4Read_memory {l : List Nat} (hp : ∀ p ∈ s.posted, p.fn ≠ fn) (ha : ∀ b ∈ s.ahead, b.fn ≠ fn)
    (hw : s.hostWaits fn l = false) : s.bar4Read fn addr l =
      some ((((sectorsOf l).foldl (fun s sec => s.activate (fnContext fn) sec) s).reply fn (l.map s.mem.get)).readAhead fn addr
        l.length) := by
  have hpost : (if Config.freeBool s.fresh (2 ^ 58 + 1) then some s else s.completePosted fn s.posted.length) = some s := by
    split
    · rfl
    · exact completePosted_none _ hp
  have hbytes : (l.zipIdx.map fun p => s.hostByte fn (addr + p.2) p.1) = l.map s.mem.get := by
    have : (l.zipIdx.map fun p => s.hostByte fn (addr + p.2) p.1) = l.zipIdx.map fun p => s.mem.get p.1 :=
      List.map_congr_left fun p _ => hostByte_memory ha
    rw [this, show (fun p : Nat × Nat => s.mem.get p.1) = s.mem.get ∘ Prod.fst from rfl, ← List.map_map, List.zipIdx_map_fst]
  rw [State.bar4Read, hpost]
  simp only [Option.bind_some, hw, Bool.false_eq_true, if_false, hbytes]

theorem bar4_access {a : HostAccess} {t : State} (hd : s.dead = false) (hf : fn ≤ 16) (h : s.bar4 fn addr a = some t) :
    exec (.bar4Access fn addr a) s = .next t := by
  rw [exec_bar4Access, execBar4Access, if_pos hf, runEvent_ok hd h]

theorem bar4_read {n : Nat} {l : List Nat} (hl : s.bar4Bytes fn addr .load n = some l) (hp : ∀ p ∈ s.posted, p.fn ≠ fn)
    (ha : ∀ b ∈ s.ahead, b.fn ≠ fn) (hw : (s.countBar4 fn addr n).hostWaits fn l = false) :
    s.bar4 fn addr (.read n) = some ((((sectorsOf l).foldl (fun s sec => s.activate (fnContext fn) sec)
      (s.countBar4 fn addr n)).reply fn (l.map s.mem.get)).readAhead fn addr l.length) := by
  obtain ⟨c, hc⟩ := countBar4_hits s fn addr n
  have hp' : ∀ p ∈ (s.countBar4 fn addr n).posted, p.fn ≠ fn := by rw [hc]; exact hp
  have ha' : ∀ b ∈ (s.countBar4 fn addr n).ahead, b.fn ≠ fn := by rw [hc]; exact ha
  have hm : (s.countBar4 fn addr n).mem = s.mem := by rw [hc]
  simp only [State.bar4, hl, bar4Read_memory hp' ha' hw, hm]

theorem bar4_write_eq {bs : List Byte} (hb : bs ≠ []) : s.bar4 fn addr (.write bs) = match s.bar4Bytes fn addr .store bs.length with
    | none => some (s.refuseHost fn addr)
    | some l => (s.countBar4 fn addr bs.length).bar4Write fn (l.zip bs) := by
  cases bs with
  | nil => exact absurd rfl hb
  | cons b bs => rfl

theorem bar4_write {bs : List Byte} {l : List Nat} (hd : s.dead = false) (hf : fn ≤ 16) (hb : bs ≠ [])
    (hl : s.bar4Bytes fn addr .store bs.length = some l) :
    let t := s.countBar4 fn addr bs.length
    let out := exec (.bar4Access fn addr (.write bs)) s
    out = .next { t with posted := s.posted ++ [{ fn := fn, bytes := l.zip bs }] } ∨
      ((∀ p ∈ s.posted, p.fn ≠ fn) ∧
        (t.hostWaits fn ((l.zip bs).map (·.1)) = false → out = .next (t.hostStore fn (l.zip bs))) ∧
        (t.hostWaits fn ((l.zip bs).map (·.1)) = true → out = .next { s with stall := true })) := by
  intro t out
  have hpost : t.posted = s.posted := by
    obtain ⟨c, hc⟩ := countBar4_hits s fn addr bs.length
    show (s.countBar4 fn addr bs.length).posted = _
    rw [hc]
  have hbar : s.bar4 fn addr (.write bs) = t.bar4Write fn (l.zip bs) := by rw [bar4_write_eq hb, hl]
  by_cases hstay : ((t.posted.any fun p => p.fn == fn) || Config.freeBool t.fresh (2 ^ 58)) = true
  · refine .inl (bar4_access hd hf ?_)
    rw [hbar, State.bar4Write, if_pos hstay, hpost]
  · have hnone : (t.posted.any fun p => p.fn == fn) = false := by
      simp only [Bool.or_eq_true, not_or, Bool.not_eq_true] at hstay
      exact hstay.1
    refine .inr ⟨fun p hp => ?_, fun hw => bar4_access hd hf ?_, fun hw => ?_⟩
    · rw [hpost, List.any_eq_false] at hnone
      simpa using hnone p hp
    · rw [hbar, State.bar4Write, if_neg hstay, hw]; rfl
    · refine (congrArg (runEvent s) ?_).trans (runEvent_none hd rfl)
      rw [if_pos hf, hbar, State.bar4Write, if_neg hstay, hw]; rfl

theorem completeOne_oldest {pre post : List PostedWrite} {p : PostedWrite} (hs : s.posted = pre ++ p :: post) (hp : p.fn = fn)
    (hpre : ∀ q ∈ pre, q.fn ≠ fn) (hw : s.hostWaits fn (p.bytes.map (·.1)) = false) :
    s.completeOne fn = some ({ s with posted := pre ++ post }.hostStore fn p.bytes) := by
  have hpre' : ∀ q ∈ pre, (q.fn == fn) = false := fun q hq => beq_eq_false_iff_ne.2 (hpre q hq)
  have hfind : s.posted.find? (fun q => q.fn == fn) = some p := by
    rw [hs, List.find?_append, List.find?_eq_none.2 fun q hq => by simp [hpre q hq]]
    simp [hp]
  rw [State.completeOne, hfind]
  simp only [Option.bind_some, hw, Bool.false_eq_true, if_false]
  rw [hs, Timed.dropFirst_append_cons hpre' (beq_iff_eq.2 hp)]

/-- Bytes stored by the host change M(x) at their addresses; home lines, copies and crews stand. -/
theorem hostStore_forms (s : State) (fn : Nat) (w : List (Nat × Byte)) :
    ∃ ic r ra cl cx, s.hostStore fn w = { s with
      icache := ic, rows := r, rowAt := ra, clean := cl, ctxs := cx, mem := w.foldl (fun m p => m.set p.1 p.2) s.mem } := by
  have hsec : ∀ (l : List Nat) (s : State), ∃ r ra cl cx,
      l.foldl (fun s sec => (s.activate (fnContext fn) sec).staleImages (64 * sec)) s =
        { s with rows := r, rowAt := ra, clean := cl, ctxs := cx } := by
    intro l
    induction l with
    | nil => exact fun s => ⟨s.rows, s.rowAt, s.clean, s.ctxs, rfl⟩
    | cons sec l ih =>
      intro s
      obtain ⟨r, ra, ha⟩ := activate_memory s (fnContext fn) sec
      obtain ⟨cl, cx, hc⟩ := staleImages_memory (s.activate (fnContext fn) sec) (64 * sec)
      obtain ⟨r', ra', cl', cx', hi⟩ := ih ((s.activate (fnContext fn) sec).staleImages (64 * sec))
      exact ⟨r', ra', cl', cx', by rw [List.foldl_cons, hi, hc, ha]⟩
  have hset : ∀ (w : List (Nat × Byte)) (s : State), ∃ ic, w.foldl (fun s p =>
      ({ s.ctxs.foldl (fun s c => s.noteOld c.part 0 p.1 1 fun a => leVal (s.mem.read a 4)) s with mem := s.mem.set p.1 p.2 } : State)) s =
        { s with icache := ic, mem := w.foldl (fun m p => m.set p.1 p.2) s.mem } := by
    intro w
    induction w with
    | nil => exact fun s => ⟨s.icache, rfl⟩
    | cons p w ih =>
      intro s
      obtain ⟨c, hc⟩ := noteFold_icache s.ctxs (fun s c => s.noteOld c.part 0 p.1 1 fun a => leVal (s.mem.read a 4))
        (fun s c => noteOld_memory s _ _ _ _ _) s
      rw [List.foldl_cons, hc]
      obtain ⟨d, hd⟩ := ih { s with icache := c, mem := s.mem.set p.1 p.2 }
      exact ⟨d, by rw [hd, List.foldl_cons]⟩
  obtain ⟨r, ra, cl, cx, h1⟩ := hsec (sectorsOf (w.map (·.1))) s
  unfold State.hostStore
  rw [h1]
  obtain ⟨ic, h2⟩ := hset w { s with rows := r, rowAt := ra, clean := cl, ctxs := cx }
  exact ⟨ic, r, ra, cl, cx, h2⟩

theorem refuseHost_reply (s : State) (fn addr : Nat) :
    (s.refuseHost fn addr).reports = s.reports ++ [(fn, [])] ∧ (s.refuseHost fn addr).mem = s.mem := by
  have hlog : ∃ e, (if fn = 0 then s.logError 4 addr 0 else s.logAccess 4 (fn - 1) addr) = { s with errlog := e } := by
    split
    · exact logError_memory s 4 addr 0
    · unfold State.logAccess
      dsimp only
      split <;> exact ⟨_, rfl⟩
  obtain ⟨e, he⟩ := hlog
  rw [State.refuseHost, he]
  exact ⟨rfl, rfl⟩

end

/-! ### The launch ring, flush and features (R344-R347) -/

section
variable {s : State} {fn : Nat}

theorem ltail_complete (hd : s.dead = false) (hf : fn ≤ 16) (v : BitVec 64) :
    (((s.fn fn).ltail + 64 - (s.fn fn).lhead) % 64 ≤ (v.toNat % 64 + 64 - (s.fn fn).lhead) % 64 →
      exec (.ltail fn v) s = .next (s.setFn fn { s.fn fn with ltail := v.toNat % 64, ovr := false })) ∧
    ((v.toNat % 64 + 64 - (s.fn fn).lhead) % 64 < ((s.fn fn).ltail + 64 - (s.fn fn).lhead) % 64 →
      exec (.ltail fn v) s = .next (s.setFn fn { s.fn fn with ovr := true })) := by
  have hout : exec (.ltail fn v) s = .next (s.setFn fn ((s.fn fn).writeTail v.toNat)) := by
    rw [exec_ltail, execLtail, if_pos hf, runEvent_ok hd rfl]
  refine ⟨fun h => ?_, fun h => ?_⟩
  · rw [hout, HostFn.writeTail, if_pos h]
  · rw [hout, HostFn.writeTail, if_neg (Nat.not_le.2 h)]

theorem launchSlot_next {t : State} (hd : s.dead = false) (h : s.launchSlot fn = some t) :
    exec (.launchSlotProcess fn) s = .next t := by
  rw [exec_launchSlotProcess, execLaunchSlotProcess, runEvent_ok hd h]

section
variable (hf : fn ≤ 16) (hne : (s.fn fn).lhead ≠ (s.fn fn).ltail)
include hf hne

theorem launchSlot_eq : s.launchSlot fn =
    match s.checkLaunch (portContext fn) (portLevel fn) ((s.fn fn).record s.fresh (s.fn fn).lhead) with
    | .error e => some (s.setFn fn ((s.fn fn).finishSlot e false))
    | .ok l => match s.invalidateRange (portContext fn) ((s.fn fn).record s.fresh (s.fn fn).lhead).invBase
        ((s.fn fn).record s.fresh (s.fn fn).lhead).invLen with
      | none => if (spGet 0 (s.fn fn).lstat (s.fn fn).lhead).toNat < 2 ^ 63 then none
          else some (s.setFn fn ((s.fn fn).openSlot (s.fn fn).lhead))
      | some t => some ((t.queueLaunch (portContext fn) l).setFn fn ((s.fn fn).finishSlot l.id true)) := by
  unfold State.launchSlot
  dsimp only
  exact if_neg (by rintro (h | h); exacts [absurd hf (Nat.not_le.2 h), hne h])

theorem launchSlot_error {e : Nat}
    (he : s.checkLaunch (portContext fn) (portLevel fn) ((s.fn fn).record s.fresh (s.fn fn).lhead) = .error e) :
    s.launchSlot fn = some (s.setFn fn ((s.fn fn).finishSlot e false)) := by
  rw [launchSlot_eq hf hne, he]

theorem launchSlot_accepted {c : Context} {l : Launch}
    (hc : s.ctx? (portContext fn) = some c)
    (hl : s.checkLaunch (portContext fn) (portLevel fn) ((s.fn fn).record s.fresh (s.fn fn).lhead) = .ok l)
    (hown : ∀ ln ∈ s.iaLines c ((s.fn fn).record s.fresh (s.fn fn).lhead).invBase ((s.fn fn).record s.fresh (s.fn fn).lhead).invLen,
      s.owned (portContext fn) ln = false) :
    s.launchSlot fn = some ((((s.iaLines c ((s.fn fn).record s.fresh (s.fn fn).lhead).invBase
      ((s.fn fn).record s.fresh (s.fn fn).lhead).invLen).foldl (fun s ln => s.releaseHome (portContext fn) ln) s).queueLaunch
        (portContext fn) l).setFn fn ((s.fn fn).finishSlot l.id true)) := by
  have hnone : (s.iaLines c ((s.fn fn).record s.fresh (s.fn fn).lhead).invBase
      ((s.fn fn).record s.fresh (s.fn fn).lhead).invLen).any (s.owned (portContext fn)) = false := by
    rw [List.any_eq_false]
    exact fun ln h => by simp [hown ln h]
  rw [launchSlot_eq hf hne, hl]
  simp only [State.invalidateRange, hc, hnone, Bool.false_eq_true, if_false]

/-- While an engine owns a line that it is to invalidate, a slot whose V reads 1 is opened. -/
theorem launchSlot_opens {c : Context} {l : Launch} {ln : Nat} (hc : s.ctx? (portContext fn) = some c)
    (hl : s.checkLaunch (portContext fn) (portLevel fn) ((s.fn fn).record s.fresh (s.fn fn).lhead) = .ok l)
    (hln : ln ∈ s.iaLines c ((s.fn fn).record s.fresh (s.fn fn).lhead).invBase ((s.fn fn).record s.fresh (s.fn fn).lhead).invLen)
    (hown : s.owned (portContext fn) ln = true) (hv : 2 ^ 63 ≤ (spGet 0 (s.fn fn).lstat (s.fn fn).lhead).toNat) :
    s.launchSlot fn = some (s.setFn fn ((s.fn fn).openSlot (s.fn fn).lhead)) := by
  have hany : (s.iaLines c ((s.fn fn).record s.fresh (s.fn fn).lhead).invBase
      ((s.fn fn).record s.fresh (s.fn fn).lhead).invLen).any (s.owned (portContext fn)) = true :=
    List.any_eq_true.2 ⟨ln, hln, hown⟩
  rw [launchSlot_eq hf hne, hl]
  simp only [State.invalidateRange, hc, hany, if_true, if_neg (Nat.not_lt.2 hv)]

end

theorem flush_completes {u : State} (hd : s.dead = false) (hb : (s.fn fn).busy = true)
    (hu : s.completePosted fn s.posted.length = some u) :
    exec (.flushComplete fn) s = .next { u.setFn fn { s.fn fn with busy := false } with
      ahead := u.ahead.filter fun b => !(b.fn == fn && decide ((s.fn fn).flBase.toNat ≤ b.addr) &&
        decide (b.addr < (s.fn fn).flBase.toNat + (s.fn fn).flLen.toNat)) } := by
  rw [exec_flushComplete, execFlushComplete]
  refine runEvent_ok hd ?_
  simp only [State.flush, hb, if_true, hu, Option.map_some]

theorem features_complete (hd : s.dead = false) (hf : fn ≤ 16) :
    (∀ v, (s.fn fn).lock = false → exec (.featAccept fn v) s =
      .next (s.setFn fn { s.fn fn with accept := v &&& Config.featOffer &&& 0x7F })) ∧
    (∀ v, (s.fn fn).lock = true → exec (.featAccept fn v) s = .next s) ∧
    exec (.functionReset fn) s = .next (s.setFn fn { s.fn fn with lock := false }) := by
  refine ⟨fun v h => ?_, fun v h => ?_, ?_⟩
  · rw [exec_featAccept, execFeatAccept, if_neg (Nat.not_lt.2 hf), h]
    exact runEvent_ok hd rfl
  · rw [exec_featAccept, execFeatAccept, if_neg (Nat.not_lt.2 hf), h]
    exact runEvent_ok hd rfl
  · rw [exec_functionReset, execFunctionReset, if_pos hf, runEvent_ok hd rfl]

/-! ### Reads of the control space (R344) -/

theorem leBytes_eq_map (n v : Nat) : leBytes n v = (List.range n).map fun k => BitVec.ofNat 8 (v / 256 ^ k) := by
  induction n generalizing v with
  | zero => rfl
  | succ n ih =>
    rw [leBytes, ih, List.range_succ_eq_map, List.map_cons, List.map_map, Nat.pow_zero, Nat.div_one]
    congr 1
    refine List.map_congr_left fun k _ => ?_
    rw [Function.comp_apply, Nat.pow_succ', Nat.div_div_eq_div_mul]

/-- A read whose bytes are those of a value gives its bytes. -/
theorem bar0Read_value {off n v : Nat} (h : ∀ k, k < n → s.bar0Byte fn (off + k) = BitVec.ofNat 8 (v / 256 ^ k)) :
    s.bar0Read fn off n = leBytes n v := by
  rw [State.bar0Read, leBytes_eq_map]
  exact List.map_congr_left fun k hk => h k (List.mem_range.1 hk)

/-- FL_GO, which is write-only, reads 0 (R3). -/
theorem bar0Read_flGo (s : State) (fn : Nat) : s.bar0Read fn 0x210 8 = List.replicate 8 0 := by
  refine List.eq_replicate_iff.2 ⟨by rw [State.bar0Read, List.length_map, List.length_range], fun b hb => ?_⟩
  obtain ⟨k, hk, rfl⟩ := List.mem_map.1 hb
  have hk := List.mem_range.1 hk
  interval_cases k <;> simp [State.bar0Byte]

theorem controlSpace_reads (s : State) (fn : Nat) :
    s.bar0Read fn 0x100 4 = leBytes 4 (s.fn fn).ltail ∧ s.bar0Read fn 0x104 4 = leBytes 4 (s.fn fn).lhead ∧
    s.bar0Read fn 0x200 8 = leBytes 8 (s.fn fn).flBase.toNat ∧ s.bar0Read fn 0x208 8 = leBytes 8 (s.fn fn).flLen.toNat ∧
    s.bar0Read fn 0x210 8 = List.replicate 8 0 ∧ s.bar0Read fn 0x218 8 = leBytes 8 (if (s.fn fn).busy then 1 else 0) := by
  refine ⟨bar0Read_value fun k hk => ?_, bar0Read_value fun k hk => ?_, bar0Read_value fun k hk => ?_, bar0Read_value fun k hk => ?_,
    ?_, bar0Read_value fun k hk => ?_⟩
  · interval_cases k <;> rfl
  · interval_cases k <;> rfl
  · interval_cases k <;> rfl
  · interval_cases k <;> rfl
  · exact bar0Read_flGo s fn
  · interval_cases k <;> rfl

end

/-- Settles O45, clause by clause: the window, BAR4, the launch ring, the flush and the features, then the control space's reads. -/
theorem hostAccessAndRingComplete : Obligations.HostAccessAndRingComplete := by
  unfold Obligations.HostAccessAndRingComplete
  refine ⟨fun s part off w hd hw => window_complete hd hw, fun s fn addr hd hf => ⟨fun n l hl hp ha => ?_, fun n hl => ?_,
    fun bs l hb hl => bar4_write hd hf hb hl, fun pre post p hs hp hpre hw => ?_, fun w => ?_, fun bs hb hl => ?_,
    refuseHost_reply s fn addr⟩, fun s fn hd hf => ?_⟩
  · intro t hw
    exact bar4_access hd hf (bar4_read hl hp ha hw)
  · exact bar4_access hd hf (by simp only [State.bar4, hl])
  · exact bar4_access hd hf (completeOne_oldest hs hp hpre hw)
  · obtain ⟨ic, r, ra, cl, cx, h⟩ := hostStore_forms s fn w
    rw [h]
    exact ⟨rfl, rfl, rfl, rfl⟩
  · exact bar4_access hd hf (by rw [bar4_write_eq hb, hl])
  · intro h
    refine ⟨ltail_complete hd hf, fun hne => ?_, fun hne => ?_, ?_, fun hb u hu => flush_completes hd hb hu,
      (features_complete hd hf).1, (features_complete hd hf).2.1, (features_complete hd hf).2.2, controlSpace_reads s fn⟩
    · exact ⟨fun e he => launchSlot_next hd (launchSlot_error hf hne he),
        fun c l hc hl hown => launchSlot_next hd (launchSlot_accepted hf hne hc hl hown)⟩
    · exact fun c l ln hc hl hln hown hv => launchSlot_next hd (launchSlot_opens hf hne hc hl hln hown hv)
    · rw [exec_flGo, execFlGo, if_pos hf, runEvent_ok hd rfl]

end Sys2Proof.HostAccess

/-! PROOF. The steps of buffers, queues, copies and home lines, and what queue, pin and allocation entries do at their homes
(R93, R97, R99, R150-R152, R154-R162). -/

namespace Sys2Proof.Buffers
open Sys2Proof Sys2Proof.Machine Sys2Proof.Claims

/-- The first position at which a predicate holds is found past entries of which none meets it. -/
theorem indexOf?_split {α : Type} {p : α → Bool} {l pre post : List α} {a : α} (hl : l = pre ++ a :: post)
    (hpre : ∀ d ∈ pre, p d = false) (ha : p a = true) : indexOf? p l 0 = some pre.length := by
  suffices h : ∀ n, indexOf? p l n = some (n + pre.length) by simpa using h 0
  subst hl
  induction pre with
  | nil => intro n; simp [indexOf?, ha]
  | cons b r ih =>
    intro n
    have hb : p b = false := hpre b List.mem_cons_self
    simp only [List.cons_append, indexOf?, hb, Bool.false_eq_true, if_false]
    rw [ih (fun d hd => hpre d (List.mem_cons_of_mem _ hd)), List.length_cons]
    congr 1
    omega

section
variable {s t u : State} {core idx : Nat} {e : Entry}

/-! ### The store buffer's head (E2) -/

theorem pass_complete {fib : Nat} {pre post : List Entry} (hd : s.dead = false) (hs : s.sb = pre ++ e :: post)
    (he : e.ofFibre core fib = true) (hpre : ∀ d ∈ pre, d.ofFibre core fib = false)
    (hover : ∀ d ∈ pre, d.core = core → e.overlaps d = false) :
    exec (.pass core fib) s = .next ({ s with sb := pre ++ post }.toQueue e) := by
  rw [exec_pass, execPass]
  refine runEvent_ok hd ?_
  have hfree : ((s.sb.take pre.length).any fun d => d.core == core && e.overlaps d) = false := by
    rw [hs, List.take_left', List.any_eq_false]
    · intro d hmem hboth
      obtain ⟨hc, ho⟩ := Bool.and_eq_true_iff.1 hboth
      rw [hover d hmem (beq_iff_eq.1 hc)] at ho
      cases ho
    · rfl
  simp only [State.pass, indexOf?_split hs hpre he, Network.getElem?_split hs, hfree, Network.removeAt_split hs]
  rfl

/-! ### An entry that drains (E4) -/

theorem drain_due {p : Nat × Nat} (hd : s.dead = false) (h : s.drainable core idx = some e) (ht : s.takeIn e = .error p)
    (hm : s.markDue [p] = some u) : exec (.drain core idx) s = .next u := by
  rw [exec_drain, execDrain]
  refine runEvent_ok hd ?_
  rw [State.drain, h]
  simp only [ht, hm]

/-- The step of an entry that the slice takes in: what applying it answers, or a wait. -/
theorem drain_applies (h : s.drainable core idx = some e) (ht : s.takeIn e = .ok u) :
    exec (.drain core idx) s = runEvent s (({ u with rq := dropEntry core idx u.rq }).applyEntry e) := by
  rw [exec_drain, execDrain, State.drain, h]
  simp only [ht]

/-- Applying an entry: to a lost range it is lost. -/
theorem applyEntry_lost {s0 : State} (ht : s0.arrival e = t) (h : t.entryLost e = true) :
    s0.applyEntry e = some (t.loseEntry e) := by
  simp only [State.applyEntry, ht, h, if_true]

/-- While the throttle holds its row, it waits (R283). -/
theorem applyEntry_waits {s0 : State} (ht : s0.arrival e = t) (hl : t.entryLost e = false) (hw : t.entryWaits e = true) :
    s0.applyEntry e = none := by
  simp only [State.applyEntry, ht, hl, hw, Bool.false_eq_true, if_true, if_false]

section
variable {s0 : State} (ht : s0.arrival e = t) (hl : t.entryLost e = false) (hw : t.entryWaits e = false)
include ht hl hw

theorem applyEntry_rel {sc : Scope} (hk : e.kind = .rel sc) : s0.applyEntry e = some t := by
  simp only [State.applyEntry, ht, hl, hw, hk, Bool.false_eq_true, if_false]

theorem applyEntry_store {bs : List Byte} {release clears : Bool} (hk : e.kind = .store bs release clears)
    (hroom : release = true ∨ t.writesVersion e = false ∨ t.versionFull e.core e.slot e.loc = false) :
    s0.applyEntry e = some (t.applyStore e bs release clears) := by
  have hfree : (!release && t.writesVersion e && t.versionFull e.core e.slot e.loc) = false := by
    obtain h | h | h := hroom <;> simp [h]
  simp only [State.applyEntry, ht, hl, hw, hk, hfree, Bool.false_eq_true, if_false]

theorem applyEntry_rmw {aop : Nat} {n : Nat} {v : Word64} (hk : e.kind = .atomic (.rmw aop) n v) :
    s0.applyEntry e = some (t.applyAtomic e n fun y => rmwValue aop n e.lane e.pc y v.toNat) := by
  simp only [State.applyEntry, ht, hl, hw, hk, Bool.false_eq_true, if_false]

theorem applyEntry_cas {c : Word64} {n : Nat} {v : Word64} (hk : e.kind = .atomic (.cas c) n v) :
    s0.applyEntry e = some (t.applyAtomic e n fun y => casValue y v.toNat c.toNat) := by
  simp only [State.applyEntry, ht, hl, hw, hk, Bool.false_eq_true, if_false]

/-- A queue, pin or allocation entry acts at its home. -/
theorem applyEntry_slice {op : AtomOp} {n : Nat} {v : Word64} (hk : e.kind = .atomic op n v) (hr : ∀ a, op ≠ .rmw a)
    (hc : ∀ c, op ≠ .cas c) : s0.applyEntry e = t.applySlice e op n v := by
  simp only [State.applyEntry, ht, hl, hw, hk, Bool.false_eq_true, if_false]

end

theorem drain_complete (hd : s.dead = false) (h : s.drainable core idx = some e) (hu : s.takeIn e = .ok u) :
    let out := exec (.drain core idx) s
    let t := arrived u core idx e
    (t.entryLost e = true → out = .next (t.loseEntry e)) ∧
    (t.entryLost e = false → t.entryWaits e = true → out = .next { s with stall := true }) ∧
    (t.entryLost e = false → t.entryWaits e = false →
      (∀ sc, e.kind = .rel sc → out = .next t) ∧
      (∀ bs release clears, e.kind = .store bs release clears →
        release = true ∨ t.writesVersion e = false ∨ t.versionFull e.core e.slot e.loc = false →
        out = .next (t.applyStore e bs release clears)) ∧
      (∀ aop n v, e.kind = .atomic (.rmw aop) n v →
        out = .next (t.applyAtomic e n fun y => rmwValue aop n e.lane e.pc y v.toNat)) ∧
      (∀ c n v, e.kind = .atomic (.cas c) n v →
        out = .next (t.applyAtomic e n fun y => casValue y v.toNat c.toNat))) := by
  intro out t
  have hout : out = runEvent s (({ u with rq := dropEntry core idx u.rq }).applyEntry e) := drain_applies h hu
  have ht : ({ u with rq := dropEntry core idx u.rq }).arrival e = t := rfl
  clear_value t out
  subst hout
  refine ⟨fun hl => runEvent_ok hd (applyEntry_lost ht hl), fun hl hw => runEvent_none hd (applyEntry_waits ht hl hw), fun hl hw =>
    ⟨fun sc hk => ?_, fun bs release clears hk hroom => ?_, fun aop n v hk => ?_, fun c n v hk => ?_⟩⟩
  · exact runEvent_ok hd (applyEntry_rel ht hl hw hk)
  · exact runEvent_ok hd (applyEntry_store ht hl hw hk hroom)
  · exact runEvent_ok hd (applyEntry_rmw ht hl hw hk)
  · exact runEvent_ok hd (applyEntry_cas ht hl hw hk)

/-! ### Copies and home lines (E5, E6, E12) -/

theorem fill_complete {slot line q : Nat} {k : Crew} {l : Loc} (hd : s.dead = false) (hk : s.crew? core slot = some k)
    (hl : s.fillPlace k (128 * line) = some l) (hq : s.fillQuad k = some q) (ho : s.owned k.part (lineOf l.pa) = false)
    (hlost : s.lostPa l.pa = false) (hw : s.lineWaits k.part (lineOf l.pa) = false) :
    exec (.fill core slot line) s =
      .next (s.fillL1 { core := core, group := q, part := k.part, slot := slot, fib := 0 } l) := by
  rw [exec_fill, execFill]
  refine runEvent_ok hd ?_
  simp only [State.fill, hk, hl, hq, ho, hlost, hw, Option.bind_some]
  rfl

theorem evict_complete {line : Nat} (hd : s.dead = false) (h : ∃ c ∈ s.l1, c.core = core ∧ c.line = line ∧ c.pinned = false) :
    ∃ t, exec (.evict core line) s = .next t ∧ t = { s with l1 := t.l1 } ∧
      ∀ c, c ∈ t.l1 ↔ c ∈ s.l1 ∧ ¬(c.core = core ∧ c.line = line ∧ c.pinned = false) := by
  obtain ⟨c, hc, hcore, hline, hpin⟩ := h
  have hany : (s.l1.any fun c => c.core == core && c.line == line && !c.pinned) = true :=
    List.any_eq_true.2 ⟨c, hc, by simp [hcore, hline, hpin]⟩
  refine ⟨{ s with l1 := s.l1.filter fun c => !(c.core == core && c.line == line && !c.pinned) }, ?_, rfl, fun d => ?_⟩
  · rw [exec_evict, execEvict]
    refine runEvent_ok hd ?_
    rw [State.evict, if_pos hany]
  · rw [List.mem_filter]
    refine and_congr_right fun _ => ?_
    cases d.pinned <;> simp [imp_iff_not_or]

theorem writeBack_complete {line : Nat} {pre post : List HomeLine} {h : HomeLine} (hd : s.dead = false)
    (hs : s.home = pre ++ h :: post) (hpre : ∀ d ∈ pre, d.line = line → d.dirty0 = false ∧ d.dirty1 = false) (hline : h.line = line)
    (hdirty : h.dirty0 = true ∨ h.dirty1 = true)
    (hw : ∀ sec ∈ [2 * line, 2 * line + 1], h.isDirty sec = true → s.rowWaits h.site.part sec = false) :
    exec (.writeBack line) s = .next (s.writeBack h.site.part line) := by
  have hfind : s.home.find? (fun h => h.line == line && (h.dirty0 || h.dirty1)) = some h := by
    rw [hs, List.find?_append, List.find?_eq_none.2, Option.none_or, List.find?_cons_of_pos]
    · rw [hline, BEq.rfl, Bool.true_and, Bool.or_eq_true]
      exact hdirty
    · intro d hmem hboth
      obtain ⟨hl, hdd⟩ := Bool.and_eq_true_iff.1 hboth
      obtain ⟨h0, h1⟩ := hpre d hmem (beq_iff_eq.1 hl)
      simp [h0, h1] at hdd
  have hfree : ([2 * line, 2 * line + 1].any fun sec => h.isDirty sec && s.rowWaits h.site.part sec) = false :=
    List.any_eq_false.2 fun sec hmem hboth => by
      obtain ⟨hdd, hrow⟩ := Bool.and_eq_true_iff.1 hboth
      rw [hw sec hmem hdd] at hrow
      cases hrow
  rw [exec_writeBack, execWriteBack]
  refine runEvent_ok hd ?_
  simp only [State.writeBackStep, hfind, hfree, Bool.false_eq_true, if_false]

/-! ### A link accepts a write (R97, R100) -/

theorem linkAccept_unapplied {pre post : List Entry} (hd : s.dead = false) (hs : s.linkWait = pre ++ e :: post) (hl : e.atLink = false) :
    exec (.writeAcceptedByLink pre.length) s = .next { s with linkWait := pre ++ post } := by
  rw [exec_writeAcceptedByLink, execWriteAcceptedByLink]
  refine runEvent_ok hd ?_
  simp only [State.linkAccept, Network.getElem?_split hs, Network.removeAt_split hs, Option.bind_some, hl]
  rfl

theorem linkAccept_applied {pre post : List Entry} {bs : List Byte} {release clears : Bool} (hd : s.dead = false)
    (hs : s.linkWait = pre ++ e :: post) (hl : e.atLink = true) (hk : e.kind = .store bs release clears)
    (hover : ∀ d ∈ pre, d.atLink = true → e.loc.pa + e.size ≤ d.loc.pa ∨ d.loc.pa + d.size ≤ e.loc.pa)
    (hw : s.rowWaits e.part (sectorOf e.loc.pa) = false) :
    exec (.writeAcceptedByLink pre.length) s = .next ({ s with linkWait := pre ++ post }.storePool e bs clears) := by
  have hfree : ((s.linkWait.take pre.length).any fun d => d.atLink && decide (d.loc.pa < e.loc.pa + e.size)
      && decide (e.loc.pa < d.loc.pa + d.size)) = false := by
    rw [hs, List.take_left', List.any_eq_false]
    · intro d hmem hall
      simp only [Bool.and_eq_true, decide_eq_true_eq] at hall
      obtain ⟨⟨hat, h1⟩, h2⟩ := hall
      have := hover d hmem hat
      omega
    · rfl
  rw [exec_writeAcceptedByLink, execWriteAcceptedByLink]
  refine runEvent_ok hd ?_
  simp only [State.linkAccept, Network.getElem?_split hs, Network.removeAt_split hs, Option.bind_some, hl, hfree, hw, hk]
  rfl

theorem bufferStepsComplete : BufferStepsComplete := by
  refine ⟨fun s core fib pre post e hd hs he hpre hover => pass_complete hd hs he hpre hover, fun s core idx e hd h => ?_,
    fun s core slot line q k l hd hk hl hq ho hlost hw => fill_complete hd hk hl hq ho hlost hw,
    fun s core line hd h => evict_complete hd h,
    fun s line pre post h hd hs hpre hline hdirty hw => writeBack_complete hd hs hpre hline hdirty hw,
    fun s pre post e hd hs => ?_⟩
  · exact ⟨fun p u ht hm => drain_due hd h ht hm, fun u hu => drain_complete hd h hu⟩
  · exact ⟨linkAccept_unapplied hd hs, fun bs release clears hl hk hover hw => linkAccept_applied hd hs hl hk hover hw⟩

end

/-! ### Queue operations at the home of their descriptor (R150-R152) -/

section
variable {s : State} {part x : Nat} {lv : Level} {l el : Loc} {wide : Bool}

theorem qenq_refused (hb : s.rangeBad l.pa 64 = false) (hok : (s.qdesc l).ok (some wide) = false) :
    s.qenq part lv l wide x = { s.qno with refused := true } := by
  simp [State.qenq, hb, hok]

theorem qenq_full (hb : s.rangeBad l.pa 64 = false) (hok : (s.qdesc l).ok (some wide) = true)
    (hfull : ((s.qdesc l).cap : Int) ≤ (s.qdesc l).used) : s.qenq part lv l wide x = s.qno := by
  simp [State.qenq, hb, hok, hfull]

theorem qenq_unmapped {c : Cause} (hb : s.rangeBad l.pa 64 = false) (hok : (s.qdesc l).ok (some wide) = true)
    (hroom : (s.qdesc l).used < (s.qdesc l).cap)
    (hel : s.elemLoc part lv .store ((s.qdesc l).elemIa l (s.qdesc l).tail) = .error c) :
    s.qenq part lv l wide x = { s.qno with refused := true } := by
  simp [State.qenq, hb, hok, hroom, hel]

theorem qenq_enters (hb : s.rangeBad l.pa 64 = false) (hok : (s.qdesc l).ok (some wide) = true)
    (hroom : (s.qdesc l).used < (s.qdesc l).cap)
    (hel : s.elemLoc part lv .store ((s.qdesc l).elemIa l (s.qdesc l).tail) = .ok el) (ho : s.owned part (lineOf el.pa) = false) :
    s.qenq part lv l wide x = { s.qno with
      state := ((s.placeWrite el (leBytes (2 ^ (s.qdesc l).esz) x)).placeWrite (l.plus 8)
        (leBytes 8 (((s.qdesc l).tail + 1) % 2 ^ 64))).wakeAll part l
      status := true } := by
  simp [State.qenq, hb, hok, hroom, hel, ho]

theorem qdeq_refused (hb : s.rangeBad l.pa 64 = false) (hok : (s.qdesc l).ok (some wide) = false) :
    s.qdeq part lv l wide = { s.qno with refused := true } := by
  simp [State.qdeq, hb, hok]

theorem qdeq_empty (hb : s.rangeBad l.pa 64 = false) (hok : (s.qdesc l).ok (some wide) = true) (hempty : (s.qdesc l).used ≤ 0) :
    s.qdeq part lv l wide = s.qno := by
  simp [State.qdeq, hb, hok, hempty]

theorem qdeq_unmapped {c : Cause} (hb : s.rangeBad l.pa 64 = false) (hok : (s.qdesc l).ok (some wide) = true)
    (hsome : 0 < (s.qdesc l).used) (hel : s.elemLoc part lv .load ((s.qdesc l).elemIa l (s.qdesc l).head) = .error c) :
    s.qdeq part lv l wide = { s.qno with refused := true } := by
  simp [State.qdeq, hb, hok, Int.not_le.2 hsome, hel]

theorem qdeq_takes (hb : s.rangeBad l.pa 64 = false) (hok : (s.qdesc l).ok (some wide) = true) (hsome : 0 < (s.qdesc l).used)
    (hel : s.elemLoc part lv .load ((s.qdesc l).elemIa l (s.qdesc l).head) = .ok el) (ho : s.owned part (lineOf el.pa) = false)
    (hclean : s.rangeBad el.pa (2 ^ (s.qdesc l).esz) = false) :
    s.qdeq part lv l wide = { s.qno with
      state := s.placeWrite l (leBytes 8 (((s.qdesc l).head + 1) % 2 ^ 64))
      val := s.placeVal el (2 ^ (s.qdesc l).esz)
      status := true } := by
  simp [State.qdeq, hb, hok, Int.not_le.2 hsome, hel, ho, hclean, State.qno]

end

/-! ### Pins and allocation (R154-R162) -/

section
variable {s : State} {c : Context} {core b : Nat} {v : Word64} {h : Bool}

theorem pinStep_counts (hr : s.resolve c core v 0 = .line b h) (hm : s.objMoving c b = false) (hp : s.objPins c b ≠ 65535) :
    s.pinStep c core v = some (s.iaWrite c (b + 4) 2 (s.objPins c b + 1), (c.heapVa b 0 16).getD 0, false) := by
  simp [State.pinStep, hr, hm, hp]

theorem pinStep_full (hr : s.resolve c core v 0 = .line b h) (hm : s.objMoving c b = false) (hp : s.objPins c b = 65535) :
    s.pinStep c core v = some (s, 0, true) := by
  simp [State.pinStep, hr, hm, hp]

theorem unpinStep_counts (hr : s.resolve c core v 0 = .line b h) (hp : s.objPins c b ≠ 0) :
    s.unpinStep c core v = some (s.iaWrite c (b + 4) 2 (s.objPins c b - 1), 0, false) := by
  simp [State.unpinStep, hr, hp]

theorem unpinStep_none (hr : s.resolve c core v 0 = .line b h) (hp : s.objPins c b = 0) :
    s.unpinStep c core v = some (s, 0, true) := by
  simp [State.unpinStep, hr, hp]

/-- The state after an allocation of `len` bytes at `top`: TOP and the count of objects raised, the lines zero, the size in the header. -/
def allocated (s : State) (c : Context) (region size : Nat) : State :=
  let al := c.regionAlloc region
  let top := s.iaVal c al 8
  let len := ceilDiv size 128 * 128
  let w := s.iaWrite c al 8 (top + len)
  ((w.iaWrite c (al + 16) 8 ((w.iaVal c (al + 16) 8 + 1) % 2 ^ 64)).zeroLines c top (len / 128)).iaWrite c top 4
    (ceilDiv size 16 * 16)

theorem hnewStep_allocates {region size : Nat} (hmin : 16 ≤ size) (hmax : size ≤ 65536) (hv : c.regionValid region = true)
    (hend : s.iaVal c (c.regionAlloc region) 8 + ceilDiv size 128 * 128 ≤ s.iaVal c (c.regionAlloc region + 8) 8)
    (hbase : c.regionBase region ≤ s.iaVal c (c.regionAlloc region) 8)
    (hlimit : s.iaVal c (c.regionAlloc region) 8 + ceilDiv size 128 * 128 ≤ c.regionLimit region) :
    s.hnewStep c region size = (allocated s c region size, mkRef region (s.iaVal c (c.regionAlloc region) 8)) := by
  unfold State.hnewStep
  refine if_neg ?_
  simp only [not_or, Nat.not_lt, hmin, hmax, hv, hend, hbase, hlimit, Bool.true_eq_false, not_false_eq_true, and_self]

theorem hnewStep_null {region size : Nat}
    (h : s.iaVal c (c.regionAlloc region + 8) 8 < s.iaVal c (c.regionAlloc region) 8 + ceilDiv size 128 * 128 ∨
      s.iaVal c (c.regionAlloc region) 8 < c.regionBase region ∨
      c.regionLimit region < s.iaVal c (c.regionAlloc region) 8 + ceilDiv size 128 * 128) :
    s.hnewStep c region size = (s, 0) := by
  unfold State.hnewStep
  exact if_pos (.inr (.inr (.inr h)))

end

/-! ### A slice operation that drains -/

/-- What an operation leaves once it has answered: the reply, and the core's copy of the line refilled. -/
def answered (e : Entry) (l : Loc) (w : State) (r : AtomReply) : Out State := .next ((w.atomReply e r).refreshCopy e l)

section
variable {s : State} {core idx n : Nat} {e : Entry} {v : Word64} {c : Context}

theorem arrived_ctx? (s : State) (core idx part : Nat) (e : Entry) : (arrived s core idx e).ctx? part = s.ctx? part := by
  unfold arrived State.arrival
  split <;> rfl

/-- The level at which a slice operation reaches the elements of a queue: that of its crew. -/
def crewLevel (u : State) (e : Entry) : Level := ((u.crew? e.core e.slot).map (·.level)).getD .u

theorem sliceStep_qenq {u : State} {l : Loc} {q : QStep} (hq : u.qenq e.part (crewLevel u e) e.loc (n == 8) v.toNat = q)
    (hw : q.waits = false) : u.sliceStep c e .qenq l n v = some (q.state.atomReply e (e.reply 0 q.status q.refused)) := by
  have hlevel : u.sliceStep c e .qenq l n v = (let q := u.qenq e.part (crewLevel u e) e.loc (n == 8) v.toNat
      if q.waits then none else some (q.state.atomReply e (e.reply 0 q.status q.refused))) := by
    unfold State.sliceStep crewLevel
    cases u.crew? e.core e.slot <;> rfl
  rw [hlevel, hq]
  exact if_neg (by rw [hw]; exact Bool.false_ne_true)

theorem sliceStep_qdeq {u : State} {l : Loc} {q : QStep} (hq : u.qdeq e.part (crewLevel u e) e.loc (n == 8) = q)
    (hw : q.waits = false) (hb : q.bad = false) :
    u.sliceStep c e .qdeq l n v = some (q.state.atomReply e (e.reply (BitVec.ofNat 64 q.val) q.status q.refused)) := by
  have hlevel : u.sliceStep c e .qdeq l n v = (let q := u.qdeq e.part (crewLevel u e) e.loc (n == 8)
      if q.waits then none
      else some (q.state.atomReply e { e.reply (BitVec.ofNat 64 q.val) q.status q.refused with poison := q.bad })) := by
    unfold State.sliceStep crewLevel
    cases u.crew? e.core e.slot <;> rfl
  rw [hlevel, hq]
  refine (if_neg (by rw [hw]; exact Bool.false_ne_true)).trans ?_
  rw [hb]
  rfl

theorem sliceStep_pin {u w : State} {l : Loc} {val : Nat} {full : Bool} (hb : u.rangeBad l.pa 16 = false)
    (hp : u.pinStep c e.core v = some (w, val, full)) :
    u.sliceStep c e .pin l n v = some (w.atomReply e (e.reply (BitVec.ofNat 64 val) false full)) := by
  simp only [State.sliceStep, hb, hp, Bool.false_eq_true, if_false, Option.map_some]

theorem sliceStep_unpin {u w : State} {l : Loc} {val : Nat} {none : Bool} (hb : u.rangeBad l.pa 16 = false)
    (hp : u.unpinStep c e.core v = some (w, val, none)) :
    u.sliceStep c e .unpin l n v = some (w.atomReply e (e.reply 0 false none)) := by
  simp only [State.sliceStep, hb, hp, Bool.false_eq_true, if_false, Option.map_some]

theorem sliceStep_hnew {u w : State} {l : Loc} {region size : Nat} {r : Word64} (hb : u.rangeBad l.pa 64 = false)
    (hp : u.hnewStep c region size = (w, r)) :
    u.sliceStep c e (.hnew region size) l n v = some (w.atomReply e (e.reply r false false)) := by
  simp only [State.sliceStep, hb, hp, Bool.false_eq_true, if_false]

/-- A queue, pin or allocation entry that drains ends as its step at the home says, the crew's version of the line committed before. -/
theorem drain_slice {t : State} {op : AtomOp} {w : State} {r : AtomReply} (hd : s.dead = false) (h : s.drainable core idx = some e)
    (hctx : s.ctx? e.part = some c) (ht : arrived s core idx e = t) (hl : t.entryLost e = false) (hw : t.entryWaits e = false)
    (hk : e.kind = .atomic op n v) (hr : ∀ a, op ≠ .rmw a) (hc : ∀ a, op ≠ .cas a)
    (hstep : (t.commitLine e.core e.slot (t.slicePlace c e op v)).sliceStep c e op (t.slicePlace c e op v) n v =
      some (w.atomReply e r)) :
    exec (.drain core idx) s = answered e (t.slicePlace c e op v) w r := by
  have htake : s.takeIn e = .ok s := by rw [State.takeIn, hk]
  have hctxt : t.ctx? e.part = some c := by rw [← ht, arrived_ctx?, hctx]
  rw [drain_applies h htake]
  refine runEvent_ok hd ((applyEntry_slice ht hl hw hk hr hc).trans ?_)
  simp only [State.applySlice, hctxt, hstep, Option.map_some]

end

section
variable {s t : State} {core idx n : Nat} {e : Entry} {v : Word64} {c : Context} (hd : s.dead = false)
  (h : s.drainable core idx = some e) (hctx : s.ctx? e.part = some c) (ht : arrived s core idx e = t) (hl : t.entryLost e = false)
  (hw : t.entryWaits e = false)
include hd h hctx ht hl hw

theorem drain_qenq {q : QStep} (hk : e.kind = .atomic .qenq n v)
    (hq : (t.commitLine e.core e.slot e.loc).qenq e.part (crewLevel (t.commitLine e.core e.slot e.loc) e) e.loc (n == 8) v.toNat = q)
    (hwait : q.waits = false) : exec (.drain core idx) s = answered e e.loc q.state (e.reply 0 q.status q.refused) :=
  drain_slice hd h hctx ht hl hw hk nofun nofun (sliceStep_qenq hq hwait)

theorem drain_qdeq {q : QStep} (hk : e.kind = .atomic .qdeq n v)
    (hq : (t.commitLine e.core e.slot e.loc).qdeq e.part (crewLevel (t.commitLine e.core e.slot e.loc) e) e.loc (n == 8) = q)
    (hwait : q.waits = false) (hb : q.bad = false) :
    exec (.drain core idx) s = answered e e.loc q.state (e.reply (BitVec.ofNat 64 q.val) q.status q.refused) :=
  drain_slice hd h hctx ht hl hw hk nofun nofun (sliceStep_qdeq hq hwait hb)

theorem drain_pin {l : Loc} {w : State} {val : Nat} {full : Bool} (hk : e.kind = .atomic .pin n v)
    (hh : t.headerLoc c e.core v = some l) (hb : (t.commitLine e.core e.slot l).rangeBad l.pa 16 = false)
    (hp : (t.commitLine e.core e.slot l).pinStep c e.core v = some (w, val, full)) :
    exec (.drain core idx) s = answered e l w (e.reply (BitVec.ofNat 64 val) false full) := by
  have hplace : t.slicePlace c e .pin v = l := by rw [State.slicePlace, hh, Option.getD_some]
  rw [← hplace] at hb hp ⊢
  exact drain_slice hd h hctx ht hl hw hk nofun nofun (sliceStep_pin hb hp)

theorem drain_unpin {l : Loc} {w : State} {val : Nat} {none : Bool} (hk : e.kind = .atomic .unpin n v)
    (hh : t.headerLoc c e.core v = some l) (hb : (t.commitLine e.core e.slot l).rangeBad l.pa 16 = false)
    (hp : (t.commitLine e.core e.slot l).unpinStep c e.core v = some (w, val, none)) :
    exec (.drain core idx) s = answered e l w (e.reply 0 false none) := by
  have hplace : t.slicePlace c e .unpin v = l := by rw [State.slicePlace, hh, Option.getD_some]
  rw [← hplace] at hb hp ⊢
  exact drain_slice hd h hctx ht hl hw hk nofun nofun (sliceStep_unpin hb hp)

theorem drain_hnew {region size : Nat} {w : State} {r : Word64} (hk : e.kind = .atomic (.hnew region size) n v)
    (hb : (t.commitLine e.core e.slot e.loc).rangeBad e.loc.pa 64 = false)
    (hp : (t.commitLine e.core e.slot e.loc).hnewStep c region size = (w, r)) :
    exec (.drain core idx) s = answered e e.loc w (e.reply r false false) :=
  drain_slice hd h hctx ht hl hw hk nofun nofun (sliceStep_hnew hb hp)

end

theorem sliceOperationsComplete : SliceOperationsComplete := by
  intro s core idx n e v c hd h hctx t hl hw out
  have ht : arrived s core idx e = t := rfl
  clear_value t
  refine ⟨?_, ?_, ?_⟩
  · intro u d ends level hb
    refine ⟨?_, fun hk hok => ⟨fun hfull => ?_, fun hroom => ⟨fun x hel => ?_, fun el hel ho => ?_⟩⟩,
      fun hk hok => ⟨fun hempty => ?_, fun hsome => ⟨fun x hel => ?_, fun el hel ho hclean => ?_⟩⟩⟩
    · rintro (hk | hk) hok
      · exact drain_qenq hd h hctx ht hl hw hk (qenq_refused hb hok) rfl
      · exact drain_qdeq hd h hctx ht hl hw hk (qdeq_refused hb hok) rfl rfl
    · exact drain_qenq hd h hctx ht hl hw hk (qenq_full hb hok hfull) rfl
    · exact drain_qenq hd h hctx ht hl hw hk (qenq_unmapped hb hok hroom hel) rfl
    · exact drain_qenq hd h hctx ht hl hw hk (qenq_enters hb hok hroom hel ho) rfl
    · exact drain_qdeq hd h hctx ht hl hw hk (qdeq_empty hb hok hempty) rfl rfl
    · exact drain_qdeq hd h hctx ht hl hw hk (qdeq_unmapped hb hok hsome hel) rfl rfl
    · exact drain_qdeq hd h hctx ht hl hw hk (qdeq_takes hb hok hsome hel ho hclean) rfl rfl
  · intro b g l hh u ends hr hb
    refine ⟨fun hk hm => ⟨fun hp => ?_, fun hp => ?_⟩, fun hk => ⟨fun hp => ?_, fun hp => ?_⟩⟩
    · exact drain_pin hd h hctx ht hl hw hk hh hb (pinStep_counts hr hm hp)
    · exact drain_pin hd h hctx ht hl hw hk hh hb (pinStep_full hr hm hp)
    · exact drain_unpin hd h hctx ht hl hw hk hh hb (unpinStep_counts hr hp)
    · exact drain_unpin hd h hctx ht hl hw hk hh hb (unpinStep_none hr hp)
  · intro region size hk u al top len ends hb hmin hmax hv
    exact ⟨fun hend hbase hlimit =>
      drain_hnew hd h hctx ht hl hw hk hb (hnewStep_allocates hmin hmax hv hend hbase hlimit),
      fun hnull => drain_hnew hd h hctx ht hl hw hk hb (hnewStep_null hnull)⟩

/-- Settles O35: the steps of the buffers, then what a slice operation does. -/
theorem memoryStepsComplete : Obligations.MemoryStepsComplete := ⟨bufferStepsComplete, sliceOperationsComplete⟩

end Sys2Proof.Buffers

/-! PROOF. The steps of copies, B-store loads and relocation (R99, R128-R131, R163-R168, R221). -/

namespace Sys2Proof.EngineSteps
open Sys2Proof Sys2Proof.Machine Sys2Proof.Claims

theorem mem_insertAsc_self (x : Nat) (l : List Nat) : x ∈ insertAsc x l := by
  induction l with
  | nil => exact List.mem_cons_self
  | cons y ys ih =>
    unfold insertAsc
    split
    · exact List.mem_cons_self
    · split
      · next h => exact h ▸ List.mem_cons_self
      · exact List.mem_cons_of_mem _ ih

/-! ### What a step of an engine that may act does -/

section
variable {s t : State} {id : Nat} {e : Engine}

theorem engine?_id (h : s.engine? id = some e) : e.id = id := by
  simpa using List.find?_some h

/-- The engine that an update of it leaves. -/
theorem engine?_updEngine {f : Engine → Engine} (h : s.engine? id = some e) (hf : (f e).id = id) :
    (s.updEngine id f).engine? id = some (f e) :=
  find?_updFirst_self _ f _ e h (by simpa using hf)

section
variable (hA : EngineActs s id e)
include hA

theorem lineWrite_starts {ds : List CopyDesc} {td : List (Nat × Nat)} (hj : e.job = .copy [] ds false td) :
    exec (.lineWrite id) s = .next (s.startCopy e ds) := by
  rw [exec_lineWrite, execLineWrite]
  refine runEvent_ok hA.powered ?_
  rw [State.lineWrite, hA.found, Option.bind_some, hA.free, hj]
  rfl

theorem lineWrite_copy {ds : List CopyDesc} {td : List (Nat × Nat)} (hj : e.job = .copy [] ds true td)
    (h : s.copyStep e ds td = some t) : exec (.lineWrite id) s = .next t := by
  rw [exec_lineWrite, execLineWrite]
  refine runEvent_ok hA.powered ?_
  rw [State.lineWrite, hA.found, Option.bind_some, hA.free, hj]
  exact h

theorem lineWrite_bld {gq slot size rows src pitch next : Nat} {sc : Bool} (hj : e.job = .bld gq slot size rows src pitch sc next)
    (h : s.bldStep e gq slot size rows src pitch sc next = some t) : exec (.lineWrite id) s = .next t := by
  rw [exec_lineWrite, execLineWrite]
  refine runEvent_ok hA.powered ?_
  rw [State.lineWrite, hA.found, Option.bind_some, hA.free, hj]
  exact h

theorem claim_acts {die list n k : Nat} {h : Option Nat} (hj : e.job = .goat die list n k false h) (hk : k < n)
    (hc : s.claim e die list n k = some t) : exec (.claim id) s = .next t := by
  rw [exec_claim, execClaim]
  refine runEvent_ok hA.powered ?_
  rw [State.claimStep, hA.found, Option.bind_some, hj]
  simp only [hA.free, Nat.not_le.2 hk, decide_false, Bool.or_self, Bool.false_eq_true, if_false, hc]

theorem hold_acts {die list n k : Nat} (hj : e.job = .goat die list n k true none) (hh : s.hold e die list n k = some t) :
    exec (.hold id) s = .next t := by
  rw [exec_hold, execHold]
  refine runEvent_ok hA.powered ?_
  rw [State.holdStep, hA.found, Option.bind_some, hj]
  simp only [hA.free, Bool.false_eq_true, if_false, hh]

theorem copyLine_acts {die list n k : Nat} {h : Option Nat} (hj : e.job = .goat die list n k true h)
    (hc : s.copyOrFinish e die list n k h = some t) : exec (.copyLine id) s = .next t := by
  rw [exec_copyLine, execCopyLine]
  refine runEvent_ok hA.powered ?_
  rw [State.copyLineStep, hA.found, Option.bind_some, hj]
  simp only [hA.free, Bool.false_eq_true, if_false, hc]

end

/-! ### Copies (R128-R131) -/

/-- The line of a copy that is next in its chunk, and the descriptor that names it. -/
structure NextLine (s : State) (e : Engine) (ds : List CopyDesc) (td : List (Nat × Nat)) (n di line : Nat) (d : CopyDesc) : Prop where
  chosen : s.choose e.id (chunkRest (copyTodo (s.engBase e) ds).length td.length) = n
  line_ : td[n]? = some (di, line)
  desc : ds[di]? = some d
  free : s.copyWaits e d line = false

section
variable {ds : List CopyDesc} {td : List (Nat × Nat)} {n di line : Nat} {d : CopyDesc} (hN : NextLine s e ds td n di line d)
include hN

/-- A memory line of a copy, read or written, is done. -/
theorem copyStep_memory {pa : Option Nat} (hm : d.toScratch = false ∨ padBase ≤ line) (hc : s.copyLine e d line = .ok (t, pa)) :
    s.copyStep e ds td = some (lineDone t e ds td n line pa) := by
  have hmem : (!d.toScratch || decide (padBase ≤ line)) = true := by
    obtain h | h := hm <;> simp [h]
  simp only [State.copyStep, hN.chosen, hN.line_, hN.desc, hN.free, hmem, hc, Bool.false_eq_true, if_true, if_false]
  rfl

theorem copyStep_scratch {bs : List (Nat × Byte × Bool)} {k : Crew} {s1 : State} (hl : line < padBase) (hs : d.toScratch = true)
    (hg : s.gatherLine e d (s.engBase e) (d.sources (s.engBase e) line) = .ok bs) (hk : s.engCrew e = some k)
    (hr : s.reserveScratch e.core e.slot [line] = .ok s1) :
    s.copyStep e ds td = some (lineDone ((s1.readsCounted e d line).updCrew e.core e.slot fun k =>
      k.updLive fun c => c.engScratch line bs) e ds td n line none) := by
  have hscr : (!d.toScratch || decide (padBase ≤ line)) = false := by simp [hs, hl]
  simp only [State.copyStep, hN.chosen, hN.line_, hN.desc, hN.free, hscr, hg, hk, hr, Bool.false_eq_true, if_false]
  rfl

end

theorem copyLine_padding {d : CopyDesc} {line : Nat} {l : Loc} (hp : padBase ≤ line)
    (hl : s.engLoc e .load (128 * (line - padBase)) = .ok l) :
    s.copyLine e d line = .ok (s.countPlace e.part (Except.ok (ε := EngFault) l), none) := by
  rw [State.copyLine, if_pos hp, hl]
  rfl

theorem copyLine_written {d : CopyDesc} {line : Nat} {l : Loc} {bs : List (Nat × Byte × Bool)} (hp : line < padBase)
    (hg : s.gatherLine e d (s.engBase e) (d.sources (s.engBase e) line) = .ok bs) (hl : s.engLoc e .store (128 * line) = .ok l) :
    s.copyLine e d line = .ok ((s.readsCounted e d line).engWrite e l bs, some (lineOf l.pa)) := by
  simp only [State.copyLine, if_neg (Nat.not_le.2 hp), hg, hl]
  rfl

/-! ### B-store loads (R221) -/

theorem bldStep_row {gq slot size rows src pitch next : Nat} {sc : Bool} {bs : List (Byte × Bool)} (hn : next < rows)
    (hb : s.bldBlocked e gq (slotsOf slot rows size) = false)
    (hw : sc = false → ∀ n < size, s.vaWaits false e .load (src + next * pitch + 64 * n) = false)
    (hbs : s.bldBytes e sc (src + next * pitch) (64 * size) = .ok bs) :
    s.bldStep e gq slot size rows src pitch sc next = some
      (((if sc then s else s.countReads false e ((List.range (64 * size)).map (src + next * pitch + ·))).onUnit gq fun u =>
        u.writeRow ((slot + next / rowsPerSlot size) * 16384 + (next % rowsPerSlot size) * 64 * size) bs).updEngine e.id fun x =>
          { x with job := .bld gq slot size rows src pitch sc (next + 1) }) := by
  have hfree : (!sc && (List.range size).any fun n => s.vaWaits false e .load (src + next * pitch + 64 * n)) = false := by
    cases sc with
    | true => rfl
    | false =>
      refine List.any_eq_false.2 fun n hmem hwait => ?_
      rw [hw rfl n (List.mem_range.1 hmem)] at hwait
      cases hwait
  rw [State.bldStep, if_neg (by rw [hb, hfree]; simp [hn]), hbs]

/-! ### An operation that is done (E15) -/

theorem done_of_job (h : (∃ ds, e.job = .copy [] ds true []) ∨
    (∃ gq slot size rows src pitch sc next, e.job = .bld gq slot size rows src pitch sc next ∧ rows ≤ next) ∨
    ∃ die l n k cl h, e.job = .goat die l n k cl h ∧ n ≤ k) : e.done = true := by
  obtain ⟨ds, hj⟩ | ⟨gq, slot, size, rows, src, pitch, sc, next, hj, hle⟩ | ⟨die, l, n, k, cl, h, hj, hle⟩ := h
  · rw [Engine.done, hj]
    rfl
  · rw [Engine.done, hj]
    exact decide_eq_true hle
  · rw [Engine.done, hj]
    exact decide_eq_true hle

theorem completion_done (hd : s.dead = false) (hf : s.engine? id = some e) (h : e.done = true) :
    exec (.engineCompletion id) s = .next (s.engineDone e) := by
  rw [exec_engineCompletion, execEngineCompletion]
  refine runEvent_ok hd ?_
  rw [State.completion, hf, Option.bind_some, if_pos h]

theorem engineDone_arrives {k : Crew} {n : Nat} (hk : s.engCrew e = some k) (hn : e.nb = some n) :
    s.engineDone e = ({ s with engines := s.engines.filter fun x => x.id != e.id }).changeNb e.core e.slot n fun b => b.arrive true := by
  rw [State.engineDone, hk, hn]

theorem engineDone_silent (h : s.engCrew e = none ∨ e.nb = none) :
    s.engineDone e = { s with engines := s.engines.filter fun x => x.id != e.id } := by
  rw [State.engineDone]
  obtain h | h := h
  · rw [h]
  · rw [h]
    cases s.engCrew e <;> rfl

end

theorem engineStepsComplete : EngineStepsComplete := by
  refine ⟨fun s id e ds td hA hj => lineWrite_starts hA hj, ?_, ?_, fun s id e hd hf hj => ?_⟩
  · intro s id e ds td di line d bs hA hj n hline hdesc hfree
    have hN : NextLine s e ds td n di line d := ⟨rfl, hline, hdesc, hfree⟩
    refine ⟨fun l hp hl => ?_, fun hp hg => ⟨fun l hs hl => ?_, fun k s1 hs hk hr => ?_⟩⟩
    · exact lineWrite_copy hA hj (copyStep_memory hN (.inr hp) (copyLine_padding hp hl))
    · exact lineWrite_copy hA hj (copyStep_memory hN (.inl hs) (copyLine_written hp hg hl))
    · exact lineWrite_copy hA hj (copyStep_scratch hN hp hs hg hk hr)
  · intro s id e gq slot size rows src pitch next sc bs hA hj hn hb hw hbs
    exact lineWrite_bld hA hj (bldStep_row hn hb hw hbs)
  · refine ⟨fun k n hk hn => ?_, fun h => ?_⟩
    · rw [completion_done hd hf (done_of_job hj), engineDone_arrives hk hn]
    · rw [completion_done hd hf (done_of_job hj), engineDone_silent h]

/-! ### The Goat claims an object (E20) -/

section
variable {s : State} {e : Engine} {die list n k : Nat} {c : Context} (hc : s.ctx? e.part = some c)
include hc

section
variable (hst : s.iaVal c (goatStatus list k) 8 ≠ 1)
include hst

theorem claim_noPlan (hp : s.goatPlan c e.level (list + 32 * k) = none) :
    s.claim e die list n k = some (s.goatNext c e die list n k 3 []) := by
  simp only [State.claim, hc, Option.bind_some, hp, hst, if_false]

section
variable {p : GoatPlan} (hp : s.goatPlan c e.level (list + 32 * k) = some p) (hat : s.goatAt c e.id p.old = false)
include hp hat

theorem claim_pinned (hpins : s.objPins c p.old ≠ 0) :
    s.claim e die list n k = some (s.goatNext c e die list n k 2 (s.planLines c p)) := by
  simp only [State.claim, hc, Option.bind_some, hp, hst, hat, hpins, ne_eq, not_false_eq_true, if_true, if_false, Bool.false_eq_true]

variable (hpins : s.objPins c p.old = 0)
include hpins

theorem claim_forwarded {f : Fwd} (hf : s.forward? c p.region p.old = some f) :
    s.claim e die list n k =
      if f.new = p.new then some (s.updEngine e.id fun x => { x with job := .goat die list n k true none })
      else some (s.goatNext c e die list n k 4 (s.planLines c p)) := by
  simp only [State.claim, hc, Option.bind_some, hp, hst, hat, hpins, hf, ne_eq, not_true_eq_false, if_false, Bool.false_eq_true]

variable (hf : s.forward? c p.region p.old = none)
include hf

theorem claim_noSlot
    (hslot : s.freeSlot c (c.regionFwd p.region) (c.regionFwdn p.region) p.old 0 (c.regionFwdn p.region) = none) :
    s.claim e die list n k = some (s.goatNext c e die list n k 5 (s.planLines c p)) := by
  simp only [State.claim, hc, Option.bind_some, hp, hst, hat, hpins, hf, hslot, ne_eq, not_true_eq_false, if_false, Bool.false_eq_true]

theorem claim_enters {a : Nat}
    (hslot : s.freeSlot c (c.regionFwd p.region) (c.regionFwdn p.region) p.old 0 (c.regionFwdn p.region) = some a) :
    s.claim e die list n k = some
      ((((((s.setMoving c p.old true).iaWrite c a 8 (p.old + 1)).iaWrite c (a + 8) 8 p.new).iaWrite c (a + 16) 4 0).iaWrite c
        (a + 20) 4 p.lines).updEngine e.id fun x => { x with job := .goat die list n k true none }) := by
  simp only [State.claim, hc, Option.bind_some, hp, hst, hat, hpins, hf, hslot, ne_eq, not_true_eq_false, if_false, Bool.false_eq_true]

end
end

/-! ### It takes a line (E21) -/

theorem hold_givesUp (hp : s.goatPlan c e.level (list + 32 * k) = none) :
    s.hold e die list n k = some (s.goatGiveUp c e die list n k) := by
  simp only [State.hold, hc, Option.bind_some, hp, Option.bind_none]

/-- What a hold leaves once the line has been taken, or checkpoints asked for in its way. -/
theorem hold_takes {p : GoatPlan} {f : Fwd} {l : Loc} {t : State} (hp : s.goatPlan c e.level (list + 32 * k) = some p)
    (hf : s.forward? c p.region p.old = some f) (hlt : f.progress < f.lines) (hl : s.iaLoc c (p.old + 128 * f.progress) = some l)
    (ho : ∀ x ∈ s.engines, x.id ≠ e.id → x.part = e.part → lineOf l.pa ∉ x.owned)
    (ht : s.takeLine e.id e.part (lineOf l.pa) = some t) :
    s.hold e die list n k = some (if (t.engine? e.id).any fun x => x.owned.contains (lineOf l.pa) then
      t.updEngine e.id fun x => { x with job := .goat die list n k true (some (lineOf l.pa)) } else t) := by
  have hfree : (s.engines.any fun x => x.id != e.id && x.part == e.part && x.owned.contains (lineOf l.pa)) = false := by
    refine List.any_eq_false.2 fun x hmem hown => ?_
    simp only [Bool.and_eq_true, bne_iff_ne, beq_iff_eq, List.contains_iff_mem] at hown
    obtain ⟨⟨hid, hpart⟩, hin⟩ := hown
    exact ho x hmem hid hpart hin
  simp only [State.hold, hc, Option.bind_some, hp, hf, Option.map_some, Nat.not_le.2 hlt, hl, hfree, ht, if_false, Bool.false_eq_true]

end

section
variable {s t u : State} {id part line : Nat}

theorem takeLine_commits (ht : (s.passLine part line).drainLine part line = some t) (hu : t.commitHolders part line = some u) :
    s.takeLine id part line = some ((u.dropL1All part line).updEngine id fun x => { x with owned := insertAsc line x.owned }) := by
  simp only [State.takeLine, ht, hu]

theorem takeLine_asks (ht : (s.passLine part line).drainLine part line = some t) (hn : t.commitHolders part line = none)
    (hu : s.markDue (t.versionHolders part [line]) = some u) : s.takeLine id part line = some u := by
  simp only [State.takeLine, ht, hn, hu]

/-- An engine that has taken a line owns it. -/
theorem owns_taken {x : Engine} (hx : u.engine? id = some x) :
    (((u.dropL1All part line).updEngine id fun x => { x with owned := insertAsc line x.owned }).engine? id).any
      (fun x => x.owned.contains line) = true := by
  have hx' : (u.dropL1All part line).engine? id = some x := hx
  rw [engine?_updEngine hx' (show x.id = id from engine?_id hx), Option.any_some, List.contains_iff_mem]
  exact mem_insertAsc_self _ _

theorem passLine_none (h : ∀ d ∈ s.sb, d.heldBy part line = false) : s.passLine part line = s := by
  rw [State.passLine, List.filter_eq_nil_iff.2 fun d hd => by rw [h d hd]; exact Bool.false_ne_true]
  rfl

theorem drainLine_none (h : ∀ d ∈ s.rq, d.heldBy part line = false) : s.drainLine part line = some s := by
  rw [State.drainLine, List.filter_eq_nil_iff.2 fun d hd => by rw [h d hd]; exact Bool.false_ne_true]
  rfl

theorem commitHolders_none (h : ∀ v ∈ s.vers, v.site.part = part → v.line ≠ line) : s.commitHolders part line = some s := by
  have hnone : s.versionHolders part [line] = [] := by
    rw [State.versionHolders, List.filter_eq_nil_iff.2]
    · rfl
    · intro v hv hboth
      simp only [Bool.and_eq_true, beq_iff_eq, List.contains_iff_mem, List.mem_singleton] at hboth
      exact h v hv hboth.1 hboth.2
  rw [State.commitHolders, hnone]
  rfl

end

/-! ### It copies the line, and publishes the move (E22, E23) -/

section
variable {s : State} {e : Engine} {die list n k : Nat} {c : Context} (hc : s.ctx? e.part = some c)
include hc

theorem copyOrFinish_givesUp {ln : Nat} (hp : s.goatPlan c e.level (list + 32 * k) = none) :
    s.copyOrFinish e die list n k (some ln) = some (s.goatGiveUp c e die list n k) := by
  simp only [State.copyOrFinish, hc, Option.bind_some, hp, Option.isNone_none, if_true]

section
variable {f : Fwd} (hf : s.forward? c (refRegion (BitVec.ofNat 64 (s.iaVal c (list + 32 * k) 8)))
  (refBase (BitVec.ofNat 64 (s.iaVal c (list + 32 * k) 8))) = some f)
include hf

theorem copyOrFinish_publishes (hle : f.lines ≤ f.progress) :
    s.copyOrFinish e die list n k none =
      some (((s.iaWrite c f.at_ 8 (refBase (BitVec.ofNat 64 (s.iaVal c (list + 32 * k) 8)) + 2)).setMoving c f.new false).goatNext c e
        die list n k 1 []) := by
  simp only [State.copyOrFinish, hc, Option.bind_some, hf, Nat.not_lt.2 hle, if_false]

theorem copyOrFinish_copies {ln : Nat} {a b : Loc} (hp : (s.goatPlan c e.level (list + 32 * k)).isSome = true)
    (ha : s.iaLoc c (refBase (BitVec.ofNat 64 (s.iaVal c (list + 32 * k) 8)) + 128 * f.progress) = some a)
    (hb : s.iaLoc c (refBase (BitVec.ofNat 64 (s.iaVal c (list + 32 * k + 8) 8)) + 128 * f.progress) = some b) :
    s.copyOrFinish e die list n k (some ln) =
      some ((((((s.countPlace e.part (Except.ok (ε := EngFault) a)).countHit e.part b).copyLineTo a b).dropL1All c.part
        (lineOf b.pa)).iaWrite c (f.at_ + 16) 4 (f.progress + 1)).updEngine e.id fun x =>
          { x with
            owned := x.owned.filter (fun l => l != ln && l != lineOf b.pa)
            job := .goat die list n k true none }) := by
  have hplan : (s.goatPlan c e.level (list + 32 * k)).isNone = false := by
    rw [← Option.not_isSome, hp]
    rfl
  simp only [State.copyOrFinish, hc, Option.bind_some, hplan, State.goatCopy, hf, ha, hb, Option.getD_some, if_false, Bool.false_eq_true]

end
end

theorem goatStepsComplete : GoatStepsComplete := by
  refine ⟨?_, ?_, ?_, ?_, ?_⟩
  · intro s id e die list n k h c hA hj hk hc hst
    refine ⟨fun hp => claim_acts hA hj hk (claim_noPlan hc hst hp), ?_⟩
    intro p hp hat ls claimed
    refine ⟨fun hpins => claim_acts hA hj hk (claim_pinned hc hst hp hat hpins), fun hpins => ⟨fun f hf => ?_, fun hf => ?_⟩⟩
    · refine ⟨fun hnew => claim_acts hA hj hk ?_, fun hnew => claim_acts hA hj hk ?_⟩
      · rw [claim_forwarded hc hst hp hat hpins hf, if_pos hnew]
      · rw [claim_forwarded hc hst hp hat hpins hf, if_neg hnew]
    · exact ⟨fun hslot => claim_acts hA hj hk (claim_noSlot hc hst hp hat hpins hf hslot),
        fun a hslot => claim_acts hA hj hk (claim_enters hc hst hp hat hpins hf hslot)⟩
  · intro s id e die list n k c p f l hA hj hc hp hf hlt hl ho hentries hvers
    have hpass : s.passLine e.part (lineOf l.pa) = s := passLine_none fun d hd => hentries d (List.mem_append_left _ hd)
    have hdrain : (s.passLine e.part (lineOf l.pa)).drainLine e.part (lineOf l.pa) = some s := by
      rw [hpass]
      exact drainLine_none fun d hd => hentries d (List.mem_append_right _ hd)
    have hfound : s.engine? e.id = some e := by rw [engine?_id hA.found, hA.found]
    refine hold_acts hA hj ((hold_takes hc hp hf hlt hl ho (takeLine_commits hdrain (commitHolders_none hvers))).trans ?_)
    rw [if_pos (owns_taken hfound)]
  · intro s t id e die list n k c p f l hA hj hc hp hf hlt hl ho hdrain
    refine ⟨fun u hu hx => ?_, fun u hn hu hx => ?_⟩
    · obtain ⟨x, hx⟩ := Option.ne_none_iff_exists'.1 hx
      refine hold_acts hA hj ((hold_takes hc hp hf hlt hl ho (takeLine_commits hdrain hu)).trans ?_)
      rw [if_pos (owns_taken hx)]
    · have hfree : ((u.engine? e.id).any fun x => x.owned.contains (lineOf l.pa)) = false := by
        cases hxe : u.engine? e.id with
        | none => rfl
        | some x =>
          rw [Option.any_some, Bool.eq_false_iff, ne_eq, List.contains_iff_mem]
          exact hx x hxe
      refine hold_acts hA hj ((hold_takes hc hp hf hlt hl ho (takeLine_asks hdrain hn hu)).trans ?_)
      rw [hfree]
      rfl
  · intro s id e die list n k c hA hc hp
    exact ⟨fun hj => hold_acts hA hj (hold_givesUp hc hp), fun ln hj => copyLine_acts hA hj (copyOrFinish_givesUp hc hp)⟩
  · intro s id e die list n k h c f hA hj hc src dst hf
    refine ⟨fun ln a b hh hp ha hb => ?_, fun hh hle => ?_⟩
    · subst hh
      exact copyLine_acts hA hj (copyOrFinish_copies hc hf hp ha hb)
    · subst hh
      exact copyLine_acts hA hj (copyOrFinish_publishes hc hf hle)

/-- Settles O38: the steps of copies and B-store loads, then those of the Goat. -/
theorem engineAndGoatStepsComplete : Obligations.EngineAndGoatStepsComplete := ⟨engineStepsComplete, goatStepsComplete⟩

end Sys2Proof.EngineSteps

/-! PROOF. Loads, scratch accesses, prefetch, the location of an address, pool snapshots and named barriers complete (R105-R120,
R126, R127, R134, R135, R145). -/

namespace Sys2Proof.MemoryInstructions
open Sys2Proof Sys2Proof.Machine Sys2Proof.Claims

/-! ### Named barriers (R126, R127) -/

section
variable (b : NBar) (engine : Bool)

theorem arrive_of_expect_zero (h : b.expect = 0) : b.arrive engine = b := if_pos h

theorem arrive_last (h : b.expect ≠ 0) (hc : b.expect ≤ b.count + 1) : b.arrive engine =
    { b with phase := !b.phase, count := 0, engine := b.engNow || engine, engNow := false } := by
  rw [NBar.arrive, if_neg h, if_pos hc]

theorem arrive_below (hc : b.count + 1 < b.expect) : b.arrive engine =
    { b with count := b.count + 1, engNow := b.engNow || engine } := by
  rw [NBar.arrive, if_neg (by omega), if_neg (by omega)]

theorem arrive_expect : (b.arrive engine).expect = b.expect := by
  rw [NBar.arrive]
  split
  · rfl
  · split <;> rfl

end

/-- Settles O26: an arrival's three cases, by the expected count. -/
theorem barrierPhaseChangesAtItsCount : Obligations.BarrierPhaseChangesAtItsCount := by
  refine fun b e => ⟨arrive_of_expect_zero b e, fun h hc => ?_, fun hc => ?_, arrive_expect b e⟩
  · rw [arrive_last b e h hc]
    exact ⟨rfl, rfl⟩
  · rw [arrive_below b e hc]
    exact ⟨rfl, rfl⟩

section
variable {s : State} {i : Iss} {x : Form} (h : UniRuns s i x .vectorCopy)
include h

theorem nbinit_completes (hk : i.free (if x.hasImm then [] else [(x.an, false)]) = true) :
    exec (.nbinit x) s = .next ((s.changeNb i.ref.core i.ref.slot x.dn fun b =>
      { b with expect := (if x.hasImm then x.immZ else (i.flock.kreg x.an).toNat) % 4096, count := 0,
               engNow := false }).advance i x.words) := by
  rw [exec_nbinit, execNbinit]
  refine uniSet_ok h ?_
  rw [kFree_ok hk]

theorem nbarr_ignored (hu : s.unitBusy i = false) (he : (i.crew.live.nbar x.an).expect = 0) :
    exec (.nbarr x) s = .next ((s.onFlock i fun f => f.setQ x.dn (i.crew.live.nbar x.an).phase).advance i x.words) := by
  rw [exec_nbarr, execNbarr]
  refine uniSet_ok h ?_
  simp only [hu, Bool.false_eq_true, if_false, he, if_true]

theorem nbarr_arrives (hu : s.unitBusy i = false) (he : (i.crew.live.nbar x.an).expect ≠ 0) :
    exec (.nbarr x) s = .next ((((s.onFlock i fun f => f.setQ x.dn (i.crew.live.nbar x.an).phase).settleFibres i).changeNb
      i.ref.core i.ref.slot x.an fun b => b.arrive false).advance i x.words) := by
  rw [exec_nbarr, execNbarr]
  refine uniSet_ok h ?_
  simp only [hu, Bool.false_eq_true, if_false, he]

theorem nbwait_waits (he : (i.crew.live.nbar x.an).ends (i.flock.qpred x.bn) = false) :
    exec (.nbwait x) s = .next ((s.advance i x.words).onBatch i fun y =>
      { y with wait := .nb x.an (i.flock.qpred x.bn) }) := by
  rw [exec_nbwait, execNbwait]
  refine uniSet_ok h ?_
  simp only [he, Bool.false_eq_true, if_false]

theorem nbwait_passes (he : (i.crew.live.nbar x.an).ends (i.flock.qpred x.bn) = true) :
    exec (.nbwait x) s = .next (if (i.crew.live.nbar x.an).engine && (i.crew.live.nbar x.an).phase != i.flock.qpred x.bn
      then (s.advance i x.words).dropCore i.ref.core else s.advance i x.words) := by
  rw [exec_nbwait, execNbwait]
  refine uniSet_ok h ?_
  simp only [he, if_true]

end

/-- Settles O25: each of the three in the uniform set's frame, NBARR and NBWAIT by the barrier's state. -/
theorem namedBarriersComplete : Obligations.NamedBarriersComplete :=
  fun _ _ _ h => ⟨nbinit_completes h, fun hu => ⟨nbarr_ignored h hu, nbarr_arrives h hu⟩, nbwait_waits h, nbwait_passes h⟩

/-! ### Loads (R105-R112) -/

section
variable {s s2 : State} {i : Iss} {x : Form} {rs : List (Nat × Word64 × Bool × ProdSrc)}

/-- A load whose addresses and destinations pass their checks starts its producers (R109). -/
theorem ld_starts (h : LaneRuns s i x) (h0 : i.batch.phase = 0) (loc : Fibre → Loc)
    (hr : ∀ f ∈ i.takers x, Reaches s i x .load f (loc f) ∧ ∀ n ∈ regPair x.dn (x.w == 1), f.writable n = true)
    (hc : canClose s i ((parts i x loc).any fun p => p.2.closes false))
    (hrun : (afterClose s i ((parts i x loc).any fun p => p.2.closes false)).loadRun
      ((afterClose s i ((parts i x loc).any fun p => p.2.closes false)).again i) x (parts i x loc) = some (s2, rs)) :
    exec (.ld x) s = .next ((s2.produce i x (x.w == 1) rs).loadEnd i x ((parts i x loc).map (·.2))) := by
  have hchecks : checkAll i (i.takers x) (fun f => (srcLoc s i x .load f).and (destWide f x.dn (x.w == 1))) =
      .ok ((i.takers x).map fun f => (f.lane, loc f, ())) :=
    checkAll_ok i _ _ fun f hf => by
      obtain ⟨hreach, hdest⟩ := hr f hf
      rw [Accesses.srcLoc_ok hreach, destWide_ok hdest, Chk.ok_and]
  have hparts : withFibres (i.takers x) (((i.takers x).map fun f => (f.lane, loc f, ())).map fun v => (v.1, v.2.1)) =
      parts i x loc := by rw [List.map_map]; rfl
  rw [exec_ld, execLd]
  refine laneSet_ok h ?_
  simp only [h0, ne_eq, not_true_eq_false, if_false, hchecks, hparts, Accesses.closeFirst_ok hc, hrun]

/-- A load of the uniform set makes one access, that of its lead (R112). -/
theorem uld_starts {f : Fibre} {l : Loc} (h : UniRuns s i x .any) (h0 : i.batch.phase = 0) (hl : i.lead = some f)
    (hk : i.free [(x.an, true), (x.dn, x.w == 1)] = true) (ha : memVa x x.size (i.flock.kpair x.an) % x.size = 0)
    (ht : s.translate i.crew.part i.crew.level .load (memVa x x.size (i.flock.kpair x.an)) = .ok l)
    (hc : canClose s i (l.closes false))
    (hrun : (afterClose s i (l.closes false)).loadRun ((afterClose s i (l.closes false)).again i) x [(f, l)] =
      some (s2, rs)) :
    exec (.uld x) s = .next ((s2.produceK i x rs).loadEnd i x [l]) := by
  have hchecks : checkAll i [f] (fun _ => checkVa s i .load x.size (memVa x x.size (i.flock.kpair x.an))) =
      .ok [(f.lane, l)] := checkAll_ok i _ (fun _ => l) fun _ _ => Accesses.checkVa_ok ha ht
  rw [exec_uld, execUld]
  refine uniSet_ok h ?_
  simp only [h0, ne_eq, not_true_eq_false, if_false, kFree_ok hk, hl, Option.toList_some, hchecks, Accesses.withFibres_single,
    List.any_cons, List.any_nil, Bool.or_false, Accesses.closeFirst_ok hc, hrun, List.map_cons, List.map_nil]

/-- Once the replies of its batch are in, an acquire performs E8 (R97, R111). -/
theorem loadAcquired_ok (hr : i.awaitsReply = false) :
    loadAcquired s i x = .ok ((s.dropCore i.ref.core).advance i x.words) := by
  rw [loadAcquired, hr]
  rfl

theorem ld_acquires (h : LaneRuns s i x) (h0 : i.batch.phase ≠ 0) (hr : i.awaitsReply = false) :
    exec (.ld x) s = .next ((s.dropCore i.ref.core).advance i x.words) := by
  rw [exec_ld, execLd]
  refine laneSet_ok h ?_
  rw [if_pos h0, loadAcquired_ok hr]

theorem uld_acquires (h : UniRuns s i x .any) (h0 : i.batch.phase ≠ 0) (hr : i.awaitsReply = false) :
    exec (.uld x) s = .next ((s.dropCore i.ref.core).advance i x.words) := by
  rw [exec_uld, execUld]
  refine uniSet_ok h ?_
  rw [if_pos h0, loadAcquired_ok hr]

end

/-- Settles O12: the first part of each load by its checks and its run, and the second part of an acquire. -/
theorem loadsComplete : Obligations.LoadsComplete :=
  ⟨fun _ _ _ _ loc _ h h0 hr hc hrun => ld_starts h h0 loc hr hc hrun,
    fun _ _ _ _ _ _ _ h h0 hl hk ha ht hc hrun => uld_starts h h0 hl hk ha ht hc hrun,
    fun _ _ _ h0 hr => ⟨fun h => ld_acquires h h0 hr, fun h => uld_acquires h h0 hr⟩⟩

/-! ### Scratch accesses (R114-R116) -/

section
variable {s : State} {i : Iss} {x : Form}

/-- The participants' values may be changed before they are gathered, or after. -/
theorem parts_map {α β : Type} (v : Fibre → α) (g : α → β) :
    parts i x (fun f => g (v f)) = (parts i x v).map fun p => (p.1, g p.2) := by
  simp only [parts, withFibres, List.filterMap_map, List.map_filterMap]
  refine List.filterMap_congr fun f _ => ?_
  simp only [Function.comp_apply, Option.map_map]
  rfl

theorem srcScratch_ok {f : Fibre} (hr : f.readable x.an = true) (ha : scratchEa i x (ra x f) % x.size = 0)
    (hb : s.scratchOk i.crew (scratchEa i x (ra x f)) x.size = true) :
    srcScratch s i x f = .ok (scratchEa i x (ra x f)).toNat := by
  rw [ra] at ha hb
  rw [srcScratch, srcA_ok hr, Chk.ok_bind, checkScratch, Chk.guard_ok _ _ (beq_iff_eq.2 ha), Chk.guard_ok _ _ hb]
  rfl

theorem lds_completes (h : LaneRuns s i x)
    (hr : ∀ f ∈ i.takers x, f.readable x.an = true ∧ (∀ n ∈ regPair x.dn (x.w == 1), f.writable n = true) ∧
      scratchEa i x (ra x f) % x.size = 0 ∧ s.scratchOk i.crew (scratchEa i x (ra x f)) x.size = true) :
    exec (.lds x) s = .next ((s.produce i x (x.w == 1)
      ((parts i x fun f => (scratchEa i x (ra x f)).toNat).map fun p =>
        (p.1.lane, extendLoad x.size x.sx (leVal (i.crew.live.scratchRead s.fresh i.flock.num p.1.pend p.1.lane p.2
          x.size)), i.crew.live.scratchBad s.fresh i.flock.num p.1.pend p.1.lane p.2 x.size, ProdSrc.unit))).advance i
      x.words) := by
  have hchecks : checkAll i (i.takers x) (fun f => (srcScratch s i x f).and (destWide f x.dn (x.w == 1))) =
      .ok ((i.takers x).map fun f => (f.lane, (scratchEa i x (ra x f)).toNat, ())) :=
    checkAll_ok i _ _ fun f hf => by
      obtain ⟨hsrc, hdest, ha, hb⟩ := hr f hf
      rw [srcScratch_ok hsrc ha hb, destWide_ok hdest, Chk.ok_and]
  have hparts : withFibres (i.takers x) ((i.takers x).map fun f => (f.lane, (scratchEa i x (ra x f)).toNat, ())) =
      (parts i x fun f => (scratchEa i x (ra x f)).toNat).map fun p => (p.1, p.2, ()) :=
    parts_map (fun f => (scratchEa i x (ra x f)).toNat) fun a => (a, ())
  rw [exec_lds, execLds]
  refine laneSet_ok h ?_
  simp only [hchecks, hparts, List.map_map]
  rfl

/-- The lanes of an STS, their addresses and values. -/
def stsLanes (i : Iss) (x : Form) : List (Nat × Nat × Word64) :=
  (i.takers x).map fun f => (f.lane, (scratchEa i x (ra x f)).toNat, f.value x.bn (x.w == 1))

theorem sts_completes {s1 : State} (h : LaneRuns s i x)
    (hr : ∀ f ∈ i.takers x, f.readable x.an = true ∧ (∀ n ∈ regPair x.bn (x.w == 1), f.readable n = true) ∧
      scratchEa i x (ra x f) % x.size = 0 ∧ s.scratchOk i.crew (scratchEa i x (ra x f)) x.size = true)
    (hroom : s.reserveScratch i.ref.core i.ref.slot ((stsLanes i x).flatMap fun v => scratchLines v.2.1 x.size) = .ok s1) :
    exec (.sts x) s = .next ({ s1.onFibres i (stsBytes x s1.nextTag (stsLanes i x)) fun w f =>
      { f with pend := f.pend ++ [w] } with nextTag := s1.nextTag + 1 }.advance i x.words) := by
  have hchecks : checkAll i (i.takers x) (fun f => (srcScratch s i x f).and (readWide f x.bn (x.w == 1) x.eb)) =
      .ok (stsLanes i x) :=
    checkAll_ok i _ _ fun f hf => by
      obtain ⟨hsrc, hval, ha, hb⟩ := hr f hf
      rw [srcScratch_ok hsrc ha hb, readWide_ok _ _ hval, Chk.ok_and]
  have hneed : needScratch s i ((stsLanes i x).flatMap fun v => scratchLines v.2.1 x.size) = .ok s1 := by
    rw [needScratch, hroom]
    rfl
  rw [exec_sts, execSts]
  refine laneSet_ok h ?_
  simp only [hchecks, hneed]

end

/-- Settles O17: every lane's address passes the checks of R115, and STS has its room in the scratch log. -/
theorem scratchAccessesComplete : Obligations.ScratchAccessesComplete :=
  ⟨fun _ _ _ h hr => lds_completes h hr, fun _ _ _ _ h hr hroom => sts_completes h hr hroom⟩

/-! ### Prefetch and location (R119, R120, R145) -/

section
variable {s : State} {i : Iss} {x : Form}

theorem srcPair_ok {f : Fibre} (h : pairReadable f x.an = true) : srcA64 x f = .ok (pairA x f) := by
  obtain ⟨hlow, hhigh⟩ := Bool.and_eq_true_iff.1 h
  exact Results.srcA64_ok hlow hhigh

/-- Whether a line that PREF fills for a fibre waits for a hot row (R283). -/
def prefetchWaits (s : State) (i : Iss) (x : Form) (f : Fibre) : Bool :=
  (s.prefetched i x (pairA x f)).any fun l => s.lineWaits l.part (lineOf l.pa)

theorem any_prefetchWaits : ((i.takers x).map fun f => (f.lane, pairA x f)).any (fun v => (s.prefetched i x v.2).any fun l =>
    s.lineWaits l.part (lineOf l.pa)) = (i.takers x).any (prefetchWaits s i x) := List.any_map

theorem pref_completes (h : LaneRuns s i x) (hr : ∀ f ∈ i.takers x, pairReadable f x.an = true)
    (hfree : ∀ f ∈ i.takers x, prefetchWaits s i x f = false) :
    exec (.pref x) s =
      .next (((parts i x (pairA x)).foldl (fun s p => s.prefetch i x p.1 p.2) s).advance i x.words) := by
  have hnone : (i.takers x).any (prefetchWaits s i x) = false :=
    List.any_eq_false.2 fun f hf => by rw [hfree f hf]; exact Bool.false_ne_true
  rw [exec_pref, execPref]
  refine laneSet_ok h ?_
  rw [checkAll_ok i _ (pairA x) fun f hf => srcPair_ok (hr f hf)]
  simp only [any_prefetchWaits, hnone, Bool.false_eq_true, if_false]
  rfl

theorem pref_waits (h : LaneRuns s i x) (hr : ∀ f ∈ i.takers x, pairReadable f x.an = true)
    (hwait : ∃ f ∈ i.takers x, prefetchWaits s i x f = true) : exec (.pref x) s = .next { s with stall := true } := by
  rw [exec_pref, execPref, laneSet_eq h, checkAll_ok i _ (pairA x) fun f hf => srcPair_ok (hr f hf)]
  simp only [any_prefetchWaits, List.any_eq_true.2 hwait, if_true]
  rfl

theorem sliceof_completes (h : LaneRuns s i x)
    (hr : ∀ f ∈ i.takers x, pairReadable f x.an = true ∧ f.writable x.dn = true) :
    exec (.sliceof x) s = .next (s.laneResult i x false ((i.takers x).map fun f =>
      (f.lane, (sliceOf s i.crew.part (pairA x f)).setWidth 64))) := by
  rw [exec_sliceof, execSliceof]
  refine laneWrite_ok h _ (fun f hf => ?_) fun f hf => List.forall_mem_singleton.2 (hr f hf).2
  rw [srcPair_ok (hr f hf).1, Chk.ok_map]

theorem homeof_completes (h : LaneRuns s i x)
    (hr : ∀ f ∈ i.takers x, pairReadable f x.an = true ∧ f.writable x.dn = true) :
    exec (.homeof x) s = .next (s.laneResult i x false ((i.takers x).map fun f =>
      (f.lane, (homeOf s i.crew.part (pairA x f)).setWidth 64))) := by
  rw [exec_homeof, execHomeof]
  refine laneWrite_ok h _ (fun f hf => ?_) fun f hf => List.forall_mem_singleton.2 (hr f hf).2
  rw [srcPair_ok (hr f hf).1, Chk.ok_map]

end

theorem prefetchAndLocationComplete : PrefetchAndLocationComplete :=
  ⟨fun _ _ _ h hr => ⟨pref_completes h hr, pref_waits h hr⟩,
    fun _ _ _ h hr => ⟨sliceof_completes h hr, homeof_completes h hr⟩⟩

/-! ### What a checkpoint leaves of its crew (R314) -/

section
variable {s : State}

/-- What each step of a fold leaves alone, the fold does. -/
theorem foldl_keeps {α β γ : Type} (p : β → γ) {g : β → α → β} (h : ∀ b a, p (g b a) = p b) (l : List α) (b : β) :
    p (l.foldl g b) = p b := by
  induction l generalizing b with
  | nil => rfl
  | cons a l ih => exact (ih _).trans (h b a)

theorem commitByte_crews (g : Site) (pa : Nat) (b : Byte) : (s.commitByte g pa b).crews = s.crews := by
  obtain ⟨_, _, h⟩ := staleImages_memory ((s.fillSector g (sectorOf pa)).updHome g.part (lineOf pa) fun h => h.store pa b) pa
  rw [State.commitByte, h, Accesses.fillSector_side s g (sectorOf pa)]
  rfl

theorem patchCopy_crews (core part pa : Nat) (bs : List Byte) : (s.patchCopy core part pa bs).crews = s.crews := rfl

theorem commitVersion_crews (v : Version) : (s.commitVersion v).crews = s.crews := by
  obtain ⟨_, hn⟩ := noteOld_memory s v.site.part 0 (128 * v.line) 128 fun a => s.committedVal v.site.part a 4
  have hbyte : ∀ (t : State) (c : Host.Cell),
      ((t.commitByte v.site c.1 c.2).patchCopy v.core v.site.part c.1 [c.2]).crews = t.crews := fun t c => by
    rw [patchCopy_crews, commitByte_crews]
  have hbytes : ∀ t : State, (v.bytes.foldl (fun t c =>
      (t.commitByte v.site c.1 c.2).patchCopy v.core v.site.part c.1 [c.2]) t).crews = t.crews :=
    foldl_keeps State.crews hbyte v.bytes
  have hclean : ∀ t : State, (v.clean.foldl State.cleanSector t).crews = t.crews :=
    foldl_keeps State.crews (fun t n => t.cleanSector_crews n) v.clean
  have hbad : ∀ t : State, (v.bad.foldl State.poisonSector t).crews = t.crews :=
    foldl_keeps State.crews (fun t n => t.poisonSector_crews n) v.bad
  rw [State.commitVersion]
  exact (hbad _).trans ((hclean _).trans ((hbytes _).trans (by rw [hn])))

theorem commitCrew_crews (core slot : Nat) : (s.commitCrew core slot).crews = s.crews :=
  foldl_keeps State.crews (fun t v => commitVersion_crews (s := t) v) _ s

theorem crew?_checkpoint {core slot : Nat} {k : Crew} (h : s.crew? core slot = some k) :
    (s.checkpoint core slot).crew? core slot = some (k.recordCkpt (s.engines.filter fun e => e.ofCrew k)) := by
  have hc : ((s.commitCrew core slot).dropShadows core slot).crew? core slot = some k := by
    rw [← h, State.crew?, State.crew?]
    exact congrArg _ (commitCrew_crews core slot)
  simp only [State.checkpoint, h]
  exact crew?_updCrew_self _ hc ⟨rfl, rfl⟩

/-- A checkpoint leaves the issuing crew in its partition. -/
theorem again_checkpoint_part {i : Iss} (h : Issues s i) :
    ((s.checkpoint i.ref.core i.ref.slot).again i).crew.part = i.crew.part := by
  obtain ⟨-, hk, -, -⟩ := find_parts (iss_find h.found)
  rw [State.again]
  cases hf : (s.checkpoint i.ref.core i.ref.slot).find i.ref with
  | none => rfl
  | some j =>
    obtain ⟨-, hj, -, -⟩ := find_parts hf
    rw [crew?_checkpoint hk] at hj
    rw [Option.getD_some, ← Option.some.inj hj]
    rfl

end

/-! ### Pool snapshots (R134, R354) -/

section
variable {s : State} {i : Iss} {x : Form}

/-- Every PSNAP runs in the one frame, with an action of its own. -/
theorem exec_psnap {ins : Form → Instr} (hins : ins ∈ [Instr.psnapOpen, Instr.psnapClose, Instr.psnapBegin, Instr.psnapPublish])
    (x : Form) (s : State) : ∃ act, exec (ins x) s = psnap x s act := by
  simp only [List.mem_cons, List.not_mem_nil, or_false] at hins
  obtain rfl | rfl | rfl | rfl := hins
  · exact ⟨_, by rw [exec_psnapOpen, execPsnapOpen]⟩
  · exact ⟨_, by rw [exec_psnapClose, execPsnapClose]⟩
  · exact ⟨_, by rw [exec_psnapBegin, execPsnapBegin]⟩
  · exact ⟨_, by rw [exec_psnapPublish, execPsnapPublish]⟩

/-- A PSNAP acts: its registers are free, its address lies in range `p`, and its crew can be checkpointed. -/
structure Snaps (s : State) (i : Iss) (x : Form) (p : Nat × Range) : Prop extends UniRuns s i x .vector where
  free : i.free [(x.an, true), (x.dn, false)] = true
  range : ((s.ctx? i.crew.part).bind fun c => c.findRange ((i.flock.kpair x.an).toNat % 2 ^ 57) 0 16) = some p
  ready : s.ckptReady i.crew = true

/-- The key of a PSNAP's range, and the pool as it finds it after its checkpoint. -/
def snapKey (s : State) (i : Iss) (n : Nat) : Nat := (s.checkpoint i.ref.core i.ref.slot).poolKey i.crew.part n
def snapState (s : State) (i : Iss) (n : Nat) : State :=
  (s.checkpoint i.ref.core i.ref.slot).otherVersion i.crew.part n (snapKey s i n)

/-- The batch at issue after the checkpoint. -/
def snapIss (s : State) (i : Iss) : Iss := (s.checkpoint i.ref.core i.ref.slot).again i

variable {p : Nat × Range} (h : Snaps s i x p)
include h

/-- On a range of another class, PSNAP gives 0 after its checkpoint. -/
theorem psnap_otherClass (hp : p.2.cls ≠ 4) (act : State → Iss → Nat → Option (State × Nat)) :
    psnap x s act = .next ((s.checkpoint i.ref.core i.ref.slot).uniResult i x false (BitVec.ofNat 64 0)) := by
  refine uniSet_ok h.toUniRuns ?_
  simp only [kFree_ok h.free, h.range, checkOne_ok i rfl, Accesses.takeCkpt_ready h.ready]
  exact if_pos hp

variable (hp : p.2.cls = 4)
include hp

/-- On a POOL range, it gives what its action gives. -/
theorem psnap_pool {act : State → Iss → Nat → Option (State × Nat)} {t : State} {v : Nat}
    (ha : act (snapState s i p.1) (snapIss s i) (snapKey s i p.1) = some (t, v)) :
    psnap x s act = .next (t.uniResult i x false (BitVec.ofNat 64 v)) := by
  rw [snapState, snapIss, snapKey] at ha
  refine uniSet_ok h.toUniRuns ?_
  simp only [kFree_ok h.free, h.range, checkOne_ok i rfl, Accesses.takeCkpt_ready h.ready, ne_eq, hp, not_true_eq_false,
    if_false, ha]

theorem psnapOpen_again {q : PoolSnap} (hq : (snapIss s i).crew.snap? (snapKey s i p.1) = some q) :
    exec (.psnapOpen x) s = .next ((snapState s i p.1).uniResult i x false (BitVec.ofNat 64 q.version)) := by
  rw [exec_psnapOpen, execPsnapOpen]
  exact psnap_pool h hp (by simp only [hq])

/-- A new snapshot is of the pool as the crew's partition sees it, which a checkpoint does not change. -/
theorem psnapOpen_new (hq : (snapIss s i).crew.snap? (snapKey s i p.1) = none) (hroom : (snapIss s i).crew.snaps.length < 4) :
    exec (.psnapOpen x) s = .next (((snapState s i p.1).onCrew (snapIss s i) fun k =>
      { k with snaps := k.snaps ++ [{ range := snapKey s i p.1, version := ((snapState s i p.1).pool (snapKey s i p.1)).latest
                                      mem := (snapState s i p.1).frozen i.crew.part }] }).uniResult i x false
        (BitVec.ofNat 64 ((snapState s i p.1).pool (snapKey s i p.1)).latest)) := by
  rw [exec_psnapOpen, execPsnapOpen]
  have hpart : (snapIss s i).crew.part = i.crew.part := again_checkpoint_part h.toIssues
  exact psnap_pool h hp (by simp only [hq, if_neg (Nat.not_le.2 hroom), hpart])

theorem psnapOpen_full (hq : (snapIss s i).crew.snap? (snapKey s i p.1) = none) (hfull : 4 ≤ (snapIss s i).crew.snaps.length) :
    exec (.psnapOpen x) s = .next ((snapState s i p.1).uniResult i x false (BitVec.ofNat 64 0)) := by
  rw [exec_psnapOpen, execPsnapOpen]
  exact psnap_pool h hp (by simp only [hq, if_pos hfull])

theorem psnapClose_closes {q : PoolSnap} (hq : (snapIss s i).crew.snap? (snapKey s i p.1) = some q) :
    exec (.psnapClose x) s = .next (((snapState s i p.1).onCrew (snapIss s i) fun k =>
      { k with snaps := k.snaps.filter fun r => r.range != snapKey s i p.1 }).uniResult i x false
        (BitVec.ofNat 64 q.version)) := by
  rw [exec_psnapClose, execPsnapClose]
  exact psnap_pool h hp (by simp only [hq])

theorem psnapClose_none (hq : (snapIss s i).crew.snap? (snapKey s i p.1) = none) :
    exec (.psnapClose x) s = .next ((snapState s i p.1).uniResult i x false (BitVec.ofNat 64 0)) := by
  rw [exec_psnapClose, execPsnapClose]
  exact psnap_pool h hp (by simp only [hq])

theorem psnapBegin_begins (hw : ((snapState s i p.1).pool (snapKey s i p.1)).writer = none)
    (hheld : (snapState s i p.1).heldElsewhere (snapKey s i p.1) = false) :
    exec (.psnapBegin x) s = .next ((((snapState s i p.1).setPool { (snapState s i p.1).pool (snapKey s i p.1) with
      writer := some ((snapIss s i).ref.core, (snapIss s i).ref.slot) }).onCrew (snapIss s i) fun k =>
        { k with writers := k.writers ++ [{ range := snapKey s i p.1
                                            version := ((snapState s i p.1).pool (snapKey s i p.1)).latest + 1
                                            bytes := [], lost := false }] }).uniResult i x false
          (BitVec.ofNat 64 (((snapState s i p.1).pool (snapKey s i p.1)).latest + 1))) := by
  rw [exec_psnapBegin, execPsnapBegin]
  exact psnap_pool h hp (by simp only [hw, hheld, Option.isSome_none, Bool.or_false, Bool.false_eq_true, if_false])

theorem psnapBegin_held (hw : ((snapState s i p.1).pool (snapKey s i p.1)).writer ≠ none ∨
      (snapState s i p.1).heldElsewhere (snapKey s i p.1) = true) :
    exec (.psnapBegin x) s = .next ((snapState s i p.1).uniResult i x false (BitVec.ofNat 64 0)) := by
  have hheld : (((snapState s i p.1).pool (snapKey s i p.1)).writer.isSome ||
      (snapState s i p.1).heldElsewhere (snapKey s i p.1)) = true :=
    Bool.or_eq_true_iff.2 (hw.imp_left Option.isSome_iff_ne_none.2)
  rw [exec_psnapBegin, execPsnapBegin]
  exact psnap_pool h hp (if_pos hheld)

variable (hd : (snapState s i p.1).poolWrites (snapIss s i).ref.core (snapIss s i).ref.slot = false)
include hd

theorem psnapPublish_none (hw : (snapIss s i).crew.writing (snapKey s i p.1) = none) :
    exec (.psnapPublish x) s = .next ((snapState s i p.1).uniResult i x false (BitVec.ofNat 64 0)) := by
  rw [exec_psnapPublish, execPsnapPublish]
  exact psnap_pool h hp (by simp only [hd, Bool.false_eq_true, if_false, hw])

/-- A publication ends the crew's version; its bytes are published unless it lost a write. -/
theorem psnapPublish_ends {w : PoolWriter} (hw : (snapIss s i).crew.writing (snapKey s i p.1) = some w) :
    exec (.psnapPublish x) s = .next (((if w.lost then (snapState s i p.1).setPool
        { (snapState s i p.1).pool (snapKey s i p.1) with writer := none }
      else (snapState s i p.1).publishVersion (snapIss s i) w).onCrew (snapIss s i) fun k =>
        { k with writers := k.writers.filter fun v => v.range != snapKey s i p.1 }).uniResult i x false
          (BitVec.ofNat 64 (if w.lost then 0 else w.version))) := by
  rw [exec_psnapPublish, execPsnapPublish]
  exact psnap_pool h hp (by simp only [hd, Bool.false_eq_true, if_false, hw])

end

/-! ### Hints (R135) -/

section
variable {s : State} {i : Iss} {x : Form}

theorem kFree_waits {rs : List (Nat × Bool)} (h : i.free rs = false) : kFree i rs = .error .wait := by
  obtain ⟨p, hp, hbusy⟩ := List.all_eq_false.1 h
  rw [kFree, if_pos (List.any_eq_true.2 ⟨p, hp, by simpa using hbusy⟩)]

theorem phint_passes (h : UniRuns s i x .vector) (hk : i.free [(x.an, true), (x.bn, false)] = true) :
    phint x s = .next (s.advance i x.words) := by
  refine uniSet_ok h ?_
  rw [kFree_ok hk]
  rfl

theorem phint_waits (h : UniRuns s i x .vector) (hk : i.free [(x.an, true), (x.bn, false)] = false) :
    phint x s = .next { s with stall := true } := by
  rw [phint, uniSet_eq h, kFree_waits hk]
  rfl

end

theorem poolSnapshotsAndHintsComplete : PoolSnapshotsAndHintsComplete := by
  refine ⟨fun s i x c p h hk hc hrange hr => ?_, fun ins hins s i x h => ?_⟩
  · intro s0 j key s1 gives
    have hS : Snaps s i x p := { h with free := hk, range := by rw [hc]; exact hrange, ready := hr }
    refine ⟨fun hp ins hins => ?_, fun hp => ⟨fun q hq => psnapOpen_again hS hp hq, psnapOpen_new hS hp, psnapOpen_full hS hp,
      fun q hq => psnapClose_closes hS hp hq, psnapClose_none hS hp, psnapBegin_begins hS hp, psnapBegin_held hS hp,
      fun hd => ⟨fun w hw => ⟨fun hl => (psnapPublish_ends hS hp hd hw).trans (by rw [hl]; rfl),
        fun hl => (psnapPublish_ends hS hp hd hw).trans (by rw [hl]; rfl)⟩, psnapPublish_none hS hp hd⟩⟩⟩
    obtain ⟨act, hact⟩ := exec_psnap hins x s
    rw [hact]
    exact psnap_otherClass hS hp act
  · have hphint : exec (ins x) s = phint x s := by
      simp only [List.mem_cons, List.not_mem_nil, or_false] at hins
      obtain rfl | rfl := hins <;> rfl
    rw [hphint]
    exact ⟨phint_passes h, phint_waits h⟩

/-- Settles O18: prefetch and location, then pool snapshots and hints. -/
theorem prefetchLocationAndPoolComplete : Obligations.PrefetchLocationAndPoolComplete :=
  ⟨prefetchAndLocationComplete, poolSnapshotsAndHintsComplete⟩

end Sys2Proof.MemoryInstructions

/-! PROOF. Atomics, queue operations and QWAIT: how they begin, what a read-modify-write does at its home, and how they finish (R137-R141,
R150-R153). -/

namespace Sys2Proof.Irrevocable
open Sys2Proof Sys2Proof.Machine Sys2Proof.Claims

/-! ### The first checkpoint and the requests (R139, R140) -/

section
variable {s : State} {i : Iss} {x : Form} {w : AtomWait} {empty : Fibre → Fibre} {ins : Instr}

theorem firstCkpt_may (h : mayBegin s i) : firstCkpt s i =
    .ok ((s.checkpoint i.ref.core i.ref.slot).updCrew i.ref.core i.ref.slot fun k => { k with between := true }) := by
  obtain ⟨hbetween, hready⟩ := h
  simp only [firstCkpt, hbetween, Bool.false_eq_true, if_false, Accesses.takeCkpt_ready hready]

/-- An instruction whose requests must wait for its release has begun once the release is under way. -/
theorem beginAtomic_waits (h : mayBegin s i) (hw : requestsWait w = true) :
    beginAtomic s i (i.takers x) w empty = .ok (begun s i x w empty) := by
  rw [beginAtomic, firstCkpt_may h]
  obtain hrel | ⟨sc, hrel⟩ := Option.eq_none_or_eq_some w.release
  · simp only [requestsWait, hrel, Bool.false_eq_true] at hw
  · simp only [requestsWait, hrel] at hw
    simp only [begun, hrel, hw, if_true]

/-- Any other sends its requests as it begins. -/
theorem beginAtomic_sends (h : mayBegin s i) (hw : requestsWait w = false) :
    beginAtomic s i (i.takers x) w empty =
      sendTodo (begun s i x w empty) ((begun s i x w empty).again i) { w with release := none } := by
  rw [beginAtomic, firstCkpt_may h]
  obtain hrel | ⟨sc, hrel⟩ := Option.eq_none_or_eq_some w.release
  · have hsame : { w with release := none } = w := by rw [← hrel]
    simp only [begun, hrel, hsame]
  · simp only [requestsWait, hrel] at hw
    simp only [begun, hrel, hw, Bool.false_eq_true, if_false]

/-- What remains to be shown of an instruction that begins: which wait its checks lead to. -/
theorem begins_of_beginAtomic (h : LaneRuns s i x) (h0 : i.begun = false) (hm : mayBegin s i)
    {rest : Iss → List Fibre → Res State}
    (hrun : exec ins s = laneSet s x false fun i ps => if i.begun then continueAtomic s i else rest i ps)
    (hrest : rest i (i.takers x) = beginAtomic s i (i.takers x) w empty) : Begins ins s i x w empty := by
  have hnext : ∀ t, beginAtomic s i (i.takers x) w empty = .ok t → exec ins s = .next t := fun t ht => by
    rw [hrun]
    refine laneSet_ok h ?_
    rw [if_neg (Bool.eq_false_iff.1 h0), hrest, ht]
  exact ⟨fun hw => hnext _ (beginAtomic_waits hm hw), fun hw t ht => hnext t ((beginAtomic_sends hm hw).trans ht)⟩

/-- The words of ATOM, RED and CAS: the checks give each lane's place, operation and operand. -/
theorem atomic_begins (h : LaneRuns s i x) (h0 : i.begun = false) (hm : mayBegin s i) {kind : AtomKind} {returns : Bool}
    {chk : Iss → Fibre → Chk (Loc × AtomOp × Word64)} (loc : Fibre → Loc) (op : Fibre → AtomOp)
    (hrun : exec ins s = atomic s x kind returns chk)
    (hchk : ∀ f ∈ i.takers x, chk i f = .ok (loc f, op f, f.value x.bn (x.w == 1)))
    (hdest : returns = true → ∀ f ∈ i.takers x, ∀ n ∈ regPair x.dn (x.w == 1), f.writable n = true) :
    Begins ins s i x (atomWait i x kind returns loc op) fun f => if returns then f.empty x.dn (x.w == 1) else f := by
  have hchecks : checkAll i (i.takers x) (fun f => (chk i f).and (if returns then destWide f x.dn (x.w == 1) else .ok ())) =
      .ok ((i.takers x).map fun f => (f.lane, (loc f, op f, f.value x.bn (x.w == 1)), ())) :=
    checkAll_ok i _ _ fun f hf => by
      rw [hchk f hf]
      split
      · next hret => rw [destWide_ok (hdest hret f hf), Chk.ok_and]
      · rw [Chk.ok_and]
  refine begins_of_beginAtomic h h0 hm (by rw [hrun, atomic]) ?_
  simp only [hchecks, List.map_map]
  rfl

theorem srcQueue_ok {f : Fibre} {l : Loc} (h : ReachesQueue s i x f l) : srcQueue s i x f = .ok l := by
  obtain ⟨hread, halign, htrans⟩ := h
  rw [pairReadable, Bool.and_eq_true] at hread
  rw [srcQueue, Results.srcA64_ok hread.1 hread.2, Chk.ok_bind]
  exact Accesses.checkVa_ok halign htrans

/-- Sources read as wide as the instruction's data, from two operands. -/
theorem readWide_both {f : Fibre} {m n : Nat} {w ma mb : Bool} (h : ∀ k ∈ regPair m w ++ regPair n w, f.readable k = true) :
    (readWide f m w ma).and (readWide f n w mb) = .ok (f.value m w, f.value n w) := by
  rw [readWide_ok _ _ fun k hk => h k (List.mem_append_left _ hk), readWide_ok _ _ fun k hk => h k (List.mem_append_right _ hk),
    Chk.ok_and]

theorem atom_begins (h : LaneRuns s i x) (h0 : i.begun = false) (hm : mayBegin s i) (loc : Fibre → Loc)
    (hr : ∀ f ∈ i.takers x, Reaches s i x .atomic f (loc f) ∧ ∀ n ∈ regPair x.bn (x.w == 1), f.readable n = true)
    (hdest : ∀ f ∈ i.takers x, ∀ n ∈ regPair x.dn (x.w == 1), f.writable n = true) :
    Begins (.atom x) s i x (atomWait i x (.atom x.dn (x.w == 1)) true loc fun _ => .rmw (bits x.cs 6 3))
      fun f => f.empty x.dn (x.w == 1) :=
  atomic_begins h h0 hm loc _ (exec_atom x s) (fun f hf => by
    obtain ⟨hreach, hval⟩ := hr f hf
    rw [Accesses.srcLoc_ok hreach, readWide_ok _ _ hval, Chk.ok_and, Chk.ok_map]) fun _ => hdest

theorem red_begins (h : LaneRuns s i x) (h0 : i.begun = false) (hm : mayBegin s i) (loc : Fibre → Loc)
    (hr : ∀ f ∈ i.takers x, Reaches s i x .atomic f (loc f) ∧ ∀ n ∈ regPair x.bn (x.w == 1), f.readable n = true) :
    Begins (.red x) s i x (atomWait i x .red false loc fun _ => .rmw (bits x.cs 6 3)) id :=
  atomic_begins h h0 hm loc _ (exec_red x s) (fun f hf => by
    obtain ⟨hreach, hval⟩ := hr f hf
    rw [Accesses.srcLoc_ok hreach, readWide_ok _ _ hval, Chk.ok_and, Chk.ok_map]) nofun

theorem cas_begins (h : LaneRuns s i x) (h0 : i.begun = false) (hm : mayBegin s i) (loc : Fibre → Loc)
    (hr : ∀ f ∈ i.takers x, Reaches s i x .atomic f (loc f) ∧
      (∀ n ∈ regPair x.bn (x.w == 1) ++ regPair x.cn (x.w == 1), f.readable n = true) ∧
      ∀ n ∈ regPair x.dn (x.w == 1), f.writable n = true) :
    Begins (.cas x) s i x (atomWait i x (.atom x.dn (x.w == 1)) true loc fun f => .cas (f.value x.cn (x.w == 1)))
      fun f => f.empty x.dn (x.w == 1) :=
  atomic_begins h h0 hm loc _ (exec_cas x s) (fun f hf => by
    obtain ⟨hreach, hvals, -⟩ := hr f hf
    rw [Accesses.srcLoc_ok hreach, readWide_both hvals, Chk.ok_and, Chk.ok_map]) fun _ f hf => (hr f hf).2.2

theorem qenq_begins (h : LaneRuns s i x) (h0 : i.begun = false) (hm : mayBegin s i) (loc : Fibre → Loc)
    (hr : ∀ f ∈ i.takers x, ReachesQueue s i x f (loc f) ∧ ∀ n ∈ regPair x.bn (x.w == 1), f.readable n = true) :
    Begins (.qenq x) s i x
      { kind := .qenq x.dn
        todo := (i.takers x).map fun f => { lane := f.lane, loc := loc f, op := .qenq, e := f.value x.bn (x.w == 1) }
        release := some .dev, size := x.size, lanes := (i.takers x).map (·.lane), replies := [], acquire := none
        len := x.words, addrs := (i.takers x).map fun f => (f.lane, (loc f).va) } id := by
  have hchecks : checkAll i (i.takers x) (fun f => (srcQueue s i x f).and (readWide f x.bn (x.w == 1) x.eb)) =
      .ok ((i.takers x).map fun f => (f.lane, loc f, f.value x.bn (x.w == 1))) :=
    checkAll_ok i _ _ fun f hf => by
      obtain ⟨hreach, hval⟩ := hr f hf
      rw [srcQueue_ok hreach, readWide_ok _ _ hval, Chk.ok_and]
  refine begins_of_beginAtomic h h0 hm (by rw [exec_qenq, execQenq]) ?_
  simp only [hchecks, List.map_map]
  rfl

theorem qdeq_begins (h : LaneRuns s i x) (h0 : i.begun = false) (hm : mayBegin s i) (loc : Fibre → Loc)
    (hr : ∀ f ∈ i.takers x, ReachesQueue s i x f (loc f) ∧ ∀ n ∈ regPair x.dn (x.w == 1), f.writable n = true) :
    Begins (.qdeq x) s i x
      { kind := .qdeq x.dn x.bn (x.w == 1)
        todo := (i.takers x).map fun f => { lane := f.lane, loc := loc f, op := .qdeq, e := 0 }
        release := none, size := x.size, lanes := (i.takers x).map (·.lane), replies := []
        acquire := some (.dev, false), len := x.words
        addrs := (i.takers x).map fun f => (f.lane, (loc f).va) } fun f => f.empty x.dn (x.w == 1) := by
  have hchecks : checkAll i (i.takers x) (fun f => (srcQueue s i x f).and (destWide f x.dn (x.w == 1))) =
      .ok ((i.takers x).map fun f => (f.lane, loc f, ())) :=
    checkAll_ok i _ _ fun f hf => by
      obtain ⟨hreach, hdest⟩ := hr f hf
      rw [srcQueue_ok hreach, destWide_ok hdest, Chk.ok_and]
  refine begins_of_beginAtomic h h0 hm (by rw [exec_qdeq, execQdeq]) ?_
  simp only [hchecks, List.map_map]
  rfl

/-- An instruction that has begun sends what it has still to send. -/
theorem continueAtomic_sends (hw : i.batch.wait = .atomic w) (hne : w.todo ≠ []) : continueAtomic s i = sendTodo s i w := by
  simp only [continueAtomic, hw, List.isEmpty_iff, hne, if_false]

/-- The irrevocable lane instructions go on at the requests that they have still to send. -/
def Continues (ins : Form → Instr) : Prop :=
  ∀ (s t : State) (i : Iss) (x : Form), LaneRuns s i x → i.begun = true → continueAtomic s i = .ok t → exec (ins x) s = .next t

/-- Each of them asks first whether it has begun. -/
theorem continues_of_laneSet {ins : Form → Instr} {rest : Form → State → Iss → List Fibre → Res State}
    (h : ∀ x s, exec (ins x) s = laneSet s x false fun i ps => if i.begun then continueAtomic s i else rest x s i ps) :
    Continues ins := fun s t i x hl hb ht => by
  rw [h]
  refine laneSet_ok hl ?_
  rw [if_pos hb, ht]

theorem irrevocable_continues : ∀ ins ∈ [Instr.atom, .red, .cas, .qenq, .qdeq, .hrefPin, .hrefUnpin, .hnew], Continues ins := by
  simp only [List.forall_mem_cons, List.not_mem_nil, false_implies, implies_true, and_true]
  refine ⟨?_, ?_, ?_, ?_, ?_, ?_, ?_, ?_⟩
  · exact continues_of_laneSet fun x s => by rw [exec_atom, execAtom, atomic]
  · exact continues_of_laneSet fun x s => by rw [exec_red, execRed, atomic]
  · exact continues_of_laneSet fun x s => by rw [exec_cas, execCas, atomic]
  · exact continues_of_laneSet fun x s => by rw [exec_qenq, execQenq]
  · exact continues_of_laneSet fun x s => by rw [exec_qdeq, execQdeq]
  · exact continues_of_laneSet fun x s => by rw [exec_hrefPin, execHrefPin, pinOp]
  · exact continues_of_laneSet fun x s => by rw [exec_hrefUnpin, execHrefUnpin, pinOp]
  · exact continues_of_laneSet fun x s => by rw [exec_hnew, execHnew]

theorem begun_of_wait (hw : i.batch.wait = .atomic w) : i.begun = true := by rw [Iss.begun, hw]

end

/-- Settles O19: the checks of each instruction give its wait, and what begins there follows its release. -/
theorem atomicsAndQueueOperationsBegin : Obligations.AtomicsAndQueueOperationsBegin :=
  ⟨fun _ _ _ loc h h0 hm hr => ⟨atom_begins h h0 hm loc hr, red_begins h h0 hm loc hr⟩,
    fun _ _ _ loc h h0 hm hr => cas_begins h h0 hm loc hr,
    fun _ _ _ loc h h0 hm hr => qenq_begins h h0 hm loc hr,
    fun _ _ _ loc h h0 hm hr => qdeq_begins h h0 hm loc hr,
    fun ins hins s t i x _ h hw hne ht =>
      irrevocable_continues ins hins s t i x h (begun_of_wait hw) ((continueAtomic_sends hw hne).trans ht)⟩

/-! ### The last reply (R140, R152, R161) -/

section
variable {s t : State} {b : BatchRef} {i : Iss} {w : AtomWait}

/-- The batch that has finished an irrevocable instruction of `len` words. -/
def pastIrrevocable (t : State) (i : Iss) (len : Nat) : State :=
  t.onBatch i fun b => { b with pc := pcPlus b.pc len, wait := .none, phase := 0, tag := 0, held := none }

/-- The second checkpoint, and the end of the crew's step. -/
def closed (t : State) (i : Iss) : State := (t.secondCkpt i.ref.core i.ref.slot).closeStep i.ref.core i.ref.slot

/-- The lanes whose replies were refused. -/
def refusedLanes (w : AtomWait) : List Nat := (w.replies.filter (·.refused)).map (·.lane)

/-- The acquire of an instruction whose replies are written. -/
def acquired (s : State) (i : Iss) (w : AtomWait) : Option State :=
  let s1 := s.onFibres i (w.replies.map fun r => (r.lane, r)) fun r f => w.kind.write r f
  match w.acquire with
  | some (sc, rmt) => s1.acquire i sc rmt
  | none => some s1

/-- The address that a trap of refused lanes names: that of the lowest, 0 where the instruction keeps none. -/
def lowestAddr (w : AtomWait) : Nat :=
  match w.addrs.find? fun a => (refusedLanes w).contains a.1 with
  | some a => a.2
  | none => 0

theorem lowestAddr_found {a : Nat × Nat} (h : (w.addrs.find? fun a => (refusedLanes w).contains a.1) = some a) :
    lowestAddr w = a.2 := by rw [lowestAddr, h]

theorem lowestAddr_none (h : (w.addrs.find? fun a => (refusedLanes w).contains a.1) = none) : lowestAddr w = 0 := by
  rw [lowestAddr, h]

/-- The trap of the refused lanes. -/
def refuse (t : State) (i : Iss) (w : AtomWait) (va : Nat) : State :=
  t.raise i.ref.core i.ref.slot (i.trap w.kind.refusal (laneMask (refusedLanes w)) va)

/-- What an instruction leaves whose results `t` holds: the trap of its refused lanes is taken from the second checkpoint. -/
def finished (t : State) (i : Iss) (w : AtomWait) : State :=
  closed (if (refusedLanes w).isEmpty then pastIrrevocable t i w.len
    else refuse (pastIrrevocable t i w.len) i w (lowestAddr w)) i

theorem finishAtomic_eq : s.finishAtomic i w = (acquired s i w).map fun t => finished t i w := by
  change (match acquired s i w with
    | none => none
    | some t => some (finished t i w)) = _
  cases acquired s i w <;> rfl

theorem finished_of_accepted (h : refusedLanes w = []) : finished t i w = closed (pastIrrevocable t i w.len) i := by
  rw [finished, if_pos (List.isEmpty_iff.2 h)]

theorem finished_of_refused (h : refusedLanes w ≠ []) :
    finished t i w = closed (refuse (pastIrrevocable t i w.len) i w (lowestAddr w)) i := by
  rw [finished, if_neg (mt List.isEmpty_iff.1 h)]

theorem atomicReply_finishes (hd : s.dead = false) (hf : s.find b = some i) (hw : i.batch.wait = .atomic w)
    (hdone : s.atomDone i w = true) (hdrained : s.ckptDrained i.crew = true) (ht : acquired s i w = some t) :
    exec (.atomicReply b) s = .next (finished t i w) := by
  rw [exec_atomicReply, execAtomicReply]
  refine runEvent_ok hd ?_
  simp only [State.atomicReplyStep, hf, hw, hdone, hdrained, Bool.not_true, Bool.false_eq_true, if_false, if_true]
  rw [finishAtomic_eq, ht, Option.map_some]

end

/-- Settles O20: a batch that may finish leaves `finished`, whose trap depends on the refused lanes. -/
theorem atomicReplyFinishesTheInstruction : Obligations.AtomicReplyFinishesTheInstruction := by
  unfold Obligations.AtomicReplyFinishesTheInstruction
  intro s t b i w hd hf hw hdone hdrained s1 hacq s3 ends bad traps
  have hrun := atomicReply_finishes hd hf hw hdone hdrained hacq
  refine ⟨fun hnone => ?_, fun hsome => ⟨fun a ha => ?_, fun ha => ?_⟩⟩
  · rw [finished_of_accepted hnone] at hrun
    exact hrun
  · rw [finished_of_refused hsome, lowestAddr_found ha] at hrun
    exact hrun
  · rw [finished_of_refused hsome, lowestAddr_none ha] at hrun
    exact hrun

/-! ### Committed bytes through a write at a home line (R117, R138) -/

section
variable {s : State} {g : Site} {pa a l p : Nat}

theorem replaced_of_held (h : (s.homeLine? g.part l).isSome = true) : s.replaced g l = none := by
  rw [State.replaced, h]
  rfl

theorem staleImages_committed : (s.staleImages pa).committed p a = s.committed p a := by
  obtain ⟨_, _, h⟩ := staleImages_memory s pa
  rw [h]
  rfl

theorem staleImages_homeLine : (s.staleImages pa).homeLine? p l = s.homeLine? p l := by
  obtain ⟨_, _, h⟩ := staleImages_memory s pa
  rw [h]
  rfl

/-- The slice holds the line of a byte it has written. -/
theorem commitByte_holds (b : Byte) (hs : s.memoryOk = true) :
    ((s.commitByte g pa b).homeLine? g.part (lineOf pa)).isSome = true := by
  have hline : sectorOf pa / 2 = lineOf pa := by unfold sectorOf lineOf; omega
  obtain ⟨h, hheld, -⟩ := fillSector_line g (sectorOf pa) hs
  rw [hline] at hheld
  rw [State.commitByte, staleImages_homeLine, homeLine_updHome _ _ _ _ _ (store_keeps pa b), if_pos rfl, hheld]
  rfl

/-- Every byte but the one written keeps its committed value, in every partition, but in a line that makes room. -/
theorem commitByte_elsewhere (b : Byte) (hs : s.memoryOk = true) (ha : a ≠ pa) (hr : s.replaced g (lineOf pa) ≠ some (lineOf a)) :
    (s.commitByte g pa b).committed p a = s.committed p a := by
  by_cases hp : p = g.part
  · rw [hp, committed_commitByte g pa a b hs hr, if_neg ha]
  · have hline : sectorOf pa / 2 = lineOf pa := by unfold sectorOf lineOf; omega
    rw [State.commitByte, staleImages_committed, committed_eq, Accesses.homeLine_updHome_part hp _ _ _ (store_keeps pa b)]
    refine (committed_eq _ p a).symm.trans ?_
    exact Accesses.fillSector_committed p hs (by rw [hline]; exact hr)

theorem commitBytes_holds {bs : List Byte} (hs : s.memoryOk = true) (hl : ∀ k, k < bs.length → lineOf (pa + k) = l) (hne : bs ≠ []) :
    ((s.commitBytes g pa bs).homeLine? g.part l).isSome = true := by
  induction bs generalizing s pa with
  | nil => exact absurd rfl hne
  | cons b bs ih =>
    have hfirst : lineOf pa = l := hl 0 (Nat.succ_pos _)
    cases bs with
    | nil => exact hfirst ▸ commitByte_holds b hs
    | cons c cs =>
      refine ih (commitByte_ok g pa b hs) (fun k hk => ?_) nofun
      rw [Nat.add_assoc, Nat.add_comm 1 k]
      exact hl (k + 1) (Nat.succ_lt_succ hk)

theorem commitBytes_elsewhere {bs : List Byte} (hs : s.memoryOk = true) (hl : ∀ k, k < bs.length → lineOf (pa + k) = l)
    (ha : a < pa ∨ pa + bs.length ≤ a) (hr : s.replaced g l ≠ some (lineOf a)) :
    (s.commitBytes g pa bs).committed p a = s.committed p a := by
  induction bs generalizing s pa with
  | nil => rfl
  | cons b bs ih =>
    have hfirst : lineOf pa = l := hl 0 (Nat.succ_pos _)
    rw [List.length_cons] at ha
    have hheld : (s.commitByte g pa b).replaced g l = none := replaced_of_held (hfirst ▸ commitByte_holds b hs)
    rw [State.commitBytes, ih (commitByte_ok g pa b hs) (fun k hk => ?_) (by omega) (by rw [hheld]; nofun)]
    · exact commitByte_elsewhere b hs (by omega) (hfirst ▸ hr)
    · rw [Nat.add_assoc, Nat.add_comm 1 k]
      exact hl (k + 1) (Nat.succ_lt_succ hk)

end

/-! ### A read-modify-write at its home (R138, R139) -/

section
variable {s : State} {e : Entry} {loc : Loc} {a p n : Nat} {bs : List Byte}

/-- A write at a home line commits its bytes; the words it changes are noted for fetches alone (R61). -/
theorem placeWrite_commits (hh : loc.home ≠ 3) (bs : List Byte) :
    ∃ c, s.placeWrite loc bs = ({ s with icache := c }).commitBytes (s.site loc) loc.pa bs := by
  obtain ⟨c, hc⟩ := noteOld_memory s loc.part 0 loc.pa bs.length fun a => s.placeVal { loc with pa := a } 4
  refine ⟨c, ?_⟩
  rw [State.placeWrite, State.noteAt, hc]
  simp only [beq_iff_eq, hh, if_false]

section
variable (hs : s.memoryOk = true) (hh : loc.home ≠ 3) (hl : ∀ k, k < bs.length → lineOf (loc.pa + k) = lineOf loc.pa)
include hs hh hl

theorem placeWrite_here : (s.placeWrite loc bs).committedBytes loc.part loc.pa bs.length = bs := by
  obtain ⟨c, hc⟩ := placeWrite_commits (s := s) hh bs
  rw [hc, Accesses.committedBytes_eq_map]
  refine List.ext_getElem (by simp) fun k hk hk' => ?_
  rw [List.getElem_map, List.getElem_range]
  have hbyte := committed_commitBytes (s := { s with icache := c }) (s.site loc) loc.pa (loc.pa + k) bs hs
    fun m hm => (hl m hm).trans (hl k hk').symm
  rw [if_pos ⟨Nat.le_add_right _ _, Nat.add_lt_add_left hk' _⟩, Nat.add_sub_cancel_left, List.getD_eq_getElem _ _ hk'] at hbyte
  exact hbyte

theorem placeWrite_elsewhere (ha : a < loc.pa ∨ loc.pa + bs.length ≤ a)
    (hr : s.replaced (s.site loc) (lineOf loc.pa) ≠ some (lineOf a)) : (s.placeWrite loc bs).committed p a = s.committed p a := by
  obtain ⟨c, hc⟩ := placeWrite_commits (s := s) hh bs
  rw [hc]
  exact commitBytes_elsewhere (s := { s with icache := c }) hs hl ha hr

theorem placeWrite_holds (hne : bs ≠ []) : ((s.placeWrite loc bs).homeLine? loc.part (lineOf loc.pa)).isSome = true := by
  obtain ⟨c, hc⟩ := placeWrite_commits (s := s) hh bs
  rw [hc]
  exact commitBytes_holds (s := { s with icache := c }) (g := s.site loc) hs hl hne

end

/-- A fill of a copy whose line the slice holds changes no committed byte. -/
theorem refreshCopy_committed (hs : s.memoryOk = true) (hheld : (s.homeLine? loc.part (lineOf loc.pa)).isSome = true) :
    (s.refreshCopy e loc).committed p a = s.committed p a := by
  unfold State.refreshCopy
  split
  · split
    · rfl
    · rw [State.fillL1, Accesses.setCopy_committed]
      unfold State.fillData
      dsimp only
      split
      · rfl
      · have hnone : (s.touch (s.site loc) (lineOf loc.pa)).replaced (s.site loc) (lineOf loc.pa) = none := replaced_of_held hheld
        exact Accesses.fillHome_committed (s := s.touch (s.site loc) (lineOf loc.pa)) p hs (by rw [hnone]; nofun)
  · rfl

theorem atomReply_committed (r : AtomReply) : (s.atomReply e r).committed p a = s.committed p a := rfl

theorem atomReply_committedBytes (r : AtomReply) : (s.atomReply e r).committedBytes p a n = s.committedBytes p a n := by
  simp only [Accesses.committedBytes_eq_map, atomReply_committed]

theorem placeVal_home (hh : loc.home ≠ 3) : s.placeVal loc n = s.committedVal loc.part loc.pa n := by
  simp only [State.placeVal, State.placeBytes, beq_iff_eq, hh, if_false, State.committedVal]

/-- The state in which a read-modify-write has written its word and the core's copy has been refilled. -/
def rewritten (s : State) (e : Entry) (n : Nat) (f : Nat → Nat) : State :=
  (s.placeWrite e.loc (leBytes n (f (s.committedVal e.loc.part e.loc.pa n)))).refreshCopy e e.loc

/-- On a home line with no version of the crew in the way and no poison, it writes what it makes of the old word, and replies with that. -/
theorem applyAtomic_rewrites (f : Nat → Nat) (hh : e.loc.home ≠ 3) (hv : s.version? e.core e.slot e.line = none)
    (hb : s.rangeBad e.loc.pa n = false) : s.applyAtomic e n f = (rewritten s e n f).atomReply e
      { lane := e.lane, val := BitVec.ofNat 64 (s.committedVal e.loc.part e.loc.pa n), status := false, poison := false,
        refused := false } := by
  have hcommit : s.commitLine e.core e.slot e.loc = s := by
    rw [State.commitLine, show s.version? e.core e.slot (lineOf e.loc.pa) = none from hv]
  simp only [State.applyAtomic, hcommit, hb, Bool.false_and, Bool.false_eq_true, if_false, placeVal_home hh, rewritten]

section
variable {f : Nat → Nat} (hs : s.memoryOk = true) (hh : e.loc.home ≠ 3) (hn : 0 < n)
  (hl : ∀ k, k < n → lineOf (e.loc.pa + k) = lineOf e.loc.pa)
include hs hh hn hl

/-- Refilling the core's copy of the word's line leaves the committed bytes as the write has left them. -/
theorem rewritten_committed : (rewritten s e n f).committed p a =
    (s.placeWrite e.loc (leBytes n (f (s.committedVal e.loc.part e.loc.pa n)))).committed p a := by
  refine refreshCopy_committed (placeWrite_ok _ _ hs) (placeWrite_holds hs hh ?_ ?_)
  · rwa [Management.length_leBytes]
  · rw [← List.length_pos_iff, Management.length_leBytes]
    exact hn

theorem rewritten_here : (rewritten s e n f).committedBytes e.loc.part e.loc.pa n =
    leBytes n (f (s.committedVal e.loc.part e.loc.pa n)) := by
  have hhere := placeWrite_here (bs := leBytes n (f (s.committedVal e.loc.part e.loc.pa n))) hs hh
    (by rwa [Management.length_leBytes])
  rw [Management.length_leBytes, Accesses.committedBytes_eq_map] at hhere
  rw [Accesses.committedBytes_eq_map]
  exact (List.map_congr_left fun k _ => rewritten_committed hs hh hn hl).trans hhere

theorem rewritten_elsewhere (ha : a < e.loc.pa ∨ e.loc.pa + n ≤ a) (hr : s.replaced (s.site e.loc) e.line ≠ some (lineOf a)) :
    (rewritten s e n f).committed p a = s.committed p a := by
  rw [rewritten_committed hs hh hn hl]
  exact placeWrite_elsewhere hs hh (by rwa [Management.length_leBytes]) (by rwa [Management.length_leBytes]) hr

end

/-! The arrival of an entry marks the shadow tags alone (R308). -/

theorem arrival_lost : (s.arrival e).entryLost e = s.entryLost e := by
  unfold State.arrival; split <;> rfl

theorem arrival_version? : (s.arrival e).version? e.core e.slot e.line = s.version? e.core e.slot e.line := by
  unfold State.arrival; split <;> rfl

theorem arrival_rangeBad : (s.arrival e).rangeBad a n = s.rangeBad a n := by
  unfold State.arrival; split <;> rfl

theorem arrival_replaced : (s.arrival e).replaced ((s.arrival e).site loc) a = s.replaced (s.site loc) a := by
  unfold State.arrival; split <;> rfl

theorem arrival_committed : (s.arrival e).committed p a = s.committed p a := by
  unfold State.arrival; split <;> rfl

theorem arrival_committedVal : (s.arrival e).committedVal p a n = s.committedVal p a n := by
  simp only [State.committedVal, Accesses.committedBytes_eq_map, arrival_committed]

/-- An aligned word of 4 or 8 bytes stands in one line. -/
theorem line_of_word {k : Nat} (hn : n = 4 ∨ n = 8) (h0 : a % n = 0) (hk : k < n) : lineOf (a + k) = lineOf a := by
  unfold lineOf
  obtain rfl | rfl := hn <;> omega

/-- An entry that is not lost and has been applied is one that did not wait. -/
theorem entryWaits_of_applied {s0 t : State} (hl : (s0.arrival e).entryLost e = false) (h : s0.applyEntry e = some t) :
    (s0.arrival e).entryWaits e = false := by
  rw [← Bool.not_eq_true]
  intro hw
  rw [Buffers.applyEntry_waits rfl hl hw] at h
  cases h

end

/-- Settles O21: the word is rewritten where it stands, and neither the arrival of the request nor the refill of the core's copy changes a
committed byte. -/
theorem atomicActsOnTheCommittedWord : Obligations.AtomicActsOnTheCommittedWord := by
  unfold Obligations.AtomicActsOnTheCommittedWord
  intro s t e aop n v hs hn hk _ hh h0 hlost hb hv happ
  rw [← arrival_lost] at hlost
  rw [← arrival_rangeBad (e := e)] at hb
  rw [← arrival_version?] at hv
  have hrun := Buffers.applyEntry_rmw rfl hlost (entryWaits_of_applied hlost happ) hk
  rw [happ, Option.some.injEq, applyAtomic_rewrites _ hh hv hb] at hrun
  have hs0 : (s.arrival e).memoryOk = true := MemoryForm.arrival_ok hs
  have hpos : 0 < n := by omega
  have hline := fun k (hk : k < n) => line_of_word hn h0 hk
  rw [hrun]
  refine ⟨?_, fun p a ha hr => ?_, _, by rw [arrival_committedVal]⟩
  · rw [atomReply_committedBytes, rewritten_here hs0 hh hpos hline, arrival_committedVal]
  · rw [atomReply_committed, rewritten_elsewhere hs0 hh hpos hline ha (by rwa [arrival_replaced]), arrival_committed]

/-! ### QWAIT (R153) -/

section
variable {s : State} {i : Iss} {x : Form} {l : Loc}

/-- What QWAIT does once its checkpoint is taken, to a descriptor whose line no engine owns. -/
def qwaitStep (s1 : State) (i : Iss) (x : Form) (l : Loc) (now : Nat) : State :=
  let s2 := s1.cacheLeaf i.crew.part l
  if s1.rangeBad l.pa 64 then ((s2.logError 4 l.pa l.ia).onFlock i fun f => f.setQ x.dn false).advance i x.words
  else if !(s1.qdesc l).ok none then s2.raise i.ref.core i.ref.slot (i.trap .queueDesc (maskOf i.active) l.va)
  else if 0 < (s1.qdesc l).used then (s2.onFlock i fun f => f.setQ x.dn true).advance i x.words
  else
    let p := s2.qlist l (waiterWord i.crew.part i.ref.core i.ref.slot i.flock.num)
    p.1.onBatch i fun b =>
      { b with
        pc := pcPlus b.pc x.words, phase := 0, tag := 0, held := none
        wait := .qwait x.dn l p.2 (x.mf 15 0) now (now + 1024) i.batch.pc }

theorem qwait_steps (h : UniRuns s i x .vector) (hfree : i.free [(x.an, true)] = true)
    (halign : (i.flock.kpair x.an).toNat % 2 ^ 57 % 64 = 0)
    (htrans : s.translate i.crew.part i.crew.level .queue ((i.flock.kpair x.an).toNat % 2 ^ 57) = .ok l)
    (hready : s.ckptReady i.crew = true) (hown : (s.checkpoint i.ref.core i.ref.slot).owned l.part (lineOf l.pa) = false) :
    exec (.qwait x) s = .next (qwaitStep (s.checkpoint i.ref.core i.ref.slot) i x l s.clock) := by
  rw [exec_qwait, execQwait]
  refine uniSet_ok h ?_
  rw [kFree_ok hfree]
  simp only [checkOne_ok i (Accesses.checkVa_ok halign htrans), Accesses.takeCkpt_ready hready, hown, Bool.false_eq_true, if_false]
  unfold qwaitStep
  split_ifs <;> rfl

end

/-- Settles O22: past its checks QWAIT runs `qwaitStep`, by the descriptor's poison, its check and its elements. -/
theorem queueWaitCompletes : Obligations.QueueWaitCompletes := by
  unfold Obligations.QueueWaitCompletes
  intro s i x l h hfree halign htrans hready s1 d hown s2
  have hrun : exec (.qwait x) s = .next (qwaitStep s1 i x l s.clock) := qwait_steps h hfree halign htrans hready hown
  refine ⟨fun hbad => ?_, fun hclean hfail => ?_, fun hclean hok hsome => ?_, fun hclean hok hnone => ?_⟩
  · rw [hrun, qwaitStep, if_pos hbad]
  · rw [hrun, qwaitStep, if_neg (Bool.eq_false_iff.1 hclean), if_pos (by rw [hfail]; rfl)]
  · rw [hrun, qwaitStep, if_neg (Bool.eq_false_iff.1 hclean), if_neg (by rw [hok]; exact Bool.false_ne_true), if_pos hsome]
  · rw [hrun, qwaitStep, if_neg (Bool.eq_false_iff.1 hclean), if_neg (by rw [hok]; exact Bool.false_ne_true),
      if_neg (Int.not_lt.2 hnone)]

end Sys2Proof.Irrevocable

/-! PROOF. The heap instructions: accesses through references, the instructions on references, allocation and the hand-over of a relocation
list (R154-R163). -/

namespace Sys2Proof.References
open Sys2Proof Sys2Proof.Machine Sys2Proof.Claims

/-! ### Checks that succeed (R154, R160) -/

section
variable {s : State} {i : Iss} {x : Form} {c : Context} {f : Fibre}

theorem srcRef_ok {n : Nat} (h : i.hBusy f.lane n = false) : srcRef i n f = .ok (f.h n) := by
  rw [srcRef, h]
  rfl

theorem destRef_ok {n : Nat} (h : i.hBusy f.lane n = false) : destRef i n f = .ok () := by
  rw [destRef, h]
  rfl

theorem withCtx_some (h : s.ctx? i.crew.part = some c) (body : Context → Res State) : withCtx s i body = body c := by
  rw [withCtx, h]

/-- A reference source and a reference destination that no outstanding HLD.REF holds. -/
theorem srcRef_and_destRef {m n : Nat} (hm : i.hBusy f.lane m = false) (hn : i.hBusy f.lane n = false) :
    (srcRef i m f).and (destRef i n f) = .ok (f.h m, ()) := by
  rw [srcRef_ok hm, destRef_ok hn, Chk.ok_and]

end

/-! ### Accesses through references (R158-R160) -/

section
variable {s s2 t : State} {i : Iss} {x : Form} {c : Context}

/-- The destination of an HLD: a reference register, or registers as wide as the data. -/
theorem heapDest_ok {f : Fibre}
    (h : if x.ref then i.hBusy f.lane x.dn = false else ∀ n ∈ regPair x.dn (x.w == 1), f.writable n = true) :
    (if x.ref then destRef i x.dn f else destWide f x.dn (x.w == 1)) = .ok () := by
  cases hx : x.ref <;> rw [hx] at h
  · exact destWide_ok h
  · exact destRef_ok h

/-- What an HST stores: a reference, or registers as wide as the data. -/
theorem heapData_ok {f : Fibre}
    (h : if x.ref then i.hBusy f.lane x.bn = false else ∀ n ∈ regPair x.bn (x.w == 1), f.readable n = true) :
    heapData64 i x f = .ok (if x.ref then f.h x.bn else f.value x.bn (x.w == 1)) := by
  unfold heapData64
  cases hx : x.ref <;> rw [hx] at h
  · exact readWide_ok _ _ h
  · exact srcRef_ok h

/-- The producers that an HLD starts with the results of its reads; references are healed first (R159). -/
def heapProduced (s2 : State) (i : Iss) (x : Form) (c : Context) (loc : Fibre → Loc)
    (rs : List (Nat × Word64 × Bool × ProdSrc)) : State :=
  if x.ref then
    let h := s2.healAll c i.ref.core ((i.takers x).map fun f => (f.lane, loc f)) rs
    h.1.produceH i x h.2
  else s2.produce i x (x.w == 1) rs

/-- A heap load heals its base registers and starts its producers. -/
theorem hld_starts (h : LaneRuns s i x) (hctx : s.ctx? i.crew.part = some c) (hl : Fibre → HeapLoc)
    {rs : List (Nat × Word64 × Bool × ProdSrc)}
    (hr : ∀ f ∈ i.takers x, heapEa s i c x .load f = .ok (hl f) ∧
      (if x.ref then i.hBusy f.lane x.dn = false else ∀ n ∈ regPair x.dn (x.w == 1), f.writable n = true))
    (hrun : (s.healBase i c x ((i.takers x).map fun f => (f.lane, hl f))).loadRun
      ((s.healBase i c x ((i.takers x).map fun f => (f.lane, hl f))).again i) x (parts i x fun f => (hl f).loc) =
        some (s2, rs)) :
    exec (.hld x) s = .next ((heapProduced s2 i x c (fun f => (hl f).loc) rs).loadEnd i x
      ((parts i x fun f => (hl f).loc).map (·.2))) := by
  have hchecks : checkAll i (i.takers x) (fun f => (heapEa s i c x .load f).and
      (if x.ref then destRef i x.dn f else destWide f x.dn (x.w == 1))) =
        .ok ((i.takers x).map fun f => (f.lane, hl f, ())) :=
    checkAll_ok i _ _ fun f hf => by
      obtain ⟨hea, hdest⟩ := hr f hf
      rw [hea, heapDest_ok hdest, Chk.ok_and]
  have hbases : ((i.takers x).map fun f => (f.lane, hl f, ())).map (fun v => (v.1, v.2.1)) =
      (i.takers x).map fun f => (f.lane, hl f) := List.map_map
  have hlocs : ((i.takers x).map fun f => (f.lane, hl f)).map (fun v => (v.1, v.2.loc)) =
      (i.takers x).map fun f => (f.lane, (hl f).loc) := List.map_map
  rw [parts] at hrun
  rw [exec_hld, execHld]
  refine laneSet_ok h ?_
  simp only [withCtx_some hctx, hchecks, hbases, hlocs, hrun]
  rfl

theorem hst_runs (h : LaneRuns s i x) (hctx : s.ctx? i.crew.part = some c) (hl : Fibre → HeapLoc) (data : Fibre → Word64)
    (hr : ∀ f ∈ i.takers x, heapEa s i c x .store f = .ok (hl f) ∧ heapData64 i x f = .ok (data f))
    (hrun : storeRun (s.healBase i c x ((i.takers x).map fun f => (f.lane, hl f)))
      ((s.healBase i c x ((i.takers x).map fun f => (f.lane, hl f))).again i) x
      ((parts i x fun f => (hl f, data f)).map fun p => (p.1, p.2.1.loc, leBytes x.size p.2.2.toNat)) = .ok t) :
    exec (.hst x) s = .next t := by
  have hchecks : checkAll i (i.takers x) (fun f => (heapEa s i c x .store f).and (heapData64 i x f)) =
      .ok ((i.takers x).map fun f => (f.lane, hl f, data f)) :=
    checkAll_ok i _ _ fun f hf => by
      obtain ⟨hea, hdata⟩ := hr f hf
      rw [hea, hdata, Chk.ok_and]
  have hbases : ((i.takers x).map fun f => (f.lane, hl f, data f)).map (fun v => (v.1, v.2.1)) =
      (i.takers x).map fun f => (f.lane, hl f) := List.map_map
  rw [exec_hst, execHst]
  refine laneSet_ok h ?_
  simp only [withCtx_some hctx, hchecks, hbases]
  exact hrun

end

/-- Settles O23: the resolved places and the checks of the data registers lead to the run of a load or a store. Of the model's choices, a
load's value is taken at issue and delivered by a producer: log 30. -/
theorem heapAccessesComplete : Obligations.HeapAccessesComplete := by
  unfold Obligations.HeapAccessesComplete
  refine ⟨fun s s2 i x c hl rs h hctx hr => ?_, fun s i x c hl t h hctx hr => ?_⟩
  · intro hs s1 ls hrun
    have hstart := hld_starts h hctx hl hr hrun
    refine ⟨fun hplain => ?_, fun href => ?_⟩
    · rw [heapProduced, if_neg (Bool.eq_false_iff.1 hplain)] at hstart
      exact hstart
    · rw [heapProduced, if_pos href] at hstart
      exact hstart
  · intro data s1 hrun
    exact hst_runs h hctx hl data (fun f hf => ⟨(hr f hf).1, heapData_ok (hr f hf).2⟩) hrun

/-! ### References moved and compared (R161) -/

section
variable {s : State} {i : Iss} {x : Form}

theorem hrefIsnull_completes (h : LaneRuns s i x) (hr : ∀ f ∈ i.takers x, i.hBusy f.lane x.an = false) :
    exec (.hrefIsnull x) s = .next ((s.onFibres i ((i.takers x).map fun f => (f.lane, refTag (f.h x.an) == 0))
      fun r f => f.setPred x.dn r).advance i x.words) := by
  rw [exec_hrefIsnull, execHrefIsnull]
  refine laneSet_ok h ?_
  rw [checkAll_ok i _ (fun f => refTag (f.h x.an) == 0) fun f hf => by rw [srcRef_ok (hr f hf), Chk.ok_map]]

/-- The checks give each lane its reference and no more of its destination. -/
theorem setRefs_checked (v : Fibre → Word64) :
    s.onFibres i ((i.takers x).map fun f => (f.lane, v f, ())) (fun p f => f.setH x.dn p.1) =
      s.onFibres i ((i.takers x).map fun f => (f.lane, v f)) fun r f => f.setH x.dn r := by
  simp only [State.onFibres, List.foldl_map]

theorem hrefMov_completes (h : LaneRuns s i x) (hr : ∀ f ∈ i.takers x, i.hBusy f.lane x.an = false)
    (hd : ∀ f ∈ i.takers x, i.hBusy f.lane x.dn = false) :
    exec (.hrefMov x) s = .next ((s.onFibres i ((i.takers x).map fun f => (f.lane, f.h x.an))
      fun r f => f.setH x.dn r).advance i x.words) := by
  rw [exec_hrefMov, execHrefMov]
  refine laneSet_ok h ?_
  rw [checkAll_ok i _ (fun f => (f.h x.an, ())) fun f hf => srcRef_and_destRef (hr f hf) (hd f hf)]
  simp only [setRefs_checked]

theorem hrefFrom_completes (h : LaneRuns s i x)
    (hr : ∀ f ∈ i.takers x, pairReadable f x.an = true ∧ i.hBusy f.lane x.dn = false) :
    exec (.hrefFrom x) s = .next ((s.onFibres i ((i.takers x).map fun f => (f.lane, pairA x f))
      fun r f => f.setH x.dn r).advance i x.words) := by
  rw [exec_hrefFrom, execHrefFrom]
  refine laneSet_ok h ?_
  rw [checkAll_ok i _ (fun f => (pairA x f, ())) fun f hf => by
    obtain ⟨hread, hdest⟩ := hr f hf
    rw [MemoryInstructions.srcPair_ok hread, destRef_ok hdest, Chk.ok_and]]
  simp only [setRefs_checked]

theorem forall_writable_of_pair {f : Fibre} {m : Nat} (h : pairWritable f m = true) :
    ∀ n ∈ regPair m true, f.writable n = true := by
  obtain ⟨hlow, hhigh⟩ := Bool.and_eq_true_iff.1 h
  exact List.forall_mem_cons.2 ⟨hlow, List.forall_mem_singleton.2 hhigh⟩

theorem hrefTo_completes (h : LaneRuns s i x) (hr : ∀ f ∈ i.takers x, i.hBusy f.lane x.an = false)
    (hd : ∀ f ∈ i.takers x, pairWritable f x.dn = true) :
    exec (.hrefTo x) s = .next (s.laneResult i x true ((i.takers x).map fun f => (f.lane, f.h x.an))) := by
  rw [exec_hrefTo, execHrefTo]
  exact laneWrite_ok h _ (fun f hf => srcRef_ok (hr f hf)) fun f hf => forall_writable_of_pair (hd f hf)

/-- HREF.CMP compares the references by the current bases of their objects (R158). -/
theorem hrefCmp_completes {c : Context} (h : LaneRuns s i x) (hctx : s.ctx? i.crew.part = some c)
    (ba bb : Fibre → Option Nat)
    (hr : ∀ f ∈ i.takers x, i.hBusy f.lane x.an = false ∧ i.hBusy f.lane x.bn = false ∧
      baseOf s c i.ref.core (f.h x.an) = .ok (ba f) ∧ baseOf s c i.ref.core (f.h x.bn) = .ok (bb f)) :
    exec (.hrefCmp x) s = .next ((s.onFibres i ((i.takers x).map fun f =>
      (f.lane, sameObject (f.h x.an) (f.h x.bn) (ba f) (bb f))) fun r f => f.setPred x.dn r).advance i x.words) := by
  rw [exec_hrefCmp, execHrefCmp]
  refine laneSet_ok h ?_
  rw [withCtx_some hctx, checkAll_ok i _ (fun f => sameObject (f.h x.an) (f.h x.bn) (ba f) (bb f)) fun f hf => by
    obtain ⟨ha, hb, hbaseA, hbaseB⟩ := hr f hf
    rw [srcRef_ok ha, srcRef_ok hb, Chk.ok_and, Chk.ok_bind, hbaseA, hbaseB, Chk.ok_and, Chk.ok_map]]

end

/-! ### Pins (R161) -/

section
variable {s : State} {i : Iss} {x : Form} {c : Context} {loc : Fibre → Loc}

/-- The wait of an HREF.PIN or HREF.UNPIN: one request per lane, of its reference at the header's line. -/
def pinWait (i : Iss) (x : Form) (loc : Fibre → Loc) (kind : AtomKind) (op : AtomOp) : AtomWait :=
  { kind := kind
    todo := (i.takers x).map fun f => { lane := f.lane, loc := loc f, op := op, e := f.h x.an }
    release := none, size := 8, lanes := (i.takers x).map (·.lane), replies := [], acquire := none
    len := x.words, addrs := [] }

theorem srcHeader_ok {f : Fibre} {l : Loc} (hb : i.hBusy f.lane x.an = false) (hu : c.usable (f.h x.an) = true)
    (hp : heapPage s i c .atomic (refBase (f.h x.an)) = .ok l) : srcHeader s i c x f = .ok (l, f.h x.an) := by
  rw [srcHeader, srcRef_ok hb, Chk.ok_bind, useRef, Chk.guard_ok _ _ hu, Chk.ok_bind, hp, Chk.ok_map]

/-- The headers' places and the checks of the destinations give the wait of a pin operation. -/
theorem pinOp_begins (h : LaneRuns s i x) (h0 : i.begun = false) (hm : mayBegin s i) (hctx : s.ctx? i.crew.part = some c)
    (hr : ∀ f ∈ i.takers x, i.hBusy f.lane x.an = false ∧ c.usable (f.h x.an) = true ∧
      heapPage s i c .atomic (refBase (f.h x.an)) = .ok (loc f))
    {ins : Instr} {kind : AtomKind} {op : AtomOp} {dest : Fibre → Chk Unit} {empty : Fibre → Fibre}
    (hrun : exec ins s = pinOp s x kind op dest empty) (hdest : ∀ f ∈ i.takers x, dest f = .ok ()) :
    Begins ins s i x (pinWait i x loc kind op) empty := by
  have hchecks : checkAll i (i.takers x) (fun f => (srcHeader s i c x f).and (dest f)) =
      .ok ((i.takers x).map fun f => (f.lane, (loc f, f.h x.an), ())) :=
    checkAll_ok i _ _ fun f hf => by
      obtain ⟨hbusy, husable, hpage⟩ := hr f hf
      rw [srcHeader_ok hbusy husable hpage, hdest f hf, Chk.ok_and]
  refine Irrevocable.begins_of_beginAtomic h h0 hm (by rw [hrun, pinOp]) ?_
  simp only [withCtx_some hctx, hchecks, List.map_map]
  rfl

end

/-! ### Allocation (R162) -/

section
variable {s : State} {i : Iss} {x : Form} {c : Context}

/-- The size an HNEW asks for. -/
def newSize (x : Form) (f : Fibre) : Nat := if x.hasImm then x.immZ else (ra x f).toNat

theorem newSize_read {f : Fibre} (h : x.hasImm = true ∨ f.readable x.an = true) :
    (if x.hasImm then .ok x.immZ else (srcA x f).map (·.toNat)) = Chk.ok (newSize x f) := by
  unfold newSize
  cases hi : x.hasImm with
  | true => rfl
  | false =>
    have ha : f.readable x.an = true := by simpa [hi] using h
    rw [srcA_ok ha]
    rfl

/-- Does a lane of HNEW send a request, to the allocator line at `l`, or has it a null reference at once? -/
def Allocates (s : State) (i : Iss) (x : Form) (c : Context) (f : Fibre) : Option Loc → Prop
  | none => newSize x f < 16 ∨ 65536 < newSize x f ∨ c.regionValid (x.mf 8 0) = false
  | some l => 16 ≤ newSize x f ∧ newSize x f ≤ 65536 ∧ c.regionValid (x.mf 8 0) = true ∧
    s.pageCheck c i.crew.level .atomic .dev (c.regionAlloc (x.mf 8 0)) (c.regionAlloc (x.mf 8 0)) 0 = .ok l

theorem srcNew_ok {f : Fibre} {o : Option Loc} (hsize : x.hasImm = true ∨ f.readable x.an = true)
    (h : Allocates s i x c f o) : srcNew s i c x f = .ok (newSize x f, o) := by
  unfold srcNew
  rw [newSize_read hsize, Chk.ok_bind]
  cases o with
  | none => exact if_pos h
  | some l =>
    obtain ⟨hmin, hmax, hvalid, hpage⟩ := h
    have hnot : ¬(newSize x f < 16 ∨ 65536 < newSize x f ∨ c.regionValid (x.mf 8 0) = false) := by
      rw [hvalid, not_or, not_or]
      exact ⟨Nat.not_lt.2 hmin, Nat.not_lt.2 hmax, Bool.noConfusion⟩
    rw [if_neg hnot, hpage]
    rfl

/-- The wait of an HNEW: a request of each lane that allocates, a null reply of each other. -/
def newWait (i : Iss) (x : Form) (loc : Fibre → Option Loc) : AtomWait :=
  { kind := .hnew x.dn
    todo := (i.takers x).filterMap fun f => (loc f).map fun l =>
      { lane := f.lane, loc := l, op := .hnew (x.mf 8 0) (newSize x f), e := 0 }
    release := none, size := 8, lanes := (i.takers x).map (·.lane)
    replies := ((i.takers x).filter fun f => (loc f).isNone).map fun f =>
      { lane := f.lane, val := 0, status := false, poison := false, refused := false }
    acquire := none, len := x.words, addrs := [] }

theorem hnew_begins (h : LaneRuns s i x) (h0 : i.begun = false) (hm : mayBegin s i) (hctx : s.ctx? i.crew.part = some c)
    (loc : Fibre → Option Loc)
    (hr : ∀ f ∈ i.takers x, (x.hasImm = true ∨ f.readable x.an = true) ∧ i.hBusy f.lane x.dn = false ∧
      Allocates s i x c f (loc f)) : Begins (.hnew x) s i x (newWait i x loc) id := by
  have hchecks : checkAll i (i.takers x) (fun f => (srcNew s i c x f).and (destRef i x.dn f)) =
      .ok ((i.takers x).map fun f => (f.lane, (newSize x f, loc f), ())) :=
    checkAll_ok i _ _ fun f hf => by
      obtain ⟨hsize, hdest, halloc⟩ := hr f hf
      rw [srcNew_ok hsize halloc, destRef_ok hdest, Chk.ok_and]
  refine Irrevocable.begins_of_beginAtomic h h0 hm (by rw [exec_hnew, execHnew]) ?_
  simp only [withCtx_some hctx, hchecks, List.map_map, List.filterMap_map, List.filter_map]
  rfl

end

theorem referenceInstructionsComplete : ReferenceInstructionsComplete := by
  unfold ReferenceInstructionsComplete
  refine ⟨fun s i x h hr => ⟨hrefIsnull_completes h hr, hrefMov_completes h hr, hrefTo_completes h hr⟩,
    fun s i x h hr => hrefFrom_completes h hr, fun s i x c ba bb h hctx hr => hrefCmp_completes h hctx ba bb hr,
    fun s i x c loc h h0 hm hctx hr => ?_, fun s i x c loc h h0 hm hctx hr => ?_⟩
  · exact ⟨fun hdest => pinOp_begins h h0 hm hctx hr (exec_hrefPin x s) fun f hf => Everyday.destPair_ok (hdest f hf),
      pinOp_begins h h0 hm hctx hr (exec_hrefUnpin x s) fun _ _ => rfl⟩
  · refine hnew_begins h h0 hm hctx loc fun f hf => ?_
    obtain ⟨hsize, hdest, halloc⟩ := hr f hf
    refine ⟨hsize, hdest, ?_⟩
    cases hloc : loc f <;> rw [hloc] at halloc <;> exact halloc

/-! ### Relocation lists (R163) -/

theorem needLevel_holds {i : Iss} {ok : Bool} (h : ok = true) : needLevel i ok = .ok () := if_pos h

theorem relocationIsHandedOver : RelocationIsHandedOver := by
  unfold RelocationIsHandedOver
  intro s i x c l h hctx hlevel hfree n hlist hroom lines
  refine Handover.handsOver_of_engineIssue (lines := lines) fun t ht => ?_
  have hchecks : checkOne i ((checkList s i ((i.flock.kpair x.an).toNat % 2 ^ 57) (i.flock.kreg (x.an + 2)).toNat).bind
      (checkSources s c (i.flock.kreg (x.an + 2)).toNat)) = .ok l := checkOne_ok i hlist
  rw [exec_hreloc, execHreloc]
  refine uniSet_ok h ?_
  simp only [withCtx_some hctx, needLevel_holds (bne_iff_ne.2 hlevel), kFree_ok hfree, hchecks, if_neg (Nat.not_le.2 hroom)]
  exact ht

/-- Settles O24: the checks of each succeed, and what they give is written, begins as an irrevocable instruction, or is handed over. -/
theorem referencesAndRelocationComplete : Obligations.ReferencesAndRelocationComplete :=
  ⟨referenceInstructionsComplete, relocationIsHandedOver⟩

end Sys2Proof.References

/-! PROOF. An FP32 operation returns its first NaN operand, quieted (R186, R196). -/

namespace Sys2Proof.NanOperands

open Machine Claims Results

/-! ### The first NaN among some operands -/

/-- The bits of an FP32 NaN are those that the format decodes to one (R178). -/
theorem isNan_decodeF_fp32 (a : Nat) : (decodeF fp32 a).isNan = nan32 a := by
  have hexp : a % 2 ^ 32 / 2 ^ 23 % 2 ^ 8 = a / 2 ^ 23 % 256 := by omega
  have hfrac : a % 2 ^ 32 % 2 ^ 23 = a % 2 ^ 23 := by omega
  have hdecode : decodeF fp32 a = if a / 2 ^ 23 % 256 = 255 then
      (if a % 2 ^ 23 = 0 then .inf (bitAt (a % 2 ^ 32) 31) else .nan (a % 2 ^ 32))
    else if a / 2 ^ 23 % 256 = 0 then .fin (bitAt (a % 2 ^ 32) 31) (a % 2 ^ 23) fp32.qMin
    else .fin (bitAt (a % 2 ^ 32) 31) (2 ^ 23 + a % 2 ^ 23) (fp32.qMin + (a / 2 ^ 23 % 256 - 1 : Nat)) := by
    rw [← hexp, ← hfrac]; rfl
  rw [hdecode, nan32]
  by_cases htop : a / 2 ^ 23 % 256 = 255
  · by_cases hzero : a % 2 ^ 23 = 0
    · rw [if_pos htop, if_pos hzero, htop, hzero]; rfl
    · rw [if_pos htop, if_neg hzero, htop, bne_iff_ne.2 hzero]; rfl
  · rw [if_neg htop, beq_false_of_ne htop, Bool.false_and]
    split <;> rfl

/-- Quieting sets bit 22 and no other bit of the word. -/
theorem quiet_fp32_mod (a : Nat) : quiet fp32 (a % 2 ^ 32) % 2 ^ 32 = quieted a % 2 ^ 32 := by
  have hquiet : quiet fp32 (a % 2 ^ 32) = if a % 2 ^ 32 / 2 ^ 22 % 2 = 1 then a % 2 ^ 32 else a % 2 ^ 32 + 2 ^ 22 :=
    (if_neg Bool.false_ne_true).trans (ite_congr (propext beq_iff_eq) (fun _ => rfl) fun _ => rfl)
  have hbit : a % 2 ^ 32 / 2 ^ 22 % 2 = a / 2 ^ 22 % 2 := by omega
  rw [hquiet, hbit, quieted]
  split <;> omega

/-- The first NaN is the one that no other comes before. -/
theorem firstNan_append_cons {pre post : List Nat} {a : Nat} (hpre : ∀ b ∈ pre, nan32 b = false) (ha : nan32 a = true) :
    firstNan fp32 (pre ++ a :: post) = some (quiet fp32 (a % 2 ^ 32)) := by
  induction pre with
  | nil => exact if_pos ((isNan_decodeF_fp32 a).trans ha)
  | cons b pre ih =>
    obtain ⟨hb, hrest⟩ := List.forall_mem_cons.1 hpre
    have hskip : ¬ (decodeF fp32 b).isNan = true := by rw [isNan_decodeF_fp32, hb]; decide
    exact (if_neg hskip).trans (ih hrest)

/-! ### Operations that return it -/

/-- An operation's result is the first NaN among its operands, quieted, where one of them is a NaN. -/
def ReturnsFirstNan (ops : List Nat) (n : Nat) : Prop := ∀ q, firstNan fp32 ops = some q → n = q

theorem ReturnsFirstNan.toNat_ofNat {pre post : List Nat} {a n : Nat} (h : ReturnsFirstNan (pre ++ a :: post) n)
    (hpre : ∀ b ∈ pre, nan32 b = false) (ha : nan32 a = true) : (BitVec.ofNat 32 n).toNat = quieted a % 2 ^ 32 := by
  rw [h _ (firstNan_append_cons hpre ha), BitVec.toNat_ofNat, quiet_fp32_mod]

section
variable (rm : Nat) (sat : Bool) (lane pc a b : Nat)

theorem evalF_returnsFirstNan (ops : List Nat) (e : Exact) : ReturnsFirstNan ops (evalF fp32 rm sat lane pc ops e) :=
  fun q hq => by rw [evalF, hq]

theorem opMin_returnsFirstNan : ReturnsFirstNan [a, b] (opMin fp32 a b) := fun q hq => by rw [opMin, hq]

theorem opMax_returnsFirstNan : ReturnsFirstNan [a, b] (opMax fp32 a b) := fun q hq => by rw [opMax, hq]

end

/-! ### Instructions of two and of three sources -/

/-- A two-source FP32 instruction gives the first NaN of its modified sources where its operation does. -/
theorem gives2_firstNan {ins : Form → Instr} (op : ElOp2)
    (hc : LaneCompletes (row2 ins immFloat fun x i f a b =>
      BitVec.ofNat 32 (op x.rm x.sat f.lane i.batch.pc (modA fp32 x a.toNat) (modB fp32 x b.toNat))))
    (hop : ∀ rm sat lane pc a b, ReturnsFirstNan [a, b] (op rm sat lane pc a b)) :
    Gives2 ins immFloat fun x a b v =>
      let a := modA fp32 x a.toNat
      let b := modB fp32 x b.toNat
      (nan32 a = true → v.toNat = quieted a % 2 ^ 32) ∧
      (nan32 a = false → nan32 b = true → v.toNat = quieted b % 2 ^ 32) := by
  refine Arithmetic.gives2_of_completes hc fun x i f a b => ?_
  have hfirst := hop x.rm x.sat f.lane i.batch.pc (modA fp32 x a.toNat) (modB fp32 x b.toNat)
  exact ⟨hfirst.toNat_ofNat (pre := []) (List.forall_mem_nil _),
    fun ha => hfirst.toNat_ofNat (pre := [_]) (List.forall_mem_singleton.2 ha)⟩

/-- A three-source row leaves its value in D of each participant. -/
theorem row3_holds {ins : Form → Instr} {imm : Form → Word} {op : Form → Iss → Fibre → Word → Word → Word → Word}
    (hc : LaneCompletes (row3 ins imm op)) {s : State} {i : Iss} {x : Form} (h : LaneRuns s i x)
    (hr : ∀ f ∈ i.takers x, (∀ n ∈ if x.hasImm then [x.an, x.cn] else [x.an, x.bn, x.cn], f.readable n = true) ∧
      f.writable x.dn = true) :
    ∃ t, exec (ins x) s = .next t ∧ ∀ f, Sole i x f →
      t.laneHolds i.ref f.lane x.dn (op x i f (ra x f) (rb x (imm x) f) (rc x f)) := by
  have hready : (row3 ins imm op).ready x i := fun f hf => ⟨(hr f hf).1, List.forall_mem_singleton.2 (hr f hf).2⟩
  obtain ⟨t, ht, -, hholds⟩ := hc.writes h hready
  refine ⟨t, ht, fun f hf => ?_⟩
  have hv := (hholds f hf).1
  simp only [row3] at hv
  rwa [BitVec.setWidth_setWidth_of_le _ (by decide), BitVec.setWidth_eq] at hv

/-- Settles O54: each operation looks for a NaN before it computes, and the first it finds it returns quieted. -/
theorem firstNanIsReturned : Obligations.FirstNanIsReturned := by
  refine ⟨?_, fun s i x h hr => ?_⟩
  · simp only [List.forall_mem_cons]
    exact ⟨gives2_firstNan (opAdd fp32) row2_completes fun _ _ _ _ _ _ => evalF_returnsFirstNan _ _ _ _ _ _,
      gives2_firstNan (opSub fp32) row2_completes fun _ _ _ _ _ _ => evalF_returnsFirstNan _ _ _ _ _ _,
      gives2_firstNan (opMul fp32) row2_completes fun _ _ _ _ _ _ => evalF_returnsFirstNan _ _ _ _ _ _,
      gives2_firstNan (opDiv fp32) row2_completes fun _ _ _ _ _ _ => evalF_returnsFirstNan _ _ _ _ _ _,
      gives2_firstNan (fun _ _ _ _ => opMin fp32) row2_completes fun _ _ _ _ => opMin_returnsFirstNan,
      gives2_firstNan (fun _ _ _ _ => opMax fp32) row2_completes fun _ _ _ _ => opMax_returnsFirstNan,
      List.forall_mem_nil _⟩
  · obtain ⟨t, ht, hholds⟩ := row3_holds (ins := .ffma) (imm := immFloat) (op := fun x i f a b c =>
      BitVec.ofNat 32 (opFma fp32 x.rm x.sat f.lane i.batch.pc (modA fp32 x a.toNat) (modB fp32 x b.toNat)
        (modC fp32 x c.toNat))) row3_completes h hr
    refine ⟨t, ht, fun f hf => ⟨_, hholds f hf, ?_⟩⟩
    have hfirst : ReturnsFirstNan [modA fp32 x (ra x f).toNat, modB fp32 x (rb x (immFloat x) f).toNat,
      modC fp32 x (rc x f).toNat] (opFma fp32 x.rm x.sat f.lane i.batch.pc _ _ _) :=
      evalF_returnsFirstNan _ _ _ _ _ _
    exact ⟨hfirst.toNat_ofNat (pre := []) (List.forall_mem_nil _),
      fun ha => hfirst.toNat_ofNat (pre := [_]) (List.forall_mem_singleton.2 ha),
      fun ha hb => hfirst.toNat_ofNat (pre := [_, _]) (List.forall_mem_cons.2 ⟨ha, List.forall_mem_singleton.2 hb⟩)⟩

end Sys2Proof.NanOperands

/-! PROOF. FP32, packed 16-bit and conversion instructions of the lane set complete (R195-R199, R203-R207). -/

namespace Sys2Proof.Conversions

open Machine Claims Results

/-! ### Arithmetic (R195-R199) -/

/-- Settles O3: the tables of FP32 and of packed rows, each row a `laneWrite` of its value. -/
theorem laneFloatInstructionsComplete : Obligations.LaneFloatInstructionsComplete :=
  ⟨floatRows_complete, packedRows_complete⟩

/-! ### Packing, unpacking and quantising (R205, R206) -/

/-- The check of consecutive destinations succeeds where each can be written. -/
theorem destList_ok {f : Fibre} {n k : Nat} (h : ∀ m, m < k → f.writable (n + m) = true) : destList f n k = .ok () := by
  induction k generalizing n with
  | zero => rfl
  | succ k ih =>
    have hfirst : f.writable n = true := h 0 k.succ_pos
    have hrest : ∀ m, m < k → f.writable (n + 1 + m) = true := fun m hm => by
      rw [Nat.add_assoc, Nat.add_comm 1 m]; exact h (m + 1) (Nat.succ_lt_succ hm)
    rw [destList, destOk_ok hfirst, ih hrest]; rfl

section
variable {s : State} {i : Iss} {x : Form}

/-- CVTP that packs reads a register or a pair for each of A and B, as the element width asks (R205). -/
theorem cvtp_packs (h : LaneRuns s i x) (hm : x.mb 18 = false)
    (hr : ∀ f ∈ i.takers x,
      (∀ n ∈ regPair x.an (decide (3 ≤ x.mf 17 14)) ++ regPair x.bn (decide (3 ≤ x.mf 17 14)), f.readable n = true) ∧
      f.writable x.dn = true) :
    exec (.cvtp x) s = .next (s.laneResult i x false ((i.takers x).map fun f =>
      (f.lane, (cvtPack x (f.value x.an (decide (3 ≤ x.mf 17 14))) (f.value x.bn (decide (3 ≤ x.mf 17 14)))).setWidth
        64))) := by
  simp only [exec_cvtp, execCvtp, hm, Bool.false_eq_true, if_false]
  refine laneWrite_ok h _ (fun f hf => ?_) fun f hf => List.forall_mem_singleton.2 (hr f hf).2
  obtain ⟨ha, hb⟩ := List.forall_mem_append.1 (hr f hf).1
  rw [readWide_ok _ _ ha, readWide_ok _ _ hb]; rfl

/-- CVTP that unpacks writes as many registers from D on as the word has elements (R205). -/
theorem cvtp_unpacks (h : LaneRuns s i x) (hm : x.mb 18 = true)
    (hr : ∀ f ∈ i.takers x, f.readable x.an = true ∧
      ∀ n, n < (if 3 ≤ x.mf 17 14 then 4 else 2) → f.writable (x.dn + n) = true) :
    exec (.cvtp x) s = .next ((s.onFibres i ((i.takers x).map fun f => (f.lane, cvtUnpack x (f.reg x.an).val))
      fun ws f => f.putList x.dn ws).advance i x.words) := by
  simp only [exec_cvtp, execCvtp, hm, if_true, decide_eq_true_eq]
  refine laneSet_ok h ?_
  rw [checkAll_ok i _ (fun f => ((f.reg x.an).val, ())) fun f hf => ?_]
  · simp only [State.onFibres, List.foldl_map]
  · rw [srcA_ok (hr f hf).1, destList_ok (hr f hf).2]; rfl

/-- CVTQ takes the scale of a participant's segment from the participants of that segment alone (R206). -/
theorem cvtq_completes (h : LaneRuns s i x)
    (hr : ∀ f ∈ i.takers x, f.readable x.an = true ∧ f.writable x.dn = true ∧ f.writable (x.dn + 1) = true) :
    exec (.cvtq x) s = .next ((s.produce i x true (ready ((i.takers x).map fun f =>
      let sc := cvtqScale (fmtOf (x.mf 17 14)) (((i.takers x).filter fun g =>
        g.lane / (32 / 2 ^ x.mf 12 10) == f.lane / (32 / 2 ^ x.mf 12 10)).map fun g => (g.reg x.an).val)
      (f.lane, join64 (BitVec.ofNat 32 (cvtqValue (fmtOf (x.mf 17 14)) (f.reg x.an).val sc)) (BitVec.ofNat 32 sc))))).advance
      i x.words) := by
  rw [exec_cvtq, execCvtq]
  refine laneSet_ok h ?_
  rw [checkAll_ok i _ (fun f => ((f.reg x.an).val, ())) fun f hf => ?_]
  · simp only [List.map_map, List.filter_map, Function.comp_def]
  · obtain ⟨ha, hlow, hhigh⟩ := hr f hf
    have hpair : ∀ n ∈ regPair x.dn true, f.writable n = true :=
      List.forall_mem_cons.2 ⟨hlow, List.forall_mem_singleton.2 hhigh⟩
    rw [srcA_ok ha, destWide_ok hpair]; rfl

end

/-- Settles O4: CVT and CVTX by their table, CVTP by its form, and CVTQ by the producers that it starts. -/
theorem conversionsComplete : Obligations.ConversionsComplete :=
  ⟨convertRows_complete, fun _ _ _ h hm hr => cvtp_packs h hm hr, fun _ _ _ h hm hr => cvtp_unpacks h hm hr,
    fun _ _ _ h hr => cvtq_completes h hr⟩

end Sys2Proof.Conversions

/-! PROOF. The matrix class: operations queued at their unit with the checks of their operand blocks, pin-table operations between two
checkpoints, and the fast-weight instructions (R213-R245). -/

namespace Sys2Proof.MatrixClass
open Sys2Proof Sys2Proof.Machine Sys2Proof.Claims

/-! ### Checks and frames of the class -/

section
variable {s s1 s2 : State} {i : Iss} {x : Form}

theorem checkBlock_ok {aligned : Bool} {es : List (Nat × Nat)} (off : Nat) (h : blockOk s i aligned es) :
    checkBlock s i aligned es off = .ok () := by
  obtain ⟨haligned, hextents⟩ := h
  rw [checkBlock, haligned, checkOne_ok i hextents]
  rfl

theorem needScratch_ok {lines : List Nat} (h : s.reserveScratch i.ref.core i.ref.slot lines = .ok s1) :
    needScratch s i lines = .ok s1 := by
  rw [needScratch, h]
  rfl

/-- With its tiles settled, nothing to wait for and a token at its herd, a matrix-arithmetic instruction acts (R214, R24). -/
theorem matIssue_acts {zs : List Nat} {ready : State → Bool} {act : State → State} (h : tilesAndToken s i zs s1 s2)
    (hr : ready s1 = true) : matIssue s i zs ready act = .ok (act s2) := by
  obtain ⟨htiles, htoken⟩ := h
  have htoken : s1.useToken (herdOf i.ref.core) = some s2 := htoken
  simp only [matIssue, htiles, hr, htoken, Bool.not_true, Bool.false_eq_true, if_false]

/-! ### Operations queued at the unit -/

theorem matMul_queued {int : Bool} {w : Nat} (h : UniRuns s i x .matrix) (hk : i.free [(x.an, true)] = true)
    (hw : formatWord i x int (16 * (x.mf 16 12 + 1)) = .ok w)
    (hb : blockOk s i ((i.flock.kreg x.an).toNat % 16 == 0 && (i.flock.kreg (x.an + 1)).toNat % 16 == 0)
      [((i.flock.kreg x.an).toNat, 63 * (i.flock.kreg (x.an + 1)).toNat + 16 * (x.mf 16 12 + 1) * elemSize (wordFa w))])
    (ht : tilesAndToken s i [x.dn] s1 s2)
    (hload : ∀ e ∈ s1.engines, e.loads i.gq (slotsOf x.bn (16 * (x.mf 16 12 + 1)) (elemSize (wordFb w))) = false) :
    matMul x s int = .next (s2.toUnit (s2.again i) x.words
      (.mma int x.dn x.bn (i.crew.base + (i.flock.kreg x.an).toNat) (i.flock.kreg (x.an + 1)).toNat w (x.mf 16 12) (x.mf 11 10)
        (x.mf 9 8) (x.mb 7))) := by
  have hready : (!s1.engines.any fun e => e.loads i.gq (slotsOf x.bn (16 * (x.mf 16 12 + 1)) (elemSize (wordFb w)))) = true := by
    rw [Bool.not_eq_true', List.any_eq_false]
    exact fun e he => by simp [hload e he]
  refine uniSet_ok h ?_
  simp only [kFree_ok hk, hw, checkBlock_ok _ hb]
  exact matIssue_acts ht hready

theorem bld_handsOver (h : UniRuns s i x .matrix) (hk : i.free [(x.an, true), (x.an + 2, false)] = true)
    (hext : x.mb 7 = true → checkExtents s i (rowExtents (if x.mb 7 then (i.flock.kreg x.an).toNat
      else (i.flock.kpair x.an).toNat % 2 ^ 57) (i.flock.kreg (x.an + 2)).toNat (x.mf 17 9 + 1) (if x.mb 6 then 2 else 1)) = .ok ())
    (hroom : (s.engines.filter fun e => e.core == i.ref.core && e.slot == i.ref.slot && e.loads i.gq (List.range 16)).length < 4)
    (hread : ((s.unit i.gq).queue.any fun j =>
      j.op.slots.any (slotsOf x.bn (x.mf 17 9 + 1) (if x.mb 6 then 2 else 1)).contains) = false) :
    HandsOver (exec (.bld x) s) s i x.words [] fun t id => { t with
      engines := t.engines ++ [(t.again i).engine id [] (if x.mb 8 then some x.dn else none)
        (.bld i.gq x.bn (if x.mb 6 then 2 else 1) (x.mf 17 9 + 1) (if x.mb 7 then (i.flock.kreg x.an).toNat
          else (i.flock.kpair x.an).toNat % 2 ^ 57) (i.flock.kreg (x.an + 2)).toNat (x.mb 7) 0)] } := by
  refine Handover.handsOver_of_engineIssue (lines := fun _ => []) fun t ht => ?_
  have hchk : (if x.mb 7 then checkOne i (checkExtents s i (rowExtents (if x.mb 7 then (i.flock.kreg x.an).toNat
      else (i.flock.kpair x.an).toNat % 2 ^ 57) (i.flock.kreg (x.an + 2)).toNat (x.mf 17 9 + 1) (if x.mb 6 then 2 else 1)))
      else .ok ()) = (.ok () : Res Unit) := by
    split
    · next hs => exact checkOne_ok i (by simpa only [hs, if_true] using hext hs)
    · rfl
  rw [exec_bld, execBld]
  refine uniSet_ok h ?_
  simp only [kFree_ok hk]
  rw [hchk]
  simp only [hread, decide_eq_false (Nat.not_le.2 hroom), Bool.or_self, Bool.false_eq_true, if_false]
  exact ht

theorem sld_queued (h : UniRuns s i x .matrix) (hk : i.free [(x.an, false)] = true)
    (hb : blockOk s i ((i.flock.kreg x.an).toNat % 4 == 0) [((i.flock.kreg x.an).toNat, sldBytes (x.mf 1 0) (x.mf 6 2 + 1))]) :
    exec (.sld x) s = .next (s.toUnit i x.words (.sld (x.mf 1 0) (x.mf 6 2 + 1) (i.crew.base + (i.flock.kreg x.an).toNat))) := by
  rw [exec_sld, execSld]
  refine uniSet_ok h ?_
  simp only [kFree_ok hk, checkBlock_ok _ hb]

theorem zzero_queued (h : UniRuns s i x .matrix) (ht : settleTiles s i [x.dn] = .ok s1) :
    exec (.zzero x) s = .next (s1.toUnit (s1.again i) x.words (.zzero x.dn)) := by
  rw [exec_zzero, execZzero]
  refine uniSet_ok h ?_
  simp only [ht]

section
variable (h : UniRuns s i x .matrix) (hk : i.free [(x.an, true)] = true)
  (hb : blockOk s i ((i.flock.kreg x.an).toNat % 16 == 0 && (i.flock.kreg (x.an + 1)).toNat % 16 == 0)
    [((i.flock.kreg x.an).toNat, 63 * (i.flock.kreg (x.an + 1)).toNat + 256)])
include hk hb

theorem tileBlock_ok : tileBlock s i x.an = .ok (i.crew.base + (i.flock.kreg x.an).toNat, (i.flock.kreg (x.an + 1)).toNat) := by
  simp only [tileBlock, kFree_ok hk, checkBlock_ok _ hb]

include h

theorem zld_queued (ht : settleTiles s i [x.dn] = .ok s1) :
    exec (.zld x) s = .next (s1.toUnit (s1.again i) x.words
      (.zld x.dn (i.crew.base + (i.flock.kreg x.an).toNat) (i.flock.kreg (x.an + 1)).toNat)) := by
  rw [exec_zld, execZld]
  refine uniSet_ok h ?_
  simp only [tileBlock_ok hk hb, ht]

theorem zst_queued (hroom : s.reserveScratch i.ref.core i.ref.slot
      (rowLines (i.crew.base + (i.flock.kreg x.an).toNat) (i.flock.kreg (x.an + 1)).toNat 64 256) = .ok s1)
    (ht : settleTiles s1 i [x.bn] = .ok s2) :
    exec (.zst x) s = .next (s2.toUnit (s2.again i) x.words
      (.zst x.bn (i.crew.base + (i.flock.kreg x.an).toNat) (i.flock.kreg (x.an + 1)).toNat)) := by
  rw [exec_zst, execZst]
  refine uniSet_ok h ?_
  simp only [tileBlock_ok hk hb, needScratch_ok hroom, ht]

end

/-- Both registers of a pair, of which each can be used as `p` says. -/
theorem regPair_wide {p : Nat → Bool} {n : Nat} (h : (p n && p (n + 1)) = true) : ∀ k ∈ regPair n true, p k = true := by
  obtain ⟨hlow, hhigh⟩ := Bool.and_eq_true_iff.1 h
  intro k hk
  obtain rfl | rfl : k = n ∨ k = n + 1 := by simpa [regPair] using hk
  · exact hlow
  · exact hhigh

theorem zrd_queued (h : UniRuns s i x .matrix) (hk : i.free [(x.bn, false)] = true)
    (hw : ∀ f ∈ i.active, pairWritable f x.dn = true) (ht : settleTiles s i [x.an] = .ok s1) :
    let s2 := s1.onFibres i (i.active.map fun f => (f.lane, ())) fun _ f => f.empty x.dn true
    exec (.zrd x) s = .next (s2.toUnit (s2.again i) x.words (.zrd x.dn x.an (bits (i.flock.kreg x.bn).toNat 5 0) (x.mb 0))) := by
  intro s2
  have hdest : checkAll i i.active (fun f => destWide f x.dn true) = .ok (i.active.map fun f => (f.lane, ())) :=
    checkAll_ok i _ (fun _ => ()) fun f hf => destWide_ok (regPair_wide (p := f.writable) (hw f hf))
  rw [exec_zrd, execZrd]
  refine uniSet_ok h ?_
  simp only [kFree_ok hk, hdest, ht]
  rfl

theorem zwr_queued (h : UniRuns s i x .matrix) (hk : i.free [(x.an, false)] = true)
    (hr : ∀ f ∈ i.active, pairReadable f x.bn = true) (ht : settleTiles s i [x.dn] = .ok s1) :
    exec (.zwr x) s = .next (s1.toUnit (s1.again i) x.words (.zwr x.dn (bits (i.flock.kreg x.an).toNat 5 0) (x.mb 0)
      (i.active.map fun f => (f.lane, lo32 (f.value x.bn true), hi32 (f.value x.bn true))))) := by
  have hread : checkAll i i.active (fun f => readPair f x.bn x.eb) = .ok (i.active.map fun f => (f.lane, f.value x.bn true)) :=
    checkAll_ok i _ _ fun f hf => readWide_ok true x.eb (regPair_wide (p := f.readable) (hr f hf))
  rw [exec_zwr, execZwr]
  refine uniSet_ok h ?_
  simp only [kFree_ok hk, hread, ht, List.map_map]
  rfl

end

/-- Settles O30, instruction by instruction. -/
theorem matrixInstructionsAreQueued : Obligations.MatrixInstructionsAreQueued := by
  unfold Obligations.MatrixInstructionsAreQueued
  refine ⟨?_, fun s i x h hk => bld_handsOver h hk, fun s i x h hk => sld_queued h hk, fun s s1 i x h => zzero_queued h,
    fun s s1 s2 i x h hk => fun hb => ⟨zld_queued h hk hb, zst_queued h hk hb⟩,
    fun s s1 i x h => ⟨zrd_queued h, zwr_queued h⟩⟩
  have hexec : ∀ m ∈ [(Instr.mma, false), (Instr.mmai, true)], ∀ x s, exec (m.1 x) s = matMul x s m.2 := by
    simp only [List.mem_cons, List.not_mem_nil, or_false]
    rintro m (rfl | rfl) x s <;> rfl
  intro m hm s s1 s2 i x w h hk k off pitch hw hb ht hload
  rw [hexec m hm]
  exact matMul_queued h hk hw hb ht hload

/-! ### Pins of matrix state -/

section
variable {s s0 s1 t : State} {i : Iss} {x : Form}

/-- A pin-table operation that succeeds stands between two checkpoints, the first taken once the crews that its spills meet are
checkpointed (R140, R240). -/
theorem pinTable_completes {words : Nat} {lines : List (Nat × Nat)} {run : State → Iss → Pin State}
    (hready : (if lines.isEmpty then .ok s else spillReady s i lines false) = Except.ok s0)
    (hfirst : firstCkpt s0 (s0.again i) = .ok s1) (hrun : run s1 (s1.again i) = .ok t) :
    pinTable s i words lines run = .ok ((t.advance i words).secondCkpt i.ref.core i.ref.slot) := by
  simp only [pinTable, hready, hfirst, hrun]

end

theorem pinOperationsComplete : PinOperationsComplete := by
  intro s s0 s1 t i x h hfirst j ready done
  refine ⟨fun hk hl hrun => ?_, fun hk hl hrun => ?_, fun hl hrun => ?_, fun hk hl hrun => ?_, fun hk hl hrun => ?_⟩
  · rw [exec_zpin, execZpin]
    refine uniSet_ok h ?_
    simp only [kFree_ok hk]
    exact pinTable_completes hl hfirst hrun
  · rw [exec_zatt, execZatt]
    refine uniSet_ok h ?_
    simp only [kFree_ok hk]
    exact pinTable_completes hl hfirst hrun
  · rw [exec_zdet, execZdet]
    exact uniSet_ok h (pinTable_completes hl hfirst hrun)
  · rw [exec_zrel, execZrel]
    refine uniSet_ok h ?_
    simp only [kFree_ok hk]
    exact pinTable_completes hl hfirst hrun
  · rw [exec_zspill, execZspill]
    refine uniSet_ok h ?_
    simp only [kFree_ok hk]
    exact pinTable_completes hl hfirst hrun

/-! ### Unit information and single tokens (R238, R243) -/

theorem readVec_ok {f : Fibre} (m : Bool) (r : Nat) {n : Nat} (h : ∀ k, k < r → f.readable (n + k) = true) :
    readVec f n m r = .ok ((List.range r).map fun k => (f.reg (n + k)).val) := by
  induction r generalizing n with
  | zero => rfl
  | succ r ih =>
    have hrest : readVec f (n + 1) m r = .ok ((List.range r).map fun k => (f.reg (n + 1 + k)).val) :=
      ih fun k hk => by rw [Nat.add_assoc, Nat.add_comm 1]; exact h (k + 1) (Nat.succ_lt_succ hk)
    rw [readVec, readSrc_ok m (n := n) (h 0 (Nat.succ_pos r)), hrest, Chk.ok_and, Chk.ok_map, List.range_succ_eq_map, List.map_cons,
      List.map_map]
    congr 2
    refine List.map_congr_left fun k _ => ?_
    rw [Function.comp_apply, Nat.add_assoc, Nat.add_comm 1]

theorem destVec_ok {f : Fibre} (r : Nat) {n : Nat} (h : ∀ k, k < r → f.writable (n + k) = true) : destVec f n r = .ok () := by
  induction r generalizing n with
  | zero => rfl
  | succ r ih =>
    rw [destVec, destOk_ok (n := n) (h 0 (Nat.succ_pos r)), ih fun k hk => by
      rw [Nat.add_assoc, Nat.add_comm 1]; exact h (k + 1) (Nat.succ_lt_succ hk)]
    rfl

section
variable {s s1 s2 s3 : State} {i : Iss} {x : Form}

theorem zinfo_writes {regs : List (Nat × Bool)} (val : Iss → Nat × Nat × Nat) (h : UniRuns s i x .matrix)
    (hq : (s.unit i.gq).queue = []) (hk : i.free ([(x.dn, true), (x.dn + 2, true)] ++ regs) = true) :
    zinfo x s regs val = .next ((s.onFlock i fun f =>
      (f.setK64 x.dn (BitVec.ofNat 64 ((val i).1 + (val i).2.1 * 2 ^ 32))).setK64 (x.dn + 2) (BitVec.ofNat 64 (val i).2.2)).advance i
        x.words) := by
  refine uniSet_ok h ?_
  rw [kFree_ok hk, hq]
  rfl

theorem gdr_queued (h : UniRuns s i x .matrix) (ha : i.absent = []) (hk : i.free [(x.cn, true)] = true)
    (hr : ∀ f ∈ i.active, ∀ k, k < vecRegs (x.mb 2) → f.readable (x.an + k) = true ∧ f.readable (x.bn + k) = true)
    (ht : tilesAndToken s i (tileGroup x.dn (x.mb 2)) s1 s2) :
    let vec := fun (n : Nat) => vecOf (i.active.map fun f =>
      (f.lane, (List.range (vecRegs (x.mb 2))).map fun k => (f.reg (n + k)).val)) (stateDim (x.mb 2))
    exec (.gdr x) s = .next (s2.toUnit (s2.again i) x.words
      (.gdr x.dn (x.mb 2) (vec x.an) (vec x.bn) (i.flock.kreg x.cn) (i.flock.kreg (x.cn + 1)))) := by
  intro vec
  have hread := checkAll_ok i i.active (f := fun f => (readVec f x.an x.ea (vecRegs (x.mb 2))).and
      (readVec f x.bn x.eb (vecRegs (x.mb 2)))) _ fun f hf => by
    rw [readVec_ok x.ea _ fun k hk => (hr f hf k hk).1, readVec_ok x.eb _ fun k hk => (hr f hf k hk).2]
    exact Chk.ok_and _ _
  rw [exec_gdr, execGdr]
  refine uniSet_ok h ?_
  simp only [Handover.converged_ok ha, kFree_ok hk, hread, List.map_map]
  exact matIssue_acts ht rfl

theorem gqr_writes (h : UniRuns s i x .matrix) (ha : i.absent = [])
    (hr : ∀ f ∈ i.active, ∀ k, k < vecRegs (x.mb 2) → f.readable (x.bn + k) = true ∧ f.writable (x.dn + k) = true)
    (ht : tilesAndToken s i (tileGroup x.an (x.mb 2)) s1 s2) (hq : (s1.unit i.gq).queue = []) :
    let vec := vecOf (i.active.map fun f =>
      (f.lane, (List.range (vecRegs (x.mb 2))).map fun k => (f.reg (x.bn + k)).val)) (stateDim (x.mb 2))
    exec (.gqr x) s = .next ((s2.onFibres i (i.active.map fun f => (f.lane, ())) fun _ f =>
      f.putVec x.dn (queryState i.batch.pc ((s2.unit i.gq).rows x.an (x.mb 2)) vec) ((s2.unit i.gq).groupBad x.an (x.mb 2))
        (vecRegs (x.mb 2))).advance i x.words) := by
  intro vec
  have hread := checkAll_ok i i.active (f := fun f => (readVec f x.bn x.eb (vecRegs (x.mb 2))).and
      (destVec f x.dn (vecRegs (x.mb 2)))) _ fun f hf => by
    rw [readVec_ok x.eb _ fun k hk => (hr f hf k hk).1, destVec_ok _ fun k hk => (hr f hf k hk).2]
    exact Chk.ok_and _ _
  rw [exec_gqr, execGqr]
  refine uniSet_ok h ?_
  simp only [Handover.converged_ok ha, hread, List.map_map]
  exact matIssue_acts ht (by rw [hq]; rfl)

theorem chunk_queued {gdr : Bool} {z ka : Nat} (h : UniRuns s i x .matrix) (ha : i.absent = []) (hk : i.free [(ka, true)] = true)
    (hb : blockOk s i ((i.flock.kreg ka).toNat % 128 == 0 && (i.flock.kreg (ka + 1)).toNat % 128 == 0)
      [((i.flock.kreg ka).toNat, (x.mf 7 4 + 1) * tokenSize (x.mb 2)),
        ((i.flock.kreg (ka + 1)).toNat, (x.mf 7 4 + 1) * 4 * stateDim (x.mb 2))])
    (hroom : s.reserveScratch i.ref.core i.ref.slot (scratchLines (i.crew.base + (i.flock.kreg (ka + 1)).toNat)
      ((x.mf 7 4 + 1) * 4 * stateDim (x.mb 2))) = .ok s1)
    (ht : tilesAndToken s1 i (tileGroup z (x.mb 2)) s2 s3) :
    chunk x s gdr z ka = .next (s3.toUnit (s3.again i) x.words
      (.chunk gdr z (x.mb 2) (x.mb 8) (x.mf 7 4 + 1) (i.crew.base + (i.flock.kreg ka).toNat)
        (i.crew.base + (i.flock.kreg (ka + 1)).toNat))) := by
  refine uniSet_ok h ?_
  simp only [Handover.converged_ok ha, kFree_ok hk, checkBlock_ok _ hb, needScratch_ok hroom]
  exact matIssue_acts ht rfl

end

theorem fastWeightStepsComplete : FastWeightStepsComplete := by
  refine ⟨fun s i x h hq => ⟨fun hk => zinfo_writes _ h hq hk, fun hk => zinfo_writes _ h hq hk⟩,
    fun s s1 s2 i x h ha hk => gdr_queued h ha hk, fun s s1 s2 i x h ha => gqr_writes h ha, ?_⟩
  have hexec : ∀ m ∈ [((Instr.gdrCq, true), fun (x : Form) => (x.dn, x.an)), ((Instr.gqrCq, false), fun x => (x.an, x.bn))],
      ∀ x s, exec (m.1.1 x) s = chunk x s m.1.2 (m.2 x).1 (m.2 x).2 := by
    simp only [List.mem_cons, List.not_mem_nil, or_false]
    rintro m (rfl | rfl) x s <;> rfl
  intro m hm s s1 s2 s3 i x h ha z ka hk tb ob n outBytes hb hroom ht
  rw [hexec m hm]
  exact chunk_queued h ha hk hb hroom ht

/-- Settles O31: pins of matrix state, then the fast-weight instructions. -/
theorem pinsAndFastWeightsComplete : Obligations.PinsAndFastWeightsComplete := ⟨pinOperationsComplete, fastWeightStepsComplete⟩

end Sys2Proof.MatrixClass

/-! PROOF. Waits and signals, launches, completion bits and bin settings (R270-R281). -/

namespace Sys2Proof.Signals
open Sys2Proof Sys2Proof.Machine Sys2Proof.Claims

section
variable {s : State} {i : Iss} {x : Form}

/-! ### SLEEP, WAKE, YIELD and BAR (R274, R275, R278) -/

theorem sleep_takesWake (h : UniRuns s i x .any) (hw : i.flock.wpend = true) :
    exec (.sleep x) s = .next ((s.advance i x.words).onFlock i fun f => { f.setQ x.dn true with wpend := false }) := by
  rw [exec_sleep, execSleep]
  refine uniSet_ok h ?_
  simp only [hw, if_true]

theorem sleep_findsPhase (h : UniRuns s i x .any) (hw : i.flock.wpend = false)
    (hp : (x.mb 16 && (i.crew.live.nbar x.an).phase != i.flock.qpred x.bn) = true) :
    exec (.sleep x) s = .next ((s.advance i x.words).onFlock i fun f => f.setQ x.dn true) := by
  rw [exec_sleep, execSleep]
  refine uniSet_ok h ?_
  simp only [hw, hp, Bool.false_eq_true, if_false, if_true]

theorem sleep_sleeps (h : UniRuns s i x .any) (hw : i.flock.wpend = false)
    (hp : (x.mb 16 && (i.crew.live.nbar x.an).phase != i.flock.qpred x.bn) = false) :
    exec (.sleep x) s = .next ((s.advance i x.words).onBatch i fun b =>
      { b with wait := .sleep x.dn (if x.mb 16 then some (x.an, x.bn) else none) (x.mf 15 0) s.clock }) := by
  rw [exec_sleep, execSleep]
  refine uniSet_ok h ?_
  simp only [hw, hp, Bool.false_eq_true, if_false]

theorem yield_completes (h : UniRuns s i x .any) : exec (.yield x) s = .next ((s.advance i x.words).onBatch i fun b =>
    { b with age := s.clock, wait := .yield (s.clock + max 1 (x.mf 15 0)) }) := by
  rw [exec_yield, execYield]
  exact uniSet_ok h rfl

section
variable (h : UniRuns s i x .any) (hu : s.unitBusy i = false)
include h hu

theorem wake_completes : exec (.wake x) s = .next (((s.onCrew i fun k => k.updLive fun c =>
    i.active.foldl (fun c f => c.completeFibre i.flock.num f.lane) c).onFlock i Flock.wake).advance i x.words) := by
  rw [exec_wake, execWake]
  refine uniSet_ok h ?_
  simp only [hu, Bool.false_eq_true, if_false]

theorem bar_completes : exec (.bar x) s = .next (((((s.settleFibres i).onCrew i fun k => k.updLive fun c =>
    { c with arr := c.arr + i.active.length }).advance i x.words).onBatch i fun b => { b with wait := .bar }).settle i) := by
  rw [exec_bar, execBar]
  refine uniSet_ok h ?_
  simp only [hu, Bool.false_eq_true, if_false]

end

/-! ### Rings (R277) -/

section
variable (h : UniRuns s i x .any) (hk : i.free (if x.hasImm then [] else [(x.bn, false)]) = true)
include h hk

theorem ringWait_completes (full : Bool) : ringWait x s full = .next (if i.crew.live.ringFull x.an (ringSlot x i) = full
    then s.advance i x.words
    else (s.advance i x.words).onBatch i fun b => { b with wait := .ring x.an (ringSlot x i) full }) := by
  refine uniSet_ok h ?_
  simp only [kFree_ok hk]
  split <;> rfl

theorem ringSignal_completes (hu : s.unitBusy i = false) (full : Bool) : ringSignal x s full =
    .next (((s.settleFibres i).onCrew i fun k => k.updLive fun c => c.signal x.an (ringSlot x i) full).advance i x.words) := by
  refine uniSet_ok h ?_
  simp only [kFree_ok hk, hu, Bool.false_eq_true, if_false]

end

/-! ### TBAR (R276) -/

theorem ckptAfter_ok {f : State → State} (hr : s.ckptReady i.crew = true) :
    ckptAfter s i f = .ok ((f s).checkpoint i.ref.core i.ref.slot) := by
  rw [ckptAfter, if_pos hr]

theorem passesTbar_eq (h : Issues s i) : s.passesTbar = (i.batch.wait == .tbarOut) := by rw [State.passesTbar, h.found]

section
variable (h : UniRuns s i x .any) (hw : i.batch.wait ≠ .tbarOut)
include h hw

theorem tbar_releases (h0 : i.batch.phase = 0) (hu : s.unitBusy i = false) :
    exec (.tbar x) s = .next ((s.releaseAll i i.active .herd).onBatch i fun b => { b with phase := 1 }) := by
  rw [exec_tbar, execTbar, passesTbar_eq h.toIssues, beq_eq_false_iff_ne.2 hw, if_neg Bool.false_ne_true]
  refine uniSet_ok h ?_
  rw [if_pos h0, hu, if_neg Bool.false_ne_true]

theorem tbar_arrives (h0 : i.batch.phase ≠ 0) (hd : s.drained i.ref.core i.batch.tag = true) (hr : s.ckptReady i.crew = true) :
    exec (.tbar x) s = .next (((s.onBatch i fun b => { b with wait := .tbar, phase := 0, tag := 0 }).checkpoint
      i.ref.core i.ref.slot).settleTeam i.crew) := by
  rw [exec_tbar, execTbar, passesTbar_eq h.toIssues, beq_eq_false_iff_ne.2 hw, if_neg Bool.false_ne_true]
  refine uniSet_ok h ?_
  simp only [h0, hd, if_false, Bool.not_true, Bool.false_eq_true, ckptAfter_ok hr]

end

theorem tbar_leaves (h : Issues s i) (hw : i.batch.wait = .tbarOut) (hr : (s.dropCore i.ref.core).ckptReady i.crew = true) :
    exec (.tbar x) s = .next ((((s.dropCore i.ref.core).advance i x.words).onBatch i fun b =>
      { b with wait := .none }).checkpoint i.ref.core i.ref.slot) := by
  rw [exec_tbar, execTbar, passesTbar_eq h, beq_iff_eq.2 hw, if_pos rfl, runBatch_eq h, ckptAfter_ok hr]

/-! ### Two checkpoints around a released effect (R140) -/

section
variable {finish : State → Iss → Option State}

/-- The first checkpoint is taken and the release begins. -/
theorem twoCkpts_begins (h0 : i.batch.phase = 0) (hm : mayBegin s i) : twoCkpts s i finish =
    .ok ((((s.checkpoint i.ref.core i.ref.slot).updCrew i.ref.core i.ref.slot fun k =>
      { k with between := true }).releaseAll i i.active .dev).onBatch i fun b => { b with phase := 1 }) := by
  rw [twoCkpts, if_pos h0, Irrevocable.firstCkpt_may hm]

/-- Once the release has drained the effect takes place, and the second checkpoint after it. -/
theorem twoCkpts_finishes {t : State} (h0 : i.batch.phase ≠ 0) (hd : s.drained i.ref.core i.batch.tag = true)
    (hr : s.ckptDrained i.crew = true) (ht : finish s i = some t) :
    twoCkpts s i finish = .ok (t.secondCkpt i.ref.core i.ref.slot) := by
  simp only [twoCkpts, h0, hd, hr, ht, if_false, Bool.not_true, Bool.false_eq_true]

end

/-! ### LAUNCH, DONE and BINCFG (R279-R281) -/

section
variable (h : UniRuns s i x .any) (hk : i.free [(x.an, true), (x.dn, false)] = true)
include h hk

theorem launch_begins {l : Loc} (h0 : i.batch.phase = 0)
    (hl : checkRecord s i ((i.flock.kpair x.an).toNat % 2 ^ 57) = .ok l) (hm : mayBegin s i) :
    exec (.launch x) s = .next ((((s.checkpoint i.ref.core i.ref.slot).updCrew i.ref.core i.ref.slot fun k =>
      { k with between := true }).releaseAll i i.active .dev).onBatch i fun b => { b with phase := 1 }) := by
  rw [exec_launch, execLaunch]
  refine uniSet_ok h ?_
  simp only [kFree_ok hk, checkOne_ok i hl, h0, ne_eq, not_true_eq_false, if_false]
  exact twoCkpts_begins h0 hm

theorem launch_finishes {p : State × Nat} (h0 : i.batch.phase ≠ 0) (hd : s.drained i.ref.core i.batch.tag = true)
    (hr : s.ckptDrained i.crew = true) (hp : s.launch i ((i.flock.kpair x.an).toNat % 2 ^ 57) = some p) :
    exec (.launch x) s = .next ((p.1.uniResult i x false (BitVec.ofNat 64 p.2)).secondCkpt i.ref.core i.ref.slot) := by
  rw [exec_launch, execLaunch]
  refine uniSet_ok h ?_
  simp only [kFree_ok hk]
  rw [if_pos h0]
  exact twoCkpts_finishes h0 hd hr (by rw [hp]; rfl)

end

theorem done_begins (h : UniRuns s i x .any) (h0 : i.batch.phase = 0) (hu : s.unitBusy i = false) (hm : mayBegin s i) :
    exec (.done x) s = .next ((((s.checkpoint i.ref.core i.ref.slot).updCrew i.ref.core i.ref.slot fun k =>
      { k with between := true }).releaseAll i i.active .dev).onBatch i fun b => { b with phase := 1 }) := by
  rw [exec_done, execDone]
  refine uniSet_ok h ?_
  simp only [hu, Bool.and_false, Bool.false_eq_true, if_false]
  exact twoCkpts_begins h0 hm

theorem done_finishes (h : UniRuns s i x .any) (h0 : i.batch.phase ≠ 0) (hd : s.drained i.ref.core i.batch.tag = true)
    (hr : s.ckptDrained i.crew = true) :
    exec (.done x) s = .next (((s.publishDone i.ref.core i.ref.slot).advance i x.words).secondCkpt i.ref.core i.ref.slot) := by
  rw [exec_done, execDone]
  refine uniSet_ok h ?_
  simp only [h0, decide_false, Bool.false_and, Bool.false_eq_true, if_false]
  exact twoCkpts_finishes h0 hd hr rfl

theorem bincfg_completes {e : EntryRec} (h : UniRuns s i x .any) (hk : i.free [(x.an, false)] = true)
    (he : s.entryAt i.crew.part (immTarget x i.batch.pc) = some e) (hbin : e.bin = true) :
    let target := immTarget x i.batch.pc
    let v := (i.flock.kreg x.an).toNat
    let thr := if bits v 5 0 = 0 then 1 else min 32 (bits v 5 0)
    exec (.bincfg x) s = .next ((s.onCrew i fun k => k.updLive fun c =>
      { c with
        settings := putSetting c.settings { entry := target, thr := thr, tmr := bits v 31 16 }
        bins := c.bins.map fun b => if b.entry == target then { b with thr := thr, tmr := bits v 31 16, due := false }
          else b }).advance i x.words) := by
  intro target v thr
  have hguard : checkOne i (Chk.guard ((s.entryAt i.crew.part (immTarget x i.batch.pc)).any (·.bin)) .permExec
      (immTarget x i.batch.pc)) = .ok () :=
    checkOne_ok i (Chk.guard_ok _ _ (by rw [he, Option.any_some, hbin]))
  rw [exec_bincfg, execBincfg]
  refine uniSet_ok h ?_
  simp only [kFree_ok hk, hguard]
  rfl

end

/-- Settles O27: sleeps and signals, rings, and the three parts of TBAR. -/
theorem waitsAndSignalsComplete : Obligations.WaitsAndSignalsComplete := by
  unfold Obligations.WaitsAndSignalsComplete
  refine ⟨fun s i x h => ⟨sleep_takesWake h, sleep_findsPhase h, sleep_sleeps h, yield_completes h,
    fun hu => ⟨wake_completes h hu, bar_completes h hu⟩, fun hk => ?_, fun hk hu => ?_⟩,
    fun s i x h hw => ⟨tbar_releases h hw, tbar_arrives h hw⟩,
    fun s i x h hw hr => tbar_leaves h hw hr⟩
  · simp only [List.mem_cons, List.not_mem_nil, or_false]
    rintro r (rfl | rfl)
    · exact ringWait_completes h hk true
    · exact ringWait_completes h hk false
  · simp only [List.mem_cons, List.not_mem_nil, or_false]
    rintro r (rfl | rfl)
    · exact ringSignal_completes h hk hu true
    · exact ringSignal_completes h hk hu false

/-- Settles O28: the two parts of LAUNCH and of DONE, and BINCFG. -/
theorem launchDoneAndBinSettingsComplete : Obligations.LaunchDoneAndBinSettingsComplete := by
  unfold Obligations.LaunchDoneAndBinSettingsComplete
  exact ⟨fun s i x l h hk => ⟨launch_begins h hk, fun h0 hd hr p hp => launch_finishes h hk h0 hd hr hp⟩,
    fun s i x h => ⟨done_begins h, done_finishes h⟩, fun s i x e h hk => bincfg_completes h hk⟩

end Sys2Proof.Signals

/-! PROOF. The system class: checkpoints, traps and halts of a crew's own, the return from a trap, and system registers (R301-R306,
R322-R325). -/

namespace Sys2Proof.SystemClass
open Sys2Proof Sys2Proof.Machine Sys2Proof.Claims

section
variable {s : State} {i : Iss} {x : Form}

/-! ### CKPT, TRAP, BPT and HALT (R322, R323, R325) -/

theorem ckpt_completes (h : UniRuns s i x .any) (hr : s.ckptReady i.crew = true) :
    exec (.ckpt x) s = .next ((s.advance i x.words).checkpoint i.ref.core i.ref.slot) := by
  rw [exec_ckpt, execCkpt]
  exact uniSet_ok h (Signals.ckptAfter_ok hr)

/-- The trap that TRAP and BPT end in, taken from a checkpoint with the batch at the next instruction. -/
theorem trapAfter_traps (hb : i.crew.between = false) (hr : s.ckptReady i.crew = true) (c : Cause) :
    trapAfter s i x c = .ok (((s.advance i x.words).checkpoint i.ref.core i.ref.slot).takeTrap i.ref.core i.ref.slot
      { i.trap c (maskOf i.active) 0 with code := x.immZ } false) := by
  simp only [trapAfter, hb, Bool.false_eq_true, if_false, Signals.ckptAfter_ok hr]

theorem trap_completes (h : UniRuns s i x .any) (hb : i.crew.between = false) (hr : s.ckptReady i.crew = true) :
    exec (.trap x) s = .next (((s.advance i x.words).checkpoint i.ref.core i.ref.slot).takeTrap i.ref.core i.ref.slot
      { i.trap .trapInstruction (maskOf i.active) 0 with code := x.immZ } false) := by
  rw [exec_trap, execTrap]
  exact uniSet_ok h (trapAfter_traps hb hr _)

theorem bpt_traps (h : UniRuns s i x .any) (hb : i.crew.between = false) (hr : s.ckptReady i.crew = true)
    (hh : (s.ctx? i.crew.part).any (·.breakHalt) = false) :
    exec (.bpt x) s = .next (((s.advance i x.words).checkpoint i.ref.core i.ref.slot).takeTrap i.ref.core i.ref.slot
      { i.trap .breakpoint (maskOf i.active) 0 with code := x.immZ } false) := by
  rw [exec_bpt, execBpt]
  refine uniSet_ok h ?_
  rw [hh, if_neg Bool.false_ne_true, trapAfter_traps hb hr]

theorem bpt_halts (h : UniRuns s i x .any) (hh : (s.ctx? i.crew.part).any (·.breakHalt) = true) :
    exec (.bpt x) s = .next (s.haltCrew i x) := by
  rw [exec_bpt, execBpt]
  refine uniSet_ok h ?_
  rw [if_pos hh]

theorem needLevel_ok {ok : Bool} (h : ok = true) : needLevel i ok = .ok () := by rw [needLevel, if_pos h]

theorem halt_completes (h : UniRuns s i x .any) (hf : i.crew.level = .f) :
    exec (.halt x) s = .next ({ s with haltNotes := s.haltNotes ++ [(i.ref.core, i.ref.slot)] }.haltCrew i x) := by
  rw [exec_halt, execHalt]
  refine uniSet_ok h ?_
  simp only [needLevel_ok (beq_iff_eq.2 hf)]

/-! ### ERET (R324) -/

section
variable (h : UniRuns s i x .any) (hu : i.crew.level ≠ .u) (hk : i.free [(x.an, true), (x.bn, false), (x.dn, false)] = true)
include h hu hk

theorem eret_closes {l : Loc} (h0 : i.batch.phase = 0) (hl : checkTrapRec s i ((i.flock.kpair x.an).toNat % 2 ^ 57) = .ok l)
    (hr : s.ckptReady i.crew = true) :
    exec (.eret x) s = .next (((s.checkpoint i.ref.core i.ref.slot).releaseAll i i.active .dev).onBatch i fun b =>
      { b with phase := 2 * ((i.flock.kpair x.an).toNat % 2 ^ 57) + 1 }) := by
  rw [exec_eret, execEret]
  refine uniSet_ok h ?_
  have h2 : ¬ i.batch.phase = 2 := by omega
  simp only [needLevel_ok (bne_iff_ne.2 hu), kFree_ok hk, if_neg h2, if_pos h0, checkOne_ok i hl, Accesses.takeCkpt_ready hr]

/-- Once its record can be read, an ERET answers what serving it gives, or awaits the end of the crew it aborts. -/
theorem eret_serves {a : Nat} {l : Loc} {s0 : State} (ha : i.batch.phase = 2 * a + 1) (hl : checkTrapRec s i a = .ok l)
    (hd : s.drained i.ref.core i.batch.tag = true) (hox : s.oxOwned i.crew.part (lineOf l.pa) = false)
    (hs : spillReady s i (s.serveTo i.crew.part (recName (s.placeBytes l 64)) (i.flock.kreg x.bn).toNat) true = .ok s0) :
    exec (.eret x) s = match s0.serve i.crew.part (recName (s.placeBytes l 64)) (i.flock.kreg x.bn).toNat with
      | (s1, some v) => .next (s1.uniResult i x false (BitVec.ofNat 64 v))
      | (s1, none) => .next (s1.onBatch i fun b => { b with phase := 2, tag := abortTag (recName (s.placeBytes l 64)) }) := by
  have h2 : ¬ i.batch.phase = 2 := by omega
  have h0 : ¬ i.batch.phase = 0 := by omega
  have hva : i.batch.phase / 2 = a := by omega
  rw [exec_eret, execEret, uniSet_eq h]
  simp only [needLevel_ok (bne_iff_ne.2 hu), kFree_ok hk, if_neg h2, if_neg h0, hva, checkOne_ok i hl, hd, hox, Bool.not_true,
    Bool.or_self, Bool.false_eq_true, if_false, hs]
  rcases s0.serve i.crew.part (recName (s.placeBytes l 64)) (i.flock.kreg x.bn).toNat with ⟨s1, _ | v⟩ <;> rfl

theorem eret_aborted (h2 : i.batch.phase = 2) (hd : s.abortDone i.crew.part i.batch.tag = true) :
    exec (.eret x) s = .next (s.uniResult i x false 0) := by
  rw [exec_eret, execEret]
  refine uniSet_ok h ?_
  simp only [needLevel_ok (bne_iff_ne.2 hu), kFree_ok hk, if_pos h2, hd, if_true]

end

/-! ### System registers (R301-R306) -/

theorem rightsOf_ok {sn : Nat} {r : SysRight × SysRight} (h : sysRights sn = some r) : rightsOf i sn = .ok r := by
  simp only [rightsOf, h]

section
variable {w : SysRight} (h : UniRuns s i x .any)
  (hk : i.free ((x.dn, true) :: if x.bn == 1 then [(x.an, false)] else []) = true)
include h hk

theorem rdsys_nobody (hr : sysRights (sysNumber x i (x.bn == 1) x.an) = some (.none, w)) :
    exec (.rdsys x) s = .next (s.uniResult i x true 0) := by
  rw [exec_rdsys, execRdsys]
  refine uniSet_ok h ?_
  simp only [List.singleton_append, kFree_ok hk, rightsOf_ok hr]

theorem rdsys_reads {l : Level} (hr : sysRights (sysNumber x i (x.bn == 1) x.an) = some (.level l, w)) (hl : i.atLeast l = true) :
    exec (.rdsys x) s = .next (s.uniResult i x true (s.sysVal i (sysNumber x i (x.bn == 1) x.an))) := by
  rw [exec_rdsys, execRdsys]
  refine uniSet_ok h ?_
  simp only [List.singleton_append, kFree_ok hk, rightsOf_ok hr, needLevel_ok hl]

end

section
variable {sn : Nat} {r : SysRight} {l : Level} (h : UniRuns s i x .any)
  (hk : i.free ((x.bn, true) :: if x.dn == 1 then [(x.an, false)] else []) = true) (hr : sysRights sn = some (r, .level l))
include h hk hr

theorem wrsys_begins (h0 : i.batch.phase = 0) (hsn : sn = sysNumber x i (x.dn == 1) x.an) (hl : i.atLeast l = true)
    (hm : mayBegin s i) :
    exec (.wrsys x) s = .next ((((s.checkpoint i.ref.core i.ref.slot).updCrew i.ref.core i.ref.slot fun k =>
      { k with between := true }).releaseAll i i.active .dev).onBatch i fun b => { b with phase := 4 * sn + 1 }) := by
  subst hsn
  rw [exec_wrsys, execWrsys]
  refine uniSet_ok h ?_
  simp only [List.singleton_append, kFree_ok hk, if_pos h0, rightsOf_ok hr, needLevel_ok hl, Irrevocable.firstCkpt_may hm]

section
variable (h1 : i.batch.phase = 4 * sn + 1) (hd : s.drained i.ref.core i.batch.tag = true)
include h1 hd

theorem wrsys_writes (hx : sn ≠ snXlinv) :
    exec (.wrsys x) s = .next ((s.updCtx i.crew.part fun c => c.sysWrite sn (i.flock.kpair x.bn).toNat).onBatch i fun b =>
      { b with phase := 4 * sn + 3 }) := by
  have h0 : ¬ i.batch.phase = 0 := by omega
  have hnum : i.batch.phase / 4 = sn := by omega
  have hat : i.batch.phase % 4 = 1 := by omega
  rw [exec_wrsys, execWrsys]
  refine uniSet_ok h ?_
  simp only [List.singleton_append, kFree_ok hk, if_neg h0, hnum, hat, rightsOf_ok hr, hd, if_true, Bool.not_true, Bool.false_eq_true,
    if_false, if_neg hx]

theorem wrsys_invalidates (hx : sn = snXlinv) :
    exec (.wrsys x) s = .next ((({ s with nextTag := s.nextTag + 1 }.xlStart i.crew.part s.nextTag
      (i.flock.kpair x.bn).toNat).onBatch i fun b => { b with tag := s.nextTag }).onBatch i fun b =>
        { b with phase := 4 * sn + 2 }) := by
  have h0 : ¬ i.batch.phase = 0 := by omega
  have hnum : i.batch.phase / 4 = sn := by omega
  have hat : i.batch.phase % 4 = 1 := by omega
  rw [exec_wrsys, execWrsys]
  refine uniSet_ok h ?_
  simp only [List.singleton_append, kFree_ok hk, if_neg h0, hnum, hat, rightsOf_ok hr, hd, if_true, Bool.not_true, Bool.false_eq_true,
    if_false, if_pos hx]

end

theorem wrsys_dropped (h2 : i.batch.phase = 4 * sn + 2)
    (hp : ∀ c, s.ctx? i.crew.part = some c → ∀ p ∈ c.xlPend, p.1 ≠ i.batch.tag) :
    exec (.wrsys x) s = .next (({ s with nextTag := s.nextTag + 1 }.onBatch i fun b => { b with tag := s.nextTag }).onBatch i fun b =>
      { b with phase := 4 * sn + 3 }) := by
  have h0 : ¬ i.batch.phase = 0 := by omega
  have hnum : i.batch.phase / 4 = sn := by omega
  have hat : i.batch.phase % 4 = 2 := by omega
  have hnone : ((s.ctx? i.crew.part).any fun c => c.xlPend.any fun p => p.1 == i.batch.tag) = false := by
    cases hc : s.ctx? i.crew.part with
    | none => rfl
    | some c =>
      rw [Option.any_some, List.any_eq_false]
      exact fun p hmem => by simp [hp c hc p hmem]
  rw [exec_wrsys, execWrsys]
  refine uniSet_ok h ?_
  simp only [List.singleton_append, kFree_ok hk, if_neg h0, hnum, hat, rightsOf_ok hr, hnone, Nat.reduceEqDiff, if_true,
    Bool.false_eq_true, if_false]

theorem wrsys_finishes (h3 : i.batch.phase = 4 * sn + 3) (hx : sn = snXlinv → s.olderGone i.crew.part i.batch.tag = true)
    (hd : s.ckptDrained i.crew = true) :
    exec (.wrsys x) s = .next ((s.advance i x.words).secondCkpt i.ref.core i.ref.slot) := by
  have h0 : ¬ i.batch.phase = 0 := by omega
  have hnum : i.batch.phase / 4 = sn := by omega
  have hat : i.batch.phase % 4 = 3 := by omega
  have hgone : (sn == snXlinv && !s.olderGone i.crew.part i.batch.tag) = false := by
    by_cases hsn : sn = snXlinv
    · rw [hx hsn, Bool.not_true, Bool.and_false]
    · rw [beq_eq_false_iff_ne.2 hsn, Bool.false_and]
  rw [exec_wrsys, execWrsys]
  refine uniSet_ok h ?_
  simp only [List.singleton_append, kFree_ok hk, if_neg h0, hnum, hat, rightsOf_ok hr, hgone, hd, Nat.reduceEqDiff, Bool.not_true,
    Bool.false_eq_true, if_false]

end

theorem wrpkr_completes (h : UniRuns s i x .any) (hf : i.crew.level = .f) (hk : i.free [(x.an, false)] = true)
    (hr : s.ckptReady i.crew = true) (hc : (s.checkpoint i.ref.core i.ref.slot).accessesChecked i = true) :
    exec (.wrpkr x) s = .next (((s.checkpoint i.ref.core i.ref.slot).updCtx i.crew.part fun c =>
      c.setReg (snPkr + x.dn) (BitVec.ofNat 64 (bits (i.flock.kreg x.an).toNat 1 0))).advance i x.words) := by
  rw [exec_wrpkr, execWrpkr]
  refine uniSet_ok h ?_
  simp only [needLevel_ok (beq_iff_eq.2 hf), kFree_ok hk, Accesses.takeCkpt_ready hr, hc, Bool.not_true, Bool.false_eq_true, if_false]

end

/-- Settles O32, instruction by instruction. -/
theorem checkpointTrapAndHaltComplete : Obligations.CheckpointTrapAndHaltComplete := by
  unfold Obligations.CheckpointTrapAndHaltComplete
  exact fun s i x h => ⟨ckpt_completes h, fun hb hr => ⟨trap_completes h hb hr, bpt_traps h hb hr⟩, bpt_halts h, halt_completes h⟩

/-- Settles O33: ERET's checkpoint, its service of the record, and the end of an abort. -/
theorem trapReturnCompletes : Obligations.TrapReturnCompletes := by
  unfold Obligations.TrapReturnCompletes
  intro s i x h hu hk va
  refine ⟨fun l => eret_closes h hu hk, ?_, eret_aborted h hu hk⟩
  intro a l s0 ha hl hd hox n act hs
  refine ⟨fun s1 v hv => ?_, fun s1 hv => ?_⟩
  · rw [eret_serves h hu hk ha hl hd hox hs, hv]
  · rw [eret_serves h hu hk ha hl hd hox hs, hv]

/-- Settles O34: RDSYS, the steps of WRSYS, and WRPKR. -/
theorem systemRegisterAccessesComplete : Obligations.SystemRegisterAccessesComplete := by
  unfold Obligations.SystemRegisterAccessesComplete
  refine ⟨fun s i x h hk => ⟨fun w => rdsys_nobody h hk, fun l w => rdsys_reads h hk⟩, fun s i x h hk => ?_,
    fun s i x h => wrpkr_completes h⟩
  intro v sn r l hr goTo
  exact ⟨wrsys_begins h hk hr, fun h1 hd => ⟨wrsys_writes h hk hr h1 hd, wrsys_invalidates h hk hr h1 hd⟩,
    wrsys_dropped h hk hr, wrsys_finishes h hk hr⟩

end Sys2Proof.SystemClass

/-! PROOF. The steps of a collective at this package's endpoint (R252-R260). -/

namespace Sys2Proof.Collectives
open Sys2Proof Sys2Proof.Machine Sys2Proof.Claims

section
variable {s t : State} {id : Nat} {e : Engine} {b : List Nat} {g own next sp : Nat} {ins : List (Nat × List (Nat × Bool))}

/-! ### What each event runs -/

section
variable (hd : s.dead = false) (he : s.engine? id = some e)
include hd he

theorem collTriggerRead_next (h : s.triggerStep e = some t) : exec (.collTriggerRead id) s = .next t := by
  rw [exec_collTriggerRead, execCollTriggerRead, he, Option.bind_some, runEvent_ok hd h]

theorem collStep_next {input : CollInput} (h : s.collAdvance e input = some t) : exec (.collStep id input) s = .next t := by
  rw [exec_collStep, execCollStep, he, Option.bind_some, runEvent_ok hd h]

theorem collCompletion_next (h : s.collComplete e = some t) : exec (.collCompletion id) s = .next t := by
  rw [exec_collCompletion, execCollCompletion, he, Option.bind_some, runEvent_ok hd h]

theorem collFailure_next {c : CollFail} (h : s.collFail e c = some t) : exec (.collFailure id c) s = .next t := by
  rw [exec_collFailure, execCollFailure, he, Option.bind_some, runEvent_ok hd h]

end

/-! ### The trigger (R252) -/

section
variable {r : Nat} (hj : e.job = .coll b g r next false sp ins false) (hn : next ≤ s.clock) (hh : s.collHeld e.part = false)
  (hw : s.vaWaits true e .load (cw b 8) = false)
include hj hn hh hw

theorem triggerStep_reads {v : Nat} (hv : s.triggerVal e (cw b 8) = .ok v) :
    s.triggerStep e = some ((s.countReads true e [cw b 8]).updEngine e.id fun x =>
      { x with job := if cw b 9 ≤ v then .coll b g r (nextRead next s.clock) true sp ((r, s.sendNow e b g r) :: ins) false
                      else .coll b g r (nextRead next s.clock) false sp ins false }) := by
  simp only [State.triggerStep, hj, hh, hw, hv, decide_eq_false (Nat.not_lt.2 hn), Bool.or_self, Bool.false_eq_true, if_false]

theorem triggerStep_faults {c : Cause} (hc : s.triggerVal e (cw b 8) = .error c) :
    s.triggerStep e = some (s.collFault e b { cause := c, addr := cw b 8 % 2 ^ 57 }) := by
  simp only [State.triggerStep, hj, hh, hw, hc, decide_eq_false (Nat.not_lt.2 hn), Bool.or_self, Bool.false_eq_true, if_false]

end

/-! ### Contributions and results (R255-R259) -/

section
variable (hj : e.job = .coll b g own next true sp ins false) (hh : s.collHeld e.part = false)
include hj hh

theorem collAdvance_contribution {rank w0 root count chunk : Nat} {elems : List (Word64 × Bool)} :
    s.collAdvance e (.contribution rank w0 root count chunk elems) =
      s.contribute e b g own next sp ins rank w0 root count chunk elems := by
  simp only [State.collAdvance, hj, hh, Bool.false_eq_true, if_false]

theorem collAdvance_own : s.collAdvance e .own = s.collStep e b g own next sp ins := by
  simp only [State.collAdvance, hj, hh, Bool.false_eq_true, if_false]

end

section
variable {rank w0 root count chunk : Nat} {elems : List (Word64 × Bool)} (hg : rank < g) (ho : rank ≠ own)
  (hi : ∀ p ∈ ins, p.1 ≠ rank)
  (hc : s.comesFrom e b own rank w0 root count chunk (elems.map fun v => (v.1.toNat % 2 ^ (8 * elemBytes b), v.2)) = true)
include hg ho hi hc

/-- A contribution that a member has sent and that is still to be taken in is judged by its parameters. -/
theorem contribute_eq : s.contribute e b g own next sp ins rank w0 root count chunk elems =
    if w0 ≠ cw b 0 ∨ root ≠ collRoot b ∨ count ≠ collCount b ∨ chunk ≠ cw b 10 then some (s.collMark e b .collParam 0)
    else if elems.length ≠ (if movesAny g then givesCount b rank own else 0) then none
    else some ((s.countGives e b own rank).updEngine e.id fun x => { x with
      job := .coll b g own next true sp (ins ++ [(rank, elems.map fun v => (v.1.toNat % 2 ^ (8 * elemBytes b), v.2))]) false }) := by
  have hnew : (ins.any fun p => p.1 == rank) = false := by
    rw [List.any_eq_false]
    exact fun p hp => by simp [hi p hp]
  unfold State.contribute
  exact if_neg (by simp [Nat.not_le.2 hg, ho, hnew, hc])

theorem contribute_agrees (hp : w0 = cw b 0 ∧ root = collRoot b ∧ count = collCount b ∧ chunk = cw b 10)
    (hl : elems.length = if movesAny g then givesCount b rank own else 0) :
    s.contribute e b g own next sp ins rank w0 root count chunk elems =
      some ((s.countGives e b own rank).updEngine e.id fun x => { x with
        job := .coll b g own next true sp (ins ++ [(rank, elems.map fun v => (v.1.toNat % 2 ^ (8 * elemBytes b), v.2))]) false }) := by
  obtain ⟨hw0, hroot, hcount, hchunk⟩ := hp
  rw [contribute_eq hg ho hi hc, if_neg (by simp [hw0, hroot, hcount, hchunk]), if_neg (not_not_intro hl)]

theorem contribute_disagrees (hp : w0 ≠ cw b 0 ∨ root ≠ collRoot b ∨ count ≠ collCount b ∨ chunk ≠ cw b 10) :
    s.contribute e b g own next sp ins rank w0 root count chunk elems = some (s.collMark e b .collParam 0) := by
  rw [contribute_eq hg ho hi hc, if_pos hp]

end

section
variable (hs : allStarted g ins = true) (hm : sp * chunkElems b < moving b g own) (ha : s.allGiven e b own = true)
include hs hm ha

theorem collStep_finishes (hsent : ¬(sendsFinished b = false ∨ ∃ p ∈ ins, p.1 = finishedKey g own)) :
    s.collStep e b g own next sp ins = some (s.finishOwn e b g own ins) := by
  obtain ⟨hsends, hnone⟩ := not_or.1 hsent
  have hsends : sendsFinished b = true := by simpa using hsends
  have hkey : (ins.any fun p => p.1 == finishedKey g own) = false := by
    rw [List.any_eq_false]
    exact fun p hp hk => hnone ⟨p, hp, beq_iff_eq.1 hk⟩
  simp only [State.collStep, hs, ha, decide_eq_false (Nat.not_le.2 hm), hsends, hkey, Bool.not_true, Bool.not_false, Bool.or_self,
    Bool.and_self, Bool.false_eq_true, if_false, if_true]

theorem collStep_writes {s1 : State} (hsent : sendsFinished b = false ∨ ∃ p ∈ ins, p.1 = finishedKey g own)
    (hf : s.allFinished e b g ins = true) :
    let lo := sp * chunkElems b
    let hi := lo + min (chunkElems b) (moving b g own - lo)
    (∀ sec ∈ chunkSectors b lo hi, s.vaWaits true e .store (64 * sec) = false) →
    s.writeChunk e b g own ins lo hi (chunkSectors b lo hi) = .ok s1 →
    s.collStep e b g own next sp ins = some (s1.updEngine e.id fun x =>
      { x with
        owned := x.owned.filter (fun l => !(chunkLines s1 e b lo hi (moving b g own)).contains l)
        job := .coll b g own next true (sp + 1) ins false }) := by
  intro lo hi hrows hwrite
  have hdone : (sendsFinished b && !ins.any fun p => p.1 == finishedKey g own) = false := by
    obtain hno | ⟨p, hp, hk⟩ := hsent
    · rw [hno, Bool.false_and]
    · have hkey : (ins.any fun p => p.1 == finishedKey g own) = true := List.any_eq_true.2 ⟨p, hp, beq_iff_eq.2 hk⟩
      rw [hkey, Bool.not_true, Bool.and_false]
  have hready : (!s.allFinished e b g ins || (chunkSectors b lo hi).any fun sec => s.vaWaits true e .store (64 * sec)) = false := by
    rw [hf, Bool.not_true, Bool.false_or, List.any_eq_false]
    exact fun sec hsec => by simp [hrows sec hsec]
  unfold State.collStep
  dsimp only
  rw [if_neg (by simp [hs, ha, Nat.not_le.2 hm]), if_neg (by simp [hdone]),
    if_neg fun hwait => Bool.false_ne_true (hready.symm.trans hwait)]
  rw [show s.writeChunk e b g own ins (sp * chunkElems b) _ _ = .ok s1 from hwrite]
  rfl

end

/-! ### Completion and failure (R254, R259) -/

/-- A collective that is complete, or has failed, ends with its flag, its arrival and the trap of a flag write that failed. -/
theorem collComplete_eq {started failed : Bool} (hj : e.job = .coll b g own next started sp ins failed)
    (hh : s.collHeld e.part = false)
    (hc : failed = true ∨ (started = true ∧ allStarted g ins = true ∧ moving b g own ≤ sp * chunkElems b ∧ s.allGiven e b own = true)) :
    let p := ({ s with engines := s.engines.filter fun x => x.id != e.id }).flagWrite e b failed
    let t := match e.nb with
      | some n => p.1.collArrive e n
      | none => p.1
    (p.2 = none → s.collComplete e = some t) ∧ ∀ c, p.2 = some c → s.collComplete e = some (t.engTrap e c (cw b 6 % 2 ^ 57)) := by
  intro p t
  have hends : (!collEnds b g own sp started ins failed || !(failed || s.allGiven e b own) || s.collHeld e.part) = false := by
    obtain hf | ⟨hst, hall, hmov, hgiven⟩ := hc
    · simp [collEnds, hf, hh]
    · simp [collEnds, hst, hall, hmov, hgiven, hh]
  have hout : s.collComplete e = some (match p.2 with
      | none => t
      | some c => t.engTrap e c (cw b 6 % 2 ^ 57)) := by
    unfold State.collComplete
    simp only [hj]
    exact if_neg (by rw [hends]; exact Bool.false_ne_true)
  exact ⟨fun hp => by rw [hout, hp], fun c hp => by rw [hout, hp]⟩

section
variable {started : Bool} (hj : e.job = .coll b g own next started sp ins false) (hh : s.collHeld e.part = false)
include hj hh

theorem collFail_disagrees {rank : Nat} (hsp : sp = 0) (hr : rank < g) (hfar : s.far e b rank = true) (hi : ∀ p ∈ ins, p.1 ≠ rank) :
    s.collFail e .disagree = some (s.collMark e b .collParam 0) := by
  have hnew : (ins.any fun p => p.1 == rank) = false := by
    rw [List.any_eq_false]
    exact fun p hp => by simp [hi p hp]
  have hany : ((List.range g).any fun r => s.far e b r && !ins.any fun p => p.1 == r) = true :=
    List.any_eq_true.2 ⟨rank, List.mem_range.2 hr, by rw [hfar, hnew]; rfl⟩
  simp only [State.collFail, hj, hh, hsp, hany, beq_self_eq_true, Bool.and_self, Bool.false_eq_true, if_false, if_true]

theorem collFail_remote {c rank : Nat} {k : Cause} (hr : rank < g) (hfar : s.far e b rank = true) (hk : failCause c = some k) :
    s.collFail e (.remote c) = some (s.collMark e b k 0) := by
  have hany : (List.range g).any (s.far e b) = true := List.any_eq_true.2 ⟨rank, List.mem_range.2 hr, hfar⟩
  simp only [State.collFail, hj, hh, hany, hk, Option.map_some, Bool.false_eq_true, if_false, if_true]

theorem collFail_buffer {f : EngFault} (hst : started = true) (hm : movesAny g = true) (hrun : s.running e b g ins = true)
    (hf : s.bufferFault e b g own = some f) :
    s.collFail e (.buffer f.cause.code f.addr) = some (s.collFault e b f) := by
  simp only [State.collFail, hj, hh, hf, hst, hm, hrun, beq_self_eq_true, Bool.and_self, Bool.false_eq_true, if_false, if_true]

end

end

/-- Settles O36: the trigger, contributions and chunks, completion, and failures. -/
theorem collectiveStepsComplete : Obligations.CollectiveStepsComplete := by
  unfold Obligations.CollectiveStepsComplete
  refine ⟨fun s id e b g r next sp v ins hd he hj hn hh hw hv => collTriggerRead_next hd he (triggerStep_reads hj hn hh hw hv),
    fun s id e b g r next sp c ins hd he hj hn hh hw hc => collTriggerRead_next hd he (triggerStep_faults hj hn hh hw hc),
    fun s id e b g own next sp ins hd he hj hh => ⟨?_, ?_⟩,
    fun s id e b g own next sp ins started failed hd he hj hh hc => ?_,
    fun s id e b g own next sp ins started hd he hj hh => ⟨?_, ?_, ?_⟩⟩
  · intro rank w0 root count chunk elems hg ho hi vs hc
    refine ⟨fun hp hl => collStep_next hd he ?_, fun hp => collStep_next hd he ?_⟩
    · exact (collAdvance_contribution hj hh).trans (contribute_agrees hg ho hi hc hp hl)
    · exact (collAdvance_contribution hj hh).trans (contribute_disagrees hg ho hi hc hp)
  · intro hs hm ha lo hi sent
    refine ⟨fun hsent => collStep_next hd he ?_, fun s1 hsent hf hrows hwrite => collStep_next hd he ?_⟩
    · exact (collAdvance_own hj hh).trans (collStep_finishes hs hm ha hsent)
    · exact (collAdvance_own hj hh).trans (collStep_writes hs hm ha hsent hf hrows hwrite)
  · obtain ⟨hnone, hsome⟩ := collComplete_eq hj hh hc
    exact ⟨fun hp => collCompletion_next hd he (hnone hp), fun c hp => collCompletion_next hd he (hsome c hp)⟩
  · exact fun rank hsp hr hfar hi => collFailure_next hd he (collFail_disagrees hj hh hsp hr hfar hi)
  · exact fun c k rank hr hfar hk => collFailure_next hd he (collFail_remote hj hh hr hfar hk)
  · exact fun f hst hm hrun hf => collFailure_next hd he (collFail_buffer hj hh hst hm hrun hf)

end Sys2Proof.Collectives

/-! PROOF. Dispatch, aging, team reservation and the end of crews (R265-R269, R280). -/

namespace Sys2Proof.Dispatching
open Sys2Proof Sys2Proof.Machine Sys2Proof.Claims

/-! ### Lists -/

theorem updFirst_append_cons {α : Type} {p : α → Bool} {f : α → α} {pre post : List α} {a : α} (hpre : ∀ x ∈ pre, p x = false)
    (ha : p a = true) : updFirst p f (pre ++ a :: post) = pre ++ f a :: post := by
  induction pre with
  | nil => rw [List.nil_append, updFirst, if_pos ha]; rfl
  | cons x pre ih =>
    rw [List.cons_append, updFirst, if_neg (by rw [hpre x List.mem_cons_self]; exact Bool.false_ne_true),
      ih fun y hy => hpre y (List.mem_cons_of_mem _ hy)]
    rfl

/-- What does not match stays in a list whose first match is changed. -/
theorem mem_updFirst_other {α : Type} {p : α → Bool} {f : α → α} {l : List α} {x : α} (hx : x ∈ l) (hp : p x = false) :
    x ∈ updFirst p f l := by
  cases hfind : l.find? p with
  | none => rw [updFirst_none p f l hfind]; exact hx
  | some a =>
    obtain ⟨pre, post, hl, hu⟩ := updFirst_split p f l a hfind
    have hne : x ≠ a := fun h => by rw [h, List.find?_some hfind] at hp; exact Bool.false_ne_true hp.symm
    rw [hu]
    rw [hl] at hx
    simp only [List.mem_append, List.mem_cons] at hx ⊢
    obtain h | h | h := hx
    · exact .inl h
    · exact absurd h hne
    · exact .inr (.inr h)

/-- In a non-empty ascending list `minBy` finds an entry of the least key, the lowest on a tie. -/
theorem minBy_ascending {key : Nat → Nat} {l : List Nat} (hl : l.Pairwise (· < ·)) (hne : l ≠ []) :
    ∃ g ∈ l, minBy key l = some g ∧ ∀ x ∈ l, key g < key x ∨ (key g = key x ∧ g ≤ x) := by
  induction l with
  | nil => exact absurd rfl hne
  | cons a l ih =>
    obtain ⟨hlow, hrest⟩ := List.pairwise_cons.1 hl
    by_cases hemp : l = []
    · subst hemp
      exact ⟨a, List.mem_cons_self, rfl, fun x hx => .inr (by rw [List.mem_singleton.1 hx]; exact ⟨rfl, le_refl a⟩)⟩
    · obtain ⟨g, hg, hmin, hleast⟩ := ih hrest hemp
      rw [minBy, hmin]
      by_cases hlt : key g < key a
      · refine ⟨g, List.mem_cons_of_mem _ hg, if_pos hlt, fun x hx => ?_⟩
        obtain rfl | hx := List.mem_cons.1 hx
        · exact .inl hlt
        · exact hleast x hx
      · refine ⟨a, List.mem_cons_self, if_neg hlt, fun x hx => ?_⟩
        obtain rfl | hx := List.mem_cons.1 hx
        · exact .inr ⟨rfl, le_refl x⟩
        · have hax := hlow x hx
          have hgx := hleast x hx
          omega

/-- The largest value in a list, from a start: a bound that the start or an entry attains. -/
theorem foldl_max_spec (f : Nat → Nat) (l : List Nat) (m : Nat) :
    m ≤ l.foldl (fun m q => max m (f q)) m ∧ (∀ q ∈ l, f q ≤ l.foldl (fun m q => max m (f q)) m) ∧
      (l.foldl (fun m q => max m (f q)) m = m ∨ ∃ q ∈ l, f q = l.foldl (fun m q => max m (f q)) m) := by
  induction l generalizing m with
  | nil => exact ⟨le_refl m, fun q hq => absurd hq List.not_mem_nil, .inl rfl⟩
  | cons a l ih =>
    obtain ⟨hstart, hbound, hattain⟩ := ih (max m (f a))
    rw [List.foldl_cons]
    refine ⟨le_trans (le_max_left _ _) hstart, fun q hq => ?_, ?_⟩
    · obtain rfl | hq := List.mem_cons.1 hq
      · exact le_trans (le_max_right _ _) hstart
      · exact hbound q hq
    · obtain h | ⟨q, hq, h⟩ := hattain
      · rw [h]
        obtain hm | hm := max_choice m (f a)
        · exact .inl hm
        · exact .inr ⟨a, List.mem_cons_self, hm.symm⟩
      · exact .inr ⟨q, List.mem_cons_of_mem _ hq, h⟩

/-- An entry of a non-empty list attains its largest value. -/
theorem exists_foldl_max {f : Nat → Nat} {l : List Nat} (hne : l ≠ []) :
    ∃ q ∈ l, f q = l.foldl (fun m q => max m (f q)) 0 := by
  obtain ⟨-, hbound, hattain⟩ := foldl_max_spec f l 0
  obtain h | h := hattain
  · obtain ⟨q, hq⟩ := List.exists_mem_of_ne_nil l hne
    have hq0 := hbound q hq
    exact ⟨q, hq, by omega⟩
  · exact h

/-! ### The queue whose turn it is (R265) -/

/-- The round-robin over ascending queues: the queue whose turn it is, else the next above it, wrapping. -/
theorem nextInTurn_spec {last : Nat} {more : Bool} {qs : List Nat} (hqs : qs.Pairwise (· < ·)) (hne : qs ≠ []) :
    ∃ q ∈ qs, nextInTurn last more qs = some q ∧ (last ∈ qs → more = true → q = last) ∧
      (¬(last ∈ qs ∧ more = true) → (last < q ∧ ∀ p ∈ qs, last < p → q ≤ p) ∨ ∀ p ∈ qs, p ≤ last ∧ q ≤ p) := by
  unfold nextInTurn
  by_cases hturn : (more && qs.contains last) = true
  · rw [if_pos hturn]
    simp only [Bool.and_eq_true, List.contains_iff_mem] at hturn
    exact ⟨last, hturn.2, rfl, fun _ _ => rfl, fun h => absurd ⟨hturn.2, hturn.1⟩ h⟩
  · rw [if_neg hturn]
    simp only [Bool.and_eq_true, List.contains_iff_mem] at hturn
    cases hfind : qs.find? fun q => decide (last < q) with
    | some q =>
      obtain ⟨hq, pre, post, hsplit, hpre⟩ := List.find?_eq_some_iff_append.1 hfind
      have hq : last < q := of_decide_eq_true hq
      refine ⟨q, List.mem_of_find?_eq_some hfind, rfl, fun hl hm => absurd ⟨hm, hl⟩ hturn, fun _ => .inl ⟨hq, fun p hp hlt => ?_⟩⟩
      rw [hsplit] at hp hqs
      obtain hp | hp := List.mem_append.1 hp
      · have := hpre p hp
        simp [hlt] at this
      · obtain rfl | hp := List.mem_cons.1 hp
        · exact le_refl _
        · exact le_of_lt ((List.pairwise_cons.1 (List.pairwise_append.1 hqs).2.1).1 p hp)
    | none =>
      cases qs with
      | nil => exact absurd rfl hne
      | cons q r =>
        refine ⟨q, List.mem_cons_self, rfl, fun hl hm => absurd ⟨hm, hl⟩ hturn, fun _ => .inr fun p hp => ⟨?_, ?_⟩⟩
        · simpa using List.find?_eq_none.1 hfind p hp
        · obtain rfl | hp := List.mem_cons.1 hp
          · exact le_refl _
          · exact le_of_lt ((List.pairwise_cons.1 hqs).1 p hp)

section
variable {s : State} {c : Context}

theorem headPlaced_head {q n : Nat} {l : Launch} {t : State} (h : s.headPlaced c q = some (l, n, t)) : c.head? q = some (l, n) := by
  obtain ⟨p, hp, h⟩ := Option.bind_eq_some_iff.1 h
  obtain ⟨e, -, h⟩ := Option.bind_eq_some_iff.1 h
  obtain ⟨u, -, h⟩ := Option.map_eq_some_iff.1 h
  simp only [Prod.mk.injEq] at h
  rw [hp, ← h.1, ← h.2.1]

/-- The queues whose head can be placed at once. -/
def placeable (s : State) (c : Context) : List Nat := c.ready.filter fun q => (s.headPlaced c q).isSome

theorem mem_placeable {q : Nat} : q ∈ placeable s c ↔ q < 64 ∧ (s.headPlaced c q).isSome = true := by
  simp only [placeable, Context.ready, List.mem_filter, List.mem_range]
  refine ⟨fun h => ⟨h.1.1, h.2⟩, fun h => ⟨⟨h.1, ?_⟩, h.2⟩⟩
  obtain ⟨⟨l, n, t⟩, hp⟩ := Option.isSome_iff_exists.1 h.2
  rw [headPlaced_head hp]
  rfl

/-- The dispatcher takes a queue of the highest level among those whose head can be placed, by that level's rotation. -/
theorem chooseQueue_spec (h : ∃ q < 64, (s.headPlaced c q).isSome = true) :
    ∃ q, s.chooseQueue c = some q ∧ q < 64 ∧ (s.headPlaced c q).isSome = true ∧
      (∀ p < 64, (s.headPlaced c p).isSome = true → c.lqLevel p ≤ c.lqLevel q) ∧
      (let last := c.turnOf (c.lqLevel q)
       let left := c.turnLeft (c.lqLevel q)
       let peer := fun p => p < 64 ∧ (s.headPlaced c p).isSome = true ∧ c.lqLevel p = c.lqLevel q
       (peer last → 0 < left → q = last) ∧
       (¬(peer last ∧ 0 < left) →
         (last < q ∧ ∀ p, peer p → last < p → q ≤ p) ∨ ∀ p, peer p → p ≤ last ∧ q ≤ p)) := by
  obtain ⟨q0, hq0⟩ := h
  have hne : placeable s c ≠ [] := List.ne_nil_of_mem (mem_placeable.2 hq0)
  obtain ⟨-, hbound, -⟩ := foldl_max_spec c.lqLevel (placeable s c) 0
  obtain ⟨q1, hq1, htop⟩ := exists_foldl_max (f := c.lqLevel) hne
  have hasc : ((placeable s c).filter fun q => c.lqLevel q == (placeable s c).foldl (fun m q => max m (c.lqLevel q)) 0).Pairwise
      (· < ·) := ((List.pairwise_lt_range.filter _).filter _).filter _
  obtain ⟨q, hq, hnext, hturn, hwrap⟩ := nextInTurn_spec
    (last := c.turnOf ((placeable s c).foldl (fun m q => max m (c.lqLevel q)) 0))
    (more := decide (0 < c.turnLeft ((placeable s c).foldl (fun m q => max m (c.lqLevel q)) 0))) hasc
    (List.ne_nil_of_mem (List.mem_filter.2 ⟨hq1, beq_iff_eq.2 htop⟩))
  obtain ⟨hmem, hlevel⟩ := List.mem_filter.1 hq
  have hlevel := beq_iff_eq.1 hlevel
  obtain ⟨hlt, hsome⟩ := mem_placeable.1 hmem
  refine ⟨q, hnext, hlt, hsome, fun p hp hps => hlevel ▸ hbound p (mem_placeable.2 ⟨hp, hps⟩), ?_⟩
  intro last left peer
  rw [← hlevel] at hturn hwrap
  have hpeer : ∀ p, peer p ↔ p ∈ (placeable s c).filter fun q' => c.lqLevel q' == c.lqLevel q := fun p => by
    rw [List.mem_filter, mem_placeable, beq_iff_eq, and_assoc]
  refine ⟨fun hl hpos => hturn ((hpeer last).1 hl) (decide_eq_true hpos), fun hno => ?_⟩
  obtain ⟨hlast, hleast⟩ | hall := hwrap fun hboth => hno ⟨(hpeer last).2 hboth.1, of_decide_eq_true hboth.2⟩
  · exact .inl ⟨hlast, fun p hp => hleast p ((hpeer p).1 hp)⟩
  · exact .inr fun p hp => hall p ((hpeer p).1 hp)

end

/-! ### Reservations that are due (R269) -/

section
variable {s : State} {c : Context}

/-- One team's reservation, if it is due. -/
def reserveOne (s : State) (d : Context) (t : TeamWait) : Context :=
  if t.herd.isSome || decide (s.clock < t.since + 65536) then d
  else { d with teams := updFirst (· == t) (fun t => { t with herd := s.reserveFor d t }) d.teams }

theorem reserveDue_eq (s : State) (c : Context) : s.reserveDue c = c.teams.foldl (reserveOne s) c := rfl

theorem reserveOne_teams (d : Context) (t : TeamWait) : ∃ ts, reserveOne s d t = { d with teams := ts } := by
  unfold reserveOne
  split
  · exact ⟨d.teams, rfl⟩
  · exact ⟨_, rfl⟩

theorem foldl_reserveOne_teams (l : List TeamWait) (d : Context) : ∃ ts, l.foldl (reserveOne s) d = { d with teams := ts } := by
  induction l generalizing d with
  | nil => exact ⟨d.teams, rfl⟩
  | cons t l ih =>
    obtain ⟨ts, hts⟩ := reserveOne_teams (s := s) d t
    obtain ⟨us, hus⟩ := ih (reserveOne s d t)
    exact ⟨us, by rw [List.foldl_cons, hus, hts]⟩

theorem reserveDue_teams (s : State) (c : Context) : ∃ ts, s.reserveDue c = { c with teams := ts } := foldl_reserveOne_teams _ _

theorem reserveOne_skips {d : Context} {t : TeamWait} (h : t.herd ≠ none ∨ s.clock < t.since + 65536) : reserveOne s d t = d := by
  refine if_pos ?_
  obtain h | h := h
  · rw [Option.isSome_iff_ne_none.2 h, Bool.true_or]
  · rw [decide_eq_true h, Bool.or_true]

theorem foldl_reserveOne_skips {l : List TeamWait} {d : Context} (h : ∀ t ∈ l, t.herd ≠ none ∨ s.clock < t.since + 65536) :
    l.foldl (reserveOne s) d = d := by
  induction l with
  | nil => rfl
  | cons t l ih =>
    rw [List.foldl_cons, reserveOne_skips (h t List.mem_cons_self), ih fun x hx => h x (List.mem_cons_of_mem _ hx)]

/-- A team that has a herd keeps it. -/
theorem mem_foldl_reserveOne {l : List TeamWait} {d : Context} {x : TeamWait} (hx : x ∈ d.teams) (hh : x.herd ≠ none) :
    x ∈ (l.foldl (reserveOne s) d).teams := by
  induction l generalizing d with
  | nil => exact hx
  | cons t l ih =>
    refine ih ?_
    unfold reserveOne
    split
    · exact hx
    · next hdue =>
      refine mem_updFirst_other hx (beq_eq_false_iff_ne.2 fun h => ?_)
      rw [← h, Option.isSome_iff_ne_none.2 hh, Bool.true_or] at hdue
      exact hdue rfl

section
variable {pre post : List TeamWait} {t : TeamWait} (hteams : c.teams = pre ++ t :: post)
  (hpre : ∀ x ∈ pre, x.herd ≠ none ∨ s.clock < x.since + 65536) (hnone : t.herd = none) (hdue : t.since + 65536 ≤ s.clock)
include hteams hpre hnone hdue

/-- The first team whose reservation is due gets the herd chosen for it. -/
theorem reserveDue_first {g : Nat} (hg : s.reserveFor c t = some g) :
    ({ t with herd := some g } : TeamWait) ∈ (s.reserveDue c).teams := by
  have hskip : ∀ x ∈ pre, (x == t) = false := fun x hx => beq_eq_false_iff_ne.2 fun h => by
    obtain hp | hp := hpre x hx
    · exact hp (h ▸ hnone)
    · rw [h] at hp; omega
  have hstep : reserveOne s c t = { c with teams := pre ++ ({ t with herd := some g } : TeamWait) :: post } := by
    unfold reserveOne
    rw [if_neg (by rw [hnone, decide_eq_false (Nat.not_lt.2 hdue)]; exact Bool.false_ne_true), hteams,
      updFirst_append_cons hskip (beq_self_eq_true t), hg]
  rw [reserveDue_eq, hteams, List.foldl_append, foldl_reserveOne_skips hpre, List.foldl_cons, hstep]
  exact mem_foldl_reserveOne (List.mem_append_right _ List.mem_cons_self) (Option.some_ne_none g)

end

theorem reserveFor_least {t : TeamWait} {l : Launch} {e : EntryRec} {part h : Nat} (hp : c.part = part)
    (hl : c.launch? t.key = some l) (he : c.entryOf l = some e) (hh : h ∈ s.herdsOf part) (hfree : h ∉ c.reserved) :
    let lacks := fun g => l.slotsOf e t.team - s.herdSlots part g
    ∃ g ∈ s.herdsOf part, g ∉ c.reserved ∧ s.reserveFor c t = some g ∧
      ∀ x ∈ s.herdsOf part, x ∉ c.reserved → lacks g < lacks x ∨ (lacks g = lacks x ∧ g ≤ x) := by
  intro lacks
  have hmem : ∀ x, x ∈ ((s.herdsOf part).filter fun h => !c.reserved.contains h) ↔ x ∈ s.herdsOf part ∧ x ∉ c.reserved := fun x => by
    simp [List.mem_filter]
  have hasc : ((s.herdsOf part).filter fun h => !c.reserved.contains h).Pairwise (· < ·) :=
    (List.pairwise_lt_range.filter _).filter _
  obtain ⟨g, hg, hmin, hleast⟩ := minBy_ascending (key := lacks) hasc (List.ne_nil_of_mem ((hmem h).2 ⟨hh, hfree⟩))
  obtain ⟨hherd, hgfree⟩ := (hmem g).1 hg
  refine ⟨g, hherd, hgfree, ?_, fun x hx hxfree => hleast x ((hmem x).2 ⟨hx, hxfree⟩)⟩
  rw [State.reserveFor, hl, Option.bind_some, he, Option.bind_some, hp]
  exact hmin

end

/-! ### What a dispatch reads and records -/

section
variable {s : State} {c : Context}

theorem aged_lqs (c : Context) (now : Nat) : ∃ lqs, c.aged now = { c with lqs := lqs } := by
  suffices h : ∀ (l : List Nat) (d : Context), ∃ lqs, l.foldl (fun (d : Context) q =>
      if (d.lq q).raised < d.ageGain now q then d.setLq q { d.lq q with raised := d.ageGain now q } else d) d =
        { d with lqs := lqs } from h _ c
  intro l
  induction l with
  | nil => exact fun d => ⟨d.lqs, rfl⟩
  | cons q l ih =>
    intro d
    rw [List.foldl_cons]
    split
    · obtain ⟨lqs, h⟩ := ih (d.setLq q { d.lq q with raised := d.ageGain now q })
      exact ⟨lqs, by rw [h]; rfl⟩
    · exact ih d

theorem dispatchOne_places {part : Nat} {c0 : Context} (hc : s.ctx? part = some c0) (hpre : c0.preempting = false)
    (hw : c0.waiting = []) {q n : Nat} {l : Launch} {t : State} (hq : s.chooseQueue (s.reserveDue (c0.aged s.clock)) = some q)
    (hp : s.headPlaced (s.reserveDue (c0.aged s.clock)) q = some (l, n, t)) :
    s.dispatchOne part = some (t.updCtx part fun d => d.dispatched (s.reserveDue (c0.aged s.clock)) q l n) := by
  have hgo : ((s.reserveDue (c0.aged s.clock)).preempting || !(s.reserveDue (c0.aged s.clock)).waiting.isEmpty) = false := by
    obtain ⟨lqs, ha⟩ := aged_lqs c0 s.clock
    obtain ⟨ts, hr⟩ := reserveDue_teams s (c0.aged s.clock)
    rw [hr, ha]
    show (c0.preempting || !c0.waiting.isEmpty) = false
    rw [hpre, hw]
    rfl
  rw [State.dispatchOne, hc, Option.bind_some]
  dsimp only
  rw [hgo, if_neg Bool.false_ne_true, hq, Option.bind_some, hp, Option.map_some]

/-! What stands in a context after a dispatch. -/

section
variable {d : Context} {q n : Nat} {l : Launch}

theorem dispatched_lq : (d.dispatched c q l n).lq q = { since := none, raised := 0 } := by
  show spGet LQState.zero (spSet LQState.zero q { since := none, raised := 0 } c.lqs) q = _
  rw [spGet_spSet, if_pos rfl]

/-- The turn of a queue's level after its dispatch. -/
theorem afterDispatch_turn (d : Context) (q : Nat) : spGet (64, 0) (d.afterDispatch q).rr (d.lqLevel q) =
    (q, if d.turnOf (d.lqLevel q) = q ∧ 0 < d.turnLeft (d.lqLevel q) then d.turnLeft (d.lqLevel q) - 1 else d.lqWeight q - 1) := by
  unfold Context.afterDispatch
  dsimp only
  rw [spGet_spSet, if_pos rfl]

/-- With the rotation and the registers that the dispatcher saw, the turn is counted at the level it saw. -/
theorem dispatched_turn (hrr : d.rr = c.rr) (hsys : d.sys = c.sys) :
    spGet (64, 0) (d.dispatched c q l n).rr (c.lqLevel q) =
      (q, if c.turnOf (c.lqLevel q) = q ∧ 0 < c.turnLeft (c.lqLevel q) then c.turnLeft (c.lqLevel q) - 1 else c.lqWeight q - 1) := by
  have hreg : ∀ sn, ({ d with lqs := c.lqs, teams := c.teams } : Context).reg sn = c.reg sn := fun sn => by
    show spGet 0 d.sys sn ^^^ sysReset sn = spGet 0 c.sys sn ^^^ sysReset sn
    rw [hsys]
  have hlevel : ({ d with lqs := c.lqs, teams := c.teams } : Context).lqLevel q = c.lqLevel q := by
    simp only [Context.lqLevel, Context.lqPrio, hreg]
    rfl
  have hweight : ({ d with lqs := c.lqs, teams := c.teams } : Context).lqWeight q = c.lqWeight q := by
    simp only [Context.lqWeight, hreg]
  have hturn : ({ d with lqs := c.lqs, teams := c.teams } : Context).turnOf (c.lqLevel q) = c.turnOf (c.lqLevel q) ∧
      ({ d with lqs := c.lqs, teams := c.teams } : Context).turnLeft (c.lqLevel q) = c.turnLeft (c.lqLevel q) := by
    simp only [Context.turnOf, Context.turnLeft, hrr, and_self]
  have hcount := afterDispatch_turn ({ d with lqs := c.lqs, teams := c.teams } : Context) q
  rw [hlevel, hweight, hturn.1, hturn.2] at hcount
  exact hcount

theorem dispatched_teams (hl : l.team ≠ 0) : ∀ w ∈ (d.dispatched c q l n).teams, w.isFor l n = false := by
  intro w hw
  have hw : w ∈ c.teams.filter fun t => !(l.team != 0 && t.isFor l n) := hw
  have hw := (List.mem_filter.1 hw).2
  rw [bne_iff_ne.2 hl, Bool.true_and, Bool.not_eq_true'] at hw
  exact hw

theorem dispatched_launches : ∀ x ∈ (d.dispatched c q l n).launches, x ∈ d.launches ∨
    x = { l with dispatched := (l.gang n).foldl (fun ds m => insertAsc m ds) l.dispatched } := by
  intro x hx
  have hx : x ∈ updFirst (fun x => x == l)
      (fun x => { x with dispatched := (x.gang n).foldl (fun ds m => insertAsc m ds) x.dispatched }) d.launches :=
    (List.mem_filter.1 hx).1
  cases hfind : d.launches.find? fun x => x == l with
  | none =>
    rw [updFirst_none _ _ _ hfind] at hx
    exact .inl hx
  | some y =>
    have hy : (fun x => x == l) y = true := List.find?_some (p := fun x => x == l) hfind
    obtain rfl : y = l := beq_iff_eq.1 hy
    obtain ⟨pre, post, hsplit, hupd⟩ := updFirst_split _ (fun x : Launch =>
      { x with dispatched := (x.gang n).foldl (fun ds m => insertAsc m ds) x.dispatched }) _ _ hfind
    rw [hupd] at hx
    rw [hsplit]
    simp only [List.mem_append, List.mem_cons] at hx ⊢
    obtain h | h | h := hx
    · exact .inl (.inl h)
    · exact .inr h
    · exact .inl (.inr (.inr h))

end

/-! ### Aging (R266) -/

theorem ageQueue_raises {part q t : Nat} (hc : s.ctx? part = some c) (hs : (c.lq q).since = some t)
    (hp : c.lqPrio q + (c.lq q).raised < 7) (ht : t + c.lqAge q * ((c.lq q).raised + 1) ≤ s.clock) :
    s.ageQueue part q = some (s.updCtx part fun c => c.setLq q { c.lq q with raised := (c.lq q).raised + 1 }) := by
  have hage : 0 < c.lqAge q := lt_of_lt_of_le (Nat.two_pow_pos 16) (le_max_left _ _)
  have hstood : (c.lq q).raised + 1 ≤ (s.clock - t) / c.lqAge q := by
    rw [Nat.le_div_iff_mul_le hage, Nat.mul_comm]
    omega
  have hgain : (c.lq q).raised < c.ageGain s.clock q := by
    simp only [Context.ageGain, hs]
    omega
  rw [State.ageQueue, hc, Option.bind_some, if_pos hgain]

/-! ### The end of a crew (R280) -/

section
variable {core slot : Nat} {k : Crew}

section
variable (hk : s.crew? core slot = some k) (hf : k.finished = true) (hs : k.susp = none) (hd : s.ckptDrained k = true)
  (hl : s.loading k = false)
include hk hf hs hd hl

theorem crewEnd_closes (he : k.ending = false) : s.crewEnd core slot = some ((s.checkpoint core slot).updCrew core slot fun x =>
    { x with ending := true, between := false, heldTrap := none }) := by
  obtain ⟨hcore, hslot⟩ := crew?_core hk
  simp only [State.crewEnd, hk, Option.bind_some, State.endCrew, hf, hs, hd, hl, he, hcore, hslot, Bool.not_true, Bool.not_false,
    Option.isSome_none, Bool.or_self, Bool.false_eq_true, if_false, if_true]

theorem crewEnd_removes (he : k.ending = true) (hdr : s.crewDrained core slot k.part = true) :
    s.crewEnd core slot = some (s.removeCrew k) := by
  obtain ⟨hcore, hslot⟩ := crew?_core hk
  simp only [State.crewEnd, hk, Option.bind_some, State.endCrew, hf, hs, hd, hl, he, hcore, hslot, hdr, Bool.not_true,
    Option.isSome_none, Bool.or_self, Bool.false_eq_true, if_false]

end

theorem crewDrained_of {part : Nat} (h : ∀ e ∈ s.sb ++ s.rq, ¬(e.core = core ∧ e.slot = slot ∧ e.part = part)) :
    s.crewDrained core slot part = true := by
  rw [State.crewDrained, Bool.not_eq_true', List.any_eq_false]
  intro e he hboth
  simp only [Bool.and_eq_true, beq_iff_eq, and_assoc] at hboth
  exact h e he hboth

theorem crewEnd_parked {rest : List Crew} (hk : s.crew? core slot = none)
    (hall : (s.allCrews.filter fun j => j.core == core && j.slot == slot && j.ending) = k :: rest)
    (hdr : s.crewDrained k.core (parkedSlot k.slot) k.part = true) :
    let s1 := ((s.setParked k.part k fun _ => none).dropSuspended k).dropWriter k
    s.crewEnd core slot = some (((if k.done then s1 else s1.setBitmap k.part k.launch k.idx).updCtx k.part fun c =>
      c.crewEnded k.launch k.idx).settleTeam k) := by
  intro s1
  have hsame : (s.allCrews.filter fun j => j.core == core && j.slot == slot && j.ending && (none : Option Crew) != some j) =
      k :: rest := by
    rw [← hall]
    exact List.filter_congr fun j _ => Bool.and_true _
  rw [State.crewEnd, hk, Option.bind_none]
  dsimp only
  rw [hsame, List.findSome?_cons, State.endParked, hdr]
  rfl

end

end

/-- Settles O41: the dispatcher's choice and what it records, aging, reservation, and both ends of a crew. -/
theorem dispatchAndCrewEndComplete : Obligations.DispatchAndCrewEndComplete := by
  unfold Obligations.DispatchAndCrewEndComplete
  refine ⟨?_, fun d c q n l => ⟨by rw [dispatched_lq], by rw [dispatched_lq], fun hrr hsys => ?_, dispatched_teams,
    dispatched_launches⟩, ?_, ?_, ?_, ?_⟩
  · intro s part c0 hd hc hpre hw c hsome
    obtain ⟨q, hq, hlt, hplaced, hmax, hturn⟩ := chooseQueue_spec hsome
    obtain ⟨⟨l, n, t⟩, hp⟩ := Option.isSome_iff_exists.1 hplaced
    refine ⟨q, l, n, t, hlt, hmax, hturn, hp, headPlaced_head hp, ?_⟩
    rw [exec_dispatch, execDispatch, runEvent_ok hd (dispatchOne_places hc hpre hw hq hp)]
  · rw [Context.turnOf, Context.turnLeft, dispatched_turn hrr hsys]
    exact ⟨rfl, rfl⟩
  · intro s part q t c hd hc hs hp ht
    rw [exec_priorityAging, execPriorityAging, runEvent_ok hd (ageQueue_raises hc hs hp ht)]
  · intro s part h c pre post t l e hd hc hteams hpre hnone hdue hl he hh hfree lacks
    have hpart : c.part = part := by simpa using List.find?_some hc
    obtain ⟨g, hg, hgfree, hres, hleast⟩ := reserveFor_least hpart hl he hh hfree
    have hmem := reserveDue_first hteams hpre hnone hdue hres
    have hchanges : s.reserveDue c ≠ c := fun heq => by
      rw [heq] at hmem
      exact hgfree (List.mem_filterMap.2 ⟨_, hmem, rfl⟩)
    refine ⟨g, hg, hgfree, hleast, ?_, hmem⟩
    rw [exec_teamReservation, execTeamReservation]
    refine runEvent_ok hd ?_
    rw [State.reserveHerd, hc, Option.bind_some, if_neg hchanges]
  · intro s core slot k hd hk hf hs hdr hl
    refine ⟨fun he => ?_, fun he hgone => ?_⟩
    · rw [exec_crewEnd, execCrewEnd, runEvent_ok hd (crewEnd_closes hk hf hs hdr hl he)]
    · rw [exec_crewEnd, execCrewEnd, runEvent_ok hd (crewEnd_removes hk hf hs hdr hl he (crewDrained_of hgone))]
  · intro s core slot k rest hd hk hall hgone s1
    have hmem : k ∈ s.allCrews.filter fun j => j.core == core && j.slot == slot && j.ending := by rw [hall]; exact List.mem_cons_self
    have hplace := (List.mem_filter.1 hmem).2
    simp only [Bool.and_eq_true, beq_iff_eq] at hplace
    obtain ⟨⟨hcore, hslot⟩, -⟩ := hplace
    have hdr : s.crewDrained k.core (parkedSlot k.slot) k.part = true := crewDrained_of (by rw [hcore, hslot]; exact hgone)
    rw [exec_crewEnd, execCrewEnd, runEvent_ok hd (crewEnd_parked hk hall hdr)]

end Sys2Proof.Dispatching

/-! PROOF. Checkpoints and traps as events, debug control, pre-emption and resumption (R240, R312-R320, R327-R329). -/

namespace Sys2Proof.Recovering
open Sys2Proof Sys2Proof.Machine Sys2Proof.Claims

section
variable {s t : State} {core slot : Nat} {k : Crew}

/-! ### Checkpoints and traps -/

theorem dueCkpt_takes (hk : s.crew? core slot = some k) (hdue : k.ckptDue = true) (hb : k.between = false) (hs : k.susp = none)
    (hr : s.ckptReady k = true) : s.dueCkpt core slot = some (s.checkpoint core slot) := by
  rw [State.dueCkpt, hk, Option.bind_some, hdue, hb, hs, hr]
  rfl

theorem deliverHeld_takes {u : Trap} (hk : s.crew? core slot = some k) (hu : k.heldTrap = some u) (hb : k.between = false)
    (hs : k.susp = none) : s.deliverHeld core slot = some (s.takeTrap core slot u true) := by
  simp only [State.deliverHeld, hk, hu, hb, hs, Option.isSome_none, Bool.or_self, Bool.false_eq_true, if_false]

/-- The crew in a place is the first there, so a search of that place for what holds of it finds it. -/
theorem find?_crew (hk : s.crew? core slot = some k) (p : Crew → Bool) (hp : p k = true) :
    s.crews.find? (fun j => j.core == core && j.slot == slot && p j) = some k := by
  obtain ⟨hplace, pre, post, hcrews, hpre⟩ := List.find?_eq_some_iff_append.1 hk
  refine List.find?_eq_some_iff_append.2 ⟨by rw [hplace, hp]; rfl, pre, post, hcrews, fun j hj => ?_⟩
  rw [Bool.not_eq_true', Bool.and_eq_false_iff]
  exact .inl ((Bool.not_eq_true' _).mp (hpre j hj))

theorem retryRecord_tries {r : TrapRec} (hk : s.crew? core slot = some k) (hr : k.susp = some r) (hq : r.queued = false)
    (ha : r.retryAt ≤ s.clock) : s.retryRecord core slot =
      some ((s.tryEnqueue k r).1.updCrew core slot fun x => { x with susp := some (s.tryEnqueue k r).2 }) := by
  unfold State.retryRecord
  dsimp only
  rw [find?_crew hk _ (by rw [hr]; simp only [hq, ha, Bool.not_false, decide_true, Bool.and_self])]
  dsimp only
  rw [hr, Option.map_some]

section
variable {c : Context} (hk : s.crew? core slot = some k) (hc : s.ctx? k.part = some c) (ht : c.intervalLen ≤ k.timer)
  (hb : k.between = false) (hh : k.halted = false) (hs : k.susp = none)
include hk hc ht hb hh hs

/-- An interval that has run its length ends in a checkpoint, or asks for one. -/
theorem intervalEnd_eq : s.intervalEnd core slot = if s.ckptReady k then some (s.checkpoint core slot)
    else if k.ckptDue then none else some (s.updCrew core slot fun x => { x with ckptDue := true }) := by
  rw [State.intervalEnd, hk, Option.bind_some, hc, Option.bind_some]
  exact if_neg (by simp [Nat.not_lt.2 ht, hb, hh, hs])

theorem intervalEnd_checkpoints (hr : s.ckptReady k = true) : s.intervalEnd core slot = some (s.checkpoint core slot) := by
  rw [intervalEnd_eq hk hc ht hb hh hs, if_pos hr]

theorem intervalEnd_asks (hr : s.ckptReady k = false) (hd : k.ckptDue = false) :
    s.intervalEnd core slot = some (s.updCrew core slot fun x => { x with ckptDue := true }) := by
  rw [intervalEnd_eq hk hc ht hb hh hs, hr, hd, if_neg Bool.false_ne_true, if_neg Bool.false_ne_true]

end

/-! ### Debug control (R329) -/

theorem halt_halts (hk : s.crew? core slot = some k) (hs : k.susp = none) (hh : k.halted = false) :
    s.halt core slot = some (s.updCrew core slot fun x => { x with halted := true }) := by
  simp only [State.halt, hk, Option.bind_some, hs, hh, Bool.false_eq_true, if_false]

theorem halt_records {r : TrapRec} (hk : s.crew? core slot = some k) (hs : k.susp = some r) (hh : k.haltPend = false) :
    let r1 := { r with halt := true }
    let s1 := s.updCrew core slot fun x => { x with haltPend := true, susp := some r1 }
    s.halt core slot = some ((s1.writeRecord { k with susp := some r1 } r1).getD s1) := by
  simp only [State.halt, hk, Option.bind_some, hs, hh, Bool.false_eq_true, if_false]

theorem stepOnce_lets (hk : s.crew? core slot = some k) (hh : k.halted = true) (hp : k.stepPend = false) (hs : k.susp = none) :
    s.stepOnce core slot = some (s.updCrew core slot fun x => { x with stepPend := true }) := by
  rw [State.stepOnce, hk, Option.bind_some, hh, hp, hs]
  rfl

theorem unhalt_releases (hk : s.crew? core slot = some k) (hh : k.halted = true ∨ k.haltPend = true) : s.unhalt core slot =
    some (s.updCrew core slot fun x => { x with halted := false, haltPend := false, stepPend := false }) := by
  rw [State.unhalt, hk, Option.bind_some, if_pos (Bool.or_eq_true_iff.2 hh)]

end

theorem recoveryAndDebugComplete : RecoveryAndDebugComplete := by
  intro s core slot k hd hk
  refine ⟨fun hdue hb hs hr => ?_, fun t ht hb hs => ?_, fun r hr hq ha => ?_,
    fun c hc ht hb hh hs => ⟨fun hr => ?_, fun hr hdue => ?_⟩, fun hs hh => ?_, fun r hr hh => ?_, fun hh hp hs => ?_, fun hh => ?_⟩
  · rw [exec_checkpoint, execCheckpoint, runEvent_ok hd (dueCkpt_takes hk hdue hb hs hr)]
  · rw [exec_trapDelivery, execTrapDelivery, runEvent_ok hd (deliverHeld_takes hk ht hb hs)]
  · rw [exec_trapRecordEnqueueRetry, execTrapRecordEnqueueRetry, runEvent_ok hd (retryRecord_tries hk hr hq ha)]
  · rw [exec_intervalTimerExpiry, execIntervalTimerExpiry, runEvent_ok hd (intervalEnd_checkpoints hk hc ht hb hh hs hr)]
  · rw [exec_intervalTimerExpiry, execIntervalTimerExpiry, runEvent_ok hd (intervalEnd_asks hk hc ht hb hh hs hr hdue)]
  · rw [exec_debugHalt, execDebugHalt, runEvent_ok hd (halt_halts hk hs hh)]
  · intro r1 s1
    refine ⟨fun t ht => ?_, fun hnone => ?_⟩
    · rw [exec_debugHalt, execDebugHalt, runEvent_ok hd ((halt_records hk hr hh).trans (by rw [ht, Option.getD_some]))]
    · rw [exec_debugHalt, execDebugHalt, runEvent_ok hd ((halt_records hk hr hh).trans (by rw [hnone, Option.getD_none]))]
  · rw [exec_singleStep, execSingleStep, runEvent_ok hd (stepOnce_lets hk hh hp hs)]
  · rw [exec_haltRelease, execHaltRelease, runEvent_ok hd (unhalt_releases hk hh)]

/-! ### Pre-emption and resumption (R240, R327, R328) -/

section
variable {s t : State} {part : Nat} {c : Context}

theorem quantumEnd_marks (hc : s.ctx? part = some c) (hp : c.preempting = false) (hl : c.quantumLen ≠ 0)
    (ht : c.quantumAt + c.quantumLen ≤ s.clock) : s.quantumEnd part =
      some ((s.demandAll (s.crews.filter fun k => k.part == part)).updCtx part fun c => { c with preempting := true }) := by
  rw [State.quantumEnd, hc, Option.bind_some, hp, beq_eq_false_iff_ne.2 hl, decide_eq_false (Nat.not_lt.2 ht)]
  rfl

theorem preemptSet_marks {ps : List (Nat × Nat)} (h : ∃ k ∈ s.crews, (k.core, k.slot) ∈ ps) :
    let ks := s.crews.filter fun k => ps.contains (k.core, k.slot)
    s.preemptSet ps = some { s.demandAll ks with
      ctxs := (s.demandAll ks).ctxs.map fun c => if ks.any fun k => k.part == c.part then { c with preempting := true } else c } := by
  intro ks
  obtain ⟨k, hk, hin⟩ := h
  have hne : ks.isEmpty = false := by
    rw [List.isEmpty_eq_false_iff]
    exact List.ne_nil_of_mem (List.mem_filter.2 ⟨hk, List.contains_iff_mem.2 hin⟩)
  unfold State.preemptSet
  exact if_neg (by rw [hne]; exact Bool.false_ne_true)

/-- What LODGE_STATE leaves of one crew more. -/
def lodgeNext (s : State) (o : Option State) (k : Crew) : Option State :=
  match (o.getD s).lodgeOne k with
  | some t => some t
  | none => o

theorem lodge_eq (s : State) (part : Nat) :
    s.lodge part = (s.crews.filter fun k => k.part == part && s.lodgeable k).foldl (lodgeNext s) none := rfl

/-- Crews lodged one after another leave what the fold over them leaves. -/
theorem foldl_lodgeNext {ks : List Crew} {u : State} {o : Option State} (ho : o.getD s = u) (h : Lodges ks u t) :
    (ks.foldl (lodgeNext s) o).getD s = t ∧ (ks ≠ [] ∨ o ≠ none → ks.foldl (lodgeNext s) o ≠ none) := by
  induction ks generalizing u o with
  | nil => exact ⟨ho.trans h.symm, fun hne => hne.resolve_left fun hn => hn rfl⟩
  | cons k ks ih =>
    obtain ⟨s1, harea, hrest⟩ := h
    have hone : lodgeNext s o k = some (s1.lodgeCrew k.core k.slot) := by
      rw [lodgeNext, ho, State.lodgeOne, harea]
    obtain ⟨hval, hsome⟩ := ih (o := lodgeNext s o k) (by rw [hone]; rfl) hrest
    exact ⟨hval, fun _ => hsome (.inr (by rw [hone]; exact Option.some_ne_none _))⟩

theorem lodge_lodges (hex : ∃ k ∈ s.crews, k.part = part ∧ s.lodgeable k = true)
    (h : Lodges (s.crews.filter fun k => k.part == part && s.lodgeable k) s t) : s.lodge part = some t := by
  obtain ⟨k, hk, hp, hl⟩ := hex
  have hne : (s.crews.filter fun k => k.part == part && s.lodgeable k) ≠ [] :=
    List.ne_nil_of_mem (List.mem_filter.2 ⟨hk, by rw [beq_iff_eq.2 hp, hl]; rfl⟩)
  obtain ⟨hval, hsome⟩ := foldl_lodgeNext (s := s) (o := none) rfl h
  obtain ⟨u, hu⟩ := Option.ne_none_iff_exists'.1 (hsome (.inl hne))
  rw [lodge_eq, hu]
  rw [hu, Option.getD_some] at hval
  rw [hval]

theorem resumePart_resumes {s0 : State} (hc : s.ctx? part = some c) (hno : ∀ k ∈ s.crews, k.part = part → s.lodgeable k = false)
    (harea : s.clearArea (c.waiting.flatMap fun k => s.resumeTo k) none = .ok s0) :
    let s1 := (s0.unparkAll part c.waiting.length).reloadSome c.waiting
    let left := ((s1.ctx? part).map (·.waiting.length)).getD 0
    let s2 := s1.updCtx part fun c => { c with preempting := false, quantumAt := s.clock }
    c.preempting = true ∨ (c.waiting ≠ [] ∧ left ≠ c.waiting.length) →
    s.resumePart part = some (if left = 0 then { s2 with lodged := s2.lodged.filter fun p => p.2 != part } else s2) := by
  intro s1 left s2 hgo
  have hnone : (s.crews.any fun k => k.part == part && s.lodgeable k) = false := by
    rw [List.any_eq_false]
    intro k hk hboth
    simp only [Bool.and_eq_true, beq_iff_eq] at hboth
    rw [hno k hk hboth.1] at hboth
    exact Bool.false_ne_true hboth.2
  have hdue : (!c.preempting && c.waiting.isEmpty) = false := by
    obtain hp | ⟨hw, -⟩ := hgo
    · rw [hp]; rfl
    · rw [List.isEmpty_eq_false_iff.2 hw, Bool.and_false]
  have hmoves : ¬(c.preempting = false ∧ left = c.waiting.length) := by
    rintro ⟨hp, hl⟩
    obtain hp' | ⟨-, hl'⟩ := hgo
    · rw [hp] at hp'; exact Bool.false_ne_true hp'
    · exact hl' hl
  unfold State.resumePart
  rw [hc, Option.bind_some, hnone, hdue, if_neg (by decide), harea]
  exact if_neg hmoves

end

theorem preemptionComplete : PreemptionComplete := by
  refine ⟨fun s part c hd hc hp hl ht => ?_, fun s ps hd h => ?_, fun s t part hd hex h => ?_, fun s s0 part c hd hc hno harea => ?_⟩
  · rw [exec_quantumExpiry, execQuantumExpiry, runEvent_ok hd (quantumEnd_marks hc hp hl ht)]
  · rw [exec_preemptionRequest, execPreemptionRequest]
    exact runEvent_ok hd (preemptSet_marks h)
  · rw [exec_lodgeState, execLodgeState, runEvent_ok hd (lodge_lodges hex h)]
  · intro s1 left hgo s2
    rw [exec_partitionResume, execPartitionResume]
    exact runEvent_ok hd (resumePart_resumes hc hno harea hgo)

/-- Settles O40: checkpoints, traps and debug control, then pre-emption and resumption. -/
theorem recoveryDebugAndPreemptionComplete : Obligations.RecoveryDebugAndPreemptionComplete :=
  ⟨recoveryAndDebugComplete, preemptionComplete⟩

end Sys2Proof.Recovering

/-! PROOF. The migration of pages and the expansion of compressed ones (R326, R334, R336, R338). -/

namespace Sys2Proof.PageMoves
open Sys2Proof Sys2Proof.Machine Sys2Proof.Claims

section
variable {s t u : State} {c : Context} {eng : Engine} {ia e level old new next : Nat}

/-! ### The engines of a package whose sector meets an error -/

theorem rebuild_engines {sector : Nat} {r : RebuiltBy} (h : s.rebuild sector r = some t) : t.engines = s.engines := by
  have hbuilt : ∀ bs, (s.writeRebuilt sector bs).engines = s.engines := fun bs => by
    obtain ⟨l, hl⟩ := logError_memory { s with mem := s.mem.write (64 * sector) bs } 2 (64 * sector) 0
    rw [State.writeRebuilt, hl]
  cases r with
  | parity =>
    obtain ⟨bs, -, rfl⟩ := Option.map_eq_some_iff.1 h
    exact hbuilt bs
  | copy =>
    obtain ⟨bs, -, rfl⟩ := Option.map_eq_some_iff.1 h
    exact hbuilt bs
  | neither =>
    rw [State.rebuild] at h
    split at h
    · exact absurd h (Option.some_ne_none t).symm
    · obtain rfl := Option.some.inj h
      obtain ⟨l, hl⟩ := logError_memory (s.poisonSector sector) 3 (64 * sector) 0
      rw [hl]
      rfl

theorem sectorError_engines {sector : Nat} {f : SectorFind} (h : s.sectorError sector f = some t) : t.engines = s.engines := by
  cases f with
  | clean => rw [← Option.some.inj h]
  | correctable =>
    rw [State.sectorError] at h
    split at h
    · obtain rfl := Option.some.inj h
      obtain ⟨l, hl⟩ := logError_memory s 1 (64 * sector) 0
      rw [hl]
    · exact absurd h (Option.some_ne_none t).symm
  | miscorrected =>
    rw [State.sectorError] at h
    split at h
    · obtain rfl := Option.some.inj h
      obtain ⟨l, hl⟩ := logError_memory { s with mem := s.mem.write (64 * sector) ((List.range 16).flatMap fun k =>
        leBytes 4 (Config.freeWord s.fresh (16 * sector + k)).toNat) } 1 (64 * sector) 0
      rw [hl]
    · exact absurd h (Option.some_ne_none t).symm
  | uncorrectable r => exact rebuild_engines h

/-! ### One line of a migration -/

theorem migration?_mem {part base : Nat} (h : s.migration? part base = some (eng, ia, old, new, next)) : eng ∈ s.engines := by
  obtain ⟨x, hx, hjob⟩ := List.exists_of_findSome?_eq_some h
  split at hjob
  · split at hjob
    · rw [← (Prod.mk.inj (Option.some.inj hjob)).1]
      exact hx
    · exact absurd hjob (Option.some_ne_none _).symm
  · exact absurd hjob (Option.some_ne_none _).symm

theorem engine?_of_mem (h : eng ∈ s.engines) : ∃ x, s.engine? eng.id = some x :=
  Option.isSome_iff_exists.1 (List.find?_isSome.2 ⟨eng, h, beq_self_eq_true eng.id⟩)

/-- A line whose entries have drained and whose versions are committed is held, copied and let go. -/
theorem holdPageLine_moves {d : State} {x : Engine}
    (ha : t.locWaits (pageLoc eng.part e level old next) = false) (hb : t.locWaits (pageLoc eng.part e level new next) = false)
    (hd : (t.passLine eng.part (lineOf (old + 128 * next))).drainLine eng.part (lineOf (old + 128 * next)) = some d)
    (hu : d.commitHolders eng.part (lineOf (old + 128 * next)) = some u) (hx : u.engine? eng.id = some x) :
    t.holdPageLine eng ia e level old new next = some (lineMoved u eng ia e level old new next) := by
  have hwait : (t.locWaits (pageLoc eng.part e level old next) || t.locWaits (pageLoc eng.part e level new next)) = false := by
    rw [ha, hb]; rfl
  unfold State.holdPageLine
  dsimp only
  rw [hwait, if_neg Bool.false_ne_true, EngineSteps.takeLine_commits hd hu, Option.map_some, if_pos (EngineSteps.owns_taken hx)]
  rfl

section
variable {half : Nat} {found : SectorFind}
  (hown : ∀ x ∈ s.engines, x.id ≠ eng.id → x.part = eng.part → lineOf (old + 128 * next) ∉ x.owned)
include hown

theorem line_free :
    (s.engines.any fun x => x.id != eng.id && x.part == eng.part && x.owned.contains (lineOf (old + 128 * next))) = false := by
  rw [List.any_eq_false]
  intro x hx hboth
  simp only [Bool.and_eq_true, bne_iff_ne, beq_iff_eq, List.contains_iff_mem] at hboth
  obtain ⟨⟨hid, hpart⟩, hin⟩ := hboth
  exact hown x hx hid hpart hin

theorem migrateOne_aborts (hc : s.fromCopy (2 * lineOf (old + 128 * next) + half % 2) = none) :
    s.migrateOne eng ia e level old new next { half := half, found := .uncorrectable .neither } =
      some (s.abortMigration eng old new next (2 ^ pageBits level)) := by
  simp only [State.migrateOne, line_free hown, hc, Option.isSome_none, Bool.false_eq_true, if_false]

theorem migrateOne_holds (hf : found ≠ .uncorrectable .neither)
    (ht : s.sectorError (2 * lineOf (old + 128 * next) + half % 2) found = some t) :
    s.migrateOne eng ia e level old new next { half := half, found := found } = t.holdPageLine eng ia e level old new next := by
  unfold State.migrateOne
  dsimp only
  rw [line_free hown, if_neg Bool.false_ne_true]
  split
  · exact absurd rfl hf
  · rw [ht, Option.bind_some]

end

/-! ### The steps of a migration -/

section
variable {part page : Nat} {read : LineFind} (hc : s.ctx? part = some c) (hw : s.walk c (page * 65536) = some (e, level))
include hc hw

/-- The Mule goes on with the migration under way: it stops, ends or takes the next line. -/
theorem migrateLine_goesOn
    (hm : s.migration? part (page * 65536 / 2 ^ pageBits level * 2 ^ pageBits level) = some (eng, ia, old, new, next)) :
    s.migrateLine part page read =
      if s.engineRefuses e .store || s.lostPa old then some (s.stopMigration eng new (2 ^ pageBits level))
      else if 2 ^ pageBits level ≤ 128 * next then s.endMigration c eng ia e level old new
      else s.migrateOne eng ia e level old new next read := by
  rw [State.migrateLine, hc, Option.bind_some, hw, Option.bind_some]
  dsimp only
  rw [hm, Option.map_some]

theorem migrateLine_starts (hm : s.migration? part (page * 65536 / 2 ^ pageBits level * 2 ^ pageBits level) = none) :
    s.migrateLine part page read = s.startMigration c page := by
  rw [State.migrateLine, hc, Option.bind_some, hw, Option.bind_some]
  dsimp only
  rw [hm, Option.map_none]

end

theorem endMigration_moves {s0 : State} (hs : s.moveLines c.part e level old new (2 ^ pageBits level / 128) = some s0) :
    let s1 := (s0.rewriteLeaf c ia e level new (leafCT e)).retarget c.part old new (2 ^ pageBits level)
    s.endMigration c eng ia e level old new = some { s1 with engines := s1.engines.filter fun x => x.id != eng.id } := by
  simp only [State.endMigration, hs]

theorem endMigration_asks (hs : s.moveLines c.part e level old new (2 ^ pageBits level / 128) = none)
    (hu : s.askHolders c.part old (2 ^ pageBits level) = some u) : s.endMigration c eng ia e level old new = some u := by
  simp only [State.endMigration, hs, hu]

/-- The engine that carries a migration out. -/
def migrator (s : State) (c : Context) (ia old f : Nat) : Engine :=
  { id := s.nextTag, owned := [], core := 0, slot := 16, part := c.part, launch := 0, idx := 0, level := .f, flock := 0, pc := 0,
    nb := none, job := .migrate ia old (f * 65536) 0 }

theorem startMigration_starts {page f : Nat} (hw : s.walk c (page * 65536) = some (e, level)) :
    let size := 2 ^ pageBits level
    let ia := page * 65536 / size * size
    let old := leafPa e level ia
    let s1 := s.updCtx c.part fun c =>
      { c with freeFrames := c.freeFrames.filter fun x => !(decide (f ≤ x) && decide (x < f + size / 65536)) }
    bits old 51 50 ≠ 0 → s.engineRefuses e .store = false → s.lostPa old = false →
    (if s.policy.migThreshold = 0 then 256 else max 16 (min 65536 s.policy.migThreshold)) < s.pageHits c.part ia size →
    frameRun (s.planFrames c e c.freeFrames) (size / 65536) = some f →
    s.startMigration c page =
      some { s1 with nextTag := s1.nextTag + 1, engines := s1.engines ++ [migrator s c ia old f] } := by
  intro size ia old s1 hout hkey hlost hhits hframe
  rw [State.startMigration, hw, Option.bind_some]
  dsimp only
  have hgo : ¬(bits old 51 50 = 0 ∨ s.engineRefuses e .store = true ∨ s.lostPa old = true ∨
      s.pageHits c.part ia size ≤ (if s.policy.migThreshold = 0 then 256 else max 16 (min 65536 s.policy.migThreshold))) := by
    rintro (h | h | h | h)
    · exact hout h
    · rw [hkey] at h; exact Bool.false_ne_true h
    · rw [hlost] at h; exact Bool.false_ne_true h
    · exact Nat.not_lt.2 h hhits
  rw [if_neg hgo, hframe, Option.map_some]
  rfl

/-! ### Compressed pages (R338) -/

section
variable {part page : Nat} (hc : s.ctx? part = some c) (hw : s.walk c (page * 65536) = some (e, level)) (hct : leafCT e = true)
include hc hw hct

theorem ctPage?_walked : s.ctPage? part page =
    some { ctx := c, ia := page * 65536 / 2 ^ pageBits level * 2 ^ pageBits level, leaf := e, level := level } := by
  rw [State.ctPage?, hc, Option.bind_some, hw, Option.bind_some, if_pos hct]

omit hc hw hct

variable {p : CtPage} (hp : s.ctPage? part page = some p) (hhits : s.pageHits part p.ia p.size ≠ 0)
include hp hhits

theorem expandPage_room {f : Nat} (hroom : s.roomForPage p = some f) : s.expandPage part page = s.expandInto p f := by
  rw [State.expandPage, hp, Option.bind_some, beq_eq_false_iff_ne.2 hhits, if_neg Bool.false_ne_true, hroom]

theorem expandPage_noRoom (hroom : s.roomForPage p = none) : s.expandPage part page = some { s.logUnexpanded p with
    hits := (List.range (p.size / 65536)).foldl (fun h k => spSet 0 (hitKey part (p.ia + 65536 * k)) 0 h) s.hits } := by
  rw [State.expandPage, hp, Option.bind_some, beq_eq_false_iff_ne.2 hhits, if_neg Bool.false_ne_true, hroom]

end

section
variable {p : CtPage} {f : Nat}

theorem expandInto_moves {s1 : State} (hs : s.moveLines p.ctx.part p.leaf p.level p.old (f * 65536) (p.size / 128) = some s1) :
    let s2 := ((s1.rewriteLeaf p.ctx p.ia p.leaf p.level (f * 65536) false).retarget p.ctx.part p.old (f * 65536) p.size).updCtx
      p.ctx.part fun c =>
        { c with poolFrames := c.poolFrames.filter fun x => !(decide (f ≤ x) && decide (x < f + p.size / 65536)) }
    s.expandInto p f =
      some { s2 with clean := s2.clean ++ [{ part := p.ctx.part, old := p.old, new := f * 65536, size := p.size }] } := by
  simp only [State.expandInto, hs]

theorem expandInto_asks (hs : s.moveLines p.ctx.part p.leaf p.level p.old (f * 65536) (p.size / 128) = none)
    (hu : s.askHolders p.ctx.part p.old p.size = some u) : s.expandInto p f = some u := by
  simp only [State.expandInto, hs, hu]

end

end

/-- Settles O39: the steps of a migration, its start, the window of counts, and expansion. -/
theorem pageMovesComplete : Obligations.PageMovesComplete := by
  unfold Obligations.PageMovesComplete
  refine ⟨?_, ?_, ?_, ?_⟩
  · intro s part page half e level found c m hd hc hw size hm
    obtain ⟨eng, ia, old, new, next⟩ := m
    dsimp only
    have hout : ∀ t, s.migrateLine part page { half := half, found := found } = some t →
        exec (.migrationLineCopy part page { half := half, found := found }) s = .next t := fun t ht => by
      rw [exec_migrationLineCopy, execMigrationLineCopy, runEvent_ok hd ht]
    have hstep := migrateLine_goesOn (read := { half := half, found := found }) hc hw hm
    refine ⟨fun hstop => hout _ ?_, fun hkey hlost => ?_⟩
    · rw [hstep, if_pos (Bool.or_eq_true_iff.2 hstop)]
    rw [hkey, hlost, Bool.or_self, if_neg Bool.false_ne_true] at hstep
    refine ⟨fun hend => ?_, ?_⟩
    · rw [if_pos hend] at hstep
      exact ⟨fun s0 hs => hout _ (hstep.trans (endMigration_moves hs)), fun u hs hu => hout _ (hstep.trans (endMigration_asks hs hu))⟩
    · intro hmore hown
      rw [if_neg (Nat.not_le.2 hmore)] at hstep
      refine ⟨fun hf hcopy => ?_, fun t hf ht ha hb => ?_⟩
      · subst hf
        exact hout _ (hstep.trans (migrateOne_aborts hown hcopy))
      · have hhold := hstep.trans (migrateOne_holds hown hf ht)
        refine ⟨fun hentries hvers => hout _ (hhold.trans ?_), fun d u hdrain hu hx => hout _ (hhold.trans ?_)⟩
        · obtain ⟨x, hx⟩ := engine?_of_mem (s := t) (eng := eng) (by rw [sectorError_engines ht]; exact migration?_mem hm)
          have hdrain : (t.passLine eng.part (lineOf (old + 128 * next))).drainLine eng.part (lineOf (old + 128 * next)) = some t := by
            rw [EngineSteps.passLine_none fun d hd => hentries d (List.mem_append_left _ hd)]
            exact EngineSteps.drainLine_none fun d hd => hentries d (List.mem_append_right _ hd)
          exact holdPageLine_moves ha hb hdrain (EngineSteps.commitHolders_none hvers) hx
        · obtain ⟨x, hx⟩ := Option.ne_none_iff_exists'.1 hx
          exact holdPageLine_moves ha hb hdrain hu hx
  · intro s part page e level f c read hd hc hw size ia old hm hout hkey hlost hhits hframe s1
    refine ⟨migrator s c ia old f, ?_, rfl, rfl, rfl, rfl, rfl⟩
    rw [exec_migrationLineCopy, execMigrationLineCopy]
    exact runEvent_ok hd ((migrateLine_starts hc hw hm).trans (startMigration_starts hw hout hkey hlost hhits hframe))
  · intro s hd hw
    rw [exec_migrationCountWindowEnd, execMigrationCountWindowEnd]
    exact runEvent_ok hd (if_pos hw)
  · intro s part page e level c hd hc hw hct size ia old room out hhits
    have hp : s.ctPage? part page = some { ctx := c, ia := ia, leaf := e, level := level } := ctPage?_walked hc hw hct
    have hout : ∀ t, s.expandPage part page = some t → out = .next t := fun t ht => by
      show exec (.capacityTierExpansion part page) s = _
      rw [exec_capacityTierExpansion, execCapacityTierExpansion, runEvent_ok hd ht]
    refine ⟨fun f hlost hroom => ?_, fun hno => ?_⟩
    · have hfit : s.roomForPage { ctx := c, ia := ia, leaf := e, level := level } = some f := by
        show (if s.lostPa old then none else room) = some f
        rw [hlost, if_neg Bool.false_ne_true, hroom]
      have hstep := expandPage_room hp hhits hfit
      exact ⟨fun s1 hs => hout _ (hstep.trans (expandInto_moves hs)), fun u hs hu => hout _ (hstep.trans (expandInto_asks hs hu))⟩
    · have hfit : s.roomForPage { ctx := c, ia := ia, leaf := e, level := level } = none := by
        show (if s.lostPa old then none else room) = none
        obtain hlost | hroom := hno
        · rw [hlost, if_pos rfl]
        · rw [hroom, ite_self]
      refine hout _ ((expandPage_noRoom hp hhits hfit).trans ?_)
      rfl

end Sys2Proof.PageMoves

/-! PROOF. Errors in memory and in register files, scrubbing, the row window, moves of ways and lost links (R283, R308,
R331-R339). -/

namespace Sys2Proof.ErrorsAndScrubbing
open Sys2Proof Sys2Proof.Machine Sys2Proof.Claims

/-! ### The XOR of sectors (R332) -/

section Xor
variable {a b c : List Byte} {l : List (List Byte)}

/-- Two sectors XORed byte by byte. -/
def xorBytes (a b : List Byte) : List Byte := List.zipWith (· ^^^ ·) a b

theorem xorSectors_eq (l : List (List Byte)) : xorSectors l = l.foldl xorBytes (List.replicate 64 0) := rfl

theorem length_xorBytes (ha : a.length = 64) (hb : b.length = 64) : (xorBytes a b).length = 64 := by
  rw [xorBytes, List.length_zipWith, ha, hb, Nat.min_self]

theorem xorBytes_comm (a b : List Byte) : xorBytes a b = xorBytes b a :=
  List.zipWith_comm_of_comm BitVec.xor_comm

theorem xorBytes_assoc : xorBytes (xorBytes a b) c = xorBytes a (xorBytes b c) := by
  refine List.ext_getElem ?_ fun n _ _ => ?_
  · simp only [xorBytes, List.length_zipWith, Nat.min_assoc]
  · simp only [xorBytes, List.getElem_zipWith, BitVec.xor_assoc]

theorem xorBytes_self (ha : a.length = 64) : xorBytes a a = List.replicate 64 0 := by
  refine List.ext_getElem ?_ fun n _ _ => ?_
  · rw [length_xorBytes ha ha, List.length_replicate]
  · simp only [xorBytes, List.getElem_zipWith, BitVec.xor_self, List.getElem_replicate, BitVec.ofNat_eq_ofNat]

theorem zeros_xorBytes (ha : a.length = 64) : xorBytes (List.replicate 64 0) a = a := by
  refine List.ext_getElem ?_ fun n _ _ => ?_
  · rw [length_xorBytes List.length_replicate ha, ha]
  · simp only [xorBytes, List.getElem_zipWith, List.getElem_replicate, BitVec.ofNat_eq_ofNat, BitVec.zero_xor]

theorem foldl_xorBytes (hl : ∀ x ∈ l, x.length = 64) (ha : a.length = 64) :
    l.foldl xorBytes a = xorBytes a (xorSectors l) ∧ (l.foldl xorBytes a).length = 64 := by
  induction l generalizing a with
  | nil =>
    rw [xorSectors_eq, xorBytes_comm]
    exact ⟨(zeros_xorBytes ha).symm, ha⟩
  | cons x l ih =>
    have hx : x.length = 64 := hl x List.mem_cons_self
    have hrest := fun y hy => hl y (List.mem_cons_of_mem x hy)
    obtain ⟨hsum, hlen⟩ := ih hrest (length_xorBytes ha hx)
    obtain ⟨hfirst, -⟩ := ih hrest (length_xorBytes List.length_replicate hx)
    refine ⟨?_, hlen⟩
    rw [List.foldl_cons, hsum, xorSectors_eq (x :: l), List.foldl_cons, hfirst, zeros_xorBytes hx, xorBytes_assoc]

theorem length_xorSectors (hl : ∀ x ∈ l, x.length = 64) : (xorSectors l).length = 64 :=
  (foldl_xorBytes hl List.length_replicate).2

/-- The XOR of the others with the parity of all gives the one left out. -/
theorem xorSectors_parity (ha : a.length = 64) (hl : ∀ x ∈ l, x.length = 64) :
    xorSectors (l ++ [xorSectors (a :: l)]) = a := by
  have hparity : xorSectors (a :: l) = xorBytes a (xorSectors l) := by
    rw [xorSectors_eq, List.foldl_cons, zeros_xorBytes ha, (foldl_xorBytes hl ha).1]
  calc xorSectors (l ++ [xorSectors (a :: l)])
      = xorBytes (xorSectors l) (xorSectors (a :: l)) := by
        rw [xorSectors_eq, List.foldl_append]
        rfl
    _ = xorBytes a (xorBytes (xorSectors l) (xorSectors l)) := by
        rw [hparity, xorBytes_comm, xorBytes_assoc]
    _ = a := by
        rw [xorBytes_self (length_xorSectors hl), xorBytes_comm, zeros_xorBytes ha]

end Xor

/-! ### Errors in a sector of HBM (R331, R334, R335) -/

section Sector
variable {s : State} {sector : Nat}

theorem length_arraySector (s : State) (sector : Nat) : (s.arraySector sector).length = 64 := spGetList_length _ _ _ _

theorem fromParity_eq (h : inHbm sector = true) (hgood : ∀ x ∈ parityOf sector :: parityGroup sector, s.sectorBad x = false) :
    s.fromParity sector = some (s.arraySector sector) := by
  have hnone : (parityOf sector :: parityGroup sector).any s.sectorBad = false :=
    List.any_eq_false.2 fun x hx => Bool.eq_false_iff.1 (hgood x hx)
  have hlen : ∀ x ∈ (parityGroup sector).map s.arraySector, x.length = 64 := fun x hx => by
    obtain ⟨y, -, rfl⟩ := List.mem_map.1 hx
    exact length_arraySector s y
  rw [State.fromParity, h, hnone, if_neg (by decide), State.paritySector, List.map_cons,
    xorSectors_parity (length_arraySector s sector) hlen]

theorem rebuild_parity (h : inHbm sector = true) (hgood : ∀ x ∈ parityOf sector :: parityGroup sector, s.sectorBad x = false) :
    s.rebuild sector .parity =
      some ({ s with mem := s.mem.write (64 * sector) (s.mem.read (64 * sector) 64) }.logError 2 (64 * sector) 0) := by
  rw [State.rebuild, fromParity_eq h hgood]
  rfl

theorem rebuild_copy {bs : List Byte} (h : s.fromCopy sector = some bs) :
    s.rebuild sector .copy = some ({ s with mem := s.mem.write (64 * sector) bs }.logError 2 (64 * sector) 0) := by
  rw [State.rebuild, h]
  rfl

theorem rebuild_neither (h : s.fromCopy sector = none) :
    s.rebuild sector .neither = some ((s.poisonSector sector).logError 3 (64 * sector) 0) := by
  rw [State.rebuild, h]
  rfl

theorem sectorError_correctable (h : inHbm sector = true) :
    s.sectorError sector .correctable = some (s.logError 1 (64 * sector) 0) := if_pos h

/-- The bytes that a correction taken wrongly leaves. -/
def strayBytes (fresh sector : Nat) : List Byte :=
  (List.range 16).flatMap fun k => leBytes 4 (Config.freeWord fresh (16 * sector + k)).toNat

theorem length_strayBytes (fresh sector : Nat) : (strayBytes fresh sector).length = 64 := by
  rw [strayBytes, List.length_flatMap]
  simp only [Management.length_leBytes]
  decide

theorem sectorError_miscorrected (h : inHbm sector = true) : s.sectorError sector .miscorrected =
    some ({ s with mem := s.mem.write (64 * sector) (strayBytes s.fresh sector) }.logError 1 (64 * sector) 0) := if_pos h

theorem exec_sectorRebuild_of {found : SectorFind} {t : State} (hd : s.dead = false) (hf : found ≠ .clean)
    (h : s.sectorError sector found = some t) : exec (.sectorRebuild sector found) s = .next t := by
  rw [exec_sectorRebuild, execSectorRebuild, if_neg (by simpa using hf)]
  exact runEvent_ok hd h

end Sector

/-! ### Errors in SRAM and register files (R333) -/

section Sram
variable {s : State} {k : Crew} {site : SramSite}

theorem sliceError_dirty {part line sector : Nat} {h : HomeLine} (hh : s.homeSector? part (2 * line + sector % 2) = some h)
    (hdirty : h.isDirty (2 * line + sector % 2) = true) : s.sliceError part line sector =
      some ((s.poisonSector (2 * line + sector % 2)).logError 3 (64 * (2 * line + sector % 2)) 0) := by
  rw [State.sliceError, hh, Option.map_some, if_pos hdirty]

theorem sliceError_clean {part line sector : Nat} {h : HomeLine} (hh : s.homeSector? part (2 * line + sector % 2) = some h)
    (hdirty : h.isDirty (2 * line + sector % 2) = false) : s.sliceError part line sector =
      some (((s.activate part (2 * line + sector % 2)).updHome part line fun h => h.fill s.mem (2 * line + sector % 2)).logError 2
        (64 * (2 * line + sector % 2)) 0) := by
  rw [State.sliceError, hh, Option.map_some, if_neg (by simp [hdirty])]

theorem l1Error_pinned {core part line : Nat} {c : L1Copy} (hc : s.copy? core part line = some c) (hp : c.pinned = true) :
    s.l1Error core part line = some ((s.refill c).logError 2 (128 * line) 0) := by
  rw [State.l1Error, hc, Option.map_some, if_pos hp]

theorem l1Error_unpinned {core part line : Nat} {c : L1Copy} (hc : s.copy? core part line = some c) (hp : c.pinned = false) :
    s.l1Error core part line = some ((s.dropL1 core part line false).logError 2 (128 * line) 0) := by
  rw [State.l1Error, hc, Option.map_some, if_neg (by simp [hp])]

/-- An error in a register of a crew rolls the crew back where the register has an undo entry, else loses it. -/
theorem registerHit_of {quad salt : Nat} {kept : Prop} {changed : Bool} {lost : State} (hd : s.dead = false)
    (hsite : s.sramError site = s.regError k quad salt changed lost) (hkept : kept ↔ changed = false) :
    RegisterHit site s k quad kept lost := by
  refine ⟨fun hch hb => runEvent_ok hd (hsite.trans ?_), fun hk h0 => runEvent_ok hd (hsite.trans ?_)⟩
  · have hchanged : changed = true := (Bool.not_eq_false _).mp (mt hkept.2 hch)
    rw [State.regError, hchanged, Bool.true_or, if_pos rfl, if_neg (by simp [hb])]
  · rw [State.regError, hkept.1 hk, h0, if_neg (by simp)]

/-- What a register held at the checkpoint is what it holds. -/
theorem same_iff {α : Type} [BEq α] [LawfulBEq α] (old : Option α) (now : α) : old = some now ↔ (old != some now) = false := by
  rw [bne_eq_false_iff_eq]

section Fibres
variable {core slot flock lane n : Nat} {f : Flock} {x : Fibre}

/-- The flock's registers at the checkpoint. -/
def flockAt (k : Crew) (flock : Nat) : Option Flock := k.saved.flocks.find? fun g => g.num == flock

theorem registerHit_fibre {α : Type} [BEq α] [LawfulBEq α] {rd : Fibre → α} {lose : Fibre → Fibre} (hd : s.dead = false)
    (hk : s.crew? core slot = some k) (hf : k.flock? flock = some f) (hx : f.fibre? lane = some x)
    (hsite : s.sramError site = s.fibreError core slot flock lane n rd lose) :
    RegisterHit site s k f.quad (((flockAt k flock).bind fun g => g.fibre? lane).map rd = some (rd x))
      (s.loseIn core slot flock fun f => f.updFibre lane lose) := by
  refine registerHit_of (salt := n) hd (hsite.trans ?_) (same_iff _ _)
  rw [State.fibreError, hk, Option.bind_some, hf, Option.bind_some, hx, Option.bind_some]
  rfl

theorem registerHit_flock {α : Type} [BEq α] [LawfulBEq α] {rd : Flock → α} {lose : Flock → Flock} (hd : s.dead = false)
    (hk : s.crew? core slot = some k) (hf : k.flock? flock = some f)
    (hsite : s.sramError site = s.flockError core slot flock n rd lose) :
    RegisterHit site s k f.quad ((flockAt k flock).map rd = some (rd f)) (s.loseIn core slot flock lose) := by
  refine registerHit_of (salt := n) hd (hsite.trans ?_) (same_iff _ _)
  rw [State.flockError, hk, Option.bind_some, hf, Option.bind_some]
  rfl

end Fibres

section Units
variable {gq : Nat} {shadowed : MUnit → Bool} {mark : MUnit → MUnit}

theorem unitError_plain (h : shadowed (s.unit gq) = false) :
    s.unitError gq shadowed mark = some ((s.onUnit gq mark).logDie 3 (dieOf (gq / 4))) := by
  rw [State.unitError, if_neg (by simp [h])]

theorem unitError_shadowed {c : Nat × Nat} (h : shadowed (s.unit gq) = true) (hc : (s.unit gq).holder = some c)
    (hb : (s.crew? c.1 c.2).any (·.between) = false) :
    s.unitError gq shadowed mark = some ((s.rollback c.1 c.2).logDie 7 (dieOf (gq / 4))) := by
  rw [State.unitError, if_pos h, hc, Option.bind_some, if_neg (by simp [hb])]

theorem sramError_tile (s : State) (gq z : Nat) : s.sramError (.tile gq z) =
    s.unitError gq (fun u => u.shTiles.any fun p => p.1 == z) fun u => u.setTile z { u.tile z with bad := true } := rfl

theorem sramError_bankA (s : State) (gq : Nat) :
    s.sramError (.bankA gq) = s.unitError gq (·.shBanks.isSome) fun u => { u with saBad := true } := rfl

theorem sramError_bankB (s : State) (gq : Nat) :
    s.sramError (.bankB gq) = s.unitError gq (·.shBanks.isSome) fun u => { u with sbBad := true } := rfl

/-- The two outcomes of an error in a tile or a bank. -/
theorem unitSite (hd : s.dead = false) (hsite : s.sramError site = s.unitError gq shadowed mark) :
    (shadowed (s.unit gq) = false → exec (.sramUncorrectableError site) s = .next ((s.onUnit gq mark).logDie 3 (dieOf (gq / 4)))) ∧
    ∀ h, shadowed (s.unit gq) = true → (s.unit gq).holder = some h → (s.crew? h.1 h.2).any (·.between) = false →
      exec (.sramUncorrectableError site) s = .next ((s.rollback h.1 h.2).logDie 7 (dieOf (gq / 4))) :=
  ⟨fun h => runEvent_ok hd (hsite.trans (unitError_plain h)),
    fun _ h hc hb => runEvent_ok hd (hsite.trans (unitError_shadowed h hc hb))⟩

end Units

end Sram

theorem memoryErrorsComplete : MemoryErrorsComplete := by
  refine ⟨fun s sector hd => ⟨fun hin => ⟨?_, strayBytes s.fresh sector, length_strayBytes _ _, ?_⟩, fun hin hgood => ?_,
    fun bs hcopy => ?_, fun hcopy => ?_⟩, fun s part line sector h hd hh => ⟨fun hy => ?_, fun hy => ?_⟩,
    fun s core part line c hd hc => ⟨fun hp => ?_, fun hp => ?_⟩, fun s core slot sec v hd hv => ?_,
    fun s core slot addr k hd hk hlo hhi => ?_, fun s core slot flock lane n k f x hd hk hf hx => ?_, fun s gq row hd => ?_,
    fun s off hd => ?_, fun s gq z hd p hp => ?_⟩
  · exact exec_sectorRebuild_of hd (by decide) (sectorError_correctable hin)
  · exact exec_sectorRebuild_of hd (by decide) (sectorError_miscorrected hin)
  · exact exec_sectorRebuild_of hd (by decide) (rebuild_parity hin hgood)
  · exact exec_sectorRebuild_of hd (by decide) (rebuild_copy hcopy)
  · exact exec_sectorRebuild_of hd (by decide) (rebuild_neither hcopy)
  · exact runEvent_ok hd (sliceError_dirty hh hy)
  · exact runEvent_ok hd (sliceError_clean hh hy)
  · exact runEvent_ok hd (l1Error_pinned hc hp)
  · exact runEvent_ok hd (l1Error_unpinned hc hp)
  · refine runEvent_ok hd ?_
    rw [State.sramError, hv]
    rfl
  · refine runEvent_ok hd ?_
    rw [State.sramError, hk, Option.bind_some, if_pos ⟨hlo, hhi⟩]
  · exact ⟨registerHit_fibre hd hk hf hx rfl, registerHit_fibre hd hk hf hx rfl, registerHit_fibre hd hk hf hx rfl,
      registerHit_flock hd hk hf rfl, registerHit_flock hd hk hf rfl⟩
  · exact runEvent_ok hd rfl
  · exact runEvent_ok hd rfl
  · rcases List.mem_cons.1 hp with rfl | hp
    · exact unitSite hd (sramError_tile s gq z)
    rcases List.mem_cons.1 hp with rfl | hp
    · exact unitSite hd (sramError_bankA s gq)
    obtain rfl := List.mem_singleton.1 hp
    exact unitSite hd (sramError_bankB s gq)

/-! ### Lost links (R339) -/

theorem linkEventsComplete : LinkEventsComplete := by
  refine fun s l hd => ⟨fun hup => runEvent_ok hd ?_, fun hok ⟨b, hb, hlate⟩ => runEvent_ok hd ?_, fun hlost hup => runEvent_ok hd ?_,
    fun hdown => runEvent_ok hd ?_⟩
  · rw [State.linkDown, if_neg (by simpa using hup)]
  · have hlate : (s.sentOn l).any (fun b => decide (b + s.policy.timeout l ≤ s.clock)) = true :=
      List.any_eq_true.2 ⟨b, hb, decide_eq_true hlate⟩
    rw [State.timedOut, hlate, if_neg (by simpa using hok)]
  · rw [State.clearLost, if_pos (by simp [hlost, hup])]
  · rw [State.retrained, if_pos (by simpa using hdown)]

/-- Settles O44: what a sector, an SRAM and a register file lose, and what a lost link loses, each by its own lemma. -/
theorem errorsAndLinksComplete : Obligations.ErrorsAndLinksComplete := ⟨memoryErrorsComplete, linkEventsComplete⟩

/-! ### Scrubbing (R337) -/

section Scrub
variable {s : State} {stack occupancy : Nat}

/-- The stack with the Hen gone on to the next sector. -/
def henMoved (s : State) (stack : Nat) : State := s.setHen stack { s.hen stack with next := (s.hen stack).next + 1 }

/-- A read may issue: the stack is in use, its pass not over, and its queue below the step's limit. -/
def HenIssues (s : State) (stack occupancy : Nat) : Prop :=
  stack < 16 ∧ stack ∉ s.fence.hbm ∧ (s.hen stack).next < allSectors ∧ ∀ l, s.henLimit stack = some l → occupancy < l

theorem scrub_of_issues (h : HenIssues s stack occupancy) (found : SectorFind) :
    s.scrub stack { occupancy := occupancy, found := found } =
      if (s.hen stack).next < stackSectors then (henMoved s stack).sectorError (stack * 2 ^ 31 + (s.hen stack).next) found
      else (henMoved s stack).parityError stack ((s.hen stack).next - stackSectors) found := by
  obtain ⟨h16, hfence, hnext, hlimit⟩ := h
  refine if_neg fun hno => ?_
  rcases hno with hst | hfen | hpass | hbusy
  · omega
  · exact hfence (List.contains_iff_mem.1 hfen)
  · omega
  · obtain ⟨l, hl, hle⟩ := (Option.any_eq_true _ _).1 hbusy
    exact absurd (hlimit l hl) (Nat.not_lt.2 (of_decide_eq_true hle))

theorem exec_scrubRead_of {found : SectorFind} {t : State} (hd : s.dead = false) (h : HenIssues s stack occupancy)
    (hdata : (s.hen stack).next < stackSectors → (henMoved s stack).sectorError (stack * 2 ^ 31 + (s.hen stack).next) found = some t)
    (hparity : stackSectors ≤ (s.hen stack).next →
      (henMoved s stack).parityError stack ((s.hen stack).next - stackSectors) found = some t) :
    exec (.scrubRead stack { occupancy := occupancy, found := found }) s = .next t := by
  refine runEvent_ok hd ((scrub_of_issues h found).trans ?_)
  split
  · next hlt => exact hdata hlt
  · next hge => exact hparity (Nat.le_of_not_lt hge)

/-- A data sector of a stack stands in HBM. -/
theorem inHbm_stack {next : Nat} (hs : stack < 16) (hn : next < stackSectors) : inHbm (stack * 2 ^ 31 + next) = true := by
  rw [inHbm, beq_iff_eq, bits]
  unfold stackSectors at hn
  omega

theorem parityError_parity {n : Nat} (hgood : ∀ x ∈ parityData stack n, s.sectorBad x = false) :
    s.parityError stack n (.uncorrectable .parity) = some (s.logPlace 2 (stackPlace stack)) := by
  have hnone : (parityData stack n).any s.sectorBad = false := List.any_eq_false.2 fun x hx => Bool.eq_false_iff.1 (hgood x hx)
  rw [State.parityError, hnone, if_neg (by decide)]

theorem scrubStart_due (hs : stack < 16) (hf : stack ∉ s.fence.hbm) (hdue : (s.hen stack).start + s.scrubPeriod stack ≤ s.clock) :
    s.scrubStart stack = some (s.setHen stack { start := s.clock, next := 0, step := 0, quarter := 0 }) := by
  refine if_neg fun hno => ?_
  rcases hno with hst | hfen | hearly
  · omega
  · exact hf (List.contains_iff_mem.1 hfen)
  · omega

theorem scrubCheck_quarter (hs : stack < 16) (hq : (s.hen stack).quarter < 4) (hc : (s.hen stack).start ≤ s.clock)
    (hdue : ((s.hen stack).quarter + 1) * s.scrubPeriod stack ≤ 4 * (s.clock - (s.hen stack).start)) :
    s.scrubCheck stack = some (s.setHen stack { s.hen stack with
      quarter := (s.hen stack).quarter + 1
      step := if 4 * (s.hen stack).next < ((s.hen stack).quarter + 1) * allSectors then min 4 ((s.hen stack).step + 1)
        else (s.hen stack).step }) := by
  rw [State.scrubCheck, if_neg (by omega)]
  simp only [decide_eq_true_eq]

end Scrub

/-! ### Moves of ways (R308) -/

section Ways
variable {s : State} {g pick w : Nat} {r d : Nat × Nat}

/-- The end of a group's period: its counts restart. -/
def wayEnded (s : State) (g : Nat) (t : State) : State := { t with
  wayAt := spSet 0 g (s.clock / 2 ^ 20) s.wayAt
  shHits := t.shHits.filter fun h => h.1 / 1024 != g }

theorem takeWay_free (h : (s.freeWays g)[pick % (s.freeWays g).length]? = some w) : s.takeWay g pick r = some (w, s) := by
  rw [State.takeWay, h]

/-- With no free way it is the donor's. -/
theorem takeWay_full (h : s.freeWays g = []) : s.takeWay g pick r = (s.wayDonor g r.1).bind fun d =>
    if d.2 < r.2 then (s.movableWay d.1 g).map fun w => (w, s.leaveWay g d.1 w) else none := by
  rw [State.takeWay, h]
  rfl

theorem takeWay_donor (h : s.freeWays g = []) (hdon : s.wayDonor g r.1 = some d) (hgain : d.2 < r.2)
    (hw : s.movableWay d.1 g = some w) : s.takeWay g pick r = some (w, s.leaveWay g d.1 w) := by
  rw [takeWay_full h, hdon, Option.bind_some, if_pos hgain, hw, Option.map_some]

theorem takeWay_noDonor (h : s.freeWays g = []) (hdon : s.wayDonor g r.1 = none) : s.takeWay g pick r = none := by
  rw [takeWay_full h, hdon, Option.bind_none]

theorem takeWay_keeps (h : s.freeWays g = []) (hdon : s.wayDonor g r.1 = some d)
    (hno : r.2 ≤ d.2 ∨ s.movableWay d.1 g = none) : s.takeWay g pick r = none := by
  rw [takeWay_full h, hdon, Option.bind_some]
  rcases hno with hloss | hstuck
  · exact if_neg (Nat.not_lt.2 hloss)
  · rw [hstuck, Option.map_none, ite_self]

theorem wayMove_of_due (hg : g < 64) (hdue : spGet 0 s.wayAt g < s.clock / 2 ^ 20) :
    s.wayMove g pick = some (wayEnded s g (match (s.wayReceiver g).bind fun r => (s.takeWay g pick r).map fun t => (r.1, t) with
      | some (p, w, t) => t.giveWay g p w
      | none => s)) :=
  if_neg (by omega)

theorem wayMove_none (hg : g < 64) (hdue : spGet 0 s.wayAt g < s.clock / 2 ^ 20) (hr : s.wayReceiver g = none) :
    s.wayMove g pick = some (wayEnded s g s) := by
  rw [wayMove_of_due hg hdue, hr]
  rfl

theorem wayMove_kept (hg : g < 64) (hdue : spGet 0 s.wayAt g < s.clock / 2 ^ 20) (hr : s.wayReceiver g = some r)
    (ht : s.takeWay g pick r = none) : s.wayMove g pick = some (wayEnded s g s) := by
  rw [wayMove_of_due hg hdue, hr, Option.bind_some, ht]
  rfl

theorem wayMove_moves {t : State} (hg : g < 64) (hdue : spGet 0 s.wayAt g < s.clock / 2 ^ 20) (hr : s.wayReceiver g = some r)
    (ht : s.takeWay g pick r = some (w, t)) : s.wayMove g pick = some (wayEnded s g (t.giveWay g r.1 w)) := by
  rw [wayMove_of_due hg hdue, hr, Option.bind_some, ht]
  rfl

end Ways

/-- Settles O43: the Hen's passes by what its read meets, the row window, and a move of ways by where its way comes from. -/
theorem scrubbingAndWaysComplete : Obligations.ScrubbingAndWaysComplete := by
  refine ⟨fun s stack hd h16 hfence =>
      ⟨fun hdue => runEvent_ok hd (scrubStart_due h16 hfence hdue), fun occupancy hnext hlimit => ?_⟩,
    fun s stack hd h16 hq hc hdue => runEvent_ok hd (scrubCheck_quarter h16 hq hc hdue),
    fun s hd hdue => runEvent_ok hd (if_pos hdue), fun s g pick hd hg hdue => ?_⟩
  · have hi : HenIssues s stack occupancy := ⟨h16, hfence, hnext, hlimit⟩
    refine ⟨exec_scrubRead_of hd hi (fun _ => rfl) fun _ => rfl, fun hdata => ?_, fun hpar => ?_⟩
    · have hin := inHbm_stack h16 hdata
      have hread : ∀ {found t}, (henMoved s stack).sectorError (stack * 2 ^ 31 + (s.hen stack).next) found = some t →
          exec (.scrubRead stack { occupancy := occupancy, found := found }) s = .next t := fun h =>
        exec_scrubRead_of hd hi (fun _ => h) fun hge => absurd hdata (Nat.not_lt.2 hge)
      exact ⟨hread (sectorError_correctable hin), fun hcopy => hread (rebuild_neither hcopy),
        fun hgood => hread (rebuild_parity hin hgood), fun bs hcopy => hread (rebuild_copy hcopy)⟩
    · have hread : ∀ {found t}, (henMoved s stack).parityError stack ((s.hen stack).next - stackSectors) found = some t →
          exec (.scrubRead stack { occupancy := occupancy, found := found }) s = .next t := fun h =>
        exec_scrubRead_of hd hi (fun hlt => absurd hlt (Nat.not_lt.2 hpar)) fun _ => h
      exact ⟨hread rfl, fun hgood => hread (parityError_parity hgood), hread rfl⟩
  · refine ⟨fun hr => runEvent_ok hd (wayMove_none hg hdue hr), fun r hr => ⟨fun w hw => runEvent_ok hd ?_, fun hfull =>
      ⟨fun hdon => runEvent_ok hd ?_, fun d hdon => ⟨fun w hgain hw => runEvent_ok hd ?_, fun hno => runEvent_ok hd ?_⟩⟩⟩⟩
    · exact wayMove_moves hg hdue hr (takeWay_free hw)
    · exact wayMove_kept hg hdue hr (takeWay_noDonor hfull hdon)
    · exact wayMove_moves hg hdue hr (takeWay_donor hfull hdon hgain hw)
    · exact wayMove_kept hg hdue hr (takeWay_keeps hfull hdon hno)

end Sys2Proof.ErrorsAndScrubbing

/-! PROOF. What a trap does to its crew, and the layout of its record (R316, R318, R320, R330). -/

namespace Sys2Proof.Trapping
open Sys2Proof Sys2Proof.Machine

/-! ### The trap that stays held (R330) -/

/-- A trap of a flock's lane 0 for a read of poison. -/
def poisonTrap (flock : Nat) : Trap :=
  { cause := .poisonRead, lanes := 1, addr := 0, pc := 0, code := 0, flock := flock, eng := false }

/-- A flock beside the one given, with a batch formed one cycle later. -/
def youngerTwin (f : Flock) : Flock := { f with num := 1, batches := f.batches.map fun b => { b with age := b.age + 1 } }

/-- A crew of two flocks between the two checkpoints of R140, with a trap of its younger flock held. -/
def holder : Crew := { bootCrew .vector with
  live := { (bootCrew .vector).live with flocks := (bootCrew .vector).live.flocks.flatMap fun f => [f, youngerTwin f] }
  between := true
  heldTrap := some (poisonTrap 1) }

def holding : State := { State.reset with crews := [holder] }

/-- Of two traps of one cause the older batch's stays, so it takes the place of the one held. -/
theorem holding_keeps_older :
    ((holding.raise 0 0 (poisonTrap 0)).crew? 0 0).bind (·.heldTrap) = some (poisonTrap 0) := by decide

/-- Refutes O50: its last clause replaces a held trap for a lower cause alone. Of two traps of one cause, that of the older batch stays
(R330): here a poisoned read of flock 0, whose batch has age 0, takes the place of one of flock 1, whose batch has age 1. -/
theorem not_trapsRollBackAndSuspend : ¬ Obligations.TrapsRollBackAndSuspend := by
  unfold Obligations.TrapsRollBackAndSuspend
  intro h
  obtain ⟨-, hheld⟩ := h holding 0 0 holder (poisonTrap 0) rfl (by decide) rfl
  have holder_stays := holding_keeps_older
  rw [hheld rfl] at holder_stays
  exact absurd holder_stays (by decide)

/-! ### The record's fields (R320) -/

theorem code_lt (c : Cause) : c.code < 2 ^ (8 * 1) := by cases c <;> decide

/-- The bytes of fields in a row, each of a width in bytes and a value. -/
def fieldBytes (fs : List (Nat × Nat)) : List Byte := fs.flatMap fun f => leBytes f.1 f.2

theorem length_fieldBytes (fs : List (Nat × Nat)) : (fieldBytes fs).length = (fs.map Prod.fst).sum := by
  induction fs with
  | nil => rfl
  | cons f fs ih =>
    rw [fieldBytes, List.flatMap_cons, List.length_append, Management.length_leBytes, List.map_cons, List.sum_cons, ← ih]
    rfl

/-- A field is read behind the widths of those before it. -/
theorem field_of_split {pre post : List (Nat × Nat)} {at_ n x : Nat} (hat : (pre.map Prod.fst).sum = at_) :
    leVal (((fieldBytes (pre ++ (n, x) :: post)).drop at_).take n) = x % 2 ^ (8 * n) := by
  have hsplit : fieldBytes (pre ++ (n, x) :: post) = fieldBytes pre ++ (leBytes n x ++ fieldBytes post) := by
    simp only [fieldBytes, List.flatMap_append, List.flatMap_cons]
  rw [hsplit, ← hat, ← length_fieldBytes, List.drop_left, List.take_left' (Management.length_leBytes n x),
    Encoding.leVal_leBytes, pow_mul 2 8 n]
  rfl

/-- The byte of a record's flags. -/
def recordFlags (r : TrapRec) : Nat :=
  (if r.trap.eng then 1 else 0) + (if r.held then 2 else 0) + (if r.pre then 4 else 0) + (if r.halt then 8 else 0)

/-- The fields of a trap record, in order. -/
def recordFields (k : Crew) (r : TrapRec) : List (Nat × Nat) :=
  [(12, 0), (2, k.core), (1, k.slot), (1, r.trap.cause.code), (1, recordFlags r), (1, r.trap.flock), (2, r.trap.code),
    (4, k.launch), (4, k.idx), (4, r.ckptn), (4, if r.trap.eng then 0 else r.trap.lanes.toNat), (8, r.trap.pc), (8, r.trap.addr),
    (12, 0)]

/-- Their widths. -/
def recordWidths : List Nat := [12, 2, 1, 1, 1, 1, 2, 4, 4, 4, 4, 8, 8, 12]

theorem recordFields_widths (k : Crew) (r : TrapRec) : (recordFields k r).map Prod.fst = recordWidths := rfl

theorem recordBytes_eq (k : Crew) (r : TrapRec) : k.recordBytes r = fieldBytes (recordFields k r) := by
  simp only [Crew.recordBytes, fieldBytes, recordFields, recordFlags, List.flatMap_cons, List.flatMap_nil, List.append_assoc,
    List.append_nil]

/-- A field of the record is read at the sum of the widths before it. -/
theorem record_field (k : Crew) (r : TrapRec) {at_ n x : Nat} (j : Nat) (hj : (recordFields k r)[j]? = some (n, x))
    (hat : (recordWidths.take j).sum = at_) : leVal (((k.recordBytes r).drop at_).take n) = x % 2 ^ (8 * n) := by
  obtain ⟨hlt, hget⟩ := List.getElem?_eq_some_iff.1 hj
  have hfs : (recordFields k r).take j ++ (n, x) :: (recordFields k r).drop (j + 1) = recordFields k r := by
    rw [← hget, List.getElem_cons_drop, List.take_append_drop]
  rw [recordBytes_eq, ← hfs]
  exact field_of_split (by rw [List.map_take, recordFields_widths, hat])

theorem record_zeros (k : Crew) (r : TrapRec) {at_ n : Nat} (j : Nat) (hj : (recordFields k r)[j]? = some (n, 0))
    (hat : (recordWidths.take j).sum = at_) : leVal (((k.recordBytes r).drop at_).take n) = 0 :=
  (record_field k r j hj hat).trans (Nat.zero_mod _)

theorem recordFlags_eq (r : TrapRec) : recordFlags r % 2 ^ (8 * 1) =
    (if r.trap.eng then 1 else 0) + 2 * (if r.held then 1 else 0) + 4 * (if r.pre then 1 else 0) + 8 * (if r.halt then 1 else 0) := by
  unfold recordFlags
  split <;> split <;> split <;> split <;> rfl

theorem recordLanes_lt (r : TrapRec) : (if r.trap.eng then 0 else r.trap.lanes.toNat) < 2 ^ (8 * 4) := by
  split
  · decide
  · exact r.trap.lanes.isLt

/-- Settles O51: the record is its fields in a row, and each is read at the sum of the widths before it. -/
theorem trapRecordLayout : Obligations.TrapRecordLayout := by
  unfold Obligations.TrapRecordLayout
  intro k r
  have hlen : (k.recordBytes r).length = 64 := by
    rw [recordBytes_eq, length_fieldBytes, recordFields_widths]
    decide
  refine ⟨hlen, ?_, ?_, ?_, ?_, ?_, ?_, ?_, ?_, ?_, ?_, ?_, ?_, ?_, ?_⟩
  · exact record_zeros k r 0 rfl (by decide)
  · exact record_zeros k r 13 rfl (by decide)
  · exact record_field k r 1 rfl (by decide)
  · exact record_field k r 2 rfl (by decide)
  · exact (record_field k r 3 rfl (by decide)).trans (Nat.mod_eq_of_lt (code_lt _))
  · exact (record_field k r 4 rfl (by decide)).trans (recordFlags_eq r)
  · exact record_field k r 5 rfl (by decide)
  · exact record_field k r 6 rfl (by decide)
  · exact record_field k r 7 rfl (by decide)
  · exact record_field k r 8 rfl (by decide)
  · exact record_field k r 9 rfl (by decide)
  · exact (record_field k r 10 rfl (by decide)).trans (Nat.mod_eq_of_lt (recordLanes_lt r))
  · exact record_field k r 11 rfl (by decide)
  · exact record_field k r 12 rfl (by decide)

end Sys2Proof.Trapping
